-- ==== Sys2Proof/Word.lean ====
section
/-!
DEFINITION. Words of the Iryth 9640 and the plainest arithmetic on them.

A register field is a natural number below `2^width`; the manual gives the fields their own widths, and the
register file (`Machine/State.lean`) stores each field by itself.  Bytes of memory are `BitVec 8`.
-/
namespace Sys2Proof

/-- One byte of a bank, of DRAM or of MRAM. -/
abbrev Byte := BitVec 8

/-- One 32-bit register word (R8). -/
abbrev Word := BitVec 32

/-- The value of an unsigned `w`-bit field read as two's complement (00, Numbers and units). -/
def toSigned (w v : Nat) : Int :=
  let u := v % 2 ^ w
  if 2 * u < 2 ^ w then (u : Int) else (u : Int) - (2 ^ w : Nat)

/-- The `w`-bit two's complement code of an integer. -/
def ofSigned (w : Nat) (i : Int) : Nat := (i % ((2 ^ w : Nat) : Int)).toNat

/-- Bit `i` of a natural number. -/
def bit (v i : Nat) : Bool := v.testBit i

/-- Bits `[lsb + w - 1 : lsb]` of a natural number. -/
def bits (v lsb w : Nat) : Nat := v / 2 ^ lsb % 2 ^ w

/-- A Bool as the bit 0 or 1. -/
def b2n (b : Bool) : Nat := if b then 1 else 0

/-- Division of integers that truncates towards zero, as the manual's pseudocode divides (00). -/
def tdiv (a b : Int) : Int := Int.tdiv a b

/-- An integer limited to `[lo, hi]`. -/
def clampInt (lo hi v : Int) : Int := if v < lo then lo else if hi < v then hi else v

/-- One field of a register page: page, byte offset, lowest bit, width and the value of its Reset column. -/
structure Fld where
  page  : Nat
  off   : Nat
  lsb   : Nat
  width : Nat
  reset : Nat
deriving DecidableEq, Repr

/-- The field's place in the register file: its bit address, counted over all pages. -/
def Fld.key (f : Fld) : Nat := (f.page * 4096 + f.off) * 32 + f.lsb

end Sys2Proof
end

