-- ==== Sys2Proof/Syntax.lean ====
section
/-! DEFINITION. The commands of the 9640 as syntax. -/
namespace Sys2Proof

/-- Who makes an access: a berth, the host through BAR0, or the host through the migration window (R502, R496). -/
inductive Agent where
  | berth (n : Fin 12)
  | host
  | window
deriving DecidableEq, Repr

/-- What one flash bank verifies to (R457, R458).  The flash lies outside the device, so a command that reads it carries
this summary: every check of R458 but the anti-rollback one, SVN, VERSION, RECORD_VER, LIVE_OK, and the SHA-256 digest of
the TYPE 0x20 section. -/
structure ImageInfo where
  ok        : Bool
  svn       : Nat
  version   : Nat
  recordVer : Nat
  liveOk    : Bool
  supDigest : List Nat
deriving DecidableEq, Repr

/-- The header of an SQ entry whose CRC holds (Table 10.4); `clean` says that every reserved byte and bit is 0. -/
structure MsgHdr where
  seq   : Nat
  epoch : Nat
  job   : Nat
  force : Bool
  clean : Bool
deriving DecidableEq, Repr


/-- Who reads or writes a bank or the DRAM (Table 8.9); `fetch` marks an instruction fetch. -/
inductive Master where
  | berth (n : Fin 12) (fetch : Bool)
  | pipeline (k : Fin 6)
  | lane (n : Fin 10)
  | loopEngine (e : Fin 4)
  | harbourmaster
  | endpoint
  | scrub
  | fill
  | dramPort
  | dma (n : Fin 32)
deriving DecidableEq, Repr

/-- The commands of the 9640: one constructor for every row of the command table, with the operands its rule names.
Data that comes from outside the block (a level, a stamp, a converter code, a frame, what a host window holds) is an
operand of the command that brings it.  Commands with operands come first, in table order, then those without: the compiler numbers
no more than 244 constructors that carry data. -/
inductive Instr where
  /-- RST_N_RELEASE (R453). Release of RST_N takes the device from OFF to BOOT: the sequencer reads its tables and starts SEQ_UP. Operands: the images in the two flash banks and PROF[1:0] as sampled. -/
  | rstNRelease (bankA : ImageInfo) (bankB : ImageInfo) (prof : Fin 4)
  /-- INTERNAL_POWER_ON_RESET (R519). VAON below 0.68 V or VIO33 below 2.9 V for 2 µs acts as an assertion of RST_N. Operands: VAON rises: reset until VAON is valid. -/
  | internalPowerOnReset (bankA : ImageInfo) (bankB : ImageInfo) (prof : Fin 4)
  /-- DRAM_FILL_DONE (R210). A DRAM channel finishes training and filling and becomes READY. Operands: whether training succeeded, and the capacity fitted. -/
  | dramFillDone (c : Fin 2) (ok : Bool) (gib : Nat)
  /-- REGISTER_WRITE (R8). A write to a register that has no row of its own, subject to alignment, ownership, lock and field class. Operands: a write of `size` bytes at byte offset `off` of a page. -/
  | registerWrite (agent : Agent) (page : Nat) (off : Nat) (value : Nat) (size : Nat)
  /-- COMMIT (R13). A write of 1 to PG_CTRL.COMMIT checks the staging set and sets STAGED_PEND, or refuses with CFG_MISMATCH. -/
  | commit (agent : Agent) (page : Nat)
  /-- LOCK (R11). A write of 1 to PG_CTRL.LOCK makes every field of the page read-only until reset, except the w1c event and fault bits. -/
  | lock (agent : Agent) (page : Nat)
  /-- ISOLATE (R436). A write of 1 to PG_CTRL.ISOLATE stops the block, drives its safe state and loses the committed pages it serves. -/
  | isolate (agent : Agent) (page : Nat)
  /-- ISOLATE_RESTORE (R436). A write of 0 to PG_CTRL.ISOLATE, refused while a source is active, restarts the block from its initial state. -/
  | isolateRestore (agent : Agent) (page : Nat)
  /-- OWNER_CHANGE (R503). A write of PG_CTRL.OWNER by the holder of role 0x0 changes the owner for later accesses. -/
  | ownerChange (agent : Agent) (page : Nat) (host : Bool)
  /-- PAGE_ABORT (R501). A write of 1 to PG_CTRL.ABORT acts as the block's chapter states. -/
  | pageAbort (agent : Agent) (page : Nat)
  /-- PG_EVT_CLEAR (R507). A w1c write clears event bits, unless an event sets the bit in the same tick. -/
  | pgEvtClear (agent : Agent) (page : Nat) (mask : Nat)
  /-- PG_FLT_CLEAR (R506). A w1c write clears fault bits whose condition is inactive; FIRST reads 0xFF once every bit is clear. -/
  | pgFltClear (agent : Agent) (page : Nat) (mask : Nat)
  /-- STATUS_FLAG_CLEAR (R504). A w1c write clears CFG_MISMATCH or ACCESS_BUSY, unless a new cause arrives in the same tick. -/
  | statusFlagClear (agent : Agent) (page : Nat) (mismatch : Bool) (accessBusy : Bool)
  /-- PT_SKIP (R56). A write of n to PT_SKIP.COUNT makes the next n announce instants skip with reason REQUESTED. -/
  | ptSkip (agent : Agent) (n : Nat)
  /-- ANCHOR_WINDOW_END (R43). An anchor window that ends without an edge fails the page's commit gate with reason ANCHOR_MISS. -/
  | anchorWindowEnd (slot : Fin 16)
  /-- COMMIT_GATE (R45). At the commit instant the gate conditions are tested, and a page that passes becomes COMMITTED and its decode lanes start. -/
  | commitGate (slot : Fin 16)
  /-- DIVERT_DEADLINE (R49). At the divert deadline a LOST page is diverted, and a later loss leaves the sheet spoiled. -/
  | divertDeadline (slot : Fin 16)
  /-- EXIT_WINDOW_END (R50). An exit window that ends without a trailing edge makes the page LOST with cause JAM. -/
  | exitWindowEnd (slot : Fin 16)
  /-- HEAD_UNDERRUN (R19). An underrun of a head-link transmit FIFO during exposure sends idle symbols and loses the page with cause HEAD_UNDERRUN. -/
  | headUnderrun (station : Fin 6)
  /-- BD_EDGE (R62). A qualified beam-detect edge is stamped and, inside the acceptance window, accepted as the scan's beam detect. Operands: the station, the stamp in 1/256 tick and the stamp in 1/64 pixel. -/
  | bdEdge (station : Fin 6) (t : Nat) (px : Nat)
  /-- BD_WINDOW_END (R72). An acceptance window that ends without an accepted edge synthesises the beam-detect stamp. -/
  | bdWindowEnd (station : Fin 6)
  /-- BD_MISSING (R73). When the time since the last accepted beam detect exceeds 1.5 × BT_PERIOD, BD_MISSING is raised. -/
  | bdMissing (station : Fin 6)
  /-- INDEX_EDGE (R65). A qualified polygon index edge sets facet 0 and checks the facet count, raising FACET_SYNC on a mismatch. -/
  | indexEdge (station : Fin 6)
  /-- IDX_MISSING (R65). No index edge within 2 × FACETS scans raises IDX_MISSING. -/
  | idxMissing (station : Fin 6)
  /-- FREF_INC_WRITE (R78). A write to FREF_INC applies from the next tick, or is ignored while the group exposes a committed page. -/
  | frefIncWrite (agent : Agent) (g : Fin 2) (value : Nat)
  /-- RESISTANCE_TEST_START (R95). A due resistance test starts in a gap that admits it, and the head is then not ready. -/
  | resistanceTestStart (station : Fin 6)
  /-- TEST_EMITTER (R161). At each 203.125 µs step TEST_EMITTER is sent to the head driver for the next emitter. -/
  | testEmitter (station : Fin 6)
  /-- TEST_RESULT (R97). A TEST_RESULT reply gives RDYN and the emitter's class, with drift, dead and short handling. Operands: the emitter, OPEN, V1 and V2 in 100 µV. -/
  | testResult (station : Fin 6) (emitter : Fin 64) (openDrive : Bool) (v1 : Nat) (v2 : Nat)
  /-- TEST_TIMEOUT (R161). A result not arrived by the next step is a timeout, and four in a row end the window. -/
  | testTimeout (station : Fin 6)
  /-- TEST_WINDOW_END (R96). At the end of the reserved window the test completes and the head is ready. -/
  | testWindowEnd (station : Fin 6)
  /-- IL_TEST_NOW (R95). A write of 1 to IL_TEST.NOW makes a resistance test due. Operands: the word written to IL_TEST. -/
  | ilTestNow (agent : Agent) (station : Fin 6) (value : Nat)
  /-- IL_DEAD_WRITE (R99). A write to IL_DEAD withholds or restores emitters from the next scan, with RESTORE and head-memory updates. -/
  | ilDeadWrite (agent : Agent) (station : Fin 6) (hi : Bool) (value : Nat)
  /-- REPLAN (R101). Berth 5 re-plans a group on a trigger and stages new interlace tables, or raises NO_PLAN. Operands: a request of the host or the fault manager, and the limits of the profile: v in 1/4 line and the polygon speed in rpm. -/
  | replan (station : Fin 6) (requested : Bool) (v4Max : Nat) (v4Min : Nat) (rpmMin : Nat) (rpmMax : Nat)
  /-- HTEMP_SAMPLE (R107). Each head-temperature sample checks WARN, caps power, and checks for QUENCH withdrawal. -/
  | htempSample (station : Fin 6) (code : Nat)
  /-- HEAD_CUT (R108). The CUT comparator held for CUT_Q stops emission, sends QUENCH and loses the page. -/
  | headCut (station : Fin 6)
  /-- MARK_EDGE (R133). A qualified mark-sensor comparator edge is stamped while the mark window is open. Operands: the sensor and the stamp of its qualified edge in 1/256 tick. -/
  | markEdge (j : Fin 4) (stamp : Nat)
  /-- LINK_TRAINING (R153). Head-link training runs the sequence of Table 6.6 after reset, RETRAIN, head exchange, CMD_FAIL or a STATUS timeout. -/
  | linkTraining (station : Fin 6)
  /-- RETRAIN (R153). A write of 1 to HL_CFG.RETRAIN starts training. Operands: the word written to HL_CFG. -/
  | retrain (agent : Agent) (station : Fin 6) (value : Nat)
  /-- STATUS_LANE_TIMEOUT (R154). No block lock on status lane L by 600 µs restarts the turn with the next lower lane. -/
  | statusLaneTimeout (station : Fin 6)
  /-- TRAINING_TIMEOUT (R154). An attempt not UP within 5 ms fails, and three failures put the link in FAILED. -/
  | trainingTimeout (station : Fin 6)
  /-- QUENCH_REPEAT (R159). The QUENCH frame is repeated every 16 frames while QUENCH is in force. -/
  | quenchRepeat (station : Fin 6)
  /-- ALIGN_SEND (R143). ALIGN blocks go out on every data lane every 1,024 frames while UP, or every 16 during training. -/
  | alignSend (station : Fin 6)
  /-- CMD_ACK_TIMEOUT (R144). A command without an ACK is resent, and a third failure raises CMD_FAIL and starts training. -/
  | cmdAckTimeout (station : Fin 6)
  /-- STATUS (R143). A STATUS block from the head updates LOCK, READY and OWN_CUT. Operands: STATUS flags, LOCK, last scan emitted, and the sync-header and CRC-8 errors on the lane since the last block. -/
  | status (station : Fin 6) (flags : Nat) (lock : Nat) (scan : Nat) (rxerr : Nat)
  /-- ACK (R144). A REPLY ACK completes the command with the same tag. -/
  | ack (station : Fin 6) (tag : Nat)
  /-- SCAN_ERR (R150). A REPLY SCAN_ERR loses the page with cause LINK and counts the lanes named. Operands: the scan number and the lanes whose CRC failed. -/
  | scanErr (station : Fin 6) (scanNo : Nat) (lanes : Nat)
  /-- STATUS_TIMEOUT (R153). No valid STATUS within STAT_TO starts training. -/
  | statusTimeout (station : Fin 6)
  /-- REPLY_SLOT (R155). In state B a reply slot opens after each SCAN_END, or every 100 µs while idle. -/
  | replySlot (station : Fin 6)
  /-- HEAD_MEMORY_READ (R163). A read of the head memory completes and accepts or refuses the head, detecting an exchange. Operands: the bytes 0x0000–0x040F. -/
  | headMemoryRead (station : Fin 6) (bytes : List Nat)
  /-- SEPARATION_WRITTEN (R178). When a separation is in the store, its headers are checked and it counts as written or is refused. Operands: the page, the station and the lane that reads the headers. -/
  | separationWritten (pageId : Nat) (station : Fin 6) (lane : Fin 8)
  /-- FIRST_HEADER_FETCH (R179). A free lane fetches a context's first block header at priming. -/
  | firstHeaderFetch (pageId : Nat) (station : Fin 6) (lane : Fin 8)
  /-- DECODE_BLOCK_START (R180). A free decode lane takes the next block of the eligible context with the fewest published lines. -/
  | decodeBlockStart (lane : Fin 8)
  /-- DECODE_BLOCK_DONE (R172). A decode lane finishes a block and publishes its lines. -/
  | decodeBlockDone (lane : Fin 8)
  /-- ZERO_FILL_LINE (R181). For a LOST page the context writes each remaining line as zeros as ring room allows. -/
  | zeroFillLine (ctx : Fin 24)
  /-- GO (R185). A write of 1 to EJ_CTL.GO starts an encode job, or fails it with BAD_PARAM or LANE_FAIL. Operands: the writer, encode lane 8 + n, and the word written. -/
  | go (agent : Agent) (lane : Fin 2) (value : Nat)
  /-- ENCODE_JOB_DONE (R183). An encode job writes its trailer, then its header, and reports its length. Operands: the lane, and what host windows return from the start of the source on. -/
  | encodeJobDone (lane : Fin 2) (data : List Nat)
  /-- ENCODE_JOB_FAIL (R183). An encode job fails at its first error and commits nothing. Operands: the lane, and OUT_FULL, SRC_ERR or UNCORR. -/
  | encodeJobFail (lane : Fin 2) (status : Fin 3)
  /-- ENCODE_ABORT (R187). PG_CTRL.ABORT on an encode lane fails the job with ABORTED unless its header is being written. Operands: the writer, the lane, and whether its header is being written. -/
  | encodeAbort (agent : Agent) (lane : Fin 2) (header : Bool)
  /-- BANK_READ (R197). A bank read applies the byte code, decodes the hallmark of a sealed page if needed, and returns the word. Operands: the word's address; stored bits upset since, as byte index in the page (hallmark from 4,096) and 13-bit mask; wrong bits of the word on its way, by Table 8.4. -/
  | bankRead (m : Master) (addr : Nat) (strikes : List (Nat × Nat)) (flight : Nat)
  /-- BANK_WRITE (R204). A bank write checks the word code, stores the enabled bytes and opens a sealed page. Operands: byte enables and the wrong bits of the word on its way. -/
  | bankWrite (m : Master) (addr : Nat) (data : Nat) (enables : Nat) (flight : Nat)
  /-- DRAM_READ (R214). A DRAM read is served, with mirror repair or BOTH_UE in mirrored mode. Operands: stored bits of the word upset since on each channel; wrong bits on the way; bytes rebuilt so far; a channel whose command failed 3 retries. -/
  | dramRead (m : Master) (addr : Nat) (wrong0 : Nat) (wrong1 : Nat) (flight : Nat) (rebuilt : Nat) (stuck0 : Bool) (stuck1 : Bool)
  /-- DRAM_WRITE (R207). A DRAM write of whole words, with read-merge for partial blocks and mirrored completion. Operands: consecutive words of one block, the byte enables of each word, wrong bits of the first word on its way. -/
  | dramWrite (m : Master) (addr : Nat) (words : List Nat) (enables : Nat) (flight : Nat) (stuck0 : Bool) (stuck1 : Bool)
  /-- DRAM_RETRAIN (R216). A write to DP_CFG.RETRAIN retrains a FAILED channel, then rebuilds or refills it. Operands: bits of DP_CFG.RETRAIN. -/
  | dramRetrain (agent : Agent) (chans : Nat)
  /-- REBUILD_DONE (R216). The rebuild of a channel completes and the channel becomes READY. -/
  | rebuildDone (c : Fin 2)
  /-- SEAL_GO (R226). A write of 1 to CS_SEAL.GO seals COUNT pages from PAGE. -/
  | sealGo (agent : Agent) (page : Nat) (count : Nat)
  /-- SCRUB_READ (R212). A scrub read checks a word or a sealed page and writes back corrections or poison. Operands: upsets as in BANK_READ and DRAM_READ; the read ends a pass. -/
  | scrubRead (addr : Nat) (strikes : List (Nat × Nat)) (wrong0 : Nat) (wrong1 : Nat) (last : Bool)
  /-- SCRUB_LATE (R212). A scrub pass that does not complete within its period raises SCRUB_LATE. -/
  | scrubLate (onChip : Bool)
  /-- DOORBELL (R238). A write of 1 to DC_DOORBELL.RING sets DB_PEND and starts a fetch from IDLE. -/
  | doorbell (agent : Agent) (ch : Fin 32)
  /-- DESCRIPTOR_FETCH (R235). A fetched descriptor is checked and the channel becomes ACTIVE, refetches, goes IDLE or halts. Operands: the 32 bytes a host window returns, and whether its completion was good. -/
  | descriptorFetch (ch : Fin 32) (host : List Nat) (hostOk : Bool)
  /-- DMA_BURST_GRANT (R240). The arbiter grants a ready channel one burst by priority, pacing and GAP. Operands: bit n: the request line of channel n is asserted. -/
  | dmaBurstGrant (requests : Nat)
  /-- DMA_BURST_DONE (R232). A burst completes, and the last one writes back the descriptor with DONE. Operands: bytes read from a host window or a peripheral, the bytes before a failing host request, and wrong bits of words on their way. -/
  | dmaBurstDone (ch : Fin 32) (data : List Nat) (hostBad : Option Nat) (flight : List (Nat × Nat))
  /-- PAUSE (R236). A write of DC_CMD.PAUSE drains the channel into PAUSED. -/
  | pause (agent : Agent) (ch : Fin 32)
  /-- RESUME (R236). A write of DC_CMD.RESUME continues the descriptor from DC_PROG. -/
  | resume (agent : Agent) (ch : Fin 32)
  /-- CLEAR (R235). A write of DC_CMD.CLEAR takes a HALTED channel to IDLE. -/
  | clear (agent : Agent) (ch : Fin 32)
  /-- DMA_ABORT (R235). PG_CTRL.ABORT drains an active channel and writes back ABORTED. -/
  | dmaAbort (agent : Agent) (ch : Fin 32)
  /-- PAUSE_DRAINED (R236). When the outstanding bursts are written, a PAUSING channel reaches PAUSED. -/
  | pauseDrained (ch : Fin 32)
  /-- DC_HEAD_WRITE (R237). A write of DC_HEAD in IDLE or HALTED sets DC_CUR. -/
  | dcHeadWrite (agent : Agent) (ch : Fin 32) (hi : Bool) (value : Nat)
  /-- WINDOW_REVOKE (R244). A write that changes a DG_WIN entry in use stops the channels that use it with WINDOW. Operands: a write of one word of DG_WIN[n]. -/
  | windowRevoke (agent : Agent) (n : Fin 16) (word : Fin 4) (value : Nat)
  /-- PARTNER_TIMEOUT (R242). No legacy DACK for 64 µs inside a burst halts the channel with PARTNER_TIMEOUT. -/
  | partnerTimeout (ch : Fin 32)
  /-- FUNCTION_RESET (R250). PERST_N, Hot Reset, FLR or link-down resets the PCI Express function, revokes windows and stops the rings. Operands: PERST_N, Hot Reset, Function Level Reset or link-down. -/
  | functionReset (perst : Bool)
  /-- BAR2_WRITE (R253). A host write through BAR2 stores into the upload area or is dropped and counted. -/
  | bar2Write (off : Nat) (bytes : List Byte) (poisoned : Bool)
  /-- BAR2_READ (R253). A host read through BAR2 returns upload data, 0 for session state, or poisoned data. -/
  | bar2Read (off : Nat) (len : Nat)
  /-- MSIX_SEND (R254). An MSI-X message is sent, or held pending while its vector is masked. Operands: a vector whose pending bit is set is unmasked. -/
  | msixSend (vector : Fin 64)
  /-- RINGS_ENABLE (R256). A write of ENABLE declares window 0 over the ring area and starts the rings, or stops them with 0. -/
  | ringsEnable (agent : Agent) (on : Bool)
  /-- SQ_TAIL_WRITE (R257). A write of QY_SQ_TAIL makes the device read SQ entries up to the tail. -/
  | sqTailWrite (agent : Agent) (tail : Nat)
  /-- CQ_HEAD_WRITE (R258). A write of QY_CQ_HEAD releases CQ entries and lets held entries be written. -/
  | cqHeadWrite (agent : Agent) (head : Nat)
  /-- BAD_TYPE (R259). An SQ entry of unknown TYPE is refused with BAD_TYPE. -/
  | badType (hdr : MsgHdr) (type : Nat)
  /-- SESSION_OPEN (R265). SESSION_OPEN opens a session under a new epoch, forcing the old one closed if asked. -/
  | sessionOpen (hdr : MsgHdr) (hostTag : Nat) (version : Nat)
  /-- SESSION_RESUME (R266). SESSION_RESUME continues a session under a new epoch and replays entries after LAST_DSEQ. -/
  | sessionResume (hdr : MsgHdr) (lastAck : Nat) (lastDseq : Nat) (hostTag : Nat)
  /-- SESSION_CLOSE (R535). SESSION_CLOSE ends the session, refused with STATE while jobs are open unless forced. -/
  | sessionClose (hdr : MsgHdr)
  /-- KEEPALIVE (R279). KEEPALIVE counts as host activity for the heartbeat check. -/
  | keepalive (hdr : MsgHdr)
  /-- WINDOW_SET (R280). WINDOW_SET writes host window n for n = 1 to 15. -/
  | windowSet (hdr : MsgHdr) (window : Nat) (valid : Bool) (rd : Bool) (wr : Bool) (base : Nat) (size : Nat)
  /-- JOB_OPEN (R271). JOB_OPEN opens a job with its station set, reprint and re-plan attributes. -/
  | jobOpen (hdr : MsgHdr) (stations : Nat) (reprint : Bool) (skipOk : Bool)
  /-- JOB_CLOSE (R273). JOB_CLOSE declares that no further page will be defined for the job. -/
  | jobClose (hdr : MsgHdr)
  /-- JOB_ABORT (R273). JOB_ABORT removes unfed pages, blanks fed ones and ends the job. -/
  | jobAbort (hdr : MsgHdr)
  /-- JOB_DONE (R273). When every page of a job is finished, the pages are RETIRED and JOB_DONE is posted. Operands: the end of a job is evaluated (R273). -/
  | jobDone (job : Nat)
  /-- PAGE_DEFINE (R272). PAGE_DEFINE defines a page with its sheet length, size and format. -/
  | pageDefine (hdr : MsgHdr) (pageId : Nat) (sheetLen : Nat) (width : Nat) (height : Nat) (fmt : Nat)
  /-- SEP_SUBMIT (R274). SEP_SUBMIT queues a separation part for DMA from a host window, or for encoding. -/
  | sepSubmit (hdr : MsgHdr) (pageId : Nat) (station : Nat) (last : Bool) (encode : Bool) (effort : Nat) (grow : Bool) (window : Nat) (offset : Nat) (partOffs : Nat) (length : Nat) (streamLen : Nat) (stride : Nat)
  /-- SEP_WRITTEN (R274). SEP_WRITTEN queues a part copied from the upload area. -/
  | sepWritten (hdr : MsgHdr) (pageId : Nat) (station : Nat) (last : Bool) (mbOffs : Nat) (partOffs : Nat) (length : Nat) (streamLen : Nat)
  /-- PAGE_RELEASE (R36). PAGE_RELEASE places the page at the tail of the released queue. -/
  | pageRelease (hdr : MsgHdr) (pageId : Nat)
  /-- PAGE_RETIRE (R36). PAGE_RETIRE retires the page, or defers retirement while it is committed. -/
  | pageRetire (hdr : MsgHdr) (pageId : Nat)
  /-- PAGE_QUERY (R276). PAGE_QUERY returns the page's state, sheet, cause and stored separations. -/
  | pageQuery (hdr : MsgHdr) (pageId : Nat)
  /-- PART_DONE (R276). A separation part's transfer completes or fails, and PART_DONE is posted. Operands: the transfer of a part ends: 0 stored, else the reason of SEP_REFUSED and the EJ_STAT.STATUS; the bytes read from the host window. -/
  | partDone (pageId : Nat) (station : Fin 6) (partOffs : Nat) (result : Nat) (status : Nat) (data : List Nat)
  /-- EDKAR_CYCLE (R288). At each 1 ms boundary the port sends SYNC and one unicast frame to each polled module. -/
  | edkarCycle (port : Fin 2)
  /-- MODULE_WINDOW_CLOSE (R291). At the close of a module's window an unanswered transaction is retried or fails, and silence is counted. -/
  | moduleWindowClose (port : Fin 2) (m : Fin 16)
  /-- MODULE_STATUS (R294). A STATUS frame from a module records its flags. -/
  | moduleStatus (port : Fin 2) (m : Fin 16) (tid : Nat) (flags : Nat) (events : Nat) (tag : List Nat)
  /-- IDENTITY (R294). A valid IDENTITY records the module's identity and moves it to IDENT or ACTIVE. -/
  | identity (port : Fin 2) (m : Fin 16) (tid : Nat) (vendor : Nat) (model : Nat) (serial : Nat) (version : Nat) (cls : Nat) (caps : Nat)
  /-- AUTH_RESPONSE (R297). An AUTH_RESPONSE is verified and sets the session key, or counts a failure. -/
  | authResponse (port : Fin 2) (m : Fin 16) (tid : Nat) (response : List Nat)
  /-- SHEET_REPLY (R301). A SHEET_REPLY gives PENDING, ACCEPT, REFUSE or DIVERT for an announced or fed sheet. -/
  | sheetReply (port : Fin 2) (m : Fin 16) (tid : Nat) (sheet : Nat) (decision : Nat) (tag : List Nat)
  /-- MODULE_ACK (R290). An ACK frame from a module completes a notice or quarantine. -/
  | moduleAck (port : Fin 2) (m : Fin 16) (tid : Nat) (tag : List Nat)
  /-- MODULE_EVENT (R305). An EVENT frame with ESEQ = EACK + 1 is accepted and handled by its code. -/
  | moduleEvent (port : Fin 2) (m : Fin 16) (eseq : Nat) (code : Nat) (sheet : Nat) (time : Nat) (tag : List Nat)
  /-- MALFORMED_FRAME (R287). A malformed received frame is dropped and counted. -/
  | malformedFrame (port : Fin 2) (m : Fin 16)
  /-- BUDGET_VIOLATION (R299). Too many frames, or driving outside the window, is a violation that may throttle the module. -/
  | budgetViolation (port : Fin 2) (m : Fin 16)
  /-- OUT_OF_WINDOW_ACTIVITY (R300). Characters outside every window make a bad cycle, and three in a row enter BUS_FAULT. -/
  | outOfWindowActivity (port : Fin 2)
  /-- THROTTLE_EXPIRY (R294). A THROTTLED module with no violation for 1 s returns to ACTIVE. -/
  | throttleExpiry (port : Fin 2) (m : Fin 16)
  /-- ANNOUNCE_DEADLINE (R301). At 5 ms after the cycle boundary the port's decision for the announced sheet is formed. -/
  | announceDeadline (sheet : Nat)
  /-- FEED_DEADLINE (R304). Feeder silence until T_exp less 2 ms raises FEED_REFUSED. -/
  | feedDeadline (sheet : Nat)
  /-- AUTH_PERIOD_EXPIRY (R297). Every ED_AUTH.PERIOD seconds the module is challenged again. -/
  | authPeriodExpiry (port : Fin 2) (m : Fin 16)
  /-- PORT_STOP (R534). Clearing PORT_EN, or SAFE, stops the port and fails open transactions. -/
  | portStop (agent : Agent) (port : Fin 2)
  /-- PORT_START (R307). Setting PORT_EN runs the port through ENUM and probes every address. -/
  | portStart (agent : Agent) (port : Fin 2)
  /-- MODULE_CLEAR (R294). A write of ED_MOD.CLEAR returns a quarantined or conflicting module to ABSENT. -/
  | moduleClear (agent : Agent) (port : Fin 2) (m : Fin 16)
  /-- SHEET_SENSOR_EDGE (R309). A qualified edge at a sheet-sensor input is stamped, latched and used for tracking. Operands: the input, its new level at the pin, and the tick of the first sample at that level. -/
  | sheetSensorEdge (i : Fin 64) (high : Bool) (stamp : Nat)
  /-- LOCKOUT_END (R310). At the end of a lockout the level is checked and an opposite edge may be latched. -/
  | lockoutEnd (i : Fin 64)
  /-- TRACK_WINDOW_END (R325). A track window that ends without an accepted edge declares a jam. Operands: the page's slot, the track point, and which of its windows has ended. -/
  | trackWindowEnd (slot : Fin 16) (t : Fin 16) (trail : Bool)
  /-- DECLARE (R326). A write of SS_CMD.DECLARE declares a jam in the named zone. -/
  | declare (agent : Agent) (zone : Nat)
  /-- STEPPER_SAMPLE (R313). Each 1,000-tick sample updates a stepper's speed, position and currents. -/
  | stepperSample (n : Fin 16)
  /-- ESTOP (R315). A write of STP_CMD.ESTOP sets MODE 0 and stops the channel at EDEC. -/
  | estop (agent : Agent) (n : Fin 16)
  /-- HOME (R319). A write of STP_CMD.HOME starts homing. -/
  | home (agent : Agent) (n : Fin 16)
  /-- COARSE_STEP (R316). A qualified rising STEP edge advances the coarse count and sets the interpolation speed. Operands: STP_DIR as qualified with the edge. -/
  | coarseStep (n : Fin 16) (dir : Bool)
  /-- ENCODER_COUNT (R321). A qualified A or B transition counts and updates the raw count, MONO and the backlog. Operands: A leads B in this transition; both inputs changed between two qualified states. -/
  | encoderCount (e : Fin 8) (aLeads : Bool) (both : Bool)
  /-- ENCODER_INDEX (R324). A qualified index edge latches the raw count and checks CPR. -/
  | encoderIndex (e : Fin 8)
  /-- ENCODER_SPEED (R323). At the end of each ENC_SPD period the speed is computed. -/
  | encoderSpeed (e : Fin 8)
  /-- RESYNC (R322). A write of ENC_CMD.RESYNC resets the backlog and the reverse state. -/
  | resync (agent : Agent) (e : Fin 8)
  /-- COMMUTATION_EDGE (R336). A Hall or back-EMF sense edge sets the sector and commutates. Operands: the levels of the sense inputs after the edge, S3 S2 S1. -/
  | commutationEdge (n : Fin 12) (code : Fin 8)
  /-- SECTOR_TIMEOUT (R337). A back-EMF sector without a crossing is commutated at 1.5 sector times. -/
  | sectorTimeout (n : Fin 12)
  /-- MOTOR_SAMPLE (R340). At each 1 ms sample the ramp moves towards the target and the band is judged. -/
  | motorSample (n : Fin 12)
  /-- STALL (R345). No commutation for CM_STALL.T in RUN switches off the gates. -/
  | stall (n : Fin 12)
  /-- START (R346). A write of CM_CMD.START requests a start, or continues RUN from STOPPING. -/
  | start (agent : Agent) (n : Fin 12)
  /-- STOP (R346). A write of CM_CMD.STOP stops the channel at DEC. -/
  | stop (agent : Agent) (n : Fin 12)
  /-- COAST (R346). A write of CM_CMD.COAST switches all gates off at once. -/
  | coast (agent : Agent) (n : Fin 12)
  /-- KE_PROBE (R349). A write of CM_CMD.KE_PROBE, or the KE_PER timer, makes the channel coast and estimate Ke. Operands: none: the KE_PER timer. -/
  | keProbe (agent : Option Agent) (n : Fin 12)
  /-- START_ADMIT (R348). A queued start is admitted when the group's budget allows. -/
  | startAdmit (g : Fin 2)
  /-- LISTEN_DONE (R346). LISTEN ends with a known speed or a timeout, leading to RUN, WAIT_SLOW or ALIGN. -/
  | listenDone (n : Fin 12)
  /-- ALIGN_DONE (R346). After ALIGN_T the channel enters open-loop forced commutation. -/
  | alignDone (n : Fin 12)
  /-- BUS_SAMPLE (R351). Each 10 µs bus sample switches the chopper and checks trip, undervoltage and chopper faults. -/
  | busSample (g : Fin 2)
  /-- TEST (R352). A write of MB_CMD.TEST gives a 50 µs chopper pulse. -/
  | test (agent : Agent) (g : Fin 2)
  /-- RESET_TRIP (R353). A write of MB_CMD.RESET_TRIP leaves TRIPPED and requeues remembered starts. -/
  | resetTrip (agent : Agent) (g : Fin 2)
  /-- SLOT_SAMPLE (R362). At its sample instant a loop slot computes its output and applies it to its destination. Operands: the ticks from the sample instant to the output. -/
  | slotSample (e : Fin 4) (i : Fin 32) (delay : Nat)
  /-- FIXED_LATENCY_APPLY (R360). With FIXLAT, the output is applied 240 ticks after the sample instant. -/
  | fixedLatencyApply (e : Fin 4) (i : Fin 32)
  /-- SL_MODE_WRITE (R365). A write of SL_MODE.MODE changes the slot's state at its next sample. -/
  | slModeWrite (agent : Agent) (e : Fin 4) (i : Fin 32) (value : Nat)
  /-- SLOT_MOVE (R374). The owning berth moves a slot of an isolated engine to a free slot of another engine. Operands: the isolated slot and the free slot. -/
  | slotMove (agent : Agent) (e : Fin 4) (i : Fin 32) (e2 : Fin 4) (i2 : Fin 32)
  /-- ADC_FRAME (R376). Each converter runs a frame of 20 entries every 1,000 ticks. -/
  | adcFrame (c : Fin 4)
  /-- ADC_RESULT (R376). An entry's conversion result is written to ADC_RES and pushed to the FIFO if enabled. -/
  | adcResult (c : Fin 4) (k : Fin 20) (code : Nat)
  /-- PWM_PERIOD_START (R379). A PWM generator begins a period and latches its duty. -/
  | pwmPeriodStart (n : Fin 96)
  /-- SEQUENCE_ENTRY_START (R389). A sequence table entry starts after its delay and is queued for admission. -/
  | sequenceEntryStart (j : Fin 48)
  /-- ITEM_ADMIT (R393). An item is admitted against its supply budget and enabled. -/
  | itemAdmit (supply : Fin 4)
  /-- RAIL_PG_EDGE (R387). A filtered RAIL_PG edge starts or restarts qualification, or begins a loss. -/
  | railPgEdge (n : Fin 24) (level : Bool)
  /-- RAIL_QUALIFIED (R387). PG held high for T_QUAL makes the rail ON. -/
  | railQualified (n : Fin 24)
  /-- RAIL_LOST (R391). PG low for T_QUAL makes an ON rail LOST and may start the down-sequence. -/
  | railLost (n : Fin 24)
  /-- RAIL_TIMEOUT (R387). A rail not ON within TIMEOUT fails its step. -/
  | railTimeout (n : Fin 24)
  /-- RAIL_FALL_TIMEOUT (R387). T_FALL elapsed in FALL asserts discharge, and a second T_FALL records RAIL_STUCK. -/
  | railFallTimeout (n : Fin 24)
  /-- RAIL_OFF (R396). The rail's off condition completes its down entry. -/
  | railOff (n : Fin 24)
  /-- DOMAIN_RAMP_DONE (R388). A domain's ramp window closes and the domain is ON after clearing. -/
  | domainRampDone (d : Fin 12)
  /-- DOWN (R397). A write of PS_CMD.DOWN starts the down-sequence after quenching heads and clearing FEED_EN. -/
  | down (agent : Agent)
  /-- RETRY (R392). A write of PS_CMD.RETRY leaves FAILED and runs SEQ_UP again. -/
  | retry (agent : Agent)
  /-- AVS_RETRY (R405). A write of PS_CMD.AVS_RETRY resumes lowering VCORE. -/
  | avsRetry (agent : Agent)
  /-- AVS_EVALUATE (R404). Every 1 ms the VCORE policy picks a new voltage from the demand. Operands: the utilisations of R404 and whether a FIFO or ring is below its low mark. -/
  | avsEvaluate (utils : List Nat) (fifoLow : Bool)
  /-- AVS_READBACK_CHECK (R405). 2 ms after a write the regulator readback is checked for AVS_MISMATCH or AVS_FAIL. Operands: the regulator's readback, none without a valid response. -/
  | avsReadbackCheck (reading : Option Nat)
  /-- ADPLL_LOCK (R414). An ADPLL's phase error within TH for CNT cycles makes it LOCKED. -/
  | adpllLock (p : Fin 3)
  /-- ADPLL_UNLOCK (R414). An ADPLL leaves LOCKED on a large error or a rail of its control word. -/
  | adpllUnlock (p : Fin 3)
  /-- ADPLL_ACQUIRE_TIMEOUT (R414). No lock within 40 µs fails the ADPLL's Assay and puts it in FAILED. -/
  | adpllAcquireTimeout (p : Fin 3)
  /-- CK_PLL_WRITE (R413). A write of CK_PLL sets EN and stages N and POSTDIV. -/
  | ckPllWrite (agent : Agent) (p : Fin 3) (value : Nat)
  /-- CK_FRAC_WRITE (R413). A write of CK_FRAC checks and applies the whole setting with one re-acquisition. -/
  | ckFracWrite (agent : Agent) (p : Fin 3) (frac : Nat)
  /-- DLL_LOCK (R416). A station's DLL locks after its ADPLL. -/
  | dllLock (k : Fin 6)
  /-- DLL_UNLOCK (R416). A DLL losing lock makes the head not ready and loses an exposing page. -/
  | dllUnlock (k : Fin 6)
  /-- RELOCK (R422). A write of CK_CMD.RELOCK re-acquires every FAILED ADPLL. -/
  | relock (agent : Agent)
  /-- MERGE_WINDOW_EXPIRY (R433). A merge window closes after MERGE_MAX ms. -/
  | mergeWindowExpiry (cls : Fin 16)
  /-- FIRST_CLR (R429). A write of FC_FIRST.CLR clears the first-fault latch. -/
  | firstClr (agent : Agent)
  /-- UNACK_CLEAR (R430). A w1c write of FC_UNACK acknowledges a raise. -/
  | unackClear (agent : Agent) (w : Fin 8) (mask : Nat)
  /-- STICKY_CLEAR (R431). A w1c write of FC_STICKY clears a source's sticky bit unless it is active. -/
  | stickyClear (agent : Agent) (w : Fin 8) (mask : Nat)
  /-- ASSAY_GO (R437). A write of FC_ASSAY.GO requests an Assay for the unit of the last raise of SRC. -/
  | assayGo (agent : Agent) (src : Nat)
  /-- ASSAY_START (R437). The Assay scheduler starts a queued test at once, at an idle window, or at an admitting gap. -/
  | assayStart (src : Fin 256)
  /-- ASSAY_DONE (R440). An Assay completes and marks the raise transient or lasting with its action. Operands: the result, and whether a DRAM device refuses soft repair (R220). -/
  | assayDone (src : Fin 256) (pass : Bool) (softRefused : Bool)
  /-- LOCKSTEP (R441). A lockstep mismatch or uncorrectable trap halts the berth. Operands: a mismatch of the pair, or (trap) an uncorrectable fetch or load. -/
  | lockstep (n : Fin 12) (trap : Bool)
  /-- BEAT (R444). A write of HM_CMD.BEAT is the supervisor heartbeat. -/
  | beat (agent : Agent)
  /-- SUP_PROMOTED (R444). A promoted supervisor is loaded and started, and its first BEAT completes the promotion. Operands: the supervisor copy matches its digest; the image of the active bank does. -/
  | supPromoted (digestOk : Bool) (imageOk : Bool)
  /-- HARBOURMASTER_RESYNC (R446). A write of HM_CMD.RESYNC makes all copies take the voted state. -/
  | harbourmasterResync (agent : Agent)
  /-- HM_VOTE (R445). On each REFCLK cycle the three copies are voted, and disagreement or loss of majority is acted on. Operands: which copies differ from the majority; all three: no majority. -/
  | hmVote (d0 : Bool) (d1 : Bool) (d2 : Bool)
  /-- TEMP_WARN (R508). Tj reaching the warning threshold raises TEMP_WARN. Operands: junction temperature, 1/16 °C, signed 16 bits. -/
  | tempWarn (tj : Nat)
  /-- TEMP_CRIT (R427). Tj above the critical threshold for 1 ms raises TEMP_CRIT, handled at SAFE. -/
  | tempCrit (tj : Nat)
  /-- STAGE (R462). A write of FW_CMD.STAGE copies an image into the bank that is not running. -/
  | stage (agent : Agent)
  /-- STAGE_DONE (R462). Staging completes with STAGED, BAD_IMAGE or ROLLBACK. Operands: what the read-back of the staged bank verifies to. -/
  | stageDone (image : ImageInfo)
  /-- TRY_BOOT (R463). A write of FW_CMD.TRY_BOOT sets the staged bank to run on trial from the next reset. -/
  | tryBoot (agent : Agent)
  /-- UPDATE (R464). A write of FW_CMD.UPDATE starts a live update that moves roles one at a time. -/
  | update (agent : Agent)
  /-- UPDATE_ROLE_MOVED (R464). One role of a live update completes its move to a reloaded berth. Operands: the digests of the sections loaded hold. -/
  | updateRoleMoved (ok : Bool)
  /-- ACCEPT (R461). A write of FW_CMD.ACCEPT makes the running bank active and raises the anti-rollback counter. -/
  | accept (agent : Agent)
  /-- ABORT (R465). A write of FW_CMD.ABORT stops a live update and moves roles back. -/
  | abort (agent : Agent)
  /-- WRITE (R469). A write of PF_CMD.WRITE copies upload bytes into a profile slot and checks it. -/
  | write (agent : Agent)
  /-- SELECT (R468). A write of PF_CMD.SELECT in READY applies another profile slot. -/
  | select (agent : Agent)
  /-- KEY_WRITE (R470). A write of PF_CMD.KEY_WRITE copies a key into an Edkar key slot. -/
  | keyWrite (agent : Agent)
  /-- KEY_LOCK (R470). A write of PF_CMD.KEY_LOCK locks the key slots. -/
  | keyLock (agent : Agent)
  /-- KEY_ERASE (R470). A write of PF_CMD.KEY_ERASE zeroes every key slot and unlocks them. -/
  | keyErase (agent : Agent)
  /-- LEGACY_READ (R479). A legacy-bus register read is served from the register image. Operands: word address 0x000-0x3FF. -/
  | legacyRead (addr : Nat)
  /-- LEGACY_WRITE (R480). A legacy-bus register write updates the image and is posted into the write FIFO. Operands: word address and the word on LG_D. -/
  | legacyWrite (addr : Nat) (value : Nat)
  /-- COUNT_LO_READ (R482). A read of ZMS_LO or ZDMA_CNT_LO latches the high word. Operands: ZDMA_CNT_LO, or ZMS_LO. -/
  | countLoRead (dma : Bool)
  /-- ZINT_CLEAR (R485). A w1c write of ZINT clears bits and shows the next page result. Operands: the bits written 1. -/
  | zintClear (mask : Nat)
  /-- SUBMIT (R485). A write of ZPAGE_CMD.SUBMIT releases the page, or refuses it. Operands: SEP_MASK and TAG. -/
  | submit (mask : Fin 16) (tag : Nat)
  /-- RASTER_ENABLE (R485). A write of ZRAS_CTRL.EN = 1 starts intake of a separation, defining a page if first. Operands: SEP, DMA, BURST. -/
  | rasterEnable (sep : Fin 4) (dma : Bool) (burst : Nat)
  /-- DACK_TRANSFER (R477). LG_DACK_N with LG_WR_N low transfers one raster word to the FIFO. Operands: the word on LG_D. -/
  | dackTransfer (word : Nat)
  /-- POLY_LOCK_INPUT (R492). An external polygon driver's lock input changes, and its loss raises POLY_DRIVER. Operands: station and the level of its lock input. -/
  | polyLockInput (k : Fin 4) (active : Bool)
  /-- ZMIG_KEY (R494). The key sequence written to ZMIG_KEY opens or closes the migration window. Operands: the word written. -/
  | zmigKey (value : Nat)
  /-- WINDOW_READ (R495). A read through the migration window reads a native register half. Operands: word address less 0x200. -/
  | windowRead (addr : Fin 512)
  /-- WINDOW_WRITE (R495). A write through the migration window holds the low half and writes the whole word on the high half. Operands: word address less 0x200, and the word. -/
  | windowWrite (addr : Fin 512) (value : Nat)
  /-- TB_ALARM_WRITE (R509). A write of TB_ALARM_HI makes the 64-bit alarm value take effect. -/
  | tbAlarmWrite (agent : Agent) (tick : Nat)
  /-- ARM (R509). A write of TB_ALARM_CTL.ARM arms the alarm. -/
  | arm (agent : Agent) (on : Bool)
  /-- CASCADE_WAIT_DONE (R394). SEQ_UI (up) or SEQ_DI (down) rises while a CASCADE_WAIT entry waits, completing that entry so the sequence goes on. Operands: SEQ_UI (up) or SEQ_DI (down) is at the level. -/
  | cascadeWaitDone (level : Bool)
  /-- DOMAIN_SWITCH_TIMEOUT (R388). A domain whose switch does not report good within 10 × RAMP fails its step as a rail does. -/
  | domainSwitchTimeout (d : Fin 12)
  /-- BLOCK_LOCK_LOST (R156). The 9640 loses block lock on the lane that carries status, which fails that lane and starts the switch-over. -/
  | blockLockLost (station : Fin 6)
  /-- PCIE_LINK_UP (R251). After PERST_N is released, the link trains, configuration space begins to answer, QY_LINK reports its speed and width, and LINK_UP is set. -/
  | pcieLinkUp (speed : Nat) (width : Nat)
  /-- CONFIGURATION_WRITE (R252). A host write to configuration space changes the power state between D0 and D3hot, the MSI-X function mask, AER enables or the completion timeout. Operands: the power state, the MSI-X function mask and the AER enables a configuration write leaves. -/
  | configurationWrite (d3hot : Bool) (fnMask : Bool) (aerMask : Nat)
  /-- TEMP_WARN_END (R508). Tj falls 2 °C below the warning threshold, TEMP_WARN stops being active and its clear becomes possible. -/
  | tempWarnEnd (tj : Nat)
  /-- RST_N_ASSERT (R453). RST_N held low for at least 1 µs returns every block to reset and drives every RAIL_EN low at once. Operands: RST_N asserted for at least 1 µs. -/
  | rstNAssert
  /-- WARM_START (R454). The sequencer restarts from OFF without RST_N, through PS_CMD.RETRY or AUTO_UP; TIME and PD0 state are kept. -/
  | warmStart
  /-- BOOT_DONE (R453). When the image is verified and every domain of SEQ_UP is ON, the device enters FILL and the fills start. -/
  | bootDone
  /-- FILL_DONE (R453). When the fills are complete, the firmware is loaded and the profile is applied, the device enters READY and the roles are assigned. -/
  | fillDone
  /-- RUN_START (R35). A run of pitches starts when the timeline is IDLE, FEED_EN is 1 in RUN and a page waits, and the first announce instant is scheduled. -/
  | runStart
  /-- ANNOUNCE_INSTANT (R38). At T_exp − FEED_LEAD − ANN_LEAD the head page of the reprint or released queue is announced on E1, or the pitch is empty or skipped. -/
  | announceInstant
  /-- FEED_GATE (R40). At T_exp − FEED_LEAD the feed gate is evaluated, and a page that passes gets a slot and a sheet number and is picked. -/
  | feedGate
  /-- MARK_WINDOW_OPEN (R133). The mark window opens at the computed tick after the anchor. -/
  | markWindowOpen
  /-- MARK_WINDOW_CLOSE (R134). At the close of the mark window the edges are checked and the results are written to REG_RES. -/
  | markWindowClose
  /-- REGISTRATION_CORRECTION (R136). The registration service fits new results and applies trims and staged corrections in order. -/
  | registrationCorrection
  /-- SEAL_DONE (R194). Sealing finishes and the pages are SEALED. -/
  | sealDone
  /-- IRQ_HOLDOFF_EXPIRY (R282). Vector 0 is sent when HOLDOFF has passed and COUNT entries or one aged entry wait. -/
  | irqHoldoffExpiry
  /-- BAD_CRC (R260). An SQ entry whose CRC fails is not acted on and gets a BAD_CRC completion. -/
  | badCrc
  /-- HOST_SILENT (R279). HB_TO passing without a valid message sets SILENT and may stop feeding. -/
  | hostSilent
  /-- PATH_CLEAR (R328). Every path sensor inactive for SS_CLEAR.T sets PATH_CLEAR and leaves JAMMED. -/
  | pathClear
  /-- CASCADE_WAIT_TIMEOUT (R395). A CASCADE_WAIT not complete within TO fails its step or is skipped. -/
  | cascadeWaitTimeout
  /-- SEQ_UI_FALL (R395). SEQ_UI low for 1 ms starts the down-sequence. -/
  | seqUiFall
  /-- SEQ_UI_RISE (R395). With AUTO_UP, SEQ_UI high for 1 ms after such a down-sequence starts SEQ_UP again. -/
  | seqUiRise
  /-- PFW (R398). VIN_SENSE below TH asserts PFW_N, clears FEED_EN and starts a POWER_FAIL record. -/
  | pfw
  /-- PFW_HOLD_END (R398). The end of HOLD without recovery starts the down-sequence. -/
  | pfwHoldEnd
  /-- PFW_RECOVER (R398). VIN_SENSE above TH + HYST before HOLD ends the warning. -/
  | pfwRecover
  /-- PFW_AUTO_UP (R399). VIN held above threshold for 100 ms after a power-fail down-sequence restarts SEQ_UP. -/
  | pfwAutoUp
  /-- SEQUENCE_DONE (R397). The end of a down-sequence brings the device to OFF. -/
  | sequenceDone
  /-- SLACK_ENTER (R400). Idle for IDLE_S seconds takes the device from READY into SLACK. -/
  | slackEnter
  /-- SLACK_EXIT (R401). A BAR0 write or an SQ tail write wakes the domains and returns to READY. -/
  | slackExit
  /-- REF_LOSS (R410). No REFCLK edge for 1 µs puts every ADPLL in HOLDOVER. -/
  | refLoss
  /-- REF_LOSS_LONG (R411). REF_LOSS lasting 1 ms loses exposing pages and clears FEED_EN. -/
  | refLossLong
  /-- REF_RETURN (R410). REFCLK running for 1 ms clears REF_LOSS and the ADPLLs re-acquire. -/
  | refReturn
  /-- PX_TAKEOVER (R418). A missing PX-A edge switches PX-A to the standby ADPLL. -/
  | pxTakeover
  /-- BASE_SYNTH_LOCK (R417). The base synthesiser locks after PD11 is ON and the interface clocks switch. -/
  | baseSynthLock
  /-- FAULT_DISPATCH (R426). The supervisor dispatches a raise's reactions and then acknowledges it. -/
  | faultDispatch
  /-- ROLE_MOVE (R442). The role of a halted berth moves to a spare within 2 ms and the new holder replays its record. -/
  | roleMove
  /-- HB_MISS (R444). Two milliseconds without BEAT halt the supervisor and start a promotion. -/
  | hbMiss
  /-- HM_WAIT_TIMEOUT (R446). No BEAT within 1.2 s of a start triggers a promotion. -/
  | hmWaitTimeout
  /-- HM_SILENT (R444). HM_BEAT not advancing for 3 ms makes the supervisor raise HM_SILENT and resync. -/
  | hmSilent
  /-- LEGACY_WRITE_APPLY (R480). The emulation applies a posted write to native pages in bus order. -/
  | legacyWriteApply
  /-- LEGACY_PROTOCOL_ERROR (R476). Both strobes low, or a strobe rising while WAIT is low, sets ZERR 0x01. -/
  | legacyProtocolError
  /-- IMAGE_REFRESH (R479). Every 100 µs the emulation refreshes the read-only fields of the image. -/
  | imageRefresh
  /-- ZERR_READ (R493). A read of ZERR returns CODE and COUNT and then clears both. -/
  | zerrRead
  /-- SOFT_RST (R493). A write of ZCTRL.SOFT_RST resets the image, performs ABORT and closes the window. -/
  | softRst
  /-- ZPAGE_ABORT (R485). A write of ZPAGE_CMD.ABORT withdraws queued pages as a job abort. -/
  | zpageAbort
  /-- RASTER_WORD (R486). A raster word, from ZRAS_DATA or DMA, is decoded into the current line. -/
  | rasterWord
  /-- ZPOLY_START (R491). A write of ZPOLY_CMD.START starts the polygons of the enabled stations. -/
  | zpolyStart
  /-- ZPOLY_STOP (R491). A write of ZPOLY_CMD.STOP stops the polygons. -/
  | zpolyStop
  /-- ALARM (R509). TIME reaching ALARM sets the event and clears ARM. -/
  | alarm
deriving DecidableEq, Repr

end Sys2Proof
end

