-- ==== Sys2Proof/Decode.lean ====
section
/-!
DEFINITION. The command table gives none of its rows bits, so no word spells a command.
-/
namespace Sys2Proof

def decodeTableWord (_nbits _w : Nat) : Option Instr := none

end Sys2Proof
end

