-- ==== Sys2Proof/Config.lean ====
section
/-!
DEFINITION. What the manual leaves open: free values, and the external standards it only names.

Every constant here is opaque and has no body: no proof can learn its value, and a statement about a machine holds for
every choice.  A free value taken from `freeValue` is applied to the counter `State.free`, which the taking operation
advances, so that two takings are independent.
-/
namespace Sys2Proof.Config

/-- A value the manual leaves open, the `n`-th taken in a run (assumption log 1). -/
opaque freeValue : Nat → Nat

/-- What a quotient is whose divisor is 0, where the manual gives none (log 1). -/
opaque divByZero : Nat → Nat

/-- AES-128-CMAC of NIST SP 800-38B, key and message as byte lists (R297, R298; log 9). -/
opaque cmac : List Nat → List Nat → List Nat

/-- SHA-256 of a byte list, as 32 bytes (R444, R457; log 9). -/
opaque sha256 : List Nat → List Nat

/-- What the ZE-40 profile assigns and no chapter names (log 72): the slots of charge HV (0–3) and developer bias (4–7) of
stations A–D, as engine × 32 + slot; the commutation channel of drive d; the converter channel of ZADC[n]. -/
opaque zSlot : Nat → Nat
opaque zDrive : Nat → Nat
opaque zAdc : Nat → Nat

end Sys2Proof.Config
end

