-- ==== Sys2Proof/Machine/State.lean ====
section
/-!
DEFINITION. The state of the 9640: every register of the register pages, the banks, DRAM and MRAM, and every piece of
state the manual gives a block outside its registers.  `State.reset` is the machine while RST_N is asserted, just before
its release.
-/
namespace Sys2Proof.Machine

/-- A map from natural-number keys to values, held as a list of pairs with strictly rising keys. -/
abbrev SparseMap (α : Type) := List (Nat × α)

/-! ### Outputs: what the device sends or shows, newest first -/

/-- The kinds of error the host sees through AER (Table 10.3) or as an access error (R8, R22). -/
inductive AccessError where
  | completerAbort | unsupportedRequest | poisonedCompletion | poisonedTlp | completionTimeout | busError
deriving DecidableEq, Repr

/-- One thing the device puts out.  `State.out` keeps them, newest first. -/
inductive Out where
  /-- the value a read command returns -/
  | readData (v : Nat)
  /-- an access error returned to the requester -/
  | accessError (e : AccessError)
  /-- an interrupt to the writing roles of a page (R505) -/
  | irq (page : Nat)
  /-- an MSI-X message on a vector (R254) -/
  | msix (vector : Nat)
  /-- a posted write to host memory (R258) -/
  | hostWrite (addr : Nat) (bytes : List Nat)
  /-- a frame to a module of an Edkar port (Table 11.3): port, address, TYPE, TID, EACK, payload -/
  | frame (port addr type tid eack : Nat) (payload : List Nat)
  /-- a COMMAND to head k, on every forward lane (Table 6.3): opcode, tag, argument -/
  | headCmd (k cmd tag arg : Nat)
  /-- the frames of a scan packet to head k: per frame, the 64-bit block of each logical lane (R145) -/
  | headPacket (k : Nat) (frames : List (List Nat))
  /-- a QUENCH frame, an ALIGN frame with its frame count, PRBS31 on every lane (R143, R153, R159) -/
  | headQuench (k : Nat)
  | headAlign (k count : Nat)
  | headPrbs (k : Nat)
  /-- a reply slot is opened to head k (R155) -/
  | headSlot (k : Nat)
  /-- bytes written to the memory of head k (R165) -/
  | headMemWrite (k addr : Nat) (bytes : List Nat)
  /-- an AVSBus voltage write, mV (R405) -/
  | avs (mV : Nat)
  /-- something for the berth that holds a role to act on: role, code, argument (17, Table 17.5) -/
  | toRole (role code arg : Nat)
  /-- a word answered on the legacy bus, or given to a DMA partner (R242, R479) -/
  | legacyData (v : Nat)
  /-- LG_INT_N changes; its 1 µs pulse high (R478) -/
  | legacyInt (low : Bool)
  | legacyPulse
deriving DecidableEq, Repr

/-! ### Fault collector (17) -/

/-- An open merge window (R433): the raise that opened it, when, and what it waits for. -/
structure MergeWin where
  src    : Nat
  sev    : Nat
  page   : Nat
  opened : Nat
  /-- opened by a recovery: a role move, a promotion or a lane switch-over; else by an Assay -/
  recovery : Bool
deriving DecidableEq, Repr

/-- The Assay kinds of Table 17.4. -/
inductive AssayKind where
  | marchSram | marchDram | signature | prbs | pipe | codec | loop | refconv | relock
deriving DecidableEq, Repr

/-- A raise whose supervisor reactions are not yet dispatched (R426, R430). -/
structure Raise where
  src   : Nat
  sev   : Nat
  page  : Nat
  assay : Option (AssayKind × Nat)
  time  : Nat
  /-- only its Assay is due: its record and event belong to an earlier entry (R433) -/
  again : Bool
deriving DecidableEq, Repr

/-- A raise of the present tick (Table 17.9): its handled severity, whether it may still be escalated, and whether it set its
source's FC_UNACK bit. -/
structure TickRaise where
  src   : Nat
  sev   : Nat
  page  : Nat
  assay : Option (AssayKind × Nat)
  can   : Bool
  fresh : Bool
deriving DecidableEq, Repr

/-- An Assay queued or running (R437). -/
structure Assay where
  src     : Nat
  kind    : AssayKind
  unit    : Nat
  running : Bool
  started : Nat
  /-- requested through FC_ASSAY.GO -/
  byGo    : Bool
deriving DecidableEq, Repr

/-- The collector's state outside its registers. -/
structure Collector where
  merges   : Vector (Option MergeWin) 16
  dispatch : List Raise
  assays   : List Assay
  /-- Assay kind and unit of the last raise of each source; a raise that takes no Assay has none (R437, R439) -/
  lastUnit : List (Nat × Option (AssayKind × Nat))
  /-- hardware reactions not yet run: page and handled severity (R426) -/
  hw       : List (Nat × Nat)
  /-- TIME of the last raise of each source (R428) -/
  lastAt   : SparseMap Nat
  /-- unacknowledged sources raised by an isolated block (R436) -/
  quiet    : List Nat
  /-- sources acknowledged in the tick given first (Table 17.9) -/
  acked    : Nat × List Nat
  /-- classes whose window closed, and the raises latched, in the tick given first (Table 17.9) -/
  closed   : Nat × List Nat
  tick     : Nat × List TickRaise
  /-- Tj has reached the TEMP_WARN threshold and not yet fallen 2 °C below it (R508) -/
  tempWarn : Bool
deriving DecidableEq, Repr

/-! ### Berths and Harbourmaster (17) -/

/-- A role on its way from a halted berth (R442). -/
structure RoleMove where
  role    : Nat
  source  : Nat
  since   : Nat
deriving DecidableEq, Repr

structure Berths where
  moves      : List RoleMove
  /-- TIME of the last BEAT of the supervisor (R444) -/
  lastBeat   : Nat
  supBerth   : Nat
  /-- TIME at which WAIT began (R446) -/
  waitSince  : Nat
  /-- berth under promotion, and since when -/
  promoting  : Option Nat
  /-- TIMEs of the outvotes of each copy within the last second (R445) -/
  outvotes   : Vector (List Nat) 3
  /-- instruction-fetch traps of each berth (R221, R441) -/
  traps      : Vector Nat 12
deriving DecidableEq, Repr

/-! ### Reset, profiles and firmware (18) -/

/-- The boot ROM, the device states and the firmware store outside their registers (18). -/
structure Boot where
  /-- summaries of banks A and B as last read -/
  bankA   : ImageInfo
  bankB   : ImageInfo
  /-- a bank was found to verify at this boot -/
  verified : Bool
  /-- IMAGE_BAD to raise once FILL ends (R460) -/
  imageBad : Bool
  /-- the slot selected by PROF is valid -/
  slotOk      : Bool
  /-- BOOT and FILL entry -/
  since   : Nat
  banksFilled : Bool
  /-- the down-sequence that reached OFF began in SAFE (R435) -/
  offAfterSafe : Bool
  /-- a start without RST_N is in progress (R454) -/
  warm    : Bool
  /-- roles moved so far in a live update (R464), newest first, with their old berths -/
  updMoved : List (Nat × Nat)
  updating : Bool
  /-- no valid slot: JOB_OPEN refused (R467) -/
  noProfile : Bool
  /-- whether the silicon is -4S and -X -/
  minus4S : Bool
  gradeX  : Bool
  /-- STATIONS byte of the active profile -/
  stations : Nat
  /-- the bank the last STAGE wrote -/
  stagedBank : Nat
deriving DecidableEq, Repr

/-! ### Power sequencing (15) -/

inductive SeqDir where | idle | up | down
deriving DecidableEq, Repr

/-- A run of SEQ_UP or SEQ_DN: per entry, when it started and when it completed. -/
structure Sequencer where
  dir      : SeqDir
  /-- the 48 words of the table in use -/
  table    : List Nat
  begun    : Nat
  started  : Vector (Option Nat) 48
  done     : Vector (Option Nat) 48
  /-- items ready but not admitted, per supply, with the tick they became ready (R393) -/
  queues   : Vector (List (Nat × Nat)) 4
  /-- items in their ramp window, with the tick of admission -/
  ramping  : List (Nat × Nat)
  /-- last PG edge of each rail since its enable, and whether PG is high -/
  pgSince  : Vector Nat 24
  pgRaw    : Vector Bool 24
  /-- when a rail was enabled, or its fall or discharge began -/
  railAt   : Vector Nat 24
  /-- the down-sequence follows a step failure: end in FAILED (R392) -/
  failed   : Bool
  /-- what started the last down-sequence: cascade or power fail allow AUTO_UP (R395, R399) -/
  autoKind : Nat
  fromSafe : Bool
  /-- the tables failed R390 at RST_N release: the default tables are in use -/
  bad      : Bool
  /-- before FILL applies the power block, its fields are read straight from the slot in MRAM (R27, R390) -/
  early    : Bool
  /-- power-fail warning in force since (R398) -/
  pfwSince : Option Nat
  /-- VIN above threshold plus hysteresis since (R399) -/
  vinOkAt  : Option Nat
  /-- the levels of the cascade pins SEQ_UI, SEQ_DI, SEQ_UO and SEQ_DO (R394) -/
  uiLevel  : Bool
  diLevel  : Bool
  uoLevel  : Bool
  doLevel  : Bool
  /-- SLACK: in it or on the way out -/
  slackExit : Bool
  idleSince : Nat
  /-- AVSBus: last write instant, failed transactions in a row, and lowering stopped (R405) -/
  avsAt    : Nat
  avsBad   : Nat
  avsStop  : Bool
  /-- ms in a row with UMAX below DN_TH -/
  lowRun   : Nat
  /-- last consistent UP_TH, DN_TH pair (R17) -/
  pairUp   : Nat
  pairDn   : Nat
deriving DecidableEq, Repr

/-! ### Clocks (16) -/

structure Clocks where
  /-- REFCLK missing since -/
  refLost  : Option Nat
  /-- the 1 ms mark of R411 has been acted on -/
  refLong  : Bool
  /-- ACQUIRE entered at, per ADPLL -/
  acqAt    : Vector Nat 3
  /-- the setting in force: N, POSTDIV, FRAC of ADPLL 0 and 1 (R413) -/
  setN     : Vector Nat 3
  setDiv   : Vector Nat 3
  setFrac  : Vector Nat 3
  /-- GROUPS as it stands since reset (R419) -/
  groups   : Bool
  /-- R417: the base synthesiser is locked -/
  baseLock : Bool
  /-- the alarm in force and the TIME of the write that set it or armed it (R509) -/
  alarm    : Nat
  alarmAt  : Nat
deriving DecidableEq, Repr

/-! ### Page timeline (02) -/

/-- Where a page record stands (Table 2.1). -/
inductive PgState where
  | defined | resident | released | fed | committed | delivered | lost | retired
deriving DecidableEq, Repr

/-- A queued or stored part of a separation (R274). -/
structure Part where
  offs   : Nat
  len    : Nat
  /-- the body fields of the message that named it, for R269 -/
  body   : List Nat
  stored : Bool
deriving DecidableEq, Repr

/-- A separation of a page: its parts, its stream length once LAST has come, and its place in the store. -/
structure Sep where
  station   : Nat
  parts     : List Part
  streamLen : Option Nat
  /-- every byte stored and the residency check of R178 passed -/
  stored    : Bool
  /-- the 2 MiB extents that hold the stream: block of the stream and extent number (R225) -/
  exts      : List (Nat × Nat)
deriving DecidableEq, Repr

structure Page where
  id       : Nat
  job      : Nat
  sheetLen : Nat
  width    : Nat
  height   : Nat
  /-- body byte 32: FMT, TAGS, IN_RES, OUT_LPI -/
  fmt      : Nat
  st       : PgState
  /-- released while DEFINED or later: the page has an entry in the released queue -/
  released : Bool
  sheet    : Option Nat
  /-- times committed; a commit that ended with ORDER does not count (R55) -/
  commits  : Nat
  reprints : Nat
  cause    : Nat
  final    : Bool
  retireDue : Bool
  sepLost  : Bool
  /-- LOST since its last feed: the next feed is a reprint -/
  again    : Bool
  seps     : List Sep
  changed  : Nat
  /-- ticks in which the page entered its queue and in which its last separation became resident (Table 2.5) -/
  queuedAt : Option Nat := none
  storedAt : Option Nat := none
deriving DecidableEq, Repr

structure Job where
  id        : Nat
  stations  : Nat
  reprint   : Bool
  skipOk    : Bool
  closed    : Bool
  aborted   : Bool
  delivered : Nat
  lost      : Nat
deriving DecidableEq, Repr

/-- E1's decision on an announced sheet (R301). -/
inductive Decision where | pending | accept | refuse | divert
deriving DecidableEq, Repr

/-- Why a pitch has no sheet, or that it has one. -/
inductive PitchKind where | sheet | empty | requested | notResident
deriving DecidableEq, Repr

/-- A pitch whose announce instant has passed and whose feed gate has not (R35, R38, R40). -/
structure Pitch where
  texp     : Nat
  kind     : PitchKind
  page     : Nat
  sheet    : Nat
  /-- a sheet number already fixed at an earlier feed -/
  again    : Bool
  feedOn   : Bool
  decision : Decision
  /-- a first-time page announced for an earlier pitch has failed its feed gate (R53) -/
  void     : Bool
deriving DecidableEq, Repr

/-- A track point as a page took it at its feed gate, and which of its edges have come (R325). -/
structure Track where
  point  : Nat
  sensor : Nat
  zone   : Nat
  /-- half-window and offset, ticks -/
  win    : Nat
  offs   : Int
  lead   : Bool
  trail  : Bool
deriving DecidableEq, Repr

/-- What a fed page keeps from its feed gate (R59), and its course. -/
structure Slot where
  page      : Nat
  sheet     : Nat
  /-- order of feeding -/
  order     : Nat
  texp      : Nat
  speed     : Nat
  commitLead : Nat
  win       : Nat
  handoff   : Nat
  divert    : Nat
  offs      : List Nat
  stations  : Nat
  sheetLen  : Nat
  pitch     : Nat
  anchor    : Option Nat
  missed    : Bool
  /-- the page went back to its queue or was lost before commit: the sheet runs blank -/
  blank     : Bool
  /-- image starts fixed at the commit instant -/
  starts    : List Nat
  /-- stations whose exposure has begun, and has finished (bit k) -/
  begun     : Nat
  finished  : Nat
  tracks    : List Track
  /-- TIME at which the page became LOST -/
  lostAt    : Nat
  /-- the registration trailer belongs to the page (R129) -/
  trailer   : Bool
deriving DecidableEq, Repr

structure Timeline where
  jobs      : List Job
  pages     : List Page
  released  : List Nat
  reprint   : List Nat
  pitches   : List Pitch
  slots     : Vector (Option Slot) 16
  /-- expected anchor of the next pitch to be announced, while a run lasts -/
  nextExp   : Nat
  emptyRun  : Nat
  nextSheet : Nat
  /-- pitch of the most recently fed page -/
  lastPitch : Nat
  fedCount  : Nat
  /-- the holder of role 0x3 reports the paper path and the feeder ready; held while the role moves (Table 17.5) -/
  pathReady : Bool
  /-- the path was reported clear since HALTED began (R51) -/
  pathClear : Bool
  /-- the tick at which the run started -/
  runStart  : Nat
  /-- pitches so far (R95) -/
  pitchNo   : Nat
  /-- the tick of the last boundary of page 0x041, and REPRINT_ORDER before it (Table 2.5) -/
  orderWas  : Option (Nat × Bool) := none
deriving DecidableEq, Repr

/-! ### Quay (10) -/

/-- An entry for the completion ring before it is placed (Table 10.5). -/
structure CqEntry where
  type    : Nat
  flags   : Nat
  seq     : Nat
  epoch   : Nat
  job     : Nat
  dseq    : Nat
  code    : Nat
  /-- bytes 28-59 -/
  payload : List Nat
deriving DecidableEq, Repr

structure Quay where
  /-- CQ write index, phase of the current pass, and host's HEAD -/
  cqWrite   : Nat
  cqPhase   : Bool
  cqHead    : Nat
  sqTail    : Nat
  /-- entries held while the ring is full or stopped (R278) -/
  held      : List CqEntry
  /-- entries issued in this session, newest first, at most 4,096 (R267) -/
  issued    : List CqEntry
  /-- completions written, newest first, at most 1,024 (R263) -/
  completions : List CqEntry
  overflow  : Bool
  /-- the epoch before the last resume of the open session, 0 if none (R266) -/
  prevEpoch : Nat
  /-- TIME of the last RESEND, if its gate is still shut (R261) -/
  resendAt  : Option Nat
  lastMsg   : Nat
  /-- vector-0 moderation (QY_IRQ): last message, entries waiting, oldest waiting since -/
  irqLast   : Nat
  irqWait   : Nat
  irqSince  : Nat
  /-- events that arose while no session was open (R535) -/
  orphan    : List CqEntry
  /-- the function is in D3hot (R252) -/
  d3hot     : Bool
  /-- the function mask of the MSI-X capability (R254) -/
  fnMask    : Bool
  /-- the AER severity enables, by Table 10.3 row (R255) -/
  aerMask   : Nat
  perst     : Bool
  /-- the rings stopped in the open session: what is held waits for the next resume (R267, Table 10.12) -/
  waitResume : Bool
deriving DecidableEq, Repr

/-! ### Edkar (11) -/

/-- A transaction open with a module: the frame as first sent, and the retries so far (R290–R292). -/
structure EdTrans where
  type    : Nat
  tid     : Nat
  eack    : Nat
  payload : List Nat
  tries   : Nat
  /-- a valid reply has come in this cycle -/
  answered : Bool
  /-- the last valid reply was PENDING -/
  pending : Bool
deriving DecidableEq, Repr

structure EdModule where
  /-- serial of the last identity recorded at the address -/
  serial    : Option Nat
  authSup   : Bool
  /-- flags of the last STATUS, as events have changed them -/
  flags     : Nat
  lastTid   : Nat
  /-- last event sequence number accepted (R305) -/
  eack      : Nat
  trans     : Option EdTrans
  notices   : List (Nat × Nat)
  announces : List (List Nat)
  feeds     : List (List Nat)
  quarantine : Bool
  challenge : Bool
  /-- challenge in flight and session key -/
  chal      : List Nat
  key       : List Nat
  authAt    : Nat
  authFails : Nat
  tagFails  : Nat
  silentRun : Nat
  malfRun   : Nat
  violTimes : List Nat
  /-- its window is open; frames taken in it; any character, any valid frame, a violation in this cycle -/
  window    : Bool
  frames    : Nat
  active    : Bool
  valid     : Bool
  violated  : Bool
  /-- sheets reported SHEET_RECEIVED, and sheets accepted that have had no notice yet -/
  received  : List Nat
  accepted  : List Nat
deriving DecidableEq, Repr

/-- An announce on E1 (R301): sheet, frame, deadline, route once its first cycle has begun, final decisions in time, and the
notice code of the sheet's later course. -/
structure EdAnnounce where
  sheet    : Nat
  payload  : List Nat
  deadline : Nat
  route    : Option (List Nat)
  answers  : List (Nat × Nat)
  closed   : Bool
  course   : Option Nat
deriving DecidableEq, Repr

/-- A FEED in progress on E0 (R304). -/
structure EdFeed where
  sheet : Nat
  texp  : Nat
  done  : Bool
deriving DecidableEq, Repr

structure EdPort where
  mods      : Vector EdModule 16
  rotate    : Nat
  /-- addresses still to be probed in ENUM -/
  enumLeft  : Nat
  badRun    : Nat
  goodRun   : Nat
  /-- characters came outside every window in the present cycle -/
  badNow    : Bool
  announces : List EdAnnounce
  feeds     : List EdFeed
  /-- one more than the boundary of the current cycle, 0 before the first -/
  cycleAt   : Nat
deriving DecidableEq, Repr

/-! ### Banks and DRAM beside their bytes (08) -/

structure MemUnit where
  /-- stored bits of a bank byte that differ from its code word: 13-bit masks by byte address, hallmark bytes at
  2^52 + 256 × page + index -/
  upsets  : SparseMap Nat
  /-- sealed pages of the banks, by device address / 4096, with their hallmark bytes; every other page is OPEN (R194) -/
  marks   : SparseMap (List Nat)
  /-- pages the running CS_SEAL command has still to seal -/
  sealing : List Nat
  /-- pages that no seal covers any more (R219) -/
  noSeal  : List Nat
  /-- DRAM words with wrong bits: 80-bit masks by channel × 2^40 + word -/
  wrong   : SparseMap Nat
  /-- poisoned DRAM words, by channel × 2^40 + word (R203) -/
  poison  : List Nat
  /-- TIMEs of the uncorrectable reads of each channel within the last second (R215) -/
  ueTimes : Vector (List Nat) 2
  /-- bytes of the slot already rebuilt (R216) -/
  rebuilt : Nat
  /-- spare-row maps and DRAM retirement lists, as MRAM keeps them (R218, R220) -/
  rowMap  : List (Nat × Nat)
  dramRows : List (Nat × Nat)
  /-- extents to be withdrawn once no separation lies in them (R220) -/
  condemned : List Nat
  withdrawn : List Nat
  /-- bytes written to a bank in the tick given: address, old value, by the primary port (R191) -/
  tick    : Nat × List (Nat × Nat × Bool)
  /-- start of the scrub pass in progress: on chip, DRAM (R212) -/
  passAt  : Vector Nat 2
deriving DecidableEq, Repr

def MemUnit.reset : MemUnit where
  upsets := []
  marks := []
  sealing := []
  noSeal := []
  wrong := []
  poison := []
  ueTimes := Vector.replicate 2 []
  rebuilt := 0
  rowMap := []
  dramRows := []
  condemned := []
  withdrawn := []
  tick := (0, [])
  passAt := Vector.replicate 2 0


/-! ### DMA channels (09) -/

structure Chan where
  /-- the descriptor in hand, as read (Table 9.2) -/
  ctrl    : Nat
  len     : Nat
  src     : Nat
  dst     : Nat
  next    : Nat
  /-- a descriptor has been read and not yet written back -/
  held    : Bool
  /-- bytes of the burst that is granted and not done -/
  grant   : Option Nat
  grantAt : Option Nat
  /-- PAUSE arrived in FETCH: the fetch and its checks finish first -/
  fetching : Bool
  /-- RESUME goes to FETCH (HOLD, or the descriptor ended while pausing) or to IDLE -/
  toFetch : Bool
  toIdle  : Bool
  aborting : Bool
  /-- its host window has been revoked (R244) -/
  revoked : Bool
  /-- the descriptor read in hand was allowed when it started (Table 9.8) -/
  readOk : Bool
  /-- HALTED with no descriptor to pass over: CLEAR leaves DC_CUR (R237, Table 9.8) -/
  stay : Bool
  /-- bytes exchanged with the partner in the granted burst, and when the last was (R242) -/
  partner : List Nat
  dackAt  : Nat
deriving DecidableEq, Repr

def Chan.reset : Chan where
  ctrl := 0
  len := 0
  src := 0
  dst := 0
  next := 0
  held := false
  grant := none
  grantAt := none
  fetching := false
  toFetch := false
  toIdle := false
  aborting := false
  revoked := false
  readOk := false
  stay := false
  partner := []
  dackAt := 0

structure Dma where
  chans : Vector Chan 32
  /-- the channel granted last, for the round robin (R228) -/
  last  : Nat
deriving DecidableEq, Repr

def Dma.reset : Dma := ⟨Vector.replicate 32 Chan.reset, 31⟩


/-! ### Steppers, encoders and sheet sensors (12) -/

/-- A stepper channel (R312–R319).  Positions are in microsteps × 2^32, speeds in microsteps per tick × 2^32. -/
structure Stepper where
  pos     : Int
  vel     : Int
  /-- an emergency stop is in force until the channel is at rest (R315) -/
  estop   : Bool
  /-- homing: a limit is being left at EDEC (Table 12.1) -/
  brake   : Bool
  /-- position at which the homing state was entered, the target of BACK, and the sample of the last HOME edge -/
  entry   : Int
  goal    : Int
  homeAt  : Nat
  /-- TIME since which the channel has been at rest -/
  restAt  : Nat
  /-- one more than the last sample run -/
  sampled : Nat
  /-- coarse inputs (R316): time of the last edge, target P, and the tick up to which the position has advanced -/
  stepAt  : Nat
  goalP   : Int
  movedAt : Nat
  /-- the outputs STP_IA, STP_IB (duty) and STP_PHA, STP_PHB -/
  dutyA   : Nat
  dutyB   : Nat
  phA     : Bool
  phB     : Bool
  /-- positions at the samples of the last 1 ms, newest first, for the latches of R311 -/
  track   : List (Nat × Int)
deriving DecidableEq, Repr

def Stepper.reset : Stepper := ⟨0, 0, false, false, 0, 0, 0, 0, 0, 0, 0, 0, 0, 0, false, false, []⟩

/-- An encoder (R321, R323, R324). -/
structure Encoder where
  hi      : Nat
  /-- raw count and tick of the last count, and the same at the previous evaluation -/
  r1      : Nat
  t1      : Nat
  r0      : Nat
  t0      : Nat
  counted : Bool
  evalAt  : Nat
  /-- an index has been latched since reset or the last change of CPR -/
  indexed : Bool
  /-- MONO after the counts of the last 1 ms, newest first -/
  track   : List (Nat × Nat)
deriving DecidableEq, Repr

def Encoder.reset : Encoder := ⟨0, 0, 0, 0, 0, false, 0, false, []⟩

/-- A sheet-sensor input (R309, R310). -/
structure Sensor where
  /-- the qualified level of the pin -/
  high    : Bool
  /-- stamp and kind (leading) of the last latched edge -/
  last    : Option (Nat × Bool)
  /-- stamp and position of the ignored edge that brought the input to its present level -/
  ignored : Nat × Nat
deriving DecidableEq, Repr

structure Motion where
  steppers : Vector Stepper 16
  encoders : Vector Encoder 8
  sensors  : Vector Sensor 64
  /-- TIME from which the interval of R328 counts, while every path sensor is inactive -/
  clearAt  : Option Nat
deriving DecidableEq, Repr

def Motion.reset : Motion :=
  ⟨Vector.replicate 16 Stepper.reset, Vector.replicate 8 Encoder.reset, Vector.replicate 64 ⟨false, none, (0, 0)⟩, none⟩


/-! ### Commutation channels and motor-bus groups (13) -/

/-- What the six gates of a channel do (R335, R343, R346). -/
inductive Drive where
  /-- all gates off: the motor coasts -/
  | off
  /-- the sector's phases driven at the applied duty: motoring, or braking regeneratively -/
  | motor | regen
  /-- the short brake of WAIT_SLOW -/
  | brake
  /-- a sector held or forced at ALIGN_DUTY -/
  | align
deriving DecidableEq, Repr

structure Motor where
  /-- ramp output, mrpm, and the trim beam timing hands over, ppm (R340, R341) -/
  ramp    : Int
  trim    : Int
  /-- instants of the last seven commutations, newest first, and the direction of the last -/
  times   : List Nat
  dir     : Int
  /-- consecutive edges that agree in direction since LISTEN began (R346) -/
  agree   : Nat
  /-- levels of the sense inputs, S3 S2 S1, and whether a legal Hall code has come -/
  code    : Nat
  seen    : Bool
  /-- a back-EMF commutation due half a sector after its crossing (R337) -/
  due     : Option Nat
  /-- the present sector has had its crossing; sectors in a row without one -/
  crossed : Bool
  missed  : Nat
  drive   : Drive
  duty    : Nat
  /-- start and length of the soft edge of the last commutation, and the sector it leaves (R338) -/
  softAt  : Nat
  softT   : Nat
  softOld : Nat
  /-- TIME at which the state was entered -/
  since   : Nat
  outRun  : Nat
  restart : Bool
  /-- end of the start window -/
  winEnd  : Nat
  /-- forced commutation: speed in mrpm, phase in 10^-7 sectors, valid crossings in a row -/
  forced  : Nat
  phase   : Nat
  valid   : Nat
  /-- a Ke probe coasting: commutations seen; a probe deferred; the last estimate's TIME; the peak code read (R349) -/
  probe   : Option Nat
  keDue   : Bool
  keAt    : Nat
  peak    : Nat
  /-- one more than the last 1 ms sample run -/
  sampled : Nat
deriving DecidableEq, Repr

def Motor.reset : Motor where
  ramp := 0
  trim := 0
  times := []
  dir := 1
  agree := 0
  code := 0
  seen := false
  due := none
  crossed := false
  missed := 0
  drive := .off
  duty := 0
  softAt := 0
  softT := 0
  softOld := 0
  since := 0
  outRun := 0
  restart := false
  winEnd := 0
  forced := 0
  phase := 0
  valid := 0
  probe := none
  keDue := false
  keAt := 0
  peak := 0
  sampled := 0

structure BusGroup where
  /-- start requests: channel and TIME of the request, first in, first out -/
  queue   : List (Nat × Nat)
  /-- last consistent CH_ON, CH_OFF pair (R17, R351) -/
  pairOn  : Nat
  pairOff : Nat
  /-- the chopper gate: on since, VBUS at the samples of the last 200 µs on, low-current samples in a row, a failed check -/
  gateAt  : Option Nat
  volts   : List Nat
  lowRun  : Nat
  failed  : Bool
  /-- end of a test pulse -/
  testEnd : Nat
  sampled : Nat
deriving DecidableEq, Repr

def BusGroup.reset : BusGroup := ⟨[], 0, 0, none, [], 0, false, 0, 0⟩

/-! ### Loop engines, converters and generators (14) -/

structure Biquad where
  x1 : Int
  x2 : Int
  y1 : Int
  y2 : Int
deriving DecidableEq, Repr

structure LoopSlot where
  i      : Int
  d      : Int
  pvPrev : Int
  n1     : Biquad
  n2     : Biquad
  /-- raw values in a row outside and inside the range (R372) -/
  outRun : Nat
  inRun  : Nat
  /-- samples in a row inside and outside the band (R371) -/
  bandIn  : Nat
  bandOut : Nat
  /-- active causes of HELD: bit c for cause c -/
  causes : Nat
  /-- MANUAL written while HELD with no cause; a MODE left OFF for AUTO has not sampled yet -/
  release : Bool
  fresh  : Bool
  /-- one more than the last sample instant, the end of its computation, and the outputs held under FIXLAT with the tick
  each is applied at, oldest first (R360) -/
  sampled : Nat
  busyTo : Nat
  heldOut : List (Int × Nat)
deriving DecidableEq, Repr

def LoopSlot.reset : LoopSlot := ⟨0, 0, 0, ⟨0, 0, 0, 0⟩, ⟨0, 0, 0, 0⟩, 0, 0, 0, 0, 0, false, false, 0, 0, []⟩

structure AdcConv where
  /-- start of the frame, and the sequence table it runs: channel, DIV, FIFO -/
  frameAt : Nat
  table   : List (Nat × Nat × Bool)
  /-- entries of the frame still to give their result -/
  open_   : List Nat
  fifo    : List Nat
  /-- reference results in a row outside 2,048 ± 8; ADC_REF in force (R378) -/
  refRun  : Nat
  refBad  : Bool
  /-- its Assay has failed (Table 17.4) -/
  isolated : Bool
deriving DecidableEq, Repr

structure Control where
  motors : Vector Motor 12
  groups : Vector BusGroup 2
  slots  : Vector (Vector LoopSlot 32) 4
  adc    : Vector AdcConv 4
  /-- the duty each generator takes at its next period start (R379) -/
  duties : Vector Nat 96
  /-- start of each generator's period -/
  starts : Vector Nat 96
deriving DecidableEq, Repr

def Control.reset : Control where
  motors := Vector.replicate 12 Motor.reset
  groups := Vector.replicate 2 BusGroup.reset
  slots := Vector.replicate 4 (Vector.replicate 32 LoopSlot.reset)
  adc := Vector.replicate 4 ⟨0, [], [], [], 0, false, false⟩
  duties := Vector.replicate 96 0
  starts := Vector.replicate 96 0



/-! ### Beam timing (03) -/

/-- A beam-timing block.  TIME stamps are in 1/256 tick, stamps on the pixel time scale in 1/64 pixel. -/
structure Beam where
  /-- accumulator and trim, ppm, of the phase loop (R79) -/
  acc      : Int
  trim     : Int
  /-- the facet counter is set (R64); an index edge has come and its beam detect has not -/
  facetSet : Bool
  idxPend  : Bool
  /-- beam detects since the last index edge, none before the first; scans since it or since IDX_MISSING (R65) -/
  idxCount : Option Nat
  idxScans : Nat
  /-- the last accepted or synthesised detect, TIME and pixel scale; whether one has come since STOPPED -/
  lastT    : Nat
  lastPx   : Int
  begun    : Bool
  /-- TIME stamps of the last 16 accepted detects, newest first (R63) -/
  times    : List Nat
  /-- accepted stamp minus E of the last 8 accepted detects, 1/256 tick, newest first (R72) -/
  devs     : List Int
  /-- detects accepted in a row (SPEED), scans in a row within LOCK_WIN (PULL) and beyond twice it (LOCKED) -/
  accRun   : Nat
  lockRun  : Nat
  awayRun  : Nat
  /-- number of the reference instant of the last scan (R77) -/
  scan     : Nat
  /-- BD_MISSING has been raised in the present run (R73) -/
  missed   : Bool
  /-- the line of the last scan: line start t_ls in 1/64 pixel, pixels, strobed; none when the scan has no line -/
  lineT    : Option Int
  linePx   : Nat
  strobe   : Bool
deriving DecidableEq, Repr

def Beam.reset : Beam where
  acc := 0
  trim := 0
  facetSet := false
  idxPend := false
  idxCount := none
  idxScans := 0
  lastT := 0
  lastPx := 0
  begun := false
  times := []
  devs := []
  accRun := 0
  lockRun := 0
  awayRun := 0
  scan := 0
  missed := false
  lineT := none
  linePx := 0
  strobe := false

/-- A facet reference: the phase, counted without its wraps, at a tick (R77). -/
structure Fref where
  at_   : Nat
  phase : Nat
deriving DecidableEq, Repr

/-- What binds the staged set of a station page: the TIME of its COMMIT, and the slot whose page it waits for (R84). -/
structure Bind where
  at_  : Nat
  slot : Option Nat
deriving DecidableEq, Repr

/-- A page's exposure at a station, from its commit on (R81, R89, R90). -/
structure Feed where
  slot    : Nat
  page    : Nat
  /-- reference number of the feed's scan 0, and G -/
  s0      : Nat
  g       : Int
  /-- image height, width and format, source lines -/
  height  : Nat
  width   : Nat
  fmt     : Nat
  lines   : Nat
  /-- lines of the mark trailer, and the station's place in the set (R129, R130) -/
  trailer : Nat
  idx     : Nat
  started : Bool
deriving DecidableEq, Repr

/-! ### Interlace (04) -/

structure Ilace where
  /-- pitches counted at the last test; TIME of the last line; TIME up to which a test window or gap Assay is reserved -/
  lastTest : Nat
  lastLine : Nat
  testAt   : Nat
  testEnd  : Nat
  /-- emitter steps begun, whether the result of the last has come or timed out; timeouts in a row -/
  emitter  : Nat
  answered : Bool
  timeouts : Nat
  /-- emitters the 9640 holds isolated (R162) -/
  isolated : List Nat
  /-- a sample has been cool since CAP was set, and the first page committed since (R107) -/
  cool     : Bool
  coolPage : Option Nat
  /-- the cap acts from the scan after the sample -/
  capNext  : Bool
  /-- a cut is in force, by HTEMP or by OWN_CUT (R108, R160) -/
  cut      : Bool
  /-- the last consistent WARN and CUT (R17, R106) -/
  pairWarn : Nat
  pairCut  : Nat
  /-- QUENCH is to be withdrawn at the next scan (R109) -/
  release  : Bool
  /-- a test that was due when a change of v took its gap waits for the next one (Table 4.7) -/
  waitGap  : Bool
deriving DecidableEq, Repr

def Ilace.reset : Ilace := ⟨0, 0, 0, 0, 0, false, 0, [], false, none, false, false, 0, 0, false, false⟩

/-- A change of v found by the planner and not yet applied, per pixel-clock group (R103, R104). -/
structure Plan where
  v4    : Nat
  /-- chosen emitters of every station of the group -/
  sets  : List (Nat × List Nat)
  /-- expected anchor of the first of the skip pitches requested for it (R104) -/
  mark  : Nat
deriving DecidableEq, Repr

/-! ### Head link (06) -/

/-- A command to the head and its course (R143, R144). -/
structure HeadCmd where
  cmd   : Nat
  arg   : Nat
  tag   : Nat
  tries : Nat
  sent  : Nat
  /-- reply slots since it was sent -/
  slots : Nat
deriving DecidableEq, Repr

/-- A lane map sent and not yet in use (R152): physical lanes of the logical lanes, status lane, state B. -/
structure LaneMap where
  lanes : List Nat
  slane : Nat
  slot  : Bool
deriving DecidableEq, Repr

/-- The scans of a page's exposure: their first and last BT_SCAN.COUNT, no last one while it goes on (R150). -/
structure Span where
  slot  : Nat
  page  : Nat
  first : Nat
  last  : Option Nat
deriving DecidableEq, Repr

structure Link where
  /-- consecutive STATUS blocks without the lane's LOCK bit (R156); lanes failed since the last training -/
  unlocked : Vector Nat 9
  failed   : Nat
  /-- SCAN_ERR reports: lane and scan count -/
  errors   : List (Nat × Nat)
  /-- TIME of the last valid STATUS -/
  heard    : Nat
  /-- failed attempts, start of the present one, lane L tried, and since when -/
  tries    : Nat
  began    : Nat
  lane     : Nat
  laneAt   : Nat
  /-- commands without an ACK, oldest first; the last tag used -/
  cmds     : List HeadCmd
  tag      : Nat
  /-- when TURN was sent in this try, and whether a STATUS has come on its lane (Table 6.6) -/
  turnAt   : Option Nat
  seen     : Bool
  /-- the LANE_MAP that waits for its ACK -/
  map      : Option LaneMap
  /-- the last exposures, newest first -/
  spans    : List Span
  /-- last QUENCH and ALIGN frame -/
  quenchAt : Nat
  alignAt  : Nat
  /-- the packet of the scan waits for a ring line (R118): the scan's reference number -/
  waiting  : Option Nat
  /-- TIME of the last reply slot -/
  slotAt   : Nat
  /-- serial number last read, and ISO_WRITES of the head memory -/
  serial   : Option Nat
  writes   : Nat
  /-- lanes that have failed their Assay, until a head exchange (Table 17.4) -/
  lasting  : Nat
  /-- the tables of the station are invalid (R128) -/
  badTable : Bool
deriving DecidableEq, Repr

def Link.reset : Link where
  unlocked := Vector.replicate 9 0
  failed := 0
  errors := []
  heard := 0
  tries := 0
  began := 0
  lane := 8
  laneAt := 0
  cmds := []
  tag := 0
  turnAt := none
  seen := false
  map := none
  spans := []
  quenchAt := 0
  alignAt := 0
  waiting := none
  slotAt := 0
  serial := none
  writes := 0
  lasting := 0
  badTable := false

/-! ### Band rings and decode contexts (05, 07) -/

/-- The page in a station's ring: source lines, lines published and released, stride (R115, R116). -/
structure Ring where
  page   : Option Nat
  lines  : Nat
  pub    : Nat
  rel    : Nat
  stride : Nat
deriving DecidableEq, Repr

structure Ctx where
  /-- order of commit of its page, none before commit -/
  order   : Option Nat
  /-- offset of the next block header, decoded bytes so far, CRC register of the output so far -/
  off     : Nat
  done    : Nat
  ocrc    : Nat
  /-- its first line has been given the ring; the page is LOST: only zero lines are left (R181) -/
  started : Bool
  zero    : Bool
  /-- the block in progress is to be restarted on another lane (R186) -/
  again   : Bool
deriving DecidableEq, Repr

def Ctx.reset : Ctx := ⟨none, 0, 0, 0xFFFFFFFF, false, false, false⟩

/-! ### Registration (05) -/

/-- A page whose marks are to be read, as it stood at its commit (R129, R133). -/
structure MarkPage where
  slot   : Nat
  page   : Nat
  anchor : Nat
  height : Nat
  set_   : List Nat
  /-- trailer length of the last station of the set -/
  trLast : Nat
  /-- it committed after the last set of corrections was complete (R136) -/
  after  : Bool
deriving DecidableEq, Repr

structure Reg where
  /-- commit instants since the last page that carried marks -/
  since  : Nat
  pages  : List MarkPage
  /-- edges stamped in the open window, newest first, TIME in 1/256 tick -/
  edges  : Vector (List Nat) 4
  /-- the service: 0 idle, 1 waiting for the feed gate, 2 waiting for marks printed with the set (R136) -/
  phase  : Nat
  /-- REG_STAT.SETS last used, and the stations of the last results -/
  used   : Nat
  set_   : List Nat
  /-- PG_SEQ of the page timeline at the COMMIT of the trims, and TIME of the COMMITs of step 3 -/
  seq    : Nat
  setAt  : Nat
  /-- step 3: per station the changes of PH_TRIM, DELAY, PPM and of the 64 D[z] -/
  todo   : List (Nat × List Int)
  /-- results of marks printed with the last set have been written -/
  printed : Bool
deriving DecidableEq, Repr

def Reg.reset : Reg := ⟨0, [], Vector.replicate 4 [], 0, 0, [], 0, 0, [], false⟩

structure Stations where
  beams : Vector Beam 6
  frefs : Vector Fref 2
  /-- staged sets of the beam-timing, interlace and imaging pages -/
  binds : Vector (Vector Bind 3) 6
  feeds : Vector (List Feed) 6
  ilaces : Vector Ilace 6
  plans : Vector (Option Plan) 2
  links : Vector Link 6
  rings : Vector Ring 6
  ctxs  : Vector Ctx 24
  /-- commits so far -/
  commits : Nat
  reg   : Reg
deriving DecidableEq, Repr

def Stations.reset : Stations where
  beams := Vector.replicate 6 Beam.reset
  frefs := Vector.replicate 2 ⟨0, 0⟩
  binds := Vector.replicate 6 (Vector.replicate 3 ⟨0, none⟩)
  feeds := Vector.replicate 6 []
  ilaces := Vector.replicate 6 Ilace.reset
  plans := Vector.replicate 2 none
  links := Vector.replicate 6 Link.reset
  rings := Vector.replicate 6 ⟨none, 0, 0, 0, 0⟩
  ctxs := Vector.replicate 24 Ctx.reset
  commits := 0
  reg := Reg.reset

/-! ### The ZE-40 personality (19) -/

/-- A page of the emulation that is defined and not yet submitted (R485). -/
structure ZDef where
  id     : Nat
  /-- stations with a complete separation -/
  done   : Nat
  width  : Nat
  height : Nat
deriving DecidableEq, Repr

/-- A submitted page that has not finished, with the host's tag and its laser-power steps (R485, Table 19.10). -/
structure ZSub where
  id    : Nat
  tag   : Nat
  power : List Nat
  /-- station fields still to be given to the native pages for this page: those of the page timeline, those of beam timing -/
  ptSets : List (Nat × Nat)
  btSets : List (Nat × Nat)
deriving DecidableEq, Repr

/-- A posted result: tag, RESULT, ZCAUSE (R485). -/
structure ZResult where
  tag    : Nat
  result : Nat
  cause  : Nat
deriving DecidableEq, Repr

/-- The reference of an external polygon and its lock input (R491, R492). -/
structure ZPoly where
  /-- the reference runs; the 40-bit accumulator, and the tick it was computed for -/
  run    : Bool
  acc    : Nat
  at_    : Nat
  /-- lock input active, and since when -/
  lock   : Bool
  since  : Nat
deriving DecidableEq, Repr

structure Legacy where
  /-- posted writes not yet applied, oldest first: word address and value (R480) -/
  wfifo    : List (Nat × Nat)
  /-- raster FIFO, oldest first (R488) -/
  raster   : List Nat
  /-- pages defined and not submitted, submitted and not finished, oldest first -/
  defs     : List ZDef
  subs     : List ZSub
  results  : List ZResult
  /-- the ZINT bit the result shown has set (R485) -/
  shown    : Option Nat
  /-- station fields written and not yet bound to a page, by word address (class S of R481) -/
  dirty    : List Nat
  nextId   : Nat
  /-- pixels of the current line, and the contone bytes of the separation so far (R486, R487) -/
  pix      : Nat
  data     : List Nat
  /-- words taken since EN -/
  words    : Nat
  /-- words left in the granted burst, and the last handshake (R488) -/
  burst    : Nat
  dackAt   : Nat
  /-- a word came one DACK after the last of a burst: the next burst has it already (Table 19.9) -/
  late     : Bool
  /-- high words of the refreshed counts, for the latches of R482 -/
  msHi     : Nat
  cntHi    : Nat
  /-- ZMIG_KEY: 0x9640 was the register write before; window open; held halves by page and offset (R494, R495) -/
  keyed    : Bool
  open_    : Bool
  heldRead : Option (Nat × Nat)
  heldWrite : Option (Nat × Nat)
  /-- the value of the held halves -/
  readHi   : Nat
  writeLo  : Nat
  /-- LG_INT_N low (R478) -/
  intLow   : Bool
  polys    : Vector ZPoly 4
  /-- input, LSEQ and TSEQ last seen for ZINT.SENSOR -/
  sens     : Nat × Nat × Nat
  /-- a JAM and a PAGE_REQ last seen -/
  jam      : Bool
  pageReq  : Bool
deriving DecidableEq, Repr

def Legacy.reset : Legacy where
  wfifo := []
  raster := []
  defs := []
  subs := []
  results := []
  shown := none
  dirty := []
  nextId := 1
  pix := 0
  data := []
  words := 0
  burst := 0
  dackAt := 0
  late := false
  msHi := 0
  cntHi := 0
  keyed := false
  open_ := false
  heldRead := none
  heldWrite := none
  readHi := 0
  writeLo := 0
  intLow := false
  polys := Vector.replicate 4 ⟨false, 0, 0, false, 0⟩
  sens := (0, 0, 0)
  jam := false
  pageReq := false


/-! ### Reset values of the parts -/

def Collector.reset : Collector := ⟨Vector.replicate 16 none, [], [], [], [], [], [], (0, []), (0, []), (0, []), false⟩

def Berths.reset : Berths := ⟨[], 0, 0, 0, none, Vector.replicate 3 [], Vector.replicate 12 0⟩

/-- An unread flash bank: nothing verifies. -/
def blankImage : ImageInfo := ⟨false, 0, 0, 0, false, []⟩

def Boot.reset : Boot where
  bankA := blankImage
  bankB := blankImage
  verified := false
  imageBad := false
  slotOk := false
  since := 0
  banksFilled := false
  offAfterSafe := false
  warm := false
  updMoved := []
  updating := false
  noProfile := false
  minus4S := false
  gradeX := false
  stations := 0
  stagedBank := 0

def Sequencer.reset : Sequencer where
  dir := .idle
  table := []
  begun := 0
  started := Vector.replicate 48 none
  done := Vector.replicate 48 none
  queues := Vector.replicate 4 []
  ramping := []
  pgSince := Vector.replicate 24 0
  pgRaw := Vector.replicate 24 false
  railAt := Vector.replicate 24 0
  failed := false
  autoKind := 0
  fromSafe := false
  bad := false
  early := false
  pfwSince := none
  vinOkAt := none
  uiLevel := false
  diLevel := false
  uoLevel := false
  doLevel := true
  slackExit := false
  idleSince := 0
  avsAt := 0
  avsBad := 0
  avsStop := false
  lowRun := 0
  pairUp := 205
  pairDn := 179

def Clocks.reset : Clocks where
  refLost := none
  refLong := false
  acqAt := Vector.replicate 3 0
  setN := #v[0, 0, 128]
  setDiv := #v[0, 0, 32]
  setFrac := Vector.replicate 3 0
  groups := false
  baseLock := false
  alarm := 0
  alarmAt := 0

def Timeline.reset : Timeline where
  jobs := []
  pages := []
  released := []
  reprint := []
  pitches := []
  slots := Vector.replicate 16 none
  nextExp := 0
  emptyRun := 0
  nextSheet := 1
  lastPitch := 0
  fedCount := 0
  pathReady := false
  pathClear := false
  runStart := 0
  pitchNo := 0

def Quay.reset : Quay where
  cqWrite := 0
  cqPhase := true
  cqHead := 0
  sqTail := 0
  held := []
  issued := []
  completions := []
  overflow := false
  prevEpoch := 0
  resendAt := none
  lastMsg := 0
  irqLast := 0
  irqWait := 0
  irqSince := 0
  orphan := []
  d3hot := false
  fnMask := false
  aerMask := 0
  perst := true
  waitResume := false

def EdModule.reset : EdModule where
  serial := none
  authSup := false
  flags := 0
  lastTid := 0
  eack := 0
  trans := none
  notices := []
  announces := []
  feeds := []
  quarantine := false
  challenge := false
  chal := []
  key := []
  authAt := 0
  authFails := 0
  tagFails := 0
  silentRun := 0
  malfRun := 0
  violTimes := []
  window := false
  frames := 0
  active := false
  valid := false
  violated := false
  received := []
  accepted := []

def EdPort.reset : EdPort := ⟨Vector.replicate 16 EdModule.reset, 0, 0, 0, 0, false, [], [], 0⟩



/-! ### The whole machine -/

/-- The state of the device. -/
structure State where
  /-- the TIME count, ticks of 10 ns (R21) -/
  time : Nat
  /-- how many free values have been taken; the model's own (log 1) -/
  free : Nat
  /-- the register file: fields that have been set to another value than their Reset column, by bit address -/
  regs : SparseMap Nat
  /-- staging copies that have been written and not yet applied (R13) -/
  stg : SparseMap Nat
  /-- the HI words held by a read of their LO words, by page and offset -/
  hold : SparseMap Nat
  /-- banks, DRAM and MRAM by device address; a byte not listed is 0 -/
  mem : List Host.Cell
  /-- header bits set in the tick given first: page and bit (32 + i a fault, 56 CFG_MISMATCH, 57 ACCESS_BUSY; Table 20.3) -/
  fresh : Nat × List (Nat × Nat)
  /-- codes, seals and channels of the banks and the DRAM port -/
  mu : MemUnit
  /-- everything the device has put out, newest first -/
  out : List Out
  /-- FAULT_N asserted (low): while RST_N is, in SAFE, and with no image (R515, R434) -/
  faultN : Bool
  /-- RST_N asserted -/
  rstN : Bool
  /-- PFW_N asserted (R398) -/
  pfwN : Bool
  /-- the fault collector -/
  fc : Collector
  /-- the berths and the Harbourmaster -/
  berths : Berths
  /-- device state outside the registers, flash and profiles -/
  boot : Boot
  /-- the power sequencer -/
  seq : Sequencer
  /-- clock monitor and ADPLL settings -/
  clocks : Clocks
  /-- jobs, page records, pitches and slots -/
  tl : Timeline
  /-- rings, history and moderation -/
  quay : Quay
  /-- the Edkar ports E0 and E1 -/
  ed : Vector EdPort 2
  /-- the DMA channels -/
  dma : Dma
  /-- steppers, encoders and sheet sensors -/
  mo : Motion
  /-- commutation, motor bus, loop engines, converters and generators -/
  ct : Control
  /-- beam timing, interlace, imaging and head links -/
  sta : Stations
  /-- the emulation behind the ZE-40 host bus (R475–R499) -/
  lg : Legacy
  /-- commands waiting, first in, first out -/
  pending : List Instr
deriving DecidableEq, Repr

/-- Why a step stops.  No command of this model faults: the type has one constructor, kept for an access the manual
itself would leave without any outcome, and no meaning raises it (safe). -/
inductive Fault where
  /-- raised by nothing; stopping is safe -/
  | noOutcome
deriving DecidableEq, Repr

/-- Why a command has no meaning here. -/
inductive Refusal where
  /-- raised by the dispatch for a command without a meaning yet; safe: nothing is claimed about it -/
  | notModelled (mnemonic : String)
deriving DecidableEq, Repr

/-- RST_N asserted, the device in OFF: every register at its Reset column, memory at what it reads as with nothing
written, every block idle (12, Table 0.5; assumption log 2 and 3). -/
def State.reset : State where
  time := 0
  free := 0
  regs := []
  stg := []
  hold := []
  mem := []
  fresh := (0, [])
  mu := MemUnit.reset
  out := []
  faultN := true
  rstN := true
  pfwN := false
  fc := Collector.reset
  berths := Berths.reset
  boot := Boot.reset
  seq := Sequencer.reset
  clocks := Clocks.reset
  tl := Timeline.reset
  quay := Quay.reset
  ed := Vector.replicate 2 EdPort.reset
  dma := Dma.reset
  mo := Motion.reset
  ct := Control.reset
  sta := Stations.reset
  lg := Legacy.reset
  pending := []

end Sys2Proof.Machine
end

