-- ==== Sys2Proof/Machine/Fields.lean ====
section
/-!
DEFINITION. The named fields of the register pages, one constant for every field of every register table of the
manual (02-20): its page, byte offset, lowest bit, width and the value of its Reset column.  A block with several
instances takes the instance `p` first; the indices of an array follow in the order of its square brackets.
-/
namespace Sys2Proof.Machine.F

/-! ### timeline: Table 2.7 (02), Table 2.8 (02), Table 2.9 (02), Table 2.10 (02), Table 2.11 (02), Table 2.12 (02) -/

def PT_CFG_FEED_EN : Fld := ⟨0x41, 0x40, 0, 1, 0⟩
def PT_CFG_REPRINT_EN : Fld := ⟨0x41, 0x40, 1, 1, 0⟩
def PT_CFG_REPRINT_ORDER : Fld := ⟨0x41, 0x40, 2, 1, 0⟩
def PT_CFG_PURGE_PATH : Fld := ⟨0x41, 0x40, 3, 1, 0⟩
def PT_CFG_REPRINT_MAX : Fld := ⟨0x41, 0x40, 4, 4, 0⟩
def PT_CFG_ANCHOR_SRC : Fld := ⟨0x41, 0x40, 8, 6, 0⟩
def PT_CFG_EXIT_SRC : Fld := ⟨0x41, 0x40, 16, 6, 0⟩
def PT_CFG_INFLIGHT_MAX : Fld := ⟨0x41, 0x40, 24, 5, 0⟩
def PT_SPEED_SPEED : Fld := ⟨0x41, 0x44, 0, 24, 0⟩
def PT_GAP_GAP : Fld := ⟨0x41, 0x48, 0, 20, 0⟩
def PT_FEED_LEAD_TICKS : Fld := ⟨0x41, 0x4c, 0, 32, 0⟩
def PT_ANN_LEAD_TICKS : Fld := ⟨0x41, 0x50, 0, 24, 0⟩
def PT_COMMIT_LEAD_TICKS : Fld := ⟨0x41, 0x54, 0, 24, 200000⟩
def PT_ANCHOR_WIN_TICKS : Fld := ⟨0x41, 0x58, 0, 24, 300000⟩
def PT_HANDOFF_OFFS_TICKS : Fld := ⟨0x41, 0x5c, 0, 32, 0⟩
def PT_STN_OFFS_TICKS (k : Nat) : Fld := ⟨0x41, 0x60 + 4 * k, 0, 32, 0⟩
def PT_STN_TRIM_TICKS (k : Nat) : Fld := ⟨0x41, 0x80 + 4 * k, 0, 24, 0⟩
def PT_DIVERT_OFFS_TICKS : Fld := ⟨0x41, 0x98, 0, 32, 0⟩
def PT_SKIP_COUNT : Fld := ⟨0x41, 0x9c, 0, 8, 0⟩
def PT_SKIP_REMAIN : Fld := ⟨0x41, 0x9c, 8, 8, 0⟩
def PT_GATE_STAT_FEED : Fld := ⟨0x41, 0xa0, 0, 8, 0⟩
def PT_GATE_STAT_COMMIT : Fld := ⟨0x41, 0xa0, 8, 8, 0⟩
def PT_CNT_A_SKIP : Fld := ⟨0x41, 0xa4, 0, 16, 0⟩
def PT_CNT_A_BLANK : Fld := ⟨0x41, 0xa4, 16, 16, 0⟩
def PT_CNT_B_LOST : Fld := ⟨0x41, 0xa8, 0, 16, 0⟩
def PT_CNT_B_REPRINT : Fld := ⟨0x41, 0xa8, 16, 16, 0⟩
def PT_NEXT_ANCHOR_LO : Fld := ⟨0x41, 0xb0, 0, 32, 0⟩
def PT_NEXT_ANCHOR_HI : Fld := ⟨0x41, 0xb4, 0, 32, 0⟩
def PT_QUEUE_RELEASED : Fld := ⟨0x41, 0xb8, 0, 16, 0⟩
def PT_QUEUE_INFLIGHT : Fld := ⟨0x41, 0xb8, 16, 5, 0⟩
def PT_SLOT_PAGE_ID (s : Nat) : Fld := ⟨0x41, 0x100 + 0x10 * s, 0, 32, 0⟩
def PT_SLOT_SHEET (s : Nat) : Fld := ⟨0x41, 0x104 + 0x10 * s, 0, 32, 0⟩
def PT_SLOT_STATE (s : Nat) : Fld := ⟨0x41, 0x108 + 0x10 * s, 0, 4, 0⟩
def PT_SLOT_REPRINTS (s : Nat) : Fld := ⟨0x41, 0x108 + 0x10 * s, 4, 4, 0⟩
def PT_SLOT_CAUSE (s : Nat) : Fld := ⟨0x41, 0x108 + 0x10 * s, 8, 8, 0⟩
def PT_SLOT_EXTRA (s : Nat) : Fld := ⟨0x41, 0x108 + 0x10 * s, 16, 8, 0⟩
def PT_SLOT_ANCHOR_LO (s : Nat) : Fld := ⟨0x41, 0x10c + 0x10 * s, 0, 32, 0⟩

/-! ### beam: Table 3.6 (03), Table 3.7 (03), Table 3.8 (03), Table 3.9 (03) -/

def BT_CFG_EDGE (p : Nat) : Fld := ⟨0x20 + p, 0x40, 0, 1, 0⟩
def BT_CFG_BD_MINW (p : Nat) : Fld := ⟨0x20 + p, 0x40, 4, 4, 0⟩
def BT_CFG_POLY_CH (p : Nat) : Fld := ⟨0x20 + p, 0x40, 8, 4, 0⟩
def BT_CFG_IDX_KIND (p : Nat) : Fld := ⟨0x20 + p, 0x40, 12, 2, 0⟩
def BT_CFG_IDX_NUM (p : Nat) : Fld := ⟨0x20 + p, 0x40, 16, 6, 0⟩
def BT_CFG_FACETS (p : Nat) : Fld := ⟨0x20 + p, 0x40, 24, 4, 0⟩
def BT_CFG_GROUP (p : Nat) : Fld := ⟨0x20 + p, 0x40, 28, 1, 0⟩
def BT_LS_DELAY_DELAY (p : Nat) : Fld := ⟨0x20 + p, 0x44, 0, 20, 0⟩
def BT_BD_WIN_PX (p : Nat) : Fld := ⟨0x20 + p, 0x48, 0, 12, 0⟩
def BT_STROBE_HEAD_LAT (p : Nat) : Fld := ⟨0x20 + p, 0x4c, 0, 8, 0⟩
def BT_STROBE_WIDTH (p : Nat) : Fld := ⟨0x20 + p, 0x4c, 8, 4, 4⟩
def BT_LINE_LINE_PX (p : Nat) : Fld := ⟨0x20 + p, 0x50, 0, 15, 0⟩
def BT_LINE_ZONE_W (p : Nat) : Fld := ⟨0x20 + p, 0x50, 16, 10, 0⟩
def BT_MAG_PPM (p : Nat) : Fld := ⟨0x20 + p, 0x54, 0, 16, 0⟩
def BT_TLINE_TICKS (p : Nat) : Fld := ⟨0x20 + p, 0x58, 0, 32, 0⟩
def BT_LOCK_LOCK_WIN (p : Nat) : Fld := ⟨0x20 + p, 0x5c, 0, 12, 128⟩
def BT_LOCK_LOCK_CNT (p : Nat) : Fld := ⟨0x20 + p, 0x5c, 16, 8, 64⟩
def BT_PHASE_PH_OFFS (p : Nat) : Fld := ⟨0x20 + p, 0x60, 0, 16, 0⟩
def BT_PHASE_PH_TRIM (p : Nat) : Fld := ⟨0x20 + p, 0x60, 16, 16, 0⟩
def BT_PHLOOP_PH_SLEW (p : Nat) : Fld := ⟨0x20 + p, 0x64, 0, 10, 64⟩
def BT_PHLOOP_PH_KP (p : Nat) : Fld := ⟨0x20 + p, 0x64, 16, 8, 0⟩
def BT_PHLOOP_PH_KI (p : Nat) : Fld := ⟨0x20 + p, 0x64, 24, 8, 0⟩
def BT_PHLIM_PH_LIM (p : Nat) : Fld := ⟨0x20 + p, 0x68, 0, 8, 50⟩
def BT_STAT_FACET (p : Nat) : Fld := ⟨0x20 + p, 0x6c, 0, 4, 0⟩
def BT_STAT_MISS_RUN (p : Nat) : Fld := ⟨0x20 + p, 0x6c, 4, 2, 0⟩
def BT_STAT_SLEWING (p : Nat) : Fld := ⟨0x20 + p, 0x6c, 8, 1, 0⟩
def BT_STAT_TRIM_NOW (p : Nat) : Fld := ⟨0x20 + p, 0x6c, 16, 16, 0⟩
def BT_PHERR_ERR (p : Nat) : Fld := ⟨0x20 + p, 0x70, 0, 16, 0⟩
def BT_PERIOD_TICKS (p : Nat) : Fld := ⟨0x20 + p, 0x74, 0, 32, 0⟩
def BT_BD_LO (p : Nat) : Fld := ⟨0x20 + p, 0x78, 0, 32, 0⟩
def BT_BD_HI (p : Nat) : Fld := ⟨0x20 + p, 0x7c, 0, 32, 0⟩
def BT_BD_FRAC_FRAC (p : Nat) : Fld := ⟨0x20 + p, 0x80, 0, 8, 0⟩
def BT_SCAN_COUNT (p : Nat) : Fld := ⟨0x20 + p, 0x84, 0, 32, 0⟩
def BT_CNT_A_MISSING (p : Nat) : Fld := ⟨0x20 + p, 0x88, 0, 16, 0⟩
def BT_CNT_A_STRAY (p : Nat) : Fld := ⟨0x20 + p, 0x88, 16, 16, 0⟩
def BT_CNT_B_FACET_SYNC (p : Nat) : Fld := ⟨0x20 + p, 0x8c, 0, 16, 0⟩
def BT_CNT_B_UNLOCK (p : Nat) : Fld := ⟨0x20 + p, 0x8c, 16, 16, 0⟩
def FACET_OFFS_FINE (p f : Nat) : Fld := ⟨0x20 + p, 0xc0 + 4 * f, 0, 6, 0⟩
def FACET_OFFS_COARSE (p f : Nat) : Fld := ⟨0x20 + p, 0xc0 + 4 * f, 8, 8, 0⟩
def ZONE_SHIFT (p z : Nat) : Fld := ⟨0x20 + p, 0x100 + 4 * z, 0, 16, 0⟩
def ZONE_P (p z : Nat) : Fld := ⟨0x20 + p, 0x100 + 4 * z, 16, 16, 0⟩
def FREF_INC_INC (g : Nat) : Fld := ⟨0x20, 0x200 + 4 * g, 0, 32, 0⟩

/-! ### interlace: Table 4.8 (04), Table 4.9 (04), Table 4.10 (04) -/

def IL_GEOM_A (p : Nat) : Fld := ⟨0x28 + p, 0x40, 0, 6, 0⟩
def IL_GEOM_BSEL (p : Nat) : Fld := ⟨0x28 + p, 0x40, 8, 2, 0⟩
def IL_GEOM_NEMIT (p : Nat) : Fld := ⟨0x28 + p, 0x40, 16, 7, 0⟩
def IL_CYCLE_K (p : Nat) : Fld := ⟨0x28 + p, 0x44, 0, 7, 0⟩
def IL_CYCLE_ADV (p : Nat) : Fld := ⟨0x28 + p, 0x44, 8, 16, 0⟩
def IL_LEAD_LEAD (p : Nat) : Fld := ⟨0x28 + p, 0x48, 0, 10, 0⟩
def IL_DEAD_LO_MASK (p : Nat) : Fld := ⟨0x28 + p, 0x4c, 0, 32, 0⟩
def IL_DEAD_HI_MASK (p : Nat) : Fld := ⟨0x28 + p, 0x50, 0, 32, 0⟩
def IL_FILL_MIX (p : Nat) : Fld := ⟨0x28 + p, 0x54, 0, 6, 0⟩
def IL_FILL_PSTEP (p : Nat) : Fld := ⟨0x28 + p, 0x54, 8, 2, 0⟩
def IL_FILL_EN (p : Nat) : Fld := ⟨0x28 + p, 0x54, 16, 1, 0⟩
def IL_TEST_EVERY (p : Nat) : Fld := ⟨0x28 + p, 0x58, 0, 8, 0⟩
def IL_TEST_GUARD (p : Nat) : Fld := ⟨0x28 + p, 0x58, 8, 12, 100⟩
def IL_TEST_NOW (p : Nat) : Fld := ⟨0x28 + p, 0x58, 31, 1, 0⟩
def IL_TEST_STAT_RUNNING (p : Nat) : Fld := ⟨0x28 + p, 0x5c, 0, 1, 0⟩
def IL_TEST_STAT_PENDING (p : Nat) : Fld := ⟨0x28 + p, 0x5c, 1, 1, 0⟩
def IL_TEST_STAT_GOOD (p : Nat) : Fld := ⟨0x28 + p, 0x5c, 8, 7, 0⟩
def IL_TEST_STAT_MARGINAL (p : Nat) : Fld := ⟨0x28 + p, 0x5c, 16, 7, 0⟩
def IL_TEST_STAT_FAILED (p : Nat) : Fld := ⟨0x28 + p, 0x5c, 24, 7, 0⟩
def IL_TEST_CNT_TESTS (p : Nat) : Fld := ⟨0x28 + p, 0x60, 0, 16, 0⟩
def IL_TEST_CNT_DEGRADED (p : Nat) : Fld := ⟨0x28 + p, 0x60, 16, 7, 0⟩
def IL_REPLAN_SKIP_OK (p : Nat) : Fld := ⟨0x28 + p, 0x64, 0, 1, 0⟩
def IL_REPLAN_REQ (p : Nat) : Fld := ⟨0x28 + p, 0x64, 1, 1, 0⟩
def IL_REPLAN_REASON (p : Nat) : Fld := ⟨0x28 + p, 0x64, 4, 4, 0⟩
def IL_THERM_WARN (p : Nat) : Fld := ⟨0x28 + p, 0x68, 0, 10, 0⟩
def IL_THERM_CUT (p : Nat) : Fld := ⟨0x28 + p, 0x68, 16, 10, 0⟩
def IL_THERM_CUT_Q (p : Nat) : Fld := ⟨0x28 + p, 0x68, 28, 4, 4⟩
def IL_THERM2_HYST (p : Nat) : Fld := ⟨0x28 + p, 0x6c, 0, 8, 0⟩
def IL_THERM2_POL (p : Nat) : Fld := ⟨0x28 + p, 0x6c, 8, 1, 0⟩
def IL_THERM_STAT_TEMP (p : Nat) : Fld := ⟨0x28 + p, 0x70, 0, 10, 0⟩
def IL_THERM_STAT_CAP (p : Nat) : Fld := ⟨0x28 + p, 0x70, 16, 1, 0⟩
def IL_THERM_STAT_CUT (p : Nat) : Fld := ⟨0x28 + p, 0x70, 17, 1, 0⟩
def IL_FILLTAB_W (p j : Nat) : Fld := ⟨0x28 + p, 0x80 + 4 * j, 0, 6, 0⟩
def IL_ENTRY_MASK_LO (p s : Nat) : Fld := ⟨0x28 + p, 0x200 + 0x10 * s, 0, 32, 0⟩
def IL_ENTRY_MASK_HI (p s : Nat) : Fld := ⟨0x28 + p, 0x204 + 0x10 * s, 0, 32, 0⟩
def IL_ENTRY_BASE (p s : Nat) : Fld := ⟨0x28 + p, 0x208 + 0x10 * s, 0, 16, 0⟩
def IL_RES_RDYN (p i : Nat) : Fld := ⟨0x28 + p, 0x600 + 8 * i, 0, 16, 0⟩
def IL_RES_RNOM (p i : Nat) : Fld := ⟨0x28 + p, 0x600 + 8 * i, 16, 16, 0⟩
def IL_RES_CLASS (p i : Nat) : Fld := ⟨0x28 + p, 0x604 + 8 * i, 0, 3, 0⟩
def IL_RES_DEGR (p i : Nat) : Fld := ⟨0x28 + p, 0x604 + 8 * i, 3, 1, 0⟩
def IL_RES_TESTS (p i : Nat) : Fld := ⟨0x28 + p, 0x604 + 8 * i, 16, 16, 0⟩

/-! ### imaging: Table 5.9 (05), Table 5.10 (05), Table 5.11 (05) -/

def IM_CFG_FMT (p : Nat) : Fld := ⟨0x30 + p, 0x40, 0, 2, 0⟩
def IM_CFG_TAGS (p : Nat) : Fld := ⟨0x30 + p, 0x40, 2, 1, 0⟩
def IM_CFG_IN_RES (p : Nat) : Fld := ⟨0x30 + p, 0x40, 4, 2, 0⟩
def IM_CFG_OUT_LPI (p : Nat) : Fld := ⟨0x30 + p, 0x40, 6, 2, 0⟩
def IM_RING_BASE (p : Nat) : Fld := ⟨0x30 + p, 0x44, 0, 7, 0⟩
def IM_RING_LINES (p : Nat) : Fld := ⟨0x30 + p, 0x44, 16, 16, 0⟩
def IM_RING_STAT_FILL (p : Nat) : Fld := ⟨0x30 + p, 0x48, 0, 16, 0⟩
def IM_RING_STAT_STRIDE (p : Nat) : Fld := ⟨0x30 + p, 0x48, 16, 16, 0⟩
def IM_TBASE_LUT_OFFS (p : Nat) : Fld := ⟨0x30 + p, 0x4c, 0, 23, 0⟩
def IM_TBASE_SCR_OFFS (p : Nat) : Fld := ⟨0x30 + p, 0x50, 0, 23, 0⟩
def IM_TBASE_RAMP_OFFS (p : Nat) : Fld := ⟨0x30 + p, 0x54, 0, 23, 0⟩
def IM_PAGE_HEIGHT (p : Nat) : Fld := ⟨0x30 + p, 0x58, 0, 17, 0⟩
def IM_PAGE_W_WIDTH (p : Nat) : Fld := ⟨0x30 + p, 0x5c, 0, 15, 0⟩
def IM_PAGE_W_TRAILER (p : Nat) : Fld := ⟨0x30 + p, 0x5c, 15, 1, 0⟩
def IM_WINDOW_NEED (p : Nat) : Fld := ⟨0x30 + p, 0x80, 0, 16, 0⟩
def IM_CNT_RING_WAIT (p : Nat) : Fld := ⟨0x30 + p, 0x84, 0, 16, 0⟩
def IM_CNT_UNCORR (p : Nat) : Fld := ⟨0x30 + p, 0x84, 16, 16, 0⟩
def IM_SCR_W (p t : Nat) : Fld := ⟨0x30 + p, 0x60 + 4 * t, 0, 8, 0⟩
def IM_SCR_H (p t : Nat) : Fld := ⟨0x30 + p, 0x60 + 4 * t, 8, 8, 0⟩
def IM_SCR_XSHIFT (p t : Nat) : Fld := ⟨0x30 + p, 0x60 + 4 * t, 16, 8, 0⟩
def IM_RAMP_SLOPE (p t : Nat) : Fld := ⟨0x30 + p, 0x70 + 4 * t, 0, 16, 0⟩
def IM_GAIN_EVEN (p n : Nat) : Fld := ⟨0x30 + p, 0x100 + 4 * n, 0, 16, 16384⟩
def IM_GAIN_ODD (p n : Nat) : Fld := ⟨0x30 + p, 0x100 + 4 * n, 16, 16, 16384⟩
def IM_DOFFS_D (p n r : Nat) : Fld := ⟨0x30 + p, 0x180 + 4 * n, 8 * r, 8, 0⟩

/-! ### registration: Table 5.13 (05) -/

def REG_CFG_EVERY : Fld := ⟨0x40, 0x40, 0, 8, 0⟩
def REG_CFG_REF : Fld := ⟨0x40, 0x40, 8, 3, 0⟩
def REG_CFG_GAIN : Fld := ⟨0x40, 0x40, 12, 4, 8⟩
def REG_CFG_DEADBAND : Fld := ⟨0x40, 0x40, 16, 8, 0⟩
def REG_MARK_START : Fld := ⟨0x40, 0x44, 0, 12, 0⟩
def REG_MARK_PITCH : Fld := ⟨0x40, 0x44, 12, 12, 0⟩
def REG_MARK_BAR : Fld := ⟨0x40, 0x44, 24, 8, 0⟩
def REG_MARK2_DIAG : Fld := ⟨0x40, 0x48, 0, 12, 0⟩
def REG_MARK2_HALF : Fld := ⟨0x40, 0x48, 16, 12, 0⟩
def REG_CODE_MARK_CODE : Fld := ⟨0x40, 0x4c, 0, 10, 0⟩
def REG_WIN_OFFS : Fld := ⟨0x40, 0x50, 0, 32, 0⟩
def REG_X_X (j : Nat) : Fld := ⟨0x40, 0x60 + 4 * j, 0, 15, 0⟩
def REG_SENS_THRESH (j : Nat) : Fld := ⟨0x40, 0x70 + 4 * j, 0, 10, 0⟩
def REG_SENS_HYST (j : Nat) : Fld := ⟨0x40, 0x70 + 4 * j, 12, 4, 0⟩
def REG_SENS_POL (j : Nat) : Fld := ⟨0x40, 0x70 + 4 * j, 16, 1, 0⟩
def REG_SENS_MINW (j : Nat) : Fld := ⟨0x40, 0x70 + 4 * j, 24, 8, 0⟩
def REG_STAT_SETS : Fld := ⟨0x40, 0x80, 0, 8, 0⟩
def REG_STAT_VALID : Fld := ⟨0x40, 0x80, 8, 4, 0⟩
def REG_STAT_DUE : Fld := ⟨0x40, 0x80, 12, 1, 0⟩
def REG_STAT_OPEN : Fld := ⟨0x40, 0x80, 13, 1, 0⟩
def REG_CNT_MARK_BAD : Fld := ⟨0x40, 0x84, 0, 16, 0⟩
def REG_CNT_POSTPONED : Fld := ⟨0x40, 0x84, 16, 16, 0⟩
def REG_RES_P (k j : Nat) : Fld := ⟨0x40, 0x100 + 0x20 * k + 8 * j, 0, 32, 0⟩
def REG_RES_X (k j : Nat) : Fld := ⟨0x40, 0x104 + 0x20 * k + 8 * j, 0, 16, 0⟩

/-! ### headLink: Table 6.10 (06) -/

def HL_CFG_AUTO_SPARE (p : Nat) : Fld := ⟨0x38 + p, 0x40, 0, 1, 1⟩
def HL_CFG_ALLOW_SLOT (p : Nat) : Fld := ⟨0x38 + p, 0x40, 1, 1, 0⟩
def HL_CFG_RETRAIN (p : Nat) : Fld := ⟨0x38 + p, 0x40, 8, 1, 0⟩
def HL_TIMING_MARGIN (p : Nat) : Fld := ⟨0x38 + p, 0x44, 0, 8, 2⟩
def HL_TIMING_RSLOT (p : Nat) : Fld := ⟨0x38 + p, 0x44, 8, 8, 20⟩
def HL_TIMING_STAT_TO (p : Nat) : Fld := ⟨0x38 + p, 0x44, 16, 16, 100⟩
def HL_SPARE_THRESH (p : Nat) : Fld := ⟨0x38 + p, 0x48, 0, 8, 4⟩
def HL_SPARE_WIN (p : Nat) : Fld := ⟨0x38 + p, 0x48, 8, 16, 4096⟩
def HL_STAT_HEALTHY (p : Nat) : Fld := ⟨0x38 + p, 0x4c, 0, 9, 0⟩
def HL_STAT_SLANE (p : Nat) : Fld := ⟨0x38 + p, 0x4c, 9, 4, 0⟩
def HL_STAT_SLOT_MODE (p : Nat) : Fld := ⟨0x38 + p, 0x4c, 13, 1, 0⟩
def HL_STAT_HEAD_OK (p : Nat) : Fld := ⟨0x38 + p, 0x4c, 14, 1, 0⟩
def HL_STAT_HEAD_READY (p : Nat) : Fld := ⟨0x38 + p, 0x4c, 15, 1, 0⟩
def HL_STAT_QUENCH (p : Nat) : Fld := ⟨0x38 + p, 0x4c, 16, 1, 0⟩
def HL_STAT_OWN_CUT (p : Nat) : Fld := ⟨0x38 + p, 0x4c, 17, 1, 0⟩
def HL_STAT_NL (p : Nat) : Fld := ⟨0x38 + p, 0x4c, 18, 4, 0⟩
def HL_MAP_PHYS (p : Nat) : Fld := ⟨0x38 + p, 0x50, 0, 32, 4294967295⟩
def HL_NEED_NEED (p : Nat) : Fld := ⟨0x38 + p, 0x54, 0, 16, 0⟩
def HL_NEED_TSCAN (p : Nat) : Fld := ⟨0x38 + p, 0x54, 16, 16, 0⟩
def HL_SCAN_SENT (p : Nat) : Fld := ⟨0x38 + p, 0x58, 0, 24, 0⟩
def HL_HSCAN_EMITTED (p : Nat) : Fld := ⟨0x38 + p, 0x5c, 0, 24, 0⟩
def HL_SN_LO (p : Nat) : Fld := ⟨0x38 + p, 0x60, 0, 32, 0⟩
def HL_SN_HI (p : Nat) : Fld := ⟨0x38 + p, 0x64, 0, 32, 0⟩
def HL_CNT_A_SCAN_ERR (p : Nat) : Fld := ⟨0x38 + p, 0x68, 0, 16, 0⟩
def HL_CNT_A_UNDERRUN (p : Nat) : Fld := ⟨0x38 + p, 0x68, 16, 16, 0⟩
def HL_CNT_B_TRAIN (p : Nat) : Fld := ⟨0x38 + p, 0x6c, 0, 16, 0⟩
def HL_CNT_B_LANE_FAIL (p : Nat) : Fld := ⟨0x38 + p, 0x6c, 16, 8, 0⟩
def HL_CNT_B_TEST_TIMEOUT (p : Nat) : Fld := ⟨0x38 + p, 0x6c, 24, 8, 0⟩
def HL_LANE_CRC (p n : Nat) : Fld := ⟨0x38 + p, 0x80 + 4 * n, 0, 16, 0⟩
def HL_LANE_RXERR (p n : Nat) : Fld := ⟨0x38 + p, 0x80 + 4 * n, 16, 16, 0⟩

/-! ### codec: Table 7.9 (07) -/

def CDC_LIMIT_OUT_LIMIT : Fld := ⟨0x48, 0x40, 0, 32, 0⟩
def CDC_STAT_DEC_BUSY : Fld := ⟨0x48, 0x44, 0, 8, 0⟩
def CDC_STAT_ENC_BUSY : Fld := ⟨0x48, 0x44, 8, 2, 0⟩
def CDC_STAT_CTX_OPEN : Fld := ⟨0x48, 0x44, 16, 5, 0⟩
def CDC_CNT_A_STREAM_ERR : Fld := ⟨0x48, 0x48, 0, 16, 0⟩
def CDC_CNT_A_HDR_REFUSED : Fld := ⟨0x48, 0x48, 16, 16, 0⟩
def CDC_CNT_B_BLOCKS : Fld := ⟨0x48, 0x4c, 0, 32, 0⟩
def CTX_PAGE_ID (x : Nat) : Fld := ⟨0x48, 0x80 + 8 * x, 0, 32, 0⟩
def CTX_STATION (x : Nat) : Fld := ⟨0x48, 0x84 + 8 * x, 0, 3, 0⟩
def CTX_OPEN (x : Nat) : Fld := ⟨0x48, 0x84 + 8 * x, 3, 1, 0⟩
def CTX_LANE (x : Nat) : Fld := ⟨0x48, 0x84 + 8 * x, 4, 4, 15⟩
def CTX_BLOCKS (x : Nat) : Fld := ⟨0x48, 0x84 + 8 * x, 8, 24, 0⟩

/-! ### decodeLane: Table 7.10 (07) -/

def DL_STAT_CTX (p : Nat) : Fld := ⟨0x49 + p, 0x40, 0, 5, 31⟩
def DL_CNT_BLOCKS (p : Nat) : Fld := ⟨0x49 + p, 0x44, 0, 16, 0⟩
def DL_CNT_RESTARTS (p : Nat) : Fld := ⟨0x49 + p, 0x44, 16, 16, 0⟩
def DL_ERR_CODE (p : Nat) : Fld := ⟨0x49 + p, 0x48, 0, 4, 0⟩
def DL_ERR_OFFS_OFFS (p : Nat) : Fld := ⟨0x49 + p, 0x4c, 0, 32, 0⟩

/-! ### encodeLane: Table 7.11 (07) -/

def EJ_SRC_LO (p : Nat) : Fld := ⟨0x51 + p, 0x40, 0, 32, 0⟩
def EJ_SRC_HI (p : Nat) : Fld := ⟨0x51 + p, 0x44, 0, 16, 0⟩
def EJ_DST_LO (p : Nat) : Fld := ⟨0x51 + p, 0x48, 0, 32, 0⟩
def EJ_DST_HI (p : Nat) : Fld := ⟨0x51 + p, 0x4c, 0, 16, 0⟩
def EJ_SRC_STRIDE_BYTES (p : Nat) : Fld := ⟨0x51 + p, 0x50, 0, 24, 0⟩
def EJ_LINE_BYTES_BYTES (p : Nat) : Fld := ⟨0x51 + p, 0x54, 0, 24, 0⟩
def EJ_LINES_LINES (p : Nat) : Fld := ⟨0x51 + p, 0x58, 0, 18, 0⟩
def EJ_DST_SIZE_BYTES (p : Nat) : Fld := ⟨0x51 + p, 0x5c, 0, 32, 0⟩
def EJ_CTL_ALPHA (p : Nat) : Fld := ⟨0x51 + p, 0x60, 0, 1, 0⟩
def EJ_CTL_MODE (p : Nat) : Fld := ⟨0x51 + p, 0x60, 1, 1, 0⟩
def EJ_CTL_EFFORT (p : Nat) : Fld := ⟨0x51 + p, 0x60, 2, 3, 0⟩
def EJ_CTL_BLOCK_IN (p : Nat) : Fld := ⟨0x51 + p, 0x60, 8, 16, 65535⟩
def EJ_CTL_GO (p : Nat) : Fld := ⟨0x51 + p, 0x60, 31, 1, 0⟩
def EJ_RESULT_LEN (p : Nat) : Fld := ⟨0x51 + p, 0x64, 0, 32, 0⟩
def EJ_STAT_STATUS (p : Nat) : Fld := ⟨0x51 + p, 0x68, 0, 4, 0⟩

/-! ### dramPort: Table 8.11 (08) -/

def DP_CFG_MIRROR : Fld := ⟨0x58, 0x40, 0, 1, 0⟩
def DP_CFG_PREF : Fld := ⟨0x58, 0x40, 1, 1, 0⟩
def DP_CFG_HPPR_EN : Fld := ⟨0x58, 0x40, 2, 1, 0⟩
def DP_CFG_RETRAIN : Fld := ⟨0x58, 0x40, 4, 2, 0⟩
def DP_CFG_FAIL_UE : Fld := ⟨0x58, 0x40, 8, 8, 16⟩
def DP_STAT_CH0 : Fld := ⟨0x58, 0x44, 0, 3, 0⟩
def DP_STAT_CH1 : Fld := ⟨0x58, 0x44, 4, 3, 0⟩
def DP_STAT_CAP0 : Fld := ⟨0x58, 0x44, 8, 6, 0⟩
def DP_STAT_CAP1 : Fld := ⟨0x58, 0x44, 16, 6, 0⟩
def DP_CE_WORDS (c : Nat) : Fld := ⟨0x58, 0x48 + 8 * c, 0, 32, 0⟩
def DP_UE_WORDS (c : Nat) : Fld := ⟨0x58, 0x4c + 8 * c, 0, 16, 0⟩
def DP_UE_RETIRED (c : Nat) : Fld := ⟨0x58, 0x4c + 8 * c, 16, 16, 0⟩
def DP_REBUILD_DONE : Fld := ⟨0x58, 0x58, 0, 16, 0⟩

/-! ### retention: Table 8.12 (08) -/

def RS_CAP_EXTENTS : Fld := ⟨0x59, 0x40, 0, 20, 0⟩
def RS_FREE_EXTENTS : Fld := ⟨0x59, 0x44, 0, 20, 0⟩
def RS_LOW_EXTENTS : Fld := ⟨0x59, 0x48, 0, 20, 0⟩
def RS_SEPS_COUNT : Fld := ⟨0x59, 0x4c, 0, 24, 0⟩
def RS_REPAIR_BLOCKS : Fld := ⟨0x59, 0x50, 0, 16, 0⟩
def RS_REPAIR_BOTH_UE : Fld := ⟨0x59, 0x50, 16, 16, 0⟩

/-! ### codes: Table 8.13 (08), Table 8.14 (08) -/

def CS_CFG_ONCHIP_S : Fld := ⟨0x5a, 0x40, 0, 8, 10⟩
def CS_CFG_DRAM_MIN : Fld := ⟨0x5a, 0x40, 8, 8, 60⟩
def CS_CFG_SCRUB_EN : Fld := ⟨0x5a, 0x40, 16, 1, 1⟩
def CS_CFG_SEAL_RING : Fld := ⟨0x5a, 0x40, 17, 1, 1⟩
def CS_CFG_LOG_CE : Fld := ⟨0x5a, 0x40, 18, 1, 0⟩
def CS_SEAL_PAGE : Fld := ⟨0x5a, 0x44, 0, 14, 0⟩
def CS_SEAL_COUNT : Fld := ⟨0x5a, 0x44, 16, 12, 0⟩
def CS_SEAL_GO : Fld := ⟨0x5a, 0x44, 31, 1, 0⟩
def CS_SEAL_STAT_STATUS : Fld := ⟨0x5a, 0x48, 0, 2, 0⟩
def CS_SEAL_STAT_DONE : Fld := ⟨0x5a, 0x48, 16, 16, 0⟩
def CS_CNT_A_BYTE_CE : Fld := ⟨0x5a, 0x4c, 0, 32, 0⟩
def CS_CNT_B_RS_CE : Fld := ⟨0x5a, 0x50, 0, 16, 0⟩
def CS_CNT_B_RS_FAIL : Fld := ⟨0x5a, 0x50, 16, 16, 0⟩
def CS_CNT_C_WORD_CE : Fld := ⟨0x5a, 0x54, 0, 16, 0⟩
def CS_CNT_C_WORD_UE : Fld := ⟨0x5a, 0x54, 16, 16, 0⟩
def CS_SCRUB_ONCHIP : Fld := ⟨0x5a, 0x58, 0, 16, 0⟩
def CS_SCRUB_DRAM : Fld := ⟨0x5a, 0x58, 16, 16, 0⟩
def CS_LOG_CNT_NEXT : Fld := ⟨0x5a, 0x5c, 0, 4, 0⟩
def CS_LOG_CNT_TOTAL : Fld := ⟨0x5a, 0x5c, 8, 24, 0⟩
def CS_BANK_SPARE (b : Nat) : Fld := ⟨0x5a, 0x80 + 4 * b, 0, 8, 0⟩
def CS_BANK_RETIRED (b : Nat) : Fld := ⟨0x5a, 0x80 + 4 * b, 8, 3, 0⟩
def CS_BANK_UE (b : Nat) : Fld := ⟨0x5a, 0x80 + 4 * b, 16, 16, 0⟩
def CS_LOG_ADDR_LO (n : Nat) : Fld := ⟨0x5a, 0x100 + 0x10 * n, 0, 32, 0⟩
def CS_LOG_ADDR_HI (n : Nat) : Fld := ⟨0x5a, 0x104 + 0x10 * n, 0, 16, 0⟩
def CS_LOG_KIND (n : Nat) : Fld := ⟨0x5a, 0x104 + 0x10 * n, 16, 4, 0⟩
def CS_LOG_MASTER (n : Nat) : Fld := ⟨0x5a, 0x104 + 0x10 * n, 20, 8, 0⟩
def CS_LOG_TIME_LO (n : Nat) : Fld := ⟨0x5a, 0x108 + 0x10 * n, 0, 32, 0⟩
def CS_LOG_TIME_HI (n : Nat) : Fld := ⟨0x5a, 0x10c + 0x10 * n, 0, 32, 0⟩

/-! ### dmaGlobal: Table 9.9 (09) -/

def DG_ACTIVE_CH : Fld := ⟨0x60, 0x40, 0, 32, 0⟩
def DG_HALTED_CH : Fld := ⟨0x60, 0x44, 0, 32, 0⟩
def DG_CNT_WINDOW : Fld := ⟨0x60, 0x48, 0, 16, 0⟩
def DG_CNT_REVOKE : Fld := ⟨0x60, 0x48, 16, 16, 0⟩
def DG_WIN_BASE_LO (n : Nat) : Fld := ⟨0x60, 0x80 + 0x10 * n, 12, 20, 0⟩
def DG_WIN_BASE_HI (n : Nat) : Fld := ⟨0x60, 0x84 + 0x10 * n, 0, 32, 0⟩
def DG_WIN_SIZE (n : Nat) : Fld := ⟨0x60, 0x88 + 0x10 * n, 0, 32, 0⟩
def DG_WIN_VALID (n : Nat) : Fld := ⟨0x60, 0x8c + 0x10 * n, 0, 1, 0⟩
def DG_WIN_RD (n : Nat) : Fld := ⟨0x60, 0x8c + 0x10 * n, 1, 1, 0⟩
def DG_WIN_WR (n : Nat) : Fld := ⟨0x60, 0x8c + 0x10 * n, 2, 1, 0⟩

/-! ### dmaChannel: Table 9.10 (09) -/

def DC_CFG_REQ (p : Nat) : Fld := ⟨0x61 + p, 0x40, 0, 6, 0⟩
def DC_CFG_PSIDE (p : Nat) : Fld := ⟨0x61 + p, 0x40, 6, 1, 0⟩
def DC_CFG_BURST (p : Nat) : Fld := ⟨0x61 + p, 0x40, 8, 9, 31⟩
def DC_CFG_PRIO (p : Nat) : Fld := ⟨0x61 + p, 0x40, 18, 2, 0⟩
def DC_PACE_GAP (p : Nat) : Fld := ⟨0x61 + p, 0x44, 0, 24, 0⟩
def DC_HEAD_LO_PTR (p : Nat) : Fld := ⟨0x61 + p, 0x48, 5, 27, 0⟩
def DC_HEAD_HI_PTR (p : Nat) : Fld := ⟨0x61 + p, 0x4c, 0, 16, 0⟩
def DC_CUR_LO (p : Nat) : Fld := ⟨0x61 + p, 0x50, 0, 32, 0⟩
def DC_CUR_HI (p : Nat) : Fld := ⟨0x61 + p, 0x54, 0, 32, 0⟩
def DC_DOORBELL_RING (p : Nat) : Fld := ⟨0x61 + p, 0x58, 0, 1, 0⟩
def DC_CMD_PAUSE (p : Nat) : Fld := ⟨0x61 + p, 0x5c, 0, 1, 0⟩
def DC_CMD_RESUME (p : Nat) : Fld := ⟨0x61 + p, 0x5c, 1, 1, 0⟩
def DC_CMD_CLEAR (p : Nat) : Fld := ⟨0x61 + p, 0x5c, 2, 1, 0⟩
def DC_STAT_DB_PEND (p : Nat) : Fld := ⟨0x61 + p, 0x60, 0, 1, 0⟩
def DC_STAT_WB_FAIL (p : Nat) : Fld := ⟨0x61 + p, 0x60, 1, 1, 0⟩
def DC_STAT_HOLD_STOP (p : Nat) : Fld := ⟨0x61 + p, 0x60, 2, 1, 0⟩
def DC_STAT_LAST_STATUS (p : Nat) : Fld := ⟨0x61 + p, 0x60, 4, 4, 0⟩
def DC_STAT_LAST_TAG (p : Nat) : Fld := ⟨0x61 + p, 0x60, 8, 8, 0⟩
def DC_PROG_BYTES (p : Nat) : Fld := ⟨0x61 + p, 0x64, 0, 24, 0⟩
def DC_ERR_LO (p : Nat) : Fld := ⟨0x61 + p, 0x68, 0, 32, 0⟩
def DC_ERR_HI (p : Nat) : Fld := ⟨0x61 + p, 0x6c, 0, 16, 0⟩
def DC_CNT_A_DESC (p : Nat) : Fld := ⟨0x61 + p, 0x70, 0, 32, 0⟩
def DC_CNT_B_REFETCH (p : Nat) : Fld := ⟨0x61 + p, 0x74, 0, 16, 0⟩
def DC_CNT_B_HALTS (p : Nat) : Fld := ⟨0x61 + p, 0x74, 16, 16, 0⟩

/-! ### quay: Table 10.13 (10), Table 10.2 (10) -/

def QY_RING_LO_BASE : Fld := ⟨0xd0, 0x40, 12, 20, 0⟩
def QY_RING_HI_BASE : Fld := ⟨0xd0, 0x44, 0, 32, 0⟩
def QY_RING_SIZE_SQ_LOG2 : Fld := ⟨0xd0, 0x48, 0, 4, 8⟩
def QY_RING_SIZE_CQ_LOG2 : Fld := ⟨0xd0, 0x48, 8, 4, 9⟩
def QY_SQ_TAIL_TAIL : Fld := ⟨0xd0, 0x4c, 0, 12, 0⟩
def QY_CQ_HEAD_HEAD : Fld := ⟨0xd0, 0x50, 0, 12, 0⟩
def QY_SQ_HEAD_HEAD : Fld := ⟨0xd0, 0x54, 0, 12, 0⟩
def QY_EPOCH_EPOCH : Fld := ⟨0xd0, 0x58, 0, 32, 0⟩
def QY_ACK_SEQ : Fld := ⟨0xd0, 0x5c, 0, 32, 0⟩
def QY_DSEQ_LAST : Fld := ⟨0xd0, 0x60, 0, 32, 0⟩
def QY_STAT_RINGS : Fld := ⟨0xd0, 0x64, 0, 1, 0⟩
def QY_STAT_SILENT : Fld := ⟨0xd0, 0x64, 1, 1, 0⟩
def QY_STAT_CQ_FULL : Fld := ⟨0xd0, 0x64, 2, 1, 0⟩
def QY_STAT_JOBS : Fld := ⟨0xd0, 0x64, 8, 5, 0⟩
def QY_STAT_HELD : Fld := ⟨0xd0, 0x64, 16, 13, 0⟩
def QY_TIMER_HB_TO : Fld := ⟨0xd0, 0x68, 0, 16, 10⟩
def QY_TIMER_SILENT_STOP : Fld := ⟨0xd0, 0x68, 16, 1, 0⟩
def QY_IRQ_HOLDOFF : Fld := ⟨0xd0, 0x6c, 0, 16, 0⟩
def QY_IRQ_COUNT : Fld := ⟨0xd0, 0x6c, 16, 8, 1⟩
def QY_CNT_A_BAD_CRC : Fld := ⟨0xd0, 0x70, 0, 16, 0⟩
def QY_CNT_A_DUP : Fld := ⟨0xd0, 0x70, 16, 16, 0⟩
def QY_CNT_B_STALE : Fld := ⟨0xd0, 0x74, 0, 16, 0⟩
def QY_CNT_B_GAP : Fld := ⟨0xd0, 0x74, 16, 16, 0⟩
def QY_CNT_C_BAR2_DROP : Fld := ⟨0xd0, 0x78, 0, 16, 0⟩
def QY_CNT_C_OVERFLOW : Fld := ⟨0xd0, 0x78, 16, 16, 0⟩
def QY_LINK_SPEED : Fld := ⟨0xd0, 0x7c, 0, 4, 0⟩
def QY_LINK_WIDTH : Fld := ⟨0xd0, 0x7c, 4, 4, 0⟩
def QY_LINK_RECOVERY : Fld := ⟨0xd0, 0x7c, 16, 16, 0⟩
def MSIX_ADDR_LO (v : Nat) : Fld := ⟨0xd0, 0x800 + 0x10 * v, 0, 32, 0⟩
def MSIX_ADDR_HI (v : Nat) : Fld := ⟨0xd0, 0x804 + 0x10 * v, 0, 32, 0⟩
def MSIX_DATA (v : Nat) : Fld := ⟨0xd0, 0x808 + 0x10 * v, 0, 32, 0⟩
def MSIX_CTRL_MASK (v : Nat) : Fld := ⟨0xd0, 0x80c + 0x10 * v, 0, 1, 1⟩
def MSIX_PBA (w : Nat) : Fld := ⟨0xd0, 0xc00 + 4 * w, 0, 32, 0⟩

/-! ### edkar: Table 11.10 (11), Table 11.11 (11) -/

def ED_CFG_PORT_EN (p : Nat) : Fld := ⟨0xd8 + p, 0x40, 0, 1, 0⟩
def ED_CFG_AUTH_EN (p : Nat) : Fld := ⟨0xd8 + p, 0x40, 1, 1, 0⟩
def ED_CFG_FEED_ADDR (p : Nat) : Fld := ⟨0xd8 + p, 0x40, 8, 4, 0⟩
def ED_CFG_ROUTE (p : Nat) : Fld := ⟨0xd8 + p, 0x40, 17, 15, 0⟩
def ED_TIMING_WIN (p : Nat) : Fld := ⟨0xd8 + p, 0x44, 0, 8, 88⟩
def ED_TIMING_TA (p : Nat) : Fld := ⟨0xd8 + p, 0x44, 8, 4, 3⟩
def ED_LIMIT_BUDGET (p : Nat) : Fld := ⟨0xd8 + p, 0x48, 0, 4, 8⟩
def ED_LIMIT_THR_FRAMES (p : Nat) : Fld := ⟨0xd8 + p, 0x48, 4, 4, 2⟩
def ED_LIMIT_QUAR_CNT (p : Nat) : Fld := ⟨0xd8 + p, 0x48, 8, 8, 16⟩
def ED_AUTH_PERIOD (p : Nat) : Fld := ⟨0xd8 + p, 0x4c, 0, 16, 600⟩
def ED_AUTH_FAILS (p : Nat) : Fld := ⟨0xd8 + p, 0x4c, 16, 4, 3⟩
def ED_PRESENT_MOD (p : Nat) : Fld := ⟨0xd8 + p, 0x50, 0, 16, 0⟩
def ED_PRESENT_AUTHED (p : Nat) : Fld := ⟨0xd8 + p, 0x50, 16, 16, 0⟩
def ED_CYCLE_N (p : Nat) : Fld := ⟨0xd8 + p, 0x54, 0, 32, 0⟩
def ED_CNT_A_MALFORMED (p : Nat) : Fld := ⟨0xd8 + p, 0x58, 0, 16, 0⟩
def ED_CNT_A_BAD_CYCLES (p : Nat) : Fld := ⟨0xd8 + p, 0x58, 16, 16, 0⟩
def ED_CNT_B_RETRY (p : Nat) : Fld := ⟨0xd8 + p, 0x5c, 0, 16, 0⟩
def ED_CNT_B_ANN_TIMEOUT (p : Nat) : Fld := ⟨0xd8 + p, 0x5c, 16, 16, 0⟩
def ED_CNT_C_UNAUTH (p : Nat) : Fld := ⟨0xd8 + p, 0x60, 0, 16, 0⟩
def ED_CNT_C_DROPPED (p : Nat) : Fld := ⟨0xd8 + p, 0x60, 16, 16, 0⟩
def ED_LAST_SHEET_SHEET (p : Nat) : Fld := ⟨0xd8 + p, 0x64, 0, 32, 0⟩
def ED_MOD_VENDOR (p m : Nat) : Fld := ⟨0xd8 + p, 0x80 + 8 * m, 0, 16, 0⟩
def ED_MOD_MODEL (p m : Nat) : Fld := ⟨0xd8 + p, 0x80 + 8 * m, 16, 16, 0⟩
def ED_MOD_STATE (p m : Nat) : Fld := ⟨0xd8 + p, 0x84 + 8 * m, 0, 3, 0⟩
def ED_MOD_VIOL (p m : Nat) : Fld := ⟨0xd8 + p, 0x84 + 8 * m, 8, 8, 0⟩
def ED_MOD_MALF (p m : Nat) : Fld := ⟨0xd8 + p, 0x84 + 8 * m, 16, 8, 0⟩
def ED_MOD_CLEAR (p m : Nat) : Fld := ⟨0xd8 + p, 0x84 + 8 * m, 31, 1, 0⟩

/-! ### stepper: Table 12.3 (12) -/

def STP_CFG_MSTEP (p : Nat) : Fld := ⟨0x90 + p, 0x40, 0, 4, 0⟩
def STP_CFG_CRATIO (p : Nat) : Fld := ⟨0x90 + p, 0x40, 4, 4, 0⟩
def STP_CFG_SRC (p : Nat) : Fld := ⟨0x90 + p, 0x40, 8, 1, 0⟩
def STP_CFG_INV (p : Nat) : Fld := ⟨0x90 + p, 0x40, 9, 1, 0⟩
def STP_CFG_ZONE (p : Nat) : Fld := ⟨0x90 + p, 0x40, 12, 4, 0⟩
def STP_SW_HOME_SRC (p : Nat) : Fld := ⟨0x90 + p, 0x44, 0, 7, 0⟩
def STP_SW_HOME_DIR (p : Nat) : Fld := ⟨0x90 + p, 0x44, 7, 1, 0⟩
def STP_SW_LIMP_SRC (p : Nat) : Fld := ⟨0x90 + p, 0x44, 8, 7, 0⟩
def STP_SW_LIMN_SRC (p : Nat) : Fld := ⟨0x90 + p, 0x44, 16, 7, 0⟩
def STP_CUR_IRUN (p : Nat) : Fld := ⟨0x90 + p, 0x48, 0, 8, 0⟩
def STP_CUR_IHOLD (p : Nat) : Fld := ⟨0x90 + p, 0x48, 8, 8, 0⟩
def STP_CUR_HOLD_DLY (p : Nat) : Fld := ⟨0x90 + p, 0x48, 16, 16, 100⟩
def STP_TGT_POS (p : Nat) : Fld := ⟨0x90 + p, 0x4c, 0, 32, 0⟩
def STP_VMAX_V (p : Nat) : Fld := ⟨0x90 + p, 0x50, 0, 32, 0⟩
def STP_ACC_A (p : Nat) : Fld := ⟨0x90 + p, 0x54, 0, 24, 0⟩
def STP_DEC_D (p : Nat) : Fld := ⟨0x90 + p, 0x58, 0, 24, 0⟩
def STP_MODE_MODE (p : Nat) : Fld := ⟨0x90 + p, 0x5c, 0, 2, 0⟩
def STP_MODE_NEG (p : Nat) : Fld := ⟨0x90 + p, 0x5c, 2, 1, 0⟩
def STP_EDEC_D (p : Nat) : Fld := ⟨0x90 + p, 0x60, 0, 24, 0⟩
def STP_HVEL_V (p : Nat) : Fld := ⟨0x90 + p, 0x64, 0, 32, 0⟩
def STP_HMAX_DIST (p : Nat) : Fld := ⟨0x90 + p, 0x68, 0, 32, 0⟩
def STP_HOFFS_POS (p : Nat) : Fld := ⟨0x90 + p, 0x6c, 0, 32, 0⟩
def STP_CMD_HOME (p : Nat) : Fld := ⟨0x90 + p, 0x70, 0, 1, 0⟩
def STP_CMD_ESTOP (p : Nat) : Fld := ⟨0x90 + p, 0x70, 1, 1, 0⟩
def STP_POS_POS (p : Nat) : Fld := ⟨0x90 + p, 0x74, 0, 32, 0⟩
def STP_VEL_V (p : Nat) : Fld := ⟨0x90 + p, 0x78, 0, 32, 0⟩
def STP_STAT_AT_TGT (p : Nat) : Fld := ⟨0x90 + p, 0x7c, 0, 1, 0⟩
def STP_STAT_HOMED (p : Nat) : Fld := ⟨0x90 + p, 0x7c, 1, 1, 0⟩
def STP_STAT_HOLD (p : Nat) : Fld := ⟨0x90 + p, 0x7c, 2, 1, 0⟩
def STP_STAT_LIM_BLOCK (p : Nat) : Fld := ⟨0x90 + p, 0x7c, 3, 1, 0⟩
def STP_STAT_HSTATE (p : Nat) : Fld := ⟨0x90 + p, 0x7c, 4, 3, 0⟩
def STP_INTERP_IMIN (p : Nat) : Fld := ⟨0x90 + p, 0x80, 0, 16, 200⟩
def STP_INTERP_IMAX (p : Nat) : Fld := ⟨0x90 + p, 0x80, 16, 16, 5000⟩
def STP_INTERP2_FILT (p : Nat) : Fld := ⟨0x90 + p, 0x84, 0, 8, 4⟩
def STP_CSTEP_COUNT (p : Nat) : Fld := ⟨0x90 + p, 0x88, 0, 32, 0⟩
def STP_HLATCH_POS (p : Nat) : Fld := ⟨0x90 + p, 0x8c, 0, 32, 0⟩
def STP_CNT_FAST (p : Nat) : Fld := ⟨0x90 + p, 0x90, 0, 16, 0⟩
def STP_CNT_ESTOPS (p : Nat) : Fld := ⟨0x90 + p, 0x90, 16, 16, 0⟩

/-! ### encoder: Table 12.4 (12) -/

def ENC_CFG_NEG (p : Nat) : Fld := ⟨0xa0 + p, 0x40, 0, 1, 0⟩
def ENC_CFG_FILT (p : Nat) : Fld := ⟨0xa0 + p, 0x40, 1, 3, 1⟩
def ENC_CFG_BACK_WIN (p : Nat) : Fld := ⟨0xa0 + p, 0x40, 8, 4, 2⟩
def ENC_CFG_IDX_EN (p : Nat) : Fld := ⟨0xa0 + p, 0x40, 12, 1, 0⟩
def ENC_CPR_CPR (p : Nat) : Fld := ⟨0xa0 + p, 0x44, 0, 24, 0⟩
def ENC_SPD_PER (p : Nat) : Fld := ⟨0xa0 + p, 0x48, 0, 24, 10000⟩
def ENC_RAW_COUNT (p : Nat) : Fld := ⟨0xa0 + p, 0x4c, 0, 32, 0⟩
def ENC_MONO_LO (p : Nat) : Fld := ⟨0xa0 + p, 0x50, 0, 32, 0⟩
def ENC_MONO_HI (p : Nat) : Fld := ⟨0xa0 + p, 0x54, 0, 32, 0⟩
def ENC_BACK_BACKLOG (p : Nat) : Fld := ⟨0xa0 + p, 0x58, 0, 16, 0⟩
def ENC_BACK_REV (p : Nat) : Fld := ⟨0xa0 + p, 0x58, 16, 1, 0⟩
def ENC_SPEED_CPS (p : Nat) : Fld := ⟨0xa0 + p, 0x5c, 0, 32, 0⟩
def ENC_IDX_RAW (p : Nat) : Fld := ⟨0xa0 + p, 0x60, 0, 32, 0⟩
def ENC_CMD_RESYNC (p : Nat) : Fld := ⟨0xa0 + p, 0x64, 0, 1, 0⟩
def ENC_CNT_ERR (p : Nat) : Fld := ⟨0xa0 + p, 0x68, 0, 16, 0⟩
def ENC_CNT_REVERSE (p : Nat) : Fld := ⟨0xa0 + p, 0x68, 16, 16, 0⟩
def ENC_CNT2_IDX_ERR (p : Nat) : Fld := ⟨0xa0 + p, 0x6c, 0, 16, 0⟩

/-! ### sheetSensors: Table 12.5 (12), Table 12.6 (12) -/

def SS_TRACK_SENSOR (t : Nat) : Fld := ⟨0xa8, 0x40 + 8 * t, 0, 6, 0⟩
def SS_TRACK_ZONE (t : Nat) : Fld := ⟨0xa8, 0x40 + 8 * t, 8, 4, 0⟩
def SS_TRACK_EN (t : Nat) : Fld := ⟨0xa8, 0x40 + 8 * t, 15, 1, 0⟩
def SS_TRACK_WIN (t : Nat) : Fld := ⟨0xa8, 0x40 + 8 * t, 16, 16, 0⟩
def SS_TRACK_OFFS (t : Nat) : Fld := ⟨0xa8, 0x44 + 8 * t, 0, 32, 0⟩
def SS_PATH_LO : Fld := ⟨0xa8, 0xc0, 0, 32, 0⟩
def SS_PATH_HI : Fld := ⟨0xa8, 0xc4, 0, 32, 0⟩
def SS_CLEAR_T : Fld := ⟨0xa8, 0xc8, 0, 16, 100⟩
def SS_STAT_PATH_CLEAR : Fld := ⟨0xa8, 0xcc, 0, 1, 0⟩
def SS_STAT_JAM_TRACK : Fld := ⟨0xa8, 0xcc, 4, 4, 0⟩
def SS_STAT_JAM_ZONE : Fld := ⟨0xa8, 0xcc, 8, 4, 0⟩
def SS_STAT_JAM_DECL : Fld := ⟨0xa8, 0xcc, 12, 1, 0⟩
def SS_STAT_JAM_NOSHEET : Fld := ⟨0xa8, 0xcc, 13, 1, 0⟩
def SS_JAM_SHEET_SHEET : Fld := ⟨0xa8, 0xd0, 0, 32, 0⟩
def SS_CNT_STRAY : Fld := ⟨0xa8, 0xd4, 0, 16, 0⟩
def SS_CNT_EARLY : Fld := ⟨0xa8, 0xd4, 16, 16, 0⟩
def SS_CMD_ZONE : Fld := ⟨0xa8, 0xd8, 0, 4, 0⟩
def SS_CMD_DECLARE : Fld := ⟨0xa8, 0xd8, 31, 1, 0⟩
def SS_IN_CFG_FILT (i : Nat) : Fld := ⟨0xa8, 0x100 + 0x20 * i, 0, 10, 0⟩
def SS_IN_CFG_POL (i : Nat) : Fld := ⟨0xa8, 0x100 + 0x20 * i, 10, 1, 0⟩
def SS_IN_CFG_POS_KIND (i : Nat) : Fld := ⟨0xa8, 0x100 + 0x20 * i, 12, 2, 0⟩
def SS_IN_CFG_POS_NUM (i : Nat) : Fld := ⟨0xa8, 0x100 + 0x20 * i, 14, 4, 0⟩
def SS_IN_CFG_LOCKOUT (i : Nat) : Fld := ⟨0xa8, 0x100 + 0x20 * i, 19, 13, 500⟩
def SS_IN_STAT_LEVEL (i : Nat) : Fld := ⟨0xa8, 0x104 + 0x20 * i, 0, 1, 0⟩
def SS_IN_STAT_LSEQ (i : Nat) : Fld := ⟨0xa8, 0x104 + 0x20 * i, 8, 8, 0⟩
def SS_IN_STAT_TSEQ (i : Nat) : Fld := ⟨0xa8, 0x104 + 0x20 * i, 16, 8, 0⟩
def SS_IN_STAT_CHATTER (i : Nat) : Fld := ⟨0xa8, 0x104 + 0x20 * i, 24, 8, 0⟩
def SS_IN_LEAD_T_LO (i : Nat) : Fld := ⟨0xa8, 0x108 + 0x20 * i, 0, 32, 0⟩
def SS_IN_LEAD_T_HI (i : Nat) : Fld := ⟨0xa8, 0x10c + 0x20 * i, 0, 32, 0⟩
def SS_IN_LEAD_POS (i : Nat) : Fld := ⟨0xa8, 0x110 + 0x20 * i, 0, 32, 0⟩
def SS_IN_TRAIL_T_LO (i : Nat) : Fld := ⟨0xa8, 0x114 + 0x20 * i, 0, 32, 0⟩
def SS_IN_TRAIL_T_HI (i : Nat) : Fld := ⟨0xa8, 0x118 + 0x20 * i, 0, 32, 0⟩
def SS_IN_TRAIL_POS (i : Nat) : Fld := ⟨0xa8, 0x11c + 0x20 * i, 0, 32, 0⟩

/-! ### commutation: Table 13.5 (13) -/

def CM_CFG_SENSE (p : Nat) : Fld := ⟨0xb0 + p, 0x40, 0, 2, 0⟩
def CM_CFG_GROUP (p : Nat) : Fld := ⟨0xb0 + p, 0x40, 2, 1, 0⟩
def CM_CFG_SPD_SRC (p : Nat) : Fld := ⟨0xb0 + p, 0x40, 3, 1, 0⟩
def CM_CFG_POLES (p : Nat) : Fld := ⟨0xb0 + p, 0x40, 4, 4, 0⟩
def CM_CFG_HALL_OFFS (p : Nat) : Fld := ⟨0xb0 + p, 0x40, 8, 3, 0⟩
def CM_CFG_SPD_ENC (p : Nat) : Fld := ⟨0xb0 + p, 0x40, 12, 3, 0⟩
def CM_CFG_IMG_MASK (p : Nat) : Fld := ⟨0xb0 + p, 0x40, 16, 6, 0⟩
def CM_TARGET_SPEED (p : Nat) : Fld := ⟨0xb0 + p, 0x44, 0, 32, 0⟩
def CM_RAMP_ACC (p : Nat) : Fld := ⟨0xb0 + p, 0x48, 0, 16, 0⟩
def CM_RAMP_DEC (p : Nat) : Fld := ⟨0xb0 + p, 0x48, 16, 16, 0⟩
def CM_BAND_BAND (p : Nat) : Fld := ⟨0xb0 + p, 0x4c, 0, 12, 50⟩
def CM_BAND_BAND_Q (p : Nat) : Fld := ⟨0xb0 + p, 0x4c, 12, 4, 4⟩
def CM_PWM_PER (p : Nat) : Fld := ⟨0xb0 + p, 0x50, 0, 12, 500⟩
def CM_PWM_DEAD (p : Nat) : Fld := ⟨0xb0 + p, 0x50, 16, 8, 0⟩
def CM_DRIVE_SOFT (p : Nat) : Fld := ⟨0xb0 + p, 0x54, 0, 7, 0⟩
def CM_DRIVE_BLANK (p : Nat) : Fld := ⟨0xb0 + p, 0x54, 8, 8, 32⟩
def CM_DRIVE_DUTY_MAX (p : Nat) : Fld := ⟨0xb0 + p, 0x54, 16, 16, 0⟩
def CM_START_LISTEN_T (p : Nat) : Fld := ⟨0xb0 + p, 0x58, 0, 5, 20⟩
def CM_START_WEIGHT (p : Nat) : Fld := ⟨0xb0 + p, 0x58, 8, 8, 0⟩
def CM_START_WIN (p : Nat) : Fld := ⟨0xb0 + p, 0x58, 16, 8, 0⟩
def CM_START_BRK_DUTY (p : Nat) : Fld := ⟨0xb0 + p, 0x58, 24, 8, 0⟩
def CM_REV_REV_THRESH (p : Nat) : Fld := ⟨0xb0 + p, 0x5c, 0, 10, 30⟩
def CM_REV_RATED (p : Nat) : Fld := ⟨0xb0 + p, 0x5c, 16, 16, 0⟩
def CM_OPEN_ALIGN_T (p : Nat) : Fld := ⟨0xb0 + p, 0x60, 0, 8, 0⟩
def CM_OPEN_ALIGN_DUTY (p : Nat) : Fld := ⟨0xb0 + p, 0x60, 8, 8, 0⟩
def CM_OPEN_MIN_BEMF (p : Nat) : Fld := ⟨0xb0 + p, 0x60, 16, 16, 0⟩
def CM_KE_NOM (p : Nat) : Fld := ⟨0xb0 + p, 0x64, 0, 16, 0⟩
def CM_KE_KE_PER (p : Nat) : Fld := ⟨0xb0 + p, 0x64, 16, 8, 0⟩
def CM_KE2_ADC (p : Nat) : Fld := ⟨0xb0 + p, 0x68, 0, 6, 0⟩
def CM_KE2_KSCALE (p : Nat) : Fld := ⟨0xb0 + p, 0x68, 16, 16, 0⟩
def CM_STALL_T (p : Nat) : Fld := ⟨0xb0 + p, 0x6c, 0, 16, 200⟩
def CM_LOOP_ENGINE (p : Nat) : Fld := ⟨0xb0 + p, 0x70, 0, 2, 0⟩
def CM_LOOP_SLOT (p : Nat) : Fld := ⟨0xb0 + p, 0x70, 2, 5, 0⟩
def CM_CMD_START (p : Nat) : Fld := ⟨0xb0 + p, 0x74, 0, 1, 0⟩
def CM_CMD_STOP (p : Nat) : Fld := ⟨0xb0 + p, 0x74, 1, 1, 0⟩
def CM_CMD_COAST (p : Nat) : Fld := ⟨0xb0 + p, 0x74, 2, 1, 0⟩
def CM_CMD_KE_PROBE (p : Nat) : Fld := ⟨0xb0 + p, 0x74, 3, 1, 0⟩
def CM_SPEED_SPEED (p : Nat) : Fld := ⟨0xb0 + p, 0x78, 0, 32, 0⟩
def CM_REF_SPEED (p : Nat) : Fld := ⟨0xb0 + p, 0x7c, 0, 32, 0⟩
def CM_STAT_SECTOR (p : Nat) : Fld := ⟨0xb0 + p, 0x80, 0, 3, 0⟩
def CM_STAT_IN_BAND (p : Nat) : Fld := ⟨0xb0 + p, 0x80, 3, 1, 0⟩
def CM_STAT_REGEN_OFF (p : Nat) : Fld := ⟨0xb0 + p, 0x80, 4, 1, 0⟩
def CM_STAT_STRETCH (p : Nat) : Fld := ⟨0xb0 + p, 0x80, 5, 1, 0⟩
def CM_STAT_REV_REFUSED (p : Nat) : Fld := ⟨0xb0 + p, 0x80, 6, 1, 0⟩
def CM_STAT_TORQUE (p : Nat) : Fld := ⟨0xb0 + p, 0x80, 16, 16, 0⟩
def CM_KE_EST_EST (p : Nat) : Fld := ⟨0xb0 + p, 0x84, 0, 16, 0⟩
def CM_CNT_SENSOR_ERR (p : Nat) : Fld := ⟨0xb0 + p, 0x88, 0, 16, 0⟩
def CM_CNT_STARTS (p : Nat) : Fld := ⟨0xb0 + p, 0x88, 16, 16, 0⟩
def CM_CNT2_CATCH (p : Nat) : Fld := ⟨0xb0 + p, 0x8c, 0, 32, 0⟩

/-! ### motorBus: Table 13.6 (13) -/

def MB_CH_CH_ON (g : Nat) : Fld := ⟨0xbc, 0x40 + 0x20 * g, 0, 16, 0⟩
def MB_CH_CH_OFF (g : Nat) : Fld := ⟨0xbc, 0x40 + 0x20 * g, 16, 16, 0⟩
def MB_TRIP_OV_TRIP (g : Nat) : Fld := ⟨0xbc, 0x44 + 0x20 * g, 0, 16, 0⟩
def MB_TRIP_UV (g : Nat) : Fld := ⟨0xbc, 0x44 + 0x20 * g, 16, 16, 0⟩
def MB_CHOP_R_BRAKE (g : Nat) : Fld := ⟨0xbc, 0x48 + 0x20 * g, 0, 16, 0⟩
def MB_CHOP_RISE (g : Nat) : Fld := ⟨0xbc, 0x48 + 0x20 * g, 16, 8, 5⟩
def MB_SCALE_VSCALE (g : Nat) : Fld := ⟨0xbc, 0x4c + 0x20 * g, 0, 16, 0⟩
def MB_SCALE_ISCALE (g : Nat) : Fld := ⟨0xbc, 0x4c + 0x20 * g, 16, 16, 0⟩
def MB_BUDGET_BUDGET (g : Nat) : Fld := ⟨0xbc, 0x50 + 0x20 * g, 0, 8, 0⟩
def MB_BUDGET_WAIT_MAX (g : Nat) : Fld := ⟨0xbc, 0x50 + 0x20 * g, 16, 16, 0⟩
def MB_STAT_VBUS (g : Nat) : Fld := ⟨0xbc, 0x54 + 0x20 * g, 0, 16, 0⟩
def MB_STAT_GATE (g : Nat) : Fld := ⟨0xbc, 0x54 + 0x20 * g, 16, 1, 0⟩
def MB_STAT_CHOP_ACTIVE (g : Nat) : Fld := ⟨0xbc, 0x54 + 0x20 * g, 17, 1, 0⟩
def MB_STAT_TRIPPED (g : Nat) : Fld := ⟨0xbc, 0x54 + 0x20 * g, 18, 1, 0⟩
def MB_STAT_UV (g : Nat) : Fld := ⟨0xbc, 0x54 + 0x20 * g, 19, 1, 0⟩
def MB_CNT_TRIPS (g : Nat) : Fld := ⟨0xbc, 0x58 + 0x20 * g, 0, 16, 0⟩
def MB_CNT_CHOP_FAULTS (g : Nat) : Fld := ⟨0xbc, 0x58 + 0x20 * g, 16, 16, 0⟩
def MB_CMD_TEST (g : Nat) : Fld := ⟨0xbc, 0x5c + 0x20 * g, 0, 1, 0⟩
def MB_CMD_RESET_TRIP (g : Nat) : Fld := ⟨0xbc, 0x5c + 0x20 * g, 1, 1, 0⟩

/-! ### loopEngine: Table 14.7 (14), Table 14.8 (14) -/

def LE_STAT_DUE_MAX (p : Nat) : Fld := ⟨0xc0 + p, 0x40, 0, 5, 0⟩
def LE_STAT_DELAY_MAX (p : Nat) : Fld := ⟨0xc0 + p, 0x40, 16, 16, 0⟩
def LE_CNT_OVERLOAD (p : Nat) : Fld := ⟨0xc0 + p, 0x44, 0, 16, 0⟩
def LE_CNT_LATE (p : Nat) : Fld := ⟨0xc0 + p, 0x44, 16, 16, 0⟩
def LE_SAMPLES_COUNT (p : Nat) : Fld := ⟨0xc0 + p, 0x48, 0, 32, 0⟩
def LE_HELD_SLOTS (p : Nat) : Fld := ⟨0xc0 + p, 0x4c, 0, 32, 0⟩
def SL_IN_KIND (p s : Nat) : Fld := ⟨0xc0 + p, 0x100 + 0x60 * s, 0, 3, 0⟩
def SL_IN_NUM (p s : Nat) : Fld := ⟨0xc0 + p, 0x100 + 0x60 * s, 8, 7, 0⟩
def SL_IN_LIN (p s : Nat) : Fld := ⟨0xc0 + p, 0x100 + 0x60 * s, 15, 1, 0⟩
def SL_SP_KIND (p s : Nat) : Fld := ⟨0xc0 + p, 0x104 + 0x60 * s, 0, 2, 0⟩
def SL_SP_NUM (p s : Nat) : Fld := ⟨0xc0 + p, 0x104 + 0x60 * s, 8, 7, 0⟩
def SL_OUT_DST (p s : Nat) : Fld := ⟨0xc0 + p, 0x108 + 0x60 * s, 0, 2, 0⟩
def SL_OUT_NUM (p s : Nat) : Fld := ⟨0xc0 + p, 0x108 + 0x60 * s, 8, 7, 0⟩
def SL_OUT_GATE (p s : Nat) : Fld := ⟨0xc0 + p, 0x108 + 0x60 * s, 16, 2, 0⟩
def SL_OUT_STN_MASK (p s : Nat) : Fld := ⟨0xc0 + p, 0x108 + 0x60 * s, 24, 6, 0⟩
def SL_PER_PERIOD (p s : Nat) : Fld := ⟨0xc0 + p, 0x10c + 0x60 * s, 0, 24, 0⟩
def SL_PHASE_PHASE (p s : Nat) : Fld := ⟨0xc0 + p, 0x110 + 0x60 * s, 0, 24, 0⟩
def SL_MODE_MODE (p s : Nat) : Fld := ⟨0xc0 + p, 0x114 + 0x60 * s, 0, 2, 0⟩
def SL_MODE_FIXLAT (p s : Nat) : Fld := ⟨0xc0 + p, 0x114 + 0x60 * s, 2, 1, 0⟩
def SL_MODE_N1_EN (p s : Nat) : Fld := ⟨0xc0 + p, 0x114 + 0x60 * s, 3, 1, 0⟩
def SL_MODE_N2_EN (p s : Nat) : Fld := ⟨0xc0 + p, 0x114 + 0x60 * s, 4, 1, 0⟩
def SL_SPV (p s : Nat) : Fld := ⟨0xc0 + p, 0x118 + 0x60 * s, 0, 32, 0⟩
def SL_MAN (p s : Nat) : Fld := ⟨0xc0 + p, 0x11c + 0x60 * s, 0, 32, 0⟩
def SL_PVIN (p s : Nat) : Fld := ⟨0xc0 + p, 0x120 + 0x60 * s, 0, 32, 0⟩
def SL_PVOFFS (p s : Nat) : Fld := ⟨0xc0 + p, 0x124 + 0x60 * s, 0, 32, 0⟩
def SL_PVGAIN (p s : Nat) : Fld := ⟨0xc0 + p, 0x128 + 0x60 * s, 0, 32, 0⟩
def SL_KP (p s : Nat) : Fld := ⟨0xc0 + p, 0x12c + 0x60 * s, 0, 32, 0⟩
def SL_KI (p s : Nat) : Fld := ⟨0xc0 + p, 0x130 + 0x60 * s, 0, 32, 0⟩
def SL_KD (p s : Nat) : Fld := ⟨0xc0 + p, 0x134 + 0x60 * s, 0, 32, 0⟩
def SL_FILT_DF (p s : Nat) : Fld := ⟨0xc0 + p, 0x138 + 0x60 * s, 0, 16, 0⟩
def SL_FILT_SLEW (p s : Nat) : Fld := ⟨0xc0 + p, 0x138 + 0x60 * s, 16, 16, 0⟩
def SL_FF (p s : Nat) : Fld := ⟨0xc0 + p, 0x13c + 0x60 * s, 0, 32, 0⟩
def SL_FFOFFS (p s : Nat) : Fld := ⟨0xc0 + p, 0x140 + 0x60 * s, 0, 32, 0⟩
def SL_OMIN (p s : Nat) : Fld := ⟨0xc0 + p, 0x144 + 0x60 * s, 0, 32, 0⟩
def SL_OMAX (p s : Nat) : Fld := ⟨0xc0 + p, 0x148 + 0x60 * s, 0, 32, 0⟩
def SL_BAND_BAND (p s : Nat) : Fld := ⟨0xc0 + p, 0x14c + 0x60 * s, 0, 24, 0⟩
def SL_BAND_BAND_Q (p s : Nat) : Fld := ⟨0xc0 + p, 0x14c + 0x60 * s, 24, 4, 4⟩
def SL_RANGE_PV_LO (p s : Nat) : Fld := ⟨0xc0 + p, 0x150 + 0x60 * s, 0, 12, 0⟩
def SL_RANGE_PV_HI (p s : Nat) : Fld := ⟨0xc0 + p, 0x150 + 0x60 * s, 16, 12, 4095⟩
def SL_FAIL (p s : Nat) : Fld := ⟨0xc0 + p, 0x154 + 0x60 * s, 0, 32, 0⟩
def SL_OUTV (p s : Nat) : Fld := ⟨0xc0 + p, 0x158 + 0x60 * s, 0, 32, 0⟩
def SL_STAT_STATE (p s : Nat) : Fld := ⟨0xc0 + p, 0x15c + 0x60 * s, 0, 3, 0⟩
def SL_STAT_IN_BAND (p s : Nat) : Fld := ⟨0xc0 + p, 0x15c + 0x60 * s, 3, 1, 0⟩
def SL_STAT_FORCED (p s : Nat) : Fld := ⟨0xc0 + p, 0x15c + 0x60 * s, 4, 1, 0⟩
def SL_STAT_SAT (p s : Nat) : Fld := ⟨0xc0 + p, 0x15c + 0x60 * s, 5, 1, 0⟩
def SL_STAT_CAUSE (p s : Nat) : Fld := ⟨0xc0 + p, 0x15c + 0x60 * s, 6, 3, 0⟩
def SL_STAT_LATE (p s : Nat) : Fld := ⟨0xc0 + p, 0x15c + 0x60 * s, 16, 16, 0⟩

/-! ### adc: Table 14.9 (14) -/

def ADC_CFG_EN : Fld := ⟨0xc4, 0x40, 0, 4, 0⟩
def ADC_FIFO_THRESH (c : Nat) : Fld := ⟨0xc4, 0x44 + 4 * c, 0, 6, 8⟩
def ADC_FIFO_LEVEL (c : Nat) : Fld := ⟨0xc4, 0x44 + 4 * c, 8, 8, 0⟩
def ADC_FIFO_OVF (c : Nat) : Fld := ⟨0xc4, 0x44 + 4 * c, 16, 16, 0⟩
def ADC_REFRES_CODE (c : Nat) : Fld := ⟨0xc4, 0x60 + 4 * c, 0, 12, 0⟩
def ADC_SEQ_CH (c k : Nat) : Fld := ⟨0xc4, 0x100 + 0x50 * c + 4 * k, 0, 6, 0⟩
def ADC_SEQ_DIV (c k : Nat) : Fld := ⟨0xc4, 0x100 + 0x50 * c + 4 * k, 8, 3, 0⟩
def ADC_SEQ_FIFO (c k : Nat) : Fld := ⟨0xc4, 0x100 + 0x50 * c + 4 * k, 11, 1, 0⟩
def ADC_RES_CODE (ch : Nat) : Fld := ⟨0xc4, 0x300 + 4 * ch, 0, 12, 0⟩
def ADC_RES_STALE (ch : Nat) : Fld := ⟨0xc4, 0x300 + 4 * ch, 15, 1, 0⟩
def ADC_RES_SEQ (ch : Nat) : Fld := ⟨0xc4, 0x300 + 4 * ch, 16, 16, 0⟩

/-! ### pwm: Table 14.10 (14) -/

def PWM_CFG_EN (n : Nat) : Fld := ⟨0xc5, 0x100 + 0x10 * n, 0, 1, 0⟩
def PWM_CFG_POL (n : Nat) : Fld := ⟨0xc5, 0x100 + 0x10 * n, 1, 1, 0⟩
def PWM_CFG_SAFE_LVL (n : Nat) : Fld := ⟨0xc5, 0x100 + 0x10 * n, 2, 1, 0⟩
def PWM_PER_PER (n : Nat) : Fld := ⟨0xc5, 0x104 + 0x10 * n, 0, 24, 0⟩
def PWM_PHASE_PHASE (n : Nat) : Fld := ⟨0xc5, 0x108 + 0x10 * n, 0, 24, 0⟩
def PWM_DUTY_DUTY (n : Nat) : Fld := ⟨0xc5, 0x10c + 0x10 * n, 0, 16, 0⟩
def PWM_DUTY_SLOT (n : Nat) : Fld := ⟨0xc5, 0x10c + 0x10 * n, 16, 1, 0⟩

/-! ### sequencer: Table 15.8 (15), Table 15.9 (15), Table 15.10 (15), Table 15.2 (15) -/

def PS_CFG_AUTO_UP : Fld := ⟨0x3, 0x40, 0, 1, 0⟩
def PS_CMD_DOWN : Fld := ⟨0x3, 0x44, 0, 1, 0⟩
def PS_CMD_RETRY : Fld := ⟨0x3, 0x44, 1, 1, 0⟩
def PS_CMD_AVS_RETRY : Fld := ⟨0x3, 0x44, 2, 1, 0⟩
def PS_STAT_ENTRY : Fld := ⟨0x3, 0x48, 0, 6, 0⟩
def PS_STAT_DIR : Fld := ⟨0x3, 0x48, 6, 1, 0⟩
def PS_STAT_PFW : Fld := ⟨0x3, 0x48, 7, 1, 0⟩
def PS_STAT_CASC : Fld := ⟨0x3, 0x48, 8, 4, 0⟩
def PS_FAIL_ITEM : Fld := ⟨0x3, 0x4c, 0, 6, 0⟩
def PS_FAIL_REASON : Fld := ⟨0x3, 0x4c, 8, 4, 0⟩
def PS_PFW_TH : Fld := ⟨0x3, 0x50, 0, 10, 0⟩
def PS_PFW_HYST : Fld := ⟨0x3, 0x50, 10, 6, 8⟩
def PS_PFW_HOLD : Fld := ⟨0x3, 0x50, 16, 16, 0⟩
def PS_SLACK_IDLE_S : Fld := ⟨0x3, 0x54, 0, 16, 0⟩
def PS_CASC_TO : Fld := ⟨0x3, 0x58, 0, 16, 1000⟩
def PS_AVS_VMIN : Fld := ⟨0x3, 0x5c, 0, 10, 550⟩
def PS_AVS_VMAX : Fld := ⟨0x3, 0x5c, 16, 10, 800⟩
def PS_AVS2_UP_TH : Fld := ⟨0x3, 0x60, 0, 8, 205⟩
def PS_AVS2_DN_TH : Fld := ⟨0x3, 0x60, 8, 8, 179⟩
def PS_AVS2_DWELL : Fld := ⟨0x3, 0x60, 16, 8, 8⟩
def PS_AVS2_STEP : Fld := ⟨0x3, 0x60, 24, 4, 1⟩
def PS_VCORE_VSET : Fld := ⟨0x3, 0x64, 0, 10, 800⟩
def PS_VCORE_VREAD : Fld := ⟨0x3, 0x64, 16, 10, 0⟩
def PS_UTIL_UMAX : Fld := ⟨0x3, 0x68, 0, 8, 0⟩
def PS_SUP_BUDGET (g : Nat) : Fld := ⟨0x3, 0x70 + 4 * g, 0, 8, 0⟩
def PS_SUP_IN_WIN (g : Nat) : Fld := ⟨0x3, 0x70 + 4 * g, 8, 8, 0⟩
def PS_SUP_WAIT_MAX (g : Nat) : Fld := ⟨0x3, 0x70 + 4 * g, 16, 16, 0⟩
def PD_CFG_WEIGHT (d : Nat) : Fld := ⟨0x3, 0x80 + 4 * d, 0, 8, 0⟩
def PD_CFG_SUP (d : Nat) : Fld := ⟨0x3, 0x80 + 4 * d, 8, 2, 0⟩
def PD_CFG_SLACK (d : Nat) : Fld := ⟨0x3, 0x80 + 4 * d, 10, 2, 0⟩
def PD_CFG_STATE (d : Nat) : Fld := ⟨0x3, 0x80 + 4 * d, 12, 2, 0⟩
def PD_CFG_RAMP (d : Nat) : Fld := ⟨0x3, 0x80 + 4 * d, 16, 8, 0⟩
def RAIL_CFG_WEIGHT (n : Nat) : Fld := ⟨0x3, 0x100 + 0x10 * n, 0, 8, 0⟩
def RAIL_CFG_SUP (n : Nat) : Fld := ⟨0x3, 0x100 + 0x10 * n, 8, 2, 0⟩
def RAIL_CFG_ON_LOSS (n : Nat) : Fld := ⟨0x3, 0x100 + 0x10 * n, 10, 1, 0⟩
def RAIL_CFG_OFF_SRC (n : Nat) : Fld := ⟨0x3, 0x100 + 0x10 * n, 11, 1, 0⟩
def RAIL_CFG_DIS (n : Nat) : Fld := ⟨0x3, 0x100 + 0x10 * n, 12, 3, 0⟩
def RAIL_CFG_DIS_EN (n : Nat) : Fld := ⟨0x3, 0x100 + 0x10 * n, 15, 1, 0⟩
def RAIL_CFG_ADC (n : Nat) : Fld := ⟨0x3, 0x100 + 0x10 * n, 16, 6, 0⟩
def RAIL_CFG_T_QUAL (n : Nat) : Fld := ⟨0x3, 0x104 + 0x10 * n, 0, 8, 20⟩
def RAIL_CFG_TIMEOUT (n : Nat) : Fld := ⟨0x3, 0x104 + 0x10 * n, 8, 16, 0⟩
def RAIL_CFG_T_FALL (n : Nat) : Fld := ⟨0x3, 0x108 + 0x10 * n, 0, 16, 0⟩
def RAIL_CFG_OFF_CODE (n : Nat) : Fld := ⟨0x3, 0x108 + 0x10 * n, 16, 12, 0⟩
def RAIL_CFG_STATE (n : Nat) : Fld := ⟨0x3, 0x10c + 0x10 * n, 0, 3, 0⟩
def RAIL_CFG_RESTARTS (n : Nat) : Fld := ⟨0x3, 0x10c + 0x10 * n, 4, 2, 0⟩
def RAIL_CFG_EN (n : Nat) : Fld := ⟨0x3, 0x10c + 0x10 * n, 6, 1, 0⟩
def RAIL_CFG_PG (n : Nat) : Fld := ⟨0x3, 0x10c + 0x10 * n, 7, 1, 0⟩
def SEQ_UP_ENTRY (j : Nat) : Fld := ⟨0x3, 0x300 + 4 * j, 0, 32, 0⟩
def SEQ_DN_ENTRY (j : Nat) : Fld := ⟨0x3, 0x3c0 + 4 * j, 0, 32, 0⟩

/-! ### clocks: Table 16.4 (16) -/

def CK_PLL_N (p : Nat) : Fld := ⟨0x4, 0x40 + 8 * p, 0, 8, 0⟩
def CK_PLL_POSTDIV (p : Nat) : Fld := ⟨0x4, 0x40 + 8 * p, 8, 7, 0⟩
def CK_PLL_EN (p : Nat) : Fld := ⟨0x4, 0x40 + 8 * p, 16, 1, 0⟩
def CK_FRAC_FRAC (p : Nat) : Fld := ⟨0x4, 0x44 + 8 * p, 0, 24, 0⟩
def CK_ROLE_PXA_SRC : Fld := ⟨0x4, 0x58, 0, 1, 0⟩
def CK_ROLE_GROUPS : Fld := ⟨0x4, 0x58, 1, 1, 0⟩
def CK_ROLE_STANDBY : Fld := ⟨0x4, 0x58, 2, 1, 0⟩
def CK_LOCK_TH : Fld := ⟨0x4, 0x5c, 0, 8, 25⟩
def CK_LOCK_CNT : Fld := ⟨0x4, 0x5c, 8, 8, 64⟩
def CK_STAT_P0 : Fld := ⟨0x4, 0x60, 0, 3, 0⟩
def CK_STAT_P1 : Fld := ⟨0x4, 0x60, 4, 3, 0⟩
def CK_STAT_P2 : Fld := ⟨0x4, 0x60, 8, 3, 0⟩
def CK_STAT_REF_OK : Fld := ⟨0x4, 0x60, 16, 1, 0⟩
def CK_STAT_KEEPER : Fld := ⟨0x4, 0x60, 17, 1, 1⟩
def CK_STAT_DLL : Fld := ⟨0x4, 0x60, 24, 6, 0⟩
def CK_PHERR_ERR : Fld := ⟨0x4, 0x64, 0, 16, 0⟩
def CK_CNT_UNLOCK : Fld := ⟨0x4, 0x68, 0, 16, 0⟩
def CK_CNT_SWITCH : Fld := ⟨0x4, 0x68, 16, 16, 0⟩
def CK_CMD_RELOCK : Fld := ⟨0x4, 0x6c, 0, 1, 0⟩

/-! ### faultCollector: Table 17.10 (17) -/

def FC_CFG_ESC_EN : Fld := ⟨0x1, 0x40, 0, 1, 1⟩
def FC_CFG_MERGE_MAX : Fld := ⟨0x1, 0x40, 8, 8, 50⟩
def FC_FIRST_SRC : Fld := ⟨0x1, 0x44, 0, 8, 0⟩
def FC_FIRST_SEV : Fld := ⟨0x1, 0x44, 8, 3, 0⟩
def FC_FIRST_VALID : Fld := ⟨0x1, 0x44, 11, 1, 0⟩
def FC_FIRST_OVF : Fld := ⟨0x1, 0x44, 12, 1, 0⟩
def FC_FIRST_CLR : Fld := ⟨0x1, 0x44, 31, 1, 0⟩
def FC_FIRST_T_LO : Fld := ⟨0x1, 0x48, 0, 32, 0⟩
def FC_FIRST_T_HI : Fld := ⟨0x1, 0x4c, 0, 32, 0⟩
def FC_STATE_MERGE : Fld := ⟨0x1, 0x50, 0, 16, 65535⟩
def FC_STATE_SAFE : Fld := ⟨0x1, 0x50, 16, 1, 0⟩
def FC_ASSAY_SRC : Fld := ⟨0x1, 0x54, 0, 8, 0⟩
def FC_ASSAY_GO : Fld := ⟨0x1, 0x54, 8, 1, 0⟩
def FC_ASSAY_STATUS : Fld := ⟨0x1, 0x54, 9, 3, 0⟩
def FC_CNT_RAISES : Fld := ⟨0x1, 0x58, 0, 16, 0⟩
def FC_CNT_ESCALATED : Fld := ⟨0x1, 0x58, 16, 16, 0⟩
def FC_UNACK (w : Nat) : Fld := ⟨0x1, 0x80 + 4 * w, 0, 32, 0⟩
def FC_STICKY (w : Nat) : Fld := ⟨0x1, 0xa0 + 4 * w, 0, 32, 0⟩
def FC_ACTIVE (w : Nat) : Fld := ⟨0x1, 0xc0 + 4 * w, 0, 32, 0⟩
def FC_SRC_SEV (s : Nat) : Fld := ⟨0x1, 0x400 + 4 * s, 0, 2, 0⟩
def FC_SRC_HWONLY (s : Nat) : Fld := ⟨0x1, 0x400 + 4 * s, 2, 1, 0⟩
def FC_SRC_ISOLATE (s : Nat) : Fld := ⟨0x1, 0x400 + 4 * s, 3, 1, 0⟩
def FC_SRC_FEEDSTOP (s : Nat) : Fld := ⟨0x1, 0x400 + 4 * s, 4, 1, 0⟩
def FC_SRC_RAISES (s : Nat) : Fld := ⟨0x1, 0x400 + 4 * s, 16, 16, 0⟩
def FC_STATS_TRANS (s : Nat) : Fld := ⟨0x1, 0x800 + 4 * s, 0, 16, 0⟩
def FC_STATS_LASTING (s : Nat) : Fld := ⟨0x1, 0x800 + 4 * s, 16, 8, 0⟩
def FC_STATS_MERGED (s : Nat) : Fld := ⟨0x1, 0x800 + 4 * s, 24, 8, 0⟩

/-! ### harbourmaster: Table 17.11 (17) -/

def HM_STAT_STATE : Fld := ⟨0x2, 0x40, 0, 3, 0⟩
def HM_STAT_DUAL : Fld := ⟨0x2, 0x40, 3, 1, 0⟩
def HM_STAT_EXCLUDED : Fld := ⟨0x2, 0x40, 4, 2, 0⟩
def HM_STAT_SUP_BERTH : Fld := ⟨0x2, 0x40, 8, 4, 0⟩
def HM_VOTE_DIS0 : Fld := ⟨0x2, 0x44, 0, 8, 0⟩
def HM_VOTE_DIS1 : Fld := ⟨0x2, 0x44, 8, 8, 0⟩
def HM_VOTE_DIS2 : Fld := ⟨0x2, 0x44, 16, 8, 0⟩
def HM_BEAT_COUNT : Fld := ⟨0x2, 0x48, 0, 32, 0⟩
def HM_CMD_BEAT : Fld := ⟨0x2, 0x4c, 0, 1, 0⟩
def HM_CMD_RESYNC : Fld := ⟨0x2, 0x4c, 1, 1, 0⟩
def HM_CNT_PROMOTIONS : Fld := ⟨0x2, 0x50, 0, 16, 0⟩
def HM_CNT_MISSES : Fld := ⟨0x2, 0x50, 16, 16, 0⟩

/-! ### berth: Table 17.12 (17) -/

def BR_ROLE_ROLE (p : Nat) : Fld := ⟨0x8 + p, 0x40, 0, 4, 0⟩
def BR_CNT_MISMATCH (p : Nat) : Fld := ⟨0x8 + p, 0x44, 0, 16, 0⟩
def BR_CNT_TRAP_UE (p : Nat) : Fld := ⟨0x8 + p, 0x44, 16, 16, 0⟩
def BR_SIG_LO (p : Nat) : Fld := ⟨0x8 + p, 0x48, 0, 32, 0⟩
def BR_SIG_HI (p : Nat) : Fld := ⟨0x8 + p, 0x4c, 0, 32, 0⟩
def BR_MOVE_TIME (p : Nat) : Fld := ⟨0x8 + p, 0x50, 0, 16, 0⟩

/-! ### mram: Table 18.9 (18) -/

def FW_STAT_BANK : Fld := ⟨0xf0, 0x40, 0, 1, 0⟩
def FW_STAT_TRIAL : Fld := ⟨0xf0, 0x40, 1, 1, 0⟩
def FW_STAT_STATUS : Fld := ⟨0xf0, 0x40, 4, 4, 0⟩
def FW_STAT_UPD_ROLE : Fld := ⟨0xf0, 0x40, 8, 4, 15⟩
def FW_VER_VERSION : Fld := ⟨0xf0, 0x44, 0, 32, 0⟩
def FW_SVN_RUN : Fld := ⟨0xf0, 0x48, 0, 16, 0⟩
def FW_SVN_COUNTER : Fld := ⟨0xf0, 0x48, 16, 16, 0⟩
def FW_ALT_VERSION : Fld := ⟨0xf0, 0x4c, 0, 32, 0⟩
def FW_SRC_LO : Fld := ⟨0xf0, 0x50, 0, 32, 0⟩
def FW_SRC_HI : Fld := ⟨0xf0, 0x54, 0, 16, 0⟩
def FW_LEN_BYTES : Fld := ⟨0xf0, 0x58, 0, 25, 0⟩
def FW_CMD_STAGE : Fld := ⟨0xf0, 0x5c, 0, 1, 0⟩
def FW_CMD_UPDATE : Fld := ⟨0xf0, 0x5c, 1, 1, 0⟩
def FW_CMD_ACCEPT : Fld := ⟨0xf0, 0x5c, 2, 1, 0⟩
def FW_CMD_ABORT : Fld := ⟨0xf0, 0x5c, 3, 1, 0⟩
def FW_CMD_TRY_BOOT : Fld := ⟨0xf0, 0x5c, 4, 1, 0⟩
def PF_STAT_ACTIVE : Fld := ⟨0xf0, 0x60, 0, 2, 0⟩
def PF_STAT_ZE40 : Fld := ⟨0xf0, 0x60, 2, 1, 0⟩
def PF_STAT_VALID : Fld := ⟨0xf0, 0x60, 4, 4, 0⟩
def PF_STAT_STATUS : Fld := ⟨0xf0, 0x60, 8, 4, 0⟩
def PF_STAT_KEY_LOCK : Fld := ⟨0xf0, 0x60, 12, 1, 0⟩
def PF_CMD_SLOT : Fld := ⟨0xf0, 0x64, 0, 2, 0⟩
def PF_CMD_WRITE : Fld := ⟨0xf0, 0x64, 4, 1, 0⟩
def PF_CMD_SELECT : Fld := ⟨0xf0, 0x64, 5, 1, 0⟩
def PF_CMD_KEY_WRITE : Fld := ⟨0xf0, 0x64, 6, 1, 0⟩
def PF_CMD_KEY_LOCK : Fld := ⟨0xf0, 0x64, 7, 1, 0⟩
def PF_CMD_KEY_ERASE : Fld := ⟨0xf0, 0x64, 8, 1, 0⟩
def PF_CMD_KEYSLOT : Fld := ⟨0xf0, 0x64, 10, 5, 0⟩
def PF_SRC_OFFS : Fld := ⟨0xf0, 0x68, 0, 21, 1048576⟩
def PF_LEN_BYTES : Fld := ⟨0xf0, 0x6c, 0, 19, 0⟩
def MR_WIN_OFFS : Fld := ⟨0xf0, 0x70, 6, 15, 0⟩
def MR_DATA (j : Nat) : Fld := ⟨0xf0, 0x80 + 4 * j, 0, 32, 0⟩
def LG_STAT_HEAD : Fld := ⟨0xf0, 0xc0, 0, 20, 0⟩
def LG_SEQ_LAST : Fld := ⟨0xf0, 0xc4, 0, 32, 0⟩

/-! ### zmap: Table 19.3 (19), Table 19.4 (19), Table 19.5 (19), Table 19.6 (19) -/

def ZID_REV : Fld := ⟨0x1000, 0x0, 0, 4, 7⟩
def ZID_PART : Fld := ⟨0x1000, 0x0, 4, 12, 228⟩
def ZCTRL_RUN : Fld := ⟨0x1000, 0x4, 0, 1, 0⟩
def ZCTRL_FEED_EN : Fld := ⟨0x1000, 0x4, 1, 1, 0⟩
def ZCTRL_SOFT_RST : Fld := ⟨0x1000, 0x4, 2, 1, 0⟩
def ZCTRL_INT_EN : Fld := ⟨0x1000, 0x4, 3, 1, 0⟩
def ZCTRL_STN_EN : Fld := ⟨0x1000, 0x4, 4, 4, 15⟩
def ZSTAT_STATE : Fld := ⟨0x1000, 0x8, 0, 3, 0⟩
def ZSTAT_PAGE_REQ : Fld := ⟨0x1000, 0x8, 3, 1, 0⟩
def ZSTAT_JAM : Fld := ⟨0x1000, 0x8, 4, 1, 0⟩
def ZSTAT_FUSER_OK : Fld := ⟨0x1000, 0x8, 5, 1, 0⟩
def ZSTAT_POLY_OK : Fld := ⟨0x1000, 0x8, 6, 1, 0⟩
def ZSTAT_STN_OK : Fld := ⟨0x1000, 0x8, 8, 4, 0⟩
def ZINT_EV : Fld := ⟨0x1000, 0xc, 0, 8, 0⟩
def ZINT_EN_EN : Fld := ⟨0x1000, 0x10, 0, 8, 0⟩
def ZERR_CODE : Fld := ⟨0x1000, 0x14, 0, 8, 0⟩
def ZERR_COUNT : Fld := ⟨0x1000, 0x14, 8, 8, 0⟩
def ZSPEED_SPEED : Fld := ⟨0x1000, 0x18, 0, 16, 0⟩
def ZGAP_GAP : Fld := ⟨0x1000, 0x1c, 0, 16, 0⟩
def ZMS_LO_MS : Fld := ⟨0x1000, 0x20, 0, 16, 0⟩
def ZMS_HI_MS : Fld := ⟨0x1000, 0x24, 0, 16, 0⟩
def ZPAGE_CMD_SUBMIT : Fld := ⟨0x1000, 0x28, 0, 1, 0⟩
def ZPAGE_CMD_ABORT : Fld := ⟨0x1000, 0x28, 1, 1, 0⟩
def ZPAGE_CMD_SEP_MASK : Fld := ⟨0x1000, 0x28, 4, 4, 0⟩
def ZPAGE_CMD_TAG : Fld := ⟨0x1000, 0x28, 8, 8, 0⟩
def ZPAGE_LEN_LEN : Fld := ⟨0x1000, 0x2c, 0, 16, 0⟩
def ZPAGE_W_WIDTH : Fld := ⟨0x1000, 0x30, 0, 14, 0⟩
def ZPAGE_H_HEIGHT : Fld := ⟨0x1000, 0x34, 0, 16, 0⟩
def ZPAGE_STAT_TAG : Fld := ⟨0x1000, 0x38, 0, 8, 0⟩
def ZPAGE_STAT_RESULT : Fld := ⟨0x1000, 0x38, 8, 3, 0⟩
def ZPAGE_STAT_QUEUED : Fld := ⟨0x1000, 0x38, 12, 3, 0⟩
def ZCAUSE_CAUSE : Fld := ⟨0x1000, 0x3c, 0, 4, 0⟩
def ZST_CTRL_EN (k : Nat) : Fld := ⟨0x1000, 0x40 + 0x20 * k, 0, 1, 0⟩
def ZST_CTRL_BEAMS (k : Nat) : Fld := ⟨0x1000, 0x40 + 0x20 * k, 1, 2, 3⟩
def ZST_OFFS_DIST (k : Nat) : Fld := ⟨0x1000, 0x44 + 0x20 * k, 0, 16, 0⟩
def ZST_TRIM_TRIM (k : Nat) : Fld := ⟨0x1000, 0x48 + 0x20 * k, 0, 16, 0⟩
def ZST_LSD_DELAY (k : Nat) : Fld := ⟨0x1000, 0x4c + 0x20 * k, 0, 16, 0⟩
def ZST_PWR_POWER (k : Nat) : Fld := ⟨0x1000, 0x50 + 0x20 * k, 0, 8, 0⟩
def ZST_HV_SET (k : Nat) : Fld := ⟨0x1000, 0x54 + 0x20 * k, 0, 12, 0⟩
def ZST_BIAS_SET (k : Nat) : Fld := ⟨0x1000, 0x58 + 0x20 * k, 0, 12, 0⟩
def ZST_STAT_LOCK (k : Nat) : Fld := ⟨0x1000, 0x5c + 0x20 * k, 0, 1, 0⟩
def ZST_STAT_HEAD_OK (k : Nat) : Fld := ⟨0x1000, 0x5c + 0x20 * k, 1, 1, 0⟩
def ZST_STAT_HV_OK (k : Nat) : Fld := ⟨0x1000, 0x5c + 0x20 * k, 2, 1, 0⟩
def ZST_STAT_TEMP_WARN (k : Nat) : Fld := ⟨0x1000, 0x5c + 0x20 * k, 3, 1, 0⟩
def ZPREF_EN (k : Nat) : Fld := ⟨0x1000, 0xc0 + 4 * k, 0, 1, 0⟩
def ZPREF_EXT (k : Nat) : Fld := ⟨0x1000, 0xc0 + 4 * k, 1, 1, 0⟩
def ZPREF_PPR (k : Nat) : Fld := ⟨0x1000, 0xc0 + 4 * k, 8, 8, 0⟩
def ZPOLY_RPM_RPM : Fld := ⟨0x1000, 0xd0, 0, 16, 0⟩
def ZPOLY_FACETS_FACETS : Fld := ⟨0x1000, 0xd4, 0, 4, 0⟩
def ZPOLY_STAT_LOCK : Fld := ⟨0x1000, 0xd8, 0, 4, 0⟩
def ZPOLY_STAT_DRV : Fld := ⟨0x1000, 0xd8, 4, 4, 0⟩
def ZPOLY_CMD_START : Fld := ⟨0x1000, 0xdc, 0, 1, 0⟩
def ZPOLY_CMD_STOP : Fld := ⟨0x1000, 0xdc, 1, 1, 0⟩
def ZSTP_MSTEP (n : Nat) : Fld := ⟨0x1000, 0xe0 + 4 * n, 0, 4, 0⟩
def ZSTP_CRATIO (n : Nat) : Fld := ⟨0x1000, 0xe0 + 4 * n, 4, 3, 0⟩
def ZSTP_INV (n : Nat) : Fld := ⟨0x1000, 0xe0 + 4 * n, 7, 1, 0⟩
def ZSTP_IRUN (n : Nat) : Fld := ⟨0x1000, 0xe0 + 4 * n, 8, 8, 0⟩
def ZFUS_SET_SET : Fld := ⟨0x1000, 0x100, 0, 12, 0⟩
def ZFUS_TEMP_TEMP : Fld := ⟨0x1000, 0x104, 0, 12, 0⟩
def ZFUS_CTRL_HEAT : Fld := ⟨0x1000, 0x108, 0, 1, 0⟩
def ZMOT_CMD_RUN : Fld := ⟨0x1000, 0x10c, 0, 4, 0⟩
def ZMOT_SPD_RPM (d : Nat) : Fld := ⟨0x1000, 0x110 + 4 * d, 0, 16, 0⟩
def ZRAS_CTRL_EN : Fld := ⟨0x1000, 0x120, 0, 1, 0⟩
def ZRAS_CTRL_SEP : Fld := ⟨0x1000, 0x120, 1, 2, 0⟩
def ZRAS_CTRL_DMA : Fld := ⟨0x1000, 0x120, 3, 1, 1⟩
def ZRAS_CTRL_BURST : Fld := ⟨0x1000, 0x120, 8, 8, 15⟩
def ZRAS_STAT_BUSY : Fld := ⟨0x1000, 0x124, 0, 1, 0⟩
def ZRAS_STAT_FMT_ERR : Fld := ⟨0x1000, 0x124, 1, 1, 0⟩
def ZRAS_STAT_TIMEOUT : Fld := ⟨0x1000, 0x124, 2, 1, 0⟩
def ZRAS_STAT_DONE : Fld := ⟨0x1000, 0x124, 3, 1, 0⟩
def ZRAS_LINES_LINES : Fld := ⟨0x1000, 0x128, 0, 16, 0⟩
def ZRAS_DATA_WORD : Fld := ⟨0x1000, 0x12c, 0, 16, 0⟩
def ZDMA_CNT_LO_CNT : Fld := ⟨0x1000, 0x130, 0, 16, 0⟩
def ZDMA_CNT_HI_CNT : Fld := ⟨0x1000, 0x134, 0, 16, 0⟩
def ZSENS_LVL_LO_LVL : Fld := ⟨0x1000, 0x138, 0, 16, 0⟩
def ZSENS_LVL_HI_LVL : Fld := ⟨0x1000, 0x13c, 0, 16, 0⟩
def ZSENS_SEL_INPUT : Fld := ⟨0x1000, 0x140, 0, 6, 0⟩
def ZSENS_TLEAD_T : Fld := ⟨0x1000, 0x144, 0, 16, 0⟩
def ZSENS_TTRAIL_T : Fld := ⟨0x1000, 0x148, 0, 16, 0⟩
def ZSENS_CNT_LSEQ : Fld := ⟨0x1000, 0x14c, 0, 8, 0⟩
def ZSENS_CNT_TSEQ : Fld := ⟨0x1000, 0x14c, 8, 8, 0⟩
def ZADC_CODE (n : Nat) : Fld := ⟨0x1000, 0x150 + 4 * n, 0, 10, 0⟩
def ZADC_STALE (n : Nat) : Fld := ⟨0x1000, 0x150 + 4 * n, 15, 1, 0⟩
def ZSCRATCH_DATA : Fld := ⟨0x1000, 0x170, 0, 16, 0⟩
def ZDIAG_SRC : Fld := ⟨0x1000, 0x174, 0, 8, 0⟩
def ZDIAG_SEV : Fld := ⟨0x1000, 0x174, 8, 3, 0⟩
def ZMIG_KEY_KEY : Fld := ⟨0x1000, 0x178, 0, 16, 0⟩
def ZMIG_CTRL_PAGE : Fld := ⟨0x1000, 0x17c, 0, 8, 0⟩
def ZMIG_CTRL_QTR : Fld := ⟨0x1000, 0x17c, 8, 2, 0⟩
def ZMIG_CTRL_OPEN : Fld := ⟨0x1000, 0x17c, 15, 1, 0⟩

/-! ### legacyPort: Table 19.12 (19) -/

def LG_STAT_ZE40 : Fld := ⟨0xe0, 0x40, 0, 1, 0⟩
def LG_STAT_WIN_OPEN : Fld := ⟨0xe0, 0x40, 1, 1, 0⟩
def LG_STAT_WFIFO : Fld := ⟨0xe0, 0x40, 8, 7, 0⟩
def LG_STAT_RFIFO : Fld := ⟨0xe0, 0x40, 16, 10, 0⟩
def LG_DIR_LO_DIR : Fld := ⟨0xe0, 0x44, 0, 32, 0⟩
def LG_DIR_HI_DIR : Fld := ⟨0xe0, 0x48, 0, 1, 0⟩
def LG_OUT_LO_OUT : Fld := ⟨0xe0, 0x4c, 0, 32, 0⟩
def LG_OUT_HI_OUT : Fld := ⟨0xe0, 0x50, 0, 1, 0⟩
def LG_IN_LO_IN : Fld := ⟨0xe0, 0x54, 0, 32, 0⟩
def LG_IN_HI_IN : Fld := ⟨0xe0, 0x58, 0, 1, 0⟩
def LG_CNT_A_PROTO : Fld := ⟨0xe0, 0x5c, 0, 16, 0⟩
def LG_CNT_A_IGNORED : Fld := ⟨0xe0, 0x5c, 16, 16, 0⟩
def LG_CNT_B_TIMEOUTS : Fld := ⟨0xe0, 0x60, 0, 16, 0⟩
def LG_CNT_B_FMT_ERR : Fld := ⟨0xe0, 0x60, 16, 16, 0⟩

/-! ### device: Table 20.4 (20) -/

def DV_INFO_VARIANT : Fld := ⟨0x0, 0x40, 0, 2, 0⟩
def DV_INFO_GRADE : Fld := ⟨0x0, 0x40, 2, 1, 0⟩
def DV_INFO_STEP : Fld := ⟨0x0, 0x40, 4, 4, 2⟩
def DV_INFO_ZE40 : Fld := ⟨0x0, 0x40, 8, 1, 0⟩
def DV_INFO_PROF : Fld := ⟨0x0, 0x40, 9, 2, 0⟩
def DV_SERIAL_LO : Fld := ⟨0x0, 0x44, 0, 32, 0⟩
def DV_SERIAL_HI : Fld := ⟨0x0, 0x48, 0, 32, 0⟩
def DV_TEMP_TJ : Fld := ⟨0x0, 0x4c, 0, 16, 0⟩
def DV_TEMP_TJ_MAX : Fld := ⟨0x0, 0x4c, 16, 16, 0⟩
def DV_CNT_OWNER_WR : Fld := ⟨0x0, 0x50, 0, 16, 0⟩
def DV_CNT_ACCESS : Fld := ⟨0x0, 0x50, 16, 16, 0⟩
def DV_LAST_WR_PAGE : Fld := ⟨0x0, 0x54, 0, 8, 0⟩
def DV_LAST_WR_OFFS : Fld := ⟨0x0, 0x54, 8, 12, 0⟩
def DV_LAST_WR_AGENT : Fld := ⟨0x0, 0x54, 20, 4, 0⟩
def DV_EVT_SUM (w : Nat) : Fld := ⟨0x0, 0x80 + 4 * w, 0, 32, 0⟩

/-! ### timebase: Table 20.6 (20) -/

def TB_NOW_LO : Fld := ⟨0x5, 0x40, 0, 32, 0⟩
def TB_NOW_HI : Fld := ⟨0x5, 0x44, 0, 32, 0⟩
def TB_ALARM_LO : Fld := ⟨0x5, 0x48, 0, 32, 0⟩
def TB_ALARM_HI : Fld := ⟨0x5, 0x4c, 0, 32, 0⟩
def TB_ALARM_CTL_ARM : Fld := ⟨0x5, 0x50, 0, 1, 0⟩

end Sys2Proof.Machine.F
end

