-- ==== Sys2Proof/Machine/Header.lean ====
section
/-!
DEFINITION. The common header every listed page begins with (R501, Table 20.2), and the page directory of Table 20.1.
-/
namespace Sys2Proof.Machine

/-- The owner each page has after reset: 1 the host, 0 firmware (Table 20.1); "prof" pages are firmware until FILL ends. -/
def ownerAtReset (p : Nat) : Nat := if p = 0x0D0 ∨ p = 0x0F0 then 1 else 0

/-- The lock of the debug page is set after reset (R510). -/
def lockAtReset (p : Nat) : Nat := if p = 0x0F8 then 1 else 0

namespace H

def ENABLE (p : Nat) : Fld := ⟨p, 0x004, 0, 1, 0⟩
def ISOLATE (p : Nat) : Fld := ⟨p, 0x004, 3, 1, 0⟩
def LOCK (p : Nat) : Fld := ⟨p, 0x004, 4, 1, lockAtReset p⟩
def OWNER (p : Nat) : Fld := ⟨p, 0x004, 5, 1, ownerAtReset p⟩
def STATE (p : Nat) : Fld := ⟨p, 0x008, 0, 4, 0⟩
def PEND (p : Nat) : Fld := ⟨p, 0x008, 5, 1, 0⟩
def MISMATCH (p : Nat) : Fld := ⟨p, 0x008, 6, 1, 0⟩
def ACCESS_BUSY (p : Nat) : Fld := ⟨p, 0x008, 7, 1, 0⟩
def ISOLATED (p : Nat) : Fld := ⟨p, 0x008, 8, 1, 0⟩
def EVT (p : Nat) : Fld := ⟨p, 0x00C, 0, 32, 0⟩
def EVT_EN (p : Nat) : Fld := ⟨p, 0x010, 0, 32, 0⟩
def FLT (p : Nat) : Fld := ⟨p, 0x014, 0, 24, 0⟩
def FIRST (p : Nat) : Fld := ⟨p, 0x014, 24, 8, 0xFF⟩
def FLT_EN (p : Nat) : Fld := ⟨p, 0x018, 0, 24, 0⟩
def SEQ (p : Nat) : Fld := ⟨p, 0x01C, 0, 32, 0⟩

end H

/-- One line of the page directory: first page, number of pages, block type, first instance, writing roles. -/
structure DirEntry where
  page  : Nat
  count : Nat
  type  : Nat
  inst  : Nat
  roles : List Nat
deriving DecidableEq, Repr

/-- Table 20.1. -/
def directory : List DirEntry :=
  [⟨0x000, 1, 0x001, 0, [0]⟩, ⟨0x001, 1, 0x002, 0, [0]⟩, ⟨0x002, 1, 0x003, 0, [0]⟩, ⟨0x003, 1, 0x004, 0, [0]⟩,
   ⟨0x004, 1, 0x005, 0, [0]⟩, ⟨0x005, 1, 0x006, 0, [0]⟩, ⟨0x008, 12, 0x010, 0, [0]⟩, ⟨0x020, 6, 0x020, 0, [5, 6, 7, 8]⟩,
   ⟨0x028, 6, 0x021, 0, [5, 6, 7, 8]⟩, ⟨0x030, 6, 0x022, 0, [5, 6, 7, 8]⟩, ⟨0x038, 6, 0x023, 0, [6, 7, 8]⟩,
   ⟨0x040, 1, 0x024, 0, [5]⟩, ⟨0x041, 1, 0x025, 0, [3, 5]⟩, ⟨0x048, 1, 0x030, 0, [1]⟩, ⟨0x049, 8, 0x031, 0, [1]⟩,
   ⟨0x051, 2, 0x032, 8, [1]⟩, ⟨0x058, 1, 0x038, 0, [9]⟩, ⟨0x059, 1, 0x039, 0, [1]⟩,
   ⟨0x05A, 1, 0x03A, 0, [9, 4, 5, 6, 7, 8]⟩, ⟨0x060, 1, 0x040, 0, [1]⟩, ⟨0x061, 32, 0x041, 0, [1, 5]⟩,
   ⟨0x090, 16, 0x050, 0, [3]⟩, ⟨0x0A0, 8, 0x051, 0, [3]⟩, ⟨0x0A8, 1, 0x052, 0, [3]⟩, ⟨0x0B0, 12, 0x058, 0, [3, 6, 7, 8]⟩,
   ⟨0x0BC, 1, 0x059, 0, [3]⟩, ⟨0x0C0, 4, 0x060, 0, [4]⟩, ⟨0x0C4, 1, 0x061, 0, [4]⟩, ⟨0x0C5, 1, 0x062, 0, [4]⟩,
   ⟨0x0D0, 1, 0x070, 0, []⟩, ⟨0x0D8, 2, 0x071, 0, [2]⟩, ⟨0x0E0, 1, 0x072, 0, [1]⟩, ⟨0x0F0, 1, 0x078, 0, []⟩,
   ⟨0x0F8, 1, 0x07F, 0, [0]⟩]

def DirEntry.holds (e : DirEntry) (p : Nat) : Bool := e.page ≤ p && p < e.page + e.count

/-- The directory's entry for a page, if the page has a block (R23). -/
def dirEntry (p : Nat) : Option DirEntry := directory.find? (·.holds p)

/-- The station of a beam-timing, interlace, imaging or head-link page. -/
def stationOfPage (p : Nat) : Option Nat :=
  if 0x020 ≤ p ∧ p < 0x040 ∧ p % 8 < 6 then some (p % 8) else none

/-- The word of PG_ID (Table 20.2). -/
def pgId (e : DirEntry) (p : Nat) : Nat := e.type * 2 ^ 20 + (e.inst + (p - e.page)) * 2 ^ 12 + 0x001

end Sys2Proof.Machine
end

