-- ==== Sys2Proof/Machine/Ops.lean ====
section
/-!
DEFINITION. The named operations on the state: sparse maps, register fields and their staging copies, the common header's
events and faults, outputs, memory bytes, and who may write a page.
-/
namespace Sys2Proof.Machine

/-! ### Sparse maps -/

/-- The value at a key, or the default of an unlisted key. -/
def Sparse.get {α : Type} (d : α) (k : Nat) : SparseMap α → α
  | [] => d
  | (k', v) :: r => if k' = k then v else Sparse.get d k r

/-- The value at a key that is listed. -/
def Sparse.get? {α : Type} (k : Nat) : SparseMap α → Option α
  | [] => none
  | (k', v) :: r => if k' = k then some v else Sparse.get? k r

/-- Insert an unlisted key in its place. -/
def Sparse.ins {α : Type} (k : Nat) (v : α) : SparseMap α → SparseMap α
  | [] => [(k, v)]
  | (k', v') :: r => if k < k' then (k, v) :: (k', v') :: r else (k', v') :: Sparse.ins k v r

/-- Take a key out. -/
def Sparse.del {α : Type} (k : Nat) : SparseMap α → SparseMap α
  | [] => []
  | (k', v) :: r => if k' = k then Sparse.del k r else (k', v) :: Sparse.del k r

/-- Set a key; the default value removes its entry. -/
def Sparse.put {α : Type} [DecidableEq α] (d : α) (k : Nat) (v : α) (m : SparseMap α) : SparseMap α :=
  if v = d then Sparse.del k m else Sparse.ins k v (Sparse.del k m)

/-- Strictly rising keys. -/
def Sparse.sorted {α : Type} : SparseMap α → Bool
  | [] => true
  | [_] => true
  | (k, _) :: (k', v') :: r => decide (k < k') && Sparse.sorted ((k', v') :: r)

/-! ### Registers -/

/-- The value of a field in the active set. -/
def State.rd (s : State) (f : Fld) : Nat := Sparse.get f.reset f.key s.regs

/-- A field as two's complement. -/
def State.rdS (s : State) (f : Fld) : Int := toSigned f.width (s.rd f)

/-- A one-bit field. -/
def State.on (s : State) (f : Fld) : Bool := s.rd f != 0

/-- Set a field, cut to its width. -/
def State.wr (f : Fld) (v : Nat) (s : State) : State :=
  { s with regs := Sparse.put f.reset f.key (v % 2 ^ f.width) s.regs }

/-- Set a field to an integer in two's complement. -/
def State.wrS (f : Fld) (v : Int) (s : State) : State := s.wr f (ofSigned f.width v)

/-- Set a one-bit field. -/
def State.flag (f : Fld) (b : Bool) (s : State) : State := s.wr f (b2n b)

/-- Add to a saturating counter. -/
def State.satAdd (f : Fld) (n : Nat) (s : State) : State := s.wr f (min (s.rd f + n) (2 ^ f.width - 1))

/-- Step a saturating counter. -/
def State.sat (f : Fld) (s : State) : State := s.satAdd f 1

/-- Step a wrapping counter. -/
def State.inc (f : Fld) (s : State) : State := s.wr f (s.rd f + 1)

/-- The staging copy of a field: what a read of a staged field returns (R13). -/
def State.stgRd (s : State) (f : Fld) : Nat := (Sparse.get? f.key s.stg).getD (s.rd f)

def State.stgRdS (s : State) (f : Fld) : Int := toSigned f.width (s.stgRd f)

/-- Write the staging copy of a field. -/
def State.stgWr (f : Fld) (v : Nat) (s : State) : State :=
  { s with stg := Sparse.ins f.key (v % 2 ^ f.width) (Sparse.del f.key s.stg) }

/-- The page of a bit address. -/
def pageOfKey (k : Nat) : Nat := k / 32 / 4096

/-- Run a list of updates. -/
def State.each {α : Type} (l : List α) (f : α → State → State) (s : State) : State := l.foldl (fun t a => f a t) s

/-- Do something under a condition. -/
def State.ifDo (c : Bool) (f : State → State) (s : State) : State := if c then f s else s

/-- Put a thing out. -/
def State.emit (o : Out) (s : State) : State := { s with out := o :: s.out }

/-- Take a free value below `bound` (log 1). -/
def State.freeVal (s : State) (bound : Nat) : Nat := Config.freeValue s.free % bound

/-- Advance the counter of free values. -/
def State.freeNext (s : State) : State := { s with free := s.free + 1 }

/-- A quotient; with divisor 0 the manual states none (log 1). -/
def qdiv (a b : Nat) : Nat := if b = 0 then Config.divByZero a else a / b

/-- A quotient rounded up. -/
def cdiv (a b : Nat) : Nat := if b = 0 then Config.divByZero a else (a + b - 1) / b

/-! ### Device state -/

/-- The device states of PG_STAT.STATE of page 0x000 (R508). -/
def stOff : Nat := 0
def stBoot : Nat := 1
def stFill : Nat := 2
def stReady : Nat := 3
def stRun : Nat := 4
def stSlack : Nat := 5
def stSafe : Nat := 6

def State.dev (s : State) : Nat := s.rd (H.STATE 0)

def State.isSafe (s : State) : Bool := s.on F.FC_STATE_SAFE

def State.ze40 (s : State) : Bool := s.on F.DV_INFO_ZE40

/-- A -4S device has no stations E and F (R5). -/
def State.hasStation (s : State) (k : Nat) : Bool := k < 4 || (k < 6 && !s.boot.minus4S)

/-- Stations of the variant. -/
def State.stations (s : State) : List Nat := (List.range 6).filter s.hasStation

/-! ### Events and faults of a page -/

/-- Put an element behind those whose key is not larger. -/
def insertBy {α : Type} (key : α → Nat) (x : α) : List α → List α
  | [] => [x]
  | y :: r => if key y ≤ key x then y :: insertBy key x r else x :: y :: r

/-- In rising order of a key; equal ones keep their order. -/
def sortBy {α : Type} (key : α → Nat) (l : List α) : List α := l.foldl (fun m x => insertBy key x m) []

/-- Send or pend an MSI-X vector (R254). -/
def State.msix (v : Nat) (s : State) : State :=
  if s.on (F.MSIX_CTRL_MASK v) || s.quay.fnMask then
    s.wr (F.MSIX_PBA (v / 32)) (s.rd (F.MSIX_PBA (v / 32)) ||| 2 ^ (v % 32))
  else s.emit (.msix v)

/-- Tell a page's owner of an enabled bit (R505); `evt` is the event bit, none for a fault. -/
def State.notify (p : Nat) (evt : Option Nat) (s : State) : State :=
  if s.on (H.OWNER p) then
    if p = 0x0D0 then s.msix 1
    else if 0x061 ≤ p ∧ p ≤ 0x080 ∧ evt = some 0 then s.msix (2 + (p - 0x061))
    else s
  else s.emit (.irq p)

/-- Note that a header bit was set in this tick (Table 20.3). -/
def State.mark (p b : Nat) (s : State) : State :=
  { s with fresh := (s.time, if s.fresh.1 = s.time then (p, b) :: s.fresh.2 else [(p, b)]) }

/-- Was the header bit set in this tick? -/
def State.isFresh (s : State) (p b : Nat) : Bool := s.fresh.1 == s.time && s.fresh.2.contains (p, b)

/-- Set an event bit of a page (R505). -/
def State.event (p i : Nat) (s : State) : State :=
  ((s.mark p i).wr (H.EVT p) (s.rd (H.EVT p) ||| 2 ^ i)).ifDo (bit (s.rd (H.EVT_EN p)) i) (·.notify p (some i))

/-- PG_FLT.FIRST as a fault bit is set: the bit, while BITS is zero; a lower one set in the tick that ended the zero, too (R506, Table
20.3).  Mark 64 notes that tick. -/
def State.fltFirst (p i : Nat) (s : State) : State :=
  if s.rd (H.FLT p) = 0 then (s.mark p 64).wr (H.FIRST p) i
  else if s.isFresh p 64 ∧ i < s.rd (H.FIRST p) then s.wr (H.FIRST p) i
  else s

/-- Set a fault bit of a page (R505, R506). -/
def State.fltBit (p i : Nat) (s : State) : State :=
  let s1 := (s.mark p (32 + i)).fltFirst p i
  (s1.wr (H.FLT p) (s1.rd (H.FLT p) ||| 2 ^ i)).ifDo (bit (s1.rd (H.FLT_EN p)) i) (·.notify p none)

/-- Clear fault bits of a page; FIRST reads 0xFF once none is left (R506). -/
def State.fltClear (p mask : Nat) (s : State) : State :=
  let v := s.rd (H.FLT p) &&& (2 ^ 24 - 1 - mask % 2 ^ 24)
  let s1 := s.wr (H.FLT p) v
  if v = 0 then s1.wr (H.FIRST p) 0xFF else s1

/-- A refused COMMIT (R504). -/
def State.mismatch (p : Nat) (s : State) : State := (s.mark p 56).wr (H.MISMATCH p) 1

/-- A write ignored because the block runs or a set is pending (R14, R16). -/
def State.accessBusy (p : Nat) (s : State) : State := (s.mark p 57).wr (H.ACCESS_BUSY p) 1

/-! ### Staged sets -/

/-- Does a page hold a staged set that waits for its boundary? -/
def State.staged (s : State) (p : Nat) : Bool := s.on (H.PEND p)

/-- Move every staging copy of a page to the active set (R13). -/
def State.applyStaged (p : Nat) (s : State) : State :=
  let mine := s.stg.filter fun e => pageOfKey e.1 == p
  let s1 := { s with
    stg := s.stg.filter fun e => !(pageOfKey e.1 == p)
    regs := mine.foldl (fun (r : SparseMap Nat) (e : Nat × Nat) => Sparse.ins e.1 e.2 (Sparse.del e.1 r)) s.regs }
  (s1.inc (H.SEQ p)).wr (H.PEND p) 0

/-- A pending set that the next boundary applies: one committed in the boundary's own tick waits for the boundary after it
(R14), and one of an isolated block waits for its restore (Table 20.3). -/
def State.due (s : State) (p : Nat) : Bool := s.staged p && !s.on (H.ISOLATED p) && !s.isFresh p 58

/-- The page's boundary: the pending set applies (R13). -/
def State.boundary (p : Nat) (s : State) : State := s.ifDo (s.due p) (·.applyStaged p)

/-! ### Memory -/

/-- What a byte that no write has listed reads as: 0 (banks R209, DRAM R210; MRAM log 4). -/
def memDefault : Byte := 0

/-- The canonical form of memory: addresses strictly rising, no entry equal to what an unlisted address reads as. -/
def Memory.wf (m : List Host.Cell) : Bool := Sparse.sorted m && m.all fun c => c.2 != memDefault

def State.ldByte (s : State) (a : Nat) : Nat := (Sparse.get memDefault a s.mem).toNat

def State.stByte (a v : Nat) (s : State) : State :=
  { s with mem := Sparse.put memDefault a (BitVec.ofNat 8 v) s.mem }

def State.ldBytes (s : State) (a : Nat) : Nat → List Nat
  | 0 => []
  | n + 1 => s.ldByte a :: s.ldBytes (a + 1) n

def State.stBytes (a : Nat) : List Nat → State → State
  | [], s => s
  | b :: r, s => State.stBytes (a + 1) r (s.stByte a b)

/-- A little-endian number of bytes. -/
def leNat : List Nat → Nat
  | [] => 0
  | b :: r => b % 256 + 256 * leNat r

/-- The `n` little-endian bytes of a number. -/
def leBytes (v : Nat) : Nat → List Nat
  | 0 => []
  | n + 1 => v % 256 :: leBytes (v / 256) n

def State.ld (s : State) (a n : Nat) : Nat := leNat (s.ldBytes a n)

def State.st (a n v : Nat) (s : State) : State := s.stBytes a (leBytes v n)

/-- Clear `n` bytes from an address on. -/
def State.clearMem (a n : Nat) (s : State) : State :=
  { s with mem := s.mem.filter fun c => !(a ≤ c.1 && c.1 < a + n) }

/-! ### Checks -/

/-- One step of a reflected CRC over the bits of a byte. -/
def crcBits (poly : Nat) : Nat → Nat → Nat
  | 0, c => c
  | n + 1, c => crcBits poly n (if c % 2 = 1 then (c / 2) ^^^ poly else c / 2)

/-- CRC-32C (R147): reflected polynomial 0x82F6_3B78, initial value and final XOR all ones. -/
def crc32c (l : List Nat) : Nat :=
  (l.foldl (fun c b => crcBits 0x82F63B78 8 (c ^^^ (b % 256))) 0xFFFFFFFF) ^^^ 0xFFFFFFFF

/-! ### Who may write -/

/-- The role of a berth (R29). -/
def State.role (s : State) (n : Nat) : Nat := s.rd (F.BR_ROLE_ROLE n)

/-- A berth that is not HALTED, RETIRED or OFF (R451). -/
def berthRuns (st : Nat) : Bool := st != 1 && st != 4 && st != 5

/-- The berth that holds a role and runs. -/
def State.holder (s : State) (r : Nat) : Option Nat :=
  (List.range 12).find? fun n => s.role n == r && berthRuns (s.rd (H.STATE (0x008 + n)))

/-- The agent code of DV_LAST_WR. -/
def agentCode : Agent → Nat
  | .berth n => n.val
  | .host => 0xC
  | .window => 0xD

/-- May role `r` write page `p` (Table 20.1)?  Station-services roles only write their own stations' pages, and roles 4-8 only CS_SEAL
of page 0x05A. -/
def roleWrites (s : State) (r p off : Nat) : Bool :=
  match dirEntry p with
  | none => false
  | some e =>
    if r = 0 then true
    else if !e.roles.contains r then false
    else if p = 0x05A then r = 9 || off = 0x044
    else match stationOfPage p with
      | some k => r < 6 || r = 6 + k / 2
      | none =>
        if 0x0B0 ≤ p ∧ p < 0x0BC then
          r = 3 || (List.range 6).any fun k =>
            r = 6 + k / 2 && s.rd (F.BT_CFG_POLY_CH k) = p - 0x0B0
        else true

/-- R502: does a write by this agent to this page take effect? -/
def State.mayWrite (s : State) (a : Agent) (p off : Nat) : Bool :=
  match a with
  | .berth n => !s.on (H.OWNER p) && roleWrites s (s.role n) p off && berthRuns (s.rd (H.STATE (0x008 + n.val)))
  | _ => s.on (H.OWNER p)

/-- Count an ignored write (R10). -/
def State.countDenied (a : Agent) (p off : Nat) (s : State) : State :=
  (((s.sat F.DV_CNT_OWNER_WR).wr F.DV_LAST_WR_PAGE p).wr F.DV_LAST_WR_OFFS off).wr F.DV_LAST_WR_AGENT (agentCode a)

/-- R5, R23: pages without a block, and the pages of stations E and F on a -4S device. -/
def State.absentPage (s : State) (p : Nat) : Bool :=
  (dirEntry p).isNone || (match stationOfPage p with | some k => !s.hasStation k | none => false)

/-- A write through BAR0 ends SLACK (R401). -/
def State.wake (a : Agent) (s : State) : State :=
  match a with
  | .host => if s.dev = stSlack then { s with seq := { s.seq with slackExit := true } } else s
  | _ => s

/-- A guarded write: nothing on an absent page (R5, R23); counted and ignored from an agent without the right (R10,
R502), on a locked page (R11) or in SAFE (R435); else `k`.  `freeOwner`, `inLock` and `inSafe` mark the exceptions. -/
def State.guarded (a : Agent) (p off : Nat) (freeOwner inLock inSafe : Bool) (k : State → State) (s : State) : State :=
  let s := s.wake a
  if s.absentPage p then s
  else if (s.isSafe && !inSafe) || !(freeOwner || s.mayWrite a p off) || (s.on (H.LOCK p) && !inLock) then
    s.countDenied a p off
  else k s

/-- The guard of an ordinary register write. -/
def State.write (a : Agent) (p off : Nat) (k : State → State) (s : State) : State :=
  s.guarded a p off false false false k

end Sys2Proof.Machine
end

