-- ==== Sys2Proof/Machine/FaultBase.lean ====
section
/-!
DEFINITION. Latching a raise at the fault collector (R424–R433): the part of a raise that is the same for every source.
The hardware reactions of Table 17.2 that a raise calls for are left in `fc.hw`, and what the supervisor has to do in
`fc.dispatch`.
-/
namespace Sys2Proof.Machine

/-- Bit `s` of one of the three 8-word source bitmaps. -/
def State.srcBit (s : State) (f : Nat → Fld) (src : Nat) : Bool := bit (s.rd (f (src / 32))) (src % 32)

def State.srcSet (f : Nat → Fld) (src : Nat) (s : State) : State :=
  s.wr (f (src / 32)) (s.rd (f (src / 32)) ||| 2 ^ (src % 32))

def hwOnly (src : Nat) : Bool := src == 1 || src == 249

/-- Programmed severity of a source (R425, R427). -/
def State.sevOf (s : State) (src : Nat) : Nat := if hwOnly src then 3 else s.rd (F.FC_SRC_SEV src)

/-- Is a merge window open on the class (R433)? -/
def State.mergeOpen (s : State) (c : Fin 16) : Bool :=
  s.dev == stBoot || s.dev == stFill || (s.fc.merges[c]).isSome || (s.fc.closed.1 == s.time && s.fc.closed.2.contains c.val)

/-- Is the unit of a raise under Assay (R437)? -/
def State.underAssay (s : State) : Option (AssayKind × Nat) → Bool
  | some (k, u) => s.fc.assays.any fun a => a.running && a.kind == k && a.unit == u
  | none => false

/-- The raises of the present tick. -/
def State.tickRaises (s : State) : List TickRaise := if s.fc.tick.1 = s.time then s.fc.tick.2 else []

/-- Is a raise merged: into an open window, a window that closes in its tick, or an Assay of its unit (R433, R437,
Table 17.9)? -/
def State.merges (s : State) (c : Fin 16) (src : Nat) (assay : Option (AssayKind × Nat)) : Bool :=
  (s.mergeOpen c || s.underAssay assay) && !hwOnly src

/-- Does FC_UNACK hold, at the start of the tick, another source of the class that can escalate (R432, R436)?  A bit set in
this tick counts for a lower source only (Table 17.9). -/
def State.escalates (s : State) (src : Nat) : Bool :=
  (List.range 16).any fun i =>
    let t := src / 16 * 16 + i
    t != src && !s.fc.quiet.contains t &&
      (s.srcBit F.FC_UNACK t || (s.fc.acked.1 == s.time && s.fc.acked.2.contains t)) &&
      !(decide (src < t) && s.tickRaises.any fun r => r.src == t && r.fresh)

/-- May a raise be escalated at all (R427, R432, R436)? -/
def State.escalable (s : State) (src page : Nat) : Bool :=
  !hwOnly src && s.on F.FC_CFG_ESC_EN && !s.srcBit F.FC_UNACK src && !s.on (H.ISOLATED page)

/-- Is a raise outside a merge window handled one level above its programmed severity (R432, R436)? -/
def State.escalated (s : State) (src page : Nat) : Bool :=
  s.escalable src page && s.escalates src

/-- The severity a raise outside a merge window is handled at (R425, R427, R432). -/
def State.handled (s : State) (src page floor : Nat) : Nat :=
  if hwOnly src then 4 else max floor (s.sevOf src + b2n (s.escalated src page))

/-- The first-fault latch (R429); of two raises of one tick the lower source is latched (Table 17.9). -/
def State.firstLatch (src sev : Nat) (s : State) : State :=
  if s.on F.FC_FIRST_VALID then
    let s1 := s.wr F.FC_FIRST_OVF 1
    if s.rd F.FC_FIRST_T_HI * 2 ^ 32 + s.rd F.FC_FIRST_T_LO = s.time ∧ src < s.rd F.FC_FIRST_SRC then
      (s1.wr F.FC_FIRST_SRC src).wr F.FC_FIRST_SEV sev
    else s1
  else (((((s.wr F.FC_FIRST_SRC src).wr F.FC_FIRST_SEV sev).wr F.FC_FIRST_T_LO s.time).wr F.FC_FIRST_T_HI
    (s.time / 2 ^ 32)).wr F.FC_FIRST_VALID 1).event 0x001 0

/-- What every raise does in one step (R428). -/
def State.latchBits (src page fbit : Nat) (assay : Option (AssayKind × Nat)) (s : State) : State :=
  let iso := s.on (H.ISOLATED page)
  let own := s.srcBit F.FC_UNACK src
  let s1 := ((((s.srcSet F.FC_STICKY src).srcSet F.FC_UNACK src).sat (F.FC_SRC_RAISES src)).inc F.FC_CNT_RAISES).fltBit page fbit
  { s1 with fc := { s1.fc with
      lastAt := Sparse.ins src s.time (Sparse.del src s1.fc.lastAt)
      lastUnit := (src, assay) :: s1.fc.lastUnit.filter (·.1 != src)
      quiet := if iso && !own then src :: s1.fc.quiet else if iso then s1.fc.quiet else s1.fc.quiet.filter (· != src) } }

/-- Gap Assays wait for a gap and open their window when they start (R437, R533). -/
def AssayKind.gap : AssayKind → Bool
  | .prbs => true
  | .pipe => true
  | _ => false

/-- Open a merge window on the class of a source (R433). -/
def State.openWindow (src sev page : Nat) (s : State) : State :=
  { s with fc := { s.fc with merges := s.fc.merges.set (src / 16 % 16) (some ⟨src, sev, page, s.time, false⟩) (by omega) } }

/-- Close the merge window of a class (R433); a raise of the same tick is still merged (Table 17.9). -/
def State.closeWindow (c : Fin 16) (s : State) : State :=
  { s with fc := { s.fc with
    merges := s.fc.merges.set c none
    closed := (s.time, if s.fc.closed.1 = s.time then c.val :: s.fc.closed.2 else [c.val]) } }

/-- The class of a source (R424). -/
def classOf (src : Nat) : Fin 16 := ⟨src / 16 % 16, Nat.mod_lt _ (by omega)⟩

/-- The severity a source's last raise of the tick was handled at. -/
def State.lastSev (s : State) (src : Nat) : Nat :=
  match s.tickRaises.find? (·.src == src) with
  | some r => r.sev
  | none => s.sevOf src

/-- A recovery of R433 that a raise starts opens a window of its own where the raise has opened none. -/
def State.openRecovery (src page : Nat) (s : State) : State :=
  if s.mergeOpen (classOf src) then s
  else { s with fc := { s.fc with merges := s.fc.merges.set (classOf src) (some ⟨src, s.lastSev src, page, s.time, true⟩) } }

/-- The recovery completes. -/
def State.closeRecovery (src : Nat) (s : State) : State :=
  match s.fc.merges[classOf src] with
  | some w => s.ifDo (w.recovery && w.src == src) (·.closeWindow (classOf src))
  | none => s

/-- FEEDSTOP of R426. -/
def State.feedStop (src : Nat) (s : State) : State := s.ifDo (s.on (F.FC_SRC_FEEDSTOP src)) (·.wr F.PT_CFG_FEED_EN 0)

/-- The hardware reactions of the rows of Table 17.2 up to a severity; ISOLATE of R426 adds the isolation. -/
def hwOf (sev : Nat) (iso : Bool) (page : Nat) : List (Nat × Nat) :=
  (if 4 ≤ sev then [(page, 4)] else []) ++ (if 3 ≤ sev || iso then [(page, 3)] else [])

/-- A raise is kept for the rest of its tick. -/
def State.noteTick (r : TickRaise) (s : State) : State := { s with fc := { s.fc with tick := (s.time, r :: s.tickRaises) } }

/-- An Assay at once opens the window of its class (R433). -/
def State.assayWindow (src sev page : Nat) (assay : Option (AssayKind × Nat)) (s : State) : State :=
  match assay with
  | some (k, _) => s.ifDo (2 ≤ sev && !k.gap) (·.openWindow src sev page)
  | none => s

/-- A raise of a lower source escalates the raises that higher sources of its class have made in this tick (R432,
Table 17.9). -/
def State.escalateHigher (src page : Nat) (s : State) : State :=
  if s.on (H.ISOLATED page) then s
  else s.each (s.tickRaises.filter fun r => r.can && r.src / 16 == src / 16 && decide (src < r.src)) fun (r : TickRaise) t =>
    let u := (t.sat F.FC_CNT_ESCALATED).event 0x001 1
    let v : State := { u with fc := { u.fc with
      tick := (u.time, u.tickRaises.map fun (x : TickRaise) => if x = r then { x with sev := r.sev + 1, can := false } else x)
      dispatch := u.fc.dispatch.map fun d => if d.src = r.src ∧ d.time = u.time then { d with sev := r.sev + 1 } else d
      hw := u.fc.hw ++ hwOf (r.sev + 1) false r.page } }
    v.ifDo (r.sev == 1) (·.assayWindow r.src 2 r.page r.assay)

/-- What a raise does to the window that merges it: a severity above the opening raise's adds the reactions of the rows
between for that raise (R433). -/
def State.mergeInto (c : Fin 16) (sev : Nat) (s : State) : State :=
  match s.fc.merges[c] with
  | some w =>
    if w.sev < sev then
      let unit := (s.fc.lastUnit.find? (·.1 == w.src)).bind (·.2)
      { s with fc := { s.fc with
        merges := s.fc.merges.set c (some { w with sev := sev })
        hw := s.fc.hw ++ hwOf sev false w.page
        dispatch := s.fc.dispatch ++ [⟨w.src, sev, w.page, unit, s.time, w.sev != 0⟩] } }
    else s
  | none => s

/-- Latch a raise: R428, R429, R432 and R433.  `floor` is the severity floor of R425. -/
def State.latch (src page fbit floor : Nat) (assay : Option (AssayKind × Nat)) (s : State) : State :=
  let c := classOf src
  let own := s.srcBit F.FC_UNACK src
  if s.merges c src assay then
    let prog := max (s.sevOf src) floor
    let s1 := (((s.latchBits src page fbit assay).firstLatch src prog).sat (F.FC_STATS_MERGED src)).event 0x001 2
    let s2 : State := (s1.mergeInto c (s1.sevOf src)).noteTick ⟨src, prog, page, assay, false, !own⟩
    { s2 with fc := { s2.fc with dispatch := s2.fc.dispatch ++ [(⟨src, 0, page, none, s.time, false⟩ : Raise)] } }
  else
    let sev := s.handled src page floor
    let esc := s.escalated src page
    let s1 : State := ((s.latchBits src page fbit assay).firstLatch src sev).ifDo esc fun t => (t.sat F.FC_CNT_ESCALATED).event 0x001 1
    let s2 := s1.feedStop src
    let s3 := { s2 with fc := { s2.fc with
      hw := s2.fc.hw ++ hwOf sev (s.on (F.FC_SRC_ISOLATE src)) page
      dispatch := s2.fc.dispatch ++ [(⟨src, sev, page, assay, s.time, false⟩ : Raise)] } }
    let s4 := (s3.assayWindow src sev page assay).escalateHigher src page
    s4.noteTick ⟨src, sev, page, assay, s.escalable src page && !esc, !own⟩

end Sys2Proof.Machine
end

