-- ==== Sys2Proof/Machine/QuayBase.lean ====
section
/-!
DEFINITION. The completion ring: numbering, history, holding and writing of entries (R258, R262, R263, R267, R278), and
the moderation of vector 0 (R282).
-/
namespace Sys2Proof.Machine

def State.session (s : State) : Bool := s.on (H.STATE 0x0D0)

def State.sqSize (s : State) : Nat := 2 ^ s.rd F.QY_RING_SIZE_SQ_LOG2
def State.cqSize (s : State) : Nat := 2 ^ s.rd F.QY_RING_SIZE_CQ_LOG2

/-- Host address of the ring area (R256). -/
def State.ringBase (s : State) : Nat := s.rd F.QY_RING_HI_BASE * 2 ^ 32 + s.rd F.QY_RING_LO_BASE * 2 ^ 12

/-- May the device write at its write index (R258)? -/
def State.cqRoom (s : State) : Bool :=
  s.on F.QY_STAT_RINGS && (s.quay.cqWrite + 1) % s.cqSize != s.quay.cqHead

/-- The 64 bytes of a CQ entry as written now (Table 10.5). -/
def State.cqBytes (s : State) (e : CqEntry) (replay : Bool) : List Nat :=
  let fl := b2n s.quay.cqPhase + 2 * b2n (replay || bit e.flags 1) + 4 * b2n (s.quay.overflow || bit e.flags 2)
  let l := [e.type, fl] ++ leBytes (s.rd F.QY_SQ_HEAD_HEAD) 2 ++ leBytes e.seq 4 ++ leBytes (s.rd F.QY_EPOCH_EPOCH) 4 ++
    leBytes e.job 4 ++ leBytes (s.rd F.QY_ACK_SEQ) 4 ++ leBytes e.dseq 4 ++ leBytes e.code 2 ++ [0, 0] ++
    (e.payload ++ List.replicate (32 - e.payload.length) 0).take 32
  l ++ leBytes (crc32c l) 4

/-- Vector 0 is due (QY_IRQ, below Table 10.13). -/
def State.irqDue (s : State) : Bool :=
  let hold := s.rd F.QY_IRQ_HOLDOFF * 100
  decide (0 < s.quay.irqWait) && decide (s.quay.irqLast + hold ≤ s.time) &&
    (decide (s.rd F.QY_IRQ_COUNT ≤ s.quay.irqWait) || decide (s.quay.irqSince + hold ≤ s.time))

def State.irqSend (s : State) : State :=
  if s.irqDue then
    let s1 := s.msix 0
    { s1 with quay := { s1.quay with irqWait := 0, irqLast := s.time } }
  else s

/-- Write one entry at the write index and step it (R258); the first entry after a drop carries OVERFLOW (R278). -/
def State.cqPlace (e : CqEntry) (replay : Bool) (s : State) : State :=
  let addr := s.ringBase + 64 * (s.sqSize + s.quay.cqWrite)
  let s1 := s.emit (.hostWrite addr (s.cqBytes e replay))
  let w := (s.quay.cqWrite + 1) % s.cqSize
  let s2 := { s1 with quay := { s1.quay with
    cqWrite := w
    cqPhase := if w = 0 then !s1.quay.cqPhase else s1.quay.cqPhase
    overflow := false
    completions := if e.type = 0x80 && !replay then (e :: s1.quay.completions).take 1024 else s1.quay.completions
    irqWait := s1.quay.irqWait + 1
    irqSince := if s1.quay.irqWait = 0 then s1.time else s1.quay.irqSince } }
  s2.irqSend

/-- Write held entries while there is room, oldest first (R278). -/
def State.cqDrain : Nat → State → State
  | 0, s => s
  | n + 1, s =>
    match s.quay.held with
    | [] => s
    | e :: r =>
      if s.cqRoom then State.cqDrain n ({ s with quay := { s.quay with held := r } }.cqPlace e (bit e.flags 1)) else s

/-- QY_STAT.HELD and CQ_FULL follow the held entries (R278). -/
def State.heldRegs (s : State) : State :=
  let n := s.quay.held.length + s.quay.orphan.length
  let full := decide (0 < n)
  let s1 := s.ifDo (full && !s.on F.QY_STAT_CQ_FULL) (·.event 0x0D0 4)
  (s1.flag F.QY_STAT_CQ_FULL full).wr F.QY_STAT_HELD n

/-- Entries held since the rings stopped wait for the next resume (R267). -/
def State.drain (s : State) : State := if s.quay.waitResume then s.heldRegs else (s.cqDrain s.quay.held.length).heldRegs

/-- No entry can be written and 4,096 are held (R278). -/
def State.cqFull (s : State) : Bool :=
  !(s.quay.held.isEmpty && s.cqRoom) && decide (4096 ≤ s.quay.held.length + s.quay.orphan.length)

/-- An entry is dropped: CQ_OVERFLOW is raised once per episode (R278). -/
def State.cqDrop (s : State) : State :=
  let s1 := s.sat F.QY_CNT_C_OVERFLOW
  if s1.quay.overflow then s1
  else ({ s1 with quay := { s1.quay with overflow := true } }).latch 211 0x0D0 4 0 none

/-- Write an entry or hold it; with 4,096 held it is dropped (R278).  While entries wait for a resume, the completion of a message
that does not resume the session goes before them (log 143). -/
def State.cqSubmit (e : CqEntry) (s : State) : State :=
  if s.cqFull then s.cqDrop
  else if (s.quay.held.isEmpty || (s.quay.waitResume && e.type == 0x80)) && s.cqRoom then s.cqPlace e (bit e.flags 1)
  else ({ s with quay := { s.quay with held := s.quay.held ++ [e] } }).heldRegs

/-- Give an entry the next DSEQ and keep it for a replay (R267); a dropped one takes no number (R278). -/
def State.cqIssue (e : CqEntry) (s : State) : State :=
  if s.cqFull then s.cqDrop
  else
  let d := (s.rd F.QY_DSEQ_LAST + 1) % 2 ^ 32
  let e := { e with dseq := d }
  let s1 := s.wr F.QY_DSEQ_LAST d
  ({ s1 with quay := { s1.quay with issued := (e :: s1.quay.issued).take 4096 } }).cqSubmit e

/-- The payload with some bytes at their offsets from 28. -/
def payloadOf (fields : List (Nat × List Nat)) : List Nat :=
  (List.range 32).map fun i =>
    ((fields.find? fun f => f.1 ≤ i + 28 && i + 28 < f.1 + f.2.length).map fun f => f.2.getD (i + 28 - f.1) 0).getD 0

/-- Post an event (Table 10.8); without a session it waits for the next one (R535).  Quay runs in the native personality
only (R4). -/
def State.postEvent (code job : Nat) (payload : List (Nat × List Nat)) (s : State) : State :=
  let e : CqEntry := ⟨0x81, 0, 0, 0, job, 0, code, payloadOf payload⟩
  if s.ze40 then s
  else if s.session then s.cqIssue e
  else if s.quay.held.length + s.quay.orphan.length < 4096 then
    ({ s with quay := { s.quay with orphan := s.quay.orphan ++ [e] } }).heldRegs
  else s.cqDrop

/-- Post a completion (Table 10.7). -/
def State.postCompletion (seq job code : Nat) (payload : List (Nat × List Nat)) (flags : Nat) (s : State) : State :=
  s.cqIssue ⟨0x80, flags, seq, 0, job, 0, code, payloadOf payload⟩

/-- Post DEVICE_STATE and log the state (R453). -/
def State.postState (s : State) : State := s.postEvent 0x000B 0 [(28, [s.dev])]

end Sys2Proof.Machine
end

