-- ==== Sys2Proof/Machine/MemMap.lean ====
section
/-!
DEFINITION. The address map of banks and DRAM, what a write stores there, and the extents of the retention store (Tables 1.3
and 1.4, R198, R203, R213, R225).
-/
namespace Sys2Proof.Machine

def State.modMu (f : MemUnit → MemUnit) (s : State) : State := { s with mu := f s.mu }

/-! ### The address map (Tables 1.3 and 1.4) -/

/-- The bank an address lies in, by its number in CS_BANK (R226). -/
def bankOf (a : Nat) : Option Nat :=
  if a < 0x03000000 then some (a / 0x800000)
  else if a < 0x03400000 then some 6
  else if a < 0x03A00000 then some (7 + (a - 0x03400000) / 0x80000)
  else if a < 0x03C00000 then some 19
  else if a < 0x03C40000 then some 20
  else if a < 0x03C50000 then some 21
  else none

/-- The power domain of a bank (Table 1.6). -/
def bankDomain (b : Nat) : Nat :=
  if b < 3 then 4 else if b < 6 then 5 else if b = 6 then 6
  else if b < 11 then 1 else if b < 15 then 2 else if b < 19 then 3
  else if b = 19 then 1 else if b = 20 then 2 else 0

/-- A bank exists on the variant (R5) and its domain is powered or held. -/
def State.bankUp (s : State) (b : Nat) : Bool :=
  (b ≥ 6 || s.hasStation b) && (bankDomain b == 0 || s.rd (F.PD_CFG_STATE (bankDomain b)) != 0)

/-- Do `n` bytes from an address on lie in one bank that can be reached? -/
def State.inBank (s : State) (a n : Nat) : Bool :=
  match bankOf a with
  | some b => s.bankUp b && bankOf (a + n - 1) == some b
  | none => false

/-- The DRAM slot of an address and the offset in it (Table 1.3). -/
def slotAddr (a : Nat) : Option (Fin 2 × Nat) :=
  if 0x1000000000 ≤ a ∧ a < 0x1800000000 then some (0, a - 0x1000000000)
  else if 0x1800000000 ≤ a ∧ a < 0x2000000000 then some (1, a - 0x1800000000)
  else none

def chState (c : Fin 2) : Fld := if c = 0 then F.DP_STAT_CH0 else F.DP_STAT_CH1
def chCap (c : Fin 2) : Fld := if c = 0 then F.DP_STAT_CAP0 else F.DP_STAT_CAP1
def chOff : Nat := 0
def chTraining : Nat := 1
def chFilling : Nat := 2
def chReady : Nat := 3
def chFailed : Nat := 4
def chRebuilding : Nat := 5

def State.ch (s : State) (c : Fin 2) : Nat := s.rd (chState c)
def State.mirrored (s : State) : Bool := s.on F.DP_CFG_MIRROR

/-- Usable bytes of a slot (R25). -/
def State.slotBytes (s : State) (c : Fin 2) : Nat :=
  if s.mirrored then (if c = 0 then min (s.rd F.DP_STAT_CAP0) (s.rd F.DP_STAT_CAP1) * 2 ^ 30 else 0)
  else s.rd (chCap c) * 2 ^ 30

/-- A slot is in service (R210, R215, R217). -/
def State.slotUp (s : State) (c : Fin 2) : Bool :=
  if s.mirrored then s.ch 0 == chReady || s.ch 1 == chReady else s.ch c == chReady

/-- Do `n` bytes from an address on lie in a DRAM slot in service? -/
def State.inDram (s : State) (a n : Nat) : Bool :=
  match slotAddr a with
  | some (c, o) => s.slotUp c && decide (o + n ≤ s.slotBytes c)
  | none => false

def State.inMemory (s : State) (a n : Nat) : Bool := s.inBank a n || s.inDram a n

/-! ### Bank bytes -/

/-- Where the upsets of a hallmark byte are kept. -/
def markKey (page i : Nat) : Nat := 2 ^ 52 + 256 * page + i

def State.upset (s : State) (k : Nat) : Nat := Sparse.get 0 k s.mu.upsets

def State.putUpset (k v : Nat) (s : State) : State := s.modMu fun u => { u with upsets := Sparse.put 0 k v u.upsets }

def State.isSealed (s : State) (page : Nat) : Bool := (Sparse.get? page s.mu.marks).isSome

/-- A page becomes OPEN: its hallmark no longer covers it (R198). -/
def State.openPage (page : Nat) (s : State) : State :=
  s.modMu fun u => { u with marks := Sparse.del page u.marks, upsets := u.upsets.filter fun e =>
    !(2 ^ 52 ≤ e.1 && (e.1 - 2 ^ 52) / 256 == page) }

/-- A running seal command meets a write to one of its pages (R223). -/
def State.cancelSeal (page : Nat) (s : State) : State :=
  if s.mu.sealing.contains page then
    ((s.modMu fun u => { u with sealing := [] }).wr F.CS_SEAL_STAT_STATUS 3).event 0x05A 1
  else s

/-- Write a byte of a bank: its page opens first (R198), a new byte code replaces what was wrong. -/
def State.bankPut (a v : Nat) (s : State) : State :=
  let s1 := (if s.isSealed (a / 4096) then s.openPage (a / 4096) else s).cancelSeal (a / 4096)
  (s1.putUpset a 0).stByte a v

def State.bankPuts (a : Nat) : List Nat → State → State
  | [], s => s
  | b :: r, s => State.bankPuts (a + 1) r (s.bankPut a b)

/-! ### DRAM words -/

/-- Key of a word of a channel. -/
def dramKey (c : Fin 2) (off : Nat) : Nat := c.val * 2 ^ 40 + off / 8

/-- A word of a channel holds what it should again. -/
def State.dramMend (c : Fin 2) (off : Nat) (s : State) : State :=
  s.modMu fun u => { u with wrong := Sparse.del (dramKey c off) u.wrong, poison := u.poison.filter (· != dramKey c off) }

/-- A write of a whole DRAM word: both channels in mirrored mode; poison and wrong bits go (R203, R213). -/
def State.dramPut (a v : Nat) (s : State) : State :=
  match slotAddr a with
  | none => s
  | some (slot, off) =>
    let s1 := s.st a 8 v
    if s.mirrored then
      (s1.ifDo (s.ch 0 != chFailed) (·.dramMend 0 off)).ifDo (s.ch 1 != chFailed) (·.dramMend 1 off)
    else s1.dramMend slot off

/-! ### Either -/

def State.memPut (a v : Nat) (s : State) : State :=
  if s.inBank a 8 then s.bankPuts a (leBytes v 8) else s.dramPut a v

/-- Write bytes in whole words from an aligned address on; the last word is padded with zero bytes. -/
def State.memPuts (a : Nat) : Nat → List Nat → State → State
  | 0, _, s => s
  | n + 1, l, s => State.memPuts (a + 8) n (l.drop 8) (s.memPut a (leNat (l.take 8)))

/-! ### Extents (R225) -/

def extSize : Nat := 0x200000

/-- Device address of an extent: numbered from slot 0 on. -/
def extAddr (x : Nat) : Nat := 0x1000000000 + x * extSize

/-- Extents in use. -/
def State.usedExts (s : State) : List Nat := s.tl.pages.flatMap fun p => p.seps.flatMap fun q => q.exts.map (·.2)

/-- Is an extent part of the store: in a slot in service, and not withdrawn? -/
def State.extOk (s : State) (x : Nat) : Bool :=
  s.inDram (extAddr x) extSize && !s.mu.withdrawn.contains x

/-- Usable extents of a slot. -/
def State.slotExts (s : State) (c : Fin 2) : Nat :=
  if s.slotUp c then
    s.slotBytes c / extSize - (s.mu.withdrawn.filter fun x => x / 0x4000 == c.val).length
  else 0

/-- RS_CAP and RS_FREE follow the store, from which a condemned extent is withdrawn once it is empty (R220); LOW is signalled when RS_FREE falls below RS_LOW (R225). -/
def State.storeRegs (s : State) : State :=
  let gone := s.mu.condemned.filter fun x => !s.usedExts.contains x
  let s := s.modMu fun u => { u with condemned := u.condemned.filter fun x => !gone.contains x, withdrawn := gone ++ u.withdrawn }
  let cap := s.slotExts 0 + s.slotExts 1
  let used := (s.usedExts.filter s.extOk).length
  let s1 := (s.wr F.RS_CAP_EXTENTS cap).wr F.RS_FREE_EXTENTS (cap - used)
  s1.ifDo (decide (s.rd F.RS_LOW_EXTENTS ≤ s.rd F.RS_FREE_EXTENTS) && decide (cap - used < s.rd F.RS_LOW_EXTENTS)) fun t =>
    (t.event 0x059 0).postEvent 0x0009 0 [(28, leBytes (cap - used) 4)]

/-- The pages with a stored separation in the given extents. -/
def State.pagesIn (s : State) (inExt : Nat → Bool) : List Nat :=
  (s.tl.pages.filter fun p => p.seps.any fun q => q.stored && q.exts.any fun e => inExt e.2).map (·.id)

def State.sepsIn (s : State) (inExt : Nat → Bool) : Nat :=
  (s.tl.pages.flatMap fun p => p.seps.filter fun q => q.stored && q.exts.any fun e => inExt e.2).length

end Sys2Proof.Machine
end

