-- ==== Sys2Proof/Machine/DmaBase.lean ====
section
/-!
DEFINITION. DMA channels: write-back, halts, aborts, and the host-window table (R232, R234–R236, R243, R244).  Halts are
latched; the command that causes one runs the collector's reactions at its end.
-/
namespace Sys2Proof.Machine

def dcPage (n : Nat) : Nat := 0x061 + n

def dcIdle : Nat := 0
def dcFetch : Nat := 1
def dcActive : Nat := 2
def dcPausing : Nat := 3
def dcPaused : Nat := 4
def dcHalted : Nat := 5

/-- STATUS codes of Table 9.4. -/
def dsDone : Nat := 1
def dsAlign : Nat := 2
def dsDesc : Nat := 3
def dsAccess : Nat := 4
def dsWindow : Nat := 5
def dsUncorr : Nat := 6
def dsWriteUe : Nat := 7
def dsHost : Nat := 8
def dsPartner : Nat := 9
def dsAborted : Nat := 10

def State.chan (s : State) (n : Fin 32) : Chan := s.dma.chans[n]

def State.modChan (n : Fin 32) (f : Chan → Chan) (s : State) : State :=
  { s with dma := { s.dma with chans := s.dma.chans.set n (f s.dma.chans[n]) } }

def State.dcState (s : State) (n : Fin 32) : Nat := s.rd (H.STATE (dcPage n))

/-- DG_ACTIVE and DG_HALTED follow the channels' states; SLACK counts from the last channel's end (R400). -/
def State.dmaRegs (s : State) : State :=
  let mask := fun (f : Nat → Bool) => (List.finRange 32).foldl (fun v n => if f (s.dcState n) then v + 2 ^ n.val else v) 0
  let act := mask fun x => x == dcFetch || x == dcActive || x == dcPausing
  let s1 := (s.wr F.DG_ACTIVE_CH act).wr F.DG_HALTED_CH (mask (· == dcHalted))
  if s.rd F.DG_ACTIVE_CH ≠ 0 ∧ act = 0 then { s1 with seq := { s1.seq with idleSince := s1.time } } else s1

def State.dcTo (n : Fin 32) (v : Nat) (s : State) : State := (s.wr (H.STATE (dcPage n)) v).dmaRegs

/-- Address of the current descriptor (DC_CUR). -/
def State.dcCur (s : State) (n : Fin 32) : Nat := s.rd (F.DC_CUR_HI n.val) % 2 ^ 16 * 2 ^ 32 + s.rd (F.DC_CUR_LO n.val)

def State.setCur (n : Fin 32) (a : Nat) (s : State) : State :=
  (s.wr (F.DC_CUR_LO n.val) a).wr (F.DC_CUR_HI n.val) (a / 2 ^ 32 % 2 ^ 16)

/-! ### Host windows (R26, R243) -/

/-- The window and offset of a device address. -/
def hostWindow (a : Nat) : Option (Fin 16 × Nat) :=
  if h : 0x800000000000 ≤ a ∧ a < 0x1000000000000 then
    some (⟨(a - 0x800000000000) / 0x80000000000, by omega⟩, (a - 0x800000000000) % 0x80000000000)
  else none

/-- Are `n` bytes from an offset on inside a declared window with the attribute? -/
def State.winOk (s : State) (w : Fin 16) (off n : Nat) (write : Bool) : Bool :=
  s.on (F.DG_WIN_VALID w.val) && s.on (if write then F.DG_WIN_WR w.val else F.DG_WIN_RD w.val) &&
    decide (off + n ≤ s.rd (F.DG_WIN_SIZE w.val) * 4096)

/-- Host address of an offset of a window. -/
def State.winAddr (s : State) (w : Fin 16) (off : Nat) : Nat :=
  s.rd (F.DG_WIN_BASE_HI w.val) * 2 ^ 32 + s.rd (F.DG_WIN_BASE_LO w.val) * 2 ^ 12 + off

/-- The memory a DMA channel reaches: banks except CB and HB (Table 1.4), and DRAM (R229). -/
def State.dmaMemory (s : State) (a n : Nat) : Bool :=
  (s.inBank a n && bankOf a != some 6 && bankOf a != some 21) || s.inDram a n

/-! ### Write-back and halt -/

/-- May the first word of the current descriptor be written? -/
def State.wbOk (s : State) (n : Fin 32) : Bool :=
  match hostWindow (s.dcCur n) with
  | some (w, off) => s.winOk w off 8 true
  | none => s.dmaMemory (s.dcCur n) 8

/-- The write-back of R232: OWN = 0, STATUS and COUNT in one aligned write. -/
def State.writeBack (n : Fin 32) (status count : Nat) (s : State) : State :=
  let c := s.chan n
  let ctrl := c.ctrl % 2 ^ 16 / 256 * 256 + status % 16 * 16 + c.ctrl % 16 / 2 * 2
  let word := ctrl + count * 2 ^ 32
  let s1 := match hostWindow (s.dcCur n) with
    | some (w, off) => s.emit (.hostWrite (s.winAddr w off) (leBytes word 8))
    | none => s.memPut (s.dcCur n) word
  let s2 := s1.modChan n fun c => { c with held := false }
  s2.ifDo (bit c.ctrl 1) (·.event (dcPage n) 0)

/-- DC_STAT of the descriptor that ended. -/
def State.dcEnd (n : Fin 32) (status : Nat) (s : State) : State :=
  (s.wr (F.DC_STAT_LAST_STATUS n.val) status).wr (F.DC_STAT_LAST_TAG n.val) ((s.chan n).ctrl / 256)

/-- HALTED: state, event, count, HALT on source 128 + n (R234, R248). -/
def State.dcHalt (n : Fin 32) (s : State) : State :=
  let s1 := (s.modChan n fun c => { c with grant := none, fetching := false, aborting := false, revoked := false,
                                           toFetch := false, toIdle := false, stay := false, partner := [] }).dcTo n dcHalted
  ((s1.sat (F.DC_CNT_B_HALTS n.val)).event (dcPage n) 3).latch (128 + n.val) (dcPage n) 0 0 none

/-- HALTED with no descriptor touched: ABORTED in DC_STAT only, and CLEAR has nothing to pass over (Table 9.8). -/
def State.dcHaltBare (n : Fin 32) (s : State) : State :=
  ((s.wr (F.DC_STAT_LAST_STATUS n.val) dsAborted).dcHalt n).modChan n fun c => { c with stay := true }

/-- The failing address as it stands: a stop that no word caused leaves it. -/
def State.dcErrAddr (s : State) (n : Fin 32) : Nat := s.rd (F.DC_ERR_HI n.val) * 2 ^ 32 + s.rd (F.DC_ERR_LO n.val)

/-- A descriptor ends in an error (R234): write-back if it can be written, DC_ERR, halt. -/
def State.dcError (n : Fin 32) (status count addr : Nat) (s : State) : State :=
  let s1 := ((s.dcEnd n status).wr (F.DC_ERR_LO n.val) addr).wr (F.DC_ERR_HI n.val) (addr / 2 ^ 32)
  let s2 := s1.ifDo (status == dsWindow) (·.sat F.DG_CNT_WINDOW)
  let s3 := if s2.wbOk n then s2.writeBack n status count else s2.wr (F.DC_STAT_WB_FAIL n.val) 1
  s3.dcHalt n

/-- A fetch that fails halts without a write-back and with WB_FAIL set (R234). -/
def State.dcFetchError (n : Fin 32) (status : Nat) (s : State) : State :=
  let a := s.dcCur n
  let s1 := ((s.wr (F.DC_STAT_LAST_STATUS n.val) status).wr (F.DC_ERR_LO n.val) a).wr (F.DC_ERR_HI n.val) (a / 2 ^ 32)
  let s2 := s1.ifDo (status == dsWindow) (·.sat F.DG_CNT_WINDOW)
  ((s2.wr (F.DC_STAT_WB_FAIL n.val) 1).modChan n fun c => { c with held := false }).dcHalt n

/-- The address after the current descriptor. -/
def State.dcNext (s : State) (n : Fin 32) : Nat :=
  let c := s.chan n
  if bit c.ctrl 2 then c.next % 2 ^ 48 else s.dcCur n + 32

/-- May the descriptor at DC_CUR be read, if it lies in a host window? -/
def State.dcMayRead (s : State) (n : Fin 32) : Bool :=
  match hostWindow (s.dcCur n) with
  | some (w, o) => s.winOk w o 32 false
  | none => true

/-- A descriptor read starts: DB_PEND is cleared (R238). -/
def State.dcStart (n : Fin 32) (s : State) : State :=
  ((s.modChan n fun c => { c with readOk := s.dcMayRead n }).wr (F.DC_STAT_DB_PEND n.val) 0).dcTo n dcFetch

/-- The last byte has been written: write-back DONE, then FETCH, PAUSED after HOLD or a pause, or HALTED after an abort
(Tables 9.5 and 9.8). -/
def State.dcDone (n : Fin 32) (s : State) : State :=
  let c := s.chan n
  let hold := bit c.ctrl 3
  let s1 := s.dcEnd n dsDone
  let s2 := if s1.wbOk n then s1.writeBack n dsDone c.len else s1.wr (F.DC_STAT_WB_FAIL n.val) 1
  let s3 := (s2.inc (F.DC_CNT_A_DESC n.val)).setCur n (s.dcNext n)
  if c.aborting then s3.dcHaltBare n
  else if hold || s.dcState n == dcPausing then
    let s4 := (s3.modChan n fun c => { c with toFetch := true, grant := none }).flag (F.DC_STAT_HOLD_STOP n.val) hold
    (s4.dcTo n dcPaused).event (dcPage n) 2
  else (s3.modChan n fun c => { c with grant := none }).dcStart n

/-- The channel has drained for an abort (R235, R236). -/
def State.dcAborted (n : Fin 32) (s : State) : State :=
  if (s.chan n).held then s.dcError n dsAborted (s.rd (F.DC_PROG_BYTES n.val)) (s.dcErrAddr n)
  else s.dcHaltBare n

/-- PG_CTRL.ABORT (Table 9.5): no effect in IDLE, FETCH and HALTED. -/
def State.dmaAbort (n : Fin 32) (s : State) : State :=
  let st := s.dcState n
  if st = dcActive ∨ st = dcPausing then (s.modChan n fun c => { c with aborting := true }).dcTo n dcPausing
  else if st = dcPaused then s.dcAborted n
  else s

/-- Abort every channel at once (R434): what a granted burst has still to write is not written. -/
def State.dmaAbortAll (s : State) : State :=
  s.each (List.finRange 32) fun n t =>
    let st := t.dcState n
    if st = dcActive ∨ st = dcPausing ∨ st = dcPaused then t.dcAborted n else t

/-- A channel uses a host window: reads from it (`rd`) or writes to it (`wr`) (R244). -/
def State.usesWindow (s : State) (n : Fin 32) (w : Fin 16) (rd wr : Bool) : Bool :=
  let c := s.chan n
  let st := s.dcState n
  c.held && (st == dcActive || st == dcPausing || st == dcPaused) &&
    ((rd && (hostWindow c.src).map (·.1) == some w) || (wr && (hostWindow c.dst).map (·.1) == some w))

/-- Revoke a window: every channel that uses it stops at the end of its granted burst (R244). -/
def State.revoke (w : Fin 16) (rd wr : Bool) (s : State) : State :=
  (s.sat F.DG_CNT_REVOKE).each (List.finRange 32) fun n t =>
    if t.usesWindow n w rd wr then
      if t.dcState n = dcPaused ∨ (t.chan n).grant.isSome then t.modChan n fun c => { c with revoked := true }
      else t.dcError n dsWindow (t.rd (F.DC_PROG_BYTES n.val)) (t.dcErrAddr n)
    else t

/-- One word of DG_WIN[n] takes a value (R243). -/
def State.winPut (w : Fin 16) (word : Fin 4) (value : Nat) (s : State) : State :=
  match word with
  | 0 => s.wr (F.DG_WIN_BASE_LO w.val) (value / 4096)
  | 1 => s.wr (F.DG_WIN_BASE_HI w.val) value
  | 2 => s.wr (F.DG_WIN_SIZE w.val) (min (value % 2 ^ 32) 0x80000000)
  | 3 => ((s.wr (F.DG_WIN_VALID w.val) value).wr (F.DG_WIN_RD w.val) (value / 2)).wr (F.DG_WIN_WR w.val) (value / 4)

/-- The window's entry went from that of `s` to that of `t`: a declared window is revoked by a clear of VALID, a change of its
place or size, or the loss of an attribute (R244). -/
def State.winAfter (w : Fin 16) (s t : State) : State :=
  let was := s.on (F.DG_WIN_VALID w.val)
  let gone := fun (f : Fld) => s.rd f != t.rd f
  let moved := gone (F.DG_WIN_BASE_LO w.val) || gone (F.DG_WIN_BASE_HI w.val) || gone (F.DG_WIN_SIZE w.val) ||
    !t.on (F.DG_WIN_VALID w.val)
  let rd := moved || (s.on (F.DG_WIN_RD w.val) && !t.on (F.DG_WIN_RD w.val))
  let wr := moved || (s.on (F.DG_WIN_WR w.val) && !t.on (F.DG_WIN_WR w.val))
  t.ifDo (was && (rd || wr)) (·.revoke w rd wr)

/-- Write one word of DG_WIN[n] (R243, R244). -/
def State.winWrite (w : Fin 16) (word : Fin 4) (value : Nat) (s : State) : State := s.winAfter w (s.winPut w word value)

/-- Declare a window: the whole entry at once (R256, R280). -/
def State.winSet (w : Fin 16) (base size attr : Nat) (s : State) : State :=
  s.winAfter w ((((s.winPut w 0 base).winPut w 1 (base / 2 ^ 32)).winPut w 2 size).winPut w 3 attr)

/-- Clear VALID of a declared window. -/
def State.winClose (w : Fin 16) (s : State) : State :=
  if s.on (F.DG_WIN_VALID w.val) then s.winWrite w 3 (2 * s.rd (F.DG_WIN_RD w.val) + 4 * s.rd (F.DG_WIN_WR w.val)) else s

end Sys2Proof.Machine
end

