-- ==== Sys2Proof/Machine/CodecBase.lean ====
section
/-!
DEFINITION. Decode contexts and stored separations: what the page timeline needs of the codec and the retention store.
-/
namespace Sys2Proof.Machine

def State.modSta (f : Stations → Stations) (s : State) : State := { s with sta := f s.sta }

def State.modCtx (x : Fin 24) (f : Ctx → Ctx) (s : State) : State :=
  s.modSta fun q => { q with ctxs := q.ctxs.set x (f q.ctxs[x]) }

def lanePage (n : Nat) : Nat := 0x049 + n

/-- A decode lane is free again. -/
def State.laneFree (n : Nat) (s : State) : State := (s.wr (F.DL_STAT_CTX n) 0x1F).wr (H.STATE (lanePage n)) 0

/-- The lane that works on a context lets go of it. -/
def State.ctxIdle (x : Fin 24) (s : State) : State :=
  let lane := s.rd (F.CTX_LANE x)
  (s.wr (F.CTX_LANE x) 0xF).ifDo (decide (lane < 8)) (·.laneFree lane)

/-- Close a decode context (R181). -/
def State.ctxClose (x : Fin 24) (s : State) : State :=
  ((s.ctxIdle x).wr (F.CTX_OPEN x) 0).modCtx x fun _ => Ctx.reset

/-- The open contexts of a page, committed or not. -/
def State.ctxOf (s : State) (id : Nat) (committed : Bool) : List (Fin 24) :=
  (List.finRange 24).filter fun (x : Fin 24) => s.on (F.CTX_OPEN x) && s.rd (F.CTX_PAGE_ID x) == id &&
    (s.sta.ctxs[x]).order.isSome == committed && !(s.sta.ctxs[x]).zero

/-- PG_STAT.STATE of the imaging pages: RUNNING from a feed's first scan on, PRIMED while a page is primed or committed
(R126). -/
def State.imStates (s : State) : State :=
  s.each (List.finRange 6) fun (k : Fin 6) t =>
    let open_ := (List.finRange 24).any fun (x : Fin 24) => t.on (F.CTX_OPEN x) && t.rd (F.CTX_STATION x) == k.val
    let fs := t.sta.feeds[k]
    t.wr (H.STATE (0x030 + k.val)) (if fs.any (·.started) then 2 else if open_ || !fs.isEmpty then 1 else 0)

/-- CDC_STAT and the imaging states follow the lanes, contexts and feeds. -/
def State.codecRegs (s : State) : State :=
  let busy := (List.range 8).foldl (fun w n => if s.rd (F.DL_STAT_CTX n) = 0x1F then w else w ||| 2 ^ n) 0
  ((s.wr F.CDC_STAT_DEC_BUSY busy).wr F.CDC_STAT_CTX_OPEN
    ((List.finRange 24).filter fun (x : Fin 24) => s.on (F.CTX_OPEN x)).length).imStates

/-- The contexts of a page that will not be committed close; nothing is written to the ring (R179). -/
def State.codecDrop (id : Nat) (s : State) : State := (s.each (s.ctxOf id false) fun x t => t.ctxClose x).codecRegs

/-- The contexts of a page that became LOST stop decoding; zero lines follow (R181). -/
def State.codecLost (id : Nat) (s : State) : State :=
  (s.each (s.ctxOf id true) fun x t => (t.ctxIdle x).modCtx x fun c => { c with zero := true }).codecRegs

/-- What is left of a separation once its stored parts are released (Table 10.12). -/
def Sep.dropStored (q : Sep) : Option Sep :=
  let left := q.parts.filter (!·.stored)
  if left.isEmpty then none else some { q with parts := left, stored := false, exts := [], streamLen := none }

/-- The stored separations of a page leave the retention store; parts still in transfer are kept until they are done (R36,
Table 10.12). -/
def State.freeSeps (id : Nat) (s : State) : State :=
  let n := ((s.tl.pages.find? (·.id == id)).map fun p => (p.seps.filter (·.stored)).length).getD 0
  let drop := fun (p : Page) => if p.id = id then { p with seps := p.seps.filterMap Sep.dropStored } else p
  let s1 := s.wr F.RS_SEPS_COUNT (s.rd F.RS_SEPS_COUNT - n)
  { s1 with tl := { s1.tl with pages := s1.tl.pages.map drop } }

end Sys2Proof.Machine
end

