-- ==== Sys2Proof/Machine/EdkarBase.lean ====
section
/-!
DEFINITION. Sheets and notices at the Edkar ports, and the stop of a port (R301–R304, R534): what the page timeline and SAFE
need of the link.
-/
namespace Sys2Proof.Machine

/-- Module states of Table 11.5. -/
def edAbsent : Nat := 0
def edIdent : Nat := 1
def edActive : Nat := 2
def edThrottled : Nat := 3
def edQuarantined : Nat := 4
def edConflict : Nat := 5

def edPage (p : Nat) : Nat := 0x0D8 + p

def State.modState (s : State) (p m : Nat) : Nat := s.rd (F.ED_MOD_STATE p m)

/-- A module is heard: ACTIVE or THROTTLED (R296). -/
def State.modHeard (s : State) (p m : Nat) : Bool := s.modState p m == edActive || s.modState p m == edThrottled

/-- IDENT, ACTIVE or THROTTLED. -/
def State.modPresent (s : State) (p m : Nat) : Bool :=
  s.modState p m == edIdent || s.modState p m == edActive || s.modState p m == edThrottled

/-- Set a module's state and its presence bit (ED_PRESENT). -/
def State.setModState (p m v : Nat) (s : State) : State :=
  let pres := v = edIdent ∨ v = edActive ∨ v = edThrottled
  let w := s.rd (F.ED_PRESENT_MOD p)
  let w' := if pres then w ||| 2 ^ m else w &&& (0xFFFF - 2 ^ m)
  ((s.wr (F.ED_MOD_STATE p m) v).wr (F.ED_PRESENT_MOD p) w')

def State.setAuthed (p m : Nat) (b : Bool) (s : State) : State :=
  let w := s.rd (F.ED_PRESENT_AUTHED p)
  s.wr (F.ED_PRESENT_AUTHED p) (if b then w ||| 2 ^ m else w &&& (0xFFFF - 2 ^ m))

/-- Change a port's internal state. -/
def State.modPort (p : Fin 2) (f : EdPort → EdPort) (s : State) : State := { s with ed := s.ed.set p (f s.ed[p]) }

/-- Change a module's internal state. -/
def State.modMod (p : Fin 2) (m : Fin 16) (f : EdModule → EdModule) (s : State) : State :=
  s.modPort p fun q => { q with mods := q.mods.set m (f q.mods[m]) }

def State.edMod (s : State) (p : Fin 2) (m : Fin 16) : EdModule := s.ed[p].mods[m]

/-- The route of E1 (ED_CFG.ROUTE holds bits 31:17, bit 16 + m for module m). -/
def State.route (s : State) : List (Fin 16) :=
  (List.finRange 16).filter fun m => m.val != 0 && bit (s.rd (F.ED_CFG_ROUTE 1)) (m.val - 1)

/-- Queue the SHEET_NOTICE of a sheet for every module that accepted it and is on the bus, one a module and sheet (R302, R303); a
module that has received the sheet gets no JAM.  The course is kept for a module that accepts late. -/
def State.notice (sheet code : Nat) (s : State) : State :=
  let s1 := s.modPort 1 fun q => { q with announces := q.announces.map fun a =>
    if a.sheet = sheet && a.course.isNone then { a with course := some code } else a }
  s1.each (List.finRange 16) fun m t =>
    let q := t.edMod 1 m
    t.ifDo (t.modPresent 1 m && q.accepted.contains sheet && !(code == 4 && q.received.contains sheet)) fun u =>
      u.modMod 1 m fun q => { q with notices := q.notices ++ [(sheet, code)], accepted := q.accepted.filter (· != sheet) }

/-- The timeline learns E1's decision on a sheet (R301). -/
def State.decide_ (sheet : Nat) (d : Decision) (s : State) : State :=
  { s with tl := { s.tl with pitches := s.tl.pitches.map fun q =>
      if q.kind = .sheet && q.sheet = sheet && q.decision = .pending then { q with decision := d } else q } }

/-- The port's decision on an announce is formed: event DECISION unless it is ACCEPT, then WITHDRAWN to every module that
accepted (R301, R302, R308). -/
def State.closeAnnounce (sheet : Nat) (d : Decision) (s : State) : State :=
  let s1 := s.modPort 1 fun q => { q with announces := q.announces.map fun a => if a.sheet = sheet then { a with closed := true } else a }
  let s2 := s1.decide_ sheet d
  if d = .accept then s2 else (s2.event (edPage 1) 2).notice sheet 1

/-- Every announce that is still open decides REFUSE (R300, R534). -/
def State.refuseOpen (s : State) : State :=
  s.each (s.ed[1].announces.filter (!·.closed)) fun a u => u.closeAnnounce a.sheet .refuse

/-- The open transaction of a module fails; a notice that has been sent raises NOTICE_FAIL (R291, R303). -/
def State.transFail (p : Fin 2) (m : Fin 16) (s : State) : State :=
  match (s.edMod p m).trans with
  | none => s
  | some t =>
    let s1 := s.modMod p m fun q => { q with trans := none, quarantine := q.quarantine && t.type != 0x08 }
    s1.ifDo (t.type == 0x06 && p == 1) (·.latch 228 (edPage 1) 5 0 none)

/-- A module leaves the bus: queued items and keys go (R303, R534). -/
def EdModule.drop (q : EdModule) : EdModule :=
  { q with notices := [], announces := [], feeds := [], quarantine := false, challenge := false, chal := [], key := [],
           authFails := 0, tagFails := 0, silentRun := 0, malfRun := 0 }

/-- The mark of a route module that left the bus with an announce pending: no decision of Table 11.4. -/
def answerLost : Nat := 9

/-- Open transactions fail, queued ones are discarded, and the module is no longer authenticated; an announce pending on its
route will decide REFUSE (Table 11.9). -/
def State.leaveBus (p : Fin 2) (m : Fin 16) (s : State) : State :=
  let s1 := ((s.transFail p m).modMod p m (·.drop)).setAuthed p m false
  let mark := fun (a : EdAnnounce) =>
    if !a.closed && (a.route.getD []).contains m.val then { a with answers := (m.val, answerLost) :: a.answers } else a
  s1.ifDo (p == 1) fun t => t.modPort 1 fun q => { q with announces := q.announces.map mark }

/-- Every present module of a port becomes ABSENT; QUARANTINED and CONFLICT stay (R300, R534). -/
def State.portDrop (p : Fin 2) (s : State) : State :=
  s.each (List.finRange 16) fun m t => (t.leaveBus p m).ifDo (t.modPresent p m) (·.setModState p m edAbsent)

/-- A port stops (R534): state OFF, every pending announce refused; a FEED still pending is taken as silence when its
deadline comes. -/
def State.portStop (p : Fin 2) (s : State) : State :=
  let s1 := s.ifDo (p == 1) (·.refuseOpen)
  ((s1.portDrop p).modPort p fun q => { q with mods := q.mods.map fun m => { m with window := false } }).wr (H.STATE (edPage p)) 0

end Sys2Proof.Machine
end

