-- ==== Sys2Proof/Machine/Log.lean ====
section
/-!
DEFINITION. The event log in MRAM (R471, Table 18.7): a ring over 0x0510_0000–0x051F_FFFF of sealed records.
-/
namespace Sys2Proof.Machine

def logBase : Nat := 0x05100000
def logSize : Nat := 0x100000

/-- The 16-byte header of a record (Table 18.7). -/
def logHeader (kind len seq time : Nat) : List Nat :=
  [0x4C, kind] ++ leBytes len 2 ++ leBytes seq 4 ++ leBytes time 8

/-- The commit word: CRC-32C of header and body, then 0xA5C3_3C5A. -/
def logCommit (l : List Nat) : List Nat := leBytes (crc32c l) 4 ++ leBytes 0xA5C33C5A 4

/-- Append a committed record.  The body is padded to a multiple of 8 bytes; a record that would pass the end of the
ring goes to its start. -/
def State.logRecord (kind : Nat) (body : List Nat) (s : State) : State :=
  let body := (body ++ List.replicate ((8 - body.length % 8) % 8) 0).take 496
  let seq := (s.rd F.LG_SEQ_LAST + 1) % 2 ^ 32
  let rec_ := logHeader kind body.length seq s.time ++ body
  let all := rec_ ++ logCommit rec_
  let head := s.rd F.LG_STAT_HEAD
  let at_ := if head + all.length ≤ logSize then head else 0
  ((s.stBytes (logBase + at_) all).wr F.LG_STAT_HEAD ((at_ + all.length) % logSize)).wr F.LG_SEQ_LAST seq

/-- A FAULT record (R471): source, handled severity and FC_FIRST. -/
def State.logFault (src sev : Nat) (s : State) : State :=
  s.logRecord 0x02 ([src, sev] ++ leBytes (s.rd F.FC_FIRST_SRC) 1 ++ [s.rd F.FC_FIRST_SEV, s.rd F.FC_FIRST_VALID, s.rd F.FC_FIRST_OVF, 0, 0])

/-- A STATE record. -/
def State.logState (st : Nat) (s : State) : State := s.logRecord 0x01 [st]

end Sys2Proof.Machine
end

