-- ==== Sys2Proof/Machine/TimelineBase.lean ====
section
/-!
DEFINITION. Page records and their transitions (R36, R42, R47–R55): what the page timeline, Quay, the stations, the codec
and SAFE share.
-/
namespace Sys2Proof.Machine

def ptPage : Nat := 0x041

/-- Loss causes of Table 2.4. -/
def lcHeadUnderrun : Nat := 0x01
def lcBeamMissing : Nat := 0x02
def lcHeadCut : Nat := 0x03
def lcSpeedBand : Nat := 0x04
def lcJam : Nat := 0x05
def lcDecode : Nat := 0x06
def lcHv : Nat := 0x07
def lcLink : Nat := 0x08
def lcOrder : Nat := 0x09
def lcIsolated : Nat := 0x0A
def lcSafe : Nat := 0x0B

def State.modTl (f : Timeline → Timeline) (s : State) : State := { s with tl := f s.tl }

def State.page? (s : State) (id : Nat) : Option Page := s.tl.pages.find? (·.id == id)
def State.job? (s : State) (id : Nat) : Option Job := s.tl.jobs.find? (·.id == id)

def State.modPage (id : Nat) (f : Page → Page) (s : State) : State :=
  s.modTl fun t => { t with pages := t.pages.map fun p => if p.id = id then f p else p }

def State.modJob (id : Nat) (f : Job → Job) (s : State) : State :=
  s.modTl fun t => { t with jobs := t.jobs.map fun j => if j.id = id then f j else j }

/-- Set a page's state and stamp the change (R276). -/
def State.pageTo (id : Nat) (st : PgState) (s : State) : State :=
  s.modPage id fun p => { p with st := st, changed := s.time }

def State.jobStations (s : State) (id : Nat) : Nat := ((s.job? id).map (·.stations)).getD 0

/-! ### Slots -/

def State.modSlot (i : Fin 16) (f : Slot → Slot) (s : State) : State :=
  s.modTl fun t => { t with slots := t.slots.set i ((t.slots[i]).map f) }

def State.occupied (s : State) : Nat := (s.tl.slots.toList.filter (·.isSome)).length

/-- The slot in which a page is fed or committed. -/
def State.slotOf (s : State) (id : Nat) : Option (Fin 16) :=
  (List.finRange 16).find? fun i =>
    match s.tl.slots[i] with
    | some sl => sl.page == id && !sl.blank && (s.rd (F.PT_SLOT_STATE i.val) == 1 || s.rd (F.PT_SLOT_STATE i.val) == 2)
    | none => false

/-- Occupied slots whose page is committed. -/
def State.committedSlots (s : State) : List (Fin 16) :=
  (List.finRange 16).filter fun i => (s.tl.slots[i]).isSome && s.rd (F.PT_SLOT_STATE i.val) == 2

/-- Occupied slots whose page is fed, not committed and not blank. -/
def State.fedSlots (s : State) : List (Fin 16) :=
  (List.finRange 16).filter fun i =>
    match s.tl.slots[i] with
    | some sl => !sl.blank && s.rd (F.PT_SLOT_STATE i.val) == 1
    | none => false

/-- Free a slot; its registers keep showing DELIVERED or LOST, a blank sheet's slot shows free. -/
def State.freeSlot (i : Fin 16) (s : State) : State :=
  (s.modTl fun t => { t with slots := t.slots.set i none }).ifDo (s.rd (F.PT_SLOT_STATE i.val) == 1)
    (·.wr (F.PT_SLOT_STATE i.val) 0)

/-- PT_QUEUE follows the queues and slots. -/
def State.queueRegs (s : State) : State :=
  (s.wr F.PT_QUEUE_RELEASED (s.tl.released.length + s.tl.reprint.length)).wr F.PT_QUEUE_INFLIGHT s.occupied

/-! ### Queues -/

/-- Sheet number of a page in the reprint queue. -/
def State.sheetOf (s : State) (id : Nat) : Nat := ((s.page? id).bind (·.sheet)).getD 0

/-- Insert a page into the reprint queue by sheet number (R47, R54). -/
def State.insertReprint (s : State) (id : Nat) : List Nat → List Nat
  | [] => [id]
  | x :: r => if s.sheetOf id < s.sheetOf x then id :: x :: r else x :: s.insertReprint id r

def State.toReprint (id : Nat) (s : State) : State :=
  let s1 := s.modPage id fun p => { p with queuedAt := some s.time }
  (s1.modTl fun t => { t with reprint := s.insertReprint id (t.reprint.filter (· != id)) }).queueRegs

/-- Take a page out of both queues. -/
def State.dequeue (id : Nat) (s : State) : State :=
  (s.modTl fun t => { t with released := t.released.filter (· != id), reprint := t.reprint.filter (· != id) }).queueRegs

/-! ### Retirement -/

/-- The page's store is released and its state is RETIRED (R36). -/
def State.retire (id : Nat) (s : State) : State :=
  ((s.freeSeps id).dequeue id).pageTo id .retired

/-! ### Blank sheets (R47) -/

/-- E1 learns that a sheet will not arrive, or arrives for diversion (R47, Table 11.6). -/
def State.purgeNotice (sheet : Nat) (s : State) : State := s.notice sheet (if s.on F.PT_CFG_PURGE_PATH then 2 else 1)

/-- The sheet of a slot runs blank: BLANK counted, PAGE_BLANK posted with the reason bits (R47). -/
def State.runBlank (i : Fin 16) (reasons : Nat) (s : State) : State :=
  match s.tl.slots[i] with
  | none => s
  | some sl =>
    let s1 := (s.modSlot i fun sl => { sl with blank := true }).purgeNotice sl.sheet
    let s2 := ((s1.wr F.PT_GATE_STAT_COMMIT reasons).sat F.PT_CNT_A_BLANK).event ptPage 1
    let job := ((s2.page? sl.page).map (·.job)).getD 0
    s2.postEvent 0x0007 job [(28, leBytes sl.page 4), (32, leBytes sl.sheet 4), (36, [reasons])]

/-- A failed commit gate: the sheet runs blank and the page returns to the reprint queue, unless it is retired or lost a
separation (R47, Table 2.5). -/
def State.failCommit (i : Fin 16) (reasons : Nat) (s : State) : State :=
  match s.tl.slots[i] with
  | none => s
  | some sl =>
    let s1 := (s.runBlank i reasons).codecDrop sl.page
    match s1.page? sl.page with
    | some p => if p.st = .fed then (s1.pageTo p.id .released).toReprint p.id else s1
    | none => s1

/-! ### Loss (R48, R49, R54) -/

/-- R54: may the lost page be printed again? -/
def State.mayReprint (s : State) (p : Page) : Bool :=
  ((s.job? p.job).map (fun j => j.reprint && !j.aborted)).getD false && s.on F.PT_CFG_REPRINT_EN &&
    decide (p.commits < 1 + s.rd F.PT_CFG_REPRINT_MAX) && !p.sepLost

def pageLostPayload (id sheet cause reprints final time : Nat) : List (Nat × List Nat) :=
  [(28, leBytes id 4), (32, leBytes sheet 4), (36, [cause]), (37, [reprints]), (38, [final]), (40, leBytes time 8)]

/-- The course of the sheet of a page lost in a slot (R49): diverted before its deadline, else SPOILED; JAM told as JAM. -/
def State.lostSheet (sl : Slot) (cause : Nat) (s : State) : State :=
  if cause = lcJam then s.notice sl.sheet 4
  else if s.time < sl.anchor.getD 0 + sl.divert then s.purgeNotice sl.sheet
  else s.notice sl.sheet 3

/-- A page with marks is LOST before its last trailer line has been exposed at every station: no results, and the trailer
stays owed (R134). -/
def State.marksLost (sl : Slot) (s : State) : State :=
  if s.sta.reg.pages.any (fun m => m.page == sl.page) && sl.finished &&& sl.stations != sl.stations then
    let head := (s.sta.reg.pages.head?.map (·.page)) == some sl.page
    let s1 := s.modSta fun q => { q with reg := { q.reg with pages := q.reg.pages.filter (·.page != sl.page) } }
    (s1.wr F.REG_STAT_DUE 1).ifDo head (·.wr F.REG_STAT_OPEN 0)
  else s

/-- One committed page becomes LOST; R55 is applied by `pageLost`. -/
def State.loseCommitted (i : Fin 16) (cause : Nat) (s : State) : State :=
  match s.tl.slots[i] with
  | none => s
  | some sl =>
    match s.page? sl.page with
    | none => s
    | some p =>
      let p := { p with commits := if cause = lcOrder then p.commits - 1 else p.commits }
      let s1 := (s.modPage p.id fun q => { q with commits := p.commits, cause := cause }).codecLost p.id
      let s1 := (s1.modSlot i fun sl => { sl with lostAt := s1.time }).marksLost sl
      let s2 := ((s1.wr (F.PT_SLOT_STATE i.val) 4).wr (F.PT_SLOT_CAUSE i.val) cause).sat F.PT_CNT_B_LOST
      let s3 := (s2.event ptPage 2).lostSheet sl cause
      let again := s.mayReprint p && cause != lcSafe && !p.retireDue
      let s4 := s3.postEvent 0x0006 p.job (pageLostPayload p.id sl.sheet cause p.reprints (b2n !again) s.time)
      if again then (((s4.pageTo p.id .released).modPage p.id fun q => { q with again := true }).toReprint p.id)
      else
        let s5 := (s4.pageTo p.id .lost).modPage p.id fun q => { q with final := true }
        let s6 := s5.modJob p.job fun j => { j with lost := j.lost + 1 }
        let s7 := s6.ifDo (cause != lcSafe && !p.retireDue) (·.event ptPage 3)
        s7.ifDo p.retireDue (·.retire p.id)

/-- REPRINT_ORDER as it was at the start of the tick (Table 2.5). -/
def State.reprintOrder (s : State) : Bool :=
  match s.tl.orderWas with
  | some (t, v) => if t = s.time then v else s.on F.PT_CFG_REPRINT_ORDER
  | none => s.on F.PT_CFG_REPRINT_ORDER

/-- The page-timeline boundary: a pending set applies, PT_ANN_LEAD raised to 6 ms (R39, R59). -/
def State.ptBoundary (s : State) : State :=
  if s.due ptPage then
    let t := (s.modTl fun q => { q with orderWas := some (s.time, s.reprintOrder) }).applyStaged ptPage
    if t.rd F.PT_ANN_LEAD_TICKS < 600000 then t.wr F.PT_ANN_LEAD_TICKS 600000 else t
  else s

/-- With REPRINT_ORDER = 1, every page on the path behind a page that becomes LOST follows it (R55). -/
def State.keepOrder (sheet : Nat) (s : State) : State :=
  if s.reprintOrder then
    let later := (List.finRange 16).filter fun j =>
      match s.tl.slots[j] with
      | some t => decide (sheet < t.sheet)
      | none => false
    let s1 := s.each (later.filter fun j => s.rd (F.PT_SLOT_STATE j.val) == 2) fun j t => t.loseCommitted j lcOrder
    s1.each (later.filter fun j => s1.fedSlots.contains j) fun j t => t.failCommit j 0x80
  else s

/-- A cause of Table 2.4 is raised against a page: the first one makes a committed page LOST, later ones are counted in its
slot (R48); with REPRINT_ORDER = 1 every later page on the path follows (R55). -/
def State.pageLost (i : Fin 16) (cause : Nat) (s : State) : State :=
  match s.tl.slots[i] with
  | none => s
  | some sl =>
    if s.rd (F.PT_SLOT_STATE i.val) = 4 then
      let s1 := s.sat (F.PT_SLOT_EXTRA i.val)
      if sl.lostAt = s.time ∧ cause < s.rd (F.PT_SLOT_CAUSE i.val) then
        (s1.wr (F.PT_SLOT_CAUSE i.val) cause).modPage sl.page fun q => { q with cause := cause }
      else s1
    else if s.rd (F.PT_SLOT_STATE i.val) = 2 then (s.loseCommitted i cause).keepOrder sl.sheet
    else s

/-- A cause raised against several pages in one tick.  A cause with a code below ORDER is recorded for every one of them before
R55 is applied (R48); a higher one leaves ORDER to the pages behind the first. -/
def State.pagesLost (l : List (Fin 16)) (cause : Nat) (s : State) : State :=
  let sheet := fun (i : Fin 16) => ((s.tl.slots[i]).map (·.sheet)).getD 0
  let l := sortBy sheet l
  if cause < lcOrder then
    let due := l.filter fun i => s.rd (F.PT_SLOT_STATE i.val) == 2
    let s1 := s.each l fun i t => if due.contains i then t.loseCommitted i cause else t.pageLost i cause
    s1.each due fun i t => t.keepOrder (sheet i)
  else s.each l fun i t => t.pageLost i cause

/-- Does the holder of role 0x3 find the path ready?  Every channel with an IMG_MASK is in band (R344), the sheet-sensor page
is not JAMMED, and the feeder, where one is named, has reported READY and counts as present (R300, R304). -/
def State.pathFit (s : State) : Bool :=
  let a := s.rd (F.ED_CFG_FEED_ADDR 0)
  ((List.range 12).all fun n => s.rd (F.CM_CFG_IMG_MASK n) == 0 || s.on (F.CM_STAT_IN_BAND n)) &&
    s.rd (H.STATE 0x0A8) != 2 &&
    (a == 0 || (s.modHeard 0 a && bit (s.edMod 0 (Fin.ofNat 16 a)).flags 0 && s.rd (H.STATE 0x0D8) != 3))

/-- The report follows while the role has a holder (Table 17.5). -/
def State.pathReport (s : State) : State :=
  s.ifDo (s.holder 3).isSome fun t => t.modTl fun q => { q with pathReady := s.pathFit }

/-- Every committed page that a station has not finished exposing (R436). -/
def State.stationSlots (s : State) (k : Nat) : List (Fin 16) :=
  s.committedSlots.filter fun i =>
    match s.tl.slots[i] with
    | some sl => bit sl.stations k && !bit sl.finished k
    | none => false

/-- The committed pages a station is exposing now. -/
def State.exposingSlots (s : State) (k : Nat) : List (Fin 16) :=
  (s.stationSlots k).filter fun i =>
    match s.tl.slots[i] with
    | some sl => bit sl.begun k
    | none => false

/-- Does the station expose a committed page? -/
def State.exposing (s : State) (k : Nat) : Bool := !(s.exposingSlots k).isEmpty

/-- The pages a station exposes become LOST. -/
def State.loseExposing (k cause : Nat) (s : State) : State := s.pagesLost (s.exposingSlots k) cause

/-- The pages that any of several stations exposes become LOST, each by one cause. -/
def State.loseExposingOf (l : List Nat) (cause : Nat) (s : State) : State :=
  s.pagesLost (s.committedSlots.filter fun i => l.any fun k => (s.exposingSlots k).contains i) cause

/-- Every page a station still has to expose or is exposing becomes LOST (R436). -/
def State.loseStation (k cause : Nat) (s : State) : State := s.pagesLost (s.stationSlots k) cause

/-- The sheet of a fed page that has lost a separation: blank, to the purge path, and its slot shows LOST (R42, Table 2.12). -/
def State.fedLost (i : Fin 16) (sheet : Nat) (s : State) : State :=
  let s1 := (s.modSlot i fun sl => { sl with blank := true, lostAt := s.time }).sat F.PT_CNT_A_BLANK
  ((s1.wr (F.PT_SLOT_STATE i.val) 4).wr (F.PT_SLOT_CAUSE i.val) lcDecode).purgeNotice sheet

/-- A page loses a stored separation (R42).  It is never reprinted (R54), and with REPRINT_ORDER = 1 the pages on the path
behind a fed one follow it (R55). -/
def State.sepLost (id : Nat) (s : State) : State :=
  match s.page? id with
  | none => s
  | some p =>
    let s1 := s.modPage id fun q => { q with sepLost := true }
    if p.st = .committed then
      match s1.slotOf id with
      | some i => s1.pageLost i lcDecode
      | none => s1
    else if p.st = .defined ∨ p.st = .resident ∨ p.st = .released ∨ p.st = .fed then
      let slot := s1.slotOf id
      let s1 := s1.codecDrop id
      let s2 := match slot with
        | some i => s1.fedLost i (s1.sheetOf id)
        | none => s1
      let s3 := ((s2.dequeue id).pageTo id .lost).modPage id fun q => { q with cause := lcDecode, final := true }
      let s4 := (((s3.sat F.PT_CNT_B_LOST).event ptPage 2).event ptPage 3).modJob p.job fun j => { j with lost := j.lost + 1 }
      (s4.postEvent 0x0006 p.job (pageLostPayload id (s.sheetOf id) lcDecode p.reprints 1 s.time)).ifDo slot.isSome
        (·.keepOrder (s.sheetOf id))
    else s1

/-! ### The device state (R453) -/

/-- Enter a device state: STATE_CHANGE, DEVICE_STATE and a STATE record (R453, R508). -/
def State.devTo (st : Nat) (s : State) : State := (((s.wr (H.STATE 0) st).event 0x000 0).logState st).postState

/-- A commutation channel is off. -/
def State.motorsOff (s : State) : Bool := (List.range 12).all fun n => s.rd (H.STATE (0x0B0 + n)) == 0

/-- READY and RUN follow the jobs, the motors and the timeline (R453). -/
def State.runReady (s : State) : State :=
  if s.dev = stReady && (!s.tl.jobs.isEmpty || !s.motorsOff) then s.devTo stRun
  else if s.dev = stRun && s.tl.jobs.isEmpty && s.motorsOff && s.rd (H.STATE ptPage) = 0 then s.devTo stReady
  else s

/-- A run ends: the timeline is IDLE and nothing more is announced (R35, R52). -/
def State.endRun (s : State) : State := ((s.modTl fun t => { t with emptyRun := 0 }).wr (H.STATE ptPage) 0).runReady

/-- R51: a jam.  Pages fed no earlier than the jammed sheet are lost or requeued; the timeline halts. -/
def State.jamSlots (behind : Fin 16 → Bool) (s : State) : State :=
  let s1 := s.pagesLost (s.committedSlots.filter behind) lcJam
  let s2 := s1.each (s1.fedSlots.filter behind) fun i t => t.failCommit i 0x80
  let s3 := (s2.wr F.PT_CFG_FEED_EN 0).wr (H.STATE ptPage) 2
  (s3.modTl fun t => { t with pathClear := false, emptyRun := 0 }).event ptPage 5

/-- R52: SAFE.  Every committed page is LOST with SAFE before R55 is applied. -/
def State.timelineSafe (s : State) : State :=
  let lost := s.committedSlots
  let s1 := (s.wr F.PT_CFG_FEED_EN 0).each lost fun i t => t.loseCommitted i lcSafe
  (s1.each lost fun i t => t.keepOrder (((s.tl.slots[i]).map (·.sheet)).getD 0)).endRun

end Sys2Proof.Machine
end

