-- ==== Sys2Proof/Machine/MotionBase.lean ====
section
/-!
DEFINITION. The emergency stop of a stepper channel and the levels of the sheet-sensor inputs (R309, R315, R328): what
jams, limits, SAFE and isolation need.
-/
namespace Sys2Proof.Machine

def stpPage (n : Nat) : Nat := 0x090 + n
def ssPage : Nat := 0x0A8

/-- The sample slot an instant lies in. -/
def sampleOf (t : Nat) : Nat := t / 1000

/-- Homing states of Table 12.1. -/
def hNone : Nat := 0
def hClear : Nat := 1
def hSearch : Nat := 2
def hRsearch : Nat := 3
def hBack : Nat := 4
def hDone : Nat := 5
def hFail : Nat := 6

def State.modStp (n : Fin 16) (f : Stepper → Stepper) (s : State) : State :=
  { s with mo := { s.mo with steppers := s.mo.steppers.set n (f s.mo.steppers[n]) } }

def State.modSensor (i : Fin 64) (f : Sensor → Sensor) (s : State) : State :=
  { s with mo := { s.mo with sensors := s.mo.sensors.set i (f s.mo.sensors[i]) } }

def State.stp (s : State) (n : Fin 16) : Stepper := s.mo.steppers[n]

def State.homing (s : State) (n : Nat) : Bool :=
  let h := s.rd (F.STP_STAT_HSTATE n)
  h == hClear || h == hSearch || h == hRsearch || h == hBack

/-- PG_STAT.STATE of a channel (R330). -/
def State.stpState (n : Fin 16) (s : State) : State :=
  let q := s.stp n
  s.wr (H.STATE (stpPage n)) (if s.on (F.STP_CFG_SRC n) then 4 else if s.homing n then 2 else if q.vel = 0 then 0
    else if q.estop || s.rd (F.STP_MODE_MODE n) == 0 then 3 else 1)

/-- MODE 0 in the active set and in the staging set. -/
def State.modeZero (n : Nat) (s : State) : State :=
  let f := F.STP_MODE_MODE n
  (s.wr f 0).ifDo (Sparse.get? f.key s.stg).isSome (·.stgWr f 0)

/-- Homing is abandoned (Table 12.1). -/
def State.homeAbandon (n : Nat) (s : State) : State :=
  if s.homing n then (s.wr (F.STP_STAT_HSTATE n) hNone).wr (F.STP_STAT_HOMED n) 0 else s

/-- R315: MODE 0, the channel decelerates at EDEC, homing is abandoned and the stop is counted. -/
def State.stpStop (n : Fin 16) (s : State) : State :=
  let s1 := ((s.modeZero n).homeAbandon n).sat (F.STP_CNT_ESTOPS n)
  (s1.modStp n fun q => { q with estop := true, brake := false }).stpState n

/-- Every channel of the path up to a zone stops (R326). -/
def State.stopZones (z : Nat) (s : State) : State :=
  s.each ((List.finRange 16).filter fun (n : Fin 16) => s.rd (F.STP_CFG_ZONE n) != 15 && decide (s.rd (F.STP_CFG_ZONE n) ≤ z)) fun n t => t.stpStop n

/-- Is an input active?  0x7F names none (R317). -/
def State.inputActive (s : State) (i : Nat) : Bool := i < 64 && s.on (F.SS_IN_STAT_LEVEL i)

/-- Inputs of the paper path. -/
def State.inPath (s : State) (i : Nat) : Bool := if i < 32 then bit (s.rd F.SS_PATH_LO) i else bit (s.rd F.SS_PATH_HI) (i - 32)

/-- Is every path sensor inactive? -/
def State.pathEmpty (s : State) : Bool := (List.range 64).all fun i => !(s.inPath i && s.on (F.SS_IN_STAT_LEVEL i))

/-- PATH_CLEAR falls with an active path sensor; its interval starts when all are inactive (R328). -/
def State.pathLevel (s : State) : State :=
  if s.pathEmpty then
    match s.mo.clearAt with
    | some _ => s
    | none => { s with mo := { s.mo with clearAt := some s.time } }
  else ({ s with mo := { s.mo with clearAt := none } }).wr F.SS_STAT_PATH_CLEAR 0

/-- LEVEL follows the pin and the polarity (R309). -/
def State.levelReg (i : Fin 64) (s : State) : State :=
  s.flag (F.SS_IN_STAT_LEVEL i) (s.mo.sensors[i].high != s.on (F.SS_IN_CFG_POL i))

/-- A page is tracked from its feed gate until it is DELIVERED, LOST or requeued (R325). -/
def State.tracked (s : State) : List (Fin 16) :=
  ((List.finRange 16).filter fun i =>
    match s.tl.slots[i] with
    | some sl => !sl.blank && (s.rd (F.PT_SLOT_STATE i.val) == 1 || s.rd (F.PT_SLOT_STATE i.val) == 2)
    | none => false)

/-- PG_STAT.STATE of the sheet-sensor page while it is not JAMMED (R332). -/
def State.trackState (s : State) : State :=
  s.ifDo (s.rd (H.STATE ssPage) != 2) (·.wr (H.STATE ssPage) (b2n (!s.tracked.isEmpty)))

end Sys2Proof.Machine
end

