-- ==== Sys2Proof/Machine/LegacyBase.lean ====
section
/-!
DEFINITION. The interrupt line, the error register and the fault report of the ZE-40 personality (R476, R478, Table 19.6).
-/
namespace Sys2Proof.Machine

/-- The value of a ZE-40 field that the emulation has applied; the register image of the host bus lies beside it on
pseudo-page 0x1000. -/
def zNow (f : Fld) : Fld := { f with page := 0x1001 }

/-- A station field as written and applied, for the next page to be submitted (class S, R481). -/
def zNext (f : Fld) : Fld := { f with page := 0x1002 }

def State.modLg (f : Legacy → Legacy) (s : State) : State := { s with lg := f s.lg }

/-- Is LG_INT_N to be low (R478)? -/
def State.zLow (s : State) : Bool := s.on (zNow F.ZCTRL_INT_EN) && (s.rd F.ZINT_EV &&& s.rd (zNow F.ZINT_EN_EN)) != 0

/-- LG_INT_N follows. -/
def State.zLine (s : State) : State :=
  if s.zLow = s.lg.intLow then s else (s.modLg fun l => { l with intLow := s.zLow }).emit (.legacyInt s.zLow)

/-- The emulation sets a ZINT bit; a further enabled one while the line is low pulses it high (R478).  The mark keeps it set
against a clear in the same tick (Table 19.11). -/
def State.zint (i : Nat) (s : State) : State :=
  let s1 := s.mark 0x1000 i
  if bit (s.rd F.ZINT_EV) i then s1
  else
    let s2 := s1.wr F.ZINT_EV (s.rd F.ZINT_EV + 2 ^ i)
    (s2.ifDo (s.lg.intLow && bit (s.rd (zNow F.ZINT_EN_EN)) i) (·.emit .legacyPulse)).zLine

/-- An error of Table 19.7: the latest code, and the count since the last read. -/
def State.zerr (code : Nat) (s : State) : State := (s.wr F.ZERR_CODE code).sat F.ZERR_COUNT

/-- A raise that the supervisor reports at MINOR or above (below Table 19.6). -/
def State.zFault (src sev : Nat) (s : State) : State := ((s.wr F.ZDIAG_SRC src).wr F.ZDIAG_SEV sev).zint 6

end Sys2Proof.Machine
end

