-- ==== Sys2Proof/Machine/BeamBase.lean ====
section
/-!
DEFINITION. The lock state of a station's polygon as its commutation channel and the other blocks see it (R80, Table 3.4).
-/
namespace Sys2Proof.Machine

def btPage (k : Nat) : Nat := 0x020 + k

/-- Lock states of Table 3.4. -/
def btStopped : Nat := 0
def btSpeed : Nat := 1
def btIndex : Nat := 2
def btPull : Nat := 3
def btLocked : Nat := 4

def State.btState (s : State) (k : Nat) : Nat := s.rd (H.STATE (btPage k))

def State.beam (s : State) (k : Fin 6) : Beam := s.sta.beams[k]

def State.modBeam (k : Fin 6) (f : Beam → Beam) (s : State) : State :=
  s.modSta fun q => { q with beams := q.beams.set k (f q.beams[k]) }

/-- A station falls to SPEED: detects are counted anew (Table 3.4). -/
def State.btToSpeed (k : Fin 6) (s : State) : State :=
  (s.modBeam k fun b => { b with accRun := 0, lockRun := 0, awayRun := 0 }).wr (H.STATE (btPage k)) btSpeed

/-- The polygon has stopped or left its speed band: STOPPED, acc = 0, facet unknown; LOCKED left while a page is exposed is
cause SPEED_BAND (R80). -/
def State.btStop (k : Fin 6) (s : State) : State :=
  let s1 := s.ifDo (s.btState k == btLocked) (·.loseExposing k lcSpeedBand)
  (s1.modBeam k fun b => { b with acc := 0, facetSet := false, idxPend := false, idxCount := none, begun := false,
                                  accRun := 0, lockRun := 0, awayRun := 0 }).wr (H.STATE (btPage k)) btStopped

/-! ### External polygons of the ZE-40 personality (R491, R492) -/

/-- Does an external driver turn the station's polygon? -/
def State.extPoly (s : State) (k : Nat) : Bool := s.ze40 && decide (k < 4) && s.on (zNow (F.ZPREF_EXT k))

/-- FREF_INC for a polygon speed in rpm (R491). -/
def zFref (rpm facets : Nat) : Nat := (2 * 2 ^ 40 * rpm * facets + 6000000000) / 12000000000

/-- REF_INC of R491 with the trim in force. -/
def State.zRefInc (s : State) (k : Fin 4) : Nat :=
  let facets := s.rd (zNow F.ZPOLY_FACETS_FACETS)
  let fref := zFref (2 * s.rd (zNow F.ZPOLY_RPM_RPM)) facets
  let num : Int := fref * (s.rd (zNow (F.ZPREF_PPR k))) * (1000000 + (s.beam (k.castLE (by omega))).trim)
  if facets = 0 then Config.divByZero num.toNat else (2 * num.toNat + facets * 1000000) / (2 * facets * 1000000)

def State.modPoly (k : Fin 4) (f : ZPoly → ZPoly) (s : State) : State :=
  { s with lg := { s.lg with polys := s.lg.polys.set k (f s.lg.polys[k]) } }

/-- Bring the 40-bit accumulator up to the present tick; a wrap begins a period of the reference. -/
def State.zRefStep (k : Fin 4) (s : State) : State :=
  let p := s.lg.polys[k]
  if p.run then
    let a := p.acc + s.zRefInc k * (s.time - p.at_)
    let s1 := s.modPoly k fun q => { q with acc := a % 2 ^ 40, at_ := s.time }
    if 2 ^ 40 ≤ a then { s1 with ct := { s1.ct with starts := s1.ct.starts.set (88 + k.val) s.time (by omega) } } else s1
  else s

/-- A commutation channel reports its polygon inside or outside the speed band to the stations that name it (R80). -/
def State.polyBand (n : Nat) (inBand : Bool) (s : State) : State :=
  s.each ((List.finRange 6).filter fun (k : Fin 6) => s.hasStation k && s.rd (F.BT_CFG_POLY_CH k.val) == n && !s.extPoly k) fun (k : Fin 6) t =>
    if inBand then (if t.btState k = btStopped then t.btToSpeed k else t)
    else if t.btState k = btStopped then t else t.btStop k

/-- Stations whose beam timing names a channel as their polygon. -/
def State.polyOf (s : State) (n : Nat) : List (Fin 6) :=
  (List.finRange 6).filter fun (k : Fin 6) => s.hasStation k && s.rd (F.BT_CFG_POLY_CH k.val) == n && !s.extPoly k

end Sys2Proof.Machine
end

