-- ==== Sys2Proof/Machine/Trig.lean ====
section
/-!
DEFINITION. Integer square roots, and the cosine the manual's formulas name, computed in fixed point with 48 fraction bits.
-/
namespace Sys2Proof.Machine

/-- One bit of an integer square root: `2^i` joins the root if its square still fits. -/
def isqrtStep (x r i : Nat) : Nat := if (r + 2 ^ i) * (r + 2 ^ i) ≤ x then r + 2 ^ i else r

/-- The bits below `2^n` of a root. -/
def isqrtBits (x : Nat) : Nat → Nat → Nat
  | 0, r => r
  | n + 1, r => isqrtBits x n (isqrtStep x r n)

/-- `isqrt(x)`, the largest integer whose square is at most `x`. -/
def isqrt (x : Nat) : Nat := isqrtBits x (Nat.log2 x / 2 + 1) 0

/-- One in fixed point. -/
def fx1 : Int := 2 ^ 48

def fxMul (a b : Int) : Int := a * b / fx1

/-- A Taylor series with the terms `t`, `-t x²/(i(i+1))`, … summed `n` times. -/
def fxSeries (x2 : Int) : Nat → Int → Int → Int
  | 0, _, _ => 0
  | n + 1, i, t => t + fxSeries x2 n (i + 2) (-(fxMul t x2 / (i * (i + 1))))

/-- Cosine and sine of an angle in fixed point, at most π/4. -/
def fxCos (x : Int) : Int := fxSeries (fxMul x x) 12 1 fx1
def fxSin (x : Int) : Int := fxSeries (fxMul x x) 12 2 x

/-- π in fixed point. -/
def fxPi : Int := 884279719003555

/-- cos(2π k/1024) for k in 0–256, in fixed point. -/
def cosQuarter (k : Nat) : Int :=
  if k ≤ 128 then fxCos (k * fxPi / 512) else fxSin (((256 : Int) - k) * fxPi / 512)

/-- Rounding to the nearest integer, halves away from zero. -/
def fxRound (v : Int) : Int := if 0 ≤ v then (2 * v + fx1) / (2 * fx1) else -((-2 * v + fx1) / (2 * fx1))

/-- round(1023 · cos(2π th/1024)) (R312). -/
def cos1023 (th : Nat) : Int :=
  let t := th % 1024
  if t ≤ 256 then fxRound (1023 * cosQuarter t)
  else if t ≤ 512 then -fxRound (1023 * cosQuarter (512 - t))
  else if t ≤ 768 then -fxRound (1023 * cosQuarter (t - 512))
  else fxRound (1023 * cosQuarter (1024 - t))

/-- round(1023 · sin(2π th/1024)). -/
def sin1023 (th : Nat) : Int := cos1023 (th + 768)

end Sys2Proof.Machine
end

