-- ==== Sys2Proof/Machine/MotorBase.lean ====
section
/-!
DEFINITION. A commutation channel's states, band and applied torque (13): what the commands of the channels, the loop
engines, isolation and SAFE share.  Faults are latched here; the command runs the collector's reactions at its end.
-/
namespace Sys2Proof.Machine

def cmPage (n : Nat) : Nat := 0x0B0 + n
def mbPage : Nat := 0x0BC

/-- Channel states of Table 13.2. -/
def cmOff : Nat := 0
def cmQueued : Nat := 1
def cmListen : Nat := 2
def cmWaitSlow : Nat := 3
def cmAlign : Nat := 4
def cmOpenLoop : Nat := 5
def cmRun : Nat := 6
def cmStopping : Nat := 7
def cmTripped : Nat := 8

def State.modMotor (n : Fin 12) (f : Motor → Motor) (s : State) : State :=
  { s with ct := { s.ct with motors := s.ct.motors.set n (f s.ct.motors[n]) } }

def State.modGroup (g : Fin 2) (f : BusGroup → BusGroup) (s : State) : State :=
  { s with ct := { s.ct with groups := s.ct.groups.set g (f s.ct.groups[g]) } }

def State.motor (s : State) (n : Fin 12) : Motor := s.ct.motors[n]

def State.cmState (s : State) (n : Nat) : Nat := s.rd (H.STATE (cmPage n))

/-- The motor-bus group of a channel. -/
def State.cmGroup (s : State) (n : Nat) : Fin 2 := Fin.ofNat 2 (s.rd (F.CM_CFG_GROUP n))

/-- REV_THRESH in mrpm (R342). -/
def State.revThresh (s : State) (n : Nat) : Nat := s.rd (F.CM_REV_REV_THRESH n) * s.rd (F.CM_REV_RATED n)

/-- A channel enters a state; the device follows it to RUN or READY (R346, R453). -/
def State.cmTo (n : Fin 12) (v : Nat) (s : State) : State :=
  ((s.modMotor n fun m => { m with since := s.time }).wr (H.STATE (cmPage n)) v).runReady

/-- All six gates off: no torque (R346). -/
def State.gatesOff (n : Fin 12) (s : State) : State :=
  (s.modMotor n fun m => { m with drive := .off, duty := 0 }).wr (F.CM_STAT_TORQUE n) 0

/-- A channel enters its band (R344). -/
def State.bandEnter (n : Fin 12) (s : State) : State :=
  (((s.wr (F.CM_STAT_IN_BAND n) 1).event (cmPage n) 0).polyBand n true).pathReport

/-- A channel leaves its band (R344): with an IMG_MASK, BAND_LOSS and cause SPEED_BAND against the pages being exposed. -/
def State.bandLeave (n : Fin 12) (s : State) : State :=
  if s.on (F.CM_STAT_IN_BAND n) then
    let s1 := (s.wr (F.CM_STAT_IN_BAND n) 0).event (cmPage n) 1
    let mask := s1.rd (F.CM_CFG_IMG_MASK n)
    let s2 := s1.ifDo (mask != 0) fun t =>
      (t.each ((List.range 6).filter fun k => bit mask k) fun k u => u.loseExposing k lcSpeedBand).latch (168 + n) (cmPage n) 4 0 none
    (s2.polyBand n false).pathReport
  else s

/-- Leaving RUN: gates off, no torque, out of band at once, a probe ends (R343, R344). -/
def State.cmLeave (n : Fin 12) (s : State) : State :=
  (((s.gatesOff n).modMotor n fun m => { m with outRun := 0, probe := none, keDue := false, due := none }).wr (F.CM_REF_SPEED n) 0).bandLeave n

/-- The channel goes OFF at once. -/
def State.cmToOff (n : Fin 12) (s : State) : State :=
  let s1 := s.modGroup (s.cmGroup n) fun q => { q with queue := q.queue.filter (·.1 != n.val) }
  ((s1.modMotor n fun m => { m with ramp := 0, restart := false }).cmLeave n).cmTo n cmOff

/-- A torque command in RUN (R343): the sign of rotation motors, the opposite sign brakes, unless REGEN_OFF lets it coast. -/
def State.torque (n : Fin 12) (v : Int) (s : State) : State :=
  if s.cmState n != cmRun || (s.motor n).probe.isSome || s.on (H.ISOLATED (cmPage n)) then s.gatesOff n
  else
    let c := clampInt (-32768) 32767 v
    let opposite := decide (c * s.rdS (F.CM_SPEED_SPEED n) < 0)
    let c := if opposite && s.on (F.CM_STAT_REGEN_OFF n) then 0 else c
    (s.modMotor n fun m => { m with
      drive := if c = 0 then .off else if opposite then .regen else .motor
      duty := c.natAbs * s.rd (F.CM_DRIVE_DUTY_MAX n) / 65536 }).wrS (F.CM_STAT_TORQUE n) c

/-- A clear of MOTOR_KE_LOW or MOTOR_KE_HIGH waits for an estimate inside ±15 % (R350). -/
def State.keOutside (s : State) (n : Nat) : Bool :=
  let e := 100 * s.rd (F.CM_KE_EST_EST n)
  let nom := s.rd (F.CM_KE_NOM n)
  decide (e < 85 * nom) || decide (115 * nom < e)

/-- Every channel coasts (R434). -/
def State.motorsSafe (s : State) : State :=
  s.each ((List.finRange 12).filter fun (n : Fin 12) => s.cmState n != cmOff) fun n t => t.cmToOff n

end Sys2Proof.Machine
end

