-- ==== Sys2Proof/Machine/LoopBase.lean ====
section
/-!
DEFINITION. Loop slots: what they apply to their destinations, their bands, and HELD (14).  Faults are latched here; the
command runs the collector's reactions at its end.
-/
namespace Sys2Proof.Machine

def lePage (e : Nat) : Nat := 0x0C0 + e
def adcPage : Nat := 0x0C4
def pwmPage : Nat := 0x0C5

/-- Slot states of Table 14.3. -/
def slOff : Nat := 0
def slManual : Nat := 1
def slAuto : Nat := 2
def slHeld : Nat := 3

/-- Causes of SL_STAT.CAUSE. -/
def caRange : Nat := 1
def caUncorr : Nat := 2
def caRef : Nat := 3
def caSafe : Nat := 4
def caIsolated : Nat := 5

def State.slot (s : State) (e : Fin 4) (i : Fin 32) : LoopSlot := (s.ct.slots[e])[i]

def State.modLoop (e : Fin 4) (i : Fin 32) (f : LoopSlot → LoopSlot) (s : State) : State :=
  { s with ct := { s.ct with slots := s.ct.slots.set e ((s.ct.slots[e]).set i (f (s.ct.slots[e])[i])) } }

def State.slState (s : State) (e : Fin 4) (i : Fin 32) : Nat := s.rd (F.SL_STAT_STATE e i)

/-- Every slot of every engine. -/
def allSlots : List (Fin 4 × Fin 32) := (List.finRange 4).flatMap fun e => (List.finRange 32).map fun i => (e, i)

/-- A value to the slot's destination (R364): a generator's next duty, or a torque at once. -/
def State.slotApply (e : Fin 4) (i : Fin 32) (v : Int) (s : State) : State :=
  let num := s.rd (F.SL_OUT_NUM e i)
  match s.rd (F.SL_OUT_DST e i) with
  | 1 =>
    if num < 96 then
      { s with ct := { s.ct with duties := s.ct.duties.set (Fin.ofNat 96 num) (clampInt 0 65535 v).toNat } }
    else s
  | 2 => if num < 12 then s.torque (Fin.ofNat 12 num) v else s
  | _ => s

/-- PG_STAT.STATE and LE_HELD of an engine follow its slots (R382). -/
def State.leRegs (e : Fin 4) (s : State) : State :=
  let run := (List.finRange 32).any fun (i : Fin 32) => s.slState e i != slOff
  let held := (List.finRange 32).foldl (fun w (i : Fin 32) => if s.slState e i = slHeld then w + 2 ^ i.val else w) 0
  (s.wr (H.STATE (lePage e)) (b2n run)).wr (F.LE_HELD_SLOTS e) held

def State.slTo (e : Fin 4) (i : Fin 32) (v : Nat) (s : State) : State := (s.wr (F.SL_STAT_STATE e i) v).leRegs e

/-- A marked slot leaves its band (R371). -/
def State.slotBandLeave (e : Fin 4) (i : Fin 32) (s : State) : State :=
  if s.on (F.SL_STAT_IN_BAND e i) then
    let s1 := ((s.wr (F.SL_STAT_IN_BAND e i) 0).event (lePage e) 2).modLoop e i fun q => { q with bandIn := 0, bandOut := 0 }
    match s.rd (F.SL_OUT_GATE e i) with
    | 1 =>
      let mask := s.rd (F.SL_OUT_STN_MASK e i)
      (s1.each ((List.range 6).filter fun k => bit mask k) fun k t => t.loseExposing k lcHv).latch 196 (lePage e) 3 0 none
    | 2 => s1.latch 197 (lePage e) 4 0 none
    | _ => s1
  else s.modLoop e i fun q => { q with bandIn := 0, bandOut := 0 }

/-- SL_STAT.CAUSE shows the lowest active cause. -/
def State.causeReg (e : Fin 4) (i : Fin 32) (s : State) : State :=
  let c := (s.slot e i).causes
  s.wr (F.SL_STAT_CAUSE e i) (if s.slState e i = slHeld then ((List.range 6).find? fun b => bit c b).getD 0 else 0)

/-- SL_FAIL at once, unslewed; an output held for FIXLAT is dropped. -/
def State.slotFail (e : Fin 4) (i : Fin 32) (s : State) : State :=
  let v := s.rdS (F.SL_FAIL e i)
  ((s.modLoop e i fun q => { q with heldOut := [] }).wrS (F.SL_OUTV e i) v).slotApply e i v

/-- SL_FAIL or SL_OUT has changed: in OFF and HELD the destination receives SL_FAIL (Table 14.3). -/
def State.failDriven (e : Fin 4) (i : Fin 32) (s : State) : State :=
  s.ifDo (s.slState e i == slOff || s.slState e i == slHeld) (·.slotFail e i)

/-- A cause becomes active: MANUAL and AUTO go to HELD (Table 14.3). -/
def State.slotHold (e : Fin 4) (i : Fin 32) (cause : Nat) (s : State) : State :=
  let st := s.slState e i
  if st = slOff then s
  else
    let s1 := s.modLoop e i fun q => { q with causes := q.causes ||| 2 ^ cause, release := false }
    if st = slHeld then s1.causeReg e i
    else (((s1.slotBandLeave e i).slTo e i slHeld).slotFail e i).event (lePage e) 0 |>.causeReg e i

/-- A cause ends. -/
def State.slotFree (e : Fin 4) (i : Fin 32) (cause : Nat) (s : State) : State :=
  (s.modLoop e i fun q => { q with causes := q.causes &&& (63 - 2 ^ cause) }).causeReg e i

/-- OFF: no computation, SL_FAIL at the destination (Table 14.3). -/
def State.slotOff (e : Fin 4) (i : Fin 32) (s : State) : State :=
  (((s.slotBandLeave e i).modLoop e i fun q => { q with causes := 0, release := false }).slTo e i slOff).slotFail e i |>.causeReg e i

/-- SAFE: every slot is held (R373, R434). -/
def State.loopsSafe (s : State) : State := s.each allSlots fun (p : Fin 4 × Fin 32) t => t.slotHold p.1 p.2 caSafe

/-- Isolation of an engine (R373, R374). -/
def State.loopIsolate (e : Fin 4) (s : State) : State := s.each (List.finRange 32) fun (i : Fin 32) t => t.slotHold e i caIsolated

/-- Does another slot, of an engine that is not isolated, drive the destination (R374, R375)? -/
def State.drivenElsewhere (s : State) (e : Fin 4) (i : Fin 32) (dst num : Nat) : Bool :=
  (dst == 1 || dst == 2) && allSlots.any fun p =>
    p != (e, i) && !s.on (H.ISOLATED (lePage p.1)) && s.rd (F.SL_OUT_DST p.1 p.2) == dst && s.rd (F.SL_OUT_NUM p.1 p.2) == num

/-- Restore of an engine: a slot whose destination another slot now drives enters OFF, its MODE 0; the others stay HELD
without the cause (R374). -/
def State.loopRestore (e : Fin 4) (s : State) : State :=
  s.each (List.finRange 32) fun (i : Fin 32) t =>
    if s.drivenElsewhere e i (s.rd (F.SL_OUT_DST e i)) (s.rd (F.SL_OUT_NUM e i)) then
      ((((t.wr (F.SL_MODE_MODE e i) 0).modLoop e i fun q => { q with causes := 0, heldOut := [] }).slTo e i slOff).wrS
        (F.SL_OUTV e i) (t.rdS (F.SL_FAIL e i))).causeReg e i
    else t.slotFree e i caIsolated

/-- The reference of a converter is bad (R378): its slots are held, or set free. -/
def State.slotsOfConverter (s : State) (c : Nat) : List (Fin 4 × Fin 32) :=
  allSlots.filter fun p => s.rd (F.SL_IN_KIND p.1 p.2) == 1 && s.rd (F.SL_IN_NUM p.1 p.2) / 12 == c

end Sys2Proof.Machine
end

