-- ==== Sys2Proof/Machine/StationBase.lean ====
section
/-!
DEFINITION. What the rest of the device does to a station: QUENCH and the commands to its head, the start of link training,
and the end of its feeds (R143, R153, R159, R436).
-/
namespace Sys2Proof.Machine

def ilPage (k : Nat) : Nat := 0x028 + k
def imPage (k : Nat) : Nat := 0x030 + k
def hlPage (k : Nat) : Nat := 0x038 + k
def ejPage (j : Nat) : Nat := 0x051 + j

/-- States of a head link (R167). -/
def hlDown : Nat := 0
def hlTraining : Nat := 1
def hlUp : Nat := 2
def hlNotReady : Nat := 3
def hlFailed : Nat := 4

/-- States of an interlace block (R111). -/
def ilIdle : Nat := 0
def ilExposing : Nat := 1
def ilTesting : Nat := 2
def ilQuenched : Nat := 3

def State.link (s : State) (k : Fin 6) : Link := s.sta.links[k]
def State.ilace (s : State) (k : Fin 6) : Ilace := s.sta.ilaces[k]
def State.ring (s : State) (k : Fin 6) : Ring := s.sta.rings[k]
def State.feedsOf (s : State) (k : Fin 6) : List Feed := s.sta.feeds[k]
def State.hlState (s : State) (k : Nat) : Nat := s.rd (H.STATE (hlPage k))

def State.modLink (k : Fin 6) (f : Link → Link) (s : State) : State :=
  s.modSta fun q => { q with links := q.links.set k (f q.links[k]) }

def State.modIlace (k : Fin 6) (f : Ilace → Ilace) (s : State) : State :=
  s.modSta fun q => { q with ilaces := q.ilaces.set k (f q.ilaces[k]) }

def State.modRing (k : Fin 6) (f : Ring → Ring) (s : State) : State :=
  s.modSta fun q => { q with rings := q.rings.set k (f q.rings[k]) }

def State.modFeeds (k : Fin 6) (f : List Feed → List Feed) (s : State) : State :=
  s.modSta fun q => { q with feeds := q.feeds.set k (f q.feeds[k]) }

/-! ### Commands to the head (R143, R144) -/

/-- COMMAND opcodes of Table 6.3. -/
def hcNop : Nat := 0x01
def hcLaneMap : Nat := 0x02
def hcTurn : Nat := 0x03
def hcTest : Nat := 0x10
def hcIsolate : Nat := 0x11
def hcRestore : Nat := 0x12
def hcQuenchOff : Nat := 0x20

/-- Send a command with a new tag, while the link has lanes to send it on; its ACK is awaited (R144).  TEST_EMITTER is
answered by its result. -/
def State.headSend (k : Fin 6) (cmd arg : Nat) (s : State) : State :=
  let st := s.hlState k
  if st = hlDown ∨ st = hlFailed then s
  else
    let tag := ((s.link k).tag + 1) % 256
    let s1 := s.modLink k fun q => { q with
      tag := tag, cmds := if cmd = hcTest then q.cmds else q.cmds ++ [⟨cmd, arg, tag, 0, s.time, 0⟩] }
    s1.emit (.headCmd k cmd tag arg)

/-! ### QUENCH (R159) -/

/-- What keeps QUENCH in force: a cut, isolation of the head link, SAFE. -/
def State.quenchHeld (s : State) (k : Fin 6) : Bool :=
  (s.ilace k).cut || s.on (H.ISOLATED (hlPage k)) || s.isSafe

/-- QUENCH is put in force: the frame goes out and any packet is abandoned. -/
def State.quenchOn (k : Fin 6) (s : State) : State :=
  if s.on (F.HL_STAT_QUENCH k) then s
  else
    let s1 := (s.wr (F.HL_STAT_QUENCH k) 1).modLink k fun q => { q with quenchAt := s.time, waiting := none }
    let s2 := s1.modBeam k fun b => { b with strobe := false }
    (s2.emit (.headQuench k)).event (hlPage k) 5

/-- QUENCH is withdrawn once nothing holds it. -/
def State.quenchOff (k : Fin 6) (s : State) : State :=
  if s.on (F.HL_STAT_QUENCH k) && !s.quenchHeld k then (s.wr (F.HL_STAT_QUENCH k) 0).headSend k hcQuenchOff 0 else s

/-- Every head is quenched (R434). -/
def State.headsSafe (s : State) : State :=
  s.each ((List.finRange 6).filter fun (k : Fin 6) => s.hasStation k) fun k t => t.quenchOn k

/-! ### Training (R153) -/

/-- The highest lane up to lane n that has not failed its Assay. -/
def goodLane (lasting : Nat) : Nat → Nat
  | 0 => 0
  | n + 1 => if bit lasting (n + 1) then goodLane lasting n else n + 1

/-- Training starts: PRBS31 on every lane; a page being exposed is LOST with cause LINK. -/
def State.trainStart (k : Fin 6) (s : State) : State :=
  let s1 := (s.loseExposing k lcLink).ifDo (s.hlState k == hlUp) (·.event (hlPage k) 1)
  let s2 := (s1.wr (H.STATE (hlPage k)) hlTraining).wr (F.HL_STAT_HEAD_READY k) 0
  (s2.modLink k fun q => { q with
    began := s.time, lane := goodLane q.lasting 8, laneAt := s.time, cmds := [], turnAt := none, seen := false, map := none, failed := 0, errors := [], waiting := none
    unlocked := Vector.replicate 9 0, heard := s.time }).emit (.headPrbs k)

/-- A fresh training, with its three attempts. -/
def State.train (k : Fin 6) (s : State) : State :=
  ((s.modLink k fun q => { q with tries := 0 }).sat (F.HL_CNT_B_TRAIN k)).trainStart k

/-! ### Head temperature (R106, R109) -/

/-- Does a threshold pair agree (R106)? -/
def State.thermGood (s : State) (k : Nat) : Bool :=
  let w := s.rd (F.IL_THERM_WARN k)
  let c := s.rd (F.IL_THERM_CUT k)
  if s.on (F.IL_THERM2_POL k) then decide (c < w) else decide (w < c)

/-- WARN in use: the register's while the pair is consistent, else the last consistent one (R17). -/
def State.warnUsed (s : State) (k : Fin 6) : Nat :=
  if s.thermGood k then s.rd (F.IL_THERM_WARN k.val) else (s.ilace k).pairWarn

/-- The last sample lies on the cool side of WARN by more than HYST (R107, R109). -/
def State.headCool (s : State) (k : Fin 6) : Bool :=
  let t := s.rd (F.IL_THERM_STAT_TEMP k.val)
  let h := s.rd (F.IL_THERM2_HYST k.val)
  if s.on (F.IL_THERM2_POL k.val) then decide (s.warnUsed k + h < t) else decide (t + h < s.warnUsed k)

/-- Do the conditions of R109 and R160 for the end of a cut hold? -/
def State.cutOver (s : State) (k : Fin 6) : Bool :=
  (s.ilace k).cut && !bit (s.rd (H.FLT (ilPage k))) 5 && s.headCool k && !s.on (F.HL_STAT_OWN_CUT k.val)

/-- The cut ends and QUENCH is withdrawn, unless something else holds it (R109). -/
def State.cutEnd (k : Fin 6) (s : State) : State :=
  let s1 := (s.modIlace k fun q => { q with cut := false, release := false }).wr (F.IL_THERM_STAT_CUT k.val) 0
  let st := if s1.on (F.IL_TEST_STAT_RUNNING k.val) then ilTesting
    else if (s1.feedsOf k).any (·.started) then ilExposing else ilIdle
  ((s1.wr (H.STATE (ilPage k)) st).event (ilPage k) 10).quenchOff k

/-- Withdraw at the next scan, or at once in STOPPED, where there are no scans (R109). -/
def State.quenchTry (k : Fin 6) (s : State) : State :=
  if s.cutOver k then
    if s.rd (H.STATE (0x020 + k.val)) = 0 then s.cutEnd k else s.modIlace k fun q => { q with release := true }
  else s.modIlace k fun q => { q with release := false }

/-! ### The end of a station's work (R436) -/

/-- The feeds of a station end, its ring is empty and its contexts close. -/
def State.stationClear (k : Fin 6) (s : State) : State :=
  let s1 := ((s.modFeeds k fun _ => []).modRing k fun _ => ⟨none, 0, 0, 0, 0⟩).modBeam k fun b => { b with strobe := false }
  let s1 := s1.modSta fun q => { q with binds := q.binds.set k ((q.binds[k]).map fun (b : Bind) => { b with slot := none }) }
  let s1 := s1.modLink k fun q => { q with spans := q.spans.map fun (x : Span) =>
    { x with last := some (x.last.getD (s1.rd (F.BT_SCAN_COUNT k.val))) } }
  let s1 := s1.ifDo (s1.rd (H.STATE (ilPage k)) == ilExposing) (·.wr (H.STATE (ilPage k)) ilIdle)
  let mine := (List.finRange 24).filter fun (x : Fin 24) => s.on (F.CTX_OPEN x) && s.rd (F.CTX_STATION x) == k.val
  (s1.each mine fun x t => t.ctxClose x).codecRegs

/-- An encode job fails: the word at EJ_DST is 0, the length 0 (R183). -/
def State.ejFail (j : Fin 2) (status : Nat) (s : State) : State :=
  let dst := s.rd (F.EJ_DST_HI j) * 2 ^ 32 + s.rd (F.EJ_DST_LO j)
  let s1 := s.ifDo (dst % 8 == 0 && s.inMemory dst 8) (·.memPut dst 0)
  let s2 := ((s1.wr (F.EJ_RESULT_LEN j) 0).wr (F.EJ_STAT_STATUS j) status).wr (H.STATE (ejPage j)) 0
  (s2.wr F.CDC_STAT_ENC_BUSY (s2.rd F.CDC_STAT_ENC_BUSY &&& (3 - 2 ^ j.val))).event (ejPage j) 1

/-- A decode lane is isolated: its block is restarted from its header on another lane (R186). -/
def State.laneIsolate (n : Nat) (s : State) : State :=
  match (List.finRange 24).find? fun (x : Fin 24) => s.on (F.CTX_OPEN x) && s.rd (F.CTX_LANE x) == n with
  | some x => ((s.ctxIdle x).modCtx x fun c => { c with again := true }).codecRegs
  | none => s

end Sys2Proof.Machine
end

