-- ==== Sys2Proof/Machine/BlockSafe.lean ====
section
/-!
DEFINITION. The safe state of each block: what isolation (R436) and SAFE (R434) do to its outputs and engines, and the
restart of an isolated block.
-/
namespace Sys2Proof.Machine

/-- Every stepper channel stops at EDEC (R434). -/
def State.motionSafe (s : State) : State := s.each (List.finRange 16) fun n t => t.stpStop n

/-- Every DMA channel is aborted (R434). -/
def State.dmaSafe (s : State) : State := s.dmaAbortAll

/-- Every committed page is LOST with cause ISOLATED. -/
def State.loseAll (s : State) : State := s.pagesLost s.committedSlots lcIsolated

/-- The committed pages that are still being decoded are LOST with cause ISOLATED. -/
def State.loseDecoding (s : State) : State :=
  let pages := ((List.finRange 24).filter fun (x : Fin 24) => s.on (F.CTX_OPEN x) && (s.sta.ctxs[x]).order.isSome).map
    fun (x : Fin 24) => s.rd (F.CTX_PAGE_ID x)
  s.pagesLost (s.committedSlots.filter fun i => pages.contains (s.rd (F.PT_SLOT_PAGE_ID i.val))) lcIsolated

/-- Stations of a mask lose the pages they serve (R436). -/
def State.loseMask (mask : Nat) (s : State) : State :=
  s.each ((List.range 6).filter fun k => bit mask k) fun k t => t.loseStation k lcIsolated

/-- The stations that the marked HV slots of an engine belong to. -/
def State.hvMask (s : State) (e : Fin 4) : Nat :=
  (List.finRange 32).foldl (fun w (i : Fin 32) =>
    if s.slState e i != slOff && s.rd (F.SL_OUT_GATE e i) == 1 then w ||| s.rd (F.SL_OUT_STN_MASK e i) else w) 0

/-- Isolation of a block beyond its page's bits (R436): its outputs go to the safe state of its chapter and the committed
pages it serves are LOST.  The pages of a station have lost theirs in `isolate`. -/
def State.blockIsolate (p : Nat) (s : State) : State :=
  if 0x020 ≤ p ∧ p ≤ 0x025 then (s.btStop (Fin.ofNat 6 (p - 0x020))).stationClear (Fin.ofNat 6 (p - 0x020))
  else if 0x028 ≤ p ∧ p ≤ 0x02D then s.stationClear (Fin.ofNat 6 (p - 0x028))
  else if 0x030 ≤ p ∧ p ≤ 0x035 then s.stationClear (Fin.ofNat 6 (p - 0x030))
  else if 0x038 ≤ p ∧ p ≤ 0x03D then (s.quenchOn (Fin.ofNat 6 (p - 0x038))).stationClear (Fin.ofNat 6 (p - 0x038))
  else if p = ptPage then s.loseAll.endRun
  else if p = 0x048 ∨ p = 0x058 ∨ p = 0x059 then s.loseDecoding
  else if 0x049 ≤ p ∧ p ≤ 0x050 then s.laneIsolate (p - 0x049)
  else if p = 0x051 ∨ p = 0x052 then
    s.ifDo (s.rd (H.STATE p) != 0) (·.ejFail (Fin.ofNat 2 (p - 0x051)) 8)
  else if 0x061 ≤ p ∧ p ≤ 0x080 then s.dmaAbort (Fin.ofNat 32 (p - 0x061))
  else if 0x090 ≤ p ∧ p ≤ 0x09F then
    (s.ifDo (s.rd (F.STP_CFG_ZONE (p - 0x090)) != 15) (·.loseAll)).stpStop (Fin.ofNat 16 (p - 0x090))
  else if p = 0x0A8 then s.loseAll
  else if 0x0B0 ≤ p ∧ p ≤ 0x0BB then
    let n := Fin.ofNat 12 (p - 0x0B0)
    let s1 := s.loseMask (s.rd (F.CM_CFG_IMG_MASK n.val))
    (s1.each (s1.polyOf n.val) fun (k : Fin 6) t => t.loseStation k.val lcIsolated).cmToOff n
  else if 0x0C0 ≤ p ∧ p ≤ 0x0C3 then
    (s.loseMask (s.hvMask (Fin.ofNat 4 (p - 0x0C0)))).loopIsolate (Fin.ofNat 4 (p - 0x0C0))
  else if p = 0x0C4 then
    { s with ct := { s.ct with adc := s.ct.adc.map fun q => { q with table := [], open_ := [] } } }
  else if p = 0x0D8 then s.portStop 0
  else if p = 0x0D9 then s.portStop 1
  else s

/-- A restored block starts again from the initial state of its state machine (R436). -/
def State.blockRestore (p : Nat) (s : State) : State :=
  if 0x020 ≤ p ∧ p ≤ 0x025 then
    let k := Fin.ofNat 6 (p - 0x020)
    s.ifDo (if h : k.val < 4 ∧ s.extPoly k = true then s.lg.polys[k.val].lock && decide (s.lg.polys[k.val].since + 1000000 ≤ s.time)
      else s.on (F.CM_STAT_IN_BAND (s.rd (F.BT_CFG_POLY_CH k.val)))) (·.btToSpeed k)
  else if 0x038 ≤ p ∧ p ≤ 0x03D then
    let k := Fin.ofNat 6 (p - 0x038)
    ((s.wr (H.STATE p) hlDown).train k).quenchOff k
  else if 0x0C0 ≤ p ∧ p ≤ 0x0C3 then s.loopRestore (Fin.ofNat 4 (p - 0x0C0))
  else if p = 0x0C4 then { s with ct := { s.ct with adc := s.ct.adc.map fun q => { q with isolated := false } } }
  else s

end Sys2Proof.Machine
end

