-- ==== Sys2Proof/Machine/Raise.lean ====
section
/-!
DEFINITION. A raise with its hardware reactions: isolation of the source's page and the entry to SAFE (R426, R434, R436).
-/
namespace Sys2Proof.Machine

/-- R403: VCORE goes to 0.80 V. -/
def State.vcoreMax (s : State) : State :=
  if s.rd F.PS_VCORE_VSET = 800 then s
  else (((s.wr F.PS_VCORE_VSET 800).emit (.avs 800)).event 0x003 4)

/-- The page of the unit an Assay tests (Table 17.4). -/
def assayPage (k : AssayKind) (u : Nat) : Nat :=
  match k with
  | .marchSram => 0x05A
  | .marchDram => 0x058
  | .signature => 0x008 + u
  | .prbs => 0x038 + u / 16
  | .pipe => 0x030 + u
  | .codec => 0x049 + u
  | .loop => 0x0C0 + u
  | .refconv => 0x0C4
  | .relock => 0x004

/-- The Assays of a page's units are abandoned, and the windows they hold open close (R433, Table 17.9). -/
def State.assayAbandon (p : Nat) (s : State) : State :=
  let gone := s.fc.assays.filter fun a => assayPage a.kind a.unit == p
  let s1 := s.each gone fun a t =>
    match t.fc.merges[classOf a.src] with
    | some w => t.ifDo (a.running && w.src == a.src && !w.recovery) (·.closeWindow (classOf a.src))
    | none => t
  { s1 with fc := { s1.fc with assays := s1.fc.assays.filter fun a => assayPage a.kind a.unit != p } }

/-- Isolation of a page's block (R436).  Assays of the isolated unit are abandoned (Table 17.9). -/
def State.isolate (p : Nat) (s : State) : State :=
  if s.on (H.ISOLATED p) then s.wr (H.ISOLATE p) 1
  else
    let s1 := (s.wr (H.ISOLATE p) 1).wr (H.ISOLATED p) 1
    let s2 := match stationOfPage p with
      | some k => s1.loseStation k lcIsolated
      | none => s1
    s2.assayAbandon p |>.blockIsolate p

/-- Berths halted by SAFE: all but the holder of role 0x1 (R434). -/
def State.haltBerths (s : State) : State :=
  s.each ((List.range 12).filter fun n => s.role n != 1 && berthRuns (s.rd (H.STATE (0x008 + n)))) fun n t =>
    t.wr (H.STATE (0x008 + n)) 1

/-- Entry to SAFE (R434, R446, R403). -/
def State.enterSafe (s : State) : State :=
  if s.isSafe then s
  else
    let s1 := { s with faultN := true }
    let s2 := ((s1.wr F.FC_STATE_SAFE 1).wr (H.STATE 0x001) 2).headsSafe
    let s3 := s2.timelineSafe.motorsSafe.motionSafe.loopsSafe
    let s4 := ((s3.portStop 0).portStop 1).dmaSafe.vcoreMax
    let s5 := ((s4.wr F.HM_STAT_STATE 4).wr (H.STATE 0x002) 4).haltBerths
    let s6 := { s5 with berths := { s5.berths with promoting := none } }
    ((s6.event 0x001 4).logRecord 0x04 (leBytes (s6.rd F.FC_FIRST_SRC) 1)).devTo stSafe

/-- Run the hardware reactions that the latched raises have left, and those that the reactions' own raises leave, in at most
`n` rounds (R426). -/
def State.hwRounds : Nat → State → State
  | 0, s => s
  | n + 1, s =>
    if s.fc.hw.isEmpty then s
    else State.hwRounds n (({ s with fc := { s.fc with hw := [] } }).each s.fc.hw fun e t =>
      if e.2 = 4 then t.enterSafe else t.isolate e.1)

/-- The hardware reactions of Table 17.2.  A page is isolated once and SAFE entered once, so few rounds leave none over. -/
def State.hwReact (s : State) : State := s.hwRounds 8

/-- A raise of a source with its fault bit (R428): latched, then its hardware reactions. -/
def State.raiseWith (src page fbit floor : Nat) (assay : Option (AssayKind × Nat)) (s : State) : State :=
  (s.latch src page fbit floor assay).hwReact

/-- A raise at its programmed severity that names no unit for an Assay. -/
def State.raise (src page fbit : Nat) (s : State) : State := s.raiseWith src page fbit 0 none

end Sys2Proof.Machine
end

