-- ==== Sys2Proof/Machine/Active.lean ====
section
/-!
DEFINITION. Which fault bits belong to a source, and the conditions that refuse the clear of a fault bit and hold FC_ACTIVE
(R428, R431, R506, and the chapters' own words).
-/
namespace Sys2Proof.Machine

/-- Pages `p` to `p + n - 1` with each of the bits. -/
def pagesBits (p n : Nat) (bs : List Nat) : List (Nat × Nat) :=
  (List.range n).flatMap fun i => bs.map fun b => (p + i, b)

/-- The page and PG_FLT bit of every fault that reports on a source (Tables 15.11, 16.5, 17.13, …). -/
def sourceBits (src : Nat) : List (Nat × Nat) :=
  if src ≤ 3 then [(0x000, src)]
  else if src = 4 then [(3, 0), (3, 1)] else if src = 5 then [(3, 2)] else if src = 6 then [(3, 3)]
  else if src = 7 then [(3, 4)] else if src = 8 then [(3, 5), (3, 6)] else if src = 9 then [(3, 7)]
  else if src = 10 then [(4, 0), (4, 1)] else if src = 11 then [(4, 2), (4, 3), (4, 4)] else if src = 12 then [(4, 5)]
  else if 16 ≤ src ∧ src < 28 then pagesBits (0x008 + (src - 16)) 1 [0, 1, 2, 3]
  else if 28 ≤ src ∧ src < 31 then [(0x0F0, src - 28)]
  else if 40 ≤ src ∧ src < 52 then
    let k := (src - 40) / 2
    if src % 2 = 0 then pagesBits (0x020 + k) 1 [0, 1, 2, 3] ++ pagesBits (0x038 + k) 1 [3, 4, 5, 6, 7]
    else pagesBits (0x020 + k) 1 [4, 5] ++ pagesBits (0x038 + k) 1 [0, 1, 2]
  else if 52 ≤ src ∧ src < 58 then pagesBits (0x028 + (src - 52)) 1 [0, 1, 2, 3, 4]
  else if 58 ≤ src ∧ src < 64 then [(0x028 + (src - 58), 5)]
  else if 64 ≤ src ∧ src < 70 then pagesBits (0x030 + (src - 64)) 1 [0, 1, 2]
  else if src = 70 then pagesBits 0x040 1 [0, 1, 2]
  else if 80 ≤ src ∧ src < 90 then pagesBits (0x049 + (src - 80)) 1 [0, 1, 2]
  else if src = 90 then [(0x048, 0)]
  else if 96 ≤ src ∧ src < 118 then [(0x05A, src - 96)]
  else if src = 118 then [(0x05A, 22)] else if src = 119 then [(0x058, 0), (0x058, 1)]
  else if src = 120 then [(0x058, 2), (0x058, 3)] else if src = 121 then [(0x059, 0), (0x059, 1)]
  else if src = 122 then [(0x05A, 23)]
  else if 128 ≤ src ∧ src < 160 then [(0x061 + (src - 128), 0)]
  else if 160 ≤ src ∧ src < 164 then pagesBits (0x090 + 4 * (src - 160)) 4 [0, 1]
  else if src = 164 then pagesBits 0x0A0 8 [0, 1] else if src = 165 then pagesBits 0x0A8 1 [0, 1]
  else if 168 ≤ src ∧ src < 180 then pagesBits (0x0B0 + (src - 168)) 1 [0, 1, 2, 3, 4]
  else if src = 180 then pagesBits 0x0BC 1 [0, 1, 2] else if src = 181 then pagesBits 0x0BC 1 [8, 9, 10]
  else if 192 ≤ src ∧ src < 196 then pagesBits (0x0C0 + (src - 192)) 1 [0, 1]
  else if src = 196 then pagesBits 0x0C0 4 [3] else if src = 197 then pagesBits 0x0C0 4 [4]
  else if src = 198 then pagesBits 0x0C0 4 [2]
  else if 199 ≤ src ∧ src < 203 then [(0x0C4, src - 199), (0x0C4, 4 + (src - 199))]
  else if src = 208 then [(0x0D0, 0), (0x0D0, 1)]
  else if 209 ≤ src ∧ src < 212 then [(0x0D0, src - 207)]
  else if src = 224 then [(0x0D8, 0), (0x0D8, 1)] else if src = 225 then pagesBits 0x0D8 1 [2, 3, 4]
  else if src = 226 then [(0x0D9, 0), (0x0D9, 1)] else if src = 227 then pagesBits 0x0D9 1 [2, 3, 4]
  else if src = 228 then [(0x0D9, 5)] else if src = 229 then [(0x0D8, 6)]
  else if 240 ≤ src ∧ src < 244 then [(0x0E0, src - 240)]
  else if 248 ≤ src ∧ src < 252 then [(0x002, src - 248)]
  else []

/-- The clock block's conditions (R423). -/
def State.clockActive (s : State) (b : Nat) : Bool :=
  let two := s.clocks.groups
  match b with
  | 1 => s.stations.any fun k => !bit (s.rd F.CK_STAT_DLL) k
  | 2 => !two && !s.on F.CK_ROLE_STANDBY
  | 3 => if two then s.rd F.CK_STAT_P0 != 2 || s.rd F.CK_STAT_P1 != 2
         else (if s.on F.CK_ROLE_PXA_SRC then s.rd F.CK_STAT_P1 else s.rd F.CK_STAT_P0) != 2
  | 4 => s.on F.CK_STAT_KEEPER
  | 5 => s.clocks.refLost.isSome
  | _ => false

/-- Does a condition hold that refuses the clear of fault bit `b` of page `p`?  An unlocked clock before its first lock, or a head
not sampled yet, is no such condition, since FC_ACTIVE resets to 0: there only a bit that stands counts (log 75). -/
def State.fltActive (s : State) (p b : Nat) : Bool :=
  if p = 0x000 then b == 0 && s.fc.tempWarn
  else if p = 0x003 then
    (b == 2 && (List.range 24).any fun n => s.rd (F.RAIL_CFG_STATE n) == 5) || (b == 4 && s.seq.pfwSince.isSome)
  else if p = 0x004 then bit (s.rd (H.FLT p)) b && s.clockActive b
  else if 0x028 ≤ p ∧ p ≤ 0x02D then b == 5 && bit (s.rd (H.FLT p)) 5 && !s.headCool (Fin.ofNat 6 (p - 0x028))
  else if p = 0x0D8 ∨ p = 0x0D9 then b == 1 && s.rd (H.STATE p) == 3
  else if p = 0x058 then (b == 1 && s.rd F.DP_STAT_CH0 == 4) || (b == 3 && s.rd F.DP_STAT_CH1 == 4)
  else if p = 0x059 then b == 0 && s.rd (H.STATE 0x058) == 2
  else if 0x061 ≤ p ∧ p ≤ 0x080 then b == 0 && s.rd (H.STATE p) == 5
  else if 0x090 ≤ p ∧ p ≤ 0x09F then
    b == 1 && (s.inputActive (s.rd (F.STP_SW_LIMP_SRC (p - 0x090))) || s.inputActive (s.rd (F.STP_SW_LIMN_SRC (p - 0x090))))
  else if p = 0x0A8 then b == 0 && s.rd (H.STATE p) == 2
  else if 0x0B0 ≤ p ∧ p ≤ 0x0BB then (b == 2 || b == 3) && bit (s.rd (H.FLT p)) b && s.keOutside (p - 0x0B0)
  else if p = 0x0BC then
    (b == 0 && s.on (F.MB_STAT_CHOP_ACTIVE 0)) || (b == 8 && s.on (F.MB_STAT_CHOP_ACTIVE 1)) ||
    (b == 2 && s.on (F.MB_STAT_UV 0)) || (b == 10 && s.on (F.MB_STAT_UV 1))
  else if 0x0C0 ≤ p ∧ p ≤ 0x0C3 then
    b == 2 && (List.finRange 32).any fun i => bit (s.slot (Fin.ofNat 4 (p - 0x0C0)) i).causes caRange
  else if p = 0x0C4 then b < 4 && (s.ct.adc[Fin.ofNat 4 b]).refBad
  else false

/-- FC_ACTIVE bit of a source (R428). -/
def State.srcActive (s : State) (src : Nat) : Bool :=
  (sourceBits src).any (fun pb => s.fltActive pb.1 pb.2) || Sparse.get? src s.fc.lastAt == some s.time

/-- The bits of a PG_FLT clear that are not refused (R506, Table 20.3). -/
def State.clearable (s : State) (p mask : Nat) : Nat :=
  (List.range 24).foldl (fun w i =>
    if bit mask i && !s.fltActive p i && !s.isFresh p (32 + i) then w ||| 2 ^ i else w) 0

/-- A page with an active source may not be restored (R436). -/
def State.pageActive (s : State) (p : Nat) : Bool := (List.range 24).any fun i => s.fltActive p i

end Sys2Proof.Machine
end

