-- ==== Sys2Proof/Machine/Faults.lean ====
section
/-! DEFINITION. The commands of the fault collector, the berths and the Harbourmaster (17). -/
namespace Sys2Proof.Machine

abbrev Result := Host.Outcome State Fault Refusal

/-! ### Collector -/

/-- Queue an Assay for a unit; a unit already under Assay keeps its own (R437). -/
def State.requestAssay (src : Nat) (byGo : Bool) (k : AssayKind) (u : Nat) (s : State) : State :=
  if s.fc.assays.any fun a => a.kind == k && a.unit == u then s
  else { s with fc := { s.fc with assays := s.fc.assays ++ [⟨src, k, u, false, 0, byGo⟩] } }

/-- Acknowledge a source (R430). -/
def State.ackSource (src : Nat) (s : State) : State :=
  let w := s.rd (F.FC_UNACK (src / 32))
  let s1 := s.wr (F.FC_UNACK (src / 32)) (if bit w (src % 32) then w - 2 ^ (src % 32) else w)
  { s1 with fc := { s1.fc with acked := (s.time, if s.fc.acked.1 = s.time then src :: s.fc.acked.2 else [src]) } }

/-- The supervisor's reactions to one raise (Table 17.2). -/
def State.react (r : Raise) (s : State) : State :=
  let asked := fun (t : State) => match r.assay with
    | some (k, u) => t.requestAssay r.src false k u
    | none => t
  if r.sev = 0 then s
  else if r.again then asked s
  else
    let s1 := (s.logFault r.src r.sev).ifDo s.ze40 (·.zFault r.src r.sev)
    let first := s1.rd F.FC_FIRST_T_HI * 2 ^ 32 + s1.rd F.FC_FIRST_T_LO
    asked (s1.postEvent 0x000C 0 [(28, [r.src]), (29, [r.sev]), (32, leBytes first 8)])

/-- FAULT_DISPATCH: leftover hardware reactions, then the oldest raise is dispatched and acknowledged (R426, R430). -/
def execFaultDispatch (s : State) : Result :=
  let s := s.hwReact
  match s.fc.dispatch, s.holder 0 with
  | r :: l, some _ =>
    let s1 := ({ s with fc := { s.fc with dispatch := l } }).react r
    .next (if l.any (·.src == r.src) then s1 else s1.ackSource r.src)
  | _, _ => .next s

/-- A merge window that has been open MERGE_MAX ms closes (R433). -/
def execMergeWindowExpiry (cls : Fin 16) (s : State) : Result :=
  match s.fc.merges[cls] with
  | some w => .next (if w.opened + s.rd F.FC_CFG_MERGE_MAX * 100000 ≤ s.time then s.closeWindow cls else s)
  | none => .next s

/-- FC_FIRST.CLR (R429). -/
def execFirstClr (agent : Agent) (s : State) : Result :=
  .next (s.write agent 0x001 0x044 fun t => (t.wr F.FC_FIRST_VALID 0).wr F.FC_FIRST_OVF 0)

/-- FC_UNACK[w] (R430). -/
def execUnackClear (agent : Agent) (w : Fin 8) (mask : Nat) (s : State) : Result :=
  .next (s.write agent 0x001 (0x080 + 4 * w.val) fun t =>
    t.each ((List.range 32).filter fun b => bit mask b && bit (t.rd (F.FC_UNACK w)) b) fun b u => u.ackSource (32 * w.val + b))

/-- FC_STICKY[w]: refused for an active source (R431). -/
def execStickyClear (agent : Agent) (w : Fin 8) (mask : Nat) (s : State) : Result :=
  .next (s.write agent 0x001 (0x0A0 + 4 * w.val) fun t =>
    let keep := (List.range 32).foldl (fun v b =>
      if bit (t.rd (F.FC_STICKY w)) b && (!bit mask b || t.srcActive (32 * w.val + b)) then v + 2 ^ b else v) 0
    t.wr (F.FC_STICKY w) keep)

/-- FC_ASSAY.GO: an Assay for the unit of the last raise of the source; NONE where it takes no Assay (R437, R439). -/
def execAssayGo (agent : Agent) (src : Nat) (s : State) : Result :=
  .next (s.write agent 0x001 0x054 fun t =>
    let t := t.wr F.FC_ASSAY_SRC src
    match (t.fc.lastUnit.find? (·.1 == src % 256)).bind (·.2) with
    | some (k, u) => (t.requestAssay (src % 256) true k u).wr F.FC_ASSAY_STATUS 1
    | none => t.wr F.FC_ASSAY_STATUS 5)

/-! ### Berths -/

def brPage (n : Nat) : Nat := 0x008 + n

/-- The spare of lowest number that can take a role (R30). -/
def State.spare (s : State) : Option Nat :=
  (List.range 12).find? fun n => s.role n == 0xE && s.rd (H.STATE (brPage n)) == 3

/-- A berth takes a role (R442). -/
def State.takeRole (n r since : Nat) (s : State) : State :=
  let s1 := ((s.wr (F.BR_ROLE_ROLE n) r).wr (H.STATE (brPage n)) 0).wr (F.BR_MOVE_TIME n) (min ((s.time - since) / 1000) 0xFFFF)
  (s1.event (brPage n) 0).emit (.toRole r 0 n)

/-- The digest of the supervisor copy in the key area (Table 18.4). -/
def State.setDigest (d : List Nat) (s : State) : State := s.stBytes 0x05310200 (((d.map (· % 256)) ++ List.replicate 32 0).take 32)

/-- The image of a flash bank, as last read. -/
def State.imageOf (s : State) (b : Nat) : ImageInfo := if b = 0 then s.boot.bankA else s.boot.bankB

/-- A live update stops: the roles moved so far move back, the latest first, and the supervisor copy is the running image's
(R465). -/
def State.updateAbort (s : State) : State :=
  if !s.boot.updating then s
  else
    let s1 := s.each s.boot.updMoved fun e t =>
      let back := if t.role e.2 = 0xE ∧ t.rd (H.STATE (brPage e.2)) = 3 then some e.2 else t.spare
      match t.holder e.1, back with
      | some h, some b => ((t.wr (F.BR_ROLE_ROLE h) 0xE).wr (H.STATE (brPage h)) 3).takeRole b e.1 t.time
      | _, _ => t
    let s2 := { s1 with boot := { s1.boot with updating := false, updMoved := [] } }.setDigest (s1.imageOf (s1.rd F.FW_STAT_BANK)).supDigest
    ((s2.wr F.FW_STAT_STATUS 5).wr F.FW_STAT_UPD_ROLE 0xF).raise 29 0x0F0 1

/-- A berth halts: its rights end with its state (R441), and its role waits to be moved (R442).  A live
update stops when its spare halts (R465). -/
def State.haltBerth (n : Nat) (s : State) : State :=
  let r := s.role n
  let s1 := s.wr (H.STATE (brPage n)) 1
  if r = 0xE then s1.ifDo (s.spare == some n) (·.updateAbort)
  else if r = 0xF then s1
  else if r = 0 then
    if s1.rd F.HM_STAT_STATE = 0 ∨ s1.rd F.HM_STAT_STATE = 1 ∨ s1.rd F.HM_STAT_STATE = 2 then
      ({ s1 with berths := { s1.berths with supBerth := n, promoting := none } }.wr F.HM_STAT_STATE 2).wr (H.STATE 0x002) 2
    else s1
  else { s1 with berths := { s1.berths with moves := s1.berths.moves ++ [⟨r, n, s.time⟩] } }

/-- A lockstep mismatch or a halting trap of berth n (R441); a halted or retired pair does not halt again. -/
def execLockstep (n : Fin 12) (trap : Bool) (s : State) : Result :=
  if s.rd (H.STATE (brPage n)) = 0 ∨ s.rd (H.STATE (brPage n)) = 3 ∨ s.rd (H.STATE (brPage n)) = 6 then
    let s1 := (s.haltBerth n).sat (if trap then F.BR_CNT_TRAP_UE n else F.BR_CNT_MISMATCH n)
    let s2 := s1.raiseWith (16 + n) (brPage n) (b2n trap) 0 (some (.signature, n))
    .next (s2.ifDo (decide (s.role n < 0xE)) (·.openRecovery (16 + n) (brPage n)))
  else .next s

/-- The waiting move of the lowest role code (Table 17.9). -/
def State.nextMove (s : State) : Option RoleMove :=
  s.berths.moves.foldl (fun m x => match m with
    | none => some x
    | some y => if x.role < y.role then some x else some y) none

/-- ROLE_MOVE: the waiting role of the lowest code moves to the lowest spare, else to the berth of role 0x9 whose own role
is then carried by the supervisor, else SEVERE on the failed berth's source (R30, R442).  The supervisor carries it out. -/
def execRoleMove (s : State) : Result :=
  match s.nextMove, s.holder 0 with
  | none, _ => .next s
  | _, none => .next s
  | some m, some _ =>
    let s1 := { s with berths := { s.berths with moves := s.berths.moves.filter (· != m) } }
    let s2 := (s1.wr (F.BR_ROLE_ROLE m.source) 0xE).closeRecovery (16 + m.source)
    match s2.spare with
    | some n => .next (s2.takeRole n m.role m.since)
    | none =>
      match if m.role = 9 then s2.holder 0 else s2.holder 9 with
      | some n => .next (if m.role = 9 then s2.emit (.toRole 9 1 n) else s2.takeRole n m.role m.since)
      | none => .next (s2.raiseWith (16 + m.source) (brPage m.source) 0 3 none)

/-! ### Harbourmaster -/

/-- HM_STAT.STATE and its mirror (R450). -/
def State.hmTo (v : Nat) (s : State) : State := (s.wr F.HM_STAT_STATE v).wr (H.STATE 0x002) v

/-- HM_CMD.BEAT from the berth that holds role 0x0 (R444, R446, R450). -/
def execBeat (agent : Agent) (s : State) : Result :=
  .next (s.write agent 0x002 0x04C fun t =>
    match agent with
    | .berth n =>
      if t.role n ≠ 0 then t.countDenied agent 0x002 0x04C
      else
        let missed := if t.rd F.HM_STAT_STATE = 1 then t.time / 100000 - t.berths.lastBeat / 100000 - 1 else 0
        let u := { t with berths := { t.berths with lastBeat := t.time } }.satAdd F.HM_CNT_MISSES missed
        if u.rd F.HM_STAT_STATE = 0 then
          ({ u with berths := { u.berths with supBerth := n.val } }.hmTo 1).wr F.HM_STAT_SUP_BERTH n.val
        else if u.rd F.HM_STAT_STATE = 2 ∧ u.berths.promoting = some n.val then
          let v := ({ u with berths := { u.berths with supBerth := n.val, promoting := none } }.hmTo 1).wr F.HM_STAT_SUP_BERTH n.val
          (((v.closeRecovery (16 + t.berths.supBerth)).sat F.HM_CNT_PROMOTIONS).event 0x002 0).raise 250 0x002 2
        else u
    | _ => t)

/-- HB_MISS: two whole milliseconds have passed without a BEAT in WATCH; the supervisor is halted and a promotion begins
(R444). -/
def execHbMiss (s : State) : Result :=
  if s.rd F.HM_STAT_STATE = 1 ∧ s.berths.lastBeat / 100000 + 3 ≤ s.time / 100000 then
    let n := s.berths.supBerth
    let s1 := (s.satAdd F.HM_CNT_MISSES 2).haltBerth n
    .next (((s1.hmTo 2).raiseWith (16 + n) (brPage n) 2 0 (some (.signature, n))).openRecovery (16 + n) (brPage n))
  else .next s

/-- The Harbourmaster promotes a supervisor (R444): the copy in MRAM, or the image of the active flash bank, is loaded into a
berth taken as R30 states; without image or berth it enters NOSUP.  The first BEAT ends the promotion (Table 17.7). -/
def execSupPromoted (digestOk imageOk : Bool) (s : State) : Result :=
  if s.rd F.HM_STAT_STATE = 2 ∧ s.berths.promoting = none then
    let old := s.berths.supBerth
    let pick := match s.spare with
      | some n => some n
      | none => s.holder 9
    match pick with
    | some n =>
      if digestOk || imageOk then
        let s1 := s.ifDo (s.role old == 0) (·.wr (F.BR_ROLE_ROLE old) 0xE)
        let s2 := (s1.takeRole n 0 s1.berths.lastBeat)
        .next { s2 with berths := { s2.berths with promoting := some n } }
      else .next ((s.hmTo 3).raiseWith (16 + old) (brPage old) 2 3 none)
    | none => .next ((s.hmTo 3).raiseWith (16 + old) (brPage old) 2 3 none)
  else .next s

/-- No BEAT within 1.2 s of RST_N release or of a warm start (R446): a berth that holds role 0x0 without beating is halted as
R444 states. -/
def execHmWaitTimeout (s : State) : Result :=
  if s.rd F.HM_STAT_STATE = 0 ∧ s.berths.waitSince + 120000000 ≤ s.time then
    let n := (s.holder 0).getD 0
    let s1 := { s with berths := { s.berths with supBerth := n, promoting := none } }
    match s.holder 0 with
    | none => .next (s1.hmTo 2)
    | some _ => .next (((s1.haltBerth n).hmTo 2).raiseWith (16 + n) (brPage n) 2 0 (some (.signature, n)))
  else .next s

/-- HM_BEAT has stood still for 3 ms: the supervisor raises HM_SILENT and writes RESYNC (R444). -/
def execHmSilent (s : State) : Result :=
  match s.holder 0 with
  | some _ => .next ((s.raise 251 0x002 3).event 0x002 1)
  | none => .next s

/-- HM_CMD.RESYNC: every copy takes the voted state (R446). -/
def execHarbourmasterResync (agent : Agent) (s : State) : Result :=
  .next (s.write agent 0x002 0x04C fun t => t.event 0x002 1)

/-- The copies' votes in one REFCLK cycle: `dᵢ` says that copy i differs from the others (R445). -/
def execHmVote (d0 d1 d2 : Bool) (s : State) : Result :=
  let dual := s.on F.HM_STAT_DUAL
  let ex := s.rd F.HM_STAT_EXCLUDED
  let d := [d0, d1, d2]
  let live := (List.range 3).filter fun i => d.getD i false && !(dual && i == ex)
  match live with
  | [] => .next s
  | i :: rest =>
    if dual || !rest.isEmpty then .next ((s.hmTo 4).raise 249 0x002 1)
    else
      let i : Fin 3 := Fin.ofNat 3 i
      let f := if i = 0 then F.HM_VOTE_DIS0 else if i = 1 then F.HM_VOTE_DIS1 else F.HM_VOTE_DIS2
      let times := s.time :: s.berths.outvotes[i].filter fun t => s.time < t + 100000000
      let s1 := { s.sat f with berths := { s.berths with outvotes := s.berths.outvotes.set i times } }
      let s2 := if 3 ≤ times.length then (s1.wr F.HM_STAT_DUAL 1).wr F.HM_STAT_EXCLUDED i.val else s1
      .next (s2.raise 248 0x002 0)

/-! ### Junction temperature (R424, R508) -/

/-- TEMP_WARN threshold in 1/16 °C: 100 °C on -E, 110 °C on -X. -/
def State.warnAt (s : State) : Int := if s.boot.gradeX then 1760 else 1600

/-- DV_TEMP takes a new Tj; TJ_MAX keeps the highest. -/
def State.tempSample (tj : Nat) (s : State) : State :=
  let s1 := s.wr F.DV_TEMP_TJ tj
  if s.rdS F.DV_TEMP_TJ_MAX < toSigned 16 tj then s1.wr F.DV_TEMP_TJ_MAX tj else s1

/-- Tj reaches the warning threshold. -/
def execTempWarn (tj : Nat) (s : State) : Result :=
  let s1 := s.tempSample tj
  if s1.warnAt ≤ toSigned 16 tj ∧ s1.fc.tempWarn = false then
    .next (({ s1 with fc := { s1.fc with tempWarn := true } }.event 0x000 1).raise 0 0x000 0)
  else .next s1

/-- Tj at 15 °C above the warning threshold for 1 ms: hardware-only, SAFE (R427). -/
def execTempCrit (tj : Nat) (s : State) : Result :=
  let s1 := s.tempSample tj
  .next (if s1.warnAt + 240 ≤ toSigned 16 tj then s1.raise 1 0x000 1 else s1)

/-- Tj has fallen 2 °C below its threshold. -/
def execTempWarnEnd (tj : Nat) (s : State) : Result :=
  let s1 := s.tempSample tj
  .next (if toSigned 16 tj ≤ s1.warnAt - 32 then { s1 with fc := { s1.fc with tempWarn := false } } else s1)

end Sys2Proof.Machine
end

