-- ==== Sys2Proof/Machine/Codes.lean ====
section
/-!
DEFINITION. The codes of chapter 08 as functions: the byte code (R193), the hallmark code (R195, R196) and the word code
(R200–R202).  A stored or received word is written as one number whose bit n is the code's bit n.
-/
namespace Sys2Proof.Machine

/-- Exclusive or of some bits of a number. -/
def parityOf (v : Nat) (l : List Nat) : Nat := l.foldl (fun c i => (c + bits v i 1) % 2) 0

/-! ### The byte code (R193) -/

/-- Check bits c0–c3 of a byte, c0 least significant. -/
def byteCheck (d : Nat) : Nat :=
  parityOf d [0, 1, 3, 4, 6] + 2 * parityOf d [0, 2, 3, 5, 6] + 4 * parityOf d [1, 2, 3, 7] + 8 * parityOf d [4, 5, 6, 7]

/-- A byte as stored: d[7:0] in bits 0–7, c0–c3 in bits 8–11, c4 in bit 12. -/
def byteEnc (d : Nat) : Nat :=
  let d := d % 256
  let v := d + 256 * byteCheck d
  v + 4096 * parityOf v (List.range 12)

/-- What a byte decodes to (Table 8.1). -/
inductive ByteRead where
  | clean (v : Nat)
  | corrected (v : Nat)
  | uncorrectable (v : Nat)
deriving DecidableEq, Repr

/-- Bit of the stored byte at positions 1–12 (Table 8.2). -/
def bytePos : Nat → Nat
  | 1 => 8 | 2 => 9 | 3 => 0 | 4 => 10 | 5 => 1 | 6 => 2 | 7 => 3 | 8 => 11 | 9 => 4 | 10 => 5 | 11 => 6 | 12 => 7
  | _ => 12

/-- Decode 13 stored bits (Tables 8.1 and 8.2). -/
def byteDec (w : Nat) : ByteRead :=
  let d := w % 256
  let s := bits w 8 4 ^^^ byteCheck d
  let p := parityOf w (List.range 13)
  if s = 0 then (if p = 0 then .clean d else .corrected d)
  else if p = 1 ∧ s ≤ 12 then .corrected ((w ^^^ 2 ^ bytePos s) % 256)
  else .uncorrectable d

/-- The byte a decode delivers. -/
def ByteRead.value : ByteRead → Nat
  | .clean v => v
  | .corrected v => v
  | .uncorrectable v => v

/-! ### The hallmark code (R195, R196) -/

/-- Product in GF(2^10) with x^10 + x^3 + 1, by the `n` low bits of `b`. -/
def gf10mul : Nat → Nat → Nat → Nat
  | 0, _, _ => 0
  | n + 1, a, b =>
    let a' := if 2 * a < 1024 then 2 * a else (2 * a) ^^^ 0x409
    (if b % 2 = 1 then a else 0) ^^^ gf10mul n a' (b / 2)

def gfMul (a b : Nat) : Nat := gf10mul 10 a b

/-- α^n. -/
def gfPow : Nat → Nat
  | 0 => 1
  | n + 1 => gfMul (gfPow n) 2

/-- g(x) = Π (x + α^i), i < n: coefficients from x^0 upward. -/
def rsGen : Nat → List Nat
  | 0 => [1]
  | n + 1 =>
    let g := rsGen n
    let r := gfPow n
    List.zipWith (· ^^^ ·) (g.map (gfMul r) ++ [0]) (0 :: g)

/-- One step of the division by g: the remainder (x^0 first) takes a data symbol from the top. -/
def rsStep (g : List Nat) (rem : List Nat) (s : Nat) : List Nat :=
  let f := rem.getLastD 0 ^^^ s
  List.zipWith (· ^^^ ·) (0 :: rem.dropLast) (g.map (gfMul f))

/-- The 16 check symbols of 820 data symbols (Table 8.3). -/
def rsCheck (data : List Nat) : List Nat :=
  let g := (rsGen 16).take 16
  data.reverse.foldl (rsStep g) (List.replicate 16 0)

/-- Ten-bit symbols of a little-endian number, lowest first. -/
def symbolsOf : Nat → Nat → List Nat
  | 0, _ => []
  | n + 1, v => v % 1024 :: symbolsOf n (v / 1024)

/-- A number from bytes, lowest first. -/
def natOfBytes : List Nat → Nat
  | [] => 0
  | b :: r => b % 256 + 256 * natOfBytes r

def bytesOfNat : Nat → Nat → List Nat
  | 0, _ => []
  | n + 1, v => v % 256 :: bytesOfNat n (v / 256)

/-- Every fourth element from index j on. -/
def everyFourth (l : List Nat) (j : Nat) : List Nat :=
  (List.range ((l.length + 3 - j) / 4)).map fun m => l.getD (4 * m + j) 0

/-- The 20 hallmark bytes of codeword j of a page's bytes (R196). -/
def hallmarkOf (page : List Nat) (j : Nat) : List Nat :=
  let chk := rsCheck (symbolsOf 820 (natOfBytes (everyFourth page j)))
  bytesOfNat 20 (chk.reverse.foldl (fun v s => v * 1024 + s) 0)

/-- The hallmark area of a page. -/
def hallmark (page : List Nat) : List Nat := (List.range 4).flatMap (hallmarkOf page)

/-- Number of differing ten-bit symbols of two codewords, given as their 1,025 stream bytes' and 20 check bytes' numbers. -/
def symbolErrors (n e : Nat) : Nat := ((symbolsOf n e).filter (· != 0)).length

/-! ### The word code (R200–R202) -/

/-- g(x) of R200. -/
def wordGen : Nat := 0xC599

/-- The remainder of a polynomial of degree below `n + 15` by g, from its top coefficient down. -/
def polyMod : Nat → Nat → Nat
  | 0, v => v
  | n + 1, v => polyMod n (if v.testBit (n + 15) then v ^^^ (wordGen <<< n) else v)

/-- The 125-bit word of data, PSN and address bits [47:3], with CHK = 0 (Table 8.4). -/
def wordBody (data : Nat) (psn : Bool) (addr : Nat) : Nat :=
  data % 2 ^ 64 * 2 ^ 15 + b2n psn * 2 ^ 79 + addr / 8 % 2 ^ 45 * 2 ^ 80

/-- CHK[14:0] of a word (R200). -/
def wordChk (data : Nat) (psn : Bool) (addr : Nat) : Nat := polyMod 110 (wordBody data psn addr)

/-- The word as received: positions 0–124. -/
def wordEnc (data : Nat) (psn : Bool) (addr : Nat) : Nat := wordBody data psn addr + wordChk data psn addr

/-- A(a) of R202: the check of an all-zero word with PSN = 0 at address a. -/
def addrChk (addr : Nat) : Nat := wordChk 0 false addr

/-- The check a word carries after a move to another address (R202). -/
def reAddress (chk src dst : Nat) : Nat := chk ^^^ addrChk src ^^^ addrChk dst

/-- Product in GF(2^7) with x^7 + x^3 + 1. -/
def gf7mul : Nat → Nat → Nat → Nat
  | 0, _, _ => 0
  | n + 1, a, b =>
    let a' := if 2 * a < 128 then 2 * a else (2 * a) ^^^ 0x89
    (if b % 2 = 1 then a else 0) ^^^ gf7mul n a' (b / 2)

def betaMul (a b : Nat) : Nat := gf7mul 7 a b

/-- Powers of β from β^0 on. -/
def betaFrom : Nat → Nat → List Nat
  | 0, _ => []
  | n + 1, b => b :: betaFrom n (betaMul b 2)

def betaPows : List Nat := betaFrom 127 1

/-- S0, S1 and S3 of a 125-bit error (R201). -/
def wordSyn (r : Nat) : Nat × Nat × Nat :=
  (List.zip (List.range 125) betaPows).foldl (fun s e =>
    if r.testBit e.1 then ((s.1 + 1) % 2, s.2.1 ^^^ e.2, s.2.2 ^^^ betaMul e.2 (betaMul e.2 e.2)) else s) (0, 0, 0)

/-- What a received word decodes to: the correction to make, or why none can be made (Table 8.5). -/
inductive WordRead where
  | clean
  | corrected (flips : Nat)
  | uncorrectable
  | address
deriving DecidableEq, Repr

/-- The positions p with β^p a root of x² + S1·x + (S1³ + S3)/S1. -/
def wordRoots (s1 s3 : Nat) : List Nat :=
  let c := betaMul s1 (betaMul s1 s1) ^^^ s3
  (List.range 127).filter fun p =>
    let x := betaPows.getD p 0
    betaMul s1 (betaMul x x) ^^^ betaMul (betaMul s1 s1) x == c

/-- Located positions at or above 125, then address positions, then the rest (R201). -/
def wordLocated (ps : List Nat) : WordRead :=
  if ps.any (125 ≤ ·) then .uncorrectable
  else if ps.any (80 ≤ ·) then .address
  else .corrected (ps.foldl (fun v p => v + 2 ^ p) 0)

/-- Decode the syndromes of a word (Table 8.5). -/
def wordDec (r : Nat) : WordRead :=
  let (s0, s1, s3) := wordSyn r
  if s0 = 0 then
    if s1 = 0 then (if s3 = 0 then .clean else .uncorrectable)
    else
      match wordRoots s1 s3 with
      | [p, q] => wordLocated [p, q]
      | _ => .uncorrectable
  else if s1 ≠ 0 ∧ s3 = betaMul s1 (betaMul s1 s1) then wordLocated [betaPows.findIdx (· == s1)]
  else .uncorrectable

end Sys2Proof.Machine
end

