-- ==== Sys2Proof/Machine/MemBase.lean ====
section
/-!
DEFINITION. Words of the banks and the DRAM through their codes: what a read returns, what it counts, logs and raises
(R193–R227).
-/
namespace Sys2Proof.Machine

/-! ### The error log (R222) -/

def masterCode : Master → Nat
  | .berth n _ => n.val
  | .pipeline k => 0x10 + k.val
  | .lane n => 0x18 + n.val
  | .loopEngine e => 0x28 + e.val
  | .harbourmaster => 0x30
  | .endpoint => 0x31
  | .scrub => 0x32
  | .fill => 0x33
  | .dramPort => 0x34
  | .dma n => 0x40 + n.val

/-- An entry of CS_LOG; corrected kinds are logged only with LOG_CE. -/
def State.logMem (kind addr : Nat) (m : Master) (s : State) : State :=
  if (kind = 1 ∨ kind = 3 ∨ kind = 5) ∧ !s.on F.CS_CFG_LOG_CE then s
  else
    let n := s.rd F.CS_LOG_CNT_NEXT
    let s1 := ((s.wr (F.CS_LOG_ADDR_LO n) addr).wr (F.CS_LOG_ADDR_HI n) (addr / 2 ^ 32)).wr (F.CS_LOG_KIND n) kind
    let s2 := ((s1.wr (F.CS_LOG_MASTER n) (masterCode m)).wr (F.CS_LOG_TIME_LO n) s.time).wr (F.CS_LOG_TIME_HI n) (s.time / 2 ^ 32)
    ((s2.inc F.CS_LOG_CNT_NEXT).inc F.CS_LOG_CNT_TOTAL).event 0x05A 5

/-! ### Units of an Assay (R439) -/

def marchRow (a : Nat) : Option (AssayKind × Nat) := some (.marchSram, a / 512)

/-- The DRAM row of a word of a channel: 128 blocks. -/
def dramRow (c : Fin 2) (off : Nat) : Option (AssayKind × Nat) := some (.marchDram, (c.val * 2 ^ 40 + off) / 8192)

/-- The unit of a raise on source 118 (R439). -/
def State.fabricUnit (_s : State) (a : Nat) : Option (AssayKind × Nat) :=
  if (bankOf a).isSome then marchRow a
  else match slotAddr a with
    | some (c, o) => dramRow c o
    | none => none

/-! ### Words on their way (R201, R204) -/

/-- The wrong bits of a word on its way: corrected, or uncorrectable with its kind, counted, logged and raised. -/
def State.fabric (a flight : Nat) (m : Master) (s : State) : Option Nat × State :=
  let deliver := fun (r : Nat) (t : State) =>
    if r.testBit 79 then (none, (t.logMem 8 a m).raiseWith 118 0x05A 22 0 (s.fabricUnit a)) else (some r, t)
  match wordDec flight with
  | .clean => deliver flight s
  | .corrected f => deliver (flight ^^^ f) ((s.sat F.CS_CNT_C_WORD_CE).logMem 5 a m)
  | .uncorrectable => (none, ((s.sat F.CS_CNT_C_WORD_UE).logMem 6 a m).raiseWith 118 0x05A 22 0 (s.fabricUnit a))
  | .address => (none, ((s.sat F.CS_CNT_C_WORD_UE).logMem 7 a m).raiseWith 118 0x05A 22 0 (s.fabricUnit a))

/-- Data bits of a word's wrong bits. -/
def dataBits (r : Nat) : Nat := r / 2 ^ 15 % 2 ^ 64

/-! ### Bank bytes -/

/-- New upsets of a page: index in the page (hallmark from 4,096) and mask. -/
def State.strike (page : Nat) (l : List (Nat × Nat)) (s : State) : State :=
  s.each l fun e t =>
    let k := if e.1 < 4096 then page * 4096 + e.1 else markKey page ((e.1 - 4096) % 80)
    t.putUpset k (t.upset k ^^^ e.2 % 8192)

def State.readByte (s : State) (a : Nat) : ByteRead := byteDec (byteEnc (s.ldByte a) ^^^ s.upset a)

/-- A hallmark byte through its byte code. -/
def State.readMark (s : State) (page i : Nat) : Nat :=
  (byteDec (byteEnc (((Sparse.get? page s.mu.marks).getD []).getD i 0) ^^^ s.upset (markKey page i))).value

/-- Symbols in error of codeword j of a sealed page, as its bytes stand after byte correction (R196, R197). -/
def State.codewordErrors (s : State) (page j : Nat) : Nat :=
  let d := natOfBytes ((List.range 1024).map fun m =>
    (s.readByte (page * 4096 + 4 * m + j)).value ^^^ s.ldByte (page * 4096 + 4 * m + j))
  let mk := (Sparse.get? page s.mu.marks).getD []
  let c := natOfBytes ((List.range 20).map fun i => s.readMark page (20 * j + i) ^^^ mk.getD (20 * j + i) 0)
  symbolErrors 820 d + symbolErrors 16 c

/-- The corrected bytes of a codeword are written back (R197). -/
def State.mendCodeword (page j : Nat) (s : State) : State :=
  s.modMu fun u => { u with upsets := u.upsets.filter fun e =>
    !(if e.1 < 2 ^ 52 then e.1 / 4096 == page && e.1 % 4 == j
      else (e.1 - 2 ^ 52) / 256 == page && (e.1 - 2 ^ 52) % 256 / 20 == j) }

/-! ### Bank words -/

/-- An uncorrectable bank read: kind 2 or 4, with its count and raise. -/
def State.bankUe (kind a : Nat) (m : Master) (s : State) : State :=
  let b := (bankOf a).getD 0
  ((s.sat (F.CS_BANK_UE b)).logMem kind a m).raiseWith (96 + b) 0x05A b 0 (marchRow a)

/-- A read of an aligned word of a bank (R193, R197): the word, or none if uncorrectable. -/
def State.bankWord (a : Nat) (m : Master) (s : State) : Option Nat × State :=
  let rs := (List.range 8).map fun i => s.readByte (a + i)
  let ce := (rs.filter fun r => match r with | .corrected _ => true | _ => false).length
  let s1 := s.ifDo (decide (0 < ce)) fun t => (t.satAdd F.CS_CNT_A_BYTE_CE ce).logMem 1 a m
  let bad := (List.range 4).filter fun j =>
    [j, j + 4].any fun i => match rs.getD i (.clean 0) with | .uncorrectable _ => true | _ => false
  if bad.isEmpty then (some (leNat (rs.map (·.value))), s1)
  else if s1.isSealed (a / 4096) then
    if bad.all fun j => s1.codewordErrors (a / 4096) j ≤ 8 then
      let s2 := (s1.each bad fun j t => t.mendCodeword (a / 4096) j).satAdd F.CS_CNT_B_RS_CE bad.length
      (some (leNat ((List.range 8).map fun i =>
        if bad.contains (i % 4) then s2.ldByte (a + i) else (rs.getD i (.clean 0)).value)), s2.logMem 3 a m)
    else (none, (s1.satAdd F.CS_CNT_B_RS_FAIL 1).bankUe 4 a m)
  else (none, s1.bankUe 2 a m)

/-! ### DRAM words -/

def State.wrongAt (s : State) (c : Fin 2) (off : Nat) : Nat := Sparse.get 0 (dramKey c off) s.mu.wrong

/-- New wrong stored bits of a word (CHK, data and PSN). -/
def State.dramStrike (c : Fin 2) (off mask : Nat) (s : State) : State :=
  s.modMu fun u => { u with wrong := Sparse.put 0 (dramKey c off) (s.wrongAt c off ^^^ mask % 2 ^ 80) u.wrong }

/-- What one channel's copy of a word decodes to. -/
inductive ChanWord where
  /-- the data bits that come out wrong, and whether something was corrected -/
  | good (r : Nat) (ce : Bool)
  | bad (kind : Nat)
deriving DecidableEq, Repr

def State.chanWord (s : State) (c : Fin 2) (off : Nat) : ChanWord :=
  let psn := s.mu.poison.contains (dramKey c off)
  match wordDec (s.wrongAt c off) with
  | .clean => if psn != (s.wrongAt c off).testBit 79 then .bad 8 else .good (dataBits (s.wrongAt c off)) false
  | .corrected f =>
    let r := s.wrongAt c off ^^^ f
    if psn != r.testBit 79 then .bad 8 else .good (dataBits r) true
  | .uncorrectable => .bad 6
  | .address => .bad 7

/-! ### Channel failure (R215, R217) -/

def chSource (c : Fin 2) : Nat := 119 + c.val
def chBit (c : Fin 2) : Nat := 2 * c.val

/-- The slot a lost channel takes with it (R217). -/
def State.slotLost (slot : Fin 2) (s : State) : State :=
  let mine := fun x => x / 0x4000 == slot.val
  let n := s.sepsIn mine
  let ids := s.pagesIn mine
  let s1 := s.storeRegs.postEvent 0x000A 0 [(28, [slot.val]), (32, leBytes n 4)]
  s1.each ids fun id t => t.sepLost id

/-- A channel fails. -/
def State.chanFail (c : Fin 2) (s : State) : State :=
  if s.ch c = chFailed then s
  else
    let s1 := (s.wr (chState c) chFailed).raise (chSource c) 0x058 (chBit c + 1)
    if s1.mirrored then
      let s2 := (s1.wr (H.STATE 0x058) 2).raise 121 0x059 0
      if s2.slotUp 0 then s2 else s2.slotLost 0
    else s1.slotLost c

/-- An uncorrectable read of a channel: counted, raised, and too many within 1 s fail the channel (R215). -/
def State.chanUe (c : Fin 2) (off : Nat) (raise_ : Bool) (s : State) : State :=
  let times := s.time :: s.mu.ueTimes[c].filter fun t => s.time < t + 100000000
  let s1 := (s.sat (F.DP_UE_WORDS c)).modMu fun u => { u with ueTimes := u.ueTimes.set c times }
  let s2 := if raise_ then s1.raiseWith (chSource c) 0x058 (chBit c) 0 (dramRow c off) else s1
  if s2.rd F.DP_CFG_FAIL_UE < times.length then s2.chanFail c else s2

/-- Kinds 6 and 7 are counted on the fabric page as well when they are address errors or poison (Table 8.15). -/
def State.chanBad (c : Fin 2) (off a kind : Nat) (m : Master) (s : State) : State :=
  let s1 := s.logMem kind a m
  if kind = 6 then s1.chanUe c off true
  else ((s1.ifDo (kind == 7) (·.sat F.CS_CNT_C_WORD_UE)).raiseWith 118 0x05A 22 0 (s1.fabricUnit a)).chanUe c off false

/-- A corrected read of a channel. -/
def State.chanCe (c : Fin 2) (a : Nat) (ce : Bool) (m : Master) (s : State) : State :=
  s.ifDo ce fun t => (t.satAdd (F.DP_CE_WORDS c) 1).logMem 5 a m

def other (c : Fin 2) : Fin 2 := if c = 0 then 1 else 0

/-- Does a channel hold a good copy of a whole block (R214)? -/
def State.blockGood (s : State) (c : Fin 2) (off : Nat) : Bool :=
  (s.ch c == chReady || (s.ch c == chRebuilding && decide (off / 64 * 64 + 64 ≤ s.mu.rebuilt))) &&
  (List.range 8).all fun w => match s.chanWord c (off / 64 * 64 + 8 * w) with | .good _ _ => true | .bad _ => false

/-- A read of a word that a channel serves (R214, R217): the word, or none if uncorrectable. -/
def State.chanRead (c : Fin 2) (off a : Nat) (m : Master) (s : State) : Option Nat × State :=
  match s.chanWord c off with
  | .good r ce => (some (s.ld a 8 ^^^ r), s.chanCe c a ce m)
  | .bad kind =>
    if s.mirrored then
      if s.blockGood (other c) off then
        let r := match s.chanWord (other c) off with | .good r _ => r | .bad _ => 0
        let s1 := s.chanUe c off true
        let s2 := s1.each (List.range 8) fun w t => t.dramMend c (off / 64 * 64 + 8 * w)
        (some (s.ld a 8 ^^^ r), ((s2.sat F.RS_REPAIR_BLOCKS).logMem 9 a m).event 0x059 1)
      else
        let s1 := (s.logMem 10 a m).sat F.RS_REPAIR_BOTH_UE
        let s2 := (s1.raiseWith 121 0x059 1 0 (dramRow c off)).chanUe c off true
        let s3 := if s2.ch (other c) = chFailed then s2 else s2.chanUe (other c) off true
        let mine := fun x => extAddr x ≤ a && a < extAddr x + extSize
        (none, s3.each (s3.pagesIn mine) fun id t => t.sepLost id)
    else (none, s.chanBad c off a kind m)

/-- A read of a DRAM word with its slot in service: by the preferred channel if it is READY (R214, R216). -/
def State.dramWord (a : Nat) (m : Master) (s : State) : Option Nat × State :=
  match slotAddr a with
  | none => (none, s)
  | some (slot, off) =>
    let p : Fin 2 := Fin.ofNat 2 (s.rd F.DP_CFG_PREF)
    s.chanRead (if s.mirrored then (if s.ch p = chReady then p else other p) else slot) off a m

/-- How far the running rebuild has come, in bytes: the blocks up to there are copied (R216). -/
def State.rebuiltTo (n : Nat) (s : State) : State :=
  let r := max s.mu.rebuilt n
  let c : Fin 2 := if s.ch 0 = chRebuilding then 0 else 1
  let copied := fun k => dramKey c s.mu.rebuilt ≤ k && k < dramKey c r
  s.ifDo (s.ch c == chRebuilding) fun t =>
    (t.modMu fun u => { u with rebuilt := r
                               wrong := u.wrong.filter fun e => !copied e.1
                               poison := u.poison.filter fun k => !copied k }).wr F.DP_REBUILD_DONE (r / 2 ^ 20)

/-! ### Words anywhere in memory -/

/-- Read an aligned word of memory that is in reach. -/
def State.memWord (a : Nat) (m : Master) (s : State) : Option Nat × State :=
  if s.inBank a 8 then s.bankWord a m else s.dramWord a m

/-- Read the bytes of `n` aligned words; none if any is uncorrectable. -/
def State.memWords (a : Nat) (m : Master) : Nat → State → Option (List Nat) × State
  | 0, s => (some [], s)
  | n + 1, s =>
    match s.memWord a m with
    | (none, t) => (none, t)
    | (some v, t) =>
      match State.memWords (a + 8) m n t with
      | (none, u) => (none, u)
      | (some r, u) => (some (leBytes v 8 ++ r), u)

/-- Read `n` bytes at any address. -/
def State.memBytes (a n : Nat) (m : Master) (s : State) : Option (List Nat) × State :=
  match s.memWords (a / 8 * 8) m ((a % 8 + n + 7) / 8) with
  | (some l, t) => (some ((l.drop (a % 8)).take n), t)
  | (none, t) => (none, t)

end Sys2Proof.Machine
end

