-- ==== Sys2Proof/Machine/Memory.lean ====
section
/-! DEFINITION. The commands of the DRAM port, the retention store and the codes page that write, seal, scrub and rebuild (08). -/
namespace Sys2Proof.Machine

/-! ### Channels -/

/-- No channel trains or fills any more: FILL_DONE (Table 8.16). -/
def State.fillOver (s : State) : Bool :=
  [s.ch 0, s.ch 1].all fun x => x != chTraining && x != chFilling

/-- A channel's words are filled: data 0, PSN 0, valid checks (R210). -/
def State.fillChannel (c : Fin 2) (s : State) : State :=
  let s1 := s.clearMem (0x1000000000 + c.val * 0x800000000) 0x800000000
  s1.modMu fun u => { u with wrong := u.wrong.filter fun e => e.1 / 2 ^ 40 != c.val
                             poison := u.poison.filter fun k => k / 2 ^ 40 != c.val }

/-- Training of a channel ends, and with it its fill, or the rebuild begins (R210, R215–R217). -/
def execDramFillDone (c : Fin 2) (ok : Bool) (gib : Nat) (s : State) : Result :=
  if s.ch c = chTraining ∨ s.ch c = chFilling then
    if s.dev = stFill ∨ s.dev = stBoot then
      let s1 := s.wr (chCap c) (min gib 32)
      let s2 := if gib = 0 then s1.wr (chState c) chOff
        else if ok then ((s1.fillChannel c).wr (chState c) chReady).storeRegs
        else (s1.wr (chState c) chFailed).raise (chSource c) 0x058 (chBit c + 1)
      .next (if s2.fillOver then ((s2.wr (H.STATE 0x058) 1).event 0x058 0) else s2)
    else if !ok then .next ((s.wr (chState c) chFilling).chanFail c)
    else if s.mirrored && s.ch (other c) == chReady then
      .next (((s.modMu fun u => { u with rebuilt := 0 }).wr (chState c) chRebuilding).wr F.DP_REBUILD_DONE 0)
    else .next (((s.fillChannel c).wr (chState c) chReady).storeRegs)
  else .next s

/-- DP_CFG.RETRAIN: a FAILED channel trains again; no effect on another (R216). -/
def execDramRetrain (agent : Agent) (chans : Nat) (s : State) : Result :=
  .next (s.write agent 0x058 0x040 fun t =>
    t.each ((List.finRange 2).filter fun c => bit chans c.val) fun c u =>
      u.ifDo (u.ch c == chFailed) (·.wr (chState c) chTraining))

/-- The rebuild of a channel completes (R216). -/
def execRebuildDone (c : Fin 2) (s : State) : Result :=
  if s.ch c = chRebuilding then
    .next ((((s.rebuiltTo (s.slotBytes 0)).wr (chState c) chReady).wr (H.STATE 0x058) 1).event 0x058 1)
  else .next s

/-- A channel's command that fails 3 retries fails the channel (R215). -/
def State.stuck (s0 s1 : Bool) (s : State) : State := (s.ifDo s0 (·.chanFail 0)).ifDo s1 (·.chanFail 1)

/-- An access error returned to a master (R8, R22): counted; a berth's is a NOTE on source 3; a DMA channel halts. -/
def State.busError (m : Master) (addr : Nat) (s : State) : State :=
  let s1 := s.sat F.DV_CNT_ACCESS
  match m with
  | .berth _ _ => (s1.emit (.accessError .busError)).raise 3 0x000 3
  | .dma n => if s1.dcState n = dcActive ∨ s1.dcState n = dcPausing then (s1.dcError n dsAccess 0 addr).hwReact else s1
  | _ => s1.emit (.accessError .busError)

/-- Store consecutive words. -/
def State.dramPuts (a : Nat) : List Nat → State → State
  | [], s => s
  | v :: r, s => State.dramPuts (a + 8) r (s.dramPut a (v % 2 ^ 64))

/-- Wrong bits that a word brought with it stay in the DRAM until they are read (R200). -/
def State.dramTaint (a flight : Nat) (s : State) : State :=
  match slotAddr a with
  | some (slot, off) =>
    if s.mirrored then (s.dramStrike 0 off flight).dramStrike 1 off flight else s.dramStrike slot off flight
  | none => s

/-- A DRAM write: whole aligned words of one block (R205, R207, R213, R215). -/
def execDramWrite (m : Master) (addr : Nat) (words : List Nat) (enables flight : Nat) (stuck0 stuck1 : Bool) (s : State) : Result :=
  let s := s.stuck stuck0 stuck1
  if enables ≠ 0xFF ∨ addr % 8 ≠ 0 ∨ words = [] ∨ 64 < addr % 64 + 8 * words.length ∨ !s.inDram addr (8 * words.length) ∨
      m = .harbourmaster then
    .next (s.busError m addr)
  else
    let s1 := s.dramPuts addr words
    .next (if flight % 2 ^ 80 = 0 then s1 else s1.dramTaint addr flight)

/-! ### Sealing -/

/-- CS_SEAL.GO (R194, R219, R226). -/
def execSealGo (agent : Agent) (page count : Nat) (s : State) : Result :=
  .next (s.write agent 0x05A 0x044 fun t =>
    if t.rd F.CS_SEAL_STAT_STATUS = 1 then t.accessBusy 0x05A
    else
      let n := if count % 4096 = 0 then 1 else count % 4096
      let t1 := (t.wr F.CS_SEAL_PAGE page).wr F.CS_SEAL_COUNT n
      let first := t1.rd F.CS_SEAL_PAGE
      let pages := ((List.range n).map (first + ·)).filter fun p => t.inBank (p * 4096) 4096 && !t.mu.noSeal.contains p
      ((t1.modMu fun u => { u with sealing := pages }).wr F.CS_SEAL_STAT_STATUS 1).wr F.CS_SEAL_STAT_DONE 0)

/-- Seal a page: its hallmark is written (R194–R196). -/
def State.sealPage (p : Nat) (s : State) : State :=
  let h := hallmark (s.ldBytes (p * 4096) 4096)
  s.modMu fun u => { u with marks := Sparse.ins p h (Sparse.del p u.marks) }

/-- The pages of the running command are SEALED (R194, R226). -/
def execSealDone (s : State) : Result :=
  if s.rd F.CS_SEAL_STAT_STATUS = 1 then
    let n := s.mu.sealing.length
    let s1 := (s.each s.mu.sealing State.sealPage).modMu fun u => { u with sealing := [] }
    .next (((s1.wr F.CS_SEAL_STAT_STATUS 2).wr F.CS_SEAL_STAT_DONE n).event 0x05A 0)
  else .next s

/-! ### Scrubbing (R212) -/

/-- The end of a scrub pass. -/
def State.passEnd (i : Fin 2) (s : State) : State :=
  let s1 := s.inc (if i = 0 then F.CS_SCRUB_ONCHIP else F.CS_SCRUB_DRAM)
  (s1.modMu fun u => { u with passAt := u.passAt.set i s.time }).event 0x05A 4

/-- Corrected bytes of a word are written back. -/
def State.scrubBytes (a : Nat) (s : State) : State :=
  s.each (List.range 8) fun i t =>
    match t.readByte (a + i) with
    | .corrected v => (t.putUpset (a + i) 0).stByte (a + i) v
    | _ => t

/-- The four codewords of a sealed page: written back if they decode, else the page is OPEN and RS_FAIL is logged. -/
def State.scrubPage (a : Nat) (s : State) : State :=
  let p := a / 4096
  s.each (List.range 4) fun j t =>
    let n := t.codewordErrors p j
    if !t.isSealed p || n = 0 then t
    else if n ≤ 8 then (t.mendCodeword p j).sat F.CS_CNT_B_RS_CE
    else (((t.sat F.CS_CNT_B_RS_FAIL).bankUe 4 a .scrub).openPage p)

/-- A scrub read of a channel's copy of a word: corrected and written back, or in independent mode poisoned if uncorrectable. -/
def State.scrubChan (c : Fin 2) (off a : Nat) (s : State) : State :=
  match s.chanRead c off a .scrub with
  | (some v, t) =>
    match s.chanWord c off with
    | .good r true => (t.modMu fun u => { u with wrong := Sparse.del (dramKey c off) u.wrong }).ifDo (r != 0) (·.st a 8 v)
    | _ => t
  | (none, t) =>
    if t.mirrored then t
    else t.modMu fun u => { u with wrong := Sparse.del (dramKey c off) u.wrong
                                   poison := dramKey c off :: u.poison.filter (· != dramKey c off) }

/-- A scrub read of a word on chip or in DRAM; in mirrored mode of both READY channels' copies. -/
def execScrubRead (addr : Nat) (strikes : List (Nat × Nat)) (wrong0 wrong1 : Nat) (last : Bool) (s : State) : Result :=
  let a := addr / 8 * 8
  if !s.on F.CS_CFG_SCRUB_EN ∨ s.dev = stSlack then .next s
  else if s.inBank a 8 then
    let s1 := s.strike (a / 4096) strikes
    let s2 := (if s1.isSealed (a / 4096) then s1.scrubPage a else s1)
    let s3 := (s2.bankWord a .scrub).2.scrubBytes a
    .next (s3.ifDo last (·.passEnd 0))
  else if s.inDram a 8 then
    match slotAddr a with
    | none => .next s
    | some (slot, off) =>
      let s1 := if s.mirrored then (s.dramStrike 0 off wrong0).dramStrike 1 off wrong1
        else s.dramStrike slot off (if slot = 0 then wrong0 else wrong1)
      let s3 := if s1.mirrored then s1.each (List.finRange 2) fun c t => t.ifDo (t.ch c == chReady) (·.scrubChan c off a)
        else s1.scrubChan slot off a
      .next (s3.ifDo last (·.passEnd 1))
  else .next s

/-- A pass has not completed within its period (R212, R227). -/
def execScrubLate (onChip : Bool) (s : State) : Result :=
  let i : Fin 2 := if onChip then 0 else 1
  let period := if onChip then s.rd F.CS_CFG_ONCHIP_S * 100000000 else s.rd F.CS_CFG_DRAM_MIN * 6000000000
  if s.on F.CS_CFG_SCRUB_EN ∧ s.dev ≠ stSlack ∧ s.mu.passAt[i] + period ≤ s.time then
    .next ((s.modMu fun u => { u with passAt := u.passAt.set i s.time }).raise 122 0x05A 23)
  else .next s

end Sys2Proof.Machine
end

