-- ==== Sys2Proof/Machine/PowerBase.lean ====
section
/-!
DEFINITION. Sequence tables, items, and the start of a sequence (15): what the boot path, faults and pins share.
-/
namespace Sys2Proof.Machine

def psPage : Nat := 0x003

/-- MRAM address of profile slot p (Table 1.5). -/
def slotBase (p : Nat) : Nat := 0x05000000 + p * 0x40000

/-- A field of page 0x003 as the sequencer uses it: from the power block of the selected slot until FILL applies it. -/
def State.psRd (s : State) (f : Fld) : Nat :=
  if s.seq.early && f.off < 0x480 then
    bits (s.ld (slotBase (s.rd F.DV_INFO_PROF) + 0x100 + (f.off - 0x040)) 4) f.lsb f.width
  else s.rd f

/-! ### Table entries (Table 15.2) -/

def seItem (w : Nat) : Nat := w % 64
def seWith (w : Nat) : Bool := bit w 6
def seDelay (w : Nat) : Nat := bits w 8 8

def itEnd : Nat := 63
def itCascOut : Nat := 48
def itCascWait : Nat := 49

def isDomain (i : Nat) : Bool := 1 ≤ i && i ≤ 11
def isRail (i : Nat) : Bool := 16 ≤ i && i ≤ 39

/-- The entries before the first END. -/
def seEntries (t : List Nat) : List Nat := t.takeWhile fun w => seItem w != itEnd

/-- The domains a domain requires (Table 1.6). -/
def requires : Nat → List Nat
  | 2 => [1] | 3 => [1] | 4 => [11, 6] | 5 => [11, 6] | 6 => [7] | 7 => [1] | 8 => [1] | 9 => [2, 11] | 10 => [1]
  | _ => []

def seValid (w : Nat) : Bool :=
  let i := seItem w
  (isDomain i || isRail i || i == itCascOut || i == itCascWait || i == itEnd) && bit w 7 == false && bits w 16 16 == 0

/-- Position of an item among the entries. -/
def sePos (t : List Nat) (i : Nat) : Nat := (seEntries t).findIdx fun w => seItem w == i

def seNoDup (t : List Nat) : Bool :=
  let l := ((seEntries t).map seItem).filter fun i => isDomain i || isRail i
  decide l.Nodup

/-- R390 for SEQ_UP: END present, entries valid, no item twice, every domain, none before one it requires. -/
def seqUpOk (t : List Nat) : Bool :=
  let n := (seEntries t).length
  decide (n < t.length) && (seEntries t).all seValid && seNoDup t &&
  ((List.range 11).map (· + 1)).all fun d => sePos t d < n && (requires d).all fun r => sePos t r < sePos t d

/-- R390 for SEQ_DN, read with R28: a domain goes down only after every domain that requires it (log 31); a rail sensed by
the ADC comes before PD9. -/
def seqDnOk (t : List Nat) (adcRail : Nat → Bool) : Bool :=
  let n := (seEntries t).length
  decide (n < t.length) && (seEntries t).all seValid && seNoDup t &&
  (((List.range 11).map (· + 1)).all fun d => sePos t d == n ||
    ((List.range 11).map (· + 1)).all fun e => !(requires e).contains d || sePos t e == n || sePos t e < sePos t d) &&
  ((List.range 24).all fun r => !adcRail r || sePos t (16 + r) == n || sePos t 9 == n || sePos t (16 + r) < sePos t 9)

/-- R390: the default up-sequence, and its reverse for the way down. -/
def defaultUp : List Nat := [11, 1, 7, 8, 10, 2, 3, 6, 9, 4, 5, 63]
def defaultDn : List Nat := [5, 4, 9, 6, 3, 2, 10, 8, 7, 1, 11, 63]

def State.tableUp (s : State) : List Nat := (List.range 48).map fun j => s.psRd (F.SEQ_UP_ENTRY j)
def State.tableDn (s : State) : List Nat := (List.range 48).map fun j => s.psRd (F.SEQ_DN_ENTRY j)

def State.upOk (s : State) : Bool := seqUpOk s.tableUp
def State.dnOk (s : State) : Bool := seqDnOk s.tableDn fun n => s.psRd (F.RAIL_CFG_OFF_SRC n) == 1

def State.domState (s : State) (d : Nat) : Nat := s.rd (F.PD_CFG_STATE d)

/-! ### Starting a sequence -/

def State.modSeq (f : Sequencer → Sequencer) (s : State) : State := { s with seq := f s.seq }

def Sequencer.begin_ (q : Sequencer) (d : SeqDir) (t : List Nat) (now : Nat) : Sequencer :=
  { q with dir := d, table := t, begun := now, started := Vector.replicate 48 none, done := Vector.replicate 48 none,
           queues := Vector.replicate 4 [] }

/-- PS_STAT follows the sequence: entry in progress and direction. -/
def State.seqRegs (s : State) : State :=
  let n := (List.range 48).foldl (fun m j => if (s.seq.started.toList.getD j none).isSome then j else m) 0
  (s.wr F.PS_STAT_ENTRY n).wr F.PS_STAT_DIR (b2n (s.seq.dir == .down))

/-- PS_STAT.CASC shows the cascade pins. -/
def State.cascRegs (s : State) : State :=
  s.wr F.PS_STAT_CASC (b2n s.seq.uiLevel + 2 * b2n s.seq.uoLevel + 4 * b2n s.seq.diLevel + 8 * b2n s.seq.doLevel)

/-- SEQ_UP starts from entry 0; an invalid table does not start and raises SEQ_BAD (R390, R392, R395). -/
def State.startUp (s : State) : State :=
  let t := if s.seq.bad then defaultUp else s.tableUp
  if s.seq.bad || s.upOk then
    let s1 := s.modSeq fun q => { q.begin_ .up t s.time with failed := false, doLevel := false, autoKind := 0, fromSafe := false }
    ((s1.wr (H.STATE psPage) 1).seqRegs).cascRegs
  else s.raise 4 psPage 1

/-- A down-sequence starts (R397): heads quenched, FEED_EN cleared, VCORE at 0.80 V (R403). -/
def State.startDown (failed : Bool) (auto_ : Nat) (s : State) : State :=
  if s.seq.dir = .down then s
  else if !s.seq.bad && !s.dnOk then s.raise 4 psPage 1
  else
    let t := if s.seq.bad then defaultDn else s.tableDn
    let s1 := (s.headsSafe.wr F.PT_CFG_FEED_EN 0).vcoreMax
    let s2 := s1.modSeq fun q =>
      { q.begin_ .down t s.time with failed := failed, autoKind := auto_, fromSafe := s.isSafe, uoLevel := false, slackExit := false,
                                     ramping := [] }
    ((s2.wr (H.STATE psPage) 3).seqRegs).cascRegs

/-- A failed item: recorded in PS_FAIL and logged, SEQ_FAIL raised, the down-sequence runs (R392). -/
def State.stepFail (item reason : Nat) (s : State) : State :=
  let s1 := (s.wr F.PS_FAIL_ITEM item).wr F.PS_FAIL_REASON reason
  (s1.raise 4 psPage 0).startDown true 0

/-- A record that does not halt the sequence (R396). -/
def State.seqRecord (item reason : Nat) (s : State) : State :=
  ((s.wr F.PS_FAIL_ITEM item).wr F.PS_FAIL_REASON reason).logRecord 0x01 [item, reason]

/-- The domain's banks are cleared before any access completes (R211); addresses of Table 1.4. -/
def domainBanks : Nat → List (Nat × Nat)
  | 1 => [(0x03400000, 4 * 0x80000), (0x03A00000, 0x200000)]
  | 2 => [(0x03400000 + 4 * 0x80000, 4 * 0x80000), (0x03C00000, 0x40000)]
  | 3 => [(0x03400000 + 8 * 0x80000, 4 * 0x80000)]
  | 4 => [(0x00000000, 3 * 0x800000)]
  | 5 => [(0x01800000, 3 * 0x800000)]
  | 6 => [(0x03000000, 0x400000)]
  | _ => []

/-- Clear a bank range: contents 0, pages OPEN (R209). -/
def State.fillRange (a n : Nat) (s : State) : State :=
  let s1 := s.clearMem a n
  { s1 with mu := { s1.mu with
    marks := s1.mu.marks.filter fun p => !(a ≤ p.1 * 4096 && p.1 * 4096 < a + n)
    upsets := s1.mu.upsets.filter fun u => !(a ≤ u.1 && u.1 < a + n) && !(2 ^ 52 ≤ u.1 && a ≤ (u.1 - 2 ^ 52) / 256 * 4096 && (u.1 - 2 ^ 52) / 256 * 4096 < a + n) } }

def State.clearDomain (d : Nat) (s : State) : State := s.each (domainBanks d) fun r t => t.fillRange r.1 r.2

end Sys2Proof.Machine
end

