-- ==== Sys2Proof/Machine/RegTable.lean ====
section
/-!
DEFINITION. The register tables of the manual as data: what a write to an offset of a page may change.
One row per named field, in the columns of the manual (00, Tables 0.4 and 0.5): offset, the strides and counts of
its array indices, lowest bit, width, access code, class, reset value, whether the reset is "prof", and how a value
outside the field's range reads back.  Bits and offsets no row covers are reserved (R9).
-/
namespace Sys2Proof.Machine

/-- Access codes of Table 0.4. -/
inductive Acc where | rw | ro | w1c | w1s | wo
deriving DecidableEq, Repr

/-- Field classes of Table 0.5; `none` for the fields without one. -/
inductive Cls where | staged | live | idle | none
deriving DecidableEq, Repr

/-- How a written value reads back where the table limits it. -/
inductive Norm where
  | any
  /-- `lo..hi` as written, `below` for a smaller and `above` for a larger value. -/
  | range (lo hi below above : Nat)
  /-- `ADC_SEQ[c][k].CH`: a channel of converter c, else 0x3F (Table 14.9). -/
  | adcChannel
  /-- `ZRAS_CTRL.BURST`: BURST + 1 rounded up to a multiple of 4 (Table 19.6). -/
  | roundUp4
  /-- The lowest `n` bits read 0. -/
  | clear (n : Nat)
deriving DecidableEq, Repr

structure Row where
  name  : String
  off   : Nat
  dims  : List (Nat × Nat)
  lsb   : Nat
  width : Nat
  acc   : Acc
  cls   : Cls
  reset : Nat
  prof  : Bool
  norm  : Norm
deriving DecidableEq, Repr

/-- The blocks of the page directory (Table 20.1); `debug` has no registers of its own (R510). -/
inductive Block where
  | timeline
  | beam
  | interlace
  | imaging
  | registration
  | headLink
  | codec
  | decodeLane
  | encodeLane
  | dramPort
  | retention
  | codes
  | dmaGlobal
  | dmaChannel
  | quay
  | edkar
  | stepper
  | encoder
  | sheetSensors
  | commutation
  | motorBus
  | loopEngine
  | adc
  | pwm
  | sequencer
  | clocks
  | faultCollector
  | harbourmaster
  | berth
  | mram
  | legacyPort
  | device
  | timebase
  | debug
deriving DecidableEq, Repr

namespace RegTable

/-- Table 2.7, Table 2.8, Table 2.9, Table 2.10, Table 2.11. -/
def timeline0 : List Row :=
  [ ⟨"PT_CFG.FEED_EN", 0x40, [], 0, 1, .rw, .live, 0, false, .any⟩,
    ⟨"PT_CFG.REPRINT_EN", 0x40, [], 1, 1, .rw, .staged, 0, true, .any⟩,
    ⟨"PT_CFG.REPRINT_ORDER", 0x40, [], 2, 1, .rw, .staged, 0, true, .any⟩,
    ⟨"PT_CFG.PURGE_PATH", 0x40, [], 3, 1, .rw, .idle, 0, true, .any⟩,
    ⟨"PT_CFG.REPRINT_MAX", 0x40, [], 4, 4, .rw, .staged, 0, true, .any⟩,
    ⟨"PT_CFG.ANCHOR_SRC", 0x40, [], 8, 6, .rw, .idle, 0, true, .any⟩,
    ⟨"PT_CFG.EXIT_SRC", 0x40, [], 16, 6, .rw, .idle, 0, true, .any⟩,
    ⟨"PT_CFG.INFLIGHT_MAX", 0x40, [], 24, 5, .rw, .staged, 0, true, .range 1 16 16 16⟩,
    ⟨"PT_SPEED.SPEED", 0x44, [], 0, 24, .rw, .staged, 0, true, .any⟩,
    ⟨"PT_GAP.GAP", 0x48, [], 0, 20, .rw, .staged, 0, true, .any⟩,
    ⟨"PT_FEED_LEAD.TICKS", 0x4c, [], 0, 32, .rw, .staged, 0, true, .any⟩,
    ⟨"PT_ANN_LEAD.TICKS", 0x50, [], 0, 24, .rw, .staged, 0, true, .any⟩,
    ⟨"PT_COMMIT_LEAD.TICKS", 0x54, [], 0, 24, .rw, .staged, 200000, false, .any⟩,
    ⟨"PT_ANCHOR_WIN.TICKS", 0x58, [], 0, 24, .rw, .staged, 300000, false, .any⟩,
    ⟨"PT_HANDOFF_OFFS.TICKS", 0x5c, [], 0, 32, .rw, .staged, 0, true, .any⟩,
    ⟨"PT_STN_OFFS.TICKS", 0x60, [(4, 6)], 0, 32, .rw, .staged, 0, true, .any⟩,
    ⟨"PT_STN_TRIM.TICKS", 0x80, [(4, 6)], 0, 24, .rw, .staged, 0, false, .any⟩,
    ⟨"PT_DIVERT_OFFS.TICKS", 0x98, [], 0, 32, .rw, .staged, 0, true, .any⟩,
    ⟨"PT_SKIP.COUNT", 0x9c, [], 0, 8, .wo, .live, 0, false, .any⟩,
    ⟨"PT_SKIP.REMAIN", 0x9c, [], 8, 8, .ro, .none, 0, false, .any⟩,
    ⟨"PT_GATE_STAT.FEED", 0xa0, [], 0, 8, .ro, .none, 0, false, .any⟩,
    ⟨"PT_GATE_STAT.COMMIT", 0xa0, [], 8, 8, .ro, .none, 0, false, .any⟩,
    ⟨"PT_CNT_A.SKIP", 0xa4, [], 0, 16, .ro, .none, 0, false, .any⟩,
    ⟨"PT_CNT_A.BLANK", 0xa4, [], 16, 16, .ro, .none, 0, false, .any⟩ ]

/-- Table 2.11, Table 2.12. -/
def timeline1 : List Row :=
  [ ⟨"PT_CNT_B.LOST", 0xa8, [], 0, 16, .ro, .none, 0, false, .any⟩,
    ⟨"PT_CNT_B.REPRINT", 0xa8, [], 16, 16, .ro, .none, 0, false, .any⟩,
    ⟨"PT_NEXT_ANCHOR_LO", 0xb0, [], 0, 32, .ro, .none, 0, false, .any⟩,
    ⟨"PT_NEXT_ANCHOR_HI", 0xb4, [], 0, 32, .ro, .none, 0, false, .any⟩,
    ⟨"PT_QUEUE.RELEASED", 0xb8, [], 0, 16, .ro, .none, 0, false, .any⟩,
    ⟨"PT_QUEUE.INFLIGHT", 0xb8, [], 16, 5, .ro, .none, 0, false, .any⟩,
    ⟨"PT_SLOT.PAGE_ID", 0x100, [(16, 16)], 0, 32, .ro, .none, 0, false, .any⟩,
    ⟨"PT_SLOT.SHEET", 0x104, [(16, 16)], 0, 32, .ro, .none, 0, false, .any⟩,
    ⟨"PT_SLOT.STATE", 0x108, [(16, 16)], 0, 4, .ro, .none, 0, false, .any⟩,
    ⟨"PT_SLOT.REPRINTS", 0x108, [(16, 16)], 4, 4, .ro, .none, 0, false, .any⟩,
    ⟨"PT_SLOT.CAUSE", 0x108, [(16, 16)], 8, 8, .ro, .none, 0, false, .any⟩,
    ⟨"PT_SLOT.EXTRA", 0x108, [(16, 16)], 16, 8, .ro, .none, 0, false, .any⟩,
    ⟨"PT_SLOT.ANCHOR_LO", 0x10c, [(16, 16)], 0, 32, .ro, .none, 0, false, .any⟩ ]

def timeline : List Row := timeline0 ++ timeline1

/-- Table 3.6. -/
def beam0 : List Row :=
  [ ⟨"BT_CFG.EDGE", 0x40, [], 0, 1, .rw, .idle, 0, true, .any⟩,
    ⟨"BT_CFG.BD_MINW", 0x40, [], 4, 4, .rw, .idle, 0, true, .any⟩,
    ⟨"BT_CFG.POLY_CH", 0x40, [], 8, 4, .rw, .idle, 0, true, .any⟩,
    ⟨"BT_CFG.IDX_KIND", 0x40, [], 12, 2, .rw, .idle, 0, true, .any⟩,
    ⟨"BT_CFG.IDX_NUM", 0x40, [], 16, 6, .rw, .idle, 0, true, .any⟩,
    ⟨"BT_CFG.FACETS", 0x40, [], 24, 4, .rw, .idle, 0, true, .range 4 12 8 8⟩,
    ⟨"BT_CFG.GROUP", 0x40, [], 28, 1, .ro, .none, 0, true, .any⟩,
    ⟨"BT_LS_DELAY.DELAY", 0x44, [], 0, 20, .rw, .staged, 0, true, .any⟩,
    ⟨"BT_BD_WIN.PX", 0x48, [], 0, 12, .rw, .staged, 0, true, .any⟩,
    ⟨"BT_STROBE.HEAD_LAT", 0x4c, [], 0, 8, .rw, .idle, 0, true, .any⟩,
    ⟨"BT_STROBE.WIDTH", 0x4c, [], 8, 4, .rw, .idle, 4, false, .range 1 4294967295 4 0⟩,
    ⟨"BT_LINE.LINE_PX", 0x50, [], 0, 15, .rw, .staged, 0, true, .any⟩,
    ⟨"BT_LINE.ZONE_W", 0x50, [], 16, 10, .rw, .staged, 0, true, .any⟩,
    ⟨"BT_MAG.PPM", 0x54, [], 0, 16, .rw, .staged, 0, false, .any⟩,
    ⟨"BT_TLINE.TICKS", 0x58, [], 0, 32, .rw, .staged, 0, true, .any⟩,
    ⟨"BT_LOCK.LOCK_WIN", 0x5c, [], 0, 12, .rw, .live, 128, false, .any⟩,
    ⟨"BT_LOCK.LOCK_CNT", 0x5c, [], 16, 8, .rw, .live, 64, false, .range 1 4294967295 1 0⟩,
    ⟨"BT_PHASE.PH_OFFS", 0x60, [], 0, 16, .rw, .idle, 0, true, .any⟩,
    ⟨"BT_PHASE.PH_TRIM", 0x60, [], 16, 16, .rw, .live, 0, false, .any⟩,
    ⟨"BT_PHLOOP.PH_SLEW", 0x64, [], 0, 10, .rw, .live, 64, false, .any⟩,
    ⟨"BT_PHLOOP.PH_KP", 0x64, [], 16, 8, .rw, .live, 0, true, .any⟩,
    ⟨"BT_PHLOOP.PH_KI", 0x64, [], 24, 8, .rw, .live, 0, true, .any⟩,
    ⟨"BT_PHLIM.PH_LIM", 0x68, [], 0, 8, .rw, .live, 50, false, .any⟩,
    ⟨"BT_STAT.FACET", 0x6c, [], 0, 4, .ro, .none, 0, false, .any⟩ ]

/-- Table 3.6, Table 3.7, Table 3.8, Table 3.9. -/
def beam1 : List Row :=
  [ ⟨"BT_STAT.MISS_RUN", 0x6c, [], 4, 2, .ro, .none, 0, false, .any⟩,
    ⟨"BT_STAT.SLEWING", 0x6c, [], 8, 1, .ro, .none, 0, false, .any⟩,
    ⟨"BT_STAT.TRIM_NOW", 0x6c, [], 16, 16, .ro, .none, 0, false, .any⟩,
    ⟨"BT_PHERR.ERR", 0x70, [], 0, 16, .ro, .none, 0, false, .any⟩,
    ⟨"BT_PERIOD.TICKS", 0x74, [], 0, 32, .ro, .none, 0, false, .any⟩,
    ⟨"BT_BD_LO", 0x78, [], 0, 32, .ro, .none, 0, false, .any⟩,
    ⟨"BT_BD_HI", 0x7c, [], 0, 32, .ro, .none, 0, false, .any⟩,
    ⟨"BT_BD_FRAC.FRAC", 0x80, [], 0, 8, .ro, .none, 0, false, .any⟩,
    ⟨"BT_SCAN.COUNT", 0x84, [], 0, 32, .ro, .none, 0, false, .any⟩,
    ⟨"BT_CNT_A.MISSING", 0x88, [], 0, 16, .ro, .none, 0, false, .any⟩,
    ⟨"BT_CNT_A.STRAY", 0x88, [], 16, 16, .ro, .none, 0, false, .any⟩,
    ⟨"BT_CNT_B.FACET_SYNC", 0x8c, [], 0, 16, .ro, .none, 0, false, .any⟩,
    ⟨"BT_CNT_B.UNLOCK", 0x8c, [], 16, 16, .ro, .none, 0, false, .any⟩,
    ⟨"FACET_OFFS.FINE", 0xc0, [(4, 16)], 0, 6, .rw, .staged, 0, true, .any⟩,
    ⟨"FACET_OFFS.COARSE", 0xc0, [(4, 16)], 8, 8, .rw, .staged, 0, true, .any⟩,
    ⟨"ZONE.SHIFT", 0x100, [(4, 64)], 0, 16, .rw, .staged, 0, false, .any⟩,
    ⟨"ZONE.P", 0x100, [(4, 64)], 16, 16, .ro, .none, 0, false, .any⟩,
    ⟨"FREF_INC.INC", 0x200, [(4, 2)], 0, 32, .rw, .idle, 0, true, .any⟩ ]

def beam : List Row := beam0 ++ beam1

/-- Table 4.8. -/
def interlace0 : List Row :=
  [ ⟨"IL_GEOM.A", 0x40, [], 0, 6, .rw, .idle, 0, true, .any⟩,
    ⟨"IL_GEOM.BSEL", 0x40, [], 8, 2, .rw, .idle, 0, true, .range 0 2 0 0⟩,
    ⟨"IL_GEOM.NEMIT", 0x40, [], 16, 7, .rw, .idle, 0, true, .any⟩,
    ⟨"IL_CYCLE.K", 0x44, [], 0, 7, .rw, .staged, 0, true, .range 1 4294967295 64 0⟩,
    ⟨"IL_CYCLE.ADV", 0x44, [], 8, 16, .rw, .staged, 0, true, .any⟩,
    ⟨"IL_LEAD.LEAD", 0x48, [], 0, 10, .rw, .staged, 0, true, .any⟩,
    ⟨"IL_DEAD_LO.MASK", 0x4c, [], 0, 32, .rw, .live, 0, false, .any⟩,
    ⟨"IL_DEAD_HI.MASK", 0x50, [], 0, 32, .rw, .live, 0, false, .any⟩,
    ⟨"IL_FILL.MIX", 0x54, [], 0, 6, .rw, .staged, 0, true, .any⟩,
    ⟨"IL_FILL.PSTEP", 0x54, [], 8, 2, .rw, .staged, 0, true, .any⟩,
    ⟨"IL_FILL.EN", 0x54, [], 16, 1, .rw, .live, 0, true, .any⟩,
    ⟨"IL_TEST.EVERY", 0x58, [], 0, 8, .rw, .live, 0, true, .any⟩,
    ⟨"IL_TEST.GUARD", 0x58, [], 8, 12, .rw, .live, 100, false, .any⟩,
    ⟨"IL_TEST.NOW", 0x58, [], 31, 1, .wo, .live, 0, false, .any⟩,
    ⟨"IL_TEST_STAT.RUNNING", 0x5c, [], 0, 1, .ro, .none, 0, false, .any⟩,
    ⟨"IL_TEST_STAT.PENDING", 0x5c, [], 1, 1, .ro, .none, 0, false, .any⟩,
    ⟨"IL_TEST_STAT.GOOD", 0x5c, [], 8, 7, .ro, .none, 0, false, .any⟩,
    ⟨"IL_TEST_STAT.MARGINAL", 0x5c, [], 16, 7, .ro, .none, 0, false, .any⟩,
    ⟨"IL_TEST_STAT.FAILED", 0x5c, [], 24, 7, .ro, .none, 0, false, .any⟩,
    ⟨"IL_TEST_CNT.TESTS", 0x60, [], 0, 16, .ro, .none, 0, false, .any⟩,
    ⟨"IL_TEST_CNT.DEGRADED", 0x60, [], 16, 7, .ro, .none, 0, false, .any⟩,
    ⟨"IL_REPLAN.SKIP_OK", 0x64, [], 0, 1, .rw, .live, 0, false, .any⟩,
    ⟨"IL_REPLAN.REQ", 0x64, [], 1, 1, .ro, .none, 0, false, .any⟩,
    ⟨"IL_REPLAN.REASON", 0x64, [], 4, 4, .ro, .none, 0, false, .any⟩ ]

/-- Table 4.8, Table 4.9, Table 4.10. -/
def interlace1 : List Row :=
  [ ⟨"IL_THERM.WARN", 0x68, [], 0, 10, .rw, .live, 0, true, .any⟩,
    ⟨"IL_THERM.CUT", 0x68, [], 16, 10, .rw, .live, 0, true, .any⟩,
    ⟨"IL_THERM.CUT_Q", 0x68, [], 28, 4, .rw, .live, 4, false, .any⟩,
    ⟨"IL_THERM2.HYST", 0x6c, [], 0, 8, .rw, .live, 0, true, .any⟩,
    ⟨"IL_THERM2.POL", 0x6c, [], 8, 1, .rw, .idle, 0, true, .any⟩,
    ⟨"IL_THERM_STAT.TEMP", 0x70, [], 0, 10, .ro, .none, 0, false, .any⟩,
    ⟨"IL_THERM_STAT.CAP", 0x70, [], 16, 1, .ro, .none, 0, false, .any⟩,
    ⟨"IL_THERM_STAT.CUT", 0x70, [], 17, 1, .ro, .none, 0, false, .any⟩,
    ⟨"IL_FILLTAB.W", 0x80, [(4, 64)], 0, 6, .rw, .staged, 0, true, .any⟩,
    ⟨"IL_ENTRY.MASK_LO", 0x200, [(16, 64)], 0, 32, .rw, .staged, 0, true, .any⟩,
    ⟨"IL_ENTRY.MASK_HI", 0x204, [(16, 64)], 0, 32, .rw, .staged, 0, true, .any⟩,
    ⟨"IL_ENTRY.BASE", 0x208, [(16, 64)], 0, 16, .rw, .staged, 0, true, .any⟩,
    ⟨"IL_RES.RDYN", 0x600, [(8, 64)], 0, 16, .ro, .none, 0, false, .any⟩,
    ⟨"IL_RES.RNOM", 0x600, [(8, 64)], 16, 16, .rw, .idle, 0, true, .any⟩,
    ⟨"IL_RES.CLASS", 0x604, [(8, 64)], 0, 3, .ro, .none, 0, false, .any⟩,
    ⟨"IL_RES.DEGR", 0x604, [(8, 64)], 3, 1, .ro, .none, 0, false, .any⟩,
    ⟨"IL_RES.TESTS", 0x604, [(8, 64)], 16, 16, .ro, .none, 0, false, .any⟩ ]

def interlace : List Row := interlace0 ++ interlace1

/-- Table 5.9, Table 5.10, Table 5.11. -/
def imaging0 : List Row :=
  [ ⟨"IM_CFG.FMT", 0x40, [], 0, 2, .rw, .staged, 0, true, .any⟩,
    ⟨"IM_CFG.TAGS", 0x40, [], 2, 1, .rw, .staged, 0, true, .any⟩,
    ⟨"IM_CFG.IN_RES", 0x40, [], 4, 2, .rw, .staged, 0, true, .range 0 1 0 0⟩,
    ⟨"IM_CFG.OUT_LPI", 0x40, [], 6, 2, .rw, .staged, 0, true, .range 0 2 0 0⟩,
    ⟨"IM_RING.BASE", 0x44, [], 0, 7, .rw, .idle, 0, true, .any⟩,
    ⟨"IM_RING.LINES", 0x44, [], 16, 16, .rw, .idle, 0, true, .range 16 65535 16 65535⟩,
    ⟨"IM_RING_STAT.FILL", 0x48, [], 0, 16, .ro, .none, 0, false, .any⟩,
    ⟨"IM_RING_STAT.STRIDE", 0x48, [], 16, 16, .ro, .none, 0, false, .any⟩,
    ⟨"IM_TBASE_LUT.OFFS", 0x4c, [], 0, 23, .rw, .staged, 0, true, .clear 6⟩,
    ⟨"IM_TBASE_SCR.OFFS", 0x50, [], 0, 23, .rw, .staged, 0, true, .clear 6⟩,
    ⟨"IM_TBASE_RAMP.OFFS", 0x54, [], 0, 23, .rw, .staged, 0, true, .clear 6⟩,
    ⟨"IM_PAGE.HEIGHT", 0x58, [], 0, 17, .ro, .none, 0, false, .any⟩,
    ⟨"IM_PAGE_W.WIDTH", 0x5c, [], 0, 15, .ro, .none, 0, false, .any⟩,
    ⟨"IM_PAGE_W.TRAILER", 0x5c, [], 15, 1, .ro, .none, 0, false, .any⟩,
    ⟨"IM_WINDOW.NEED", 0x80, [], 0, 16, .ro, .none, 0, false, .any⟩,
    ⟨"IM_CNT.RING_WAIT", 0x84, [], 0, 16, .ro, .none, 0, false, .any⟩,
    ⟨"IM_CNT.UNCORR", 0x84, [], 16, 16, .ro, .none, 0, false, .any⟩,
    ⟨"IM_SCR.W", 0x60, [(4, 4)], 0, 8, .rw, .staged, 0, true, .any⟩,
    ⟨"IM_SCR.H", 0x60, [(4, 4)], 8, 8, .rw, .staged, 0, true, .any⟩,
    ⟨"IM_SCR.XSHIFT", 0x60, [(4, 4)], 16, 8, .rw, .staged, 0, true, .any⟩,
    ⟨"IM_RAMP.SLOPE", 0x70, [(4, 4)], 0, 16, .rw, .staged, 0, true, .any⟩,
    ⟨"IM_GAIN.EVEN", 0x100, [(4, 32)], 0, 16, .rw, .staged, 16384, false, .any⟩,
    ⟨"IM_GAIN.ODD", 0x100, [(4, 32)], 16, 16, .rw, .staged, 16384, false, .any⟩,
    ⟨"IM_DOFFS.D", 0x180, [(4, 16)], 0, 8, .rw, .staged, 0, false, .any⟩ ]

/-- Table 5.11. -/
def imaging1 : List Row :=
  [ ⟨"IM_DOFFS.D", 0x180, [(4, 16)], 8, 8, .rw, .staged, 0, false, .any⟩,
    ⟨"IM_DOFFS.D", 0x180, [(4, 16)], 16, 8, .rw, .staged, 0, false, .any⟩,
    ⟨"IM_DOFFS.D", 0x180, [(4, 16)], 24, 8, .rw, .staged, 0, false, .any⟩ ]

def imaging : List Row := imaging0 ++ imaging1

/-- Table 5.13. -/
def registration : List Row :=
  [ ⟨"REG_CFG.EVERY", 0x40, [], 0, 8, .rw, .staged, 0, true, .any⟩,
    ⟨"REG_CFG.REF", 0x40, [], 8, 3, .rw, .staged, 0, true, .any⟩,
    ⟨"REG_CFG.GAIN", 0x40, [], 12, 4, .rw, .live, 8, false, .any⟩,
    ⟨"REG_CFG.DEADBAND", 0x40, [], 16, 8, .rw, .live, 0, false, .any⟩,
    ⟨"REG_MARK.START", 0x44, [], 0, 12, .rw, .staged, 0, true, .any⟩,
    ⟨"REG_MARK.PITCH", 0x44, [], 12, 12, .rw, .staged, 0, true, .any⟩,
    ⟨"REG_MARK.BAR", 0x44, [], 24, 8, .rw, .staged, 0, true, .any⟩,
    ⟨"REG_MARK2.DIAG", 0x48, [], 0, 12, .rw, .staged, 0, true, .any⟩,
    ⟨"REG_MARK2.HALF", 0x48, [], 16, 12, .rw, .staged, 0, true, .any⟩,
    ⟨"REG_CODE.MARK_CODE", 0x4c, [], 0, 10, .rw, .staged, 0, true, .any⟩,
    ⟨"REG_WIN.OFFS", 0x50, [], 0, 32, .rw, .staged, 0, true, .any⟩,
    ⟨"REG_X.X", 0x60, [(4, 4)], 0, 15, .rw, .staged, 0, true, .any⟩,
    ⟨"REG_SENS.THRESH", 0x70, [(4, 4)], 0, 10, .rw, .idle, 0, true, .any⟩,
    ⟨"REG_SENS.HYST", 0x70, [(4, 4)], 12, 4, .rw, .idle, 0, true, .any⟩,
    ⟨"REG_SENS.POL", 0x70, [(4, 4)], 16, 1, .rw, .idle, 0, true, .any⟩,
    ⟨"REG_SENS.MINW", 0x70, [(4, 4)], 24, 8, .rw, .idle, 0, true, .any⟩,
    ⟨"REG_STAT.SETS", 0x80, [], 0, 8, .ro, .none, 0, false, .any⟩,
    ⟨"REG_STAT.VALID", 0x80, [], 8, 4, .ro, .none, 0, false, .any⟩,
    ⟨"REG_STAT.DUE", 0x80, [], 12, 1, .ro, .none, 0, false, .any⟩,
    ⟨"REG_STAT.OPEN", 0x80, [], 13, 1, .ro, .none, 0, false, .any⟩,
    ⟨"REG_CNT.MARK_BAD", 0x84, [], 0, 16, .ro, .none, 0, false, .any⟩,
    ⟨"REG_CNT.POSTPONED", 0x84, [], 16, 16, .ro, .none, 0, false, .any⟩,
    ⟨"REG_RES.P", 0x100, [(32, 6), (8, 4)], 0, 32, .ro, .none, 0, false, .any⟩,
    ⟨"REG_RES.X", 0x104, [(32, 6), (8, 4)], 0, 16, .ro, .none, 0, false, .any⟩ ]

/-- Table 6.10. -/
def headLink0 : List Row :=
  [ ⟨"HL_CFG.AUTO_SPARE", 0x40, [], 0, 1, .rw, .live, 1, false, .any⟩,
    ⟨"HL_CFG.ALLOW_SLOT", 0x40, [], 1, 1, .rw, .idle, 0, true, .any⟩,
    ⟨"HL_CFG.RETRAIN", 0x40, [], 8, 1, .wo, .live, 0, false, .any⟩,
    ⟨"HL_TIMING.MARGIN", 0x44, [], 0, 8, .rw, .idle, 2, false, .any⟩,
    ⟨"HL_TIMING.RSLOT", 0x44, [], 8, 8, .rw, .idle, 20, false, .range 8 100 20 20⟩,
    ⟨"HL_TIMING.STAT_TO", 0x44, [], 16, 16, .rw, .live, 100, false, .any⟩,
    ⟨"HL_SPARE.THRESH", 0x48, [], 0, 8, .rw, .live, 4, false, .range 1 4294967295 1 0⟩,
    ⟨"HL_SPARE.WIN", 0x48, [], 8, 16, .rw, .live, 4096, false, .any⟩,
    ⟨"HL_STAT.HEALTHY", 0x4c, [], 0, 9, .ro, .none, 0, false, .any⟩,
    ⟨"HL_STAT.SLANE", 0x4c, [], 9, 4, .ro, .none, 0, false, .any⟩,
    ⟨"HL_STAT.SLOT_MODE", 0x4c, [], 13, 1, .ro, .none, 0, false, .any⟩,
    ⟨"HL_STAT.HEAD_OK", 0x4c, [], 14, 1, .ro, .none, 0, false, .any⟩,
    ⟨"HL_STAT.HEAD_READY", 0x4c, [], 15, 1, .ro, .none, 0, false, .any⟩,
    ⟨"HL_STAT.QUENCH", 0x4c, [], 16, 1, .ro, .none, 0, false, .any⟩,
    ⟨"HL_STAT.OWN_CUT", 0x4c, [], 17, 1, .ro, .none, 0, false, .any⟩,
    ⟨"HL_STAT.NL", 0x4c, [], 18, 4, .ro, .none, 0, false, .any⟩,
    ⟨"HL_MAP.PHYS", 0x50, [], 0, 32, .ro, .none, 4294967295, false, .any⟩,
    ⟨"HL_NEED.NEED", 0x54, [], 0, 16, .ro, .none, 0, false, .any⟩,
    ⟨"HL_NEED.TSCAN", 0x54, [], 16, 16, .ro, .none, 0, false, .any⟩,
    ⟨"HL_SCAN.SENT", 0x58, [], 0, 24, .ro, .none, 0, false, .any⟩,
    ⟨"HL_HSCAN.EMITTED", 0x5c, [], 0, 24, .ro, .none, 0, false, .any⟩,
    ⟨"HL_SN_LO", 0x60, [], 0, 32, .ro, .none, 0, false, .any⟩,
    ⟨"HL_SN_HI", 0x64, [], 0, 32, .ro, .none, 0, false, .any⟩,
    ⟨"HL_CNT_A.SCAN_ERR", 0x68, [], 0, 16, .ro, .none, 0, false, .any⟩ ]

/-- Table 6.10. -/
def headLink1 : List Row :=
  [ ⟨"HL_CNT_A.UNDERRUN", 0x68, [], 16, 16, .ro, .none, 0, false, .any⟩,
    ⟨"HL_CNT_B.TRAIN", 0x6c, [], 0, 16, .ro, .none, 0, false, .any⟩,
    ⟨"HL_CNT_B.LANE_FAIL", 0x6c, [], 16, 8, .ro, .none, 0, false, .any⟩,
    ⟨"HL_CNT_B.TEST_TIMEOUT", 0x6c, [], 24, 8, .ro, .none, 0, false, .any⟩,
    ⟨"HL_LANE.CRC", 0x80, [(4, 9)], 0, 16, .ro, .none, 0, false, .any⟩,
    ⟨"HL_LANE.RXERR", 0x80, [(4, 9)], 16, 16, .ro, .none, 0, false, .any⟩ ]

def headLink : List Row := headLink0 ++ headLink1

/-- Table 7.9. -/
def codec : List Row :=
  [ ⟨"CDC_LIMIT.OUT_LIMIT", 0x40, [], 0, 32, .rw, .live, 0, true, .any⟩,
    ⟨"CDC_STAT.DEC_BUSY", 0x44, [], 0, 8, .ro, .none, 0, false, .any⟩,
    ⟨"CDC_STAT.ENC_BUSY", 0x44, [], 8, 2, .ro, .none, 0, false, .any⟩,
    ⟨"CDC_STAT.CTX_OPEN", 0x44, [], 16, 5, .ro, .none, 0, false, .any⟩,
    ⟨"CDC_CNT_A.STREAM_ERR", 0x48, [], 0, 16, .ro, .none, 0, false, .any⟩,
    ⟨"CDC_CNT_A.HDR_REFUSED", 0x48, [], 16, 16, .ro, .none, 0, false, .any⟩,
    ⟨"CDC_CNT_B.BLOCKS", 0x4c, [], 0, 32, .ro, .none, 0, false, .any⟩,
    ⟨"CTX.PAGE_ID", 0x80, [(8, 24)], 0, 32, .ro, .none, 0, false, .any⟩,
    ⟨"CTX.STATION", 0x84, [(8, 24)], 0, 3, .ro, .none, 0, false, .any⟩,
    ⟨"CTX.OPEN", 0x84, [(8, 24)], 3, 1, .ro, .none, 0, false, .any⟩,
    ⟨"CTX.LANE", 0x84, [(8, 24)], 4, 4, .ro, .none, 15, false, .any⟩,
    ⟨"CTX.BLOCKS", 0x84, [(8, 24)], 8, 24, .ro, .none, 0, false, .any⟩ ]

/-- Table 7.10. -/
def decodeLane : List Row :=
  [ ⟨"DL_STAT.CTX", 0x40, [], 0, 5, .ro, .none, 31, false, .any⟩,
    ⟨"DL_CNT.BLOCKS", 0x44, [], 0, 16, .ro, .none, 0, false, .any⟩,
    ⟨"DL_CNT.RESTARTS", 0x44, [], 16, 16, .ro, .none, 0, false, .any⟩,
    ⟨"DL_ERR.CODE", 0x48, [], 0, 4, .ro, .none, 0, false, .any⟩,
    ⟨"DL_ERR_OFFS.OFFS", 0x4c, [], 0, 32, .ro, .none, 0, false, .any⟩ ]

/-- Table 7.11. -/
def encodeLane : List Row :=
  [ ⟨"EJ_SRC_LO", 0x40, [], 0, 32, .rw, .idle, 0, false, .any⟩,
    ⟨"EJ_SRC_HI", 0x44, [], 0, 16, .rw, .idle, 0, false, .any⟩,
    ⟨"EJ_DST_LO", 0x48, [], 0, 32, .rw, .idle, 0, false, .any⟩,
    ⟨"EJ_DST_HI", 0x4c, [], 0, 16, .rw, .idle, 0, false, .any⟩,
    ⟨"EJ_SRC_STRIDE.BYTES", 0x50, [], 0, 24, .rw, .idle, 0, false, .any⟩,
    ⟨"EJ_LINE_BYTES.BYTES", 0x54, [], 0, 24, .rw, .idle, 0, false, .any⟩,
    ⟨"EJ_LINES.LINES", 0x58, [], 0, 18, .rw, .idle, 0, false, .any⟩,
    ⟨"EJ_DST_SIZE.BYTES", 0x5c, [], 0, 32, .rw, .idle, 0, false, .any⟩,
    ⟨"EJ_CTL.ALPHA", 0x60, [], 0, 1, .rw, .idle, 0, false, .any⟩,
    ⟨"EJ_CTL.MODE", 0x60, [], 1, 1, .rw, .idle, 0, false, .any⟩,
    ⟨"EJ_CTL.EFFORT", 0x60, [], 2, 3, .rw, .idle, 0, false, .any⟩,
    ⟨"EJ_CTL.BLOCK_IN", 0x60, [], 8, 16, .rw, .idle, 65535, false, .any⟩,
    ⟨"EJ_CTL.GO", 0x60, [], 31, 1, .wo, .live, 0, false, .any⟩,
    ⟨"EJ_RESULT.LEN", 0x64, [], 0, 32, .ro, .none, 0, false, .any⟩,
    ⟨"EJ_STAT.STATUS", 0x68, [], 0, 4, .ro, .none, 0, false, .any⟩ ]

/-- Table 8.11. -/
def dramPort : List Row :=
  [ ⟨"DP_CFG.MIRROR", 0x40, [], 0, 1, .ro, .none, 0, true, .any⟩,
    ⟨"DP_CFG.PREF", 0x40, [], 1, 1, .rw, .live, 0, false, .any⟩,
    ⟨"DP_CFG.HPPR_EN", 0x40, [], 2, 1, .rw, .idle, 0, true, .any⟩,
    ⟨"DP_CFG.RETRAIN", 0x40, [], 4, 2, .wo, .live, 0, false, .any⟩,
    ⟨"DP_CFG.FAIL_UE", 0x40, [], 8, 8, .rw, .live, 16, false, .range 1 4294967295 1 0⟩,
    ⟨"DP_STAT.CH0", 0x44, [], 0, 3, .ro, .none, 0, false, .any⟩,
    ⟨"DP_STAT.CH1", 0x44, [], 4, 3, .ro, .none, 0, false, .any⟩,
    ⟨"DP_STAT.CAP0", 0x44, [], 8, 6, .ro, .none, 0, false, .any⟩,
    ⟨"DP_STAT.CAP1", 0x44, [], 16, 6, .ro, .none, 0, false, .any⟩,
    ⟨"DP_CE.WORDS", 0x48, [(8, 2)], 0, 32, .ro, .none, 0, false, .any⟩,
    ⟨"DP_UE.WORDS", 0x4c, [(8, 2)], 0, 16, .ro, .none, 0, false, .any⟩,
    ⟨"DP_UE.RETIRED", 0x4c, [(8, 2)], 16, 16, .ro, .none, 0, false, .any⟩,
    ⟨"DP_REBUILD.DONE", 0x58, [], 0, 16, .ro, .none, 0, false, .any⟩ ]

/-- Table 8.12. -/
def retention : List Row :=
  [ ⟨"RS_CAP.EXTENTS", 0x40, [], 0, 20, .ro, .none, 0, false, .any⟩,
    ⟨"RS_FREE.EXTENTS", 0x44, [], 0, 20, .ro, .none, 0, false, .any⟩,
    ⟨"RS_LOW.EXTENTS", 0x48, [], 0, 20, .rw, .live, 0, true, .any⟩,
    ⟨"RS_SEPS.COUNT", 0x4c, [], 0, 24, .ro, .none, 0, false, .any⟩,
    ⟨"RS_REPAIR.BLOCKS", 0x50, [], 0, 16, .ro, .none, 0, false, .any⟩,
    ⟨"RS_REPAIR.BOTH_UE", 0x50, [], 16, 16, .ro, .none, 0, false, .any⟩ ]

/-- Table 8.13, Table 8.14. -/
def codes0 : List Row :=
  [ ⟨"CS_CFG.ONCHIP_S", 0x40, [], 0, 8, .rw, .live, 10, false, .range 1 4294967295 1 0⟩,
    ⟨"CS_CFG.DRAM_MIN", 0x40, [], 8, 8, .rw, .live, 60, false, .range 1 4294967295 1 0⟩,
    ⟨"CS_CFG.SCRUB_EN", 0x40, [], 16, 1, .rw, .live, 1, false, .any⟩,
    ⟨"CS_CFG.SEAL_RING", 0x40, [], 17, 1, .rw, .live, 1, false, .any⟩,
    ⟨"CS_CFG.LOG_CE", 0x40, [], 18, 1, .rw, .live, 0, false, .any⟩,
    ⟨"CS_SEAL.PAGE", 0x44, [], 0, 14, .rw, .live, 0, false, .any⟩,
    ⟨"CS_SEAL.COUNT", 0x44, [], 16, 12, .rw, .live, 0, false, .range 1 4294967295 1 0⟩,
    ⟨"CS_SEAL.GO", 0x44, [], 31, 1, .wo, .live, 0, false, .any⟩,
    ⟨"CS_SEAL_STAT.STATUS", 0x48, [], 0, 2, .ro, .none, 0, false, .any⟩,
    ⟨"CS_SEAL_STAT.DONE", 0x48, [], 16, 16, .ro, .none, 0, false, .any⟩,
    ⟨"CS_CNT_A.BYTE_CE", 0x4c, [], 0, 32, .ro, .none, 0, false, .any⟩,
    ⟨"CS_CNT_B.RS_CE", 0x50, [], 0, 16, .ro, .none, 0, false, .any⟩,
    ⟨"CS_CNT_B.RS_FAIL", 0x50, [], 16, 16, .ro, .none, 0, false, .any⟩,
    ⟨"CS_CNT_C.WORD_CE", 0x54, [], 0, 16, .ro, .none, 0, false, .any⟩,
    ⟨"CS_CNT_C.WORD_UE", 0x54, [], 16, 16, .ro, .none, 0, false, .any⟩,
    ⟨"CS_SCRUB.ONCHIP", 0x58, [], 0, 16, .ro, .none, 0, false, .any⟩,
    ⟨"CS_SCRUB.DRAM", 0x58, [], 16, 16, .ro, .none, 0, false, .any⟩,
    ⟨"CS_LOG_CNT.NEXT", 0x5c, [], 0, 4, .ro, .none, 0, false, .any⟩,
    ⟨"CS_LOG_CNT.TOTAL", 0x5c, [], 8, 24, .ro, .none, 0, false, .any⟩,
    ⟨"CS_BANK.SPARE", 0x80, [(4, 22)], 0, 8, .ro, .none, 0, false, .any⟩,
    ⟨"CS_BANK.RETIRED", 0x80, [(4, 22)], 8, 3, .ro, .none, 0, false, .any⟩,
    ⟨"CS_BANK.UE", 0x80, [(4, 22)], 16, 16, .ro, .none, 0, false, .any⟩,
    ⟨"CS_LOG.ADDR_LO", 0x100, [(16, 16)], 0, 32, .ro, .none, 0, false, .any⟩,
    ⟨"CS_LOG.ADDR_HI", 0x104, [(16, 16)], 0, 16, .ro, .none, 0, false, .any⟩ ]

/-- Table 8.14. -/
def codes1 : List Row :=
  [ ⟨"CS_LOG.KIND", 0x104, [(16, 16)], 16, 4, .ro, .none, 0, false, .any⟩,
    ⟨"CS_LOG.MASTER", 0x104, [(16, 16)], 20, 8, .ro, .none, 0, false, .any⟩,
    ⟨"CS_LOG.TIME_LO", 0x108, [(16, 16)], 0, 32, .ro, .none, 0, false, .any⟩,
    ⟨"CS_LOG.TIME_HI", 0x10c, [(16, 16)], 0, 32, .ro, .none, 0, false, .any⟩ ]

def codes : List Row := codes0 ++ codes1

/-- Table 9.9. -/
def dmaGlobal : List Row :=
  [ ⟨"DG_ACTIVE.CH", 0x40, [], 0, 32, .ro, .none, 0, false, .any⟩,
    ⟨"DG_HALTED.CH", 0x44, [], 0, 32, .ro, .none, 0, false, .any⟩,
    ⟨"DG_CNT.WINDOW", 0x48, [], 0, 16, .ro, .none, 0, false, .any⟩,
    ⟨"DG_CNT.REVOKE", 0x48, [], 16, 16, .ro, .none, 0, false, .any⟩,
    ⟨"DG_WIN.BASE_LO", 0x80, [(16, 16)], 12, 20, .rw, .live, 0, false, .any⟩,
    ⟨"DG_WIN.BASE_HI", 0x84, [(16, 16)], 0, 32, .rw, .live, 0, false, .any⟩,
    ⟨"DG_WIN.SIZE", 0x88, [(16, 16)], 0, 32, .rw, .live, 0, false, .range 0 2147483648 0 2147483648⟩,
    ⟨"DG_WIN.VALID", 0x8c, [(16, 16)], 0, 1, .rw, .live, 0, false, .any⟩,
    ⟨"DG_WIN.RD", 0x8c, [(16, 16)], 1, 1, .rw, .live, 0, false, .any⟩,
    ⟨"DG_WIN.WR", 0x8c, [(16, 16)], 2, 1, .rw, .live, 0, false, .any⟩ ]

/-- Table 9.10. -/
def dmaChannel : List Row :=
  [ ⟨"DC_CFG.REQ", 0x40, [], 0, 6, .rw, .idle, 0, true, .any⟩,
    ⟨"DC_CFG.PSIDE", 0x40, [], 6, 1, .rw, .idle, 0, true, .any⟩,
    ⟨"DC_CFG.BURST", 0x40, [], 8, 9, .rw, .idle, 31, false, .any⟩,
    ⟨"DC_CFG.PRIO", 0x40, [], 18, 2, .rw, .idle, 0, true, .any⟩,
    ⟨"DC_PACE.GAP", 0x44, [], 0, 24, .rw, .live, 0, false, .any⟩,
    ⟨"DC_HEAD_LO.PTR", 0x48, [], 5, 27, .rw, .idle, 0, false, .any⟩,
    ⟨"DC_HEAD_HI.PTR", 0x4c, [], 0, 16, .rw, .idle, 0, false, .any⟩,
    ⟨"DC_CUR_LO", 0x50, [], 0, 32, .ro, .none, 0, false, .any⟩,
    ⟨"DC_CUR_HI", 0x54, [], 0, 32, .ro, .none, 0, false, .any⟩,
    ⟨"DC_DOORBELL.RING", 0x58, [], 0, 1, .wo, .live, 0, false, .any⟩,
    ⟨"DC_CMD.PAUSE", 0x5c, [], 0, 1, .wo, .live, 0, false, .any⟩,
    ⟨"DC_CMD.RESUME", 0x5c, [], 1, 1, .wo, .live, 0, false, .any⟩,
    ⟨"DC_CMD.CLEAR", 0x5c, [], 2, 1, .wo, .live, 0, false, .any⟩,
    ⟨"DC_STAT.DB_PEND", 0x60, [], 0, 1, .ro, .none, 0, false, .any⟩,
    ⟨"DC_STAT.WB_FAIL", 0x60, [], 1, 1, .ro, .none, 0, false, .any⟩,
    ⟨"DC_STAT.HOLD_STOP", 0x60, [], 2, 1, .ro, .none, 0, false, .any⟩,
    ⟨"DC_STAT.LAST_STATUS", 0x60, [], 4, 4, .ro, .none, 0, false, .any⟩,
    ⟨"DC_STAT.LAST_TAG", 0x60, [], 8, 8, .ro, .none, 0, false, .any⟩,
    ⟨"DC_PROG.BYTES", 0x64, [], 0, 24, .ro, .none, 0, false, .any⟩,
    ⟨"DC_ERR_LO", 0x68, [], 0, 32, .ro, .none, 0, false, .any⟩,
    ⟨"DC_ERR_HI", 0x6c, [], 0, 16, .ro, .none, 0, false, .any⟩,
    ⟨"DC_CNT_A.DESC", 0x70, [], 0, 32, .ro, .none, 0, false, .any⟩,
    ⟨"DC_CNT_B.REFETCH", 0x74, [], 0, 16, .ro, .none, 0, false, .any⟩,
    ⟨"DC_CNT_B.HALTS", 0x74, [], 16, 16, .ro, .none, 0, false, .any⟩ ]

/-- Table 10.13. -/
def quay0 : List Row :=
  [ ⟨"QY_RING_LO.BASE", 0x40, [], 12, 20, .rw, .idle, 0, false, .any⟩,
    ⟨"QY_RING_HI.BASE", 0x44, [], 0, 32, .rw, .idle, 0, false, .any⟩,
    ⟨"QY_RING_SIZE.SQ_LOG2", 0x48, [], 0, 4, .rw, .idle, 8, false, .range 4 12 8 8⟩,
    ⟨"QY_RING_SIZE.CQ_LOG2", 0x48, [], 8, 4, .rw, .idle, 9, false, .range 4 12 9 9⟩,
    ⟨"QY_SQ_TAIL.TAIL", 0x4c, [], 0, 12, .wo, .live, 0, false, .any⟩,
    ⟨"QY_CQ_HEAD.HEAD", 0x50, [], 0, 12, .wo, .live, 0, false, .any⟩,
    ⟨"QY_SQ_HEAD.HEAD", 0x54, [], 0, 12, .ro, .none, 0, false, .any⟩,
    ⟨"QY_EPOCH.EPOCH", 0x58, [], 0, 32, .ro, .none, 0, false, .any⟩,
    ⟨"QY_ACK.SEQ", 0x5c, [], 0, 32, .ro, .none, 0, false, .any⟩,
    ⟨"QY_DSEQ.LAST", 0x60, [], 0, 32, .ro, .none, 0, false, .any⟩,
    ⟨"QY_STAT.RINGS", 0x64, [], 0, 1, .ro, .none, 0, false, .any⟩,
    ⟨"QY_STAT.SILENT", 0x64, [], 1, 1, .ro, .none, 0, false, .any⟩,
    ⟨"QY_STAT.CQ_FULL", 0x64, [], 2, 1, .ro, .none, 0, false, .any⟩,
    ⟨"QY_STAT.JOBS", 0x64, [], 8, 5, .ro, .none, 0, false, .any⟩,
    ⟨"QY_STAT.HELD", 0x64, [], 16, 13, .ro, .none, 0, false, .any⟩,
    ⟨"QY_TIMER.HB_TO", 0x68, [], 0, 16, .rw, .live, 10, false, .any⟩,
    ⟨"QY_TIMER.SILENT_STOP", 0x68, [], 16, 1, .rw, .live, 0, false, .any⟩,
    ⟨"QY_IRQ.HOLDOFF", 0x6c, [], 0, 16, .rw, .live, 0, false, .any⟩,
    ⟨"QY_IRQ.COUNT", 0x6c, [], 16, 8, .rw, .live, 1, false, .range 1 4294967295 1 0⟩,
    ⟨"QY_CNT_A.BAD_CRC", 0x70, [], 0, 16, .ro, .none, 0, false, .any⟩,
    ⟨"QY_CNT_A.DUP", 0x70, [], 16, 16, .ro, .none, 0, false, .any⟩,
    ⟨"QY_CNT_B.STALE", 0x74, [], 0, 16, .ro, .none, 0, false, .any⟩,
    ⟨"QY_CNT_B.GAP", 0x74, [], 16, 16, .ro, .none, 0, false, .any⟩,
    ⟨"QY_CNT_C.BAR2_DROP", 0x78, [], 0, 16, .ro, .none, 0, false, .any⟩ ]

/-- Table 10.13, Table 10.2. -/
def quay1 : List Row :=
  [ ⟨"QY_CNT_C.OVERFLOW", 0x78, [], 16, 16, .ro, .none, 0, false, .any⟩,
    ⟨"QY_LINK.SPEED", 0x7c, [], 0, 4, .ro, .none, 0, false, .any⟩,
    ⟨"QY_LINK.WIDTH", 0x7c, [], 4, 4, .ro, .none, 0, false, .any⟩,
    ⟨"QY_LINK.RECOVERY", 0x7c, [], 16, 16, .ro, .none, 0, false, .any⟩,
    ⟨"MSIX_ADDR_LO", 0x800, [(16, 64)], 0, 32, .rw, .live, 0, false, .any⟩,
    ⟨"MSIX_ADDR_HI", 0x804, [(16, 64)], 0, 32, .rw, .live, 0, false, .any⟩,
    ⟨"MSIX_DATA", 0x808, [(16, 64)], 0, 32, .rw, .live, 0, false, .any⟩,
    ⟨"MSIX_CTRL.MASK", 0x80c, [(16, 64)], 0, 1, .rw, .live, 1, false, .any⟩,
    ⟨"MSIX_PBA", 0xc00, [(4, 2)], 0, 32, .ro, .none, 0, false, .any⟩ ]

def quay : List Row := quay0 ++ quay1

/-- Table 11.10, Table 11.11. -/
def edkar0 : List Row :=
  [ ⟨"ED_CFG.PORT_EN", 0x40, [], 0, 1, .rw, .live, 0, true, .any⟩,
    ⟨"ED_CFG.AUTH_EN", 0x40, [], 1, 1, .rw, .idle, 0, true, .any⟩,
    ⟨"ED_CFG.FEED_ADDR", 0x40, [], 8, 4, .rw, .staged, 0, true, .any⟩,
    ⟨"ED_CFG.ROUTE", 0x40, [], 17, 15, .rw, .staged, 0, true, .any⟩,
    ⟨"ED_TIMING.WIN", 0x44, [], 0, 8, .rw, .staged, 88, false, .any⟩,
    ⟨"ED_TIMING.TA", 0x44, [], 8, 4, .rw, .staged, 3, false, .range 1 4294967295 1 0⟩,
    ⟨"ED_LIMIT.BUDGET", 0x48, [], 0, 4, .rw, .live, 8, false, .range 1 4294967295 1 0⟩,
    ⟨"ED_LIMIT.THR_FRAMES", 0x48, [], 4, 4, .rw, .live, 2, false, .range 1 4294967295 1 0⟩,
    ⟨"ED_LIMIT.QUAR_CNT", 0x48, [], 8, 8, .rw, .live, 16, false, .any⟩,
    ⟨"ED_AUTH.PERIOD", 0x4c, [], 0, 16, .rw, .live, 600, false, .any⟩,
    ⟨"ED_AUTH.FAILS", 0x4c, [], 16, 4, .rw, .live, 3, false, .range 1 4294967295 1 0⟩,
    ⟨"ED_PRESENT.MOD", 0x50, [], 0, 16, .ro, .none, 0, false, .any⟩,
    ⟨"ED_PRESENT.AUTHED", 0x50, [], 16, 16, .ro, .none, 0, false, .any⟩,
    ⟨"ED_CYCLE.N", 0x54, [], 0, 32, .ro, .none, 0, false, .any⟩,
    ⟨"ED_CNT_A.MALFORMED", 0x58, [], 0, 16, .ro, .none, 0, false, .any⟩,
    ⟨"ED_CNT_A.BAD_CYCLES", 0x58, [], 16, 16, .ro, .none, 0, false, .any⟩,
    ⟨"ED_CNT_B.RETRY", 0x5c, [], 0, 16, .ro, .none, 0, false, .any⟩,
    ⟨"ED_CNT_B.ANN_TIMEOUT", 0x5c, [], 16, 16, .ro, .none, 0, false, .any⟩,
    ⟨"ED_CNT_C.UNAUTH", 0x60, [], 0, 16, .ro, .none, 0, false, .any⟩,
    ⟨"ED_CNT_C.DROPPED", 0x60, [], 16, 16, .ro, .none, 0, false, .any⟩,
    ⟨"ED_LAST_SHEET.SHEET", 0x64, [], 0, 32, .ro, .none, 0, false, .any⟩,
    ⟨"ED_MOD.VENDOR", 0x80, [(8, 16)], 0, 16, .ro, .none, 0, false, .any⟩,
    ⟨"ED_MOD.MODEL", 0x80, [(8, 16)], 16, 16, .ro, .none, 0, false, .any⟩,
    ⟨"ED_MOD.STATE", 0x84, [(8, 16)], 0, 3, .ro, .none, 0, false, .any⟩ ]

/-- Table 11.11. -/
def edkar1 : List Row :=
  [ ⟨"ED_MOD.VIOL", 0x84, [(8, 16)], 8, 8, .ro, .none, 0, false, .any⟩,
    ⟨"ED_MOD.MALF", 0x84, [(8, 16)], 16, 8, .ro, .none, 0, false, .any⟩,
    ⟨"ED_MOD.CLEAR", 0x84, [(8, 16)], 31, 1, .wo, .live, 0, false, .any⟩ ]

def edkar : List Row := edkar0 ++ edkar1

/-- Table 12.3. -/
def stepper0 : List Row :=
  [ ⟨"STP_CFG.MSTEP", 0x40, [], 0, 4, .rw, .idle, 0, true, .range 0 8 0 8⟩,
    ⟨"STP_CFG.CRATIO", 0x40, [], 4, 4, .rw, .idle, 0, true, .any⟩,
    ⟨"STP_CFG.SRC", 0x40, [], 8, 1, .rw, .idle, 0, false, .any⟩,
    ⟨"STP_CFG.INV", 0x40, [], 9, 1, .rw, .idle, 0, true, .any⟩,
    ⟨"STP_CFG.ZONE", 0x40, [], 12, 4, .rw, .idle, 0, true, .any⟩,
    ⟨"STP_SW.HOME_SRC", 0x44, [], 0, 7, .rw, .idle, 0, true, .range 0 63 0 127⟩,
    ⟨"STP_SW.HOME_DIR", 0x44, [], 7, 1, .rw, .idle, 0, true, .any⟩,
    ⟨"STP_SW.LIMP_SRC", 0x44, [], 8, 7, .rw, .idle, 0, true, .range 0 63 0 127⟩,
    ⟨"STP_SW.LIMN_SRC", 0x44, [], 16, 7, .rw, .idle, 0, true, .range 0 63 0 127⟩,
    ⟨"STP_CUR.IRUN", 0x48, [], 0, 8, .rw, .live, 0, true, .any⟩,
    ⟨"STP_CUR.IHOLD", 0x48, [], 8, 8, .rw, .live, 0, true, .any⟩,
    ⟨"STP_CUR.HOLD_DLY", 0x48, [], 16, 16, .rw, .live, 100, false, .any⟩,
    ⟨"STP_TGT.POS", 0x4c, [], 0, 32, .rw, .staged, 0, false, .any⟩,
    ⟨"STP_VMAX.V", 0x50, [], 0, 32, .rw, .staged, 0, false, .any⟩,
    ⟨"STP_ACC.A", 0x54, [], 0, 24, .rw, .staged, 0, true, .any⟩,
    ⟨"STP_DEC.D", 0x58, [], 0, 24, .rw, .staged, 0, true, .any⟩,
    ⟨"STP_MODE.MODE", 0x5c, [], 0, 2, .rw, .staged, 0, false, .any⟩,
    ⟨"STP_MODE.NEG", 0x5c, [], 2, 1, .rw, .staged, 0, false, .any⟩,
    ⟨"STP_EDEC.D", 0x60, [], 0, 24, .rw, .live, 0, true, .any⟩,
    ⟨"STP_HVEL.V", 0x64, [], 0, 32, .rw, .idle, 0, true, .any⟩,
    ⟨"STP_HMAX.DIST", 0x68, [], 0, 32, .rw, .idle, 0, true, .any⟩,
    ⟨"STP_HOFFS.POS", 0x6c, [], 0, 32, .rw, .idle, 0, false, .any⟩,
    ⟨"STP_CMD.HOME", 0x70, [], 0, 1, .wo, .live, 0, false, .any⟩,
    ⟨"STP_CMD.ESTOP", 0x70, [], 1, 1, .wo, .live, 0, false, .any⟩ ]

/-- Table 12.3. -/
def stepper1 : List Row :=
  [ ⟨"STP_POS.POS", 0x74, [], 0, 32, .ro, .none, 0, false, .any⟩,
    ⟨"STP_VEL.V", 0x78, [], 0, 32, .ro, .none, 0, false, .any⟩,
    ⟨"STP_STAT.AT_TGT", 0x7c, [], 0, 1, .ro, .none, 0, false, .any⟩,
    ⟨"STP_STAT.HOMED", 0x7c, [], 1, 1, .ro, .none, 0, false, .any⟩,
    ⟨"STP_STAT.HOLD", 0x7c, [], 2, 1, .ro, .none, 0, false, .any⟩,
    ⟨"STP_STAT.LIM_BLOCK", 0x7c, [], 3, 1, .ro, .none, 0, false, .any⟩,
    ⟨"STP_STAT.HSTATE", 0x7c, [], 4, 3, .ro, .none, 0, false, .any⟩,
    ⟨"STP_INTERP.IMIN", 0x80, [], 0, 16, .rw, .idle, 200, false, .any⟩,
    ⟨"STP_INTERP.IMAX", 0x80, [], 16, 16, .rw, .idle, 5000, false, .any⟩,
    ⟨"STP_INTERP2.FILT", 0x84, [], 0, 8, .rw, .idle, 4, false, .any⟩,
    ⟨"STP_CSTEP.COUNT", 0x88, [], 0, 32, .ro, .none, 0, false, .any⟩,
    ⟨"STP_HLATCH.POS", 0x8c, [], 0, 32, .ro, .none, 0, false, .any⟩,
    ⟨"STP_CNT.FAST", 0x90, [], 0, 16, .ro, .none, 0, false, .any⟩,
    ⟨"STP_CNT.ESTOPS", 0x90, [], 16, 16, .ro, .none, 0, false, .any⟩ ]

def stepper : List Row := stepper0 ++ stepper1

/-- Table 12.4. -/
def encoder : List Row :=
  [ ⟨"ENC_CFG.NEG", 0x40, [], 0, 1, .rw, .idle, 0, true, .any⟩,
    ⟨"ENC_CFG.FILT", 0x40, [], 1, 3, .rw, .idle, 1, false, .any⟩,
    ⟨"ENC_CFG.BACK_WIN", 0x40, [], 8, 4, .rw, .live, 2, false, .any⟩,
    ⟨"ENC_CFG.IDX_EN", 0x40, [], 12, 1, .rw, .idle, 0, true, .any⟩,
    ⟨"ENC_CPR.CPR", 0x44, [], 0, 24, .rw, .idle, 0, false, .any⟩,
    ⟨"ENC_SPD.PER", 0x48, [], 0, 24, .rw, .live, 10000, false, .range 1000 4294967295 1000 0⟩,
    ⟨"ENC_RAW.COUNT", 0x4c, [], 0, 32, .ro, .none, 0, false, .any⟩,
    ⟨"ENC_MONO_LO", 0x50, [], 0, 32, .ro, .none, 0, false, .any⟩,
    ⟨"ENC_MONO_HI", 0x54, [], 0, 32, .ro, .none, 0, false, .any⟩,
    ⟨"ENC_BACK.BACKLOG", 0x58, [], 0, 16, .ro, .none, 0, false, .any⟩,
    ⟨"ENC_BACK.REV", 0x58, [], 16, 1, .ro, .none, 0, false, .any⟩,
    ⟨"ENC_SPEED.CPS", 0x5c, [], 0, 32, .ro, .none, 0, false, .any⟩,
    ⟨"ENC_IDX.RAW", 0x60, [], 0, 32, .ro, .none, 0, false, .any⟩,
    ⟨"ENC_CMD.RESYNC", 0x64, [], 0, 1, .wo, .live, 0, false, .any⟩,
    ⟨"ENC_CNT.ERR", 0x68, [], 0, 16, .ro, .none, 0, false, .any⟩,
    ⟨"ENC_CNT.REVERSE", 0x68, [], 16, 16, .ro, .none, 0, false, .any⟩,
    ⟨"ENC_CNT2.IDX_ERR", 0x6c, [], 0, 16, .ro, .none, 0, false, .any⟩ ]

/-- Table 12.5, Table 12.6. -/
def sheetSensors0 : List Row :=
  [ ⟨"SS_TRACK.SENSOR", 0x40, [(8, 16)], 0, 6, .rw, .staged, 0, true, .any⟩,
    ⟨"SS_TRACK.ZONE", 0x40, [(8, 16)], 8, 4, .rw, .staged, 0, true, .any⟩,
    ⟨"SS_TRACK.EN", 0x40, [(8, 16)], 15, 1, .rw, .staged, 0, false, .any⟩,
    ⟨"SS_TRACK.WIN", 0x40, [(8, 16)], 16, 16, .rw, .staged, 0, true, .any⟩,
    ⟨"SS_TRACK.OFFS", 0x44, [(8, 16)], 0, 32, .rw, .staged, 0, true, .any⟩,
    ⟨"SS_PATH_LO", 0xc0, [], 0, 32, .rw, .staged, 0, true, .any⟩,
    ⟨"SS_PATH_HI", 0xc4, [], 0, 32, .rw, .staged, 0, true, .any⟩,
    ⟨"SS_CLEAR.T", 0xc8, [], 0, 16, .rw, .live, 100, false, .any⟩,
    ⟨"SS_STAT.PATH_CLEAR", 0xcc, [], 0, 1, .ro, .none, 0, false, .any⟩,
    ⟨"SS_STAT.JAM_TRACK", 0xcc, [], 4, 4, .ro, .none, 0, false, .any⟩,
    ⟨"SS_STAT.JAM_ZONE", 0xcc, [], 8, 4, .ro, .none, 0, false, .any⟩,
    ⟨"SS_STAT.JAM_DECL", 0xcc, [], 12, 1, .ro, .none, 0, false, .any⟩,
    ⟨"SS_STAT.JAM_NOSHEET", 0xcc, [], 13, 1, .ro, .none, 0, false, .any⟩,
    ⟨"SS_JAM_SHEET.SHEET", 0xd0, [], 0, 32, .ro, .none, 0, false, .any⟩,
    ⟨"SS_CNT.STRAY", 0xd4, [], 0, 16, .ro, .none, 0, false, .any⟩,
    ⟨"SS_CNT.EARLY", 0xd4, [], 16, 16, .ro, .none, 0, false, .any⟩,
    ⟨"SS_CMD.ZONE", 0xd8, [], 0, 4, .wo, .live, 0, false, .any⟩,
    ⟨"SS_CMD.DECLARE", 0xd8, [], 31, 1, .wo, .live, 0, false, .any⟩,
    ⟨"SS_IN.CFG.FILT", 0x100, [(32, 64)], 0, 10, .rw, .live, 0, true, .range 0 1000 0 1000⟩,
    ⟨"SS_IN.CFG.POL", 0x100, [(32, 64)], 10, 1, .rw, .live, 0, true, .any⟩,
    ⟨"SS_IN.CFG.POS_KIND", 0x100, [(32, 64)], 12, 2, .rw, .live, 0, false, .range 0 2 0 0⟩,
    ⟨"SS_IN.CFG.POS_NUM", 0x100, [(32, 64)], 14, 4, .rw, .live, 0, false, .any⟩,
    ⟨"SS_IN.CFG.LOCKOUT", 0x100, [(32, 64)], 19, 13, .rw, .live, 500, false, .any⟩,
    ⟨"SS_IN.STAT.LEVEL", 0x104, [(32, 64)], 0, 1, .ro, .none, 0, false, .any⟩ ]

/-- Table 12.6. -/
def sheetSensors1 : List Row :=
  [ ⟨"SS_IN.STAT.LSEQ", 0x104, [(32, 64)], 8, 8, .ro, .none, 0, false, .any⟩,
    ⟨"SS_IN.STAT.TSEQ", 0x104, [(32, 64)], 16, 8, .ro, .none, 0, false, .any⟩,
    ⟨"SS_IN.STAT.CHATTER", 0x104, [(32, 64)], 24, 8, .ro, .none, 0, false, .any⟩,
    ⟨"SS_IN.LEAD_T_LO", 0x108, [(32, 64)], 0, 32, .ro, .none, 0, false, .any⟩,
    ⟨"SS_IN.LEAD_T_HI", 0x10c, [(32, 64)], 0, 32, .ro, .none, 0, false, .any⟩,
    ⟨"SS_IN.LEAD_POS", 0x110, [(32, 64)], 0, 32, .ro, .none, 0, false, .any⟩,
    ⟨"SS_IN.TRAIL_T_LO", 0x114, [(32, 64)], 0, 32, .ro, .none, 0, false, .any⟩,
    ⟨"SS_IN.TRAIL_T_HI", 0x118, [(32, 64)], 0, 32, .ro, .none, 0, false, .any⟩,
    ⟨"SS_IN.TRAIL_POS", 0x11c, [(32, 64)], 0, 32, .ro, .none, 0, false, .any⟩ ]

def sheetSensors : List Row := sheetSensors0 ++ sheetSensors1

/-- Table 13.5. -/
def commutation0 : List Row :=
  [ ⟨"CM_CFG.SENSE", 0x40, [], 0, 2, .rw, .idle, 0, true, .range 0 1 0 0⟩,
    ⟨"CM_CFG.GROUP", 0x40, [], 2, 1, .rw, .idle, 0, true, .any⟩,
    ⟨"CM_CFG.SPD_SRC", 0x40, [], 3, 1, .rw, .idle, 0, true, .any⟩,
    ⟨"CM_CFG.POLES", 0x40, [], 4, 4, .rw, .idle, 0, true, .range 1 4294967295 1 0⟩,
    ⟨"CM_CFG.HALL_OFFS", 0x40, [], 8, 3, .rw, .idle, 0, true, .range 0 5 0 0⟩,
    ⟨"CM_CFG.SPD_ENC", 0x40, [], 12, 3, .rw, .idle, 0, true, .any⟩,
    ⟨"CM_CFG.IMG_MASK", 0x40, [], 16, 6, .rw, .staged, 0, true, .any⟩,
    ⟨"CM_TARGET.SPEED", 0x44, [], 0, 32, .rw, .staged, 0, false, .any⟩,
    ⟨"CM_RAMP.ACC", 0x48, [], 0, 16, .rw, .staged, 0, true, .any⟩,
    ⟨"CM_RAMP.DEC", 0x48, [], 16, 16, .rw, .staged, 0, true, .any⟩,
    ⟨"CM_BAND.BAND", 0x4c, [], 0, 12, .rw, .live, 50, false, .any⟩,
    ⟨"CM_BAND.BAND_Q", 0x4c, [], 12, 4, .rw, .live, 4, false, .range 1 4294967295 1 0⟩,
    ⟨"CM_PWM.PER", 0x50, [], 0, 12, .rw, .idle, 500, false, .range 100 4095 100 4095⟩,
    ⟨"CM_PWM.DEAD", 0x50, [], 16, 8, .rw, .idle, 0, true, .any⟩,
    ⟨"CM_DRIVE.SOFT", 0x54, [], 0, 7, .rw, .live, 0, true, .range 0 64 0 64⟩,
    ⟨"CM_DRIVE.BLANK", 0x54, [], 8, 8, .rw, .live, 32, false, .any⟩,
    ⟨"CM_DRIVE.DUTY_MAX", 0x54, [], 16, 16, .rw, .live, 0, true, .any⟩,
    ⟨"CM_START.LISTEN_T", 0x58, [], 0, 5, .rw, .idle, 20, false, .range 0 20 0 20⟩,
    ⟨"CM_START.WEIGHT", 0x58, [], 8, 8, .rw, .idle, 0, true, .any⟩,
    ⟨"CM_START.WIN", 0x58, [], 16, 8, .rw, .idle, 0, true, .any⟩,
    ⟨"CM_START.BRK_DUTY", 0x58, [], 24, 8, .rw, .idle, 0, true, .any⟩,
    ⟨"CM_REV.REV_THRESH", 0x5c, [], 0, 10, .rw, .idle, 30, false, .any⟩,
    ⟨"CM_REV.RATED", 0x5c, [], 16, 16, .rw, .idle, 0, true, .any⟩,
    ⟨"CM_OPEN.ALIGN_T", 0x60, [], 0, 8, .rw, .idle, 0, true, .any⟩ ]

/-- Table 13.5. -/
def commutation1 : List Row :=
  [ ⟨"CM_OPEN.ALIGN_DUTY", 0x60, [], 8, 8, .rw, .idle, 0, true, .any⟩,
    ⟨"CM_OPEN.MIN_BEMF", 0x60, [], 16, 16, .rw, .idle, 0, true, .any⟩,
    ⟨"CM_KE.NOM", 0x64, [], 0, 16, .rw, .idle, 0, true, .any⟩,
    ⟨"CM_KE.KE_PER", 0x64, [], 16, 8, .rw, .live, 0, false, .any⟩,
    ⟨"CM_KE2.ADC", 0x68, [], 0, 6, .rw, .idle, 0, true, .any⟩,
    ⟨"CM_KE2.KSCALE", 0x68, [], 16, 16, .rw, .idle, 0, true, .any⟩,
    ⟨"CM_STALL.T", 0x6c, [], 0, 16, .rw, .live, 200, false, .any⟩,
    ⟨"CM_LOOP.ENGINE", 0x70, [], 0, 2, .rw, .idle, 0, true, .any⟩,
    ⟨"CM_LOOP.SLOT", 0x70, [], 2, 5, .rw, .idle, 0, true, .any⟩,
    ⟨"CM_CMD.START", 0x74, [], 0, 1, .wo, .live, 0, false, .any⟩,
    ⟨"CM_CMD.STOP", 0x74, [], 1, 1, .wo, .live, 0, false, .any⟩,
    ⟨"CM_CMD.COAST", 0x74, [], 2, 1, .wo, .live, 0, false, .any⟩,
    ⟨"CM_CMD.KE_PROBE", 0x74, [], 3, 1, .wo, .live, 0, false, .any⟩,
    ⟨"CM_SPEED.SPEED", 0x78, [], 0, 32, .ro, .none, 0, false, .any⟩,
    ⟨"CM_REF.SPEED", 0x7c, [], 0, 32, .ro, .none, 0, false, .any⟩,
    ⟨"CM_STAT.SECTOR", 0x80, [], 0, 3, .ro, .none, 0, false, .any⟩,
    ⟨"CM_STAT.IN_BAND", 0x80, [], 3, 1, .ro, .none, 0, false, .any⟩,
    ⟨"CM_STAT.REGEN_OFF", 0x80, [], 4, 1, .ro, .none, 0, false, .any⟩,
    ⟨"CM_STAT.STRETCH", 0x80, [], 5, 1, .ro, .none, 0, false, .any⟩,
    ⟨"CM_STAT.REV_REFUSED", 0x80, [], 6, 1, .ro, .none, 0, false, .any⟩,
    ⟨"CM_STAT.TORQUE", 0x80, [], 16, 16, .ro, .none, 0, false, .any⟩,
    ⟨"CM_KE_EST.EST", 0x84, [], 0, 16, .ro, .none, 0, false, .any⟩,
    ⟨"CM_CNT.SENSOR_ERR", 0x88, [], 0, 16, .ro, .none, 0, false, .any⟩,
    ⟨"CM_CNT.STARTS", 0x88, [], 16, 16, .ro, .none, 0, false, .any⟩ ]

/-- Table 13.5. -/
def commutation2 : List Row :=
  [ ⟨"CM_CNT2.CATCH", 0x8c, [], 0, 32, .ro, .none, 0, false, .any⟩ ]

def commutation : List Row := commutation0 ++ commutation1 ++ commutation2

/-- Table 13.6. -/
def motorBus : List Row :=
  [ ⟨"MB_CH.CH_ON", 0x40, [(32, 2)], 0, 16, .rw, .live, 0, true, .any⟩,
    ⟨"MB_CH.CH_OFF", 0x40, [(32, 2)], 16, 16, .rw, .live, 0, true, .any⟩,
    ⟨"MB_TRIP.OV_TRIP", 0x44, [(32, 2)], 0, 16, .rw, .live, 0, true, .any⟩,
    ⟨"MB_TRIP.UV", 0x44, [(32, 2)], 16, 16, .rw, .live, 0, true, .any⟩,
    ⟨"MB_CHOP.R_BRAKE", 0x48, [(32, 2)], 0, 16, .rw, .live, 0, true, .any⟩,
    ⟨"MB_CHOP.RISE", 0x48, [(32, 2)], 16, 8, .rw, .live, 5, false, .any⟩,
    ⟨"MB_SCALE.VSCALE", 0x4c, [(32, 2)], 0, 16, .rw, .idle, 0, true, .any⟩,
    ⟨"MB_SCALE.ISCALE", 0x4c, [(32, 2)], 16, 16, .rw, .idle, 0, true, .any⟩,
    ⟨"MB_BUDGET.BUDGET", 0x50, [(32, 2)], 0, 8, .rw, .live, 0, true, .any⟩,
    ⟨"MB_BUDGET.WAIT_MAX", 0x50, [(32, 2)], 16, 16, .ro, .none, 0, false, .any⟩,
    ⟨"MB_STAT.VBUS", 0x54, [(32, 2)], 0, 16, .ro, .none, 0, false, .any⟩,
    ⟨"MB_STAT.GATE", 0x54, [(32, 2)], 16, 1, .ro, .none, 0, false, .any⟩,
    ⟨"MB_STAT.CHOP_ACTIVE", 0x54, [(32, 2)], 17, 1, .ro, .none, 0, false, .any⟩,
    ⟨"MB_STAT.TRIPPED", 0x54, [(32, 2)], 18, 1, .ro, .none, 0, false, .any⟩,
    ⟨"MB_STAT.UV", 0x54, [(32, 2)], 19, 1, .ro, .none, 0, false, .any⟩,
    ⟨"MB_CNT.TRIPS", 0x58, [(32, 2)], 0, 16, .ro, .none, 0, false, .any⟩,
    ⟨"MB_CNT.CHOP_FAULTS", 0x58, [(32, 2)], 16, 16, .ro, .none, 0, false, .any⟩,
    ⟨"MB_CMD.TEST", 0x5c, [(32, 2)], 0, 1, .wo, .live, 0, false, .any⟩,
    ⟨"MB_CMD.RESET_TRIP", 0x5c, [(32, 2)], 1, 1, .wo, .live, 0, false, .any⟩ ]

/-- Table 14.7, Table 14.8. -/
def loopEngine0 : List Row :=
  [ ⟨"LE_STAT.DUE_MAX", 0x40, [], 0, 5, .ro, .none, 0, false, .any⟩,
    ⟨"LE_STAT.DELAY_MAX", 0x40, [], 16, 16, .ro, .none, 0, false, .any⟩,
    ⟨"LE_CNT.OVERLOAD", 0x44, [], 0, 16, .ro, .none, 0, false, .any⟩,
    ⟨"LE_CNT.LATE", 0x44, [], 16, 16, .ro, .none, 0, false, .any⟩,
    ⟨"LE_SAMPLES.COUNT", 0x48, [], 0, 32, .ro, .none, 0, false, .any⟩,
    ⟨"LE_HELD.SLOTS", 0x4c, [], 0, 32, .ro, .none, 0, false, .any⟩,
    ⟨"SL_IN.KIND", 0x100, [(96, 32)], 0, 3, .rw, .idle, 0, true, .any⟩,
    ⟨"SL_IN.NUM", 0x100, [(96, 32)], 8, 7, .rw, .idle, 0, true, .any⟩,
    ⟨"SL_IN.LIN", 0x100, [(96, 32)], 15, 1, .rw, .idle, 0, true, .any⟩,
    ⟨"SL_SP.KIND", 0x104, [(96, 32)], 0, 2, .rw, .idle, 0, true, .any⟩,
    ⟨"SL_SP.NUM", 0x104, [(96, 32)], 8, 7, .rw, .idle, 0, true, .any⟩,
    ⟨"SL_OUT.DST", 0x108, [(96, 32)], 0, 2, .rw, .idle, 0, true, .range 0 2 0 0⟩,
    ⟨"SL_OUT.NUM", 0x108, [(96, 32)], 8, 7, .rw, .idle, 0, true, .any⟩,
    ⟨"SL_OUT.GATE", 0x108, [(96, 32)], 16, 2, .rw, .idle, 0, true, .range 0 2 0 0⟩,
    ⟨"SL_OUT.STN_MASK", 0x108, [(96, 32)], 24, 6, .rw, .idle, 0, true, .any⟩,
    ⟨"SL_PER.PERIOD", 0x10c, [(96, 32)], 0, 24, .rw, .idle, 0, true, .range 100 16777215 100 16777215⟩,
    ⟨"SL_PHASE.PHASE", 0x110, [(96, 32)], 0, 24, .rw, .idle, 0, true, .any⟩,
    ⟨"SL_MODE.MODE", 0x114, [(96, 32)], 0, 2, .rw, .live, 0, false, .range 0 2 0 1⟩,
    ⟨"SL_MODE.FIXLAT", 0x114, [(96, 32)], 2, 1, .rw, .idle, 0, true, .any⟩,
    ⟨"SL_MODE.N1_EN", 0x114, [(96, 32)], 3, 1, .rw, .live, 0, true, .any⟩,
    ⟨"SL_MODE.N2_EN", 0x114, [(96, 32)], 4, 1, .rw, .live, 0, true, .any⟩,
    ⟨"SL_SPV", 0x118, [(96, 32)], 0, 32, .rw, .live, 0, true, .any⟩,
    ⟨"SL_MAN", 0x11c, [(96, 32)], 0, 32, .rw, .live, 0, false, .any⟩,
    ⟨"SL_PVIN", 0x120, [(96, 32)], 0, 32, .rw, .live, 0, false, .any⟩ ]

/-- Table 14.8. -/
def loopEngine1 : List Row :=
  [ ⟨"SL_PVOFFS", 0x124, [(96, 32)], 0, 32, .rw, .live, 0, true, .any⟩,
    ⟨"SL_PVGAIN", 0x128, [(96, 32)], 0, 32, .rw, .live, 0, true, .any⟩,
    ⟨"SL_KP", 0x12c, [(96, 32)], 0, 32, .rw, .live, 0, true, .any⟩,
    ⟨"SL_KI", 0x130, [(96, 32)], 0, 32, .rw, .live, 0, true, .any⟩,
    ⟨"SL_KD", 0x134, [(96, 32)], 0, 32, .rw, .live, 0, true, .any⟩,
    ⟨"SL_FILT.DF", 0x138, [(96, 32)], 0, 16, .rw, .live, 0, false, .any⟩,
    ⟨"SL_FILT.SLEW", 0x138, [(96, 32)], 16, 16, .rw, .live, 0, false, .any⟩,
    ⟨"SL_FF", 0x13c, [(96, 32)], 0, 32, .rw, .live, 0, false, .any⟩,
    ⟨"SL_FFOFFS", 0x140, [(96, 32)], 0, 32, .rw, .live, 0, false, .any⟩,
    ⟨"SL_OMIN", 0x144, [(96, 32)], 0, 32, .rw, .live, 0, true, .any⟩,
    ⟨"SL_OMAX", 0x148, [(96, 32)], 0, 32, .rw, .live, 0, true, .any⟩,
    ⟨"SL_BAND.BAND", 0x14c, [(96, 32)], 0, 24, .rw, .live, 0, true, .any⟩,
    ⟨"SL_BAND.BAND_Q", 0x14c, [(96, 32)], 24, 4, .rw, .live, 4, false, .range 1 4294967295 1 0⟩,
    ⟨"SL_RANGE.PV_LO", 0x150, [(96, 32)], 0, 12, .rw, .live, 0, false, .any⟩,
    ⟨"SL_RANGE.PV_HI", 0x150, [(96, 32)], 16, 12, .rw, .live, 4095, false, .any⟩,
    ⟨"SL_FAIL", 0x154, [(96, 32)], 0, 32, .rw, .live, 0, false, .any⟩,
    ⟨"SL_OUTV", 0x158, [(96, 32)], 0, 32, .ro, .none, 0, false, .any⟩,
    ⟨"SL_STAT.STATE", 0x15c, [(96, 32)], 0, 3, .ro, .none, 0, false, .any⟩,
    ⟨"SL_STAT.IN_BAND", 0x15c, [(96, 32)], 3, 1, .ro, .none, 0, false, .any⟩,
    ⟨"SL_STAT.FORCED", 0x15c, [(96, 32)], 4, 1, .ro, .none, 0, false, .any⟩,
    ⟨"SL_STAT.SAT", 0x15c, [(96, 32)], 5, 1, .ro, .none, 0, false, .any⟩,
    ⟨"SL_STAT.CAUSE", 0x15c, [(96, 32)], 6, 3, .ro, .none, 0, false, .any⟩,
    ⟨"SL_STAT.LATE", 0x15c, [(96, 32)], 16, 16, .ro, .none, 0, false, .any⟩ ]

def loopEngine : List Row := loopEngine0 ++ loopEngine1

/-- Table 14.9. -/
def adc : List Row :=
  [ ⟨"ADC_CFG.EN", 0x40, [], 0, 4, .rw, .idle, 0, true, .any⟩,
    ⟨"ADC_FIFO.THRESH", 0x44, [(4, 4)], 0, 6, .rw, .live, 8, false, .range 1 32 1 32⟩,
    ⟨"ADC_FIFO.LEVEL", 0x44, [(4, 4)], 8, 8, .ro, .none, 0, false, .any⟩,
    ⟨"ADC_FIFO.OVF", 0x44, [(4, 4)], 16, 16, .ro, .none, 0, false, .any⟩,
    ⟨"ADC_REFRES.CODE", 0x60, [(4, 4)], 0, 12, .ro, .none, 0, false, .any⟩,
    ⟨"ADC_SEQ.CH", 0x100, [(80, 4), (4, 20)], 0, 6, .rw, .live, 0, true, .adcChannel⟩,
    ⟨"ADC_SEQ.DIV", 0x100, [(80, 4), (4, 20)], 8, 3, .rw, .live, 0, true, .any⟩,
    ⟨"ADC_SEQ.FIFO", 0x100, [(80, 4), (4, 20)], 11, 1, .rw, .live, 0, true, .any⟩,
    ⟨"ADC_RES.CODE", 0x300, [(4, 48)], 0, 12, .ro, .none, 0, false, .any⟩,
    ⟨"ADC_RES.STALE", 0x300, [(4, 48)], 15, 1, .ro, .none, 0, false, .any⟩,
    ⟨"ADC_RES.SEQ", 0x300, [(4, 48)], 16, 16, .ro, .none, 0, false, .any⟩ ]

/-- Table 14.10. -/
def pwm : List Row :=
  [ ⟨"PWM_CFG.EN", 0x100, [(16, 96)], 0, 1, .rw, .live, 0, false, .any⟩,
    ⟨"PWM_CFG.POL", 0x100, [(16, 96)], 1, 1, .rw, .idle, 0, true, .any⟩,
    ⟨"PWM_CFG.SAFE_LVL", 0x100, [(16, 96)], 2, 1, .rw, .live, 0, true, .any⟩,
    ⟨"PWM_PER.PER", 0x104, [(16, 96)], 0, 24, .rw, .idle, 0, true, .range 2 16777215 2 16777215⟩,
    ⟨"PWM_PHASE.PHASE", 0x108, [(16, 96)], 0, 24, .rw, .idle, 0, false, .any⟩,
    ⟨"PWM_DUTY.DUTY", 0x10c, [(16, 96)], 0, 16, .rw, .live, 0, false, .any⟩,
    ⟨"PWM_DUTY.SLOT", 0x10c, [(16, 96)], 16, 1, .ro, .none, 0, false, .any⟩ ]

/-- Table 15.8. -/
def sequencer0 : List Row :=
  [ ⟨"PS_CFG.AUTO_UP", 0x40, [], 0, 1, .rw, .live, 0, true, .any⟩,
    ⟨"PS_CMD.DOWN", 0x44, [], 0, 1, .wo, .live, 0, false, .any⟩,
    ⟨"PS_CMD.RETRY", 0x44, [], 1, 1, .wo, .live, 0, false, .any⟩,
    ⟨"PS_CMD.AVS_RETRY", 0x44, [], 2, 1, .wo, .live, 0, false, .any⟩,
    ⟨"PS_STAT.ENTRY", 0x48, [], 0, 6, .ro, .none, 0, false, .any⟩,
    ⟨"PS_STAT.DIR", 0x48, [], 6, 1, .ro, .none, 0, false, .any⟩,
    ⟨"PS_STAT.PFW", 0x48, [], 7, 1, .ro, .none, 0, false, .any⟩,
    ⟨"PS_STAT.CASC", 0x48, [], 8, 4, .ro, .none, 0, false, .any⟩,
    ⟨"PS_FAIL.ITEM", 0x4c, [], 0, 6, .ro, .none, 0, false, .any⟩,
    ⟨"PS_FAIL.REASON", 0x4c, [], 8, 4, .ro, .none, 0, false, .any⟩,
    ⟨"PS_PFW.TH", 0x50, [], 0, 10, .rw, .live, 0, true, .any⟩,
    ⟨"PS_PFW.HYST", 0x50, [], 10, 6, .rw, .live, 8, false, .any⟩,
    ⟨"PS_PFW.HOLD", 0x50, [], 16, 16, .rw, .live, 0, true, .any⟩,
    ⟨"PS_SLACK.IDLE_S", 0x54, [], 0, 16, .rw, .live, 0, true, .any⟩,
    ⟨"PS_CASC.TO", 0x58, [], 0, 16, .rw, .live, 1000, false, .any⟩,
    ⟨"PS_AVS.VMIN", 0x5c, [], 0, 10, .rw, .live, 550, false, .range 550 4294967295 550 0⟩,
    ⟨"PS_AVS.VMAX", 0x5c, [], 16, 10, .rw, .live, 800, false, .range 0 800 0 800⟩,
    ⟨"PS_AVS2.UP_TH", 0x60, [], 0, 8, .rw, .live, 205, false, .any⟩,
    ⟨"PS_AVS2.DN_TH", 0x60, [], 8, 8, .rw, .live, 179, false, .any⟩,
    ⟨"PS_AVS2.DWELL", 0x60, [], 16, 8, .rw, .live, 8, false, .range 1 4294967295 1 0⟩,
    ⟨"PS_AVS2.STEP", 0x60, [], 24, 4, .rw, .live, 1, false, .range 1 4294967295 1 0⟩,
    ⟨"PS_VCORE.VSET", 0x64, [], 0, 10, .ro, .none, 800, false, .any⟩,
    ⟨"PS_VCORE.VREAD", 0x64, [], 16, 10, .ro, .none, 0, false, .any⟩,
    ⟨"PS_UTIL.UMAX", 0x68, [], 0, 8, .ro, .none, 0, false, .any⟩ ]

/-- Table 15.8, Table 15.9, Table 15.10, Table 15.2. -/
def sequencer1 : List Row :=
  [ ⟨"PS_SUP.BUDGET", 0x70, [(4, 4)], 0, 8, .rw, .idle, 0, true, .any⟩,
    ⟨"PS_SUP.IN_WIN", 0x70, [(4, 4)], 8, 8, .ro, .none, 0, false, .any⟩,
    ⟨"PS_SUP.WAIT_MAX", 0x70, [(4, 4)], 16, 16, .ro, .none, 0, false, .any⟩,
    ⟨"PD_CFG.WEIGHT", 0x80, [(4, 12)], 0, 8, .rw, .idle, 0, true, .any⟩,
    ⟨"PD_CFG.SUP", 0x80, [(4, 12)], 8, 2, .rw, .idle, 0, true, .any⟩,
    ⟨"PD_CFG.SLACK", 0x80, [(4, 12)], 10, 2, .rw, .live, 0, true, .range 0 2 0 2⟩,
    ⟨"PD_CFG.STATE", 0x80, [(4, 12)], 12, 2, .ro, .none, 0, false, .any⟩,
    ⟨"PD_CFG.RAMP", 0x80, [(4, 12)], 16, 8, .rw, .idle, 0, true, .any⟩,
    ⟨"RAIL_CFG.WEIGHT", 0x100, [(16, 24)], 0, 8, .rw, .idle, 0, true, .any⟩,
    ⟨"RAIL_CFG.SUP", 0x100, [(16, 24)], 8, 2, .rw, .idle, 0, true, .any⟩,
    ⟨"RAIL_CFG.ON_LOSS", 0x100, [(16, 24)], 10, 1, .rw, .live, 0, true, .any⟩,
    ⟨"RAIL_CFG.OFF_SRC", 0x100, [(16, 24)], 11, 1, .rw, .idle, 0, true, .any⟩,
    ⟨"RAIL_CFG.DIS", 0x100, [(16, 24)], 12, 3, .rw, .idle, 0, true, .any⟩,
    ⟨"RAIL_CFG.DIS_EN", 0x100, [(16, 24)], 15, 1, .rw, .idle, 0, true, .any⟩,
    ⟨"RAIL_CFG.ADC", 0x100, [(16, 24)], 16, 6, .rw, .idle, 0, true, .any⟩,
    ⟨"RAIL_CFG.T_QUAL", 0x104, [(16, 24)], 0, 8, .rw, .idle, 20, false, .range 1 4294967295 1 0⟩,
    ⟨"RAIL_CFG.TIMEOUT", 0x104, [(16, 24)], 8, 16, .rw, .idle, 0, true, .any⟩,
    ⟨"RAIL_CFG.T_FALL", 0x108, [(16, 24)], 0, 16, .rw, .idle, 0, true, .any⟩,
    ⟨"RAIL_CFG.OFF_CODE", 0x108, [(16, 24)], 16, 12, .rw, .idle, 0, true, .any⟩,
    ⟨"RAIL_CFG.STATE", 0x10c, [(16, 24)], 0, 3, .ro, .none, 0, false, .any⟩,
    ⟨"RAIL_CFG.RESTARTS", 0x10c, [(16, 24)], 4, 2, .ro, .none, 0, false, .any⟩,
    ⟨"RAIL_CFG.EN", 0x10c, [(16, 24)], 6, 1, .ro, .none, 0, false, .any⟩,
    ⟨"RAIL_CFG.PG", 0x10c, [(16, 24)], 7, 1, .ro, .none, 0, false, .any⟩,
    ⟨"SEQ_UP.ENTRY", 0x300, [(4, 48)], 0, 32, .rw, .idle, 0, true, .any⟩ ]

/-- Table 15.2. -/
def sequencer2 : List Row :=
  [ ⟨"SEQ_DN.ENTRY", 0x3c0, [(4, 48)], 0, 32, .rw, .idle, 0, true, .any⟩ ]

def sequencer : List Row := sequencer0 ++ sequencer1 ++ sequencer2

/-- Table 16.4. -/
def clocks : List Row :=
  [ ⟨"CK_PLL.N", 0x40, [(8, 3)], 0, 8, .rw, .idle, 0, true, .any⟩,
    ⟨"CK_PLL.POSTDIV", 0x40, [(8, 3)], 8, 7, .rw, .idle, 0, true, .any⟩,
    ⟨"CK_PLL.EN", 0x40, [(8, 3)], 16, 1, .rw, .idle, 0, true, .any⟩,
    ⟨"CK_FRAC.FRAC", 0x44, [(8, 3)], 0, 24, .rw, .idle, 0, true, .any⟩,
    ⟨"CK_ROLE.PXA_SRC", 0x58, [], 0, 1, .ro, .none, 0, false, .any⟩,
    ⟨"CK_ROLE.GROUPS", 0x58, [], 1, 1, .rw, .idle, 0, true, .any⟩,
    ⟨"CK_ROLE.STANDBY", 0x58, [], 2, 1, .ro, .none, 0, false, .any⟩,
    ⟨"CK_LOCK.TH", 0x5c, [], 0, 8, .rw, .live, 25, false, .range 1 4294967295 1 0⟩,
    ⟨"CK_LOCK.CNT", 0x5c, [], 8, 8, .rw, .live, 64, false, .range 1 4294967295 1 0⟩,
    ⟨"CK_STAT.P0", 0x60, [], 0, 3, .ro, .none, 0, false, .any⟩,
    ⟨"CK_STAT.P1", 0x60, [], 4, 3, .ro, .none, 0, false, .any⟩,
    ⟨"CK_STAT.P2", 0x60, [], 8, 3, .ro, .none, 0, false, .any⟩,
    ⟨"CK_STAT.REF_OK", 0x60, [], 16, 1, .ro, .none, 0, false, .any⟩,
    ⟨"CK_STAT.KEEPER", 0x60, [], 17, 1, .ro, .none, 1, false, .any⟩,
    ⟨"CK_STAT.DLL", 0x60, [], 24, 6, .ro, .none, 0, false, .any⟩,
    ⟨"CK_PHERR.ERR", 0x64, [], 0, 16, .ro, .none, 0, false, .any⟩,
    ⟨"CK_CNT.UNLOCK", 0x68, [], 0, 16, .ro, .none, 0, false, .any⟩,
    ⟨"CK_CNT.SWITCH", 0x68, [], 16, 16, .ro, .none, 0, false, .any⟩,
    ⟨"CK_CMD.RELOCK", 0x6c, [], 0, 1, .wo, .live, 0, false, .any⟩ ]

/-- Table 17.10. -/
def faultCollector0 : List Row :=
  [ ⟨"FC_CFG.ESC_EN", 0x40, [], 0, 1, .rw, .live, 1, false, .any⟩,
    ⟨"FC_CFG.MERGE_MAX", 0x40, [], 8, 8, .rw, .live, 50, false, .range 1 4294967295 1 0⟩,
    ⟨"FC_FIRST.SRC", 0x44, [], 0, 8, .ro, .none, 0, false, .any⟩,
    ⟨"FC_FIRST.SEV", 0x44, [], 8, 3, .ro, .none, 0, false, .any⟩,
    ⟨"FC_FIRST.VALID", 0x44, [], 11, 1, .ro, .none, 0, false, .any⟩,
    ⟨"FC_FIRST.OVF", 0x44, [], 12, 1, .ro, .none, 0, false, .any⟩,
    ⟨"FC_FIRST.CLR", 0x44, [], 31, 1, .wo, .live, 0, false, .any⟩,
    ⟨"FC_FIRST_T_LO", 0x48, [], 0, 32, .ro, .none, 0, false, .any⟩,
    ⟨"FC_FIRST_T_HI", 0x4c, [], 0, 32, .ro, .none, 0, false, .any⟩,
    ⟨"FC_STATE.MERGE", 0x50, [], 0, 16, .ro, .none, 65535, false, .any⟩,
    ⟨"FC_STATE.SAFE", 0x50, [], 16, 1, .ro, .none, 0, false, .any⟩,
    ⟨"FC_ASSAY.SRC", 0x54, [], 0, 8, .rw, .live, 0, false, .any⟩,
    ⟨"FC_ASSAY.GO", 0x54, [], 8, 1, .wo, .live, 0, false, .any⟩,
    ⟨"FC_ASSAY.STATUS", 0x54, [], 9, 3, .ro, .none, 0, false, .any⟩,
    ⟨"FC_CNT.RAISES", 0x58, [], 0, 16, .ro, .none, 0, false, .any⟩,
    ⟨"FC_CNT.ESCALATED", 0x58, [], 16, 16, .ro, .none, 0, false, .any⟩,
    ⟨"FC_UNACK", 0x80, [(4, 8)], 0, 32, .w1c, .live, 0, false, .any⟩,
    ⟨"FC_STICKY", 0xa0, [(4, 8)], 0, 32, .w1c, .live, 0, false, .any⟩,
    ⟨"FC_ACTIVE", 0xc0, [(4, 8)], 0, 32, .ro, .none, 0, false, .any⟩,
    ⟨"FC_SRC.SEV", 0x400, [(4, 256)], 0, 2, .rw, .live, 0, true, .any⟩,
    ⟨"FC_SRC.HWONLY", 0x400, [(4, 256)], 2, 1, .ro, .none, 0, false, .any⟩,
    ⟨"FC_SRC.ISOLATE", 0x400, [(4, 256)], 3, 1, .rw, .live, 0, true, .any⟩,
    ⟨"FC_SRC.FEEDSTOP", 0x400, [(4, 256)], 4, 1, .rw, .live, 0, true, .any⟩,
    ⟨"FC_SRC.RAISES", 0x400, [(4, 256)], 16, 16, .ro, .none, 0, false, .any⟩ ]

/-- Table 17.10. -/
def faultCollector1 : List Row :=
  [ ⟨"FC_STATS.TRANS", 0x800, [(4, 256)], 0, 16, .ro, .none, 0, false, .any⟩,
    ⟨"FC_STATS.LASTING", 0x800, [(4, 256)], 16, 8, .ro, .none, 0, false, .any⟩,
    ⟨"FC_STATS.MERGED", 0x800, [(4, 256)], 24, 8, .ro, .none, 0, false, .any⟩ ]

def faultCollector : List Row := faultCollector0 ++ faultCollector1

/-- Table 17.11. -/
def harbourmaster : List Row :=
  [ ⟨"HM_STAT.STATE", 0x40, [], 0, 3, .ro, .none, 0, false, .any⟩,
    ⟨"HM_STAT.DUAL", 0x40, [], 3, 1, .ro, .none, 0, false, .any⟩,
    ⟨"HM_STAT.EXCLUDED", 0x40, [], 4, 2, .ro, .none, 0, false, .any⟩,
    ⟨"HM_STAT.SUP_BERTH", 0x40, [], 8, 4, .ro, .none, 0, false, .any⟩,
    ⟨"HM_VOTE.DIS0", 0x44, [], 0, 8, .ro, .none, 0, false, .any⟩,
    ⟨"HM_VOTE.DIS1", 0x44, [], 8, 8, .ro, .none, 0, false, .any⟩,
    ⟨"HM_VOTE.DIS2", 0x44, [], 16, 8, .ro, .none, 0, false, .any⟩,
    ⟨"HM_BEAT.COUNT", 0x48, [], 0, 32, .ro, .none, 0, false, .any⟩,
    ⟨"HM_CMD.BEAT", 0x4c, [], 0, 1, .wo, .live, 0, false, .any⟩,
    ⟨"HM_CMD.RESYNC", 0x4c, [], 1, 1, .wo, .live, 0, false, .any⟩,
    ⟨"HM_CNT.PROMOTIONS", 0x50, [], 0, 16, .ro, .none, 0, false, .any⟩,
    ⟨"HM_CNT.MISSES", 0x50, [], 16, 16, .ro, .none, 0, false, .any⟩ ]

/-- Table 17.12. -/
def berth : List Row :=
  [ ⟨"BR_ROLE.ROLE", 0x40, [], 0, 4, .ro, .none, 0, true, .any⟩,
    ⟨"BR_CNT.MISMATCH", 0x44, [], 0, 16, .ro, .none, 0, false, .any⟩,
    ⟨"BR_CNT.TRAP_UE", 0x44, [], 16, 16, .ro, .none, 0, false, .any⟩,
    ⟨"BR_SIG_LO", 0x48, [], 0, 32, .ro, .none, 0, false, .any⟩,
    ⟨"BR_SIG_HI", 0x4c, [], 0, 32, .ro, .none, 0, false, .any⟩,
    ⟨"BR_MOVE.TIME", 0x50, [], 0, 16, .ro, .none, 0, false, .any⟩ ]

/-- Table 18.9. -/
def mram0 : List Row :=
  [ ⟨"FW_STAT.BANK", 0x40, [], 0, 1, .ro, .none, 0, false, .any⟩,
    ⟨"FW_STAT.TRIAL", 0x40, [], 1, 1, .ro, .none, 0, false, .any⟩,
    ⟨"FW_STAT.STATUS", 0x40, [], 4, 4, .ro, .none, 0, false, .any⟩,
    ⟨"FW_STAT.UPD_ROLE", 0x40, [], 8, 4, .ro, .none, 15, false, .any⟩,
    ⟨"FW_VER.VERSION", 0x44, [], 0, 32, .ro, .none, 0, false, .any⟩,
    ⟨"FW_SVN.RUN", 0x48, [], 0, 16, .ro, .none, 0, false, .any⟩,
    ⟨"FW_SVN.COUNTER", 0x48, [], 16, 16, .ro, .none, 0, false, .any⟩,
    ⟨"FW_ALT.VERSION", 0x4c, [], 0, 32, .ro, .none, 0, false, .any⟩,
    ⟨"FW_SRC_LO", 0x50, [], 0, 32, .rw, .idle, 0, false, .any⟩,
    ⟨"FW_SRC_HI", 0x54, [], 0, 16, .rw, .idle, 0, false, .any⟩,
    ⟨"FW_LEN.BYTES", 0x58, [], 0, 25, .rw, .idle, 0, false, .any⟩,
    ⟨"FW_CMD.STAGE", 0x5c, [], 0, 1, .wo, .live, 0, false, .any⟩,
    ⟨"FW_CMD.UPDATE", 0x5c, [], 1, 1, .wo, .live, 0, false, .any⟩,
    ⟨"FW_CMD.ACCEPT", 0x5c, [], 2, 1, .wo, .live, 0, false, .any⟩,
    ⟨"FW_CMD.ABORT", 0x5c, [], 3, 1, .wo, .live, 0, false, .any⟩,
    ⟨"FW_CMD.TRY_BOOT", 0x5c, [], 4, 1, .wo, .live, 0, false, .any⟩,
    ⟨"PF_STAT.ACTIVE", 0x60, [], 0, 2, .ro, .none, 0, false, .any⟩,
    ⟨"PF_STAT.ZE40", 0x60, [], 2, 1, .ro, .none, 0, false, .any⟩,
    ⟨"PF_STAT.VALID", 0x60, [], 4, 4, .ro, .none, 0, false, .any⟩,
    ⟨"PF_STAT.STATUS", 0x60, [], 8, 4, .ro, .none, 0, false, .any⟩,
    ⟨"PF_STAT.KEY_LOCK", 0x60, [], 12, 1, .ro, .none, 0, false, .any⟩,
    ⟨"PF_CMD.SLOT", 0x64, [], 0, 2, .rw, .live, 0, false, .any⟩,
    ⟨"PF_CMD.WRITE", 0x64, [], 4, 1, .wo, .live, 0, false, .any⟩,
    ⟨"PF_CMD.SELECT", 0x64, [], 5, 1, .wo, .live, 0, false, .any⟩ ]

/-- Table 18.9. -/
def mram1 : List Row :=
  [ ⟨"PF_CMD.KEY_WRITE", 0x64, [], 6, 1, .wo, .live, 0, false, .any⟩,
    ⟨"PF_CMD.KEY_LOCK", 0x64, [], 7, 1, .wo, .live, 0, false, .any⟩,
    ⟨"PF_CMD.KEY_ERASE", 0x64, [], 8, 1, .wo, .live, 0, false, .any⟩,
    ⟨"PF_CMD.KEYSLOT", 0x64, [], 10, 5, .rw, .live, 0, false, .any⟩,
    ⟨"PF_SRC.OFFS", 0x68, [], 0, 21, .rw, .live, 1048576, false, .clear 3⟩,
    ⟨"PF_LEN.BYTES", 0x6c, [], 0, 19, .rw, .live, 0, false, .any⟩,
    ⟨"MR_WIN.OFFS", 0x70, [], 6, 15, .rw, .live, 0, false, .any⟩,
    ⟨"MR_DATA", 0x80, [(4, 16)], 0, 32, .ro, .none, 0, false, .any⟩,
    ⟨"LG_STAT.HEAD", 0xc0, [], 0, 20, .ro, .none, 0, false, .any⟩,
    ⟨"LG_SEQ.LAST", 0xc4, [], 0, 32, .ro, .none, 0, false, .any⟩ ]

def mram : List Row := mram0 ++ mram1

/-- Table 19.3. -/
def zmap0 : List Row :=
  [ ⟨"ZID.REV", 0x0, [], 0, 4, .ro, .none, 7, false, .any⟩,
    ⟨"ZID.PART", 0x0, [], 4, 12, .ro, .none, 228, false, .any⟩,
    ⟨"ZCTRL.RUN", 0x4, [], 0, 1, .rw, .live, 0, false, .any⟩,
    ⟨"ZCTRL.FEED_EN", 0x4, [], 1, 1, .rw, .live, 0, false, .any⟩,
    ⟨"ZCTRL.SOFT_RST", 0x4, [], 2, 1, .wo, .live, 0, false, .any⟩,
    ⟨"ZCTRL.INT_EN", 0x4, [], 3, 1, .rw, .live, 0, false, .any⟩,
    ⟨"ZCTRL.STN_EN", 0x4, [], 4, 4, .rw, .idle, 15, false, .any⟩,
    ⟨"ZSTAT.STATE", 0x8, [], 0, 3, .ro, .none, 0, false, .any⟩,
    ⟨"ZSTAT.PAGE_REQ", 0x8, [], 3, 1, .ro, .none, 0, false, .any⟩,
    ⟨"ZSTAT.JAM", 0x8, [], 4, 1, .ro, .none, 0, false, .any⟩,
    ⟨"ZSTAT.FUSER_OK", 0x8, [], 5, 1, .ro, .none, 0, false, .any⟩,
    ⟨"ZSTAT.POLY_OK", 0x8, [], 6, 1, .ro, .none, 0, false, .any⟩,
    ⟨"ZSTAT.STN_OK", 0x8, [], 8, 4, .ro, .none, 0, false, .any⟩,
    ⟨"ZINT.EV", 0xc, [], 0, 8, .w1c, .live, 0, false, .any⟩,
    ⟨"ZINT_EN.EN", 0x10, [], 0, 8, .rw, .live, 0, false, .any⟩,
    ⟨"ZERR.CODE", 0x14, [], 0, 8, .ro, .none, 0, false, .any⟩,
    ⟨"ZERR.COUNT", 0x14, [], 8, 8, .ro, .none, 0, false, .any⟩,
    ⟨"ZSPEED.SPEED", 0x18, [], 0, 16, .rw, .idle, 0, true, .any⟩,
    ⟨"ZGAP.GAP", 0x1c, [], 0, 16, .rw, .idle, 0, true, .any⟩,
    ⟨"ZMS_LO.MS", 0x20, [], 0, 16, .ro, .none, 0, false, .any⟩,
    ⟨"ZMS_HI.MS", 0x24, [], 0, 16, .ro, .none, 0, false, .any⟩,
    ⟨"ZPAGE_CMD.SUBMIT", 0x28, [], 0, 1, .wo, .live, 0, false, .any⟩,
    ⟨"ZPAGE_CMD.ABORT", 0x28, [], 1, 1, .wo, .live, 0, false, .any⟩,
    ⟨"ZPAGE_CMD.SEP_MASK", 0x28, [], 4, 4, .wo, .live, 0, false, .any⟩ ]

/-- Table 19.3, Table 19.4, Table 19.5. -/
def zmap1 : List Row :=
  [ ⟨"ZPAGE_CMD.TAG", 0x28, [], 8, 8, .wo, .live, 0, false, .any⟩,
    ⟨"ZPAGE_LEN.LEN", 0x2c, [], 0, 16, .rw, .staged, 0, true, .any⟩,
    ⟨"ZPAGE_W.WIDTH", 0x30, [], 0, 14, .rw, .staged, 0, false, .any⟩,
    ⟨"ZPAGE_H.HEIGHT", 0x34, [], 0, 16, .rw, .staged, 0, false, .any⟩,
    ⟨"ZPAGE_STAT.TAG", 0x38, [], 0, 8, .ro, .none, 0, false, .any⟩,
    ⟨"ZPAGE_STAT.RESULT", 0x38, [], 8, 3, .ro, .none, 0, false, .any⟩,
    ⟨"ZPAGE_STAT.QUEUED", 0x38, [], 12, 3, .ro, .none, 0, false, .any⟩,
    ⟨"ZCAUSE.CAUSE", 0x3c, [], 0, 4, .ro, .none, 0, false, .any⟩,
    ⟨"ZST_CTRL.EN", 0x40, [(32, 4)], 0, 1, .rw, .idle, 0, true, .any⟩,
    ⟨"ZST_CTRL.BEAMS", 0x40, [(32, 4)], 1, 2, .rw, .idle, 3, false, .any⟩,
    ⟨"ZST_OFFS.DIST", 0x44, [(32, 4)], 0, 16, .rw, .staged, 0, true, .any⟩,
    ⟨"ZST_TRIM.TRIM", 0x48, [(32, 4)], 0, 16, .rw, .staged, 0, false, .any⟩,
    ⟨"ZST_LSD.DELAY", 0x4c, [(32, 4)], 0, 16, .rw, .staged, 0, true, .any⟩,
    ⟨"ZST_PWR.POWER", 0x50, [(32, 4)], 0, 8, .rw, .staged, 0, true, .any⟩,
    ⟨"ZST_HV.SET", 0x54, [(32, 4)], 0, 12, .rw, .live, 0, true, .any⟩,
    ⟨"ZST_BIAS.SET", 0x58, [(32, 4)], 0, 12, .rw, .live, 0, true, .any⟩,
    ⟨"ZST_STAT.LOCK", 0x5c, [(32, 4)], 0, 1, .ro, .none, 0, false, .any⟩,
    ⟨"ZST_STAT.HEAD_OK", 0x5c, [(32, 4)], 1, 1, .ro, .none, 0, false, .any⟩,
    ⟨"ZST_STAT.HV_OK", 0x5c, [(32, 4)], 2, 1, .ro, .none, 0, false, .any⟩,
    ⟨"ZST_STAT.TEMP_WARN", 0x5c, [(32, 4)], 3, 1, .ro, .none, 0, false, .any⟩,
    ⟨"ZPREF.EN", 0xc0, [(4, 4)], 0, 1, .rw, .idle, 0, true, .any⟩,
    ⟨"ZPREF.EXT", 0xc0, [(4, 4)], 1, 1, .rw, .idle, 0, true, .any⟩,
    ⟨"ZPREF.PPR", 0xc0, [(4, 4)], 8, 8, .rw, .idle, 0, true, .range 1 4294967295 1 0⟩,
    ⟨"ZPOLY_RPM.RPM", 0xd0, [], 0, 16, .rw, .idle, 0, true, .range 0 30000 0 30000⟩ ]

/-- Table 19.5, Table 19.6. -/
def zmap2 : List Row :=
  [ ⟨"ZPOLY_FACETS.FACETS", 0xd4, [], 0, 4, .rw, .idle, 0, true, .range 4 12 8 8⟩,
    ⟨"ZPOLY_STAT.LOCK", 0xd8, [], 0, 4, .ro, .none, 0, false, .any⟩,
    ⟨"ZPOLY_STAT.DRV", 0xd8, [], 4, 4, .ro, .none, 0, false, .any⟩,
    ⟨"ZPOLY_CMD.START", 0xdc, [], 0, 1, .wo, .live, 0, false, .any⟩,
    ⟨"ZPOLY_CMD.STOP", 0xdc, [], 1, 1, .wo, .live, 0, false, .any⟩,
    ⟨"ZSTP.MSTEP", 0xe0, [(4, 8)], 0, 4, .rw, .idle, 0, true, .range 0 8 0 8⟩,
    ⟨"ZSTP.CRATIO", 0xe0, [(4, 8)], 4, 3, .rw, .idle, 0, true, .any⟩,
    ⟨"ZSTP.INV", 0xe0, [(4, 8)], 7, 1, .rw, .idle, 0, true, .any⟩,
    ⟨"ZSTP.IRUN", 0xe0, [(4, 8)], 8, 8, .rw, .live, 0, true, .any⟩,
    ⟨"ZFUS_SET.SET", 0x100, [], 0, 12, .rw, .live, 0, true, .any⟩,
    ⟨"ZFUS_TEMP.TEMP", 0x104, [], 0, 12, .ro, .none, 0, false, .any⟩,
    ⟨"ZFUS_CTRL.HEAT", 0x108, [], 0, 1, .rw, .live, 0, false, .any⟩,
    ⟨"ZMOT_CMD.RUN", 0x10c, [], 0, 4, .rw, .live, 0, false, .any⟩,
    ⟨"ZMOT_SPD.RPM", 0x110, [(4, 2)], 0, 16, .rw, .live, 0, true, .any⟩,
    ⟨"ZRAS_CTRL.EN", 0x120, [], 0, 1, .rw, .live, 0, false, .any⟩,
    ⟨"ZRAS_CTRL.SEP", 0x120, [], 1, 2, .rw, .idle, 0, false, .any⟩,
    ⟨"ZRAS_CTRL.DMA", 0x120, [], 3, 1, .rw, .idle, 1, false, .any⟩,
    ⟨"ZRAS_CTRL.BURST", 0x120, [], 8, 8, .rw, .idle, 15, false, .roundUp4⟩,
    ⟨"ZRAS_STAT.BUSY", 0x124, [], 0, 1, .ro, .none, 0, false, .any⟩,
    ⟨"ZRAS_STAT.FMT_ERR", 0x124, [], 1, 1, .ro, .none, 0, false, .any⟩,
    ⟨"ZRAS_STAT.TIMEOUT", 0x124, [], 2, 1, .ro, .none, 0, false, .any⟩,
    ⟨"ZRAS_STAT.DONE", 0x124, [], 3, 1, .ro, .none, 0, false, .any⟩,
    ⟨"ZRAS_LINES.LINES", 0x128, [], 0, 16, .ro, .none, 0, false, .any⟩,
    ⟨"ZRAS_DATA.WORD", 0x12c, [], 0, 16, .wo, .live, 0, false, .any⟩ ]

/-- Table 19.6. -/
def zmap3 : List Row :=
  [ ⟨"ZDMA_CNT_LO.CNT", 0x130, [], 0, 16, .ro, .none, 0, false, .any⟩,
    ⟨"ZDMA_CNT_HI.CNT", 0x134, [], 0, 16, .ro, .none, 0, false, .any⟩,
    ⟨"ZSENS_LVL_LO.LVL", 0x138, [], 0, 16, .ro, .none, 0, false, .any⟩,
    ⟨"ZSENS_LVL_HI.LVL", 0x13c, [], 0, 16, .ro, .none, 0, false, .any⟩,
    ⟨"ZSENS_SEL.INPUT", 0x140, [], 0, 6, .rw, .live, 0, false, .any⟩,
    ⟨"ZSENS_TLEAD.T", 0x144, [], 0, 16, .ro, .none, 0, false, .any⟩,
    ⟨"ZSENS_TTRAIL.T", 0x148, [], 0, 16, .ro, .none, 0, false, .any⟩,
    ⟨"ZSENS_CNT.LSEQ", 0x14c, [], 0, 8, .ro, .none, 0, false, .any⟩,
    ⟨"ZSENS_CNT.TSEQ", 0x14c, [], 8, 8, .ro, .none, 0, false, .any⟩,
    ⟨"ZADC.CODE", 0x150, [(4, 8)], 0, 10, .ro, .none, 0, false, .any⟩,
    ⟨"ZADC.STALE", 0x150, [(4, 8)], 15, 1, .ro, .none, 0, false, .any⟩,
    ⟨"ZSCRATCH.DATA", 0x170, [], 0, 16, .rw, .live, 0, false, .any⟩,
    ⟨"ZDIAG.SRC", 0x174, [], 0, 8, .ro, .none, 0, false, .any⟩,
    ⟨"ZDIAG.SEV", 0x174, [], 8, 3, .ro, .none, 0, false, .any⟩,
    ⟨"ZMIG_KEY.KEY", 0x178, [], 0, 16, .wo, .live, 0, false, .any⟩,
    ⟨"ZMIG_CTRL.PAGE", 0x17c, [], 0, 8, .rw, .live, 0, false, .any⟩,
    ⟨"ZMIG_CTRL.QTR", 0x17c, [], 8, 2, .rw, .live, 0, false, .any⟩,
    ⟨"ZMIG_CTRL.OPEN", 0x17c, [], 15, 1, .ro, .none, 0, false, .any⟩ ]

def zmap : List Row := zmap0 ++ zmap1 ++ zmap2 ++ zmap3

/-- Table 19.12. -/
def legacyPort : List Row :=
  [ ⟨"LG_STAT.ZE40", 0x40, [], 0, 1, .ro, .none, 0, true, .any⟩,
    ⟨"LG_STAT.WIN_OPEN", 0x40, [], 1, 1, .ro, .none, 0, false, .any⟩,
    ⟨"LG_STAT.WFIFO", 0x40, [], 8, 7, .ro, .none, 0, false, .any⟩,
    ⟨"LG_STAT.RFIFO", 0x40, [], 16, 10, .ro, .none, 0, false, .any⟩,
    ⟨"LG_DIR_LO.DIR", 0x44, [], 0, 32, .rw, .live, 0, false, .any⟩,
    ⟨"LG_DIR_HI.DIR", 0x48, [], 0, 1, .rw, .live, 0, false, .any⟩,
    ⟨"LG_OUT_LO.OUT", 0x4c, [], 0, 32, .rw, .live, 0, false, .any⟩,
    ⟨"LG_OUT_HI.OUT", 0x50, [], 0, 1, .rw, .live, 0, false, .any⟩,
    ⟨"LG_IN_LO.IN", 0x54, [], 0, 32, .ro, .none, 0, false, .any⟩,
    ⟨"LG_IN_HI.IN", 0x58, [], 0, 1, .ro, .none, 0, false, .any⟩,
    ⟨"LG_CNT_A.PROTO", 0x5c, [], 0, 16, .ro, .none, 0, false, .any⟩,
    ⟨"LG_CNT_A.IGNORED", 0x5c, [], 16, 16, .ro, .none, 0, false, .any⟩,
    ⟨"LG_CNT_B.TIMEOUTS", 0x60, [], 0, 16, .ro, .none, 0, false, .any⟩,
    ⟨"LG_CNT_B.FMT_ERR", 0x60, [], 16, 16, .ro, .none, 0, false, .any⟩ ]

/-- Table 20.4. -/
def device : List Row :=
  [ ⟨"DV_INFO.VARIANT", 0x40, [], 0, 2, .ro, .none, 0, false, .any⟩,
    ⟨"DV_INFO.GRADE", 0x40, [], 2, 1, .ro, .none, 0, false, .any⟩,
    ⟨"DV_INFO.STEP", 0x40, [], 4, 4, .ro, .none, 2, false, .any⟩,
    ⟨"DV_INFO.ZE40", 0x40, [], 8, 1, .ro, .none, 0, false, .any⟩,
    ⟨"DV_INFO.PROF", 0x40, [], 9, 2, .ro, .none, 0, false, .any⟩,
    ⟨"DV_SERIAL_LO", 0x44, [], 0, 32, .ro, .none, 0, false, .any⟩,
    ⟨"DV_SERIAL_HI", 0x48, [], 0, 32, .ro, .none, 0, false, .any⟩,
    ⟨"DV_TEMP.TJ", 0x4c, [], 0, 16, .ro, .none, 0, false, .any⟩,
    ⟨"DV_TEMP.TJ_MAX", 0x4c, [], 16, 16, .ro, .none, 0, false, .any⟩,
    ⟨"DV_CNT.OWNER_WR", 0x50, [], 0, 16, .ro, .none, 0, false, .any⟩,
    ⟨"DV_CNT.ACCESS", 0x50, [], 16, 16, .ro, .none, 0, false, .any⟩,
    ⟨"DV_LAST_WR.PAGE", 0x54, [], 0, 8, .ro, .none, 0, false, .any⟩,
    ⟨"DV_LAST_WR.OFFS", 0x54, [], 8, 12, .ro, .none, 0, false, .any⟩,
    ⟨"DV_LAST_WR.AGENT", 0x54, [], 20, 4, .ro, .none, 0, false, .any⟩,
    ⟨"DV_EVT_SUM", 0x80, [(4, 8)], 0, 32, .ro, .none, 0, false, .any⟩ ]

/-- Table 20.6. -/
def timebase : List Row :=
  [ ⟨"TB_NOW_LO", 0x40, [], 0, 32, .ro, .none, 0, false, .any⟩,
    ⟨"TB_NOW_HI", 0x44, [], 0, 32, .ro, .none, 0, false, .any⟩,
    ⟨"TB_ALARM_LO", 0x48, [], 0, 32, .rw, .live, 0, false, .any⟩,
    ⟨"TB_ALARM_HI", 0x4c, [], 0, 32, .rw, .live, 0, false, .any⟩,
    ⟨"TB_ALARM_CTL.ARM", 0x50, [], 0, 1, .rw, .live, 0, false, .any⟩ ]

end RegTable

/-- The rows of a block's register tables. -/
def Block.rows : Block → List Row
  | .timeline => RegTable.timeline
  | .beam => RegTable.beam
  | .interlace => RegTable.interlace
  | .imaging => RegTable.imaging
  | .registration => RegTable.registration
  | .headLink => RegTable.headLink
  | .codec => RegTable.codec
  | .decodeLane => RegTable.decodeLane
  | .encodeLane => RegTable.encodeLane
  | .dramPort => RegTable.dramPort
  | .retention => RegTable.retention
  | .codes => RegTable.codes
  | .dmaGlobal => RegTable.dmaGlobal
  | .dmaChannel => RegTable.dmaChannel
  | .quay => RegTable.quay
  | .edkar => RegTable.edkar
  | .stepper => RegTable.stepper
  | .encoder => RegTable.encoder
  | .sheetSensors => RegTable.sheetSensors
  | .commutation => RegTable.commutation
  | .motorBus => RegTable.motorBus
  | .loopEngine => RegTable.loopEngine
  | .adc => RegTable.adc
  | .pwm => RegTable.pwm
  | .sequencer => RegTable.sequencer
  | .clocks => RegTable.clocks
  | .faultCollector => RegTable.faultCollector
  | .harbourmaster => RegTable.harbourmaster
  | .berth => RegTable.berth
  | .mram => RegTable.mram
  | .legacyPort => RegTable.legacyPort
  | .device => RegTable.device
  | .timebase => RegTable.timebase
  | .debug => []

end Sys2Proof.Machine
end

