-- ==== Sys2Proof/Machine/RegOps.lean ====
section
/-!
DEFINITION. Reaching a field through its page and offset: which rows of the register tables an offset holds, what a value
reads back as, and the raw write of a profile record (R9, R467).
-/
namespace Sys2Proof.Machine

/-- The block of a page (Table 20.1). -/
def blockOf (p : Nat) : Option Block :=
  if p = 0x000 then some .device else if p = 0x001 then some .faultCollector else if p = 0x002 then some .harbourmaster
  else if p = 0x003 then some .sequencer else if p = 0x004 then some .clocks else if p = 0x005 then some .timebase
  else if 0x008 ≤ p ∧ p ≤ 0x013 then some .berth
  else if 0x020 ≤ p ∧ p ≤ 0x025 then some .beam else if 0x028 ≤ p ∧ p ≤ 0x02D then some .interlace
  else if 0x030 ≤ p ∧ p ≤ 0x035 then some .imaging else if 0x038 ≤ p ∧ p ≤ 0x03D then some .headLink
  else if p = 0x040 then some .registration else if p = 0x041 then some .timeline else if p = 0x048 then some .codec
  else if 0x049 ≤ p ∧ p ≤ 0x050 then some .decodeLane else if 0x051 ≤ p ∧ p ≤ 0x052 then some .encodeLane
  else if p = 0x058 then some .dramPort else if p = 0x059 then some .retention else if p = 0x05A then some .codes
  else if p = 0x060 then some .dmaGlobal else if 0x061 ≤ p ∧ p ≤ 0x080 then some .dmaChannel
  else if 0x090 ≤ p ∧ p ≤ 0x09F then some .stepper else if 0x0A0 ≤ p ∧ p ≤ 0x0A7 then some .encoder
  else if p = 0x0A8 then some .sheetSensors else if 0x0B0 ≤ p ∧ p ≤ 0x0BB then some .commutation
  else if p = 0x0BC then some .motorBus else if 0x0C0 ≤ p ∧ p ≤ 0x0C3 then some .loopEngine
  else if p = 0x0C4 then some .adc else if p = 0x0C5 then some .pwm else if p = 0x0D0 then some .quay
  else if p = 0x0D8 ∨ p = 0x0D9 then some .edkar else if p = 0x0E0 then some .legacyPort
  else if p = 0x0F0 then some .mram else if p = 0x0F8 then some .debug
  else none

/-- Is `d` a sum of index × stride with every index below its count? -/
def dimsHit : List (Nat × Nat) → Nat → Bool
  | [], d => d == 0
  | (st, n) :: r, d => d / st < n && dimsHit r (d % st)

def Row.hits (r : Row) (off : Nat) : Bool := r.off ≤ off && dimsHit r.dims (off - r.off)

/-- Fields the tables reserve: PD_CFG[0], ED_MOD[0], FREF_INC on the pages of stations B–F, ED_CFG.FEED_ADDR on E1 and
ED_CFG.ROUTE on E0. -/
def rowAbsent (r : Row) (p off : Nat) : Bool :=
  (p = 0x003 && off == 0x080 && r.name.startsWith "PD_CFG") ||
  ((p = 0x0D8 || p = 0x0D9) && (off == 0x080 || off == 0x084)) ||
  (p = 0x0D9 && off == 0x040 && r.name == "ED_CFG.FEED_ADDR") || (p = 0x0D8 && off == 0x040 && r.name == "ED_CFG.ROUTE") ||
  (0x021 ≤ p && p ≤ 0x025 && r.name == "FREF_INC.INC")

/-- The rows of the register tables at an offset of a page. -/
def rowsAt (p off : Nat) : List Row :=
  match blockOf p with
  | some b => b.rows.filter fun r => r.hits off && !rowAbsent r p off
  | none => []

/-- The field a row names at an offset of a page. -/
def Row.fld (r : Row) (p off : Nat) : Fld := ⟨p, off, r.lsb, r.width, r.reset⟩

/-- What a written value reads back as; `off` finds the converter of ADC_SEQ[c][k].  Converter c has channels
12c to 12c + 11 (R376). -/
def Norm.apply (n : Norm) (off v : Nat) : Nat :=
  match n with
  | .any => v
  | .range lo hi below above => if v < lo then below else if hi < v then above else v
  | .adcChannel => let c := (off - 0x100) / 0x50; if 12 * c ≤ v ∧ v < 12 * c + 12 then v else 0x3F
  | .roundUp4 => (v + 4) / 4 * 4 - 1
  | .clear n => v / 2 ^ n * 2 ^ n

/-- The value of a row's field within a written word. -/
def Row.part (r : Row) (off v : Nat) : Nat := r.norm.apply off (bits v r.lsb r.width)

/-- One word of a profile record: every field of the offset takes its value, whatever its access code or class, except
write-only bits, which hold nothing (R467).  The common header's enables and owner are fields like any other. -/
def State.rawWord (p off v : Nat) (s : State) : State :=
  let s1 := s.each ((rowsAt p off).filter (·.acc != .wo)) fun r t => t.wr (r.fld p off) (r.part off v)
  match off with
  | 0x004 => (s1.wr (H.ENABLE p) (bits v 0 1)).wr (H.OWNER p) (bits v 5 1)
  | 0x010 => s1.wr (H.EVT_EN p) v
  | 0x018 => s1.wr (H.FLT_EN p) v
  | _ => s1

end Sys2Proof.Machine
end

