-- ==== Sys2Proof/Machine/Clocks.lean ====
section
/-! DEFINITION. The commands of the clock block (16). -/
namespace Sys2Proof.Machine

def ckPage : Nat := 0x004

/-- State field of ADPLL p in CK_STAT: 0 OFF, 1 ACQUIRE, 2 LOCKED, 3 HOLDOVER, 4 FAILED. -/
def ckState (p : Nat) : Fld := if p = 0 then F.CK_STAT_P0 else if p = 1 then F.CK_STAT_P1 else F.CK_STAT_P2

def State.pll (s : State) (p : Nat) : Nat := s.rd (ckState p)

/-- The ADPLL that drives a station's pixel clock (R20, R418, R419). -/
def State.pllOf (s : State) (k : Nat) : Nat :=
  if s.clocks.groups then (if s.on (F.BT_CFG_GROUP k) then 1 else 0) else s.rd F.CK_ROLE_PXA_SRC

/-- The stations an ADPLL serves. -/
def State.stationsOf (s : State) (p : Nat) : List Nat := s.stations.filter fun k => s.pllOf k == p

/-- PG_STAT.BUSY of page 0x004: a station of the group the ADPLL serves exposes a committed page (R413). -/
def State.pllBusy (s : State) (p : Nat) : Bool := (s.stationsOf p).any s.exposing

def State.modClk (f : Clocks → Clocks) (s : State) : State := { s with clocks := f s.clocks }

/-- ADPLL p enters ACQUIRE (R414). -/
def State.acquire (p : Fin 3) (s : State) : State :=
  (s.wr (ckState p) 1).modClk fun c => { c with acqAt := c.acqAt.set p s.time }

/-- ADPLL 2 no longer carries TIME: the keeper does (R420). -/
def State.keeper (on_ : Bool) (s : State) : State := (s.flag F.CK_STAT_KEEPER on_).wr (H.STATE 0x005) (b2n on_)

/-- R410: the reference stops; every running ADPLL holds its last control word. -/
def execRefLoss (s : State) : Result :=
  if s.clocks.refLost.isSome then .next s
  else
    let s1 := (s.wr F.CK_STAT_REF_OK 0).modClk fun c => { c with refLost := some s.time, refLong := false }
    let s2 := s1.each (List.range 3) fun p t => t.ifDo (t.pll p == 1 || t.pll p == 2) fun u =>
      if u.pll p = 2 ∨ p ≠ 2 then u.wr (ckState p) 3 else u
    .next ((s2.wr F.CK_ROLE_STANDBY 0).raise 12 ckPage 5)

/-- R411: the reference has been missing for 1 ms. -/
def execRefLossLong (s : State) : Result :=
  match s.clocks.refLost with
  | some t =>
    if t + 100000 ≤ s.time ∧ s.clocks.refLong = false then
      let s1 := s.modClk fun c => { c with refLong := true }
      .next ((s1.loseExposingOf (List.range 6) lcLink).wr F.PT_CFG_FEED_EN 0)
    else .next s
  | none => .next s

/-- R410: REFCLK has run without a gap for 1 ms; the ADPLLs re-acquire. -/
def execRefReturn (s : State) : Result :=
  if s.clocks.refLost.isNone then .next s
  else
    let s1 := (s.wr F.CK_STAT_REF_OK 1).modClk fun c => { c with refLost := none, refLong := false }
    .next (s1.each (List.finRange 3) fun p t => t.ifDo (t.pll p == 3) (·.acquire p))

/-- An ADPLL locks (R414); ADPLL 2 takes TIME back without a step (R420); with the source and the standby locked the standby is
aligned (R418). -/
def execAdpllLock (p : Fin 3) (s : State) : Result :=
  if s.pll p = 1 then
    let s1 := (s.wr (ckState p) 2).event ckPage 0
    if p = 2 then .next ((s1.keeper false).event ckPage 3)
    else if s1.clocks.groups = false ∧ s1.rd F.CK_STAT_P0 = 2 ∧ s1.rd F.CK_STAT_P1 = 2 then
      .next ((s1.wr F.CK_ROLE_STANDBY 1).event ckPage 2)
    else .next s1
  else .next s

/-- The stations of ADPLL p lose their clock: the pages they expose are LOST (R419, R421). -/
def State.groupLost (p : Nat) (s : State) : State :=
  (s.loseExposingOf (s.stationsOf p) lcLink).raiseWith 11 ckPage 3 0 (some (.relock, p))

/-- PX-A switches to the standby (R418). -/
def State.takeover (p : Fin 3) (s : State) : State :=
  let s1 := (((s.wr F.CK_ROLE_PXA_SRC (1 - p.val)).wr F.CK_ROLE_STANDBY 0).sat F.CK_CNT_SWITCH).event ckPage 1
  s1.raiseWith 10 ckPage 0 0 (some (.relock, p.val))

/-- The PX-A source fails: taken over by the standby, or, without one, its group is lost; with REFCLK lost nothing switches
(R418, R421). -/
def State.pxLoss (p : Fin 3) (s : State) : State :=
  if s.clocks.refLost.isSome then s
  else if s.on F.CK_ROLE_STANDBY then s.takeover p
  else s.groupLost p

/-- An ADPLL leaves LOCKED (R414) and re-acquires. -/
def execAdpllUnlock (p : Fin 3) (s : State) : Result :=
  if s.pll p = 2 then
    let s1 := (s.sat F.CK_CNT_UNLOCK).acquire p
    if p = 2 then .next ((s1.keeper true).raiseWith 11 ckPage 4 0 (some (.relock, 2)))
    else if s1.clocks.groups then .next (s1.groupLost p)
    else if p.val = s1.rd F.CK_ROLE_PXA_SRC then .next (s1.pxLoss p)
    else .next (s1.wr F.CK_ROLE_STANDBY 0)
  else .next s

/-- A re-acquisition fails: FAILED (R414); a failed standby leaves none (R418). -/
def State.pllFail (p : Fin 3) (s : State) : State :=
  let s1 := s.wr (ckState p) 4
  if s1.clocks.groups = false ∧ p.val < 2 ∧ p.val ≠ s1.rd F.CK_ROLE_PXA_SRC then (s1.wr F.CK_ROLE_STANDBY 0).raise 11 ckPage 2
  else s1

/-- An ADPLL has not locked within 40 µs of ACQUIRE (R414). -/
def execAdpllAcquireTimeout (p : Fin 3) (s : State) : Result :=
  .next (if s.pll p = 1 ∧ s.clocks.acqAt[p] + 4000 ≤ s.time then s.pllFail p else s)

/-- No rising edge of the PX-A source for 1.5 standby periods (R418). -/
def execPxTakeover (s : State) : Result :=
  if s.clocks.groups then .next s
  else
    let p : Fin 3 := Fin.ofNat 3 (s.rd F.CK_ROLE_PXA_SRC)
    if s.clocks.refLost.isSome ∨ (s.pll p ≠ 2 ∧ s.pll p ≠ 1) then .next s
    else .next ((s.ifDo (s.pll p == 2) fun t => (t.sat F.CK_CNT_UNLOCK).acquire p).pxLoss p)

/-- The setting a write leaves is inside R412's bands. -/
def pllOk (n div frac : Nat) : Bool :=
  let dco := 25 * (n * 2 ^ 24 + frac)
  64 ≤ n && n ≤ 160 && 4 ≤ div && div ≤ 100 &&
  1600 * 2 ^ 24 ≤ dco && dco ≤ 4000 * 2 ^ 24 && 40 * div * 2 ^ 24 ≤ dco && dco ≤ 250 * div * 2 ^ 24

/-- CK_PLL[p]: EN at once, N and POSTDIV into their staging copy (R413). -/
def execCkPllWrite (agent : Agent) (p : Fin 3) (value : Nat) (s : State) : Result :=
  .next (s.write agent ckPage (0x040 + 8 * p.val) fun t =>
    if p = 2 then t
    else if t.pllBusy p then t.accessBusy ckPage
    else
      let u := (t.wr (F.CK_PLL_N p) (bits value 0 8)).wr (F.CK_PLL_POSTDIV p) (bits value 8 7)
      let en := bit value 16
      let v := u.flag (F.CK_PLL_EN p) en
      if en && t.pll p == 0 then v.acquire p
      else if !en then (v.wr (ckState p) 0).wr F.CK_ROLE_STANDBY 0
      else v)

/-- CK_FRAC[p]: the staged N and POSTDIV with FRAC as one setting, refused outside R412's bands (R413); while the ADPLL
re-acquires the standby is not aligned. -/
def execCkFracWrite (agent : Agent) (p : Fin 3) (frac : Nat) (s : State) : Result :=
  .next (s.write agent ckPage (0x044 + 8 * p.val) fun t =>
    if p = 2 then t
    else if t.pllBusy p then t.accessBusy ckPage
    else
      let n := t.rd (F.CK_PLL_N p)
      let d := t.rd (F.CK_PLL_POSTDIV p)
      let f := frac % 2 ^ 24
      if pllOk n d f then
        let u := (t.wr (F.CK_FRAC_FRAC p) f).modClk fun c =>
          { c with setN := c.setN.set p n, setDiv := c.setDiv.set p d, setFrac := c.setFrac.set p f }
        u.ifDo (u.on (F.CK_PLL_EN p)) fun v => (v.acquire p).wr F.CK_ROLE_STANDBY 0
      else t.mismatch ckPage)

/-- CK_CMD.RELOCK: every FAILED ADPLL re-acquires (Table 16.4). -/
def execRelock (agent : Agent) (s : State) : Result :=
  .next (s.write agent ckPage 0x06C fun t => t.each (List.finRange 3) fun p u => u.ifDo (u.pll p == 4) (·.acquire p))

/-- A station's DLL locks after its ADPLL is LOCKED (R416). -/
def execDllLock (k : Fin 6) (s : State) : Result :=
  if s.pll (s.pllOf k) = 2 then .next (s.wr F.CK_STAT_DLL (s.rd F.CK_STAT_DLL ||| 2 ^ k.val)) else .next s

/-- A station's DLL loses lock: DLL_UNLOCK, and an exposing page is LOST with LINK (R416). -/
def execDllUnlock (k : Fin 6) (s : State) : Result :=
  let w := s.rd F.CK_STAT_DLL
  let s1 := (s.wr F.CK_STAT_DLL (if bit w k then w - 2 ^ k.val else w)).loseExposing k lcLink
  .next (s1.raiseWith 10 ckPage 1 0 (some (.relock, 16 + k.val)))

/-- The base synthesiser locks (R417); ADPLL 2, which no register enables, acquires with it. -/
def execBaseSynthLock (s : State) : Result :=
  .next (if s.domState 11 = 2 then (s.modClk fun c => { c with baseLock := true }).ifDo (s.pll 2 == 0) (·.acquire 2) else s)

end Sys2Proof.Machine
end

