-- ==== Sys2Proof/Machine/BandStream.lean ====
section
/-!
DEFINITION. The band stream as functions: headers, the decoder of R173, and the encoder of R174–R176 (07).  A body is taken
as one little-endian number, so that its first bit is bit 0.
-/
namespace Sys2Proof.Machine

/-! ### Checks and headers (R171) -/

/-- One byte into the CRC-8 of the head-link control blocks: polynomial 0x07, initial value 0, no reflection (06). -/
def crc8Bits : Nat → Nat → Nat
  | 0, c => c
  | n + 1, c => crc8Bits n (if c.testBit 7 then (2 * c) % 256 ^^^ 0x07 else (2 * c) % 256)

def crc8 (l : List Nat) : Nat := l.foldl (fun c b => crc8Bits 8 (c ^^^ (b % 256))) 0

/-- The stream header (Table 7.1). -/
structure StreamHeader where
  alpha     : Bool
  lineBytes : Nat
  lines     : Nat
deriving DecidableEq, Repr

/-- A stream header whose MAGIC, VERSION, FORMAT and HCRC are valid. -/
def parseStream (b : List Nat) : Option StreamHeader :=
  let f := fun i n => leNat ((b.drop i).take n)
  if b.length = 16 ∧ f 0 2 = 0x5342 ∧ f 2 1 = 1 ∧ f 3 1 < 2 ∧ f 12 4 = crc32c (b.take 12) then
    some ⟨f 3 1 = 1, f 4 4, f 8 4⟩
  else none

def streamHeader (h : StreamHeader) : List Nat :=
  let l := [0x42, 0x53, 0x01, b2n h.alpha] ++ leBytes h.lineBytes 4 ++ leBytes h.lines 4
  l ++ leBytes (crc32c l) 4

/-- A block header (Table 7.2): `bad` holds FLAGS [7:2]. -/
structure BlockHeader where
  stored  : Bool
  last    : Bool
  bad     : Bool
  inBytes : Nat
  bodyLen : Nat
deriving DecidableEq, Repr

/-- A block header whose SYNC and BCRC are valid. -/
def parseBlock (b : List Nat) : Option BlockHeader :=
  let f := fun i n => leNat ((b.drop i).take n)
  if b.length = 8 ∧ f 0 1 = 0xA9 ∧ f 7 1 = crc8 (b.take 7) then
    some ⟨bit (f 1 1) 0, bit (f 1 1) 1, 4 ≤ f 1 1, f 2 2 + 1, f 4 3⟩
  else none

def blockHeader (h : BlockHeader) : List Nat :=
  let l := [0xA9, b2n h.stored + 2 * b2n h.last] ++ leBytes (h.inBytes - 1) 2 ++ leBytes h.bodyLen 3
  l ++ [crc8 l]

/-- The trailer (Table 7.3). -/
def streamTrailer (ocrc : Nat) : List Nat := [0x45, 0x4E, 0, 0] ++ leBytes ocrc 4

/-! ### Alphabets (R169, R173) -/

def alphaSize (alpha : Bool) : Nat := if alpha then 1024 else 256
def alphaBits (alpha : Bool) : Nat := if alpha then 10 else 8
/-- Decoded bytes of a symbol. -/
def symbolBytes (alpha : Bool) : Nat := if alpha then 2 else 1

/-- bitlen(D): the smallest w with 2^w > D. -/
def bitlen (d : Nat) : Nat := if d = 0 then 0 else d.log2 + 1

/-- The code width at dictionary index D (R173). -/
def codeWidth (alpha : Bool) (d : Nat) : Nat := max (alphaBits alpha + 1) (min 16 (bitlen d))

/-- Symbols of a block's bytes. -/
def symbolsOfBytes (alpha : Bool) : List Nat → List Nat
  | [] => []
  | b :: r =>
    if alpha then
      match r with
      | [] => [b % 256]
      | c :: r' => (b % 256 + 256 * (c % 4)) :: symbolsOfBytes alpha r'
    else (b % 256) :: symbolsOfBytes alpha r

/-- Bytes of symbols (R169). -/
def bytesOfSymbols (alpha : Bool) (l : List Nat) : List Nat := l.flatMap fun v => leBytes v (symbolBytes alpha)

/-! ### The decoder (R173, Table 7.7) -/

/-- Decoder registers: the rest of the body, its bits left, the dictionary (newest entry first), the previous string, and
the output, newest first. -/
structure Dec where
  rest : Nat
  left : Nat
  dict : List (List Nat)
  prev : Option (List Nat)
  out  : List Nat
deriving DecidableEq, Repr

/-- How a body ends: at END with the output and the bits left, or with an error code of Table 7.7. -/
inductive DecEnd where
  | done (out : List Nat) (rest left : Nat)
  | error (code : Nat)
deriving DecidableEq, Repr

/-- The index of the next entry. -/
def Dec.next (alpha : Bool) (d : Dec) : Nat := alphaSize alpha + 3 + d.dict.length

/-- An entry of the dictionary by its code. -/
def dictEntry (alpha : Bool) (dict : List (List Nat)) (c : Nat) : Option (List Nat) :=
  let n := alphaSize alpha + 3
  if n ≤ c ∧ c < n + dict.length then dict[dict.length - 1 - (c - n)]? else none

/-- Take symbols of a RAW run. -/
def Dec.raw (alpha : Bool) : Nat → Dec → Option Dec
  | 0, d => some d
  | n + 1, d =>
    let w := alphaBits alpha
    if d.left < w then none
    else Dec.raw alpha n { d with rest := d.rest / 2 ^ w, left := d.left - w, out := d.rest % 2 ^ w :: d.out }

/-- Add prev + first(s) and put s out. -/
def Dec.put (alpha : Bool) (d : Dec) (s : List Nat) : Dec :=
  let dict := match d.prev with
    | some p => if d.next alpha < 65536 then (p ++ s.take 1) :: d.dict else d.dict
    | none => d.dict
  { d with dict := dict, prev := some s, out := s.reverse ++ d.out }

/-- The loop of R173; a body that ends inside a code is BLOCK_LEN. -/
def Dec.run (alpha : Bool) : Nat → Dec → DecEnd
  | 0, _ => .error 3
  | n + 1, d =>
    let A := alphaSize alpha
    let w := codeWidth alpha (d.next alpha)
    if d.left < w then .error 3
    else
      let c := d.rest % 2 ^ w
      let d1 := { d with rest := d.rest / 2 ^ w, left := d.left - w }
      if c = A then Dec.run alpha n { d1 with dict := [], prev := none }
      else if c = A + 1 then .done d1.out.reverse d1.rest d1.left
      else if c = A + 2 then
        if d1.left < 6 then .error 3
        else
          match Dec.raw alpha (d1.rest % 64 + 1) { d1 with rest := d1.rest / 64, left := d1.left - 6 } with
          | some d2 => Dec.run alpha n { d2 with prev := none }
          | none => .error 3
      else if c < A then Dec.run alpha n (d1.put alpha [c])
      else
        match dictEntry alpha d1.dict c, d1.prev with
        | some s, _ => Dec.run alpha n (d1.put alpha s)
        | none, some p =>
          if c = d1.next alpha ∧ c < 65536 then Dec.run alpha n (d1.put alpha (p ++ p.take 1)) else .error 2
        | none, none => .error 2

/-- Decode a block's body: its decoded bytes, or the error code (Table 7.7). -/
def decodeBlock (alpha : Bool) (h : BlockHeader) (body : List Nat) : Nat ⊕ List Nat :=
  if h.bad then .inl 1
  else if alpha && h.inBytes % 2 == 1 then .inl 4
  else if h.stored then
    if h.bodyLen = h.inBytes then .inr (bytesOfSymbols alpha (symbolsOfBytes alpha body)) else .inl 3
  else
    match Dec.run alpha (8 * body.length + 1) ⟨leNat body, 8 * body.length, [], none, []⟩ with
    | .error c => .inl c
    | .done out rest left =>
      if out.length * symbolBytes alpha = h.inBytes ∧ left < 8 ∧ rest = 0 then .inr (bytesOfSymbols alpha out) else .inl 3

/-! ### The encoder (R174–R176) -/

/-- Encoder registers: dictionary (newest first), previous string, the bits written. -/
structure Enc where
  dict : List (List Nat)
  prev : Option (List Nat)
  bits : Nat
  n    : Nat
deriving DecidableEq, Repr

def Enc.next (alpha : Bool) (e : Enc) : Nat := alphaSize alpha + 3 + e.dict.length

def Enc.write (v w : Nat) (e : Enc) : Enc := { e with bits := e.bits + v % 2 ^ w * 2 ^ e.n, n := e.n + w }

/-- Write a code at the width in force. -/
def Enc.code (alpha : Bool) (c : Nat) (e : Enc) : Enc := e.write c (codeWidth alpha (e.next alpha))

/-- The entry the next code adds. -/
def Enc.pendingEntry (alpha : Bool) (e : Enc) (input : List Nat) : Option (List Nat) :=
  match e.prev with
  | some p => if e.next alpha < 65536 then some (p ++ input.take 1) else none
  | none => none

/-- The longest match at a position among the given entries; a single symbol always matches. -/
def longestMatch (dict : List (List Nat)) (input : List Nat) : Nat :=
  dict.foldl (fun m s => if m < s.length && s.isPrefixOf input then s.length else m) (min 1 input.length)

/-- The length to write at a position (R176). -/
def Enc.pick (alpha : Bool) (effort : Nat) (e : Enc) (input : List Nat) : Nat :=
  let lm := longestMatch ((e.pendingEntry alpha input).toList ++ e.dict) input
  ((List.range (min effort (lm - 1))).map (lm - 1 - ·)).foldl (fun (best : Nat × Nat) l =>
    let v := l + longestMatch e.dict (input.drop l)
    if best.2 < v then (l, v) else best) (lm, lm + longestMatch e.dict (input.drop lm)) |>.1

/-- The code of a string: the lowest entry that holds it, or the entry to come. -/
def Enc.codeOf (alpha : Bool) (e : Enc) (s : List Nat) : Nat :=
  match s with
  | [v] => v
  | _ =>
    let i := e.dict.reverse.findIdx (· == s)
    alphaSize alpha + 3 + i

/-- CLEAR when the dictionary is full and input is left (R173). -/
def Enc.clearIfFull (alpha : Bool) (e : Enc) : Enc :=
  if 65536 ≤ e.next alpha then { e.code alpha (alphaSize alpha) with dict := [], prev := none } else e

/-- Write one code for the start of the input. -/
def Enc.step (alpha : Bool) (effort : Nat) (e : Enc) (input : List Nat) : Enc × Nat :=
  let e := e.clearIfFull alpha
  let l := e.pick alpha effort input
  let s := input.take l
  let e1 := e.code alpha (e.codeOf alpha s)
  ({ e1 with dict := (match e.pendingEntry alpha input with | some p => p :: e.dict | none => e.dict), prev := some s }, l)

/-- Code a whole run of symbols. -/
def Enc.run (alpha : Bool) (effort : Nat) : Nat → Enc → List Nat → Enc
  | 0, e, _ => e
  | n + 1, e, input =>
    if input.isEmpty then e
    else
      let r := e.step alpha effort input
      Enc.run alpha effort n r.1 (input.drop r.2)

/-- A RAW run of up to 64 symbols (Table 7.4). -/
def Enc.rawRun (alpha : Bool) (l : List Nat) (e : Enc) : Enc :=
  let e1 := (e.code alpha (alphaSize alpha + 2)).write (l.length - 1) 6
  { l.foldl (fun f v => f.write v (alphaBits alpha)) e1 with prev := none }

/-- Code the groups of a GROW block: trial coding, or a RAW run where the trial takes more bits (R174). -/
def Enc.groups (alpha : Bool) (effort : Nat) : Nat → Enc → List Nat → Enc
  | 0, e, _ => e
  | n + 1, e, input =>
    if input.isEmpty then e
    else
      let g := input.take 64
      let t := Enc.run alpha effort 64 e g
      let raw := codeWidth alpha (e.next alpha) + 6 + g.length * alphaBits alpha
      Enc.groups alpha effort n (if e.n + raw < t.n then e.rawRun alpha g else t) (input.drop 64)

def Enc.finish (alpha : Bool) (e : Enc) : List Nat :=
  let e1 := e.code alpha (alphaSize alpha + 1)
  leBytes e1.bits ((e1.n + 7) / 8)

/-- One block of input bytes in STORE or GROW mode (R174). -/
def encodeBlock (alpha grow : Bool) (effort : Nat) (last : Bool) (input : List Nat) : List Nat :=
  let syms := symbolsOfBytes alpha input
  let e0 : Enc := ⟨[], none, 0, 0⟩
  let body := if grow then (Enc.groups alpha effort (syms.length + 1) e0 syms).finish alpha
    else (Enc.run alpha effort (syms.length + 1) e0 syms).finish alpha
  if !grow && input.length ≤ body.length then
    blockHeader ⟨true, last, false, input.length, input.length⟩ ++ bytesOfSymbols alpha syms
  else blockHeader ⟨false, last, false, input.length, body.length⟩ ++ body

/-- The blocks of a job, `blockIn` bytes each (R185). -/
def encodeBlocks (alpha grow : Bool) (effort blockIn : Nat) : Nat → List Nat → List Nat
  | 0, _ => []
  | n + 1, input =>
    if input.isEmpty then []
    else encodeBlock alpha grow effort (input.length ≤ blockIn) (input.take blockIn) ++
      encodeBlocks alpha grow effort blockIn n (input.drop blockIn)

/-- The stream of an encode job (R183, R185). -/
def encodeStream (h : StreamHeader) (grow : Bool) (effort blockIn : Nat) (input : List Nat) : List Nat :=
  let out := bytesOfSymbols h.alpha (symbolsOfBytes h.alpha input)
  streamHeader h ++ encodeBlocks h.alpha grow effort blockIn (input.length + 1) input ++ streamTrailer (crc32c out)

end Sys2Proof.Machine
end

