-- ==== Sys2Proof/Machine/Timeline.lean ====
section
/-! DEFINITION. The commands of the page timeline up to the commit gate, and after it (02). -/
namespace Sys2Proof.Machine

/-! ### Lengths -/

/-- R34: the pitch of a sheet length at the active speed and gap. -/
def State.pitchTicks (s : State) (len : Nat) : Nat := cdiv ((len + s.rd F.PT_GAP_GAP) * 1000 * 65536) (s.rd F.PT_SPEED_SPEED)

/-- The pitch of the most recently fed page; before the first feed the manual gives none (log 1). -/
def State.lastPitch (s : State) : Nat := if s.tl.fedCount = 0 then s.freeVal (2 ^ 32) else s.tl.lastPitch

/-- A COMMIT of page 0x041: the set waits for a feed gate; with no run it applies at once (R59). -/
def State.ptCommit (s : State) : State :=
  let s1 := s.wr (H.PEND ptPage) 1
  if s.rd (H.STATE ptPage) = 1 then s1.mark ptPage 58 else s1.ptBoundary

/-! ### Runs and announces (R35, R38, R53, R56) -/

/-- The tick a run would start with: a page waits, FEED_EN is 1 and the device is in RUN (R35, R51). -/
def State.mayRun (s : State) : Bool :=
  (s.rd (H.STATE ptPage) == 0 || (s.rd (H.STATE ptPage) == 2 && s.tl.pathClear)) && s.on F.PT_CFG_FEED_EN &&
    s.dev == stRun && !s.isSafe && !(s.tl.released.isEmpty && s.tl.reprint.isEmpty)

/-- PT_NEXT_ANCHOR follows the schedule. -/
def State.nextAnchor (t : Nat) (s : State) : State :=
  ((s.modTl fun q => { q with nextExp := t }).wr F.PT_NEXT_ANCHOR_LO t).wr F.PT_NEXT_ANCHOR_HI (t / 2 ^ 32)

def execRunStart (s : State) : Result :=
  if s.mayRun then
    let first := (s.time / 100000 + 1) * 100000
    let s1 := (s.wr (H.STATE ptPage) 1).nextAnchor (first + s.rd F.PT_ANN_LEAD_TICKS + s.rd F.PT_FEED_LEAD_TICKS)
    .next (s1.modTl fun t => { t with emptyRun := 0, runStart := s1.time })
  else .next s

/-- Entries already announced for a pitch whose feed gate is to come (R38). -/
def State.pendingPages (s : State) : List Nat := (s.tl.pitches.filter fun q => q.kind = .sheet).map (·.page)

/-- The page an announce instant takes: the reprint queue before the released one (R38).  An entry made in this tick waits for
the next instant (Table 2.5, R58). -/
def State.headPage (s : State) : Option Nat :=
  let free := fun (l : List Nat) => l.find? fun id =>
    !s.pendingPages.contains id && ((s.page? id).bind (·.queuedAt)) != some s.time
  match free s.tl.reprint with
  | some id => some id
  | none => free s.tl.released

/-- The number a first-time page is announced with (R53). -/
def State.announceNumber (s : State) : Nat :=
  (s.tl.nextSheet + (s.tl.pitches.filter fun q => q.kind = .sheet && !q.again).length) % 2 ^ 32

/-- SHEET_ANNOUNCE to every route module, in the first cycle at or after now; its deadline (R301).  With no route the
decision is ACCEPT, unless a staged route may still apply at that cycle (Table 11.9). -/
def State.announce (sheet len arrival : Nat) (again : Bool) (s : State) : State :=
  if s.route.isEmpty && !s.staged 0x0D9 then s.decide_ sheet .accept
  else
    let boundary := (s.time + 99999) / 100000 * 100000
    let payload := leBytes sheet 4 ++ [b2n again] ++ leBytes len 4 ++ leBytes arrival 8
    s.modPort 1 fun q => { q with
      announces := q.announces.filter (·.sheet != sheet) ++ [⟨sheet, payload, boundary + 500000, none, [], false, none⟩]
      mods := q.mods.map fun m => { m with received := m.received.filter (· != sheet), accepted := m.accepted.filter (· != sheet) } }

def State.addPitch (q : Pitch) (len : Nat) (s : State) : State :=
  (s.modTl fun t => { t with pitches := t.pitches ++ [q],
                             emptyRun := if q.kind = .empty then t.emptyRun + 1 else 0 }).nextAnchor (s.tl.nextExp + len)

/-- A pitch without an announcement. -/
def State.plainPitch (k : PitchKind) (page : Nat) (s : State) : State :=
  let len := match k, s.page? page with
    | .notResident, some p => s.pitchTicks p.sheetLen
    | _, _ => s.lastPitch
  (s.addPitch ⟨s.tl.nextExp, k, page, 0, false, s.on F.PT_CFG_FEED_EN, .pending, false⟩ len).ifDo
    (s.tl.fedCount == 0 && k != .notResident) (·.freeNext)

/-- The announce of a page that is RELEASED (R38, R53); with no holder of role 0x2 no announcement is made (Table 17.5). -/
def State.sheetPitch (p : Page) (s : State) : State :=
  let again := p.sheet.isSome
  let sheet := p.sheet.getD s.announceNumber
  let s1 := s.addPitch ⟨s.tl.nextExp, .sheet, p.id, sheet, again, true, .pending, false⟩ (s.pitchTicks p.sheetLen)
  if (s.holder 2).isSome then
    s1.announce sheet p.sheetLen (s.tl.nextExp + s.rd F.PT_HANDOFF_OFFS_TICKS) again
  else s1.decide_ sheet .refuse

/-- The announce instant (R35, R38, R56). -/
def execAnnounceInstant (s : State) : Result :=
  if s.rd (H.STATE ptPage) = 1 ∧ s.tl.nextExp ≤ s.time + s.rd F.PT_FEED_LEAD_TICKS + s.rd F.PT_ANN_LEAD_TICKS then
    if s.tl.emptyRun = 4 then .next (s.endRun.event ptPage 6)
    else if !s.on F.PT_CFG_FEED_EN then .next (s.plainPitch .empty 0)
    else if s.rd F.PT_SKIP_REMAIN ≠ 0 then
      .next ((s.wr F.PT_SKIP_REMAIN (s.rd F.PT_SKIP_REMAIN - 1)).plainPitch .requested 0)
    else
      match s.headPage.bind s.page? with
      | none => .next (s.plainPitch .empty 0)
      | some p => .next (if p.st = .released ∧ p.storedAt ≠ some s.time then s.sheetPitch p else s.plainPitch .notResident p.id)
  else .next s

/-- PT_SKIP.COUNT (R56). -/
def execPtSkip (agent : Agent) (n : Nat) (s : State) : Result :=
  .next (s.write agent ptPage 0x09C fun t => t.wr F.PT_SKIP_REMAIN (min (t.rd F.PT_SKIP_REMAIN + n % 256) 255))

/-! ### The feed gate (R40, R41, R53, R59) -/

/-- Usable slots: 0 and 17–31 read back as 16 (Table 2.7). -/
def State.inflightMax (s : State) : Nat :=
  let n := s.rd F.PT_CFG_INFLIGHT_MAX
  if n = 0 ∨ 16 < n then 16 else n

/-- A slot for a new page. -/
def State.freeSlotIndex (s : State) : Option (Fin 16) := (List.finRange 16).find? fun i => (s.tl.slots[i]).isNone

/-- PT_GATE_STAT.FEED bits of a pitch whose gate is evaluated (Table 2.2). -/
def State.feedReasons (s : State) (q : Pitch) : Nat :=
  let resident := q.kind == .sheet && ((s.page? q.page).map fun p => p.st == .released).getD false
  b2n (q.kind == .notResident || (q.kind == .sheet && !resident)) +
  2 * b2n (q.kind == .sheet && (q.decision == .refuse || q.decision == .pending)) +
  4 * b2n (q.decision == .divert) +
  8 * b2n (decide (s.inflightMax ≤ s.occupied) || s.freeSlotIndex.isNone) +
  16 * b2n (!s.tl.pathReady) +
  32 * b2n (q.kind == .requested) +
  64 * b2n (!q.feedOn || s.rd (H.STATE ptPage) != 1) +
  128 * b2n q.void

/-- FEED to the feeder of E0 in its first cycle at or after the gate (R304). -/
def State.sendFeed (sheet len texp : Nat) (s : State) : State :=
  let a := s.rd (F.ED_CFG_FEED_ADDR 0)
  if a = 0 then s
  else
    let s1 := s.modPort 0 fun q => { q with feeds := q.feeds.filter (·.sheet != sheet) ++ [⟨sheet, texp, false⟩] }
    s1.modMod 0 (Fin.ofNat 16 a) fun q => { q with feeds := q.feeds ++ [leBytes sheet 4 ++ leBytes len 4 ++ leBytes texp 8] }

/-- The enabled track points of the active set (R325, R332). -/
def State.trackPoints (s : State) : List Track :=
  ((List.range 16).filter fun t => s.on (F.SS_TRACK_EN t)).map fun t =>
    ⟨t, s.rd (F.SS_TRACK_SENSOR t), s.rd (F.SS_TRACK_ZONE t), s.rd (F.SS_TRACK_WIN t) * 1000, s.rdS (F.SS_TRACK_OFFS t), false, false⟩

/-- The gate passes: slot, sheet number, pick (R40, R53, R59). -/
def State.feedPass (q : Pitch) (p : Page) (i : Fin 16) (s : State) : State :=
  let slot : Slot := {
    page := p.id, sheet := q.sheet, order := s.tl.fedCount, texp := q.texp
    speed := s.rd F.PT_SPEED_SPEED, commitLead := s.rd F.PT_COMMIT_LEAD_TICKS, win := s.rd F.PT_ANCHOR_WIN_TICKS
    handoff := s.rd F.PT_HANDOFF_OFFS_TICKS, divert := s.rd F.PT_DIVERT_OFFS_TICKS
    offs := (List.range 6).map fun k => s.rd (F.PT_STN_OFFS_TICKS k)
    stations := s.jobStations p.job, sheetLen := p.sheetLen, pitch := s.pitchTicks p.sheetLen, anchor := none, missed := false, blank := false
    starts := [], begun := 0, finished := 0, tracks := s.trackPoints, lostAt := 0, trailer := false }
  let s1 := s.modTl fun t => { t with
    slots := t.slots.set i (some slot), fedCount := t.fedCount + 1, lastPitch := s.pitchTicks p.sheetLen
    nextSheet := if q.again then t.nextSheet else (t.nextSheet + 1) % 2 ^ 32 }
  let s2 := (s1.modPage p.id fun r => { r with sheet := some q.sheet, again := false,
                                               reprints := if p.again then r.reprints + 1 else r.reprints }).pageTo p.id .fed
  let s3 := (s2.dequeue p.id).ifDo p.again (·.sat F.PT_CNT_B_REPRINT)
  let n := i.val
  let s4 := (((s3.wr (F.PT_SLOT_PAGE_ID n) p.id).wr (F.PT_SLOT_SHEET n) q.sheet).wr (F.PT_SLOT_STATE n) 1).wr
    (F.PT_SLOT_REPRINTS n) (min (p.reprints + b2n p.again) 15)
  let s5 := ((s4.wr (F.PT_SLOT_CAUSE n) 0).wr (F.PT_SLOT_EXTRA n) 0).wr (F.PT_SLOT_ANCHOR_LO n) 0
  ((s5.queueRegs.emit (.toRole 3 1 q.sheet)).sendFeed q.sheet p.sheetLen q.texp)

/-- The gate fails: a skip pitch; an accepted sheet is withdrawn, later pending numbers are void (R41, R53). -/
def State.feedFail (q : Pitch) (reasons : Nat) (s : State) : State :=
  let s1 := ((s.wr F.PT_GATE_STAT_FEED reasons).sat F.PT_CNT_A_SKIP).event ptPage 0
  if q.kind = .sheet then
    let s2 := s1.notice q.sheet 1
    if q.again then s2
    else s2.modTl fun t => { t with pitches := t.pitches.map fun r =>
      if r.kind = .sheet && !r.again then { r with void := true } else r }
  else s1

/-- Until the next pitch has been announced, its expected anchor follows the set that this gate made active (R34, R59). -/
def State.rePitch (q : Pitch) (s : State) : State :=
  match s.tl.pitches, q.kind, s.page? q.page with
  | [], .sheet, some p => s.nextAnchor (q.texp + s.pitchTicks p.sheetLen)
  | [], .notResident, some p => s.nextAnchor (q.texp + s.pitchTicks p.sheetLen)
  | _, _, _ => s

/-- The feed gate of the oldest pitch: first the page-timeline boundary, then the gate; an empty pitch has none (R35, R40,
R59). -/
def execFeedGate (s : State) : Result :=
  match s.tl.pitches with
  | [] => .next s
  | q :: r =>
    if q.texp ≤ s.time + s.rd F.PT_FEED_LEAD_TICKS then
      let s1 := ((s.ptBoundary.boundary 0x0A8).pathLevel.modTl fun t => { t with pitches := r, pitchNo := t.pitchNo + 1 }).rePitch q
      if q.kind = .empty then .next s1
      else
        let s2 := s1.pathReport
        let reasons := s2.feedReasons q
        match s2.page? q.page, s2.freeSlotIndex with
        | some p, some i => .next (if reasons = 0 then s2.feedPass q p i else s2.feedFail q reasons)
        | _, _ => .next (s2.feedFail q reasons)
    else .next s

/-! ### The anchor (R43) -/

/-- Ticks by which a sheet-sensor input's edge qualifies after its stamp (R309). -/
def State.filt (s : State) (i : Nat) : Nat := s.rd (F.SS_IN_CFG_FILT i) * 100

/-- The anchor window of a fed page ends without an edge, and none stamped inside it can still qualify: the commit gate fails
(R43, R309, Table 2.3). -/
def execAnchorWindowEnd (slot : Fin 16) (s : State) : Result :=
  match s.tl.slots[slot] with
  | some sl =>
    if sl.anchor = none ∧ sl.missed = false ∧ sl.texp + sl.win + s.filt (s.rd F.PT_CFG_ANCHOR_SRC) < s.time then
      let s1 := (s.modSlot slot fun sl => { sl with missed := true }).emit (.toRole 3 3 sl.sheet)
      let retired := ((s1.page? sl.page).map fun p => p.st == .retired).getD true
      .next (if sl.blank then s1 else s1.failCommit slot (0x20 + (if retired then 0x40 else 0)))
    else .next s
  | none => .next s

/-- A leading edge at ANCHOR_SRC with its stamp: the anchor of the page whose window holds it; an edge before the window of
a waiting page is counted by its event and ignored (R43). -/
def State.anchorEdge (stamp : Nat) (s : State) : State :=
  let waiting := (sortBy (fun i => ((s.tl.slots[i]).map (·.order)).getD 0) (List.finRange 16)).filter fun i =>
    match s.tl.slots[i] with
    | some sl => sl.anchor.isNone && !sl.missed
    | none => false
  match waiting.find? fun i => match s.tl.slots[i] with
      | some sl => decide (sl.texp ≤ stamp + sl.win) && decide (stamp ≤ sl.texp + sl.win)
      | none => false with
  | some i => (s.modSlot i fun sl => { sl with anchor := some stamp }).wr (F.PT_SLOT_ANCHOR_LO i.val) stamp
  | none => s.ifDo (waiting.any fun i => match s.tl.slots[i] with
      | some sl => decide (stamp + sl.win < sl.texp)
      | none => false) (·.event ptPage 4)

/-! ### The exit (R49, R50) -/

/-- E of R50; a sheet without an anchor is reckoned from its expected one. -/
def Slot.exitAt (sl : Slot) : Nat := sl.anchor.getD sl.texp + sl.handoff + qdiv (sl.sheetLen * 1000 * 65536) sl.speed

/-- A committed page is DELIVERED: its slot is free, the host is told, and a deferred retirement follows (R36, R50, R277). -/
def State.deliver (i : Fin 16) (stamp : Nat) (s : State) : State :=
  match s.tl.slots[i] with
  | none => s
  | some sl =>
    match s.page? sl.page with
    | none => s
    | some p =>
      let s1 := (((s.wr (F.PT_SLOT_STATE i.val) 3).freeSlot i).pageTo p.id .delivered).queueRegs
      let s2 := s1.modJob p.job fun j => { j with delivered := j.delivered + 1 }
      let s3 := s2.postEvent 0x0005 p.job [(28, leBytes p.id 4), (32, leBytes sl.sheet 4), (37, [p.reprints]), (40, leBytes stamp 8)]
      s3.ifDo p.retireDue (·.retire p.id)

/-- A trailing edge at EXIT_SRC: the page whose exit window holds it is DELIVERED; a lost or blank sheet only leaves the
path (R50). -/
def State.exitEdge (stamp : Nat) (s : State) : State :=
  match (sortBy (fun i => ((s.tl.slots[i]).map (·.order)).getD 0) (List.finRange 16)).find? fun i => match s.tl.slots[i] with
      | some sl => s.rd (F.PT_SLOT_STATE i.val) == 2 && decide (sl.exitAt ≤ stamp + sl.win) && decide (stamp ≤ sl.exitAt + sl.win)
      | none => false with
  | some i => s.deliver i stamp
  | none => s

/-- No trailing edge has come at the exit: a committed page is LOST with JAM, which is a jam that names its sheet; a path that
shows clear stays reported as clear (R50, R51). -/
def State.exitJam (i : Fin 16) (sl : Slot) (s : State) : State :=
  if s.rd (F.PT_SLOT_STATE i.val) = 2 then
    let behind := fun j => match s.tl.slots[j] with | some t => decide (sl.order ≤ t.order) | none => false
    (s.jamSlots behind).modTl fun q => { q with pathClear := s.on F.SS_STAT_PATH_CLEAR && (s.holder 3).isSome }
  else s

/-- The exit window of a slot ends, and no edge stamped inside it can still qualify: a committed page is LOST with JAM; the
slot is free (R50, R309). -/
def execExitWindowEnd (slot : Fin 16) (s : State) : Result :=
  match s.tl.slots[slot] with
  | some sl =>
    if sl.exitAt + sl.win + s.filt (s.rd F.PT_CFG_EXIT_SRC) < s.time then .next (((s.exitJam slot sl).freeSlot slot).queueRegs)
    else .next s
  | none => .next s

/-- The divert deadline: a sheet LOST before it (not by JAM), or blank, takes the purge path (R47, R49). -/
def execDivertDeadline (slot : Fin 16) (s : State) : Result :=
  match s.tl.slots[slot] with
  | some sl =>
    let lost := s.rd (F.PT_SLOT_STATE slot.val) = 4 ∧ s.rd (F.PT_SLOT_CAUSE slot.val) ≠ lcJam
    if sl.anchor.getD sl.texp + sl.divert ≤ s.time ∧ (lost ∨ sl.blank = true) then
      .next (s.emit (.toRole 3 2 sl.sheet))
    else .next s
  | none => .next s

/-! ### Retirement and job abort (R36, Table 2.5) -/

/-- The host retires a page (Tables 2.1, 2.5 and 10.10). -/
def State.retirePage (p : Page) (s : State) : State :=
  if p.st = .committed then s.modPage p.id fun q => { q with retireDue := true }
  else (s.codecDrop p.id).retire p.id

/-- Job abort: pages not fed are removed, fed ones run blank at their commit gate, committed ones finish (Table 2.5). -/
def State.jobAbort (id : Nat) (s : State) : State :=
  let s1 := s.modJob id fun j => { j with aborted := true }
  s1.each (s1.tl.pages.filter fun p => p.job = id) fun p t =>
    if p.st = .defined ∨ p.st = .resident ∨ p.st = .released ∨ p.st = .fed then t.retirePage p else t

/-- R273: every page of the job is finished, and the job is closed or aborted. -/
def State.jobOver (s : State) (j : Job) : Bool :=
  (j.closed || j.aborted) && (s.tl.pages.filter fun p => p.job = j.id).all fun p =>
    p.st == .delivered || p.st == .lost || p.st == .retired

/-- Open jobs as QY_STAT.JOBS shows them. -/
def State.jobRegs (s : State) : State := s.wr F.QY_STAT_JOBS s.tl.jobs.length

/-- The job ends: its pages are RETIRED and leave the records, JOB_DONE is posted (R36, R273). -/
def State.endJob (j : Job) (s : State) : State :=
  let s1 := s.each (s.tl.pages.filter fun p => p.job = j.id) fun p t => t.retire p.id
  let s2 := s1.modTl fun t => { t with pages := t.pages.filter (·.job != j.id), jobs := t.jobs.filter (·.id != j.id) }
  (s2.postEvent 0x0008 j.id [(28, leBytes j.delivered 4), (32, leBytes j.lost 4)]).jobRegs.runReady

/-- JOB_DONE: the end of a job is evaluated (R273). -/
def execJobDone (job : Nat) (s : State) : Result :=
  match s.job? job with
  | some j => .next (if s.jobOver j then s.endJob j else s)
  | none => .next s

end Sys2Proof.Machine
end

