-- ==== Sys2Proof/Machine/QuayOps.lean ====
section
/-!
DEFINITION. The endpoint and the order of messages: what every Quay command shares (R250, R255–R264, R279, R535).
-/
namespace Sys2Proof.Machine

def qyPage : Nat := 0x0D0

def State.modQuay (f : Quay → Quay) (s : State) : State := { s with quay := f s.quay }

/-! ### Errors and rings -/

/-- An error of Table 10.3, by its row: reported only where its severity bit enables it; an uncorrectable one raises
AER_UNCORR with MINOR as a floor (R255, R283). -/
def State.aer (row : Nat) (e : AccessError) (s : State) : State :=
  if bit s.quay.aerMask row then
    let s1 := s.emit (.accessError e)
    if row < 5 then s1.raiseWith 208 qyPage 1 1 none else s1
  else s

/-- The rings stop: window 0 is revoked, the session is kept (R256). -/
def State.ringsStop (s : State) : State :=
  if s.on F.QY_STAT_RINGS then
    ((((s.wr F.QY_STAT_RINGS 0).wr (H.ENABLE qyPage) 0).modQuay fun q => { q with waitResume := s.session }).winClose 0).event qyPage 3
  else s.wr (H.ENABLE qyPage) 0

/-- The rings start: window 0 over the ring area in whole 4 KiB (R256). -/
def State.ringsStart (s : State) : State :=
  if s.on F.QY_STAT_RINGS then s.wr (H.ENABLE qyPage) 1
  else
    let size := (64 * (s.sqSize + s.cqSize) + 4095) / 4096
    let s2 := ((s.winSet 0 s.ringBase size 7).wr F.QY_SQ_HEAD_HEAD 0).wr F.QY_STAT_RINGS 1
    (s2.modQuay fun q => { q with cqWrite := 0, cqPhase := true, cqHead := 0, sqTail := 0 }).wr (H.ENABLE qyPage) 1

/-- R250: the function is reset; configuration, ring registers and MSI-X table return to reset, windows are revoked. -/
def State.functionReset (s : State) : State :=
  let s1 := s.ringsStop.each (List.finRange 16) fun w t => t.winClose w
  let s2 := ((s1.wr F.QY_RING_LO_BASE 0).wr F.QY_RING_HI_BASE 0).wr F.QY_SQ_HEAD_HEAD 0
  let s3 := (s2.wr F.QY_RING_SIZE_SQ_LOG2 8).wr F.QY_RING_SIZE_CQ_LOG2 9
  let s4 := s3.each (List.range 64) fun v t =>
    (((t.wr (F.MSIX_ADDR_LO v) 0).wr (F.MSIX_ADDR_HI v) 0).wr (F.MSIX_DATA v) 0).wr (F.MSIX_CTRL_MASK v) 1
  ((s4.wr (F.MSIX_PBA 0) 0).wr (F.MSIX_PBA 1) 0).modQuay fun q =>
    { q with d3hot := false, fnMask := false, aerMask := 0, sqTail := 0, cqHead := 0 }

/-! ### Messages -/

/-- Completion status codes (Table 10.7). -/
def csOk : Nat := 0
def csBadCrc : Nat := 1
def csResend : Nat := 2
def csStaleEpoch : Nat := 3
def csBadEpoch : Nat := 4
def csNoSession : Nat := 5
def csSessionExists : Nat := 6
def csBadType : Nat := 7
def csBadField : Nat := 8
def csUnknownJob : Nat := 9
def csUnknownPage : Nat := 10
def csConflict : Nat := 11
def csState : Nat := 12
def csLimit : Nat := 13
def csDupOld : Nat := 14

/-- An entry of the SQ is there to be read: the rings run, the tail is ahead, and the device processes messages (R4, R252,
R257, R278, R455). -/
def State.sqReady (s : State) : Bool :=
  s.on F.QY_STAT_RINGS && s.rd F.QY_SQ_HEAD_HEAD != s.quay.sqTail && !s.ze40 && !s.quay.d3hot &&
    (s.dev == stReady || s.dev == stRun || s.dev == stSafe) && (s.holder 1).isSome &&
    decide (s.quay.held.length + s.quay.orphan.length < 4096)

/-- Read one SQ entry: QY_SQ_HEAD advances (R257). -/
def State.takeEntry (s : State) : State := s.wr F.QY_SQ_HEAD_HEAD ((s.rd F.QY_SQ_HEAD_HEAD + 1) % s.sqSize)

/-- The sequence number after one (R261). -/
def seqNext (n : Nat) : Nat := if n = 0xFFFFFFFF then 1 else n + 1

/-- SEQ lies behind or at ACK (R261). -/
def seqBehind (ack seq : Nat) : Bool := (ack + 2 ^ 32 - seq) % 2 ^ 32 < 2 ^ 31

/-- A message that counts for R279: SILENT is cleared. -/
def State.heard (s : State) : State := (s.modQuay fun q => { q with lastMsg := s.time }).wr F.QY_STAT_SILENT 0

def State.reply (h : MsgHdr) (code : Nat) (s : State) : State := s.postCompletion h.seq h.job code [] 0

/-- A duplicate: its completion once more with REPLAY, or DUP_OLD (R263). -/
def State.duplicate (h : MsgHdr) (s : State) : State :=
  let s1 := s.sat F.QY_CNT_A_DUP
  match (s.quay.completions ++ s.quay.held).find? fun e => e.type = 0x80 && e.seq == h.seq &&
      !([csResend, csStaleEpoch, csBadEpoch, csNoSession, csDupOld].contains e.code) with
  | some e => s1.cqSubmit { e with flags := e.flags ||| 2 }
  | none => s1.reply h csDupOld

/-- An entry ahead of a gap (R261). -/
def State.gap (h : MsgHdr) (s : State) : State :=
  let s1 := s.sat F.QY_CNT_B_GAP
  let shut := match s.quay.resendAt with
    | some t => decide (s.time < t + 100000)
    | none => false
  if shut then s1 else (s1.modQuay fun q => { q with resendAt := some s.time }).reply h csResend

/-- A message other than SESSION_OPEN and SESSION_RESUME: session, epoch, sequence, reserved bytes, then its effect `k`
(R259–R264). -/
def State.message (h : MsgHdr) (namesJob : Bool) (k : State → State) (s : State) : State :=
  if !s.sqReady then s
  else
    let s := s.takeEntry
    if !s.session then s.reply h csNoSession
    else if h.epoch ≠ s.rd F.QY_EPOCH_EPOCH then
      let s1 := s.sat F.QY_CNT_B_STALE
      if h.epoch ≠ 0 ∧ h.epoch < s.rd F.QY_EPOCH_EPOCH then (s1.reply h csStaleEpoch).raise 209 qyPage 2
      else s1.reply h csBadEpoch
    else
      let s := s.heard
      let ack := s.rd F.QY_ACK_SEQ
      if h.seq = 0 then s.reply h csBadField
      else if h.seq = seqNext ack then
        let s1 := ((s.wr F.QY_ACK_SEQ h.seq).modQuay fun q => { q with resendAt := none, waitResume := false }).drain
        if !h.clean || (!namesJob && h.job != 0) then s1.reply h csBadField else k s1
      else if seqBehind ack h.seq then s.duplicate h
      else s.gap h

/-- A job or page message: refused with STATE in SAFE (R435) and for an unknown job. -/
def State.jobMessage (h : MsgHdr) (k : Job → State → State) (s : State) : State :=
  if s.isSafe then s.reply h csState
  else match s.job? h.job with
    | some j => k j s
    | none => s.reply h csUnknownJob

/-- A page of the message's job that is not RETIRED (Table 10.10). -/
def State.pageMessage (h : MsgHdr) (id : Nat) (k : Job → Page → State → State) (s : State) : State :=
  s.jobMessage h fun j t =>
    match t.page? id with
    | some p => if p.job = j.id ∧ p.st ≠ .retired then k j p t else t.reply h csUnknownPage
    | none => t.reply h csUnknownPage

/-! ### Sessions -/

/-- Close host windows 1–15 (R535). -/
def State.closeWindows (s : State) : State := s.each ((List.finRange 16).filter (· != 0)) fun w t => t.winClose w

/-- Abort every open job; a job whose pages are all finished ends when JOB_DONE is evaluated (R265, R535). -/
def State.abortJobs (s : State) : State := s.each s.tl.jobs fun j t => t.jobAbort j.id

/-- The open session ends (R535). -/
def State.endSession (s : State) : State :=
  let s1 := (s.wr (H.STATE qyPage) 0).wr F.QY_EPOCH_EPOCH 0
  let s2 := s1.modQuay fun q => { q with completions := [], issued := [], prevEpoch := 0, resendAt := none }
  s2.closeWindows

/-- The next epoch, counted in MRAM (R264). -/
def State.nextEpoch (s : State) : State :=
  let n := s.ld 0x05302000 4 + 1
  (s.st 0x05302000 4 n).wr F.QY_EPOCH_EPOCH n

/-- Events that waited for a session follow its first completion (R535). -/
def State.issueOrphans (s : State) : State :=
  let l := s.quay.orphan
  ((s.modQuay fun q => { q with orphan := [] }).each l fun e t => t.cqIssue e).heldRegs

end Sys2Proof.Machine
end

