-- ==== Sys2Proof/Machine/Quay.lean ====
section
/-! DEFINITION. The commands of the endpoint and of the Quay protocol (10). -/
namespace Sys2Proof.Machine

/-! ### The endpoint -/

/-- The link trains, or retrains through Recovery (R249–R251, QY_LINK). -/
def execPcieLinkUp (speed width : Nat) (s : State) : Result :=
  let up := s.rd F.QY_LINK_SPEED != 0
  let s1 := ((s.wr F.QY_LINK_SPEED speed).wr F.QY_LINK_WIDTH width).modQuay fun q => { q with perst := false }
  .next (if up then s1.sat F.QY_LINK_RECOVERY else s1.event qyPage 5)

/-- A configuration write (R252, R254, R255). -/
def execConfigurationWrite (d3hot fnMask : Bool) (aerMask : Nat) (s : State) : Result :=
  .next (s.modQuay fun q => { q with d3hot := d3hot, fnMask := fnMask, aerMask := aerMask })

/-- PERST_N, Hot Reset, Function Level Reset or link-down (R250); PERST_N takes the link down. -/
def execFunctionReset (perst : Bool) (s : State) : Result :=
  let s1 := s.functionReset
  let s2 := if perst then ((s1.wr F.QY_LINK_SPEED 0).wr F.QY_LINK_WIDTH 0).modQuay fun q => { q with perst := true } else s1
  .next (s2.raise 208 qyPage 0)

/-- Device address of MB (Table 1.4). -/
def mbBase : Nat := 0x03A00000

/-- A write through BAR2 (R253). -/
def execBar2Write (off : Nat) (bytes : List Byte) (poisoned : Bool) (s : State) : Result :=
  if 0x200000 < off + bytes.length then .next (s.aer 1 .unsupportedRequest)
  else if poisoned then .next ((s.sat F.QY_CNT_C_BAR2_DROP).aer 3 .poisonedTlp)
  else
    let n := 0x100000 - off
    .next ((s.ifDo (decide (off < 0x100000)) (·.sat F.QY_CNT_C_BAR2_DROP)).bankPuts (mbBase + off + n) ((bytes.drop n).map (·.toNat)))

/-- A read through BAR2 (R221, R253). -/
def execBar2Read (off len : Nat) (s : State) : Result :=
  if 0x200000 < off + len then .next ((s.emit (.accessError .unsupportedRequest)).aer 1 .unsupportedRequest)
  else if off + len ≤ 0x100000 then .next (s.emit (.readData 0))
  else
    let n := 0x100000 - off
    match s.memBytes (mbBase + off + n) (len - n) .endpoint with
    | (some l, t) => .next (t.emit (.readData (leNat (List.replicate n 0 ++ l))))
    | (none, t) => .next ((t.emit (.accessError .poisonedCompletion)).aer 2 .poisonedCompletion)

/-- A pending vector that is no longer masked sends its message (R254). -/
def execMsixSend (vector : Fin 64) (s : State) : Result :=
  let w := s.rd (F.MSIX_PBA (vector / 32))
  if bit w (vector % 32) ∧ !s.on (F.MSIX_CTRL_MASK vector) ∧ !s.quay.fnMask then
    .next ((s.wr (F.MSIX_PBA (vector / 32)) (w - 2 ^ (vector.val % 32))).emit (.msix vector))
  else .next s

/-- HOLDOFF has passed for vector 0 (QY_IRQ). -/
def execIrqHoldoffExpiry (s : State) : Result := .next s.irqSend

/-! ### Rings -/

/-- PG_CTRL.ENABLE of page 0x0D0 (R256); open to the host in SAFE (R435). -/
def execRingsEnable (agent : Agent) (on : Bool) (s : State) : Result :=
  .next (s.guarded agent qyPage 0x004 false false true fun t => if on then t.ringsStart else (t.ringsStop).hwReact)

/-- QY_SQ_TAIL: a tail outside the ring is ignored and counted as a gap (R257). -/
def execSqTailWrite (agent : Agent) (tail : Nat) (s : State) : Result :=
  .next (s.guarded agent qyPage 0x04C false false true fun t =>
    let v := tail % 4096
    if v < t.sqSize then t.modQuay fun q => { q with sqTail := v } else t.sat F.QY_CNT_B_GAP)

/-- QY_CQ_HEAD: entries are released, held ones are written (R258, R278). -/
def execCqHeadWrite (agent : Agent) (head : Nat) (s : State) : Result :=
  .next (s.guarded agent qyPage 0x050 false false true fun t =>
    (t.modQuay fun q => { q with cqHead := head % 4096 % t.cqSize }).drain)

/-- An SQ entry whose CRC fails (R260, R283). -/
def execBadCrc (s : State) : Result :=
  if s.sqReady then
    let s1 := s.takeEntry.sat F.QY_CNT_A_BAD_CRC
    .next ((s1.postCompletion 0 0 csBadCrc [] 0).raise 209 qyPage 2)
  else .next s

/-- An SQ entry of unknown TYPE (R259, Table 10.7). -/
def execBadType (hdr : MsgHdr) (_type : Nat) (s : State) : Result :=
  .next (s.message { hdr with clean := true } true fun t => t.reply hdr csBadType)

/-! ### Sessions -/

/-- SESSION_OPEN (R264, R265). -/
def execSessionOpen (hdr : MsgHdr) (hostTag version : Nat) (s : State) : Result :=
  if !s.sqReady then .next s
  else
    let s := s.takeEntry
    if hdr.epoch ≠ 0 ∨ hdr.seq ≠ 0 ∨ hdr.job ≠ 0 ∨ !hdr.clean ∨ version ≠ 0x00010000 then .next (s.reply hdr csBadField)
    else if s.session ∧ !hdr.force then .next (s.reply hdr csSessionExists)
    else
      let s1 := if s.session then s.endSession.abortJobs.hwReact else s
      let s2 := (((s1.nextEpoch.wr F.QY_ACK_SEQ 0).wr F.QY_DSEQ_LAST 0).wr (H.STATE qyPage) 1).heard
      let s3 := s2.modQuay fun q => { q with prevEpoch := 0, issued := [], completions := [], resendAt := none, waitResume := false }
      let s4 := s3.postCompletion 0 0 csOk [(28, leBytes (s3.rd F.QY_EPOCH_EPOCH) 4), (32, leBytes hostTag 4)] 0
      .next (s4.issueOrphans.event qyPage 0)

/-- The kept entries that follow a DSEQ, oldest first (R267). -/
def State.replayFrom (s : State) (last : Nat) : List CqEntry :=
  (s.quay.issued.filter fun e => e.dseq != last && seqBehind e.dseq last).reverse

/-- Held entries that no replay writes: those of a session that has ended. -/
def State.heldBefore (s : State) : List CqEntry :=
  s.quay.held.filter fun e => !s.quay.issued.any fun x => { x with flags := 0 } == { e with flags := 0 }

/-- SESSION_RESUME (R266, R267). -/
def execSessionResume (hdr : MsgHdr) (lastAck lastDseq hostTag : Nat) (s : State) : Result :=
  if !s.sqReady then .next s
  else
    let s := s.takeEntry
    let cur := s.rd F.QY_EPOCH_EPOCH
    if !s.session ∨ hdr.epoch = 0 ∨ (hdr.epoch ≠ cur ∧ hdr.epoch ≠ s.quay.prevEpoch) then .next (s.reply hdr csNoSession)
    else if hdr.seq ≠ 0 ∨ hdr.job ≠ 0 ∨ !hdr.clean ∨ !seqBehind (s.rd F.QY_ACK_SEQ) lastAck then .next (s.reply hdr csBadField)
    else
      let replay := s.replayFrom lastDseq
      let want := (lastDseq + 1) % 2 ^ 32
      let first := (replay.head?.map (·.dseq)).getD want
      let gone := replay.isEmpty == false && first != want || (replay.isEmpty && s.rd F.QY_DSEQ_LAST != lastDseq)
      let s1 := (s.nextEpoch.modQuay fun q => { q with prevEpoch := cur, held := s.heldBefore, resendAt := none, waitResume := false }).drain
      let s2 := s1.heard.postCompletion 0 0 csOk
        [(28, leBytes (s1.rd F.QY_EPOCH_EPOCH) 4), (32, leBytes first 4), (36, leBytes hostTag 4)] (if gone then 4 else 0)
      .next (((s2.each replay fun e t => t.cqSubmit { e with flags := e.flags ||| 2 }).heldRegs).event qyPage 1)

/-- SESSION_CLOSE (R535). -/
def execSessionClose (hdr : MsgHdr) (s : State) : Result :=
  .next (s.message hdr false fun t =>
    if !t.tl.jobs.isEmpty && !hdr.force then t.reply hdr csState
    else ((t.abortJobs.reply hdr csOk).endSession.event qyPage 2).hwReact)

/-- KEEPALIVE (R279). -/
def execKeepalive (hdr : MsgHdr) (s : State) : Result := .next (s.message hdr false fun t => t.reply hdr csOk)

/-- HB_TO has passed without a valid message (R279). -/
def execHostSilent (s : State) : Result :=
  let n := s.rd F.QY_TIMER_HB_TO
  if s.session ∧ n ≠ 0 ∧ !s.on F.QY_STAT_SILENT ∧ s.quay.lastMsg + n * 100000000 ≤ s.time then
    let s1 := s.wr F.QY_STAT_SILENT 1
    .next ((s1.ifDo (s1.on F.QY_TIMER_SILENT_STOP) (·.wr F.PT_CFG_FEED_EN 0)).raise 210 qyPage 3)
  else .next s

/-- WINDOW_SET (R280). -/
def execWindowSet (hdr : MsgHdr) (window : Nat) (valid rd wr : Bool) (base size : Nat) (s : State) : Result :=
  .next (s.message hdr false fun t =>
    if 1 ≤ window ∧ window ≤ 15 ∧ base % 4096 = 0 then
      let w : Fin 16 := Fin.ofNat 16 window
      ((t.winSet w base size (b2n valid + 2 * b2n rd + 4 * b2n wr)).reply hdr csOk).hwReact
    else t.reply hdr csBadField)

/-! ### Jobs -/

/-- JOB_OPEN (R269–R271, R467). -/
def execJobOpen (hdr : MsgHdr) (stations : Nat) (reprint skipOk : Bool) (s : State) : Result :=
  .next (s.message hdr true fun t =>
    if t.isSafe || t.boot.noProfile then t.reply hdr csState
    else if hdr.job = 0 ∨ stations = 0 ∨ 64 ≤ stations ∨ stations &&& t.boot.stations ≠ stations ∨
        ((List.range 6).any fun k => bit stations k && !t.hasStation k) then t.reply hdr csBadField
    else
      match t.job? hdr.job with
      | some j => t.reply hdr (if j.stations = stations ∧ j.reprint = reprint ∧ j.skipOk = skipOk then csOk else csConflict)
      | none =>
        if 16 ≤ t.tl.jobs.length then t.reply hdr csLimit
        else
          let t1 := t.modTl fun q => { q with jobs := q.jobs ++ [⟨hdr.job, stations, reprint, skipOk, false, false, 0, 0⟩] }
          (t1.jobRegs.reply hdr csOk).runReady)

/-- JOB_CLOSE (R273). -/
def execJobClose (hdr : MsgHdr) (s : State) : Result :=
  .next (s.message hdr true fun t => t.jobMessage hdr fun j u => (u.modJob j.id fun q => { q with closed := true }).reply hdr csOk)

/-- JOB_ABORT (R273, Table 2.5). -/
def execJobAbort (hdr : MsgHdr) (s : State) : Result :=
  .next (s.message hdr true fun t => t.jobMessage hdr fun j u => (u.jobAbort j.id).reply hdr csOk)

/-! ### Pages -/

/-- PAGE_DEFINE (R269, R270, R272). -/
def execPageDefine (hdr : MsgHdr) (pageId sheetLen width height fmt : Nat) (s : State) : Result :=
  .next (s.message hdr true fun t => t.jobMessage hdr fun j u =>
    if pageId = 0 ∨ sheetLen = 0 ∨ width = 0 ∨ 31200 < width ∨ height = 0 ∨ 131071 < height ∨ fmt % 4 = 3 ∨ bit fmt 3 then u.reply hdr csBadField
    else
      match u.page? pageId with
      | some p =>
        u.reply hdr (if p.job = j.id ∧ p.sheetLen = sheetLen ∧ p.width = width ∧ p.height = height ∧ p.fmt = fmt then csOk
          else csConflict)
      | none =>
        if j.closed || j.aborted then u.reply hdr csState
        else if 8192 ≤ (u.tl.pages.filter fun p => p.st ≠ .retired).length then u.reply hdr csLimit
        else
          let page : Page := {
            id := pageId, job := j.id, sheetLen := sheetLen, width := width, height := height, fmt := fmt, st := .defined
            released := false, sheet := none, commits := 0, reprints := 0, cause := 0, final := false, retireDue := false
            sepLost := false, again := false, seps := [], changed := u.time }
          (u.modTl fun q => { q with pages := q.pages ++ [page] }).reply hdr csOk)

/-- PAGE_RELEASE (R36, R37, Table 10.10). -/
def execPageRelease (hdr : MsgHdr) (pageId : Nat) (s : State) : Result :=
  .next (s.message hdr true fun t => t.pageMessage hdr pageId fun _ p u =>
    if p.released then u.reply hdr csOk
    else
      let u1 := (u.modPage pageId fun q => { q with released := true, queuedAt := some u.time }).modTl fun q => { q with released := q.released ++ [pageId] }
      let u2 := if p.st = .resident then u1.pageTo pageId .released else u1
      u2.queueRegs.reply hdr csOk)

/-- PAGE_RETIRE (R36, R269, Table 10.10). -/
def execPageRetire (hdr : MsgHdr) (pageId : Nat) (s : State) : Result :=
  .next (s.message hdr true fun t => t.jobMessage hdr fun j u =>
    match u.page? pageId with
    | some p =>
      if p.job ≠ j.id then u.reply hdr csUnknownPage
      else if p.st = .retired then u.reply hdr csOk
      else (u.retirePage p).reply hdr csOk
    | none => u.reply hdr csUnknownPage)

/-- The number of a page state (Table 2.1, in table order; a fed page is RELEASED). -/
def PgState.code : PgState → Nat
  | .defined => 0
  | .resident => 1
  | .released => 2
  | .fed => 2
  | .committed => 3
  | .delivered => 4
  | .lost => 5
  | .retired => 6

/-- PAGE_QUERY: the layout of PAGE_LOST with the page's record (below Table 10.8); answered in SAFE too (R435). -/
def execPageQuery (hdr : MsgHdr) (pageId : Nat) (s : State) : Result :=
  .next (s.message hdr true fun t =>
    match t.job? hdr.job, t.page? pageId with
    | none, _ => t.reply hdr csUnknownJob
    | some j, some p =>
      if p.job = j.id ∧ p.st ≠ .retired then
        let stored := p.seps.foldl (fun v q => if q.stored then v ||| 2 ^ q.station else v) 0
        t.postCompletion hdr.seq hdr.job csOk
          [(28, leBytes p.id 4), (32, leBytes (p.sheet.getD 0) 4), (36, [p.cause]), (37, [p.reprints]), (38, [b2n p.final]),
           (39, [p.st.code]), (40, leBytes p.changed 8), (48, [stored])] 0
      else t.reply hdr csUnknownPage
    | some _, none => t.reply hdr csUnknownPage)

/-! ### Separations -/

/-- Parts queued for transfer (Table 10.9). -/
def State.queuedParts (s : State) : Nat :=
  (s.tl.pages.flatMap fun p => p.seps.flatMap fun q => q.parts.filter (!·.stored)).length

def Page.sep? (p : Page) (k : Nat) : Option Sep := p.seps.find? (·.station == k)

def State.modSep (id k : Nat) (f : Sep → Sep) (s : State) : State :=
  s.modPage id fun p => { p with seps := p.seps.map fun q => if q.station = k then f q else q }

/-- Two byte ranges share a byte. -/
def overlap (a n b m : Nat) : Bool := a < b + m && b < a + n

/-- Is a part of a separation badly placed (R274, R275)? -/
def badPart (q : Option Sep) (offs len : Nat) (last encode : Bool) (streamLen : Nat) : Bool :=
  offs % 8 != 0 || len % 8 != 0 || decide (len < 8) ||
  (if encode then !last || offs != 0 || (match q with | some q => !q.parts.isEmpty | none => false)
   else (last && (decide (offs + len < streamLen) || decide (streamLen ≤ offs))) ||
     (match q with
      | some q =>
        q.parts.any (fun r => overlap offs len r.offs r.len) ||
        (match q.streamLen with | some n => last || decide (n < offs + len) | none => false) ||
        (last && q.parts.any fun r => decide (streamLen < r.offs + r.len))
      | none => false))

/-- Queue a part: repeated ones by R269, then the state and limit checks (R269, R270, R274, Table 10.10). -/
def State.sepPart (h : MsgHdr) (p : Page) (j : Job) (k offs len : Nat) (last encode : Bool) (streamLen : Nat) (bad : Bool)
    (body : List Nat) (s : State) : State :=
  let old := p.sep? k
  match (old.map (·.parts)).getD [] |>.find? fun r => r.offs = offs && r.len = len with
  | some r => s.reply h (if r.body = body then csOk else csConflict)
  | none =>
    if bad || !bit j.stations k || decide (6 ≤ k) then s.reply h csBadField
    else if p.st ≠ .defined then s.reply h csState
    else if badPart old offs len last encode streamLen then s.reply h csBadField
    else if 256 ≤ s.queuedParts then s.reply h csLimit
    else
      let part : Part := ⟨offs, len, body, false⟩
      let s1 := match old with
        | some _ => s.modSep p.id k fun q => { q with parts := q.parts ++ [part], streamLen := if last && !encode then some streamLen else q.streamLen }
        | none => s.modPage p.id fun q => { q with seps := q.seps ++
            [(⟨k, [part], if last && !encode then some streamLen else none, false, []⟩ : Sep)] }
      s1.reply h csOk

/-- SEP_REFUSED and the removal of what it discards (R276). -/
def State.refuseSep (id k reason status scope offs : Nat) (s : State) : State :=
  let job := ((s.page? id).map (·.job)).getD 0
  let s1 := if scope = 0 then s.modPage id fun p => { p with seps := p.seps.filter (·.station != k) }
    else s.modSep id k fun q =>
      let dropped := q.parts.filter fun r => r.offs = offs
      { q with parts := q.parts.filter (·.offs != offs),
               streamLen := if dropped.any fun r => r.body.getD 1 0 = 1 then none else q.streamLen }
  (s1.postEvent 0x0003 job [(28, leBytes id 4), (32, [k]), (33, [reason]), (34, [status]), (35, [scope]), (36, leBytes offs 4)]).storeRegs

/-- PART_DONE (Table 10.8). -/
def State.postPart (id job k result offs : Nat) (s : State) : State :=
  s.postEvent 0x0001 job [(28, leBytes id 4), (32, [k]), (33, [result]), (36, leBytes offs 4)]

/-- Both encode lanes are isolated (R186). -/
def State.noEncoder (s : State) : Bool := s.on (H.ISOLATED 0x051) && s.on (H.ISOLATED 0x052)

/-- SEP_SUBMIT (R274, R275, R186). -/
def execSepSubmit (hdr : MsgHdr) (pageId station : Nat) (last encode : Bool) (effort : Nat) (grow : Bool)
    (window offset partOffs length streamLen stride : Nat) (s : State) : Result :=
  .next (s.message hdr true fun t => t.pageMessage hdr pageId fun j p u =>
    let bad := decide (window = 0 ∨ 16 ≤ window ∨ offset % 8 ≠ 0 ∨ 8 ≤ effort)
    let body := [0, b2n last, b2n encode, effort, b2n grow, window, offset, streamLen, stride]
    let v := u.sepPart hdr p j station partOffs length last encode streamLen bad body
    let queued := decide (u.queuedParts < v.queuedParts)
    if queued && encode && v.noEncoder then
      (v.postPart pageId j.id station 6 partOffs).refuseSep pageId station 6 8 0 partOffs
    else v)

/-- SEP_WRITTEN (R274). -/
def execSepWritten (hdr : MsgHdr) (pageId station : Nat) (last : Bool) (mbOffs partOffs length streamLen : Nat) (s : State) : Result :=
  .next (s.message hdr true fun t => t.pageMessage hdr pageId fun j p u =>
    let bad := decide (mbOffs % 8 ≠ 0 ∨ mbOffs < 0x100000 ∨ 0x200000 < mbOffs + length)
    u.sepPart hdr p j station partOffs length last false streamLen bad [1, b2n last, 0, 0, 0, 0, mbOffs, streamLen, 0])

/-! ### Transfers (R276) -/

/-- The lowest extents that are free. -/
def State.freeExts (s : State) : List Nat :=
  let used := s.usedExts
  (List.range 0x8000).filter fun x => s.extOk x && !s.mu.condemned.contains x && !used.contains x

/-- Extents for the blocks of a stream that have none yet; none if the store has not enough. -/
def assignExts (have_ : List (Nat × Nat)) : List Nat → List Nat → Option (List (Nat × Nat))
  | [], _ => some have_
  | b :: r, free =>
    if have_.any (·.1 == b) then assignExts have_ r free
    else match free with
      | [] => none
      | x :: f => assignExts (have_ ++ [(b, x)]) r f

/-- Device address of a byte of a stored stream. -/
def Sep.addr (q : Sep) (o : Nat) : Nat :=
  match q.exts.find? fun e => e.1 = o / extSize with
  | some e => extAddr e.2 + o % extSize
  | none => 0

/-- Store a stream's bytes from an offset on, in whole words. -/
def State.storeStream (q : Sep) (o : Nat) : Nat → List Nat → State → State
  | 0, _, s => s
  | n + 1, l, s => State.storeStream q (o + 8) n (l.drop 8) (s.memPut (q.addr o) (leNat (l.take 8)))

/-- The blocks of 2 MiB a byte range touches. -/
def blocksOf (offs len : Nat) : List Nat := (List.range ((offs + len - 1) / extSize - offs / extSize + 1)).map (offs / extSize + ·)

/-- Every byte below STREAM_LEN has been stored (R274). -/
def Sep.complete (q : Sep) : Bool :=
  match q.streamLen with
  | some n => q.parts.all (·.stored) && (q.parts.map fun r => min (r.offs + r.len) n - min r.offs n).foldl (· + ·) 0 == n
  | none => false

/-- The source bytes of a part: from the host, or from the upload area. -/
def State.partBytes (r : Part) (data : List Nat) (s : State) : Option (List Nat) × State :=
  if r.body.getD 0 0 = 1 then s.memBytes (mbBase + r.body.getD 6 0) r.len (.berth 1 false)
  else (some ((List.range r.len).map fun i => data.getD i 0), s)

/-- The source and destination lines of a page (R113, R114, R272). -/
def ratioOf (fmt : Nat) : Nat × Nat :=
  if fmt % 4 = 2 then (1, 1)
  else
    let in600 := fmt / 16 % 4 == 1
    match fmt / 64 % 4 with
    | 1 => if in600 then (3, 8) else (3, 4)
    | 2 => if in600 then (1, 2) else (1, 1)
    | _ => if in600 then (1, 4) else (1, 2)

def Page.lines (p : Page) : Nat := (p.height * (ratioOf p.fmt).1 + (ratioOf p.fmt).2 - 1) / (ratioOf p.fmt).2

/-- The unpadded byte count of a line of `n` source pixels (R113). -/
def lineBytesOf (fmt n : Nat) : Nat :=
  let tags := bit fmt 2
  match fmt % 4 with
  | 0 => n + (if tags then (n + 3) / 4 else 0)
  | 1 => 2 * n + (if tags then 2 * ((n + 3) / 4) else 0)
  | _ => 2 * n

def Page.lineBytes (p : Page) : Nat := lineBytesOf p.fmt p.width

def Page.alpha (p : Page) : Bool := p.fmt % 4 != 0

/-- The raw lines of an ENCODE part: LINE_BYTES of each line, every STRIDE bytes (R275). -/
def rawLines (lines lineBytes stride : Nat) (data : List Nat) : List Nat :=
  (List.range lines).flatMap fun n => (List.range lineBytes).map fun i => data.getD (n * stride + i) 0

/-- What a part puts into the store: its bytes, or the encoded stream of its lines. -/
def partStream (p : Page) (r : Part) (bytes : List Nat) : List Nat :=
  if r.body.getD 2 0 = 1 then
    encodeStream ⟨p.alpha, p.lineBytes, p.lines⟩ (r.body.getD 4 0 == 1) (r.body.getD 3 0) 65536
      (rawLines p.lines p.lineBytes (r.body.getD 8 0) bytes)
  else bytes

/-- A part fails: PART_DONE, then SEP_REFUSED (R276). -/
def State.partFail (p : Page) (k : Nat) (r : Part) (reason status : Nat) (s : State) : State :=
  (s.postPart p.id p.job k reason r.offs).refuseSep p.id k reason status (if r.body.getD 2 0 = 1 then 0 else 1) r.offs

/-- The bound of R175 for the encoded stream of `n` bytes in blocks of 65,536. -/
def encodeBound (grow : Bool) (n : Nat) : Nat :=
  let f := fun b => if b = 0 then 0 else if grow then b + b / 8 + 16 else b + 8
  24 + n / 65536 * f 65536 + f (n % 65536)

/-- The bytes a part needs in the store: those of its stream; an ENCODE part's area is sized to its bound (R275). -/
def areaOf (p : Page) (r : Part) (n : Nat) : Nat :=
  if r.body.getD 2 0 = 1 then max n (encodeBound (r.body.getD 4 0 == 1) (p.lines * p.lineBytes)) else n

/-- A part's bytes go into the store (R225, R276). -/
def State.partStore (p : Page) (q : Sep) (r : Part) (stream : List Nat) (s : State) : State :=
  let encoded := r.body.getD 2 0 = 1
  let n := stream.length
  match assignExts q.exts (blocksOf r.offs (areaOf p r n)) s.freeExts with
  | none => s.partFail p q.station r 5 0
  | some exts =>
    let q1 := { q with exts := exts }
    if (blocksOf r.offs (areaOf p r n)).all fun b => s.inDram (q1.addr (b * extSize)) 8 then
      let s1 := s.modSep p.id q.station fun _ =>
        { q1 with parts := q.parts.map fun x => if x.offs = r.offs then { x with stored := true } else x
                  streamLen := if encoded then some n else q.streamLen }
      (((s1.storeStream q1 r.offs ((n + 7) / 8) stream).storeRegs).postPart p.id p.job q.station 0 r.offs)
    else s.partFail p q.station r 7 0

/-- The transfer of a part ends: `result` 0, or the reason its transfer gives (R276, R280, Table 10.12). -/
def execPartDone (pageId : Nat) (station : Fin 6) (partOffs result status : Nat) (data : List Nat) (s : State) : Result :=
  match s.page? pageId with
  | none => .next s
  | some p =>
    match p.sep? station with
    | none => .next s
    | some q =>
      match q.parts.find? fun r => r.offs = partOffs && !r.stored with
      | none => .next s
      | some r =>
        if p.st = .retired then
          .next ((s.modSep pageId station fun q => { q with parts := q.parts.filter (·.offs != partOffs) }).postPart pageId p.job station result partOffs)
        else
          let w : Fin 16 := Fin.ofNat 16 (r.body.getD 5 0)
          let submit := r.body.getD 0 0 = 0
          if result ≠ 0 then .next (s.partFail p station r result status)
          else if submit ∧ !s.winOk w (r.body.getD 6 0) r.len false then .next (s.partFail p station r 2 0)
          else if r.body.getD 2 0 = 1 ∧ (r.body.getD 8 0 % 8 ≠ 0 ∨ (p.alpha ∧ p.lineBytes % 2 = 1)) then .next (s.partFail p station r 6 3)
          else
            match s.partBytes r data with
            | (none, t) => .next (t.partFail p station r 4 0)
            | (some bytes, t) => .next (t.partStore p q r (partStream p r bytes))

end Sys2Proof.Machine
end

