-- ==== Sys2Proof/Machine/Pipeline.lean ====
section
/-!
DEFINITION. The imaging pipeline as functions of the state (05, and R89, R90, R100 of 04): which emitters fire, the code of
every output pixel, and the ring lines and table entries a scan reads.  A read that is uncorrectable gives no value; what it
does is the scan's (`Scan.lean`).
-/
namespace Sys2Proof.Machine

/-! ### Formats and the source grid (R113, R114) -/

/-- The format byte of a page definition, from the fields of an imaging set. -/
def fmtOf (rd : Fld → Nat) (k : Nat) : Nat :=
  rd (F.IM_CFG_FMT k) + 4 * rd (F.IM_CFG_TAGS k) + 16 * rd (F.IM_CFG_IN_RES k) + 64 * rd (F.IM_CFG_OUT_LPI k)

/-- The source ring line of page line q. -/
def sourceLine (fmt q : Nat) : Nat := q * (ratioOf fmt).1 / (ratioOf fmt).2

/-- The source pixel of output pixel j. -/
def sourcePixel (fmt j : Nat) : Nat := if fmt % 4 = 2 then j else if fmt / 16 % 4 = 1 then j / 4 else j / 2

/-- Bytes of bank SB-k start here (Table 1.4). -/
def sbBase (k : Nat) : Nat := k * 0x800000

/-- Device address of a ring line (R115). -/
def State.ringAddr (s : State) (k : Fin 6) (n : Nat) : Nat :=
  let l := s.rd (F.IM_RING_LINES k.val)
  sbBase k.val + s.rd (F.IM_RING_BASE k.val) * 0x10000 + (if l = 0 then n else n % l) * (s.ring k).stride

/-- A read of `n` bytes within one word; none if it is uncorrectable. -/
def State.peek (s : State) (k : Fin 6) (a n : Nat) : Option Nat :=
  ((s.memWord (a / 8 * 8) (.pipeline k)).1).map fun w => bits w (8 * (a % 8)) (8 * n)

/-! ### Zones (R75, R120) -/

/-- Twice the centre of zone z: c2 of R75. -/
def zoneC2 (linePx zoneW : Nat) (z : Nat) : Int :=
  2 * (z * zoneW : Nat) + (if z < 63 then (zoneW : Int) else (linePx : Int) - 63 * zoneW)

/-- R75: the placement before its clamp. -/
def zonePlace (linePx zoneW : Nat) (mag shift : Int) (z : Nat) : Int :=
  shift + (mag * (zoneC2 linePx zoneW z - linePx) * 32 + 500000) / 1000000

def State.c2 (s : State) (k z : Nat) : Int := zoneC2 (s.rd (F.BT_LINE_LINE_PX k)) (s.rd (F.BT_LINE_ZONE_W k)) z

/-- The zone of output pixel m (R124). -/
def State.zoneOf (s : State) (k m : Nat) : Nat :=
  let w := s.rd (F.BT_LINE_ZONE_W k)
  if w = 0 then 63 else min 63 (m / w)

/-- G[z]. -/
def State.zoneG (s : State) (k z : Nat) : Int :=
  if z % 2 = 0 then s.rd (F.IM_GAIN_EVEN k (z / 2)) else s.rd (F.IM_GAIN_ODD k (z / 2))

/-- The interpolated zone gain at output pixel j (R120). -/
def State.gainAt (s : State) (k j : Nat) : Int :=
  let x2 : Int := 2 * j + 1
  if x2 ≤ s.c2 k 0 then s.zoneG k 0
  else if s.c2 k 63 ≤ x2 then s.zoneG k 63
  else
    let z := (List.range 63).foldl (fun b z => if s.c2 k z ≤ x2 then z else b) 0
    s.zoneG k z + tdiv ((s.zoneG k (z + 1) - s.zoneG k z) * (x2 - s.c2 k z)) (s.c2 k (z + 1) - s.c2 k z)

/-! ### Stages 1 to 3 (R119–R122) -/

/-- A source pixel: its sample and tag, none when the line's read is uncorrectable. -/
structure Sample where
  v   : Nat
  tag : Nat

/-- Addresses of the sample and of the tag of source pixel x of a ring line at `a`. -/
def sampleAt (fmt width a x : Nat) : (Nat × Nat) × (Nat × Nat) :=
  match fmt % 4 with
  | 0 => ((a + x, 1), (a + width + x / 4, 1))
  | 1 => ((a + 2 * x, 2), (a + 2 * width + 2 * (x / 4), 2))
  | _ => ((a + 2 * x, 2), (a + 2 * x, 2))

def State.sample (s : State) (k : Fin 6) (fmt width a x : Nat) : Option Sample :=
  let at_ := sampleAt fmt width a x
  match s.peek k at_.1.1 at_.1.2 with
  | none => none
  | some v =>
    let v := if fmt % 4 = 0 then v else v % 1024
    if bit fmt 2 && fmt % 4 != 2 then
      (s.peek k at_.2.1 at_.2.2).map fun t => ⟨v, t / 4 ^ (x % 4) % 4⟩
    else some ⟨v, 0⟩

/-- LUT entry of a sample (R119). -/
def State.lutAddr (s : State) (k : Fin 6) (fmt : Nat) (x : Sample) : Nat :=
  let v := if fmt % 4 = 0 then 4 * x.v + x.v / 64 else x.v
  sbBase k.val + s.rd (F.IM_TBASE_LUT_OFFS k.val) + 2048 * x.tag + 2 * v

/-- A stored 0 of W or H means 256 (R121). -/
def or256 (v : Nat) : Nat := if v = 0 then 256 else v

/-- Threshold-array entry of output pixel j on page line q (R121). -/
def State.scrAddr (s : State) (k : Fin 6) (t q j : Nat) : Nat :=
  let w := or256 (s.rd (F.IM_SCR_W k.val t))
  let h := or256 (s.rd (F.IM_SCR_H k.val t))
  let ax := (j + q / h * s.rd (F.IM_SCR_XSHIFT k.val t)) % w
  sbBase k.val + s.rd (F.IM_TBASE_SCR_OFFS k.val) + 0x20000 * t + 512 * (q % h) + 2 * ax

/-- The tone after the zone gain (R120). -/
def toneGain (tone : Nat) (g : Int) : Nat := min 4095 ((tone * g.toNat + 8192) / 16384)

/-- Ramp entry of a tone above its threshold (R122). -/
def State.rampAddr (s : State) (k : Fin 6) (t d : Nat) : Nat :=
  sbBase k.val + s.rd (F.IM_TBASE_RAMP_OFFS k.val) + 512 * t + 2 * min 255 (d * s.rd (F.IM_RAMP_SLOPE k.val t) / 256)

/-- The exposure code of a ramp entry (R122). -/
def rampCode (r j : Nat) : Nat :=
  let w := bits r 4 6
  if w = 0 then 0 else w * 16 + j * 4 + r % 4

/-- What stages 1 to 3 read for one pixel, and its code; no code when a read is uncorrectable. -/
structure Screened where
  code   : Option Nat
  tables : List Nat

def State.screen (s : State) (k : Fin 6) (fmt : Nat) (x : Sample) (q j : Nat) : Screened :=
  if fmt % 4 = 2 then ⟨some x.v, []⟩
  else
    let la := s.lutAddr k fmt x
    let sa := s.scrAddr k x.tag q j
    match s.peek k la 2, s.peek k sa 2 with
    | some l, some e =>
      let tone := toneGain (l % 4096) (s.gainAt k.val j)
      if tone ≤ e % 4096 then ⟨some 0, [la, sa]⟩
      else
        let ra := s.rampAddr k x.tag (tone - e % 4096)
        match s.peek k ra 2 with
        | some r => ⟨some (rampCode r (bits e 12 2)), [la, sa, ra]⟩
        | none => ⟨none, [la, sa, ra]⟩
    | _, _ => ⟨none, [la, sa]⟩

/-! ### Registration marks (R130) -/

/-- First line of the straight bars of station place idx. -/
def State.markY (s : State) (f : Feed) : Nat := f.height + s.rd F.REG_MARK_START + f.idx * s.rd F.REG_MARK_PITCH

/-- The mark generator's code at a trailer line and pixel. -/
def State.markCode (s : State) (f : Feed) (y x : Nat) : Nat :=
  let y0 := s.markY f
  let bar := s.rd F.REG_MARK_BAR
  let half := s.rd F.REG_MARK2_HALF
  let hit := (List.range 4).any fun j =>
    let xj := s.rd (F.REG_X_X j)
    let inX := decide (xj ≤ x + half) && decide (x ≤ xj + half)
    let top : Int := y0 + s.rd F.REG_MARK2_DIAG + ((x : Int) - xj)
    inX && ((decide (y0 ≤ y) && decide (y < y0 + bar)) || (decide (top ≤ y) && decide ((y : Int) < top + bar)))
  if hit then s.rd F.REG_CODE_MARK_CODE else 0

/-- R130: the trailer length of the station at place idx. -/
def State.trailerLines (s : State) (idx : Nat) : Nat :=
  s.rd F.REG_MARK_START + idx * s.rd F.REG_MARK_PITCH + s.rd F.REG_MARK2_DIAG + s.rd F.REG_MARK2_HALF + s.rd F.REG_MARK_BAR

/-! ### Stage 4 (R123, R124) -/

/-- The positions a code occupies in its pixel (Table 5.4). -/
def occupancy (code : Nat) : Nat :=
  let w := bits code 4 6
  let run := fun lo n => (2 ^ n - 1) * 2 ^ lo
  match bits code 2 2 with
  | 0 => run 0 w
  | 1 => run ((64 - w) / 2) w
  | 2 => run (64 - w) w
  | _ => run 0 (w - w / 2) ||| run (64 - w / 2) (w / 2)

def popcount (n v : Nat) : Nat := ((List.range n).filter fun i => bit v i).length

/-- Is a mask one run of ones?  It is when it has one rising edge. -/
def oneRun (v : Nat) : Bool := popcount 64 (v &&& ((2 ^ 64 - 1) ^^^ (2 * v % 2 ^ 64))) == 1

/-- The code of a shifted occupancy: W, J and power step as R124 chooses them. -/
def placeCode (a n f : Nat) : Nat :=
  let ma := occupancy a / 2 ^ f
  let mn := if f = 0 then 0 else occupancy n * 2 ^ (64 - f) % 2 ^ 64
  let occ := ma ||| mn
  let w := min 63 (popcount 64 occ)
  if w = 0 then 0
  else
    let lowest := ((List.range 64).find? fun i => bit occ i).getD 0
    let away := fun p => if p ≤ lowest then lowest - p else p - lowest
    let c := away ((64 - w) / 2)
    let j := if bit occ 0 && bit occ 63 && !oneRun occ then 3
      else if c ≤ away 0 && c ≤ away (64 - w) then 1
      else if away 0 ≤ away (64 - w) then 0 else 2
    let pw := if popcount 64 (mn &&& occ) ≤ popcount 64 (ma &&& occ) then a % 4 else n % 4
    w * 16 + j * 4 + pw

/-- The stage-3 code at source position (q, j), with the table entries it reads: the mark generator's in the trailer,
nothing outside line, page and trailer (R114, R124). -/
def State.codeAt (s : State) (k : Fin 6) (f : Feed) (q j : Int) : Screened :=
  if q < 0 ∨ j < 0 ∨ (s.rd (F.BT_LINE_LINE_PX k.val) : Int) ≤ j then ⟨some 0, []⟩
  else
    let q := q.toNat
    let j := j.toNat
    if f.height ≤ q then ⟨some (if q < f.height + f.trailer then s.markCode f q j else 0), []⟩
    else
      let fmt := fmtOf s.rd k.val
      let x := sourcePixel fmt j
      let n := sourceLine fmt q
      if f.width ≤ x ∨ f.lines ≤ n then ⟨some 0, []⟩
      else
        match s.sample k fmt f.width (s.ringAddr k n) x with
        | some v => s.screen k fmt v q j
        | none => ⟨none, []⟩

/-- D[z]. -/
def State.doffs (s : State) (k z : Nat) : Int := s.rdS (F.IM_DOFFS_D k (z / 4) (z % 4))

/-- The two source positions of output pixel m of page line p: line, pixel and phase (R124). -/
def State.sourceOf (s : State) (k : Nat) (p : Int) (m : Nat) : Int × Int × Nat :=
  let z := s.zoneOf k m
  let t : Int := 64 * m - s.rdS (F.ZONE_P k z)
  (p - s.doffs k z, t / 64, (t % 64).toNat)

/-- The stage-4 code of page line p at output pixel m (R124); an unreadable entry counts as 0x000 (R128). -/
def State.geoCode (s : State) (k : Fin 6) (f : Feed) (p : Int) (m : Nat) : Nat :=
  let q := s.sourceOf k.val p m
  placeCode ((s.codeAt k f q.1 q.2.1).code.getD 0) ((s.codeAt k f q.1 (q.2.1 + 1)).code.getD 0) q.2.2

/-! ### The interlace table (R89, R90) -/

/-- b of IL_GEOM.BSEL. -/
def State.ilB (s : State) (k : Nat) : Nat := 2 ^ s.rd (F.IL_GEOM_BSEL k)

/-- K: a stored 0 reads as 64. -/
def ilK (rd : Fld → Nat) (k : Nat) : Nat := let v := rd (F.IL_CYCLE_K k); if v = 0 then 64 else v

/-- MASK of entry s'. -/
def ilMask (rd : Fld → Nat) (k e : Nat) : Nat := rd (F.IL_ENTRY_MASK_LO k e) + 2 ^ 32 * rd (F.IL_ENTRY_MASK_HI k e)

def State.ilDead (s : State) (k : Nat) : Nat := s.rd (F.IL_DEAD_LO_MASK k) + 2 ^ 32 * s.rd (F.IL_DEAD_HI_MASK k)

/-- Emitters of a mask, in ascending order. -/
def emitters (mask : Nat) : List Nat := (List.range 64).filter fun i => bit mask i

/-- b times the feed line that emitter i writes on scan n of a feed. -/
def State.lineB (s : State) (k n i : Nat) : Nat :=
  let K := ilK s.rd k
  n / K * s.rd (F.IL_CYCLE_ADV k) + s.rd (F.IL_ENTRY_BASE k (n % K)) + s.rd (F.IL_GEOM_A k) * i

/-- Page line of a feed line (R90). -/
def State.pageLine (s : State) (k : Nat) (f : Feed) (l : Nat) : Int := (l : Int) - f.g - s.rd (F.IL_LEAD_LEAD k)

/-- Page line that emitter i writes on scan n. -/
def State.emitLine (s : State) (k : Nat) (f : Feed) (n i : Nat) : Int := s.pageLine k f (s.lineB k n i / s.ilB k)

/-- The emitters that fire on scan n: enabled by the entry and not withheld; none under QUENCH (R89). -/
def State.firing (s : State) (k n : Nat) : List Nat :=
  if s.on (F.HL_STAT_QUENCH k) then []
  else (emitters (ilMask s.rd k (n % ilK s.rd k))).filter fun i => !bit (s.ilDead k) i

/-- The lowest page line that scans n to n + K - 1 write, if any: that of every scan from n on. -/
def State.lowLine (s : State) (k : Nat) (f : Feed) (n : Nat) : Option Int :=
  ((List.range (ilK s.rd k)).flatMap fun d =>
    (emitters (ilMask s.rd k ((n + d) % ilK s.rd k))).map fun i => s.emitLine k f (n + d) i).min?

/-- The last line of a feed has been written once no scan from n on writes a line of the page (R90). -/
def State.feedOver (s : State) (k : Nat) (f : Feed) (n : Nat) : Bool :=
  match s.lowLine k f n with
  | some p => decide ((f.height + f.trailer : Nat) ≤ p)
  | none => true

/-! ### Neighbour fill and the thermal cap (R100, R107) -/

/-- The emitters the active table assigns to a feed line. -/
def State.assigned (s : State) (k l : Nat) : List Nat :=
  (List.range (ilK s.rd k)).flatMap fun e => (emitters (ilMask s.rd k e)).filter fun i =>
    let at0 := s.rd (F.IL_ENTRY_BASE k e) + s.rd (F.IL_GEOM_A k) * i
    let adv := s.rd (F.IL_CYCLE_ADV k)
    decide (at0 ≤ s.ilB k * l) && (if adv = 0 then at0 == s.ilB k * l else (s.ilB k * l - at0) % adv == 0)

/-- A page line is lost: the emitter assigned to it is withheld. -/
def State.lineLost (s : State) (k : Nat) (f : Feed) (p : Int) : Bool :=
  let l := p + f.g + s.rd (F.IL_LEAD_LEAD k)
  decide (0 ≤ l) && (let a := s.assigned k l.toNat
    !a.isEmpty && a.all fun i => bit (s.ilDead k) i)

/-- Is a page line one of the page or of its trailer? -/
def Feed.holds (f : Feed) (p : Int) : Bool := decide (0 ≤ p) && decide (p < (f.height + f.trailer : Nat))

/-- The lost neighbours of a page line that is not lost itself. -/
def State.lostNeighbours (s : State) (k : Nat) (f : Feed) (p : Int) : List Int :=
  if s.on (F.IL_FILL_EN k) && !s.lineLost k f p then [p - 1, p + 1].filter fun d => f.holds d && s.lineLost k f d else []

/-- R100: the code of a pixel with Wd the width of the lost neighbours. -/
def fillCode (fill : Nat → Nat) (mix pstep code wd : Nat) : Nat :=
  let wn := bits code 4 6
  let j := if wn = 0 then 1 else bits code 2 2
  let p := code % 4 - pstep
  fill (min 63 (wn + wd * mix / 64)) * 16 + j * 4 + p

/-- The thermal cap: power step 0b00 is sent as 0b01 (R107). -/
def capCode (cap : Bool) (code : Nat) : Nat := if cap && code % 4 == 0 then code + 1 else code

/-- The laser power of a ZE-40 station, in power steps (Table 19.10). -/
def powerCode (step code : Nat) : Nat := if code % 4 < step then code - code % 4 + step else code

/-- The power step of a ZE-40 page at a station; 0 for every other page. -/
def State.zPower (s : State) (page k : Nat) : Nat := ((s.lg.subs.find? (·.id == page)).map fun z => z.power.getD k 0).getD 0

/-- The code an emitter sends for page line p at output pixel m (R125). -/
def State.sendCode (s : State) (k : Fin 6) (f : Feed) (lost : List Int) (p : Int) (m : Nat) : Nat :=
  let c := s.geoCode k f p m
  let c := if lost.isEmpty then c
    else fillCode (fun i => s.rd (F.IL_FILLTAB_W k.val i)) (s.rd (F.IL_FILL_MIX k.val)) (s.rd (F.IL_FILL_PSTEP k.val)) c
      ((lost.map fun d => bits (s.geoCode k f d m) 4 6).foldl max 0)
  powerCode (s.zPower f.page k) (capCode (s.on (F.IL_THERM_STAT_CAP k.val) && !(s.ilace k).capNext) c)

/-- The LINE_PX codes of the line an emitter writes; nothing from the pixel at which the line is cut on (R71), nor outside
page and trailer (R125). -/
def State.lineCodes (s : State) (k : Fin 6) (f : Feed) (p : Int) : List Nat :=
  let lost := s.lostNeighbours k.val f p
  (List.range (s.rd (F.BT_LINE_LINE_PX k.val))).map fun m =>
    if f.holds p && decide (m < (s.beam k).linePx) then s.sendCode k f lost p m else 0

/-! ### What a scan reads -/

/-- The page lines whose codes scan n needs: those of the firing emitters, and their lost neighbours. -/
def State.scanLines (s : State) (k : Nat) (f : Feed) (n : Nat) : List Int :=
  ((s.firing k n).map fun i => s.emitLine k f n i).flatMap fun p =>
    if f.holds p then p :: s.lostNeighbours k f p else []

/-- The source ring lines of a page line, over all zones (R124). -/
def State.ringNeeds (s : State) (k : Nat) (f : Feed) (p : Int) : List Nat :=
  ((List.range 64).filterMap fun z =>
    let q := p - s.doffs k z
    if 0 ≤ q ∧ q < f.height then
      let n := sourceLine (fmtOf s.rd k) q.toNat
      if n < f.lines then some n else none
    else none).eraseDups

/-- The ring lines of scan n. -/
def State.scanRing (s : State) (k : Nat) (f : Feed) (n : Nat) : List Nat :=
  ((s.scanLines k f n).flatMap fun p => s.ringNeeds k f p).eraseDups

/-- The table entries scan n reads. -/
def State.scanTables (s : State) (k : Fin 6) (f : Feed) (n : Nat) : List Nat :=
  (s.scanLines k.val f n).flatMap fun p => (List.range (s.beam k).linePx).flatMap fun m =>
    let q := s.sourceOf k.val p m
    (s.codeAt k f q.1 q.2.1).tables ++ (s.codeAt k f q.1 (q.2.1 + 1)).tables

end Sys2Proof.Machine
end

