-- ==== Sys2Proof/Machine/Scan.lean ====
section
/-!
DEFINITION. One scan of a station: the facet reference and the pixel time scale, the sets that become active, the line, the
packet to the head, and the lines the pipeline releases (R67–R92, R116–R128, R145–R151).
-/
namespace Sys2Proof.Machine

/-- A signed quotient rounded down; with divisor 0 the manual states none (log 1). -/
def iqdiv (a : Int) (b : Nat) : Int := if b = 0 then Config.divByZero a.natAbs else a / b

/-! ### The two time scales (R60, R61) -/

/-- A span of 1/256 ticks in 1/64 pixel: f = 25 MHz × (N + FRAC / 2^24) / POSTDIV. -/
def State.toPx (s : State) (k : Nat) (d : Int) : Int :=
  let p := Fin.ofNat 3 (s.pllOf k)
  iqdiv (d * (s.clocks.setN[p] * 2 ^ 24 + s.clocks.setFrac[p] : Nat)) (s.clocks.setDiv[p] * 2 ^ 28)

/-- A span of 1/64 pixels in 1/256 ticks. -/
def State.toTick (s : State) (k : Nat) (d : Int) : Int :=
  let p := Fin.ofNat 3 (s.pllOf k)
  iqdiv (d * (s.clocks.setDiv[p] * 2 ^ 28 : Nat)) (s.clocks.setN[p] * 2 ^ 24 + s.clocks.setFrac[p])

/-! ### The facet reference (R77) -/

def State.btGroup (s : State) (k : Nat) : Fin 2 := Fin.ofNat 2 (s.rd (F.BT_CFG_GROUP k))

def State.frefInc (s : State) (k : Nat) : Nat := s.rd (F.FREF_INC_INC (s.btGroup k).val)

def State.fref (s : State) (k : Nat) : Fref := s.sta.frefs[s.btGroup k]

/-- The wrap instant W(n), ticks. -/
def State.wrapAt (s : State) (k : Nat) (n : Int) : Int :=
  let q := s.fref k
  q.at_ - iqdiv (q.phase - n * 2 ^ 40) (s.frefInc k)

/-- (PH_OFFS + TRIM_NOW) mod 65,536. -/
def State.phOffs (s : State) (k : Nat) : Nat := (s.rd (F.BT_PHASE_PH_OFFS k) + s.rd (F.BT_STAT_TRIM_NOW k)) % 65536

/-- The reference instant t_ref(n), 1/256 tick. -/
def State.refAt (s : State) (k : Nat) (n : Int) : Int :=
  256 * s.wrapAt k n + iqdiv (s.phOffs k * 2 ^ 32 : Nat) (s.frefInc k)

/-- Number of the reference instant nearest a stamp (1/256 tick). -/
def State.scanNear (s : State) (k : Nat) (t : Int) : Int :=
  let q := s.fref k
  let phase : Int := q.phase + (t - 256 * q.at_) * s.frefInc k / 256 - s.phOffs k * 2 ^ 24
  (phase + 2 ^ 39) / 2 ^ 40

/-- err of R79: the stamp against t_ref(n), 1/65,536 facet, wrapped. -/
def State.phaseErr (s : State) (k : Nat) (t n : Int) : Int :=
  let e := ((t - 256 * s.wrapAt k n) * s.frefInc k + 2 ^ 31) / 2 ^ 32 - s.phOffs k
  (e + 32768) % 65536 - 32768

/-! ### The expected instant (R62) -/

/-- A stamp on both scales. -/
structure Stamp where
  t  : Int
  px : Int

/-- A mean interval between detects is known. -/
def State.hasPeriod (s : State) (k : Fin 6) : Bool := (s.beam k).begun && decide (2 ≤ (s.beam k).times.length)

/-- E of the scan to come: t_ref in LOCKED, else the last detect plus BT_PERIOD. -/
def State.expected (s : State) (k : Fin 6) : Stamp :=
  let b := s.beam k
  let t : Int := if s.btState k = btLocked then s.refAt k (b.scan + 1) else b.lastT + s.rd (F.BT_PERIOD_TICKS k.val)
  ⟨t, b.lastPx + s.toPx k (t - b.lastT)⟩

/-- The half-width of the acceptance window, 1/64 pixel. -/
def State.bdWin (s : State) (k : Nat) : Int := 64 * s.rd (F.BT_BD_WIN_PX k)

/-- An edge stamped inside the window has qualified by then (R61): the tick of the end, 1/256 tick. -/
def State.bdClose (s : State) (k : Fin 6) : Int := (s.expected k).t + s.toTick k (s.bdWin k + 64 * s.rd (F.BT_CFG_BD_MINW k.val))

/-! ### Link readiness (R151) -/

/-- The largest number of emitters one entry enables. -/
def State.maxFiring (s : State) (k : Nat) : Nat :=
  ((List.range (ilK s.rd k)).map fun e => (emitters (ilMask s.rd k e)).length).foldl max 0

/-- `need` with NL data lanes, in 1/1000 tick. -/
def State.linkNeed (s : State) (k nl : Nat) (slot : Bool) : Nat :=
  let frames := 3 + b2n (nl == 1) + cdiv (s.maxFiring k * s.rd (F.BT_LINE_LINE_PX k) * 10) (64 * nl)
  frames * 1375 + 100000 * ((if slot then s.rd (F.HL_TIMING_RSLOT k) + 8 else 0) + s.rd (F.HL_TIMING_MARGIN k))

/-- need ≤ T_scan. -/
def State.linkFits (s : State) (k nl : Nat) (slot : Bool) : Bool :=
  nl != 0 && decide (s.linkNeed k nl slot * s.frefInc k ≤ 1000 * 2 ^ 40)

/-- Physical lane of logical lane n: 15 for none. -/
def State.physLane (s : State) (k n : Nat) : Nat := bits (s.rd (F.HL_MAP_PHYS k)) (4 * n) 4

/-- HL_NEED reports the check of the map in force (log 64). -/
def State.needRegs (k : Nat) (s : State) : State :=
  let need := s.linkNeed k (s.rd (F.HL_STAT_NL k)) (s.on (F.HL_STAT_SLOT_MODE k))
  (s.wr (F.HL_NEED_NEED k) (min 65535 ((need + 999) / 1000))).wr (F.HL_NEED_TSCAN k) (min 65535 (qdiv (2 ^ 40) (s.frefInc k)))

/-- The map in force still serves: it fits the scan and every lane of it is healthy. -/
def State.mapGood (s : State) (k : Nat) : Bool :=
  let nl := s.rd (F.HL_STAT_NL k)
  s.linkFits k nl (s.on (F.HL_STAT_SLOT_MODE k)) &&
    (List.range nl).all fun n => bit (s.rd (F.HL_STAT_HEALTHY k)) (s.physLane k n)

/-- UP or NOT_READY as the check says. -/
def State.linkCheck (k : Fin 6) (s : State) : State :=
  let st := s.hlState k
  if st = hlUp ∨ st = hlNotReady then
    let s1 := s.needRegs k
    if s1.mapGood k then (s1.wr (H.STATE (hlPage k)) hlUp).ifDo (st == hlNotReady) (·.event (hlPage k) 0)
    else (s1.wr (H.STATE (hlPage k)) hlNotReady).ifDo (st == hlUp) (·.event (hlPage k) 7)
  else s

/-! ### Staged sets of a station (R84, R92, R126) -/

/-- The three pages, in the order of `Stations.binds`. -/
def bindPage (k : Nat) (i : Fin 3) : Nat := if i = 0 then btPage k else if i = 1 then ilPage k else imPage k

def State.bind (s : State) (k : Fin 6) (i : Fin 3) : Bind := (s.sta.binds[k])[i]

def State.modBind (k : Fin 6) (i : Fin 3) (f : Bind → Bind) (s : State) : State :=
  s.modSta fun q => { q with binds := q.binds.set k ((q.binds[k]).set i (f (q.binds[k])[i])) }

/-- ZONE[z].P of all zones (R75). -/
def State.zonePlaces (k : Nat) (s : State) : State :=
  let m := s.rdS (F.BT_MAG_PPM k)
  s.each (List.range 64) fun z t =>
    let p := zonePlace (t.rd (F.BT_LINE_LINE_PX k)) (t.rd (F.BT_LINE_ZONE_W k)) m (t.rdS (F.ZONE_SHIFT k z)) z
    (t.wrS (F.ZONE_P k z) (clampInt (-8192) 8191 p)).ifDo (decide (8191 < p) || decide (p < -8192)) (·.event (btPage k) 8)

/-- A bound set becomes active (R75, R84, R101, R126, R151). -/
def State.bindApply (k : Fin 6) (i : Fin 3) (s : State) : State :=
  let p := bindPage k i
  if s.staged p && !s.on (H.ISOLATED p) then
    let t := (s.applyStaged p).modBind k i fun _ => ⟨0, none⟩
    match i with
    | 0 => (t.zonePlaces k).event p 10
    | 1 => (((t.event p 6).wr (F.IL_REPLAN_REQ k.val) 0).wr (F.IL_REPLAN_REASON k.val) 0).linkCheck k
    | 2 => (t.event p 0).modLink k fun q => { q with badTable := false }
  else s

/-- Sets bound to the page whose first scan this is, or, at an idle station, any pending set. -/
def State.activateSets (k : Fin 6) (first : Option Nat) (s : State) : State :=
  s.each (List.finRange 3) fun (i : Fin 3) t =>
    t.ifDo ((first.isSome && (t.bind k i).slot == first) || (s.feedsOf k).isEmpty) (·.bindApply k i)

/-! ### Packets (R145–R147) -/

/-- A control block as a 64-bit word: type, six bytes, CRC-8 (Table 6.2). -/
def ctlBlock (type : Nat) (l : List Nat) : Nat := leNat (type :: l ++ [crc8 l])

/-- Codes as one bit stream, ten bits each (R146). -/
def codeStream : List Nat → Nat
  | [] => 0
  | c :: r => c % 1024 + 1024 * codeStream r

/-- Payload words in frames of `nl` lanes, the last padded with zeros. -/
def payloadFrames (nl stream : Nat) : Nat → Nat → List (List Nat)
  | 0, _ => []
  | n + 1, w => ((List.range nl).map fun l => stream / 2 ^ (64 * (w + l)) % 2 ^ 64) :: payloadFrames nl stream n (w + nl)

/-- The frames of a scan packet: scan number, facet, LINE_PX, emitter mask and the codes of its emitters in order. -/
def scanPacket (nl scanNo facet linePx mask : Nat) (codes : List Nat) : List (List Nat) :=
  let head := if nl = 1 then [[mask], [linePx]]
    else [(List.range nl).map fun l => if l = 0 then mask else if l = 1 then linePx else 0]
  let words := (10 * codes.length + 63) / 64
  let data := head ++ payloadFrames nl (codeStream codes) ((words + nl - 1) / nl) 0
  let start := (List.range nl).map fun l => ctlBlock 0x78 ([l] ++ leBytes scanNo 3 ++ [facet % 16, nl])
  let end_ := (List.range nl).map fun l =>
    ctlBlock 0xE1 (leBytes (crc32c (data.flatMap fun fr => leBytes (fr.getD l 0) 8)) 4 ++ [l, 0])
  [start] ++ data ++ [end_]

/-! ### The feed of a scan (R89, R90) -/

/-- The feed a scan belongs to. -/
def State.feedNow (s : State) (k : Fin 6) : Option Feed :=
  match s.feedsOf k with
  | f :: _ => if f.s0 ≤ (s.beam k).scan then some f else none
  | [] => none

/-- The page of a feed is COMMITTED: exposed, and not LOST. -/
def State.feedLive (s : State) (f : Feed) : Bool :=
  match s.tl.slots[Fin.ofNat 16 f.slot] with
  | some sl => sl.page == f.page && s.rd (F.PT_SLOT_STATE (f.slot % 16)) == 2
  | none => false

/-- Change the slot of a feed while it is still the page's. -/
def State.modFeedSlot (f : Feed) (g : Slot → Slot) (s : State) : State :=
  s.modSlot (Fin.ofNat 16 f.slot) fun sl => if sl.page = f.page then g sl else sl

/-- IM_RING_STAT follows the ring. -/
def State.ringRegs (k : Fin 6) (s : State) : State :=
  let r := s.ring k
  (s.wr (F.IM_RING_STAT_FILL k.val) (r.pub - r.rel)).wr (F.IM_RING_STAT_STRIDE k.val) r.stride

/-- Scan 0 of a feed: the exposure begins at the station (R83, R90, R107, R126). -/
def State.feedStart (k : Fin 6) (f : Feed) (s : State) : State :=
  let s1 := (s.modFeeds k fun l => l.map fun g => if g.slot = f.slot then { g with started := true } else g).modFeedSlot f
    fun sl => { sl with begun := sl.begun ||| 2 ^ k.val }
  let s2 := ((s1.wr (F.IM_PAGE_HEIGHT k.val) f.height).wr (F.IM_PAGE_W_WIDTH k.val) f.width).flag
    (F.IM_PAGE_W_TRAILER k.val) (f.trailer != 0)
  let s3 := s2.codecRegs.ifDo (s2.rd (H.STATE (ilPage k)) != ilQuenched) (·.wr (H.STATE (ilPage k)) ilExposing)
  let s4 := s3.ifDo ((s3.ilace k).coolPage == some f.page) fun t =>
    (t.wr (F.IL_THERM_STAT_CAP k.val) 0).modIlace k fun q => { q with cool := false, coolPage := none }
  let s5 := s4.modLink k fun q => { q with spans := (⟨f.slot, f.page, s4.rd (F.BT_SCAN_COUNT k.val), none⟩ :: q.spans).take 4 }
  s5.ifDo (s5.feedLive f && s5.on (F.BT_STAT_SLEWING k.val)) (·.event (btPage k) 9)

/-- The feed is over: the exposure has finished at the station (R90). -/
def State.feedDone (k : Fin 6) (f : Feed) (s : State) : State :=
  let s1 := (s.modFeeds k fun l => l.filter (·.slot != f.slot)).modFeedSlot f fun sl => { sl with finished := sl.finished ||| 2 ^ k.val }
  let s1 := s1.modLink k fun q => { q with spans := q.spans.map fun (x : Span) =>
    if x.page = f.page ∧ x.last = none then { x with last := some (s1.rd (F.BT_SCAN_COUNT k.val)) } else x }
  let s2 := s1.modIlace k fun q => { q with lastLine := s1.time, waitGap := false }
  let s3 := s2.ifDo (s2.rd (H.STATE (ilPage k)) == ilExposing) (·.wr (H.STATE (ilPage k)) ilIdle)
  s3.codecRegs

/-- After a scan: lines below the lowest need of the scans to come are released (R116), and a feed whose last line has been
written ends. -/
def State.scanEnd (k : Fin 6) (f : Feed) (n : Nat) (s : State) : State :=
  let dmax := (List.range 64).foldl (fun (m : Int) z => max m (s.doffs k z)) (s.doffs k 0)
  let low := match s.lowLine k f (n + 1) with
    | some p => if f.height ≤ p - dmax then f.lines else sourceLine (fmtOf s.rd k) (p - dmax).toNat
    | none => f.lines
  let ended := s.feedOver k f (n + 1)
  let s1 := s.ifDo ((s.ring k).page == some f.page) fun t =>
    (t.modRing k fun r => { r with rel := max r.rel (if ended then r.lines else min r.lines low) }).ringRegs k
  s1.ifDo ended (·.feedDone k f)

/-! ### Sending a scan (R118, R128, R145) -/

/-- Every ring line of the scan has been published. -/
def State.scanReady (s : State) (k : Fin 6) (f : Feed) (n : Nat) : Bool :=
  (s.scanRing k f n).all fun l => (s.ring k).page == some f.page && decide (l < (s.ring k).pub)

/-- What the scan's reads do: their corrections and raises; an unreadable line or table entry loses the page, and a table
stays invalid (R128). -/
def State.scanReads (k : Fin 6) (f : Feed) (n : Nat) (s : State) : State :=
  let words := fun a len => (List.range ((a % 8 + len + 7) / 8)).map fun w => a / 8 * 8 + 8 * w
  let lines := s.scanRing k f n
  let len := lineBytesOf (fmtOf s.rd k) f.width
  let tables := s.scanTables k f n
  let ringBad := (lines.filter fun l => (s.memBytes (s.ringAddr k l) len (.pipeline k)).1.isNone).length
  let tableBad := (tables.filter fun a => (s.peek k a 2).isNone).length
  let s1 := s.each ((lines.flatMap fun l => words (s.ringAddr k l) len) ++ tables.map fun a => a / 8 * 8) fun a t =>
    (t.memWord a (.pipeline k)).2
  let s2 := s1.satAdd (F.IM_CNT_UNCORR k.val) (ringBad + tableBad)
  let s3 := s2.ifDo (ringBad != 0) fun t => (t.event (imPage k) 2).raiseWith (64 + k.val) (imPage k) 0 0 (some (.pipe, k.val))
  let s4 := s3.ifDo (tableBad != 0) fun t =>
    ((t.event (imPage k) 3).raiseWith (64 + k.val) (imPage k) 1 0 (some (.pipe, k.val))).modLink k fun q => { q with badTable := true }
  s4.ifDo (ringBad + tableBad != 0 && s4.feedLive f) (·.pageLost (Fin.ofNat 16 f.slot) lcDecode)

/-- The packet of scan n goes to the head. -/
def State.packet (k : Fin 6) (f : Feed) (n : Nat) (s : State) : State :=
  let nl := s.rd (F.HL_STAT_NL k.val)
  let no := s.rd (F.BT_SCAN_COUNT k.val) % 2 ^ 24
  if nl = 0 then s
  else
    let fire := s.firing k n
    let codes := fire.flatMap fun i => s.lineCodes k f (s.emitLine k f n i)
    let mask := fire.foldl (fun m i => m + 2 ^ i) 0
    (s.emit (.headPacket k (scanPacket nl no (s.rd (F.BT_STAT_FACET k.val)) (s.rd (F.BT_LINE_LINE_PX k.val)) mask codes))).wr
      (F.HL_SCAN_SENT k.val) no

/-- Read and send scan n, whose lines are all in the ring. -/
def State.scanSend (k : Fin 6) (f : Feed) (n : Nat) (s : State) : State :=
  let s1 := (s.modLink k fun q => { q with waiting := none }).scanReads k f n
  s1.ifDo (s1.feedLive f && (s1.beam k).strobe) (·.packet k f n)

/-- A strobed scan: sent at once, or waiting for its lines (R118). -/
def State.scanIssue (k : Fin 6) (f : Feed) (n : Nat) (s : State) : State :=
  if s.scanReady k f n then (s.scanSend k f n).scanEnd k f n
  else ((s.sat (F.IM_CNT_RING_WAIT k.val)).event (imPage k) 1).modLink k fun q => { q with waiting := some (s.beam k).scan }

/-- Lines have been published: a waiting scan whose lines are complete is sent. -/
def State.scanResume (k : Fin 6) (s : State) : State :=
  match (s.link k).waiting, s.feedNow k with
  | some m, some f =>
    if m = (s.beam k).scan ∧ f.s0 ≤ m ∧ s.scanReady k f (m - f.s0) = true then
      (s.scanSend k f (m - f.s0)).scanEnd k f (m - f.s0)
    else s
  | _, _ => s

/-! ### The scan itself -/

/-- O[f] (R66). -/
def State.facetOffs (s : State) (k f : Nat) : Int := 64 * s.rdS (F.FACET_OFFS_COARSE k f) + s.rd (F.FACET_OFFS_FINE k f)

/-- An index source is named (Table 3.2). -/
def State.hasIndex (s : State) (k : Nat) : Bool := s.rd (F.BT_CFG_IDX_KIND k) == 1 || s.rd (F.BT_CFG_IDX_KIND k) == 2

/-- The facet whose offset the scan takes (R65). -/
def State.offsFacet (s : State) (k : Nat) : Nat := if s.hasIndex k then s.rd (F.BT_STAT_FACET k) else 0

/-- FACETS: other values than 4–12 read back as 8. -/
def State.facets (s : State) (k : Nat) : Nat := let v := s.rd (F.BT_CFG_FACETS k); if 4 ≤ v ∧ v ≤ 12 then v else 8

/-- TRIM_NOW moves towards its target, in a scan that exposes no committed page (R83). -/
def State.trimSlew (k : Nat) (exposing : Bool) (s : State) : State :=
  let now := s.rdS (F.BT_STAT_TRIM_NOW k)
  let goal := s.rdS (F.BT_PHASE_PH_TRIM k)
  let step : Int := s.rd (F.BT_PHLOOP_PH_SLEW k)
  let next := if exposing then now else now + clampInt (-step) step (goal - now)
  (s.wrS (F.BT_STAT_TRIM_NOW k) next).flag (F.BT_STAT_SLEWING k) (next != goal)

/-- The pixels of a line that starts at `tls`, before the run-on would reach the next acceptance window (R71). -/
def State.lineRoom (s : State) (k : Fin 6) (tls : Int) : Nat :=
  let open_ := (s.expected k).px - s.bdWin k
  min (s.rd (F.BT_LINE_LINE_PX k.val)) ((open_ - tls - 1) / 64 - 64).toNat

/-- A scan with its beam-detect stamp, accepted or synthesised: sets, line, strobe, codes, release, slew. -/
def State.scanStep (k : Fin 6) (s : State) : State :=
  let s0 := match (s.link k).waiting, s.sta.feeds[k] with
    | some m, f :: _ => (s.modLink k fun q => { q with waiting := none }).scanEnd k f (m - f.s0)
    | _, _ => s
  let s0 := s0.ifDo ((s0.ilace k).release && s0.cutOver k) (·.cutEnd k)
  let feed := s0.feedNow k
  let first := match feed with | some f => if f.started then none else some f.slot | none => none
  let s1 := ((s0.inc (F.BT_SCAN_COUNT k.val)).activateSets k first)
  let s2 := match feed with | some f => if f.started then s1 else s1.feedStart k f | none => s1
  let live := match feed with | some f => s2.feedLive f | none => false
  let tls : Int := (s2.beam k).lastPx + (s2.rd (F.BT_LS_DELAY_DELAY k.val) : Int) + s2.facetOffs k (s2.offsFacet k)
  let strobe := live && !s2.on (F.HL_STAT_QUENCH k.val)
  let room := s2.lineRoom k tls
  let s3 := (s2.modBeam k fun b => { b with lineT := some tls, linePx := room, strobe := strobe }).modIlace k fun q =>
    { q with capNext := false }
  let s4 := s3.ifDo (strobe && decide (room < s3.rd (F.BT_LINE_LINE_PX k.val))) fun t =>
    (t.event (btPage k) 7).raise (40 + 2 * k.val) (btPage k) 3
  let s5 := match feed with
    | some f =>
      let n := (s4.beam k).scan - f.s0
      if strobe then s4.scanIssue k f n else s4.scanEnd k f n
    | none => s4
  s5.trimSlew k live

end Sys2Proof.Machine
end

