-- ==== Sys2Proof/Machine/Codec.lean ====
section
/-! DEFINITION. The commands of the band-stream codec (07). -/
namespace Sys2Proof.Machine

/-! ### Reading a stored stream -/

/-- The separation a context serves. -/
def State.sepAt (s : State) (id k : Nat) : Option (Page × Sep) :=
  match s.page? id with
  | some p => (p.seps.find? fun q => q.station == k).map fun q => (p, q)
  | none => none

/-- Words of a stream from an aligned offset on; none if any is uncorrectable. -/
def State.streamWords (q : Sep) (o : Nat) (m : Master) : Nat → State → Option (List Nat) × State
  | 0, s => (some [], s)
  | n + 1, s =>
    match s.memWord (q.addr o) m with
    | (none, t) => (none, t)
    | (some v, t) =>
      match State.streamWords q (o + 8) m n t with
      | (none, u) => (none, u)
      | (some l, u) => (some (leBytes v 8 ++ l), u)

/-- Bytes of a stream at any offset. -/
def State.streamBytes (q : Sep) (o n : Nat) (m : Master) (s : State) : Option (List Nat) × State :=
  match s.streamWords q (o / 8 * 8) m ((o % 8 + n + 7) / 8) with
  | (some l, t) => (some ((l.drop (o % 8)).take n), t)
  | (none, t) => (none, t)

/-- The span lies inside the stored stream. -/
def Sep.covers (q : Sep) (o n : Nat) : Bool := decide (o + n ≤ q.streamLen.getD 0)

/-- A word of the span is poisoned (kind POISON); kind BOTH_UE takes its separations in the read itself (R42, R203, R214). -/
def State.poisoned (s : State) (q : Sep) (o n : Nat) : Bool :=
  !s.mirrored && (List.range ((o % 8 + n + 7) / 8)).any fun i =>
    match slotAddr (q.addr (o / 8 * 8 + 8 * i)) with
    | some (c, off) => s.chanWord c off == .bad 8
    | none => false

/-! ### Residency (R178, R276) -/

/-- The stream header's conditions of R178. -/
def State.streamOk (s : State) (p : Page) (h : StreamHeader) : Bool :=
  h.alpha == p.alpha && h.lineBytes == p.lineBytes && h.lines == p.lines &&
    decide (h.lineBytes * h.lines ≤ s.rd F.CDC_LIMIT_OUT_LIMIT)

/-- Every separation of the page's stations is stored. -/
def State.allStored (s : State) (p : Page) : Bool :=
  (List.range 6).all fun k => !bit (s.jobStations p.job) k || p.seps.any fun q => q.station == k && q.stored

/-- The page's last separation has been stored: RESIDENT, or RELEASED where it waits in the queue (Table 2.1). -/
def State.becomeResident (id : Nat) (s : State) : State :=
  match s.page? id with
  | some p =>
    if s.allStored p then
      ((s.pageTo id (if p.released then .released else .resident)).modPage id fun q => { q with storedAt := some s.time }).postEvent 0x0004 p.job [(28, leBytes id 4)]
    else s
  | none => s

/-- The separation counts as written. -/
def State.sepStored (p : Page) (q : Sep) (s : State) : State :=
  let s1 := (s.modPage p.id fun r => { r with seps := r.seps.map fun x => if x.station = q.station then { x with stored := true } else x }).inc
    F.RS_SEPS_COUNT
  (s1.postEvent 0x0002 p.job [(28, leBytes p.id 4), (32, [q.station]), (36, leBytes (q.streamLen.getD 0) 4)]).becomeResident p.id

/-- A separation whose bytes are all in the store is checked by its stream header and first block header (R178). -/
def execSeparationWritten (pageId : Nat) (station : Fin 6) (lane : Fin 8) (s : State) : Result :=
  match s.sepAt pageId station with
  | none => .next s
  | some (p, q) =>
    if p.st ≠ .defined ∨ q.stored ∨ q.complete = false then .next s
    else
      let m : Master := .lane (Fin.ofNat 10 lane.val)
      match s.streamBytes q 0 24 m with
      | (none, t) => .next (t.refuseSep pageId station 4 0 0 0)
      | (some b, t) =>
        let good := match parseStream (b.take 16), parseBlock (b.drop 16) with
          | some h, some _ => t.streamOk p h && q.covers 0 24
          | _, _ => false
        .next (if good then t.sepStored p q
          else (((t.sat F.CDC_CNT_A_HDR_REFUSED).event 0x048 0).raise 90 0x048 0).refuseSep pageId station 1 0 0 0)

/-! ### Priming (R31, R117, R179) -/

/-- A field as the set bound to a page that commits next has it: the staged copy where a set waits, committed before `now`. -/
def State.boundRd (s : State) (k : Fin 6) (i : Fin 3) (now : Nat) (f : Fld) : Nat :=
  if s.staged (bindPage k i) && decide ((s.bind k i).at_ < now) then s.stgRd f else s.rd f

/-- IM_WINDOW.NEED of R117 over a set of readings. -/
def ringNeed (a b k adv span : Nat) (dmin dmax : Int) (ratio : Nat × Nat) : Nat :=
  let out := cdiv (a * span) b + cdiv adv (k * b) + (dmax - dmin).toNat + 1
  cdiv (out * ratio.1) ratio.2 + 2 + 16

/-- NEED with the interlace and imaging sets bound to the page. -/
def State.needLines (s : State) (k : Fin 6) (now : Nat) : Nat :=
  let il := s.boundRd k 1 now
  let im := s.boundRd k 2 now
  let es := (List.range (ilK il k.val)).flatMap fun e => emitters (ilMask il k.val e)
  let ds := (List.range 64).map fun z => toSigned 8 (im (F.IM_DOFFS_D k.val (z / 4) (z % 4)))
  ringNeed (s.rd (F.IL_GEOM_A k.val)) (s.ilB k.val) (ilK il k.val) (il (F.IL_CYCLE_ADV k.val)) (es.foldl max 0 - es.min?.getD 0)
    (ds.min?.getD 0) (ds.max?.getD 0) (ratioOf (fmtOf im k.val))

/-- The ring holds at least NEED lines. -/
def State.ringBig (s : State) (k : Fin 6) (now : Nat) : Bool := decide (s.needLines k now ≤ s.rd (F.IM_RING_LINES k.val))

def State.ctxsOf (s : State) (k : Nat) : List (Fin 24) :=
  (List.finRange 24).filter fun (x : Fin 24) => s.on (F.CTX_OPEN x) && s.rd (F.CTX_STATION x) == k

/-- A lane that may take work. -/
def State.laneOpen (s : State) (n : Nat) : Bool :=
  s.rd (F.DL_STAT_CTX n) == 0x1F && !s.on (H.ISOLATED (lanePage n)) && !s.on (H.ISOLATED 0x048) &&
    !s.fc.assays.any fun a => a.running && a.kind == .codec && a.unit == n

/-- A free lane fetches the first block header of a fed page's separation, and its context opens (R117, R179). -/
def execFirstHeaderFetch (pageId : Nat) (station : Fin 6) (lane : Fin 8) (s : State) : Result :=
  match s.sepAt pageId station, (List.finRange 24).find? fun (x : Fin 24) => !s.on (F.CTX_OPEN x) with
  | some (p, q), some x =>
    let mine := s.ctxsOf station
    if p.st ≠ .fed ∨ q.stored = false ∨ s.laneOpen lane = false ∨ 4 ≤ mine.length ∨
        (mine.any fun y => s.rd (F.CTX_PAGE_ID y) == pageId) = true then .next s
    else
      let s1 := s.wr (F.IM_WINDOW_NEED station.val) (s.needLines station s.time)
      if !s1.ringBig station s.time then
        .next ((s1.event (imPage station) 4).raiseWith (64 + station.val) (imPage station) 2 0 (some (.pipe, station.val)))
      else
        match s1.streamBytes q 16 8 (.lane (Fin.ofNat 10 lane.val)) with
        | (none, t) => .next (if s1.poisoned q 16 8 then t.sepLost pageId else t)
        | (some _, t) =>
          let t1 := ((((t.wr (F.CTX_PAGE_ID x) pageId).wr (F.CTX_STATION x) station.val).wr (F.CTX_OPEN x) 1).wr (F.CTX_LANE x) 0xF).wr
            (F.CTX_BLOCKS x) 0
          .next ((t1.modCtx x fun _ => { Ctx.reset with off := 16 }).codecRegs)
  | _, _ => .next s

/-! ### Decoding (R115, R180–R182) -/

def State.ctx (s : State) (x : Fin 24) : Ctx := s.sta.ctxs[x]

def State.ctxStation (s : State) (x : Fin 24) : Fin 6 := Fin.ofNat 6 (s.rd (F.CTX_STATION x))

/-- The context may begin its page in the ring: the page before it has been released, and no earlier one waits (R180). -/
def State.mayBegin (s : State) (x : Fin 24) : Bool :=
  let k := s.ctxStation x
  decide ((s.ring k).lines ≤ (s.ring k).rel) && !(s.ctxsOf k).any fun y =>
    !(s.ctx y).started && decide ((s.ctx y).order.getD (s.sta.commits + 1) < (s.ctx x).order.getD 0)

/-- Published and unreleased lines of the context's page. -/
def State.ringFill (s : State) (x : Fin 24) : Nat :=
  if (s.ctx x).started then (s.ring (s.ctxStation x)).pub - (s.ring (s.ctxStation x)).rel else 0

/-- Room for `n` strides. -/
def State.ringRoom (s : State) (x : Fin 24) (n : Nat) : Bool :=
  decide (s.ringFill x + n ≤ s.rd (F.IM_RING_LINES (s.ctxStation x).val))

/-- Decoded bytes of the context's next block, from its header. -/
def State.nextIn (s : State) (x : Fin 24) : Nat :=
  match s.sepAt (s.rd (F.CTX_PAGE_ID x)) (s.ctxStation x) with
  | some (_, q) =>
    match (s.streamBytes q (s.ctx x).off 8 (.lane 0)).1 with
    | some b => ((parseBlock b).map (·.inBytes)).getD 0
    | none => 0
  | none => 0

/-- R180. -/
def State.eligible (s : State) (x : Fin 24) : Bool :=
  let lb := match s.sepAt (s.rd (F.CTX_PAGE_ID x)) (s.ctxStation x) with | some (p, _) => p.lineBytes | none => 0
  s.on (F.CTX_OPEN x) && (s.ctx x).order.isSome && !(s.ctx x).zero && s.rd (F.CTX_LANE x) == 0xF &&
    s.ringRoom x ((if lb = 0 then 0 else (s.nextIn x + lb - 1) / lb) + 1) && ((s.ctx x).started || s.mayBegin x)

/-- The context a free lane takes: fewest published lines, then station, then the earlier commit (R180). -/
def State.nextCtx (s : State) : Option (Fin 24) :=
  let key := fun (x : Fin 24) => (s.ringFill x, (s.ctxStation x).val, (s.ctx x).order.getD 0)
  let less := fun (a b : Nat × Nat × Nat) => a.1 < b.1 || (a.1 == b.1 && (a.2.1 < b.2.1 || (a.2.1 == b.2.1 && a.2.2 < b.2.2)))
  ((List.finRange 24).filter s.eligible).foldl (fun b x =>
    match b with
    | none => some x
    | some y => if less (key x) (key y) then some x else some y) none

/-- The ring is given to a page (R115). -/
def State.ringBegin (x : Fin 24) (id lines lineBytes : Nat) (s : State) : State :=
  let k := s.ctxStation x
  ((s.modRing k fun _ => ⟨some id, lines, 0, 0, (lineBytes + 63) / 64 * 64⟩).modCtx x fun c => { c with started := true }).ringRegs k

/-- A decode job fails: the error is recorded and raised, and its page is LOST with cause DECODE (R182). -/
def State.jobFail (lane : Fin 8) (x : Fin 24) (code offs : Nat) (gone : Bool) (s : State) : State :=
  let id := s.rd (F.CTX_PAGE_ID x)
  let n := lane.val
  let s1 := ((s.wr (F.DL_ERR_CODE n) code).wr (F.DL_ERR_OFFS_OFFS n) offs).sat F.CDC_CNT_A_STREAM_ERR
  let s2 := (s1.ctxIdle x).event (lanePage n) 1
  let s3 := match s2.slotOf id with
    | some i => s2.pageLost i lcDecode
    | none => s2
  let s4 := s3.ifDo (s3.on (F.CTX_OPEN x)) (·.modCtx x fun c => { c with zero := true })
  let s5 := s4.raiseWith (80 + n) (lanePage n) (if code = 8 then 1 else 0) 0 (some (.codec, n))
  (s5.ifDo gone (·.sepLost id)).codecRegs

/-- A free lane takes the next block; at the start of a job it checks the stream header again (R180, R182). -/
def execDecodeBlockStart (lane : Fin 8) (s : State) : Result :=
  if s.laneOpen lane = false then .next s
  else
    match s.nextCtx with
    | none => .next s
    | some x =>
      let id := s.rd (F.CTX_PAGE_ID x)
      match s.sepAt id (s.ctxStation x) with
      | none => .next s
      | some (p, q) =>
        let n := lane.val
        let s1 := ((s.wr (F.CTX_LANE x) n).wr (F.DL_STAT_CTX n) x.val).wr (H.STATE (lanePage n)) 1
        let s2 := (s1.ifDo (s1.ctx x).again fun t =>
          ((t.sat (F.DL_CNT_RESTARTS n)).event (lanePage n) 2).modCtx x fun c => { c with again := false }).codecRegs
        if (s.ctx x).started then .next s2
        else
          let s3 := s2.ringBegin x id p.lines p.lineBytes
          match s3.streamBytes q 0 16 (.lane (Fin.ofNat 10 n)) with
          | (none, t) => .next (t.jobFail lane x 8 0 (s3.poisoned q 0 16))
          | (some b, t) =>
            .next (match parseStream b with
              | some h => if t.streamOk p h then t else t.jobFail lane x 1 0 false
              | none => t.jobFail lane x 1 0 false)

/-- Seal the ring pages whose last byte lies in a line from `a` to `b - 1` (R199). -/
def State.ringSeal (k : Fin 6) (a b : Nat) (s : State) : State :=
  let r := s.ring k
  let size := s.rd (F.IM_RING_LINES k.val) * r.stride
  let base := (sbBase k.val + s.rd (F.IM_RING_BASE k.val) * 0x10000) / 4096
  let hit := fun j => (List.range (b - a)).any fun i =>
    let l := s.rd (F.IM_RING_LINES k.val)
    (if l = 0 then a + i else (a + i) % l) == (if r.stride = 0 then 0 else (4096 * j + 4095) / r.stride)
  s.ifDo (s.on F.CS_CFG_SEAL_RING) fun t =>
    t.each ((List.range (size / 4096)).filter fun j => hit j && !s.mu.noSeal.contains (base + j)) fun j u => u.sealPage (base + j)

/-- Write decoded bytes at a position of the page's output, line by line (R115). -/
def State.ringWrite (k : Fin 6) (lb : Nat) : Nat → Nat → List Nat → State → State
  | 0, _, _, s => s
  | n + 1, pos, l, s =>
    if l.isEmpty || lb = 0 then s
    else
      let room := lb - pos % lb
      State.ringWrite k lb n (pos + room) (l.drop room) (s.bankPuts (s.ringAddr k (pos / lb) + pos % lb) (l.take room))

/-- Publish lines up to `b` (R115). -/
def State.publish (k : Fin 6) (b : Nat) (s : State) : State :=
  let a := (s.ring k).pub
  (((s.ringSeal k a b).modRing k fun r => { r with pub := max r.pub b }).ringRegs k).scanResume k

/-- Further bytes into a CRC-32C register. -/
def crcOver (c : Nat) (l : List Nat) : Nat := l.foldl (fun c b => crcBits 0x82F63B78 8 (c ^^^ (b % 256))) c

/-- The checks of a block before its body is decoded: 1, 4, 5, 6 of Table 7.7. -/
def headError (alpha : Bool) (h : BlockHeader) (done total : Nat) : Nat :=
  if h.bad then 1
  else if alpha && h.inBytes % 2 == 1 then 4
  else if total < done + h.inBytes then 5
  else if h.last != (done + h.inBytes == total) then 6
  else 0

/-- The block's lines are in the ring; a last block is followed by the trailer and the end of the job (R181). -/
def State.blockDone (lane : Fin 8) (x : Fin 24) (q : Sep) (lb : Nat) (h : BlockHeader) (out : List Nat) (s : State) : State :=
  let k := s.ctxStation x
  let c := s.ctx x
  let n := lane.val
  let offs := c.off
  let s1 := (s.ringWrite k lb (out.length + 1) c.done out).modCtx x fun c =>
    { c with off := c.off + 8 + h.bodyLen, done := c.done + h.inBytes, ocrc := crcOver c.ocrc out }
  let s2 := ((s1.inc F.CDC_CNT_B_BLOCKS).inc (F.CTX_BLOCKS x)).sat (F.DL_CNT_BLOCKS n)
  let s3 := ((s2.ctxIdle x).publish k ((s2.ctx x).done / lb)).codecRegs
  if h.last && (s3.on (F.CTX_OPEN x) && !(s3.ctx x).zero) then
    let e := (s3.ctx x).off
    if !q.covers e 8 then s3.jobFail lane x 7 offs false
    else
      match s3.streamBytes q e 8 (.lane (Fin.ofNat 10 n)) with
      | (none, t) => t.jobFail lane x 8 offs (s3.poisoned q e 8)
      | (some b, t) =>
        if leNat (b.take 2) = 0x4E45 ∧ leNat (b.drop 4) = (t.ctx x).ocrc ^^^ 0xFFFFFFFF then
          ((t.ctxClose x).codecRegs).event (lanePage n) 0
        else t.jobFail lane x 7 offs false
  else s3

/-- A lane finishes its block (R169–R173, R181, R182). -/
def execDecodeBlockDone (lane : Fin 8) (s : State) : Result :=
  let n := lane.val
  let c := s.rd (F.DL_STAT_CTX n)
  if h24 : c < 24 then
    let x : Fin 24 := ⟨c, h24⟩
    match s.sepAt (s.rd (F.CTX_PAGE_ID x)) (s.ctxStation x) with
    | none => .next s
    | some (p, q) =>
      let m : Master := .lane (Fin.ofNat 10 n)
      let off := (s.ctx x).off
      if !q.covers off 8 then .next (s.jobFail lane x 1 off false)
      else
        match s.streamBytes q off 8 m with
        | (none, t) => .next (t.jobFail lane x 8 off (s.poisoned q off 8))
        | (some b, t) =>
          match parseBlock b with
          | none => .next (t.jobFail lane x 1 off false)
          | some h =>
            let e := headError p.alpha h (t.ctx x).done (p.lineBytes * p.lines)
            if e ≠ 0 then .next (t.jobFail lane x e off false)
            else if !q.covers (off + 8) h.bodyLen then .next (t.jobFail lane x 3 off false)
            else
              match t.streamBytes q (off + 8) h.bodyLen m with
              | (none, u) => .next (u.jobFail lane x 8 off (t.poisoned q (off + 8) h.bodyLen))
              | (some body, u) =>
                match decodeBlock p.alpha h body with
                | .inl code => .next (u.jobFail lane x code off false)
                | .inr out => .next (u.blockDone lane x q p.lineBytes h out)
  else .next s

/-- Close a context that has nothing more to write. -/
def State.ctxEnd (x : Fin 24) (s : State) : State := (s.ctxClose x).codecRegs

/-- A context of a LOST page writes its next remaining line as zero bytes, as the ring has room (R181). -/
def execZeroFillLine (ctx : Fin 24) (s : State) : Result :=
  let x := ctx
  let k := s.ctxStation x
  let id := s.rd (F.CTX_PAGE_ID x)
  if !s.on (F.CTX_OPEN x) || !(s.ctx x).zero then .next s
  else
    let shape := match s.page? id, (s.feedsOf k).find? fun f => f.page == id with
      | some p, _ => some (p.lines, p.lineBytes)
      | none, some f => some (f.lines, lineBytesOf f.fmt f.width)
      | none, none => none
    match shape with
    | none => .next (s.ctxEnd x)
    | some (lines, lb) =>
      if (s.ctx x).started && (s.ring k).page != some id then .next (s.ctxEnd x)
      else if !(s.ctx x).started && !s.mayBegin x then .next s
      else
        let s1 := s.ifDo (!(s.ctx x).started) (·.ringBegin x id lines lb)
        let r := s1.ring k
        if r.lines ≤ r.pub then .next (s1.ctxEnd x)
        else if !s1.ringRoom x 1 then .next s1
        else
          let s2 := (s1.bankPuts (s1.ringAddr k r.pub) (List.replicate lb 0)).publish k (r.pub + 1)
          .next (if (s2.ring k).lines ≤ (s2.ring k).pub then s2.ctxEnd x else s2)

/-! ### Encode jobs (R183–R187) -/

def State.ejSrc (s : State) (j : Nat) : Nat := s.rd (F.EJ_SRC_HI j) * 2 ^ 32 + s.rd (F.EJ_SRC_LO j)
def State.ejDst (s : State) (j : Nat) : Nat := s.rd (F.EJ_DST_HI j) * 2 ^ 32 + s.rd (F.EJ_DST_LO j)

/-- R185: the job's parameters are sound. -/
def State.ejParams (s : State) (j : Nat) : Bool :=
  s.ejSrc j % 8 == 0 && s.ejDst j % 8 == 0 && s.rd (F.EJ_SRC_STRIDE_BYTES j) % 8 == 0 && s.rd (F.EJ_DST_SIZE_BYTES j) % 8 == 0 &&
    (!s.on (F.EJ_CTL_ALPHA j) || (s.rd (F.EJ_CTL_BLOCK_IN j) % 2 == 1 && s.rd (F.EJ_LINE_BYTES_BYTES j) % 2 == 0))

/-- A write of EJ_CTL with GO = 1: the other fields of the word, then the start (R185–R187). -/
def execGo (agent : Agent) (lane : Fin 2) (value : Nat) (s : State) : Result :=
  .next (s.write agent (ejPage lane) 0x060 fun t =>
    let j := lane.val
    if t.rd (H.STATE (ejPage lane)) ≠ 0 then t.accessBusy (ejPage lane)
    else
      let u := (((t.wr (F.EJ_CTL_ALPHA j) value).wr (F.EJ_CTL_MODE j) (value / 2)).wr (F.EJ_CTL_EFFORT j) (value / 4)).wr
        (F.EJ_CTL_BLOCK_IN j) (value / 256)
      if u.on (H.ISOLATED (ejPage lane)) then u.ejFail lane 8
      else if !u.ejParams j then u.ejFail lane 7
      else
        let v := ((u.wr (H.STATE (ejPage lane)) 1).wr (F.EJ_STAT_STATUS j) 1).wr (F.EJ_RESULT_LEN j) 0
        v.wr F.CDC_STAT_ENC_BUSY (v.rd F.CDC_STAT_ENC_BUSY ||| 2 ^ j))

/-- What a source line gives: its bytes, an access error, or an uncorrectable read. -/
inductive SrcLine where
  | bytes (l : List Nat)
  | access
  | uncorr

/-- Read one source line; `data` holds what host windows return, from the start of the job's source on. -/
def State.ejLine (j n : Nat) (data : List Nat) (s : State) : SrcLine × State :=
  let stride := s.rd (F.EJ_SRC_STRIDE_BYTES j)
  let len := s.rd (F.EJ_LINE_BYTES_BYTES j)
  let a := s.ejSrc j + n * stride
  match hostWindow a with
  | some (w, off) =>
    if s.winOk w off len false then (.bytes ((List.range len).map fun i => data.getD (n * stride + i) 0), s) else (.access, s)
  | none =>
    if len = 0 ∨ s.inMemory a len = true then
      match s.memBytes a len (.lane (Fin.ofNat 10 (8 + j))) with
      | (some l, t) => (.bytes l, t)
      | (none, t) => (.uncorr, t)
    else (.access, s)

/-- Read every source line. -/
def State.ejLines (j : Nat) (data : List Nat) : Nat → Nat → State → SrcLine × State
  | 0, _, s => (.bytes [], s)
  | n + 1, i, s =>
    match s.ejLine j i data with
    | (.bytes l, t) =>
      match State.ejLines j data n (i + 1) t with
      | (.bytes r, u) => (.bytes (l ++ r), u)
      | e => e
    | e => e

/-- An encode job runs to its end: its stream in whole words, its header last, its length; or its first error (R183–R185).  A
destination that cannot be written ends the job with a status the manual leaves open (log 1). -/
def execEncodeJobDone (lane : Fin 2) (data : List Nat) (s : State) : Result :=
  let j := lane.val
  if s.rd (H.STATE (ejPage lane)) = 0 then .next s
  else
    match s.ejLines j data (s.rd (F.EJ_LINES_LINES j)) 0 with
    | (.access, t) => .next (t.ejFail lane 4)
    | (.uncorr, t) => .next (t.ejFail lane 5)
    | (.bytes l, t) =>
      let h : StreamHeader := ⟨t.on (F.EJ_CTL_ALPHA j), t.rd (F.EJ_LINE_BYTES_BYTES j), t.rd (F.EJ_LINES_LINES j)⟩
      let out := encodeStream h (t.on (F.EJ_CTL_MODE j)) (t.rd (F.EJ_CTL_EFFORT j)) (t.rd (F.EJ_CTL_BLOCK_IN j) + 1) l
      let words := (out.length + 7) / 8
      if t.rd (F.EJ_DST_SIZE_BYTES j) < 8 * words then .next (t.ejFail lane 3)
      else if !t.inMemory (t.ejDst j) (8 * words) then .next ((t.ejFail lane (t.freeVal 16)).freeNext)
      else
        let u := ((t.memPuts (t.ejDst j) words out).wr (F.EJ_RESULT_LEN j) out.length).wr (F.EJ_STAT_STATUS j) 2
        let v := u.wr F.CDC_STAT_ENC_BUSY (u.rd F.CDC_STAT_ENC_BUSY &&& (3 - 2 ^ j))
        .next ((v.wr (H.STATE (ejPage lane)) 0).event (ejPage lane) 0)

/-- A job fails at an error its source or destination reports: OUT_FULL, SRC_ERR or UNCORR (R183). -/
def execEncodeJobFail (lane : Fin 2) (status : Fin 3) (s : State) : Result :=
  .next (if s.rd (H.STATE (ejPage lane)) = 0 then s else s.ejFail lane (3 + status.val))

/-- PG_CTRL.ABORT of an encode lane; while the header is being written it is ignored and the job is DONE (R187). -/
def execEncodeAbort (agent : Agent) (lane : Fin 2) (header : Bool) (s : State) : Result :=
  .next (s.write agent (ejPage lane) 0x004 fun t =>
    if t.rd (H.STATE (ejPage lane)) = 0 || header then t else t.ejFail lane 6)

end Sys2Proof.Machine
end

