-- ==== Sys2Proof/Machine/Access.lean ====
section
/-!
DEFINITION. One master's access to a word of a bank or of the DRAM: its port, the order of accesses that meet, the word code,
and the effect of an uncorrectable read on the master (Table 1.4, R190–R192, R197, R204, R214, R221).
-/
namespace Sys2Proof.Machine

/-! ### Ports (Table 1.4) -/

/-- Does a berth's role give it the secondary port of bank SB-k? -/
def sbRole (k r : Nat) : Bool := r == 5 || r == 6 + k / 2

/-- The port a master uses at a bank: primary, secondary or none.  Scrubbing and filling belong to the bank itself. -/
def State.port (s : State) (m : Master) (b : Nat) : Option Bool :=
  match m with
  | .pipeline k => if b = k.val then some true else none
  | .lane n => if b = 6 then some true else if b < 6 ∧ n.val < 8 then some false else none
  | .loopEngine _ => if b = 20 then some true else none
  | .harbourmaster => if b = 21 then some true else none
  | .endpoint => if b = 19 then some false else none
  | .scrub => some false
  | .fill => some false
  | .dramPort => none
  | .dma _ => if b = 6 ∨ b = 21 then none else some false
  | .berth n _ =>
    if s.rd (H.STATE (brPage n)) = 1 then none
    else
      let r := s.role n
      if b < 6 then (if sbRole b r then some false else none)
      else if b = 6 then (if r = 9 then some false else none)
      else if b < 19 then some (b == 7 + n.val)
      else if b = 19 then some (n.val == 1)
      else if b = 20 then (if r = 4 then some false else none)
      else if r = 0 then some false else none

/-! ### The effect of an uncorrectable read (Table 8.7) -/

/-- An uncorrectable read by a berth: a second fetch in a row, or a data load, fails the berth over (R221, R441). -/
def State.berthUe (n : Fin 12) (fetch : Bool) (s : State) : State :=
  if fetch && s.berths.traps[n] == 0 then { s with berths := { s.berths with traps := s.berths.traps.set n 1 } }.sat (F.BR_CNT_TRAP_UE n)
  else if s.rd (H.STATE (brPage n)) = 1 then s
  else
    let s1 := (s.haltBerth n).sat (F.BR_CNT_TRAP_UE n)
    let s2 := { s1 with berths := { s1.berths with traps := s1.berths.traps.set n 0 } }.raiseWith (16 + n) (brPage n) 1 0 (some (.signature, n.val))
    s2.ifDo (decide (s.role n < 0xE)) (·.openRecovery (16 + n) (brPage n))

/-- An uncorrectable read by an imaging pipeline: the exposing page is LOST; a read outside the band ring is a table's (R128). -/
def State.pipelineUe (k : Fin 6) (addr : Nat) (s : State) : State :=
  let a := s.rd (F.IM_RING_BASE k.val) * 0x10000 + sbBase k.val
  let ring := decide (a ≤ addr) && decide (addr < a + s.rd (F.IM_RING_LINES k.val) * (s.ring k).stride)
  let s1 := (s.satAdd (F.IM_CNT_UNCORR k.val) 1).event (imPage k) (if ring then 2 else 3)
  let s2 := s1.raiseWith (64 + k.val) (imPage k) (if ring then 0 else 1) 0 (some (.pipe, k.val))
  (if ring then s2 else s2.modLink k fun q => { q with badTable := true }).loseExposing k lcDecode

/-- The context a decode lane works for. -/
def State.laneCtx (s : State) (n : Nat) : Option (Fin 24) :=
  (List.finRange 24).find? fun (x : Fin 24) => s.on (F.CTX_OPEN x) && s.rd (F.CTX_LANE x) == n

def State.masterUe (m : Master) (addr : Nat) (s : State) : State :=
  match m with
  | .berth n fetch => s.berthUe n fetch
  | .dma n =>
    if s.dcState n = dcActive ∨ s.dcState n = dcPausing then s.dcError n dsUncorr 0 addr else s
  | .lane n =>
    if h : n.val < 8 then
      match s.laneCtx n with
      | some x => s.jobFail ⟨n.val, h⟩ x 8 (s.ctx x).off false
      | none => s
    else if s.rd (H.STATE (ejPage (n.val - 8))) = 0 then s else s.ejFail ⟨n.val - 8, by omega⟩ 5
  | .pipeline k => s.pipelineUe k addr
  | .loopEngine e =>
    let i : Fin 32 := Fin.ofNat 32 (addr % 0x10000 / 0x800)
    if bit (s.slot e i).causes caUncorr then s
    else (s.slotHold e i caUncorr).latch (192 + e) (lePage e) 0 0 (some (.loop, e.val))
  | .endpoint => (s.emit (.accessError .poisonedCompletion)).aer 2 .poisonedCompletion
  | _ => s

/-- A fetch that succeeds ends a berth's run of trapped fetches. -/
def State.masterOk (m : Master) (s : State) : State :=
  match m with
  | .berth n true => { s with berths := { s.berths with traps := s.berths.traps.set n 0 } }
  | _ => s

/-- What a read returns: the word, or the effect of Table 8.7. -/
def State.readEnd (m : Master) (addr : Nat) : Option Nat × State → State
  | (some v, s) => (s.masterOk m).emit (.readData v)
  | (none, s) => (s.masterUe m addr).hwReact

/-! ### Accesses that meet (R191) -/

/-- Bytes written in this tick, with their values before and the port that wrote them. -/
def State.tickWrites (s : State) : List (Nat × Nat × Bool) := if s.mu.tick.1 = s.time then s.mu.tick.2 else []

/-- A word as it was before the writes of this tick. -/
def State.beforeTick (a v : Nat) (s : State) : Nat :=
  leNat ((List.range 8).map fun i => match s.tickWrites.find? (·.1 == a + i) with
    | some (_, old, _) => old
    | none => v / 256 ^ i % 256)

/-- Store an enabled byte, unless the primary port has written it in this tick and this write is the secondary port's. -/
def State.portPut (primary : Bool) (a v : Nat) (s : State) : State :=
  match s.tickWrites.find? (·.1 == a) with
  | some (_, old, p) =>
    if p && !primary then s
    else (s.bankPut a v).modMu fun u => { u with tick := (s.time, (a, old, primary) :: s.tickWrites.filter (·.1 != a)) }
  | none => (s.bankPut a v).modMu fun u => { u with tick := (s.time, (a, s.ldByte a, primary) :: s.tickWrites) }

/-! ### Reads and writes -/

/-- A read of a bank word (R190, R193, R197, R201, R221). -/
def execBankRead (m : Master) (addr : Nat) (strikes : List (Nat × Nat)) (flight : Nat) (s : State) : Result :=
  let a := addr / 8 * 8
  match if s.inBank a 8 then (bankOf a).bind (s.port m) else none with
  | none => .next (s.busError m addr)
  | some _ =>
    let s1 := s.strike (a / 4096) strikes
    match s1.bankWord a m with
    | (none, t) => .next (State.readEnd m addr (none, t))
    | (some v, t) =>
      match t.fabric a flight m with
      | (none, u) => .next (State.readEnd m addr (none, u))
      | (some r, u) => .next (State.readEnd m addr (some (u.beforeTick a v ^^^ dataBits r), u))

/-- A write of the enabled bytes of a bank word: nothing is stored when its word code is uncorrectable (R192, R198, R204).
Bank HB is written only by the Harbourmaster. -/
def execBankWrite (m : Master) (addr data enables flight : Nat) (s : State) : Result :=
  let a := addr / 8 * 8
  match if s.inBank a 8 ∧ !(bankOf a = some 21 ∧ m ≠ .harbourmaster) then (bankOf a).bind (s.port m) else none with
  | none => .next (s.busError m addr)
  | some primary =>
    match s.fabric a flight m with
    | (none, t) =>
      match m with
      | .dma n =>
        .next (if t.dcState n = dcActive ∨ t.dcState n = dcPausing then (t.dcError n dsWriteUe 0 addr).hwReact else t)
      | _ => .next (t.busError m addr)
    | (some r, t) =>
      let w := data ^^^ dataBits r
      .next (t.each ((List.range 8).filter fun i => bit enables i) fun i u => u.portPut primary (a + i) (w / 256 ^ i % 256))

/-- A read of a DRAM word: repaired from the other channel in mirrored mode, or uncorrectable (R214, R215, R221). -/
def execDramRead (m : Master) (addr wrong0 wrong1 flight rebuilt : Nat) (stuck0 stuck1 : Bool) (s : State) : Result :=
  let a := addr / 8 * 8
  let s := (s.stuck stuck0 stuck1).rebuiltTo rebuilt
  match slotAddr a with
  | none => .next (s.busError m addr)
  | some (slot, off) =>
    if !s.inDram a 8 ∨ m = .harbourmaster then .next (s.busError m addr)
    else
      let s1 := if s.mirrored then (s.dramStrike 0 off wrong0).dramStrike 1 off wrong1
        else s.dramStrike slot off (if slot = 0 then wrong0 else wrong1)
      match s1.dramWord a m with
      | (none, t) => .next (State.readEnd m addr (none, t))
      | (some v, t) =>
        match t.fabric a flight m with
        | (none, u) => .next (State.readEnd m addr (none, u))
        | (some r, u) => .next (State.readEnd m addr (some (v ^^^ dataBits r), u))

end Sys2Proof.Machine
end

