-- ==== Sys2Proof/Machine/Beam.lean ====
section
/-! DEFINITION. The commands of the beam-timing blocks (03), and the underrun of a head link (R19). -/
namespace Sys2Proof.Machine

/-! ### Facets and runs -/

/-- The facet of the next scan: 0 for the first accepted detect after an index edge, else one on (R64). -/
def State.facetStep (k : Fin 6) (accepted : Bool) (s : State) : State :=
  let b := s.beam k
  let s1 := s.modBeam k fun b => { b with idxScans := b.idxScans + 1, idxCount := b.idxCount.map (· + 1) }
  if accepted && b.idxPend then (s1.modBeam k fun b => { b with idxPend := false, facetSet := true }).wr (F.BT_STAT_FACET k.val) 0
  else if b.facetSet then s1.wr (F.BT_STAT_FACET k.val) ((s1.rd (F.BT_STAT_FACET k.val) + 1) % s1.facets k.val)
  else s1

/-- LOCK_CNT: a stored 0 counts as 1. -/
def State.lockCnt (s : State) (k : Nat) : Nat := max 1 (s.rd (F.BT_LOCK_LOCK_CNT k))

/-- A station leaves LOCKED for PULL (Tables 3.6 and 3.10). -/
def State.unlock (k : Fin 6) (s : State) : State :=
  (((s.modBeam k fun b => { b with lockRun := 0, awayRun := 0 }).wr (H.STATE (btPage k)) btPull).sat
    (F.BT_CNT_B_UNLOCK k.val)).event (btPage k) 1

/-! ### The phase loop (R79) -/

/-- acc and trim after a phase error. -/
def phaseLoop (kp ki lim : Nat) (acc err : Int) : Int × Int :=
  let top : Int := 100 * lim
  let a := acc + err
  let bound : Int := if ki = 0 then 0 else (top * 256 / ki)
  let a := if ki = 0 then a else clampInt (-bound) bound a
  (a, clampInt (-top) top (tdiv (kp * err + ki * a) 256))

/-- The loop runs in INDEX, PULL and LOCKED, and hands its trim to the polygon's channel. -/
def State.phaseUpdate (k : Fin 6) (err : Int) (s : State) : State :=
  let r := phaseLoop (s.rd (F.BT_PHLOOP_PH_KP k.val)) (s.rd (F.BT_PHLOOP_PH_KI k.val)) (s.rd (F.BT_PHLIM_PH_LIM k.val))
    (s.beam k).acc err
  let n := s.rd (F.BT_CFG_POLY_CH k.val)
  let s0 := if h : k.val < 4 then s.ifDo (s.extPoly k) (·.zRefStep ⟨k.val, h⟩) else s
  let s1 := s0.modBeam k fun b => { b with acc := r.1, trim := r.2 }
  if n < 12 ∧ s.extPoly k = false then s1.modMotor (Fin.ofNat 12 n) fun m => { m with trim := r.2 } else s1

/-- Table 3.4 for an accepted detect. -/
def State.lockStep (k : Fin 6) (err : Int) (s : State) : State :=
  let st := s.btState k
  let win : Int := s.rd (F.BT_LOCK_LOCK_WIN k.val)
  if st = btSpeed then
    let s1 := s.modBeam k fun b => { b with accRun := b.accRun + 1 }
    if 16 ≤ (s1.beam k).accRun then
      (s1.modBeam k fun b => { b with acc := 0, lockRun := 0, awayRun := 0 }).wr (H.STATE (btPage k))
        (if s1.hasIndex k.val then btIndex else btPull)
    else s1
  else if st = btIndex then s.phaseUpdate k err
  else if st = btPull then
    let s1 := (s.phaseUpdate k err).modBeam k fun b => { b with lockRun := if (err.natAbs : Int) ≤ win then b.lockRun + 1 else 0 }
    if s1.lockCnt k.val ≤ (s1.beam k).lockRun then
      ((s1.modBeam k fun b => { b with awayRun := 0 }).wr (H.STATE (btPage k)) btLocked).event (btPage k) 0
    else s1
  else if st = btLocked then
    let s1 := (s.phaseUpdate k err).modBeam k fun b => { b with awayRun := if 2 * win < (err.natAbs : Int) then b.awayRun + 1 else 0 }
    if 4 ≤ (s1.beam k).awayRun then
      ((s1.loseExposing k lcSpeedBand).unlock k).raise (41 + 2 * k.val) (btPage k) 5
    else s1
  else s

/-! ### Detects -/

/-- BT_PERIOD: the mean interval of the last 16 accepted edges (R63). -/
def meanPeriod (times : List Nat) : Nat :=
  match times with
  | [] => 0
  | t :: r => if r.isEmpty then 0 else (t - r.getLast?.getD t) / r.length

/-- An accepted beam detect (R61–R64, R79, R80). -/
def State.bdAccept (k : Fin 6) (st : Stamp) (s : State) : State :=
  let known := s.hasPeriod k
  let e := s.expected k
  let n := if s.btState k = btLocked then ((s.beam k).scan : Int) + 1 else s.scanNear k st.t
  let s1 := s.modBeam k fun b => { b with
    times := (st.t.toNat :: b.times).take 16, lastT := st.t.toNat, lastPx := st.px, begun := true, missed := false
    devs := if known then ((st.t - e.t) :: b.devs).take 8 else b.devs, scan := n.toNat }
  let s2 := (s1.wr (F.BT_STAT_MISS_RUN k.val) 0).wr (F.BT_PERIOD_TICKS k.val) (meanPeriod (s1.beam k).times)
  let t := st.t.toNat / 256
  let s3 := ((s2.wr (F.BT_BD_LO k.val) t).wr (F.BT_BD_HI k.val) (t / 2 ^ 32)).wr (F.BT_BD_FRAC_FRAC k.val) st.t.toNat
  let err := s3.phaseErr k st.t n
  let s4 := (s3.wrS (F.BT_PHERR_ERR k.val) err).facetStep k true
  if s4.btState k = btStopped then (s4.inc (F.BT_SCAN_COUNT k.val)).activateSets k none
  else (s4.lockStep k err).scanStep k

/-- A qualified beam-detect edge, stamped in TIME to 1/256 tick and on the pixel scale to 1/64 pixel (R61, R62). -/
def execBdEdge (station : Fin 6) (t px : Nat) (s : State) : Result :=
  let p := btPage station
  if !s.hasStation station || s.on (H.ISOLATED p) then .next s
  else
    let e := s.expected station
    let win := s.bdWin station
    if s.btState station = btStopped ∨ s.hasPeriod station = false ∨ (e.px - win ≤ px ∧ (px : Int) ≤ e.px + win) then
      .next (s.bdAccept station ⟨t, px⟩)
    else .next ((s.sat (F.BT_CNT_A_STRAY station.val)).event p 4)

/-- D̄ of R72. -/
def meanDev (l : List Int) : Int := if l.isEmpty then 0 else l.foldl (· + ·) 0 / (l.length : Int)

/-- An acceptance window ends without an edge: the start is synthesised; the third missing pulse is not (R72, R74). -/
def execBdWindowEnd (station : Fin 6) (s : State) : Result :=
  let k := station
  let e := s.expected k
  if !s.hasStation k || s.btState k == btStopped || !s.hasPeriod k || s.on (H.ISOLATED (btPage k)) ||
      decide ((256 * s.time : Int) ≤ s.bdClose k) then .next s
  else
    let run := s.rd (F.BT_STAT_MISS_RUN k.val)
    let n := if s.btState k = btLocked then ((s.beam k).scan : Int) + 1 else s.scanNear k e.t
    let s1 := (s.sat (F.BT_CNT_A_MISSING k.val)).wr (F.BT_STAT_MISS_RUN k.val) (min 3 (run + 1))
    if run < 2 then
      let d := meanDev (s1.beam k).devs
      let s2 := s1.modBeam k fun b => { b with
        lastT := (e.t + d).toNat, lastPx := e.px + s.toPx k d, scan := n.toNat, accRun := 0, lockRun := 0, awayRun := 0 }
      .next (((s2.event (btPage k) 2).facetStep k false).scanStep k)
    else
      let s2 := s1.modBeam k fun b => { b with
        lastT := e.t.toNat, lastPx := e.px, scan := n.toNat, lineT := none, linePx := 0, strobe := false }
      let s3 := if run = 2 then
          (((s2.loseExposing k lcBeamMissing).btToSpeed k).event (btPage k) 3).raise (41 + 2 * k.val) (btPage k) 4
        else s2
      .next (match s3.feedNow k with
        | some f => (s3.modLink k fun q => { q with waiting := none }).scanEnd k f (n.toNat - f.s0)
        | none => s3)

/-- More than 1.5 × BT_PERIOD since the last accepted detect: BD_MISSING, once in a run (R73). -/
def execBdMissing (station : Fin 6) (s : State) : Result :=
  let b := s.beam station
  if s.hasStation station && s.btState station != btStopped && s.hasPeriod station && !b.missed &&
      decide (2 * b.times.headD 0 + 3 * s.rd (F.BT_PERIOD_TICKS station.val) < 512 * s.time) then
    .next ((s.modBeam station fun b => { b with missed := true }).raise (40 + 2 * station.val) (btPage station) 0)
  else .next s

/-- A qualified index edge (R64, R65). -/
def execIndexEdge (station : Fin 6) (s : State) : Result :=
  let k := station
  if !s.hasStation k || !s.hasIndex k.val || s.btState k == btStopped || s.on (H.ISOLATED (btPage k)) then .next s
  else
    let bad := match (s.beam k).idxCount with | some c => c != s.facets k.val | none => false
    let s1 := s.modBeam k fun b => { b with idxPend := true, idxCount := some 0, idxScans := 0 }
    let s2 := s1.ifDo (s1.btState k == btIndex) fun t =>
      (t.modBeam k fun b => { b with lockRun := 0, awayRun := 0 }).wr (H.STATE (btPage k)) btPull
    .next (s2.ifDo bad fun t =>
      ((t.sat (F.BT_CNT_B_FACET_SYNC k.val)).event (btPage k) 5).raise (40 + 2 * k.val) (btPage k) 1)

/-- No index edge within 2 × FACETS scans (R65). -/
def execIdxMissing (station : Fin 6) (s : State) : Result :=
  let k := station
  if s.hasStation k && s.hasIndex k.val && s.btState k != btStopped && decide (2 * s.facets k.val ≤ (s.beam k).idxScans) then
    .next (((s.modBeam k fun b => { b with idxScans := 0 }).event (btPage k) 6).raise (40 + 2 * k.val) (btPage k) 2)
  else .next s

/-! ### The facet reference (R78) -/

/-- Stations of a pixel-clock group. -/
def State.groupStations (s : State) (g : Nat) : List (Fin 6) :=
  (List.finRange 6).filter fun (k : Fin 6) => s.hasStation k && s.rd (F.BT_CFG_GROUP k.val) == g

/-- A station of the group has a committed page still to expose, from its commit tick on (Table 3.5). -/
def State.groupExposes (s : State) (g : Nat) : Bool := (s.groupStations g).any fun k => !(s.stationSlots k).isEmpty

/-- The new increment applies from the next tick; the stations of the group leave LOCKED. -/
def State.setFref (g : Fin 2) (v : Nat) (s : State) : State :=
  let q := s.sta.frefs[g]
  let phase := q.phase + (s.time + 1 - q.at_) * s.rd (F.FREF_INC_INC g)
  let s1 := (s.modSta fun u => { u with frefs := u.frefs.set g ⟨s.time + 1, phase⟩ }).wr (F.FREF_INC_INC g) v
  s1.each (s1.groupStations g) fun k t => t.ifDo (t.btState k == btLocked) (·.unlock k)

/-- A write of FREF_INC[g] (R78). -/
def execFrefIncWrite (agent : Agent) (g : Fin 2) (value : Nat) (s : State) : Result :=
  .next (s.write agent 0x020 (0x200 + 4 * g.val) fun t =>
    if t.groupExposes g then t.accessBusy 0x020 else t.setFref g value)

/-! ### Underrun (R19) -/

/-- The transmit FIFO of a head link underruns: idle symbols for the rest of the scan, and the page being exposed is LOST. -/
def execHeadUnderrun (station : Fin 6) (s : State) : Result :=
  let k := station
  if s.exposing k then
    let s1 := (s.modBeam k fun b => { b with strobe := false }).modLink k fun q => { q with waiting := none }
    .next (((s1.sat (F.HL_CNT_A_UNDERRUN k.val)).loseExposing k lcHeadUnderrun).raiseWith (41 + 2 * k.val) (hlPage k) 0 2 none)
  else .next s

end Sys2Proof.Machine
end

