-- ==== Sys2Proof/Machine/Loops.lean ====
section
/-! DEFINITION. The commands of the loop engines, converters and PWM generators (14). -/
namespace Sys2Proof.Machine

/-! ### Arithmetic of a sample (R362, R363) -/

/-- Saturation to the signed 32-bit range. -/
def sat32 (v : Int) : Int := clampInt (-2147483648) 2147483647 v

/-- Arithmetic shift right. -/
def asr (v : Int) (n : Nat) : Int := v / (2 ^ n : Nat)

/-- A notch stage's coefficients, Q4.28. -/
structure NotchCoef where
  b0 : Int
  b1 : Int
  b2 : Int
  a1 : Int
  a2 : Int
deriving DecidableEq, Repr

/-- `bq(N, x)` (R363). -/
def Biquad.run (n : NotchCoef) (q : Biquad) (x : Int) : Int × Biquad :=
  let y := sat32 (asr (n.b0 * x + n.b1 * q.x1 + n.b2 * q.x2 - n.a1 * q.y1 - n.a2 * q.y2) 28)
  (y, ⟨x, q.x1, y, q.y1⟩)

/-- A stage: while it is disabled, its state tracks its input. -/
def Biquad.stage (on_ : Bool) (n : NotchCoef) (q : Biquad) (x : Int) : Int × Biquad :=
  if on_ then q.run n x else (x, ⟨x, x, x, x⟩)

/-- `lin(raw)` over the table of 65 entries. -/
def linearise (l : List Int) (raw : Nat) : Int :=
  let a := l.getD (raw / 64) 0
  let b := l.getD (raw / 64 + 1) 0
  a + tdiv ((b - a) * (raw % 64 : Nat)) 64

/-- Signed 32-bit words of a record. -/
def words32 (l : List Nat) (off : Nat) : Nat → List Int
  | 0 => []
  | n + 1 => toSigned 32 (leNat ((l.drop off).take 4)) :: words32 l (off + 4) n

/-- A notch record. -/
def notchOf (l : List Nat) (off : Nat) : NotchCoef :=
  match words32 l off 5 with
  | [a, b, c, d, e] => ⟨a, b, c, d, e⟩
  | _ => ⟨0, 0, 0, 0, 0⟩

/-- What a sample reads of the slot's registers, at once (R362). -/
structure LoopRegs where
  pvOffs : Int
  pvGain : Int
  kp : Int
  ki : Int
  kd : Int
  df : Nat
  slew : Nat
  ff : Int
  ffOffs : Int
  omin : Int
  omax : Int
  man : Int
  fail : Int
  n1 : Bool
  n2 : Bool
deriving DecidableEq, Repr

/-- The computed sample: output, process value, new state, and whether the output stands at a limit. -/
structure LoopOut where
  out : Int
  pv  : Int
  i   : Int
  d   : Int
  n1  : Biquad
  n2  : Biquad
  sat : Bool
deriving DecidableEq, Repr

/-- R362 from the process input `x` (after LIN) and the setpoint on.  `st` is the state computed in, `out` the last output;
`fresh` marks the first AUTO sample after OFF, which presets i and starts from `out` (Table 14.3). -/
def loopCompute (r : LoopRegs) (q : LoopSlot) (c1 c2 : NotchCoef) (st : Nat) (fresh : Bool) (x sp out : Int) : LoopOut :=
  let pv := sat32 (asr ((x - r.pvOffs) * r.pvGain) 16)
  let e := sat32 (sp - pv)
  let (e1, n1) := q.n1.stage r.n1 c1 e
  let (ef, n2) := q.n2.stage r.n2 c2 e1
  let p := sat32 (asr (r.kp * ef) 16)
  let dr := sat32 (asr (r.kd * (q.pvPrev - pv)) 16)
  let d := if r.df = 0 then dr else sat32 (q.d + asr ((r.df : Int) * (dr - q.d)) 16)
  let ff := sat32 (asr (r.ff * sp) 16 + r.ffOffs)
  let ii := sat32 (asr (r.ki * ef) 16)
  let (u0, i0) :=
    if st = 2 then
      if fresh then
        let i := clampInt r.omin r.omax (out - p - d - ff)
        (clampInt r.omin r.omax (p + i + d + ff), i)
      else
        let u := q.i + ii + p + d + ff
        let i := if (r.omax < u ∧ 0 < ii) ∨ (u < r.omin ∧ ii < 0) then q.i else clampInt r.omin r.omax (q.i + ii)
        (clampInt r.omin r.omax (p + i + d + ff), i)
    else (if st = 1 then r.man else r.fail, q.i)
  let u1 := if r.slew ≠ 0 ∧ st ≠ 3 then clampInt (out - r.slew) (out + r.slew) u0 else u0
  let i1 := if st = 1 ∨ (st = 2 ∧ u1 ≠ u0) then clampInt r.omin r.omax (u1 - p - d - ff) else i0
  ⟨u1, pv, i1, d, n1, n2, u1 == r.omin || u1 == r.omax⟩

/-! ### The sample (R359–R366, R371–R373) -/

/-- The channel that names the slot in CM_LOOP and is outside RUN (R366). -/
def State.forcedBy (s : State) (e : Fin 4) (i : Fin 32) : Option (Fin 12) :=
  (List.finRange 12).find? fun (n : Fin 12) =>
    s.rd (F.CM_LOOP_ENGINE n) == e.val && s.rd (F.CM_LOOP_SLOT n) == i.val && s.cmState n != cmRun

/-- Is a slot due at the present tick (R359)? -/
def State.slotDue (s : State) (e : Fin 4) (i : Fin 32) : Bool :=
  let per := max 100 (s.rd (F.SL_PER_PERIOD e i))
  s.time % per == s.rd (F.SL_PHASE_PHASE e i) % per

/-- The process input (Table 14.1); a NUM that names no source leaves the value open (log 1). -/
def State.slotInput (s : State) (e : Fin 4) (i : Fin 32) : Int :=
  let n := s.rd (F.SL_IN_NUM e i)
  let open_ := toSigned 32 (s.freeVal (2 ^ 32))
  match s.rd (F.SL_IN_KIND e i) with
  | 1 => if n < 48 then s.rd (F.ADC_RES_CODE n) else s.freeVal 4096
  | 2 => if n < 8 then s.rdS (F.ENC_SPEED_CPS n) else open_
  | 3 => if n < 12 then s.rdS (F.CM_SPEED_SPEED n) else open_
  | 4 => s.rdS (F.SL_OUTV (n / 32) (n % 32))
  | 5 => s.rdS (F.SL_PVIN e i)
  | _ => 0

/-- The setpoint (Table 14.1). -/
def State.slotSetpoint (s : State) (e : Fin 4) (i : Fin 32) : Int :=
  let n := s.rd (F.SL_SP_NUM e i)
  match s.rd (F.SL_SP_KIND e i) with
  | 0 => s.rdS (F.SL_SPV e i)
  | 1 => s.rdS (F.SL_OUTV (n / 32) (n % 32))
  | 2 => if n < 12 then s.rdS (F.CM_REF_SPEED n) else toSigned 32 (s.freeVal (2 ^ 32))
  | _ => 0

def State.loopRegs (s : State) (e : Fin 4) (i : Fin 32) : LoopRegs where
  pvOffs := s.rdS (F.SL_PVOFFS e i)
  pvGain := s.rdS (F.SL_PVGAIN e i)
  kp := s.rdS (F.SL_KP e i)
  ki := s.rdS (F.SL_KI e i)
  kd := s.rdS (F.SL_KD e i)
  df := s.rd (F.SL_FILT_DF e i)
  slew := s.rd (F.SL_FILT_SLEW e i)
  ff := s.rdS (F.SL_FF e i)
  ffOffs := s.rdS (F.SL_FFOFFS e i)
  omin := s.rdS (F.SL_OMIN e i)
  omax := s.rdS (F.SL_OMAX e i)
  man := s.rdS (F.SL_MAN e i)
  fail := s.rdS (F.SL_FAIL e i)
  n1 := s.on (F.SL_MODE_N1_EN e i)
  n2 := s.on (F.SL_MODE_N2_EN e i)

/-- Address of a slot's record in LB (Table 14.4). -/
def slotRecord (e : Fin 4) (i : Fin 32) : Nat := 0x03C00000 + 0x10000 * e.val + 0x800 * i.val

/-- SL_MODE acts at a sample (Table 14.3); a forced slot computes as MANUAL, with MAN at the applied torque (R366). -/
def State.slotMode (e : Fin 4) (i : Fin 32) (s : State) : State :=
  let mode := s.rd (F.SL_MODE_MODE e i)
  let st := s.slState e i
  if mode = 0 then (if st = slOff then s else s.slotOff e i)
  else
    let s1 :=
      if st = slHeld then
        if (s.slot e i).release then
          ((s.modLoop e i fun q => { q with release := false }).wr (F.SL_MAN e i) (s.rd (F.SL_FAIL e i))).slTo e i slManual |>.causeReg e i
        else s
      else if st = slOff then
        if mode = 1 then (s.wr (F.SL_MAN e i) (s.rd (F.SL_FAIL e i))).slTo e i slManual
        else (s.modLoop e i fun q => { q with fresh := true }).slTo e i slAuto
      else if mode = 2 then (if st = slAuto then s else s.slTo e i slAuto)
      else if st = slManual then s else (s.slotBandLeave e i).slTo e i slManual
    match s1.forcedBy e i with
    | some n =>
      if s1.slState e i = slHeld then s1
      else
        let s2 := if s1.slState e i = slAuto then ((s1.slotBandLeave e i).modLoop e i fun q => { q with fresh := false }).slTo e i slManual else s1
        s2.wrS (F.SL_MAN e i) (s2.rdS (F.CM_STAT_TORQUE n))
    | none => s1

/-- Three raw codes in a row outside the range hold the slot, three inside free it (R372). -/
def State.slotRange (e : Fin 4) (i : Fin 32) (raw : Int) (s : State) : State :=
  if s.rd (F.SL_IN_KIND e i) ≠ 1 ∨ s.slState e i = slOff then s
  else
    let inside := decide ((s.rd (F.SL_RANGE_PV_LO e i) : Int) ≤ raw) && decide (raw ≤ (s.rd (F.SL_RANGE_PV_HI e i) : Int))
    let q := s.slot e i
    let out := if inside then 0 else q.outRun + 1
    let inn := if inside then q.inRun + 1 else 0
    let s1 := s.modLoop e i fun q => { q with outRun := min out 3, inRun := min inn 3 }
    let act := bit q.causes caRange
    if !act && 3 ≤ out then (s1.slotHold e i caRange).latch 198 (lePage e) 2 0 none
    else if act && 3 ≤ inn then s1.slotFree e i caRange
    else s1

/-- A reference fault on the converter of the input holds the slot (R373, R378). -/
def State.slotRef (e : Fin 4) (i : Fin 32) (s : State) : State :=
  let n := s.rd (F.SL_IN_NUM e i)
  let bad := s.rd (F.SL_IN_KIND e i) == 1 && n < 48 && (s.ct.adc[Fin.ofNat 4 (n / 12)]).refBad
  if bad && !bit (s.slot e i).causes caRef then s.slotHold e i caRef else s

/-- The band of a marked slot after a sample (R371). -/
def State.slotBand (e : Fin 4) (i : Fin 32) (dev : Nat) (s : State) : State :=
  if s.rd (F.SL_OUT_GATE e i) = 0 ∨ s.slState e i ≠ slAuto then s
  else
    let k := max 1 (s.rd (F.SL_BAND_BAND_Q e i))
    let ok := dev ≤ s.rd (F.SL_BAND_BAND e i)
    let q := s.slot e i
    let inn := if ok then q.bandIn + 1 else 0
    let out := if ok then 0 else q.bandOut + 1
    let s1 := s.modLoop e i fun q => { q with bandIn := min inn 15, bandOut := min out 15 }
    if s.on (F.SL_STAT_IN_BAND e i) then (if k ≤ out then s1.slotBandLeave e i else s1)
    else if k ≤ inn then (s1.wr (F.SL_STAT_IN_BAND e i) 1).event (lePage e) 1 else s1

/-- The output leaves the slot: at once, or 240 ticks after the sample with FIXLAT, later only if it is not ready by then,
which counts LATE (R360, R364). -/
def State.slotOut (e : Fin 4) (i : Fin 32) (v : Int) (delay : Nat) (s : State) : State :=
  if s.on (F.SL_MODE_FIXLAT e i) && s.slState e i != slHeld then
    let s1 := s.modLoop e i fun q => { q with heldOut := q.heldOut ++ [(v, s.time + max 240 delay)] }
    if delay ≤ 240 then s1 else ((s1.sat (F.SL_STAT_LATE e i)).sat (F.LE_CNT_LATE e)).event (lePage e) 3
  else s.slotApply e i v

/-- The computation of a sample whose record was read (R362). -/
def State.slotCompute (e : Fin 4) (i : Fin 32) (rec_ : List Nat) (delay : Nat) (s : State) : State :=
  let raw := s.slotInput e i
  let lin := s.on (F.SL_IN_LIN e i) && s.rd (F.SL_IN_KIND e i) == 1
  let x := if lin then linearise (words32 rec_ 0x40 65) raw.toNat else raw
  let sp := s.slotSetpoint e i
  let s1 := s.freeNext.slotRange e i raw
  let st := s1.slState e i
  let q := s1.slot e i
  let o := loopCompute (s1.loopRegs e i) q (notchOf rec_ 0) (notchOf rec_ 0x14) st q.fresh x sp (s1.rdS (F.SL_OUTV e i))
  let out := sat32 o.out
  let s2 := (s1.modLoop e i fun q => { q with
    i := o.i, d := o.d, pvPrev := o.pv, n1 := o.n1, n2 := o.n2, fresh := false }).wrS (F.SL_OUTV e i) out
  let s3 := (s2.flag (F.SL_STAT_SAT e i) o.sat).inc (F.LE_SAMPLES_COUNT e)
  (s3.slotOut e i out delay).slotBand e i (sp - o.pv).natAbs

/-- Slots of the engine due at this tick below a slot, and all of them. -/
def State.dueBelow (s : State) (e : Fin 4) (k : Nat) : Nat :=
  ((List.finRange 32).filter fun (j : Fin 32) => decide (j.val < k) && s.slState e j != slOff && s.slotDue e j).length

/-- The sample instant of a slot (R359–R366).  The bound of R360 limits the delay. -/
def execSlotSample (e : Fin 4) (i : Fin 32) (delay : Nat) (s : State) : Result :=
  let q := s.slot e i
  if !s.slotDue e i || decide (s.time < q.sampled) || s.on (H.ISOLATED (lePage e)) || s.isSafe then .next s
  else
    let s1 := (s.modLoop e i fun q => { q with sampled := s.time + 1 }).wr (F.LE_STAT_DUE_MAX e)
      (max (s.rd (F.LE_STAT_DUE_MAX e)) (min 31 (s.dueBelow e 32)))
    if s.slState e i ≠ slOff ∧ s.time < q.busyTo then
      .next (((s1.sat (F.LE_CNT_OVERLOAD e)).latch (192 + e) (lePage e) 1 0 (some (.loop, e.val))).hwReact)
    else
      let s2 := (s1.slotMode e i).slotRef e i
      if s2.slState e i = slOff then .next s2.hwReact
      else
        let d := min delay (20 + 20 * s.dueBelow e i.val)
        let s3 := (s2.modLoop e i fun q => { q with busyTo := s.time + d }).wr (F.LE_STAT_DELAY_MAX e) (max d (s2.rd (F.LE_STAT_DELAY_MAX e)))
        match s3.memBytes (slotRecord e i) 0x144 (.loopEngine e) with
        | (some l, t) => .next ((if bit (t.slot e i).causes caUncorr then t.slotFree e i caUncorr else t).slotCompute e i l d).hwReact
        | (none, t) =>
          .next (if bit (t.slot e i).causes caUncorr then t
            else (t.slotHold e i caUncorr).latch (192 + e) (lePage e) 0 0 (some (.loop, e.val))).hwReact

/-- The oldest held output of a FIXLAT slot is applied (R360). -/
def execFixedLatencyApply (e : Fin 4) (i : Fin 32) (s : State) : Result :=
  match (s.slot e i).heldOut with
  | (v, t) :: r =>
    .next (if t ≤ s.time then (s.modLoop e i fun q => { q with heldOut := r }).slotApply e i v else s)
  | [] => .next s

/-! ### SL_MODE (R365, R375) -/

/-- SL_MODE.MODE (Table 14.3). -/
def State.modeWrite (e : Fin 4) (i : Fin 32) (mode : Nat) (s : State) : State :=
  let st := s.slState e i
  if st = slHeld ∧ mode ≠ 0 ∧ (s.slot e i).causes ≠ 0 then s.accessBusy (lePage e)
  else
    let s1 := s.wr (F.SL_MODE_MODE e i) mode
    if st = slHeld then s1.modLoop e i fun q => { q with release := mode == 1 }
    else if st = slAuto ∧ mode = 1 then s1.wr (F.SL_MAN e i) (s.rd (F.SL_OUTV e i))
    else s1

/-- A write of SL_MODE: MODE and the notch enables are live, FIXLAT is idle-only against the slot (R365, R375). -/
def execSlModeWrite (agent : Agent) (e : Fin 4) (i : Fin 32) (value : Nat) (s : State) : Result :=
  .next (s.write agent (lePage e) (0x114 + 0x60 * i.val) fun t =>
    let mode := if value % 4 = 3 then 1 else value % 4
    let fix := bits value 2 1
    let t1 := ((t.modeWrite e i mode).wr (F.SL_MODE_N1_EN e i) (bits value 3 1)).wr (F.SL_MODE_N2_EN e i) (bits value 4 1)
    if t.slState e i = slOff then t1.wr (F.SL_MODE_FIXLAT e i) fix
    else if fix = t.rd (F.SL_MODE_FIXLAT e i) then t1 else t1.accessBusy (lePage e))

/-! ### Moving a slot (R374) -/

/-- Every register of a slot but SL_OUT, SL_MODE.MODE and the outputs. -/
def slotFields (e i : Nat) : List Fld :=
  [F.SL_IN_KIND e i, F.SL_IN_NUM e i, F.SL_IN_LIN e i, F.SL_SP_KIND e i, F.SL_SP_NUM e i, F.SL_PER_PERIOD e i,
   F.SL_PHASE_PHASE e i, F.SL_MODE_FIXLAT e i, F.SL_MODE_N1_EN e i, F.SL_MODE_N2_EN e i, F.SL_PVOFFS e i, F.SL_PVGAIN e i,
   F.SL_KP e i, F.SL_KI e i, F.SL_KD e i, F.SL_FILT_DF e i, F.SL_FILT_SLEW e i, F.SL_FF e i, F.SL_FFOFFS e i, F.SL_OMIN e i,
   F.SL_OMAX e i, F.SL_BAND_BAND e i, F.SL_BAND_BAND_Q e i, F.SL_RANGE_PV_LO e i, F.SL_RANGE_PV_HI e i, F.SL_FAIL e i]

def slotOutFields (e i : Nat) : List Fld :=
  [F.SL_OUT_DST e i, F.SL_OUT_NUM e i, F.SL_OUT_GATE e i, F.SL_OUT_STN_MASK e i]

/-- Copy fields in pairs. -/
def State.copyFields : List Fld → List Fld → State → State
  | a :: r, b :: q, s => State.copyFields r q (s.wr b (s.rd a))
  | _, _, s => s

/-- May two slots fall due on one tick? -/
def coincide (p1 h1 p2 h2 : Nat) : Bool := ((h1 : Int) - h2) % (Nat.gcd p1 p2 : Int) == 0

/-- Do some `n` of these periods and phases fall due on one tick?  Samples that coincide in pairs coincide together. -/
def fallTogether : Nat → Nat → List (Nat × Nat) → Bool
  | 0, n, _ => n == 0
  | _ + 1, 0, _ => true
  | _ + 1, _ + 1, [] => false
  | f + 1, n + 1, x :: r => fallTogether f n (r.filter fun y => coincide x.1 x.2 y.1 y.2) || fallTogether f (n + 1) r

/-- On some tick 12 slots of the engine fall due with a slot of this period and phase (R374 step 1). -/
def State.tickFull (s : State) (e : Fin 4) (per phase : Nat) : Bool :=
  let due := (List.finRange 32).filter fun (j : Fin 32) => s.slState e j != slOff
  let times := due.map fun (j : Fin 32) => (max 100 (s.rd (F.SL_PER_PERIOD e j)), s.rd (F.SL_PHASE_PHASE e j))
  fallTogether 33 12 (times.filter fun y => coincide per phase y.1 y.2)

/-- Step 5 of R374: sources that name the moved slot; a slot that is not OFF ignores the write (R375). -/
def State.renameSources (e : Fin 4) (i : Fin 32) (e2 : Fin 4) (i2 : Fin 32) (s : State) : State :=
  let old := 32 * e.val + i.val
  let new := 32 * e2.val + i2.val
  s.each allSlots fun (p : Fin 4 × Fin 32) t =>
    let a := t.rd (F.SL_IN_KIND p.1 p.2) == 4 && t.rd (F.SL_IN_NUM p.1 p.2) == old
    let b := t.rd (F.SL_SP_KIND p.1 p.2) == 1 && t.rd (F.SL_SP_NUM p.1 p.2) == old
    if !a && !b then t
    else if t.slState p.1 p.2 != slOff then t.accessBusy (lePage p.1)
    else (t.ifDo a (·.wr (F.SL_IN_NUM p.1 p.2) new)).ifDo b (·.wr (F.SL_SP_NUM p.1 p.2) new)

/-- The owning berth moves a slot of an isolated engine to a free slot of another engine (R374, steps 1 to 6); the last
step is the berth's next write of SL_MODE. -/
def execSlotMove (agent : Agent) (e : Fin 4) (i : Fin 32) (e2 : Fin 4) (i2 : Fin 32) (s : State) : Result :=
  .next (s.write agent (lePage e2) (0x108 + 0x60 * i2.val) fun t =>
    let per := max 100 (t.rd (F.SL_PER_PERIOD e i))
    if !t.on (H.ISOLATED (lePage e)) || t.on (H.ISOLATED (lePage e2)) || t.slState e2 i2 != slOff ||
        t.tickFull e2 per (t.rd (F.SL_PHASE_PHASE e i)) then t
    else
      let dst := t.rd (F.SL_OUT_DST e i)
      let num := t.rd (F.SL_OUT_NUM e i)
      let t1 := t.copyFields (slotFields e i) (slotFields e2 i2)
      let t2 := match t1.memBytes (slotRecord e i) 0x200 (match agent with | .berth n => .berth n false | _ => .loopEngine e) with
        | (some l, u) => u.bankPuts (slotRecord e2 i2) l
        | (none, u) => u
      let t3 := if t2.drivenElsewhere e2 i2 dst num then t2.mismatch (lePage e2)
        else (t2.copyFields (slotOutFields e i) (slotOutFields e2 i2)).failDriven e2 i2
      let t4 := if dst = 2 ∧ num < 12 then
          ((t3.wr (F.CM_LOOP_ENGINE num) e2).wr (F.CM_LOOP_SLOT num) i2)
        else t3
      ((t4.renameSources e i e2 i2).modeWrite e2 i2 1).hwReact)

/-! ### Converters (R376–R378) -/

def State.modAdc (c : Fin 4) (f : AdcConv → AdcConv) (s : State) : State :=
  { s with ct := { s.ct with adc := s.ct.adc.set c (f s.ct.adc[c]) } }

/-- The sequence table a frame runs: the fixed entries of converter 3 and entry 19 stand for themselves (R376). -/
def State.adcTable (s : State) (c : Fin 4) : List (Nat × Nat × Bool) :=
  (List.range 20).map fun k =>
    if c = 3 ∧ k < 4 then (44 + k, 0, false)
    else if k = 19 then (0x3F, 0, false)
    else
      let ch := s.rd (F.ADC_SEQ_CH c k)
      (if 12 * c.val ≤ ch ∧ ch < 12 * c.val + 12 then ch else 0x3F, s.rd (F.ADC_SEQ_DIV c k), s.on (F.ADC_SEQ_FIFO c k))

/-- Does entry `k` convert on a frame (R376, R378)? -/
def converts (table : List (Nat × Nat × Bool)) (frame k : Nat) : Bool :=
  if k = 19 then frame % 1000 == 0
  else match table[k]? with
    | some (ch, div, _) => ch != 0x3F && frame % 2 ^ div == 0
    | none => false

/-- The start of a converter's frame (R376). -/
def execAdcFrame (c : Fin 4) (s : State) : Result :=
  let at_ := s.time / 1000 * 1000
  let q := s.ct.adc[c]
  if !bit (s.rd F.ADC_CFG_EN) c || s.on (H.ISOLATED adcPage) || q.isolated || (decide (at_ ≤ q.frameAt) && !q.table.isEmpty) then .next s
  else
    let t := s.adcTable c
    .next (s.modAdc c fun q => { q with frameAt := at_, table := t, open_ := (List.range 20).filter (converts t (s.time / 1000)) })

/-- The reference result (R378); a slot whose sample is under way is held from its next sample (Table 14.6). -/
def State.adcRef (c : Fin 4) (code : Nat) (s : State) : State :=
  let s1 := s.wr (F.ADC_REFRES_CODE c) code
  let stale := fun (b : Nat) (t : State) => t.each (List.range 12) fun j u => u.wr (F.ADC_RES_STALE (12 * c.val + j)) b
  if 2040 ≤ code ∧ code ≤ 2056 then
    let s2 := s1.modAdc c fun q => { q with refRun := 0 }
    if (s.ct.adc[c]).refBad && !(s.ct.adc[c]).isolated then
      let s3 := stale 0 (s2.modAdc c fun q => { q with refBad := false })
      s3.each (s3.slotsOfConverter c) fun p t => t.slotFree p.1 p.2 caRef
    else s2
  else
    let run := (s.ct.adc[c]).refRun + 1
    let s2 := s1.modAdc c fun q => { q with refRun := min run 2 }
    if 2 ≤ run && !(s.ct.adc[c]).refBad then
      let s3 := stale 1 (s2.modAdc c fun q => { q with refBad := true })
      (s3.each (s3.slotsOfConverter c) fun p t => t.ifDo (decide ((t.slot p.1 p.2).busyTo ≤ t.time)) (·.slotHold p.1 p.2 caRef)).latch (199 + c) adcPage c 0 (some (.refconv, c.val))
    else s2

/-- A result into the FIFO (R377). -/
def State.adcPush (c : Fin 4) (word : Nat) (s : State) : State :=
  let q := s.ct.adc[c]
  if 32 ≤ q.fifo.length then ((s.sat (F.ADC_FIFO_OVF c)).latch (199 + c) adcPage (4 + c) 0 none)
  else
    let n := q.fifo.length + 1
    ((s.modAdc c fun q => { q with fifo := q.fifo ++ [word] }).wr (F.ADC_FIFO_LEVEL c) n).ifDo
      (n == max 1 (s.rd (F.ADC_FIFO_THRESH c))) (·.event adcPage c)

/-- The largest code of a channel while a motor that names it coasts (R349). -/
def State.kePeak (ch code : Nat) (s : State) : State :=
  s.each (List.finRange 12) fun (n : Fin 12) t =>
    t.ifDo (t.rd (F.CM_KE2_ADC n) == ch && (t.cmState n == cmListen || (t.motor n).probe.isSome)) fun u =>
      u.modMotor n fun m => { m with peak := max m.peak code }

/-- The result of an entry of the running frame (R376–R378). -/
def execAdcResult (c : Fin 4) (k : Fin 20) (code : Nat) (s : State) : Result :=
  let q := s.ct.adc[c]
  let code := code % 4096
  if !q.open_.contains k.val || decide (s.time < q.frameAt + 50 * (k.val + 1)) then .next s
  else
    let s1 := s.modAdc c fun q => { q with open_ := q.open_.filter (· != k.val) }
    if k.val = 19 then .next (s1.adcRef c code).hwReact
    else
      match q.table[k.val]? with
      | some (ch, _, push) =>
        let s2 := ((s1.wr (F.ADC_RES_CODE ch) code).inc (F.ADC_RES_SEQ ch)).kePeak ch code
        let word := code + ch * 2 ^ 12 + (q.frameAt + 50 * k.val) % 2 ^ 32 * 2 ^ 32
        .next (if push then s2.adcPush c word else s2).hwReact
      | none => .next s1

/-! ### PWM generators (R379) -/

/-- A period of a generator begins, with the duty then in force. -/
def execPwmPeriodStart (n : Fin 96) (s : State) : Result :=
  if h : 88 ≤ n.val ∧ n.val < 92 ∧ s.extPoly (n.val - 88) = true then .next (s.zRefStep ⟨n.val - 88, by omega⟩) else
  let per := max 2 (s.rd (F.PWM_PER_PER n))
  if s.on (F.PWM_CFG_EN n) && s.time % per == s.rd (F.PWM_PHASE_PHASE n) % per then
    .next ({ s with ct := { s.ct with starts := s.ct.starts.set n s.time } }.wr (F.PWM_DUTY_DUTY n) s.ct.duties[n])
  else .next s

end Sys2Proof.Machine
end

