-- ==== Sys2Proof/Machine/Commit.lean ====
section
/-! DEFINITION. The commit gate (R44–R47, R81, R84, R117, R129). -/
namespace Sys2Proof.Machine

/-! ### The image start on the line grid (R44, R81) -/

/-- Image start of station k for a page: anchor, offset and trim, ticks. -/
def State.imageStart (s : State) (sl : Slot) (anchor k : Nat) : Int :=
  (anchor : Int) + sl.offs.getD k 0 + s.rdS (F.PT_STN_TRIM_TICKS k)

/-- Stations of a slot's set, in letter order. -/
def Slot.set_ (sl : Slot) : List (Fin 6) := (List.finRange 6).filter fun (k : Fin 6) => bit sl.stations k

/-- The commit instant. -/
def State.commitAt (s : State) (sl : Slot) (anchor : Nat) : Int :=
  match (sl.set_.map fun (k : Fin 6) => s.imageStart sl anchor k.val).min? with
  | some t => t - sl.commitLead
  | none => anchor

/-- s0: the last scan whose reference instant is at or before an instant (1/256 tick). -/
def State.scanBefore (s : State) (k : Nat) (t : Int) : Int :=
  let n := s.scanNear k t
  if s.refAt k (n + 1) ≤ t then n + 1 else if s.refAt k n ≤ t then n else n - 1

/-- G of R81: lines from t_ref(s0) to the image start, ties to the later line; `d` in 1/256 tick, T_line in 1/65,536 tick. -/
def lineGrid (d : Int) (tline : Nat) : Int := iqdiv (512 * d + tline) (2 * tline)

/-! ### Conditions (Table 2.3) -/

/-- A head test or a gap Assay runs at the station (R96, R533). -/
def State.headTest (s : State) (k : Nat) : Bool :=
  s.on (F.IL_TEST_STAT_RUNNING k) || s.fc.assays.any fun a => a.running && a.kind.gap &&
    (if a.kind = .prbs then a.unit / 16 == k else a.unit == k)

/-- The head is ready (R167, R411, R416, Table 2.3). -/
def State.headFit (s : State) (k : Nat) : Bool :=
  s.hlState k == hlUp && s.on (F.HL_STAT_HEAD_OK k) && s.on (F.HL_STAT_HEAD_READY k) && !s.on (F.HL_STAT_QUENCH k) &&
    bit (s.rd F.CK_STAT_DLL) k && !s.clocks.refLong && !s.headTest k && !s.on (H.ISOLATED (hlPage k)) && !s.on (H.ISOLATED (ilPage k))

/-- The polygon is locked (R80). -/
def State.polyFit (s : State) (k : Nat) : Bool := s.btState k == btLocked && !s.on (H.ISOLATED (btPage k))

/-- A slot of an isolated engine whose destination another slot drives is out of service (R374). -/
def State.slotRetired (s : State) (e : Fin 4) (i : Fin 32) : Bool :=
  s.on (H.ISOLATED (lePage e)) && s.drivenElsewhere e i (s.rd (F.SL_OUT_DST e i)) (s.rd (F.SL_OUT_NUM e i))

/-- Every HV slot that meets the set is in band (R371). -/
def State.hvFit (s : State) (stations : Nat) : Bool :=
  allSlots.all fun p => s.rd (F.SL_OUT_GATE p.1 p.2) != 1 || s.rd (F.SL_OUT_STN_MASK p.1 p.2) &&& stations == 0 ||
    s.on (F.SL_STAT_IN_BAND p.1 p.2) || s.slotRetired p.1 p.2

/-- Every fuser slot is in band (R371). -/
def State.fuserFit (s : State) : Bool :=
  allSlots.all fun p => s.rd (F.SL_OUT_GATE p.1 p.2) != 2 || s.on (F.SL_STAT_IN_BAND p.1 p.2) || s.slotRetired p.1 p.2

/-- The bank pages of an area are sealed, but those that no seal covers (R219). -/
def State.areaSealed (s : State) (a n : Nat) : Bool :=
  (List.range ((a % 4096 + n + 4095) / 4096)).all fun i => s.isSealed (a / 4096 + i) || s.mu.noSeal.contains (a / 4096 + i)

/-- The tables that the bound imaging set names are loaded and sealed (R31, R127). -/
def State.tablesFit (s : State) (k : Fin 6) : Bool :=
  let im := fun f => sbBase k.val + s.boundRd k 2 s.time f
  (!(s.link k).badTable || (s.staged (imPage k) && decide ((s.bind k 2).at_ < s.time))) &&
    s.areaSealed (im (F.IM_TBASE_LUT_OFFS k.val)) 0x2000 && s.areaSealed (im (F.IM_TBASE_SCR_OFFS k.val)) 0x80000 &&
    s.areaSealed (im (F.IM_TBASE_RAMP_OFFS k.val)) 0x800

/-- The ring of a station is primed for a page (R31, R117, R179). -/
def State.primed (s : State) (k : Fin 6) (page : Nat) : Bool :=
  (s.ctxsOf k).any (fun x => s.rd (F.CTX_PAGE_ID x) == page && (s.ctx x).order.isNone) && s.tablesFit k && s.ringBig k s.time &&
    !s.on (H.ISOLATED (imPage k)) && !s.on (H.ISOLATED 0x048) && !s.on (H.ISOLATED 0x058) && !s.on (H.ISOLATED 0x059)

/-- PT_GATE_STAT.COMMIT bits of a page with an anchor. -/
def State.commitReasons (s : State) (sl : Slot) : Nat :=
  let gone := match s.page? sl.page with
    | some p => p.st == .retired || ((s.job? p.job).map (·.aborted)).getD true
    | none => true
  b2n (!sl.set_.all fun k => s.polyFit k) + 2 * b2n (!sl.set_.all fun k => s.headFit k) + 4 * b2n (!s.hvFit sl.stations) +
  8 * b2n (!s.fuserFit) + 16 * b2n (!sl.set_.all fun k => s.primed k sl.page) + 64 * b2n gone + 128 * b2n (s.on (H.ISOLATED ptPage))

/-! ### The trailer (R129) -/

/-- The registration block at a commit instant: a trailer that is due and fits the pitch goes with the page that commits. -/
def State.trailerDecide (passes : Bool) (sl : Slot) (i : Fin 16) (anchor : Nat) (s : State) : Bool × State :=
  let every := s.rd F.REG_CFG_EVERY
  let s1 := s.modSta fun q => { q with reg := { q.reg with since := q.reg.since + 1 } }
  let due := every != 0 && (s1.on F.REG_STAT_DUE || decide (every ≤ s1.sta.reg.since))
  if !passes || !due then (false, s1.flag F.REG_STAT_DUE due)
  else
    let h := ((s1.page? sl.page).map (·.height)).getD 0
    let last := s1.trailerLines (sl.set_.length - 1)
    let tline := s1.rd (F.BT_TLINE_TICKS (s1.rd F.REG_CFG_REF))
    if (h + last) * tline + 100000 * 65536 ≤ sl.pitch * 65536 then
      let m : MarkPage := ⟨i.val, sl.page, anchor, h, sl.set_.map (·.val), last,
        s1.sta.reg.phase == 2 && decide (s1.sta.reg.setAt < s1.time)⟩
      let s2 := (s1.modSta fun q => { q with reg := { q.reg with since := 0, pages := q.reg.pages ++ [m] } }).wr F.REG_STAT_DUE 0
      (true, (s2.modSlot i fun sl => { sl with trailer := true }).event 0x040 3)
    else
      let s2 := ((s1.wr F.REG_STAT_DUE 1).sat F.REG_CNT_POSTPONED).event 0x040 2
      (false, s2.raise 70 0x040 1)

/-! ### The gate -/

/-- A station takes up a page at its commit: grid, trailer, sets, contexts (R81, R84, R107, R130, R179). -/
def State.stationCommit (i : Fin 16) (sl : Slot) (p : Page) (anchor : Nat) (marks : Bool) (k : Fin 6) (s : State) : State :=
  let start := s.imageStart sl anchor k
  let s0 := s.scanBefore k (256 * start)
  let g := lineGrid (256 * start - s.refAt k s0) (s.boundRd k 0 s.time (F.BT_TLINE_TICKS k.val))
  let idx := (sl.set_.filter fun j => j < k).length
  let f : Feed := {
    slot := i.val, page := p.id, s0 := s0.toNat, g := g, height := p.height, width := p.width, fmt := p.fmt, lines := p.lines
    trailer := if marks then s.trailerLines idx else 0, idx := idx, started := false }
  let s1 := s.modFeeds k fun l => l ++ [f]
  let s2 := s1.each (List.finRange 3) fun (j : Fin 3) t =>
    t.ifDo (t.staged (bindPage k j) && (t.bind k j).slot.isNone && decide ((t.bind k j).at_ < t.time)) (·.modBind k j fun b =>
      { b with slot := some i.val })
  let s3 := s2.each ((s2.ctxsOf k).filter fun (x : Fin 24) => s2.rd (F.CTX_PAGE_ID x) == p.id) fun x t =>
    t.modCtx x fun c => { c with order := some t.sta.commits }
  s3.ifDo (s3.on (F.IL_THERM_STAT_CAP k.val) && (s3.ilace k).cool && (s3.ilace k).coolPage.isNone) (·.modIlace k fun q =>
    { q with coolPage := some p.id })

/-- The gate passes: the page is COMMITTED (R46). -/
def State.commitPass (i : Fin 16) (sl : Slot) (p : Page) (anchor : Nat) (marks : Bool) (s : State) : State :=
  let starts := (List.range 6).map fun k => (s.imageStart sl anchor k).toNat
  let s1 := (s.modSlot i fun sl => { sl with starts := starts, begun := 0, finished := 0 }).wr (F.PT_SLOT_STATE i.val) 2
  let s2 := (s1.modPage p.id fun q => { q with commits := q.commits + 1 }).pageTo p.id .committed
  let s3 := s2.modSta fun q => { q with commits := q.commits + 1 }
  (s3.each sl.set_ fun k t => t.stationCommit i sl p anchor marks k).codecRegs

/-- A feed gate due in this tick applies the page timeline's set before a commit instant of the tick (Table 2.5). -/
def State.feedFirst (s : State) : State :=
  match s.tl.pitches with
  | q :: _ => if q.texp ≤ s.time + s.rd F.PT_FEED_LEAD_TICKS then s.ptBoundary else s
  | [] => s

/-- The commit instant of a fed page with an anchor (R45).  The sets of the page timeline and of the registration page apply
first (Table 2.5, R131), and the gate sees the state as it stands. -/
def execCommitGate (slot : Fin 16) (s : State) : Result :=
  match s.tl.slots[slot] with
  | none => .next s
  | some sl =>
    match sl.anchor with
    | none => .next s
    | some anchor =>
      if s.rd (F.PT_SLOT_STATE slot.val) ≠ 1 ∨ sl.blank = true ∨ (s.time : Int) < s.commitAt sl anchor then .next s
      else
        let s := s.feedFirst
        let reasons := s.commitReasons sl
        let d := (s.boundary 0x040).trailerDecide (reasons == 0) sl slot anchor
        match s.page? sl.page with
        | some p => .next (if reasons = 0 then d.2.commitPass slot sl p anchor d.1 else d.2.failCommit slot reasons)
        | none => .next (d.2.failCommit slot reasons)

end Sys2Proof.Machine
end

