-- ==== Sys2Proof/Machine/Edkar.lean ====
section
/-! DEFINITION. The commands of the Edkar ports (11). -/
namespace Sys2Proof.Machine

/-! ### Pieces -/

def State.portState (s : State) (p : Fin 2) : Nat := s.rd (H.STATE (edPage p))

/-- Modules 1–15. -/
def modules : List (Fin 16) := (List.finRange 16).filter (·.val != 0)

/-- The AES key of a module; a slot of zeros holds none (R297, R470). -/
def State.edKey (s : State) (p : Fin 2) (m : Fin 16) : Option (List Nat) :=
  let k := s.ldBytes (0x05310000 + 16 * (16 * p.val + m.val)) 16
  if k.all (· == 0) then none else some k

/-- A module is authenticated: its session key is set. -/
def State.edAuthed (s : State) (p : Fin 2) (m : Fin 16) : Bool := bit (s.rd (F.ED_PRESENT_AUTHED p)) m

/-- A module is taken off the air: its state, its open work, and QUARANTINE to be sent (R294, R295). -/
def State.edSilence (p : Fin 2) (m : Fin 16) (st : Nat) (s : State) : State :=
  ((s.leaveBus p m).setModState p m st).modMod p m fun q => { q with quarantine := true }

/-- AUTH_FAIL and quarantine. -/
def State.authFail (p : Fin 2) (m : Fin 16) (s : State) : State :=
  (s.edSilence p m edQuarantined).pathReport.raise (225 + 2 * p.val) (edPage p) 2

/-- The threshold of ED_AUTH.FAILS, 0 reading back as 1. -/
def State.authLimit (s : State) (p : Fin 2) : Nat := max 1 (s.rd (F.ED_AUTH_FAILS p))

/-! ### The cycle (R288–R292) -/

/-- Send the open transaction of a module; a retry is counted (R291), a repeat after PENDING is not (R292). -/
def State.edSend (p : Fin 2) (m : Fin 16) (t : EdTrans) (s : State) : State :=
  let s1 := s.modMod p m fun q => { q with trans := some { t with answered := false, pending := false } }
  (s1.ifDo (decide (0 < t.tries) && !t.pending) (·.sat (F.ED_CNT_B_RETRY p))).emit (.frame p m t.type t.tid t.eack t.payload)

/-- A new transaction with the module's next TID, 1–255 (R291). -/
def State.edNew (p : Fin 2) (m : Fin 16) (type : Nat) (payload : List Nat) (s : State) : State :=
  let q := s.edMod p m
  let tid := q.lastTid % 255 + 1
  (s.modMod p m fun q => { q with lastTid := tid }).edSend p m ⟨type, tid, q.eack, payload, 0, false, false⟩

/-- The challenge C, drawn from the random source (R297): a free value. -/
def State.edChallenge (p : Fin 2) (m : Fin 16) (s : State) : State :=
  let c := leBytes (s.freeVal (2 ^ 128)) 16
  (s.freeNext.modMod p m fun q => { q with challenge := false, chal := c }).edNew p m 0x04 c

/-- The first pending item of R290 for a polled module.  While role 0x2 moves, only polls and repeats go out (Table 17.5). -/
def State.edItem (p : Fin 2) (m : Fin 16) (s : State) : State :=
  let q := s.edMod p m
  let firm := (s.holder 2).isSome
  match q.trans with
  | some t => s.edSend p m t
  | none =>
    if q.quarantine then s.edNew p m 0x08 []
    else match firm, q.notices, q.announces, q.feeds with
      | true, (sheet, code) :: r, _, _ => (s.modMod p m fun q => { q with notices := r }).edNew p m 0x06 (leBytes sheet 4 ++ [code])
      | true, [], a :: r, _ => (s.modMod p m fun q => { q with announces := r }).edNew p m 0x05 a
      | true, [], [], f :: r => (s.modMod p m fun q => { q with feeds := r }).edNew p m 0x07 f
      | _, _, _, _ => if firm && q.challenge then s.edChallenge p m else s.edNew p m 0x02 []

/-- A module's window opens after the frame sent to it (R288). -/
def State.edPoll (p : Fin 2) (m : Fin 16) (probe : Bool) (s : State) : State :=
  let s1 := s.modMod p m fun q =>
    { q with window := true, frames := 0, active := false, valid := false, violated := false
             trans := if probe then none else q.trans }
  if probe then s1.edNew p m 0x03 [] else s1.edItem p m

/-- The absent address whose turn it is (R288). -/
def State.edProbe (s : State) (p : Fin 2) : Option (Fin 16) :=
  let absent : List (Fin 16) := modules.filter fun (m : Fin 16) => s.modState p m == edAbsent
  match absent.find? fun m => decide (s.ed[p].rotate < m.val) with
  | some m => some m
  | none => absent.head?

/-- Announces that have not begun take the route active at this boundary and are queued (R301, Table 11.9). -/
def State.edBegin (s : State) : State :=
  let new := s.ed[1].announces.filter fun a => a.route.isNone && !a.closed
  s.each new fun a t =>
    let route := t.route
    let t1 := (t.modPort 1 fun q => { q with announces := q.announces.map fun b =>
      if b.sheet = a.sheet then { b with route := some (route.map (·.val)) } else b }).wr (F.ED_LAST_SHEET_SHEET 1) a.sheet
    t1.each route fun m u => u.modMod 1 m fun q => { q with announces := q.announces ++ [a.payload] }

/-- The cycle that ends is judged good unless activity has made it bad; 16 good ones end BUS_FAULT, and its modules are
identified afresh (R300). -/
def State.edJudge (p : Fin 2) (s : State) : State :=
  let q := s.ed[p]
  let s1 := s.modPort p fun q => if q.badNow then { q with badNow := false } else { q with badRun := 0, goodRun := q.goodRun + 1 }
  if q.cycleAt ≠ 0 ∧ s.portState p = 3 ∧ !q.badNow ∧ 16 ≤ q.goodRun + 1 then
    ((s1.portDrop p).wr (H.STATE (edPage p)) 2).pathReport
  else s1

/-- The 1 ms boundary of a port that runs (R288–R290, R307). -/
def execEdkarCycle (port : Fin 2) (s : State) : Result :=
  let b := s.time / 100000 * 100000
  if s.portState port = 0 ∨ b < s.ed[port].cycleAt then .next s
  else
    let s1 := (s.boundary (edPage port)).edJudge port
    let s2 := if s1.portState port = 1 ∧ s1.ed[port].enumLeft = 0 then s1.wr (H.STATE (edPage port)) 2 else s1
    let s3 := (s2.wr (F.ED_CYCLE_N port) (b / 100000)).modPort port fun q => { q with cycleAt := b + 1, enumLeft := q.enumLeft - 1 }
    let s4 := s3.ifDo (port == 1) (·.edBegin)
    let probe := s4.edProbe port
    let polled := modules.filter fun (m : Fin 16) =>
      s4.modPresent port m || (s4.edMod port m).quarantine || some m == probe
    let s5 := s4.modPort port fun q => { q with rotate := (probe.map (·.val)).getD q.rotate }
    let s6 := s5.emit (.frame port 0 0x01 0 0 (leBytes (b / 100000) 4 ++ leBytes b 8))
    .next ((s6.each polled fun m t => t.edPoll port m (some m == probe)).hwReact)

/-! ### Frames received (R287, R294–R299) -/

/-- Characters outside every window: the cycle is bad; the third in a row enters BUS_FAULT, which refuses every pending
announce (R300, Table 11.9). -/
def State.edActivity (p : Fin 2) (s : State) : State :=
  if s.portState p = 0 ∨ s.ed[p].badNow then s
  else
    let s1 := (s.modPort p fun q => { q with badNow := true, badRun := q.badRun + 1, goodRun := 0 }).sat (F.ED_CNT_A_BAD_CYCLES p)
    if 3 ≤ s1.ed[p].badRun ∧ s1.portState p ≠ 3 then
      let s2 := (s1.wr (H.STATE (edPage p)) 3).ifDo (p == 1) (·.refuseOpen)
      (s2.pathReport).raise (224 + 2 * p.val) (edPage p) 1
    else s1

def execOutOfWindowActivity (port : Fin 2) (s : State) : Result := .next (s.edActivity port)

/-- A malformed frame is dropped and counted (R287). -/
def State.edMalformed (p : Fin 2) (m : Fin 16) (s : State) : State := (s.sat (F.ED_CNT_A_MALFORMED p)).sat (F.ED_MOD_MALF p m)

/-- The frame is one of those taken: a THROTTLED module has its first THR_FRAMES (R299).  Outside its window it is activity
outside every window (R295, R300). -/
def State.edTake (p : Fin 2) (m : Fin 16) (k : State → State) (s : State) : State :=
  let q := s.edMod p m
  if s.portState p = 0 ∨ m = 0 then s
  else if !q.window then s.edActivity p
  else
    let s1 := s.modMod p m fun q => { q with frames := q.frames + 1, active := true }
    if s.modState p m = edThrottled ∧ max 1 (s.rd (F.ED_LIMIT_THR_FRAMES p)) < q.frames + 1 then s1.sat (F.ED_CNT_C_DROPPED p)
    else k s1

/-- The tag of a frame (R298): TYPE, TID and the payload before the tag. -/
def State.edTag (s : State) (p : Fin 2) (m : Fin 16) (type tid : Nat) (payload : List Nat) : List Nat :=
  (Config.cmac (s.edMod p m).key
    (leBytes (s.rd (F.ED_CYCLE_N p)) 4 ++ [16 + m.val, type, tid, 0, payload.length + 4] ++ payload)).take 4

/-- A frame whose layout holds: its tag, whether the module is heard (R296), then `k`. -/
def State.edFrame (p : Fin 2) (m : Fin 16) (type tid : Nat) (payload tag : List Nat) (k : State → State) (s : State) : State :=
  s.edTake p m fun t =>
    if t.edAuthed p m then
      if tag.length ≠ 4 then t.edMalformed p m
      else if tag = t.edTag p m type tid payload then k (t.modMod p m fun q => { q with tagFails := 0, valid := true })
      else
        let t1 := (t.edMalformed p m).modMod p m fun q => { q with tagFails := q.tagFails + 1 }
        if t.authLimit p ≤ (t1.edMod p m).tagFails ∧ t.modHeard p m then t1.authFail p m else t1
    else if tag ≠ [] then t.edMalformed p m
    else
      let t1 := t.modMod p m fun q => { q with valid := true }
      if t.on (F.ED_CFG_AUTH_EN p) ∧ !t.modHeard p m then t1.sat (F.ED_CNT_C_UNAUTH p) else k t1

/-- A valid reply to the open transaction: one of TYPE `want` with its TID, the first in the window (R291, Table 11.9). -/
def State.edReply (p : Fin 2) (m : Fin 16) (wants : List Nat) (tid : Nat) (k : EdTrans → State → State) (s : State) : State :=
  match (s.edMod p m).trans with
  | some t =>
    if wants.contains t.type && t.tid == tid && !t.answered then
      k t (s.modMod p m fun q => { q with trans := none })
    else s
  | none => s

def execMalformedFrame (port : Fin 2) (m : Fin 16) (s : State) : Result := .next (s.edTake port m (·.edMalformed port m))

/-- STATUS (Table 11.4): its flags are recorded. -/
def execModuleStatus (port : Fin 2) (m : Fin 16) (tid flags events : Nat) (tag : List Nat) (s : State) : Result :=
  .next (s.edFrame port m 0x41 tid [flags, events] tag fun t =>
    ((t.modMod port m fun q => { q with flags := flags % 32 }).pathReport).edReply port m [0x02] tid fun _ u => u)

/-- A module answers a probe (Table 11.5). -/
def State.edIdentify (p : Fin 2) (m : Fin 16) (vendor model serial caps : Nat) (s : State) : State :=
  let old := (s.edMod p m).serial
  let auth := s.on (F.ED_CFG_AUTH_EN p)
  let s1 := s.modMod p m fun q => { q with serial := some serial, authSup := bit caps 0, flags := 0, eack := if old = some serial then q.eack else 0, silentRun := 0, malfRun := 0 }
  let s2 := ((s1.wr (F.ED_MOD_VENDOR p m) vendor).wr (F.ED_MOD_MODEL p m) model).setModState p m (if auth then edIdent else edActive)
  let s3 := s2.ifDo (auth && bit caps 0 && (s.edKey p m).isSome) (·.modMod p m fun q => { q with challenge := true, authAt := s.time })
  let s4 := s3.ifDo (match old with | some o => o != serial | none => false) (·.event (edPage p) 0)
  s4.event (edPage p) 1

/-- ADDR_CONFLICT (Table 11.5). -/
def State.edConflict (p : Fin 2) (m : Fin 16) (s : State) : State :=
  (s.edSilence p m Machine.edConflict).pathReport.raise (225 + 2 * p.val) (edPage p) 4

/-- IDENTITY: it carries no tag (R298); a second serial at the address is a conflict (R294). -/
def execIdentity (port : Fin 2) (m : Fin 16) (tid vendor model serial _version _cls caps : Nat) (s : State) : Result :=
  .next (s.edTake port m fun t =>
    let t := t.modMod port m fun q => { q with valid := true }
    if t.modPresent port m then
      if (t.edMod port m).serial = some serial then t else t.edConflict port m
    else if t.modState port m = edAbsent then t.edReply port m [0x03] tid fun _ u => u.edIdentify port m vendor model serial caps
    else t)

/-- AUTH_RESPONSE (R297): the session key is set, or a failure is counted. -/
def execAuthResponse (port : Fin 2) (m : Fin 16) (tid : Nat) (response : List Nat) (s : State) : Result :=
  .next (s.edTake port m fun t =>
    (t.modMod port m fun q => { q with valid := true }).edReply port m [0x04] tid fun _ u =>
      match u.edKey port m with
      | none => u
      | some k =>
        let q := u.edMod port m
        let cs := q.chal ++ leBytes (q.serial.getD 0) 8
        if response = Config.cmac k (0x02 :: cs) then
          let u1 := (u.modMod port m fun q => { q with key := Config.cmac k (0x01 :: cs), authFails := 0, tagFails := 0 }).setAuthed port m true
          u1.ifDo (u1.modState port m == edIdent) (·.setModState port m edActive)
        else
          let u1 := u.modMod port m fun q => { q with authFails := q.authFails + 1, challenge := true }
          if u.authLimit port ≤ (u1.edMod port m).authFails ∧ u.modState port m = edIdent then u1.authFail port m else u1)

/-- A final decision on an announced sheet (R301, R302). -/
def State.announceReply (m : Fin 16) (sheet decision : Nat) (s : State) : State :=
  match s.ed[1].announces.find? (·.sheet == sheet) with
  | none => s
  | some a =>
    let late := a.closed || decide (a.deadline ≤ s.time)
    let s1 := if late then s else s.modPort 1 fun q => { q with announces := q.announces.map fun b =>
      if b.sheet = sheet then { b with answers := (m.val, decision) :: b.answers } else b }
    if decision ≠ 1 then s1
    else match a.course with
      | some c => s1.modMod 1 m fun q => { q with notices := q.notices ++ [(sheet, c)] }
      | none => s1.modMod 1 m fun q => { q with accepted := sheet :: q.accepted }

/-- The feeder's decision (R304). -/
def State.feedReply (sheet decision : Nat) (s : State) : State :=
  let open_ := s.ed[0].feeds.any fun f => f.sheet == sheet && !f.done
  let s1 := s.modPort 0 fun q => { q with feeds := q.feeds.map fun f => if f.sheet = sheet then { f with done := true } else f }
  if open_ ∧ decision ≠ 1 then s1.raise 229 (edPage 0) 6 else s1

/-- SHEET_REPLY (R292, R301, R304).  A decision code above 3 is no valid reply. -/
def execSheetReply (port : Fin 2) (m : Fin 16) (tid sheet decision : Nat) (tag : List Nat) (s : State) : Result :=
  .next (s.edFrame port m 0x44 tid (leBytes sheet 4 ++ [decision]) tag fun t =>
    if 4 ≤ decision then t
    else t.edReply port m [0x05, 0x07] tid fun tr u =>
      if leNat (tr.payload.take 4) ≠ sheet then u.modMod port m fun q => { q with trans := some tr }
      else if decision = 0 then u.modMod port m fun q => { q with trans := some { tr with answered := true, pending := true } }
      else if tr.type = 0x05 then u.announceReply m sheet decision
      else u.feedReply sheet decision)

/-- ACK (R290): a notice or QUARANTINE is complete. -/
def execModuleAck (port : Fin 2) (m : Fin 16) (tid : Nat) (tag : List Nat) (s : State) : Result :=
  .next (s.edFrame port m 0x45 tid [] tag fun t =>
    t.edReply port m [0x06, 0x08] tid fun tr u =>
      u.modMod port m fun q => { q with quarantine := q.quarantine && tr.type != 0x08 })

/-- EVENT (R305, Table 11.7); a missing sheet or a jam goes to berth 3 (code 4 or 5 from E0, 6 or 7 from E1), which declares it
through SS_CMD (R326). -/
def execModuleEvent (port : Fin 2) (m : Fin 16) (eseq code sheet time : Nat) (tag : List Nat) (s : State) : Result :=
  .next (s.edFrame port m 0x46 0 ([eseq, code] ++ leBytes sheet 4 ++ leBytes time 8) tag fun t =>
    let q := t.edMod port m
    if eseq ≠ q.eack % 255 + 1 then t
    else
      let t1 := t.modMod port m fun q => { q with eack := eseq }
      match code with
      | 1 => t1.modMod port m fun q => { q with received := sheet :: q.received }
      | 2 => t1.emit (.toRole 3 (4 + 2 * port.val) sheet)
      | 3 => t1.emit (.toRole 3 (5 + 2 * port.val) sheet)
      | 4 => (t1.modMod port m fun q => { q with flags := q.flags &&& 30 }).pathReport
      | 5 => (t1.modMod port m fun q => { q with flags := q.flags ||| 1 }).pathReport
      | 6 => t1.modMod port m fun q => { q with flags := q.flags ||| 4 }
      | _ => t1)

/-! ### Windows, budgets and deadlines -/

/-- The window closes on an unanswered transaction: a retry, at most two, or failure (R291); a probe is not repeated, since
the next absent address has the next cycle (R288). -/
def State.edUnanswered (p : Fin 2) (m : Fin 16) (s : State) : State :=
  match (s.edMod p m).trans with
  | some t =>
    if t.answered then s
    else if t.type = 0x03 then s.modMod p m fun q => { q with trans := none }
    else if 2 ≤ t.tries then s.transFail p m
    else s.modMod p m fun q => { q with trans := some { t with tries := t.tries + 1 } }
  | none => s

/-- The close of a module's window (R291, R294). -/
def execModuleWindowClose (port : Fin 2) (m : Fin 16) (s : State) : Result :=
  let q := s.edMod port m
  if s.portState port = 0 ∨ !q.window then .next s
  else
    let s1 := (s.edUnanswered port m).modMod port m fun q =>
      { q with window := false
               silentRun := if q.active then 0 else q.silentRun + 1
               malfRun := if q.active && !q.valid then q.malfRun + 1 else 0 }
    let q1 := s1.edMod port m
    if !s1.modPresent port m then .next s1.hwReact
    else if 3 ≤ q1.silentRun then
      .next ((((s1.leaveBus port m).setModState port m edAbsent).pathReport).raise (224 + 2 * port.val) (edPage port) 0)
    else if 8 ≤ q1.malfRun then .next (s1.edConflict port m)
    else .next s1.hwReact

/-- A budget violation, one a cycle (R299): ACTIVE is throttled, THROTTLED is quarantined at QUAR_CNT within 1 s. -/
def execBudgetViolation (port : Fin 2) (m : Fin 16) (s : State) : Result :=
  if s.portState port = 0 ∨ m = 0 ∨ (s.edMod port m).violated then .next s
  else
    let s1 := (s.sat (F.ED_MOD_VIOL port m)).modMod port m fun q =>
      { q with violated := true, violTimes := s.time :: q.violTimes.filter fun t => decide (s.time < t + 100000000) }
    let st := s.modState port m
    if st = edActive then .next (s1.setModState port m edThrottled)
    else if st = edThrottled ∧ s.rd (F.ED_LIMIT_QUAR_CNT port) ≤ (s1.edMod port m).violTimes.length then
      .next (((s1.edSilence port m edQuarantined).pathReport).raise (225 + 2 * port.val) (edPage port) 3)
    else .next s1

/-- A THROTTLED module with no violation for 1 s is ACTIVE again (Table 11.5). -/
def execThrottleExpiry (port : Fin 2) (m : Fin 16) (s : State) : Result :=
  if s.modState port m = edThrottled ∧ (s.edMod port m).violTimes.all fun t => decide (t + 100000000 ≤ s.time) then
    .next (s.setModState port m edActive)
  else .next s

/-- Take a sheet's announce or FEED out of the queues, and a repeat after PENDING with it (R292). -/
def State.edCancel (p : Fin 2) (type sheet : Nat) (s : State) : State :=
  s.modPort p fun q => { q with mods := q.mods.map fun m =>
    { m with
      announces := if type = 0x05 then m.announces.filter fun a => leNat (a.take 4) != sheet else m.announces
      feeds := if type = 0x07 then m.feeds.filter fun a => leNat (a.take 4) != sheet else m.feeds
      trans := m.trans.filter fun t => !(t.type == type && t.pending && leNat (t.payload.take 4) == sheet) } }

/-- The deadline of an announce: the port's decision is formed (R301, Table 11.9). -/
def execAnnounceDeadline (sheet : Nat) (s : State) : Result :=
  match s.ed[1].announces.find? fun a => a.sheet == sheet && !a.closed with
  | none => .next s
  | some a =>
    if s.time < a.deadline then .next s
    else
      let route := a.route.getD (s.route.map (·.val))
      let answer := fun (m : Nat) => (a.answers.find? fun e => e.1 == m && e.2 != answerLost).map (·.2)
      let lost := fun (m : Nat) => a.answers.contains (m, answerLost)
      let dead := s.portState 1 == 0 || s.portState 1 == 3
      let refuse := route.any fun m => dead || !s.modHeard 1 m || lost m || answer m == none || answer m == some 2
      let divert := route.any fun m => answer m == some 3
      let s1 := s.satAdd (F.ED_CNT_B_ANN_TIMEOUT 1) (route.filter fun m => answer m == none).length
      .next ((s1.edCancel 1 0x05 sheet).closeAnnounce sheet (if refuse then .refuse else if divert then .divert else .accept))

/-- The feeder has not decided by T_exp less 2 ms (R304). -/
def execFeedDeadline (sheet : Nat) (s : State) : Result :=
  match s.ed[0].feeds.find? fun f => f.sheet == sheet && !f.done with
  | some f => .next (if f.texp ≤ s.time + 200000 then ((s.edCancel 0 0x07 sheet).feedReply sheet 2) else s)
  | none => .next s

/-- PERIOD seconds have passed since the last challenge (R297). -/
def execAuthPeriodExpiry (port : Fin 2) (m : Fin 16) (s : State) : Result :=
  let q := s.edMod port m
  let n := s.rd (F.ED_AUTH_PERIOD port)
  if n ≠ 0 ∧ s.on (F.ED_CFG_AUTH_EN port) ∧ s.modPresent port m ∧ q.authSup ∧ (s.edKey port m).isSome ∧
      q.authAt + n * 100000000 ≤ s.time then
    .next (s.modMod port m fun q => { q with challenge := true, authAt := s.time })
  else .next s

/-! ### Port control -/

/-- PORT_EN cleared (R534). -/
def execPortStop (agent : Agent) (port : Fin 2) (s : State) : Result :=
  .next (s.write agent (edPage port) 0x040 fun t =>
    let t1 := t.wr (F.ED_CFG_PORT_EN port) 0
    ((t1.ifDo (t.portState port != 0) (·.portStop port)).pathReport).hwReact)

/-- The port begins to run: ENUM until every address has been probed (R307). -/
def State.portStart (p : Fin 2) (s : State) : State :=
  if s.portState p ≠ 0 then s
  else (s.modPort p fun q => { q with rotate := 0, enumLeft := 15, badRun := 0, goodRun := 0, badNow := false, cycleAt := 0 }).wr
    (H.STATE (edPage p)) 1

/-- PORT_EN set. -/
def execPortStart (agent : Agent) (port : Fin 2) (s : State) : Result :=
  .next (s.write agent (edPage port) 0x040 fun t => (t.wr (F.ED_CFG_PORT_EN port) 1).portStart port)

/-- ED_MOD[m].CLEAR (Table 11.5). -/
def execModuleClear (agent : Agent) (port : Fin 2) (m : Fin 16) (s : State) : Result :=
  .next (s.write agent (edPage port) (0x084 + 8 * m.val) fun t =>
    if m ≠ 0 ∧ (t.modState port m = edQuarantined ∨ t.modState port m = edConflict) then
      (t.modMod port m fun q => { q with quarantine := false, trans := none }).setModState port m edAbsent
    else t)

end Sys2Proof.Machine
end

