-- ==== Sys2Proof/Machine/Sheets.lean ====
section
/-! DEFINITION. The sheet-sensor inputs, sheet tracking and jams (12). -/
namespace Sys2Proof.Machine

/-! ### Jams (R51, R326, R328) -/

/-- Does a sheet lie at or behind the jam (R51)? -/
def State.behindJam (s : State) (named : Option (Fin 16)) (zone : Nat) (i : Fin 16) : Bool :=
  match s.tl.slots[i] with
  | none => false
  | some sl =>
    match named with
    | some j => (match s.tl.slots[j] with | some jam => decide (jam.order ≤ sl.order) | none => false)
    | none => !sl.tracks.any fun t => t.lead && decide (zone < t.zone)

/-- The first jam of a JAMMED state is recorded in SS_STAT and SS_JAM_SHEET (R326). -/
def State.jamRecord (track zone : Nat) (decl : Bool) (named : Option (Fin 16)) (s : State) : State :=
  if s.rd (H.STATE ssPage) = 2 then s
  else
    let sheet := (named.bind fun j => (s.tl.slots[j]).map (·.sheet)).getD 0
    ((((s.wr F.SS_STAT_JAM_TRACK track).wr F.SS_STAT_JAM_ZONE zone).flag F.SS_STAT_JAM_DECL decl).flag
      F.SS_STAT_JAM_NOSHEET named.isNone).wr F.SS_JAM_SHEET_SHEET sheet

/-- A jam is declared at a point or through SS_CMD (R326). -/
def State.jam (track zone : Nat) (decl : Bool) (named : Option (Fin 16)) (s : State) : State :=
  let behind := fun i => s.behindJam named zone i
  let s1 := (((s.jamRecord track zone decl named).wr (H.STATE ssPage) 2).wr F.SS_STAT_PATH_CLEAR 0).event ssPage 0
  let s2 := { s1 with mo := { s1.mo with clearAt := if s1.pathEmpty then some s1.time else none } }
  ((((s2.jamSlots behind).stopZones zone).pathReport).raise 165 ssPage 0)

/-- SS_CMD.DECLARE (R326). -/
def execDeclare (agent : Agent) (zone : Nat) (s : State) : Result :=
  .next (s.write agent ssPage 0x0D8 fun t => t.jam 0 (zone % 16) true none)

/-- Every path sensor has been inactive for SS_CLEAR.T ms (R328); berth 3 reports the path clear (R51). -/
def execPathClear (s : State) : Result :=
  match s.mo.clearAt with
  | some t =>
    if t + s.rd F.SS_CLEAR_T * 100000 ≤ s.time ∧ s.pathEmpty ∧ !s.on F.SS_STAT_PATH_CLEAR ∧ !s.on (H.ISOLATED ssPage) then
      let s1 := (s.wr F.SS_STAT_PATH_CLEAR 1).event ssPage 1
      let s2 := (s1.ifDo (s1.rd (H.STATE ssPage) == 2) (·.wr (H.STATE ssPage) 0)).trackState
      .next ((s2.ifDo (s2.holder 3).isSome (·.modTl fun q => { q with pathClear := true })).pathReport)
    else .next s
  | none => .next s

/-! ### Track windows (R325) -/

/-- Start and end of a track window; none while the reference is missing. -/
def Slot.window (sl : Slot) (t : Track) (trail : Bool) : Option (Int × Int) :=
  let ref := if t.offs < 0 then some sl.texp else sl.anchor
  ref.map fun r =>
    let m : Int := (r : Int) + t.offs + (if trail then (qdiv (sl.sheetLen * 1000 * 65536) sl.speed : Nat) else 0)
    (m - t.win, m + t.win)

def inWindow (w : Option (Int × Int)) (stamp : Nat) : Bool :=
  match w with
  | some (a, b) => decide (a ≤ (stamp : Int)) && decide ((stamp : Int) ≤ b)
  | none => false

/-- Tracked slots in the order of feeding. -/
def State.trackOrder (s : State) : List (Fin 16) :=
  let key := fun (i : Fin 16) => ((s.tl.slots[i]).map (·.order)).getD 0
  sortBy key s.tracked

/-- Does a page accept an edge at a sensor? -/
def Slot.accepts (sl : Slot) (i stamp : Nat) (trail : Bool) : Bool :=
  sl.tracks.any fun t => t.sensor == i && !(if trail then t.trail else t.lead) && inWindow (sl.window t trail) stamp

/-- The edge is accepted at every point of the page whose window holds it. -/
def Slot.accept (sl : Slot) (i stamp : Nat) (trail : Bool) : Slot :=
  { sl with tracks := sl.tracks.map fun t =>
      if t.sensor = i && inWindow (sl.window t trail) stamp then
        if trail then { t with trail := true } else { t with lead := true }
      else t }

/-- Is a leading edge earlier than a window the page still waits for? -/
def Slot.early (sl : Slot) (i stamp : Nat) : Bool :=
  sl.tracks.any fun t => t.sensor == i && !t.lead &&
    match sl.window t false with
    | some (a, _) => decide ((stamp : Int) < a)
    | none => !sl.missed

/-- Tracking of an edge: to the page fed earliest that accepts it; else an early one is counted (R325, Table 12.2). -/
def State.trackEdge (i : Nat) (lead : Bool) (stamp : Nat) (s : State) : State :=
  let holds := fun (f : Slot → Bool) (j : Fin 16) => match s.tl.slots[j] with | some sl => f sl | none => false
  match s.trackOrder.find? (holds (·.accepts i stamp (!lead))) with
  | some j => s.modSlot j (·.accept i stamp (!lead))
  | none => s.ifDo (lead && s.tracked.any (holds (·.early i stamp))) fun t => (t.sat F.SS_CNT_EARLY).event ssPage 3

/-- A window ends without an accepted edge, and none stamped inside it can still qualify: a jam at the point (R309, R325). -/
def execTrackWindowEnd (slot t : Fin 16) (trail : Bool) (s : State) : Result :=
  if s.tracked.contains slot && !s.on (H.ISOLATED ssPage) then
    match s.tl.slots[slot] with
    | none => .next s
    | some sl =>
      match sl.tracks.find? fun q => q.point == t.val && !(if trail then q.trail else q.lead) with
      | none => .next s
      | some q =>
        match sl.window q trail with
        | some (_, e) => .next (if e + s.filt q.sensor < (s.time : Int) then s.jam t q.zone false (some slot) else s)
        | none => .next s
  else .next s

/-- Does a leading edge lie in a window of a tracked page (R327)? -/
def State.inAnyWindow (s : State) (i stamp : Nat) : Bool :=
  s.tracked.any fun j =>
    match s.tl.slots[j] with
    | none => false
    | some sl =>
      sl.tracks.any (fun t => t.sensor == i && inWindow (sl.window t false) stamp) ||
      (i == s.rd F.PT_CFG_ANCHOR_SRC && decide (sl.texp ≤ stamp + sl.win) && decide (stamp ≤ sl.texp + sl.win)) ||
      (i == s.rd F.PT_CFG_EXIT_SRC &&
        match sl.anchor with
        | some a => decide (a + sl.handoff ≤ stamp + sl.win) && decide (stamp ≤ a + sl.handoff + sl.win)
        | none => false)

/-- STRAY_SHEET (R327). -/
def State.stray (i : Nat) (s : State) : State :=
  let s1 := (s.sat F.SS_CNT_STRAY).raise 165 ssPage 1
  match (List.range 16).find? fun t => s.on (F.SS_TRACK_EN t) && s.rd (F.SS_TRACK_SENSOR t) == i with
  | some t => s1.jam t (s.rd (F.SS_TRACK_ZONE t)) false none
  | none => s1

/-! ### Home and limit edges (R318, R319) -/

def State.homeTo (n : Fin 16) (h : Nat) (s : State) : State :=
  (s.wr (F.STP_STAT_HSTATE n) h).modStp n fun q => { q with entry := q.pos }

/-- HOMING_FAIL: the channel stops at EDEC (Table 12.1). -/
def State.homeFail (n : Fin 16) (s : State) : State :=
  let s1 := ((s.wr (F.STP_STAT_HSTATE n) hFail).modeZero n).modStp n fun q => { q with estop := true }
  s1.raise (160 + n.val / 4) (stpPage n) 0

/-- The HOME edge in SEARCH or RSEARCH: the move to HLATCH + HOFFS (Table 12.1). -/
def State.homeLatch (n : Fin 16) (pos : Int) (s : State) : State :=
  let s1 := (s.wrS (F.STP_HLATCH_POS n) pos).homeTo n hBack
  s1.modStp n fun q => { q with goal := (pos + s.rdS (F.STP_HOFFS_POS n)) * 2 ^ 32, homeAt := sampleOf s.time + 1 }

/-- A leading edge of a limit (R318, Table 12.1, Table 12.2). -/
def State.limitEdge (n : Fin 16) (pos : Bool) (s : State) : State :=
  let h := s.rd (F.STP_STAT_HSTATE n)
  let q := s.stp n
  if h = hSearch then (((s.homeTo n hRsearch).modStp n fun q => { q with brake := true }).event (stpPage n) 2)
  else if h = hClear ∨ h = hRsearch then s.homeFail n
  else if h = hBack then
    s.ifDo (q.homeAt == sampleOf s.time + 1) fun t => (t.modStp n fun q => { q with brake := true }).event (stpPage n) 2
  else if (pos && decide (0 < q.vel)) || (!pos && decide (q.vel < 0)) then
    (s.stpStop n).raise (160 + n.val / 4) (stpPage n) 1
  else s.event (stpPage n) 2

/-- The integer position of a channel at a tick within the last 1 ms (R311). -/
def State.stpAt (s : State) (n : Fin 16) (t : Nat) : Int :=
  let q := s.stp n
  ((((q.track.find? fun e => decide (e.1 ≤ t)).map (·.2)).getD q.pos)) / 2 ^ 32

/-- A home or limit edge at every channel that names the input (R317–R319). -/
def State.switchEdge (i : Nat) (lead : Bool) (stamp : Nat) (s : State) : State :=
  s.each (List.finRange 16) fun n t =>
    if t.on (F.STP_CFG_SRC n) then t
    else
      let h := t.rd (F.STP_STAT_HSTATE n)
      let t1 :=
        if t.rd (F.STP_SW_HOME_SRC n) ≠ i then t
        else if !lead then (if h = hClear then t.homeTo n hSearch else t)
        else if h = hSearch ∨ h = hRsearch then t.homeLatch n (t.stpAt n stamp) else t
      let t2 := t1.ifDo (lead && t.rd (F.STP_SW_LIMP_SRC n) == i) (·.limitEdge n true)
      (t2.ifDo (lead && t.rd (F.STP_SW_LIMN_SRC n) == i) (·.limitEdge n false)).stpState n

/-! ### Edges (R309–R311) -/

/-- MONO of an encoder at a tick within the last 1 ms. -/
def State.monoAt (s : State) (e : Fin 8) (t : Nat) : Nat :=
  ((s.mo.encoders[e].track.find? fun q => decide (q.1 ≤ t)).map (·.2)).getD (s.rd (F.ENC_MONO_LO e))

/-- The position an edge latches (R311). -/
def State.latchPos (s : State) (i stamp : Nat) : Nat :=
  let num := s.rd (F.SS_IN_CFG_POS_NUM i)
  match s.rd (F.SS_IN_CFG_POS_KIND i) with
  | 1 => ofSigned 32 (s.stpAt (Fin.ofNat 16 num) stamp)
  | 2 => s.monoAt (Fin.ofNat 8 num) stamp % 2 ^ 32
  | _ => 0

/-- An accepted edge: the latch, then the anchor, the exit, tracking, stray sheets and switches (R311, R318, R325, R327). -/
def State.latchEdge (i : Fin 64) (lead : Bool) (stamp pos : Nat) (s : State) : State :=
  let s1 := s.modSensor i fun q => { q with last := some (stamp, lead) }
  if lead then
    let s2 := (((s1.wr (F.SS_IN_LEAD_T_LO i) stamp).wr (F.SS_IN_LEAD_T_HI i) (stamp / 2 ^ 32)).wr (F.SS_IN_LEAD_POS i) pos).inc
      (F.SS_IN_STAT_LSEQ i)
    let s3 := s2.ifDo (s2.rd F.PT_CFG_ANCHOR_SRC == i.val) (·.anchorEdge stamp)
    let away := s3.rd (H.STATE ptPage) == 1 && s3.inPath i && !s3.inAnyWindow i stamp
    ((s3.trackEdge i true stamp).ifDo away (·.stray i)).switchEdge i true stamp
  else
    let s2 := (((s1.wr (F.SS_IN_TRAIL_T_LO i) stamp).wr (F.SS_IN_TRAIL_T_HI i) (stamp / 2 ^ 32)).wr (F.SS_IN_TRAIL_POS i) pos).inc
      (F.SS_IN_STAT_TSEQ i)
    let s3 := (s2.trackEdge i false stamp).ifDo (s2.rd F.PT_CFG_EXIT_SRC == i.val) (·.exitEdge stamp)
    s3.switchEdge i false stamp

/-- The lockout after a latched edge, ticks (R310). -/
def State.lockout (s : State) (i : Nat) : Nat := s.rd (F.SS_IN_CFG_LOCKOUT i) * 1000

/-- The level check after a lockout: a level that differs from the last latched edge is latched now (R310). -/
def State.levelCheck (i : Fin 64) (s : State) : State :=
  let q := s.mo.sensors[i]
  match q.last with
  | some (_, lead) =>
    let active := s.on (F.SS_IN_STAT_LEVEL i)
    if active = lead then s else s.latchEdge i active q.ignored.1 q.ignored.2
  | none => s

/-- A qualified edge (R309, R310). -/
def execSheetSensorEdge (i : Fin 64) (high : Bool) (stamp : Nat) (s : State) : Result :=
  let q := s.mo.sensors[i]
  if q.high = high ∨ s.time < stamp + s.rd (F.SS_IN_CFG_FILT i) * 100 ∨ s.on (H.ISOLATED ssPage) = true then .next s
  else
    let s1 := (((s.modSensor i fun q => { q with high := high }).levelReg i).ifDo (s.inPath i) (·.pathLevel))
    let active := s1.on (F.SS_IN_STAT_LEVEL i)
    let pos := s1.latchPos i stamp
    let s2 := match q.last with
      | some (t, _) =>
        if t ≤ stamp ∧ stamp < t + s1.lockout i then
          let u := ((s1.sat (F.SS_IN_STAT_CHATTER i)).event ssPage 2).modSensor i fun q => { q with ignored := (stamp, pos) }
          u.ifDo (decide (t + s1.lockout i ≤ s1.time)) (·.levelCheck i)
        else s1.latchEdge i active stamp pos
      | none => s1.latchEdge i active stamp pos
    .next s2.trackState

/-- The end of a lockout (R310). -/
def execLockoutEnd (i : Fin 64) (s : State) : Result :=
  match s.mo.sensors[i].last with
  | some (t, _) => .next (if t + s.lockout i ≤ s.time ∧ s.on (H.ISOLATED ssPage) = false then (s.levelCheck i).trackState else s)
  | none => .next s

end Sys2Proof.Machine
end

