-- ==== Sys2Proof/Machine/Motion.lean ====
section
/-! DEFINITION. The commands of the steppers and encoders (12). -/
namespace Sys2Proof.Machine

/-! ### The motion generator (R312, R313) -/

def fx32 : Int := 2 ^ 32

/-- Speed limit of R314, 2,000,000 microsteps/s. -/
def stpSpeedMax : Int := 85899345

/-- `v` moves towards `vt` by at most `d`. -/
def towards (v vt d : Int) : Int := if v < vt then min vt (v + d) else max vt (v - d)

/-- The braking curve: the speed from which DEC stops within `d` (microsteps × 2^32). -/
def brakeSpeed (dec : Nat) (d : Int) : Int := isqrt (2 * dec * d.natAbs / 1000)

/-- The position move's target speed. -/
def moveSpeed (vmax dec : Nat) (d : Int) : Int := d.sign * min (vmax : Int) (brakeSpeed dec d)

/-- A limit's clamp on the target speed (R318). -/
def limitClamp (posBlock negBlock : Bool) (vt : Int) : Int :=
  let a := if posBlock then min vt 0 else vt
  if negBlock then max a 0 else a

/-- The speed after a sample: ACC away from rest, DEC or EDEC otherwise (R313). -/
def nextSpeed (v vt : Int) (acc dec : Nat) : Int :=
  if 0 ≤ v * vt ∧ v.natAbs < vt.natAbs then v + vt.sign * min (acc : Int) ((vt.natAbs : Int) - v.natAbs) else towards v vt dec

/-- The target speed of a channel: stop, homing (Table 12.1) or the active set. -/
def State.targetSpeed (s : State) (n : Fin 16) : Int :=
  let q := s.stp n
  let hv : Int := s.rd (F.STP_HVEL_V n)
  let dir : Int := if s.on (F.STP_SW_HOME_DIR n) then -1 else 1
  let h := s.rd (F.STP_STAT_HSTATE n)
  if q.estop || q.brake then 0
  else if h = hClear then -dir * hv
  else if h = hSearch then dir * hv
  else if h = hRsearch then -dir * hv
  else if h = hBack then moveSpeed (s.rd (F.STP_HVEL_V n)) (s.rd (F.STP_DEC_D n)) (q.goal - q.pos)
  else
    let blockP := s.inputActive (s.rd (F.STP_SW_LIMP_SRC n))
    let blockN := s.inputActive (s.rd (F.STP_SW_LIMN_SRC n))
    let vmax := s.rd (F.STP_VMAX_V n)
    let vt := match s.rd (F.STP_MODE_MODE n) with
      | 1 => moveSpeed vmax (s.rd (F.STP_DEC_D n)) (s.rdS (F.STP_TGT_POS n) * fx32 - q.pos)
      | 2 => if s.on (F.STP_MODE_NEG n) then -(vmax : Int) else vmax
      | _ => 0
    limitClamp blockP blockN vt

/-- STP_POS, STP_VEL and the state follow; a position is kept for the latches of the next 1 ms (R311). -/
def State.stpRegs (n : Fin 16) (s : State) : State :=
  let q := s.stp n
  let s1 := (s.wrS (F.STP_POS_POS n) (q.pos / fx32)).wrS (F.STP_VEL_V n) q.vel
  (s1.modStp n fun q => { q with track := ((s.time, q.pos) :: q.track).take 128 }).stpState n

/-- The currents (R312). -/
def State.currents (n : Fin 16) (s : State) : State :=
  let q := s.stp n
  let hold := q.vel == 0 && decide (q.restAt + s.rd (F.STP_CUR_HOLD_DLY n) * 100000 ≤ s.time)
  let cur : Int := if hold then s.rd (F.STP_CUR_IHOLD n) else s.rd (F.STP_CUR_IRUN n)
  let p := q.pos / fx32
  let pos := if s.on (F.STP_CFG_INV n) then -p else p
  let th := ((pos * 256 / (2 ^ s.rd (F.STP_CFG_MSTEP n) : Nat)) % 1024).toNat
  let ca := cos1023 th
  let sa := sin1023 th
  (s.flag (F.STP_STAT_HOLD n) hold).modStp n fun q =>
    { q with dutyA := ((ca.natAbs * cur + 127) / 255).toNat, dutyB := ((sa.natAbs * cur + 127) / 255).toNat
             phA := decide (ca < 0), phB := decide (sa < 0) }

/-- The move to HLATCH + HOFFS is complete (Table 12.1). -/
def State.homeDone (n : Fin 16) (s : State) : State :=
  let s1 := s.modStp n fun q => { q with pos := 0, vel := 0, restAt := s.time }
  ((s1.wr (F.STP_STAT_HSTATE n) hDone).wr (F.STP_STAT_HOMED n) 1).event (stpPage n) 1

/-- After a sample's move: the snap to the target, the end of homing and of a stop, the travel limit. -/
def State.stpArrive (n : Fin 16) (s : State) : State :=
  let q := s.stp n
  let h := s.rd (F.STP_STAT_HSTATE n)
  let s1 := if q.vel = 0 ∧ q.estop then (s.modStp n fun q => { q with estop := false }).event (stpPage n) 3 else s
  let s2 := s1.ifDo (q.vel == 0 && q.brake) (·.modStp n fun q => { q with brake := false })
  if h = hClear ∨ h = hSearch ∨ h = hRsearch then
    s2.ifDo (decide ((s.rd (F.STP_HMAX_DIST n) : Int) * fx32 < (q.pos - q.entry).natAbs)) (·.homeFail n)
  else if h = hBack then s2.ifDo (decide ((q.goal - q.pos).natAbs < fx32)) (·.homeDone n)
  else if s.rd (F.STP_MODE_MODE n) = 1 ∧ !q.estop ∧ (s.rdS (F.STP_TGT_POS n) * fx32 - q.pos).natAbs < fx32 then
    let s3 := (s2.modStp n fun q => { q with pos := s.rdS (F.STP_TGT_POS n) * fx32, vel := 0, restAt := if q.vel = 0 then q.restAt else s.time })
    s3.ifDo (!s.on (F.STP_STAT_AT_TGT n)) fun t => (t.wr (F.STP_STAT_AT_TGT n) 1).event (stpPage n) 0
  else s2

/-- A committed move set takes effect: homing is abandoned; a stop goes on under MODE 0 (R313, Tables 12.1, 12.2). -/
def State.stpSet (n : Fin 16) (s : State) : State :=
  if s.due (stpPage n) then
    let s1 := ((s.homeAbandon n).applyStaged (stpPage n)).wr (F.STP_STAT_AT_TGT n) 0
    s1.ifDo (s1.rd (F.STP_MODE_MODE n) != 0) (·.modStp n fun q => { q with estop := false, brake := false })
  else s

/-- Coarse inputs: the position has advanced by `v` every tick, stopping at P (R316). -/
def Stepper.follow (q : Stepper) (now : Nat) : Stepper :=
  let p := q.pos + q.vel * ((now : Int) - q.movedAt)
  let p' := if 0 ≤ q.vel then min p (max q.pos (q.goalP * fx32)) else max p (min q.pos (q.goalP * fx32))
  { q with pos := p', movedAt := now }

/-- The sample of a channel that follows its coarse inputs: an ESTOP takes it down at EDEC (R316). -/
def State.coarseSample (n : Fin 16) (s : State) : State :=
  let s1 := s.modStp n fun q =>
    let q1 := q.follow s.time
    if q1.estop then { q1 with vel := towards q1.vel 0 (s.rd (F.STP_EDEC_D n)) }
    else if q1.pos = q1.goalP * fx32 then { q1 with vel := 0 } else q1
  let ended := (s1.stp n).vel == 0
  let s2 := s1.modStp n fun q => { q with restAt := if ended && (s.stp n).vel != 0 then s.time else q.restAt }
  s2.ifDo (ended && (s.stp n).estop) fun t => (t.modStp n fun q => { q with estop := false }).event (stpPage n) 3

/-- The sample of a channel in the native personality (R313). -/
def State.moveSample (n : Fin 16) (s : State) : State :=
  let s1 := s.stpSet n
  let blocked := !s1.homing n && (s1.inputActive (s1.rd (F.STP_SW_LIMP_SRC n)) || s1.inputActive (s1.rd (F.STP_SW_LIMN_SRC n)))
  let s2 := s1.flag (F.STP_STAT_LIM_BLOCK n) blocked
  let q := s2.stp n
  let dec := if q.estop || q.brake then s2.rd (F.STP_EDEC_D n) else s2.rd (F.STP_DEC_D n)
  let v := nextSpeed q.vel (s2.targetSpeed n) (s2.rd (F.STP_ACC_A n)) dec
  let s3 := s2.modStp n fun q =>
    { q with pos := q.pos + v * 1000, vel := v, restAt := if v = 0 ∧ q.vel ≠ 0 then s.time else q.restAt, movedAt := s.time }
  s3.stpArrive n

/-- The sample of a stepper channel, one every 1,000 ticks (R313). -/
def execStepperSample (n : Fin 16) (s : State) : Result :=
  if sampleOf s.time < (s.stp n).sampled then .next s
  else
    let s1 := s.modStp n fun q => { q with sampled := sampleOf s.time + 1 }
    let s2 := if s1.on (F.STP_CFG_SRC n) then s1.coarseSample n else s1.moveSample n
    .next ((s2.currents n).stpRegs n)

/-- STP_CMD.ESTOP (R315, R316). -/
def execEstop (agent : Agent) (n : Fin 16) (s : State) : Result :=
  .next (s.write agent (stpPage n) 0x070 fun t => t.stpStop n)

/-- STP_CMD.HOME (R319); inactive on a channel that follows coarse inputs (R316). -/
def execHome (agent : Agent) (n : Fin 16) (s : State) : Result :=
  .next (s.write agent (stpPage n) 0x070 fun t =>
    if t.on (F.STP_CFG_SRC n) || t.homing n then t
    else
      let h := if t.inputActive (t.rd (F.STP_SW_HOME_SRC n)) then hClear else hSearch
      ((t.homeTo n h).wr (F.STP_STAT_AT_TGT n) 0).stpState n)

/-- A qualified rising STEP edge (R316). -/
def execCoarseStep (n : Fin 16) (dir : Bool) (s : State) : Result :=
  if !s.on (F.STP_CFG_SRC n) then .next s
  else
    let q := (s.stp n).follow s.time
    let c := s.rdS (F.STP_CSTEP_COUNT n) + (if dir then -1 else 1)
    let p := c * (2 ^ s.rd (F.STP_CFG_CRATIO n) : Nat)
    let imin : Int := s.rd (F.STP_INTERP_IMIN n)
    let imax : Int := s.rd (F.STP_INTERP_IMAX n) * 1000
    let gap : Int := (s.time : Int) - q.stepAt
    let d := clampInt imin imax gap
    let num := p * fx32 - q.pos
    let v := if d = 0 then num.sign * Config.divByZero num.natAbs else tdiv num d
    let v' := clampInt (-stpSpeedMax) stpSpeedMax v
    let s1 := (s.wrS (F.STP_CSTEP_COUNT n) c).ifDo (decide (gap < imin)) (·.sat (F.STP_CNT_FAST n))
    .next (s1.modStp n fun r => { q with goalP := p, stepAt := s.time, vel := if r.estop then q.vel else v' })

/-! ### Encoders (R320–R324) -/

def encPage (e : Nat) : Nat := 0x0A0 + e

def State.modEnc (e : Fin 8) (f : Encoder → Encoder) (s : State) : State :=
  { s with mo := { s.mo with encoders := s.mo.encoders.set e (f s.mo.encoders[e]) } }

/-- Difference of two 32-bit counts, read as signed (R321). -/
def diff32 (a b : Nat) : Int := toSigned 32 (a + 2 ^ 32 - b % 2 ^ 32)

/-- The counts an edge of the last 1 ms can need: those of that time and the one before (R309, R311). -/
def recentCounts (now : Nat) (l : List (Nat × Nat)) : List (Nat × Nat) :=
  let (a, b) := l.span fun t => decide (now ≤ t.1 + 100100)
  a ++ b.take 1

/-- One count (R321). -/
def State.encCount (e : Fin 8) (fwd : Bool) (s : State) : State :=
  let raw := (s.rd (F.ENC_RAW_COUNT e) + (if fwd then 1 else 2 ^ 32 - 1)) % 2 ^ 32
  let hi := s.mo.encoders[e].hi
  let up := diff32 raw hi
  let s1 := (s.wr (F.ENC_RAW_COUNT e) raw).modEnc e fun q => { q with r1 := raw, t1 := s.time, counted := true }
  let s2 :=
    if 0 < up then
      let mono := (s.rd (F.ENC_MONO_HI e) * 2 ^ 32 + s.rd (F.ENC_MONO_LO e) + up.toNat) % 2 ^ 64
      (((s1.wr (F.ENC_MONO_LO e) mono).wr (F.ENC_MONO_HI e) (mono / 2 ^ 32)).wr (F.ENC_BACK_REV e) 0).modEnc e fun q =>
        { q with hi := raw, track := (s.time, mono) :: recentCounts s.time q.track }
    else if !fwd && decide ((s.rd (F.ENC_CFG_BACK_WIN e) : Int) < -up) && !s.on (F.ENC_BACK_REV e) then
      ((s1.wr (F.ENC_BACK_REV e) 1).sat (F.ENC_CNT_REVERSE e)).event (encPage e) 0
    else s1
  s2.wr (F.ENC_BACK_BACKLOG e) (min (diff32 s2.mo.encoders[e].hi raw).toNat 0xFFFF)

/-- A qualified transition (R320).  A change of both inputs counts nothing; ENC_ERR is raised with its counter. -/
def execEncoderCount (e : Fin 8) (aLeads both : Bool) (s : State) : Result :=
  if s.on (H.ISOLATED (encPage e)) then .next s
  else if both then .next ((s.sat (F.ENC_CNT_ERR e)).raise 164 (encPage e) 0)
  else .next (s.encCount e (aLeads != s.on (F.ENC_CFG_NEG e)))

/-- A qualified rising index edge (R324). -/
def execEncoderIndex (e : Fin 8) (s : State) : Result :=
  if !s.on (F.ENC_CFG_IDX_EN e) || s.on (H.ISOLATED (encPage e)) then .next s
  else
    let raw := s.rd (F.ENC_RAW_COUNT e)
    let cpr := s.rd (F.ENC_CPR_CPR e)
    let bad := cpr != 0 && s.mo.encoders[e].indexed && (diff32 raw (s.rd (F.ENC_IDX_RAW e))).natAbs != cpr
    let s1 := ((s.wr (F.ENC_IDX_RAW e) raw).modEnc e fun q => { q with indexed := true }).event (encPage e) 1
    .next (s1.ifDo bad fun t => (t.sat (F.ENC_CNT2_IDX_ERR e)).raise 164 (encPage e) 1)

/-- The end of a speed period (R323). -/
def execEncoderSpeed (e : Fin 8) (s : State) : Result :=
  let q := s.mo.encoders[e]
  if s.time < q.evalAt + s.rd (F.ENC_SPD_PER e) ∨ s.on (H.ISOLATED (encPage e)) = true then .next s
  else
    let prev := s.rdS (F.ENC_SPEED_CPS e)
    let v : Int :=
      if q.counted then
        let d := diff32 q.r1 q.r0 * 100000000
        if q.t1 = q.t0 then d.sign * Config.divByZero d.natAbs else tdiv d ((q.t1 : Int) - q.t0)
      else prev.sign * min (prev.natAbs : Int) (qdiv 100000000 (s.time - q.t1) : Nat)
    .next ((s.wrS (F.ENC_SPEED_CPS e) v).modEnc e fun q =>
      { q with r0 := q.r1, t0 := q.t1, counted := false, evalAt := s.time })

/-- ENC_CMD.RESYNC (R322). -/
def execResync (agent : Agent) (e : Fin 8) (s : State) : Result :=
  .next (s.write agent (encPage e) 0x064 fun t =>
    ((t.wr (F.ENC_BACK_BACKLOG e) 0).wr (F.ENC_BACK_REV e) 0).modEnc e fun q => { q with hi := t.rd (F.ENC_RAW_COUNT e) })

end Sys2Proof.Machine
end

