-- ==== Sys2Proof/Machine/RegWrite.lean ====
section
/-!
DEFINITION. PG_STAT.BUSY of every page, and the write of a word's fields by access code and class (R9, R13–R16, R375).
-/
namespace Sys2Proof.Machine

/-- A feed of the station has begun and not ended (R85, R90, R126). -/
def State.feedOn (s : State) (k : Fin 6) : Bool := (s.feedsOf k).any (·.started)

/-- PG_STAT.BUSY: as the block's chapter states, 0 where it states nothing (Table 20.2). -/
def State.pageBusy (s : State) (p : Nat) : Bool :=
  let st := s.rd (H.STATE p)
  match blockOf p with
  | some .sequencer => st == 1 || st == 3
  | some .clocks => s.stations.any s.exposing
  | some .beam => s.feedOn (Fin.ofNat 6 (p - 0x020))
  | some .interlace => s.feedOn (Fin.ofNat 6 (p - 0x028))
  | some .imaging => s.feedOn (Fin.ofNat 6 (p - 0x030))
  | some .headLink => (s.beam (Fin.ofNat 6 (p - 0x038))).strobe || s.on (F.IL_TEST_STAT_RUNNING (p - 0x038))
  | some .timeline => s.tl.slots.toList.any (·.isSome)
  | some .dmaChannel => 1 ≤ st && st ≤ 4
  | some .stepper =>
    let n := Fin.ofNat 16 (p - 0x090)
    (s.mo.steppers[n]).vel != 0 || st == 2 || s.on (F.STP_CFG_SRC n.val)
  | some .encoder => st == 1
  | some .sheetSensors => st == 1
  | some .commutation => st != 0
  | some .motorBus => !s.motorsOff
  | some .adc => st == 1
  | some .quay => s.on F.QY_STAT_RINGS
  | some .edkar => st != 0
  | some .mram => s.rd F.FW_STAT_STATUS == 1 || s.rd F.FW_STAT_STATUS == 3
  | _ => false

/-- Is a write of an idle-only field at an offset refused now (R16, R78, R375, R384, R413)? -/
def State.idleBlocked (s : State) (p off : Nat) : Bool :=
  if 0x0C0 ≤ p ∧ p ≤ 0x0C3 ∧ 0x100 ≤ off then
    s.slState (Fin.ofNat 4 (p - 0x0C0)) (Fin.ofNat 32 ((off - 0x100) / 0x60)) != slOff
  else if p = 0x0C5 then s.on (F.PWM_CFG_EN ((off - 0x100) / 16))
  else s.pageBusy p

/-- Is a write to a field of this class refused now (R14, R16)? -/
def State.refusesClass (s : State) (p off : Nat) (c : Cls) : Bool :=
  match c with
  | .staged => s.staged p
  | .idle => s.idleBlocked p off
  | _ => false

/-- Write the fields of a word: staged ones into their staging copies, idle-only ones while the block is idle, live ones at
once.  A refused field sets ACCESS_BUSY; beside fields that may change, only if the write would change it (log 65).  STP_CFG.SRC reads 0 in
the native personality (Table 12.3). -/
def State.fieldsWrite (p off v : Nat) (s : State) : State :=
  let rows := (rowsAt p off).filter (·.acc == .rw)
  let mixed := rows.any fun r => !s.refusesClass p off r.cls
  s.each rows fun r t =>
    let f := r.fld p off
    let x := if r.name = "STP_CFG.SRC" ∧ !s.ze40 then 0 else r.part off v
    if s.refusesClass p off r.cls then
      t.ifDo (!mixed || (if r.cls = .staged then s.stgRd f else s.rd f) != x) (·.accessBusy p)
    else if r.cls = .staged then t.stgWr f x
    else t.wr f x

/-! ### What follows a changed field at once -/

/-- A write of a word, or a profile record, has changed fields at an offset of a page. -/
def State.follow (p off : Nat) (s : State) : State :=
  if p = 0x0C4 ∧ off = 0x040 then s.wr (H.STATE 0x0C4) (b2n (s.rd F.ADC_CFG_EN != 0))
  else if 0x0A0 ≤ p ∧ p ≤ 0x0A7 ∧ off = 0x044 then
    let e : Fin 8 := Fin.ofNat 8 (p - 0x0A0)
    { s with mo := { s.mo with encoders := s.mo.encoders.set e { s.mo.encoders[e] with indexed := false } } }
  else if p = 0x0A8 ∧ 0x100 ≤ off ∧ off % 32 = 0 then ((s.levelReg (Fin.ofNat 64 ((off - 0x100) / 32))).pathLevel)
  else if (p = 0x0D8 ∨ p = 0x0D9) ∧ off = 0x040 then
    s.ifDo (s.on (F.ED_CFG_PORT_EN (p - 0x0D8))) (·.portStart (Fin.ofNat 2 (p - 0x0D8)))
  else if 0x090 ≤ p ∧ p ≤ 0x09F ∧ off = 0x040 then s.stpState (Fin.ofNat 16 (p - 0x090))
  else if 0x0C0 ≤ p ∧ p ≤ 0x0C3 ∧ 0x100 ≤ off ∧ ((off - 0x100) % 0x60 = 0x08 ∨ (off - 0x100) % 0x60 = 0x54) then
    s.failDriven (Fin.ofNat 4 (p - 0x0C0)) (Fin.ofNat 32 ((off - 0x100) / 0x60))
  else if p = 0x0A8 then s.pathLevel.trackState
  else if 0x020 ≤ p ∧ p ≤ 0x025 ∧ off = 0x060 then
    s.flag (F.BT_STAT_SLEWING (p - 0x020)) (s.rdS (F.BT_STAT_TRIM_NOW (p - 0x020)) != s.rdS (F.BT_PHASE_PH_TRIM (p - 0x020)))
  else s

end Sys2Proof.Machine
end

