-- ==== Sys2Proof/Machine/Planner.lean ====
section
/-! DEFINITION. The planner of berth 5 (R93, R94, R104): which emitters write which lines at which polygon speed. -/
namespace Sys2Proof.Machine

/-- What the planner knows of a station: N, a, b, facets, the usable emitters and those of class MARGINAL. -/
structure Head where
  n        : Nat
  a        : Nat
  b        : Nat
  facets   : Nat
  usable   : List Nat
  marginal : List Nat
deriving DecidableEq, Repr

/-- The usable emitter of i's class that is nearest i, ties to the lower (R93). -/
def Head.nearest (h : Head) (c i : Nat) : Option Nat :=
  (h.usable.filter fun j => j % c == i % c).foldl (fun (m : Option Nat) j =>
    match m with
    | none => some j
    | some x => if ((j : Int) - i).natAbs < ((x : Int) - i).natAbs then some j else some x) none

/-- The pick of window w: one emitter for each class (R93). -/
def Head.window (h : Head) (c w : Nat) : Option (List Nat) :=
  (List.range c).foldl (fun (acc : Option (List Nat)) r =>
    match acc with
    | none => none
    | some l =>
      let i := w + (r + c * (w + 1) - w) % c
      if h.usable.contains i then some (l ++ [i])
      else (h.nearest c i).map fun j => l ++ [j]) (some [])

/-- Span, MARGINAL count and w, the lower key the better (R93). -/
def Head.key (h : Head) (l : List Nat) (w : Nat) : Nat × Nat × Nat :=
  (l.foldl max 0 - l.foldl min (l.headD 0), (l.filter h.marginal.contains).length, w)

def keyLt (x y : Nat × Nat × Nat) : Bool :=
  x.1 < y.1 || (x.1 == y.1 && (x.2.1 < y.2.1 || (x.2.1 == y.2.1 && x.2.2 < y.2.2)))

/-- `choose_set` of R93. -/
def Head.chooseSet (h : Head) (c : Nat) : Option (List Nat) :=
  ((List.range (h.n + 1 - c)).foldl (fun (best : Option ((Nat × Nat × Nat) × List Nat)) w =>
    match h.window c w, best with
    | none, b => b
    | some l, none => some (h.key l w, l)
    | some l, some b => if keyLt (h.key l w) b.1 then some (h.key l w, l) else some b) none).map (·.2)

/-- c for v in 1/4 line, when a coverage with it exists (R93). -/
def Head.cOf (h : Head) (v4 : Nat) : Option Nat :=
  if v4 * h.b % 4 ≠ 0 then none
  else
    let c := v4 * h.b / 4
    if c = 0 ∨ h.n < c ∨ Nat.gcd h.a c ≠ 1 ∨ Nat.gcd h.b c ≠ 1 then none else some c

/-- Polygon speed for v, mrpm: 94,488 lines/s at 1.0 m/s, which PT_SPEED gives as 0x0A_0000 (R93). -/
def polyMrpm (speed v4 facets : Nat) : Nat := qdiv (60000 * 94488 * 4 * speed) (655360 * v4 * facets)

/-- FREF_INC for v (R77), rounded. -/
def fref4 (speed v4 : Nat) : Nat :=
  let d := 655360 * 100000000 * v4
  qdiv (2 * (2 ^ 40 * speed * 94488 * 4) + d) (2 * d)

/-- The profile's planning limits: v in 1/4 line, polygon speed in rpm. -/
structure PlanLimits where
  v4Max  : Nat
  v4Min  : Nat
  rpmMin : Nat
  rpmMax : Nat
deriving DecidableEq, Repr

def rpmOk (l : PlanLimits) (speed v4 : Nat) (h : Head) : Bool :=
  let m := polyMrpm speed v4 h.facets
  l.rpmMin * 1000 ≤ m && m ≤ l.rpmMax * 1000 && m ≤ 60000000

/-- The sets of a group at one v. -/
def groupSets (v4 : Nat) : List (Nat × Head) → Option (List (Nat × List Nat))
  | [] => some []
  | (k, h) :: r =>
    match (h.cOf v4).bind h.chooseSet, groupSets v4 r with
    | some l, some m => some ((k, l) :: m)
    | _, _ => none

/-- `plan_group` of R93: from the largest v downward. -/
def planGroup (l : PlanLimits) (speed : Nat) (hs : List (Nat × Head)) : Option (Nat × List (Nat × List Nat)) :=
  ((List.range (l.v4Max + 1 - l.v4Min)).map (l.v4Max - ·)).findSome? fun v4 =>
    if hs.all fun h => rpmOk l speed v4 h.2 then (groupSets v4 hs).map fun m => (v4, m) else none

/-- MASK of table entry s' for a set (R94). -/
def planMask (a b c s' : Nat) (set_ : List Nat) : Nat :=
  set_.foldl (fun m i => if b != 0 && (c * s' + a * i) % b == 0 then m + 2 ^ i else m) 0

/-! ### What the planner reads -/

def State.headOf (s : State) (k : Nat) : Head :=
  let n := min 64 (s.rd (F.IL_GEOM_NEMIT k))
  let cls := fun i => s.rd (F.IL_RES_CLASS k i)
  { n := n, a := s.rd (F.IL_GEOM_A k), b := s.ilB k, facets := s.facets k
    usable := (List.range n).filter fun i => cls i ≤ 2 && !bit (s.ilDead k) i
    marginal := (List.range n).filter fun i => cls i == 2 }

/-- v of the active tables, 1/4 line. -/
def State.v4Now (s : State) (k : Nat) : Nat := qdiv (4 * s.rd (F.IL_CYCLE_ADV k)) (ilK s.rd k * s.ilB k)

/-- R94, into the staging copies. -/
def State.stageTables (k v4 : Nat) (set_ : List Nat) (s : State) : State :=
  let a := s.rd (F.IL_GEOM_A k)
  let b := s.ilB k
  let c := v4 * b / 4
  let s1 := (s.stgWr (F.IL_CYCLE_K k) b).stgWr (F.IL_CYCLE_ADV k) (c * b)
  s1.each (List.range 64) fun e t =>
    let m := if e < b then planMask a b c e set_ else 0
    ((t.stgWr (F.IL_ENTRY_MASK_LO k e) m).stgWr (F.IL_ENTRY_MASK_HI k e) (m / 2 ^ 32)).stgWr (F.IL_ENTRY_BASE k e)
      (if e < b then c * e else 0)

/-- R91: does the staged set of an interlace page break a condition? -/
def State.ilRefuses (s : State) (k : Nat) : Bool :=
  let a := s.rd (F.IL_GEOM_A k)
  let b := s.ilB k
  let n := s.rd (F.IL_GEOM_NEMIT k)
  let es := List.range (ilK s.stgRd k)
  let top := es.foldl (fun m e => (emitters (ilMask s.stgRd k e)).foldl max m) 0
  s.stgRd (F.IL_CYCLE_ADV k) % b != 0 ||
  (es.any fun e => (emitters (ilMask s.stgRd k e)).any fun i =>
    (s.stgRd (F.IL_ENTRY_BASE k e) + a * i) % b != 0 || n ≤ i) ||
  b * s.stgRd (F.IL_LEAD_LEAD k) < a * top

/-- A COMMIT of one of the three station pages whose set is bound to a page (R84, R92, R126). -/
def State.commitBound (k : Fin 6) (i : Fin 3) (s : State) : State :=
  (s.wr (H.PEND (bindPage k i)) 1).modBind k i fun _ => ⟨s.time, none⟩

end Sys2Proof.Machine
end

