-- ==== Sys2Proof/Machine/Interlace.lean ====
section
/-! DEFINITION. The commands of the interlace blocks (04), and the resistance test over the head link (R161, R162, R165). -/
namespace Sys2Proof.Machine

/-! ### Gaps (R95, R533) -/

/-- Image starts to come at a station, and commit instants to come on the page timeline: of fed pages, and image starts of
committed ones; a page whose anchor is not known yet is expected at T_exp. -/
def State.nextStarts (s : State) (k : Fin 6) : List Int :=
  (s.fedSlots ++ s.committedSlots).flatMap fun i =>
    match s.tl.slots[i] with
    | some sl =>
      let at_ := sl.anchor.getD sl.texp
      (if bit sl.stations k && !bit sl.begun k then [s.imageStart sl at_ k] else []) ++
        (if s.rd (F.PT_SLOT_STATE i.val) = 1 then [s.commitAt sl at_] else [])
    | none => []

/-- A window of so many ticks fits a gap of the station now. -/
def State.gapFits (s : State) (k : Fin 6) (window : Nat) : Bool :=
  let guard := 1000 * s.rd (F.IL_TEST_GUARD k.val)
  !s.feedOn k && !s.exposing k && ((s.ilace k).lastLine = 0 || decide ((s.ilace k).lastLine + guard ≤ s.time)) &&
    (s.nextStarts k).all fun t => decide (t < s.time) || decide ((s.time + window + guard : Int) < t)

/-- The test window: NEMIT steps of 203.125 µs, in whole 100 µs (R96). -/
def State.testWindow (s : State) (k : Nat) : Nat := (s.rd (F.IL_GEOM_NEMIT k) * 203125 + 99999) / 100000 * 10000

/-! ### Head memory (R165) -/

/-- The page write of ISO, ISO_WRITES + 1 and ICRC. -/
def State.isoRewrite (k : Fin 6) (s : State) : State :=
  let n := ((s.link k).writes + 1) % 2 ^ 32
  let body := leBytes (s.ilDead k) 8 ++ leBytes n 4
  (s.modLink k fun q => { q with writes := n }).emit (.headMemWrite k 0x400 (body ++ leBytes (crc32c body) 4))

/-! ### Re-plan requests (R101) -/

/-- REQ becomes 1 with a reason; a pending reason of the head or of a lost emitter is not lowered to 2 (Table 4.6). -/
def State.replanReq (k : Nat) (reason : Nat) (s : State) : State :=
  let old := s.rd (F.IL_REPLAN_REASON k)
  if s.on (F.IL_REPLAN_REQ k) then
    s.wr (F.IL_REPLAN_REASON k) (if reason = 2 || (old = 3 && reason != 3) then old else reason)
  else ((s.wr (F.IL_REPLAN_REQ k) 1).wr (F.IL_REPLAN_REASON k) reason).event (ilPage k) 5

/-- Is an emitter in a set of tables? -/
def tablesUse (rd : Fld → Nat) (k i : Nat) : Bool := (List.range (ilK rd k)).any fun e => bit (ilMask rd k e) i

/-- The emitter fires under the active tables, and the set that waits, if any, does not already omit it (Table 4.7). -/
def State.activeEmitter (s : State) (k i : Nat) : Bool :=
  tablesUse s.rd k i && (!s.staged (ilPage k) || tablesUse s.stgRd k i)

/-- c of the active tables: ADV / K lines per scan, times b / b. -/
def State.cNow (s : State) (k : Nat) : Nat := qdiv (s.rd (F.IL_CYCLE_ADV k)) (ilK s.rd k)

/-- A GOOD, live emitter of the same class (Table 4.6). -/
def State.goodPartner (s : State) (k i : Nat) : Bool :=
  let c := s.cNow k
  (List.range (min 64 (s.rd (F.IL_GEOM_NEMIT k)))).any fun j =>
    j != i && j % c == i % c && s.rd (F.IL_RES_CLASS k j) == 1 && !bit (s.ilDead k) j

/-! ### The resistance test (R95–R99, R161) -/

/-- A test is due. -/
def State.testDue (s : State) (k : Fin 6) : Bool :=
  s.on (F.IL_TEST_STAT_PENDING k.val) ||
    (s.rd (F.IL_TEST_EVERY k.val) != 0 && decide ((s.ilace k).lastTest + s.rd (F.IL_TEST_EVERY k.val) ≤ s.tl.pitchNo))

/-- Something of the same gap goes first: a gap Assay of the station (R533), a change of v (Table 4.7). -/
def State.testWaits (s : State) (k : Fin 6) : Bool :=
  (s.fc.assays.any fun a => a.kind.gap && (if a.kind = .prbs then a.unit / 16 == k.val else a.unit == k.val)) ||
    (s.sta.plans[s.btGroup k]).isSome || (s.ilace k).waitGap

/-- A due test starts in a gap that admits it, or waits with PENDING at 1 (R95). -/
def execResistanceTestStart (station : Fin 6) (s : State) : Result :=
  let k := station
  if !s.hasStation k || s.on (H.ISOLATED (ilPage k)) || s.on (F.IL_TEST_STAT_RUNNING k.val) || !s.testDue k then .next s
  else
    let w := s.testWindow k.val
    if s.testWaits k || !s.gapFits k w then .next (s.wr (F.IL_TEST_STAT_PENDING k.val) 1)
    else
      let s1 := ((s.wr (F.IL_TEST_STAT_RUNNING k.val) 1).wr (F.IL_TEST_STAT_PENDING k.val) 0).ifDo
        (s.rd (H.STATE (ilPage k)) != ilQuenched) (·.wr (H.STATE (ilPage k)) ilTesting)
      let s2 := (((s1.wr (F.IL_TEST_STAT_GOOD k.val) 0).wr (F.IL_TEST_STAT_MARGINAL k.val) 0).wr
        (F.IL_TEST_STAT_FAILED k.val) 0).wr (F.IL_TEST_CNT_DEGRADED k.val) 0
      .next (s2.modIlace k fun q => { q with
        lastTest := s2.tl.pitchNo, testAt := s2.time, testEnd := s2.time + w, emitter := 0, answered := true, timeouts := 0 })

/-- The window ends (R96); a search that found no plan is repeated for the group (R105). -/
def State.testOver (k : Fin 6) (s : State) : State :=
  let s1 := (s.wr (F.IL_TEST_STAT_RUNNING k.val) 0).ifDo (s.rd (H.STATE (ilPage k)) == ilTesting) (·.wr (H.STATE (ilPage k)) ilIdle)
  let s2 := (s1.sat (F.IL_TEST_CNT_TESTS k.val)).event (ilPage k) 0
  s2.each (s2.groupStations (s2.btGroup k).val) fun (j : Fin 6) t =>
    let r := t.rd (F.IL_REPLAN_REASON j.val)
    t.ifDo (r != 0 && !t.on (F.IL_REPLAN_REQ j.val)) (·.replanReq j.val r)

/-- The result of a step has not come: counted and raised; the fourth in a row ends the window (R161). -/
def State.testLate (k : Fin 6) (s : State) : State :=
  let s1 := (s.modIlace k fun q => { q with answered := true, timeouts := q.timeouts + 1 }).sat (F.HL_CNT_B_TEST_TIMEOUT k.val)
  let s2 := s1.raise (40 + 2 * k.val) (hlPage k) 7
  s2.ifDo (decide (4 ≤ (s2.ilace k).timeouts) && s2.on (F.IL_TEST_STAT_RUNNING k.val)) (·.testOver k)

/-- The start of emitter step i, eighths of a tick after the window's start: 203.125 µs each (R96). -/
def stepAt8 (i : Nat) : Nat := i * 162500

/-- A step of the test begins: TEST_EMITTER goes to the head (R96, R161).  A result still missing has timed out. -/
def execTestEmitter (station : Fin 6) (s : State) : Result :=
  let k := station
  let q := s.ilace k
  if !s.on (F.IL_TEST_STAT_RUNNING k.val) || decide (s.rd (F.IL_GEOM_NEMIT k.val) ≤ q.emitter) ||
      decide (8 * s.time < 8 * q.testAt + stepAt8 q.emitter) then .next s
  else
    let s1 := s.ifDo (!q.answered) (·.testLate k)
    if s1.on (F.IL_TEST_STAT_RUNNING k.val) then
      .next ((s1.headSend k hcTest q.emitter).modIlace k fun q => { q with emitter := q.emitter + 1, answered := false })
    else .next s1

/-- R97: RDYN before its register takes it. -/
def rdynOf (v1 v2 : Nat) : Int := tdiv (32 * ((v2 : Int) - v1) + 15) 30

/-- Table 4.5. -/
def testClass (open_ : Bool) (v1 v2 rnom : Nat) : Nat :=
  let r := rdynOf v1 v2
  if open_ || decide ((3 * rnom : Int) < r) then 3
  else if v2 ≤ v1 ∨ 10 * r < 3 * rnom then 4
  else if (8 * rnom : Int) ≤ 10 * r ∧ 10 * r ≤ 12 * rnom then 1
  else 2

/-- R98: has RDYN drifted by more than a tenth? -/
def drifted (old : Nat) (new : Int) : Bool := old != 0 && decide ((old : Int) < 10 * ((new - old).natAbs : Int))

/-- An emitter is withheld: IL_DEAD, isolation of a short, the head memory, the fault and the re-plan (R99, R101, R162). -/
def State.emitterDead (k : Fin 6) (i : Nat) (short : Bool) (s : State) : State :=
  let active := s.activeEmitter k i
  let old := bit (s.ilDead k) i
  let s1 := if i < 32 then s.wr (F.IL_DEAD_LO_MASK k.val) (s.rd (F.IL_DEAD_LO_MASK k.val) ||| 2 ^ i)
    else s.wr (F.IL_DEAD_HI_MASK k.val) (s.rd (F.IL_DEAD_HI_MASK k.val) ||| 2 ^ (i - 32))
  let s2 := s1.ifDo (short && !(s1.ilace k).isolated.contains i) fun t =>
    (t.headSend k hcIsolate i).modIlace k fun q => { q with isolated := q.isolated ++ [i] }
  let s3 := s2.ifDo (!old) (·.isoRewrite k)
  let s4 := s3.ifDo active (·.replanReq k.val 1)
  (s4.event (ilPage k) (if short then 3 else 2)).raise (52 + k.val) (ilPage k) (b2n short)

/-- TEST_RESULT (R97–R99). -/
def execTestResult (station : Fin 6) (emitter : Fin 64) (openDrive : Bool) (v1 v2 : Nat) (s : State) : Result :=
  let k := station
  let i := emitter.val
  let q := s.ilace k
  if !s.on (F.IL_TEST_STAT_RUNNING k.val) || q.answered || q.emitter != i + 1 then .next s
  else
    let v1 := v1 % 65536
    let v2 := v2 % 65536
    let new := rdynOf v1 v2
    let cls := testClass openDrive v1 v2 (s.rd (F.IL_RES_RNOM k.val i))
    let degr := drifted (s.rd (F.IL_RES_RDYN k.val i)) new
    let s1 := (s.modIlace k fun q => { q with answered := true, timeouts := 0 }).sat (F.IL_RES_TESTS k.val i)
    let s2 := if 0 ≤ new ∧ new < 65536 then s1.wr (F.IL_RES_RDYN k.val i) new.toNat
      else (s1.wr (F.IL_RES_RDYN k.val i) (s1.freeVal 65536)).freeNext
    let s3 := (s2.wr (F.IL_RES_CLASS k.val i) cls).flag (F.IL_RES_DEGR k.val i) degr
    let s4 := s3.inc (if cls = 1 then F.IL_TEST_STAT_GOOD k.val else if cls = 2 then F.IL_TEST_STAT_MARGINAL k.val
      else F.IL_TEST_STAT_FAILED k.val)
    let s5 := s4.ifDo (cls == 2) (·.event (ilPage k) 1)
    let s6 := s5.ifDo ((cls == 2 || degr) && cls ≤ 2 && s5.activeEmitter k i && s5.goodPartner k.val i) (·.replanReq k.val 2)
    let s7 := s6.ifDo degr fun t =>
      ((t.inc (F.IL_TEST_CNT_DEGRADED k.val)).event (ilPage k) 4).raise (52 + k.val) (ilPage k) 2
    .next (s7.ifDo (3 ≤ cls) (·.emitterDead k i (cls == 4)))

/-- The next step is due and the result has not come (R161). -/
def execTestTimeout (station : Fin 6) (s : State) : Result :=
  let q := s.ilace station
  if s.on (F.IL_TEST_STAT_RUNNING station.val) && !q.answered && decide (8 * q.testAt + stepAt8 q.emitter ≤ 8 * s.time) then
    .next (s.testLate station)
  else .next s

/-- The reserved window is over (R96). -/
def execTestWindowEnd (station : Fin 6) (s : State) : Result :=
  let k := station
  if s.on (F.IL_TEST_STAT_RUNNING k.val) && decide ((s.ilace k).testEnd ≤ s.time) then
    let s1 := s.ifDo (!(s.ilace k).answered) (·.testLate k)
    .next (s1.ifDo (s1.on (F.IL_TEST_STAT_RUNNING k.val)) (·.testOver k))
  else .next s

/-- A write of IL_TEST; NOW makes a test due (R95). -/
def execIlTestNow (agent : Agent) (station : Fin 6) (value : Nat) (s : State) : Result :=
  .next (s.write agent (ilPage station) 0x058 fun t =>
    (t.fieldsWrite (ilPage station) 0x058 value).ifDo (bit value 31) (·.wr (F.IL_TEST_STAT_PENDING station.val) 1))

/-- A write of half of IL_DEAD (R99): an isolated emitter that is cleared is restored (R162), and the head memory rewritten
(R165). -/
def execIlDeadWrite (agent : Agent) (station : Fin 6) (hi : Bool) (value : Nat) (s : State) : Result :=
  let k := station
  .next (s.write agent (ilPage k) (if hi then 0x050 else 0x04C) fun t =>
    let old := t.ilDead k
    let t1 := t.wr (if hi then F.IL_DEAD_HI_MASK k.val else F.IL_DEAD_LO_MASK k.val) value
    let cleared := (emitters old).filter fun i => !bit (t1.ilDead k) i
    let t2 := t1.each (cleared.filter (t1.ilace k).isolated.contains) fun i u =>
      (u.headSend k hcRestore i).modIlace k fun q => { q with isolated := q.isolated.filter (· != i) }
    t2.ifDo (!cleared.isEmpty) (·.isoRewrite k))

/-! ### Re-planning (R101–R105) -/

/-- Between two jobs: the next page to be announced is of another job than the page fed last, or no page is in flight. -/
def State.jobBoundary (s : State) : Bool :=
  let last := (List.finRange 16).foldl (fun (m : Option Slot) i =>
    match m, s.tl.slots[i] with
    | none, x => x
    | some a, some b => if a.order < b.order then some b else some a
    | m, none => m) none
  match last with
  | none => true
  | some sl =>
    let jobOf := fun id => (s.page? id).map (·.job)
    match (s.tl.reprint ++ s.tl.released).head? with
    | none => true
    | some id => jobOf id != jobOf sl.page

/-- k of R104, from the registers: ramp of the polygons, 88 scans, the group's last line, pitch and commit lead. -/
def State.skipsFor (s : State) (g : Nat) (v4 : Nat) : Nat :=
  let ks := s.groupStations g
  let speed := s.rd F.PT_SPEED_SPEED
  let ramp := fun (k : Fin 6) =>
    let n := s.rd (F.BT_CFG_POLY_CH k.val)
    let new := polyMrpm speed v4 (s.facets k)
    let old := (s.rdS (F.CM_TARGET_SPEED n)).natAbs
    if old ≤ new then qdiv ((new - old) * 100000) (s.rd (F.CM_RAMP_ACC n)) else qdiv ((old - new) * 100000) (s.rd (F.CM_RAMP_DEC n))
  let scan := fun (k : Fin 6) => s.rd (F.BT_TLINE_TICKS k.val) * v4 / (4 * 65536)
  let change := (ks.map fun k => ramp k + 88 * scan k).foldl max 0
  let height := (List.finRange 16).foldl (fun m i =>
    match s.tl.slots[i] with
    | some sl => max m (((s.page? sl.page).map (·.height)).getD 0)
    | none => m) 0
  let last := (ks.map fun k => s.rd (F.PT_STN_OFFS_TICKS k.val) + height * s.rd (F.BT_TLINE_TICKS k.val) / 65536).foldl max 0
  let first : Int := ((ks.map fun k => (s.rd (F.PT_STN_OFFS_TICKS k.val) : Int)).min?.getD 0) - s.rd F.PT_COMMIT_LEAD_TICKS
  let p := s.tl.lastPitch
  let num : Int := (change : Int) + last - p - first
  if num ≤ 0 ∨ p = 0 then 0 else ((num + p - 1) / p).toNat

/-- Tables of every station of the group, staged and committed; the berth waits while a set is pending (R14, R102). -/
def State.planCommit (v4 : Nat) (sets : List (Nat × List Nat)) (s : State) : State :=
  s.each sets fun x t =>
    let k := Fin.ofNat 6 x.1
    let u := t.stageTables k.val v4 x.2
    if u.ilRefuses k.val then u.mismatch (ilPage k) else u.commitBound k 1

/-- R82. -/
def beltOffs (offs offsA tline v4 : Nat) : Nat :=
  let d := ((offs : Int) - offsA) * 65536 % (tline : Int)
  ((2 * d * 65536 * 4 + tline * v4) / (2 * tline * v4) % 65536).toNat

/-- A change of v is carried out: polygon speed, FREF_INC, PH_OFFS and tables (R103, R104). -/
def State.planApply (g : Fin 2) (p : Plan) (s : State) : State :=
  let speed := s.rd F.PT_SPEED_SPEED
  let s1 := s.each (s.groupStations g) fun (k : Fin 6) t =>
    let n := t.rd (F.BT_CFG_POLY_CH k.val)
    let v := polyMrpm speed p.v4 (t.facets k)
    let tline := t.rd (F.BT_TLINE_TICKS k.val)
    let t1 := (t.stgWr (F.CM_TARGET_SPEED n) (ofSigned 32 (if t.rdS (F.CM_TARGET_SPEED n) < 0 then -(v : Int) else v))).wr
      (H.PEND (0x0B0 + n)) 1
    let t2 := t1.ifDo (t1.testDue k) (·.modIlace k fun q => { q with waitGap := true })
    if tline = 0 then t2
    else t2.wr (F.BT_PHASE_PH_OFFS k.val) (beltOffs (t2.rd (F.PT_STN_OFFS_TICKS k.val)) (t2.rd (F.PT_STN_OFFS_TICKS 0)) tline p.v4)
  let s2 := (s1.planCommit p.v4 p.sets).setFref g (fref4 speed p.v4)
  s2.modSta fun q => { q with plans := q.plans.set g none }

/-- Every page announced before the skips has been exposed by the group, or will not be (R104). -/
def State.planClear (s : State) (g : Fin 2) (p : Plan) : Bool :=
  !s.groupExposes g && ((s.fedSlots).all fun i =>
    match s.tl.slots[i] with
    | some sl => decide (p.mark ≤ sl.texp)
    | none => true) && s.tl.pitches.all fun x => decide (p.mark ≤ x.texp) || x.kind != .sheet

/-- The planner of berth 5 runs for a station's group: `requested` by the host or the fault manager, with the profile's
limits.  A plan that keeps v is committed at once, or at the next job boundary for reason 2 (R102); one that changes v waits
for its interval (R103, R104); without a plan REQ returns to 0 and NO_PLAN is raised (R105). -/
def execReplan (station : Fin 6) (requested : Bool) (v4Max v4Min rpmMin rpmMax : Nat) (s : State) : Result :=
  let k := station
  let g := s.btGroup k
  let s := s.ifDo requested (·.replanReq k.val 4)
  match s.sta.plans[g] with
  | some p => .next (if s.planClear g p then s.planApply g p else s)
  | none =>
    if !s.on (F.IL_REPLAN_REQ k.val) || (s.holder 5).isNone then .next s
    else
      let ks := s.groupStations g.val
      match planGroup ⟨v4Max, v4Min, rpmMin, rpmMax⟩ (s.rd F.PT_SPEED_SPEED) (ks.map fun k => (k.val, s.headOf k.val)) with
      | none => .next (((s.wr (F.IL_REPLAN_REQ k.val) 0).event (ilPage k) 7).raise (52 + k.val) (ilPage k) 3)
      | some (v4, sets) =>
        if ks.any fun k => s.staged (ilPage k) then .next s
        else if ks.all fun k => s.v4Now k.val == v4 then
          if s.rd (F.IL_REPLAN_REASON k.val) = 2 ∧ s.jobBoundary = false then .next s
          else .next (s.planCommit v4 sets)
        else if s.jobBoundary || s.on (F.IL_REPLAN_SKIP_OK k.val) then
          let n := s.skipsFor g.val v4
          let s1 := s.modSta fun q => { q with plans := q.plans.set g (some ⟨v4, sets, s.tl.nextExp⟩) }
          let s2 := s1.each (ks.filter (· != k)) fun j t => t.replanReq j.val 5
          .next (s2.ifDo (s2.rd (H.STATE ptPage) != 0) fun t =>
            t.wr F.PT_SKIP_REMAIN (min (t.rd F.PT_SKIP_REMAIN + n) 255))
        else .next s

/-! ### Head temperature (R106–R109) -/

/-- A code has reached a threshold in the hot direction. -/
def State.reached (s : State) (k code th : Nat) : Bool :=
  if s.on (F.IL_THERM2_POL k) then decide (code ≤ th) else decide (th ≤ code)

/-- The pair check at a use of WARN and CUT (R17, R106). -/
def State.thermPair (k : Fin 6) (s : State) : State :=
  if s.thermGood k then s.modIlace k fun q => { q with
    pairWarn := s.rd (F.IL_THERM_WARN k.val), pairCut := s.rd (F.IL_THERM_CUT k.val) }
  else s.mismatch (ilPage k)

/-- A sample of the head temperature (R107, R109). -/
def execHtempSample (station : Fin 6) (code : Nat) (s : State) : Result :=
  let k := station
  let code := code % 1024
  if !s.hasStation k then .next s
  else
    let s1 := (s.thermPair k).wr (F.IL_THERM_STAT_TEMP k.val) code
    let q := s1.ilace k
    let s2 := if s1.reached k code q.pairWarn && !s1.reached k code q.pairCut && !s1.on (F.IL_THERM_STAT_CAP k.val) then
        (((s1.wr (F.IL_THERM_STAT_CAP k.val) 1).modIlace k fun q => { q with capNext := true, cool := false, coolPage := none }).event
          (ilPage k) 8).raise (52 + k.val) (ilPage k) 4
      else s1.ifDo (s1.on (F.IL_THERM_STAT_CAP k.val) && s1.headCool k) (·.modIlace k fun q => { q with cool := true })
    .next (s2.quenchTry k)

/-- A cut: QUENCH, and the page being exposed is LOST (R108, R160); one cut at a time (Table 6.9). -/
def State.headCutNow (k : Fin 6) (s : State) : State :=
  if (s.ilace k).cut then s
  else
    let s1 := ((s.modIlace k fun q => { q with cut := true, release := false }).quenchOn k).wr (F.IL_THERM_STAT_CUT k.val) 1
    let s2 := (s1.wr (H.STATE (ilPage k)) ilQuenched).event (ilPage k) 9
    (s2.loseExposing k lcHeadCut).raise (58 + k.val) (ilPage k) 5

/-- The CUT comparator has held for CUT_Q pixel periods (R108). -/
def execHeadCut (station : Fin 6) (s : State) : Result :=
  .next (if s.hasStation station then (s.thermPair station).headCutNow station else s)

end Sys2Proof.Machine
end

