-- ==== Sys2Proof/Machine/Assay.lean ====
section
/-! DEFINITION. The Assay scheduler: when a test starts, and what its result does (Table 17.4, R218–R220, R437–R440, R533). -/
namespace Sys2Proof.Machine

/-! ### Start -/

/-- The station of a gap Assay. -/
def assayStation (a : Assay) : Fin 6 := Fin.ofNat 6 (if a.kind = .prbs then a.unit / 16 else a.unit)

/-- The reserved window of a gap Assay in ticks (R533). -/
def gapWindow : AssayKind → Nat
  | .prbs => 220000
  | _ => 200000

/-- May the test start now: a gap Assay in a gap that admits it, a codec lane when it is free. -/
def State.assayFits (s : State) (a : Assay) : Bool :=
  match a.kind with
  | .prbs => s.gapFits (assayStation a) (gapWindow .prbs)
  | .pipe => s.gapFits (assayStation a) (gapWindow .pipe)
  | .codec => s.rd (H.STATE (assayPage a.kind a.unit)) == 0
  | _ => true

/-- The unit takes no work while it is tested: a halted berth pair runs SIGNATURE, a FAILED ADPLL
re-acquires; one that lost lock is acquiring already. -/
def State.assayBegin (a : Assay) (s : State) : State :=
  match a.kind with
  | .signature => s.ifDo (s.rd (H.STATE (brPage a.unit)) == 1) (·.wr (H.STATE (brPage a.unit)) 2)
  | .relock => s.ifDo (decide (a.unit < 3) && s.pll a.unit == 4) (·.acquire (Fin.ofNat 3 a.unit))
  | _ => s

/-- A raise's Assay opens the window of its class, or takes over the one its recovery has opened (R433). -/
def State.startWindow (a : Assay) (s : State) : State :=
  match s.fc.merges[classOf a.src] with
  | some w => s.ifDo (w.recovery && w.src == a.src) fun t =>
      { t with fc := { t.fc with merges := t.fc.merges.set (classOf a.src) (some { w with recovery := false }) } }
  | none => s.openWindow a.src (s.sevOf a.src) (assayPage a.kind a.unit)

/-- ASSAY_START: the oldest queued Assay of the source starts when its unit admits it; until then it stays QUEUED (R437,
R533). -/
def execAssayStart (src : Fin 256) (s : State) : Result :=
  match s.fc.assays.find? fun a => a.src == src.val && !a.running with
  | none => .next s
  | some a =>
    if s.assayFits a then
      let s1 := { s with fc := { s.fc with assays := s.fc.assays.map fun b => if b = a then { b with running := true, started := s.time } else b } }
      let s2 := (s1.assayBegin a).wr F.FC_ASSAY_STATUS 2
      .next (if a.byGo then s2 else s2.startWindow a)
    else .next (s.wr F.FC_ASSAY_STATUS 1)

/-! ### Lasting results -/

/-- Spare rows of a bank (Table 8.6). -/
def spareRows (b : Nat) : Nat :=
  if b < 6 then 164 else if b = 6 then 82 else if b < 19 then 11 else if b = 19 then 41 else if b = 20 then 6 else 2

/-- A range of words is copied through correction. -/
def State.copyThrough (a n : Nat) (s : State) : State := s.each (List.range n) fun i t => t.scrubBytes (a + 8 * i)

/-- A row lastingly faulty: a spare row takes its place, else the page is retired, else SPARES_OUT (R218, R219). -/
def State.rowLasting (row : Nat) (s : State) : State :=
  let a := row * 512
  match bankOf a with
  | none => s
  | some b =>
    if s.rd (F.CS_BANK_SPARE b) < spareRows b then
      let s1 := (s.copyThrough a 64).modMu fun u => { u with rowMap := u.rowMap ++ [(b, row)] }
      (s1.inc (F.CS_BANK_SPARE b)).event 0x05A 2
    else if s.rd (F.CS_BANK_RETIRED b) < 4 then
      let p := a / 4096
      let s1 := (s.ifDo (s.isSealed p) (·.scrubPage (p * 4096))).copyThrough (p * 4096) 512
      let s2 := s1.modMu fun u => { u with rowMap := u.rowMap ++ [(b, 2 ^ 32 + p)] }
      (s2.inc (F.CS_BANK_RETIRED b)).event 0x05A 3
    else (s.modMu fun u => { u with noSeal := a / 4096 :: u.noSeal }).raise (96 + b) 0x05A b

/-- A word of a DRAM row after the repair: corrected, or taken from the other channel in mirrored mode (R220). -/
def State.rowWord (c : Fin 2) (off : Nat) (s : State) : State :=
  match s.chanWord c off with
  | .good r _ =>
    let s1 := s.modMu fun u => { u with wrong := Sparse.del (dramKey c off) u.wrong }
    s1.ifDo (r != 0 && !s.mirrored) fun t =>
      let a := 0x1000000000 + c.val * 0x800000000 + off / 8 * 8
      t.st a 8 (t.ld a 8 ^^^ r)
  | .bad _ => s.ifDo (s.mirrored && s.blockGood (other c) off) (·.dramMend c off)

/-- A DRAM row lastingly faulty: soft repair, the retirement list, and the withdrawal of its extent when the device refuses
(R220). -/
def State.dramLasting (unit : Nat) (refused : Bool) (s : State) : State :=
  let c : Fin 2 := Fin.ofNat 2 (unit * 8192 / 2 ^ 40)
  let off := unit * 8192 % 2 ^ 40
  let keys := s.mu.wrong.filter fun e => dramKey c off ≤ e.1 && e.1 < dramKey c off + 1024
  let s1 := s.each keys fun e t => t.rowWord c (8 * (e.1 % 2 ^ 40))
  let mine := (s1.mu.dramRows.filter (·.1 == c.val)).length
  let s2 := s1.ifDo (decide (mine < 256)) fun t => t.modMu fun u => { u with dramRows := u.dramRows ++ [(c.val, off / 8192)] }
  let s3 := (s2.inc (F.DP_UE_RETIRED c.val)).event 0x058 2
  if refused then
    let x := ((if s3.mirrored then 0 else c.val * 0x800000000) + off) / extSize
    (s3.modMu fun u => { u with condemned := x :: u.condemned }).storeRegs
  else s3

/-- A station is taken out: its four blocks are isolated. -/
def State.stationIsolate (k : Nat) (s : State) : State :=
  s.each [0x020 + k, 0x028 + k, 0x030 + k, 0x038 + k] fun p t => t.isolate p

/-- The action of Table 17.4. -/
def State.assayLasting (a : Assay) (refused : Bool) (s : State) : State :=
  match a.kind with
  | .marchSram => s.rowLasting a.unit
  | .marchDram => s.dramLasting a.unit refused
  | .signature => (s.wr (F.BR_ROLE_ROLE a.unit) 0xF).wr (H.STATE (brPage a.unit)) 4
  | .prbs => s.modLink (Fin.ofNat 6 (a.unit / 16)) fun q => { q with lasting := q.lasting ||| 2 ^ (a.unit % 16) }
  | .pipe => s.stationIsolate a.unit
  | .codec => s.isolate (0x049 + a.unit)
  | .loop => s.isolate (0x0C0 + a.unit)
  | .refconv => { s with ct := { s.ct with adc := s.ct.adc.set (a.unit % 4) { s.ct.adc[a.unit % 4] with isolated := true } (by omega) } }
  | .relock => if a.unit < 3 then s.ifDo (s.pll a.unit != 4) (·.pllFail (Fin.ofNat 3 a.unit)) else s.stationIsolate (a.unit - 16)

/-- A unit returns to service: a berth pair becomes a spare; a lane waits for its next training (R156, R440, R442). -/
def State.assayPassed (a : Assay) (s : State) : State :=
  match a.kind with
  | .signature =>
    let s1 := s.ifDo (s.rd (H.STATE (brPage a.unit)) == 2) fun t => (t.wr (F.BR_ROLE_ROLE a.unit) 0xE).wr (H.STATE (brPage a.unit)) 3
    s1.ifDo (s1.rd F.HM_STAT_STATE == 3) fun t => { t with berths := { t.berths with promoting := none } }.hmTo 2
  | .refconv => { s with ct := { s.ct with adc := s.ct.adc.set (a.unit % 4) { s.ct.adc[a.unit % 4] with isolated := false } (by omega) } }
  | _ => s

/-- ASSAY_DONE: transient or lasting, counted and reported; its merge window closes (R433, R440). -/
def execAssayDone (src : Fin 256) (pass softRefused : Bool) (s : State) : Result :=
  match s.fc.assays.find? fun a => a.src == src.val && a.running with
  | none => .next s
  | some a =>
    let s1 := { s with fc := { s.fc with assays := s.fc.assays.filter (· != a) } }
    let s2 := s1.sat (if pass then F.FC_STATS_TRANS src else F.FC_STATS_LASTING src)
    let s3 := ((s2.wr F.FC_ASSAY_STATUS (if pass then 3 else 4)).event 0x001 3)
    let s4 := if pass then s3.assayPassed a else s3.assayLasting a softRefused
    let c : Fin 16 := ⟨src.val / 16 % 16, by omega⟩
    .next (match s4.fc.merges[c] with
      | some w => if w.src = src.val then s4.closeWindow c else s4
      | none => s4)

end Sys2Proof.Machine
end

