-- ==== Sys2Proof/Machine/Power.lean ====
section
/-! DEFINITION. The commands of the power sequencer: entries, items, rails, domains, cascade, power fail, SLACK, AVS (15). -/
namespace Sys2Proof.Machine

/-! ### Items -/

/-- A rail's or a domain's supply, weight and state. -/
def State.itemSup (s : State) (i : Nat) : Nat :=
  if isDomain i then s.psRd (F.PD_CFG_SUP i) else s.psRd (F.RAIL_CFG_SUP (i - 16))

def State.itemWeight (s : State) (i : Nat) : Nat :=
  if isDomain i then s.psRd (F.PD_CFG_WEIGHT i) else s.psRd (F.RAIL_CFG_WEIGHT (i - 16))

def State.railState (s : State) (n : Nat) : Nat := s.rd (F.RAIL_CFG_STATE n)


def State.setRailAt (n : Fin 24) (s : State) : State := s.modSeq fun q => { q with railAt := q.railAt.set n s.time }

/-- The weight in ramp windows of a supply (R393). -/
def State.inWindow (s : State) (g : Nat) : Nat :=
  (s.seq.ramping.filter fun e => s.itemSup e.1 == g).foldl (fun w e => w + s.itemWeight e.1) 0

def State.supRegs (s : State) : State := s.each (List.range 4) fun g t => t.wr (F.PS_SUP_IN_WIN g) (min (t.inWindow g) 255)

/-- An item's ramp window closes. -/
def State.closeRamp (i : Nat) (s : State) : State :=
  (s.modSeq fun q => { q with ramping := q.ramping.filter (·.1 != i) }).supRegs

/-- The entry of the running sequence that names an item has completed. -/
def State.entryDone (i : Nat) (s : State) : State :=
  s.each (List.finRange 48) fun j t =>
    t.ifDo ((t.seq.started[j]).isSome && (t.seq.done[j]).isNone && seItem (t.seq.table.getD j itEnd) == i) fun u =>
      u.modSeq fun q => { q with done := q.done.set j (some u.time) }

/-- Number of entries before END. -/
def Sequencer.count (q : Sequencer) : Nat := (seEntries q.table).length

/-- The tick at which entries 0 to j − 1 had all completed, if they have (R389). -/
def Sequencer.doneBefore (q : Sequencer) (j : Nat) : Option Nat :=
  (q.done.toList.take j).foldl (fun m x => match m, x with
    | some a, some b => some (max a b)
    | _, _ => none) (some q.begun)

/-- May entry j start now (R389)? -/
def State.entryReady (s : State) (j : Fin 48) : Bool :=
  let q := s.seq
  let w := q.table.getD j itEnd
  let d := seDelay w * 100000
  q.dir != .idle && decide (j.val < q.count) && (q.started[j]).isNone &&
  (if seWith w && j.val != 0 then
    match q.started.toList.getD (j.val - 1) none with
    | some t => decide (t + d ≤ s.time)
    | none => false
   else match q.doneBefore j.val with
    | some t => decide (t + d ≤ s.time)
    | none => false)

/-- The off condition of a rail (R396). -/
def State.railOff (s : State) (n : Fin 24) : Bool :=
  if s.psRd (F.RAIL_CFG_OFF_SRC n) = 1 then
    decide (s.rd (F.ADC_RES_CODE (s.psRd (F.RAIL_CFG_ADC n))) ≤ s.psRd (F.RAIL_CFG_OFF_CODE n))
  else !s.seq.pgRaw[n]

/-- A rail reaches OFF. -/
def State.railToOff (n : Fin 24) (s : State) : State :=
  (((s.wr (F.RAIL_CFG_STATE n) 0).wr (F.RAIL_CFG_EN n) 0)).entryDone (16 + n.val)

/-- An up entry: the item joins its supply's queue; an item that is ON already is complete (R389, R393). -/
def State.upItem (i : Nat) (s : State) : State :=
  if isDomain i && s.domState i == 2 || isRail i && s.railState (i - 16) == 2 then s.entryDone i
  else
    let g : Fin 4 := Fin.ofNat 4 (s.itemSup i)
    s.modSeq fun q => { q with queues := q.queues.set g (q.queues[g] ++ [(i, s.time)]) }

/-! ### What a domain loses and starts again (R28, R400; log 126) -/

/-- A read-only field outside the header of PD9's pages. -/
def pd9Status (k : Nat) : Bool :=
  let p := k / 32 / 4096
  let off := k / 32 % 4096
  0x090 ≤ p && p ≤ 0x0C5 && 0x040 ≤ off && (rowsAt p off).any fun r => r.acc == .ro && r.lsb == k % 32

/-- PD9: channels, encoders, motors, slots and converters are as after reset. -/
def State.controlLose (s : State) : State :=
  let s1 := { s with regs := s.regs.filter fun e => !pd9Status e.1, mo := Motion.reset, ct := Control.reset }
  (s1.each ((List.range 0x34).map (· + 0x090)) fun p t => t.wr (H.STATE p) 0).each (List.finRange 16) fun n t => t.stpState n

/-- PD4 and PD5: the links of stations `k` to `k + 2` are DOWN. -/
def State.linksLose (k : Nat) (s : State) : State :=
  s.each (List.range 3) fun j t => (t.wr (H.STATE (hlPage (k + j))) hlDown).wr (F.HL_STAT_HEAD_READY (k + j)) 0

/-- PD11: no ADPLL, no DLL, no base synthesiser; the keeper carries TIME (R21). -/
def State.clocksLose (s : State) : State :=
  let s1 := (s.each [(0 : Nat), 1, 2] fun p t => t.wr (ckState p) 0).wr F.CK_STAT_DLL 0
  ((s1.wr F.CK_ROLE_STANDBY 0).keeper true).modClk fun c => { c with baseLock := false }

/-- A domain that leaves ON loses its logic state: what its blocks were doing, not their settings. -/
def State.domainLose (d : Nat) (s : State) : State :=
  match d with
  | 4 => s.linksLose 0
  | 5 => s.linksLose 3
  | 9 => s.controlLose
  | 10 => (s.portStop 0).portStop 1
  | 11 => s.clocksLose
  | _ => s

/-- A station's link trains again after its domain's wake. -/
def State.linksWake (k : Nat) (s : State) : State :=
  s.each ((List.range 3).map fun j => Fin.ofNat 6 (k + j)) fun (i : Fin 6) t =>
    t.ifDo (t.hasStation i && !t.on (H.ISOLATED (hlPage i))) fun u => (u.train i).quenchOff i

/-- The blocks of a woken domain start again. -/
def State.domainWake (d : Nat) (s : State) : State :=
  match d with
  | 4 => s.linksWake 0
  | 5 => s.linksWake 3
  | 9 => (s.wr (H.STATE 0x0C4) (b2n (s.rd F.ADC_CFG_EN != 0))).pathLevel
  | 10 => s.each [(0 : Fin 2), 1] fun p t => t.ifDo (t.on (F.ED_CFG_PORT_EN p) && !t.on (H.ISOLATED (edPage p))) (·.portStart p)
  | 11 => s.each [(0 : Fin 3), 1] fun p t => t.ifDo (t.on (F.CK_PLL_EN p) && t.pll p == 0) (·.acquire p)
  | _ => s

/-- A down entry (R387, R396): OFF items are skipped, a rail off or LOST before its turn is recorded as RAIL_EARLY. -/
def State.downItem (i : Nat) (s : State) : State :=
  if isDomain i then
    ((((s.closeRamp i).ifDo (s.domState i == 2) (·.domainLose i)).wr (F.PD_CFG_STATE i) 0)).entryDone i
  else
    let n : Fin 24 := Fin.ofNat 24 (i - 16)
    let st := s.railState n
    if st = 0 ∨ st = 6 then s.entryDone i
    else if st = 5 ∨ s.railOff n then (((s.closeRamp i).railToOff n).seqRecord i 5).raise 6 psPage 3
    else (((s.closeRamp i).wr (F.RAIL_CFG_STATE n) 3).wr (F.RAIL_CFG_EN n) 0).setRailAt n

/-- Start entry j of the running sequence (R389, R394). -/
def execSequenceEntryStart (j : Fin 48) (s : State) : Result :=
  if s.entryReady j then
    let s1 := (s.modSeq fun q => { q with started := q.started.set j (some s.time) }).seqRegs
    let i := seItem (s.seq.table.getD j itEnd)
    if i = itCascOut then
      let s2 := s1.modSeq fun q => if q.dir = .up then { q with uoLevel := true } else { q with doLevel := true }
      .next ((s2.cascRegs).entryDone i)
    else if i = itCascWait then
      .next (s1.ifDo (if s1.seq.dir == .up then s1.seq.uiLevel else s1.seq.diLevel) (·.entryDone i))
    else .next (if s.seq.dir = .up then s1.upItem i else s1.downItem i)
  else .next s

/-- The head of a supply's queue is admitted if it fits, or alone (R393). -/
def execItemAdmit (supply : Fin 4) (s : State) : Result :=
  match s.seq.queues[supply] with
  | [] => .next s
  | (i, since) :: r =>
    let w := s.itemWeight i
    let inW := s.inWindow supply
    let b := s.psRd (F.PS_SUP_BUDGET supply)
    if inW + w ≤ b ∨ (b < w ∧ inW = 0) then
      let s1 := s.modSeq fun q => { q with queues := q.queues.set supply r, ramping := q.ramping ++ [(i, s.time)] }
      let s2 := s1.wr (F.PS_SUP_WAIT_MAX supply) (max (s1.rd (F.PS_SUP_WAIT_MAX supply)) (min ((s.time - since) / 1000) 0xFFFF))
      let s3 := if isDomain i then s2.wr (F.PD_CFG_STATE i) 1
        else
          let n : Fin 24 := Fin.ofNat 24 (i - 16)
          (((s2.wr (F.RAIL_CFG_STATE n) 1).wr (F.RAIL_CFG_EN n) 1).wr (F.RAIL_CFG_RESTARTS n) 0).setRailAt n
      .next s3.supRegs
    else .next s

/-! ### Rails -/

/-- A filtered edge of RAIL_PG[n] (R387). -/
def execRailPgEdge (n : Fin 24) (level : Bool) (s : State) : Result :=
  let was := s.seq.pgRaw[n]
  let s1 := s.modSeq fun q => { q with pgRaw := q.pgRaw.set n level, pgSince := q.pgSince.set n s.time }
  let s2 := s1.flag (F.RAIL_CFG_PG n) level
  if s.railState n = 1 ∧ was = true ∧ level = false then
    let r := s.rd (F.RAIL_CFG_RESTARTS n) + 1
    let s3 := s2.wr (F.RAIL_CFG_RESTARTS n) r
    .next (if 3 ≤ r then ((s3.closeRamp (16 + n.val)).wr (F.RAIL_CFG_STATE n) 6).stepFail (16 + n.val) 2 else s3)
  else .next s2

def State.qualTicks (s : State) (n : Nat) : Nat := s.psRd (F.RAIL_CFG_T_QUAL n) * 10000

/-- PG has held for T_QUAL: a ramping rail is ON, a LOST rail returns to ON (R387, R391). -/
def execRailQualified (n : Fin 24) (s : State) : Result :=
  let since := if s.railState n = 1 then max s.seq.pgSince[n] s.seq.railAt[n] else s.seq.pgSince[n]
  if s.seq.pgRaw[n] = true ∧ since + s.qualTicks n ≤ s.time ∧ (s.railState n = 1 ∨ s.railState n = 5) then
    .next (((s.wr (F.RAIL_CFG_STATE n) 2).closeRamp (16 + n.val)).entryDone (16 + n.val))
  else .next s

/-- PG has been low for T_QUAL on a rail that is ON (R387, R391). -/
def execRailLost (n : Fin 24) (s : State) : Result :=
  if s.railState n = 2 ∧ s.seq.pgRaw[n] = false ∧ s.seq.pgSince[n] + s.qualTicks n ≤ s.time then
    let s1 := (s.wr (F.RAIL_CFG_STATE n) 5).raise 5 psPage 2
    .next (if s1.psRd (F.RAIL_CFG_ON_LOSS n) = 1 then s1.stepFail (16 + n.val) 4 else s1)
  else .next s

/-- A ramping rail has not qualified within TIMEOUT of its enable (R387). -/
def execRailTimeout (n : Fin 24) (s : State) : Result :=
  if s.railState n = 1 ∧ s.seq.railAt[n] + s.psRd (F.RAIL_CFG_TIMEOUT n) * 100000 ≤ s.time then
    .next (((s.closeRamp (16 + n.val)).wr (F.RAIL_CFG_STATE n) 6).stepFail (16 + n.val) 1)
  else .next s

/-- T_FALL elapsed: FALL goes to DISCH; a second T_FALL ends in OFF with RAIL_STUCK (R387, R396). -/
def execRailFallTimeout (n : Fin 24) (s : State) : Result :=
  if s.seq.railAt[n] + s.psRd (F.RAIL_CFG_T_FALL n) * 10000 ≤ s.time then
    if s.railState n = 3 then .next ((s.wr (F.RAIL_CFG_STATE n) 4).setRailAt n)
    else if s.railState n = 4 then .next (((s.railToOff n).seqRecord (16 + n.val) 6).raise 6 psPage 3)
    else .next s
  else .next s

/-- The off condition of a falling rail holds (R387, R396). -/
def execRailOff (n : Fin 24) (s : State) : Result :=
  .next (if s.railOff n ∧ (s.railState n = 3 ∨ s.railState n = 4) then s.railToOff n else s)

/-! ### Domains (R388) -/

/-- When an item entered its ramp window. -/
def State.rampSince (s : State) (i : Nat) : Option Nat := (s.seq.ramping.find? (·.1 == i)).map (·.2)

/-- The ramp window of a domain closes and its banks have been cleared (R388, R211). -/
def execDomainRampDone (d : Fin 12) (s : State) : Result :=
  match s.rampSince d with
  | some t =>
    if s.domState d = 1 ∧ t + s.psRd (F.PD_CFG_RAMP d) * 100 ≤ s.time then
      .next (((((s.clearDomain d).wr (F.PD_CFG_STATE d) 2).closeRamp d).entryDone d))
    else .next s
  | none => .next s

/-- A domain's switch has not reported good within 10 × RAMP: its step fails (R388). -/
def execDomainSwitchTimeout (d : Fin 12) (s : State) : Result :=
  match s.rampSince d with
  | some t =>
    if s.domState d = 1 ∧ t + s.psRd (F.PD_CFG_RAMP d) * 1000 ≤ s.time then
      .next (((s.closeRamp d).wr (F.PD_CFG_STATE d) 0).stepFail d 7)
    else .next s
  | none => .next s

/-! ### Sequences -/

/-- PS_CMD.DOWN (R397). -/
def execDown (agent : Agent) (s : State) : Result := .next (s.write agent psPage 0x044 (·.startDown false 0))

/-- Restart from OFF without RST_N: a warm start (R454); not after SAFE (R435). -/
def State.warmUp (s : State) : State :=
  if s.boot.offAfterSafe ∨ s.dev ≠ stOff then s
  else ({ s with boot := { s.boot with warm := true } }).startUp

/-- PS_CMD.RETRY: leaves FAILED and runs SEQ_UP again from entry 0 (R392). -/
def execRetry (agent : Agent) (s : State) : Result :=
  .next (s.write agent psPage 0x044 fun t =>
    if t.rd (H.STATE psPage) = 5 ∧ t.boot.offAfterSafe = false then
      let u := t.each (List.range 24) fun n v => v.ifDo (v.railState n == 6) fun w =>
        (w.wr (F.RAIL_CFG_STATE n) 0).wr (F.RAIL_CFG_EN n) 0
      u.warmUp
    else t)

/-- PS_CMD.AVS_RETRY (R405). -/
def execAvsRetry (agent : Agent) (s : State) : Result :=
  .next (s.write agent psPage 0x044 (·.modSeq fun q => { q with avsStop := false, avsBad := 0 }))

/-- A CASCADE_WAIT has not completed within PS_CASC.TO ms: a step failure going up, skipped and recorded going down (R395). -/
def execCascadeWaitTimeout (s : State) : Result :=
  let waiting := (List.finRange 48).find? fun (j : Fin 48) =>
    seItem (s.seq.table.getD j itEnd) == itCascWait && (s.seq.done[j]).isNone &&
      match s.seq.started[j] with
      | some t => decide (t + s.psRd F.PS_CASC_TO * 100000 ≤ s.time)
      | none => false
  match waiting with
  | none => .next s
  | some _ =>
    if s.seq.dir = .up then .next (s.stepFail itCascWait 3)
    else .next (((s.entryDone itCascWait).seqRecord itCascWait 3).raise 9 psPage 7)

/-- The cascade input a running CASCADE_WAIT looks at changes: SEQ_UI on the way up, SEQ_DI on the way down (R394). -/
def execCascadeWaitDone (level : Bool) (s : State) : Result :=
  let s1 := (s.modSeq fun q => if q.dir = .down then { q with diLevel := level } else { q with uiLevel := level }).cascRegs
  .next (s1.ifDo (level && s1.seq.dir != .idle) (·.entryDone itCascWait))

/-- SEQ_UI low for 1 ms: the down-sequence starts unless one runs (R395). -/
def execSeqUiFall (s : State) : Result :=
  let s1 := (s.modSeq fun q => { q with uiLevel := false }).cascRegs
  .next (if s1.dev = stOff ∧ s1.seq.dir = .idle then s1 else s1.startDown false 1)

/-- SEQ_UI high for 1 ms after such a down-sequence: SEQ_UP again with AUTO_UP (R395). -/
def execSeqUiRise (s : State) : Result :=
  let s1 := (s.modSeq fun q => { q with uiLevel := true }).cascRegs
  .next (if s1.on F.PS_CFG_AUTO_UP ∧ s1.seq.autoKind = 1 ∧ s1.seq.dir = .idle then s1.warmUp else s1)

/-! ### Power fail -/

/-- Sheet numbers in flight. -/
def State.inFlight (s : State) : List Nat := s.tl.slots.toList.filterMap fun x => x.map (·.sheet)

/-- The event log keeps the numbers of the sheets whose pages have not completed (R397; log 127). -/
def State.logSheets (s : State) : State :=
  s.ifDo (!s.inFlight.isEmpty) (·.logRecord 0x03 (s.inFlight.flatMap fun n => leBytes n 4))

/-- VIN_SENSE falls below PS_PFW.TH (R398). -/
def execPfw (s : State) : Result :=
  if s.seq.pfwSince.isSome then .next s
  else
    let s1 := { s with pfwN := true, seq := { s.seq with pfwSince := some s.time, vinOkAt := none } }
    let s2 := (s1.wr F.PT_CFG_FEED_EN 0).wr F.PS_STAT_PFW 1
    .next ((s2.logRecord 0x03 (s2.inFlight.flatMap fun n => leBytes n 4)).raise 7 psPage 4)

/-- HOLD ends with the warning in force: the down-sequence starts (R398). -/
def execPfwHoldEnd (s : State) : Result :=
  match s.seq.pfwSince with
  | some t => .next (if t + s.psRd F.PS_PFW_HOLD * 1000 ≤ s.time ∧ ¬ (s.dev = stOff ∧ s.seq.dir = .idle) then s.startDown false 2 else s)
  | none => .next s

/-- VIN_SENSE rises above TH + HYST: PFW_N is released and the warning ends (R398). -/
def execPfwRecover (s : State) : Result :=
  .next ({ s with pfwN := false, seq := { s.seq with pfwSince := none, vinOkAt := some s.time } }.wr F.PS_STAT_PFW 0)

/-- VIN_SENSE above TH + HYST for 100 ms after a power-fail down-sequence: SEQ_UP again with AUTO_UP (R399). -/
def execPfwAutoUp (s : State) : Result :=
  match s.seq.vinOkAt with
  | some t => .next (if s.on F.PS_CFG_AUTO_UP ∧ s.seq.autoKind = 2 ∧ s.seq.dir = .idle ∧ t + 10000000 ≤ s.time then s.warmUp else s)
  | none => .next s

/-- Every entry before END has completed (R389, R397). -/
def execSequenceDone (s : State) : Result :=
  match s.seq.dir, s.seq.doneBefore s.seq.count with
  | .up, some _ =>
    .next (((s.modSeq fun q => { q with dir := .idle }).wr (H.STATE psPage) 2).event psPage 0)
  | .down, some _ =>
    let s1 := s.modSeq fun q => { q with dir := .idle, doLevel := true }
    let s2 := (s1.wr (H.STATE psPage) (if s1.seq.failed then 5 else 0)).cascRegs
    let s3 := { s2 with boot := { s2.boot with offAfterSafe := s2.boot.offAfterSafe || s2.seq.fromSafe } }
    .next (((s3.logSheets.each (List.range 12) fun n t => t.wr (H.STATE (brPage n)) 5).event psPage 1).devTo stOff)
  | _, _ => .next s

/-! ### SLACK (R400–R402) -/

/-- No DMA channel is busy. -/
def State.dmaIdle (s : State) : Bool := s.rd F.DG_ACTIVE_CH == 0

/-- The conditions that have to hold for IDLE_S seconds (R400; R402 in the ZE-40 personality). -/
def State.slackReady (s : State) : Bool :=
  s.dev == stReady && s.motorsOff && s.rd (H.STATE ptPage) == 0 &&
  (if s.ze40 then !s.on F.ZCTRL_RUN && s.rd F.ZPAGE_STAT_QUEUED == 0 && !s.on F.ZRAS_STAT_BUSY
   else s.tl.jobs.isEmpty && s.dmaIdle)

/-- Each domain goes to the state PD_CFG[d].SLACK names; PD10 stays ON in the ZE-40 personality (R400, R402). -/
def State.slackDomains (s : State) : State :=
  s.each ((List.range 11).map (· + 1)) fun d t =>
    let c := t.rd (F.PD_CFG_SLACK d)
    let v := if d = 10 && t.ze40 then 2 else if c = 0 then 0 else if c = 1 then 3 else 2
    (t.ifDo (v != 2) (·.domainLose d)).wr (F.PD_CFG_STATE d) v

def execSlackEnter (s : State) : Result :=
  let n := s.rd F.PS_SLACK_IDLE_S
  if n ≠ 0 ∧ s.slackReady ∧ s.seq.idleSince + n * 100000000 ≤ s.time then
    .next ((((s.modSeq fun q => { q with slackExit := false }).slackDomains.wr (H.STATE psPage) 4).event psPage 2).devTo stSlack)
  else .next s

/-- A BAR0 write, a tail write or (ZE-40) a legacy write has asked for the exit: domains return, those that were off with
cleared banks, their blocks start again, and the device is READY (R401, R211). -/
def execSlackExit (s : State) : Result :=
  if s.dev = stSlack ∧ s.seq.slackExit = true ∧ s.seq.dir = .idle then
    let all := (List.range 11).map (· + 1)
    let s0 := s.each (all.filter fun d => s.domState d == 0) fun d t => t.clearDomain d
    let s1 := (s0.each (all.filter fun d => s.domState d != 2) fun d t => t.domainWake d).each all fun d t => t.wr (F.PD_CFG_STATE d) 2
    let s2 := s1.modSeq fun q => { q with slackExit := false, idleSince := s.time }
    .next (((s2.wr (H.STATE psPage) 2).event psPage 3).devTo stReady)
  else .next s

/-! ### Core voltage (R403–R405) -/

/-- R403: VCORE follows demand only outside BOOT, FILL, SAFE and down-sequences. -/
def State.avsFree (s : State) : Bool :=
  (s.dev == stReady || s.dev == stRun || s.dev == stSlack) && s.seq.dir != .down

/-- The UP_TH and DN_TH in use: a live pair (R17, R407). -/
def State.avsPair (s : State) : State :=
  let u := s.rd F.PS_AVS2_UP_TH
  let d := s.rd F.PS_AVS2_DN_TH
  if d < u then s.modSeq fun q => { q with pairUp := u, pairDn := d } else s.mismatch psPage

/-- The first row of Table 15.6 that applies. -/
def State.avsTarget (s : State) (umax : Nat) (fifoLow : Bool) : Nat :=
  let v := s.rd F.PS_VCORE_VSET
  let step := 5 * s.rd F.PS_AVS2_STEP
  let lo := s.rd F.PS_AVS_VMIN
  let hi := s.rd F.PS_AVS_VMAX
  let t := if fifoLow then hi
    else if s.seq.pairUp < umax then v + 4 * step
    else if s.rd F.PS_AVS2_DWELL ≤ s.seq.lowRun && !s.seq.avsStop then v - step
    else v
  min hi (max lo t)

def execAvsEvaluate (utils : List Nat) (fifoLow : Bool) (s : State) : Result :=
  let umax := utils.foldl max 0
  let s0 := (s.wr F.PS_UTIL_UMAX umax).avsPair
  let s1 := s0.modSeq fun q => { q with lowRun := if umax < q.pairDn then q.lowRun + 1 else 0 }
  if s1.avsFree then
    let t := s1.avsTarget umax fifoLow
    if t = s1.rd F.PS_VCORE_VSET then .next s1
    else
      let s2 := (((s1.wr F.PS_VCORE_VSET t).emit (.avs t)).event psPage 4)
      .next (s2.modSeq fun q => { q with avsAt := s2.time, lowRun := 0 })
  else .next s1

/-- The regulator's answer to a transaction (R405). -/
def execAvsReadbackCheck (reading : Option Nat) (s : State) : Result :=
  match reading with
  | some v =>
    let s1 := (s.wr F.PS_VCORE_VREAD v).modSeq fun q => { q with avsBad := 0 }
    let w := s1.rd F.PS_VCORE_VSET
    .next (if s1.seq.avsAt + 200000 ≤ s1.time ∧ (w + 20 < v ∨ v + 20 < w) then s1.raise 8 psPage 6 else s1)
  | none =>
    let s1 := s.modSeq fun q => { q with avsBad := q.avsBad + 1 }
    if s1.seq.avsBad = 3 then
      .next (((s1.wr F.PS_VCORE_VSET 800).modSeq fun q => { q with avsStop := true }).raise 8 psPage 5)
    else .next s1

end Sys2Proof.Machine
end

