-- ==== Sys2Proof/Machine/Boot.lean ====
section
/-!
DEFINITION. From RST_N to READY, profiles, firmware and keys (18), and the alarm of the timebase page (R509).
-/
namespace Sys2Proof.Machine

def mrPage : Nat := 0x0F0

def State.modBoot (f : Boot → Boot) (s : State) : State := { s with boot := f s.boot }

/-! ### Boot record and anti-rollback counter (Table 18.4) -/

/-- The boot record: ACTIVE, TRY and TRIES; a record whose check fails reads as 0 (R459). -/
def State.bootRecord (s : State) : Nat × Nat × Nat :=
  let w := s.ld 0x05300000 8
  let check := (leBytes w 4).foldl (· ^^^ ·) 0x5A
  if bits w 32 8 = check then (bits w 0 1, bits w 1 1, bits w 2 2) else (0, 0, 0)

def State.setBootRecord (active try_ tries : Nat) (s : State) : State :=
  let v := active % 2 + 2 * (try_ % 2) + 4 * (tries % 4)
  s.st 0x05300000 8 (v + 2 ^ 32 * (v ^^^ 0x5A))

/-- The anti-rollback counter, by majority of its three copies (log 70). -/
def State.rollback (s : State) : Nat :=
  let a := s.ld 0x05301000 2
  let b := s.ld 0x05301002 2
  let c := s.ld 0x05301004 2
  (a &&& b) ||| (a &&& c) ||| (b &&& c)

def State.setRollback (v : Nat) (s : State) : State :=
  ((s.st 0x05301000 2 v).st 0x05301002 2 v).st 0x05301004 2 v

/-- An image verifies (R458): every check of its summary, and the anti-rollback one. -/
def State.verifies (s : State) (b : Nat) : Bool := (s.imageOf b).ok && decide (s.rollback ≤ (s.imageOf b).svn)

def State.keyLocked (s : State) : Bool := s.ld 0x05310220 4 != 0

/-- The registers that show the images and the lock (Table 18.9). -/
def State.fwRegs (s : State) : State :=
  let b := s.rd F.FW_STAT_BANK
  let alt := 1 - b
  let s1 := ((s.wr F.FW_VER_VERSION (s.imageOf b).version).wr F.FW_SVN_RUN (s.imageOf b).svn).wr F.FW_SVN_COUNTER s.rollback
  (s1.wr F.FW_ALT_VERSION (if s1.verifies alt then (s1.imageOf alt).version else 0)).flag F.PF_STAT_KEY_LOCK s1.keyLocked

/-- The boot ROM's choice of a bank (R460), the supervisor copy (R458) and the BOOT record of the log (R471). -/
def State.bootSelect (s : State) : State :=
  let (active, try_, tries) := s.bootRecord
  let sel := if 0 < tries then try_ else active
  let s1 := s.ifDo (decide (0 < tries)) (·.setBootRecord active try_ (tries - 1))
  let pick := if s1.verifies sel then some sel else if s1.verifies (1 - sel) then some (1 - sel) else none
  match pick with
  | none => { (s1.modBoot fun b => { b with verified := false, imageBad := false }).wr F.FW_STAT_STATUS 6 with faultN := true }
  | some b =>
    let fell := b != sel
    let s2 := (s1.ifDo fell (·.setBootRecord b try_ 0)).modBoot fun q => { q with verified := true, imageBad := fell }
    let im := s2.imageOf b
    let s3 := s2.ifDo (s2.ldBytes 0x05310200 32 != im.supDigest.map (· % 256)) (·.setDigest im.supDigest)
    let s4 := (s3.wr F.FW_STAT_BANK b).flag F.FW_STAT_TRIAL (decide (0 < tries) && !fell)
    s4.fwRegs.logRecord 0x05 ([b, b2n fell] ++ leBytes im.svn 2 ++ leBytes im.version 4)

/-! ### Profile slots (R466) -/

/-- Do the records parse to an END record before `e`? -/
def State.recordsOk (s : State) (e : Nat) : Nat → Nat → Bool
  | 0, _ => false
  | n + 1, a =>
    if e < a + 8 then false
    else
      let h := s.ld a 8
      match h % 256 with
      | 0 =>
        let next := a + 8 + (4 * bits h 16 16 + 7) / 8 * 8
        decide (next ≤ e) && (dirEntry (bits h 32 16)).isSome && bits h 48 16 % 4 == 0 && s.recordsOk e n next
      | 1 =>
        let len := bits h 32 32
        let dest := s.ld (a + 8) 8
        decide (a + 16 + len ≤ e) && len % 8 == 0 && (bankOf dest).isSome &&
          (len == 0 || bankOf (dest + len - 1) == bankOf dest) && s.recordsOk e n (a + 16 + len)
      | 2 => true
      | _ => false

/-- A slot that names station E or F on a -4S device (R6). -/
def State.slotNames (s : State) (p : Nat) : Bool := s.boot.minus4S && 16 ≤ s.ldByte (slotBase p + 7) % 64

/-- The sequence tables of a slot pass R390. -/
def State.slotTables (s : State) (p : Nat) : Bool :=
  let w := fun off => s.ld (slotBase p + 0x100 + (off - 0x040)) 4
  seqUpOk ((List.range 48).map fun j => w (F.SEQ_UP_ENTRY j).off) &&
    seqDnOk ((List.range 48).map fun j => w (F.SEQ_DN_ENTRY j).off) fun n =>
      bits (w (F.RAIL_CFG_OFF_SRC n).off) (F.RAIL_CFG_OFF_SRC n).lsb (F.RAIL_CFG_OFF_SRC n).width == 1

/-- A slot is valid (R466) but for the stations it names. -/
def State.slotForm (s : State) (p : Nat) : Bool :=
  let b := slotBase p
  let len := s.ld (b + 8) 4
  s.ldBytes b 4 == [0x49, 0x52, 0x50, 0x46] && s.ld (b + 4) 2 == 1 && decide (0x540 ≤ len) && decide (len ≤ 0x40000) &&
    s.ld (b + 0xFC) 4 == crc32c (s.ldBytes b 0xFC ++ s.ldBytes (b + 0x100) (len - 0x100)) &&
    s.recordsOk (b + len) 0x8000 (b + 0x540) && s.slotTables p

def State.slotValid (s : State) (p : Nat) : Bool := s.slotForm p && !s.slotNames p

/-- PF_STAT.VALID. -/
def State.validRegs (s : State) : State :=
  s.wr F.PF_STAT_VALID ((List.range 4).foldl (fun v p => if s.slotValid p then v + 2 ^ p else v) 0)

/-! ### Applying a profile (R467) -/

/-- Words written from an offset of a page on. -/
def State.rawWords (p off a : Nat) : Nat → State → State
  | 0, s => s
  | n + 1, s => State.rawWords p (off + 4) (a + 4) n ((s.rawWord p off (s.ld a 4)).follow p off)

/-- The records of a slot in order (Table 18.6); bytes go into a bank and their pages are hallmarked. -/
def State.applyRecords (e : Nat) : Nat → Nat → State → State
  | 0, _, s => s
  | n + 1, a, s =>
    if e < a + 8 then s
    else
      let h := s.ld a 8
      match h % 256 with
      | 0 =>
        let cnt := bits h 16 16
        let p := bits h 32 16
        let t := if s.absentPage p then s else s.rawWords p (bits h 48 16) (a + 8) cnt
        State.applyRecords e n (a + 8 + (4 * cnt + 7) / 8 * 8) t
      | 1 =>
        let len := bits h 32 32
        let dest := s.ld (a + 8) 8
        let t := if s.inBank dest (max 1 len) then
            (s.bankPuts dest (s.ldBytes (a + 16) len)).each (List.range ((dest + len + 4095) / 4096 - dest / 4096)) fun i u =>
              u.sealPage (dest / 4096 + i)
          else s
        State.applyRecords e n (a + 16 + len) t
      | _ => s

/-- Does a field's reset column say "prof" (pages that records reach)? -/
def profKey (k : Nat) : Bool :=
  let p := k / 32 / 4096
  let off := k / 32 % 4096
  p != 0x003 && !(0x008 ≤ p && p ≤ 0x013) && (rowsAt p off).any fun r => r.prof && r.lsb == k % 32

/-- A field with reset "prof" that no record names reads 0 (R467). -/
def State.clearProf (s : State) : State := { s with regs := s.regs.filter fun e => !profKey e.1 }

/-- The settings of ADPLL 0 and 1 as the profile leaves them (R412). -/
def State.clockProfile (s : State) : State :=
  s.each [(0 : Fin 3), 1] fun (p : Fin 3) t =>
    let n := t.rd (F.CK_PLL_N p)
    let d := t.rd (F.CK_PLL_POSTDIV p)
    let f := t.rd (F.CK_FRAC_FRAC p)
    if pllOk n d f then
      (t.modClk fun c => { c with setN := c.setN.set p n, setDiv := c.setDiv.set p d, setFrac := c.setFrac.set p f }).ifDo
        (t.on (F.CK_PLL_EN p)) (·.acquire p)
    else t

/-- The records of a slot. -/
def State.slotRecords (p : Nat) (s : State) : State :=
  let b := slotBase p
  (s.clearProf.applyRecords (b + s.ld (b + 8) 4) 0x8000 (b + 0x540)).clockProfile.storeRegs

/-- One word of the power block: the fields that software may write; the sequencer's own status words show its state (log 76). -/
def State.powerWord (slot : Nat) (i : Nat) (s : State) : State :=
  let off := 0x040 + 4 * i
  let v := s.ld (slotBase slot + 0x100 + 4 * i) 4
  s.each ((rowsAt 0x003 off).filter (·.acc == .rw)) fun r t => t.wr (r.fld 0x003 off) (r.part off v)

/-- The power block of a slot: page 0x003 from 0x040 to 0x47F (R467). -/
def State.slotPower (slot : Nat) (s : State) : State := s.each (List.range 272) fun i t => t.powerWord slot i

/-- The default roles (Table 1.8). -/
def defaultRole (n : Nat) : Nat := if n < 10 then n else 0xE

/-- The berths take their roles; on a -4S device the berth of role 0x8 becomes a spare (R29, R451). -/
def State.takeRoles (s : State) : State :=
  s.each (List.range 12) fun n t =>
    let r := if t.boot.slotOk then t.ldByte (slotBase (t.rd F.PF_STAT_ACTIVE) + 0x14 + n) % 16 else defaultRole n
    let r := if t.boot.minus4S && r == 8 then 0xE else r
    (t.wr (F.BR_ROLE_ROLE n) r).wr (H.STATE (brPage n)) (if r = 0xE then 3 else if r = 0xF then 4 else 0)

/-! ### Device states (R453, R454) -/

def inMram (a : Nat) : Bool := 0x05000000 ≤ a && a < 0x05400000

/-- RST_N asserted: every block, PD0 included, returns to reset; MRAM keeps its contents (R453, R515). -/
def State.assertReset (s : State) : State :=
  { State.reset with
    free := s.free
    out := s.out
    pending := s.pending
    mem := s.mem.filter fun c => inMram c.1
    regs := s.regs.filter fun e => e.1 == F.LG_STAT_HEAD.key || e.1 == F.LG_SEQ_LAST.key
    mu := { MemUnit.reset with rowMap := s.mu.rowMap, dramRows := s.mu.dramRows }
    boot := { Boot.reset with bankA := s.boot.bankA, bankB := s.boot.bankB, minus4S := s.boot.minus4S, gradeX := s.boot.gradeX } }

/-- RST_N is released: PROF is sampled, the sequencer reads its tables and starts SEQ_UP, the boot ROM selects an image
(R390, R453, R460, R520). -/
def State.releaseReset (bankA bankB : ImageInfo) (prof : Nat) (s : State) : State :=
  let s1 := { s with rstN := false, faultN := false, time := 0, boot := { s.boot with bankA := bankA, bankB := bankB } }
  let s2 := ((((s1.wr F.DV_INFO_PROF prof).flag F.DV_INFO_VARIANT s1.boot.minus4S).flag F.DV_INFO_GRADE s1.boot.gradeX).wr
    F.PF_STAT_ACTIVE prof).each (List.range 12) fun n t => t.wr (H.STATE (brPage n)) 5
  let ok := s2.slotValid prof
  let s3 := { s2 with
    boot := { s2.boot with slotOk := ok }
    seq := { s2.seq with bad := !ok, early := ok } }
  let s4 := (((s3.validRegs.keeper true).wr F.CK_STAT_REF_OK 1).wr (H.STATE 0x001) 1).devTo stBoot
  let s5 := if ok then s4 else s4.raise 4 psPage 1
  s5.pathLevel.bootSelect.startUp

def execRstNRelease (bankA bankB : ImageInfo) (prof : Fin 4) (s : State) : Result :=
  .next (if s.rstN then s.releaseReset bankA bankB prof else s)

def execRstNAssert (s : State) : Result := .next s.assertReset

/-- VAON has been below 0.68 V or VIO33 below 2.9 V: an assertion of RST_N, which ends with the supplies unless RST_N itself
is low (R515, R519). -/
def execInternalPowerOnReset (bankA bankB : ImageInfo) (prof : Fin 4) (s : State) : Result :=
  let low := s.rstN
  let s1 := s.assertReset
  .next (if low then s1 else s1.releaseReset bankA bankB prof)

/-- Pages whose registers lie in PD0 (Table 1.6). -/
def pd0Page (p : Nat) : Bool := p ≤ 0x003 || p == 0x005 || p == 0x0F0

/-- A start from OFF that the sequencer makes without RST_N: every block outside PD0 starts afresh, the Harbourmaster waits, and
the boot ROM selects an image (R453, R454). -/
def execWarmStart (s : State) : Result :=
  if s.boot.warm = false ∨ s.dev ≠ stOff then .next s
  else
    let s1 := { s with
      regs := s.regs.filter fun e => pd0Page (pageOfKey e.1)
      stg := s.stg.filter fun e => pd0Page (pageOfKey e.1)
      hold := []
      mem := s.mem.filter fun c => inMram c.1
      mu := { MemUnit.reset with rowMap := s.mu.rowMap, dramRows := s.mu.dramRows }
      tl := Timeline.reset
      quay := { Quay.reset with perst := s.quay.perst }
      ed := Vector.replicate 2 EdPort.reset
      dma := Dma.reset
      mo := Motion.reset
      ct := Control.reset
      sta := Stations.reset
      lg := { Legacy.reset with polys := s.lg.polys.map fun (q : ZPoly) => { q with run := false, acc := 0 } }
      clocks := { Clocks.reset with refLost := s.clocks.refLost, refLong := s.clocks.refLong, alarm := s.clocks.alarm, alarmAt := s.clocks.alarmAt }
      berths := { s.berths with moves := [], waitSince := s.time, promoting := none, traps := Vector.replicate 12 0 }
      boot := { s.boot with warm := false, banksFilled := false, updating := false, updMoved := [] } }
    let s2 := (s1.each (List.range 12) fun n t => t.wr (H.STATE (brPage n)) 5).hmTo 0
    .next (((((s2.keeper true).flag F.CK_STAT_REF_OK s.clocks.refLost.isNone).wr (H.STATE 0x001) 1).devTo stBoot).pathLevel.bootSelect)

/-- Every domain of the sequence in use is ON. -/
def State.domainsOn (s : State) : Bool :=
  (seEntries s.seq.table).all fun w => !isDomain (seItem w) || s.domState (seItem w) == 2

/-- FILL: every bank is cleared and every page OPEN; the DRAM channels train (R209, R210, R453). -/
def execBootDone (s : State) : Result :=
  if s.dev = stBoot ∧ s.boot.verified = true ∧ s.domainsOn = true then
    let s1 := (s.each (List.range 7) fun d t => t.clearDomain d).fillRange 0x03C40000 0x10000
    let s2 := ((s1.wr F.DP_STAT_CH0 chTraining).wr F.DP_STAT_CH1 chTraining).wr (H.STATE 0x058) 0
    let s3 := s2.each (List.range 12) fun n t => t.wr (H.STATE (brPage n)) 6
    .next ((s3.modBoot fun b => { b with banksFilled := true, since := s.time }).devTo stFill)
  else .next s

/-- The rows that the maps in MRAM name, reapplied at FILL (R218, R220). -/
def State.rowRegs (s : State) : State :=
  let s1 := s.each (List.range 22) fun b t =>
    let mine := t.mu.rowMap.filter (·.1 == b)
    (t.wr (F.CS_BANK_SPARE b) (mine.filter fun e => decide (e.2 < 2 ^ 32)).length).wr (F.CS_BANK_RETIRED b)
      (mine.filter fun e => decide (2 ^ 32 ≤ e.2)).length
  s1.each (List.range 2) fun c t => t.wr (F.DP_UE_RETIRED c) (t.mu.dramRows.filter (·.1 == c)).length

/-- The ZE-40 steppers 0–7 are stepper channels 0–7 with coarse inputs (R490). -/
def State.coarseSteppers (s : State) : State := s.each (List.finRange 8) fun n t => (t.wr (F.STP_CFG_SRC n) 1).stpState (Fin.ofNat 16 n)

/-- The fills are complete, the firmware is loaded, the profile is applied: READY, with the roles assigned (R29, R453, R460,
R467). -/
def execFillDone (s : State) : Result :=
  if s.dev = stFill ∧ s.fillOver = true ∧ s.boot.banksFilled = true then
    let p := s.rd F.PF_STAT_ACTIVE
    let ok := s.slotValid p
    let s1 := { s with boot := { s.boot with slotOk := ok, noProfile := !ok, stations := if ok then s.ldByte (slotBase p + 7) else 0 } }
    let s2 := if ok then
        let z := s1.ldByte (slotBase p + 6) == 1
        let t := (((s1.slotPower p).slotRecords p).flag F.DV_INFO_ZE40 z).flag F.PF_STAT_ZE40 z
        (t.ifDo z (·.coarseSteppers)).modClk fun c => { c with groups := t.on F.CK_ROLE_GROUPS }
      else
        let t := (s1.clearProf.wr F.DV_INFO_ZE40 0).wr F.PF_STAT_ZE40 0
        (t.ifDo (t.slotNames p && t.slotForm p) (·.raise 2 0x000 2)).raise 30 mrPage 2
    let s3 := { s2 with seq := { s2.seq with early := false, idleSince := s2.time } }.takeRoles.rowRegs
    let s4 := ((s3.wr (H.STATE 0x001) 0).storeRegs.devTo stReady)
    let s5 := if s4.boot.imageBad then (s4.modBoot fun b => { b with imageBad := false }).raise 28 mrPage 0 else s4
    .next (s5.ifDo ok (·.event mrPage 2))
  else .next s

/-! ### Firmware (R461–R465) -/

def fwPage (k : State → State) (agent : Agent) (s : State) : Result := .next (s.write agent mrPage 0x05C k)

/-- FW_CMD.STAGE: the bank that is not running is erased and programmed; ignored during an update or another staging (R462,
R472).  A source outside a host window declared with RD is refused. -/
def execStage (agent : Agent) (s : State) : Result :=
  fwPage (fun t =>
    if t.rd F.FW_STAT_STATUS = 1 ∨ t.boot.updating = true then t.accessBusy mrPage
    else
      let src := t.rd F.FW_SRC_HI * 2 ^ 32 + t.rd F.FW_SRC_LO
      let len := t.rd F.FW_LEN_BYTES
      match hostWindow src with
      | some (w, off) =>
        if t.winOk w off len false && decide (src % 8 = 0) && decide (len ≤ 25165824) then
          let b := 1 - t.rd F.FW_STAT_BANK
          ((t.modBoot fun q => { q with
            stagedBank := b, bankA := if b = 0 then blankImage else q.bankA, bankB := if b = 0 then q.bankB else blankImage }).wr
            F.FW_STAT_STATUS 1).fwRegs
        else t
      | none => t) agent s

/-- The staged bank has been read back and checked (R458, R462). -/
def execStageDone (image : ImageInfo) (s : State) : Result :=
  if s.rd F.FW_STAT_STATUS = 1 then
    let b := s.boot.stagedBank
    let s1 := s.modBoot fun q => { q with bankA := if b = 0 then image else q.bankA, bankB := if b = 0 then q.bankB else image }
    let st := if !image.ok then 6 else if image.svn < s1.rollback then 7 else 2
    .next (((s1.wr F.FW_STAT_STATUS st).fwRegs).ifDo (st == 2) (·.event mrPage 0))
  else .next s

/-- The staged image runs from the next reset (R463). -/
def State.tryStaged (s : State) : State := s.setBootRecord s.bootRecord.1 s.boot.stagedBank 2

def execTryBoot (agent : Agent) (s : State) : Result :=
  fwPage (fun t => if t.rd F.FW_STAT_STATUS = 2 then t.tryStaged else t) agent s

/-- The next role to move, below the one given: the highest that a berth holds, 0x0 last. -/
def State.nextUpdRole (s : State) (below : Nat) : Option Nat := (List.range below).reverse.find? fun r => (s.holder r).isSome

/-- FW_CMD.UPDATE (R464). -/
def execUpdate (agent : Agent) (s : State) : Result :=
  fwPage (fun t =>
    if t.rd F.FW_STAT_STATUS ≠ 2 then t
    else
      let run := t.imageOf (t.rd F.FW_STAT_BANK)
      let new := t.imageOf t.boot.stagedBank
      if !((List.range 12).any fun n => t.role n == 0xE) then t.wr F.FW_STAT_STATUS 8
      else if !new.liveOk || new.recordVer != run.recordVer then t.wr F.FW_STAT_STATUS 6
      else
        ((t.modBoot fun q => { q with updating := true, updMoved := [] }).wr F.FW_STAT_STATUS 3).wr F.FW_STAT_UPD_ROLE
          ((t.nextUpdRole 10).getD 0xF)) agent s

/-- May the role move now?  Roles 0x5 to 0x8 move between a page's last line and the next first line (R464). -/
def State.roleFree (s : State) (r : Nat) : Bool :=
  if r = 5 then !s.stations.any s.exposing
  else if 6 ≤ r ∧ r ≤ 8 then !([2 * (r - 6), 2 * (r - 6) + 1].any s.exposing)
  else true

/-- The update has moved every role: the staged image is on trial (R464). -/
def State.updateOver (s : State) : State :=
  let s1 := (s.modBoot fun q => { q with updating := false, updMoved := [] }).tryStaged
  let s2 := ((s1.wr F.FW_STAT_STATUS 4).wr F.FW_STAT_UPD_ROLE 0xF).wr F.FW_STAT_BANK s.boot.stagedBank
  ((s2.wr F.FW_STAT_TRIAL 1).fwRegs.logRecord 0x06 ([s.boot.stagedBank] ++ leBytes (s2.imageOf s.boot.stagedBank).version 4)).event mrPage 1

/-- A move of a live update: a spare loads the role's code and takes the role; the vacated berth becomes the spare (R464,
R465).  A move for a halted berth goes first. -/
def execUpdateRoleMoved (ok : Bool) (s : State) : Result :=
  if s.boot.updating = false ∨ s.berths.moves ≠ [] then .next s
  else
    let r := s.rd F.FW_STAT_UPD_ROLE
    if !s.roleFree r then .next s
    else
      match if ok then s.spare else none, s.holder r with
      | some n, some v =>
        let s1 := s.ifDo (r == 0) (·.setDigest (s.imageOf s.boot.stagedBank).supDigest)
        let s2 := ((s1.wr (F.BR_ROLE_ROLE v) 0xE).wr (H.STATE (brPage v)) 3).takeRole n r s1.time
        let s3 := (s2.modBoot fun q => { q with updMoved := (r, v) :: q.updMoved }).ifDo (r == 0) fun t =>
          ({ t with berths := { t.berths with supBerth := n, lastBeat := t.time } }).wr F.HM_STAT_SUP_BERTH n
        match s3.nextUpdRole r with
        | some q => .next (s3.wr F.FW_STAT_UPD_ROLE q)
        | none => .next s3.updateOver
      | _, _ => .next s.updateAbort

/-- FW_CMD.ACCEPT in READY or RUN; ignored with ACCESS_BUSY during an update (R461, R472). -/
def execAccept (agent : Agent) (s : State) : Result :=
  fwPage (fun t =>
    if t.boot.updating then t.accessBusy mrPage
    else if t.dev = stReady ∨ t.dev = stRun then
      let b := t.rd F.FW_STAT_BANK
      let t1 := t.setBootRecord b t.bootRecord.2.1 0
      ((t1.setRollback (max t1.rollback (t1.imageOf b).svn)).wr F.FW_STAT_TRIAL 0).fwRegs
    else t) agent s

/-- FW_CMD.ABORT: a live update stops (R465). -/
def execAbort (agent : Agent) (s : State) : Result := fwPage (·.updateAbort) agent s

/-! ### Profile slots and keys (R468–R470) -/

def pfCmd (k : State → State) (agent : Agent) (s : State) : Result := .next (s.write agent mrPage 0x064 k)

/-- Bytes of the upload area from PF_SRC on. -/
def State.upload (n : Nat) (s : State) : Option (List Nat) × State :=
  let o := s.rd F.PF_SRC_OFFS
  if o < 0x100000 ∨ 0x200000 < o + n then (none, s) else s.memBytes (0x03A00000 + o) n (.berth 9 false)

/-- PF_CMD.WRITE: the slot is written and checked; what cannot be read is refused (R469). -/
def execWrite (agent : Agent) (s : State) : Result :=
  pfCmd (fun t =>
    let n := t.rd F.PF_LEN_BYTES
    let p := t.rd F.PF_CMD_SLOT
    match if n ≤ 262144 then t.upload n else (none, t) with
    | (none, u) => u.wr F.PF_STAT_STATUS 4
    | (some l, u) =>
      let v := (u.stBytes (slotBase p) l).validRegs
      (v.wr F.PF_STAT_STATUS (if v.slotValid p then 2 else 3)).logRecord 0x07 [p, b2n (v.slotValid p)]) agent s

/-- PF_CMD.SELECT in READY with no job open (R6, R468); MIRROR and GROUPS stay as FILL left them (R213, R419). -/
def execSelect (agent : Agent) (s : State) : Result :=
  pfCmd (fun t =>
    let p := t.rd F.PF_CMD_SLOT
    if t.dev ≠ stReady ∨ t.tl.jobs ≠ [] then t.accessBusy mrPage
    else if t.slotValid p then
      let u := ((t.slotRecords p).wr F.DP_CFG_MIRROR (t.rd F.DP_CFG_MIRROR)).storeRegs.modBoot fun q => { q with noProfile := false, stations := t.ldByte (slotBase p + 7) }
      ((((u.wr F.PF_STAT_ACTIVE p).wr F.PF_STAT_STATUS 2).logRecord 0x07 [p, 1]).event mrPage 2)
    else if t.slotNames p && t.slotForm p then (t.wr F.PF_STAT_STATUS 4).raise 2 0x000 2
    else (t.wr F.PF_STAT_STATUS 3).raise 30 mrPage 2) agent s

/-- PF_CMD.KEY_WRITE: 16 bytes into a key slot; the upload bytes are overwritten with 0 (R470). -/
def execKeyWrite (agent : Agent) (s : State) : Result :=
  pfCmd (fun t =>
    if t.keyLocked then t.wr F.PF_STAT_STATUS 4
    else
      match t.upload 16 with
      | (none, u) => u.wr F.PF_STAT_STATUS 4
      | (some l, u) =>
        let v := u.stBytes (0x05310000 + 16 * u.rd F.PF_CMD_KEYSLOT) l
        ((v.bankPuts (0x03A00000 + v.rd F.PF_SRC_OFFS) (List.replicate 16 0)).wr F.PF_STAT_STATUS 2).event mrPage 3) agent s

/-- PF_CMD.KEY_LOCK (R470). -/
def execKeyLock (agent : Agent) (s : State) : Result :=
  pfCmd (fun t => ((t.st 0x05310220 4 1).wr F.PF_STAT_STATUS 2).fwRegs) agent s

/-- PF_CMD.KEY_ERASE: every key slot 0, KEY_LOCK cleared (R470). -/
def execKeyErase (agent : Agent) (s : State) : Result :=
  pfCmd (fun t =>
    ((((t.stBytes 0x05310000 (List.replicate 512 0)).st 0x05310220 4 0).wr F.PF_STAT_STATUS 2).fwRegs).event mrPage 3) agent s

/-! ### The alarm (R509) -/

/-- The 64-bit alarm takes effect with the write of its high word; it applies from the next tick. -/
def execTbAlarmWrite (agent : Agent) (tick : Nat) (s : State) : Result :=
  .next (s.write agent 0x005 0x04C fun t =>
    ((t.wr F.TB_ALARM_LO tick).wr F.TB_ALARM_HI (tick / 2 ^ 32)).modClk fun c => { c with alarm := tick % 2 ^ 64, alarmAt := t.time + 1 })

def execArm (agent : Agent) (on : Bool) (s : State) : Result :=
  .next (s.write agent 0x005 0x050 fun t =>
    (t.flag F.TB_ALARM_CTL_ARM on).ifDo (on && !t.on F.TB_ALARM_CTL_ARM) (·.modClk fun c => { c with alarmAt := t.time + 1 }))

/-- The first tick at or beyond the alarm: event ALARM, and ARM is cleared. -/
def execAlarm (s : State) : Result :=
  .next (if s.on F.TB_ALARM_CTL_ARM ∧ s.clocks.alarm ≤ s.time ∧ s.clocks.alarmAt ≤ s.time then
      (s.event 0x005 0).wr F.TB_ALARM_CTL_ARM 0 else s)

end Sys2Proof.Machine
end

