-- ==== Sys2Proof/Machine/Dma.lean ====
section
/-! DEFINITION. The commands of the DMA engine (09). -/
namespace Sys2Proof.Machine

/-- A channel page that is isolated takes no new work (R436). -/
def State.dcLive (s : State) (n : Fin 32) : Bool := !s.on (H.ISOLATED (dcPage n))

/-- DC_DOORBELL.RING: DB_PEND, and a fetch from IDLE (R238). -/
def execDoorbell (agent : Agent) (ch : Fin 32) (s : State) : Result :=
  .next (s.write agent (dcPage ch) 0x058 fun t =>
    let u := t.wr (F.DC_STAT_DB_PEND ch.val) 1
    if t.dcState ch = dcIdle ∧ t.dcLive ch then u.dcStart ch else u)

/-! ### Fetch -/

/-- Is the request line of a channel reserved, or the legacy line outside its personality (Table 9.7)? -/
def State.reqOk (s : State) (n : Fin 32) : Bool :=
  let r := s.rd (F.DC_CFG_REQ n.val)
  r == 0 || (2 ≤ r && r ≤ 9) || (r == 1 && s.ze40)

/-- Which sides of a channel are memory: source, destination (R241). -/
def State.memSides (s : State) (n : Fin 32) : Bool × Bool :=
  if s.rd (F.DC_CFG_REQ n.val) = 0 then (true, true)
  else if s.on (F.DC_CFG_PSIDE n.val) then (true, false) else (false, true)

/-- Does a request line have its data port on the side PSIDE names (Table 9.7)? -/
def State.sideOk (s : State) (n : Fin 32) : Bool :=
  let r := s.rd (F.DC_CFG_REQ n.val)
  if 2 ≤ r ∧ r ≤ 7 then !s.on (F.DC_CFG_PSIDE n.val) else if r = 8 ∨ r = 9 then s.on (F.DC_CFG_PSIDE n.val) else true

/-- The first check of Table 9.1 that a descriptor fails: status and offending address. -/
def State.dcCheck (s : State) (n : Fin 32) (c : Chan) : Option (Nat × Nat) :=
  let m := s.memSides n
  let sides := (if m.1 then [(c.src, false)] else []) ++ (if m.2 then [(c.dst, true)] else [])
  let form := c.ctrl / 2 ^ 16 == 0 && c.len / 2 ^ 24 == 0 && c.src / 2 ^ 48 == 0 && c.dst / 2 ^ 48 == 0 &&
    c.next / 2 ^ 48 == 0 && decide (8 ≤ c.len) && s.reqOk n && s.sideOk n &&
    (m.1 || c.src == 0) && (m.2 || c.dst == 0)
  if !form then some (dsDesc, s.dcCur n)
  else
    match sides.find? fun x => x.1 % 8 != 0 || c.len % 8 != 0 with
    | some x => some (dsAlign, x.1)
    | none =>
      if m.1 && m.2 && decide (c.src < c.dst + c.len) && decide (c.dst < c.src + c.len) then some (dsDesc, c.src)
      else
        match sides.find? fun x => match hostWindow x.1 with
            | some (_, o) => decide (0x80000000000 < o + c.len)
            | none => !s.dmaMemory x.1 c.len with
        | some x => some (dsAccess, x.1)
        | none =>
          match sides.find? fun x => match hostWindow x.1 with
              | some (w, o) => !s.winOk w o c.len x.2
              | none => false with
          | some x => some (dsWindow, x.1)
          | none => none

/-- The read of the descriptor at DC_CUR: its 32 bytes, or the status of a fetch that fails; a pointer that is no multiple of
32 fails first.  A window revoked during the read lets it complete (Tables 9.1 and 9.8). -/
def State.dcRead (s : State) (n : Fin 32) (host : List Nat) (hostOk : Bool) : (Nat ⊕ List Nat) × State :=
  let a := s.dcCur n
  if a % 32 ≠ 0 then (.inl dsAlign, s)
  else
  match hostWindow a with
  | some _ =>
    if !(s.chan n).readOk then (.inl dsWindow, s)
    else if hostOk then (.inr ((List.range 32).map fun i => host.getD i 0), s) else (.inl dsHost, s)
  | none =>
    if s.dmaMemory a 32 then
      match s.memBytes a 32 (.dma n) with
      | (some l, t) => (.inr l, t)
      | (none, t) => (.inl dsUncorr, t)
    else (.inl dsAccess, s)

/-- A descriptor that has passed its checks starts, or pauses before its first byte (Table 9.5). -/
def State.dcActivate (n : Fin 32) (s : State) : State :=
  let s1 := s.wr (F.DC_PROG_BYTES n.val) 0
  if (s.chan n).aborting then (s1.dcAborted n).hwReact
  else if (s.chan n).fetching then
    ((s1.modChan n fun c => { c with fetching := false, toFetch := false }).dcTo n dcPaused).event (dcPage n) 2
  else s1.dcTo n dcActive

/-- DESCRIPTOR_FETCH: the read of the descriptor returns (R230, R233, R235). -/
def execDescriptorFetch (ch : Fin 32) (host : List Nat) (hostOk : Bool) (s : State) : Result :=
  if (s.dcState ch = dcFetch ∨ (s.dcState ch = dcPausing ∧ (s.chan ch).fetching = true)) ∧ s.dcLive ch ∧
      (!s.quay.d3hot || (hostWindow (s.dcCur ch)).isNone) then
    match s.dcRead ch host hostOk with
    | (.inl status, t) => .next (t.dcFetchError ch status).hwReact
    | (.inr l, t) =>
      let w := fun (i n : Nat) => leNat ((l.drop i).take n)
      let c := { t.chan ch with ctrl := w 0 4, len := w 4 4, src := w 8 8, dst := w 16 8, next := w 24 8 }
      if bit c.ctrl 0 then
        let t1 := t.modChan ch fun _ => { c with held := true }
        match t1.dcCheck ch c with
        | some (status, a) => .next (t1.dcError ch status 0 a).hwReact
        | none => .next (t1.dcActivate ch)
      else if t.on (F.DC_STAT_DB_PEND ch.val) then
        .next (((t.modChan ch fun c => { c with readOk := t.dcMayRead ch }).wr (F.DC_STAT_DB_PEND ch.val) 0).sat (F.DC_CNT_B_REFETCH ch.val))
      else if c.aborting then .next (t.dcHaltBare ch).hwReact
      else if c.fetching then
        .next (((t.modChan ch fun c => { c with fetching := false, toIdle := true }).dcTo ch dcPaused).event (dcPage ch) 2)
      else .next ((t.dcTo ch dcIdle).event (dcPage ch) 1)
  else .next s

/-! ### Bursts -/

/-- Is the channel's request asserted (R240)?  Converter FIFOs are the machine's own (R377); the other lines come with the
command. -/
def State.dcRequest (s : State) (n : Fin 32) (requests : Nat) : Bool :=
  let r := s.rd (F.DC_CFG_REQ n.val)
  if r = 0 then true
  else if 2 ≤ r ∧ r ≤ 5 then decide (max 1 (s.rd (F.ADC_FIFO_THRESH (r - 2))) ≤ s.rd (F.ADC_FIFO_LEVEL (r - 2)))
  else bit requests n.val

/-- May a channel be granted a burst (R240, R252)? -/
def State.dcReady (s : State) (n : Fin 32) (requests : Nat) : Bool :=
  let c := s.chan n
  s.dcState n == dcActive && c.grant.isNone && s.dcLive n && !c.revoked &&
  s.dcRequest n requests &&
  (match c.grantAt with | some t => decide (t + s.rd (F.DC_PACE_GAP n.val) ≤ s.time) | none => true) &&
  (!s.quay.d3hot || ((hostWindow c.src).isNone && (hostWindow c.dst).isNone))

/-- The channel the arbiter grants: the highest PRIO that is ready, equal ones in round robin after the last (R228). -/
def State.dcPick (s : State) (requests : Nat) : Option (Fin 32) :=
  let ready := ((List.range 32).map fun i => Fin.ofNat 32 (s.dma.last + 1 + i)).filter fun n => s.dcReady n requests
  let top := ready.foldl (fun m n => max m (s.rd (F.DC_CFG_PRIO n.val))) 0
  ready.find? fun n => s.rd (F.DC_CFG_PRIO n.val) == top

/-- One burst to the channel the arbiter picks, of min(BURST + 1 words, remainder) (R228, R240). -/
def execDmaBurstGrant (requests : Nat) (s : State) : Result :=
  match s.dcPick requests with
  | none => .next s
  | some n =>
    let c := s.chan n
    let left := c.len - s.rd (F.DC_PROG_BYTES n.val)
    let b := min (8 * (s.rd (F.DC_CFG_BURST n.val) + 1)) left
    let s1 := s.modChan n fun c => { c with grant := some b, grantAt := some s.time, partner := [], dackAt := s.time }
    .next { s1 with dma := { s1.dma with last := n.val } }

/-- How the words of a burst came out: bytes moved, and the status and address of an error. -/
structure BurstEnd where
  moved : Nat
  error : Option (Nat × Nat)
deriving DecidableEq, Repr

/-- Move the words of a burst, from byte `i` of it on (R202, R204, R221). -/
def State.burst (n : Fin 32) (c : Chan) (base : Nat) (data : List Nat) (sides : Bool × Bool)
    (flight : List (Nat × Nat)) (stop : Nat) : Nat → Nat → List Nat → State → List Nat × BurstEnd × State
  | 0, i, acc, s => (acc, ⟨8 * i, none⟩, s)
  | k + 1, i, acc, s =>
    let sa := c.src + base + 8 * i
    let da := c.dst + base + 8 * i
    if stop ≤ 8 * i then (acc, ⟨8 * i, some (dsHost, if (hostWindow c.src).isSome then sa else da)⟩, s)
    else
      let (v, s1) : (Option Nat ⊕ Unit) × State :=
        if sides.1 && (hostWindow c.src).isNone then
          if s.dmaMemory sa 8 then (let r := s.memWord sa (.dma n); (.inl r.1, r.2)) else (.inr (), s)
        else (.inl (some (leNat ((data.drop (8 * i)).take 8))), s)
      match v with
      | .inr _ => (acc, ⟨8 * i, some (dsAccess, sa)⟩, s1)
      | .inl none => (acc, ⟨8 * i, some (dsUncorr, sa)⟩, s1)
      | .inl (some v) =>
        let (r, s2) := s1.fabric da (((flight.find? (·.1 == i)).map (·.2)).getD 0) (.dma n)
        match r with
        | none => (acc, ⟨8 * i, some (dsWriteUe, da)⟩, s2)
        | some r =>
          let v := v ^^^ dataBits r
          if sides.2 && (hostWindow c.dst).isNone then
            if s2.dmaMemory da 8 then State.burst n c base data sides flight stop k (i + 1) acc (s2.memPut da v)
            else (acc, ⟨8 * i, some (dsAccess, da)⟩, s2)
          else State.burst n c base data sides flight stop k (i + 1) (acc ++ leBytes v 8) s2

/-- The bytes of a finished burst that leave the device. -/
def State.burstOut (n : Fin 32) (base : Nat) (out : List Nat) (s : State) : State :=
  match hostWindow ((s.chan n).dst + base) with
  | some (w, o) => s.ifDo (!out.isEmpty) (·.emit (.hostWrite (s.winAddr w o) out))
  | none => s

/-- `n` words from a converter's FIFO (R377); past its end the manual gives no word (log 1). -/
def State.fifoPop (c : Fin 4) (n : Nat) (s : State) : List Nat × State :=
  let have_ := (s.ct.adc[c]).fifo.take n
  let miss := n - have_.length
  let data := (have_ ++ (List.range miss).map fun i => Config.freeValue (s.free + i)).flatMap fun w => leBytes w 8
  let rest := (s.ct.adc[c]).fifo.drop n
  (data, { s with free := s.free + miss, ct := { s.ct with adc := s.ct.adc.set c { s.ct.adc[c] with fifo := rest } } }.wr
    (F.ADC_FIFO_LEVEL c) rest.length)

/-- The bytes a burst takes from its peripheral or from the host. -/
def State.burstData (n : Fin 32) (b : Nat) (data : List Nat) (s : State) : List Nat × State :=
  let r := s.rd (F.DC_CFG_REQ n.val)
  if r = 1 then ((s.chan n).partner, s)
  else if 2 ≤ r ∧ r ≤ 5 then s.fifoPop (Fin.ofNat 4 (r - 2)) (b / 8)
  else (data, s)

/-- A granted burst completes (R232, R236, R240, R244); one of request line 1 once every word has had its DACK (R242). -/
def execDmaBurstDone (ch : Fin 32) (data : List Nat) (hostBad : Option Nat) (flight : List (Nat × Nat)) (s : State) : Result :=
  let c := s.chan ch
  match c.grant with
  | none => .next s
  | some b =>
    if (s.dcState ch = dcActive ∨ s.dcState ch = dcPausing) ∧ (s.rd (F.DC_CFG_REQ ch.val) ≠ 1 ∨ b ≤ c.partner.length) then
      let base := s.rd (F.DC_PROG_BYTES ch.val)
      let (data, s0) := s.burstData ch b data
      let (out, e, s1) := s0.burst ch c base data (s.memSides ch) flight (hostBad.getD b) (b / 8) 0 []
      let s2 := ((s1.burstOut ch base out).wr (F.DC_PROG_BYTES ch.val) (base + e.moved)).modChan ch fun c =>
        { c with grant := none, partner := [] }
      match e.error with
      | some (status, a) => .next (s2.dcError ch status (base + e.moved) a).hwReact
      | none =>
        if c.revoked then .next (s2.dcError ch dsWindow (base + b) (s2.dcErrAddr ch)).hwReact
        else if base + b = c.len then .next (s2.dcDone ch).hwReact
        else .next s2
    else .next s

/-! ### Commands of the owner -/

/-- DC_CMD.PAUSE (R235, R236). -/
def execPause (agent : Agent) (ch : Fin 32) (s : State) : Result :=
  .next (s.write agent (dcPage ch) 0x05C fun t =>
    let st := t.dcState ch
    if st = dcActive then t.dcTo ch dcPausing
    else if st = dcFetch then (t.modChan ch fun c => { c with fetching := true }).dcTo ch dcPausing
    else if st = dcIdle then ((t.modChan ch fun c => { c with toIdle := true }).dcTo ch dcPaused).event (dcPage ch) 2
    else t)

/-- No granted burst is left: PAUSED, or HALTED after an abort (Table 9.5). -/
def execPauseDrained (ch : Fin 32) (s : State) : Result :=
  let c := s.chan ch
  if s.dcState ch = dcPausing ∧ c.grant = none ∧ c.fetching = false then
    if c.aborting then .next (s.dcAborted ch).hwReact
    else .next ((s.dcTo ch dcPaused).event (dcPage ch) 2)
  else .next s

/-- DC_CMD.RESUME: ACTIVE at DC_PROG, FETCH after HOLD, IDLE after a pause in IDLE (R235, R236). -/
def execResume (agent : Agent) (ch : Fin 32) (s : State) : Result :=
  .next (s.write agent (dcPage ch) 0x05C fun t =>
    let c := t.chan ch
    if t.dcState ch = dcPaused then
      let t1 := (t.modChan ch fun c => { c with toFetch := false, toIdle := false }).wr (F.DC_STAT_HOLD_STOP ch.val) 0
      if c.toIdle then (if t1.on (F.DC_STAT_DB_PEND ch.val) then t1.dcStart ch else t1.dcTo ch dcIdle)
      else if c.toFetch then t1.dcStart ch
      else if c.revoked then (t1.dcError ch dsWindow (t1.rd (F.DC_PROG_BYTES ch.val)) (t1.dcErrAddr ch)).hwReact
      else t1.dcTo ch dcActive
    else t)

/-- DC_CMD.CLEAR: HALTED goes to IDLE, and on to FETCH with a doorbell pending (Tables 9.5 and 9.8). -/
def execClear (agent : Agent) (ch : Fin 32) (s : State) : Result :=
  .next (s.write agent (dcPage ch) 0x05C fun t =>
    if t.dcState ch = dcHalted then
      let t1 := if t.on (F.DC_STAT_WB_FAIL ch.val) then t.wr (F.DC_STAT_WB_FAIL ch.val) 0
        else if (t.chan ch).stay then t
        else t.setCur ch (t.dcNext ch)
      if t1.on (F.DC_STAT_DB_PEND ch.val) && t1.dcLive ch then t1.dcStart ch else t1.dcTo ch dcIdle
    else t)

/-- PG_CTRL.ABORT of a channel page. -/
def execDmaAbort (agent : Agent) (ch : Fin 32) (s : State) : Result :=
  .next (s.write agent (dcPage ch) 0x004 fun t => (t.dmaAbort ch).hwReact)

/-- DC_HEAD: sets DC_CUR in IDLE and HALTED, else ACCESS_BUSY (R16, R237). -/
def execDcHeadWrite (agent : Agent) (ch : Fin 32) (hi : Bool) (value : Nat) (s : State) : Result :=
  .next (s.write agent (dcPage ch) (if hi then 0x04C else 0x048) fun t =>
    if t.dcState ch = dcIdle ∨ t.dcState ch = dcHalted then
      let u := if hi then t.wr (F.DC_HEAD_HI_PTR ch.val) value else t.wr (F.DC_HEAD_LO_PTR ch.val) (value / 32)
      let v := u.setCur ch (u.rd (F.DC_HEAD_HI_PTR ch.val) * 2 ^ 32 + u.rd (F.DC_HEAD_LO_PTR ch.val) * 32)
      v.ifDo (t.dcState ch == dcHalted) fun w => (w.wr (F.DC_STAT_WB_FAIL ch.val) 0).modChan ch fun c => { c with stay := true }
    else t.accessBusy (dcPage ch))

/-- A write of one word of DG_WIN[n] (R243, R244). -/
def execWindowRevoke (agent : Agent) (n : Fin 16) (word : Fin 4) (value : Nat) (s : State) : Result :=
  .next (s.write agent 0x060 (0x080 + 16 * n.val + 4 * word.val) fun t => (t.winWrite n word value).hwReact)

end Sys2Proof.Machine
end

