-- ==== Sys2Proof/Machine/HeadLink.lean ====
section
/-! DEFINITION. The commands of the head links (06). -/
namespace Sys2Proof.Machine

/-! ### Lane maps (R142, R152) -/

/-- Healthy physical lanes, rising. -/
def lanesOf (healthy : Nat) : List Nat := (List.range 9).filter fun n => bit healthy n

/-- The map that R152 chooses. -/
def State.chooseMap (s : State) (k : Nat) : Option LaneMap :=
  let hs := lanesOf (s.rd (F.HL_STAT_HEALTHY k))
  let top := hs.getLast?.getD 0
  let nlA := min 8 (hs.length - 1)
  let nlB := min 8 hs.length
  if s.linkFits k nlA false then some ⟨(hs.filter (· != top)).take nlA, top, false⟩
  else if s.on (F.HL_CFG_ALLOW_SLOT k) && s.linkFits k nlB true then
    let l := hs.take nlB
    some ⟨l, l.getLast?.getD 0, true⟩
  else none

/-- HL_MAP and the argument of LANE_MAP: 0xF for an unused logical lane. -/
def mapWord (lanes : List Nat) : Nat :=
  (List.range 8).foldl (fun v n => v + lanes.getD n 15 * 16 ^ n) 0

/-- NOT_READY is entered (Table 6.11). -/
def State.notReady (k : Fin 6) (s : State) : State :=
  if s.hlState k = hlNotReady then s else (s.wr (H.STATE (hlPage k)) hlNotReady).event (hlPage k) 7

/-- A new map is chosen and sent, with TURN where the status role moves (R152, R156); with none the link is NOT_READY. -/
def State.remap (k : Fin 6) (s : State) : State :=
  match s.chooseMap k with
  | none => s.notReady k
  | some m =>
    let moves := m.slane != s.rd (F.HL_STAT_SLANE k.val) || m.slot != s.on (F.HL_STAT_SLOT_MODE k.val)
    let s1 := s.ifDo (moves && s.hlState k != hlTraining) (·.headSend k hcTurn (m.slane + 256 * (if m.slot then 2 else 1)))
    (s1.headSend k hcLaneMap (mapWord m.lanes)).modLink k fun q => { q with map := some m }

/-- The map takes effect with the ACK: UP, or NOT_READY where R151 fails; at the end of training QUENCH goes first if it is in
force, and isolated emitters are isolated again (Table 6.6, R162). -/
def State.mapApply (k : Fin 6) (m : LaneMap) (s : State) : State :=
  let training := s.hlState k == hlTraining
  let s1 := (s.wr (F.HL_MAP_PHYS k.val) (mapWord m.lanes)).wr (F.HL_STAT_NL k.val) m.lanes.length
  let s2 := ((s1.wr (F.HL_STAT_SLANE k.val) m.slane).flag (F.HL_STAT_SLOT_MODE k.val) m.slot).modLink k fun q => { q with map := none }
  let s3 := s2.event (hlPage k) 2
  let s4 := s3.ifDo (training && s3.on (F.HL_STAT_QUENCH k.val)) fun t =>
    ((t.emit (.headQuench k)).event (hlPage k) 5).modLink k fun q => { q with quenchAt := t.time }
  let s5 := (s4.wr (H.STATE (hlPage k)) hlUp).ifDo (s4.hlState k != hlUp) (·.event (hlPage k) 0)
  let s6 := s5.ifDo training fun t => t.each (t.ilace k).isolated fun i u => u.headSend k hcIsolate i
  (s6.closeRecovery (40 + 2 * k.val)).linkCheck k

/-! ### Training (R153, R154) -/

/-- TURN(L, status) goes out in four frames (Table 6.6). -/
def State.sendTurn (k : Fin 6) (s : State) : State :=
  let tag := ((s.link k).tag + 1) % 256
  let arg := (s.link k).lane + 256
  let s1 := s.modLink k fun q => { q with tag := tag, turnAt := some s.time, seen := false }
  s1.each [(), (), (), ()] fun _ t => t.emit (.headCmd k hcTurn tag arg)

/-- The next step of Table 6.6 that is due: training starts at a link that is DOWN; TURN 200 µs into the try; LANE_MAP 200 µs
after TURN, once the status lane has been heard. -/
def execLinkTraining (station : Fin 6) (s : State) : Result :=
  let k := station
  let q := s.link k
  if !s.hasStation k || s.on (H.ISOLATED (hlPage k)) then .next s
  else if s.hlState k = hlDown then .next (s.train k)
  else if s.hlState k = hlTraining then
    match q.turnAt with
    | none => .next (if q.laneAt + 20000 ≤ s.time then s.sendTurn k else s)
    | some t => .next (if q.seen && q.map.isNone && decide (t + 20000 ≤ s.time) then s.remap k else s)
  else .next s

/-- A write of HL_CFG; RETRAIN trains at once (R153). -/
def execRetrain (agent : Agent) (station : Fin 6) (value : Nat) (s : State) : Result :=
  .next (s.write agent (hlPage station) 0x040 fun t =>
    (t.fieldsWrite (hlPage station) 0x040 value).ifDo (bit value 8) (·.train station))

/-- No block lock on lane L by 600 µs: on from 200 µs with the next lower lane (R154). -/
def execStatusLaneTimeout (station : Fin 6) (s : State) : Result :=
  let k := station
  let q := s.link k
  match q.turnAt with
  | some t =>
    if s.hlState k = hlTraining ∧ q.seen = false ∧ t + 40000 ≤ s.time ∧ 0 < q.lane then
      .next ((s.modLink k fun q => { q with lane := goodLane q.lasting (q.lane - 1), laneAt := s.time }).sendTurn k)
    else .next s
  | none => .next s

/-- An attempt has not reached UP within 5 ms; after three the link is FAILED (R154). -/
def execTrainingTimeout (station : Fin 6) (s : State) : Result :=
  let k := station
  if s.hlState k = hlTraining ∧ (s.link k).began + 500000 ≤ s.time then
    let s1 := s.modLink k fun q => { q with tries := q.tries + 1 }
    if 3 ≤ (s1.link k).tries then
      .next (((s1.wr (H.STATE (hlPage k)) hlFailed).modLink k fun q => { q with turnAt := none, cmds := [], map := none }).raise
        (41 + 2 * k.val) (hlPage k) 1)
    else .next (s1.trainStart k)
  else .next s

/-! ### Lane failure (R156) -/

/-- A physical lane fails. -/
def State.laneFail (k : Fin 6) (n : Nat) (s : State) : State :=
  let h := s.rd (F.HL_STAT_HEALTHY k.val)
  if bit h n && (s.hlState k == hlUp || s.hlState k == hlNotReady) then
    let s1 := ((s.wr (F.HL_STAT_HEALTHY k.val) (h - 2 ^ n)).sat (F.HL_CNT_B_LANE_FAIL k.val)).modLink k fun q =>
      { q with failed := q.failed ||| 2 ^ n }
    let s2 := s1.raiseWith (40 + 2 * k.val) (hlPage k) 4 0 (some (.prbs, 16 * k.val + n))
    if s2.on (F.HL_CFG_AUTO_SPARE k.val) then (s2.openRecovery (40 + 2 * k.val) (hlPage k)).remap k else s2.notReady k
  else s

/-- The 9640 loses block lock on the lane that carries status. -/
def execBlockLockLost (station : Fin 6) (s : State) : Result :=
  .next (s.laneFail station (s.rd (F.HL_STAT_SLANE station.val)))

/-! ### What the head sends -/

/-- A valid STATUS block: LOCK, READY, OWN_CUT, the last scan emitted, and the errors counted on the lane since the last one
(R143, R154, R156, R160). -/
def execStatus (station : Fin 6) (flags lock scan rxerr : Nat) (s : State) : Result :=
  let k := station
  let st := s.hlState k
  if !s.hasStation k || st == hlDown || st == hlFailed || (st == hlTraining && (s.link k).turnAt.isNone) then .next s
  else
    let lane := if st = hlTraining then (s.link k).lane else s.rd (F.HL_STAT_SLANE k.val)
    let s1 := (s.modLink k fun q => { q with heard := s.time, seen := true }).satAdd (F.HL_LANE_RXERR k.val lane) rxerr
    let s2 := ((s1.wr (F.HL_HSCAN_EMITTED k.val) scan).flag (F.HL_STAT_HEAD_READY k.val) (bit flags 0)).flag
      (F.HL_STAT_OWN_CUT k.val) (bit flags 2)
    let s3 := if st = hlTraining then s2.wr (F.HL_STAT_HEALTHY k.val) ((lock % 512 ||| 2 ^ lane) &&& (511 - (s2.link k).lasting % 512))
      else
        let carries := fun n => bit (s2.rd (F.HL_STAT_HEALTHY k.val)) n && (n != lane || s2.on (F.HL_STAT_SLOT_MODE k.val))
        let runs := Vector.ofFn fun (n : Fin 9) => (if (carries n && !bit lock n) = true then (s2.link k).unlocked[n] + 1 else 0)
        let t := s2.modLink k fun q => { q with unlocked := runs }
        t.each ((List.finRange 9).filter fun n => 4 ≤ (t.link k).unlocked[n]) fun n u => u.laneFail k n
    .next (if bit flags 2 then s3.headCutNow k else s3.quenchTry k)

/-- A REPLY ACK ends the wait for the command of its tag (R144). -/
def execAck (station : Fin 6) (tag : Nat) (s : State) : Result :=
  let k := station
  match (s.link k).cmds.find? (·.tag == tag % 256) with
  | none => .next s
  | some c =>
    let s1 := s.modLink k fun q => { q with cmds := q.cmds.filter (·.tag != tag % 256) }
    if c.cmd = hcLaneMap then
      match (s1.link k).map with
      | some m => .next (if mapWord m.lanes = c.arg then s1.mapApply k m else s1)
      | none => .next s1
    else if c.cmd = hcQuenchOff then .next (s1.event (hlPage k) 6)
    else .next s1

/-- The oldest command has no ACK after 50 µs, or in state B after two reply slots: sent again under its tag, at most twice;
the third failure trains the link (R144). -/
def execCmdAckTimeout (station : Fin 6) (s : State) : Result :=
  let k := station
  match (s.link k).cmds with
  | [] => .next s
  | c :: r =>
    let late := if s.on (F.HL_STAT_SLOT_MODE k.val) then decide (2 ≤ c.slots) else decide (c.sent + 5000 ≤ s.time)
    if late then
      if c.tries < 2 then
        .next ((s.modLink k fun q => { q with cmds := { c with tries := c.tries + 1, sent := s.time, slots := 0 } :: r }).emit
          (.headCmd k c.cmd c.tag c.arg))
      else .next ((s.raise (40 + 2 * k.val) (hlPage k) 6).train k)
    else .next s

/-- The exposure a scan number belongs to (R150). -/
def State.spanOf (s : State) (k : Fin 6) (n : Nat) : Option Span :=
  (s.link k).spans.find? fun x =>
    let last := x.last.getD (s.rd (F.BT_SCAN_COUNT k.val))
    decide ((n + 2 ^ 24 - x.first % 2 ^ 24) % 2 ^ 24 ≤ (last + 2 ^ 32 - x.first) % 2 ^ 32)

/-- REPLY SCAN_ERR: the page of the scan is LOST, the lanes are counted, and a lane named THRESH times within WIN scans fails
(R150, R156). -/
def execScanErr (station : Fin 6) (scanNo lanes : Nat) (s : State) : Result :=
  let k := station
  let n := scanNo % 2 ^ 24
  let named := (List.finRange 9).filter fun (l : Fin 9) => bit lanes l
  let s1 := match s.spanOf k n with
    | some x =>
      let i := Fin.ofNat 16 x.slot
      match s.tl.slots[i] with
      | some sl => if sl.page = x.page then s.pageLost i lcLink else s
      | none => s
    | none => s
  let s2 := s1.sat (F.HL_CNT_A_SCAN_ERR k.val)
  let s3 := s2.each named fun l t => t.sat (F.HL_LANE_CRC k.val l)
  let win := s3.rd (F.HL_SPARE_WIN k.val)
  let s4 := s3.modLink k fun q => { q with
    errors := (named.map fun l => (l.val, n)) ++ q.errors.filter fun e => (n + 2 ^ 24 - e.2) % 2 ^ 24 < win }
  let s5 := (s4.event (hlPage k) 3).raise (40 + 2 * k.val) (hlPage k) 3
  let noisy := named.filter fun l => max 1 (s5.rd (F.HL_SPARE_THRESH k.val)) ≤ ((s5.link k).errors.filter (·.1 == l.val)).length
  .next (s5.each noisy fun l t => (t.modLink k fun q => { q with errors := q.errors.filter (·.1 != l.val) }).laneFail k l)

/-- No valid STATUS within STAT_TO: training (R153). -/
def execStatusTimeout (station : Fin 6) (s : State) : Result :=
  let k := station
  if (s.hlState k = hlUp ∨ s.hlState k = hlNotReady) ∧ (s.link k).heard + 1000 * s.rd (F.HL_TIMING_STAT_TO k.val) ≤ s.time then
    .next (s.train k)
  else .next s

/-! ### What the 9640 sends on its own -/

/-- QUENCH is repeated every 16 frames while it is in force (R159). -/
def execQuenchRepeat (station : Fin 6) (s : State) : Result :=
  let k := station
  if s.on (F.HL_STAT_QUENCH k.val) && decide ((s.link k).quenchAt + 22 ≤ s.time) then
    .next ((s.modLink k fun q => { q with quenchAt := s.time }).emit (.headQuench k))
  else .next s

/-- ALIGN blocks every 1,024 frames in UP, and every 16 in training from 100 µs on (R143, Table 6.6).  What the frame count
counts from is left open: a free value (log 1). -/
def execAlignSend (station : Fin 6) (s : State) : Result :=
  let k := station
  let q := s.link k
  let due := if s.hlState k = hlTraining then decide (q.began + 10000 ≤ s.time ∧ q.alignAt + 22 ≤ s.time)
    else decide (s.hlState k = hlUp ∧ q.alignAt + 1408 ≤ s.time)
  if due then .next (((s.modLink k fun q => { q with alignAt := s.time }).emit (.headAlign k (s.freeVal 65536))).freeNext)
  else .next s

/-- State B: a reply slot after a packet, and every 100 µs at an idle station (R155). -/
def execReplySlot (station : Fin 6) (s : State) : Result :=
  let k := station
  let q := s.link k
  let up := s.hlState k = hlUp ∨ s.hlState k = hlNotReady
  if up ∧ s.on (F.HL_STAT_SLOT_MODE k.val) = true ∧ (s.feedOn k = true ∨ q.slotAt + 10000 ≤ s.time) then
    .next ((s.modLink k fun q => { q with
      slotAt := s.time, cmds := q.cmds.map fun c => { c with slots := c.slots + 1 } }).emit (.headSlot k))
  else .next s

/-! ### Head memory (R163–R165) -/

/-- A little-endian field of the bytes read. -/
def fieldAt (m : List Nat) (a n : Nat) : Nat := leNat ((m.drop a).take n)

/-- R163: is the head's memory unusable? -/
def headBad (m : List Nat) : Bool :=
  fieldAt m 0x0000 2 != 0x4D48 || fieldAt m 0x0002 1 != 0x01 ||
  fieldAt m 0x003C 4 != crc32c (m.take 0x3C) || fieldAt m 0x0300 4 != crc32c ((m.drop 0x100).take 0x200) ||
  !bit (fieldAt m 0x001A 1) 0

/-- R163: does the head differ from the active profile? -/
def State.headDiffers (s : State) (k : Nat) (m : List Nat) : Bool :=
  let p := Fin.ofNat 3 (s.pllOf k)
  fieldAt m 0x0012 1 != s.rd (F.IL_GEOM_NEMIT k) || fieldAt m 0x0013 1 != s.rd (F.IL_GEOM_A k) ||
  fieldAt m 0x0014 1 != s.ilB k || fieldAt m 0x0015 1 != s.rd (F.BT_STROBE_HEAD_LAT k) ||
  fieldAt m 0x0018 2 * s.clocks.setDiv[p] * 2 ^ 24 < 25 * (s.clocks.setN[p] * 2 ^ 24 + s.clocks.setFrac[p])

/-- The cooler of two thresholds: `hot` says that a higher code is hotter. -/
def coolerOf (hot : Bool) (a b : Nat) : Nat := if hot then min a b else max a b

/-- A head exchange: results, IL_DEAD and isolations belong to the old head; a test is abandoned and due again; the group is
re-planned and the link trained (R99, R153, R164, Table 4.7). -/
def State.headChanged (k : Fin 6) (s : State) : State :=
  let s1 := s.each (List.range 64) fun i t =>
    (((t.wr (F.IL_RES_RDYN k.val i) 0).wr (F.IL_RES_CLASS k.val i) 0).wr (F.IL_RES_DEGR k.val i) 0).wr (F.IL_RES_TESTS k.val i) 0
  let s2 := ((s1.wr (F.IL_DEAD_LO_MASK k.val) 0).wr (F.IL_DEAD_HI_MASK k.val) 0).modIlace k fun q => { q with isolated := [] }
  let testing := s2.on (F.IL_TEST_STAT_RUNNING k.val)
  let s3 := s2.ifDo testing fun t => ((t.wr (F.IL_TEST_STAT_RUNNING k.val) 0).wr (F.IL_TEST_STAT_PENDING k.val) 1).ifDo
    (t.rd (H.STATE (ilPage k)) == ilTesting) (·.wr (H.STATE (ilPage k)) ilIdle)
  ((s3.modLink k fun q => { q with lasting := 0 }).event (hlPage k) 4).replanReq k.val 3

/-- An accepted head (R164). -/
def State.headAccept (k : Fin 6) (m : List Nat) (s : State) : State :=
  let serial := fieldAt m 0x0008 8
  let changed := match (s.link k).serial with | some x => x != serial | none => false
  let s1 := s.ifDo changed (·.headChanged k)
  let s2 := ((s1.wr (F.HL_SN_LO k.val) serial).wr (F.HL_SN_HI k.val) (serial / 2 ^ 32)).wr (F.HL_STAT_HEAD_OK k.val) 1
  let s3 := s2.each (List.range 64) fun i t => t.wr (F.IL_RES_RNOM k.val i) (fieldAt m (0x100 + 8 * i) 2)
  let hot := !s3.on (F.IL_THERM2_POL k.val)
  let s4 := ((s3.wr (F.IL_THERM_WARN k.val) (coolerOf hot (fieldAt m 0x001C 2 % 1024) (s3.rd (F.IL_THERM_WARN k.val)))).wr
    (F.IL_THERM_CUT k.val) (coolerOf hot (fieldAt m 0x001E 2 % 1024) (s3.rd (F.IL_THERM_CUT k.val)))).wr
    (F.IL_THERM2_HYST k.val) (max (fieldAt m 0x0020 1) (s3.rd (F.IL_THERM2_HYST k.val)))
  let isoOk := fieldAt m 0x040C 4 == crc32c ((m.drop 0x400).take 12)
  let iso := fieldAt m 0x0400 8
  let s5 := (s4.modLink k fun q => { q with serial := some serial, writes := if isoOk then fieldAt m 0x0408 4 else q.writes }).ifDo isoOk
    fun t =>
      let u := (t.wr (F.IL_DEAD_LO_MASK k.val) (t.rd (F.IL_DEAD_LO_MASK k.val) ||| iso % 2 ^ 32)).wr (F.IL_DEAD_HI_MASK k.val)
        (t.rd (F.IL_DEAD_HI_MASK k.val) ||| iso / 2 ^ 32)
      u.each ((emitters iso).filter fun i => !(u.ilace k).isolated.contains i) fun i v =>
        (v.headSend k hcIsolate i).modIlace k fun q => { q with isolated := q.isolated ++ [i] }
  s5.ifDo changed (·.train k)

/-- The owning berth has read 0x0000–0x040F of the head memory (R163). -/
def execHeadMemoryRead (station : Fin 6) (bytes : List Nat) (s : State) : Result :=
  let k := station
  let m := bytes.map (· % 256)
  if !s.hasStation k then .next s
  else if headBad m then .next ((s.wr (F.HL_STAT_HEAD_OK k.val) 0).raise (40 + 2 * k.val) (hlPage k) 5)
  else if s.headDiffers k m then .next ((s.wr (F.HL_STAT_HEAD_OK k.val) 0).raise (41 + 2 * k.val) (hlPage k) 2)
  else .next (s.headAccept k m)

end Sys2Proof.Machine
end

