-- ==== Sys2Proof/Machine/Motors.lean ====
section
/-! DEFINITION. The commands of the commutation channels (13). -/
namespace Sys2Proof.Machine

/-! ### Sectors (R335, R336) -/

/-- The row of Table 13.1 of a Hall code. -/
def hallRow (code : Nat) : Option Nat :=
  match code with
  | 1 => some 0
  | 3 => some 1
  | 2 => some 2
  | 6 => some 3
  | 4 => some 4
  | 5 => some 5
  | _ => none

/-- The floating phase of a row: 0 U, 1 V, 2 W. -/
def floatPhase (row : Nat) : Nat :=
  match row % 6 with
  | 0 => 2
  | 1 => 1
  | 2 => 0
  | 3 => 2
  | 4 => 1
  | _ => 0

/-- High and low side of a row (0 U, 1 V, 2 W). -/
def rowPhases (row : Nat) : Nat × Nat :=
  match row % 6 with
  | 0 => (0, 1)
  | 1 => (0, 2)
  | 2 => (1, 2)
  | 3 => (1, 0)
  | 4 => (2, 0)
  | _ => (2, 1)

/-- The row that drives sector `sec` in a direction (R335). -/
def driveRow (dir : Int) (sec : Nat) : Nat := if dir < 0 then (sec + 3) % 6 else sec

/-- Duration of the previous sector. -/
def Motor.prevSector (m : Motor) : Nat :=
  match m.times with
  | a :: b :: _ => a - b
  | _ => 0

/-- Start of the present sector. -/
def Motor.lastEdge (m : Motor) : Nat := m.times.headD m.since

/-! ### Speed (R339) -/

/-- `k` sectors over `POLES × T` ticks, signed, mrpm. -/
def sectorSpeed (k poles t : Nat) (dir : Int) : Int := dir * qdiv (k * 1000000000000) (poles * t)

/-- Speed at a commutation: the mean of the last six sectors, or of those seen. -/
def Motor.speed (m : Motor) (poles : Nat) : Option Int :=
  match m.times with
  | a :: r => match r.getLast? with
    | some b => some (sectorSpeed r.length poles (a - b) m.dir)
    | none => none
  | [] => none

/-- Pole pairs; 0 reads back as 1. -/
def State.poles (s : State) (n : Nat) : Nat := max 1 (s.rd (F.CM_CFG_POLES n))

/-- The speed of the channel's encoder in mrpm (R339). -/
def State.encoderSpeed (s : State) (n : Nat) : Int :=
  let e := s.rd (F.CM_CFG_SPD_ENC n)
  let v := s.rdS (F.ENC_SPEED_CPS e) * 60000
  let c := s.rd (F.ENC_CPR_CPR e)
  if c = 0 then v.sign * Config.divByZero v.natAbs else tdiv v c

/-- A commutation at tick `t` to a sector in a direction (R336–R339). -/
def State.commutate (n : Fin 12) (sec : Nat) (dir : Int) (t : Nat) (s : State) : State :=
  let m := s.motor n
  let prev := t - m.lastEdge
  let s1 := s.modMotor n fun m => { m with
    times := (t :: m.times).take 7, dir := dir, agree := if m.dir = dir then m.agree + 1 else 1
    due := none, crossed := false, softAt := t, softT := s.rd (F.CM_DRIVE_SOFT n) * prev / 256
    softOld := s.rd (F.CM_STAT_SECTOR n), probe := m.probe.map (· + 1) }
  let s2 := s1.wr (F.CM_STAT_SECTOR n) sec
  if s2.on (F.CM_CFG_SPD_SRC n) then s2.wrS (F.CM_SPEED_SPEED n) (s2.encoderSpeed n)
  else match (s2.motor n).speed (s2.poles n) with
    | some v => s2.wrS (F.CM_SPEED_SPEED n) v
    | none => s2

/-- The next sector in the direction of rotation. -/
def nextSector (sec : Nat) (dir : Int) : Nat := if dir < 0 then (sec + 5) % 6 else (sec + 1) % 6

/-- A back-EMF commutation whose half sector has passed is made, at its own tick (R337). -/
def State.settle (n : Fin 12) (s : State) : State :=
  match (s.motor n).due with
  | some t => if t ≤ s.time then s.commutate n (nextSector (s.rd (F.CM_STAT_SECTOR n)) (s.motor n).dir) (s.motor n).dir t else s
  | none => s

/-- SENSOR_ERR counts, and SENSOR is raised (R336). -/
def State.sensorError (n : Fin 12) (s : State) : State :=
  (s.sat (F.CM_CNT_SENSOR_ERR n)).latch (168 + n) (cmPage n) 1 0 none

/-! ### Ke (R349, R350) -/

/-- The estimate from the largest code read since the gates went off (R349, R350). -/
def State.keEstimate (n : Fin 12) (s : State) : State :=
  let v := (s.rdS (F.CM_SPEED_SPEED n)).natAbs
  let est := min (qdiv ((s.motor n).peak * s.rd (F.CM_KE2_KSCALE n) / 4095 * 1000000) v) 65535
  let nom := s.rd (F.CM_KE_NOM n)
  let s1 := ((s.wr (F.CM_KE_EST_EST n) est).modMotor n fun m => { m with keAt := s.time }).event (cmPage n) 5
  let s2 := s1.ifDo (decide (100 * est < 85 * nom)) (·.latch (168 + n) (cmPage n) 2 0 none)
  s2.ifDo (decide (115 * nom < 100 * est)) (·.latch (168 + n) (cmPage n) 3 0 none)

/-! ### Entering RUN (R346, R347) -/

/-- RUN with a ramp preset; torque 0 until the loop slot computes. -/
def State.enterRun (n : Fin 12) (ramp : Int) (s : State) : State :=
  (((s.gatesOff n).modMotor n fun m => { m with ramp := ramp, outRun := 0, due := none, missed := 0 }).cmTo n cmRun).event (cmPage n) 2

/-- At rest: RUN on Hall sensing, ALIGN on back-EMF sensing (Table 13.2). -/
def State.fromRest (n : Fin 12) (s : State) : State :=
  if s.rd (F.CM_CFG_SENSE n) = 0 then s.enterRun n 0
  else
    let s1 := (s.gatesOff n).modMotor n fun m => { m with ramp := 0, drive := .align, duty := s.rd (F.CM_OPEN_ALIGN_DUTY n) * 256 }
    (s1.wr (F.CM_STAT_SECTOR n) 0).cmTo n cmAlign

/-- Forward is the direction of the target; a target of 0 counts as positive (log 61). -/
def State.forward (s : State) (n : Nat) : Int := if s.rdS (F.CM_TARGET_SPEED n) < 0 then -1 else 1

/-- Is a committed page being exposed by a station the channel serves (R349)? -/
def State.cmExposing (s : State) (n : Fin 12) : Bool :=
  ((List.range 6).any fun k => bit (s.rd (F.CM_CFG_IMG_MASK n)) k && s.exposing k) || (s.polyOf n).any fun k => s.exposing k

/-- A Ke probe begins: the channel coasts in RUN (R349). -/
def State.keStart (n : Fin 12) (s : State) : State :=
  (s.gatesOff n).modMotor n fun m => { m with probe := some 0, keDue := false, peak := 0 }

/-- Two electrical turns have passed: the estimate, and RUN from the measured speed (R349). -/
def State.keEnd (n : Fin 12) (s : State) : State :=
  match (s.motor n).probe with
  | some c =>
    if 12 ≤ c then
      let v := s.rdS (F.CM_SPEED_SPEED n)
      (s.modMotor n fun m => { m with probe := none, ramp := v }).keEstimate n
    else s
  | none => s

/-! ### Sense edges (R336, R337) -/

/-- An edge taken as a Hall code. -/
def State.hallEdge (n : Fin 12) (code offs : Nat) (s : State) : State :=
  match hallRow code with
  | none => s.sensorError n
  | some row =>
    let new := (row + offs) % 6
    let d := (new + 6 - s.rd (F.CM_STAT_SECTOR n)) % 6
    let first := !(s.motor n).seen
    let s1 := s.modMotor n fun m => { m with seen := true }
    if first then s1.wr (F.CM_STAT_SECTOR n) new
    else if d = 0 then s1
    else
      let dir : Int := if d < 3 then 1 else if d = 3 then (s.motor n).dir else -1
      (s1.ifDo (2 ≤ d && d ≤ 4) (·.sensorError n)).commutate n new dir s.time

/-- A crossing on the floating phase after the blanking time (R337); in OPEN_LOOP valid crossings are counted (Table 13.2). -/
def State.bemfEdge (n : Fin 12) (old code : Nat) (s : State) : State :=
  let m := s.motor n
  let ph := floatPhase (driveRow m.dir (s.rd (F.CM_STAT_SECTOR n)))
  let prev := m.prevSector
  if bit old ph == bit code ph || m.crossed || decide (s.time < m.lastEdge + s.rd (F.CM_DRIVE_BLANK n) * prev / 256) then s
  else if s.cmState n = cmOpenLoop then
    let ok := s.rd (F.CM_OPEN_MIN_BEMF n) * 1000 ≤ m.forced
    let valid := if ok then m.valid + 1 else 0
    let s1 := s.modMotor n fun m => { m with crossed := true, valid := valid }
    if 12 ≤ valid then s1.enterRun n (m.dir * m.forced) else s1
  else s.modMotor n fun m => { m with crossed := true, missed := 0, due := some (s.time + prev / 2) }

/-- A sense edge (R336, R337). -/
def execCommutationEdge (n : Fin 12) (code : Fin 8) (s : State) : Result :=
  let s0 := s.settle n
  let old := (s0.motor n).code
  let s1 := s0.modMotor n fun m => { m with code := code.val }
  let st := s1.cmState n
  if s1.rd (F.CM_CFG_SENSE n) = 0 then .next ((s1.hallEdge n code.val (s1.rd (F.CM_CFG_HALL_OFFS n))).keEnd n).hwReact
  else if (st = cmRun ∨ st = cmStopping ∨ st = cmOpenLoop) ∧ (s1.motor n).probe = none then
    .next (s1.bemfEdge n old code.val).hwReact
  else .next ((s1.hallEdge n code.val 0).keEnd n).hwReact

/-- A back-EMF sector without a crossing ends after 1.5 sector times (R337). -/
def execSectorTimeout (n : Fin 12) (s : State) : Result :=
  let s := s.settle n
  let m := s.motor n
  let st := s.cmState n
  if s.rd (F.CM_CFG_SENSE n) ≠ 0 ∧ (st = cmRun ∨ st = cmStopping) ∧ m.probe = none ∧ m.crossed = false ∧ m.prevSector ≠ 0 ∧
      2 * m.lastEdge + 3 * m.prevSector ≤ 2 * s.time then
    let s1 := (s.modMotor n fun m => { m with missed := m.missed + 1 }).sat (F.CM_CNT_SENSOR_ERR n)
    let s2 := s1.commutate n (nextSector (s.rd (F.CM_STAT_SECTOR n)) m.dir) m.dir s.time
    .next (s2.ifDo (m.missed + 1 == 6) (·.latch (168 + n) (cmPage n) 1 0 none)).hwReact
  else .next s

/-! ### The 1 ms sample (R339–R344) -/

/-- The magnitude falls while no commutation comes (R339). -/
def State.speedDecay (n : Fin 12) (s : State) : State :=
  if s.on (F.CM_CFG_SPD_SRC n) then s.wrS (F.CM_SPEED_SPEED n) (s.encoderSpeed n)
  else
    let m := s.motor n
    let gap := s.time - m.lastEdge
    if m.prevSector < gap then
      let v := s.rdS (F.CM_SPEED_SPEED n)
      s.wrS (F.CM_SPEED_SPEED n) (v.sign * (min v.natAbs (qdiv 1000000000000 (s.poles n * gap)) : Nat))
    else s

/-- STOP of a running channel (Table 13.2). -/
def State.cmStop (n : Fin 12) (s : State) : State := (s.cmLeave n).cmTo n cmStopping

/-- DEC in force (R340). -/
def State.decNow (s : State) (n : Nat) : Nat :=
  let d := s.rd (F.CM_RAMP_DEC n)
  if s.on (F.CM_STAT_STRETCH n) then max 1 (d / 4) else d

/-- The ramp output after a sample (R340). -/
def rampStep (ramp target : Int) (acc dec : Nat) : Int :=
  let d : Nat := if ramp.natAbs < target.natAbs ∧ 0 ≤ ramp * target then acc else dec
  if ramp < target then min target (ramp + d) else max target (ramp - d)

/-- CM_REF (R341). -/
def refOf (ramp trim : Int) : Int := tdiv (ramp * (1000000 + trim)) 1000000

/-- The trim of a channel: 0 unless a beam-timing page names it (R341). -/
def State.trimOf (s : State) (n : Fin 12) : Int := if (s.polyOf n).isEmpty then 0 else (s.motor n).trim

/-- The band at a sample (R344). -/
def State.bandSample (n : Fin 12) (s : State) : State :=
  let ref := s.rdS (F.CM_REF_SPEED n)
  let ok := s.cmState n == cmRun && (s.motor n).ramp == s.rdS (F.CM_TARGET_SPEED n) &&
    decide ((s.rdS (F.CM_SPEED_SPEED n) - ref).natAbs * 10000 ≤ s.rd (F.CM_BAND_BAND n) * ref.natAbs)
  if ok then
    let s1 := s.modMotor n fun m => { m with outRun := 0 }
    if s.on (F.CM_STAT_IN_BAND n) then s1 else s1.bandEnter n
  else if s.on (F.CM_STAT_IN_BAND n) then
    let run := (s.motor n).outRun + 1
    let s1 := s.modMotor n fun m => { m with outRun := run }
    if max 1 (s.rd (F.CM_BAND_BAND_Q n)) ≤ run then (s1.modMotor n fun m => { m with outRun := 0 }).bandLeave n else s1
  else s

/-- The forced commutation of OPEN_LOOP for one sample; STALL at twice MIN_BEMF (Table 13.2). -/
def State.openLoop (n : Fin 12) (s : State) : State :=
  let m := s.motor n
  let limit := s.rd (F.CM_OPEN_MIN_BEMF n) * 2000
  let forced := m.forced + s.rd (F.CM_RAMP_ACC n)
  let dir := s.forward n
  let phase := m.phase + forced * s.poles n
  let s1 := s.modMotor n fun m => { m with forced := forced, phase := phase % 10000000, dir := dir }
  let s2 := s1.each (List.range (min (phase / 10000000) 8)) fun _ t =>
    (t.modMotor n fun m => { m with valid := if m.crossed then m.valid else 0 }).commutate n (nextSector (t.rd (F.CM_STAT_SECTOR n)) dir) dir t.time
  if limit ≤ forced then (s2.cmToOff n).latch (168 + n) (cmPage n) 0 0 none else s2

/-- The 1 ms sample of a channel (R339–R344). -/
def execMotorSample (n : Fin 12) (s : State) : Result :=
  if s.time / 100000 < (s.motor n).sampled then .next s
  else
    let s1 := (((s.modMotor n fun m => { m with sampled := s.time / 100000 + 1 }).boundary (cmPage n)).settle n).speedDecay n
    let target := s1.rdS (F.CM_TARGET_SPEED n)
    let low := decide (target.natAbs < s1.revThresh n)
    let s2 := if s1.cmState n = cmRun ∧ low then s1.cmStop n else s1
    let goal := if s2.cmState n = cmStopping then 0 else target
    let s3 := if (s2.cmState n = cmRun ∧ (s2.motor n).probe = none) ∨ s2.cmState n = cmStopping then
        s2.modMotor n fun m => { m with ramp := rampStep m.ramp goal (s2.rd (F.CM_RAMP_ACC n)) (s2.decNow n) }
      else s2
    let s4 := s3.wrS (F.CM_REF_SPEED n)
      (if s3.cmState n = cmRun then refOf (s3.motor n).ramp (s3.trimOf n) else if s3.cmState n = cmStopping then (s3.motor n).ramp else 0)
    let slow := decide ((s4.rdS (F.CM_SPEED_SPEED n)).natAbs < s4.revThresh n)
    let s5 := if s4.cmState n = cmStopping ∧ slow then s4.cmToOff n
      else if s4.cmState n = cmWaitSlow ∧ slow then s4.fromRest n
      else if s4.cmState n = cmOpenLoop then s4.openLoop n
      else s4
    let s6 := s5.bandSample n
    .next (s6.ifDo ((s6.motor n).keDue && s6.cmState n == cmRun && !s6.cmExposing n) (·.keStart n)).hwReact

/-- No commutation for CM_STALL.T ms in RUN with duty applied (R345). -/
def execStall (n : Fin 12) (s : State) : Result :=
  let s := s.settle n
  let m := s.motor n
  if s.cmState n = cmRun ∧ m.duty ≠ 0 ∧ max m.lastEdge m.since + s.rd (F.CM_STALL_T n) * 100000 ≤ s.time then
    .next ((s.cmToOff n).latch (168 + n) (cmPage n) 0 0 none).hwReact
  else .next s

/-! ### Starting (R346–R348) -/

/-- A start request waits first in, first out, equal ticks in channel order (R348). -/
def enqueueStart (n t : Nat) : List (Nat × Nat) → List (Nat × Nat)
  | [] => [(n, t)]
  | e :: r => if e.2 = t ∧ n < e.1 then (n, t) :: e :: r else e :: enqueueStart n t r

def State.cmQueue (n : Fin 12) (s : State) : State :=
  ((s.modGroup (s.cmGroup n) fun q => { q with queue := enqueueStart n s.time q.queue }).modMotor n
    fun m => { m with restart := false }).cmTo n cmQueued

/-- START at a channel (Table 13.2); in TRIPPED before RESET_TRIP it is ignored (R355). -/
def State.cmStartCmd (n : Fin 12) (t : State) : State :=
  let st := t.cmState n
  if t.on (H.ISOLATED (cmPage n)) then t
  else if st = cmOff then t.cmQueue n
  else if st = cmStopping then t.enterRun n (t.motor n).ramp
  else if st = cmTripped then (if t.on (F.MB_STAT_TRIPPED (t.cmGroup n)) then t.accessBusy (cmPage n) else t.cmQueue n)
  else t

/-- STOP at a channel (Table 13.2). -/
def State.cmStopCmd (n : Fin 12) (t : State) : State :=
  if t.cmState n = cmQueued then t.cmToOff n
  else if t.cmState n = cmRun then (t.cmStop n).hwReact
  else t

/-- CM_CMD.START. -/
def execStart (agent : Agent) (n : Fin 12) (s : State) : Result := .next (s.write agent (cmPage n) 0x074 (·.cmStartCmd n))

/-- CM_CMD.STOP. -/
def execStop (agent : Agent) (n : Fin 12) (s : State) : Result := .next (s.write agent (cmPage n) 0x074 (·.cmStopCmd n))

/-- CM_CMD.COAST: any state but OFF to OFF (Table 13.2). -/
def execCoast (agent : Agent) (n : Fin 12) (s : State) : Result :=
  .next (s.write agent (cmPage n) 0x074 fun t => if t.cmState n = cmOff then t else (t.cmToOff n).hwReact)

/-- A Ke probe: by command, or by the KE_PER timer; it needs RUN in band, and waits while a page is exposed (R349). -/
def execKeProbe (agent : Option Agent) (n : Fin 12) (s : State) : Result :=
  let run := fun (t : State) =>
    if t.cmState n = cmRun ∧ t.on (F.CM_STAT_IN_BAND n) ∧ (t.motor n).probe = none then
      if t.cmExposing n then t.modMotor n fun m => { m with keDue := true } else t.keStart n
    else t
  match agent with
  | some a => .next (s.write a (cmPage n) 0x074 run)
  | none =>
    let per := s.rd (F.CM_KE_KE_PER n)
    .next (if per ≠ 0 ∧ (s.motor n).keAt + per * 6000000000 ≤ s.time then run s else s)

/-- A group's other channels in their start windows (R348). -/
def State.inStart (s : State) (g : Fin 2) (c : Fin 12) : List (Fin 12) :=
  (List.finRange 12).filter fun (n : Fin 12) => n != c && s.cmGroup n == g && decide (s.time < (s.motor n).winEnd)

/-- Their weights. -/
def State.startWeight (s : State) (g : Fin 2) (c : Fin 12) : Nat :=
  (s.inStart g c).foldl (fun w (n : Fin 12) => w + s.rd (F.CM_START_WEIGHT n)) 0

/-- The request at the front of a group's queue is admitted when the budget allows (R348, R354). -/
def execStartAdmit (g : Fin 2) (s : State) : Result :=
  match s.ct.groups[g].queue with
  | [] => .next s
  | (c, t) :: r =>
    let n := Fin.ofNat 12 c
    let w := s.rd (F.CM_START_WEIGHT n)
    let used := s.startWeight g n
    let budget := s.rd (F.MB_BUDGET_BUDGET g)
    if !s.on (F.MB_STAT_UV g) && !s.on (F.MB_STAT_TRIPPED g) && !s.on (H.ISOLATED mbPage) &&
        (used + w ≤ budget || (budget < w && (s.inStart g n).isEmpty)) then
      let wait := min ((s.time - t) / 100000) 65535
      let s1 := (s.modGroup g fun q => { q with queue := r }).sat (F.CM_CNT_STARTS n)
      let s2 := s1.wr (F.MB_BUDGET_WAIT_MAX g) (max wait (s.rd (F.MB_BUDGET_WAIT_MAX g)))
      let s3 := s2.ifDo (decide (t < s.time)) (·.event mbPage (8 * g.val + 1))
      .next ((s3.modMotor n fun m => { m with
        winEnd := s.time + s.rd (F.CM_START_WIN n) * 100000, agree := 0, times := [], peak := 0, drive := .off, duty := 0 }).cmTo n cmListen)
    else .next s

/-- LISTEN ends: at the third edge that agrees, or after LISTEN_T (R346, R347, R349). -/
def execListenDone (n : Fin 12) (s : State) : Result :=
  let m := s.motor n
  if s.cmState n ≠ cmListen then .next s
  else if 3 ≤ m.agree then
    let v := s.rdS (F.CM_SPEED_SPEED n)
    let s1 := s.ifDo (decide (s.rd (F.CM_REV_RATED n) * 100 ≤ v.natAbs)) (·.keEstimate n)
    if 0 < v * s.forward n then .next (((s1.enterRun n v).event (cmPage n) 4).inc (F.CM_CNT2_CATCH n)).hwReact
    else if s.revThresh n ≤ v.natAbs then
      .next ((s1.modMotor n fun m => { m with drive := .brake, duty := s.rd (F.CM_START_BRK_DUTY n) * 256 }).cmTo n cmWaitSlow).hwReact
    else .next (s1.fromRest n).hwReact
  else if m.since + s.rd (F.CM_START_LISTEN_T n) * 100000 ≤ s.time then .next (s.fromRest n)
  else .next s

/-- ALIGN_T has passed: forced commutation from rest (Table 13.2). -/
def execAlignDone (n : Fin 12) (s : State) : Result :=
  if s.cmState n = cmAlign ∧ (s.motor n).since + s.rd (F.CM_OPEN_ALIGN_T n) * 100000 ≤ s.time then
    .next ((s.modMotor n fun m => { m with forced := 0, phase := 0, valid := 0, crossed := false }).cmTo n cmOpenLoop)
  else .next s

/-! ### The motor bus (R351–R354) -/

/-- The chopper pair in use (R17, R351). -/
def State.chopPair (g : Fin 2) (s : State) : State :=
  let on_ := s.rd (F.MB_CH_CH_ON g)
  let off := s.rd (F.MB_CH_CH_OFF g)
  if off < on_ then s.modGroup g fun q => { q with pairOn := on_, pairOff := off } else s.mismatch mbPage

/-- Channels of a group. -/
def State.groupOf (s : State) (g : Fin 2) : List (Fin 12) := (List.finRange 12).filter fun (n : Fin 12) => s.cmGroup n == g

/-- The chopper gate at a sample (R351); a test pulse holds it on. -/
def State.chopGate (g : Fin 2) (v : Nat) (s : State) : State :=
  let q := s.ct.groups[g]
  let on_ := if q.pairOn ≤ v then true else if s.time < q.testEnd then true else if v ≤ q.pairOff then false
    else q.gateAt.isSome && q.testEnd == 0
  match q.gateAt, on_ with
  | none, true => (s.modGroup g fun q => { q with gateAt := some s.time, volts := [], lowRun := 0, failed := false }).wr (F.MB_STAT_GATE g) 1
  | some t, false =>
    let s1 := (s.modGroup g fun q => { q with gateAt := none, volts := [], lowRun := 0, testEnd := 0 }).wr (F.MB_STAT_GATE g) 0
    s1.ifDo (!q.failed && decide (t + 5000 ≤ s.time)) (·.wr (F.MB_STAT_CHOP_ACTIVE g) 0)
  | _, _ => if v ≥ q.pairOn then s.modGroup g fun q => { q with testEnd := 0 } else s

/-- The chopper is judged faulty (R352). -/
def State.chopFault (g : Fin 2) (s : State) : State :=
  let s1 := s.modGroup g fun q => { q with failed := true }
  if s.on (F.MB_STAT_CHOP_ACTIVE g) then s1
  else
    let s2 := ((s1.wr (F.MB_STAT_CHOP_ACTIVE g) 1).sat (F.MB_CNT_CHOP_FAULTS g)).latch (180 + g) mbPage (8 * g.val) 0 none
    s2.each (s.groupOf g) fun n t => (t.wr (F.CM_STAT_REGEN_OFF n) 1).wr (F.CM_STAT_STRETCH n) 1

/-- The checks of a sample with the gate on (R352). -/
def State.chopCheck (g : Fin 2) (v cur : Nat) (s : State) : State :=
  match s.ct.groups[g].gateAt with
  | none => s
  | some t =>
    let volts := (v :: s.ct.groups[g].volts).take 21
    let late := decide (t + 2000 ≤ s.time)
    let low := late && decide (s.rd (F.MB_CHOP_R_BRAKE g) * cur < 500 * v)
    let run := if low then s.ct.groups[g].lowRun + 1 else 0
    let s1 := s.modGroup g fun q => { q with volts := volts, lowRun := run }
    let rise := volts.length == 21 && decide (volts.getLastD v + s.rd (F.MB_CHOP_RISE g) < v)
    s1.ifDo (rise || 3 ≤ run) (·.chopFault g)

/-- OV_TRIP (R353). -/
def State.busTrip (g : Fin 2) (s : State) : State :=
  let s1 := ((s.wr (F.MB_STAT_TRIPPED g) 1).sat (F.MB_CNT_TRIPS g)).latch (180 + g) mbPage (8 * g.val + 1) 0 none
  s1.each (s.groupOf g) fun n t =>
    let st := t.cmState n
    if st = cmRun ∨ st = cmAlign ∨ st = cmOpenLoop ∨ st = cmStopping ∨ st = cmWaitSlow then
      ((t.modMotor n fun m => { m with restart := st != cmStopping }).cmLeave n).cmTo n cmTripped
    else t

/-- The 10 µs sample of a group (R351–R354). -/
def execBusSample (g : Fin 2) (s : State) : Result :=
  if sampleOf s.time < s.ct.groups[g].sampled then .next s
  else
    let v := s.rd (F.ADC_RES_CODE (44 + g)) * s.rd (F.MB_SCALE_VSCALE g) / 4095
    let cur := s.rd (F.ADC_RES_CODE (46 + g)) * s.rd (F.MB_SCALE_ISCALE g) / 4095
    let s1 := ((s.modGroup g fun q => { q with sampled := sampleOf s.time + 1 }).wr (F.MB_STAT_VBUS g) v).chopPair g
    let s2 := ((s1.chopGate g v).chopCheck g v cur)
    let uv := decide (v < s2.rd (F.MB_TRIP_UV g))
    let s3 := (s2.flag (F.MB_STAT_UV g) uv).ifDo (uv && !s2.on (F.MB_STAT_UV g)) (·.latch (180 + g) mbPage (8 * g.val + 2) 0 none)
    .next (s3.ifDo (decide (s3.rd (F.MB_TRIP_OV_TRIP g) ≤ v) && !s3.on (F.MB_STAT_TRIPPED g)) (·.busTrip g)).hwReact

/-- MB_CMD.TEST: a 50 µs pulse when VBUS ≥ CH_OFF (R352). -/
def execTest (agent : Agent) (g : Fin 2) (s : State) : Result :=
  .next (s.write agent mbPage (0x05C + 0x20 * g.val) fun t =>
    let q := t.ct.groups[g]
    if q.pairOff ≤ t.rd (F.MB_STAT_VBUS g) ∧ q.gateAt = none then
      (t.modGroup g fun q => { q with gateAt := some t.time, volts := [], lowRun := 0, failed := false, testEnd := t.time + 5000 }).wr
        (F.MB_STAT_GATE g) 1
    else t)

/-- MB_CMD.RESET_TRIP (R353). -/
def execResetTrip (agent : Agent) (g : Fin 2) (s : State) : Result :=
  .next (s.write agent mbPage (0x05C + 0x20 * g.val) fun t =>
    if t.rd (F.MB_STAT_VBUS g) ≤ t.ct.groups[g].pairOff then
      if t.on (F.MB_STAT_TRIPPED g) then
        let t1 := (t.wr (F.MB_STAT_TRIPPED g) 0).event mbPage (8 * g.val)
        t1.each ((t.groupOf g).filter fun (n : Fin 12) => t.cmState n == cmTripped && (t.motor n).restart) fun (n : Fin 12) u => u.cmQueue n
      else t
    else t.accessBusy mbPage)

end Sys2Proof.Machine
end

