-- ==== Sys2Proof/Machine/Registration.lean ====
section
/-! DEFINITION. The mark sensors and the registration service (R133–R136). -/
namespace Sys2Proof.Machine

def regPage : Nat := 0x040

/-- A quotient rounded to the nearest integer, halves away from zero; with divisor 0 the manual states none (log 1). -/
def roundDiv (n d : Int) : Int :=
  let q : Int := iqdiv (2 * n.natAbs + d.natAbs) (2 * d.natAbs)
  if (n < 0) = (d < 0) then q else -q

/-- Set a signed field to a value; one outside its format is not stated, a free value (log 1). -/
def State.wrFit (f : Fld) (v : Int) (s : State) : State :=
  if -(2 ^ (f.width - 1) : Nat) ≤ v ∧ v < (2 ^ (f.width - 1) : Nat) then s.wrS f v
  else (s.wr f (s.freeVal (2 ^ f.width))).freeNext

/-! ### The mark window (R133) -/

/-- T_line of the reference station, 1/65,536 tick. -/
def State.refLine (s : State) : Nat := s.rd (F.BT_TLINE_TICKS (s.rd F.REG_CFG_REF))

/-- The window of a page opens, and closes, ticks × 65,536. -/
def State.markOpenAt (s : State) (m : MarkPage) : Int :=
  65536 * (m.anchor + s.rd F.REG_WIN_OFFS : Nat) + ((m.height + s.rd F.REG_MARK_START : Nat) - (s.rd F.REG_MARK_BAR : Int)) * s.refLine

def State.markCloseAt (s : State) (m : MarkPage) : Int :=
  65536 * (m.anchor + s.rd F.REG_WIN_OFFS : Nat) + (m.height + m.trLast + s.rd F.REG_MARK_BAR : Nat) * s.refLine

def State.modReg (f : Reg → Reg) (s : State) : State := s.modSta fun q => { q with reg := f q.reg }

/-- A qualified edge of a mark sensor; stamped only while the window is open. -/
def execMarkEdge (j : Fin 4) (stamp : Nat) (s : State) : Result :=
  .next (s.ifDo (s.on F.REG_STAT_OPEN) (·.modReg fun q => { q with edges := q.edges.set j (stamp :: q.edges[j]) }))

/-- The mark window of the oldest page with marks opens. -/
def execMarkWindowOpen (s : State) : Result :=
  match s.sta.reg.pages with
  | m :: _ =>
    if s.on F.REG_STAT_OPEN = false ∧ s.markOpenAt m ≤ 65536 * s.time then
      .next ((s.modReg fun q => { q with edges := Vector.replicate 4 [] }).wr F.REG_STAT_OPEN 1)
    else .next s
  | [] => .next s

/-! ### Results (R134) -/

/-- Twice the centres of the straight and the diagonal bar of station idx, 1/256 tick. -/
def barCentres (edges : List Nat) (idx : Nat) : Int × Int :=
  let e := fun n => (edges.getD (4 * idx + n) 0 : Int)
  (e 0 + e 1, e 2 + e 3)

/-- The sensors with the right number of edges. -/
def State.validSensors (s : State) (m : MarkPage) : List (Fin 4) :=
  (List.finRange 4).filter fun (j : Fin 4) => (s.sta.reg.edges[j]).length == 4 * m.set_.length

/-- P(k, j) in 1/256 tick, none where the reference station is not in the set. -/
def State.markP (s : State) (m : MarkPage) (valid : List (Fin 4)) (idx : Nat) (j : Fin 4) : Option Int :=
  (m.set_.findIdx? (· == s.rd F.REG_CFG_REF)).map fun ref =>
    let c := fun (i : Fin 4) n => (barCentres (s.sta.reg.edges[i]).reverse n).1
    let sum := (valid.map fun i => c i ref).foldl (· + ·) 0
    let n : Int := valid.length
    -- all over 2 · n, and the pitch over 65,536 with 256 to the tick
    roundDiv ((c j idx * n - sum) * 256 - 2 * n * ((idx : Int) - ref) * (s.rd F.REG_MARK_PITCH * s.refLine : Nat)) (512 * n)

/-- X(k, j) in 1/64 pixel. -/
def State.markX (s : State) (idx : Nat) (j : Fin 4) : Int :=
  let c := barCentres (s.sta.reg.edges[j]).reverse idx
  roundDiv (64 * (s.rd F.REG_MARK2_DIAG * s.refLine : Nat) - 64 * 128 * (c.2 - c.1)) s.refLine

/-- One result; a P that is not stated is free. -/
def State.markResult (m : MarkPage) (valid : List (Fin 4)) (idx k : Nat) (j : Fin 4) (s : State) : State :=
  let t := match s.markP m valid idx j with
    | some p => s.wrFit (F.REG_RES_P k j) p
    | none => (s.wr (F.REG_RES_P k j) (s.freeVal (2 ^ 32))).freeNext
  t.wrFit (F.REG_RES_X k j) (s.markX idx j)

/-- The close of the window: results for every station and every sensor with the right edges (R134). -/
def execMarkWindowClose (s : State) : Result :=
  match s.sta.reg.pages with
  | m :: rest =>
    if s.on F.REG_STAT_OPEN = true ∧ s.markCloseAt m ≤ 65536 * s.time then
      let valid := s.validSensors m
      let s1 := s.each m.set_.zipIdx fun x t => t.each valid fun j u => u.markResult m valid x.2 x.1 j
      let s2 := (((s1.wr F.REG_STAT_VALID (valid.foldl (fun v j => v + 2 ^ j.val) 0)).inc F.REG_STAT_SETS).wr F.REG_STAT_OPEN 0).event regPage 0
      let s3 := s2.modReg fun q => { q with pages := rest, set_ := m.set_, printed := q.printed || m.after }
      .next (s3.each (List.range (4 - valid.length)) fun _ t =>
        ((t.sat F.REG_CNT_MARK_BAD).event regPage 1).raise 70 regPage 0)
    else .next s
  | [] => .next s

/-! ### The fits (R135) -/

/-- Coefficients of 1, U and U² over one denominator. -/
structure Fit where
  c0  : Int
  c1  : Int
  c2  : Int
  den : Int
deriving DecidableEq, Repr

/-- Σ uⁱ·y over points. -/
def moment (i : Nat) (l : List (Int × Int)) : Int := (l.map fun p => p.1 ^ i * p.2).foldl (· + ·) 0

/-- Σ uⁱ. -/
def power (i : Nat) (l : List (Int × Int)) : Int := (l.map fun p => p.1 ^ i).foldl (· + ·) 0

/-- Least squares with a square term. -/
def fitQuad (l : List (Int × Int)) : Fit :=
  let a := power 0 l; let b := power 1 l; let c := power 2 l; let d := power 3 l; let e := power 4 l
  let x := moment 0 l; let y := moment 1 l; let z := moment 2 l
  ⟨x * (c * e - d * d) - b * (y * e - d * z) + c * (y * d - c * z),
   a * (y * e - d * z) - x * (b * e - c * d) + c * (b * z - c * y),
   a * (c * z - d * y) - b * (b * z - c * y) + x * (b * d - c * c),
   a * (c * e - d * d) - b * (b * e - c * d) + c * (b * d - c * c)⟩

/-- Least squares with a line. -/
def fitLine (l : List (Int × Int)) : Fit :=
  let a := power 0 l; let b := power 1 l; let c := power 2 l
  let x := moment 0 l; let y := moment 1 l
  ⟨x * c - b * y, a * y - b * x, 0, a * c - b * b⟩

/-- The process fit of R135 over 2u·LINE_PX, none for fewer than two sensors; 1/256 tick. -/
def fitProcess (l : List (Int × Int)) : Option Fit :=
  if l.length < 2 then none else if l.length = 2 then some (fitLine l) else some (fitQuad l)

/-- The scan fit; 1/64 pixel. -/
def fitScan (l : List (Int × Int)) : Option Fit :=
  if l.isEmpty then none else if l.length = 1 then some ⟨moment 0 l, 0, 0, 1⟩ else some (fitLine l)

/-- A term below the dead band is omitted: `gain`/16 · n/den against `band`/64 units of `unit`. -/
def deadTerm (gain band n den unit : Int) : Int :=
  if gain * (n.natAbs : Int) * 4 < band * (den.natAbs : Int) * unit then 0 else n

/-- ΔT, the PH_TRIM change, and the changes of DELAY, PPM and D[z] for one station. -/
def State.corrections (s : State) (k : Nat) : Int × List Int :=
  let lp : Int := s.rd (F.BT_LINE_LINE_PX k)
  let g : Int := s.rd F.REG_CFG_GAIN
  let db : Int := s.rd F.REG_CFG_DEADBAND
  let tl : Int := s.refLine
  let valid := (List.range 4).filter fun j => bit (s.rd F.REG_STAT_VALID) j
  let u := fun j => 2 * (s.rd (F.REG_X_X j) : Int) - lp
  let pf := (fitProcess (valid.map fun j => (u j, s.rdS (F.REG_RES_P k j)))).getD ⟨0, 0, 0, 1⟩
  let xf := (fitScan (valid.map fun j => (u j, s.rdS (F.REG_RES_X k j)))).getD ⟨0, 0, 0, 1⟩
  -- a line is tl / 65,536 ticks: 256 · tl / 65,536 of P's units
  let line := fun n => deadTerm g (db * tl) n (256 * pf.den) 1
  let a := if k = s.rd F.REG_CFG_REF then 0 else line pf.c0
  let b := line (pf.c1 * lp)
  let c := line (pf.c2 * lp * lp)
  let ax := deadTerm g db xf.c0 xf.den 4
  let bx := deadTerm g db (xf.c1 * lp) xf.den 4
  -- ΔT = −g·α over 16 · 256 · den ticks
  let dt := -(g * a)
  let dd := 4096 * pf.den
  let n := roundDiv (dt * 65536) (dd * tl)
  let ph := roundDiv ((dt * 65536 - n * tl * dd) * s.frefInc k) (dd * 2 ^ 40)
  let zone := fun z =>
    let uz := s.c2 k z - lp
    Int.neg (roundDiv (g * (b * uz * lp + c * uz * uz) * 65536) (dd * lp * lp * tl))
  (roundDiv dt dd, ph :: -roundDiv (g * ax) (16 * xf.den) :: -roundDiv (g * bx * 1000000) (16 * xf.den * 32 * lp) ::
    (List.range 64).map zone)

/-! ### The service (R136) -/

/-- Add to a signed field's staged value, clamped to its range with REG_LIMIT (R135). -/
def State.addClamp (f : Fld) (signed staged : Bool) (d : Int) (s : State) : State :=
  let now : Int := if staged then (if signed then s.stgRdS f else s.stgRd f) else (if signed then s.rdS f else s.rd f)
  let lo : Int := if signed then -(2 ^ (f.width - 1) : Nat) else 0
  let hi : Int := if signed then (2 ^ (f.width - 1) : Nat) - 1 else (2 ^ f.width : Nat) - 1
  let v := now + d
  let w := clampInt lo hi v
  let s1 := if staged then s.stgWr f (ofSigned f.width w) else s.wr f (ofSigned f.width w)
  s1.ifDo (v != w) (·.raise 70 regPage 2)

/-- Step 3 for one station. -/
def State.correctStation (x : Nat × List Int) (s : State) : State :=
  let k := Fin.ofNat 6 x.1
  let d := fun n => x.2.getD n 0
  let s1 := s.addClamp (F.BT_PHASE_PH_TRIM k.val) true false (d 0)
  let s2 := (s1.addClamp (F.BT_LS_DELAY_DELAY k.val) false true (d 1)).addClamp (F.BT_MAG_PPM k.val) true true (d 2)
  let s3 := s2.each (List.range 64) fun z t => t.addClamp (F.IM_DOFFS_D k.val (z / 4) (z % 4)) true true (d (3 + z))
  (s3.commitBound k 0).commitBound k 2

/-- The next step of R136 that can be taken: trims and their COMMIT; after the feed gate, the rest; after marks printed with
the set have been read, a new set.  With GAIN = 0 the service only measures. -/
def execRegistrationCorrection (s : State) : Result :=
  let r := s.sta.reg
  if (s.holder 5).isNone then .next s
  else if r.phase = 1 then
    if s.rd (H.SEQ ptPage) = r.seq || r.todo.any (fun x => s.staged (btPage x.1) || s.staged (imPage x.1)) then .next s
    else
      let s1 := s.each r.todo fun x t => t.correctStation x
      .next (s1.modReg fun q => { q with phase := 2, todo := [], setAt := s.time, printed := false })
  else if s.rd F.REG_CFG_GAIN = 0 ∨ s.rd F.REG_STAT_SETS = r.used ∨ (r.phase = 2 ∧ r.printed = false) ∨ s.staged ptPage = true then
    .next s
  else
    let all := r.set_.map fun k => (k, s.corrections k)
    let s1 := s.each all fun x t => t.addClamp (F.PT_STN_TRIM_TICKS x.1) true true x.2.1
    .next (s1.ptCommit.modReg fun q => { q with
      phase := 1, used := s.rd F.REG_STAT_SETS, seq := s.rd (H.SEQ ptPage), todo := all.map fun x => (x.1, x.2.2) })

end Sys2Proof.Machine
end

