-- ==== Sys2Proof/Machine/RegBus.lean ====
section
/-!
DEFINITION. Writes through the register pages: the common header, the offsets whose write is a command of its own, and every
other field (R8–R16, R436, R500–R507).
-/
namespace Sys2Proof.Machine

/-- The state a meaning answers. -/
def after (r : Result) (s : State) : State :=
  match r with
  | .next t => t
  | _ => s

/-- The commands of a command word, in bit order. -/
def State.cmdBits (v : Nat) (l : List (Nat × (State → Result))) (s : State) : State :=
  s.each (l.filter fun x => bit v x.1) fun x t => after (x.2 t) t

/-! ### COMMIT (R13, R14 and the refusals of the chapters) -/

/-- R76: the staged beam-timing set. -/
def State.btRefuses (s : State) (k : Nat) : Bool :=
  let w := s.stgRd (F.BT_LINE_ZONE_W k)
  let n := s.stgRd (F.BT_LINE_LINE_PX k)
  let o := fun f => 64 * s.stgRdS (F.FACET_OFFS_COARSE k f) + (s.stgRd (F.FACET_OFFS_FINE k f) : Int)
  let least := ((List.range (s.facets k)).map o).min?.getD 0
  !(63 * w < n && n ≤ 64 * w) ||
    decide ((s.stgRd (F.BT_LS_DELAY_DELAY k) : Int) + least < 64 * (s.stgRd (F.BT_BD_WIN_PX k) : Int) + 4096)

/-- Areas, as start and length, that overlap no other and end inside 8 MiB. -/
def apart : List (Nat × Nat) → Bool
  | [] => true
  | (a, n) :: r => decide (a + n ≤ 0x800000) && (r.all fun (b : Nat × Nat) => decide (a + n ≤ b.1) || decide (b.1 + b.2 ≤ a) || n == 0 || b.2 == 0) &&
      apart r

/-- R127: the staged imaging set; the ring is as long as its lines at the present stride. -/
def State.imRefuses (s : State) (k : Fin 6) : Bool :=
  s.stgRd (F.IM_CFG_FMT k.val) == 3 ||
  !apart [(s.stgRd (F.IM_TBASE_LUT_OFFS k.val), 0x2000), (s.stgRd (F.IM_TBASE_SCR_OFFS k.val), 0x80000),
    (s.stgRd (F.IM_TBASE_RAMP_OFFS k.val), 0x800),
    (s.rd (F.IM_RING_BASE k.val) * 0x10000, s.rd (F.IM_RING_LINES k.val) * (s.ring k).stride)] ||
  (List.range 4).any fun t => decide (or256 (s.stgRd (F.IM_SCR_W k.val t)) ≤ s.stgRd (F.IM_SCR_XSHIFT k.val t))

/-- R131: the staged marks. -/
def State.regRefuses (s : State) : Bool :=
  let d := s.stgRd F.REG_MARK2_DIAG
  let w := s.stgRd F.REG_MARK2_HALF + s.stgRd F.REG_MARK_BAR + 16
  decide (d < w) || decide (s.stgRd F.REG_MARK_PITCH < d + w)

/-- R314: the staged move set. -/
def State.stpRefuses (s : State) (n : Nat) : Bool :=
  s.stgRd (F.STP_ACC_A n) == 0 || s.stgRd (F.STP_DEC_D n) == 0 || decide (85899345 < s.stgRd (F.STP_VMAX_V n)) ||
    s.stgRd (F.STP_MODE_MODE n) == 3 || decide (s.rd (F.STP_CFG_MSTEP n) < s.rd (F.STP_CFG_CRATIO n))

/-- The second case of R342: a target against the present direction, at REV_THRESH or faster. -/
def State.reverses (s : State) (n : Nat) : Bool :=
  let v := s.rdS (F.CM_SPEED_SPEED n)
  let t := s.stgRdS (F.CM_TARGET_SPEED n)
  decide (v * t < 0) && decide (s.rd (F.CM_REV_REV_THRESH n) * s.rd (F.CM_REV_RATED n) ≤ v.natAbs)

/-- R342: the staged set of a commutation channel. -/
def State.cmRefuses (s : State) (n : Nat) : Bool :=
  s.stgRd (F.CM_RAMP_ACC n) == 0 || s.stgRd (F.CM_RAMP_DEC n) == 0 || s.reverses n

/-- R289: the staged timing of an Edkar port. -/
def State.edRefuses (s : State) (p : Nat) : Bool :=
  decide (1480 < 94 + 15 * (s.stgRd (F.ED_TIMING_TA p) + s.stgRd (F.ED_TIMING_WIN p)))

/-- Is the staged set of a page refused? -/
def State.commitRefused (s : State) (p : Nat) : Bool :=
  match blockOf p with
  | some .beam => s.btRefuses (p - 0x020)
  | some .interlace => s.ilRefuses (p - 0x028)
  | some .imaging => s.imRefuses (Fin.ofNat 6 (p - 0x030))
  | some .registration => s.regRefuses
  | some .stepper => s.stpRefuses (p - 0x090)
  | some .commutation => s.cmRefuses (p - 0x0B0)
  | some .edkar => s.edRefuses (p - 0x0D8)
  | _ => false

/-- Has the page staged fields? -/
def hasStaged (p : Nat) : Bool :=
  match blockOf p with
  | some b => b.rows.any fun r => r.cls == .staged
  | none => false

/-- Without a run, pages 0x041 and 0x0A8 have no boundary, and a set applies at the write of COMMIT (R59, R332). -/
def State.commitNow (s : State) (p : Nat) : Bool := (p == ptPage || p == 0x0A8) && s.rd (H.STATE ptPage) != 1

/-- The set of page 0x041 or 0x0A8 applies where no run gives a boundary. -/
def State.applyNow (p : Nat) (s : State) : State :=
  if p = ptPage then s.ptBoundary else (s.boundary p).follow p 0x040

/-- A committed set waits for its boundary, or is bound to a page (R13, R84, R126). -/
def State.commitPend (p : Nat) (s : State) : State :=
  match blockOf p with
  | some .beam => s.commitBound (Fin.ofNat 6 (p - 0x020)) 0
  | some .interlace => s.commitBound (Fin.ofNat 6 (p - 0x028)) 1
  | some .imaging => s.commitBound (Fin.ofNat 6 (p - 0x030)) 2
  | _ =>
    let s1 := s.wr (H.PEND p) 1
    if s1.commitNow p then s1.applyNow p else s1.mark p 58

/-- A write of 1 to PG_CTRL.COMMIT. -/
def State.commit (p : Nat) (s : State) : State :=
  if !hasStaged p || s.staged p then s
  else
    let motor := decide (0x0B0 ≤ p) && decide (p ≤ 0x0BB)
    let back := motor && s.reverses (p - 0x0B0)
    let s1 := s.ifDo motor (·.flag (F.CM_STAT_REV_REFUSED (p - 0x0B0)) back)
    if s.commitRefused p then (s1.mismatch p).ifDo back (·.event p 3) else s1.commitPend p

/-! ### The other bits of PG_CTRL -/

/-- PG_CTRL.ABORT: the encode lanes and the DMA channels give it an effect (R183, R236). -/
def State.pageAbort (a : Agent) (p : Nat) (s : State) : State :=
  if 0x051 ≤ p ∧ p ≤ 0x052 then after (execEncodeAbort a (Fin.ofNat 2 (p - 0x051)) false s) s
  else if 0x061 ≤ p ∧ p ≤ 0x080 then after (execDmaAbort a (Fin.ofNat 32 (p - 0x061)) s) s
  else s

/-- A write of 1 to PG_CTRL.ISOLATE (R436). -/
def State.isolateWrite (p : Nat) (s : State) : State := (s.isolate p).hwReact

/-- A block restored from isolation starts again: an enabled Edkar port with SYNC, a set of page 0x041 or 0x0A8 that waited
takes effect where there is no run (R436, Table 20.3). -/
def State.restart (p : Nat) (s : State) : State :=
  let s1 := s.blockRestore p
  let s2 := if 0x0D8 ≤ p ∧ p ≤ 0x0D9 then s1.ifDo (s1.on (F.ED_CFG_PORT_EN (p - 0x0D8))) (·.portStart (Fin.ofNat 2 (p - 0x0D8))) else s1
  s2.ifDo (s2.staged p && s2.commitNow p) (·.applyNow p)

/-- A write of 0 to PG_CTRL.ISOLATE: refused while a source of the page is active (R436). -/
def State.isolateEnd (p : Nat) (s : State) : State :=
  if !s.on (H.ISOLATED p) then s.wr (H.ISOLATE p) 0
  else if s.pageActive p then s
  else ((s.wr (H.ISOLATE p) 0).wr (H.ISOLATED p) 0).restart p

/-- PG_CTRL.OWNER, for the holder of role 0x0: of a DMA channel only in IDLE and HALTED (R503). -/
def State.ownerWrite (p : Nat) (host : Bool) (s : State) : State :=
  if 0x061 ≤ p ∧ p ≤ 0x080 ∧ s.rd (H.STATE p) ≠ dcIdle ∧ s.rd (H.STATE p) ≠ dcHalted then s.accessBusy p
  else s.flag (H.OWNER p) host

/-- Does the agent hold role 0x0 and run? -/
def State.supervisor (s : State) (a : Agent) : Bool :=
  match a with
  | .berth n => s.role n == 0 && berthRuns (s.rd (H.STATE (0x008 + n.val)))
  | _ => false

/-- PG_CTRL.ENABLE: page 0x0D0 starts and stops its rings; elsewhere the bit only reads back (R256, R501). -/
def State.enableWrite (a : Agent) (p : Nat) (on : Bool) (s : State) : State :=
  if p = 0x0D0 then (if on = s.on (H.ENABLE p) then s else after (execRingsEnable a on s) s) else s.flag (H.ENABLE p) on

/-- PG_CTRL of a page the agent may write: its bits take effect in the order of the register, LOCK last. -/
def State.ctrlBits (a : Agent) (p v : Nat) (s : State) : State :=
  let s1 := (s.enableWrite a p (bit v 0)).ifDo (bit v 1) (·.commit p)
  let s2 := s1.ifDo (bit v 2) (·.pageAbort a p)
  let s3 := if bit v 3 = s2.on (H.ISOLATE p) then s2 else if bit v 3 then s2.isolateWrite p else s2.isolateEnd p
  let s4 := if bit v 5 = s.on (H.OWNER p) then s3 else if s.supervisor a then s3.ownerWrite p (bit v 5) else s3.countDenied a p 0x004
  s4.ifDo (bit v 4) (·.wr (H.LOCK p) 1)

/-- A write of PG_CTRL.  In SAFE only ENABLE of page 0x0D0 is open (R435); OWNER is open to role 0x0 on any page (R503). -/
def State.ctrlWrite (a : Agent) (p v : Nat) (s : State) : State :=
  let s := s.wake a
  if s.absentPage p then s
  else if s.on (H.LOCK p) then s.countDenied a p 0x004
  else if s.isSafe then
    if p = 0x0D0 ∧ s.mayWrite a p 0x004 = true then s.enableWrite a p (bit v 0) else s.countDenied a p 0x004
  else if s.mayWrite a p 0x004 then s.ctrlBits a p v
  else if s.supervisor a && bit v 5 != s.on (H.OWNER p) then s.ownerWrite p (bit v 5)
  else s.countDenied a p 0x004

/-! ### The rest of the header -/

/-- Clear event bits, but those set in this tick and TEMP_WARN while it is active (R507, R508). -/
def State.evtClear (p mask : Nat) (s : State) : State :=
  let gone := (List.range 32).foldl (fun w i =>
    if bit mask i && !s.isFresh p i && !(p == 0 && i == 1 && s.fc.tempWarn) then w + 2 ^ i else w) 0
  s.wr (H.EVT p) (s.rd (H.EVT p) &&& (2 ^ 32 - 1 - gone))

/-- Clear fault bits whose condition is not active, and what an accepted clear sets off: the end of a cut, and the brake
chopper's marks on its group's channels (R109, R352, R506). -/
def State.faultClear (p mask : Nat) (s : State) : State :=
  let m := s.clearable p mask
  let s1 := s.fltClear p m
  if 0x028 ≤ p ∧ p ≤ 0x02D then s1.ifDo (bit m 5) (·.quenchTry (Fin.ofNat 6 (p - 0x028)))
  else if p = 0x0BC then
    s1.each ((List.finRange 2).filter fun (g : Fin 2) => bit m (8 * g.val)) fun (g : Fin 2) t =>
      t.each (t.groupOf g) fun n u => (u.wr (F.CM_STAT_REGEN_OFF n) 0).wr (F.CM_STAT_STRETCH n) 0
  else s1

/-- Clear CFG_MISMATCH and ACCESS_BUSY, but where a cause came in this tick (R504, Table 20.3). -/
def State.statClear (p : Nat) (mismatch busy : Bool) (s : State) : State :=
  (s.ifDo (mismatch && !s.isFresh p 56) (·.wr (H.MISMATCH p) 0)).ifDo (busy && !s.isFresh p 57) (·.wr (H.ACCESS_BUSY p) 0)

/-- A write to the common header (Table 20.2). -/
def State.headerWrite (a : Agent) (p off v : Nat) (s : State) : State :=
  match off with
  | 0x004 => s.ctrlWrite a p v
  | 0x008 => s.write a p off (·.statClear p (bit v 6) (bit v 7))
  | 0x00C => s.guarded a p off false true true (·.evtClear p v)
  | 0x010 => s.write a p off (·.wr (H.EVT_EN p) v)
  | 0x014 => s.guarded a p off false true true (·.faultClear p v)
  | 0x018 => s.write a p off (·.wr (H.FLT_EN p) v)
  | _ => s.write a p off id

/-! ### Offsets with commands of their own -/

/-- Fields of a word, and what follows a change of them. -/
def State.plain (p off v : Nat) (s : State) : State :=
  let t := s.fieldsWrite p off v
  if t.regs = s.regs then t else t.follow p off

/-- Pages 0x001–0x005. -/
def State.writeDevice (a : Agent) (p off v : Nat) (s : State) : State :=
  let cmds := fun l => s.write a p off (·.cmdBits v l)
  match p, off with
  | 0x001, 0x044 => cmds [(31, execFirstClr a)]
  | 0x001, 0x054 => if bit v 8 then after (execAssayGo a (v % 256) s) s else s.write a p off (·.plain p off v)
  | 0x002, 0x04C => cmds [(0, execBeat a), (1, execHarbourmasterResync a)]
  | 0x003, 0x044 => cmds [(0, execDown a), (1, execRetry a), (2, execAvsRetry a)]
  | 0x004, 0x06C => cmds [(0, execRelock a)]
  | 0x005, 0x04C => after (execTbAlarmWrite a (v % 2 ^ 32 * 2 ^ 32 + s.rd F.TB_ALARM_LO) s) s
  | 0x005, 0x050 => after (execArm a (bit v 0) s) s
  | _, _ =>
    if p = 0x001 ∧ 0x080 ≤ off ∧ off < 0x0A0 then after (execUnackClear a (Fin.ofNat 8 ((off - 0x080) / 4)) v s) s
    else if p = 0x001 ∧ 0x0A0 ≤ off ∧ off < 0x0C0 then after (execStickyClear a (Fin.ofNat 8 ((off - 0x0A0) / 4)) v s) s
    else if p = 0x004 ∧ 0x040 ≤ off ∧ off < 0x058 then
      let n : Fin 3 := Fin.ofNat 3 ((off - 0x040) / 8)
      if off % 8 = 0 then after (execCkPllWrite a n v s) s else after (execCkFracWrite a n v s) s
    else s.write a p off (·.plain p off v)

/-- Pages 0x020–0x059 and 0x05A. -/
def State.writeImaging (a : Agent) (p off v : Nat) (s : State) : State :=
  let k : Fin 6 := Fin.ofNat 6 (p % 8)
  let rest := s.write a p off (·.plain p off v)
  if p = 0x020 ∧ (off = 0x200 ∨ off = 0x204) then after (execFrefIncWrite a (Fin.ofNat 2 ((off - 0x200) / 4)) v s) s
  else if 0x028 ≤ p ∧ p ≤ 0x02D then
    if off = 0x04C ∨ off = 0x050 then after (execIlDeadWrite a k (off == 0x050) v s) s
    else if off = 0x058 then after (execIlTestNow a k v s) s
    else rest
  else if 0x038 ≤ p ∧ p ≤ 0x03D ∧ off = 0x040 then after (execRetrain a k v s) s
  else if 0x051 ≤ p ∧ p ≤ 0x052 ∧ off = 0x060 ∧ bit v 31 = true then after (execGo a (Fin.ofNat 2 (p - 0x051)) v s) s
  else if p = 0x058 ∧ off = 0x040 then
    s.write a p off fun t => (t.plain p off v).ifDo (bits v 4 2 != 0) fun u => after (execDramRetrain a (bits v 4 2) u) u
  else if p = 0x05A ∧ off = 0x044 ∧ bit v 31 = true then after (execSealGo a (bits v 0 14) (bits v 16 12) s) s
  else if p = ptPage ∧ off = 0x09C then after (execPtSkip a (v % 256) s) s
  else if p = ptPage ∧ off = 0x040 ∧ s.on (H.OWNER p) = false ∧ a ≠ .host ∧ a ≠ .window then rest
  else if p = ptPage ∧ off = 0x040 ∧ s.on (H.OWNER p) = false then
    s.guarded a p off true false false (·.wr F.PT_CFG_FEED_EN v)
  else rest

/-- Pages 0x060–0x080. -/
def State.writeDma (a : Agent) (p off v : Nat) (s : State) : State :=
  let ch : Fin 32 := Fin.ofNat 32 (p - 0x061)
  if p = 0x060 ∧ 0x080 ≤ off ∧ off < 0x180 then
    after (execWindowRevoke a (Fin.ofNat 16 ((off - 0x080) / 16)) (Fin.ofNat 4 ((off - 0x080) / 4)) v s) s
  else
    match off with
    | 0x048 => if p = 0x060 then s.write a p off id else after (execDcHeadWrite a ch false v s) s
    | 0x04C => if p = 0x060 then s.write a p off id else after (execDcHeadWrite a ch true v s) s
    | 0x058 => s.write a p off (·.cmdBits (if p = 0x060 then 0 else v) [(0, execDoorbell a ch)])
    | 0x05C => s.write a p off (·.cmdBits (if p = 0x060 then 0 else v) [(0, execPause a ch), (1, execResume a ch), (2, execClear a ch)])
    | _ => s.write a p off (·.plain p off v)

/-- Pages 0x090–0x0BC. -/
def State.writeMotion (a : Agent) (p off v : Nat) (s : State) : State :=
  let cmds := fun l => s.write a p off (·.cmdBits v l)
  if 0x090 ≤ p ∧ p ≤ 0x09F ∧ off = 0x070 then cmds [(0, execHome a (Fin.ofNat 16 (p - 0x090))), (1, execEstop a (Fin.ofNat 16 (p - 0x090)))]
  else if 0x0A0 ≤ p ∧ p ≤ 0x0A7 ∧ off = 0x064 then cmds [(0, execResync a (Fin.ofNat 8 (p - 0x0A0)))]
  else if p = 0x0A8 ∧ off = 0x0D8 then cmds [(31, execDeclare a (v % 16))]
  else if 0x0B0 ≤ p ∧ p ≤ 0x0BB ∧ off = 0x074 then
    let n : Fin 12 := Fin.ofNat 12 (p - 0x0B0)
    cmds [(0, execStart a n), (1, execStop a n), (2, execCoast a n), (3, execKeProbe (some a) n)]
  else if 0x0B0 ≤ p ∧ p ≤ 0x0BB ∧ off = 0x070 then
    -- R374: writable in any state while the engine it names is isolated
    s.write a p off fun t =>
      let n := p - 0x0B0
      if t.on (H.ISOLATED (lePage (Fin.ofNat 4 (t.rd (F.CM_LOOP_ENGINE n))))) then
        (t.wr (F.CM_LOOP_ENGINE n) v).wr (F.CM_LOOP_SLOT n) (v / 4)
      else t.plain p off v
  else if p = 0x0BC ∧ (off = 0x05C ∨ off = 0x07C) then
    let g : Fin 2 := Fin.ofNat 2 ((off - 0x05C) / 32)
    cmds [(0, execTest a g), (1, execResetTrip a g)]
  else s.write a p off (·.plain p off v)

/-- Entries of ADC_SEQ that a write may change: not the reference entry, nor entries 0–3 of converter 3 (Table 14.9). -/
def adcFree (off : Nat) : Bool :=
  let c := (off - 0x100) / 0x50
  let k := (off - 0x100) % 0x50 / 4
  !(k == 19 || (c == 3 && decide (k < 4)))

/-- Pages 0x0C0–0x0C5. -/
def State.writeLoops (a : Agent) (p off v : Nat) (s : State) : State :=
  let rest := s.write a p off (·.plain p off v)
  if p ≤ 0x0C3 ∧ 0x100 ≤ off ∧ off < 0xD00 then
    let e : Fin 4 := Fin.ofNat 4 (p - 0x0C0)
    let i : Fin 32 := Fin.ofNat 32 ((off - 0x100) / 0x60)
    match (off - 0x100) % 0x60 with
    | 0x14 => after (execSlModeWrite a e i v s) s
    | 0x08 => s.write a p off fun t =>
        if t.slState e i = slOff ∧ t.drivenElsewhere e i (bits v 0 2) (bits v 8 7) = true then t.mismatch p else t.plain p off v
    | _ => rest
  else if p = 0x0C4 ∧ 0x100 ≤ off ∧ off < 0x240 ∧ adcFree off = false then s.write a p off id
  else if p = 0x0C5 ∧ 0x100 ≤ off ∧ off < 0x700 ∧ off % 16 = 0x0C then
    s.write a p off fun t =>
      let n : Fin 96 := Fin.ofNat 96 ((off - 0x100) / 16)
      if t.drivenElsewhere 0 0 1 n.val || (t.rd (F.SL_OUT_DST 0 0) == 1 && t.rd (F.SL_OUT_NUM 0 0) == n.val) then t.accessBusy p
      else { t with ct := { t.ct with duties := t.ct.duties.set n (v % 65536) } }
  else rest

/-- Pages 0x0D0–0x0F0.  In SAFE the ring registers, QY_IRQ and the MSI-X table stay open (R435). -/
def State.writeHost (a : Agent) (p off v : Nat) (s : State) : State :=
  let cmds := fun l => s.write a p off (·.cmdBits v l)
  let rest := s.write a p off (·.plain p off v)
  if p = 0x0D0 then
    if off = 0x04C then after (execSqTailWrite a (v % 4096) s) s
    else if off = 0x050 then after (execCqHeadWrite a (v % 4096) s) s
    else if off = 0x040 ∨ off = 0x044 ∨ off = 0x048 ∨ off = 0x06C ∨ (0x800 ≤ off ∧ off < 0xC00) then
      s.guarded a p off false false true (·.plain p off v)
    else rest
  else if p = 0x0D8 ∨ p = 0x0D9 then
    let e : Fin 2 := Fin.ofNat 2 (p - 0x0D8)
    if off = 0x040 then
      s.write a p off fun t =>
        let u := t.plain p off v
        u.ifDo (t.on (F.ED_CFG_PORT_EN e) && !bit v 0) fun w => after (execPortStop a e w) w
    else if 0x084 ≤ off ∧ off ≤ 0x0FC ∧ off % 8 = 4 then cmds [(31, execModuleClear a e (Fin.ofNat 16 ((off - 0x084) / 8)))]
    else rest
  else if p = 0x0F0 ∧ off = 0x05C then
    cmds [(0, execStage a), (1, execUpdate a), (2, execAccept a), (3, execAbort a), (4, execTryBoot a)]
  else if p = 0x0F0 ∧ off = 0x064 then
    s.write a p off fun t => (t.plain p off v).cmdBits v
      [(4, execWrite a), (5, execSelect a), (6, execKeyWrite a), (7, execKeyLock a), (8, execKeyErase a)]
  else rest

/-- A write of an aligned word to an offset of a register page. -/
def State.busWrite (a : Agent) (p off v : Nat) (s : State) : State :=
  if off < 0x040 then s.headerWrite a p off v
  else if p < 0x008 then s.writeDevice a p off v
  else if 0x020 ≤ p ∧ p ≤ 0x05A then s.writeImaging a p off v
  else if 0x060 ≤ p ∧ p ≤ 0x080 then s.writeDma a p off v
  else if 0x090 ≤ p ∧ p ≤ 0x0BC then s.writeMotion a p off v
  else if 0x0C0 ≤ p ∧ p ≤ 0x0C5 then s.writeLoops a p off v
  else if 0x0D0 ≤ p ∧ p ≤ 0x0F0 then s.writeHost a p off v
  else s.write a p off (·.plain p off v)

/-- An access that is not an aligned 32-bit word, or beyond the register pages (R8, R22, Table 10.3). -/
def State.accessError (a : Agent) (p off : Nat) (s : State) : State :=
  match a with
  | .berth n => s.busError (.berth n false) (0x04000000 + p * 0x1000 + off)
  | _ => (s.sat F.DV_CNT_ACCESS).aer (if p < 0x1000 then 0 else 1) (if p < 0x1000 then .completerAbort else .unsupportedRequest)

/-! ### The commands -/

/-- A write of `size` bytes at byte offset `off` of a page (R8–R16, R22, R23). -/
def execRegisterWrite (agent : Agent) (page off value size : Nat) (s : State) : Result :=
  let p := page + off / 0x1000
  let o := off % 0x1000
  if size ≠ 4 ∨ o % 4 ≠ 0 ∨ 0x1000 ≤ p then .next (s.accessError agent p o)
  else .next (s.busWrite agent p o (value % 2 ^ 32))

/-- PG_CTRL.COMMIT. -/
def execCommit (agent : Agent) (page : Nat) (s : State) : Result := .next (s.write agent page 0x004 (·.commit page))

/-- PG_CTRL.LOCK (R11). -/
def execLock (agent : Agent) (page : Nat) (s : State) : Result := .next (s.write agent page 0x004 (·.wr (H.LOCK page) 1))

/-- PG_CTRL.ISOLATE = 1 (R436). -/
def execIsolate (agent : Agent) (page : Nat) (s : State) : Result := .next (s.write agent page 0x004 (·.isolateWrite page))

/-- PG_CTRL.ISOLATE = 0 (R436). -/
def execIsolateRestore (agent : Agent) (page : Nat) (s : State) : Result := .next (s.write agent page 0x004 (·.isolateEnd page))

/-- PG_CTRL.OWNER (R503). -/
def execOwnerChange (agent : Agent) (page : Nat) (host : Bool) (s : State) : Result :=
  .next (s.guarded agent page 0x004 true false false fun t =>
    if t.supervisor agent then t.ownerWrite page host else t.countDenied agent page 0x004)

/-- PG_CTRL.ABORT (R501). -/
def execPageAbort (agent : Agent) (page : Nat) (s : State) : Result := .next (s.write agent page 0x004 (·.pageAbort agent page))

/-- PG_EVT (R11, R507). -/
def execPgEvtClear (agent : Agent) (page mask : Nat) (s : State) : Result := .next (s.headerWrite agent page 0x00C mask)

/-- PG_FLT (R11, R506, R507). -/
def execPgFltClear (agent : Agent) (page mask : Nat) (s : State) : Result := .next (s.headerWrite agent page 0x014 mask)

/-- PG_STAT (R504). -/
def execStatusFlagClear (agent : Agent) (page : Nat) (mismatch accessBusy : Bool) (s : State) : Result :=
  .next (s.write agent page 0x008 (·.statClear page mismatch accessBusy))

end Sys2Proof.Machine
end

