-- ==== Sys2Proof/Machine/RegRead.lean ====
section
/-!
DEFINITION. What a read of a word of a register page returns (R9, R12, R501 and the read columns of the register tables).
-/
namespace Sys2Proof.Machine

/-- Low words whose read holds the high word at the next offset ("read LO first, HI held from that read"). -/
def holdsHi (p off : Nat) : Bool :=
  match blockOf p with
  | some .timeline => off == 0x0B0
  | some .beam => off == 0x078
  | some .headLink => off == 0x060
  | some .dmaChannel => off == 0x050
  | some .encoder => off == 0x050
  | some .faultCollector => off == 0x048
  | some .berth => off == 0x048
  | some .device => off == 0x044
  | some .timebase => off == 0x040
  | _ => false

/-- The word of the fields a table gives an offset: write-only bits read 0, staged fields read their staging copies (R13). -/
def State.tableWord (s : State) (p off : Nat) : Nat :=
  (rowsAt p off).foldl (fun w r =>
    let f := r.fld p off
    w + (if r.acc = .wo then 0 else if r.cls = .staged then s.stgRd f else s.rd f) * 2 ^ r.lsb) 0

/-- The words of the common header (Table 20.2). -/
def State.headerWord (s : State) (p off : Nat) : Nat :=
  match off with
  | 0x000 => ((dirEntry p).map fun e => pgId e p).getD 0
  | 0x004 => s.rd (H.ENABLE p) + 8 * s.rd (H.ISOLATE p) + 16 * s.rd (H.LOCK p) + 32 * s.rd (H.OWNER p)
  | 0x008 => s.rd (H.STATE p) + 16 * b2n (s.pageBusy p) + 32 * s.rd (H.PEND p) + 64 * s.rd (H.MISMATCH p) +
      128 * s.rd (H.ACCESS_BUSY p) + 256 * s.rd (H.ISOLATED p)
  | 0x00C => s.rd (H.EVT p)
  | 0x010 => s.rd (H.EVT_EN p)
  | 0x014 => s.rd (H.FLT p) + 2 ^ 24 * s.rd (H.FIRST p)
  | 0x018 => s.rd (H.FLT_EN p)
  | 0x01C => s.rd (H.SEQ p)
  | _ => 0

/-- DV_EVT_SUM[w]: host-owned pages with an enabled event set. -/
def State.evtSum (s : State) (w : Nat) : Nat :=
  (List.range 32).foldl (fun v b =>
    let p := 32 * w + b
    if s.on (H.OWNER p) && (s.rd (H.EVT p) &&& s.rd (H.EVT_EN p)) != 0 then v + 2 ^ b else v) 0

/-- FC_STATE.MERGE: the classes whose window is open; every one before the collector runs. -/
def State.mergeMask (s : State) : Nat :=
  if s.dev = stBoot ∨ s.dev = stFill ∨ s.dev = stOff then s.rd F.FC_STATE_MERGE
  else (List.finRange 16).foldl (fun v c => if (s.fc.merges[c]).isSome then v + 2 ^ c.val else v) 0

/-- Words that show something else than a stored field. -/
def State.liveWord (s : State) (p off : Nat) : Option Nat :=
  if p = 0x000 ∧ 0x080 ≤ off ∧ off < 0x0A0 then some (s.evtSum ((off - 0x080) / 4))
  else if p = 0x001 ∧ off = 0x050 then some (s.mergeMask + 2 ^ 16 * b2n s.isSafe)
  else if p = 0x001 ∧ 0x0C0 ≤ off ∧ off < 0x0E0 then
    some ((List.range 32).foldl (fun v b => if s.srcActive (8 * (off - 0x0C0) + b) then v + 2 ^ b else v) 0)
  else if p = 0x001 ∧ (off = 0x404 ∨ off = 0x7E4) then some (s.tableWord p off / 8 * 8 + 7)
  else if p = 0x004 ∧ off = 0x050 then some (s.tableWord p off / 2 ^ 17 * 2 ^ 17 + 2 ^ 16 + s.tableWord p off % 2 ^ 16)
  else if p = 0x005 ∧ off = 0x040 then some (s.time % 2 ^ 32)
  else if p = 0x005 ∧ off = 0x044 then some (s.time / 2 ^ 32 % 2 ^ 32)
  else if 0x0C0 ≤ p ∧ p ≤ 0x0C3 ∧ 0x100 ≤ off ∧ off < 0xD00 ∧ (off - 0x100) % 0x60 = 0x5C then
    let e : Fin 4 := Fin.ofNat 4 (p - 0x0C0)
    let i : Fin 32 := Fin.ofNat 32 ((off - 0x100) / 0x60)
    let w := s.tableWord p off
    some (if (s.forcedBy e i).isSome && !s.on (F.SL_STAT_FORCED e i) then w + 16 else w)
  else if p = 0x0C5 ∧ 0x100 ≤ off ∧ off < 0x700 ∧ off % 16 = 0x0C then
    let n := (off - 0x100) / 16
    some (s.rd (F.PWM_DUTY_DUTY n) + 2 ^ 16 * b2n (allSlots.any fun q => s.rd (F.SL_OUT_DST q.1 q.2) == 1 && s.rd (F.SL_OUT_NUM q.1 q.2) == n))
  else if p = 0x0E0 ∧ off = 0x040 then
    some (b2n s.ze40 + 2 * b2n s.lg.open_ + 2 ^ 8 * s.lg.wfifo.length + 2 ^ 16 * s.lg.raster.length)
  else if p = 0x0F0 ∧ 0x080 ≤ off ∧ off < 0x0C0 then
    some (s.ld (0x05000000 + 64 * s.rd F.MR_WIN_OFFS + (off - 0x080)) 4)
  else none

/-- The word at an aligned offset as it stands now. -/
def State.wordNow (s : State) (p off : Nat) : Nat :=
  if s.absentPage p then 0 else if off < 0x040 then s.headerWord p off else (s.liveWord p off).getD (s.tableWord p off)

/-- A read of a word.  The levels at the legacy balls (LG_IN) are the world's: a free value (log 1). -/
def State.regRead (p off : Nat) (s : State) : Nat × State :=
  let key := p * 4096 + off
  if p = 0x0E0 ∧ off = 0x054 then (s.freeVal (2 ^ 32), s.freeNext)
  else if p = 0x0E0 ∧ off = 0x058 then (s.freeVal 2, s.freeNext)
  else if holdsHi p off then
    (s.wordNow p off, { s with hold := Sparse.ins (key + 4) (s.wordNow p (off + 4)) (Sparse.del (key + 4) s.hold) })
  else (((Sparse.get? key s.hold).getD (s.wordNow p off)), s)

end Sys2Proof.Machine
end

