-- ==== Sys2Proof/Machine/LegacyMap.lean ====
section
/-!
DEFINITION. The ZE-40 emulation: the register image, and the native fields each ZE-40 register maps to (R479–R484, R487,
R490, R491, R496).
-/
namespace Sys2Proof.Machine

/-! ### The image -/

/-- The fields of a word address. -/
def zRows (a : Nat) : List Row := RegTable.zmap.filter fun r => r.hits (4 * a)

/-- The image field of a row at a word address. -/
def zFld (r : Row) (a : Nat) : Fld := r.fld 0x1000 (4 * a)

/-- The word of an image address (R479); write-only and reserved bits read 0. -/
def State.zWord (s : State) (a : Nat) : Nat :=
  (zRows a).foldl (fun w r => w + (if r.acc = .wo then 0 else s.rd (zFld r a)) * 2 ^ r.lsb) 0

/-- Does the ZE-40 field read back otherwise than written (Tables 19.5 and 19.6)? -/
def zPart (r : Row) (a v : Nat) : Nat := r.part (4 * a) v

/-- A bus write updates the image's rw fields at once (R480). -/
def State.zImage (a v : Nat) (s : State) : State :=
  s.each ((zRows a).filter (·.acc == .rw)) fun r t => t.wr (zFld r a) (zPart r a v)

/-- ZSTAT.STATE is PRINT. -/
def State.zPrinting (s : State) : Bool := s.rd F.ZSTAT_STATE == 3

/-- Is a field's write ignored now (class I, R481)? -/
def State.zIgnored (s : State) (r : Row) : Bool := r.cls == .idle && s.zPrinting

/-- The fields of an applied write take effect by class: live ones and idle-only ones outside PRINT are in force, station
fields wait for the next page, ignored ones return to the value in force and are counted, once a write (R481).  Beside fields
that may change, an idle-only field counts as ignored only if the write would change it (log 65). -/
def State.zFields (a v : Nat) (s : State) : State :=
  let rows := (zRows a).filter (·.acc == .rw)
  let alone := rows.all s.zIgnored
  let lost := rows.any fun r => s.zIgnored r && (alone || s.rd (zNow (zFld r a)) != zPart r a v)
  let s1 := s.each rows fun r t =>
    let f := zFld r a
    if s.zIgnored r then t.wr f (s.rd (zNow f))
    else if r.cls = .staged then
      (t.wr (zNext f) (zPart r a v)).modLg fun l => { l with dirty := if l.dirty.contains a then l.dirty else l.dirty ++ [a] }
    else t.wr (zNow f) (zPart r a v)
  s1.ifDo lost (·.sat F.LG_CNT_A_IGNORED)

/-! ### Native fields -/

/-- A quotient rounded to the nearest integer. -/
def rdiv (a b : Nat) : Nat := if b = 0 then Config.divByZero a else (2 * a + b) / (2 * b)

/-- The emulation commits staged fields of a page; beside a set that still waits for its boundary they join it (log 73). -/
def State.zCommit (p : Nat) (s : State) : State :=
  if s.on (H.LOCK p) || s.staged p then s else if p = ptPage then s.ptCommit else s.commit p

/-- Write a native live field, unless its page is locked (R11). -/
def State.zLive (f : Fld) (v : Nat) (s : State) : State := if s.on (H.LOCK f.page) then s else s.wr f v

/-- Write a native staged field. -/
def State.zStage (f : Fld) (v : Nat) (s : State) : State := if s.on (H.LOCK f.page) then s else s.stgWr f v

/-- The slots Config names for charge HV and developer bias, the slots that drive HV, and the fuser's (R371; log 72). -/
def zSlotOf (n : Nat) : Fin 4 × Fin 32 := (Fin.ofNat 4 (Config.zSlot n / 32), Fin.ofNat 32 (Config.zSlot n))
def State.gateSlots (s : State) (g : Nat) : List (Fin 4 × Fin 32) := allSlots.filter fun q => s.rd (F.SL_OUT_GATE q.1 q.2) == g

/-- AUTO, or MANUAL at 0. -/
def State.slotAuto (g : Nat) (on : Bool) (s : State) : State :=
  s.each ((s.gateSlots g).filter fun q => !s.on (H.LOCK (lePage q.1))) fun q t =>
    if on then t.modeWrite q.1 q.2 2 else (t.modeWrite q.1 q.2 1).wr (F.SL_MAN q.1 q.2) 0

def zDriveOf (d : Nat) : Fin 12 := Fin.ofNat 12 (Config.zDrive d)

/-- Start or stop a commutation channel. -/
def State.zMotor (n : Fin 12) (on : Bool) (s : State) : State :=
  if s.on (H.LOCK (cmPage n)) then s else if on then s.cmStartCmd n else s.cmStopCmd n

/-- A target speed in mrpm, in the motor's own direction (log 61). -/
def State.zTarget (n : Fin 12) (mrpm : Nat) (s : State) : State :=
  let v : Int := if s.rdS (F.CM_TARGET_SPEED n) < 0 then -(mrpm : Int) else mrpm
  (s.zStage (F.CM_TARGET_SPEED n) (ofSigned 32 v)).zCommit (cmPage n)

/-- The polygon of a station: its channel's target, or the reference's FREF_INC (R491). -/
def State.zPolygon (k : Fin 4) (s : State) : State :=
  let k6 : Fin 6 := k.castLE (by omega)
  let rpm := 2 * s.rd (zNow F.ZPOLY_RPM_RPM)
  let g : Fin 2 := Fin.ofNat 2 (s.rd (F.BT_CFG_GROUP k6))
  let inc := zFref rpm (s.rd (zNow F.ZPOLY_FACETS_FACETS))
  if s.extPoly k then (if s.rd (F.FREF_INC_INC g) = inc % 2 ^ 32 then s else s.setFref g inc)
  else s.zTarget (Fin.ofNat 12 (s.rd (F.BT_CFG_POLY_CH k6))) (rpm * 1000)

def State.zPolysStep (s : State) : State := s.each (List.finRange 4) fun (k : Fin 4) t => t.zRefStep k

/-- ZCTRL.RUN and ZMOT_CMD: drive d runs while both its bit and RUN are 1. -/
def State.zDrives (s : State) : State :=
  s.each (List.range 4) fun d t => t.zMotor (zDriveOf d) (t.on (zNow F.ZCTRL_RUN) && bit (t.rd (zNow F.ZMOT_CMD_RUN)) d)

/-- The station offsets in force, in ticks of the present speed (R44). -/
def State.zOffsets (ks : List Nat) (s : State) : State :=
  (s.each ks fun k t =>
    t.zStage (F.PT_STN_OFFS_TICKS k) (rdiv (t.rd (zNow (F.ZST_OFFS_DIST k)) * 100000 * 65536) (t.stgRd F.PT_SPEED_SPEED))).zCommit ptPage

/-- Beams of a station, and their number c (R487). -/
def zBeams (v : Nat) : List Nat := (List.range 2).filter fun i => bit v i

/-- The plan of a station's beams. -/
def State.zPlan (k : Nat) (s : State) : State :=
  let set_ := zBeams (s.rd (zNow (F.ZST_CTRL_BEAMS k)))
  if s.on (H.LOCK (ilPage k)) then s
  else
    let t := s.stageTables k (4 * set_.length) set_
    if t.staged (ilPage k) then t else if t.ilRefuses k then t.mismatch (ilPage k) else t.commitBound (Fin.ofNat 6 k) 1

/-- Laser-power steps of Table 19.10. -/
def zStep (power : Nat) : Nat := if 230 ≤ power then 0 else if 204 ≤ power then 1 else if 179 ≤ power then 2 else 3

/-- ΔT of a trim in quarter lines, as PT_STN_TRIM and PH_TRIM of Table 5.6. -/
def State.zTrims (s : State) (k : Fin 6) (trim : Int) : Int × Int :=
  let tl : Int := s.rd (F.BT_TLINE_TICKS k.val)
  let n := roundDiv trim 4
  (roundDiv (trim * tl) 262144, roundDiv ((trim * tl * 65536 - n * tl * 262144) * s.frefInc k) (262144 * 2 ^ 40))

/-- A field of the page-timeline set takes its value for the next page (R481). -/
def State.zPtField (x : Nat × Nat) (s : State) : State :=
  let k : Fin 6 := Fin.ofNat 6 ((x.1 - 0x10) / 8)
  if x.1 % 8 = 1 then
    s.zStage (F.PT_STN_OFFS_TICKS k.val) (rdiv (x.2 * 100000 * 65536) (s.stgRd F.PT_SPEED_SPEED))
  else s.zStage (F.PT_STN_TRIM_TICKS k.val) (ofSigned 24 (clampInt (-8388608) 8388607 (s.zTrims k (toSigned 16 x.2)).1))

/-- A field of a beam-timing page takes its value for the next page: LS_DELAY with the page's set, PH_TRIM at once. -/
def State.zBtField (x : Nat × Nat) (s : State) : State :=
  let k : Fin 6 := Fin.ofNat 6 ((x.1 - 0x10) / 8)
  if x.1 % 8 = 3 then (s.zStage (F.BT_LS_DELAY_DELAY k.val) (16 * x.2)).zCommit (btPage k.val)
  else s.zLive (F.BT_PHASE_PH_TRIM k.val) (ofSigned 16 (clampInt (-32768) 32767 (s.zTrims k (toSigned 16 x.2)).2))

def State.modSub (id : Nat) (f : ZSub → ZSub) (s : State) : State :=
  s.modLg fun l => { l with subs := l.subs.map fun z => if z.id = id then f z else z }

def State.subState (s : State) (z : ZSub) : PgState := ((s.page? z.id).map (·.st)).getD .retired

/-- The pages that follow the next gate get their station fields: those of the page timeline once every page before has
passed its feed gate, those of beam timing once every page before has passed its commit gate (R84, R481). -/
def State.zBind (s : State) : State :=
  let pt := s.lg.subs.find? fun z => [PgState.defined, .resident, .released].contains (s.subState z)
  let bt := s.lg.subs.find? fun z => [PgState.defined, .resident, .released, .fed].contains (s.subState z)
  let s1 := match pt with
    | some z =>
      if z.ptSets.isEmpty || s.staged ptPage then s
      else ((s.each z.ptSets fun x t => t.zPtField x).zCommit ptPage).modSub z.id fun y => { y with ptSets := [] }
    | none => s
  match bt with
  | some z =>
    if z.btSets.isEmpty || (z.btSets.any fun x => s1.staged (btPage ((x.1 - 0x10) / 8))) then s1
    else (s1.each z.btSets fun x t => t.zBtField x).modSub z.id fun y => { y with btSets := [] }
  | none => s1

/-! ### What an applied write of a register does to native fields -/

/-- Registers 0x000–0x00F and the stations'. -/
def State.zControl (a : Nat) (s : State) : State :=
  let k := (a - 0x10) / 8
  if a = 0x001 then
    let s1 := s.zDrives.slotAuto 1 (s.on (zNow F.ZCTRL_RUN))
    (s1.zLive F.PT_CFG_FEED_EN (s1.rd (zNow F.ZCTRL_FEED_EN))).zLine
  else if a = 0x004 then s.zLine
  else if a = 0x006 then
    (s.zStage F.PT_SPEED_SPEED (rdiv (65536 * s.rd (zNow F.ZSPEED_SPEED)) 10000)).zOffsets
      ((List.range 4).filter fun j => s.on (zNow (F.ZST_OFFS_DIST j)))
  else if a = 0x007 then (s.zStage F.PT_GAP_GAP (100 * s.rd (zNow F.ZGAP_GAP))).zCommit ptPage
  else if 0x010 ≤ a ∧ a < 0x030 then
    match a % 8 with
    | 0 => s.zPlan k
    | 5 => s.zLive (F.SL_SPV (zSlotOf k).1 (zSlotOf k).2) (s.rd (zNow (F.ZST_HV_SET k)))
    | 6 => s.zLive (F.SL_SPV (zSlotOf (4 + k)).1 (zSlotOf (4 + k)).2) (s.rd (zNow (F.ZST_BIAS_SET k)))
    | _ => s
  else s

/-- Polygons, steppers, fuser and drives. -/
def State.zMachine (a : Nat) (s : State) : State :=
  if 0x030 ≤ a ∧ a < 0x034 then s.zPolygon (Fin.ofNat 4 (a - 0x030))
  else if a = 0x034 ∨ a = 0x035 then s.each (List.finRange 4) fun k t => t.zPolygon k
  else if 0x038 ≤ a ∧ a < 0x040 then
    let n := a - 0x038
    let s1 := (s.zLive (F.STP_CFG_MSTEP n) (s.rd (zNow (F.ZSTP_MSTEP n)))).zLive (F.STP_CFG_CRATIO n) (s.rd (zNow (F.ZSTP_CRATIO n)))
    let s2 := (s1.zLive (F.STP_CFG_INV n) (s.rd (zNow (F.ZSTP_INV n)))).zLive (F.STP_CUR_IRUN n) (s.rd (zNow (F.ZSTP_IRUN n)))
    s2.zLive (F.STP_CUR_IHOLD n) (s.rd (zNow (F.ZSTP_IRUN n)) / 2)
  else if a = 0x040 then s.each (s.gateSlots 2) fun q t => t.zLive (F.SL_SPV q.1 q.2) (s.rd (zNow F.ZFUS_SET_SET))
  else if a = 0x042 then s.slotAuto 2 (s.on (zNow F.ZFUS_CTRL_HEAT))
  else if a = 0x043 then s.zDrives
  else if 0x044 ≤ a ∧ a < 0x048 then s.zTarget (zDriveOf (a - 0x044)) (s.rd (zNow (F.ZMOT_SPD_RPM (a - 0x044))) * 1000)
  else s

end Sys2Proof.Machine
end

