-- ==== Sys2Proof/Machine/Legacy.lean ====
section
/-!
DEFINITION. The commands of the ZE-40 personality (19).  In the native personality the legacy balls are plain inputs and outputs
and none of these commands has an effect (R498).
-/
namespace Sys2Proof.Machine

/-! ### Results (R485, R489) -/

/-- The causes of Table 2.4 folded as in Table 19.8. -/
def zCauseOf (c : Nat) : Nat :=
  if c = lcJam then 1
  else if c = lcHeadUnderrun ∨ c = lcBeamMissing ∨ c = lcHeadCut ∨ c = lcLink ∨ c = lcIsolated then 2
  else if c = lcSpeedBand then 3 else if c = lcHv then 4 else if c = lcDecode ∨ c = lcOrder then 5
  else if c = lcSafe then 6 else 0

/-- Show the next result once the bit of the one shown has been cleared; a refusal sets no bit, so the next follows it. -/
def State.zShow : Nat → State → State
  | 0, s => s
  | n + 1, s =>
    match s.lg.shown, s.lg.results with
    | none, r :: l =>
      let s1 := ((s.wr F.ZPAGE_STAT_TAG r.tag).wr F.ZPAGE_STAT_RESULT r.result).wr F.ZCAUSE_CAUSE r.cause
      if r.result = 3 then State.zShow n (s1.modLg fun g => { g with results := l })
      else (s1.modLg fun g => { g with results := l, shown := some (r.result - 1) }).zint (r.result - 1)
    | _, _ => s

def State.zPost (r : ZResult) (s : State) : State :=
  let s1 := s.modLg fun g => { g with results := g.results ++ [r] }
  s1.zShow s1.lg.results.length

/-- Pages submitted and not finished; a fall below four is PAGE_REQ. -/
def State.zQueue (s : State) : State :=
  let n := s.lg.subs.length
  let req := decide (n < 4)
  let s1 := ((s.wr F.ZPAGE_STAT_QUEUED n).flag F.ZSTAT_PAGE_REQ req).modLg fun g => { g with pageReq := req }
  s1.ifDo (req && !s.lg.pageReq) (·.zint 2)

/-- A submitted page leaves: its job ends, its page is RETIRED (R36). -/
def State.zLeave (z : ZSub) (s : State) : State :=
  let s1 := s.modLg fun g => { g with subs := g.subs.filter (·.id != z.id) }
  match s1.job? z.id with
  | some j => s1.endJob j
  | none => s1

/-- The result of a page that has finished: DELIVERED, or LOST for good. -/
def State.zFinished (s : State) (z : ZSub) : Option ZResult :=
  match s.page? z.id with
  | some p =>
    if p.st = .delivered then some ⟨z.tag, 1, 0⟩
    else if p.st = .lost ∧ p.final then some ⟨z.tag, 2, zCauseOf p.cause⟩ else none
  | none => none

/-- Finished pages in finishing order. -/
def State.zOver (s : State) : List ZSub :=
  let t := fun (z : ZSub) => ((s.page? z.id).map (·.changed)).getD 0
  sortBy t (s.lg.subs.filter fun z => (s.zFinished z).isSome)

/-- Finished pages post their results and are RETIRED; one that ran blank after ABORT leaves without a result (R485). -/
def State.zCollect (s : State) : State :=
  let s1 := s.each s.zOver fun z t =>
    match t.zFinished z with
    | some r => (t.zLeave z).zPost r
    | none => t
  (s1.each (s1.lg.subs.filter fun z => s1.subState z == .retired) fun z t => t.zLeave z).zQueue

/-! ### Separations (R485–R488) -/

/-- Begin a new page with the lengths in force (R485 step 1). -/
def State.zDefine (s : State) : State :=
  let id := s.lg.nextId
  let w := s.rd (zNext F.ZPAGE_W_WIDTH)
  let h := s.rd (zNext F.ZPAGE_H_HEIGHT)
  let page : Page := {
    id := id, job := id, sheetLen := 100 * s.rd (zNext F.ZPAGE_LEN_LEN), width := w, height := h, fmt := 0x80, st := .defined
    released := false, sheet := none, commits := 0, reprints := 0, cause := 0, final := false, retireDue := false
    sepLost := false, again := false, seps := [], changed := s.time }
  (s.modTl fun q => { q with pages := q.pages ++ [page] }).modLg fun g => { g with
    nextId := id + 1, defs := g.defs ++ [⟨id, 0, w, h⟩] }

/-- The page that receives separations: the one defined last. -/
def State.zDef (s : State) : Option ZDef := s.lg.defs.getLast?

/-- A burst is granted while EN = 1, DMA = 1 and the FIFO has room for BURST + 1 words (R488). -/
def State.zGrant (s : State) : State :=
  let b := s.rd (zNow F.ZRAS_CTRL_BURST) + 1
  if s.lg.burst = 0 ∧ s.on (zNow F.ZRAS_CTRL_EN) ∧ s.on (zNow F.ZRAS_CTRL_DMA) ∧ s.lg.raster.length + b ≤ 512 then
    s.modLg fun g => { g with burst := if g.late then b - 1 else b, late := false, dackAt := s.time }
  else s

/-- EN off: the intake stops, and with it the burst. -/
def State.zStop (s : State) : State :=
  ((s.wr F.ZRAS_CTRL_EN 0).wr (zNow F.ZRAS_CTRL_EN) 0).modLg fun g => { g with burst := 0 }

/-- EN = 1: intake goes on after a timeout; else it begins a separation, and a page where none is open or the open one has
this station's separation (R485, R488, Table 19.11). -/
def State.zEnable (before : Bool) (s : State) : State :=
  if s.on F.ZRAS_STAT_TIMEOUT then
    ((s.wr F.ZRAS_STAT_TIMEOUT 0).ifDo (s.dcState 31 == dcHalted) (·.dcTo 31 dcIdle)).zGrant
  else if before then s
  else
    let k := s.rd (zNow F.ZRAS_CTRL_SEP)
    let s1 := match s.zDef with
      | some d => if bit d.done k then s.zDefine else s
      | none => s.zDefine
    let s2 := ((s1.wr F.ZRAS_STAT_DONE 0).wr F.ZRAS_STAT_FMT_ERR 0).wr F.ZRAS_LINES_LINES 0
    ((s2.wr F.ZRAS_STAT_BUSY 1).modLg fun g => { g with pix := 0, data := [], words := 0 }).zGrant

/-- ZRAS_CTRL.EN as written. -/
def State.zRasCtrl (before : Bool) (s : State) : State :=
  if s.on (zNow F.ZRAS_CTRL_EN) then s.zEnable before else s.modLg fun g => { g with burst := 0 }

/-- The pixels of a raster word: how many, and their values (R486).  A literal is cut at the line end, an end word fills the
line with zeros. -/
def zPixels (w left : Nat) : List Bool :=
  if w % 0x8000 % 0x4000 = 0 ∧ bit w 15 then List.replicate left false
  else if bit w 15 then List.replicate (w % 0x4000) (bit w 14)
  else (List.range (min 15 left)).map fun i => bit w (14 - i)

/-- A whole separation is stored as a band stream: effort 0, STORE mode (R487); with no encoder or no room it is not. -/
def State.zStore (k : Nat) (d : ZDef) (s : State) : State :=
  let stream := encodeStream ⟨false, d.width, d.height⟩ false 0 65536 s.lg.data
  let n := stream.length
  match s.noEncoder, assignExts [] (blocksOf 0 n) s.freeExts with
  | false, some exts =>
    let q : Sep := ⟨k, [⟨0, n, [], true⟩], some n, true, exts⟩
    if (blocksOf 0 n).all fun b => s.inDram (q.addr (b * extSize)) 8 then
      let s1 := s.modPage d.id fun p => { p with seps := p.seps.filter (·.station != k) ++ [q] }
      let s2 := ((s1.storeStream q 0 ((n + 7) / 8) stream).inc F.RS_SEPS_COUNT).storeRegs
      s2.modLg fun g => { g with defs := g.defs.map fun x => if x.id = d.id then { x with done := x.done ||| 2 ^ k } else x }
    else s
  | _, _ => s

/-- ZRAS_LINES has reached the height: DONE, EN cleared, DMA_DONE (R485 step 2). -/
def State.zComplete (k : Nat) (d : ZDef) (s : State) : State :=
  let s1 := (((s.zStore k d).wr F.ZRAS_STAT_DONE 1).wr F.ZRAS_STAT_BUSY 0).zStop
  (s1.modLg fun g => { g with data := [] }).zint 4

/-- Decode a word into the lines of the separation (R486, R487). -/
def State.zDecode (w : Nat) (d : ZDef) (s : State) : State :=
  let width := max 1 d.width
  let px := zPixels w (width - s.lg.pix)
  let lines := s.rd F.ZRAS_LINES_LINES
  let room := (d.height - lines) * width - s.lg.pix
  let px := px.take room
  let at_ := s.lg.pix + px.length
  let s1 := (s.modLg fun g => { g with pix := at_ % width, data := g.data ++ px.map fun b => if b then 0xFF else 0 }).wr
    F.ZRAS_LINES_LINES (lines + at_ / width)
  s1.ifDo (decide (d.height ≤ lines + at_ / width)) (·.zComplete (s1.rd (zNow F.ZRAS_CTRL_SEP)) d)

/-- A word after the last line is discarded (R486). -/
def State.zFormat (s : State) : State :=
  (((s.wr F.ZRAS_STAT_FMT_ERR 1).sat F.LG_CNT_B_FMT_ERR).zerr 3).raise 242 0x0E0 2

/-- The oldest word of the raster FIFO is decoded; while the intake is off before a separation's end it waits. -/
def State.zWordIn (s : State) : State :=
  match s.lg.raster with
  | [] => s
  | w :: r =>
    let t := s.modLg fun g => { g with raster := r }
    if s.on (zNow F.ZRAS_CTRL_EN) then
      match s.zDef with
      | some d => (t.zDecode w d).zGrant
      | none => s
    else if s.on F.ZRAS_STAT_DONE then t.zFormat.zGrant
    else s

/-- A word enters the raster FIFO; ZDMA_CNT counts the words since EN. -/
def State.zPush (w : Nat) (s : State) : State :=
  s.modLg fun g => { g with raster := g.raster ++ [w % 65536], words := if s.on (zNow F.ZRAS_CTRL_EN) then g.words + 1 else g.words }

/-! ### Submit and abort (R485) -/

/-- The station fields of class S that a submitted page takes, and its laser-power steps. -/
def State.zTake (s : State) : List (Nat × Nat) × List (Nat × Nat) × List Nat × State :=
  let val := fun (a : Nat) => ((zRows a).head?.map fun r => s.rd (zNext (zFld r a))).getD 0
  let mine := s.lg.dirty.filter fun a => 0x010 ≤ a && a < 0x030
  let s1 := s.each mine fun a t => t.each (zRows a) fun r u => u.wr (zNow (zFld r a)) (u.rd (zNext (zFld r a)))
  ((mine.filter fun a => a % 8 = 1 || a % 8 = 2).map fun a => (a, val a),
   (mine.filter fun a => a % 8 = 3 || a % 8 = 2).map fun a => (a, val a),
   (List.range 4).map fun k => zStep (s1.rd (zNow (F.ZST_PWR_POWER k))),
   s1.modLg fun g => { g with dirty := [] })

/-- SUBMIT: refused with RESULT 3 and its code, or the page is released under a job of its own (R485 steps 3 and 4). -/
def State.zSubmit (mask tag : Nat) (s : State) : State :=
  match s.lg.defs with
  | [] => (s.zerr 4).zPost ⟨tag, 3, 0⟩
  | d :: r =>
    if d.done &&& mask ≠ mask then (s.zerr 4).zPost ⟨tag, 3, 0⟩
    else if 4 ≤ s.lg.subs.length then (s.zerr 5).zPost ⟨tag, 3, 0⟩
    else
      let (pt, bt, power, s1) := s.zTake
      let s2 := s1.modLg fun g => { g with defs := r, subs := g.subs ++ [⟨d.id, tag, power, pt, bt⟩] }
      let s3 := s2.modTl fun q => { q with
        jobs := q.jobs ++ [⟨d.id, mask, true, false, false, false, 0, 0⟩], released := q.released ++ [d.id] }
      let s4 := (s3.modPage d.id fun p => { p with released := true }).pageTo d.id .released
      (s4.jobRegs.queueRegs.runReady).zBind.zQueue

/-- ABORT: every submitted page as the job-abort row of Table 2.5 states; one not fed posts RESULT 3, in submit order. -/
def State.zAbort (s : State) : State :=
  (s.each s.lg.subs fun z t =>
    let fed := t.subState z == .fed || t.subState z == .committed
    let ended := (t.zFinished z).isSome
    if ended then t
    else
      let u := t.jobAbort z.id
      if fed then u else (u.zLeave z).zPost ⟨z.tag, 3, 0⟩).zQueue

/-! ### The window's key, SOFT_RST, polygons -/

/-- The migration window opens or closes (R494, R499). -/
def State.zWindow (on : Bool) (s : State) : State :=
  if on = s.lg.open_ then s
  else
    let s1 := ((s.modLg fun g => { g with open_ := on, heldRead := none, heldWrite := none }).flag F.ZMIG_CTRL_OPEN on).flag F.LG_STAT_WIN_OPEN on
    s1.event 0x0E0 (if on then 0 else 1)

/-- ZMIG_KEY: 0x9640 and 0x6904 in two consecutive register writes open the window, 0 closes it (R494). -/
def State.zKey (v : Nat) (s : State) : State :=
  let k := s.lg.keyed
  let s1 := s.modLg fun g => { g with keyed := v == 0x9640 }
  if v = 0 then s1.zWindow false else if k && v == 0x6904 then s1.zWindow true else s1

/-- The image at its reset values but ZSCRATCH; the values in force behind it likewise, but for those of the profile, which
stand for native fields (Table 19.9). -/
def State.zClear (s : State) : State :=
  let rows := RegTable.zmap
  let keep := fun (e : Nat × Nat) =>
    let p := pageOfKey e.1
    let f := rows.filter fun r => r.hits (e.1 / 32 % 4096) && r.lsb == e.1 % 32
    !(0x1000 ≤ p && p ≤ 0x1002) || f.any fun r => r.name == "ZSCRATCH.DATA" || (p != 0x1000 && r.prof)
  { s with regs := s.regs.filter keep }

/-- ZCTRL.SOFT_RST (Table 19.9): ABORT, the window closed, image, FIFO, definitions and results cleared; writes posted after
it remain in the image. -/
def State.zSoft (s : State) : State :=
  let s1 := s.zAbort.zWindow false
  let s2 := s1.each s1.lg.defs fun d t => (t.retire d.id).modTl fun q => { q with pages := q.pages.filter (·.id != d.id) }
  let s3 := (s2.zClear.storeRegs).modLg fun g => { g with
    raster := [], defs := [], results := [], shown := none, dirty := [], pix := 0, data := [], words := 0, burst := 0
    late := false, msHi := 0, cntHi := 0, keyed := false, jam := false }
  ((s3.each s3.lg.wfifo fun x t => t.zImage x.1 x.2).zLine).event 0x0E0 2

/-- The stations whose polygon ZPOLY_CMD moves: those that expose and whose polygon is driven. -/
def State.zDriven (s : State) : List (Fin 4) :=
  (List.finRange 4).filter fun (k : Fin 4) => s.on (zNow (F.ZST_CTRL_EN k.val)) && s.on (zNow (F.ZPREF_EN k.val))

/-- ZPOLY_CMD.START and STOP (R491). -/
def State.zPolys (on : Bool) (s : State) : State :=
  s.each s.zDriven fun (k : Fin 4) t =>
    if t.extPoly k then (t.zRefStep k).modPoly k fun q => { q with run := on, at_ := t.time }
    else t.zMotor (Fin.ofNat 12 (t.rd (F.BT_CFG_POLY_CH k.val))) on

/-- An external polygon whose lock input has been active for 10 ms leaves STOPPED (R492). -/
def State.zLocked (k : Fin 4) (s : State) : State :=
  let p := s.lg.polys[k]
  let k6 : Fin 6 := k.castLE (by omega)
  if s.extPoly k && p.lock && decide (p.since + 1000000 ≤ s.time) && s.btState k6 == btStopped then s.btToSpeed k6 else s

/-! ### Applying a posted write -/

/-- ZINT: the written bits are cleared, but those set in this tick; a cleared PAGE_DONE or PAGE_LOST makes room for the next
result (R485, Table 19.11). -/
def State.zIntClear (mask : Nat) (s : State) : State :=
  let gone := (List.range 8).foldl (fun w i => if bit mask i && !s.isFresh 0x1000 i then w + 2 ^ i else w) 0
  let s1 := (s.wr F.ZINT_EV (s.rd F.ZINT_EV &&& (255 - gone))).zLine
  match s1.lg.shown with
  | some b => if bit gone b then
      let s2 := s1.modLg fun g => { g with shown := none }
      s2.zShow (s2.lg.results.length)
    else s1
  | none => s1

/-- The effect of a posted write (R480, R481). -/
def State.zApply (a v : Nat) (s : State) : State :=
  if a = 0x003 then s.zIntClear v
  else if a = 0x001 ∧ bit v 2 then s.zSoft
  else if a = 0x00A then (s.ifDo (bit v 0) (·.zSubmit (bits v 4 4) (bits v 8 8))).ifDo (bit v 1) (·.zAbort)
  else if a = 0x037 then (s.ifDo (bit v 0) (·.zPolys true)).ifDo (bit v 1) (·.zPolys false)
  else
    let before := s.on (zNow F.ZRAS_CTRL_EN)
    let alone := ((zRows a).filter (·.acc == .rw)).all s.zIgnored
    let s1 := (s.ifDo (decide (0x030 ≤ a ∧ a < 0x036)) (·.zPolysStep)).zFields a v
    if alone then s1
    else if a = 0x048 then s1.zRasCtrl before
    else if a < 0x030 then s1.zControl a
    else s1.zMachine a

/-- Does the emulation run?  It needs the berth of role 0x1, and the device in READY or RUN (R402, R475). -/
def State.zRuns (s : State) : Bool := s.ze40 && (s.holder 1).isSome && (s.dev == stReady || s.dev == stRun)

/-- The oldest posted write is applied. -/
def State.zNextWrite (s : State) : State :=
  match s.lg.wfifo with
  | (a, v) :: r => (s.modLg fun g => { g with wfifo := r }).zApply a v
  | [] => s

/-- Every posted write, oldest first. -/
def State.zDrain (s : State) : State :=
  if s.zRuns then s.each s.lg.wfifo fun _ t => t.zNextWrite else s

/-! ### The bus (R476, R480, R483, R494, R495) -/

/-- Both kinds of protocol error (R476, R495). -/
def State.zProto (s : State) : State := ((s.sat F.LG_CNT_A_PROTO).zerr 1).raise 240 0x0E0 0

/-- A register write on the legacy bus ends SLACK (R402). -/
def State.zWake (s : State) : State :=
  s.ifDo (s.dev == stSlack) fun t => { t with seq := { t.seq with slackExit := true } }

/-- Page and byte offset of a window address (R494). -/
def State.zTarget2 (s : State) (a : Nat) : Nat × Nat :=
  (s.rd F.ZMIG_CTRL_PAGE, s.rd F.ZMIG_CTRL_QTR * 1024 + 2 * (a - 0x200))

/-- A read through the window (R495). -/
def State.zWinRead (a : Nat) (s : State) : State :=
  let (p, o) := s.zTarget2 a
  if o % 4 = 0 then
    let (v, t) := s.regRead p o
    (t.modLg fun g => { g with heldRead := some (p, o), readHi := v / 65536 % 65536 }).emit (.legacyData (v % 65536))
  else if s.lg.heldRead = some (p, o - 2) then
    (s.modLg fun g => { g with heldRead := none }).emit (.legacyData s.lg.readHi)
  else
    let (v, t) := s.regRead p (o - 2)
    (t.modLg fun g => { g with heldRead := none }).emit (.legacyData (v / 65536 % 65536))

/-- A write through the window counts as the host's (R495, R496). -/
def State.zWinWrite (a v : Nat) (s : State) : State :=
  let (p, o) := s.zTarget2 a
  let t := (s.modLg fun g => { g with keyed := false }).zWake
  if o % 4 = 0 then t.modLg fun g => { g with heldWrite := some (p, o), writeLo := v % 65536 }
  else if s.lg.heldWrite = some (p, o - 2) then
    (t.modLg fun g => { g with heldWrite := none }).busWrite .window p (o - 2) (v % 65536 * 65536 + s.lg.writeLo)
  else (t.modLg fun g => { g with heldWrite := none }).zProto

/-- A read of a register of the image; the low word of a count latches its high word, ZERR is cleared (R482, R493). -/
def State.zRegRead (a : Nat) (s : State) : State :=
  let s1 := s.emit (.legacyData (s.zWord a))
  if a = 0x005 then (s1.wr F.ZERR_CODE 0).wr F.ZERR_COUNT 0
  else if a = 0x008 then s1.wr F.ZMS_HI_MS s.lg.msHi
  else if a = 0x04C then s1.wr F.ZDMA_CNT_HI_CNT s.lg.cntHi
  else s1

/-- A read on the legacy bus (R479, R483). -/
def State.zRead (a : Nat) (s : State) : State :=
  if !s.ze40 then s
  else if a < 0x060 then s.zRegRead a
  else if s.lg.open_ && decide (0x200 ≤ a) && decide (a < 0x400) then s.zWinRead a
  else s.emit (.legacyData 0xFFFF)

/-- A raster word on the bus: with the FIFO full the bus waits until a word has been decoded (R477, R488). -/
def State.zData (v : Nat) (s : State) : State :=
  let t := if 512 ≤ s.lg.raster.length then s.zWordIn else s
  if 512 ≤ t.lg.raster.length then t else t.zPush v

/-- Post a register write: the image at once, the FIFO for the emulation; with 64 entries the bus waits for one to be
applied (R477, R480). -/
def State.zPostWrite (a v : Nat) (s : State) : State :=
  let t := if 64 ≤ s.lg.wfifo.length ∧ s.zRuns then s.zNextWrite else s
  if 64 ≤ t.lg.wfifo.length then t else (t.zImage a v).modLg fun g => { g with wfifo := g.wfifo ++ [(a, v % 65536)] }

/-- A write on the legacy bus (R480, R483, R494). -/
def State.zWrite (a v : Nat) (s : State) : State :=
  if !s.ze40 then s
  else if a < 0x060 then
    let t := s.zWake
    if a = 0x05E then t.zKey v
    else
      let u := t.modLg fun g => { g with keyed := false }
      if a = 0x04B then u.zData v
      else if a = 0x05F then
        u.ifDo s.lg.open_ fun w => (w.wr F.ZMIG_CTRL_PAGE v).wr F.ZMIG_CTRL_QTR (bits v 8 2)
      else u.zPostWrite a v
  else if s.lg.open_ && decide (0x200 ≤ a) && decide (a < 0x400) then s.zWinWrite a v
  else s

/-! ### Refresh (R479) -/

/-- ZSTAT.STATE (log 74). -/
def State.zStateNow (s : State) : Nat :=
  if s.isSafe then 4
  else if s.rd (H.STATE ptPage) = 2 ∨ s.rd (H.STATE 0x0A8) = 2 then 5
  else if s.rd (H.STATE ptPage) = 1 then 3
  else if !s.on (zNow F.ZCTRL_RUN) then 0
  else if s.on F.ZSTAT_POLY_OK && s.on F.ZSTAT_FUSER_OK && (List.range 4).all fun k =>
      !bit (s.rd (zNow F.ZCTRL_STN_EN)) k || bit (s.rd F.ZSTAT_STN_OK) k then 2
  else 1

def State.slotIn (s : State) (q : Fin 4 × Fin 32) : Bool := s.on (F.SL_STAT_IN_BAND q.1 q.2)

/-- The status of the stations and polygons. -/
def State.zStations (s : State) : State :=
  let stn := fun (k : Fin 4) =>
    let k6 : Fin 6 := k.castLE (by omega)
    (s.btState k6 == btLocked, s.on (F.HL_STAT_HEAD_READY k.val), s.slotIn (zSlotOf k) && s.slotIn (zSlotOf (4 + k)),
      s.on (F.IL_THERM_STAT_CAP k.val))
  let s1 := s.each (List.finRange 4) fun (k : Fin 4) t =>
    let x := stn k
    (((t.flag (F.ZST_STAT_LOCK k.val) x.1).flag (F.ZST_STAT_HEAD_OK k.val) x.2.1).flag (F.ZST_STAT_HV_OK k.val) x.2.2.1).flag
      (F.ZST_STAT_TEMP_WARN k.val) x.2.2.2
  let mask := fun (f : Fin 4 → Bool) => (List.finRange 4).foldl (fun v (k : Fin 4) => if f k then v + 2 ^ k.val else v) 0
  let ok := mask fun k => let x := stn k; x.1 && x.2.1 && x.2.2.1
  let lock := mask fun k => (stn k).1
  let en := s.rd (zNow F.ZCTRL_STN_EN)
  let s2 := ((s1.wr F.ZSTAT_STN_OK ok).wr F.ZPOLY_STAT_LOCK lock).wr F.ZPOLY_STAT_DRV (mask fun k => (s.lg.polys[k]).lock)
  s2.flag F.ZSTAT_POLY_OK (en &&& lock == en)

/-- Sensors, converters, fuser and counts. -/
def State.zSensors (s : State) : State :=
  let lvl := fun (b : Nat) => (List.range 16).foldl (fun v i => if s.on (F.SS_IN_STAT_LEVEL (b + i)) then v + 2 ^ i else v) 0
  let i := s.rd (zNow F.ZSENS_SEL_INPUT)
  let t10 := fun (lo hi : Fld) => (s.rd hi * 2 ^ 32 + s.rd lo) / 1000
  let now := (i, s.rd (F.SS_IN_STAT_LSEQ i), s.rd (F.SS_IN_STAT_TSEQ i))
  let edge := s.lg.sens.1 == i && s.lg.sens != now
  let s1 := ((s.wr F.ZSENS_LVL_LO_LVL (lvl 0)).wr F.ZSENS_LVL_HI_LVL (lvl 16)).modLg fun g => { g with sens := now }
  let s2 := (s1.wr F.ZSENS_TLEAD_T (t10 (F.SS_IN_LEAD_T_LO i) (F.SS_IN_LEAD_T_HI i))).wr F.ZSENS_TTRAIL_T
    (t10 (F.SS_IN_TRAIL_T_LO i) (F.SS_IN_TRAIL_T_HI i))
  let s3 := ((s2.wr F.ZSENS_CNT_LSEQ now.2.1).wr F.ZSENS_CNT_TSEQ now.2.2).ifDo edge (·.zint 7)
  let s4 := s3.each (List.range 8) fun n t =>
    let ch := Config.zAdc n % 48
    (t.wr (F.ZADC_CODE n) (t.rd (F.ADC_RES_CODE ch) / 4)).wr (F.ZADC_STALE n) (t.rd (F.ADC_RES_STALE ch))
  let s5 := match s4.gateSlots 2 with
    | q :: _ => (s4.flag F.ZSTAT_FUSER_OK (s4.slotIn q)).wr F.ZFUS_TEMP_TEMP (clampInt 0 4095 (s4.slot q.1 q.2).pvPrev).toNat
    | [] => s4
  let ms := s5.time / 100000
  ((s5.wr F.ZMS_LO_MS ms).wr F.ZDMA_CNT_LO_CNT s5.lg.words).modLg fun g => { g with msHi := ms / 65536 % 65536, cntHi := g.words / 65536 % 65536 }

/-- A sheet jam is shown and reported. -/
def State.zJam (s : State) : State :=
  let jam := s.rd (H.STATE 0x0A8) == 2
  ((s.flag F.ZSTAT_JAM jam).modLg fun g => { g with jam := jam }).ifDo (jam && !s.lg.jam) (·.zint 3)

/-- Every read-only field of the image. -/
def State.zRefresh (s : State) : State :=
  let s1 := (s.each (List.finRange 4) fun k t => t.zLocked k).zCollect.zBind
  let s2 := s1.zStations.zSensors.zJam
  (s2.wr F.ZSTAT_STATE s2.zStateNow).zLine

/-! ### DMA with the partner (R242, R488) -/

/-- A channel of request line 1 that has a granted burst. -/
def State.zChannel (s : State) : Option (Fin 32) :=
  (List.finRange 32).find? fun (n : Fin 32) => n.val != 31 && s.rd (F.DC_CFG_REQ n.val) == 1 && s.dcState n == dcActive &&
    (match (s.chan n).grant with | some b => decide ((s.chan n).partner.length < b) | none => false)

/-- One DACK: a word to or from a channel's granted burst, or to the raster FIFO. -/
def State.zDack (w : Nat) (s : State) : State :=
  match s.zChannel with
  | some n =>
    let c := s.chan n
    let t := s.modChan n fun c => { c with partner := c.partner ++ leBytes (w % 65536) 2, dackAt := s.time }
    if s.on (F.DC_CFG_PSIDE n.val) then
      t.emit (.legacyData (s.ld (c.src + s.rd (F.DC_PROG_BYTES n.val) + c.partner.length) 2))
    else t
  | none =>
    if !s.on (zNow F.ZRAS_CTRL_DMA) || 512 ≤ s.lg.raster.length then s
    else if s.lg.burst = 0 then (s.zPush w).modLg fun g => { g with late := true }
    else ((s.zPush w).modLg fun g => { g with burst := g.burst - 1, dackAt := s.time }).zGrant

/-- The effects of a partner timeout on the emulation: TIMEOUT, EN cleared, code 2, DMA_ERR, DMA_TIMEOUT (R488). -/
def State.zTimedOut (s : State) : State :=
  let s1 := (s.zStop.wr F.ZRAS_STAT_TIMEOUT 1).sat F.LG_CNT_B_TIMEOUTS
  ((s1.zerr 2).zint 5).raise 241 0x0E0 1

/-- The words of a burst the partner left unfinished: those exchanged, the last filled up with zeros (R242). -/
def State.partnerEnd (n : Fin 32) (s : State) : State :=
  let c := s.chan n
  let base := s.rd (F.DC_PROG_BYTES n.val)
  let got := c.partner.length
  let data := c.partner ++ List.replicate ((8 - got % 8) % 8) 0
  let s1 := if s.on (F.DC_CFG_PSIDE n.val) then s
    else
      let (out, _, t) := s.burst n c base data (s.memSides n) [] data.length (data.length / 8) 0 []
      t.burstOut n base out
  (s1.wr (F.DC_PROG_BYTES n.val) (base + got)).dcError n dsPartner (base + got) (c.dst + base + got / 8 * 8)

/-! ### The commands -/

def execLegacyRead (addr : Nat) (s : State) : Result := .next (s.zRead (addr % 1024))

def execLegacyWrite (addr value : Nat) (s : State) : Result := .next (s.zWrite (addr % 1024) (value % 65536))

def execLegacyWriteApply (s : State) : Result := .next (if s.zRuns then s.zNextWrite else s)

def execLegacyProtocolError (s : State) : Result := .next (if s.ze40 then s.zProto else s)

def execImageRefresh (s : State) : Result := .next (if s.zRuns then s.zRefresh else s)

def execZerrRead (s : State) : Result := .next (s.zRead 0x005)

/-- A read of ZMS_LO, or of ZDMA_CNT_LO. -/
def execCountLoRead (dma : Bool) (s : State) : Result := .next (s.zRead (if dma then 0x04C else 0x008))

/-- The write of a register and its application, with every write before it. -/
def State.zDirect (a v : Nat) (s : State) : State := if s.ze40 then (s.zWrite a (v % 65536)).zDrain else s

def execZintClear (mask : Nat) (s : State) : Result := .next (s.zDirect 0x003 mask)

/-- ZCTRL with SOFT_RST, its other bits as they read. -/
def execSoftRst (s : State) : Result := .next (s.zDirect 0x001 (s.zWord 0x001 ||| 4))

def execSubmit (mask : Fin 16) (tag : Nat) (s : State) : Result := .next (s.zDirect 0x00A (1 + 16 * mask + 256 * (tag % 256)))

def execZpageAbort (s : State) : Result := .next (s.zDirect 0x00A 2)

/-- ZRAS_CTRL with EN = 1: station, DMA, and words per burst minus 1. -/
def execRasterEnable (sep : Fin 4) (dma : Bool) (burst : Nat) (s : State) : Result :=
  .next (s.zDirect 0x048 (1 + 2 * sep + 8 * b2n dma + 256 * (burst % 256)))

def execRasterWord (s : State) : Result := .next (if s.zRuns then s.zDrain.zWordIn else s)

def execDackTransfer (word : Nat) (s : State) : Result := .next (if s.ze40 then s.zDack word else s)

def execZpolyStart (s : State) : Result := .next (s.zDirect 0x037 1)

def execZpolyStop (s : State) : Result := .next (s.zDirect 0x037 2)

/-- The driver's lock input changes; its loss while a page is exposed raises POLY_DRIVER (R492). -/
def execPolyLockInput (k : Fin 4) (active : Bool) (s : State) : Result :=
  if !s.ze40 then .next s
  else
    let k6 : Fin 6 := k.castLE (by omega)
    let p := s.lg.polys[k]
    let s1 := s.modPoly k fun q => { q with lock := active, since := if p.lock = active then p.since else s.time }
    if active then .next (s1.zLocked k)
    else if s.extPoly k && s.btState k6 != btStopped then
      let lost := s.btState k6 == btLocked && s.exposing k6
      let s2 := s1.btStop k6
      .next (if lost then (s2.zerr 6).raise 243 0x0E0 3 else s2)
    else .next s1

def execZmigKey (value : Nat) (s : State) : Result := .next (s.zWrite 0x05E (value % 65536))

/-- A read of word address 0x200 + addr. -/
def execWindowRead (addr : Fin 512) (s : State) : Result := .next (s.zRead (0x200 + addr))

/-- A write of word address 0x200 + addr. -/
def execWindowWrite (addr : Fin 512) (value : Nat) (s : State) : Result := .next (s.zWrite (0x200 + addr) (value % 65536))

/-- No DACK for 64 µs inside a granted burst (R242, R488): of the raster intake on channel 31, or of another channel of
request line 1. -/
def execPartnerTimeout (ch : Fin 32) (s : State) : Result :=
  if !s.ze40 then .next s
  else if ch.val = 31 then
    .next (if s.lg.burst ≠ 0 ∧ s.on (zNow F.ZRAS_CTRL_EN) ∧ s.lg.dackAt + 6400 ≤ s.time then
        (((s.dcEnd ch dsPartner).dcHalt ch).hwReact).zTimedOut
      else s)
  else
    let c := s.chan ch
    .next (match c.grant with
      | some b =>
        if s.rd (F.DC_CFG_REQ ch.val) = 1 ∧ (s.dcState ch = dcActive ∨ s.dcState ch = dcPausing) ∧ c.partner.length < b ∧
            c.dackAt + 6400 ≤ s.time then
          (s.partnerEnd ch).hwReact.zTimedOut
        else s
      | none => s)

end Sys2Proof.Machine
end

