-- ==== Sys2Proof/Machine/Dispatch.lean ====
section
/-! DEFINITION. The dispatch of a command to its meaning: one arm per constructor of `Instr`. -/
namespace Sys2Proof.Machine

def exec (i : Instr) (s : State) : Host.Outcome State Fault Refusal :=
  match i with
  | .rstNRelease bankA bankB prof => Sys2Proof.Machine.execRstNRelease bankA bankB prof s
  | .rstNAssert => Sys2Proof.Machine.execRstNAssert s
  | .internalPowerOnReset bankA bankB prof => Sys2Proof.Machine.execInternalPowerOnReset bankA bankB prof s
  | .warmStart => Sys2Proof.Machine.execWarmStart s
  | .bootDone => Sys2Proof.Machine.execBootDone s
  | .fillDone => Sys2Proof.Machine.execFillDone s
  | .dramFillDone c ok gib => Sys2Proof.Machine.execDramFillDone c ok gib s
  | .registerWrite agent page off value size => Sys2Proof.Machine.execRegisterWrite agent page off value size s
  | .commit agent page => Sys2Proof.Machine.execCommit agent page s
  | .lock agent page => Sys2Proof.Machine.execLock agent page s
  | .isolate agent page => Sys2Proof.Machine.execIsolate agent page s
  | .isolateRestore agent page => Sys2Proof.Machine.execIsolateRestore agent page s
  | .ownerChange agent page host => Sys2Proof.Machine.execOwnerChange agent page host s
  | .pageAbort agent page => Sys2Proof.Machine.execPageAbort agent page s
  | .pgEvtClear agent page mask => Sys2Proof.Machine.execPgEvtClear agent page mask s
  | .pgFltClear agent page mask => Sys2Proof.Machine.execPgFltClear agent page mask s
  | .statusFlagClear agent page mismatch accessBusy => Sys2Proof.Machine.execStatusFlagClear agent page mismatch accessBusy s
  | .runStart => Sys2Proof.Machine.execRunStart s
  | .announceInstant => Sys2Proof.Machine.execAnnounceInstant s
  | .feedGate => Sys2Proof.Machine.execFeedGate s
  | .ptSkip agent n => Sys2Proof.Machine.execPtSkip agent n s
  | .anchorWindowEnd slot => Sys2Proof.Machine.execAnchorWindowEnd slot s
  | .commitGate slot => Sys2Proof.Machine.execCommitGate slot s
  | .divertDeadline slot => Sys2Proof.Machine.execDivertDeadline slot s
  | .exitWindowEnd slot => Sys2Proof.Machine.execExitWindowEnd slot s
  | .headUnderrun station => Sys2Proof.Machine.execHeadUnderrun station s
  | .bdEdge station t px => Sys2Proof.Machine.execBdEdge station t px s
  | .bdWindowEnd station => Sys2Proof.Machine.execBdWindowEnd station s
  | .bdMissing station => Sys2Proof.Machine.execBdMissing station s
  | .indexEdge station => Sys2Proof.Machine.execIndexEdge station s
  | .idxMissing station => Sys2Proof.Machine.execIdxMissing station s
  | .frefIncWrite agent g value => Sys2Proof.Machine.execFrefIncWrite agent g value s
  | .resistanceTestStart station => Sys2Proof.Machine.execResistanceTestStart station s
  | .testEmitter station => Sys2Proof.Machine.execTestEmitter station s
  | .testResult station emitter openDrive v1 v2 => Sys2Proof.Machine.execTestResult station emitter openDrive v1 v2 s
  | .testTimeout station => Sys2Proof.Machine.execTestTimeout station s
  | .testWindowEnd station => Sys2Proof.Machine.execTestWindowEnd station s
  | .ilTestNow agent station value => Sys2Proof.Machine.execIlTestNow agent station value s
  | .ilDeadWrite agent station hi value => Sys2Proof.Machine.execIlDeadWrite agent station hi value s
  | .replan station requested v4Max v4Min rpmMin rpmMax => Sys2Proof.Machine.execReplan station requested v4Max v4Min rpmMin rpmMax s
  | .htempSample station code => Sys2Proof.Machine.execHtempSample station code s
  | .headCut station => Sys2Proof.Machine.execHeadCut station s
  | .markEdge j stamp => Sys2Proof.Machine.execMarkEdge j stamp s
  | .markWindowOpen => Sys2Proof.Machine.execMarkWindowOpen s
  | .markWindowClose => Sys2Proof.Machine.execMarkWindowClose s
  | .registrationCorrection => Sys2Proof.Machine.execRegistrationCorrection s
  | .linkTraining station => Sys2Proof.Machine.execLinkTraining station s
  | .retrain agent station value => Sys2Proof.Machine.execRetrain agent station value s
  | .statusLaneTimeout station => Sys2Proof.Machine.execStatusLaneTimeout station s
  | .trainingTimeout station => Sys2Proof.Machine.execTrainingTimeout station s
  | .quenchRepeat station => Sys2Proof.Machine.execQuenchRepeat station s
  | .alignSend station => Sys2Proof.Machine.execAlignSend station s
  | .cmdAckTimeout station => Sys2Proof.Machine.execCmdAckTimeout station s
  | .status station flags lock scan rxerr => Sys2Proof.Machine.execStatus station flags lock scan rxerr s
  | .ack station tag => Sys2Proof.Machine.execAck station tag s
  | .scanErr station scanNo lanes => Sys2Proof.Machine.execScanErr station scanNo lanes s
  | .statusTimeout station => Sys2Proof.Machine.execStatusTimeout station s
  | .replySlot station => Sys2Proof.Machine.execReplySlot station s
  | .headMemoryRead station bytes => Sys2Proof.Machine.execHeadMemoryRead station bytes s
  | .separationWritten pageId station lane => Sys2Proof.Machine.execSeparationWritten pageId station lane s
  | .firstHeaderFetch pageId station lane => Sys2Proof.Machine.execFirstHeaderFetch pageId station lane s
  | .decodeBlockStart lane => Sys2Proof.Machine.execDecodeBlockStart lane s
  | .decodeBlockDone lane => Sys2Proof.Machine.execDecodeBlockDone lane s
  | .zeroFillLine ctx => Sys2Proof.Machine.execZeroFillLine ctx s
  | .go agent lane value => Sys2Proof.Machine.execGo agent lane value s
  | .encodeJobDone lane data => Sys2Proof.Machine.execEncodeJobDone lane data s
  | .encodeJobFail lane status => Sys2Proof.Machine.execEncodeJobFail lane status s
  | .encodeAbort agent lane header => Sys2Proof.Machine.execEncodeAbort agent lane header s
  | .bankRead m addr strikes flight => Sys2Proof.Machine.execBankRead m addr strikes flight s
  | .bankWrite m addr data enables flight => Sys2Proof.Machine.execBankWrite m addr data enables flight s
  | .dramRead m addr wrong0 wrong1 flight rebuilt stuck0 stuck1 => Sys2Proof.Machine.execDramRead m addr wrong0 wrong1 flight rebuilt stuck0 stuck1 s
  | .dramWrite m addr words enables flight stuck0 stuck1 => Sys2Proof.Machine.execDramWrite m addr words enables flight stuck0 stuck1 s
  | .dramRetrain agent chans => Sys2Proof.Machine.execDramRetrain agent chans s
  | .rebuildDone c => Sys2Proof.Machine.execRebuildDone c s
  | .sealGo agent page count => Sys2Proof.Machine.execSealGo agent page count s
  | .sealDone => Sys2Proof.Machine.execSealDone s
  | .scrubRead addr strikes wrong0 wrong1 last => Sys2Proof.Machine.execScrubRead addr strikes wrong0 wrong1 last s
  | .scrubLate onChip => Sys2Proof.Machine.execScrubLate onChip s
  | .doorbell agent ch => Sys2Proof.Machine.execDoorbell agent ch s
  | .descriptorFetch ch host hostOk => Sys2Proof.Machine.execDescriptorFetch ch host hostOk s
  | .dmaBurstGrant requests => Sys2Proof.Machine.execDmaBurstGrant requests s
  | .dmaBurstDone ch data hostBad flight => Sys2Proof.Machine.execDmaBurstDone ch data hostBad flight s
  | .pause agent ch => Sys2Proof.Machine.execPause agent ch s
  | .resume agent ch => Sys2Proof.Machine.execResume agent ch s
  | .clear agent ch => Sys2Proof.Machine.execClear agent ch s
  | .dmaAbort agent ch => Sys2Proof.Machine.execDmaAbort agent ch s
  | .pauseDrained ch => Sys2Proof.Machine.execPauseDrained ch s
  | .dcHeadWrite agent ch hi value => Sys2Proof.Machine.execDcHeadWrite agent ch hi value s
  | .windowRevoke agent n word value => Sys2Proof.Machine.execWindowRevoke agent n word value s
  | .partnerTimeout ch => Sys2Proof.Machine.execPartnerTimeout ch s
  | .functionReset perst => Sys2Proof.Machine.execFunctionReset perst s
  | .bar2Write off bytes poisoned => Sys2Proof.Machine.execBar2Write off bytes poisoned s
  | .bar2Read off len => Sys2Proof.Machine.execBar2Read off len s
  | .msixSend vector => Sys2Proof.Machine.execMsixSend vector s
  | .irqHoldoffExpiry => Sys2Proof.Machine.execIrqHoldoffExpiry s
  | .ringsEnable agent on => Sys2Proof.Machine.execRingsEnable agent on s
  | .sqTailWrite agent tail => Sys2Proof.Machine.execSqTailWrite agent tail s
  | .cqHeadWrite agent head => Sys2Proof.Machine.execCqHeadWrite agent head s
  | .badCrc => Sys2Proof.Machine.execBadCrc s
  | .badType hdr type => Sys2Proof.Machine.execBadType hdr type s
  | .sessionOpen hdr hostTag version => Sys2Proof.Machine.execSessionOpen hdr hostTag version s
  | .sessionResume hdr lastAck lastDseq hostTag => Sys2Proof.Machine.execSessionResume hdr lastAck lastDseq hostTag s
  | .sessionClose hdr => Sys2Proof.Machine.execSessionClose hdr s
  | .keepalive hdr => Sys2Proof.Machine.execKeepalive hdr s
  | .windowSet hdr window valid rd wr base size => Sys2Proof.Machine.execWindowSet hdr window valid rd wr base size s
  | .jobOpen hdr stations reprint skipOk => Sys2Proof.Machine.execJobOpen hdr stations reprint skipOk s
  | .jobClose hdr => Sys2Proof.Machine.execJobClose hdr s
  | .jobAbort hdr => Sys2Proof.Machine.execJobAbort hdr s
  | .jobDone job => Sys2Proof.Machine.execJobDone job s
  | .pageDefine hdr pageId sheetLen width height fmt => Sys2Proof.Machine.execPageDefine hdr pageId sheetLen width height fmt s
  | .sepSubmit hdr pageId station last encode effort grow window offset partOffs length streamLen stride => Sys2Proof.Machine.execSepSubmit hdr pageId station last encode effort grow window offset partOffs length streamLen stride s
  | .sepWritten hdr pageId station last mbOffs partOffs length streamLen => Sys2Proof.Machine.execSepWritten hdr pageId station last mbOffs partOffs length streamLen s
  | .pageRelease hdr pageId => Sys2Proof.Machine.execPageRelease hdr pageId s
  | .pageRetire hdr pageId => Sys2Proof.Machine.execPageRetire hdr pageId s
  | .pageQuery hdr pageId => Sys2Proof.Machine.execPageQuery hdr pageId s
  | .partDone pageId station partOffs result status data => Sys2Proof.Machine.execPartDone pageId station partOffs result status data s
  | .hostSilent => Sys2Proof.Machine.execHostSilent s
  | .edkarCycle port => Sys2Proof.Machine.execEdkarCycle port s
  | .moduleWindowClose port m => Sys2Proof.Machine.execModuleWindowClose port m s
  | .moduleStatus port m tid flags events tag => Sys2Proof.Machine.execModuleStatus port m tid flags events tag s
  | .identity port m tid vendor model serial version cls caps => Sys2Proof.Machine.execIdentity port m tid vendor model serial version cls caps s
  | .authResponse port m tid response => Sys2Proof.Machine.execAuthResponse port m tid response s
  | .sheetReply port m tid sheet decision tag => Sys2Proof.Machine.execSheetReply port m tid sheet decision tag s
  | .moduleAck port m tid tag => Sys2Proof.Machine.execModuleAck port m tid tag s
  | .moduleEvent port m eseq code sheet time tag => Sys2Proof.Machine.execModuleEvent port m eseq code sheet time tag s
  | .malformedFrame port m => Sys2Proof.Machine.execMalformedFrame port m s
  | .budgetViolation port m => Sys2Proof.Machine.execBudgetViolation port m s
  | .outOfWindowActivity port => Sys2Proof.Machine.execOutOfWindowActivity port s
  | .throttleExpiry port m => Sys2Proof.Machine.execThrottleExpiry port m s
  | .announceDeadline sheet => Sys2Proof.Machine.execAnnounceDeadline sheet s
  | .feedDeadline sheet => Sys2Proof.Machine.execFeedDeadline sheet s
  | .authPeriodExpiry port m => Sys2Proof.Machine.execAuthPeriodExpiry port m s
  | .portStop agent port => Sys2Proof.Machine.execPortStop agent port s
  | .portStart agent port => Sys2Proof.Machine.execPortStart agent port s
  | .moduleClear agent port m => Sys2Proof.Machine.execModuleClear agent port m s
  | .sheetSensorEdge n high stamp => Sys2Proof.Machine.execSheetSensorEdge n high stamp s
  | .lockoutEnd n => Sys2Proof.Machine.execLockoutEnd n s
  | .trackWindowEnd slot t trail => Sys2Proof.Machine.execTrackWindowEnd slot t trail s
  | .declare agent zone => Sys2Proof.Machine.execDeclare agent zone s
  | .pathClear => Sys2Proof.Machine.execPathClear s
  | .stepperSample n => Sys2Proof.Machine.execStepperSample n s
  | .estop agent n => Sys2Proof.Machine.execEstop agent n s
  | .home agent n => Sys2Proof.Machine.execHome agent n s
  | .coarseStep n dir => Sys2Proof.Machine.execCoarseStep n dir s
  | .encoderCount e aLeads both => Sys2Proof.Machine.execEncoderCount e aLeads both s
  | .encoderIndex e => Sys2Proof.Machine.execEncoderIndex e s
  | .encoderSpeed e => Sys2Proof.Machine.execEncoderSpeed e s
  | .resync agent e => Sys2Proof.Machine.execResync agent e s
  | .commutationEdge n code => Sys2Proof.Machine.execCommutationEdge n code s
  | .sectorTimeout n => Sys2Proof.Machine.execSectorTimeout n s
  | .motorSample n => Sys2Proof.Machine.execMotorSample n s
  | .stall n => Sys2Proof.Machine.execStall n s
  | .start agent n => Sys2Proof.Machine.execStart agent n s
  | .stop agent n => Sys2Proof.Machine.execStop agent n s
  | .coast agent n => Sys2Proof.Machine.execCoast agent n s
  | .keProbe agent n => Sys2Proof.Machine.execKeProbe agent n s
  | .startAdmit g => Sys2Proof.Machine.execStartAdmit g s
  | .listenDone n => Sys2Proof.Machine.execListenDone n s
  | .alignDone n => Sys2Proof.Machine.execAlignDone n s
  | .busSample g => Sys2Proof.Machine.execBusSample g s
  | .test agent g => Sys2Proof.Machine.execTest agent g s
  | .resetTrip agent g => Sys2Proof.Machine.execResetTrip agent g s
  | .slotSample e j delay => Sys2Proof.Machine.execSlotSample e j delay s
  | .fixedLatencyApply e j => Sys2Proof.Machine.execFixedLatencyApply e j s
  | .slModeWrite agent e j value => Sys2Proof.Machine.execSlModeWrite agent e j value s
  | .slotMove agent e j e2 j2 => Sys2Proof.Machine.execSlotMove agent e j e2 j2 s
  | .adcFrame c => Sys2Proof.Machine.execAdcFrame c s
  | .adcResult c k code => Sys2Proof.Machine.execAdcResult c k code s
  | .pwmPeriodStart n => Sys2Proof.Machine.execPwmPeriodStart n s
  | .sequenceEntryStart j => Sys2Proof.Machine.execSequenceEntryStart j s
  | .itemAdmit supply => Sys2Proof.Machine.execItemAdmit supply s
  | .railPgEdge n level => Sys2Proof.Machine.execRailPgEdge n level s
  | .railQualified n => Sys2Proof.Machine.execRailQualified n s
  | .railLost n => Sys2Proof.Machine.execRailLost n s
  | .railTimeout n => Sys2Proof.Machine.execRailTimeout n s
  | .railFallTimeout n => Sys2Proof.Machine.execRailFallTimeout n s
  | .railOff n => Sys2Proof.Machine.execRailOff n s
  | .domainRampDone d => Sys2Proof.Machine.execDomainRampDone d s
  | .down agent => Sys2Proof.Machine.execDown agent s
  | .retry agent => Sys2Proof.Machine.execRetry agent s
  | .avsRetry agent => Sys2Proof.Machine.execAvsRetry agent s
  | .cascadeWaitTimeout => Sys2Proof.Machine.execCascadeWaitTimeout s
  | .seqUiFall => Sys2Proof.Machine.execSeqUiFall s
  | .seqUiRise => Sys2Proof.Machine.execSeqUiRise s
  | .pfw => Sys2Proof.Machine.execPfw s
  | .pfwHoldEnd => Sys2Proof.Machine.execPfwHoldEnd s
  | .pfwRecover => Sys2Proof.Machine.execPfwRecover s
  | .pfwAutoUp => Sys2Proof.Machine.execPfwAutoUp s
  | .sequenceDone => Sys2Proof.Machine.execSequenceDone s
  | .slackEnter => Sys2Proof.Machine.execSlackEnter s
  | .slackExit => Sys2Proof.Machine.execSlackExit s
  | .avsEvaluate utils fifoLow => Sys2Proof.Machine.execAvsEvaluate utils fifoLow s
  | .avsReadbackCheck reading => Sys2Proof.Machine.execAvsReadbackCheck reading s
  | .refLoss => Sys2Proof.Machine.execRefLoss s
  | .refLossLong => Sys2Proof.Machine.execRefLossLong s
  | .refReturn => Sys2Proof.Machine.execRefReturn s
  | .adpllLock p => Sys2Proof.Machine.execAdpllLock p s
  | .adpllUnlock p => Sys2Proof.Machine.execAdpllUnlock p s
  | .adpllAcquireTimeout p => Sys2Proof.Machine.execAdpllAcquireTimeout p s
  | .ckPllWrite agent p value => Sys2Proof.Machine.execCkPllWrite agent p value s
  | .ckFracWrite agent p frac => Sys2Proof.Machine.execCkFracWrite agent p frac s
  | .pxTakeover => Sys2Proof.Machine.execPxTakeover s
  | .dllLock k => Sys2Proof.Machine.execDllLock k s
  | .dllUnlock k => Sys2Proof.Machine.execDllUnlock k s
  | .relock agent => Sys2Proof.Machine.execRelock agent s
  | .baseSynthLock => Sys2Proof.Machine.execBaseSynthLock s
  | .faultDispatch => Sys2Proof.Machine.execFaultDispatch s
  | .mergeWindowExpiry cls => Sys2Proof.Machine.execMergeWindowExpiry cls s
  | .firstClr agent => Sys2Proof.Machine.execFirstClr agent s
  | .unackClear agent w mask => Sys2Proof.Machine.execUnackClear agent w mask s
  | .stickyClear agent w mask => Sys2Proof.Machine.execStickyClear agent w mask s
  | .assayGo agent src => Sys2Proof.Machine.execAssayGo agent src s
  | .assayStart src => Sys2Proof.Machine.execAssayStart src s
  | .assayDone src pass softRefused => Sys2Proof.Machine.execAssayDone src pass softRefused s
  | .lockstep n trap => Sys2Proof.Machine.execLockstep n trap s
  | .roleMove => Sys2Proof.Machine.execRoleMove s
  | .beat agent => Sys2Proof.Machine.execBeat agent s
  | .hbMiss => Sys2Proof.Machine.execHbMiss s
  | .supPromoted digestOk imageOk => Sys2Proof.Machine.execSupPromoted digestOk imageOk s
  | .hmWaitTimeout => Sys2Proof.Machine.execHmWaitTimeout s
  | .hmSilent => Sys2Proof.Machine.execHmSilent s
  | .harbourmasterResync agent => Sys2Proof.Machine.execHarbourmasterResync agent s
  | .hmVote d0 d1 d2 => Sys2Proof.Machine.execHmVote d0 d1 d2 s
  | .tempWarn tj => Sys2Proof.Machine.execTempWarn tj s
  | .tempCrit tj => Sys2Proof.Machine.execTempCrit tj s
  | .stage agent => Sys2Proof.Machine.execStage agent s
  | .stageDone image => Sys2Proof.Machine.execStageDone image s
  | .tryBoot agent => Sys2Proof.Machine.execTryBoot agent s
  | .update agent => Sys2Proof.Machine.execUpdate agent s
  | .updateRoleMoved ok => Sys2Proof.Machine.execUpdateRoleMoved ok s
  | .accept agent => Sys2Proof.Machine.execAccept agent s
  | .abort agent => Sys2Proof.Machine.execAbort agent s
  | .write agent => Sys2Proof.Machine.execWrite agent s
  | .select agent => Sys2Proof.Machine.execSelect agent s
  | .keyWrite agent => Sys2Proof.Machine.execKeyWrite agent s
  | .keyLock agent => Sys2Proof.Machine.execKeyLock agent s
  | .keyErase agent => Sys2Proof.Machine.execKeyErase agent s
  | .legacyRead addr => Sys2Proof.Machine.execLegacyRead addr s
  | .legacyWrite addr value => Sys2Proof.Machine.execLegacyWrite addr value s
  | .legacyWriteApply => Sys2Proof.Machine.execLegacyWriteApply s
  | .legacyProtocolError => Sys2Proof.Machine.execLegacyProtocolError s
  | .imageRefresh => Sys2Proof.Machine.execImageRefresh s
  | .zerrRead => Sys2Proof.Machine.execZerrRead s
  | .countLoRead dma => Sys2Proof.Machine.execCountLoRead dma s
  | .zintClear mask => Sys2Proof.Machine.execZintClear mask s
  | .softRst => Sys2Proof.Machine.execSoftRst s
  | .submit mask tag => Sys2Proof.Machine.execSubmit mask tag s
  | .zpageAbort => Sys2Proof.Machine.execZpageAbort s
  | .rasterEnable sep dma burst => Sys2Proof.Machine.execRasterEnable sep dma burst s
  | .rasterWord => Sys2Proof.Machine.execRasterWord s
  | .dackTransfer word => Sys2Proof.Machine.execDackTransfer word s
  | .zpolyStart => Sys2Proof.Machine.execZpolyStart s
  | .zpolyStop => Sys2Proof.Machine.execZpolyStop s
  | .polyLockInput k active => Sys2Proof.Machine.execPolyLockInput k active s
  | .zmigKey value => Sys2Proof.Machine.execZmigKey value s
  | .windowRead addr => Sys2Proof.Machine.execWindowRead addr s
  | .windowWrite addr value => Sys2Proof.Machine.execWindowWrite addr value s
  | .tbAlarmWrite agent tick => Sys2Proof.Machine.execTbAlarmWrite agent tick s
  | .arm agent on => Sys2Proof.Machine.execArm agent on s
  | .alarm => Sys2Proof.Machine.execAlarm s
  | .cascadeWaitDone level => Sys2Proof.Machine.execCascadeWaitDone level s
  | .domainSwitchTimeout d => Sys2Proof.Machine.execDomainSwitchTimeout d s
  | .blockLockLost station => Sys2Proof.Machine.execBlockLockLost station s
  | .pcieLinkUp speed width => Sys2Proof.Machine.execPcieLinkUp speed width s
  | .configurationWrite d3hot fnMask aerMask => Sys2Proof.Machine.execConfigurationWrite d3hot fnMask aerMask s
  | .tempWarnEnd tj => Sys2Proof.Machine.execTempWarnEnd tj s

end Sys2Proof.Machine
end

