-- ==== Sys2Proof/Machine/Step.lean ====
section
/-!
DEFINITION. One step: the command at the front of the queue runs; with none waiting, one tick of TIME passes.
-/
namespace Sys2Proof.Machine

/-- TIME counts ticks of 10 ns from the release of RST_N; the keeper advances it by 4 on every REFCLK cycle (R21, R411, R420;
log 2). -/
def State.tick (s : State) : State :=
  if s.rstN then s else { s with time := (s.time + (if s.on F.CK_STAT_KEEPER then 4 else 1)) % 2 ^ 64 }

/-- The state with the front of the queue taken off. -/
def State.queueTail (s : State) : State := { s with pending := s.pending.tail }

def step (s : State) : Host.Outcome State Fault Refusal :=
  match s.pending with
  | c :: _ => exec c s.queueTail
  | [] => .next s.tick

/-- The command a table word spells, put at the front of the queue. -/
def State.withFetchWord (s : State) (nbits w : Nat) : State :=
  match decodeTableWord nbits w with
  | some c => { s with pending := c :: s.pending }
  | none => s

end Sys2Proof.Machine
end

