-- ==== Sys2Proof/Safety.lean ====
section
/-!
DEFINITION. The terms claims about runs of the 9640 use: the canonical form of the state's maps, and what a command leaves as it
was.
-/
namespace Sys2Proof

open Machine

/-- The register file, the staging copies and the held words list each key once, in rising order, and memory is in its
canonical form, so that equal contents are equal data. -/
def Machine.State.canon (s : State) : Bool :=
  Memory.wf s.mem && Sparse.sorted s.regs && Sparse.sorted s.stg && Sparse.sorted s.hold

/-- Every field but those listed reads in `t` as in `s`. -/
def keepsFields (l : List Fld) (s t : State) : Prop := ∀ g : Fld, (∀ f ∈ l, f.key ≠ g.key) → t.rd g = s.rd g

/-- Nothing but register fields differs between `s` and `t`, and of those only the listed ones. -/
def onlyFields (l : List Fld) (s t : State) : Prop := t = { s with regs := t.regs } ∧ keepsFields l s t

/-- As `onlyFields`, for a command that may also notify an owner: the marks of this tick and the outputs may differ too. -/
def onlyReports (l : List Fld) (s t : State) : Prop :=
  t = { s with regs := t.regs, fresh := t.fresh, out := t.out } ∧ keepsFields l s t

/-- An ordinary write by an agent to an offset of a page goes through and does nothing but what it writes: the page has a
block, the agent may write it, the page is not locked, the device is not in SAFE, and a write of the host ends no SLACK (R8–R11,
R401, R435, R502). -/
abbrev writable (s : State) (a : Agent) (p off : Nat) : Prop :=
  s.absentPage p = false ∧ s.isSafe = false ∧ s.mayWrite a p off = true ∧ s.on (H.LOCK p) = false ∧
    (a = .host → s.dev ≠ stSlack)

/-- A write by an agent to an offset of a page with a block is turned away: the agent may not write it, the page is locked, or the
device is in SAFE (R10, R11, R435, R502). -/
abbrev deniedWrite (s : State) (a : Agent) (p off : Nat) : Prop :=
  s.absentPage p = false ∧ (s.isSafe = true ∨ s.mayWrite a p off = false ∨ s.on (H.LOCK p) = true) ∧ (a = .host → s.dev ≠ stSlack)

/-- A message of the open session with the next sequence number and every reserved byte 0 (R259–R264). -/
abbrev messageOk (s : State) (h : MsgHdr) (namesJob : Bool) : Prop :=
  s.sqReady = true ∧ s.session = true ∧ h.epoch = s.rd F.QY_EPOCH_EPOCH ∧ h.seq ≠ 0 ∧ h.seq = seqNext (s.rd F.QY_ACK_SEQ) ∧
    h.clean = true ∧ (namesJob = false → h.job = 0)

/-- The state in which such a message has its effect: its entry is read, it counts as heard, ACK names it, and the held entries are
written while there is room (R257, R261, R278, R279). -/
def Machine.State.accepted (h : MsgHdr) (s : State) : State :=
  ((s.takeEntry.heard.wr F.QY_ACK_SEQ h.seq).modQuay fun q => { q with resendAt := none, waitResume := false }).drain

/-- A frame of a module that its port takes: the port runs, the module's window is open, a THROTTLED module is within its frames, and the tag
holds (an authenticated module's) or there is none and the module may be heard (R288, R295–R299). -/
abbrev frameOk (s : State) (p : Fin 2) (m : Fin 16) (type tid : Nat) (payload tag : List Nat) : Prop :=
  s.portState p ≠ 0 ∧ m ≠ 0 ∧ (s.edMod p m).window = true ∧
    (s.modState p m = edThrottled → (s.edMod p m).frames < max 1 (s.rd (F.ED_LIMIT_THR_FRAMES p))) ∧
    ((s.edAuthed p m = true ∧ tag.length = 4 ∧ tag = s.edTag p m type tid payload) ∨
      (s.edAuthed p m = false ∧ tag = [] ∧ (s.on (F.ED_CFG_AUTH_EN p) = false ∨ s.modHeard p m = true)))

/-- The state in which such a frame has its effect: it is counted in the window and marked valid. -/
def Machine.State.frameTaken (p : Fin 2) (m : Fin 16) (s : State) : State :=
  let t := s.modMod p m fun q => { q with frames := q.frames + 1, active := true }
  if s.edAuthed p m then t.modMod p m fun q => { q with tagFails := 0, valid := true } else t.modMod p m fun q => { q with valid := true }

end Sys2Proof
end

