-- ==== Sys2Proof/Certificates/Slice0/Obligations.lean ====
section
/-! DEFINITION. The statements for the provers, one for each entry of OBLIGATIONS.json. A command's statement says, for every state that meets
its conditions, the next state exec answers; a register keeps its value where that state does not write it. -/

open Sys2Proof Sys2Proof.Machine

/-- One step takes the command at the front of the queue and runs it on the state with the queue's rest. -/
def Obligations.StepRunsFront : Prop :=
  ∀ (c : Instr) (r : List Instr) (s : State), s.pending = c :: r → step s = exec c { s with pending := r }

/-- MODEL'S CHOICE (log 2): with no command waiting, one tick of TIME passes while RST_N is released, four while the keeper carries TIME (R21), and
nothing else changes. -/
def Obligations.EmptyQueueTick : Prop :=
  ∀ s : State, s.pending = [] →
    (s.rstN = true → step s = .next s) ∧
    (s.rstN = false → step s = .next { s with time := (s.time + if s.on F.CK_STAT_KEEPER then 4 else 1) % 2 ^ 64 })

/-- Register writes: the plain write of a page without commands of its own, the enables of the common header, COMMIT, LOCK, a COMMIT
while a set is pending, a refused COMMIT, ABORT of a page without one, and the w1c bits of PG_STAT. -/
def Obligations.RegisterBusCommands : Prop :=
  (∀ a p off v (s : State), (0x008 ≤ p ∧ p ≤ 0x013 ∨ p = 0x0E0) → 0x040 ≤ off → off < 0x1000 → off % 4 = 0 → writable s a p off →
    exec (.registerWrite a p off v 4) s = .next (s.plain p off (v % 2 ^ 32))) ∧
  (∀ a p v (s : State), p < 0x1000 → writable s a p 0x010 → exec (.registerWrite a p 0x010 v 4) s = .next (s.wr (H.EVT_EN p) (v % 2 ^ 32))) ∧
  (∀ a p v (s : State), p < 0x1000 → writable s a p 0x018 → exec (.registerWrite a p 0x018 v 4) s = .next (s.wr (H.FLT_EN p) (v % 2 ^ 32))) ∧
  (∀ a p (s : State), writable s a p 0x004 → hasStaged p = true → s.on (H.PEND p) = false → s.commitRefused p = false →
    (p < 0x020 ∨ 0x040 ≤ p) → (p < 0x0B0 ∨ 0x0BB < p) → s.commitNow p = false →
    exec (.commit a p) s = .next ((s.wr (H.PEND p) 1).mark p 58)) ∧
  (∀ a p (s : State), writable s a p 0x004 → s.on (H.PEND p) = true → exec (.commit a p) s = .next s) ∧
  (∀ a p (s : State), writable s a p 0x004 → hasStaged p = true → s.on (H.PEND p) = false → s.commitRefused p = true →
    (p < 0x0B0 ∨ 0x0BB < p) → exec (.commit a p) s = .next ((s.mark p 56).wr (H.MISMATCH p) 1)) ∧
  (∀ a p (s : State), writable s a p 0x004 → exec (.lock a p) s = .next (s.wr (H.LOCK p) 1)) ∧
  (∀ a p (s : State), writable s a p 0x004 → (p < 0x051 ∨ 0x052 < p) → (p < 0x061 ∨ 0x080 < p) → exec (.pageAbort a p) s = .next s) ∧
  (∀ a (j : Fin 2) (s : State), writable s a (0x051 + j) 0x004 → s.rd (H.STATE (0x051 + j)) ≠ 0 →
    exec (.pageAbort a (0x051 + j)) s = .next (s.ejFail j 6)) ∧
  (∀ a (n : Fin 32) (s : State), writable s a (0x061 + n) 0x004 → exec (.pageAbort a (0x061 + n)) s = exec (.dmaAbort a n) s) ∧
  (∀ a p (s : State), writable s a p 0x008 → s.isFresh p 56 = false → s.isFresh p 57 = false →
    exec (.statusFlagClear a p true true) s = .next ((s.wr (H.MISMATCH p) 0).wr (H.ACCESS_BUSY p) 0)) ∧
  (∀ a p (s : State), writable s a p 0x008 → s.isFresh p 56 = true → s.isFresh p 57 = true →
    exec (.statusFlagClear a p true true) s = .next s)

/-- The event and fault bits clear where written 1 whatever the lock: an event bit but one set in this tick, a fault bit but one whose
condition is active; FIRST reads 0xFF once no fault bit is left. -/
def Obligations.HeaderClears : Prop :=
  (∀ a p mask (s : State), s.absentPage p = false → s.mayWrite a p 0x00C = true → (a = .host → s.dev ≠ stSlack) →
    ∃ t, exec (.pgEvtClear a p mask) s = .next t ∧ onlyFields [H.EVT p] s t ∧
      ∀ i < 32, bit (s.rd (H.EVT p)) i = true → s.rd (H.EVT p) < 2 ^ 32 →
        bit (t.rd (H.EVT p)) i = (!bit mask i || s.isFresh p i || (p == 0 && i == 1 && s.fc.tempWarn))) ∧
  (∀ a p mask (s : State), s.absentPage p = false → s.mayWrite a p 0x014 = true → (a = .host → s.dev ≠ stSlack) →
    (p < 0x028 ∨ 0x02D < p) → p ≠ 0x0BC →
    exec (.pgFltClear a p mask) s = .next (s.fltClear p (s.clearable p mask))) ∧
  (∀ p m (s : State), (s.rd (H.FLT p) &&& (2 ^ 24 - 1 - m % 2 ^ 24)) = 0 →
    s.fltClear p m = (s.wr (H.FLT p) 0).wr (H.FIRST p) 0xFF) ∧
  (∀ p m (s : State), (s.rd (H.FLT p) &&& (2 ^ 24 - 1 - m % 2 ^ 24)) ≠ 0 →
    s.fltClear p m = s.wr (H.FLT p) (s.rd (H.FLT p) &&& (2 ^ 24 - 1 - m % 2 ^ 24)))

/-- PG_CTRL.OWNER is written by the berth that holds role 0x0 alone, whatever the owner; another agent's write is counted and ignored; a DMA channel's owner
changes only in IDLE and HALTED; the new owner alone may write from then on. -/
def Obligations.OwnerChanges : Prop :=
  (∀ a p host (s : State), s.absentPage p = false → s.isSafe = false → s.on (H.LOCK p) = false → s.supervisor a = true → (p < 0x061 ∨ 0x080 < p) →
    exec (.ownerChange a p host) s = .next (s.wr (H.OWNER p) (b2n host))) ∧
  (∀ a p host (s : State), s.absentPage p = false → s.isSafe = false → s.on (H.LOCK p) = false → s.supervisor a = true → 0x061 ≤ p → p ≤ 0x080 →
    s.rd (H.STATE p) = dcIdle ∨ s.rd (H.STATE p) = dcHalted → exec (.ownerChange a p host) s = .next (s.wr (H.OWNER p) (b2n host))) ∧
  (∀ a p host (s : State), s.absentPage p = false → s.isSafe = false → s.on (H.LOCK p) = false → s.supervisor a = true → 0x061 ≤ p → p ≤ 0x080 →
    s.rd (H.STATE p) ≠ dcIdle → s.rd (H.STATE p) ≠ dcHalted →
    exec (.ownerChange a p host) s = .next ((s.mark p 57).wr (H.ACCESS_BUSY p) 1)) ∧
  (∀ a p host (s : State), s.absentPage p = false → s.supervisor a = false → (a = .host → s.dev ≠ stSlack) →
    exec (.ownerChange a p host) s = .next (s.countDenied a p 0x004)) ∧
  (∀ (n : Fin 12) (s : State), s.supervisor (.berth n) = true ↔ s.role n = 0 ∧ berthRuns (s.rd (H.STATE (0x008 + n.val))) = true) ∧
  (∀ p off (n : Fin 12) (s : State), (s.wr (H.OWNER p) 1).mayWrite (.berth n) p off = false ∧ (s.wr (H.OWNER p) 1).mayWrite .host p off = true ∧
    (s.wr (H.OWNER p) 0).mayWrite .host p off = false)

/-- Isolation of a page whose block serves no station and no page of paper: ISOLATE and ISOLATED read 1, its Assays are abandoned and
nothing else changes; the restore, refused while a source of the page is active, clears both bits; isolation of a page that is
isolated leaves it so. -/
def Obligations.Isolation : Prop :=
  (∀ a p (s : State), writable s a p 0x004 → s.on (H.ISOLATED p) = false → s.fc.hw = [] →
    (p < 0x020 ∨ p = 0x040 ∨ p = 0x05A ∨ p = 0x060 ∨ p = 0x0BC ∨ p = 0x0C5 ∨ p = 0x0E0) →
    exec (.isolate a p) s = .next (((s.wr (H.ISOLATE p) 1).wr (H.ISOLATED p) 1).assayAbandon p)) ∧
  (∀ a p (s : State), writable s a p 0x004 → s.on (H.ISOLATED p) = true → s.fc.hw = [] →
    exec (.isolate a p) s = .next (s.wr (H.ISOLATE p) 1)) ∧
  (∀ a p (s : State), writable s a p 0x004 → s.on (H.ISOLATED p) = true → s.pageActive p = true →
    exec (.isolateRestore a p) s = .next s) ∧
  (∀ a p (s : State), writable s a p 0x004 → s.on (H.ISOLATED p) = true → s.pageActive p = false →
    (p < 0x020 ∨ p = 0x040 ∨ p = 0x05A ∨ p = 0x060 ∨ p = 0x0BC ∨ p = 0x0C5 ∨ p = 0x0E0) →
    exec (.isolateRestore a p) s = .next ((s.wr (H.ISOLATE p) 0).wr (H.ISOLATED p) 0))

/-- A write by an agent without the right to the page, to a locked page or in SAFE is counted in DV_CNT_OWNER_WR with its page, offset
and agent, and changes nothing else. -/
def Obligations.DeniedWrites : Prop :=
  (∀ a p off v (s : State), (0x008 ≤ p ∧ p ≤ 0x013 ∨ p = 0x0E0) → 0x040 ≤ off → off < 0x1000 → off % 4 = 0 → deniedWrite s a p off →
    exec (.registerWrite a p off v 4) s = .next (s.countDenied a p off)) ∧
  (∀ a p (s : State), deniedWrite s a p 0x004 → exec (.commit a p) s = .next (s.countDenied a p 0x004)) ∧
  (∀ a p (s : State), deniedWrite s a p 0x004 → exec (.lock a p) s = .next (s.countDenied a p 0x004)) ∧
  (∀ a p (s : State), deniedWrite s a p 0x004 → exec (.isolate a p) s = .next (s.countDenied a p 0x004)) ∧
  (∀ a p off (s : State), onlyFields [F.DV_CNT_OWNER_WR, F.DV_LAST_WR_PAGE, F.DV_LAST_WR_OFFS, F.DV_LAST_WR_AGENT] s (s.countDenied a p off) ∧
    (s.countDenied a p off).rd F.DV_CNT_OWNER_WR =
      min (s.rd F.DV_CNT_OWNER_WR + 1) (2 ^ F.DV_CNT_OWNER_WR.width - 1) % 2 ^ F.DV_CNT_OWNER_WR.width ∧
    (s.countDenied a p off).rd F.DV_LAST_WR_PAGE = p % 2 ^ F.DV_LAST_WR_PAGE.width ∧
    (s.countDenied a p off).rd F.DV_LAST_WR_OFFS = off % 2 ^ F.DV_LAST_WR_OFFS.width ∧
    (s.countDenied a p off).rd F.DV_LAST_WR_AGENT = agentCode a % 2 ^ F.DV_LAST_WR_AGENT.width)

/-- A staged set applies at its boundary: every staging copy of the page becomes the active value, no copy of the page is left, SEQ
counts it and STAGED_PEND reads 0; the copies of other pages stay. -/
def Obligations.StagedSetApplies : Prop :=
  ∀ p (s : State), s.on (H.PEND p) = true → s.on (H.ISOLATED p) = false → s.isFresh p 58 = false → p < 2 ^ 12 →
    (s.boundary p).rd (H.PEND p) = 0 ∧
    (∀ f : Fld, pageOfKey f.key = p → Sparse.get? f.key (s.boundary p).stg = none) ∧
    (∀ f : Fld, pageOfKey f.key ≠ p → (s.boundary p).rd f = s.rd f ∧ (s.boundary p).stgRd f = s.stgRd f) ∧
    (∀ f : Fld, pageOfKey f.key = p → 0x040 ≤ f.off → f.off < 0x1000 → f.lsb < 32 → f.page = p → Sparse.sorted s.stg = true →
      (s.boundary p).rd f = s.stgRd f)

/-- The write-1-to-clear registers of the fault collector, the end of a merge window, and the dispatch of a raise by the supervisor. -/
def Obligations.CollectorCommands : Prop :=
  (∀ a (s : State), writable s a 0x001 0x044 → exec (.firstClr a) s = .next ((s.wr F.FC_FIRST_VALID 0).wr F.FC_FIRST_OVF 0)) ∧
  (∀ a (w : Fin 8) mask (s : State), writable s a 0x001 (0x080 + 4 * w.val) →
    exec (.unackClear a w mask) s = .next (s.each ((List.range 32).filter fun b => bit mask b && bit (s.rd (F.FC_UNACK w)) b)
      fun b t => t.ackSource (32 * w.val + b))) ∧
  (∀ (w : Fin 8) (b : Fin 32) (s : State), bit (s.rd (F.FC_UNACK w)) b = true →
    s.ackSource (32 * w.val + b) = { s.wr (F.FC_UNACK w) (s.rd (F.FC_UNACK w) - 2 ^ b.val) with
      fc := { s.fc with acked := (s.time, if s.fc.acked.1 = s.time then (32 * w.val + b) :: s.fc.acked.2 else [32 * w.val + b]) } }) ∧
  (∀ a (w : Fin 8) mask (s : State), writable s a 0x001 (0x0A0 + 4 * w.val) →
    ∃ t, exec (.stickyClear a w mask) s = .next t ∧ onlyFields [F.FC_STICKY w] s t ∧
      ∀ b : Fin 32, bit (t.rd (F.FC_STICKY w)) b = (bit (s.rd (F.FC_STICKY w)) b && (!bit mask b || s.srcActive (32 * w.val + b)))) ∧
  (∀ c w (s : State), s.fc.merges[c] = some w → w.opened + s.rd F.FC_CFG_MERGE_MAX * 100000 ≤ s.time →
    exec (.mergeWindowExpiry c) s = .next { s with fc := { s.fc with
      merges := s.fc.merges.set c none, closed := (s.time, if s.fc.closed.1 = s.time then c.val :: s.fc.closed.2 else [c.val]) } }) ∧
  (∀ c w (s : State), s.fc.merges[c] = some w → s.time < w.opened + s.rd F.FC_CFG_MERGE_MAX * 100000 →
    exec (.mergeWindowExpiry c) s = .next s) ∧
  (∀ r l n (s : State), s.fc.hw = [] → s.fc.dispatch = r :: l → s.holder 0 = some n → (∀ x ∈ l, x.src ≠ r.src) →
    exec .faultDispatch s = .next ((({ s with fc := { s.fc with dispatch := l } } : State).react r).ackSource r.src)) ∧
  (∀ (s : State), s.fc.hw = [] → s.holder 0 = none → exec .faultDispatch s = .next s)

/-- Assays: GO queues one for the unit of the last raise or answers NONE; an Assay whose unit admits it starts, else it stays queued; its
result counts as transient or lasting and closes the merge window of its source. -/
def Obligations.AssayCommands : Prop :=
  (∀ a src k u (s : State), writable s a 0x001 0x054 → src < 256 → s.fc.lastUnit.find? (·.1 == src) = some (src, some (k, u)) →
    (s.fc.assays.any fun x => x.kind == k && x.unit == u) = false →
    exec (.assayGo a src) s = .next ((({ s.wr F.FC_ASSAY_SRC src with
      fc := { s.fc with assays := s.fc.assays ++ [⟨src, k, u, false, 0, true⟩] } } : State)).wr F.FC_ASSAY_STATUS 1)) ∧
  (∀ a src (s : State), writable s a 0x001 0x054 → src < 256 → s.fc.lastUnit.find? (·.1 == src) = none →
    exec (.assayGo a src) s = .next ((s.wr F.FC_ASSAY_SRC src).wr F.FC_ASSAY_STATUS 5)) ∧
  (∀ (src : Fin 256) a (s : State), s.fc.assays.find? (fun x => x.src == src.val && !x.running) = some a → s.assayFits a = false →
    exec (.assayStart src) s = .next (s.wr F.FC_ASSAY_STATUS 1)) ∧
  (∀ (src : Fin 256) a (s : State), s.fc.assays.find? (fun x => x.src == src.val && !x.running) = some a → s.assayFits a = true →
    a.kind ≠ .signature → a.kind ≠ .relock → a.byGo = true →
    exec (.assayStart src) s = .next (({ s with fc := { s.fc with
      assays := s.fc.assays.map fun b => if b = a then { b with running := true, started := s.time } else b } } : State).wr F.FC_ASSAY_STATUS 2)) ∧
  (∀ (src : Fin 256) soft a (s : State), s.fc.assays.find? (fun x => x.src == src.val && x.running) = some a →
    a.kind ≠ .signature → a.kind ≠ .refconv → s.fc.merges[src.val / 16 % 16]'(by omega) = none → s.on (H.OWNER 0x001) = false →
    exec (.assayDone src true soft) s = .next (((({ s with fc := { s.fc with assays := s.fc.assays.filter (· != a) } } : State).sat
      (F.FC_STATS_TRANS src)).wr F.FC_ASSAY_STATUS 3).event 0x001 3)) ∧
  (∀ (src : Fin 256) soft a (s : State), s.fc.assays.find? (fun x => x.src == src.val && x.running) = some a →
    a.kind = .prbs → s.fc.merges[src.val / 16 % 16]'(by omega) = none →
    exec (.assayDone src false soft) s = .next ((((({ s with fc := { s.fc with assays := s.fc.assays.filter (· != a) } } : State).sat
      (F.FC_STATS_LASTING src)).wr F.FC_ASSAY_STATUS 4).event 0x001 3).modLink (Fin.ofNat 6 (a.unit / 16))
        fun q => { q with lasting := q.lasting ||| 2 ^ (a.unit % 16) }))

/-- Berths: a mismatch or trap of a working or spare pair halts it, counts and raises its source; the oldest waiting role of the lowest code
moves to the spare of lowest number. -/
def Obligations.BerthCommands : Prop :=
  (∀ (n : Fin 12) trap (s : State), s.rd (H.STATE (0x008 + n)) = 0 ∨ s.rd (H.STATE (0x008 + n)) = 3 ∨ s.rd (H.STATE (0x008 + n)) = 6 →
    s.role n = 0xE ∨ s.role n = 0xF →
    exec (.lockstep n trap) s = .next (((s.haltBerth n).sat (if trap then F.BR_CNT_TRAP_UE n else F.BR_CNT_MISMATCH n)).raiseWith
      (16 + n) (0x008 + n) (b2n trap) 0 (some (.signature, n)))) ∧
  (∀ (n : Fin 12) trap (s : State), s.rd (H.STATE (0x008 + n)) = 0 ∨ s.rd (H.STATE (0x008 + n)) = 3 ∨ s.rd (H.STATE (0x008 + n)) = 6 →
    s.role n < 0xE →
    exec (.lockstep n trap) s = .next ((((s.haltBerth n).sat (if trap then F.BR_CNT_TRAP_UE n else F.BR_CNT_MISMATCH n)).raiseWith
      (16 + n) (0x008 + n) (b2n trap) 0 (some (.signature, n))).openRecovery (16 + n) (0x008 + n))) ∧
  (∀ (n : Fin 12) trap (s : State), s.rd (H.STATE (0x008 + n)) ≠ 0 → s.rd (H.STATE (0x008 + n)) ≠ 3 → s.rd (H.STATE (0x008 + n)) ≠ 6 →
    exec (.lockstep n trap) s = .next s) ∧
  (∀ (n : Fin 12) (s : State), s.role n ≠ 0 → s.role n ≠ 0xE → s.role n ≠ 0xF →
    s.haltBerth n = { s.wr (H.STATE (0x008 + n)) 1 with
      berths := { s.berths with moves := s.berths.moves ++ [⟨s.role n, n, s.time⟩] } }) ∧
  (∀ m n h (s : State), s.nextMove = some m → s.holder 0 = some h →
    ((({ s with berths := { s.berths with moves := s.berths.moves.filter (· != m) } } : State).wr (F.BR_ROLE_ROLE m.source) 0xE).closeRecovery
      (16 + m.source)).spare = some n →
    exec .roleMove s = .next (((({ s with berths := { s.berths with moves := s.berths.moves.filter (· != m) } } : State).wr
      (F.BR_ROLE_ROLE m.source) 0xE).closeRecovery (16 + m.source)).takeRole n m.role m.since)) ∧
  (∀ n r since (s : State), s.takeRole n r since =
    (((((s.wr (F.BR_ROLE_ROLE n) r).wr (H.STATE (0x008 + n)) 0).wr (F.BR_MOVE_TIME n) (min ((s.time - since) / 1000) 0xFFFF)).event
      (0x008 + n) 0).emit (.toRole r 0 n))) ∧
  (∀ (s : State), s.nextMove = none ∨ s.holder 0 = none → exec .roleMove s = .next s)

/-- The Harbourmaster: the first BEAT after a start begins WATCH, a BEAT in WATCH restarts the 2 ms, two missed milliseconds start a
promotion, the promoted berth takes role 0x0, no BEAT within 1.2 s of a start begins a promotion too, and RESYNC sets its event.
The vote of the Harbourmaster's copies: agreement changes nothing; one copy against two is outvoted, counted and raises HM_DISAGREE, and
from its third time within a second it is excluded; two disagreements, or one of two remaining copies, raise HM_NO_MAJORITY from state SAFE. -/
def Obligations.HarbourmasterCommands : Prop :=
  (∀ (n : Fin 12) (s : State), writable s (.berth n) 0x002 0x04C → s.role n = 0 → s.rd F.HM_STAT_STATE = 0 →
    exec (.beat (.berth n)) s = .next ((((({ s with berths := { s.berths with lastBeat := s.time, supBerth := n.val } } : State).satAdd
      F.HM_CNT_MISSES 0).wr F.HM_STAT_STATE 1).wr (H.STATE 0x002) 1).wr F.HM_STAT_SUP_BERTH n.val)) ∧
  (∀ (n : Fin 12) (s : State), writable s (.berth n) 0x002 0x04C → s.role n = 0 → s.rd F.HM_STAT_STATE = 1 →
    exec (.beat (.berth n)) s = .next (({ s with berths := { s.berths with lastBeat := s.time } } : State).satAdd F.HM_CNT_MISSES
      (s.time / 100000 - s.berths.lastBeat / 100000 - 1))) ∧
  (∀ (s : State), s.rd F.HM_STAT_STATE = 1 → s.berths.lastBeat / 100000 + 3 ≤ s.time / 100000 →
    exec .hbMiss s = .next (((((s.satAdd F.HM_CNT_MISSES 2).haltBerth s.berths.supBerth).hmTo 2).raiseWith (16 + s.berths.supBerth)
      (0x008 + s.berths.supBerth) 2 0 (some (.signature, s.berths.supBerth))).openRecovery (16 + s.berths.supBerth) (0x008 + s.berths.supBerth))) ∧
  (∀ (s : State), s.rd F.HM_STAT_STATE = 1 → s.time / 100000 < s.berths.lastBeat / 100000 + 3 → exec .hbMiss s = .next s) ∧
  (∀ digestOk imageOk n (s : State), s.rd F.HM_STAT_STATE = 2 → s.berths.promoting = none → s.spare = some n → (digestOk || imageOk) = true →
    s.role s.berths.supBerth = 0 →
    exec (.supPromoted digestOk imageOk) s = .next
      (let t := (s.wr (F.BR_ROLE_ROLE s.berths.supBerth) 0xE).takeRole n 0 s.berths.lastBeat
       { t with berths := { t.berths with promoting := some n } })) ∧
  (∀ n (s : State), s.rd F.HM_STAT_STATE = 2 → s.berths.promoting = none → s.spare = some n →
    exec (.supPromoted false false) s = .next ((s.hmTo 3).raiseWith (16 + s.berths.supBerth) (0x008 + s.berths.supBerth) 2 3 none)) ∧
  (∀ (s : State), s.rd F.HM_STAT_STATE = 0 → s.berths.waitSince + 120000000 ≤ s.time → s.holder 0 = none →
    exec .hmWaitTimeout s = .next ((({ s with berths := { s.berths with supBerth := 0, promoting := none } } : State).wr
      F.HM_STAT_STATE 2).wr (H.STATE 0x002) 2)) ∧
  (∀ n (s : State), s.holder 0 = some n → exec .hmSilent s = .next ((s.raise 251 0x002 3).event 0x002 1)) ∧
  (∀ a (s : State), writable s a 0x002 0x04C → exec (.harbourmasterResync a) s = .next (s.event 0x002 1)) ∧
  (∀ (s : State), exec (.hmVote false false false) s = .next s) ∧
  (∀ (s : State), s.on F.HM_STAT_DUAL = false → ((s.berths.outvotes[0].filter fun t => s.time < t + 100000000).length < 2) →
    exec (.hmVote true false false) s = .next
      (let l := s.time :: (s.berths.outvotes[0].filter fun t => s.time < t + 100000000)
       ({ s.sat F.HM_VOTE_DIS0 with berths := { s.berths with outvotes := s.berths.outvotes.set 0 l } } : State).raise 248 0x002 0)) ∧
  (∀ (s : State), s.on F.HM_STAT_DUAL = false → 2 ≤ (s.berths.outvotes[1].filter fun t => s.time < t + 100000000).length →
    exec (.hmVote false true false) s = .next
      (let l := s.time :: (s.berths.outvotes[1].filter fun t => s.time < t + 100000000)
       ((({ s.sat F.HM_VOTE_DIS1 with berths := { s.berths with outvotes := s.berths.outvotes.set 1 l } } : State).wr F.HM_STAT_DUAL 1).wr
         F.HM_STAT_EXCLUDED 1).raise 248 0x002 0)) ∧
  (∀ (s : State), s.on F.HM_STAT_DUAL = false → exec (.hmVote true true false) s = .next ((s.hmTo 4).raise 249 0x002 1)) ∧
  (∀ (s : State), s.on F.HM_STAT_DUAL = true → s.rd F.HM_STAT_EXCLUDED = 2 → exec (.hmVote true false true) s = .next ((s.hmTo 4).raise 249 0x002 1)) ∧
  (∀ (s : State), s.on F.HM_STAT_DUAL = true → s.rd F.HM_STAT_EXCLUDED = 2 → exec (.hmVote false false true) s = .next s)

/-- Junction temperature: DV_TEMP shows each sample and TJ_MAX the highest; reaching the warning threshold raises TEMP_WARN once, 15 °C above it
TEMP_CRIT is raised, and 2 °C below it the warning ends.
The alarm: a write of TB_ALARM_HI makes the 64-bit value take effect from the next tick, ARM arms it, and TIME at or beyond an armed alarm sets the
event and clears ARM. -/
def Obligations.TemperatureAndAlarm : Prop :=
  (∀ tj (s : State), tj < 2 ^ 16 → s.warnAt ≤ toSigned 16 tj → s.fc.tempWarn = false →
    exec (.tempWarn tj) s = .next ((({ s.tempSample tj with fc := { s.fc with tempWarn := true } } : State).event 0x000 1).raise 0 0x000 0)) ∧
  (∀ tj (s : State), tj < 2 ^ 16 → toSigned 16 tj < s.warnAt → exec (.tempWarn tj) s = .next (s.tempSample tj)) ∧
  (∀ tj (s : State), tj < 2 ^ 16 → s.warnAt + 240 ≤ toSigned 16 tj → exec (.tempCrit tj) s = .next ((s.tempSample tj).raise 1 0x000 1)) ∧
  (∀ tj (s : State), tj < 2 ^ 16 → toSigned 16 tj < s.warnAt + 240 → exec (.tempCrit tj) s = .next (s.tempSample tj)) ∧
  (∀ tj (s : State), tj < 2 ^ 16 → toSigned 16 tj ≤ s.warnAt - 32 →
    exec (.tempWarnEnd tj) s = .next { s.tempSample tj with fc := { s.fc with tempWarn := false } }) ∧
  (∀ tj (s : State), tj < 2 ^ 16 → toSigned 16 (s.rd F.DV_TEMP_TJ_MAX) < toSigned 16 tj →
    s.tempSample tj = (s.wr F.DV_TEMP_TJ tj).wr F.DV_TEMP_TJ_MAX tj) ∧
  (∀ tj (s : State), tj < 2 ^ 16 → toSigned 16 tj ≤ toSigned 16 (s.rd F.DV_TEMP_TJ_MAX) → s.tempSample tj = s.wr F.DV_TEMP_TJ tj) ∧
  (∀ a tick (s : State), writable s a 0x005 0x04C → exec (.tbAlarmWrite a tick) s = .next (((s.wr F.TB_ALARM_LO tick).wr F.TB_ALARM_HI (tick / 2 ^ 32)).modClk
    fun c => { c with alarm := tick % 2 ^ 64, alarmAt := s.time + 1 })) ∧
  (∀ a (s : State), writable s a 0x005 0x050 → s.on F.TB_ALARM_CTL_ARM = false →
    exec (.arm a true) s = .next ((s.wr F.TB_ALARM_CTL_ARM 1).modClk fun c => { c with alarmAt := s.time + 1 })) ∧
  (∀ a (s : State), writable s a 0x005 0x050 → s.on F.TB_ALARM_CTL_ARM = true → exec (.arm a true) s = .next (s.wr F.TB_ALARM_CTL_ARM 1)) ∧
  (∀ a (s : State), writable s a 0x005 0x050 → exec (.arm a false) s = .next (s.wr F.TB_ALARM_CTL_ARM 0)) ∧
  (∀ (s : State), s.on F.TB_ALARM_CTL_ARM = true → s.clocks.alarm ≤ s.time → s.clocks.alarmAt ≤ s.time →
    exec .alarm s = .next ((s.event 0x005 0).wr F.TB_ALARM_CTL_ARM 0)) ∧
  (∀ (s : State), s.on F.TB_ALARM_CTL_ARM = false ∨ s.time < s.clocks.alarm ∨ s.time < s.clocks.alarmAt → exec .alarm s = .next s)

/-- RST_N: its assertion returns every register but the log's head and sequence number to its reset value, keeps the bytes of MRAM and clears
every other byte; its release, and the internal power-on reset, start the sequencer and the boot ROM; a warm start does so from OFF with what
PD0 and MRAM hold. -/
def Obligations.ResetCommands : Prop :=
  (∀ (s : State), ∃ t, exec .rstNAssert s = .next t ∧ t.rstN = true ∧ t.faultN = State.reset.faultN ∧ t.time = State.reset.time ∧
    (∀ f : Fld, f.key ≠ F.LG_STAT_HEAD.key → f.key ≠ F.LG_SEQ_LAST.key → t.rd f = f.reset) ∧
    t.rd F.LG_STAT_HEAD = s.rd F.LG_STAT_HEAD ∧ t.rd F.LG_SEQ_LAST = s.rd F.LG_SEQ_LAST ∧
    (∀ a, inMram a = true → t.ldByte a = s.ldByte a) ∧ (∀ a, inMram a = false → t.ldByte a = 0) ∧
    t.fc = State.reset.fc ∧ t.tl = State.reset.tl ∧ t.quay = State.reset.quay ∧ t.dma = State.reset.dma ∧ t.mo = State.reset.mo ∧
    t.ct = State.reset.ct ∧ t.sta = State.reset.sta ∧ t.ed = State.reset.ed ∧ t.lg = State.reset.lg ∧ t.stg = []) ∧
  (∀ a b prof (s : State), s.rstN = true → exec (.rstNRelease a b prof) s = .next (s.releaseReset a b prof)) ∧
  (∀ a b prof (s : State), s.rstN = false → exec (.rstNRelease a b prof) s = .next s) ∧
  (∀ a b prof (s : State), s.rstN = true → exec (.internalPowerOnReset a b prof) s = .next s.assertReset) ∧
  (∀ a b prof (s : State), s.rstN = false → exec (.internalPowerOnReset a b prof) s = .next (s.assertReset.releaseReset a b prof)) ∧
  (∀ (s : State), s.boot.warm = true → s.dev = stOff → ∃ t, exec .warmStart s = .next t ∧ t.time = s.time ∧ t.boot.warm = false ∧
    t.stg = s.stg.filter (fun e => pd0Page (pageOfKey e.1)) ∧ t.hold = [] ∧ t.tl = Timeline.reset ∧ t.dma = Dma.reset ∧
    t.ct = Control.reset ∧ t.sta = Stations.reset ∧ t.berths.waitSince = s.time) ∧
  (∀ (s : State), s.boot.warm = false ∨ s.dev ≠ stOff → exec .warmStart s = .next s)

/-- From BOOT to READY: BOOT ends when an image is verified and every domain is ON, with the banks cleared, the DRAM channels training and every
berth in FILL; FILL ends when the fills are over, with the roles assigned; either command changes nothing before. -/
def Obligations.BootStates : Prop :=
  (∀ (s : State), s.dev = stBoot → s.boot.verified = true → s.domainsOn = true →
    exec .bootDone s = .next ((((((((s.each (List.range 7) fun d t => t.clearDomain d).fillRange 0x03C40000 0x10000).wr F.DP_STAT_CH0 chTraining).wr
      F.DP_STAT_CH1 chTraining).wr (H.STATE 0x058) 0).each (List.range 12) fun n t => t.wr (H.STATE (0x008 + n)) 6).modBoot
        fun b => { b with banksFilled := true, since := s.time }).devTo stFill)) ∧
  (∀ (s : State), s.dev ≠ stBoot ∨ s.boot.verified = false ∨ s.domainsOn = false → exec .bootDone s = .next s) ∧
  (∀ (s : State), s.dev = stFill → s.fillOver = true → s.boot.banksFilled = true → s.slotValid (s.rd F.PF_STAT_ACTIVE) = true →
    s.ldByte (slotBase (s.rd F.PF_STAT_ACTIVE) + 6) ≠ 1 →
    exec .fillDone s = .next
      (let p := s.rd F.PF_STAT_ACTIVE
       let t1 := ({ s with boot := { s.boot with slotOk := true, noProfile := false, stations := s.ldByte (slotBase p + 7) } } : State)
       let t2 := (((t1.slotPower p).slotRecords p).flag F.DV_INFO_ZE40 false).flag F.PF_STAT_ZE40 false
       let t3 := t2.modClk fun c => { c with groups := t2.on F.CK_ROLE_GROUPS }
       let t4 := ({ t3 with seq := { t3.seq with early := false, idleSince := t3.time } } : State).takeRoles.rowRegs
       let t5 := (t4.wr (H.STATE 0x001) 0).storeRegs.devTo stReady
       (if t5.boot.imageBad then (t5.modBoot fun b => { b with imageBad := false }).raise 28 0x0F0 0 else t5).event 0x0F0 2)) ∧
  (∀ (s : State), s.dev ≠ stFill ∨ s.fillOver = false ∨ s.boot.banksFilled = false → exec .fillDone s = .next s) ∧
  (∀ (s : State) (n : Fin 12), s.boot.slotOk = false → s.boot.minus4S = false →
    s.takeRoles.role n = defaultRole n ∧ s.takeRoles.rd (H.STATE (0x008 + n)) = if n.val < 10 then 0 else 3) ∧
  (∀ st (s : State), s.devTo st = (((s.wr (H.STATE 0) st).event 0x000 0).logState st).postState)

/-- The firmware commands of FW_CMD, and those of PF_CMD that touch the key slots.
The profile and key commands of PF_CMD: a slot is written, checked and logged; a valid slot is selected in READY; keys are written, locked and
erased. -/
def Obligations.FirmwareCommands : Prop :=
  (∀ a w off (s : State), writable s a 0x0F0 0x05C → s.rd F.FW_STAT_STATUS ≠ 1 → s.boot.updating = false →
    hostWindow (s.rd F.FW_SRC_HI * 2 ^ 32 + s.rd F.FW_SRC_LO) = some (w, off) →
    s.winOk w off (s.rd F.FW_LEN_BYTES) false = true → (s.rd F.FW_SRC_HI * 2 ^ 32 + s.rd F.FW_SRC_LO) % 8 = 0 →
    s.rd F.FW_LEN_BYTES ≤ 25165824 →
    ∃ t, exec (.stage a) s = .next t ∧ t.rd F.FW_STAT_STATUS = 1 ∧ t.boot.stagedBank = 1 - s.rd F.FW_STAT_BANK ∧
      t = { s with regs := t.regs, boot := t.boot } ∧
      keepsFields [F.FW_STAT_STATUS, F.FW_VER_VERSION, F.FW_SVN_RUN, F.FW_SVN_COUNTER, F.FW_ALT_VERSION, F.PF_STAT_KEY_LOCK] s t) ∧
  (∀ im (s : State), s.rd F.FW_STAT_STATUS = 1 → im.ok = false →
    ∃ t, exec (.stageDone im) s = .next t ∧ t.rd F.FW_STAT_STATUS = 6 ∧ t = { s with regs := t.regs, boot := t.boot }) ∧
  (∀ im (s : State), s.rd F.FW_STAT_STATUS ≠ 1 → exec (.stageDone im) s = .next s) ∧
  (∀ a (s : State), writable s a 0x0F0 0x05C → s.rd F.FW_STAT_STATUS = 2 →
    exec (.tryBoot a) s = .next (s.setBootRecord s.bootRecord.1 s.boot.stagedBank 2)) ∧
  (∀ a (s : State), writable s a 0x0F0 0x05C → s.rd F.FW_STAT_STATUS = 2 → (∃ n < 12, s.role n = 0xE) →
    (s.imageOf s.boot.stagedBank).liveOk = true → (s.imageOf s.boot.stagedBank).recordVer = (s.imageOf (s.rd F.FW_STAT_BANK)).recordVer →
    exec (.update a) s = .next ((((s.modBoot fun q => { q with updating := true, updMoved := [] }).wr F.FW_STAT_STATUS 3).wr F.FW_STAT_UPD_ROLE
      ((s.nextUpdRole 10).getD 0xF)))) ∧
  (∀ ok (s : State), s.boot.updating = false → exec (.updateRoleMoved ok) s = .next s) ∧
  (∀ n v q (s : State), s.boot.updating = true → s.berths.moves = [] → s.rd F.FW_STAT_UPD_ROLE ≠ 0 → s.roleFree (s.rd F.FW_STAT_UPD_ROLE) = true →
    s.spare = some n → s.holder (s.rd F.FW_STAT_UPD_ROLE) = some v →
    (let t := (((s.wr (F.BR_ROLE_ROLE v) 0xE).wr (H.STATE (0x008 + v)) 3).takeRole n (s.rd F.FW_STAT_UPD_ROLE) s.time).modBoot
        fun b => { b with updMoved := (s.rd F.FW_STAT_UPD_ROLE, v) :: b.updMoved }
     t.nextUpdRole (s.rd F.FW_STAT_UPD_ROLE) = some q →
     exec (.updateRoleMoved true) s = .next (t.wr F.FW_STAT_UPD_ROLE q))) ∧
  (∀ a (s : State), writable s a 0x0F0 0x05C → s.boot.updating = false → s.dev = stReady ∨ s.dev = stRun →
    exec (.accept a) s = .next
      (let t := s.setBootRecord (s.rd F.FW_STAT_BANK) s.bootRecord.2.1 0
       ((t.setRollback (max t.rollback (t.imageOf (s.rd F.FW_STAT_BANK)).svn)).wr F.FW_STAT_TRIAL 0).fwRegs)) ∧
  (∀ a (s : State), writable s a 0x0F0 0x05C → s.boot.updating = true → exec (.accept a) s = .next ((s.mark 0x0F0 57).wr (H.ACCESS_BUSY 0x0F0) 1)) ∧
  (∀ a (s : State), writable s a 0x0F0 0x05C → s.boot.updating = false → exec (.abort a) s = .next s) ∧
  (∀ a (s : State), writable s a 0x0F0 0x05C → exec (.abort a) s = .next s.updateAbort) ∧
  (∀ a l u (s : State), writable s a 0x0F0 0x064 → s.rd F.PF_LEN_BYTES ≤ 262144 → s.upload (s.rd F.PF_LEN_BYTES) = (some l, u) →
    exec (.write a) s = .next
      (let v := (u.stBytes (slotBase (s.rd F.PF_CMD_SLOT)) l).validRegs
       (v.wr F.PF_STAT_STATUS (if v.slotValid (s.rd F.PF_CMD_SLOT) then 2 else 3)).logRecord 0x07
         [s.rd F.PF_CMD_SLOT, b2n (v.slotValid (s.rd F.PF_CMD_SLOT))])) ∧
  (∀ a (s : State), writable s a 0x0F0 0x064 → 262144 < s.rd F.PF_LEN_BYTES → exec (.write a) s = .next (s.wr F.PF_STAT_STATUS 4)) ∧
  (∀ a (s : State), writable s a 0x0F0 0x064 → s.dev = stReady → s.tl.jobs = [] → s.slotValid (s.rd F.PF_CMD_SLOT) = true →
    exec (.select a) s = .next
      (let u := ((s.slotRecords (s.rd F.PF_CMD_SLOT)).wr F.DP_CFG_MIRROR (s.rd F.DP_CFG_MIRROR)).storeRegs.modBoot
         fun q => { q with noProfile := false, stations := s.ldByte (slotBase (s.rd F.PF_CMD_SLOT) + 7) }
       ((((u.wr F.PF_STAT_ACTIVE (s.rd F.PF_CMD_SLOT)).wr F.PF_STAT_STATUS 2).logRecord 0x07 [s.rd F.PF_CMD_SLOT, 1]).event 0x0F0 2))) ∧
  (∀ a (s : State), writable s a 0x0F0 0x064 → s.dev ≠ stReady ∨ s.tl.jobs ≠ [] →
    exec (.select a) s = .next ((s.mark 0x0F0 57).wr (H.ACCESS_BUSY 0x0F0) 1)) ∧
  (∀ a l u (s : State), writable s a 0x0F0 0x064 → s.keyLocked = false → s.upload 16 = (some l, u) →
    exec (.keyWrite a) s = .next
      (let v := u.stBytes (0x05310000 + 16 * u.rd F.PF_CMD_KEYSLOT) l
       ((v.bankPuts (0x03A00000 + v.rd F.PF_SRC_OFFS) (List.replicate 16 0)).wr F.PF_STAT_STATUS 2).event 0x0F0 3)) ∧
  (∀ a (s : State), writable s a 0x0F0 0x064 → s.keyLocked = true → exec (.keyWrite a) s = .next (s.wr F.PF_STAT_STATUS 4)) ∧
  (∀ a (s : State), writable s a 0x0F0 0x064 → exec (.keyLock a) s = .next (((s.st 0x05310220 4 1).wr F.PF_STAT_STATUS 2).fwRegs)) ∧
  (∀ a (s : State), writable s a 0x0F0 0x064 → exec (.keyErase a) s = .next
    (((((s.stBytes 0x05310000 (List.replicate 512 0)).st 0x05310220 4 0).wr F.PF_STAT_STATUS 2).fwRegs).event 0x0F0 3)) ∧
  (∀ a (s : State), writable s a 0x0F0 0x064 → ∃ t, exec (.keyErase a) s = .next t ∧
    (∀ b, 0x05310000 ≤ b → b < 0x05310200 → t.ldByte b = 0) ∧ t.keyLocked = false ∧
    ∀ b, b < 0x05310000 ∨ 0x05310224 ≤ b ∨ (0x05310200 ≤ b ∧ b < 0x05310220) → t.ldByte b = s.ldByte b)

/-- The entries of a sequence: one starts when the entries it waits for are complete and its delay is over; a cascade output is driven and done at once,
an item going up joins its supply's queue, one going down is switched off; the head of a queue is admitted when it fits its supply's budget. -/
def Obligations.SequenceEntries : Prop :=
  (∀ (j : Fin 48) (s : State), s.entryReady j = false → exec (.sequenceEntryStart j) s = .next s) ∧
  (∀ (j : Fin 48) (s : State), s.entryReady j = true → seItem (s.seq.table.getD j itEnd) = itCascOut → s.seq.dir = .up →
    exec (.sequenceEntryStart j) s = .next
      (((((s.modSeq fun q => { q with started := q.started.set j (some s.time) }).seqRegs).modSeq fun q => { q with uoLevel := true }).cascRegs).entryDone
        itCascOut)) ∧
  (∀ (j : Fin 48) (s : State), s.entryReady j = true → isRail (seItem (s.seq.table.getD j itEnd)) = true → s.seq.dir = .up →
    exec (.sequenceEntryStart j) s = .next
      (((s.modSeq fun q => { q with started := q.started.set j (some s.time) }).seqRegs).upItem (seItem (s.seq.table.getD j itEnd)))) ∧
  (∀ (j : Fin 48) (s : State), s.entryReady j = true → isRail (seItem (s.seq.table.getD j itEnd)) = true → s.seq.dir = .down →
    exec (.sequenceEntryStart j) s = .next
      (((s.modSeq fun q => { q with started := q.started.set j (some s.time) }).seqRegs).downItem (seItem (s.seq.table.getD j itEnd)))) ∧
  (∀ i (s : State), isRail i = true → s.railState (i - 16) ≠ 2 → isDomain i = false →
    s.upItem i = s.modSeq fun q => { q with queues := q.queues.set (Fin.ofNat 4 (s.itemSup i)) (q.queues[Fin.ofNat 4 (s.itemSup i)] ++ [(i, s.time)]) }) ∧
  (∀ (g : Fin 4) i since r (s : State), s.seq.queues[g] = (i, since) :: r → isDomain i = true →
    s.inWindow g + s.itemWeight i ≤ s.psRd (F.PS_SUP_BUDGET g) →
    exec (.itemAdmit g) s = .next ((((s.modSeq fun q => { q with queues := q.queues.set g r, ramping := q.ramping ++ [(i, s.time)] }).wr
      (F.PS_SUP_WAIT_MAX g) (max (s.rd (F.PS_SUP_WAIT_MAX g)) (min ((s.time - since) / 1000) 0xFFFF))).wr (F.PD_CFG_STATE i) 1).supRegs)) ∧
  (∀ (g : Fin 4) i since r (s : State), s.seq.queues[g] = (i, since) :: r → isDomain i = false →
    s.inWindow g + s.itemWeight i ≤ s.psRd (F.PS_SUP_BUDGET g) →
    exec (.itemAdmit g) s = .next
      (let n : Fin 24 := Fin.ofNat 24 (i - 16)
       ((((((s.modSeq fun q => { q with queues := q.queues.set g r, ramping := q.ramping ++ [(i, s.time)] }).wr
         (F.PS_SUP_WAIT_MAX g) (max (s.rd (F.PS_SUP_WAIT_MAX g)) (min ((s.time - since) / 1000) 0xFFFF))).wr (F.RAIL_CFG_STATE n) 1).wr
           (F.RAIL_CFG_EN n) 1).wr (F.RAIL_CFG_RESTARTS n) 0).setRailAt n).supRegs)) ∧
  (∀ (g : Fin 4) i since r (s : State), s.seq.queues[g] = (i, since) :: r → s.psRd (F.PS_SUP_BUDGET g) < s.inWindow g + s.itemWeight i →
    s.inWindow g ≠ 0 → exec (.itemAdmit g) s = .next s)

/-- Rails: power-good edges and their qualification, loss, time-out, fall and off. -/
def Obligations.RailCommands : Prop :=
  (∀ (n : Fin 24) level (s : State), s.rd (F.RAIL_CFG_STATE n) ≠ 1 →
    exec (.railPgEdge n level) s = .next ((s.modSeq fun q => { q with pgRaw := q.pgRaw.set n level, pgSince := q.pgSince.set n s.time }).flag
      (F.RAIL_CFG_PG n) level)) ∧
  (∀ (n : Fin 24) (s : State), s.rd (F.RAIL_CFG_STATE n) = 1 → s.seq.pgRaw[n] = true → s.rd (F.RAIL_CFG_RESTARTS n) < 2 →
    exec (.railPgEdge n false) s = .next (((s.modSeq fun q => { q with pgRaw := q.pgRaw.set n false, pgSince := q.pgSince.set n s.time }).wr
      (F.RAIL_CFG_PG n) 0).wr (F.RAIL_CFG_RESTARTS n) (s.rd (F.RAIL_CFG_RESTARTS n) + 1))) ∧
  (∀ (n : Fin 24) (s : State), s.seq.pgRaw[n] = true → s.seq.pgSince[n] + s.psRd (F.RAIL_CFG_T_QUAL n) * 10000 ≤ s.time →
    s.seq.railAt[n] + s.psRd (F.RAIL_CFG_T_QUAL n) * 10000 ≤ s.time → s.rd (F.RAIL_CFG_STATE n) = 1 ∨ s.rd (F.RAIL_CFG_STATE n) = 5 →
    exec (.railQualified n) s = .next (((s.wr (F.RAIL_CFG_STATE n) 2).closeRamp (16 + n.val)).entryDone (16 + n.val))) ∧
  (∀ (n : Fin 24) (s : State), s.seq.pgRaw[n] = false ∨ s.time < s.seq.pgSince[n] + s.psRd (F.RAIL_CFG_T_QUAL n) * 10000 →
    exec (.railQualified n) s = .next s) ∧
  (∀ (n : Fin 24) (s : State), s.rd (F.RAIL_CFG_STATE n) = 2 → s.seq.pgRaw[n] = false →
    s.seq.pgSince[n] + s.psRd (F.RAIL_CFG_T_QUAL n) * 10000 ≤ s.time →
    ∃ t, t = (s.wr (F.RAIL_CFG_STATE n) 5).raise 5 0x003 2 ∧
      exec (.railLost n) s = .next (if t.psRd (F.RAIL_CFG_ON_LOSS n) = 1 then t.stepFail (16 + n.val) 4 else t)) ∧
  (∀ (n : Fin 24) (s : State), s.rd (F.RAIL_CFG_STATE n) = 1 → s.seq.railAt[n] + s.psRd (F.RAIL_CFG_TIMEOUT n) * 100000 ≤ s.time →
    exec (.railTimeout n) s = .next (((s.closeRamp (16 + n.val)).wr (F.RAIL_CFG_STATE n) 6).stepFail (16 + n.val) 1)) ∧
  (∀ (n : Fin 24) (s : State), s.rd (F.RAIL_CFG_STATE n) = 3 → s.seq.railAt[n] + s.psRd (F.RAIL_CFG_T_FALL n) * 10000 ≤ s.time →
    exec (.railFallTimeout n) s = .next ((s.wr (F.RAIL_CFG_STATE n) 4).setRailAt n)) ∧
  (∀ (n : Fin 24) (s : State), s.rd (F.RAIL_CFG_STATE n) = 4 → s.seq.railAt[n] + s.psRd (F.RAIL_CFG_T_FALL n) * 10000 ≤ s.time →
    exec (.railFallTimeout n) s = .next (((s.railToOff n).seqRecord (16 + n.val) 6).raise 6 0x003 3)) ∧
  (∀ (n : Fin 24) (s : State), s.railOff n = true → s.rd (F.RAIL_CFG_STATE n) = 3 ∨ s.rd (F.RAIL_CFG_STATE n) = 4 →
    exec (.railOff n) s = .next ((((s.wr (F.RAIL_CFG_STATE n) 0).wr (F.RAIL_CFG_EN n) 0)).entryDone (16 + n.val))) ∧
  (∀ (n : Fin 24) (s : State), s.railOff n = false → exec (.railOff n) s = .next s)

/-- Domains and the ends of sequences: a domain's ramp window closes with its banks cleared, a switch without its report fails the step, an
up-sequence ends in state UP and a down-sequence in OFF with every berth OFF; DOWN, RETRY and AVS_RETRY of PS_CMD.
The cascade pins: a running CASCADE_WAIT completes at the level it waits for, fails or is skipped after its time-out, and SEQ_UI starts the
sequences. -/
def Obligations.SequenceEnds : Prop :=
  (∀ (d : Fin 12) t (s : State), s.rampSince d = some t → s.rd (F.PD_CFG_STATE d) = 1 → t + s.psRd (F.PD_CFG_RAMP d) * 100 ≤ s.time →
    exec (.domainRampDone d) s = .next ((((s.clearDomain d).wr (F.PD_CFG_STATE d) 2).closeRamp d).entryDone d)) ∧
  (∀ (d : Fin 12) (s : State), s.rampSince d = none → exec (.domainRampDone d) s = .next s) ∧
  (∀ (d : Fin 12) t (s : State), s.rampSince d = some t → s.rd (F.PD_CFG_STATE d) = 1 → t + s.psRd (F.PD_CFG_RAMP d) * 1000 ≤ s.time →
    exec (.domainSwitchTimeout d) s = .next (((s.closeRamp d).wr (F.PD_CFG_STATE d) 0).stepFail d 7)) ∧
  (∀ t (s : State), s.seq.dir = .up → s.seq.doneBefore s.seq.count = some t →
    exec .sequenceDone s = .next (((s.modSeq fun q => { q with dir := .idle }).wr (H.STATE 0x003) 2).event 0x003 0)) ∧
  (∀ t (s : State), s.seq.dir = .down → s.seq.doneBefore s.seq.count = some t →
    exec .sequenceDone s = .next
      (let t1 := (s.modSeq fun q => { q with dir := .idle, doLevel := true }).wr (H.STATE 0x003) (if s.seq.failed then 5 else 0)
       let t2 := t1.cascRegs
       let t3 := ({ t2 with boot := { t2.boot with offAfterSafe := t2.boot.offAfterSafe || t2.seq.fromSafe } } : State)
       ((t3.logSheets.each (List.range 12) fun n t => t.wr (H.STATE (0x008 + n)) 5).event 0x003 1).devTo stOff)) ∧
  (∀ (s : State), s.seq.doneBefore s.seq.count = none → exec .sequenceDone s = .next s) ∧
  (∀ a (s : State), writable s a 0x003 0x044 → exec (.down a) s = .next (s.startDown false 0)) ∧
  (∀ a (s : State), writable s a 0x003 0x044 → s.rd (H.STATE 0x003) = 5 → s.boot.offAfterSafe = false → (∀ n < 24, s.rd (F.RAIL_CFG_STATE n) ≠ 6) →
    exec (.retry a) s = .next s.warmUp) ∧
  (∀ a (s : State), writable s a 0x003 0x044 → s.rd (H.STATE 0x003) ≠ 5 → exec (.retry a) s = .next s) ∧
  (∀ a (s : State), writable s a 0x003 0x044 → exec (.avsRetry a) s = .next (s.modSeq fun q => { q with avsStop := false, avsBad := 0 })) ∧
  (∀ auto (s : State), s.seq.dir = .down → s.startDown false auto = s) ∧
  (∀ (s : State), s.seq.dir = .up → exec (.cascadeWaitDone true) s = .next (((s.modSeq fun q => { q with uiLevel := true }).cascRegs).entryDone itCascWait)) ∧
  (∀ (s : State), s.seq.dir = .down → exec (.cascadeWaitDone true) s = .next (((s.modSeq fun q => { q with diLevel := true }).cascRegs).entryDone itCascWait)) ∧
  (∀ (s : State), s.seq.dir = .idle → exec (.cascadeWaitDone true) s = .next ((s.modSeq fun q => { q with uiLevel := true }).cascRegs)) ∧
  (∀ (s : State), s.seq.dir ≠ .down → exec (.cascadeWaitDone false) s = .next ((s.modSeq fun q => { q with uiLevel := false }).cascRegs)) ∧
  (∀ (j : Fin 48) t (s : State), seItem (s.seq.table.getD j itEnd) = itCascWait → s.seq.done[j] = none → s.seq.started[j] = some t →
    t + s.rd F.PS_CASC_TO * 100000 ≤ s.time → s.seq.dir = .up → exec .cascadeWaitTimeout s = .next (s.stepFail itCascWait 3)) ∧
  (∀ (j : Fin 48) t (s : State), seItem (s.seq.table.getD j itEnd) = itCascWait → s.seq.done[j] = none → s.seq.started[j] = some t →
    t + s.rd F.PS_CASC_TO * 100000 ≤ s.time → s.seq.dir ≠ .up →
    exec .cascadeWaitTimeout s = .next (((s.entryDone itCascWait).seqRecord itCascWait 3).raise 9 0x003 7)) ∧
  (∀ (s : State), s.dev ≠ stOff ∨ s.seq.dir ≠ .idle →
    exec .seqUiFall s = .next (((s.modSeq fun q => { q with uiLevel := false }).cascRegs).startDown false 1)) ∧
  (∀ (s : State), s.dev = stOff → s.seq.dir = .idle → exec .seqUiFall s = .next ((s.modSeq fun q => { q with uiLevel := false }).cascRegs)) ∧
  (∀ (s : State), s.on F.PS_CFG_AUTO_UP = true → s.seq.autoKind = 1 → s.seq.dir = .idle →
    exec .seqUiRise s = .next (((s.modSeq fun q => { q with uiLevel := true }).cascRegs).warmUp)) ∧
  (∀ (s : State), s.on F.PS_CFG_AUTO_UP = false → exec .seqUiRise s = .next ((s.modSeq fun q => { q with uiLevel := true }).cascRegs))

/-- Power fail and SLACK. -/
def Obligations.PowerFailAndSlack : Prop :=
  (∀ (s : State), s.seq.pfwSince = none → exec .pfw s = .next
    (let t := ((({ s with pfwN := true, seq := { s.seq with pfwSince := some s.time, vinOkAt := none } } : State).wr F.PT_CFG_FEED_EN 0).wr F.PS_STAT_PFW 1)
     (t.logRecord 0x03 (s.inFlight.flatMap fun n => leBytes n 4)).raise 7 0x003 4)) ∧
  (∀ t (s : State), s.seq.pfwSince = some t → exec .pfw s = .next s) ∧
  (∀ t (s : State), s.seq.pfwSince = some t → t + s.psRd F.PS_PFW_HOLD * 1000 ≤ s.time → s.dev ≠ stOff → exec .pfwHoldEnd s = .next (s.startDown false 2)) ∧
  (∀ t (s : State), s.seq.pfwSince = some t → s.time < t + s.psRd F.PS_PFW_HOLD * 1000 → exec .pfwHoldEnd s = .next s) ∧
  (∀ (s : State), exec .pfwRecover s = .next
    (({ s with pfwN := false, seq := { s.seq with pfwSince := none, vinOkAt := some s.time } } : State).wr F.PS_STAT_PFW 0)) ∧
  (∀ t (s : State), s.seq.vinOkAt = some t → s.on F.PS_CFG_AUTO_UP = true → s.seq.autoKind = 2 → s.seq.dir = .idle → t + 10000000 ≤ s.time →
    exec .pfwAutoUp s = .next s.warmUp) ∧
  (∀ (s : State), s.seq.vinOkAt = none → exec .pfwAutoUp s = .next s) ∧
  (∀ (s : State), s.rd F.PS_SLACK_IDLE_S ≠ 0 → s.slackReady = true → s.seq.idleSince + s.rd F.PS_SLACK_IDLE_S * 100000000 ≤ s.time →
    exec .slackEnter s = .next ((((s.modSeq fun q => { q with slackExit := false }).slackDomains.wr (H.STATE 0x003) 4).event 0x003 2).devTo stSlack)) ∧
  (∀ (s : State), s.rd F.PS_SLACK_IDLE_S = 0 ∨ s.slackReady = false → exec .slackEnter s = .next s) ∧
  (∀ (s : State), s.dev = stSlack → s.seq.slackExit = true → s.seq.dir = .idle → ∃ t, exec .slackExit s = .next t ∧
    ∃ u : State, t = (((u.wr (H.STATE 0x003) 2).event 0x003 3).devTo stReady) ∧ u.seq.slackExit = false ∧ u.seq.idleSince = s.time ∧
      (∀ d, 1 ≤ d → d ≤ 11 → u.rd (F.PD_CFG_STATE d) = 2)) ∧
  (∀ (s : State), s.dev ≠ stSlack → exec .slackExit s = .next s)

/-- The core voltage: the utilisation shows in PS_UTIL, the voltage changes only to the target of Table 15.6 and while the policy is free to follow demand;
a read-back 20 mV off after 2 ms, and three transactions without an answer, raise their faults. -/
def Obligations.VcoreCommands : Prop :=
  (∀ us low (s : State), s.rd F.PS_AVS2_DN_TH < s.rd F.PS_AVS2_UP_TH →
    (let m := us.foldl max 0
     let run := if m < s.rd F.PS_AVS2_DN_TH then s.seq.lowRun + 1 else 0
     let t := (s.wr F.PS_UTIL_UMAX m).modSeq fun q =>
       { q with pairUp := s.rd F.PS_AVS2_UP_TH, pairDn := s.rd F.PS_AVS2_DN_TH, lowRun := run }
     (t.avsFree = false ∨ t.avsTarget m low = t.rd F.PS_VCORE_VSET → exec (.avsEvaluate us low) s = .next t) ∧
     (t.avsFree = true → t.avsTarget m low ≠ t.rd F.PS_VCORE_VSET →
       exec (.avsEvaluate us low) s = .next ((((t.wr F.PS_VCORE_VSET (t.avsTarget m low)).emit (.avs (t.avsTarget m low))).event 0x003 4).modSeq
         fun q => { q with avsAt := s.time, lowRun := 0 })))) ∧
  (∀ v (s : State), v ≤ s.rd F.PS_VCORE_VSET + 20 → s.rd F.PS_VCORE_VSET ≤ v + 20 →
    exec (.avsReadbackCheck (some v)) s = .next ((s.wr F.PS_VCORE_VREAD v).modSeq fun q => { q with avsBad := 0 })) ∧
  (∀ v (s : State), s.rd F.PS_VCORE_VSET + 20 < v ∨ v + 20 < s.rd F.PS_VCORE_VSET → s.seq.avsAt + 200000 ≤ s.time →
    exec (.avsReadbackCheck (some v)) s = .next (((s.wr F.PS_VCORE_VREAD v).modSeq fun q => { q with avsBad := 0 }).raise 8 0x003 6)) ∧
  (∀ (s : State), s.seq.avsBad ≠ 2 → exec (.avsReadbackCheck none) s = .next (s.modSeq fun q => { q with avsBad := q.avsBad + 1 })) ∧
  (∀ (s : State), s.seq.avsBad = 2 → exec (.avsReadbackCheck none) s = .next
    (((s.modSeq fun q => { q with avsBad := 3, avsStop := true }).wr F.PS_VCORE_VSET 800).raise 8 0x003 5)) ∧
  (∀ m low (s : State), s.avsTarget m low =
    min (s.rd F.PS_AVS_VMAX) (max (s.rd F.PS_AVS_VMIN)
      (if low then s.rd F.PS_AVS_VMAX
       else if s.seq.pairUp < m then s.rd F.PS_VCORE_VSET + 4 * (5 * s.rd F.PS_AVS2_STEP)
       else if s.rd F.PS_AVS2_DWELL ≤ s.seq.lowRun ∧ s.seq.avsStop = false then s.rd F.PS_VCORE_VSET - 5 * s.rd F.PS_AVS2_STEP
       else s.rd F.PS_VCORE_VSET)))

/-- The ADPLLs: lock and unlock, acquisition time-out, take-over of PX-A by the standby, re-acquisition by RELOCK, and the writes of CK_PLL and
CK_FRAC.
The reference, the stations' DLLs and the base synthesiser. -/
def Obligations.ClockCommands : Prop :=
  (∀ (s : State), s.rd F.CK_STAT_P2 = 1 →
    exec (.adpllLock 2) s = .next ((((s.wr F.CK_STAT_P2 2).event 0x004 0).keeper false).event 0x004 3)) ∧
  (∀ (p : Fin 3) (s : State), p ≠ 2 → s.pll p = 1 → s.clocks.groups = true → exec (.adpllLock p) s = .next ((s.wr (ckState p) 2).event 0x004 0)) ∧
  (∀ (p : Fin 3) (s : State), s.pll p ≠ 1 → exec (.adpllLock p) s = .next s) ∧
  (∀ (s : State), s.rd F.CK_STAT_P2 = 2 → exec (.adpllUnlock 2) s = .next
    ((((s.sat F.CK_CNT_UNLOCK).acquire 2).keeper true).raiseWith 11 0x004 4 0 (some (.relock, 2)))) ∧
  (∀ (p : Fin 3) (s : State), s.pll p ≠ 2 → exec (.adpllUnlock p) s = .next s) ∧
  (∀ p (s : State), s.acquire p = ({ s.wr (ckState p) 1 with clocks := { s.clocks with acqAt := s.clocks.acqAt.set p s.time } } : State)) ∧
  (∀ (p : Fin 3) (s : State), s.pll p = 1 → s.clocks.acqAt[p] + 4000 ≤ s.time → s.clocks.groups = true →
    exec (.adpllAcquireTimeout p) s = .next (s.wr (ckState p) 4)) ∧
  (∀ (p : Fin 3) (s : State), s.time < s.clocks.acqAt[p] + 4000 → exec (.adpllAcquireTimeout p) s = .next s) ∧
  (∀ (s : State), s.clocks.groups = false → s.rd F.CK_ROLE_PXA_SRC = 0 → s.clocks.refLost = none → s.rd F.CK_STAT_P0 = 1 → s.on F.CK_ROLE_STANDBY = true →
    exec .pxTakeover s = .next (((((s.wr F.CK_ROLE_PXA_SRC 1).wr F.CK_ROLE_STANDBY 0).sat F.CK_CNT_SWITCH).event 0x004 1).raiseWith 10 0x004 0 0
      (some (.relock, 0)))) ∧
  (∀ (s : State), s.clocks.groups = true → exec .pxTakeover s = .next s) ∧
  (∀ a (s : State), writable s a 0x004 0x06C → s.rd F.CK_STAT_P0 = 4 → s.rd F.CK_STAT_P1 ≠ 4 → s.rd F.CK_STAT_P2 ≠ 4 →
    exec (.relock a) s = .next (s.acquire 0)) ∧
  (∀ a (p : Fin 3) v (s : State), writable s a 0x004 (0x040 + 8 * p.val) → p ≠ 2 → s.pllBusy p = false → bit v 16 = false →
    exec (.ckPllWrite a p v) s = .next ((((s.wr (F.CK_PLL_N p) (bits v 0 8)).wr (F.CK_PLL_POSTDIV p) (bits v 8 7)).wr (F.CK_PLL_EN p) 0).wr (ckState p) 0 |>.wr
      F.CK_ROLE_STANDBY 0)) ∧
  (∀ a (p : Fin 3) v (s : State), writable s a 0x004 (0x040 + 8 * p.val) → p ≠ 2 → s.pllBusy p = true →
    exec (.ckPllWrite a p v) s = .next ((s.mark 0x004 57).wr (H.ACCESS_BUSY 0x004) 1)) ∧
  (∀ a (p : Fin 3) v (s : State), writable s a 0x004 (0x044 + 8 * p.val) → p ≠ 2 → s.pllBusy p = false → v < 2 ^ 24 →
    pllOk (s.rd (F.CK_PLL_N p)) (s.rd (F.CK_PLL_POSTDIV p)) v = false →
    exec (.ckFracWrite a p v) s = .next ((s.mark 0x004 56).wr (H.MISMATCH 0x004) 1)) ∧
  (∀ a (p : Fin 3) v (s : State), writable s a 0x004 (0x044 + 8 * p.val) → p ≠ 2 → s.pllBusy p = false → v < 2 ^ 24 →
    pllOk (s.rd (F.CK_PLL_N p)) (s.rd (F.CK_PLL_POSTDIV p)) v = true → s.on (F.CK_PLL_EN p) = true →
    exec (.ckFracWrite a p v) s = .next (((s.wr (F.CK_FRAC_FRAC p) v).modClk fun c =>
      { c with setN := c.setN.set p (s.rd (F.CK_PLL_N p)), setDiv := c.setDiv.set p (s.rd (F.CK_PLL_POSTDIV p)), setFrac := c.setFrac.set p v }).acquire p |>.wr F.CK_ROLE_STANDBY 0)) ∧
  (∀ t (s : State), s.clocks.refLost = some t → exec .refLoss s = .next s) ∧
  (∀ (s : State), s.clocks.refLost = none → s.rd F.CK_STAT_P0 = 2 → s.rd F.CK_STAT_P1 = 2 → s.rd F.CK_STAT_P2 = 2 →
    exec .refLoss s = .next ((((((s.wr F.CK_STAT_REF_OK 0).modClk fun c => { c with refLost := some s.time, refLong := false }).wr
      F.CK_STAT_P0 3).wr F.CK_STAT_P1 3).wr F.CK_STAT_P2 3).wr F.CK_ROLE_STANDBY 0 |>.raise 12 0x004 5)) ∧
  (∀ t (s : State), s.clocks.refLost = some t → t + 100000 ≤ s.time → s.clocks.refLong = false →
    exec .refLossLong s = .next (((s.modClk fun c => { c with refLong := true }).loseExposingOf (List.range 6) lcLink).wr
      F.PT_CFG_FEED_EN 0)) ∧
  (∀ (s : State), s.clocks.refLost = none → exec .refLossLong s = .next s) ∧
  (∀ t (s : State), s.clocks.refLost = some t → s.rd F.CK_STAT_P0 ≠ 3 → s.rd F.CK_STAT_P1 ≠ 3 → s.rd F.CK_STAT_P2 ≠ 3 →
    exec .refReturn s = .next ((s.wr F.CK_STAT_REF_OK 1).modClk fun c => { c with refLost := none, refLong := false })) ∧
  (∀ (s : State), s.clocks.refLost = none → exec .refReturn s = .next s) ∧
  (∀ (k : Fin 6) (s : State), s.pll (s.pllOf k) = 2 → exec (.dllLock k) s = .next (s.wr F.CK_STAT_DLL (s.rd F.CK_STAT_DLL ||| 2 ^ k.val))) ∧
  (∀ (k : Fin 6) (s : State), s.pll (s.pllOf k) ≠ 2 → exec (.dllLock k) s = .next s) ∧
  (∀ (k : Fin 6) (s : State), bit (s.rd F.CK_STAT_DLL) k = true → exec (.dllUnlock k) s = .next
    (((s.wr F.CK_STAT_DLL (s.rd F.CK_STAT_DLL - 2 ^ k.val)).loseExposing k lcLink).raiseWith 10 0x004 1 0 (some (.relock, 16 + k.val)))) ∧
  (∀ (s : State), s.domState 11 = 2 → s.rd F.CK_STAT_P2 = 0 → exec .baseSynthLock s = .next ((s.modClk fun c => { c with baseLock := true }).acquire 2)) ∧
  (∀ (s : State), s.domState 11 ≠ 2 → exec .baseSynthLock s = .next s)

/-- A run of pitches starts on a whole millisecond after the tick in which a page waits; an announce instant adds a pitch of its kind, or ends the run
after four empty ones; PT_SKIP adds to the pitches to skip. -/
def Obligations.RunsAndAnnounces : Prop :=
  (∀ (s : State), s.mayRun = true → exec .runStart s = .next
    (let first := (s.time / 100000 + 1) * 100000
     ((s.wr (H.STATE 0x041) 1).nextAnchor (first + s.rd F.PT_ANN_LEAD_TICKS + s.rd F.PT_FEED_LEAD_TICKS)).modTl
       fun t => { t with emptyRun := 0, runStart := s.time })) ∧
  (∀ (s : State), s.mayRun = false → exec .runStart s = .next s) ∧
  (∀ (s : State), s.rd (H.STATE 0x041) = 1 → s.tl.nextExp ≤ s.time + s.rd F.PT_FEED_LEAD_TICKS + s.rd F.PT_ANN_LEAD_TICKS → s.tl.emptyRun = 4 →
    exec .announceInstant s = .next (s.endRun.event 0x041 6)) ∧
  (∀ (s : State), s.rd (H.STATE 0x041) = 1 → s.tl.nextExp ≤ s.time + s.rd F.PT_FEED_LEAD_TICKS + s.rd F.PT_ANN_LEAD_TICKS → s.tl.emptyRun ≠ 4 →
    s.on F.PT_CFG_FEED_EN = false → s.tl.fedCount ≠ 0 →
    exec .announceInstant s = .next ((s.modTl fun t => { t with
      pitches := t.pitches ++ [⟨t.nextExp, .empty, 0, 0, false, false, .pending, false⟩], emptyRun := t.emptyRun + 1 }).nextAnchor
        (s.tl.nextExp + s.tl.lastPitch))) ∧
  (∀ (s : State), s.rd (H.STATE 0x041) = 1 → s.tl.nextExp ≤ s.time + s.rd F.PT_FEED_LEAD_TICKS + s.rd F.PT_ANN_LEAD_TICKS → s.tl.emptyRun ≠ 4 →
    s.on F.PT_CFG_FEED_EN = true → s.rd F.PT_SKIP_REMAIN ≠ 0 →
    exec .announceInstant s = .next ((s.wr F.PT_SKIP_REMAIN (s.rd F.PT_SKIP_REMAIN - 1)).plainPitch .requested 0)) ∧
  (∀ p (s : State), s.rd (H.STATE 0x041) = 1 → s.tl.nextExp ≤ s.time + s.rd F.PT_FEED_LEAD_TICKS + s.rd F.PT_ANN_LEAD_TICKS → s.tl.emptyRun ≠ 4 →
    s.on F.PT_CFG_FEED_EN = true → s.rd F.PT_SKIP_REMAIN = 0 → s.headPage.bind s.page? = some p → p.st = .released →
    p.storedAt ≠ some s.time →
    exec .announceInstant s = .next (s.sheetPitch p)) ∧
  (∀ (s : State), s.rd (H.STATE 0x041) ≠ 1 → exec .announceInstant s = .next s) ∧
  (∀ a n (s : State), writable s a 0x041 0x09C → n < 256 →
    exec (.ptSkip a n) s = .next (s.wr F.PT_SKIP_REMAIN (min (s.rd F.PT_SKIP_REMAIN + n) 255)))

/-- The feed gate: an empty pitch has none; a page that passes gets the free slot of lowest index and its sheet number; a pitch that fails
is skipped, with its reasons in PT_GATE_STAT. -/
def Obligations.FeedGate : Prop :=
  (∀ (s : State), s.tl.pitches = [] → exec .feedGate s = .next s) ∧
  (∀ q r (s : State), s.tl.pitches = q :: r → s.time + s.rd F.PT_FEED_LEAD_TICKS < q.texp → exec .feedGate s = .next s) ∧
  (∀ q r (s : State), s.tl.pitches = q :: r → q.texp ≤ s.time + s.rd F.PT_FEED_LEAD_TICKS →
    (let t := ((s.ptBoundary.boundary 0x0A8).pathLevel.modTl fun t => { t with pitches := r, pitchNo := t.pitchNo + 1 }).rePitch q
     (q.kind = .empty → exec .feedGate s = .next t) ∧
     (∀ p i, q.kind ≠ .empty → t.pathReport.page? q.page = some p → t.pathReport.freeSlotIndex = some i → t.pathReport.feedReasons q = 0 →
       exec .feedGate s = .next (t.pathReport.feedPass q p i)) ∧
     (q.kind ≠ .empty → t.pathReport.feedReasons q ≠ 0 → exec .feedGate s = .next (t.pathReport.feedFail q (t.pathReport.feedReasons q))))) ∧
  (∀ q p i (s : State), ∃ sl : Slot, (s.feedPass q p i).tl.slots[i] = some sl ∧ sl.page = p.id ∧ sl.sheet = q.sheet ∧ sl.texp = q.texp ∧ sl.anchor = none ∧
    sl.speed = s.rd F.PT_SPEED_SPEED ∧ sl.sheetLen = p.sheetLen ∧ sl.stations = s.jobStations p.job) ∧
  (∀ q (reasons : Nat) (s : State), q.kind ≠ .sheet → s.on (H.OWNER 0x041) = false →
    s.feedFail q reasons = ((s.wr F.PT_GATE_STAT_FEED reasons).sat F.PT_CNT_A_SKIP).event 0x041 0)

/-- The anchor, commit and exit instants of a fed page: a missed anchor and a failed commit gate run the sheet blank, a page that passes the commit gate is
COMMITTED, a lost or blank sheet is diverted at its deadline, and the end of the exit window frees the slot. -/
def Obligations.PageInstants : Prop :=
  (∀ (i : Fin 16) sl p (s : State), s.tl.slots[i] = some sl → sl.anchor = none → sl.missed = false → sl.blank = false →
    sl.texp + sl.win + s.filt (s.rd F.PT_CFG_ANCHOR_SRC) < s.time → s.page? sl.page = some p → p.st ≠ .retired →
    exec (.anchorWindowEnd i) s = .next (((s.modSlot i fun x => { x with missed := true }).emit (.toRole 3 3 sl.sheet)).failCommit i 0x20)) ∧
  (∀ (i : Fin 16) (s : State), s.tl.slots[i] = none → exec (.anchorWindowEnd i) s = .next s) ∧
  (∀ (i : Fin 16) sl a p (s : State), s.tl.slots[i] = some sl → sl.anchor = some a → s.rd (F.PT_SLOT_STATE i) = 1 → sl.blank = false →
    s.commitAt sl a ≤ s.time → s.feedFirst.page? sl.page = some p → s.feedFirst.commitReasons sl ≠ 0 →
    exec (.commitGate i) s = .next (((s.feedFirst.boundary 0x040).trailerDecide false sl i a).2.failCommit i (s.feedFirst.commitReasons sl))) ∧
  (∀ (i : Fin 16) sl a p (s : State), s.tl.slots[i] = some sl → sl.anchor = some a → s.rd (F.PT_SLOT_STATE i) = 1 → sl.blank = false →
    s.commitAt sl a ≤ s.time → s.feedFirst.page? sl.page = some p → s.feedFirst.commitReasons sl = 0 →
    exec (.commitGate i) s = .next
      (let d := (s.feedFirst.boundary 0x040).trailerDecide true sl i a
       d.2.commitPass i sl p a d.1)) ∧
  (∀ (i : Fin 16) (s : State), s.tl.slots[i] = none → exec (.commitGate i) s = .next s) ∧
  (∀ (i : Fin 16) sl (s : State), s.tl.slots[i] = some sl → sl.anchor.getD sl.texp + sl.divert ≤ s.time →
    (s.rd (F.PT_SLOT_STATE i) = 4 ∧ s.rd (F.PT_SLOT_CAUSE i) ≠ lcJam) ∨ sl.blank = true →
    exec (.divertDeadline i) s = .next (s.emit (.toRole 3 2 sl.sheet))) ∧
  (∀ (i : Fin 16) sl (s : State), s.tl.slots[i] = some sl → s.time < sl.anchor.getD sl.texp + sl.divert → exec (.divertDeadline i) s = .next s) ∧
  (∀ (i : Fin 16) sl (s : State), s.tl.slots[i] = some sl → sl.exitAt + sl.win + s.filt (s.rd F.PT_CFG_EXIT_SRC) < s.time → s.rd (F.PT_SLOT_STATE i) ≠ 2 →
    exec (.exitWindowEnd i) s = .next ((s.freeSlot i).queueRegs)) ∧
  (∀ (i : Fin 16) sl (s : State), s.tl.slots[i] = some sl → sl.exitAt + sl.win + s.filt (s.rd F.PT_CFG_EXIT_SRC) < s.time → s.rd (F.PT_SLOT_STATE i) = 2 →
    exec (.exitWindowEnd i) s = .next (((s.exitJam i sl).freeSlot i).queueRegs)) ∧
  (∀ (i : Fin 16) (s : State), s.tl.slots[i] = none → exec (.exitWindowEnd i) s = .next s)

/-- The sheet sensors: an edge is accepted once its filter time is over and it is no repeat of the level, the first of a quiet input latches its stamp,
the end of a lockout catches up with the level; a declared jam and a track window without its edge jam the path, and PATH_CLEAR ends it.
The loss of a committed page: the slot shows LOST with its first cause, LOST is counted, and a page whose job allows a reprint returns to the reprint
queue while any other is LOST for good; a later cause only counts in EXTRA. -/
def Obligations.SensorsAndLoss : Prop :=
  (∀ (i : Fin 64) high stamp (s : State), s.mo.sensors[i].high = high ∨ s.time < stamp + s.rd (F.SS_IN_CFG_FILT i) * 100 ∨ s.on (H.ISOLATED 0x0A8) = true →
    exec (.sheetSensorEdge i high stamp) s = .next s) ∧
  (∀ (i : Fin 64) high stamp (s : State), s.mo.sensors[i].high ≠ high → stamp + s.rd (F.SS_IN_CFG_FILT i) * 100 ≤ s.time → s.on (H.ISOLATED 0x0A8) = false →
    s.mo.sensors[i].last = none → s.inPath i = false →
    exec (.sheetSensorEdge i high stamp) s = .next
      (let t := (s.modSensor i fun q => { q with high := high }).levelReg i
       (t.latchEdge i (t.on (F.SS_IN_STAT_LEVEL i)) stamp (t.latchPos i stamp)).trackState)) ∧
  (∀ (i : Fin 64) t lead (s : State), s.mo.sensors[i].last = some (t, lead) → t + s.lockout i ≤ s.time → s.on (H.ISOLATED 0x0A8) = false →
    exec (.lockoutEnd i) s = .next ((s.levelCheck i).trackState)) ∧
  (∀ (i : Fin 64) (s : State), s.mo.sensors[i].last = none → exec (.lockoutEnd i) s = .next s) ∧
  (∀ (i : Fin 64) t lead (s : State), s.mo.sensors[i].last = some (t, lead) → s.on (F.SS_IN_STAT_LEVEL i) = lead → s.levelCheck i = s) ∧
  (∀ a zone (s : State), writable s a 0x0A8 0x0D8 → zone < 16 → exec (.declare a zone) s = .next (s.jam 0 zone true none)) ∧
  (∀ (i t : Fin 16) trail sl q w (s : State), s.tracked.contains i = true → s.on (H.ISOLATED 0x0A8) = false → s.tl.slots[i] = some sl →
    sl.tracks.find? (fun x => x.point == t.val && !(if trail then x.trail else x.lead)) = some q → sl.window q trail = some w →
    w.2 + s.filt q.sensor < (s.time : Int) → exec (.trackWindowEnd i t trail) s = .next (s.jam t q.zone false (some i))) ∧
  (∀ (i t : Fin 16) trail (s : State), s.tracked.contains i = false → exec (.trackWindowEnd i t trail) s = .next s) ∧
  (∀ t (s : State), s.mo.clearAt = some t → t + s.rd F.SS_CLEAR_T * 100000 ≤ s.time → s.pathEmpty = true → s.on F.SS_STAT_PATH_CLEAR = false →
    s.on (H.ISOLATED 0x0A8) = false → exec .pathClear s = .next
      (let u := (s.wr F.SS_STAT_PATH_CLEAR 1).event 0x0A8 1
       let v := (if u.rd (H.STATE 0x0A8) = 2 then u.wr (H.STATE 0x0A8) 0 else u).trackState
       (if (v.holder 3).isSome then v.modTl fun q => { q with pathClear := true } else v).pathReport)) ∧
  (∀ (s : State), s.mo.clearAt = none → exec .pathClear s = .next s) ∧
  (∀ (i : Fin 16) cause sl (s : State), s.tl.slots[i] = some sl → s.rd (F.PT_SLOT_STATE i) = 4 → sl.lostAt ≠ s.time →
    s.pageLost i cause = s.sat (F.PT_SLOT_EXTRA i)) ∧
  (∀ (i : Fin 16) cause (s : State), s.tl.slots[i] = none → s.pageLost i cause = s) ∧
  (∀ (i : Fin 16) cause sl (s : State), s.tl.slots[i] = some sl → s.rd (F.PT_SLOT_STATE i) ≠ 2 → s.rd (F.PT_SLOT_STATE i) ≠ 4 → s.pageLost i cause = s) ∧
  (∀ (i : Fin 16) cause sl p (s : State), s.tl.slots[i] = some sl → s.rd (F.PT_SLOT_STATE i) = 2 → s.page? sl.page = some p → s.reprintOrder = false →
    cause ≠ lcOrder → (s.pageLost i cause).tl.slots[i] = some { sl with lostAt := s.time }) ∧
  (∀ p (s : State), s.mayReprint p = true ↔ (∃ j, s.job? p.job = some j ∧ j.reprint = true ∧ j.aborted = false) ∧ s.on F.PT_CFG_REPRINT_EN = true ∧
    p.commits < 1 + s.rd F.PT_CFG_REPRINT_MAX ∧ p.sepLost = false) ∧
  (∀ job j (s : State), s.job? job = some j → s.jobOver j = false → exec (.jobDone job) s = .next s) ∧
  (∀ job j (s : State), s.job? job = some j → s.jobOver j = true → exec (.jobDone job) s = .next (s.endJob j)) ∧
  (∀ job (s : State), s.job? job = none → exec (.jobDone job) s = .next s)

/-- The way of a separation into the ring: its headers are checked when its bytes are stored, a lane fetches its first block header when its page is fed,
a lane takes its blocks in turn, publishes their lines and, after an error, the page is LOST; a LOST page's lines are written as zeros. -/
def Obligations.DecodeCommands : Prop :=
  (∀ id (k : Fin 6) (lane : Fin 8) p q b h s t, s.sepAt id k = some (p, q) → p.st = .defined → q.stored = false → q.complete = true →
    s.streamBytes q 0 24 (.lane (Fin.ofNat 10 lane.val)) = (some b, t) → parseStream (b.take 16) = some h → (parseBlock (b.drop 16)).isSome = true →
    t.streamOk p h = true → q.covers 0 24 = true → exec (.separationWritten id k lane) s = .next (t.sepStored p q)) ∧
  (∀ id (k : Fin 6) (lane : Fin 8) (s : State), s.sepAt id k = none → exec (.separationWritten id k lane) s = .next s) ∧
  (∀ id (k : Fin 6) (lane : Fin 8) p q (x : Fin 24) b s t, s.sepAt id k = some (p, q) →
    (List.finRange 24).find? (fun (x : Fin 24) => !s.on (F.CTX_OPEN x)) = some x → p.st = .fed → q.stored = true → s.laneOpen lane = true →
    (s.ctxsOf k).length < 4 → ((s.ctxsOf k).any fun y => s.rd (F.CTX_PAGE_ID y) == id) = false →
    (s.wr (F.IM_WINDOW_NEED k.val) (s.needLines k s.time)).ringBig k s.time = true →
    (s.wr (F.IM_WINDOW_NEED k.val) (s.needLines k s.time)).streamBytes q 16 8 (.lane (Fin.ofNat 10 lane.val)) = (some b, t) →
    exec (.firstHeaderFetch id k lane) s = .next ((((((t.wr (F.CTX_PAGE_ID x) id).wr (F.CTX_STATION x) k.val).wr (F.CTX_OPEN x) 1).wr (F.CTX_LANE x) 0xF).wr
      (F.CTX_BLOCKS x) 0).modCtx x fun _ => { Ctx.reset with off := 16 }).codecRegs) ∧
  (∀ id (k : Fin 6) (lane : Fin 8) (s : State), s.laneOpen lane = false → exec (.firstHeaderFetch id k lane) s = .next s) ∧
  (∀ (lane : Fin 8) (s : State), s.laneOpen lane = false → exec (.decodeBlockStart lane) s = .next s) ∧
  (∀ (lane : Fin 8) (s : State), s.laneOpen lane = true → s.nextCtx = none → exec (.decodeBlockStart lane) s = .next s) ∧
  (∀ (lane : Fin 8) x p q (s : State), s.laneOpen lane = true → s.nextCtx = some x → s.sepAt (s.rd (F.CTX_PAGE_ID x)) (s.ctxStation x) = some (p, q) →
    (s.ctx x).started = true → (s.ctx x).again = false →
    exec (.decodeBlockStart lane) s = .next
      ((((s.wr (F.CTX_LANE x) lane).wr (F.DL_STAT_CTX lane) x.val).wr (H.STATE (0x049 + lane)) 1).codecRegs)) ∧
  (∀ (lane : Fin 8) (x : Fin 24) p q b h body out s t u, s.rd (F.DL_STAT_CTX lane) = x.val →
    s.sepAt (s.rd (F.CTX_PAGE_ID x)) (s.ctxStation x) = some (p, q) → q.covers (s.ctx x).off 8 = true →
    s.streamBytes q (s.ctx x).off 8 (.lane (Fin.ofNat 10 lane.val)) = (some b, t) → parseBlock b = some h →
    headError p.alpha h (t.ctx x).done (p.lineBytes * p.lines) = 0 → q.covers ((s.ctx x).off + 8) h.bodyLen = true →
    t.streamBytes q ((s.ctx x).off + 8) h.bodyLen (.lane (Fin.ofNat 10 lane.val)) = (some body, u) → decodeBlock p.alpha h body = .inr out →
    exec (.decodeBlockDone lane) s = .next (u.blockDone lane x q p.lineBytes h out)) ∧
  (∀ (lane : Fin 8) (x : Fin 24) p q b s t, s.rd (F.DL_STAT_CTX lane) = x.val →
    s.sepAt (s.rd (F.CTX_PAGE_ID x)) (s.ctxStation x) = some (p, q) → q.covers (s.ctx x).off 8 = true →
    s.streamBytes q (s.ctx x).off 8 (.lane (Fin.ofNat 10 lane.val)) = (some b, t) → parseBlock b = none →
    exec (.decodeBlockDone lane) s = .next (t.jobFail lane x 1 (s.ctx x).off false)) ∧
  (∀ (lane : Fin 8) (s : State), 24 ≤ s.rd (F.DL_STAT_CTX lane) → exec (.decodeBlockDone lane) s = .next s) ∧
  (∀ (x : Fin 24) (s : State), s.on (F.CTX_OPEN x) = false ∨ (s.ctx x).zero = false → exec (.zeroFillLine x) s = .next s) ∧
  (∀ (x : Fin 24) p (s : State), s.on (F.CTX_OPEN x) = true → (s.ctx x).zero = true → (s.ctx x).started = true →
    s.page? (s.rd (F.CTX_PAGE_ID x)) = some p → (s.ring (s.ctxStation x)).page = some (s.rd (F.CTX_PAGE_ID x)) →
    (s.ring (s.ctxStation x)).pub < (s.ring (s.ctxStation x)).lines → s.ringRoom x 1 = true →
    exec (.zeroFillLine x) s = .next
      (let t := (s.bankPuts (s.ringAddr (s.ctxStation x) (s.ring (s.ctxStation x)).pub) (List.replicate p.lineBytes 0)).publish (s.ctxStation x)
         ((s.ring (s.ctxStation x)).pub + 1)
       if (t.ring (s.ctxStation x)).lines ≤ (t.ring (s.ctxStation x)).pub then t.ctxEnd x else t))

/-- Encode jobs: GO starts one with sound parameters and fails it with BAD_PARAM otherwise; it ends DONE with its stream in memory and its length in EJ_RESULT,
or with the status of its first error; ABORT ends it but while its header is being written. -/
def Obligations.EncodeCommands : Prop :=
  (∀ a (j : Fin 2) v (s : State), writable s a (0x051 + j) 0x060 → s.rd (H.STATE (0x051 + j)) ≠ 0 →
    exec (.go a j v) s = .next ((s.mark (0x051 + j) 57).wr (H.ACCESS_BUSY (0x051 + j)) 1)) ∧
  (∀ a (j : Fin 2) v (s : State), writable s a (0x051 + j) 0x060 → s.rd (H.STATE (0x051 + j)) = 0 →
    (let t := (((s.wr (F.EJ_CTL_ALPHA j) v).wr (F.EJ_CTL_MODE j) (v / 2)).wr (F.EJ_CTL_EFFORT j) (v / 4)).wr (F.EJ_CTL_BLOCK_IN j) (v / 256)
     (t.on (H.ISOLATED (0x051 + j)) = true → exec (.go a j v) s = .next (t.ejFail j 8)) ∧
     (t.on (H.ISOLATED (0x051 + j)) = false → t.ejParams j = false → exec (.go a j v) s = .next (t.ejFail j 7)) ∧
     (t.on (H.ISOLATED (0x051 + j)) = false → t.ejParams j = true →
       exec (.go a j v) s = .next
         (let u := ((t.wr (H.STATE (0x051 + j)) 1).wr (F.EJ_STAT_STATUS j) 1).wr (F.EJ_RESULT_LEN j) 0
          u.wr F.CDC_STAT_ENC_BUSY (u.rd F.CDC_STAT_ENC_BUSY ||| 2 ^ j.val))))) ∧
  (∀ (j : Fin 2) data l s t, s.rd (H.STATE (0x051 + j)) ≠ 0 → s.ejLines j data (s.rd (F.EJ_LINES_LINES j)) 0 = (.bytes l, t) →
    (let out := encodeStream ⟨t.on (F.EJ_CTL_ALPHA j), t.rd (F.EJ_LINE_BYTES_BYTES j), t.rd (F.EJ_LINES_LINES j)⟩ (t.on (F.EJ_CTL_MODE j))
       (t.rd (F.EJ_CTL_EFFORT j)) (t.rd (F.EJ_CTL_BLOCK_IN j) + 1) l
     let words := (out.length + 7) / 8
     (8 * words ≤ t.rd (F.EJ_DST_SIZE_BYTES j) → t.inMemory (t.ejDst j) (8 * words) = true →
      exec (.encodeJobDone j data) s = .next
        (let u := ((t.memPuts (t.ejDst j) words out).wr (F.EJ_RESULT_LEN j) out.length).wr (F.EJ_STAT_STATUS j) 2
         ((u.wr F.CDC_STAT_ENC_BUSY (u.rd F.CDC_STAT_ENC_BUSY &&& (3 - 2 ^ j.val))).wr (H.STATE (0x051 + j)) 0).event (0x051 + j) 0)) ∧
     (t.rd (F.EJ_DST_SIZE_BYTES j) < 8 * words → exec (.encodeJobDone j data) s = .next (t.ejFail j 3)))) ∧
  (∀ (j : Fin 2) data (s : State), s.rd (H.STATE (0x051 + j)) = 0 → exec (.encodeJobDone j data) s = .next s) ∧
  (∀ (j : Fin 2) (st : Fin 3) (s : State), s.rd (H.STATE (0x051 + j)) ≠ 0 → exec (.encodeJobFail j st) s = .next (s.ejFail j (3 + st.val))) ∧
  (∀ (j : Fin 2) (st : Fin 3) (s : State), s.rd (H.STATE (0x051 + j)) = 0 → exec (.encodeJobFail j st) s = .next s) ∧
  (∀ a (j : Fin 2) (s : State), writable s a (0x051 + j) 0x004 → s.rd (H.STATE (0x051 + j)) ≠ 0 → exec (.encodeAbort a j false) s = .next (s.ejFail j 6)) ∧
  (∀ a (j : Fin 2) (s : State), writable s a (0x051 + j) 0x004 → exec (.encodeAbort a j true) s = .next s)

/-- Reads and writes of bank and DRAM words: a word without wrong bits is returned as stored, a byte written reads back and every other byte stays, a master
without a port and an address without a bank or slot get an access error. -/
def Obligations.MemoryAccess : Prop :=
  (∀ m addr (s : State), (if s.inBank (addr / 8 * 8) 8 then (bankOf (addr / 8 * 8)).bind (s.port m) else none) = none →
    ∀ strikes flight, exec (.bankRead m addr strikes flight) s = .next (s.busError m addr)) ∧
  (∀ m addr prim (s : State), (if s.inBank (addr / 8 * 8) 8 then (bankOf (addr / 8 * 8)).bind (s.port m) else none) = some prim → s.mu.upsets = [] →
    s.mu.tick.1 ≠ s.time → exec (.bankRead m addr [] 0) s = .next ((s.masterOk m).emit (.readData (s.ld (addr / 8 * 8) 8)))) ∧
  (∀ m addr prim data en (s : State), s.inBank (addr / 8 * 8) 8 = true → bankOf (addr / 8 * 8) ≠ some 21 →
    (bankOf (addr / 8 * 8)).bind (s.port m) = some prim → s.mu.tick.1 ≠ s.time →
    ∃ t, exec (.bankWrite m addr data en 0) s = .next t ∧
      (∀ i < 8, t.ldByte (addr / 8 * 8 + i) = if bit en i then data / 256 ^ i % 256 else s.ldByte (addr / 8 * 8 + i)) ∧
      (∀ b, b < addr / 8 * 8 ∨ addr / 8 * 8 + 8 ≤ b → t.ldByte b = s.ldByte b)) ∧
  (∀ m addr data en flight (s : State), (bankOf (addr / 8 * 8)).bind (s.port m) = none → exec (.bankWrite m addr data en flight) s = .next (s.busError m addr)) ∧
  (∀ m addr slot off (s : State), slotAddr (addr / 8 * 8) = some (slot, off) → s.inDram (addr / 8 * 8) 8 = true → m ≠ .harbourmaster →
    s.mu.wrong = [] → s.mu.poison = [] → s.ch 0 ≠ chRebuilding → s.ch 1 ≠ chRebuilding →
    exec (.dramRead m addr 0 0 0 0 false false) s = .next ((s.masterOk m).emit (.readData (s.ld (addr / 8 * 8) 8)))) ∧
  (∀ m addr w0 w1 fl rb (s : State), slotAddr (addr / 8 * 8) = none → s.ch 0 ≠ chRebuilding → s.ch 1 ≠ chRebuilding →
    exec (.dramRead m addr w0 w1 fl rb false false) s = .next (s.busError m addr)) ∧
  (∀ m addr words (s : State), addr % 8 = 0 → words ≠ [] → addr % 64 + 8 * words.length ≤ 64 → s.inDram addr (8 * words.length) = true → m ≠ .harbourmaster →
    exec (.dramWrite m addr words 0xFF 0 false false) s = .next (s.dramPuts addr words)) ∧
  (∀ m addr words en flight (s : State), en ≠ 0xFF → exec (.dramWrite m addr words en flight false false) s = .next (s.busError m addr)) ∧
  (∀ a v b (s : State), (s.dramPut a v).ldByte b =
    if (slotAddr a).isSome ∧ a ≤ b ∧ b < a + 8 then v / 256 ^ (b - a) % 256 else s.ldByte b)

/-- Training, filling and rebuilding of DRAM channels, sealing and scrubbing. -/
def Obligations.MemoryServices : Prop :=
  (∀ (c : Fin 2) gib (s : State), s.ch c = chTraining → s.dev = stFill → gib = 0 → (s.wr (chCap c) 0 |>.wr (chState c) chOff).fillOver = false →
    exec (.dramFillDone c true gib) s = .next ((s.wr (chCap c) 0).wr (chState c) chOff)) ∧
  (∀ (c : Fin 2) gib (s : State), s.ch c = chTraining → s.dev ≠ stFill → s.dev ≠ stBoot → s.mirrored = false →
    exec (.dramFillDone c true gib) s = .next (((s.fillChannel c).wr (chState c) chReady).storeRegs)) ∧
  (∀ (c : Fin 2) gib (s : State), s.ch c = chTraining → s.dev ≠ stFill → s.dev ≠ stBoot → s.mirrored = true → s.ch (other c) = chReady →
    exec (.dramFillDone c true gib) s = .next (((s.modMu fun u => { u with rebuilt := 0 }).wr (chState c) chRebuilding).wr F.DP_REBUILD_DONE 0)) ∧
  (∀ (c : Fin 2) ok gib (s : State), s.ch c ≠ chTraining → s.ch c ≠ chFilling → exec (.dramFillDone c ok gib) s = .next s) ∧
  (∀ a (s : State), writable s a 0x058 0x040 → s.ch 0 = chFailed → s.ch 1 = chFailed →
    exec (.dramRetrain a 3) s = .next ((s.wr F.DP_STAT_CH0 chTraining).wr F.DP_STAT_CH1 chTraining)) ∧
  (∀ a chans (s : State), writable s a 0x058 0x040 → s.ch 0 ≠ chFailed → s.ch 1 ≠ chFailed → exec (.dramRetrain a chans) s = .next s) ∧
  (∀ (c : Fin 2) (s : State), s.ch c = chRebuilding → exec (.rebuildDone c) s = .next
    ((((s.rebuiltTo (s.slotBytes 0)).wr (chState c) chReady).wr (H.STATE 0x058) 1).event 0x058 1)) ∧
  (∀ (c : Fin 2) (s : State), s.ch c ≠ chRebuilding → exec (.rebuildDone c) s = .next s) ∧
  (∀ a page count (s : State), writable s a 0x05A 0x044 → s.rd F.CS_SEAL_STAT_STATUS = 1 →
    exec (.sealGo a page count) s = .next ((s.mark 0x05A 57).wr (H.ACCESS_BUSY 0x05A) 1)) ∧
  (∀ a page count (s : State), writable s a 0x05A 0x044 → s.rd F.CS_SEAL_STAT_STATUS ≠ 1 →
    ∃ t, exec (.sealGo a page count) s = .next t ∧ t.mem = s.mem ∧ t.rd F.CS_SEAL_STAT_STATUS = 1 ∧ t.rd F.CS_SEAL_STAT_DONE = 0 ∧
      t.rd F.CS_SEAL_PAGE = page % 2 ^ F.CS_SEAL_PAGE.width ∧ t = { s with regs := t.regs, mu := t.mu } ∧
      t.mu = { s.mu with sealing := t.mu.sealing } ∧
      keepsFields [F.CS_SEAL_PAGE, F.CS_SEAL_COUNT, F.CS_SEAL_STAT_STATUS, F.CS_SEAL_STAT_DONE] s t) ∧
  (∀ (s : State), s.rd F.CS_SEAL_STAT_STATUS = 1 → ∃ t u : State, exec .sealDone s = .next (t.event 0x05A 0) ∧
    t = ((u.wr F.CS_SEAL_STAT_STATUS 2).wr F.CS_SEAL_STAT_DONE s.mu.sealing.length) ∧ u.regs = s.regs ∧ u.mem = s.mem ∧ u.mu.sealing = [] ∧
    (∀ p ∈ s.mu.sealing, u.isSealed p = true) ∧ (∀ p, p ∉ s.mu.sealing → u.isSealed p = s.isSealed p)) ∧
  (∀ (s : State), s.rd F.CS_SEAL_STAT_STATUS ≠ 1 → exec .sealDone s = .next s) ∧
  (∀ addr st w0 w1 last (s : State), s.on F.CS_CFG_SCRUB_EN = false ∨ s.dev = stSlack → exec (.scrubRead addr st w0 w1 last) s = .next s) ∧
  (∀ addr (s : State), s.on F.CS_CFG_SCRUB_EN = true → s.dev ≠ stSlack → s.inBank (addr / 8 * 8) 8 = true → s.mu.upsets = [] →
    s.isSealed (addr / 8 * 8 / 4096) = false →
    exec (.scrubRead addr [] 0 0 false) s = .next s ∧ exec (.scrubRead addr [] 0 0 true) s = .next (s.passEnd 0)) ∧
  (∀ (s : State), s.on F.CS_CFG_SCRUB_EN = true → s.dev ≠ stSlack → s.mu.passAt[0] + s.rd F.CS_CFG_ONCHIP_S * 100000000 ≤ s.time →
    exec (.scrubLate true) s = .next ((s.modMu fun u => { u with passAt := u.passAt.set 0 s.time }).raise 122 0x05A 23)) ∧
  (∀ (s : State), s.on F.CS_CFG_SCRUB_EN = true → s.dev ≠ stSlack → s.mu.passAt[1] + s.rd F.CS_CFG_DRAM_MIN * 6000000000 ≤ s.time →
    exec (.scrubLate false) s = .next ((s.modMu fun u => { u with passAt := u.passAt.set 1 s.time }).raise 122 0x05A 23)) ∧
  (∀ b (s : State), s.on F.CS_CFG_SCRUB_EN = false → exec (.scrubLate b) s = .next s)

/-- The commands of a DMA channel's owner: DOORBELL, PAUSE, RESUME, CLEAR and ABORT by the channel's state, and DC_HEAD.
Host windows: a write of a window that was not declared changes the word alone; one that changes a declared window stops the channels that use it. -/
def Obligations.DmaOwnerCommands : Prop :=
  (∀ a (n : Fin 32) (s : State), writable s a (0x061 + n) 0x058 → s.dcState n = dcIdle → s.on (H.ISOLATED (0x061 + n)) = false →
    exec (.doorbell a n) s = .next (((((s.wr (F.DC_STAT_DB_PEND n) 1).modChan n fun c => { c with readOk := s.dcMayRead n }).wr
      (F.DC_STAT_DB_PEND n) 0).wr (H.STATE (0x061 + n)) dcFetch).dmaRegs)) ∧
  (∀ a (n : Fin 32) (s : State), writable s a (0x061 + n) 0x058 → s.dcState n ≠ dcIdle → exec (.doorbell a n) s = .next (s.wr (F.DC_STAT_DB_PEND n) 1)) ∧
  (∀ a (n : Fin 32) (s : State), writable s a (0x061 + n) 0x05C → s.dcState n = dcActive →
    exec (.pause a n) s = .next ((s.wr (H.STATE (0x061 + n)) dcPausing).dmaRegs)) ∧
  (∀ a (n : Fin 32) (s : State), writable s a (0x061 + n) 0x05C → s.dcState n = dcFetch →
    exec (.pause a n) s = .next (((s.modChan n fun c => { c with fetching := true }).wr (H.STATE (0x061 + n)) dcPausing).dmaRegs)) ∧
  (∀ a (n : Fin 32) (s : State), writable s a (0x061 + n) 0x05C → s.dcState n = dcIdle →
    exec (.pause a n) s = .next ((((s.modChan n fun c => { c with toIdle := true }).wr (H.STATE (0x061 + n)) dcPaused).dmaRegs).event (0x061 + n) 2)) ∧
  (∀ a (n : Fin 32) (s : State), writable s a (0x061 + n) 0x05C → s.dcState n = dcPausing ∨ s.dcState n = dcPaused ∨ s.dcState n = dcHalted →
    exec (.pause a n) s = .next s) ∧
  (∀ a (n : Fin 32) (s : State), writable s a (0x061 + n) 0x05C → s.dcState n = dcPaused → (s.chan n).toIdle = false → (s.chan n).toFetch = false →
    (s.chan n).revoked = false →
    exec (.resume a n) s = .next ((((s.modChan n fun c => { c with toFetch := false, toIdle := false }).wr (F.DC_STAT_HOLD_STOP n) 0).wr
      (H.STATE (0x061 + n)) dcActive).dmaRegs)) ∧
  (∀ a (n : Fin 32) (s : State), writable s a (0x061 + n) 0x05C → s.dcState n = dcPaused → (s.chan n).toIdle = false → (s.chan n).toFetch = true →
    exec (.resume a n) s = .next (((s.modChan n fun c => { c with toFetch := false, toIdle := false }).wr (F.DC_STAT_HOLD_STOP n) 0).dcStart n)) ∧
  (∀ a (n : Fin 32) (s : State), writable s a (0x061 + n) 0x05C → s.dcState n ≠ dcPaused → exec (.resume a n) s = .next s) ∧
  (∀ a (n : Fin 32) (s : State), writable s a (0x061 + n) 0x05C → s.dcState n = dcHalted → s.on (F.DC_STAT_WB_FAIL n) = false → (s.chan n).stay = false →
    s.on (F.DC_STAT_DB_PEND n) = false → ∃ t, exec (.clear a n) s = .next (t.dcTo n dcIdle) ∧ t = s.setCur n (s.dcNext n)) ∧
  (∀ a (n : Fin 32) (s : State), writable s a (0x061 + n) 0x05C → s.dcState n ≠ dcHalted → exec (.clear a n) s = .next s) ∧
  (∀ a (n : Fin 32) (s : State), writable s a (0x061 + n) 0x004 → s.dcState n = dcActive → s.fc.hw = [] →
    exec (.dmaAbort a n) s = .next (((s.modChan n fun c => { c with aborting := true }).wr (H.STATE (0x061 + n)) dcPausing).dmaRegs)) ∧
  (∀ a (n : Fin 32) (s : State), writable s a (0x061 + n) 0x004 → s.dcState n = dcIdle ∨ s.dcState n = dcFetch ∨ s.dcState n = dcHalted → s.fc.hw = [] →
    exec (.dmaAbort a n) s = .next s) ∧
  (∀ a (n : Fin 32) v (s : State), writable s a (0x061 + n) 0x048 → s.dcState n = dcIdle →
    ∃ t, exec (.dcHeadWrite a n false v) s = .next t ∧
      onlyFields [F.DC_HEAD_LO_PTR n, F.DC_CUR_LO n, F.DC_CUR_HI n] s t ∧ t.rd (F.DC_HEAD_LO_PTR n) = v / 32 % 2 ^ (F.DC_HEAD_LO_PTR n).width) ∧
  (∀ a (n : Fin 32) v (s : State), writable s a (0x061 + n) 0x04C → s.dcState n ≠ dcIdle → s.dcState n ≠ dcHalted →
    exec (.dcHeadWrite a n true v) s = .next ((s.mark (0x061 + n) 57).wr (H.ACCESS_BUSY (0x061 + n)) 1)) ∧
  (∀ a (w : Fin 16) v (s : State), writable s a 0x060 (0x080 + 16 * w) → s.on (F.DG_WIN_VALID w) = false → s.fc.hw = [] →
    exec (.windowRevoke a w 0 v) s = .next (s.wr (F.DG_WIN_BASE_LO w) (v / 4096))) ∧
  (∀ a (w : Fin 16) v (s : State), writable s a 0x060 (0x084 + 16 * w) → s.on (F.DG_WIN_VALID w) = false → s.fc.hw = [] →
    exec (.windowRevoke a w 1 v) s = .next (s.wr (F.DG_WIN_BASE_HI w) v)) ∧
  (∀ a (w : Fin 16) v (s : State), writable s a 0x060 (0x088 + 16 * w) → s.on (F.DG_WIN_VALID w) = false → s.fc.hw = [] →
    exec (.windowRevoke a w 2 v) s = .next (s.wr (F.DG_WIN_SIZE w) (min (v % 2 ^ 32) 0x80000000))) ∧
  (∀ a (w : Fin 16) v (s : State), writable s a 0x060 (0x08C + 16 * w) → s.on (F.DG_WIN_VALID w) = false → s.fc.hw = [] →
    exec (.windowRevoke a w 3 v) s = .next (((s.wr (F.DG_WIN_VALID w) v).wr (F.DG_WIN_RD w) (v / 2)).wr (F.DG_WIN_WR w) (v / 4))) ∧
  (∀ a (w : Fin 16) v (s : State), writable s a 0x060 (0x08C + 16 * w) → s.on (F.DG_WIN_VALID w) = true → v % 2 = 0 →
    exec (.windowRevoke a w 3 v) s = .next ((((s.wr (F.DG_WIN_VALID w) v).wr (F.DG_WIN_RD w) (v / 2)).wr (F.DG_WIN_WR w) (v / 4)).revoke w true true).hwReact) ∧
  (∀ (w : Fin 16) off n wr (s : State), s.winOk w off n wr = true ↔ s.on (F.DG_WIN_VALID w) = true ∧ s.on (if wr then F.DG_WIN_WR w else F.DG_WIN_RD w) = true ∧
    off + n ≤ s.rd (F.DG_WIN_SIZE w) * 4096)

/-- The engine of a DMA channel: a fetched descriptor is checked and starts, a burst is granted by priority and moves its words, and the last
one writes back DONE and fetches the next descriptor. -/
def Obligations.DmaEngineCommands : Prop :=
  (∀ (n : Fin 32) host ok (s : State), s.dcState n ≠ dcFetch → s.dcState n ≠ dcPausing → exec (.descriptorFetch n host ok) s = .next s) ∧
  (∀ (n : Fin 32) host ok st s t, s.dcState n = dcFetch → s.on (H.ISOLATED (0x061 + n)) = false → s.quay.d3hot = false →
    s.dcRead n host ok = (.inl st, t) → exec (.descriptorFetch n host ok) s = .next (t.dcFetchError n st).hwReact) ∧
  (∀ (n : Fin 32) host ok l s t, s.dcState n = dcFetch → s.on (H.ISOLATED (0x061 + n)) = false → s.quay.d3hot = false →
    s.dcRead n host ok = (.inr l, t) →
    (let c : Chan := { t.chan n with ctrl := leNat (l.take 4), len := leNat ((l.drop 4).take 4), src := leNat ((l.drop 8).take 8),
                                     dst := leNat ((l.drop 16).take 8), next := leNat ((l.drop 24).take 8) }
     (bit c.ctrl 0 = true → (t.modChan n fun _ => { c with held := true }).dcCheck n c = none →
       exec (.descriptorFetch n host ok) s = .next ((t.modChan n fun _ => { c with held := true }).dcActivate n)) ∧
     (∀ st a, bit c.ctrl 0 = true → (t.modChan n fun _ => { c with held := true }).dcCheck n c = some (st, a) →
       exec (.descriptorFetch n host ok) s = .next ((t.modChan n fun _ => { c with held := true }).dcError n st 0 a).hwReact) ∧
     (bit c.ctrl 0 = false → t.on (F.DC_STAT_DB_PEND n) = true →
       exec (.descriptorFetch n host ok) s = .next (((t.modChan n fun c => { c with readOk := t.dcMayRead n }).wr
         (F.DC_STAT_DB_PEND n) 0).sat (F.DC_CNT_B_REFETCH n))) ∧
     (bit c.ctrl 0 = false → t.on (F.DC_STAT_DB_PEND n) = false → (t.chan n).fetching = false → (t.chan n).aborting = false →
       exec (.descriptorFetch n host ok) s = .next (((t.wr (H.STATE (0x061 + n)) dcIdle).dmaRegs).event (0x061 + n) 1)))) ∧
  (∀ req (s : State), s.dcPick req = none → exec (.dmaBurstGrant req) s = .next s) ∧
  (∀ req n (s : State), s.dcPick req = some n → exec (.dmaBurstGrant req) s = .next
    (let b := min (8 * (s.rd (F.DC_CFG_BURST n) + 1)) ((s.chan n).len - s.rd (F.DC_PROG_BYTES n))
     let t := s.modChan n fun c => { c with grant := some b, grantAt := some s.time, partner := [], dackAt := s.time }
     { t with dma := { t.dma with last := n.val } })) ∧
  (∀ req n (s : State), s.dcPick req = some n → s.dcReady n req = true ∧ ∀ m, s.dcReady m req = true → s.rd (F.DC_CFG_PRIO m) ≤ s.rd (F.DC_CFG_PRIO n)) ∧
  (∀ (n : Fin 32) data hb fl (s : State), (s.chan n).grant = none → exec (.dmaBurstDone n data hb fl) s = .next s) ∧
  (∀ (n : Fin 32) b data fl out e s t, (s.chan n).grant = some b → s.dcState n = dcActive → s.rd (F.DC_CFG_REQ n) = 0 → (s.chan n).revoked = false →
    s.burst n (s.chan n) (s.rd (F.DC_PROG_BYTES n)) data (s.memSides n) fl b (b / 8) 0 [] = (out, ⟨e, none⟩, t) →
    (let u := ((t.burstOut n (s.rd (F.DC_PROG_BYTES n)) out).wr (F.DC_PROG_BYTES n) (s.rd (F.DC_PROG_BYTES n) + e)).modChan n fun c =>
       { c with grant := none, partner := [] }
     (s.rd (F.DC_PROG_BYTES n) + b = (s.chan n).len → exec (.dmaBurstDone n data none fl) s = .next (u.dcDone n).hwReact) ∧
     (s.rd (F.DC_PROG_BYTES n) + b ≠ (s.chan n).len → exec (.dmaBurstDone n data none fl) s = .next u))) ∧
  (∀ (n : Fin 32) (s : State), s.dcState n = dcPausing → (s.chan n).grant = none → (s.chan n).fetching = false → (s.chan n).aborting = false →
    exec (.pauseDrained n) s = .next (((s.wr (H.STATE (0x061 + n)) dcPaused).dmaRegs).event (0x061 + n) 2)) ∧
  (∀ (n : Fin 32) (s : State), s.dcState n = dcPausing → (s.chan n).grant = none → (s.chan n).fetching = false → (s.chan n).aborting = true →
    exec (.pauseDrained n) s = .next (s.dcAborted n).hwReact) ∧
  (∀ (n : Fin 32) (s : State), s.dcState n ≠ dcPausing → exec (.pauseDrained n) s = .next s)

/-- The order of messages: without a session NO_SESSION, another epoch STALE_EPOCH or BAD_EPOCH, the next sequence number with its effect, an earlier one a
duplicate, a later one a gap; nothing while the rings stand or have no entry. -/
def Obligations.MessageOrder : Prop :=
  (∀ h nj k (s : State), s.sqReady = false → s.message h nj k = s) ∧
  (∀ h nj k (s : State), s.sqReady = true → s.session = false → s.message h nj k = s.takeEntry.reply h csNoSession) ∧
  (∀ h nj k (s : State), s.sqReady = true → s.session = true → h.epoch ≠ 0 → h.epoch < s.rd F.QY_EPOCH_EPOCH →
    s.message h nj k = ((s.takeEntry.sat F.QY_CNT_B_STALE).reply h csStaleEpoch).raise 209 0x0D0 2) ∧
  (∀ h nj k (s : State), s.sqReady = true → s.session = true → h.epoch = 0 ∨ s.rd F.QY_EPOCH_EPOCH < h.epoch → h.epoch ≠ s.rd F.QY_EPOCH_EPOCH →
    s.message h nj k = (s.takeEntry.sat F.QY_CNT_B_STALE).reply h csBadEpoch) ∧
  (∀ h nj k (s : State), messageOk s h nj → s.message h nj k = k (s.accepted h)) ∧
  (∀ h nj k (s : State), s.sqReady = true → s.session = true → h.epoch = s.rd F.QY_EPOCH_EPOCH → h.seq ≠ 0 → h.seq = seqNext (s.rd F.QY_ACK_SEQ) →
    h.clean = false → s.message h nj k = (s.accepted h).reply h csBadField) ∧
  (∀ h nj k (s : State), s.sqReady = true → s.session = true → h.epoch = s.rd F.QY_EPOCH_EPOCH → h.seq ≠ 0 → h.seq ≠ seqNext (s.rd F.QY_ACK_SEQ) →
    seqBehind (s.rd F.QY_ACK_SEQ) h.seq = true → s.message h nj k = s.takeEntry.heard.duplicate h) ∧
  (∀ h nj k (s : State), s.sqReady = true → s.session = true → h.epoch = s.rd F.QY_EPOCH_EPOCH → h.seq ≠ 0 → h.seq ≠ seqNext (s.rd F.QY_ACK_SEQ) →
    seqBehind (s.rd F.QY_ACK_SEQ) h.seq = false → s.message h nj k = s.takeEntry.heard.gap h) ∧
  (∀ (s : State), s.session = true → s.takeEntry.session = true ∧ s.takeEntry.rd F.QY_SQ_HEAD_HEAD = (s.rd F.QY_SQ_HEAD_HEAD + 1) % s.sqSize % 2 ^ 12)

/-- The endpoint: link, configuration writes and resets, BAR2, MSI-X vectors, rings and their head and tail. -/
def Obligations.EndpointCommands : Prop :=
  (∀ sp w (s : State), s.rd F.QY_LINK_SPEED = 0 → exec (.pcieLinkUp sp w) s = .next
    ((((s.wr F.QY_LINK_SPEED sp).wr F.QY_LINK_WIDTH w).modQuay fun q => { q with perst := false }).event 0x0D0 5)) ∧
  (∀ sp w (s : State), s.rd F.QY_LINK_SPEED ≠ 0 → exec (.pcieLinkUp sp w) s = .next
    ((((s.wr F.QY_LINK_SPEED sp).wr F.QY_LINK_WIDTH w).modQuay fun q => { q with perst := false }).sat F.QY_LINK_RECOVERY)) ∧
  (∀ d f m (s : State), exec (.configurationWrite d f m) s = .next { s with quay := { s.quay with d3hot := d, fnMask := f, aerMask := m } }) ∧
  (∀ (s : State), exec (.functionReset false) s = .next (s.functionReset.raise 208 0x0D0 0)) ∧
  (∀ (s : State), exec (.functionReset true) s = .next ((((s.functionReset.wr F.QY_LINK_SPEED 0).wr F.QY_LINK_WIDTH 0).modQuay
    fun q => { q with perst := true }).raise 208 0x0D0 0)) ∧
  (∀ off bytes (s : State), 0x100000 ≤ off → off + bytes.length ≤ 0x200000 →
    exec (.bar2Write off bytes false) s = .next (s.bankPuts (0x03A00000 + off) (bytes.map (·.toNat)))) ∧
  (∀ off bytes (s : State), off < 0x100000 → off + bytes.length ≤ 0x100000 → exec (.bar2Write off bytes false) s = .next (s.sat F.QY_CNT_C_BAR2_DROP)) ∧
  (∀ off len l t (s : State), 0x100000 ≤ off → off + len ≤ 0x200000 → s.memBytes (0x03A00000 + off) len .endpoint = (some l, t) →
    exec (.bar2Read off len) s = .next (t.emit (.readData (leNat l)))) ∧
  (∀ off len (s : State), off + len ≤ 0x100000 → exec (.bar2Read off len) s = .next (s.emit (.readData 0))) ∧
  (∀ (v : Fin 64) (s : State), bit (s.rd (F.MSIX_PBA (v / 32))) (v % 32) = true → s.on (F.MSIX_CTRL_MASK v) = false → s.quay.fnMask = false →
    exec (.msixSend v) s = .next ((s.wr (F.MSIX_PBA (v / 32)) (s.rd (F.MSIX_PBA (v / 32)) - 2 ^ (v.val % 32))).emit (.msix v))) ∧
  (∀ (v : Fin 64) (s : State), bit (s.rd (F.MSIX_PBA (v / 32))) (v % 32) = false → exec (.msixSend v) s = .next s) ∧
  (∀ (s : State), s.irqDue = true → s.on (F.MSIX_CTRL_MASK 0) = false → s.quay.fnMask = false →
    exec .irqHoldoffExpiry s = .next { s.emit (.msix 0) with quay := { s.quay with irqWait := 0, irqLast := s.time } }) ∧
  (∀ (s : State), s.irqDue = false → exec .irqHoldoffExpiry s = .next s) ∧
  (∀ a (s : State), s.absentPage 0x0D0 = false → s.mayWrite a 0x0D0 0x004 = true → s.on (H.LOCK 0x0D0) = false → (a = .host → s.dev ≠ stSlack) →
    exec (.ringsEnable a true) s = .next s.ringsStart ∧ exec (.ringsEnable a false) s = .next s.ringsStop.hwReact) ∧
  (∀ a tail (s : State), s.absentPage 0x0D0 = false → s.mayWrite a 0x0D0 0x04C = true → s.on (H.LOCK 0x0D0) = false → (a = .host → s.dev ≠ stSlack) →
    tail < 4096 → tail < s.sqSize → exec (.sqTailWrite a tail) s = .next (s.modQuay fun q => { q with sqTail := tail })) ∧
  (∀ a tail (s : State), s.absentPage 0x0D0 = false → s.mayWrite a 0x0D0 0x04C = true → s.on (H.LOCK 0x0D0) = false → (a = .host → s.dev ≠ stSlack) →
    tail < 4096 → s.sqSize ≤ tail → exec (.sqTailWrite a tail) s = .next (s.sat F.QY_CNT_B_GAP)) ∧
  (∀ a head (s : State), s.absentPage 0x0D0 = false → s.mayWrite a 0x0D0 0x050 = true → s.on (H.LOCK 0x0D0) = false → (a = .host → s.dev ≠ stSlack) →
    exec (.cqHeadWrite a head) s = .next ((s.modQuay fun q => { q with cqHead := head % 4096 % s.cqSize }).drain))

/-- Sessions: OPEN begins one with the next epoch, RESUME continues it and sends again what the host has not seen, CLOSE ends it; a message that cannot be read or
understood is answered; a host that stays silent is noted. -/
def Obligations.SessionCommands : Prop :=
  (∀ (s : State), s.sqReady = true → exec .badCrc s = .next (((s.takeEntry.sat F.QY_CNT_A_BAD_CRC).postCompletion 0 0 csBadCrc [] 0).raise 209 0x0D0 2)) ∧
  (∀ (s : State), s.sqReady = false → exec .badCrc s = .next s) ∧
  (∀ h ty (s : State), messageOk s h true → exec (.badType h ty) s = .next ((s.accepted h).reply h csBadType)) ∧
  (∀ h (s : State), messageOk s h false → exec (.keepalive h) s = .next ((s.accepted h).reply h csOk)) ∧
  (∀ h tag (s : State), s.sqReady = true → h.epoch = 0 → h.seq = 0 → h.job = 0 → h.clean = true → s.session = false →
    exec (.sessionOpen h tag 0x00010000) s = .next
      (let t := ((((s.takeEntry.nextEpoch.wr F.QY_ACK_SEQ 0).wr F.QY_DSEQ_LAST 0).wr (H.STATE 0x0D0) 1).heard).modQuay
         fun q => { q with prevEpoch := 0, issued := [], completions := [], resendAt := none, waitResume := false }
       (t.postCompletion 0 0 csOk [(28, leBytes (t.rd F.QY_EPOCH_EPOCH) 4), (32, leBytes tag 4)] 0).issueOrphans.event 0x0D0 0)) ∧
  (∀ h tag (s : State), s.sqReady = true → h.epoch = 0 → h.seq = 0 → h.job = 0 → h.clean = true → h.force = false → s.session = true →
    exec (.sessionOpen h tag 0x00010000) s = .next (s.takeEntry.reply h csSessionExists)) ∧
  (∀ h tag ver (s : State), s.sqReady = true → h.clean = false ∨ ver ≠ 0x00010000 →
    exec (.sessionOpen h tag ver) s = .next (s.takeEntry.reply h csBadField)) ∧
  (∀ h la ld tag (s : State), s.sqReady = true → s.session = false → exec (.sessionResume h la ld tag) s = .next (s.takeEntry.reply h csNoSession)) ∧
  (∀ h la ld tag (s : State), s.sqReady = true → s.session = true → h.epoch = s.rd F.QY_EPOCH_EPOCH → h.epoch ≠ 0 → h.seq = 0 → h.job = 0 → h.clean = true →
    seqBehind (s.rd F.QY_ACK_SEQ) la = true → s.takeEntry.replayFrom ld = [] → s.rd F.QY_DSEQ_LAST = ld → ld + 1 < 2 ^ 32 →
    exec (.sessionResume h la ld tag) s = .next
      (let t := (s.takeEntry.nextEpoch.modQuay fun q =>
         { q with prevEpoch := s.rd F.QY_EPOCH_EPOCH, held := s.heldBefore, resendAt := none, waitResume := false }).drain
       ((t.heard.postCompletion 0 0 csOk [(28, leBytes (t.rd F.QY_EPOCH_EPOCH) 4), (32, leBytes (ld + 1) 4), (36, leBytes tag 4)] 0).heldRegs).event
         0x0D0 1)) ∧
  (∀ h (s : State), messageOk s h false → (s.accepted h).tl.jobs ≠ [] → h.force = false → exec (.sessionClose h) s = .next ((s.accepted h).reply h csState)) ∧
  (∀ h (s : State), messageOk s h false → (s.accepted h).tl.jobs = [] →
    exec (.sessionClose h) s = .next ((((s.accepted h).reply h csOk).endSession.event 0x0D0 2).hwReact)) ∧
  (∀ (s : State), s.session = true → s.rd F.QY_TIMER_HB_TO ≠ 0 → s.on F.QY_STAT_SILENT = false → s.quay.lastMsg + s.rd F.QY_TIMER_HB_TO * 100000000 ≤ s.time →
    s.on F.QY_TIMER_SILENT_STOP = true → exec .hostSilent s = .next (((s.wr F.QY_STAT_SILENT 1).wr F.PT_CFG_FEED_EN 0).raise 210 0x0D0 3)) ∧
  (∀ (s : State), s.session = false ∨ s.rd F.QY_TIMER_HB_TO = 0 → exec .hostSilent s = .next s) ∧
  (∀ h w v rd wr base size (s : State), messageOk s h false → w = 0 ∨ 15 < w ∨ base % 4096 ≠ 0 →
    exec (.windowSet h w v rd wr base size) s = .next ((s.accepted h).reply h csBadField)) ∧
  (∀ h (w : Fin 16) v rd wr base size (s : State), messageOk s h false → w ≠ 0 → base % 4096 = 0 →
    exec (.windowSet h w v rd wr base size) s = .next
      ((((s.accepted h).winSet w base size (b2n v + 2 * b2n rd + 4 * b2n wr)).reply h csOk).hwReact))

/-- Jobs and pages: JOB_OPEN adds a job, JOB_CLOSE and JOB_ABORT end it; a page is defined in its job, released into the queue, retired and queried. -/
def Obligations.JobAndPageCommands : Prop :=
  (∀ h st rp sk (s : State), messageOk s h true → h.job ≠ 0 →
    (let t := s.accepted h
     t.isSafe = false → t.boot.noProfile = false → st ≠ 0 → st < 64 → st &&& t.boot.stations = st →
     ((List.range 6).any fun k => bit st k && !t.hasStation k) = false → t.job? h.job = none → t.tl.jobs.length < 16 →
     exec (.jobOpen h st rp sk) s = .next
       ((((t.modTl fun q => { q with jobs := q.jobs ++ [⟨h.job, st, rp, sk, false, false, 0, 0⟩] }).jobRegs).reply h csOk).runReady))) ∧
  (∀ h st rp sk (s : State), messageOk s h true → (s.accepted h).isSafe = true → exec (.jobOpen h st rp sk) s = .next ((s.accepted h).reply h csState)) ∧
  (∀ h j (s : State), messageOk s h true → (s.accepted h).isSafe = false → (s.accepted h).job? h.job = some j →
    exec (.jobClose h) s = .next (((s.accepted h).modJob j.id fun q => { q with closed := true }).reply h csOk)) ∧
  (∀ h (s : State), messageOk s h true → (s.accepted h).isSafe = false → (s.accepted h).job? h.job = none →
    exec (.jobClose h) s = .next ((s.accepted h).reply h csUnknownJob)) ∧
  (∀ h j (s : State), messageOk s h true → (s.accepted h).isSafe = false → (s.accepted h).job? h.job = some j →
    exec (.jobAbort h) s = .next (((s.accepted h).jobAbort j.id).reply h csOk)) ∧
  (∀ h id len w ht fmt j (s : State), messageOk s h true →
    (let t := s.accepted h
     t.isSafe = false → t.job? h.job = some j → id ≠ 0 → len ≠ 0 → w ≠ 0 → w ≤ 31200 → ht ≠ 0 → ht ≤ 131071 → fmt % 4 ≠ 3 → bit fmt 3 = false → t.page? id = none →
     j.closed = false → j.aborted = false → (t.tl.pages.filter fun p => p.st ≠ .retired).length < 8192 →
     ∃ p : Page, exec (.pageDefine h id len w ht fmt) s = .next ((t.modTl fun q => { q with pages := q.pages ++ [p] }).reply h csOk) ∧
       p.id = id ∧ p.job = j.id ∧ p.sheetLen = len ∧ p.width = w ∧ p.height = ht ∧ p.fmt = fmt ∧ p.st = .defined ∧ p.sheet = none ∧ p.seps = [])) ∧
  (∀ h id j p (s : State), messageOk s h true →
    (let t := s.accepted h
     t.isSafe = false → t.job? h.job = some j → t.page? id = some p → p.job = j.id → p.st = .resident → p.released = false →
     exec (.pageRelease h id) s = .next
       (((((t.modPage id fun q => { q with released := true }).modTl fun q => { q with released := q.released ++ [id] }).pageTo id .released).queueRegs).reply
         h csOk))) ∧
  (∀ h id j p (s : State), messageOk s h true →
    (let t := s.accepted h
     t.isSafe = false → t.job? h.job = some j → t.page? id = some p → p.job = j.id → p.st ≠ .retired → p.released = true →
     exec (.pageRelease h id) s = .next (t.reply h csOk))) ∧
  (∀ h id j p (s : State), messageOk s h true →
    (let t := s.accepted h
     t.isSafe = false → t.job? h.job = some j → t.page? id = some p → p.job = j.id → p.st ≠ .retired →
     exec (.pageRetire h id) s = .next ((t.retirePage p).reply h csOk))) ∧
  (∀ h id j p (s : State), messageOk s h true → (s.accepted h).job? h.job = some j → (s.accepted h).page? id = some p → p.job = j.id → p.st ≠ .retired →
    exec (.pageQuery h id) s = .next ((s.accepted h).postCompletion h.seq h.job csOk
      [(28, leBytes p.id 4), (32, leBytes (p.sheet.getD 0) 4), (36, [p.cause]), (37, [p.reprints]), (38, [b2n p.final]), (39, [p.st.code]),
       (40, leBytes p.changed 8), (48, [p.seps.foldl (fun v q => if q.stored then v ||| 2 ^ q.station else v) 0])] 0)) ∧
  (∀ h id j (s : State), messageOk s h true → (s.accepted h).job? h.job = some j → (s.accepted h).page? id = none →
    exec (.pageQuery h id) s = .next ((s.accepted h).reply h csUnknownPage))

/-- Separations: a well-placed part is queued and its separation waits for it, a part repeated word for word is OK again, and a transfer that ends stores its bytes
and posts PART_DONE. -/
def Obligations.SeparationCommands : Prop :=
  (∀ h id k last grow eff w off po len sl stride j p (s : State), messageOk s h true →
    (let t := s.accepted h
     t.isSafe = false → t.job? h.job = some j → t.page? id = some p → p.job = j.id → p.st ≠ .retired → w ≠ 0 → w < 16 → off % 8 = 0 → eff < 8 →
     exec (.sepSubmit h id k last false eff grow w off po len sl stride) s = .next
       (t.sepPart h p j k po len last false sl false [0, b2n last, 0, eff, b2n grow, w, off, sl, stride]))) ∧
  (∀ h id k last mb po len sl j p (s : State), messageOk s h true →
    (let t := s.accepted h
     t.isSafe = false → t.job? h.job = some j → t.page? id = some p → p.job = j.id → p.st ≠ .retired → mb % 8 = 0 → 0x100000 ≤ mb → mb + len ≤ 0x200000 →
     exec (.sepWritten h id k last mb po len sl) s = .next (t.sepPart h p j k po len last false sl false [1, b2n last, 0, 0, 0, 0, mb, sl, 0]))) ∧
  (∀ h p j k po len last sl body (s : State), p.sep? k = none → bit j.stations k = true → k < 6 → p.st = .defined → badPart none po len last false sl = false →
    s.queuedParts < 256 →
    s.sepPart h p j k po len last false sl false body =
      ((s.modPage p.id fun q => { q with seps := q.seps ++
        [(⟨k, [⟨po, len, body, false⟩], if last && !false then some sl else none, false, []⟩ : Machine.Sep)] }).reply h csOk)) ∧
  (∀ h p j k po len last sl bad body q r (s : State), p.sep? k = some q → q.parts.find? (fun r => r.offs = po && r.len = len) = some r → r.body = body →
    s.sepPart h p j k po len last false sl bad body = s.reply h csOk) ∧
  (∀ id (k : Fin 6) po st data (s : State), s.page? id = none → exec (.partDone id k po 0 st data) s = .next s) ∧
  (∀ id (k : Fin 6) po res st data p q r (s : State), s.page? id = some p → p.sep? k = some q → q.parts.find? (fun r => r.offs = po && !r.stored) = some r →
    p.st ≠ .retired → res ≠ 0 → exec (.partDone id k po res st data) s = .next (s.partFail p k r res st)) ∧
  (∀ id (k : Fin 6) po st data p q r bytes t (s : State), s.page? id = some p → p.sep? k = some q → q.parts.find? (fun r => r.offs = po && !r.stored) = some r →
    p.st ≠ .retired → r.body.getD 0 0 = 1 → r.body.getD 2 0 = 0 → s.partBytes r data = (some bytes, t) →
    exec (.partDone id k po 0 st data) s = .next (t.partStore p q r bytes))

/-- Beam detects: an edge in the window (or with no window open) is accepted, another is stray; an accepted one sets the stamps, the period and the
count of missing pulses, and steps the facet, the lock and the scans.
The windows that end without an edge: the first and second missing pulse are synthesised, the third loses the page being exposed, counts BEAM_MISSING
and returns the block to SPEED; a late detect and a late index are faults. -/
def Obligations.BeamDetectCommands : Prop :=
  (∀ (k : Fin 6) t px (s : State), s.hasStation k = true → s.on (H.ISOLATED (btPage k)) = false → s.btState k = btStopped →
    exec (.bdEdge k t px) s = .next (s.bdAccept k ⟨t, px⟩)) ∧
  (∀ (k : Fin 6) (t px : Nat) (s : State), s.hasStation k = true → s.on (H.ISOLATED (btPage k)) = false → s.hasPeriod k = true →
    (s.expected k).px - s.bdWin k ≤ px → (px : Int) ≤ (s.expected k).px + s.bdWin k →
    exec (.bdEdge k t px) s = .next (s.bdAccept k ⟨t, px⟩)) ∧
  (∀ (k : Fin 6) (t px : Nat) (s : State), s.hasStation k = true → s.on (H.ISOLATED (btPage k)) = false → s.btState k ≠ btStopped → s.hasPeriod k = true →
    ((px : Int) < (s.expected k).px - s.bdWin k ∨ (s.expected k).px + s.bdWin k < px) →
    exec (.bdEdge k t px) s = .next ((s.sat (F.BT_CNT_A_STRAY k)).event (btPage k) 4)) ∧
  (∀ (k : Fin 6) t px (s : State), s.on (H.ISOLATED (btPage k)) = true → exec (.bdEdge k t px) s = .next s) ∧
  (∀ (k : Fin 6) err (s : State), s.btState k = btSpeed → (s.beam k).accRun < 15 →
    s.lockStep k err = s.modBeam k fun b => { b with accRun := b.accRun + 1 }) ∧
  (∀ (k : Fin 6) err (s : State), s.btState k = btSpeed → 15 ≤ (s.beam k).accRun → s.hasIndex k = true → s.lockStep k err =
    ((s.modBeam k fun b => { b with accRun := b.accRun + 1 }).modBeam k fun b => { b with acc := 0, lockRun := 0, awayRun := 0 }).wr (H.STATE (btPage k)) btIndex) ∧
  (∀ (k : Fin 6) (s : State), s.hasStation k = true → s.btState k ≠ btStopped → s.hasPeriod k = true → s.on (H.ISOLATED (btPage k)) = false →
    s.bdClose k < (256 * s.time : Int) → s.btState k = btLocked → s.rd (F.BT_STAT_MISS_RUN k) < 2 →
    exec (.bdWindowEnd k) s = .next
      (let s1 := (s.sat (F.BT_CNT_A_MISSING k)).wr (F.BT_STAT_MISS_RUN k) (s.rd (F.BT_STAT_MISS_RUN k) + 1)
       let d := meanDev (s.beam k).devs
       ((((s1.modBeam k fun b => { b with
          lastT := ((s.expected k).t + d).toNat, lastPx := (s.expected k).px + s1.toPx k d, scan := (s.beam k).scan + 1, accRun := 0, lockRun := 0, awayRun := 0 }).event
          (btPage k) 2).facetStep k false).scanStep k))) ∧
  (∀ (k : Fin 6) (s : State), s.hasStation k = true → s.btState k ≠ btStopped → s.hasPeriod k = true → s.on (H.ISOLATED (btPage k)) = false →
    s.bdClose k < (256 * s.time : Int) → s.btState k = btLocked → s.rd (F.BT_STAT_MISS_RUN k) = 2 →
    exec (.bdWindowEnd k) s = .next
      (let u := ((((((s.sat (F.BT_CNT_A_MISSING k)).wr (F.BT_STAT_MISS_RUN k) 3).modBeam k fun b => { b with
         lastT := (s.expected k).t.toNat, lastPx := (s.expected k).px, scan := (s.beam k).scan + 1, lineT := none, linePx := 0, strobe := false }).loseExposing k
         lcBeamMissing).btToSpeed k).event (btPage k) 3).raise (41 + 2 * k.val) (btPage k) 4
       match u.feedNow k with
       | some f => (u.modLink k fun q => { q with waiting := none }).scanEnd k f ((s.beam k).scan + 1 - f.s0)
       | none => u)) ∧
  (∀ (k : Fin 6) (s : State), (256 * s.time : Int) ≤ s.bdClose k → exec (.bdWindowEnd k) s = .next s) ∧
  (∀ (k : Fin 6) (s : State), s.hasStation k = true → s.btState k ≠ btStopped → s.hasPeriod k = true → (s.beam k).missed = false →
    2 * (s.beam k).times.headD 0 + 3 * s.rd (F.BT_PERIOD_TICKS k) < 512 * s.time →
    exec (.bdMissing k) s = .next ((s.modBeam k fun b => { b with missed := true }).raise (40 + 2 * k.val) (btPage k) 0)) ∧
  (∀ (k : Fin 6) (s : State), (s.beam k).missed = true ∨ 512 * s.time ≤ 2 * (s.beam k).times.headD 0 + 3 * s.rd (F.BT_PERIOD_TICKS k) →
    exec (.bdMissing k) s = .next s) ∧
  (∀ (k : Fin 6) (s : State), s.hasStation k = true → s.hasIndex k = true → s.btState k = btIndex → s.on (H.ISOLATED (btPage k)) = false →
    (s.beam k).idxCount = none → exec (.indexEdge k) s = .next (((s.modBeam k fun b => { b with idxPend := true, idxCount := some 0, idxScans := 0 }).modBeam
      k fun b => { b with lockRun := 0, awayRun := 0 }).wr (H.STATE (btPage k)) btPull)) ∧
  (∀ (k : Fin 6) c (s : State), s.hasStation k = true → s.hasIndex k = true → s.btState k = btLocked → s.on (H.ISOLATED (btPage k)) = false →
    (s.beam k).idxCount = some c → c ≠ s.facets k → exec (.indexEdge k) s = .next
      ((((s.modBeam k fun b => { b with idxPend := true, idxCount := some 0, idxScans := 0 }).sat (F.BT_CNT_B_FACET_SYNC k)).event (btPage k) 5).raise
        (40 + 2 * k.val) (btPage k) 1)) ∧
  (∀ (k : Fin 6) (s : State), s.btState k = btStopped → exec (.indexEdge k) s = .next s) ∧
  (∀ (k : Fin 6) (s : State), s.hasStation k = true → s.hasIndex k = true → s.btState k ≠ btStopped → 2 * s.facets k ≤ (s.beam k).idxScans →
    exec (.idxMissing k) s = .next (((s.modBeam k fun b => { b with idxScans := 0 }).event (btPage k) 6).raise (40 + 2 * k.val) (btPage k) 2)) ∧
  (∀ (k : Fin 6) (s : State), (s.beam k).idxScans < 2 * s.facets k → exec (.idxMissing k) s = .next s) ∧
  (∀ a (g : Fin 2) v (s : State), writable s a 0x020 (0x200 + 4 * g.val) → s.groupExposes g = false → exec (.frefIncWrite a g v) s = .next (s.setFref g v)) ∧
  (∀ a (g : Fin 2) v (s : State), writable s a 0x020 (0x200 + 4 * g.val) → s.groupExposes g = true →
    exec (.frefIncWrite a g v) s = .next ((s.mark 0x020 57).wr (H.ACCESS_BUSY 0x020) 1)) ∧
  (∀ (k : Fin 6) (s : State), s.exposing k = true → exec (.headUnderrun k) s = .next
    (((((s.modBeam k fun b => { b with strobe := false }).modLink k fun q => { q with waiting := none }).sat (F.HL_CNT_A_UNDERRUN k)).loseExposing k
      lcHeadUnderrun).raiseWith (41 + 2 * k.val) (hlPage k) 0 2 none)) ∧
  (∀ (k : Fin 6) (s : State), s.exposing k = false → exec (.headUnderrun k) s = .next s)

/-- The registration service: stamps in the open window, results at its close, and a correction in steps (trims, then the rest after the feed gate). -/
def Obligations.RegistrationCommands : Prop :=
  (∀ (j : Fin 4) st (s : State), s.on F.REG_STAT_OPEN = true → exec (.markEdge j st) s = .next
    (s.modReg fun q => { q with edges := q.edges.set j (st :: q.edges[j]) })) ∧
  (∀ (j : Fin 4) st (s : State), s.on F.REG_STAT_OPEN = false → exec (.markEdge j st) s = .next s) ∧
  (∀ m r (s : State), s.sta.reg.pages = m :: r → s.on F.REG_STAT_OPEN = false → s.markOpenAt m ≤ 65536 * s.time →
    exec .markWindowOpen s = .next ((s.modReg fun q => { q with edges := Vector.replicate 4 [] }).wr F.REG_STAT_OPEN 1)) ∧
  (∀ m r (s : State), s.sta.reg.pages = m :: r → 65536 * s.time < s.markOpenAt m → exec .markWindowOpen s = .next s) ∧
  (∀ m r (s : State), s.sta.reg.pages = m :: r → s.on F.REG_STAT_OPEN = true → s.markCloseAt m ≤ 65536 * s.time →
    exec .markWindowClose s = .next
      (let valid := s.validSensors m
       let s1 := s.each m.set_.zipIdx fun x t => t.each valid fun j u => u.markResult m valid x.2 x.1 j
       ((((((s1.wr F.REG_STAT_VALID (valid.foldl (fun v j => v + 2 ^ j.val) 0)).inc F.REG_STAT_SETS).wr F.REG_STAT_OPEN 0).event 0x040 0).modReg fun q =>
         { q with pages := r, set_ := m.set_, printed := q.printed || m.after }).each (List.range (4 - valid.length)) fun _ t =>
           ((t.sat F.REG_CNT_MARK_BAD).event 0x040 1).raise 70 0x040 0))) ∧
  (∀ (s : State), s.on F.REG_STAT_OPEN = false → exec .markWindowClose s = .next s) ∧
  (∀ (m : MarkPage) (s : State) (j : Fin 4), j ∈ s.validSensors m ↔ (s.sta.reg.edges[j]).length = 4 * m.set_.length) ∧
  (∀ r (s : State), s.holder 5 = some r → s.sta.reg.phase = 0 → s.rd F.REG_CFG_GAIN ≠ 0 → s.rd F.REG_STAT_SETS ≠ s.sta.reg.used → s.staged 0x041 = false →
    exec .registrationCorrection s = .next
      (let all := s.sta.reg.set_.map fun k => (k, s.corrections k)
       (s.each all fun x t => t.addClamp (F.PT_STN_TRIM_TICKS x.1) true true x.2.1).ptCommit.modReg fun q => { q with
         phase := 1, used := s.rd F.REG_STAT_SETS, seq := s.rd (H.SEQ 0x041), todo := all.map fun x => (x.1, x.2.2) })) ∧
  (∀ r (s : State), s.holder 5 = some r → s.sta.reg.phase = 1 → s.rd (H.SEQ 0x041) ≠ s.sta.reg.seq →
    s.sta.reg.todo.any (fun x => s.staged (btPage x.1) || s.staged (imPage x.1)) = false →
    exec .registrationCorrection s = .next ((s.each s.sta.reg.todo fun x t => t.correctStation x).modReg fun q =>
      { q with phase := 2, todo := [], setAt := s.time, printed := false })) ∧
  (∀ (s : State), s.sta.reg.phase = 0 → s.rd F.REG_CFG_GAIN = 0 → exec .registrationCorrection s = .next s) ∧
  (∀ (s : State), s.sta.reg.phase = 2 → s.sta.reg.printed = false → exec .registrationCorrection s = .next s) ∧
  (∀ (s : State), s.holder 5 = none → exec .registrationCorrection s = .next s)

/-- The resistance test: start in a gap or wait, steps, results with their class and consequences, time-outs and the end of the window.
The four classes of a resistance test against RNOM: short or no rise is class 4 unless the drive is open or far above RNOM, class 3; from four fifths to
six fifths class 1; the rest class 2. -/
def Obligations.ResistanceTestCommands : Prop :=
  (∀ (k : Fin 6) (s : State), s.hasStation k = true → s.on (H.ISOLATED (ilPage k)) = false → s.on (F.IL_TEST_STAT_RUNNING k) = false → s.testDue k = true →
    (s.testWaits k = true ∨ s.gapFits k (s.testWindow k) = false) →
    exec (.resistanceTestStart k) s = .next (s.wr (F.IL_TEST_STAT_PENDING k) 1)) ∧
  (∀ (k : Fin 6) (s : State), s.hasStation k = true → s.on (H.ISOLATED (ilPage k)) = false → s.on (F.IL_TEST_STAT_RUNNING k) = false → s.testDue k = true →
    s.testWaits k = false → s.gapFits k (s.testWindow k) = true → s.rd (H.STATE (ilPage k)) ≠ 3 →
    exec (.resistanceTestStart k) s = .next
      (let t := ((((((s.wr (F.IL_TEST_STAT_RUNNING k) 1).wr (F.IL_TEST_STAT_PENDING k) 0).wr (H.STATE (ilPage k)) 2).wr (F.IL_TEST_STAT_GOOD k) 0).wr
         (F.IL_TEST_STAT_MARGINAL k) 0).wr (F.IL_TEST_STAT_FAILED k) 0).wr (F.IL_TEST_CNT_DEGRADED k) 0
       t.modIlace k fun q => { q with
         lastTest := s.tl.pitchNo, testAt := s.time, testEnd := s.time + s.testWindow k, emitter := 0, answered := true, timeouts := 0 })) ∧
  (∀ (k : Fin 6) (s : State), s.testDue k = false → exec (.resistanceTestStart k) s = .next s) ∧
  (∀ (k : Fin 6) (s : State), s.on (F.IL_TEST_STAT_RUNNING k) = true → (s.ilace k).emitter < s.rd (F.IL_GEOM_NEMIT k) →
    (s.ilace k).answered = true → 8 * (s.ilace k).testAt + 162500 * (s.ilace k).emitter ≤ 8 * s.time →
    exec (.testEmitter k) s = .next
      ((s.headSend k 0x10 (s.ilace k).emitter).modIlace k fun q => { q with emitter := q.emitter + 1, answered := false })) ∧
  (∀ (k : Fin 6) (s : State), 8 * s.time < 8 * (s.ilace k).testAt + 162500 * (s.ilace k).emitter → exec (.testEmitter k) s = .next s) ∧
  (∀ (k : Fin 6) (e : Fin 64) (v1 v2 : Nat) (s : State), s.on (F.IL_TEST_STAT_RUNNING k) = true → (s.ilace k).answered = false → (s.ilace k).emitter = e + 1 →
    v1 < 65536 → v2 < 65536 → 0 ≤ rdynOf v1 v2 → rdynOf v1 v2 < 65536 → testClass false v1 v2 (s.rd (F.IL_RES_RNOM k e)) = 1 →
    drifted (s.rd (F.IL_RES_RDYN k e)) (rdynOf v1 v2) = false → exec (.testResult k e false v1 v2) s = .next
      ((((((s.modIlace k fun q => { q with answered := true, timeouts := 0 }).sat (F.IL_RES_TESTS k e)).wr (F.IL_RES_RDYN k e) (rdynOf v1 v2).toNat).wr
        (F.IL_RES_CLASS k e) 1).wr (F.IL_RES_DEGR k e) 0).inc (F.IL_TEST_STAT_GOOD k))) ∧
  (∀ (k : Fin 6) (e : Fin 64) (v1 v2 : Nat) (s : State), s.on (F.IL_TEST_STAT_RUNNING k) = true → (s.ilace k).answered = false → (s.ilace k).emitter = e + 1 →
    v1 < 65536 → v2 < 65536 → 0 ≤ rdynOf v1 v2 → rdynOf v1 v2 < 65536 → drifted (s.rd (F.IL_RES_RDYN k e)) (rdynOf v1 v2) = false →
    exec (.testResult k e true v1 v2) s = .next
      (((((((s.modIlace k fun q => { q with answered := true, timeouts := 0 }).sat (F.IL_RES_TESTS k e)).wr (F.IL_RES_RDYN k e) (rdynOf v1 v2).toNat).wr
        (F.IL_RES_CLASS k e) 3).wr (F.IL_RES_DEGR k e) 0).inc (F.IL_TEST_STAT_FAILED k)).emitterDead k e false)) ∧
  (∀ (k : Fin 6) (e : Fin 64) o v1 v2 (s : State), ((s.ilace k).answered = true ∨ (s.ilace k).emitter ≠ e + 1) →
    exec (.testResult k e o v1 v2) s = .next s) ∧
  (∀ (k : Fin 6) (s : State), s.on (F.IL_TEST_STAT_RUNNING k) = true → (s.ilace k).answered = false →
    8 * (s.ilace k).testAt + 162500 * (s.ilace k).emitter ≤ 8 * s.time → exec (.testTimeout k) s = .next (s.testLate k)) ∧
  (∀ (k : Fin 6) (s : State), (s.ilace k).answered = true → exec (.testTimeout k) s = .next s) ∧
  (∀ (k : Fin 6) (s : State), s.on (F.IL_TEST_STAT_RUNNING k) = true → (s.ilace k).testEnd ≤ s.time → (s.ilace k).answered = true →
    exec (.testWindowEnd k) s = .next (s.testOver k)) ∧
  (∀ (k : Fin 6) (s : State), s.time < (s.ilace k).testEnd → exec (.testWindowEnd k) s = .next s) ∧
  (∀ a (k : Fin 6) v (s : State), writable s a (ilPage k) 0x058 → bit v 31 = true →
    exec (.ilTestNow a k v) s = .next ((s.fieldsWrite (ilPage k) 0x058 v).wr (F.IL_TEST_STAT_PENDING k) 1)) ∧
  (∀ a (k : Fin 6) v (s : State), writable s a (ilPage k) 0x058 → bit v 31 = false →
    exec (.ilTestNow a k v) s = .next (s.fieldsWrite (ilPage k) 0x058 v)) ∧
  (∀ v1 v2 rnom : Nat, testClass true v1 v2 rnom = 3) ∧
  (∀ v1 v2 rnom : Nat, (3 * rnom : Int) < rdynOf v1 v2 → testClass false v1 v2 rnom = 3) ∧
  (∀ v1 v2 rnom : Nat, v2 ≤ v1 → testClass false v1 v2 rnom = 4) ∧
  (∀ v1 v2 rnom : Nat, v1 < v2 → 10 * rdynOf v1 v2 < 3 * rnom → testClass false v1 v2 rnom = 4) ∧
  (∀ v1 v2 rnom : Nat, v1 < v2 → (3 * rnom : Int) ≤ 10 * rdynOf v1 v2 → rdynOf v1 v2 ≤ 3 * rnom → (8 * rnom : Int) ≤ 10 * rdynOf v1 v2 →
    10 * rdynOf v1 v2 ≤ 12 * rnom → testClass false v1 v2 rnom = 1) ∧
  (∀ v1 v2 rnom : Nat, v1 < v2 → (3 * rnom : Int) ≤ 10 * rdynOf v1 v2 → rdynOf v1 v2 ≤ 3 * rnom →
    (10 * rdynOf v1 v2 < (8 * rnom : Int) ∨ 12 * rnom < 10 * rdynOf v1 v2) → testClass false v1 v2 rnom = 2)

/-- The withheld emitters, the planner and the head temperature. -/
def Obligations.SparingCommands : Prop :=
  (∀ a (k : Fin 6) (v : Nat) (s : State), writable s a (ilPage k) 0x04C → (∀ i < 64, bit (s.ilDead k) i = true →
      bit ((s.wr (F.IL_DEAD_LO_MASK k) v).ilDead k) i = true) →
    exec (.ilDeadWrite a k false v) s = .next (s.wr (F.IL_DEAD_LO_MASK k) v)) ∧
  (∀ a (k : Fin 6) (v : Nat) (s : State), writable s a (ilPage k) 0x050 → (∀ i < 64, bit (s.ilDead k) i = true →
      bit ((s.wr (F.IL_DEAD_HI_MASK k) v).ilDead k) i = true) →
    exec (.ilDeadWrite a k true v) s = .next (s.wr (F.IL_DEAD_HI_MASK k) v)) ∧
  (∀ a (k : Fin 6) (v : Nat) (s : State), writable s a (ilPage k) 0x04C → (s.ilace k).isolated = [] → (∃ i < 64, bit (s.ilDead k) i = true ∧
      bit ((s.wr (F.IL_DEAD_LO_MASK k) v).ilDead k) i = false) →
    exec (.ilDeadWrite a k false v) s = .next ((s.wr (F.IL_DEAD_LO_MASK k) v).isoRewrite k)) ∧
  (∀ (k : Fin 6) a b c d (s : State), s.sta.plans[s.btGroup k] = none → s.on (F.IL_REPLAN_REQ k) = true → (s.holder 5).isSome = true →
    planGroup ⟨a, b, c, d⟩ (s.rd F.PT_SPEED_SPEED) ((s.groupStations (s.btGroup k)).map fun j => (j.val, s.headOf j.val)) = none →
    exec (.replan k false a b c d) s = .next (((s.wr (F.IL_REPLAN_REQ k) 0).event (ilPage k) 7).raise (52 + k.val) (ilPage k) 3)) ∧
  (∀ (k : Fin 6) a b c d v4 sets (s : State), s.sta.plans[s.btGroup k] = none → s.on (F.IL_REPLAN_REQ k) = true → (s.holder 5).isSome = true →
    planGroup ⟨a, b, c, d⟩ (s.rd F.PT_SPEED_SPEED) ((s.groupStations (s.btGroup k)).map fun j => (j.val, s.headOf j.val)) = some (v4, sets) →
    (∀ j ∈ s.groupStations (s.btGroup k), s.staged (ilPage j) = false ∧ s.v4Now j = v4) → (s.rd (F.IL_REPLAN_REASON k) ≠ 2 ∨ s.jobBoundary = true) →
    exec (.replan k false a b c d) s = .next (s.planCommit v4 sets)) ∧
  (∀ (k : Fin 6) a b c d (s : State), s.sta.plans[s.btGroup k] = none → s.on (F.IL_REPLAN_REQ k) = false → exec (.replan k false a b c d) s = .next s) ∧
  (∀ (k : Fin 6) code (s : State), code < 1024 → s.hasStation k = true → s.thermGood k = true → s.on (F.IL_THERM_STAT_CAP k) = false →
    s.reached k code (s.rd (F.IL_THERM_WARN k)) = false → (s.ilace k).cut = false →
    exec (.htempSample k code) s = .next
      (((s.modIlace k fun q => { q with pairWarn := s.rd (F.IL_THERM_WARN k), pairCut := s.rd (F.IL_THERM_CUT k) }).wr (F.IL_THERM_STAT_TEMP k) code).modIlace k
        fun q => { q with release := false })) ∧
  (∀ (k : Fin 6) code (s : State), code < 1024 → s.hasStation k = true → s.thermGood k = true → s.on (F.IL_THERM_STAT_CAP k) = false →
    s.reached k code (s.rd (F.IL_THERM_WARN k)) = true → s.reached k code (s.rd (F.IL_THERM_CUT k)) = false →
    exec (.htempSample k code) s = .next
      ((((((((s.modIlace k fun q => { q with pairWarn := s.rd (F.IL_THERM_WARN k), pairCut := s.rd (F.IL_THERM_CUT k) }).wr (F.IL_THERM_STAT_TEMP k) code).wr
        (F.IL_THERM_STAT_CAP k) 1).modIlace k fun q => { q with capNext := true, cool := false, coolPage := none }).event (ilPage k) 8).raise (52 + k.val)
          (ilPage k) 4).quenchTry k))) ∧
  (∀ (k : Fin 6) (s : State), s.hasStation k = true → s.thermGood k = true → exec (.headCut k) s = .next
    ((s.modIlace k fun q => { q with pairWarn := s.rd (F.IL_THERM_WARN k), pairCut := s.rd (F.IL_THERM_CUT k) }).headCutNow k)) ∧
  (∀ (k : Fin 6) (s : State), (s.ilace k).cut = true → s.headCutNow k = s) ∧
  (∀ (k : Fin 6) (s : State), (s.ilace k).cut = false → s.headCutNow k =
    ((((((s.modIlace k fun q => { q with cut := true, release := false }).quenchOn k).wr (F.IL_THERM_STAT_CUT k) 1).wr (H.STATE (ilPage k)) 3).event
      (ilPage k) 9).loseExposing k lcHeadCut).raise (58 + k.val) (ilPage k) 5)

/-- Training of a head link and its time-outs, the map that takes effect with its ACK, and the retries of commands. -/
def Obligations.TrainingCommands : Prop :=
  (∀ (k : Fin 6) (s : State), s.hasStation k = true → s.on (H.ISOLATED (hlPage k)) = false → s.hlState k = 0 →
    exec (.linkTraining k) s = .next (s.train k)) ∧
  (∀ (k : Fin 6) (s : State), s.hasStation k = true → s.on (H.ISOLATED (hlPage k)) = false → s.hlState k = 1 → (s.link k).turnAt = none →
    (s.link k).laneAt + 20000 ≤ s.time → exec (.linkTraining k) s = .next (s.sendTurn k)) ∧
  (∀ (k : Fin 6) t (s : State), s.hasStation k = true → s.on (H.ISOLATED (hlPage k)) = false → s.hlState k = 1 → (s.link k).turnAt = some t →
    (s.link k).seen = true → (s.link k).map = none → t + 20000 ≤ s.time → exec (.linkTraining k) s = .next (s.remap k)) ∧
  (∀ (k : Fin 6) (s : State), s.hlState k = 2 → exec (.linkTraining k) s = .next s) ∧
  (∀ (k : Fin 6) (s : State), s.train k = ((s.modLink k fun q => { q with tries := 0 }).sat (F.HL_CNT_B_TRAIN k)).trainStart k) ∧
  (∀ a (k : Fin 6) v (s : State), writable s a (hlPage k) 0x040 → bit v 8 = true →
    exec (.retrain a k v) s = .next ((s.fieldsWrite (hlPage k) 0x040 v).train k)) ∧
  (∀ a (k : Fin 6) v (s : State), writable s a (hlPage k) 0x040 → bit v 8 = false →
    exec (.retrain a k v) s = .next (s.fieldsWrite (hlPage k) 0x040 v)) ∧
  (∀ (k : Fin 6) t (s : State), (s.link k).turnAt = some t → s.hlState k = 1 → (s.link k).seen = false → t + 40000 ≤ s.time → 0 < (s.link k).lane →
    exec (.statusLaneTimeout k) s = .next
      ((s.modLink k fun q => { q with lane := goodLane q.lasting (q.lane - 1), laneAt := s.time }).sendTurn k)) ∧
  (∀ (k : Fin 6) (s : State), (s.link k).turnAt = none → exec (.statusLaneTimeout k) s = .next s) ∧
  (∀ (k : Fin 6) (s : State), s.hlState k = 1 → (s.link k).began + 500000 ≤ s.time → (s.link k).tries < 2 →
    exec (.trainingTimeout k) s = .next ((s.modLink k fun q => { q with tries := q.tries + 1 }).trainStart k)) ∧
  (∀ (k : Fin 6) (s : State), s.hlState k = 1 → (s.link k).began + 500000 ≤ s.time → 2 ≤ (s.link k).tries →
    exec (.trainingTimeout k) s = .next ((((s.modLink k fun q => { q with tries := q.tries + 1 }).wr (H.STATE (hlPage k)) 4).modLink k
      fun q => { q with turnAt := none, cmds := [], map := none }).raise (41 + 2 * k.val) (hlPage k) 1)) ∧
  (∀ (k : Fin 6) (s : State), s.time < (s.link k).began + 500000 → exec (.trainingTimeout k) s = .next s) ∧
  (∀ (k : Fin 6) tag c m (s : State), (s.link k).cmds.find? (·.tag == tag % 256) = some c → c.cmd = 0x02 → (s.link k).map = some m → mapWord m.lanes = c.arg →
    exec (.ack k tag) s = .next ((s.modLink k fun q => { q with cmds := q.cmds.filter (·.tag != tag % 256) }).mapApply k m)) ∧
  (∀ (k : Fin 6) tag c (s : State), (s.link k).cmds.find? (·.tag == tag % 256) = some c → c.cmd = 0x20 →
    exec (.ack k tag) s = .next ((s.modLink k fun q => { q with cmds := q.cmds.filter (·.tag != tag % 256) }).event (hlPage k) 6)) ∧
  (∀ (k : Fin 6) tag (s : State), (∀ c ∈ (s.link k).cmds, c.tag ≠ tag % 256) → exec (.ack k tag) s = .next s) ∧
  (∀ (k : Fin 6) c r (s : State), (s.link k).cmds = c :: r → s.on (F.HL_STAT_SLOT_MODE k) = false → c.sent + 5000 ≤ s.time → c.tries < 2 →
    exec (.cmdAckTimeout k) s = .next ((s.modLink k fun q => { q with cmds := { c with tries := c.tries + 1, sent := s.time, slots := 0 } :: r }).emit
      (.headCmd k c.cmd c.tag c.arg))) ∧
  (∀ (k : Fin 6) c r (s : State), (s.link k).cmds = c :: r → s.on (F.HL_STAT_SLOT_MODE k) = true → 2 ≤ c.slots → 2 ≤ c.tries →
    exec (.cmdAckTimeout k) s = .next ((s.raise (40 + 2 * k.val) (hlPage k) 6).train k)) ∧
  (∀ (k : Fin 6) (s : State), (s.link k).cmds = [] → exec (.cmdAckTimeout k) s = .next s)

/-- What the head reports, what the 9640 sends on its own, and the reading of the head's memory. -/
def Obligations.HeadLinkCommands : Prop :=
  (∀ (k : Fin 6) (s : State), exec (.blockLockLost k) s = .next (s.laneFail k (s.rd (F.HL_STAT_SLANE k)))) ∧
  (∀ (k : Fin 6) n (s : State), bit (s.rd (F.HL_STAT_HEALTHY k)) n = false → s.laneFail k n = s) ∧
  (∀ (k : Fin 6) f l sc rx (s : State), s.hasStation k = true → s.hlState k = 1 → (s.link k).turnAt.isSome = true → bit f 2 = true →
    exec (.status k f l sc rx) s = .next
      ((((((((s.modLink k fun q => { q with heard := s.time, seen := true }).satAdd (F.HL_LANE_RXERR k (s.link k).lane) rx).wr (F.HL_HSCAN_EMITTED k) sc).flag
        (F.HL_STAT_HEAD_READY k) (bit f 0)).flag (F.HL_STAT_OWN_CUT k) true).wr (F.HL_STAT_HEALTHY k)
          ((l % 512 ||| 2 ^ (s.link k).lane) &&& (511 - (s.link k).lasting % 512))).headCutNow k))) ∧
  (∀ (k : Fin 6) f l sc rx (s : State), s.hasStation k = true → s.hlState k = 2 → (∀ n < 9, bit (s.rd (F.HL_STAT_HEALTHY k)) n = true → bit l n = true) →
    bit f 2 = false →
    exec (.status k f l sc rx) s = .next
      (((((((s.modLink k fun q => { q with heard := s.time, seen := true }).satAdd (F.HL_LANE_RXERR k (s.rd (F.HL_STAT_SLANE k))) rx).wr
        (F.HL_HSCAN_EMITTED k) sc).flag (F.HL_STAT_HEAD_READY k) (bit f 0)).flag (F.HL_STAT_OWN_CUT k) false).modLink k fun q =>
          { q with unlocked := Vector.replicate 9 0 }).quenchTry k)) ∧
  (∀ (k : Fin 6) f l sc rx (s : State), s.hlState k = 0 ∨ s.hlState k = 4 → exec (.status k f l sc rx) s = .next s) ∧
  (∀ (k : Fin 6) sc (s : State), s.spanOf k (sc % 2 ^ 24) = none → exec (.scanErr k sc 0) s = .next
    ((((s.sat (F.HL_CNT_A_SCAN_ERR k)).modLink k fun q => { q with
      errors := q.errors.filter fun e => (sc % 2 ^ 24 + 2 ^ 24 - e.2) % 2 ^ 24 < (s.sat (F.HL_CNT_A_SCAN_ERR k)).rd (F.HL_SPARE_WIN k) }).event (hlPage k) 3).raise
        (40 + 2 * k.val) (hlPage k) 3)) ∧
  (∀ (k : Fin 6) (s : State), s.hlState k = 2 ∨ s.hlState k = 3 → (s.link k).heard + 1000 * s.rd (F.HL_TIMING_STAT_TO k) ≤ s.time →
    exec (.statusTimeout k) s = .next (s.train k)) ∧
  (∀ (k : Fin 6) (s : State), s.time < (s.link k).heard + 1000 * s.rd (F.HL_TIMING_STAT_TO k) → exec (.statusTimeout k) s = .next s) ∧
  (∀ (k : Fin 6) (s : State), s.on (F.HL_STAT_QUENCH k) = true → (s.link k).quenchAt + 22 ≤ s.time →
    exec (.quenchRepeat k) s = .next ((s.modLink k fun q => { q with quenchAt := s.time }).emit (.headQuench k))) ∧
  (∀ (k : Fin 6) (s : State), s.on (F.HL_STAT_QUENCH k) = false → exec (.quenchRepeat k) s = .next s) ∧
  (∀ (k : Fin 6) (s : State), s.hlState k = 2 → (s.link k).alignAt + 1408 ≤ s.time →
    ∃ n, exec (.alignSend k) s = .next (((s.modLink k fun q => { q with alignAt := s.time }).emit (.headAlign k n)).freeNext)) ∧
  (∀ (k : Fin 6) (s : State), s.time < (s.link k).alignAt + 22 → exec (.alignSend k) s = .next s) ∧
  (∀ (k : Fin 6) (s : State), s.hlState k = 2 → s.on (F.HL_STAT_SLOT_MODE k) = true → (s.link k).slotAt + 10000 ≤ s.time →
    exec (.replySlot k) s = .next ((s.modLink k fun q => { q with
      slotAt := s.time, cmds := q.cmds.map fun c => { c with slots := c.slots + 1 } }).emit (.headSlot k))) ∧
  (∀ (k : Fin 6) (s : State), s.on (F.HL_STAT_SLOT_MODE k) = false → exec (.replySlot k) s = .next s) ∧
  (∀ (k : Fin 6) m (s : State), s.hasStation k = true → headBad (m.map (· % 256)) = false → s.headDiffers k (m.map (· % 256)) = false →
    exec (.headMemoryRead k m) s = .next (s.headAccept k (m.map (· % 256)))) ∧
  (∀ (k : Fin 6) m (s : State), s.hasStation k = true → headBad (m.map (· % 256)) = true →
    exec (.headMemoryRead k m) s = .next ((s.wr (F.HL_STAT_HEAD_OK k) 0).raise (40 + 2 * k.val) (hlPage k) 5)) ∧
  (∀ (k : Fin 6) m (s : State), s.hasStation k = true → headBad (m.map (· % 256)) = false → s.headDiffers k (m.map (· % 256)) = true →
    exec (.headMemoryRead k m) s = .next ((s.wr (F.HL_STAT_HEAD_OK k) 0).raise (41 + 2 * k.val) (hlPage k) 2))

/-- The cycle of an Edkar port, its windows and budgets, and PORT_EN and CLEAR. -/
def Obligations.EdkarPortCommands : Prop :=
  (∀ (p : Fin 2) (s : State), s.portState p = 0 → exec (.edkarCycle p) s = .next s) ∧
  (∀ (p : Fin 2) (s : State), s.time / 100000 * 100000 < s.ed[p].cycleAt → exec (.edkarCycle p) s = .next s) ∧
  (∀ (p : Fin 2) (s : State), s.portState p = 2 → s.ed[p].cycleAt ≤ s.time / 100000 * 100000 → ((s.boundary (edPage p)).edJudge p).portState p ≠ 1 →
    exec (.edkarCycle p) s = .next (
      let b := s.time / 100000 * 100000
      let t0 := ((((s.boundary (edPage p)).edJudge p).wr (F.ED_CYCLE_N p) (b / 100000)).modPort p fun q => { q with cycleAt := b + 1, enumLeft := q.enumLeft - 1 }).ifDo
        (p == 1) (·.edBegin)
      let probe := t0.edProbe p
      let polled := modules.filter fun (m : Fin 16) => t0.modPresent p m || (t0.edMod p m).quarantine || some m == probe
      ((((t0.modPort p fun q => { q with rotate := (probe.map (·.val)).getD q.rotate }).emit
        (.frame p 0 0x01 0 0 (leBytes (b / 100000) 4 ++ leBytes b 8))).each polled fun m u => u.edPoll p m (some m == probe))).hwReact)) ∧
  (∀ (p : Fin 2) (s : State), s.portState p ≠ 0 → s.ed[p].badNow = false → s.ed[p].badRun < 2 → exec (.outOfWindowActivity p) s = .next
    ((s.modPort p fun q => { q with badNow := true, badRun := q.badRun + 1, goodRun := 0 }).sat (F.ED_CNT_A_BAD_CYCLES p))) ∧
  (∀ (s : State), s.portState 0 = 2 → s.ed[0].badNow = false → 2 ≤ s.ed[0].badRun → exec (.outOfWindowActivity 0) s = .next
    ((((((s.modPort 0 fun q => { q with badNow := true, badRun := q.badRun + 1, goodRun := 0 }).sat (F.ED_CNT_A_BAD_CYCLES 0)).wr (H.STATE (edPage 0)) 3).pathReport).raise
      224 (edPage 0) 1))) ∧
  (∀ (p : Fin 2) (s : State), s.portState p = 0 ∨ s.ed[p].badNow = true → exec (.outOfWindowActivity p) s = .next s) ∧
  (∀ (p : Fin 2) (m : Fin 16) (s : State), s.portState p ≠ 0 → m ≠ 0 → (s.edMod p m).window = true → s.modState p m ≠ edThrottled →
    exec (.malformedFrame p m) s = .next
      (((s.modMod p m fun q => { q with frames := q.frames + 1, active := true }).sat (F.ED_CNT_A_MALFORMED p)).sat (F.ED_MOD_MALF p m))) ∧
  (∀ (p : Fin 2) (m : Fin 16) (s : State), s.portState p ≠ 0 → m ≠ 0 → (s.edMod p m).window = false →
    exec (.malformedFrame p m) s = .next (s.edActivity p)) ∧
  (∀ (p : Fin 2) (m : Fin 16) (s : State), s.portState p ≠ 0 → (s.edMod p m).window = true → (s.edMod p m).trans = none → (s.edMod p m).active = true →
    (s.edMod p m).valid = true → exec (.moduleWindowClose p m) s = .next
      ((s.modMod p m fun q => { q with window := false, silentRun := 0, malfRun := 0 }).hwReact)) ∧
  (∀ (p : Fin 2) (m : Fin 16) (s : State), s.portState p ≠ 0 → (s.edMod p m).window = true → (s.edMod p m).trans = none → (s.edMod p m).active = false →
    s.modPresent p m = true → 2 ≤ (s.edMod p m).silentRun → exec (.moduleWindowClose p m) s = .next
      (((((s.modMod p m fun q => { q with window := false, silentRun := q.silentRun + 1, malfRun := 0 }).leaveBus p m).setModState p m 0).pathReport).raise
        (224 + 2 * p.val) (edPage p) 0)) ∧
  (∀ (p : Fin 2) (m : Fin 16) (s : State), (s.edMod p m).window = false → exec (.moduleWindowClose p m) s = .next s) ∧
  (∀ (p : Fin 2) (m : Fin 16) (s : State), s.portState p ≠ 0 → m ≠ 0 → (s.edMod p m).violated = false → s.modState p m = 2 →
    exec (.budgetViolation p m) s = .next (((s.sat (F.ED_MOD_VIOL p m)).modMod p m fun q =>
      { q with violated := true, violTimes := s.time :: q.violTimes.filter fun t => decide (s.time < t + 100000000) }).setModState p m 3)) ∧
  (∀ (p : Fin 2) (m : Fin 16) (s : State), s.portState p ≠ 0 → m ≠ 0 → (s.edMod p m).violated = false → s.modState p m = 3 →
    s.rd (F.ED_LIMIT_QUAR_CNT p) ≤ ((s.edMod p m).violTimes.filter fun t => decide (s.time < t + 100000000)).length + 1 →
    exec (.budgetViolation p m) s = .next (((((s.sat (F.ED_MOD_VIOL p m)).modMod p m fun q =>
      { q with violated := true, violTimes := s.time :: q.violTimes.filter fun t => decide (s.time < t + 100000000) }).edSilence p m 4).pathReport).raise
        (225 + 2 * p.val) (edPage p) 3)) ∧
  (∀ (p : Fin 2) (m : Fin 16) (s : State), (s.edMod p m).violated = true → exec (.budgetViolation p m) s = .next s) ∧
  (∀ (p : Fin 2) (m : Fin 16) (s : State), s.modState p m = 3 → (∀ t ∈ (s.edMod p m).violTimes, t + 100000000 ≤ s.time) →
    exec (.throttleExpiry p m) s = .next (s.setModState p m 2)) ∧
  (∀ (p : Fin 2) (m : Fin 16) (s : State), s.modState p m ≠ 3 → exec (.throttleExpiry p m) s = .next s) ∧
  (∀ (p : Fin 2) (m : Fin 16) (s : State), s.rd (F.ED_AUTH_PERIOD p) ≠ 0 → s.on (F.ED_CFG_AUTH_EN p) = true → s.modPresent p m = true →
    (s.edMod p m).authSup = true → (s.edKey p m).isSome = true → (s.edMod p m).authAt + s.rd (F.ED_AUTH_PERIOD p) * 100000000 ≤ s.time →
    exec (.authPeriodExpiry p m) s = .next (s.modMod p m fun q => { q with challenge := true, authAt := s.time })) ∧
  (∀ (p : Fin 2) (m : Fin 16) (s : State), s.rd (F.ED_AUTH_PERIOD p) = 0 → exec (.authPeriodExpiry p m) s = .next s) ∧
  (∀ a (p : Fin 2) (s : State), writable s a (edPage p) 0x040 → s.portState p ≠ 0 →
    exec (.portStop a p) s = .next ((((s.wr (F.ED_CFG_PORT_EN p) 0).portStop p).pathReport).hwReact)) ∧
  (∀ a (p : Fin 2) (s : State), writable s a (edPage p) 0x040 → s.portState p = 0 →
    exec (.portStop a p) s = .next (((s.wr (F.ED_CFG_PORT_EN p) 0).pathReport).hwReact)) ∧
  (∀ a (p : Fin 2) (s : State), writable s a (edPage p) 0x040 → s.portState p = 0 → exec (.portStart a p) s = .next
    (((s.wr (F.ED_CFG_PORT_EN p) 1).modPort p fun q =>
      { q with rotate := 0, enumLeft := 15, badRun := 0, goodRun := 0, badNow := false, cycleAt := 0 }).wr (H.STATE (edPage p)) 1)) ∧
  (∀ a (p : Fin 2) (s : State), writable s a (edPage p) 0x040 → s.portState p ≠ 0 → exec (.portStart a p) s = .next (s.wr (F.ED_CFG_PORT_EN p) 1)) ∧
  (∀ a (p : Fin 2) (m : Fin 16) (s : State), writable s a (edPage p) (0x084 + 8 * m.val) → m ≠ 0 → s.modState p m = 4 ∨ s.modState p m = 5 →
    exec (.moduleClear a p m) s = .next ((s.modMod p m fun q => { q with quarantine := false, trans := none }).setModState p m 0)) ∧
  (∀ a (p : Fin 2) (m : Fin 16) (s : State), writable s a (edPage p) (0x084 + 8 * m.val) → s.modState p m ≠ 4 → s.modState p m ≠ 5 →
    exec (.moduleClear a p m) s = .next s)

/-- The frames of the modules and the deadlines of announces and feeds. -/
def Obligations.EdkarFrameCommands : Prop :=
  (∀ (p : Fin 2) (m : Fin 16) tid fl ev tag (s : State), frameOk s p m 0x41 tid [fl, ev] tag → exec (.moduleStatus p m tid fl ev tag) s = .next
    ((((s.frameTaken p m).modMod p m fun q => { q with flags := fl % 32 }).pathReport).edReply p m [0x02] tid fun _ u => u)) ∧
  (∀ (p : Fin 2) (m : Fin 16) tid v mo ser ver cls caps (s : State), s.portState p ≠ 0 → m ≠ 0 → (s.edMod p m).window = true → s.modState p m = 0 →
    exec (.identity p m tid v mo ser ver cls caps) s = .next
      (((s.modMod p m fun q => { q with frames := q.frames + 1, active := true }).modMod p m fun q => { q with valid := true }).edReply p m [0x03] tid
        fun _ u => u.edIdentify p m v mo ser caps)) ∧
  (∀ (p : Fin 2) (m : Fin 16) tid v mo ser ver cls caps x (s : State), s.portState p ≠ 0 → m ≠ 0 → (s.edMod p m).window = true → s.modState p m = 2 →
    (s.edMod p m).serial = some x → x ≠ ser → exec (.identity p m tid v mo ser ver cls caps) s = .next
      ((((((s.modMod p m fun q => { q with frames := q.frames + 1, active := true }).modMod p m fun q => { q with valid := true }).edSilence p m 5).pathReport).raise
        (225 + 2 * p.val) (edPage p) 4))) ∧
  (∀ (p : Fin 2) (m : Fin 16) tid r tr (s : State), s.portState p ≠ 0 → m ≠ 0 → (s.edMod p m).window = true → s.modState p m ≠ edThrottled →
    (s.edMod p m).trans = some tr → tr.type = 0x04 → tr.tid = tid → tr.answered = false → s.edKey p m = none → exec (.authResponse p m tid r) s = .next
      (((s.modMod p m fun q => { q with frames := q.frames + 1, active := true }).modMod p m fun q => { q with valid := true }).modMod p m
        fun q => { q with trans := none })) ∧
  (∀ (p : Fin 2) (m : Fin 16) tid tr k (s : State), s.portState p ≠ 0 → m ≠ 0 → (s.edMod p m).window = true → s.modState p m = 1 →
    (s.edMod p m).trans = some tr → tr.type = 0x04 → tr.tid = tid → tr.answered = false → s.edKey p m = some k →
    exec (.authResponse p m tid (Config.cmac k (0x02 :: ((s.edMod p m).chal ++ leBytes ((s.edMod p m).serial.getD 0) 8)))) s = .next
      ((((((s.modMod p m fun q => { q with frames := q.frames + 1, active := true }).modMod p m fun q => { q with valid := true }).modMod p m
        fun q => { q with trans := none }).modMod p m fun q => { q with
          key := Config.cmac k (0x01 :: ((s.edMod p m).chal ++ leBytes ((s.edMod p m).serial.getD 0) 8)), authFails := 0, tagFails := 0 }).setAuthed p m true).setModState
            p m 2)) ∧
  (∀ (p : Fin 2) (m : Fin 16) tid sh d tag (s : State), frameOk s p m 0x44 tid (leBytes sh 4 ++ [d]) tag → 4 ≤ d →
    exec (.sheetReply p m tid sh d tag) s = .next (s.frameTaken p m)) ∧
  (∀ (p : Fin 2) (m : Fin 16) tid sh d tag tr (s : State), frameOk s p m 0x44 tid (leBytes sh 4 ++ [d]) tag → 1 ≤ d → d < 4 →
    (s.edMod p m).trans = some tr → tr.type = 0x05 → tr.tid = tid → tr.answered = false → leNat (tr.payload.take 4) = sh →
    exec (.sheetReply p m tid sh d tag) s = .next (((s.frameTaken p m).modMod p m fun q => { q with trans := none }).announceReply m sh d)) ∧
  (∀ (p : Fin 2) (m : Fin 16) tid sh d tag tr (s : State), frameOk s p m 0x44 tid (leBytes sh 4 ++ [d]) tag → 1 ≤ d → d < 4 →
    (s.edMod p m).trans = some tr → tr.type = 0x07 → tr.tid = tid → tr.answered = false → leNat (tr.payload.take 4) = sh →
    exec (.sheetReply p m tid sh d tag) s = .next (((s.frameTaken p m).modMod p m fun q => { q with trans := none }).feedReply sh d)) ∧
  (∀ (p : Fin 2) (m : Fin 16) tid tag (s : State), frameOk s p m 0x45 tid [] tag → exec (.moduleAck p m tid tag) s = .next
    ((s.frameTaken p m).edReply p m [0x06, 0x08] tid fun tr u => u.modMod p m fun q => { q with quarantine := q.quarantine && tr.type != 0x08 })) ∧
  (∀ (p : Fin 2) (m : Fin 16) es code sh ti tag (s : State), frameOk s p m 0x46 0 ([es, code] ++ leBytes sh 4 ++ leBytes ti 8) tag →
    es ≠ (s.edMod p m).eack % 255 + 1 → exec (.moduleEvent p m es code sh ti tag) s = .next (s.frameTaken p m)) ∧
  (∀ (p : Fin 2) (m : Fin 16) es sh ti tag (s : State), frameOk s p m 0x46 0 ([es, 2] ++ leBytes sh 4 ++ leBytes ti 8) tag →
    es = (s.edMod p m).eack % 255 + 1 → exec (.moduleEvent p m es 2 sh ti tag) s = .next
      (((s.frameTaken p m).modMod p m fun q => { q with eack := es }).emit (.toRole 3 (4 + 2 * p.val) sh))) ∧
  (∀ (p : Fin 2) (m : Fin 16) es sh ti tag (s : State), frameOk s p m 0x46 0 ([es, 1] ++ leBytes sh 4 ++ leBytes ti 8) tag →
    es = (s.edMod p m).eack % 255 + 1 → exec (.moduleEvent p m es 1 sh ti tag) s = .next
      (((s.frameTaken p m).modMod p m fun q => { q with eack := es }).modMod p m fun q => { q with received := sh :: q.received })) ∧
  (∀ sh a (s : State), s.ed[1].announces.find? (fun a => a.sheet == sh && !a.closed) = some a → a.deadline ≤ s.time → a.route = some [] →
    exec (.announceDeadline sh) s = .next (((s.satAdd (F.ED_CNT_B_ANN_TIMEOUT 1) 0).edCancel 1 0x05 sh).closeAnnounce sh .accept)) ∧
  (∀ sh a m r (s : State), s.ed[1].announces.find? (fun a => a.sheet == sh && !a.closed) = some a → a.deadline ≤ s.time → a.route = some (m :: r) →
    a.answers = [] → exec (.announceDeadline sh) s = .next
      (((s.satAdd (F.ED_CNT_B_ANN_TIMEOUT 1) (r.length + 1)).edCancel 1 0x05 sh).closeAnnounce sh .refuse)) ∧
  (∀ sh a (s : State), s.ed[1].announces.find? (fun a => a.sheet == sh && !a.closed) = some a → s.time < a.deadline →
    exec (.announceDeadline sh) s = .next s) ∧
  (∀ sh f (s : State), s.ed[0].feeds.find? (fun f => f.sheet == sh && !f.done) = some f → f.texp ≤ s.time + 200000 →
    exec (.feedDeadline sh) s = .next ((s.edCancel 0 0x07 sh).feedReply sh 2)) ∧
  (∀ sh (s : State), s.ed[0].feeds.find? (fun f => f.sheet == sh && !f.done) = none → exec (.feedDeadline sh) s = .next s)

/-- Stepper channels: the 10 µs sample, ESTOP, HOME and the coarse inputs.
Encoders: counts with the monotonic count and the backlog, both inputs at once, the index, the speed period and RESYNC. -/
def Obligations.MotionCommands : Prop :=
  (∀ (n : Fin 16) (s : State), sampleOf s.time < (s.stp n).sampled → exec (.stepperSample n) s = .next s) ∧
  (∀ (n : Fin 16) (s : State), (s.stp n).sampled ≤ sampleOf s.time → s.on (F.STP_CFG_SRC n) = true → exec (.stepperSample n) s = .next
    ((((s.modStp n fun q => { q with sampled := sampleOf s.time + 1 }).coarseSample n).currents n).stpRegs n)) ∧
  (∀ (n : Fin 16) (s : State), (s.stp n).sampled ≤ sampleOf s.time → s.on (F.STP_CFG_SRC n) = false → exec (.stepperSample n) s = .next
    ((((s.modStp n fun q => { q with sampled := sampleOf s.time + 1 }).moveSample n).currents n).stpRegs n)) ∧
  (∀ (n : Fin 16) (s : State), s.due (stpPage n) = false → s.homing n = false → s.inputActive (s.rd (F.STP_SW_LIMP_SRC n)) = false →
    s.inputActive (s.rd (F.STP_SW_LIMN_SRC n)) = false → (s.stp n).estop = false → (s.stp n).brake = false →
    s.moveSample n =
      (let v := nextSpeed (s.stp n).vel ((s.wr (F.STP_STAT_LIM_BLOCK n) 0).targetSpeed n) (s.rd (F.STP_ACC_A n)) (s.rd (F.STP_DEC_D n))
       (((s.wr (F.STP_STAT_LIM_BLOCK n) 0).modStp n fun q => { q with
         pos := q.pos + v * 1000, vel := v, restAt := if v = 0 ∧ q.vel ≠ 0 then s.time else q.restAt, movedAt := s.time }).stpArrive n))) ∧
  (∀ a (n : Fin 16) (s : State), writable s a (stpPage n) 0x070 → exec (.estop a n) s = .next (s.stpStop n)) ∧
  (∀ a (n : Fin 16) (s : State), writable s a (stpPage n) 0x070 → s.on (F.STP_CFG_SRC n) = false → s.homing n = false →
    s.inputActive (s.rd (F.STP_SW_HOME_SRC n)) = true → exec (.home a n) s = .next (((s.homeTo n hClear).wr (F.STP_STAT_AT_TGT n) 0).stpState n)) ∧
  (∀ a (n : Fin 16) (s : State), writable s a (stpPage n) 0x070 → s.on (F.STP_CFG_SRC n) = false → s.homing n = false →
    s.inputActive (s.rd (F.STP_SW_HOME_SRC n)) = false → exec (.home a n) s = .next (((s.homeTo n hSearch).wr (F.STP_STAT_AT_TGT n) 0).stpState n)) ∧
  (∀ a (n : Fin 16) (s : State), writable s a (stpPage n) 0x070 → s.on (F.STP_CFG_SRC n) = true ∨ s.homing n = true → exec (.home a n) s = .next s) ∧
  (∀ (n : Fin 16) d (s : State), s.on (F.STP_CFG_SRC n) = false → exec (.coarseStep n d) s = .next s) ∧
  (∀ (n : Fin 16) (s : State), s.on (F.STP_CFG_SRC n) = true → (s.stp n).estop = true →
    (s.rd (F.STP_INTERP_IMIN n) : Int) ≤ s.time - ((s.stp n).follow s.time).stepAt → exec (.coarseStep n false) s = .next
      ((s.wrS (F.STP_CSTEP_COUNT n) (s.rdS (F.STP_CSTEP_COUNT n) + 1)).modStp n fun _ => { (s.stp n).follow s.time with
        goalP := (s.rdS (F.STP_CSTEP_COUNT n) + 1) * (2 ^ s.rd (F.STP_CFG_CRATIO n) : Nat), stepAt := s.time, vel := ((s.stp n).follow s.time).vel })) ∧
  (∀ (e : Fin 8) a b (s : State), s.on (H.ISOLATED (encPage e)) = true → exec (.encoderCount e a b) s = .next s) ∧
  (∀ (e : Fin 8) a (s : State), s.on (H.ISOLATED (encPage e)) = false → exec (.encoderCount e a true) s = .next
    ((s.sat (F.ENC_CNT_ERR e)).raise 164 (encPage e) 0)) ∧
  (∀ (e : Fin 8) (s : State), s.on (H.ISOLATED (encPage e)) = false → s.on (F.ENC_CFG_NEG e) = false → s.mo.encoders[e].hi = s.rd (F.ENC_RAW_COUNT e) →
    exec (.encoderCount e true false) s = .next
      (let raw := (s.rd (F.ENC_RAW_COUNT e) + 1) % 2 ^ 32
       let mono := (s.rd (F.ENC_MONO_HI e) * 2 ^ 32 + s.rd (F.ENC_MONO_LO e) + 1) % 2 ^ 64
       ((((((s.wr (F.ENC_RAW_COUNT e) raw).modEnc e fun q => { q with r1 := raw, t1 := s.time, counted := true }).wr (F.ENC_MONO_LO e) mono).wr
         (F.ENC_MONO_HI e) (mono / 2 ^ 32)).wr (F.ENC_BACK_REV e) 0).modEnc e fun q =>
           { q with hi := raw, track := (s.time, mono) :: recentCounts s.time q.track }).wr (F.ENC_BACK_BACKLOG e) 0)) ∧
  (∀ (e : Fin 8) (s : State), s.on (F.ENC_CFG_IDX_EN e) = false → exec (.encoderIndex e) s = .next s) ∧
  (∀ (e : Fin 8) (s : State), s.on (F.ENC_CFG_IDX_EN e) = true → s.on (H.ISOLATED (encPage e)) = false →
    (s.rd (F.ENC_CPR_CPR e) = 0 ∨ s.mo.encoders[e].indexed = false) → exec (.encoderIndex e) s = .next
      (((s.wr (F.ENC_IDX_RAW e) (s.rd (F.ENC_RAW_COUNT e))).modEnc e fun q => { q with indexed := true }).event (encPage e) 1)) ∧
  (∀ (e : Fin 8) (s : State), s.on (F.ENC_CFG_IDX_EN e) = true → s.on (H.ISOLATED (encPage e)) = false → s.rd (F.ENC_CPR_CPR e) ≠ 0 →
    s.mo.encoders[e].indexed = true → (diff32 (s.rd (F.ENC_RAW_COUNT e)) (s.rd (F.ENC_IDX_RAW e))).natAbs ≠ s.rd (F.ENC_CPR_CPR e) →
    exec (.encoderIndex e) s = .next
      (((((s.wr (F.ENC_IDX_RAW e) (s.rd (F.ENC_RAW_COUNT e))).modEnc e fun q => { q with indexed := true }).event (encPage e) 1).sat
        (F.ENC_CNT2_IDX_ERR e)).raise 164 (encPage e) 1)) ∧
  (∀ (e : Fin 8) (s : State), s.mo.encoders[e].evalAt + s.rd (F.ENC_SPD_PER e) ≤ s.time → s.on (H.ISOLATED (encPage e)) = false →
    s.mo.encoders[e].counted = true → s.mo.encoders[e].t1 ≠ s.mo.encoders[e].t0 → exec (.encoderSpeed e) s = .next
      ((s.wrS (F.ENC_SPEED_CPS e) (tdiv (diff32 s.mo.encoders[e].r1 s.mo.encoders[e].r0 * 100000000) ((s.mo.encoders[e].t1 : Int) - s.mo.encoders[e].t0))).modEnc e
        fun q => { q with r0 := q.r1, t0 := q.t1, counted := false, evalAt := s.time })) ∧
  (∀ (e : Fin 8) (s : State), s.time < s.mo.encoders[e].evalAt + s.rd (F.ENC_SPD_PER e) → exec (.encoderSpeed e) s = .next s) ∧
  (∀ a (e : Fin 8) (s : State), writable s a (encPage e) 0x064 → exec (.resync a e) s = .next
    (((s.wr (F.ENC_BACK_BACKLOG e) 0).wr (F.ENC_BACK_REV e) 0).modEnc e fun q => { q with hi := s.rd (F.ENC_RAW_COUNT e) }))

/-- Commands of a commutation channel: START, STOP, COAST, the Ke probe, admission from the queue, the ends of LISTEN and ALIGN. -/
def Obligations.MotorStartCommands : Prop :=
  (∀ a (n : Fin 12) (s : State), writable s a (cmPage n) 0x074 → s.on (H.ISOLATED (cmPage n)) = false → s.cmState n = 0 →
    exec (.start a n) s = .next (s.cmQueue n)) ∧
  (∀ a (n : Fin 12) (s : State), writable s a (cmPage n) 0x074 → s.on (H.ISOLATED (cmPage n)) = false → s.cmState n = 7 →
    exec (.start a n) s = .next (s.enterRun n (s.motor n).ramp)) ∧
  (∀ a (n : Fin 12) (s : State), writable s a (cmPage n) 0x074 → s.on (H.ISOLATED (cmPage n)) = false → s.cmState n = 8 →
    s.on (F.MB_STAT_TRIPPED (s.cmGroup n)) = true → exec (.start a n) s = .next ((s.mark (cmPage n) 57).wr (H.ACCESS_BUSY (cmPage n)) 1)) ∧
  (∀ a (n : Fin 12) (s : State), writable s a (cmPage n) 0x074 → s.cmState n = 6 → exec (.start a n) s = .next s) ∧
  (∀ a (n : Fin 12) (s : State), writable s a (cmPage n) 0x074 → s.cmState n = 1 → exec (.stop a n) s = .next (s.cmToOff n)) ∧
  (∀ a (n : Fin 12) (s : State), writable s a (cmPage n) 0x074 → s.cmState n = 6 → exec (.stop a n) s = .next (((s.cmLeave n).cmTo n 7).hwReact)) ∧
  (∀ a (n : Fin 12) (s : State), writable s a (cmPage n) 0x074 → s.cmState n ≠ 1 → s.cmState n ≠ 6 → exec (.stop a n) s = .next s) ∧
  (∀ a (n : Fin 12) (s : State), writable s a (cmPage n) 0x074 → s.cmState n ≠ 0 → exec (.coast a n) s = .next (s.cmToOff n).hwReact) ∧
  (∀ a (n : Fin 12) (s : State), writable s a (cmPage n) 0x074 → s.cmState n = 0 → exec (.coast a n) s = .next s) ∧
  (∀ a (n : Fin 12) (s : State), writable s a (cmPage n) 0x074 → s.cmState n = 6 → s.on (F.CM_STAT_IN_BAND n) = true → (s.motor n).probe = none →
    s.cmExposing n = false → exec (.keProbe (some a) n) s = .next ((s.gatesOff n).modMotor n fun m => { m with probe := some 0, keDue := false, peak := 0 })) ∧
  (∀ a (n : Fin 12) (s : State), writable s a (cmPage n) 0x074 → s.cmState n = 6 → s.on (F.CM_STAT_IN_BAND n) = true → (s.motor n).probe = none →
    s.cmExposing n = true → exec (.keProbe (some a) n) s = .next (s.modMotor n fun m => { m with keDue := true })) ∧
  (∀ (n : Fin 12) (s : State), s.rd (F.CM_KE_KE_PER n) = 0 → exec (.keProbe none n) s = .next s) ∧
  (∀ (g : Fin 2) (s : State), s.ct.groups[g].queue = [] → exec (.startAdmit g) s = .next s) ∧
  (∀ (g : Fin 2) (n : Fin 12) r (s : State), s.ct.groups[g].queue = (n.val, s.time) :: r → s.on (F.MB_STAT_UV g) = false → s.on (F.MB_STAT_TRIPPED g) = false →
    s.on (H.ISOLATED mbPage) = false → s.startWeight g n + s.rd (F.CM_START_WEIGHT n) ≤ s.rd (F.MB_BUDGET_BUDGET g) → exec (.startAdmit g) s = .next
      ((((((s.modGroup g fun q => { q with queue := r }).sat (F.CM_CNT_STARTS n)).wr (F.MB_BUDGET_WAIT_MAX g) (max 0 (s.rd (F.MB_BUDGET_WAIT_MAX g))))).modMotor n
        fun m => { m with winEnd := s.time + s.rd (F.CM_START_WIN n) * 100000, agree := 0, times := [], peak := 0, drive := .off, duty := 0 }).cmTo n 2)) ∧
  (∀ (g : Fin 2) (n : Fin 12) t r (s : State), s.ct.groups[g].queue = (n.val, t) :: r → s.rd (F.CM_START_WEIGHT n) ≤ s.rd (F.MB_BUDGET_BUDGET g) →
    s.rd (F.MB_BUDGET_BUDGET g) < s.startWeight g n + s.rd (F.CM_START_WEIGHT n) → exec (.startAdmit g) s = .next s) ∧
  (∀ (n : Fin 12) (s : State), s.cmState n = 2 → (s.motor n).agree < 3 → (s.motor n).since + s.rd (F.CM_START_LISTEN_T n) * 100000 ≤ s.time →
    exec (.listenDone n) s = .next (s.fromRest n)) ∧
  (∀ (n : Fin 12) (s : State), s.cmState n = 2 → 3 ≤ (s.motor n).agree →
    (s.rdS (F.CM_SPEED_SPEED n)).natAbs < s.rd (F.CM_REV_RATED n) * 100 → 0 < s.rdS (F.CM_SPEED_SPEED n) * s.forward n → exec (.listenDone n) s = .next
      ((((s.enterRun n (s.rdS (F.CM_SPEED_SPEED n))).event (cmPage n) 4).inc (F.CM_CNT2_CATCH n)).hwReact)) ∧
  (∀ (n : Fin 12) (s : State), s.cmState n ≠ 2 → exec (.listenDone n) s = .next s) ∧
  (∀ (n : Fin 12) (s : State), s.cmState n = 4 → (s.motor n).since + s.rd (F.CM_OPEN_ALIGN_T n) * 100000 ≤ s.time →
    exec (.alignDone n) s = .next ((s.modMotor n fun m => { m with forced := 0, phase := 0, valid := 0, crossed := false }).cmTo n 5)) ∧
  (∀ (n : Fin 12) (s : State), s.cmState n ≠ 4 → exec (.alignDone n) s = .next s)

/-- Sense edges, the 1 ms sample, sector time-outs and stalls.
The sample of a motor-bus group, the test pulse of its chopper and RESET_TRIP. -/
def Obligations.CommutationCommands : Prop :=
  (∀ (n : Fin 12) (c : Fin 8) (s : State), (s.motor n).due = none → s.rd (F.CM_CFG_SENSE n) = 0 → exec (.commutationEdge n c) s = .next
    ((((s.modMotor n fun m => { m with code := c.val }).hallEdge n c.val (s.rd (F.CM_CFG_HALL_OFFS n))).keEnd n).hwReact)) ∧
  (∀ (n : Fin 12) (c : Fin 8) (s : State), (s.motor n).due = none → s.rd (F.CM_CFG_SENSE n) ≠ 0 → s.cmState n = 6 → (s.motor n).probe = none →
    exec (.commutationEdge n c) s = .next (((s.modMotor n fun m => { m with code := c.val }).bemfEdge n (s.motor n).code c.val).hwReact)) ∧
  (∀ (n : Fin 12) (s : State), (s.motor n).due = none → s.rd (F.CM_CFG_SENSE n) = 0 → exec (.sectorTimeout n) s = .next s) ∧
  (∀ (n : Fin 12) (s : State), (s.motor n).due = none → s.rd (F.CM_CFG_SENSE n) ≠ 0 → s.cmState n = 6 → (s.motor n).probe = none →
    (s.motor n).crossed = false → (s.motor n).prevSector ≠ 0 → 2 * (s.motor n).lastEdge + 3 * (s.motor n).prevSector ≤ 2 * s.time → (s.motor n).missed ≠ 5 →
    exec (.sectorTimeout n) s = .next
      (((((s.modMotor n fun m => { m with missed := m.missed + 1 }).sat (F.CM_CNT_SENSOR_ERR n)).commutate n
        (nextSector (s.rd (F.CM_STAT_SECTOR n)) (s.motor n).dir) (s.motor n).dir s.time)).hwReact)) ∧
  (∀ (n : Fin 12) (s : State), s.time / 100000 < (s.motor n).sampled → exec (.motorSample n) s = .next s) ∧
  (∀ (n : Fin 12) (s : State), (s.motor n).sampled ≤ s.time / 100000 → s.due (cmPage n) = false → (s.motor n).due = none → s.cmState n = 0 →
    s.on (F.CM_STAT_IN_BAND n) = false → exec (.motorSample n) s = .next
      ((((s.modMotor n fun m => { m with sampled := s.time / 100000 + 1 }).speedDecay n).wrS (F.CM_REF_SPEED n) 0).hwReact)) ∧
  (∀ (n : Fin 12) (s : State), (s.motor n).sampled ≤ s.time / 100000 → s.due (cmPage n) = false → (s.motor n).due = none → s.cmState n = 6 →
    (s.motor n).probe = none → (s.motor n).keDue = false → s.revThresh n ≤ (s.rdS (F.CM_TARGET_SPEED n)).natAbs → exec (.motorSample n) s = .next
      (let t := ((s.modMotor n fun m => { m with sampled := s.time / 100000 + 1 }).speedDecay n).modMotor n fun m =>
         { m with ramp := rampStep m.ramp (s.rdS (F.CM_TARGET_SPEED n)) (s.rd (F.CM_RAMP_ACC n)) (s.decNow n) }
       let u := (t.wrS (F.CM_REF_SPEED n) (refOf (t.motor n).ramp (t.trimOf n))).bandSample n
       (u.ifDo ((u.motor n).keDue && u.cmState n == 6 && !u.cmExposing n) (·.keStart n)).hwReact)) ∧
  (∀ (n : Fin 12) (s : State), (s.motor n).due = none → s.cmState n = 6 → (s.motor n).duty ≠ 0 →
    max (s.motor n).lastEdge (s.motor n).since + s.rd (F.CM_STALL_T n) * 100000 ≤ s.time →
    exec (.stall n) s = .next (((s.cmToOff n).latch (168 + n) (cmPage n) 0 0 none).hwReact)) ∧
  (∀ (n : Fin 12) (s : State), (s.motor n).due = none → s.cmState n ≠ 6 → exec (.stall n) s = .next s) ∧
  (∀ (n : Fin 12) code offs row (s : State), hallRow code = some row → (s.motor n).seen = false → s.hallEdge n code offs =
    (s.modMotor n fun m => { m with seen := true }).wr (F.CM_STAT_SECTOR n) ((row + offs) % 6)) ∧
  (∀ (n : Fin 12) code offs (s : State), hallRow code = none → s.hallEdge n code offs = (s.sat (F.CM_CNT_SENSOR_ERR n)).latch (168 + n) (cmPage n) 1 0 none) ∧
  (∀ (g : Fin 2) (s : State), sampleOf s.time < s.ct.groups[g].sampled → exec (.busSample g) s = .next s) ∧
  (∀ (g : Fin 2) (s : State), s.ct.groups[g].sampled ≤ sampleOf s.time → exec (.busSample g) s = .next
    (let v := s.rd (F.ADC_RES_CODE (44 + g)) * s.rd (F.MB_SCALE_VSCALE g) / 4095
     let cur := s.rd (F.ADC_RES_CODE (46 + g)) * s.rd (F.MB_SCALE_ISCALE g) / 4095
     let t := ((((s.modGroup g fun q => { q with sampled := sampleOf s.time + 1 }).wr (F.MB_STAT_VBUS g) v).chopPair g).chopGate g v).chopCheck g v cur
     let uv := decide (v < t.rd (F.MB_TRIP_UV g))
     let u := (t.flag (F.MB_STAT_UV g) uv).ifDo (uv && !t.on (F.MB_STAT_UV g)) (·.latch (180 + g) mbPage (8 * g.val + 2) 0 none)
     (u.ifDo (decide (u.rd (F.MB_TRIP_OV_TRIP g) ≤ v) && !u.on (F.MB_STAT_TRIPPED g)) (·.busTrip g)).hwReact)) ∧
  (∀ a (g : Fin 2) (s : State), writable s a mbPage (0x05C + 0x20 * g.val) → s.ct.groups[g].pairOff ≤ s.rd (F.MB_STAT_VBUS g) → s.ct.groups[g].gateAt = none →
    exec (.test a g) s = .next ((s.modGroup g fun q =>
      { q with gateAt := some s.time, volts := [], lowRun := 0, failed := false, testEnd := s.time + 5000 }).wr (F.MB_STAT_GATE g) 1)) ∧
  (∀ a (g : Fin 2) (s : State), writable s a mbPage (0x05C + 0x20 * g.val) → s.rd (F.MB_STAT_VBUS g) < s.ct.groups[g].pairOff →
    exec (.test a g) s = .next s) ∧
  (∀ a (g : Fin 2) (s : State), writable s a mbPage (0x05C + 0x20 * g.val) → s.ct.groups[g].pairOff < s.rd (F.MB_STAT_VBUS g) →
    exec (.resetTrip a g) s = .next ((s.mark mbPage 57).wr (H.ACCESS_BUSY mbPage) 1)) ∧
  (∀ a (g : Fin 2) (s : State), writable s a mbPage (0x05C + 0x20 * g.val) → s.rd (F.MB_STAT_VBUS g) ≤ s.ct.groups[g].pairOff →
    s.on (F.MB_STAT_TRIPPED g) = true → exec (.resetTrip a g) s = .next
      (((s.wr (F.MB_STAT_TRIPPED g) 0).event mbPage (8 * g.val)).each
        ((s.groupOf g).filter fun (n : Fin 12) => s.cmState n == 8 && (s.motor n).restart) fun (n : Fin 12) u => u.cmQueue n)) ∧
  (∀ a (g : Fin 2) (s : State), writable s a mbPage (0x05C + 0x20 * g.val) → s.rd (F.MB_STAT_VBUS g) ≤ s.ct.groups[g].pairOff →
    s.on (F.MB_STAT_TRIPPED g) = false → exec (.resetTrip a g) s = .next s)

/-- A loop slot's sample: not due, it leaves the state; overloaded, it is counted; with its record it computes; without it the slot is held. The held output of a
FIXLAT slot, writes of SL_MODE, and the move of a slot to another engine.
The converters' frames and results, and the start of a generator's period. -/
def Obligations.LoopCommands : Prop :=
  (∀ (e : Fin 4) (i : Fin 32) d (s : State), s.slotDue e i = false ∨ s.time < (s.slot e i).sampled → exec (.slotSample e i d) s = .next s) ∧
  (∀ (e : Fin 4) (i : Fin 32) d (s : State), s.slotDue e i = true → (s.slot e i).sampled ≤ s.time → s.on (H.ISOLATED (lePage e)) = false → s.isSafe = false →
    s.slState e i ≠ 0 → s.time < (s.slot e i).busyTo → exec (.slotSample e i d) s = .next
      (((((s.modLoop e i fun q => { q with sampled := s.time + 1 }).wr (F.LE_STAT_DUE_MAX e)
        (max (s.rd (F.LE_STAT_DUE_MAX e)) (min 31 (s.dueBelow e 32)))).sat (F.LE_CNT_OVERLOAD e)).latch (192 + e) (lePage e) 1 0 (some (.loop, e.val))).hwReact)) ∧
  (∀ (e : Fin 4) (i : Fin 32) d (s : State), s.slotDue e i = true → (s.slot e i).sampled ≤ s.time → s.on (H.ISOLATED (lePage e)) = false → s.isSafe = false →
    s.slState e i = 0 → s.rd (F.SL_MODE_MODE e i) = 0 → s.rd (F.SL_IN_KIND e i) ≠ 1 → exec (.slotSample e i d) s = .next
      (((s.modLoop e i fun q => { q with sampled := s.time + 1 }).wr (F.LE_STAT_DUE_MAX e)
        (max (s.rd (F.LE_STAT_DUE_MAX e)) (min 31 (s.dueBelow e 32)))).hwReact)) ∧
  (∀ (e : Fin 4) (i : Fin 32) d l t (s : State), s.slotDue e i = true → (s.slot e i).sampled ≤ s.time → (s.slot e i).busyTo ≤ s.time →
    s.on (H.ISOLATED (lePage e)) = false → s.isSafe = false → s.slState e i = 2 → s.rd (F.SL_MODE_MODE e i) = 2 → s.forcedBy e i = none →
    s.rd (F.SL_IN_KIND e i) ≠ 1 → d ≤ 20 →
    ((((s.modLoop e i fun q => { q with sampled := s.time + 1 }).wr (F.LE_STAT_DUE_MAX e) (max (s.rd (F.LE_STAT_DUE_MAX e)) (min 31 (s.dueBelow e 32)))).modLoop e i
      fun q => { q with busyTo := s.time + d }).wr (F.LE_STAT_DELAY_MAX e) (max d (s.rd (F.LE_STAT_DELAY_MAX e)))).memBytes (slotRecord e i) 0x144 (.loopEngine e) =
        (some l, t) → bit (t.slot e i).causes 2 = false →
    exec (.slotSample e i d) s = .next ((t.slotCompute e i l d).hwReact)) ∧
  (∀ (e : Fin 4) (i : Fin 32) v t r (s : State), (s.slot e i).heldOut = (v, t) :: r → t ≤ s.time → exec (.fixedLatencyApply e i) s = .next
    ((s.modLoop e i fun q => { q with heldOut := r }).slotApply e i v)) ∧
  (∀ (e : Fin 4) (i : Fin 32) v t r (s : State), (s.slot e i).heldOut = (v, t) :: r → s.time < t → exec (.fixedLatencyApply e i) s = .next s) ∧
  (∀ (e : Fin 4) (i : Fin 32) (s : State), (s.slot e i).heldOut = [] → exec (.fixedLatencyApply e i) s = .next s) ∧
  (∀ a (e : Fin 4) (i : Fin 32) (v : Nat) (s : State), writable s a (lePage e) (0x114 + 0x60 * i.val) → s.slState e i = 0 → v % 4 < 3 →
    exec (.slModeWrite a e i v) s = .next ((((s.wr (F.SL_MODE_MODE e i) (v % 4)).wr (F.SL_MODE_N1_EN e i) (bits v 3 1)).wr (F.SL_MODE_N2_EN e i) (bits v 4 1)).wr
      (F.SL_MODE_FIXLAT e i) (bits v 2 1))) ∧
  (∀ a (e : Fin 4) (i : Fin 32) (v : Nat) (s : State), writable s a (lePage e) (0x114 + 0x60 * i.val) → s.slState e i = 2 → v % 4 = 1 →
    bits v 2 1 = s.rd (F.SL_MODE_FIXLAT e i) → exec (.slModeWrite a e i v) s = .next
      ((((s.wr (F.SL_MODE_MODE e i) 1).wr (F.SL_MAN e i) (s.rd (F.SL_OUTV e i))).wr (F.SL_MODE_N1_EN e i) (bits v 3 1)).wr (F.SL_MODE_N2_EN e i) (bits v 4 1))) ∧
  (∀ a (e e2 : Fin 4) (i i2 : Fin 32) (s : State), writable s a (lePage e2) (0x108 + 0x60 * i2.val) →
    (s.on (H.ISOLATED (lePage e)) = false ∨ s.on (H.ISOLATED (lePage e2)) = true ∨ s.slState e2 i2 ≠ 0 ∨
      s.tickFull e2 (max 100 (s.rd (F.SL_PER_PERIOD e i))) (s.rd (F.SL_PHASE_PHASE e i)) = true) → exec (.slotMove a e i e2 i2) s = .next s) ∧
  (∀ (e e2 : Fin 4) (i i2 : Fin 32) (b : Fin 12) l t (s : State), writable s (.berth b) (lePage e2) (0x108 + 0x60 * i2.val) → s.on (H.ISOLATED (lePage e)) = true →
    s.on (H.ISOLATED (lePage e2)) = false → s.slState e2 i2 = 0 → s.tickFull e2 (max 100 (s.rd (F.SL_PER_PERIOD e i))) (s.rd (F.SL_PHASE_PHASE e i)) = false →
    s.rd (F.SL_OUT_DST e i) = 0 → (s.copyFields (slotFields e i) (slotFields e2 i2)).memBytes (slotRecord e i) 0x200 (.berth b false) = (some l, t) →
    exec (.slotMove (.berth b) e i e2 i2) s = .next
      (((((t.bankPuts (slotRecord e2 i2) l).copyFields (slotOutFields e i) (slotOutFields e2 i2)).failDriven e2 i2).renameSources e i e2 i2).modeWrite e2 i2 1).hwReact) ∧
  (∀ (c : Fin 4) (s : State), bit (s.rd F.ADC_CFG_EN) c = true → s.on (H.ISOLATED adcPage) = false → s.ct.adc[c].isolated = false →
    s.ct.adc[c].frameAt < s.time / 1000 * 1000 → exec (.adcFrame c) s = .next (s.modAdc c fun q =>
      { q with frameAt := s.time / 1000 * 1000, table := s.adcTable c, open_ := (List.range 20).filter (converts (s.adcTable c) (s.time / 1000)) })) ∧
  (∀ (c : Fin 4) (s : State), bit (s.rd F.ADC_CFG_EN) c = false → exec (.adcFrame c) s = .next s) ∧
  (∀ (c : Fin 4) (k : Fin 20) ch div code (s : State), k.val ∈ s.ct.adc[c].open_ → s.ct.adc[c].frameAt + 50 * (k.val + 1) ≤ s.time → k ≠ 19 → code < 4096 →
    s.ct.adc[c].table[k.val]? = some (ch, div, false) → exec (.adcResult c k code) s = .next
      (((((s.modAdc c fun q => { q with open_ := q.open_.filter (· != k.val) }).wr (F.ADC_RES_CODE ch) code).inc (F.ADC_RES_SEQ ch)).kePeak ch code).hwReact)) ∧
  (∀ (c : Fin 4) (k : Fin 20) ch div code (s : State), k.val ∈ s.ct.adc[c].open_ → s.ct.adc[c].frameAt + 50 * (k.val + 1) ≤ s.time → k ≠ 19 → code < 4096 →
    s.ct.adc[c].table[k.val]? = some (ch, div, true) → exec (.adcResult c k code) s = .next
      ((((((s.modAdc c fun q => { q with open_ := q.open_.filter (· != k.val) }).wr (F.ADC_RES_CODE ch) code).inc (F.ADC_RES_SEQ ch)).kePeak ch code).adcPush c
        (code + ch * 2 ^ 12 + (s.ct.adc[c].frameAt + 50 * k.val) % 2 ^ 32 * 2 ^ 32)).hwReact)) ∧
  (∀ (c : Fin 4) code (s : State), 19 ∈ s.ct.adc[c].open_ → s.ct.adc[c].frameAt + 1000 ≤ s.time → code < 4096 → exec (.adcResult c 19 code) s = .next
    (((s.modAdc c fun q => { q with open_ := q.open_.filter (· != 19) }).adcRef c code).hwReact)) ∧
  (∀ (c : Fin 4) (k : Fin 20) code (s : State), k.val ∉ s.ct.adc[c].open_ → exec (.adcResult c k code) s = .next s) ∧
  (∀ (n : Fin 96) (s : State), n.val < 88 → s.on (F.PWM_CFG_EN n) = true → s.time % max 2 (s.rd (F.PWM_PER_PER n)) = s.rd (F.PWM_PHASE_PHASE n) % max 2 (s.rd (F.PWM_PER_PER n)) →
    exec (.pwmPeriodStart n) s = .next (({ s with ct := { s.ct with starts := s.ct.starts.set n s.time } } : State).wr (F.PWM_DUTY_DUTY n) s.ct.duties[n])) ∧
  (∀ (n : Fin 96) (s : State), n.val < 88 → s.on (F.PWM_CFG_EN n) = false → exec (.pwmPeriodStart n) s = .next s)

/-- The ZE-40 host bus: reads of the image, posted writes, the key, the migration window, errors; and nothing outside the ZE-40 personality. -/
def Obligations.LegacyBusCommands : Prop :=
  (∀ ad (s : State), s.ze40 = false → exec (.legacyRead ad) s = .next s) ∧
  (∀ ad v (s : State), s.ze40 = false → exec (.legacyWrite ad v) s = .next s ∧ exec .legacyProtocolError s = .next s ∧ exec .zerrRead s = .next s ∧
    exec (.zmigKey v) s = .next s) ∧
  (∀ ad (s : State), s.ze40 = true → ad < 0x060 → ad ≠ 0x005 → ad ≠ 0x008 → ad ≠ 0x04C →
    exec (.legacyRead ad) s = .next (s.emit (.legacyData (s.zWord ad)))) ∧
  (∀ ad (s : State), s.ze40 = true → 0x060 ≤ ad → ad < 0x200 → exec (.legacyRead ad) s = .next (s.emit (.legacyData 0xFFFF))) ∧
  (∀ (s : State), s.ze40 = true → exec .zerrRead s = .next (((s.emit (.legacyData (s.zWord 0x005))).wr F.ZERR_CODE 0).wr F.ZERR_COUNT 0)) ∧
  (∀ (s : State), s.ze40 = true → exec (.countLoRead false) s = .next ((s.emit (.legacyData (s.zWord 0x008))).wr F.ZMS_HI_MS s.lg.msHi)) ∧
  (∀ (s : State), s.ze40 = true → exec (.countLoRead true) s = .next ((s.emit (.legacyData (s.zWord 0x04C))).wr F.ZDMA_CNT_HI_CNT s.lg.cntHi)) ∧
  (∀ ad v (s : State), s.ze40 = true → ad < 0x05E → ad ≠ 0x04B → v < 65536 → s.dev ≠ stSlack → s.lg.wfifo.length < 64 → exec (.legacyWrite ad v) s = .next
    (((s.modLg fun g => { g with keyed := false }).zImage ad v).modLg fun g => { g with wfifo := g.wfifo ++ [(ad, v)] })) ∧
  (∀ v (s : State), s.ze40 = true → v < 65536 → s.dev ≠ stSlack → s.lg.raster.length < 512 → exec (.legacyWrite 0x04B v) s = .next
    ((s.modLg fun g => { g with keyed := false }).zPush v)) ∧
  (∀ v (s : State), s.ze40 = true → v < 65536 → s.dev ≠ stSlack → s.lg.open_ = true → exec (.legacyWrite 0x05F v) s = .next
    (((s.modLg fun g => { g with keyed := false }).wr F.ZMIG_CTRL_PAGE v).wr F.ZMIG_CTRL_QTR (bits v 8 2))) ∧
  (∀ v (s : State), s.ze40 = true → v < 65536 → s.dev ≠ stSlack → v = 0x6904 → s.lg.keyed = true →
    exec (.zmigKey v) s = .next ((s.modLg fun g => { g with keyed := false }).zWindow true)) ∧
  (∀ v (s : State), s.ze40 = true → s.dev ≠ stSlack → v = 0x9640 → exec (.zmigKey v) s = .next (s.modLg fun g => { g with keyed := true })) ∧
  (∀ (s : State), s.ze40 = true → s.dev ≠ stSlack → exec (.zmigKey 0) s = .next ((s.modLg fun g => { g with keyed := false }).zWindow false)) ∧
  (∀ (b : Bool) (s : State), s.lg.open_ = b → s.zWindow b = s) ∧
  (∀ (x : Fin 512) p o v t (s : State), s.ze40 = true → s.lg.open_ = true → s.rd F.ZMIG_CTRL_PAGE = p → s.rd F.ZMIG_CTRL_QTR * 1024 + 2 * x.val = o → o % 4 = 0 →
    s.regRead p o = (v, t) → exec (.windowRead x) s = .next
      ((t.modLg fun g => { g with heldRead := some (p, o), readHi := v / 65536 % 65536 }).emit (.legacyData (v % 65536)))) ∧
  (∀ (x : Fin 512) (s : State), s.ze40 = true → s.lg.open_ = false → exec (.windowRead x) s = .next (s.emit (.legacyData 0xFFFF))) ∧
  (∀ (x : Fin 512) v p o (s : State), s.ze40 = true → s.lg.open_ = true → s.dev ≠ stSlack → s.rd F.ZMIG_CTRL_PAGE = p →
    s.rd F.ZMIG_CTRL_QTR * 1024 + 2 * x.val = o → o % 4 = 0 → v < 65536 → exec (.windowWrite x v) s = .next
      ((s.modLg fun g => { g with keyed := false }).modLg fun g => { g with heldWrite := some (p, o), writeLo := v })) ∧
  (∀ (x : Fin 512) v p o (s : State), s.ze40 = true → s.lg.open_ = true → s.dev ≠ stSlack → s.rd F.ZMIG_CTRL_PAGE = p →
    s.rd F.ZMIG_CTRL_QTR * 1024 + 2 * x.val = o → o % 4 = 2 → s.lg.heldWrite = some (p, o - 2) → v < 65536 → exec (.windowWrite x v) s = .next
      (((s.modLg fun g => { g with keyed := false }).modLg fun g => { g with heldWrite := none }).busWrite .window p (o - 2) (v * 65536 + s.lg.writeLo))) ∧
  (∀ (x : Fin 512) v (s : State), s.lg.open_ = false → exec (.windowWrite x v) s = .next s) ∧
  (∀ (s : State), s.ze40 = true → exec .legacyProtocolError s = .next (((s.sat F.LG_CNT_A_PROTO).zerr 1).raise 240 0x0E0 0)) ∧
  (∀ (k : Fin 4) b (s : State), s.ze40 = false → exec (.polyLockInput k b) s = .next s) ∧
  (∀ (k : Fin 4) (s : State), s.ze40 = true → exec (.polyLockInput k true) s = .next
    ((s.modPoly k fun q => { q with lock := true, since := if s.lg.polys[k].lock = true then s.lg.polys[k].since else s.time }).zLocked k)) ∧
  (∀ (k : Fin 4) (s : State), s.ze40 = true → s.extPoly k = false → exec (.polyLockInput k false) s = .next
    (s.modPoly k fun q => { q with lock := false, since := if s.lg.polys[k].lock = false then s.lg.polys[k].since else s.time }))

/-- The ZE-40 emulation: posted writes applied in order, the refresh of the image, ZINT, SUBMIT and ABORT, the raster intake, the partner's DMA and the
polygons.
The pixels of a raster word: an end of line fills the line with zeros, a run repeats its pixel, a literal gives up to 15 pixels from bit 14 down. -/
def Obligations.LegacyEmulationCommands : Prop :=
  (∀ ad v r (s : State), s.zRuns = true → s.lg.wfifo = (ad, v) :: r → exec .legacyWriteApply s = .next
    ((s.modLg fun g => { g with wfifo := r }).zApply ad v)) ∧
  (∀ (s : State), s.zRuns = false ∨ s.lg.wfifo = [] → exec .legacyWriteApply s = .next s) ∧
  (∀ (s : State), s.zRuns = true → exec .imageRefresh s = .next
    (let t := ((s.each (List.finRange 4) fun k t => t.zLocked k).zCollect.zBind).zStations.zSensors.zJam
     (t.wr F.ZSTAT_STATE t.zStateNow).zLine)) ∧
  (∀ (s : State), s.zRuns = false → exec .imageRefresh s = .next s ∧ exec .rasterWord s = .next s) ∧
  (∀ m (s : State), s.ze40 = true → exec (.zintClear m) s = .next (s.zWrite 0x003 (m % 65536)).zDrain) ∧
  (∀ (s : State), s.ze40 = true → s.zWord 0x001 ||| 4 < 65536 → exec .softRst s = .next (s.zWrite 0x001 (s.zWord 0x001 ||| 4)).zDrain) ∧
  (∀ (m : Fin 16) tag (s : State), s.ze40 = true → tag < 256 → exec (.submit m tag) s = .next (s.zWrite 0x00A (1 + 16 * m.val + 256 * tag)).zDrain) ∧
  (∀ (s : State), s.ze40 = true → exec .zpageAbort s = .next (s.zWrite 0x00A 2).zDrain) ∧
  (∀ (sep : Fin 4) dma b (s : State), s.ze40 = true → b < 128 → exec (.rasterEnable sep dma b) s = .next
    (s.zWrite 0x048 (1 + 2 * sep.val + 8 * b2n dma + 256 * b)).zDrain) ∧
  (∀ (s : State), s.ze40 = true → exec .zpolyStart s = .next (s.zWrite 0x037 1).zDrain ∧ exec .zpolyStop s = .next (s.zWrite 0x037 2).zDrain) ∧
  (∀ (s : State), s.ze40 = false → exec (.zintClear 0) s = .next s ∧ exec .softRst s = .next s ∧ exec .zpageAbort s = .next s ∧ exec .zpolyStart s = .next s ∧
    exec .zpolyStop s = .next s) ∧
  (∀ (s : State), s.zRuns = true → s.lg.wfifo = [] → s.zDrain = s) ∧
  (∀ m (s : State), s.zApply 0x003 m = s.zIntClear m) ∧
  (∀ (m tag : Nat) (s : State), m < 16 → tag < 256 → s.zApply 0x00A (1 + 16 * m + 256 * tag) = s.zSubmit m tag) ∧
  (∀ (s : State), s.zApply 0x00A 2 = s.zAbort ∧ s.zApply 0x037 1 = s.zPolys true ∧ s.zApply 0x037 2 = s.zPolys false) ∧
  (∀ m tag (s : State), s.lg.defs = [] → s.zSubmit m tag = (s.zerr 4).zPost ⟨tag, 3, 0⟩) ∧
  (∀ m tag d r (s : State), s.lg.defs = d :: r → d.done &&& m = m → 4 ≤ s.lg.subs.length → s.zSubmit m tag = (s.zerr 5).zPost ⟨tag, 3, 0⟩) ∧
  (∀ (s : State), s.zRuns = true → s.lg.wfifo = [] → exec .rasterWord s = .next s.zWordIn) ∧
  (∀ w d r r' (s : State), s.lg.raster = w :: r → s.on (zNow F.ZRAS_CTRL_EN) = true → s.lg.defs = r' ++ [d] →
    s.zWordIn = (((s.modLg fun g => { g with raster := r }).zDecode w d).zGrant)) ∧
  (∀ w (s : State), s.ze40 = false → exec (.dackTransfer w) s = .next s) ∧
  (∀ w (s : State), s.ze40 = true → s.zChannel = none → s.on (zNow F.ZRAS_CTRL_DMA) = true → s.lg.raster.length < 512 → s.lg.burst ≠ 0 →
    exec (.dackTransfer w) s = .next (((s.zPush w).modLg fun g => { g with burst := g.burst - 1, dackAt := s.time }).zGrant)) ∧
  (∀ w (s : State), s.ze40 = true → s.zChannel = none → s.on (zNow F.ZRAS_CTRL_DMA) = false → exec (.dackTransfer w) s = .next s) ∧
  (∀ (s : State), s.ze40 = true → s.lg.burst ≠ 0 → s.on (zNow F.ZRAS_CTRL_EN) = true → s.lg.dackAt + 6400 ≤ s.time →
    exec (.partnerTimeout 31) s = .next ((((s.dcEnd 31 dsPartner).dcHalt 31).hwReact).zTimedOut)) ∧
  (∀ (ch : Fin 32) b (s : State), s.ze40 = true → ch ≠ 31 → (s.chan ch).grant = some b → s.rd (F.DC_CFG_REQ ch) = 1 → s.dcState ch = dcActive →
    (s.chan ch).partner.length < b → (s.chan ch).dackAt + 6400 ≤ s.time → exec (.partnerTimeout ch) s = .next ((s.partnerEnd ch).hwReact.zTimedOut)) ∧
  (∀ (ch : Fin 32) (s : State), s.ze40 = false ∨ (ch ≠ 31 ∧ (s.chan ch).grant = none) → exec (.partnerTimeout ch) s = .next s) ∧
  (∀ left : Nat, zPixels 0x8000 left = List.replicate left false ∧ zPixels 0xC000 left = List.replicate left false) ∧
  (∀ n left : Nat, 0 < n → n < 0x4000 → zPixels (0x8000 + n) left = List.replicate n false ∧ zPixels (0xC000 + n) left = List.replicate n true) ∧
  (∀ w left : Nat, w < 0x8000 → (zPixels w left).length = min 15 left ∧ ∀ i : Nat, i < min 15 left → (zPixels w left)[i]? = some (bit w (14 - i)))

/-- The first-fault latch: a raise with VALID 0 latches its source, the severity it is handled at and its TIME stamp and sets VALID; with VALID 1 it sets OVF
and changes nothing else there, except that of two raises of one tick the lower source is latched; CLR clears both bits. -/
def Obligations.FirstFaultLatch : Prop :=
  (∀ src page fbit floor assay (s : State), src < 256 → floor ≤ 3 → s.sevOf src ≤ 3 → s.on F.FC_FIRST_VALID = false →
    (s.latch src page fbit floor assay).rd F.FC_FIRST_SRC = src ∧
    (s.latch src page fbit floor assay).rd F.FC_FIRST_SEV =
      (if s.merges (classOf src) src assay then max (s.sevOf src) floor else s.handled src page floor) ∧
    (s.latch src page fbit floor assay).rd F.FC_FIRST_T_LO = s.time % 2 ^ 32 ∧
    (s.latch src page fbit floor assay).rd F.FC_FIRST_T_HI = s.time / 2 ^ 32 % 2 ^ 32 ∧
    (s.latch src page fbit floor assay).rd F.FC_FIRST_VALID = 1 ∧
    (s.latch src page fbit floor assay).rd F.FC_FIRST_OVF = s.rd F.FC_FIRST_OVF) ∧
  (∀ src page fbit floor assay (s : State), s.on F.FC_FIRST_VALID = true → src < 256 →
    s.rd F.FC_FIRST_T_HI * 2 ^ 32 + s.rd F.FC_FIRST_T_LO = s.time → src < s.rd F.FC_FIRST_SRC →
    (s.latch src page fbit floor assay).rd F.FC_FIRST_OVF = 1 ∧ (s.latch src page fbit floor assay).rd F.FC_FIRST_SRC = src) ∧
  (∀ src page fbit floor assay (s : State), s.on F.FC_FIRST_VALID = true →
    s.rd F.FC_FIRST_T_HI * 2 ^ 32 + s.rd F.FC_FIRST_T_LO ≠ s.time ∨ s.rd F.FC_FIRST_SRC ≤ src →
    (s.latch src page fbit floor assay).rd F.FC_FIRST_OVF = 1 ∧
    (s.latch src page fbit floor assay).rd F.FC_FIRST_SRC = s.rd F.FC_FIRST_SRC ∧
    (s.latch src page fbit floor assay).rd F.FC_FIRST_SEV = s.rd F.FC_FIRST_SEV ∧
    (s.latch src page fbit floor assay).rd F.FC_FIRST_T_LO = s.rd F.FC_FIRST_T_LO ∧
    (s.latch src page fbit floor assay).rd F.FC_FIRST_T_HI = s.rd F.FC_FIRST_T_HI ∧
    (s.latch src page fbit floor assay).rd F.FC_FIRST_VALID = s.rd F.FC_FIRST_VALID) ∧
  (∀ a (s : State), writable s a 0x001 0x044 → exec (.firstClr a) s = .next ((s.wr F.FC_FIRST_VALID 0).wr F.FC_FIRST_OVF 0))

/-- RESYNC of an encoder: hi is set to raw, the backlog and REV to 0, MONO stays; the next forward count advances MONO by one. -/
def Obligations.EncoderResync : Prop :=
  ∀ a (e : Fin 8) (s : State), writable s a (encPage e) 0x064 → s.on (H.ISOLATED (encPage e)) = false → s.rd (F.ENC_RAW_COUNT e) < 2 ^ 32 →
    ∃ t, exec (.resync a e) s = .next t ∧ t.mo.encoders[e].hi = s.rd (F.ENC_RAW_COUNT e) ∧ t.rd (F.ENC_RAW_COUNT e) = s.rd (F.ENC_RAW_COUNT e) ∧
      t.rd (F.ENC_BACK_BACKLOG e) = 0 ∧ t.rd (F.ENC_BACK_REV e) = 0 ∧
      t.rd (F.ENC_MONO_LO e) = s.rd (F.ENC_MONO_LO e) ∧ t.rd (F.ENC_MONO_HI e) = s.rd (F.ENC_MONO_HI e) ∧
      ∃ u, exec (.encoderCount e (!s.on (F.ENC_CFG_NEG e)) false) t = .next u ∧
        u.rd (F.ENC_MONO_LO e) = (s.rd (F.ENC_MONO_HI e) * 2 ^ 32 + s.rd (F.ENC_MONO_LO e) + 1) % 2 ^ 64 % 2 ^ 32 ∧
        u.rd (F.ENC_MONO_HI e) = (s.rd (F.ENC_MONO_HI e) * 2 ^ 32 + s.rd (F.ENC_MONO_LO e) + 1) % 2 ^ 64 / 2 ^ 32 % 2 ^ 32

/-- Word addresses 0x060 to 0x3FF of the ZE-40 host bus read 0xFFFF and ignore writes, but for 0x200 to 0x3FF while the migration window is open. -/
def Obligations.ClosedAddresses : Prop :=
  ∀ ad v (s : State), s.ze40 = true → 0x060 ≤ ad → ad ≤ 0x3FF → (ad < 0x200 ∨ s.lg.open_ = false) →
    exec (.legacyRead ad) s = .next (s.emit (.legacyData 0xFFFF)) ∧ exec (.legacyWrite ad v) s = .next s

/-- A word's check moved to another address with A(source) and A(destination) is the check of the word at the destination.
A wrong bit of a byte or of a word's data on its way is corrected, and one of the address is told apart. -/
def Obligations.WordCodes : Prop :=
  (∀ (data : Nat) (psn : Bool) (src dst : Nat), reAddress (wordChk data psn src) src dst = wordChk data psn dst) ∧
  (∀ (d : Fin 256) (i : Fin 13), (byteDec (byteEnc d.val ^^^ 2 ^ i.val)).value = d.val) ∧
  (∀ i : Fin 80, wordDec (2 ^ i.val) = .corrected (2 ^ i.val)) ∧
  (∀ i : Fin 125, 80 ≤ i.val → wordDec (2 ^ i.val) = .address) ∧ wordDec 0 = .clean

/-- A loop sample in AUTO keeps its output within OMIN and OMAX where SLEW is 0, and its integral within them after each step.
With SLEW set, an output outside HELD moves by no more than SLEW in a sample.
The phase loop keeps its trim within 100 times PH_LIM.
The speed after a sample lies between the present speed and the target speed, and differs from the present one by no more than the acceleration or the
deceleration. -/
def Obligations.ControlBounds : Prop :=
  (∀ (r : LoopRegs) (q : LoopSlot) (c1 c2 : NotchCoef) (x sp out : Int) (fresh : Bool), r.omin ≤ r.omax → r.slew = 0 →
    r.omin ≤ (loopCompute r q c1 c2 2 fresh x sp out).out ∧ (loopCompute r q c1 c2 2 fresh x sp out).out ≤ r.omax ∧
    (r.omin ≤ q.i → q.i ≤ r.omax → r.omin ≤ (loopCompute r q c1 c2 2 fresh x sp out).i ∧ (loopCompute r q c1 c2 2 fresh x sp out).i ≤ r.omax)) ∧
  (∀ (r : LoopRegs) (q : LoopSlot) (c1 c2 : NotchCoef) (st : Nat) (x sp out : Int) (fresh : Bool), st ≠ 3 → r.slew ≠ 0 →
    out - r.slew ≤ (loopCompute r q c1 c2 st fresh x sp out).out ∧ (loopCompute r q c1 c2 st fresh x sp out).out ≤ out + r.slew) ∧
  (∀ (kp ki lim : Nat) (acc err : Int), -(100 * lim : Int) ≤ (phaseLoop kp ki lim acc err).2 ∧ (phaseLoop kp ki lim acc err).2 ≤ 100 * lim) ∧
  (∀ (v vt : Int) (acc dec : Nat), min v vt ≤ nextSpeed v vt acc dec ∧ nextSpeed v vt acc dec ≤ max v vt ∧
    ((nextSpeed v vt acc dec - v).natAbs ≤ acc ∨ (nextSpeed v vt acc dec - v).natAbs ≤ dec))

/-- The state after reset: every field at its reset value, nothing staged or waiting, FAULT_N low while RST_N is asserted, and every memory byte 0 (MRAM: the
model's choice, log 4).
The reset state is canonical. -/
def Obligations.ResetState : Prop :=
  (∀ f : Fld, State.reset.rd f = f.reset ∧ State.reset.stgRd f = f.reset) ∧ (∀ a : Nat, State.reset.ldByte a = 0) ∧
    State.reset.time = 0 ∧ State.reset.faultN = true ∧ State.reset.rstN = true ∧ State.reset.pending = [] ∧ State.reset.dev = stOff ∧
    State.reset.on (H.OWNER 0x0D0) = true ∧ State.reset.on (H.OWNER 0x041) = false ∧ State.reset.on (H.LOCK 0x0F8) = true ∧ State.reset.rd (H.FIRST 0x000) = 0xFF ∧
  (State.reset.canon = true)

/-- Every step keeps the canonical form: memory and the register file, its staging copies and the held words list each key once, in rising order, and memory
lists no byte equal to what an unlisted one reads as. -/
def Obligations.StepKeepsCanonical : Prop :=
  ∀ (s t : State), s.canon = true → step s = .next t → t.canon = true

/-- Every step ends in a next state: no command faults or is refused. -/
def Obligations.StepCompletes : Prop :=
  ∀ s : State, ∃ t : State, step s = .next t
end

