-- ==== Sys2Proof/Laws/State.lean ====
section
/-!
SUPPORT. What each named update leaves of the state: one lemma per field per update, true by unfolding.
-/
namespace Sys2Proof.Machine

variable (s : State)

/-! ### wr -/

@[simp] theorem State.wr_time (f : Fld) (v : Nat) : (s.wr f v).time = s.time := rfl
@[simp] theorem State.wr_free (f : Fld) (v : Nat) : (s.wr f v).free = s.free := rfl
@[simp] theorem State.wr_stg (f : Fld) (v : Nat) : (s.wr f v).stg = s.stg := rfl
@[simp] theorem State.wr_hold (f : Fld) (v : Nat) : (s.wr f v).hold = s.hold := rfl
@[simp] theorem State.wr_mem (f : Fld) (v : Nat) : (s.wr f v).mem = s.mem := rfl
@[simp] theorem State.wr_fresh (f : Fld) (v : Nat) : (s.wr f v).fresh = s.fresh := rfl
@[simp] theorem State.wr_mu (f : Fld) (v : Nat) : (s.wr f v).mu = s.mu := rfl
@[simp] theorem State.wr_out (f : Fld) (v : Nat) : (s.wr f v).out = s.out := rfl
@[simp] theorem State.wr_faultN (f : Fld) (v : Nat) : (s.wr f v).faultN = s.faultN := rfl
@[simp] theorem State.wr_rstN (f : Fld) (v : Nat) : (s.wr f v).rstN = s.rstN := rfl
@[simp] theorem State.wr_pfwN (f : Fld) (v : Nat) : (s.wr f v).pfwN = s.pfwN := rfl
@[simp] theorem State.wr_fc (f : Fld) (v : Nat) : (s.wr f v).fc = s.fc := rfl
@[simp] theorem State.wr_berths (f : Fld) (v : Nat) : (s.wr f v).berths = s.berths := rfl
@[simp] theorem State.wr_boot (f : Fld) (v : Nat) : (s.wr f v).boot = s.boot := rfl
@[simp] theorem State.wr_seq (f : Fld) (v : Nat) : (s.wr f v).seq = s.seq := rfl
@[simp] theorem State.wr_clocks (f : Fld) (v : Nat) : (s.wr f v).clocks = s.clocks := rfl
@[simp] theorem State.wr_tl (f : Fld) (v : Nat) : (s.wr f v).tl = s.tl := rfl
@[simp] theorem State.wr_quay (f : Fld) (v : Nat) : (s.wr f v).quay = s.quay := rfl
@[simp] theorem State.wr_ed (f : Fld) (v : Nat) : (s.wr f v).ed = s.ed := rfl
@[simp] theorem State.wr_dma (f : Fld) (v : Nat) : (s.wr f v).dma = s.dma := rfl
@[simp] theorem State.wr_mo (f : Fld) (v : Nat) : (s.wr f v).mo = s.mo := rfl
@[simp] theorem State.wr_ct (f : Fld) (v : Nat) : (s.wr f v).ct = s.ct := rfl
@[simp] theorem State.wr_sta (f : Fld) (v : Nat) : (s.wr f v).sta = s.sta := rfl
@[simp] theorem State.wr_lg (f : Fld) (v : Nat) : (s.wr f v).lg = s.lg := rfl
@[simp] theorem State.wr_pending (f : Fld) (v : Nat) : (s.wr f v).pending = s.pending := rfl

/-! ### wrS -/

@[simp] theorem State.wrS_time (f : Fld) (v : Int) : (s.wrS f v).time = s.time := rfl
@[simp] theorem State.wrS_free (f : Fld) (v : Int) : (s.wrS f v).free = s.free := rfl
@[simp] theorem State.wrS_stg (f : Fld) (v : Int) : (s.wrS f v).stg = s.stg := rfl
@[simp] theorem State.wrS_hold (f : Fld) (v : Int) : (s.wrS f v).hold = s.hold := rfl
@[simp] theorem State.wrS_mem (f : Fld) (v : Int) : (s.wrS f v).mem = s.mem := rfl
@[simp] theorem State.wrS_fresh (f : Fld) (v : Int) : (s.wrS f v).fresh = s.fresh := rfl
@[simp] theorem State.wrS_mu (f : Fld) (v : Int) : (s.wrS f v).mu = s.mu := rfl
@[simp] theorem State.wrS_out (f : Fld) (v : Int) : (s.wrS f v).out = s.out := rfl
@[simp] theorem State.wrS_faultN (f : Fld) (v : Int) : (s.wrS f v).faultN = s.faultN := rfl
@[simp] theorem State.wrS_rstN (f : Fld) (v : Int) : (s.wrS f v).rstN = s.rstN := rfl
@[simp] theorem State.wrS_pfwN (f : Fld) (v : Int) : (s.wrS f v).pfwN = s.pfwN := rfl
@[simp] theorem State.wrS_fc (f : Fld) (v : Int) : (s.wrS f v).fc = s.fc := rfl
@[simp] theorem State.wrS_berths (f : Fld) (v : Int) : (s.wrS f v).berths = s.berths := rfl
@[simp] theorem State.wrS_boot (f : Fld) (v : Int) : (s.wrS f v).boot = s.boot := rfl
@[simp] theorem State.wrS_seq (f : Fld) (v : Int) : (s.wrS f v).seq = s.seq := rfl
@[simp] theorem State.wrS_clocks (f : Fld) (v : Int) : (s.wrS f v).clocks = s.clocks := rfl
@[simp] theorem State.wrS_tl (f : Fld) (v : Int) : (s.wrS f v).tl = s.tl := rfl
@[simp] theorem State.wrS_quay (f : Fld) (v : Int) : (s.wrS f v).quay = s.quay := rfl
@[simp] theorem State.wrS_ed (f : Fld) (v : Int) : (s.wrS f v).ed = s.ed := rfl
@[simp] theorem State.wrS_dma (f : Fld) (v : Int) : (s.wrS f v).dma = s.dma := rfl
@[simp] theorem State.wrS_mo (f : Fld) (v : Int) : (s.wrS f v).mo = s.mo := rfl
@[simp] theorem State.wrS_ct (f : Fld) (v : Int) : (s.wrS f v).ct = s.ct := rfl
@[simp] theorem State.wrS_sta (f : Fld) (v : Int) : (s.wrS f v).sta = s.sta := rfl
@[simp] theorem State.wrS_lg (f : Fld) (v : Int) : (s.wrS f v).lg = s.lg := rfl
@[simp] theorem State.wrS_pending (f : Fld) (v : Int) : (s.wrS f v).pending = s.pending := rfl

/-! ### flag -/

@[simp] theorem State.flag_time (f : Fld) (b : Bool) : (s.flag f b).time = s.time := rfl
@[simp] theorem State.flag_free (f : Fld) (b : Bool) : (s.flag f b).free = s.free := rfl
@[simp] theorem State.flag_stg (f : Fld) (b : Bool) : (s.flag f b).stg = s.stg := rfl
@[simp] theorem State.flag_hold (f : Fld) (b : Bool) : (s.flag f b).hold = s.hold := rfl
@[simp] theorem State.flag_mem (f : Fld) (b : Bool) : (s.flag f b).mem = s.mem := rfl
@[simp] theorem State.flag_fresh (f : Fld) (b : Bool) : (s.flag f b).fresh = s.fresh := rfl
@[simp] theorem State.flag_mu (f : Fld) (b : Bool) : (s.flag f b).mu = s.mu := rfl
@[simp] theorem State.flag_out (f : Fld) (b : Bool) : (s.flag f b).out = s.out := rfl
@[simp] theorem State.flag_faultN (f : Fld) (b : Bool) : (s.flag f b).faultN = s.faultN := rfl
@[simp] theorem State.flag_rstN (f : Fld) (b : Bool) : (s.flag f b).rstN = s.rstN := rfl
@[simp] theorem State.flag_pfwN (f : Fld) (b : Bool) : (s.flag f b).pfwN = s.pfwN := rfl
@[simp] theorem State.flag_fc (f : Fld) (b : Bool) : (s.flag f b).fc = s.fc := rfl
@[simp] theorem State.flag_berths (f : Fld) (b : Bool) : (s.flag f b).berths = s.berths := rfl
@[simp] theorem State.flag_boot (f : Fld) (b : Bool) : (s.flag f b).boot = s.boot := rfl
@[simp] theorem State.flag_seq (f : Fld) (b : Bool) : (s.flag f b).seq = s.seq := rfl
@[simp] theorem State.flag_clocks (f : Fld) (b : Bool) : (s.flag f b).clocks = s.clocks := rfl
@[simp] theorem State.flag_tl (f : Fld) (b : Bool) : (s.flag f b).tl = s.tl := rfl
@[simp] theorem State.flag_quay (f : Fld) (b : Bool) : (s.flag f b).quay = s.quay := rfl
@[simp] theorem State.flag_ed (f : Fld) (b : Bool) : (s.flag f b).ed = s.ed := rfl
@[simp] theorem State.flag_dma (f : Fld) (b : Bool) : (s.flag f b).dma = s.dma := rfl
@[simp] theorem State.flag_mo (f : Fld) (b : Bool) : (s.flag f b).mo = s.mo := rfl
@[simp] theorem State.flag_ct (f : Fld) (b : Bool) : (s.flag f b).ct = s.ct := rfl
@[simp] theorem State.flag_sta (f : Fld) (b : Bool) : (s.flag f b).sta = s.sta := rfl
@[simp] theorem State.flag_lg (f : Fld) (b : Bool) : (s.flag f b).lg = s.lg := rfl
@[simp] theorem State.flag_pending (f : Fld) (b : Bool) : (s.flag f b).pending = s.pending := rfl

/-! ### satAdd -/

@[simp] theorem State.satAdd_time (f : Fld) (n : Nat) : (s.satAdd f n).time = s.time := rfl
@[simp] theorem State.satAdd_free (f : Fld) (n : Nat) : (s.satAdd f n).free = s.free := rfl
@[simp] theorem State.satAdd_stg (f : Fld) (n : Nat) : (s.satAdd f n).stg = s.stg := rfl
@[simp] theorem State.satAdd_hold (f : Fld) (n : Nat) : (s.satAdd f n).hold = s.hold := rfl
@[simp] theorem State.satAdd_mem (f : Fld) (n : Nat) : (s.satAdd f n).mem = s.mem := rfl
@[simp] theorem State.satAdd_fresh (f : Fld) (n : Nat) : (s.satAdd f n).fresh = s.fresh := rfl
@[simp] theorem State.satAdd_mu (f : Fld) (n : Nat) : (s.satAdd f n).mu = s.mu := rfl
@[simp] theorem State.satAdd_out (f : Fld) (n : Nat) : (s.satAdd f n).out = s.out := rfl
@[simp] theorem State.satAdd_faultN (f : Fld) (n : Nat) : (s.satAdd f n).faultN = s.faultN := rfl
@[simp] theorem State.satAdd_rstN (f : Fld) (n : Nat) : (s.satAdd f n).rstN = s.rstN := rfl
@[simp] theorem State.satAdd_pfwN (f : Fld) (n : Nat) : (s.satAdd f n).pfwN = s.pfwN := rfl
@[simp] theorem State.satAdd_fc (f : Fld) (n : Nat) : (s.satAdd f n).fc = s.fc := rfl
@[simp] theorem State.satAdd_berths (f : Fld) (n : Nat) : (s.satAdd f n).berths = s.berths := rfl
@[simp] theorem State.satAdd_boot (f : Fld) (n : Nat) : (s.satAdd f n).boot = s.boot := rfl
@[simp] theorem State.satAdd_seq (f : Fld) (n : Nat) : (s.satAdd f n).seq = s.seq := rfl
@[simp] theorem State.satAdd_clocks (f : Fld) (n : Nat) : (s.satAdd f n).clocks = s.clocks := rfl
@[simp] theorem State.satAdd_tl (f : Fld) (n : Nat) : (s.satAdd f n).tl = s.tl := rfl
@[simp] theorem State.satAdd_quay (f : Fld) (n : Nat) : (s.satAdd f n).quay = s.quay := rfl
@[simp] theorem State.satAdd_ed (f : Fld) (n : Nat) : (s.satAdd f n).ed = s.ed := rfl
@[simp] theorem State.satAdd_dma (f : Fld) (n : Nat) : (s.satAdd f n).dma = s.dma := rfl
@[simp] theorem State.satAdd_mo (f : Fld) (n : Nat) : (s.satAdd f n).mo = s.mo := rfl
@[simp] theorem State.satAdd_ct (f : Fld) (n : Nat) : (s.satAdd f n).ct = s.ct := rfl
@[simp] theorem State.satAdd_sta (f : Fld) (n : Nat) : (s.satAdd f n).sta = s.sta := rfl
@[simp] theorem State.satAdd_lg (f : Fld) (n : Nat) : (s.satAdd f n).lg = s.lg := rfl
@[simp] theorem State.satAdd_pending (f : Fld) (n : Nat) : (s.satAdd f n).pending = s.pending := rfl

/-! ### sat -/

@[simp] theorem State.sat_time (f : Fld) : (s.sat f).time = s.time := rfl
@[simp] theorem State.sat_free (f : Fld) : (s.sat f).free = s.free := rfl
@[simp] theorem State.sat_stg (f : Fld) : (s.sat f).stg = s.stg := rfl
@[simp] theorem State.sat_hold (f : Fld) : (s.sat f).hold = s.hold := rfl
@[simp] theorem State.sat_mem (f : Fld) : (s.sat f).mem = s.mem := rfl
@[simp] theorem State.sat_fresh (f : Fld) : (s.sat f).fresh = s.fresh := rfl
@[simp] theorem State.sat_mu (f : Fld) : (s.sat f).mu = s.mu := rfl
@[simp] theorem State.sat_out (f : Fld) : (s.sat f).out = s.out := rfl
@[simp] theorem State.sat_faultN (f : Fld) : (s.sat f).faultN = s.faultN := rfl
@[simp] theorem State.sat_rstN (f : Fld) : (s.sat f).rstN = s.rstN := rfl
@[simp] theorem State.sat_pfwN (f : Fld) : (s.sat f).pfwN = s.pfwN := rfl
@[simp] theorem State.sat_fc (f : Fld) : (s.sat f).fc = s.fc := rfl
@[simp] theorem State.sat_berths (f : Fld) : (s.sat f).berths = s.berths := rfl
@[simp] theorem State.sat_boot (f : Fld) : (s.sat f).boot = s.boot := rfl
@[simp] theorem State.sat_seq (f : Fld) : (s.sat f).seq = s.seq := rfl
@[simp] theorem State.sat_clocks (f : Fld) : (s.sat f).clocks = s.clocks := rfl
@[simp] theorem State.sat_tl (f : Fld) : (s.sat f).tl = s.tl := rfl
@[simp] theorem State.sat_quay (f : Fld) : (s.sat f).quay = s.quay := rfl
@[simp] theorem State.sat_ed (f : Fld) : (s.sat f).ed = s.ed := rfl
@[simp] theorem State.sat_dma (f : Fld) : (s.sat f).dma = s.dma := rfl
@[simp] theorem State.sat_mo (f : Fld) : (s.sat f).mo = s.mo := rfl
@[simp] theorem State.sat_ct (f : Fld) : (s.sat f).ct = s.ct := rfl
@[simp] theorem State.sat_sta (f : Fld) : (s.sat f).sta = s.sta := rfl
@[simp] theorem State.sat_lg (f : Fld) : (s.sat f).lg = s.lg := rfl
@[simp] theorem State.sat_pending (f : Fld) : (s.sat f).pending = s.pending := rfl

/-! ### inc -/

@[simp] theorem State.inc_time (f : Fld) : (s.inc f).time = s.time := rfl
@[simp] theorem State.inc_free (f : Fld) : (s.inc f).free = s.free := rfl
@[simp] theorem State.inc_stg (f : Fld) : (s.inc f).stg = s.stg := rfl
@[simp] theorem State.inc_hold (f : Fld) : (s.inc f).hold = s.hold := rfl
@[simp] theorem State.inc_mem (f : Fld) : (s.inc f).mem = s.mem := rfl
@[simp] theorem State.inc_fresh (f : Fld) : (s.inc f).fresh = s.fresh := rfl
@[simp] theorem State.inc_mu (f : Fld) : (s.inc f).mu = s.mu := rfl
@[simp] theorem State.inc_out (f : Fld) : (s.inc f).out = s.out := rfl
@[simp] theorem State.inc_faultN (f : Fld) : (s.inc f).faultN = s.faultN := rfl
@[simp] theorem State.inc_rstN (f : Fld) : (s.inc f).rstN = s.rstN := rfl
@[simp] theorem State.inc_pfwN (f : Fld) : (s.inc f).pfwN = s.pfwN := rfl
@[simp] theorem State.inc_fc (f : Fld) : (s.inc f).fc = s.fc := rfl
@[simp] theorem State.inc_berths (f : Fld) : (s.inc f).berths = s.berths := rfl
@[simp] theorem State.inc_boot (f : Fld) : (s.inc f).boot = s.boot := rfl
@[simp] theorem State.inc_seq (f : Fld) : (s.inc f).seq = s.seq := rfl
@[simp] theorem State.inc_clocks (f : Fld) : (s.inc f).clocks = s.clocks := rfl
@[simp] theorem State.inc_tl (f : Fld) : (s.inc f).tl = s.tl := rfl
@[simp] theorem State.inc_quay (f : Fld) : (s.inc f).quay = s.quay := rfl
@[simp] theorem State.inc_ed (f : Fld) : (s.inc f).ed = s.ed := rfl
@[simp] theorem State.inc_dma (f : Fld) : (s.inc f).dma = s.dma := rfl
@[simp] theorem State.inc_mo (f : Fld) : (s.inc f).mo = s.mo := rfl
@[simp] theorem State.inc_ct (f : Fld) : (s.inc f).ct = s.ct := rfl
@[simp] theorem State.inc_sta (f : Fld) : (s.inc f).sta = s.sta := rfl
@[simp] theorem State.inc_lg (f : Fld) : (s.inc f).lg = s.lg := rfl
@[simp] theorem State.inc_pending (f : Fld) : (s.inc f).pending = s.pending := rfl

/-! ### stgWr -/

@[simp] theorem State.stgWr_time (f : Fld) (v : Nat) : (s.stgWr f v).time = s.time := rfl
@[simp] theorem State.stgWr_free (f : Fld) (v : Nat) : (s.stgWr f v).free = s.free := rfl
@[simp] theorem State.stgWr_regs (f : Fld) (v : Nat) : (s.stgWr f v).regs = s.regs := rfl
@[simp] theorem State.stgWr_hold (f : Fld) (v : Nat) : (s.stgWr f v).hold = s.hold := rfl
@[simp] theorem State.stgWr_mem (f : Fld) (v : Nat) : (s.stgWr f v).mem = s.mem := rfl
@[simp] theorem State.stgWr_fresh (f : Fld) (v : Nat) : (s.stgWr f v).fresh = s.fresh := rfl
@[simp] theorem State.stgWr_mu (f : Fld) (v : Nat) : (s.stgWr f v).mu = s.mu := rfl
@[simp] theorem State.stgWr_out (f : Fld) (v : Nat) : (s.stgWr f v).out = s.out := rfl
@[simp] theorem State.stgWr_faultN (f : Fld) (v : Nat) : (s.stgWr f v).faultN = s.faultN := rfl
@[simp] theorem State.stgWr_rstN (f : Fld) (v : Nat) : (s.stgWr f v).rstN = s.rstN := rfl
@[simp] theorem State.stgWr_pfwN (f : Fld) (v : Nat) : (s.stgWr f v).pfwN = s.pfwN := rfl
@[simp] theorem State.stgWr_fc (f : Fld) (v : Nat) : (s.stgWr f v).fc = s.fc := rfl
@[simp] theorem State.stgWr_berths (f : Fld) (v : Nat) : (s.stgWr f v).berths = s.berths := rfl
@[simp] theorem State.stgWr_boot (f : Fld) (v : Nat) : (s.stgWr f v).boot = s.boot := rfl
@[simp] theorem State.stgWr_seq (f : Fld) (v : Nat) : (s.stgWr f v).seq = s.seq := rfl
@[simp] theorem State.stgWr_clocks (f : Fld) (v : Nat) : (s.stgWr f v).clocks = s.clocks := rfl
@[simp] theorem State.stgWr_tl (f : Fld) (v : Nat) : (s.stgWr f v).tl = s.tl := rfl
@[simp] theorem State.stgWr_quay (f : Fld) (v : Nat) : (s.stgWr f v).quay = s.quay := rfl
@[simp] theorem State.stgWr_ed (f : Fld) (v : Nat) : (s.stgWr f v).ed = s.ed := rfl
@[simp] theorem State.stgWr_dma (f : Fld) (v : Nat) : (s.stgWr f v).dma = s.dma := rfl
@[simp] theorem State.stgWr_mo (f : Fld) (v : Nat) : (s.stgWr f v).mo = s.mo := rfl
@[simp] theorem State.stgWr_ct (f : Fld) (v : Nat) : (s.stgWr f v).ct = s.ct := rfl
@[simp] theorem State.stgWr_sta (f : Fld) (v : Nat) : (s.stgWr f v).sta = s.sta := rfl
@[simp] theorem State.stgWr_lg (f : Fld) (v : Nat) : (s.stgWr f v).lg = s.lg := rfl
@[simp] theorem State.stgWr_pending (f : Fld) (v : Nat) : (s.stgWr f v).pending = s.pending := rfl

/-! ### emit -/

@[simp] theorem State.emit_time (o : Out) : (s.emit o).time = s.time := rfl
@[simp] theorem State.emit_free (o : Out) : (s.emit o).free = s.free := rfl
@[simp] theorem State.emit_regs (o : Out) : (s.emit o).regs = s.regs := rfl
@[simp] theorem State.emit_stg (o : Out) : (s.emit o).stg = s.stg := rfl
@[simp] theorem State.emit_hold (o : Out) : (s.emit o).hold = s.hold := rfl
@[simp] theorem State.emit_mem (o : Out) : (s.emit o).mem = s.mem := rfl
@[simp] theorem State.emit_fresh (o : Out) : (s.emit o).fresh = s.fresh := rfl
@[simp] theorem State.emit_mu (o : Out) : (s.emit o).mu = s.mu := rfl
@[simp] theorem State.emit_faultN (o : Out) : (s.emit o).faultN = s.faultN := rfl
@[simp] theorem State.emit_rstN (o : Out) : (s.emit o).rstN = s.rstN := rfl
@[simp] theorem State.emit_pfwN (o : Out) : (s.emit o).pfwN = s.pfwN := rfl
@[simp] theorem State.emit_fc (o : Out) : (s.emit o).fc = s.fc := rfl
@[simp] theorem State.emit_berths (o : Out) : (s.emit o).berths = s.berths := rfl
@[simp] theorem State.emit_boot (o : Out) : (s.emit o).boot = s.boot := rfl
@[simp] theorem State.emit_seq (o : Out) : (s.emit o).seq = s.seq := rfl
@[simp] theorem State.emit_clocks (o : Out) : (s.emit o).clocks = s.clocks := rfl
@[simp] theorem State.emit_tl (o : Out) : (s.emit o).tl = s.tl := rfl
@[simp] theorem State.emit_quay (o : Out) : (s.emit o).quay = s.quay := rfl
@[simp] theorem State.emit_ed (o : Out) : (s.emit o).ed = s.ed := rfl
@[simp] theorem State.emit_dma (o : Out) : (s.emit o).dma = s.dma := rfl
@[simp] theorem State.emit_mo (o : Out) : (s.emit o).mo = s.mo := rfl
@[simp] theorem State.emit_ct (o : Out) : (s.emit o).ct = s.ct := rfl
@[simp] theorem State.emit_sta (o : Out) : (s.emit o).sta = s.sta := rfl
@[simp] theorem State.emit_lg (o : Out) : (s.emit o).lg = s.lg := rfl
@[simp] theorem State.emit_pending (o : Out) : (s.emit o).pending = s.pending := rfl

/-! ### freeNext -/

@[simp] theorem State.freeNext_time : (s.freeNext).time = s.time := rfl
@[simp] theorem State.freeNext_regs : (s.freeNext).regs = s.regs := rfl
@[simp] theorem State.freeNext_stg : (s.freeNext).stg = s.stg := rfl
@[simp] theorem State.freeNext_hold : (s.freeNext).hold = s.hold := rfl
@[simp] theorem State.freeNext_mem : (s.freeNext).mem = s.mem := rfl
@[simp] theorem State.freeNext_fresh : (s.freeNext).fresh = s.fresh := rfl
@[simp] theorem State.freeNext_mu : (s.freeNext).mu = s.mu := rfl
@[simp] theorem State.freeNext_out : (s.freeNext).out = s.out := rfl
@[simp] theorem State.freeNext_faultN : (s.freeNext).faultN = s.faultN := rfl
@[simp] theorem State.freeNext_rstN : (s.freeNext).rstN = s.rstN := rfl
@[simp] theorem State.freeNext_pfwN : (s.freeNext).pfwN = s.pfwN := rfl
@[simp] theorem State.freeNext_fc : (s.freeNext).fc = s.fc := rfl
@[simp] theorem State.freeNext_berths : (s.freeNext).berths = s.berths := rfl
@[simp] theorem State.freeNext_boot : (s.freeNext).boot = s.boot := rfl
@[simp] theorem State.freeNext_seq : (s.freeNext).seq = s.seq := rfl
@[simp] theorem State.freeNext_clocks : (s.freeNext).clocks = s.clocks := rfl
@[simp] theorem State.freeNext_tl : (s.freeNext).tl = s.tl := rfl
@[simp] theorem State.freeNext_quay : (s.freeNext).quay = s.quay := rfl
@[simp] theorem State.freeNext_ed : (s.freeNext).ed = s.ed := rfl
@[simp] theorem State.freeNext_dma : (s.freeNext).dma = s.dma := rfl
@[simp] theorem State.freeNext_mo : (s.freeNext).mo = s.mo := rfl
@[simp] theorem State.freeNext_ct : (s.freeNext).ct = s.ct := rfl
@[simp] theorem State.freeNext_sta : (s.freeNext).sta = s.sta := rfl
@[simp] theorem State.freeNext_lg : (s.freeNext).lg = s.lg := rfl
@[simp] theorem State.freeNext_pending : (s.freeNext).pending = s.pending := rfl

/-! ### mark -/

@[simp] theorem State.mark_time (p b : Nat) : (s.mark p b).time = s.time := rfl
@[simp] theorem State.mark_free (p b : Nat) : (s.mark p b).free = s.free := rfl
@[simp] theorem State.mark_regs (p b : Nat) : (s.mark p b).regs = s.regs := rfl
@[simp] theorem State.mark_stg (p b : Nat) : (s.mark p b).stg = s.stg := rfl
@[simp] theorem State.mark_hold (p b : Nat) : (s.mark p b).hold = s.hold := rfl
@[simp] theorem State.mark_mem (p b : Nat) : (s.mark p b).mem = s.mem := rfl
@[simp] theorem State.mark_mu (p b : Nat) : (s.mark p b).mu = s.mu := rfl
@[simp] theorem State.mark_out (p b : Nat) : (s.mark p b).out = s.out := rfl
@[simp] theorem State.mark_faultN (p b : Nat) : (s.mark p b).faultN = s.faultN := rfl
@[simp] theorem State.mark_rstN (p b : Nat) : (s.mark p b).rstN = s.rstN := rfl
@[simp] theorem State.mark_pfwN (p b : Nat) : (s.mark p b).pfwN = s.pfwN := rfl
@[simp] theorem State.mark_fc (p b : Nat) : (s.mark p b).fc = s.fc := rfl
@[simp] theorem State.mark_berths (p b : Nat) : (s.mark p b).berths = s.berths := rfl
@[simp] theorem State.mark_boot (p b : Nat) : (s.mark p b).boot = s.boot := rfl
@[simp] theorem State.mark_seq (p b : Nat) : (s.mark p b).seq = s.seq := rfl
@[simp] theorem State.mark_clocks (p b : Nat) : (s.mark p b).clocks = s.clocks := rfl
@[simp] theorem State.mark_tl (p b : Nat) : (s.mark p b).tl = s.tl := rfl
@[simp] theorem State.mark_quay (p b : Nat) : (s.mark p b).quay = s.quay := rfl
@[simp] theorem State.mark_ed (p b : Nat) : (s.mark p b).ed = s.ed := rfl
@[simp] theorem State.mark_dma (p b : Nat) : (s.mark p b).dma = s.dma := rfl
@[simp] theorem State.mark_mo (p b : Nat) : (s.mark p b).mo = s.mo := rfl
@[simp] theorem State.mark_ct (p b : Nat) : (s.mark p b).ct = s.ct := rfl
@[simp] theorem State.mark_sta (p b : Nat) : (s.mark p b).sta = s.sta := rfl
@[simp] theorem State.mark_lg (p b : Nat) : (s.mark p b).lg = s.lg := rfl
@[simp] theorem State.mark_pending (p b : Nat) : (s.mark p b).pending = s.pending := rfl

/-! ### mismatch -/

@[simp] theorem State.mismatch_time (p : Nat) : (s.mismatch p).time = s.time := rfl
@[simp] theorem State.mismatch_free (p : Nat) : (s.mismatch p).free = s.free := rfl
@[simp] theorem State.mismatch_stg (p : Nat) : (s.mismatch p).stg = s.stg := rfl
@[simp] theorem State.mismatch_hold (p : Nat) : (s.mismatch p).hold = s.hold := rfl
@[simp] theorem State.mismatch_mem (p : Nat) : (s.mismatch p).mem = s.mem := rfl
@[simp] theorem State.mismatch_mu (p : Nat) : (s.mismatch p).mu = s.mu := rfl
@[simp] theorem State.mismatch_out (p : Nat) : (s.mismatch p).out = s.out := rfl
@[simp] theorem State.mismatch_faultN (p : Nat) : (s.mismatch p).faultN = s.faultN := rfl
@[simp] theorem State.mismatch_rstN (p : Nat) : (s.mismatch p).rstN = s.rstN := rfl
@[simp] theorem State.mismatch_pfwN (p : Nat) : (s.mismatch p).pfwN = s.pfwN := rfl
@[simp] theorem State.mismatch_fc (p : Nat) : (s.mismatch p).fc = s.fc := rfl
@[simp] theorem State.mismatch_berths (p : Nat) : (s.mismatch p).berths = s.berths := rfl
@[simp] theorem State.mismatch_boot (p : Nat) : (s.mismatch p).boot = s.boot := rfl
@[simp] theorem State.mismatch_seq (p : Nat) : (s.mismatch p).seq = s.seq := rfl
@[simp] theorem State.mismatch_clocks (p : Nat) : (s.mismatch p).clocks = s.clocks := rfl
@[simp] theorem State.mismatch_tl (p : Nat) : (s.mismatch p).tl = s.tl := rfl
@[simp] theorem State.mismatch_quay (p : Nat) : (s.mismatch p).quay = s.quay := rfl
@[simp] theorem State.mismatch_ed (p : Nat) : (s.mismatch p).ed = s.ed := rfl
@[simp] theorem State.mismatch_dma (p : Nat) : (s.mismatch p).dma = s.dma := rfl
@[simp] theorem State.mismatch_mo (p : Nat) : (s.mismatch p).mo = s.mo := rfl
@[simp] theorem State.mismatch_ct (p : Nat) : (s.mismatch p).ct = s.ct := rfl
@[simp] theorem State.mismatch_sta (p : Nat) : (s.mismatch p).sta = s.sta := rfl
@[simp] theorem State.mismatch_lg (p : Nat) : (s.mismatch p).lg = s.lg := rfl
@[simp] theorem State.mismatch_pending (p : Nat) : (s.mismatch p).pending = s.pending := rfl

/-! ### accessBusy -/

@[simp] theorem State.accessBusy_time (p : Nat) : (s.accessBusy p).time = s.time := rfl
@[simp] theorem State.accessBusy_free (p : Nat) : (s.accessBusy p).free = s.free := rfl
@[simp] theorem State.accessBusy_stg (p : Nat) : (s.accessBusy p).stg = s.stg := rfl
@[simp] theorem State.accessBusy_hold (p : Nat) : (s.accessBusy p).hold = s.hold := rfl
@[simp] theorem State.accessBusy_mem (p : Nat) : (s.accessBusy p).mem = s.mem := rfl
@[simp] theorem State.accessBusy_mu (p : Nat) : (s.accessBusy p).mu = s.mu := rfl
@[simp] theorem State.accessBusy_out (p : Nat) : (s.accessBusy p).out = s.out := rfl
@[simp] theorem State.accessBusy_faultN (p : Nat) : (s.accessBusy p).faultN = s.faultN := rfl
@[simp] theorem State.accessBusy_rstN (p : Nat) : (s.accessBusy p).rstN = s.rstN := rfl
@[simp] theorem State.accessBusy_pfwN (p : Nat) : (s.accessBusy p).pfwN = s.pfwN := rfl
@[simp] theorem State.accessBusy_fc (p : Nat) : (s.accessBusy p).fc = s.fc := rfl
@[simp] theorem State.accessBusy_berths (p : Nat) : (s.accessBusy p).berths = s.berths := rfl
@[simp] theorem State.accessBusy_boot (p : Nat) : (s.accessBusy p).boot = s.boot := rfl
@[simp] theorem State.accessBusy_seq (p : Nat) : (s.accessBusy p).seq = s.seq := rfl
@[simp] theorem State.accessBusy_clocks (p : Nat) : (s.accessBusy p).clocks = s.clocks := rfl
@[simp] theorem State.accessBusy_tl (p : Nat) : (s.accessBusy p).tl = s.tl := rfl
@[simp] theorem State.accessBusy_quay (p : Nat) : (s.accessBusy p).quay = s.quay := rfl
@[simp] theorem State.accessBusy_ed (p : Nat) : (s.accessBusy p).ed = s.ed := rfl
@[simp] theorem State.accessBusy_dma (p : Nat) : (s.accessBusy p).dma = s.dma := rfl
@[simp] theorem State.accessBusy_mo (p : Nat) : (s.accessBusy p).mo = s.mo := rfl
@[simp] theorem State.accessBusy_ct (p : Nat) : (s.accessBusy p).ct = s.ct := rfl
@[simp] theorem State.accessBusy_sta (p : Nat) : (s.accessBusy p).sta = s.sta := rfl
@[simp] theorem State.accessBusy_lg (p : Nat) : (s.accessBusy p).lg = s.lg := rfl
@[simp] theorem State.accessBusy_pending (p : Nat) : (s.accessBusy p).pending = s.pending := rfl

/-! ### stByte -/

@[simp] theorem State.stByte_time (a v : Nat) : (s.stByte a v).time = s.time := rfl
@[simp] theorem State.stByte_free (a v : Nat) : (s.stByte a v).free = s.free := rfl
@[simp] theorem State.stByte_regs (a v : Nat) : (s.stByte a v).regs = s.regs := rfl
@[simp] theorem State.stByte_stg (a v : Nat) : (s.stByte a v).stg = s.stg := rfl
@[simp] theorem State.stByte_hold (a v : Nat) : (s.stByte a v).hold = s.hold := rfl
@[simp] theorem State.stByte_fresh (a v : Nat) : (s.stByte a v).fresh = s.fresh := rfl
@[simp] theorem State.stByte_mu (a v : Nat) : (s.stByte a v).mu = s.mu := rfl
@[simp] theorem State.stByte_out (a v : Nat) : (s.stByte a v).out = s.out := rfl
@[simp] theorem State.stByte_faultN (a v : Nat) : (s.stByte a v).faultN = s.faultN := rfl
@[simp] theorem State.stByte_rstN (a v : Nat) : (s.stByte a v).rstN = s.rstN := rfl
@[simp] theorem State.stByte_pfwN (a v : Nat) : (s.stByte a v).pfwN = s.pfwN := rfl
@[simp] theorem State.stByte_fc (a v : Nat) : (s.stByte a v).fc = s.fc := rfl
@[simp] theorem State.stByte_berths (a v : Nat) : (s.stByte a v).berths = s.berths := rfl
@[simp] theorem State.stByte_boot (a v : Nat) : (s.stByte a v).boot = s.boot := rfl
@[simp] theorem State.stByte_seq (a v : Nat) : (s.stByte a v).seq = s.seq := rfl
@[simp] theorem State.stByte_clocks (a v : Nat) : (s.stByte a v).clocks = s.clocks := rfl
@[simp] theorem State.stByte_tl (a v : Nat) : (s.stByte a v).tl = s.tl := rfl
@[simp] theorem State.stByte_quay (a v : Nat) : (s.stByte a v).quay = s.quay := rfl
@[simp] theorem State.stByte_ed (a v : Nat) : (s.stByte a v).ed = s.ed := rfl
@[simp] theorem State.stByte_dma (a v : Nat) : (s.stByte a v).dma = s.dma := rfl
@[simp] theorem State.stByte_mo (a v : Nat) : (s.stByte a v).mo = s.mo := rfl
@[simp] theorem State.stByte_ct (a v : Nat) : (s.stByte a v).ct = s.ct := rfl
@[simp] theorem State.stByte_sta (a v : Nat) : (s.stByte a v).sta = s.sta := rfl
@[simp] theorem State.stByte_lg (a v : Nat) : (s.stByte a v).lg = s.lg := rfl
@[simp] theorem State.stByte_pending (a v : Nat) : (s.stByte a v).pending = s.pending := rfl

/-! ### clearMem -/

@[simp] theorem State.clearMem_time (a n : Nat) : (s.clearMem a n).time = s.time := rfl
@[simp] theorem State.clearMem_free (a n : Nat) : (s.clearMem a n).free = s.free := rfl
@[simp] theorem State.clearMem_regs (a n : Nat) : (s.clearMem a n).regs = s.regs := rfl
@[simp] theorem State.clearMem_stg (a n : Nat) : (s.clearMem a n).stg = s.stg := rfl
@[simp] theorem State.clearMem_hold (a n : Nat) : (s.clearMem a n).hold = s.hold := rfl
@[simp] theorem State.clearMem_fresh (a n : Nat) : (s.clearMem a n).fresh = s.fresh := rfl
@[simp] theorem State.clearMem_mu (a n : Nat) : (s.clearMem a n).mu = s.mu := rfl
@[simp] theorem State.clearMem_out (a n : Nat) : (s.clearMem a n).out = s.out := rfl
@[simp] theorem State.clearMem_faultN (a n : Nat) : (s.clearMem a n).faultN = s.faultN := rfl
@[simp] theorem State.clearMem_rstN (a n : Nat) : (s.clearMem a n).rstN = s.rstN := rfl
@[simp] theorem State.clearMem_pfwN (a n : Nat) : (s.clearMem a n).pfwN = s.pfwN := rfl
@[simp] theorem State.clearMem_fc (a n : Nat) : (s.clearMem a n).fc = s.fc := rfl
@[simp] theorem State.clearMem_berths (a n : Nat) : (s.clearMem a n).berths = s.berths := rfl
@[simp] theorem State.clearMem_boot (a n : Nat) : (s.clearMem a n).boot = s.boot := rfl
@[simp] theorem State.clearMem_seq (a n : Nat) : (s.clearMem a n).seq = s.seq := rfl
@[simp] theorem State.clearMem_clocks (a n : Nat) : (s.clearMem a n).clocks = s.clocks := rfl
@[simp] theorem State.clearMem_tl (a n : Nat) : (s.clearMem a n).tl = s.tl := rfl
@[simp] theorem State.clearMem_quay (a n : Nat) : (s.clearMem a n).quay = s.quay := rfl
@[simp] theorem State.clearMem_ed (a n : Nat) : (s.clearMem a n).ed = s.ed := rfl
@[simp] theorem State.clearMem_dma (a n : Nat) : (s.clearMem a n).dma = s.dma := rfl
@[simp] theorem State.clearMem_mo (a n : Nat) : (s.clearMem a n).mo = s.mo := rfl
@[simp] theorem State.clearMem_ct (a n : Nat) : (s.clearMem a n).ct = s.ct := rfl
@[simp] theorem State.clearMem_sta (a n : Nat) : (s.clearMem a n).sta = s.sta := rfl
@[simp] theorem State.clearMem_lg (a n : Nat) : (s.clearMem a n).lg = s.lg := rfl
@[simp] theorem State.clearMem_pending (a n : Nat) : (s.clearMem a n).pending = s.pending := rfl

/-! ### modTl -/

@[simp] theorem State.modTl_time (f : Timeline → Timeline) : (s.modTl f).time = s.time := rfl
@[simp] theorem State.modTl_free (f : Timeline → Timeline) : (s.modTl f).free = s.free := rfl
@[simp] theorem State.modTl_regs (f : Timeline → Timeline) : (s.modTl f).regs = s.regs := rfl
@[simp] theorem State.modTl_stg (f : Timeline → Timeline) : (s.modTl f).stg = s.stg := rfl
@[simp] theorem State.modTl_hold (f : Timeline → Timeline) : (s.modTl f).hold = s.hold := rfl
@[simp] theorem State.modTl_mem (f : Timeline → Timeline) : (s.modTl f).mem = s.mem := rfl
@[simp] theorem State.modTl_fresh (f : Timeline → Timeline) : (s.modTl f).fresh = s.fresh := rfl
@[simp] theorem State.modTl_mu (f : Timeline → Timeline) : (s.modTl f).mu = s.mu := rfl
@[simp] theorem State.modTl_out (f : Timeline → Timeline) : (s.modTl f).out = s.out := rfl
@[simp] theorem State.modTl_faultN (f : Timeline → Timeline) : (s.modTl f).faultN = s.faultN := rfl
@[simp] theorem State.modTl_rstN (f : Timeline → Timeline) : (s.modTl f).rstN = s.rstN := rfl
@[simp] theorem State.modTl_pfwN (f : Timeline → Timeline) : (s.modTl f).pfwN = s.pfwN := rfl
@[simp] theorem State.modTl_fc (f : Timeline → Timeline) : (s.modTl f).fc = s.fc := rfl
@[simp] theorem State.modTl_berths (f : Timeline → Timeline) : (s.modTl f).berths = s.berths := rfl
@[simp] theorem State.modTl_boot (f : Timeline → Timeline) : (s.modTl f).boot = s.boot := rfl
@[simp] theorem State.modTl_seq (f : Timeline → Timeline) : (s.modTl f).seq = s.seq := rfl
@[simp] theorem State.modTl_clocks (f : Timeline → Timeline) : (s.modTl f).clocks = s.clocks := rfl
@[simp] theorem State.modTl_quay (f : Timeline → Timeline) : (s.modTl f).quay = s.quay := rfl
@[simp] theorem State.modTl_ed (f : Timeline → Timeline) : (s.modTl f).ed = s.ed := rfl
@[simp] theorem State.modTl_dma (f : Timeline → Timeline) : (s.modTl f).dma = s.dma := rfl
@[simp] theorem State.modTl_mo (f : Timeline → Timeline) : (s.modTl f).mo = s.mo := rfl
@[simp] theorem State.modTl_ct (f : Timeline → Timeline) : (s.modTl f).ct = s.ct := rfl
@[simp] theorem State.modTl_sta (f : Timeline → Timeline) : (s.modTl f).sta = s.sta := rfl
@[simp] theorem State.modTl_lg (f : Timeline → Timeline) : (s.modTl f).lg = s.lg := rfl
@[simp] theorem State.modTl_pending (f : Timeline → Timeline) : (s.modTl f).pending = s.pending := rfl

/-! ### modQuay -/

@[simp] theorem State.modQuay_time (f : Quay → Quay) : (s.modQuay f).time = s.time := rfl
@[simp] theorem State.modQuay_free (f : Quay → Quay) : (s.modQuay f).free = s.free := rfl
@[simp] theorem State.modQuay_regs (f : Quay → Quay) : (s.modQuay f).regs = s.regs := rfl
@[simp] theorem State.modQuay_stg (f : Quay → Quay) : (s.modQuay f).stg = s.stg := rfl
@[simp] theorem State.modQuay_hold (f : Quay → Quay) : (s.modQuay f).hold = s.hold := rfl
@[simp] theorem State.modQuay_mem (f : Quay → Quay) : (s.modQuay f).mem = s.mem := rfl
@[simp] theorem State.modQuay_fresh (f : Quay → Quay) : (s.modQuay f).fresh = s.fresh := rfl
@[simp] theorem State.modQuay_mu (f : Quay → Quay) : (s.modQuay f).mu = s.mu := rfl
@[simp] theorem State.modQuay_out (f : Quay → Quay) : (s.modQuay f).out = s.out := rfl
@[simp] theorem State.modQuay_faultN (f : Quay → Quay) : (s.modQuay f).faultN = s.faultN := rfl
@[simp] theorem State.modQuay_rstN (f : Quay → Quay) : (s.modQuay f).rstN = s.rstN := rfl
@[simp] theorem State.modQuay_pfwN (f : Quay → Quay) : (s.modQuay f).pfwN = s.pfwN := rfl
@[simp] theorem State.modQuay_fc (f : Quay → Quay) : (s.modQuay f).fc = s.fc := rfl
@[simp] theorem State.modQuay_berths (f : Quay → Quay) : (s.modQuay f).berths = s.berths := rfl
@[simp] theorem State.modQuay_boot (f : Quay → Quay) : (s.modQuay f).boot = s.boot := rfl
@[simp] theorem State.modQuay_seq (f : Quay → Quay) : (s.modQuay f).seq = s.seq := rfl
@[simp] theorem State.modQuay_clocks (f : Quay → Quay) : (s.modQuay f).clocks = s.clocks := rfl
@[simp] theorem State.modQuay_tl (f : Quay → Quay) : (s.modQuay f).tl = s.tl := rfl
@[simp] theorem State.modQuay_ed (f : Quay → Quay) : (s.modQuay f).ed = s.ed := rfl
@[simp] theorem State.modQuay_dma (f : Quay → Quay) : (s.modQuay f).dma = s.dma := rfl
@[simp] theorem State.modQuay_mo (f : Quay → Quay) : (s.modQuay f).mo = s.mo := rfl
@[simp] theorem State.modQuay_ct (f : Quay → Quay) : (s.modQuay f).ct = s.ct := rfl
@[simp] theorem State.modQuay_sta (f : Quay → Quay) : (s.modQuay f).sta = s.sta := rfl
@[simp] theorem State.modQuay_lg (f : Quay → Quay) : (s.modQuay f).lg = s.lg := rfl
@[simp] theorem State.modQuay_pending (f : Quay → Quay) : (s.modQuay f).pending = s.pending := rfl

/-! ### modMu -/

@[simp] theorem State.modMu_time (f : MemUnit → MemUnit) : (s.modMu f).time = s.time := rfl
@[simp] theorem State.modMu_free (f : MemUnit → MemUnit) : (s.modMu f).free = s.free := rfl
@[simp] theorem State.modMu_regs (f : MemUnit → MemUnit) : (s.modMu f).regs = s.regs := rfl
@[simp] theorem State.modMu_stg (f : MemUnit → MemUnit) : (s.modMu f).stg = s.stg := rfl
@[simp] theorem State.modMu_hold (f : MemUnit → MemUnit) : (s.modMu f).hold = s.hold := rfl
@[simp] theorem State.modMu_mem (f : MemUnit → MemUnit) : (s.modMu f).mem = s.mem := rfl
@[simp] theorem State.modMu_fresh (f : MemUnit → MemUnit) : (s.modMu f).fresh = s.fresh := rfl
@[simp] theorem State.modMu_out (f : MemUnit → MemUnit) : (s.modMu f).out = s.out := rfl
@[simp] theorem State.modMu_faultN (f : MemUnit → MemUnit) : (s.modMu f).faultN = s.faultN := rfl
@[simp] theorem State.modMu_rstN (f : MemUnit → MemUnit) : (s.modMu f).rstN = s.rstN := rfl
@[simp] theorem State.modMu_pfwN (f : MemUnit → MemUnit) : (s.modMu f).pfwN = s.pfwN := rfl
@[simp] theorem State.modMu_fc (f : MemUnit → MemUnit) : (s.modMu f).fc = s.fc := rfl
@[simp] theorem State.modMu_berths (f : MemUnit → MemUnit) : (s.modMu f).berths = s.berths := rfl
@[simp] theorem State.modMu_boot (f : MemUnit → MemUnit) : (s.modMu f).boot = s.boot := rfl
@[simp] theorem State.modMu_seq (f : MemUnit → MemUnit) : (s.modMu f).seq = s.seq := rfl
@[simp] theorem State.modMu_clocks (f : MemUnit → MemUnit) : (s.modMu f).clocks = s.clocks := rfl
@[simp] theorem State.modMu_tl (f : MemUnit → MemUnit) : (s.modMu f).tl = s.tl := rfl
@[simp] theorem State.modMu_quay (f : MemUnit → MemUnit) : (s.modMu f).quay = s.quay := rfl
@[simp] theorem State.modMu_ed (f : MemUnit → MemUnit) : (s.modMu f).ed = s.ed := rfl
@[simp] theorem State.modMu_dma (f : MemUnit → MemUnit) : (s.modMu f).dma = s.dma := rfl
@[simp] theorem State.modMu_mo (f : MemUnit → MemUnit) : (s.modMu f).mo = s.mo := rfl
@[simp] theorem State.modMu_ct (f : MemUnit → MemUnit) : (s.modMu f).ct = s.ct := rfl
@[simp] theorem State.modMu_sta (f : MemUnit → MemUnit) : (s.modMu f).sta = s.sta := rfl
@[simp] theorem State.modMu_lg (f : MemUnit → MemUnit) : (s.modMu f).lg = s.lg := rfl
@[simp] theorem State.modMu_pending (f : MemUnit → MemUnit) : (s.modMu f).pending = s.pending := rfl

/-! ### modSeq -/

@[simp] theorem State.modSeq_time (f : Sequencer → Sequencer) : (s.modSeq f).time = s.time := rfl
@[simp] theorem State.modSeq_free (f : Sequencer → Sequencer) : (s.modSeq f).free = s.free := rfl
@[simp] theorem State.modSeq_regs (f : Sequencer → Sequencer) : (s.modSeq f).regs = s.regs := rfl
@[simp] theorem State.modSeq_stg (f : Sequencer → Sequencer) : (s.modSeq f).stg = s.stg := rfl
@[simp] theorem State.modSeq_hold (f : Sequencer → Sequencer) : (s.modSeq f).hold = s.hold := rfl
@[simp] theorem State.modSeq_mem (f : Sequencer → Sequencer) : (s.modSeq f).mem = s.mem := rfl
@[simp] theorem State.modSeq_fresh (f : Sequencer → Sequencer) : (s.modSeq f).fresh = s.fresh := rfl
@[simp] theorem State.modSeq_mu (f : Sequencer → Sequencer) : (s.modSeq f).mu = s.mu := rfl
@[simp] theorem State.modSeq_out (f : Sequencer → Sequencer) : (s.modSeq f).out = s.out := rfl
@[simp] theorem State.modSeq_faultN (f : Sequencer → Sequencer) : (s.modSeq f).faultN = s.faultN := rfl
@[simp] theorem State.modSeq_rstN (f : Sequencer → Sequencer) : (s.modSeq f).rstN = s.rstN := rfl
@[simp] theorem State.modSeq_pfwN (f : Sequencer → Sequencer) : (s.modSeq f).pfwN = s.pfwN := rfl
@[simp] theorem State.modSeq_fc (f : Sequencer → Sequencer) : (s.modSeq f).fc = s.fc := rfl
@[simp] theorem State.modSeq_berths (f : Sequencer → Sequencer) : (s.modSeq f).berths = s.berths := rfl
@[simp] theorem State.modSeq_boot (f : Sequencer → Sequencer) : (s.modSeq f).boot = s.boot := rfl
@[simp] theorem State.modSeq_clocks (f : Sequencer → Sequencer) : (s.modSeq f).clocks = s.clocks := rfl
@[simp] theorem State.modSeq_tl (f : Sequencer → Sequencer) : (s.modSeq f).tl = s.tl := rfl
@[simp] theorem State.modSeq_quay (f : Sequencer → Sequencer) : (s.modSeq f).quay = s.quay := rfl
@[simp] theorem State.modSeq_ed (f : Sequencer → Sequencer) : (s.modSeq f).ed = s.ed := rfl
@[simp] theorem State.modSeq_dma (f : Sequencer → Sequencer) : (s.modSeq f).dma = s.dma := rfl
@[simp] theorem State.modSeq_mo (f : Sequencer → Sequencer) : (s.modSeq f).mo = s.mo := rfl
@[simp] theorem State.modSeq_ct (f : Sequencer → Sequencer) : (s.modSeq f).ct = s.ct := rfl
@[simp] theorem State.modSeq_sta (f : Sequencer → Sequencer) : (s.modSeq f).sta = s.sta := rfl
@[simp] theorem State.modSeq_lg (f : Sequencer → Sequencer) : (s.modSeq f).lg = s.lg := rfl
@[simp] theorem State.modSeq_pending (f : Sequencer → Sequencer) : (s.modSeq f).pending = s.pending := rfl

/-! ### modClk -/

@[simp] theorem State.modClk_time (f : Clocks → Clocks) : (s.modClk f).time = s.time := rfl
@[simp] theorem State.modClk_free (f : Clocks → Clocks) : (s.modClk f).free = s.free := rfl
@[simp] theorem State.modClk_regs (f : Clocks → Clocks) : (s.modClk f).regs = s.regs := rfl
@[simp] theorem State.modClk_stg (f : Clocks → Clocks) : (s.modClk f).stg = s.stg := rfl
@[simp] theorem State.modClk_hold (f : Clocks → Clocks) : (s.modClk f).hold = s.hold := rfl
@[simp] theorem State.modClk_mem (f : Clocks → Clocks) : (s.modClk f).mem = s.mem := rfl
@[simp] theorem State.modClk_fresh (f : Clocks → Clocks) : (s.modClk f).fresh = s.fresh := rfl
@[simp] theorem State.modClk_mu (f : Clocks → Clocks) : (s.modClk f).mu = s.mu := rfl
@[simp] theorem State.modClk_out (f : Clocks → Clocks) : (s.modClk f).out = s.out := rfl
@[simp] theorem State.modClk_faultN (f : Clocks → Clocks) : (s.modClk f).faultN = s.faultN := rfl
@[simp] theorem State.modClk_rstN (f : Clocks → Clocks) : (s.modClk f).rstN = s.rstN := rfl
@[simp] theorem State.modClk_pfwN (f : Clocks → Clocks) : (s.modClk f).pfwN = s.pfwN := rfl
@[simp] theorem State.modClk_fc (f : Clocks → Clocks) : (s.modClk f).fc = s.fc := rfl
@[simp] theorem State.modClk_berths (f : Clocks → Clocks) : (s.modClk f).berths = s.berths := rfl
@[simp] theorem State.modClk_boot (f : Clocks → Clocks) : (s.modClk f).boot = s.boot := rfl
@[simp] theorem State.modClk_seq (f : Clocks → Clocks) : (s.modClk f).seq = s.seq := rfl
@[simp] theorem State.modClk_tl (f : Clocks → Clocks) : (s.modClk f).tl = s.tl := rfl
@[simp] theorem State.modClk_quay (f : Clocks → Clocks) : (s.modClk f).quay = s.quay := rfl
@[simp] theorem State.modClk_ed (f : Clocks → Clocks) : (s.modClk f).ed = s.ed := rfl
@[simp] theorem State.modClk_dma (f : Clocks → Clocks) : (s.modClk f).dma = s.dma := rfl
@[simp] theorem State.modClk_mo (f : Clocks → Clocks) : (s.modClk f).mo = s.mo := rfl
@[simp] theorem State.modClk_ct (f : Clocks → Clocks) : (s.modClk f).ct = s.ct := rfl
@[simp] theorem State.modClk_sta (f : Clocks → Clocks) : (s.modClk f).sta = s.sta := rfl
@[simp] theorem State.modClk_lg (f : Clocks → Clocks) : (s.modClk f).lg = s.lg := rfl
@[simp] theorem State.modClk_pending (f : Clocks → Clocks) : (s.modClk f).pending = s.pending := rfl

/-! ### modBoot -/

@[simp] theorem State.modBoot_time (f : Boot → Boot) : (s.modBoot f).time = s.time := rfl
@[simp] theorem State.modBoot_free (f : Boot → Boot) : (s.modBoot f).free = s.free := rfl
@[simp] theorem State.modBoot_regs (f : Boot → Boot) : (s.modBoot f).regs = s.regs := rfl
@[simp] theorem State.modBoot_stg (f : Boot → Boot) : (s.modBoot f).stg = s.stg := rfl
@[simp] theorem State.modBoot_hold (f : Boot → Boot) : (s.modBoot f).hold = s.hold := rfl
@[simp] theorem State.modBoot_mem (f : Boot → Boot) : (s.modBoot f).mem = s.mem := rfl
@[simp] theorem State.modBoot_fresh (f : Boot → Boot) : (s.modBoot f).fresh = s.fresh := rfl
@[simp] theorem State.modBoot_mu (f : Boot → Boot) : (s.modBoot f).mu = s.mu := rfl
@[simp] theorem State.modBoot_out (f : Boot → Boot) : (s.modBoot f).out = s.out := rfl
@[simp] theorem State.modBoot_faultN (f : Boot → Boot) : (s.modBoot f).faultN = s.faultN := rfl
@[simp] theorem State.modBoot_rstN (f : Boot → Boot) : (s.modBoot f).rstN = s.rstN := rfl
@[simp] theorem State.modBoot_pfwN (f : Boot → Boot) : (s.modBoot f).pfwN = s.pfwN := rfl
@[simp] theorem State.modBoot_fc (f : Boot → Boot) : (s.modBoot f).fc = s.fc := rfl
@[simp] theorem State.modBoot_berths (f : Boot → Boot) : (s.modBoot f).berths = s.berths := rfl
@[simp] theorem State.modBoot_seq (f : Boot → Boot) : (s.modBoot f).seq = s.seq := rfl
@[simp] theorem State.modBoot_clocks (f : Boot → Boot) : (s.modBoot f).clocks = s.clocks := rfl
@[simp] theorem State.modBoot_tl (f : Boot → Boot) : (s.modBoot f).tl = s.tl := rfl
@[simp] theorem State.modBoot_quay (f : Boot → Boot) : (s.modBoot f).quay = s.quay := rfl
@[simp] theorem State.modBoot_ed (f : Boot → Boot) : (s.modBoot f).ed = s.ed := rfl
@[simp] theorem State.modBoot_dma (f : Boot → Boot) : (s.modBoot f).dma = s.dma := rfl
@[simp] theorem State.modBoot_mo (f : Boot → Boot) : (s.modBoot f).mo = s.mo := rfl
@[simp] theorem State.modBoot_ct (f : Boot → Boot) : (s.modBoot f).ct = s.ct := rfl
@[simp] theorem State.modBoot_sta (f : Boot → Boot) : (s.modBoot f).sta = s.sta := rfl
@[simp] theorem State.modBoot_lg (f : Boot → Boot) : (s.modBoot f).lg = s.lg := rfl
@[simp] theorem State.modBoot_pending (f : Boot → Boot) : (s.modBoot f).pending = s.pending := rfl

/-! ### modChan -/

@[simp] theorem State.modChan_time (n : Fin 32) (f : Chan → Chan) : (s.modChan n f).time = s.time := rfl
@[simp] theorem State.modChan_free (n : Fin 32) (f : Chan → Chan) : (s.modChan n f).free = s.free := rfl
@[simp] theorem State.modChan_regs (n : Fin 32) (f : Chan → Chan) : (s.modChan n f).regs = s.regs := rfl
@[simp] theorem State.modChan_stg (n : Fin 32) (f : Chan → Chan) : (s.modChan n f).stg = s.stg := rfl
@[simp] theorem State.modChan_hold (n : Fin 32) (f : Chan → Chan) : (s.modChan n f).hold = s.hold := rfl
@[simp] theorem State.modChan_mem (n : Fin 32) (f : Chan → Chan) : (s.modChan n f).mem = s.mem := rfl
@[simp] theorem State.modChan_fresh (n : Fin 32) (f : Chan → Chan) : (s.modChan n f).fresh = s.fresh := rfl
@[simp] theorem State.modChan_mu (n : Fin 32) (f : Chan → Chan) : (s.modChan n f).mu = s.mu := rfl
@[simp] theorem State.modChan_out (n : Fin 32) (f : Chan → Chan) : (s.modChan n f).out = s.out := rfl
@[simp] theorem State.modChan_faultN (n : Fin 32) (f : Chan → Chan) : (s.modChan n f).faultN = s.faultN := rfl
@[simp] theorem State.modChan_rstN (n : Fin 32) (f : Chan → Chan) : (s.modChan n f).rstN = s.rstN := rfl
@[simp] theorem State.modChan_pfwN (n : Fin 32) (f : Chan → Chan) : (s.modChan n f).pfwN = s.pfwN := rfl
@[simp] theorem State.modChan_fc (n : Fin 32) (f : Chan → Chan) : (s.modChan n f).fc = s.fc := rfl
@[simp] theorem State.modChan_berths (n : Fin 32) (f : Chan → Chan) : (s.modChan n f).berths = s.berths := rfl
@[simp] theorem State.modChan_boot (n : Fin 32) (f : Chan → Chan) : (s.modChan n f).boot = s.boot := rfl
@[simp] theorem State.modChan_seq (n : Fin 32) (f : Chan → Chan) : (s.modChan n f).seq = s.seq := rfl
@[simp] theorem State.modChan_clocks (n : Fin 32) (f : Chan → Chan) : (s.modChan n f).clocks = s.clocks := rfl
@[simp] theorem State.modChan_tl (n : Fin 32) (f : Chan → Chan) : (s.modChan n f).tl = s.tl := rfl
@[simp] theorem State.modChan_quay (n : Fin 32) (f : Chan → Chan) : (s.modChan n f).quay = s.quay := rfl
@[simp] theorem State.modChan_ed (n : Fin 32) (f : Chan → Chan) : (s.modChan n f).ed = s.ed := rfl
@[simp] theorem State.modChan_mo (n : Fin 32) (f : Chan → Chan) : (s.modChan n f).mo = s.mo := rfl
@[simp] theorem State.modChan_ct (n : Fin 32) (f : Chan → Chan) : (s.modChan n f).ct = s.ct := rfl
@[simp] theorem State.modChan_sta (n : Fin 32) (f : Chan → Chan) : (s.modChan n f).sta = s.sta := rfl
@[simp] theorem State.modChan_lg (n : Fin 32) (f : Chan → Chan) : (s.modChan n f).lg = s.lg := rfl
@[simp] theorem State.modChan_pending (n : Fin 32) (f : Chan → Chan) : (s.modChan n f).pending = s.pending := rfl

/-! ### modSta -/

@[simp] theorem State.modSta_time (f : Stations → Stations) : (s.modSta f).time = s.time := rfl
@[simp] theorem State.modSta_free (f : Stations → Stations) : (s.modSta f).free = s.free := rfl
@[simp] theorem State.modSta_regs (f : Stations → Stations) : (s.modSta f).regs = s.regs := rfl
@[simp] theorem State.modSta_stg (f : Stations → Stations) : (s.modSta f).stg = s.stg := rfl
@[simp] theorem State.modSta_hold (f : Stations → Stations) : (s.modSta f).hold = s.hold := rfl
@[simp] theorem State.modSta_mem (f : Stations → Stations) : (s.modSta f).mem = s.mem := rfl
@[simp] theorem State.modSta_fresh (f : Stations → Stations) : (s.modSta f).fresh = s.fresh := rfl
@[simp] theorem State.modSta_mu (f : Stations → Stations) : (s.modSta f).mu = s.mu := rfl
@[simp] theorem State.modSta_out (f : Stations → Stations) : (s.modSta f).out = s.out := rfl
@[simp] theorem State.modSta_faultN (f : Stations → Stations) : (s.modSta f).faultN = s.faultN := rfl
@[simp] theorem State.modSta_rstN (f : Stations → Stations) : (s.modSta f).rstN = s.rstN := rfl
@[simp] theorem State.modSta_pfwN (f : Stations → Stations) : (s.modSta f).pfwN = s.pfwN := rfl
@[simp] theorem State.modSta_fc (f : Stations → Stations) : (s.modSta f).fc = s.fc := rfl
@[simp] theorem State.modSta_berths (f : Stations → Stations) : (s.modSta f).berths = s.berths := rfl
@[simp] theorem State.modSta_boot (f : Stations → Stations) : (s.modSta f).boot = s.boot := rfl
@[simp] theorem State.modSta_seq (f : Stations → Stations) : (s.modSta f).seq = s.seq := rfl
@[simp] theorem State.modSta_clocks (f : Stations → Stations) : (s.modSta f).clocks = s.clocks := rfl
@[simp] theorem State.modSta_tl (f : Stations → Stations) : (s.modSta f).tl = s.tl := rfl
@[simp] theorem State.modSta_quay (f : Stations → Stations) : (s.modSta f).quay = s.quay := rfl
@[simp] theorem State.modSta_ed (f : Stations → Stations) : (s.modSta f).ed = s.ed := rfl
@[simp] theorem State.modSta_dma (f : Stations → Stations) : (s.modSta f).dma = s.dma := rfl
@[simp] theorem State.modSta_mo (f : Stations → Stations) : (s.modSta f).mo = s.mo := rfl
@[simp] theorem State.modSta_ct (f : Stations → Stations) : (s.modSta f).ct = s.ct := rfl
@[simp] theorem State.modSta_lg (f : Stations → Stations) : (s.modSta f).lg = s.lg := rfl
@[simp] theorem State.modSta_pending (f : Stations → Stations) : (s.modSta f).pending = s.pending := rfl

/-! ### modLg -/

@[simp] theorem State.modLg_time (f : Legacy → Legacy) : (s.modLg f).time = s.time := rfl
@[simp] theorem State.modLg_free (f : Legacy → Legacy) : (s.modLg f).free = s.free := rfl
@[simp] theorem State.modLg_regs (f : Legacy → Legacy) : (s.modLg f).regs = s.regs := rfl
@[simp] theorem State.modLg_stg (f : Legacy → Legacy) : (s.modLg f).stg = s.stg := rfl
@[simp] theorem State.modLg_hold (f : Legacy → Legacy) : (s.modLg f).hold = s.hold := rfl
@[simp] theorem State.modLg_mem (f : Legacy → Legacy) : (s.modLg f).mem = s.mem := rfl
@[simp] theorem State.modLg_fresh (f : Legacy → Legacy) : (s.modLg f).fresh = s.fresh := rfl
@[simp] theorem State.modLg_mu (f : Legacy → Legacy) : (s.modLg f).mu = s.mu := rfl
@[simp] theorem State.modLg_out (f : Legacy → Legacy) : (s.modLg f).out = s.out := rfl
@[simp] theorem State.modLg_faultN (f : Legacy → Legacy) : (s.modLg f).faultN = s.faultN := rfl
@[simp] theorem State.modLg_rstN (f : Legacy → Legacy) : (s.modLg f).rstN = s.rstN := rfl
@[simp] theorem State.modLg_pfwN (f : Legacy → Legacy) : (s.modLg f).pfwN = s.pfwN := rfl
@[simp] theorem State.modLg_fc (f : Legacy → Legacy) : (s.modLg f).fc = s.fc := rfl
@[simp] theorem State.modLg_berths (f : Legacy → Legacy) : (s.modLg f).berths = s.berths := rfl
@[simp] theorem State.modLg_boot (f : Legacy → Legacy) : (s.modLg f).boot = s.boot := rfl
@[simp] theorem State.modLg_seq (f : Legacy → Legacy) : (s.modLg f).seq = s.seq := rfl
@[simp] theorem State.modLg_clocks (f : Legacy → Legacy) : (s.modLg f).clocks = s.clocks := rfl
@[simp] theorem State.modLg_tl (f : Legacy → Legacy) : (s.modLg f).tl = s.tl := rfl
@[simp] theorem State.modLg_quay (f : Legacy → Legacy) : (s.modLg f).quay = s.quay := rfl
@[simp] theorem State.modLg_ed (f : Legacy → Legacy) : (s.modLg f).ed = s.ed := rfl
@[simp] theorem State.modLg_dma (f : Legacy → Legacy) : (s.modLg f).dma = s.dma := rfl
@[simp] theorem State.modLg_mo (f : Legacy → Legacy) : (s.modLg f).mo = s.mo := rfl
@[simp] theorem State.modLg_ct (f : Legacy → Legacy) : (s.modLg f).ct = s.ct := rfl
@[simp] theorem State.modLg_sta (f : Legacy → Legacy) : (s.modLg f).sta = s.sta := rfl
@[simp] theorem State.modLg_pending (f : Legacy → Legacy) : (s.modLg f).pending = s.pending := rfl

/-! ### modStp -/

@[simp] theorem State.modStp_time (n : Fin 16) (f : Stepper → Stepper) : (s.modStp n f).time = s.time := rfl
@[simp] theorem State.modStp_free (n : Fin 16) (f : Stepper → Stepper) : (s.modStp n f).free = s.free := rfl
@[simp] theorem State.modStp_regs (n : Fin 16) (f : Stepper → Stepper) : (s.modStp n f).regs = s.regs := rfl
@[simp] theorem State.modStp_stg (n : Fin 16) (f : Stepper → Stepper) : (s.modStp n f).stg = s.stg := rfl
@[simp] theorem State.modStp_hold (n : Fin 16) (f : Stepper → Stepper) : (s.modStp n f).hold = s.hold := rfl
@[simp] theorem State.modStp_mem (n : Fin 16) (f : Stepper → Stepper) : (s.modStp n f).mem = s.mem := rfl
@[simp] theorem State.modStp_fresh (n : Fin 16) (f : Stepper → Stepper) : (s.modStp n f).fresh = s.fresh := rfl
@[simp] theorem State.modStp_mu (n : Fin 16) (f : Stepper → Stepper) : (s.modStp n f).mu = s.mu := rfl
@[simp] theorem State.modStp_out (n : Fin 16) (f : Stepper → Stepper) : (s.modStp n f).out = s.out := rfl
@[simp] theorem State.modStp_faultN (n : Fin 16) (f : Stepper → Stepper) : (s.modStp n f).faultN = s.faultN := rfl
@[simp] theorem State.modStp_rstN (n : Fin 16) (f : Stepper → Stepper) : (s.modStp n f).rstN = s.rstN := rfl
@[simp] theorem State.modStp_pfwN (n : Fin 16) (f : Stepper → Stepper) : (s.modStp n f).pfwN = s.pfwN := rfl
@[simp] theorem State.modStp_fc (n : Fin 16) (f : Stepper → Stepper) : (s.modStp n f).fc = s.fc := rfl
@[simp] theorem State.modStp_berths (n : Fin 16) (f : Stepper → Stepper) : (s.modStp n f).berths = s.berths := rfl
@[simp] theorem State.modStp_boot (n : Fin 16) (f : Stepper → Stepper) : (s.modStp n f).boot = s.boot := rfl
@[simp] theorem State.modStp_seq (n : Fin 16) (f : Stepper → Stepper) : (s.modStp n f).seq = s.seq := rfl
@[simp] theorem State.modStp_clocks (n : Fin 16) (f : Stepper → Stepper) : (s.modStp n f).clocks = s.clocks := rfl
@[simp] theorem State.modStp_tl (n : Fin 16) (f : Stepper → Stepper) : (s.modStp n f).tl = s.tl := rfl
@[simp] theorem State.modStp_quay (n : Fin 16) (f : Stepper → Stepper) : (s.modStp n f).quay = s.quay := rfl
@[simp] theorem State.modStp_ed (n : Fin 16) (f : Stepper → Stepper) : (s.modStp n f).ed = s.ed := rfl
@[simp] theorem State.modStp_dma (n : Fin 16) (f : Stepper → Stepper) : (s.modStp n f).dma = s.dma := rfl
@[simp] theorem State.modStp_ct (n : Fin 16) (f : Stepper → Stepper) : (s.modStp n f).ct = s.ct := rfl
@[simp] theorem State.modStp_sta (n : Fin 16) (f : Stepper → Stepper) : (s.modStp n f).sta = s.sta := rfl
@[simp] theorem State.modStp_lg (n : Fin 16) (f : Stepper → Stepper) : (s.modStp n f).lg = s.lg := rfl
@[simp] theorem State.modStp_pending (n : Fin 16) (f : Stepper → Stepper) : (s.modStp n f).pending = s.pending := rfl

/-! ### modSensor -/

@[simp] theorem State.modSensor_time (i : Fin 64) (f : Sensor → Sensor) : (s.modSensor i f).time = s.time := rfl
@[simp] theorem State.modSensor_free (i : Fin 64) (f : Sensor → Sensor) : (s.modSensor i f).free = s.free := rfl
@[simp] theorem State.modSensor_regs (i : Fin 64) (f : Sensor → Sensor) : (s.modSensor i f).regs = s.regs := rfl
@[simp] theorem State.modSensor_stg (i : Fin 64) (f : Sensor → Sensor) : (s.modSensor i f).stg = s.stg := rfl
@[simp] theorem State.modSensor_hold (i : Fin 64) (f : Sensor → Sensor) : (s.modSensor i f).hold = s.hold := rfl
@[simp] theorem State.modSensor_mem (i : Fin 64) (f : Sensor → Sensor) : (s.modSensor i f).mem = s.mem := rfl
@[simp] theorem State.modSensor_fresh (i : Fin 64) (f : Sensor → Sensor) : (s.modSensor i f).fresh = s.fresh := rfl
@[simp] theorem State.modSensor_mu (i : Fin 64) (f : Sensor → Sensor) : (s.modSensor i f).mu = s.mu := rfl
@[simp] theorem State.modSensor_out (i : Fin 64) (f : Sensor → Sensor) : (s.modSensor i f).out = s.out := rfl
@[simp] theorem State.modSensor_faultN (i : Fin 64) (f : Sensor → Sensor) : (s.modSensor i f).faultN = s.faultN := rfl
@[simp] theorem State.modSensor_rstN (i : Fin 64) (f : Sensor → Sensor) : (s.modSensor i f).rstN = s.rstN := rfl
@[simp] theorem State.modSensor_pfwN (i : Fin 64) (f : Sensor → Sensor) : (s.modSensor i f).pfwN = s.pfwN := rfl
@[simp] theorem State.modSensor_fc (i : Fin 64) (f : Sensor → Sensor) : (s.modSensor i f).fc = s.fc := rfl
@[simp] theorem State.modSensor_berths (i : Fin 64) (f : Sensor → Sensor) : (s.modSensor i f).berths = s.berths := rfl
@[simp] theorem State.modSensor_boot (i : Fin 64) (f : Sensor → Sensor) : (s.modSensor i f).boot = s.boot := rfl
@[simp] theorem State.modSensor_seq (i : Fin 64) (f : Sensor → Sensor) : (s.modSensor i f).seq = s.seq := rfl
@[simp] theorem State.modSensor_clocks (i : Fin 64) (f : Sensor → Sensor) : (s.modSensor i f).clocks = s.clocks := rfl
@[simp] theorem State.modSensor_tl (i : Fin 64) (f : Sensor → Sensor) : (s.modSensor i f).tl = s.tl := rfl
@[simp] theorem State.modSensor_quay (i : Fin 64) (f : Sensor → Sensor) : (s.modSensor i f).quay = s.quay := rfl
@[simp] theorem State.modSensor_ed (i : Fin 64) (f : Sensor → Sensor) : (s.modSensor i f).ed = s.ed := rfl
@[simp] theorem State.modSensor_dma (i : Fin 64) (f : Sensor → Sensor) : (s.modSensor i f).dma = s.dma := rfl
@[simp] theorem State.modSensor_ct (i : Fin 64) (f : Sensor → Sensor) : (s.modSensor i f).ct = s.ct := rfl
@[simp] theorem State.modSensor_sta (i : Fin 64) (f : Sensor → Sensor) : (s.modSensor i f).sta = s.sta := rfl
@[simp] theorem State.modSensor_lg (i : Fin 64) (f : Sensor → Sensor) : (s.modSensor i f).lg = s.lg := rfl
@[simp] theorem State.modSensor_pending (i : Fin 64) (f : Sensor → Sensor) : (s.modSensor i f).pending = s.pending := rfl

/-! ### modEnc -/

@[simp] theorem State.modEnc_time (e : Fin 8) (f : Encoder → Encoder) : (s.modEnc e f).time = s.time := rfl
@[simp] theorem State.modEnc_free (e : Fin 8) (f : Encoder → Encoder) : (s.modEnc e f).free = s.free := rfl
@[simp] theorem State.modEnc_regs (e : Fin 8) (f : Encoder → Encoder) : (s.modEnc e f).regs = s.regs := rfl
@[simp] theorem State.modEnc_stg (e : Fin 8) (f : Encoder → Encoder) : (s.modEnc e f).stg = s.stg := rfl
@[simp] theorem State.modEnc_hold (e : Fin 8) (f : Encoder → Encoder) : (s.modEnc e f).hold = s.hold := rfl
@[simp] theorem State.modEnc_mem (e : Fin 8) (f : Encoder → Encoder) : (s.modEnc e f).mem = s.mem := rfl
@[simp] theorem State.modEnc_fresh (e : Fin 8) (f : Encoder → Encoder) : (s.modEnc e f).fresh = s.fresh := rfl
@[simp] theorem State.modEnc_mu (e : Fin 8) (f : Encoder → Encoder) : (s.modEnc e f).mu = s.mu := rfl
@[simp] theorem State.modEnc_out (e : Fin 8) (f : Encoder → Encoder) : (s.modEnc e f).out = s.out := rfl
@[simp] theorem State.modEnc_faultN (e : Fin 8) (f : Encoder → Encoder) : (s.modEnc e f).faultN = s.faultN := rfl
@[simp] theorem State.modEnc_rstN (e : Fin 8) (f : Encoder → Encoder) : (s.modEnc e f).rstN = s.rstN := rfl
@[simp] theorem State.modEnc_pfwN (e : Fin 8) (f : Encoder → Encoder) : (s.modEnc e f).pfwN = s.pfwN := rfl
@[simp] theorem State.modEnc_fc (e : Fin 8) (f : Encoder → Encoder) : (s.modEnc e f).fc = s.fc := rfl
@[simp] theorem State.modEnc_berths (e : Fin 8) (f : Encoder → Encoder) : (s.modEnc e f).berths = s.berths := rfl
@[simp] theorem State.modEnc_boot (e : Fin 8) (f : Encoder → Encoder) : (s.modEnc e f).boot = s.boot := rfl
@[simp] theorem State.modEnc_seq (e : Fin 8) (f : Encoder → Encoder) : (s.modEnc e f).seq = s.seq := rfl
@[simp] theorem State.modEnc_clocks (e : Fin 8) (f : Encoder → Encoder) : (s.modEnc e f).clocks = s.clocks := rfl
@[simp] theorem State.modEnc_tl (e : Fin 8) (f : Encoder → Encoder) : (s.modEnc e f).tl = s.tl := rfl
@[simp] theorem State.modEnc_quay (e : Fin 8) (f : Encoder → Encoder) : (s.modEnc e f).quay = s.quay := rfl
@[simp] theorem State.modEnc_ed (e : Fin 8) (f : Encoder → Encoder) : (s.modEnc e f).ed = s.ed := rfl
@[simp] theorem State.modEnc_dma (e : Fin 8) (f : Encoder → Encoder) : (s.modEnc e f).dma = s.dma := rfl
@[simp] theorem State.modEnc_ct (e : Fin 8) (f : Encoder → Encoder) : (s.modEnc e f).ct = s.ct := rfl
@[simp] theorem State.modEnc_sta (e : Fin 8) (f : Encoder → Encoder) : (s.modEnc e f).sta = s.sta := rfl
@[simp] theorem State.modEnc_lg (e : Fin 8) (f : Encoder → Encoder) : (s.modEnc e f).lg = s.lg := rfl
@[simp] theorem State.modEnc_pending (e : Fin 8) (f : Encoder → Encoder) : (s.modEnc e f).pending = s.pending := rfl

/-! ### modMotor -/

@[simp] theorem State.modMotor_time (n : Fin 12) (f : Motor → Motor) : (s.modMotor n f).time = s.time := rfl
@[simp] theorem State.modMotor_free (n : Fin 12) (f : Motor → Motor) : (s.modMotor n f).free = s.free := rfl
@[simp] theorem State.modMotor_regs (n : Fin 12) (f : Motor → Motor) : (s.modMotor n f).regs = s.regs := rfl
@[simp] theorem State.modMotor_stg (n : Fin 12) (f : Motor → Motor) : (s.modMotor n f).stg = s.stg := rfl
@[simp] theorem State.modMotor_hold (n : Fin 12) (f : Motor → Motor) : (s.modMotor n f).hold = s.hold := rfl
@[simp] theorem State.modMotor_mem (n : Fin 12) (f : Motor → Motor) : (s.modMotor n f).mem = s.mem := rfl
@[simp] theorem State.modMotor_fresh (n : Fin 12) (f : Motor → Motor) : (s.modMotor n f).fresh = s.fresh := rfl
@[simp] theorem State.modMotor_mu (n : Fin 12) (f : Motor → Motor) : (s.modMotor n f).mu = s.mu := rfl
@[simp] theorem State.modMotor_out (n : Fin 12) (f : Motor → Motor) : (s.modMotor n f).out = s.out := rfl
@[simp] theorem State.modMotor_faultN (n : Fin 12) (f : Motor → Motor) : (s.modMotor n f).faultN = s.faultN := rfl
@[simp] theorem State.modMotor_rstN (n : Fin 12) (f : Motor → Motor) : (s.modMotor n f).rstN = s.rstN := rfl
@[simp] theorem State.modMotor_pfwN (n : Fin 12) (f : Motor → Motor) : (s.modMotor n f).pfwN = s.pfwN := rfl
@[simp] theorem State.modMotor_fc (n : Fin 12) (f : Motor → Motor) : (s.modMotor n f).fc = s.fc := rfl
@[simp] theorem State.modMotor_berths (n : Fin 12) (f : Motor → Motor) : (s.modMotor n f).berths = s.berths := rfl
@[simp] theorem State.modMotor_boot (n : Fin 12) (f : Motor → Motor) : (s.modMotor n f).boot = s.boot := rfl
@[simp] theorem State.modMotor_seq (n : Fin 12) (f : Motor → Motor) : (s.modMotor n f).seq = s.seq := rfl
@[simp] theorem State.modMotor_clocks (n : Fin 12) (f : Motor → Motor) : (s.modMotor n f).clocks = s.clocks := rfl
@[simp] theorem State.modMotor_tl (n : Fin 12) (f : Motor → Motor) : (s.modMotor n f).tl = s.tl := rfl
@[simp] theorem State.modMotor_quay (n : Fin 12) (f : Motor → Motor) : (s.modMotor n f).quay = s.quay := rfl
@[simp] theorem State.modMotor_ed (n : Fin 12) (f : Motor → Motor) : (s.modMotor n f).ed = s.ed := rfl
@[simp] theorem State.modMotor_dma (n : Fin 12) (f : Motor → Motor) : (s.modMotor n f).dma = s.dma := rfl
@[simp] theorem State.modMotor_mo (n : Fin 12) (f : Motor → Motor) : (s.modMotor n f).mo = s.mo := rfl
@[simp] theorem State.modMotor_sta (n : Fin 12) (f : Motor → Motor) : (s.modMotor n f).sta = s.sta := rfl
@[simp] theorem State.modMotor_lg (n : Fin 12) (f : Motor → Motor) : (s.modMotor n f).lg = s.lg := rfl
@[simp] theorem State.modMotor_pending (n : Fin 12) (f : Motor → Motor) : (s.modMotor n f).pending = s.pending := rfl

/-! ### modGroup -/

@[simp] theorem State.modGroup_time (g : Fin 2) (f : BusGroup → BusGroup) : (s.modGroup g f).time = s.time := rfl
@[simp] theorem State.modGroup_free (g : Fin 2) (f : BusGroup → BusGroup) : (s.modGroup g f).free = s.free := rfl
@[simp] theorem State.modGroup_regs (g : Fin 2) (f : BusGroup → BusGroup) : (s.modGroup g f).regs = s.regs := rfl
@[simp] theorem State.modGroup_stg (g : Fin 2) (f : BusGroup → BusGroup) : (s.modGroup g f).stg = s.stg := rfl
@[simp] theorem State.modGroup_hold (g : Fin 2) (f : BusGroup → BusGroup) : (s.modGroup g f).hold = s.hold := rfl
@[simp] theorem State.modGroup_mem (g : Fin 2) (f : BusGroup → BusGroup) : (s.modGroup g f).mem = s.mem := rfl
@[simp] theorem State.modGroup_fresh (g : Fin 2) (f : BusGroup → BusGroup) : (s.modGroup g f).fresh = s.fresh := rfl
@[simp] theorem State.modGroup_mu (g : Fin 2) (f : BusGroup → BusGroup) : (s.modGroup g f).mu = s.mu := rfl
@[simp] theorem State.modGroup_out (g : Fin 2) (f : BusGroup → BusGroup) : (s.modGroup g f).out = s.out := rfl
@[simp] theorem State.modGroup_faultN (g : Fin 2) (f : BusGroup → BusGroup) : (s.modGroup g f).faultN = s.faultN := rfl
@[simp] theorem State.modGroup_rstN (g : Fin 2) (f : BusGroup → BusGroup) : (s.modGroup g f).rstN = s.rstN := rfl
@[simp] theorem State.modGroup_pfwN (g : Fin 2) (f : BusGroup → BusGroup) : (s.modGroup g f).pfwN = s.pfwN := rfl
@[simp] theorem State.modGroup_fc (g : Fin 2) (f : BusGroup → BusGroup) : (s.modGroup g f).fc = s.fc := rfl
@[simp] theorem State.modGroup_berths (g : Fin 2) (f : BusGroup → BusGroup) : (s.modGroup g f).berths = s.berths := rfl
@[simp] theorem State.modGroup_boot (g : Fin 2) (f : BusGroup → BusGroup) : (s.modGroup g f).boot = s.boot := rfl
@[simp] theorem State.modGroup_seq (g : Fin 2) (f : BusGroup → BusGroup) : (s.modGroup g f).seq = s.seq := rfl
@[simp] theorem State.modGroup_clocks (g : Fin 2) (f : BusGroup → BusGroup) : (s.modGroup g f).clocks = s.clocks := rfl
@[simp] theorem State.modGroup_tl (g : Fin 2) (f : BusGroup → BusGroup) : (s.modGroup g f).tl = s.tl := rfl
@[simp] theorem State.modGroup_quay (g : Fin 2) (f : BusGroup → BusGroup) : (s.modGroup g f).quay = s.quay := rfl
@[simp] theorem State.modGroup_ed (g : Fin 2) (f : BusGroup → BusGroup) : (s.modGroup g f).ed = s.ed := rfl
@[simp] theorem State.modGroup_dma (g : Fin 2) (f : BusGroup → BusGroup) : (s.modGroup g f).dma = s.dma := rfl
@[simp] theorem State.modGroup_mo (g : Fin 2) (f : BusGroup → BusGroup) : (s.modGroup g f).mo = s.mo := rfl
@[simp] theorem State.modGroup_sta (g : Fin 2) (f : BusGroup → BusGroup) : (s.modGroup g f).sta = s.sta := rfl
@[simp] theorem State.modGroup_lg (g : Fin 2) (f : BusGroup → BusGroup) : (s.modGroup g f).lg = s.lg := rfl
@[simp] theorem State.modGroup_pending (g : Fin 2) (f : BusGroup → BusGroup) : (s.modGroup g f).pending = s.pending := rfl

/-! ### modLoop -/

@[simp] theorem State.modLoop_time (e : Fin 4) (i : Fin 32) (f : LoopSlot → LoopSlot) : (s.modLoop e i f).time = s.time := rfl
@[simp] theorem State.modLoop_free (e : Fin 4) (i : Fin 32) (f : LoopSlot → LoopSlot) : (s.modLoop e i f).free = s.free := rfl
@[simp] theorem State.modLoop_regs (e : Fin 4) (i : Fin 32) (f : LoopSlot → LoopSlot) : (s.modLoop e i f).regs = s.regs := rfl
@[simp] theorem State.modLoop_stg (e : Fin 4) (i : Fin 32) (f : LoopSlot → LoopSlot) : (s.modLoop e i f).stg = s.stg := rfl
@[simp] theorem State.modLoop_hold (e : Fin 4) (i : Fin 32) (f : LoopSlot → LoopSlot) : (s.modLoop e i f).hold = s.hold := rfl
@[simp] theorem State.modLoop_mem (e : Fin 4) (i : Fin 32) (f : LoopSlot → LoopSlot) : (s.modLoop e i f).mem = s.mem := rfl
@[simp] theorem State.modLoop_fresh (e : Fin 4) (i : Fin 32) (f : LoopSlot → LoopSlot) : (s.modLoop e i f).fresh = s.fresh := rfl
@[simp] theorem State.modLoop_mu (e : Fin 4) (i : Fin 32) (f : LoopSlot → LoopSlot) : (s.modLoop e i f).mu = s.mu := rfl
@[simp] theorem State.modLoop_out (e : Fin 4) (i : Fin 32) (f : LoopSlot → LoopSlot) : (s.modLoop e i f).out = s.out := rfl
@[simp] theorem State.modLoop_faultN (e : Fin 4) (i : Fin 32) (f : LoopSlot → LoopSlot) : (s.modLoop e i f).faultN = s.faultN := rfl
@[simp] theorem State.modLoop_rstN (e : Fin 4) (i : Fin 32) (f : LoopSlot → LoopSlot) : (s.modLoop e i f).rstN = s.rstN := rfl
@[simp] theorem State.modLoop_pfwN (e : Fin 4) (i : Fin 32) (f : LoopSlot → LoopSlot) : (s.modLoop e i f).pfwN = s.pfwN := rfl
@[simp] theorem State.modLoop_fc (e : Fin 4) (i : Fin 32) (f : LoopSlot → LoopSlot) : (s.modLoop e i f).fc = s.fc := rfl
@[simp] theorem State.modLoop_berths (e : Fin 4) (i : Fin 32) (f : LoopSlot → LoopSlot) : (s.modLoop e i f).berths = s.berths := rfl
@[simp] theorem State.modLoop_boot (e : Fin 4) (i : Fin 32) (f : LoopSlot → LoopSlot) : (s.modLoop e i f).boot = s.boot := rfl
@[simp] theorem State.modLoop_seq (e : Fin 4) (i : Fin 32) (f : LoopSlot → LoopSlot) : (s.modLoop e i f).seq = s.seq := rfl
@[simp] theorem State.modLoop_clocks (e : Fin 4) (i : Fin 32) (f : LoopSlot → LoopSlot) : (s.modLoop e i f).clocks = s.clocks := rfl
@[simp] theorem State.modLoop_tl (e : Fin 4) (i : Fin 32) (f : LoopSlot → LoopSlot) : (s.modLoop e i f).tl = s.tl := rfl
@[simp] theorem State.modLoop_quay (e : Fin 4) (i : Fin 32) (f : LoopSlot → LoopSlot) : (s.modLoop e i f).quay = s.quay := rfl
@[simp] theorem State.modLoop_ed (e : Fin 4) (i : Fin 32) (f : LoopSlot → LoopSlot) : (s.modLoop e i f).ed = s.ed := rfl
@[simp] theorem State.modLoop_dma (e : Fin 4) (i : Fin 32) (f : LoopSlot → LoopSlot) : (s.modLoop e i f).dma = s.dma := rfl
@[simp] theorem State.modLoop_mo (e : Fin 4) (i : Fin 32) (f : LoopSlot → LoopSlot) : (s.modLoop e i f).mo = s.mo := rfl
@[simp] theorem State.modLoop_sta (e : Fin 4) (i : Fin 32) (f : LoopSlot → LoopSlot) : (s.modLoop e i f).sta = s.sta := rfl
@[simp] theorem State.modLoop_lg (e : Fin 4) (i : Fin 32) (f : LoopSlot → LoopSlot) : (s.modLoop e i f).lg = s.lg := rfl
@[simp] theorem State.modLoop_pending (e : Fin 4) (i : Fin 32) (f : LoopSlot → LoopSlot) : (s.modLoop e i f).pending = s.pending := rfl

/-! ### modAdc -/

@[simp] theorem State.modAdc_time (c : Fin 4) (f : AdcConv → AdcConv) : (s.modAdc c f).time = s.time := rfl
@[simp] theorem State.modAdc_free (c : Fin 4) (f : AdcConv → AdcConv) : (s.modAdc c f).free = s.free := rfl
@[simp] theorem State.modAdc_regs (c : Fin 4) (f : AdcConv → AdcConv) : (s.modAdc c f).regs = s.regs := rfl
@[simp] theorem State.modAdc_stg (c : Fin 4) (f : AdcConv → AdcConv) : (s.modAdc c f).stg = s.stg := rfl
@[simp] theorem State.modAdc_hold (c : Fin 4) (f : AdcConv → AdcConv) : (s.modAdc c f).hold = s.hold := rfl
@[simp] theorem State.modAdc_mem (c : Fin 4) (f : AdcConv → AdcConv) : (s.modAdc c f).mem = s.mem := rfl
@[simp] theorem State.modAdc_fresh (c : Fin 4) (f : AdcConv → AdcConv) : (s.modAdc c f).fresh = s.fresh := rfl
@[simp] theorem State.modAdc_mu (c : Fin 4) (f : AdcConv → AdcConv) : (s.modAdc c f).mu = s.mu := rfl
@[simp] theorem State.modAdc_out (c : Fin 4) (f : AdcConv → AdcConv) : (s.modAdc c f).out = s.out := rfl
@[simp] theorem State.modAdc_faultN (c : Fin 4) (f : AdcConv → AdcConv) : (s.modAdc c f).faultN = s.faultN := rfl
@[simp] theorem State.modAdc_rstN (c : Fin 4) (f : AdcConv → AdcConv) : (s.modAdc c f).rstN = s.rstN := rfl
@[simp] theorem State.modAdc_pfwN (c : Fin 4) (f : AdcConv → AdcConv) : (s.modAdc c f).pfwN = s.pfwN := rfl
@[simp] theorem State.modAdc_fc (c : Fin 4) (f : AdcConv → AdcConv) : (s.modAdc c f).fc = s.fc := rfl
@[simp] theorem State.modAdc_berths (c : Fin 4) (f : AdcConv → AdcConv) : (s.modAdc c f).berths = s.berths := rfl
@[simp] theorem State.modAdc_boot (c : Fin 4) (f : AdcConv → AdcConv) : (s.modAdc c f).boot = s.boot := rfl
@[simp] theorem State.modAdc_seq (c : Fin 4) (f : AdcConv → AdcConv) : (s.modAdc c f).seq = s.seq := rfl
@[simp] theorem State.modAdc_clocks (c : Fin 4) (f : AdcConv → AdcConv) : (s.modAdc c f).clocks = s.clocks := rfl
@[simp] theorem State.modAdc_tl (c : Fin 4) (f : AdcConv → AdcConv) : (s.modAdc c f).tl = s.tl := rfl
@[simp] theorem State.modAdc_quay (c : Fin 4) (f : AdcConv → AdcConv) : (s.modAdc c f).quay = s.quay := rfl
@[simp] theorem State.modAdc_ed (c : Fin 4) (f : AdcConv → AdcConv) : (s.modAdc c f).ed = s.ed := rfl
@[simp] theorem State.modAdc_dma (c : Fin 4) (f : AdcConv → AdcConv) : (s.modAdc c f).dma = s.dma := rfl
@[simp] theorem State.modAdc_mo (c : Fin 4) (f : AdcConv → AdcConv) : (s.modAdc c f).mo = s.mo := rfl
@[simp] theorem State.modAdc_sta (c : Fin 4) (f : AdcConv → AdcConv) : (s.modAdc c f).sta = s.sta := rfl
@[simp] theorem State.modAdc_lg (c : Fin 4) (f : AdcConv → AdcConv) : (s.modAdc c f).lg = s.lg := rfl
@[simp] theorem State.modAdc_pending (c : Fin 4) (f : AdcConv → AdcConv) : (s.modAdc c f).pending = s.pending := rfl

/-! ### modPort -/

@[simp] theorem State.modPort_time (p : Fin 2) (f : EdPort → EdPort) : (s.modPort p f).time = s.time := rfl
@[simp] theorem State.modPort_free (p : Fin 2) (f : EdPort → EdPort) : (s.modPort p f).free = s.free := rfl
@[simp] theorem State.modPort_regs (p : Fin 2) (f : EdPort → EdPort) : (s.modPort p f).regs = s.regs := rfl
@[simp] theorem State.modPort_stg (p : Fin 2) (f : EdPort → EdPort) : (s.modPort p f).stg = s.stg := rfl
@[simp] theorem State.modPort_hold (p : Fin 2) (f : EdPort → EdPort) : (s.modPort p f).hold = s.hold := rfl
@[simp] theorem State.modPort_mem (p : Fin 2) (f : EdPort → EdPort) : (s.modPort p f).mem = s.mem := rfl
@[simp] theorem State.modPort_fresh (p : Fin 2) (f : EdPort → EdPort) : (s.modPort p f).fresh = s.fresh := rfl
@[simp] theorem State.modPort_mu (p : Fin 2) (f : EdPort → EdPort) : (s.modPort p f).mu = s.mu := rfl
@[simp] theorem State.modPort_out (p : Fin 2) (f : EdPort → EdPort) : (s.modPort p f).out = s.out := rfl
@[simp] theorem State.modPort_faultN (p : Fin 2) (f : EdPort → EdPort) : (s.modPort p f).faultN = s.faultN := rfl
@[simp] theorem State.modPort_rstN (p : Fin 2) (f : EdPort → EdPort) : (s.modPort p f).rstN = s.rstN := rfl
@[simp] theorem State.modPort_pfwN (p : Fin 2) (f : EdPort → EdPort) : (s.modPort p f).pfwN = s.pfwN := rfl
@[simp] theorem State.modPort_fc (p : Fin 2) (f : EdPort → EdPort) : (s.modPort p f).fc = s.fc := rfl
@[simp] theorem State.modPort_berths (p : Fin 2) (f : EdPort → EdPort) : (s.modPort p f).berths = s.berths := rfl
@[simp] theorem State.modPort_boot (p : Fin 2) (f : EdPort → EdPort) : (s.modPort p f).boot = s.boot := rfl
@[simp] theorem State.modPort_seq (p : Fin 2) (f : EdPort → EdPort) : (s.modPort p f).seq = s.seq := rfl
@[simp] theorem State.modPort_clocks (p : Fin 2) (f : EdPort → EdPort) : (s.modPort p f).clocks = s.clocks := rfl
@[simp] theorem State.modPort_tl (p : Fin 2) (f : EdPort → EdPort) : (s.modPort p f).tl = s.tl := rfl
@[simp] theorem State.modPort_quay (p : Fin 2) (f : EdPort → EdPort) : (s.modPort p f).quay = s.quay := rfl
@[simp] theorem State.modPort_dma (p : Fin 2) (f : EdPort → EdPort) : (s.modPort p f).dma = s.dma := rfl
@[simp] theorem State.modPort_mo (p : Fin 2) (f : EdPort → EdPort) : (s.modPort p f).mo = s.mo := rfl
@[simp] theorem State.modPort_ct (p : Fin 2) (f : EdPort → EdPort) : (s.modPort p f).ct = s.ct := rfl
@[simp] theorem State.modPort_sta (p : Fin 2) (f : EdPort → EdPort) : (s.modPort p f).sta = s.sta := rfl
@[simp] theorem State.modPort_lg (p : Fin 2) (f : EdPort → EdPort) : (s.modPort p f).lg = s.lg := rfl
@[simp] theorem State.modPort_pending (p : Fin 2) (f : EdPort → EdPort) : (s.modPort p f).pending = s.pending := rfl

/-! ### modBeam -/

@[simp] theorem State.modBeam_time (k : Fin 6) (f : Beam → Beam) : (s.modBeam k f).time = s.time := rfl
@[simp] theorem State.modBeam_free (k : Fin 6) (f : Beam → Beam) : (s.modBeam k f).free = s.free := rfl
@[simp] theorem State.modBeam_regs (k : Fin 6) (f : Beam → Beam) : (s.modBeam k f).regs = s.regs := rfl
@[simp] theorem State.modBeam_stg (k : Fin 6) (f : Beam → Beam) : (s.modBeam k f).stg = s.stg := rfl
@[simp] theorem State.modBeam_hold (k : Fin 6) (f : Beam → Beam) : (s.modBeam k f).hold = s.hold := rfl
@[simp] theorem State.modBeam_mem (k : Fin 6) (f : Beam → Beam) : (s.modBeam k f).mem = s.mem := rfl
@[simp] theorem State.modBeam_fresh (k : Fin 6) (f : Beam → Beam) : (s.modBeam k f).fresh = s.fresh := rfl
@[simp] theorem State.modBeam_mu (k : Fin 6) (f : Beam → Beam) : (s.modBeam k f).mu = s.mu := rfl
@[simp] theorem State.modBeam_out (k : Fin 6) (f : Beam → Beam) : (s.modBeam k f).out = s.out := rfl
@[simp] theorem State.modBeam_faultN (k : Fin 6) (f : Beam → Beam) : (s.modBeam k f).faultN = s.faultN := rfl
@[simp] theorem State.modBeam_rstN (k : Fin 6) (f : Beam → Beam) : (s.modBeam k f).rstN = s.rstN := rfl
@[simp] theorem State.modBeam_pfwN (k : Fin 6) (f : Beam → Beam) : (s.modBeam k f).pfwN = s.pfwN := rfl
@[simp] theorem State.modBeam_fc (k : Fin 6) (f : Beam → Beam) : (s.modBeam k f).fc = s.fc := rfl
@[simp] theorem State.modBeam_berths (k : Fin 6) (f : Beam → Beam) : (s.modBeam k f).berths = s.berths := rfl
@[simp] theorem State.modBeam_boot (k : Fin 6) (f : Beam → Beam) : (s.modBeam k f).boot = s.boot := rfl
@[simp] theorem State.modBeam_seq (k : Fin 6) (f : Beam → Beam) : (s.modBeam k f).seq = s.seq := rfl
@[simp] theorem State.modBeam_clocks (k : Fin 6) (f : Beam → Beam) : (s.modBeam k f).clocks = s.clocks := rfl
@[simp] theorem State.modBeam_tl (k : Fin 6) (f : Beam → Beam) : (s.modBeam k f).tl = s.tl := rfl
@[simp] theorem State.modBeam_quay (k : Fin 6) (f : Beam → Beam) : (s.modBeam k f).quay = s.quay := rfl
@[simp] theorem State.modBeam_ed (k : Fin 6) (f : Beam → Beam) : (s.modBeam k f).ed = s.ed := rfl
@[simp] theorem State.modBeam_dma (k : Fin 6) (f : Beam → Beam) : (s.modBeam k f).dma = s.dma := rfl
@[simp] theorem State.modBeam_mo (k : Fin 6) (f : Beam → Beam) : (s.modBeam k f).mo = s.mo := rfl
@[simp] theorem State.modBeam_ct (k : Fin 6) (f : Beam → Beam) : (s.modBeam k f).ct = s.ct := rfl
@[simp] theorem State.modBeam_lg (k : Fin 6) (f : Beam → Beam) : (s.modBeam k f).lg = s.lg := rfl
@[simp] theorem State.modBeam_pending (k : Fin 6) (f : Beam → Beam) : (s.modBeam k f).pending = s.pending := rfl

/-! ### modLink -/

@[simp] theorem State.modLink_time (k : Fin 6) (f : Link → Link) : (s.modLink k f).time = s.time := rfl
@[simp] theorem State.modLink_free (k : Fin 6) (f : Link → Link) : (s.modLink k f).free = s.free := rfl
@[simp] theorem State.modLink_regs (k : Fin 6) (f : Link → Link) : (s.modLink k f).regs = s.regs := rfl
@[simp] theorem State.modLink_stg (k : Fin 6) (f : Link → Link) : (s.modLink k f).stg = s.stg := rfl
@[simp] theorem State.modLink_hold (k : Fin 6) (f : Link → Link) : (s.modLink k f).hold = s.hold := rfl
@[simp] theorem State.modLink_mem (k : Fin 6) (f : Link → Link) : (s.modLink k f).mem = s.mem := rfl
@[simp] theorem State.modLink_fresh (k : Fin 6) (f : Link → Link) : (s.modLink k f).fresh = s.fresh := rfl
@[simp] theorem State.modLink_mu (k : Fin 6) (f : Link → Link) : (s.modLink k f).mu = s.mu := rfl
@[simp] theorem State.modLink_out (k : Fin 6) (f : Link → Link) : (s.modLink k f).out = s.out := rfl
@[simp] theorem State.modLink_faultN (k : Fin 6) (f : Link → Link) : (s.modLink k f).faultN = s.faultN := rfl
@[simp] theorem State.modLink_rstN (k : Fin 6) (f : Link → Link) : (s.modLink k f).rstN = s.rstN := rfl
@[simp] theorem State.modLink_pfwN (k : Fin 6) (f : Link → Link) : (s.modLink k f).pfwN = s.pfwN := rfl
@[simp] theorem State.modLink_fc (k : Fin 6) (f : Link → Link) : (s.modLink k f).fc = s.fc := rfl
@[simp] theorem State.modLink_berths (k : Fin 6) (f : Link → Link) : (s.modLink k f).berths = s.berths := rfl
@[simp] theorem State.modLink_boot (k : Fin 6) (f : Link → Link) : (s.modLink k f).boot = s.boot := rfl
@[simp] theorem State.modLink_seq (k : Fin 6) (f : Link → Link) : (s.modLink k f).seq = s.seq := rfl
@[simp] theorem State.modLink_clocks (k : Fin 6) (f : Link → Link) : (s.modLink k f).clocks = s.clocks := rfl
@[simp] theorem State.modLink_tl (k : Fin 6) (f : Link → Link) : (s.modLink k f).tl = s.tl := rfl
@[simp] theorem State.modLink_quay (k : Fin 6) (f : Link → Link) : (s.modLink k f).quay = s.quay := rfl
@[simp] theorem State.modLink_ed (k : Fin 6) (f : Link → Link) : (s.modLink k f).ed = s.ed := rfl
@[simp] theorem State.modLink_dma (k : Fin 6) (f : Link → Link) : (s.modLink k f).dma = s.dma := rfl
@[simp] theorem State.modLink_mo (k : Fin 6) (f : Link → Link) : (s.modLink k f).mo = s.mo := rfl
@[simp] theorem State.modLink_ct (k : Fin 6) (f : Link → Link) : (s.modLink k f).ct = s.ct := rfl
@[simp] theorem State.modLink_lg (k : Fin 6) (f : Link → Link) : (s.modLink k f).lg = s.lg := rfl
@[simp] theorem State.modLink_pending (k : Fin 6) (f : Link → Link) : (s.modLink k f).pending = s.pending := rfl

/-! ### modIlace -/

@[simp] theorem State.modIlace_time (k : Fin 6) (f : Ilace → Ilace) : (s.modIlace k f).time = s.time := rfl
@[simp] theorem State.modIlace_free (k : Fin 6) (f : Ilace → Ilace) : (s.modIlace k f).free = s.free := rfl
@[simp] theorem State.modIlace_regs (k : Fin 6) (f : Ilace → Ilace) : (s.modIlace k f).regs = s.regs := rfl
@[simp] theorem State.modIlace_stg (k : Fin 6) (f : Ilace → Ilace) : (s.modIlace k f).stg = s.stg := rfl
@[simp] theorem State.modIlace_hold (k : Fin 6) (f : Ilace → Ilace) : (s.modIlace k f).hold = s.hold := rfl
@[simp] theorem State.modIlace_mem (k : Fin 6) (f : Ilace → Ilace) : (s.modIlace k f).mem = s.mem := rfl
@[simp] theorem State.modIlace_fresh (k : Fin 6) (f : Ilace → Ilace) : (s.modIlace k f).fresh = s.fresh := rfl
@[simp] theorem State.modIlace_mu (k : Fin 6) (f : Ilace → Ilace) : (s.modIlace k f).mu = s.mu := rfl
@[simp] theorem State.modIlace_out (k : Fin 6) (f : Ilace → Ilace) : (s.modIlace k f).out = s.out := rfl
@[simp] theorem State.modIlace_faultN (k : Fin 6) (f : Ilace → Ilace) : (s.modIlace k f).faultN = s.faultN := rfl
@[simp] theorem State.modIlace_rstN (k : Fin 6) (f : Ilace → Ilace) : (s.modIlace k f).rstN = s.rstN := rfl
@[simp] theorem State.modIlace_pfwN (k : Fin 6) (f : Ilace → Ilace) : (s.modIlace k f).pfwN = s.pfwN := rfl
@[simp] theorem State.modIlace_fc (k : Fin 6) (f : Ilace → Ilace) : (s.modIlace k f).fc = s.fc := rfl
@[simp] theorem State.modIlace_berths (k : Fin 6) (f : Ilace → Ilace) : (s.modIlace k f).berths = s.berths := rfl
@[simp] theorem State.modIlace_boot (k : Fin 6) (f : Ilace → Ilace) : (s.modIlace k f).boot = s.boot := rfl
@[simp] theorem State.modIlace_seq (k : Fin 6) (f : Ilace → Ilace) : (s.modIlace k f).seq = s.seq := rfl
@[simp] theorem State.modIlace_clocks (k : Fin 6) (f : Ilace → Ilace) : (s.modIlace k f).clocks = s.clocks := rfl
@[simp] theorem State.modIlace_tl (k : Fin 6) (f : Ilace → Ilace) : (s.modIlace k f).tl = s.tl := rfl
@[simp] theorem State.modIlace_quay (k : Fin 6) (f : Ilace → Ilace) : (s.modIlace k f).quay = s.quay := rfl
@[simp] theorem State.modIlace_ed (k : Fin 6) (f : Ilace → Ilace) : (s.modIlace k f).ed = s.ed := rfl
@[simp] theorem State.modIlace_dma (k : Fin 6) (f : Ilace → Ilace) : (s.modIlace k f).dma = s.dma := rfl
@[simp] theorem State.modIlace_mo (k : Fin 6) (f : Ilace → Ilace) : (s.modIlace k f).mo = s.mo := rfl
@[simp] theorem State.modIlace_ct (k : Fin 6) (f : Ilace → Ilace) : (s.modIlace k f).ct = s.ct := rfl
@[simp] theorem State.modIlace_lg (k : Fin 6) (f : Ilace → Ilace) : (s.modIlace k f).lg = s.lg := rfl
@[simp] theorem State.modIlace_pending (k : Fin 6) (f : Ilace → Ilace) : (s.modIlace k f).pending = s.pending := rfl

/-! ### modRing -/

@[simp] theorem State.modRing_time (k : Fin 6) (f : Ring → Ring) : (s.modRing k f).time = s.time := rfl
@[simp] theorem State.modRing_free (k : Fin 6) (f : Ring → Ring) : (s.modRing k f).free = s.free := rfl
@[simp] theorem State.modRing_regs (k : Fin 6) (f : Ring → Ring) : (s.modRing k f).regs = s.regs := rfl
@[simp] theorem State.modRing_stg (k : Fin 6) (f : Ring → Ring) : (s.modRing k f).stg = s.stg := rfl
@[simp] theorem State.modRing_hold (k : Fin 6) (f : Ring → Ring) : (s.modRing k f).hold = s.hold := rfl
@[simp] theorem State.modRing_mem (k : Fin 6) (f : Ring → Ring) : (s.modRing k f).mem = s.mem := rfl
@[simp] theorem State.modRing_fresh (k : Fin 6) (f : Ring → Ring) : (s.modRing k f).fresh = s.fresh := rfl
@[simp] theorem State.modRing_mu (k : Fin 6) (f : Ring → Ring) : (s.modRing k f).mu = s.mu := rfl
@[simp] theorem State.modRing_out (k : Fin 6) (f : Ring → Ring) : (s.modRing k f).out = s.out := rfl
@[simp] theorem State.modRing_faultN (k : Fin 6) (f : Ring → Ring) : (s.modRing k f).faultN = s.faultN := rfl
@[simp] theorem State.modRing_rstN (k : Fin 6) (f : Ring → Ring) : (s.modRing k f).rstN = s.rstN := rfl
@[simp] theorem State.modRing_pfwN (k : Fin 6) (f : Ring → Ring) : (s.modRing k f).pfwN = s.pfwN := rfl
@[simp] theorem State.modRing_fc (k : Fin 6) (f : Ring → Ring) : (s.modRing k f).fc = s.fc := rfl
@[simp] theorem State.modRing_berths (k : Fin 6) (f : Ring → Ring) : (s.modRing k f).berths = s.berths := rfl
@[simp] theorem State.modRing_boot (k : Fin 6) (f : Ring → Ring) : (s.modRing k f).boot = s.boot := rfl
@[simp] theorem State.modRing_seq (k : Fin 6) (f : Ring → Ring) : (s.modRing k f).seq = s.seq := rfl
@[simp] theorem State.modRing_clocks (k : Fin 6) (f : Ring → Ring) : (s.modRing k f).clocks = s.clocks := rfl
@[simp] theorem State.modRing_tl (k : Fin 6) (f : Ring → Ring) : (s.modRing k f).tl = s.tl := rfl
@[simp] theorem State.modRing_quay (k : Fin 6) (f : Ring → Ring) : (s.modRing k f).quay = s.quay := rfl
@[simp] theorem State.modRing_ed (k : Fin 6) (f : Ring → Ring) : (s.modRing k f).ed = s.ed := rfl
@[simp] theorem State.modRing_dma (k : Fin 6) (f : Ring → Ring) : (s.modRing k f).dma = s.dma := rfl
@[simp] theorem State.modRing_mo (k : Fin 6) (f : Ring → Ring) : (s.modRing k f).mo = s.mo := rfl
@[simp] theorem State.modRing_ct (k : Fin 6) (f : Ring → Ring) : (s.modRing k f).ct = s.ct := rfl
@[simp] theorem State.modRing_lg (k : Fin 6) (f : Ring → Ring) : (s.modRing k f).lg = s.lg := rfl
@[simp] theorem State.modRing_pending (k : Fin 6) (f : Ring → Ring) : (s.modRing k f).pending = s.pending := rfl

/-! ### modFeeds -/

@[simp] theorem State.modFeeds_time (k : Fin 6) (f : List Feed → List Feed) : (s.modFeeds k f).time = s.time := rfl
@[simp] theorem State.modFeeds_free (k : Fin 6) (f : List Feed → List Feed) : (s.modFeeds k f).free = s.free := rfl
@[simp] theorem State.modFeeds_regs (k : Fin 6) (f : List Feed → List Feed) : (s.modFeeds k f).regs = s.regs := rfl
@[simp] theorem State.modFeeds_stg (k : Fin 6) (f : List Feed → List Feed) : (s.modFeeds k f).stg = s.stg := rfl
@[simp] theorem State.modFeeds_hold (k : Fin 6) (f : List Feed → List Feed) : (s.modFeeds k f).hold = s.hold := rfl
@[simp] theorem State.modFeeds_mem (k : Fin 6) (f : List Feed → List Feed) : (s.modFeeds k f).mem = s.mem := rfl
@[simp] theorem State.modFeeds_fresh (k : Fin 6) (f : List Feed → List Feed) : (s.modFeeds k f).fresh = s.fresh := rfl
@[simp] theorem State.modFeeds_mu (k : Fin 6) (f : List Feed → List Feed) : (s.modFeeds k f).mu = s.mu := rfl
@[simp] theorem State.modFeeds_out (k : Fin 6) (f : List Feed → List Feed) : (s.modFeeds k f).out = s.out := rfl
@[simp] theorem State.modFeeds_faultN (k : Fin 6) (f : List Feed → List Feed) : (s.modFeeds k f).faultN = s.faultN := rfl
@[simp] theorem State.modFeeds_rstN (k : Fin 6) (f : List Feed → List Feed) : (s.modFeeds k f).rstN = s.rstN := rfl
@[simp] theorem State.modFeeds_pfwN (k : Fin 6) (f : List Feed → List Feed) : (s.modFeeds k f).pfwN = s.pfwN := rfl
@[simp] theorem State.modFeeds_fc (k : Fin 6) (f : List Feed → List Feed) : (s.modFeeds k f).fc = s.fc := rfl
@[simp] theorem State.modFeeds_berths (k : Fin 6) (f : List Feed → List Feed) : (s.modFeeds k f).berths = s.berths := rfl
@[simp] theorem State.modFeeds_boot (k : Fin 6) (f : List Feed → List Feed) : (s.modFeeds k f).boot = s.boot := rfl
@[simp] theorem State.modFeeds_seq (k : Fin 6) (f : List Feed → List Feed) : (s.modFeeds k f).seq = s.seq := rfl
@[simp] theorem State.modFeeds_clocks (k : Fin 6) (f : List Feed → List Feed) : (s.modFeeds k f).clocks = s.clocks := rfl
@[simp] theorem State.modFeeds_tl (k : Fin 6) (f : List Feed → List Feed) : (s.modFeeds k f).tl = s.tl := rfl
@[simp] theorem State.modFeeds_quay (k : Fin 6) (f : List Feed → List Feed) : (s.modFeeds k f).quay = s.quay := rfl
@[simp] theorem State.modFeeds_ed (k : Fin 6) (f : List Feed → List Feed) : (s.modFeeds k f).ed = s.ed := rfl
@[simp] theorem State.modFeeds_dma (k : Fin 6) (f : List Feed → List Feed) : (s.modFeeds k f).dma = s.dma := rfl
@[simp] theorem State.modFeeds_mo (k : Fin 6) (f : List Feed → List Feed) : (s.modFeeds k f).mo = s.mo := rfl
@[simp] theorem State.modFeeds_ct (k : Fin 6) (f : List Feed → List Feed) : (s.modFeeds k f).ct = s.ct := rfl
@[simp] theorem State.modFeeds_lg (k : Fin 6) (f : List Feed → List Feed) : (s.modFeeds k f).lg = s.lg := rfl
@[simp] theorem State.modFeeds_pending (k : Fin 6) (f : List Feed → List Feed) : (s.modFeeds k f).pending = s.pending := rfl

/-! ### modCtx -/

@[simp] theorem State.modCtx_time (x : Fin 24) (f : Ctx → Ctx) : (s.modCtx x f).time = s.time := rfl
@[simp] theorem State.modCtx_free (x : Fin 24) (f : Ctx → Ctx) : (s.modCtx x f).free = s.free := rfl
@[simp] theorem State.modCtx_regs (x : Fin 24) (f : Ctx → Ctx) : (s.modCtx x f).regs = s.regs := rfl
@[simp] theorem State.modCtx_stg (x : Fin 24) (f : Ctx → Ctx) : (s.modCtx x f).stg = s.stg := rfl
@[simp] theorem State.modCtx_hold (x : Fin 24) (f : Ctx → Ctx) : (s.modCtx x f).hold = s.hold := rfl
@[simp] theorem State.modCtx_mem (x : Fin 24) (f : Ctx → Ctx) : (s.modCtx x f).mem = s.mem := rfl
@[simp] theorem State.modCtx_fresh (x : Fin 24) (f : Ctx → Ctx) : (s.modCtx x f).fresh = s.fresh := rfl
@[simp] theorem State.modCtx_mu (x : Fin 24) (f : Ctx → Ctx) : (s.modCtx x f).mu = s.mu := rfl
@[simp] theorem State.modCtx_out (x : Fin 24) (f : Ctx → Ctx) : (s.modCtx x f).out = s.out := rfl
@[simp] theorem State.modCtx_faultN (x : Fin 24) (f : Ctx → Ctx) : (s.modCtx x f).faultN = s.faultN := rfl
@[simp] theorem State.modCtx_rstN (x : Fin 24) (f : Ctx → Ctx) : (s.modCtx x f).rstN = s.rstN := rfl
@[simp] theorem State.modCtx_pfwN (x : Fin 24) (f : Ctx → Ctx) : (s.modCtx x f).pfwN = s.pfwN := rfl
@[simp] theorem State.modCtx_fc (x : Fin 24) (f : Ctx → Ctx) : (s.modCtx x f).fc = s.fc := rfl
@[simp] theorem State.modCtx_berths (x : Fin 24) (f : Ctx → Ctx) : (s.modCtx x f).berths = s.berths := rfl
@[simp] theorem State.modCtx_boot (x : Fin 24) (f : Ctx → Ctx) : (s.modCtx x f).boot = s.boot := rfl
@[simp] theorem State.modCtx_seq (x : Fin 24) (f : Ctx → Ctx) : (s.modCtx x f).seq = s.seq := rfl
@[simp] theorem State.modCtx_clocks (x : Fin 24) (f : Ctx → Ctx) : (s.modCtx x f).clocks = s.clocks := rfl
@[simp] theorem State.modCtx_tl (x : Fin 24) (f : Ctx → Ctx) : (s.modCtx x f).tl = s.tl := rfl
@[simp] theorem State.modCtx_quay (x : Fin 24) (f : Ctx → Ctx) : (s.modCtx x f).quay = s.quay := rfl
@[simp] theorem State.modCtx_ed (x : Fin 24) (f : Ctx → Ctx) : (s.modCtx x f).ed = s.ed := rfl
@[simp] theorem State.modCtx_dma (x : Fin 24) (f : Ctx → Ctx) : (s.modCtx x f).dma = s.dma := rfl
@[simp] theorem State.modCtx_mo (x : Fin 24) (f : Ctx → Ctx) : (s.modCtx x f).mo = s.mo := rfl
@[simp] theorem State.modCtx_ct (x : Fin 24) (f : Ctx → Ctx) : (s.modCtx x f).ct = s.ct := rfl
@[simp] theorem State.modCtx_lg (x : Fin 24) (f : Ctx → Ctx) : (s.modCtx x f).lg = s.lg := rfl
@[simp] theorem State.modCtx_pending (x : Fin 24) (f : Ctx → Ctx) : (s.modCtx x f).pending = s.pending := rfl

/-! ### msix -/

@[simp] theorem State.msix_time (v : Nat) : (s.msix v).time = s.time := by
  unfold State.msix; split <;> rfl
@[simp] theorem State.msix_free (v : Nat) : (s.msix v).free = s.free := by
  unfold State.msix; split <;> rfl
@[simp] theorem State.msix_stg (v : Nat) : (s.msix v).stg = s.stg := by
  unfold State.msix; split <;> rfl
@[simp] theorem State.msix_hold (v : Nat) : (s.msix v).hold = s.hold := by
  unfold State.msix; split <;> rfl
@[simp] theorem State.msix_mem (v : Nat) : (s.msix v).mem = s.mem := by
  unfold State.msix; split <;> rfl
@[simp] theorem State.msix_fresh (v : Nat) : (s.msix v).fresh = s.fresh := by
  unfold State.msix; split <;> rfl
@[simp] theorem State.msix_mu (v : Nat) : (s.msix v).mu = s.mu := by
  unfold State.msix; split <;> rfl
@[simp] theorem State.msix_faultN (v : Nat) : (s.msix v).faultN = s.faultN := by
  unfold State.msix; split <;> rfl
@[simp] theorem State.msix_rstN (v : Nat) : (s.msix v).rstN = s.rstN := by
  unfold State.msix; split <;> rfl
@[simp] theorem State.msix_pfwN (v : Nat) : (s.msix v).pfwN = s.pfwN := by
  unfold State.msix; split <;> rfl
@[simp] theorem State.msix_fc (v : Nat) : (s.msix v).fc = s.fc := by
  unfold State.msix; split <;> rfl
@[simp] theorem State.msix_berths (v : Nat) : (s.msix v).berths = s.berths := by
  unfold State.msix; split <;> rfl
@[simp] theorem State.msix_boot (v : Nat) : (s.msix v).boot = s.boot := by
  unfold State.msix; split <;> rfl
@[simp] theorem State.msix_seq (v : Nat) : (s.msix v).seq = s.seq := by
  unfold State.msix; split <;> rfl
@[simp] theorem State.msix_clocks (v : Nat) : (s.msix v).clocks = s.clocks := by
  unfold State.msix; split <;> rfl
@[simp] theorem State.msix_tl (v : Nat) : (s.msix v).tl = s.tl := by
  unfold State.msix; split <;> rfl
@[simp] theorem State.msix_quay (v : Nat) : (s.msix v).quay = s.quay := by
  unfold State.msix; split <;> rfl
@[simp] theorem State.msix_ed (v : Nat) : (s.msix v).ed = s.ed := by
  unfold State.msix; split <;> rfl
@[simp] theorem State.msix_dma (v : Nat) : (s.msix v).dma = s.dma := by
  unfold State.msix; split <;> rfl
@[simp] theorem State.msix_mo (v : Nat) : (s.msix v).mo = s.mo := by
  unfold State.msix; split <;> rfl
@[simp] theorem State.msix_ct (v : Nat) : (s.msix v).ct = s.ct := by
  unfold State.msix; split <;> rfl
@[simp] theorem State.msix_sta (v : Nat) : (s.msix v).sta = s.sta := by
  unfold State.msix; split <;> rfl
@[simp] theorem State.msix_lg (v : Nat) : (s.msix v).lg = s.lg := by
  unfold State.msix; split <;> rfl
@[simp] theorem State.msix_pending (v : Nat) : (s.msix v).pending = s.pending := by
  unfold State.msix; split <;> rfl

/-! ### notify -/

@[simp] theorem State.notify_time (p : Nat) (e : Option Nat) : (s.notify p e).time = s.time := by
  unfold State.notify; (repeat' split) <;> simp
@[simp] theorem State.notify_free (p : Nat) (e : Option Nat) : (s.notify p e).free = s.free := by
  unfold State.notify; (repeat' split) <;> simp
@[simp] theorem State.notify_stg (p : Nat) (e : Option Nat) : (s.notify p e).stg = s.stg := by
  unfold State.notify; (repeat' split) <;> simp
@[simp] theorem State.notify_hold (p : Nat) (e : Option Nat) : (s.notify p e).hold = s.hold := by
  unfold State.notify; (repeat' split) <;> simp
@[simp] theorem State.notify_mem (p : Nat) (e : Option Nat) : (s.notify p e).mem = s.mem := by
  unfold State.notify; (repeat' split) <;> simp
@[simp] theorem State.notify_fresh (p : Nat) (e : Option Nat) : (s.notify p e).fresh = s.fresh := by
  unfold State.notify; (repeat' split) <;> simp
@[simp] theorem State.notify_mu (p : Nat) (e : Option Nat) : (s.notify p e).mu = s.mu := by
  unfold State.notify; (repeat' split) <;> simp
@[simp] theorem State.notify_faultN (p : Nat) (e : Option Nat) : (s.notify p e).faultN = s.faultN := by
  unfold State.notify; (repeat' split) <;> simp
@[simp] theorem State.notify_rstN (p : Nat) (e : Option Nat) : (s.notify p e).rstN = s.rstN := by
  unfold State.notify; (repeat' split) <;> simp
@[simp] theorem State.notify_pfwN (p : Nat) (e : Option Nat) : (s.notify p e).pfwN = s.pfwN := by
  unfold State.notify; (repeat' split) <;> simp
@[simp] theorem State.notify_fc (p : Nat) (e : Option Nat) : (s.notify p e).fc = s.fc := by
  unfold State.notify; (repeat' split) <;> simp
@[simp] theorem State.notify_berths (p : Nat) (e : Option Nat) : (s.notify p e).berths = s.berths := by
  unfold State.notify; (repeat' split) <;> simp
@[simp] theorem State.notify_boot (p : Nat) (e : Option Nat) : (s.notify p e).boot = s.boot := by
  unfold State.notify; (repeat' split) <;> simp
@[simp] theorem State.notify_seq (p : Nat) (e : Option Nat) : (s.notify p e).seq = s.seq := by
  unfold State.notify; (repeat' split) <;> simp
@[simp] theorem State.notify_clocks (p : Nat) (e : Option Nat) : (s.notify p e).clocks = s.clocks := by
  unfold State.notify; (repeat' split) <;> simp
@[simp] theorem State.notify_tl (p : Nat) (e : Option Nat) : (s.notify p e).tl = s.tl := by
  unfold State.notify; (repeat' split) <;> simp
@[simp] theorem State.notify_quay (p : Nat) (e : Option Nat) : (s.notify p e).quay = s.quay := by
  unfold State.notify; (repeat' split) <;> simp
@[simp] theorem State.notify_ed (p : Nat) (e : Option Nat) : (s.notify p e).ed = s.ed := by
  unfold State.notify; (repeat' split) <;> simp
@[simp] theorem State.notify_dma (p : Nat) (e : Option Nat) : (s.notify p e).dma = s.dma := by
  unfold State.notify; (repeat' split) <;> simp
@[simp] theorem State.notify_mo (p : Nat) (e : Option Nat) : (s.notify p e).mo = s.mo := by
  unfold State.notify; (repeat' split) <;> simp
@[simp] theorem State.notify_ct (p : Nat) (e : Option Nat) : (s.notify p e).ct = s.ct := by
  unfold State.notify; (repeat' split) <;> simp
@[simp] theorem State.notify_sta (p : Nat) (e : Option Nat) : (s.notify p e).sta = s.sta := by
  unfold State.notify; (repeat' split) <;> simp
@[simp] theorem State.notify_lg (p : Nat) (e : Option Nat) : (s.notify p e).lg = s.lg := by
  unfold State.notify; (repeat' split) <;> simp
@[simp] theorem State.notify_pending (p : Nat) (e : Option Nat) : (s.notify p e).pending = s.pending := by
  unfold State.notify; (repeat' split) <;> simp

/-! ### event -/

@[simp] theorem State.event_time (p i : Nat) : (s.event p i).time = s.time := by
  unfold State.event State.ifDo; split <;> simp
@[simp] theorem State.event_free (p i : Nat) : (s.event p i).free = s.free := by
  unfold State.event State.ifDo; split <;> simp
@[simp] theorem State.event_stg (p i : Nat) : (s.event p i).stg = s.stg := by
  unfold State.event State.ifDo; split <;> simp
@[simp] theorem State.event_hold (p i : Nat) : (s.event p i).hold = s.hold := by
  unfold State.event State.ifDo; split <;> simp
@[simp] theorem State.event_mem (p i : Nat) : (s.event p i).mem = s.mem := by
  unfold State.event State.ifDo; split <;> simp
@[simp] theorem State.event_mu (p i : Nat) : (s.event p i).mu = s.mu := by
  unfold State.event State.ifDo; split <;> simp
@[simp] theorem State.event_faultN (p i : Nat) : (s.event p i).faultN = s.faultN := by
  unfold State.event State.ifDo; split <;> simp
@[simp] theorem State.event_rstN (p i : Nat) : (s.event p i).rstN = s.rstN := by
  unfold State.event State.ifDo; split <;> simp
@[simp] theorem State.event_pfwN (p i : Nat) : (s.event p i).pfwN = s.pfwN := by
  unfold State.event State.ifDo; split <;> simp
@[simp] theorem State.event_fc (p i : Nat) : (s.event p i).fc = s.fc := by
  unfold State.event State.ifDo; split <;> simp
@[simp] theorem State.event_berths (p i : Nat) : (s.event p i).berths = s.berths := by
  unfold State.event State.ifDo; split <;> simp
@[simp] theorem State.event_boot (p i : Nat) : (s.event p i).boot = s.boot := by
  unfold State.event State.ifDo; split <;> simp
@[simp] theorem State.event_seq (p i : Nat) : (s.event p i).seq = s.seq := by
  unfold State.event State.ifDo; split <;> simp
@[simp] theorem State.event_clocks (p i : Nat) : (s.event p i).clocks = s.clocks := by
  unfold State.event State.ifDo; split <;> simp
@[simp] theorem State.event_tl (p i : Nat) : (s.event p i).tl = s.tl := by
  unfold State.event State.ifDo; split <;> simp
@[simp] theorem State.event_quay (p i : Nat) : (s.event p i).quay = s.quay := by
  unfold State.event State.ifDo; split <;> simp
@[simp] theorem State.event_ed (p i : Nat) : (s.event p i).ed = s.ed := by
  unfold State.event State.ifDo; split <;> simp
@[simp] theorem State.event_dma (p i : Nat) : (s.event p i).dma = s.dma := by
  unfold State.event State.ifDo; split <;> simp
@[simp] theorem State.event_mo (p i : Nat) : (s.event p i).mo = s.mo := by
  unfold State.event State.ifDo; split <;> simp
@[simp] theorem State.event_ct (p i : Nat) : (s.event p i).ct = s.ct := by
  unfold State.event State.ifDo; split <;> simp
@[simp] theorem State.event_sta (p i : Nat) : (s.event p i).sta = s.sta := by
  unfold State.event State.ifDo; split <;> simp
@[simp] theorem State.event_lg (p i : Nat) : (s.event p i).lg = s.lg := by
  unfold State.event State.ifDo; split <;> simp
@[simp] theorem State.event_pending (p i : Nat) : (s.event p i).pending = s.pending := by
  unfold State.event State.ifDo; split <;> simp

/-! ### fltBit -/

@[simp] theorem State.fltBit_time (p i : Nat) : (s.fltBit p i).time = s.time := by
  unfold State.fltBit State.fltFirst State.ifDo; dsimp only; (repeat' split) <;> simp
@[simp] theorem State.fltBit_free (p i : Nat) : (s.fltBit p i).free = s.free := by
  unfold State.fltBit State.fltFirst State.ifDo; dsimp only; (repeat' split) <;> simp
@[simp] theorem State.fltBit_stg (p i : Nat) : (s.fltBit p i).stg = s.stg := by
  unfold State.fltBit State.fltFirst State.ifDo; dsimp only; (repeat' split) <;> simp
@[simp] theorem State.fltBit_hold (p i : Nat) : (s.fltBit p i).hold = s.hold := by
  unfold State.fltBit State.fltFirst State.ifDo; dsimp only; (repeat' split) <;> simp
@[simp] theorem State.fltBit_mem (p i : Nat) : (s.fltBit p i).mem = s.mem := by
  unfold State.fltBit State.fltFirst State.ifDo; dsimp only; (repeat' split) <;> simp
@[simp] theorem State.fltBit_mu (p i : Nat) : (s.fltBit p i).mu = s.mu := by
  unfold State.fltBit State.fltFirst State.ifDo; dsimp only; (repeat' split) <;> simp
@[simp] theorem State.fltBit_faultN (p i : Nat) : (s.fltBit p i).faultN = s.faultN := by
  unfold State.fltBit State.fltFirst State.ifDo; dsimp only; (repeat' split) <;> simp
@[simp] theorem State.fltBit_rstN (p i : Nat) : (s.fltBit p i).rstN = s.rstN := by
  unfold State.fltBit State.fltFirst State.ifDo; dsimp only; (repeat' split) <;> simp
@[simp] theorem State.fltBit_pfwN (p i : Nat) : (s.fltBit p i).pfwN = s.pfwN := by
  unfold State.fltBit State.fltFirst State.ifDo; dsimp only; (repeat' split) <;> simp
@[simp] theorem State.fltBit_fc (p i : Nat) : (s.fltBit p i).fc = s.fc := by
  unfold State.fltBit State.fltFirst State.ifDo; dsimp only; (repeat' split) <;> simp
@[simp] theorem State.fltBit_berths (p i : Nat) : (s.fltBit p i).berths = s.berths := by
  unfold State.fltBit State.fltFirst State.ifDo; dsimp only; (repeat' split) <;> simp
@[simp] theorem State.fltBit_boot (p i : Nat) : (s.fltBit p i).boot = s.boot := by
  unfold State.fltBit State.fltFirst State.ifDo; dsimp only; (repeat' split) <;> simp
@[simp] theorem State.fltBit_seq (p i : Nat) : (s.fltBit p i).seq = s.seq := by
  unfold State.fltBit State.fltFirst State.ifDo; dsimp only; (repeat' split) <;> simp
@[simp] theorem State.fltBit_clocks (p i : Nat) : (s.fltBit p i).clocks = s.clocks := by
  unfold State.fltBit State.fltFirst State.ifDo; dsimp only; (repeat' split) <;> simp
@[simp] theorem State.fltBit_tl (p i : Nat) : (s.fltBit p i).tl = s.tl := by
  unfold State.fltBit State.fltFirst State.ifDo; dsimp only; (repeat' split) <;> simp
@[simp] theorem State.fltBit_quay (p i : Nat) : (s.fltBit p i).quay = s.quay := by
  unfold State.fltBit State.fltFirst State.ifDo; dsimp only; (repeat' split) <;> simp
@[simp] theorem State.fltBit_ed (p i : Nat) : (s.fltBit p i).ed = s.ed := by
  unfold State.fltBit State.fltFirst State.ifDo; dsimp only; (repeat' split) <;> simp
@[simp] theorem State.fltBit_dma (p i : Nat) : (s.fltBit p i).dma = s.dma := by
  unfold State.fltBit State.fltFirst State.ifDo; dsimp only; (repeat' split) <;> simp
@[simp] theorem State.fltBit_mo (p i : Nat) : (s.fltBit p i).mo = s.mo := by
  unfold State.fltBit State.fltFirst State.ifDo; dsimp only; (repeat' split) <;> simp
@[simp] theorem State.fltBit_ct (p i : Nat) : (s.fltBit p i).ct = s.ct := by
  unfold State.fltBit State.fltFirst State.ifDo; dsimp only; (repeat' split) <;> simp
@[simp] theorem State.fltBit_sta (p i : Nat) : (s.fltBit p i).sta = s.sta := by
  unfold State.fltBit State.fltFirst State.ifDo; dsimp only; (repeat' split) <;> simp
@[simp] theorem State.fltBit_lg (p i : Nat) : (s.fltBit p i).lg = s.lg := by
  unfold State.fltBit State.fltFirst State.ifDo; dsimp only; (repeat' split) <;> simp
@[simp] theorem State.fltBit_pending (p i : Nat) : (s.fltBit p i).pending = s.pending := by
  unfold State.fltBit State.fltFirst State.ifDo; dsimp only; (repeat' split) <;> simp

/-! ### fltClear -/

@[simp] theorem State.fltClear_time (p m : Nat) : (s.fltClear p m).time = s.time := by
  unfold State.fltClear; dsimp only; split <;> rfl
@[simp] theorem State.fltClear_free (p m : Nat) : (s.fltClear p m).free = s.free := by
  unfold State.fltClear; dsimp only; split <;> rfl
@[simp] theorem State.fltClear_stg (p m : Nat) : (s.fltClear p m).stg = s.stg := by
  unfold State.fltClear; dsimp only; split <;> rfl
@[simp] theorem State.fltClear_hold (p m : Nat) : (s.fltClear p m).hold = s.hold := by
  unfold State.fltClear; dsimp only; split <;> rfl
@[simp] theorem State.fltClear_mem (p m : Nat) : (s.fltClear p m).mem = s.mem := by
  unfold State.fltClear; dsimp only; split <;> rfl
@[simp] theorem State.fltClear_fresh (p m : Nat) : (s.fltClear p m).fresh = s.fresh := by
  unfold State.fltClear; dsimp only; split <;> rfl
@[simp] theorem State.fltClear_mu (p m : Nat) : (s.fltClear p m).mu = s.mu := by
  unfold State.fltClear; dsimp only; split <;> rfl
@[simp] theorem State.fltClear_out (p m : Nat) : (s.fltClear p m).out = s.out := by
  unfold State.fltClear; dsimp only; split <;> rfl
@[simp] theorem State.fltClear_faultN (p m : Nat) : (s.fltClear p m).faultN = s.faultN := by
  unfold State.fltClear; dsimp only; split <;> rfl
@[simp] theorem State.fltClear_rstN (p m : Nat) : (s.fltClear p m).rstN = s.rstN := by
  unfold State.fltClear; dsimp only; split <;> rfl
@[simp] theorem State.fltClear_pfwN (p m : Nat) : (s.fltClear p m).pfwN = s.pfwN := by
  unfold State.fltClear; dsimp only; split <;> rfl
@[simp] theorem State.fltClear_fc (p m : Nat) : (s.fltClear p m).fc = s.fc := by
  unfold State.fltClear; dsimp only; split <;> rfl
@[simp] theorem State.fltClear_berths (p m : Nat) : (s.fltClear p m).berths = s.berths := by
  unfold State.fltClear; dsimp only; split <;> rfl
@[simp] theorem State.fltClear_boot (p m : Nat) : (s.fltClear p m).boot = s.boot := by
  unfold State.fltClear; dsimp only; split <;> rfl
@[simp] theorem State.fltClear_seq (p m : Nat) : (s.fltClear p m).seq = s.seq := by
  unfold State.fltClear; dsimp only; split <;> rfl
@[simp] theorem State.fltClear_clocks (p m : Nat) : (s.fltClear p m).clocks = s.clocks := by
  unfold State.fltClear; dsimp only; split <;> rfl
@[simp] theorem State.fltClear_tl (p m : Nat) : (s.fltClear p m).tl = s.tl := by
  unfold State.fltClear; dsimp only; split <;> rfl
@[simp] theorem State.fltClear_quay (p m : Nat) : (s.fltClear p m).quay = s.quay := by
  unfold State.fltClear; dsimp only; split <;> rfl
@[simp] theorem State.fltClear_ed (p m : Nat) : (s.fltClear p m).ed = s.ed := by
  unfold State.fltClear; dsimp only; split <;> rfl
@[simp] theorem State.fltClear_dma (p m : Nat) : (s.fltClear p m).dma = s.dma := by
  unfold State.fltClear; dsimp only; split <;> rfl
@[simp] theorem State.fltClear_mo (p m : Nat) : (s.fltClear p m).mo = s.mo := by
  unfold State.fltClear; dsimp only; split <;> rfl
@[simp] theorem State.fltClear_ct (p m : Nat) : (s.fltClear p m).ct = s.ct := by
  unfold State.fltClear; dsimp only; split <;> rfl
@[simp] theorem State.fltClear_sta (p m : Nat) : (s.fltClear p m).sta = s.sta := by
  unfold State.fltClear; dsimp only; split <;> rfl
@[simp] theorem State.fltClear_lg (p m : Nat) : (s.fltClear p m).lg = s.lg := by
  unfold State.fltClear; dsimp only; split <;> rfl
@[simp] theorem State.fltClear_pending (p m : Nat) : (s.fltClear p m).pending = s.pending := by
  unfold State.fltClear; dsimp only; split <;> rfl

/-! ### Whole states -/

/-- Two states that agree in all but registers, marks and outputs. -/
theorem State.reports_of {s t : State}
(h_time : t.time = s.time) (h_free : t.free = s.free) (h_stg : t.stg = s.stg) (h_hold : t.hold = s.hold) (h_mem : t.mem = s.mem)
    (h_mu : t.mu = s.mu) (h_faultN : t.faultN = s.faultN) (h_rstN : t.rstN = s.rstN) (h_pfwN : t.pfwN = s.pfwN) (h_fc : t.fc = s.fc) (h_berths : t.berths = s.berths) (h_boot : t.boot = s.boot) (h_seq : t.seq = s.seq) (h_clocks : t.clocks = s.clocks) (h_tl : t.tl = s.tl)
    (h_quay : t.quay = s.quay) (h_ed : t.ed = s.ed) (h_dma : t.dma = s.dma) (h_mo : t.mo = s.mo) (h_ct : t.ct = s.ct) (h_sta : t.sta = s.sta) (h_lg : t.lg = s.lg) (h_pending : t.pending = s.pending) :
    t = { s with regs := t.regs, fresh := t.fresh, out := t.out } := by
  cases s; cases t; simp_all

theorem State.event_spec (p i : Nat) :
    s.event p i = { s with regs := (s.event p i).regs, fresh := (s.event p i).fresh, out := (s.event p i).out } := by
  apply State.reports_of <;> simp

theorem State.fltBit_spec (p i : Nat) :
    s.fltBit p i = { s with regs := (s.fltBit p i).regs, fresh := (s.fltBit p i).fresh, out := (s.fltBit p i).out } := by
  apply State.reports_of <;> simp

end Sys2Proof.Machine
end

