-- ==== Sys2Proof/Laws/Regs.lean ====
section
/-!
SUPPORT. Sparse maps and the register file: a read after a write, and what a write leaves alone.
-/
namespace Sys2Proof.Machine

/-! ### Sparse maps -/

variable {α : Type}

@[simp] theorem Sparse.get_del_same (d : α) (k : Nat) (m : SparseMap α) : Sparse.get d k (Sparse.del k m) = d := by
  induction m with
  | nil => rfl
  | cons e r ih => obtain ⟨a, v⟩ := e; by_cases h : a = k <;> simp [Sparse.del, Sparse.get, h, ih]

theorem Sparse.get_del_ne (d : α) {k j : Nat} (h : j ≠ k) (m : SparseMap α) : Sparse.get d j (Sparse.del k m) = Sparse.get d j m := by
  induction m with
  | nil => rfl
  | cons e r ih =>
    obtain ⟨a, v⟩ := e
    by_cases ha : a = k
    · subst ha; simp [Sparse.del, Sparse.get, ih, Ne.symm h]
    · by_cases hj : a = j
      · simp [Sparse.del, Sparse.get, hj, h]
      · simp [Sparse.del, Sparse.get, ha, hj, ih]

theorem Sparse.get_ins_ne (d : α) {k j : Nat} (h : j ≠ k) (v : α) (m : SparseMap α) :
    Sparse.get d j (Sparse.ins k v m) = Sparse.get d j m := by
  induction m with
  | nil => simp [Sparse.ins, Sparse.get, Ne.symm h]
  | cons e r ih =>
    obtain ⟨a, w⟩ := e
    simp only [Sparse.ins]
    split
    · simp [Sparse.get, Ne.symm h]
    · by_cases hj : a = j <;> simp [Sparse.get, hj, ih]

/-- A key that is not listed. -/
def Sparse.fresh (k : Nat) (m : SparseMap α) : Prop := ∀ e ∈ m, e.1 ≠ k

theorem Sparse.fresh_del (k : Nat) (m : SparseMap α) : Sparse.fresh k (Sparse.del k m) := by
  induction m with
  | nil => simp [Sparse.fresh, Sparse.del]
  | cons e r ih =>
    obtain ⟨a, v⟩ := e
    by_cases h : a = k
    · simpa [Sparse.del, h] using ih
    · intro x hx
      simp only [Sparse.del, h, if_false, List.mem_cons] at hx
      rcases hx with rfl | hx
      · exact h
      · exact ih x hx

theorem Sparse.get_ins_same (d : α) (k : Nat) (v : α) {m : SparseMap α} (h : Sparse.fresh k m) :
    Sparse.get d k (Sparse.ins k v m) = v := by
  induction m with
  | nil => simp [Sparse.ins, Sparse.get]
  | cons e r ih =>
    obtain ⟨a, w⟩ := e
    have ha : a ≠ k := h (a, w) (by simp)
    have hr : Sparse.fresh k r := fun x hx => h x (by simp [hx])
    simp only [Sparse.ins]
    split
    · simp [Sparse.get]
    · simp [Sparse.get, ha, ih hr]

@[simp] theorem Sparse.get_put_same [DecidableEq α] (d : α) (k : Nat) (v : α) (m : SparseMap α) :
    Sparse.get d k (Sparse.put d k v m) = v := by
  unfold Sparse.put
  split
  · simp_all
  · exact Sparse.get_ins_same d k v (Sparse.fresh_del k m)

theorem Sparse.get_put_ne [DecidableEq α] (d d' : α) {k j : Nat} (h : j ≠ k) (v : α) (m : SparseMap α) :
    Sparse.get d' j (Sparse.put d k v m) = Sparse.get d' j m := by
  unfold Sparse.put
  split
  · exact Sparse.get_del_ne d' h m
  · rw [Sparse.get_ins_ne d' h, Sparse.get_del_ne d' h]

/-! ### Fields -/

variable (s : State)

@[simp] theorem State.rd_wr (f : Fld) (v : Nat) : (s.wr f v).rd f = v % 2 ^ f.width := by simp [State.rd, State.wr]

theorem State.rd_wr_ne {f g : Fld} (h : g.key ≠ f.key) (v : Nat) : (s.wr f v).rd g = s.rd g := by
  simp [State.rd, State.wr, Sparse.get_put_ne f.reset g.reset h]

/-- A read through any update that leaves the register file alone. -/
theorem State.rd_congr {s t : State} (h : t.regs = s.regs) (f : Fld) : t.rd f = s.rd f := by simp [State.rd, h]

@[simp] theorem State.rd_mark (p b : Nat) (f : Fld) : (s.mark p b).rd f = s.rd f := rfl
@[simp] theorem State.rd_emit (o : Out) (f : Fld) : (s.emit o).rd f = s.rd f := rfl
@[simp] theorem State.rd_stgWr (g : Fld) (v : Nat) (f : Fld) : (s.stgWr g v).rd f = s.rd f := rfl
@[simp] theorem State.rd_freeNext (f : Fld) : s.freeNext.rd f = s.rd f := rfl
@[simp] theorem State.rd_modTl (h : Timeline → Timeline) (f : Fld) : (s.modTl h).rd f = s.rd f := rfl
@[simp] theorem State.rd_modQuay (h : Quay → Quay) (f : Fld) : (s.modQuay h).rd f = s.rd f := rfl
@[simp] theorem State.rd_modMu (h : MemUnit → MemUnit) (f : Fld) : (s.modMu h).rd f = s.rd f := rfl
@[simp] theorem State.rd_modSeq (h : Sequencer → Sequencer) (f : Fld) : (s.modSeq h).rd f = s.rd f := rfl
@[simp] theorem State.rd_modClk (h : Clocks → Clocks) (f : Fld) : (s.modClk h).rd f = s.rd f := rfl
@[simp] theorem State.rd_modBoot (h : Boot → Boot) (f : Fld) : (s.modBoot h).rd f = s.rd f := rfl
@[simp] theorem State.rd_modSta (h : Stations → Stations) (f : Fld) : (s.modSta h).rd f = s.rd f := rfl
@[simp] theorem State.rd_modLg (h : Legacy → Legacy) (f : Fld) : (s.modLg h).rd f = s.rd f := rfl
@[simp] theorem State.rd_modChan (n : Fin 32) (h : Chan → Chan) (f : Fld) : (s.modChan n h).rd f = s.rd f := rfl
@[simp] theorem State.rd_modStp (n : Fin 16) (h : Stepper → Stepper) (f : Fld) : (s.modStp n h).rd f = s.rd f := rfl
@[simp] theorem State.rd_modSensor (n : Fin 64) (h : Sensor → Sensor) (f : Fld) : (s.modSensor n h).rd f = s.rd f := rfl
@[simp] theorem State.rd_modEnc (n : Fin 8) (h : Encoder → Encoder) (f : Fld) : (s.modEnc n h).rd f = s.rd f := rfl
@[simp] theorem State.rd_modMotor (n : Fin 12) (h : Motor → Motor) (f : Fld) : (s.modMotor n h).rd f = s.rd f := rfl
@[simp] theorem State.rd_modGroup (n : Fin 2) (h : BusGroup → BusGroup) (f : Fld) : (s.modGroup n h).rd f = s.rd f := rfl
@[simp] theorem State.rd_modLoop (e : Fin 4) (i : Fin 32) (h : LoopSlot → LoopSlot) (f : Fld) : (s.modLoop e i h).rd f = s.rd f := rfl
@[simp] theorem State.rd_modAdc (c : Fin 4) (h : AdcConv → AdcConv) (f : Fld) : (s.modAdc c h).rd f = s.rd f := rfl
@[simp] theorem State.rd_modPort (p : Fin 2) (h : EdPort → EdPort) (f : Fld) : (s.modPort p h).rd f = s.rd f := rfl
@[simp] theorem State.rd_modBeam (k : Fin 6) (h : Beam → Beam) (f : Fld) : (s.modBeam k h).rd f = s.rd f := rfl
@[simp] theorem State.rd_modLink (k : Fin 6) (h : Link → Link) (f : Fld) : (s.modLink k h).rd f = s.rd f := rfl
@[simp] theorem State.rd_modIlace (k : Fin 6) (h : Ilace → Ilace) (f : Fld) : (s.modIlace k h).rd f = s.rd f := rfl
@[simp] theorem State.rd_modRing (k : Fin 6) (h : Ring → Ring) (f : Fld) : (s.modRing k h).rd f = s.rd f := rfl
@[simp] theorem State.rd_modFeeds (k : Fin 6) (h : List Feed → List Feed) (f : Fld) : (s.modFeeds k h).rd f = s.rd f := rfl
@[simp] theorem State.rd_modCtx (k : Fin 24) (h : Ctx → Ctx) (f : Fld) : (s.modCtx k h).rd f = s.rd f := rfl

/-! ### Notices of a page (R505) -/

/-- A field that is no pending bit of the MSI-X table. -/
def notPba (f : Fld) : Prop := ∀ w, f.key ≠ (F.MSIX_PBA w).key

theorem State.rd_msix {f : Fld} (h : notPba f) (v : Nat) : (s.msix v).rd f = s.rd f := by
  unfold State.msix
  split
  · exact s.rd_wr_ne (h _) _
  · rfl

theorem State.rd_notify {f : Fld} (h : notPba f) (p : Nat) (e : Option Nat) : (s.notify p e).rd f = s.rd f := by
  unfold State.notify
  repeat' split
  all_goals first | rfl | exact s.rd_msix h _

theorem State.rd_event {f : Fld} (h : notPba f) {p : Nat} (hp : f.key ≠ (H.EVT p).key) (i : Nat) : (s.event p i).rd f = s.rd f := by
  unfold State.event State.ifDo
  split
  · rw [State.rd_notify _ h, State.rd_wr_ne _ hp]; rfl
  · rw [State.rd_wr_ne _ hp]; rfl

theorem State.rd_fltBit {f : Fld} (h : notPba f) {p : Nat} (hf : f.key ≠ (H.FLT p).key) (h1 : f.key ≠ (H.FIRST p).key) (i : Nat) :
    (s.fltBit p i).rd f = s.rd f := by
  unfold State.fltBit State.fltFirst State.ifDo
  dsimp only
  repeat' split
  all_goals simp [State.rd_notify _ h, State.rd_wr_ne _ hf, State.rd_wr_ne _ h1]

/-! ### The guard of a write (R8–R11) -/

theorem State.wake_eq {a : Agent} (h : a = .host → s.dev ≠ stSlack) : s.wake a = s := by
  cases a <;> simp_all [State.wake]

theorem State.write_ok {a : Agent} {p off : Nat} (h : writable s a p off) (k : State → State) : s.write a p off k = k s := by
  obtain ⟨h1, h2, h3, h4, h5⟩ := h
  simp [State.write, State.guarded, s.wake_eq h5, h1, h2, h3, h4]

/-- A write that is turned away is counted and changes nothing else (R10). -/
theorem State.write_denied {a : Agent} {p off : Nat} (h : deniedWrite s a p off) (k : State → State) :
    s.write a p off k = s.countDenied a p off := by
  obtain ⟨h1, h2, h5⟩ := h
  rcases h2 with h | h | h <;> simp [State.write, State.guarded, s.wake_eq h5, h1, h]

end Sys2Proof.Machine
end

