-- ==== Sys2Proof/Laws/Memory.lean ====
section
/-!
SUPPORT. The canonical form: every operation over memory, the register file and the staging copies keeps it; and a byte read
after a write.
-/
namespace Sys2Proof.Machine

variable {α : Type}

/-! ### Sorted maps -/

theorem Sparse.sorted_iff (m : SparseMap α) : Sparse.sorted m = true ↔ m.Pairwise fun a b => a.1 < b.1 := by
  induction m with
  | nil => simp [Sparse.sorted]
  | cons e r ih =>
    cases r with
    | nil => simp [Sparse.sorted]
    | cons e2 r =>
      simp only [Sparse.sorted, Bool.and_eq_true, decide_eq_true_eq, ih]
      constructor
      · rintro ⟨h, hr⟩
        refine List.pairwise_cons.mpr ⟨fun x hx => ?_, hr⟩
        rcases List.mem_cons.mp hx with rfl | hx
        · exact h
        · exact Nat.lt_trans h ((List.pairwise_cons.mp hr).1 x hx)
      · intro h
        exact ⟨(List.pairwise_cons.mp h).1 e2 (by simp), (List.pairwise_cons.mp h).2⟩

theorem Sparse.del_eq_filter (k : Nat) (m : SparseMap α) : Sparse.del k m = m.filter fun e => e.1 != k := by
  induction m with
  | nil => rfl
  | cons e r ih => by_cases h : e.1 = k <;> simp [Sparse.del, h, ih]

theorem Sparse.sorted_filter (p : Nat × α → Bool) {m : SparseMap α} (h : Sparse.sorted m = true) : Sparse.sorted (m.filter p) = true :=
  (Sparse.sorted_iff _).mpr (((Sparse.sorted_iff _).mp h).filter p)

theorem Sparse.sorted_del (k : Nat) {m : SparseMap α} (h : Sparse.sorted m = true) : Sparse.sorted (Sparse.del k m) = true :=
  Sparse.del_eq_filter k m ▸ Sparse.sorted_filter _ h

theorem Sparse.mem_ins {k : Nat} {v : α} {m : SparseMap α} {e : Nat × α} : e ∈ Sparse.ins k v m ↔ e = (k, v) ∨ e ∈ m := by
  induction m with
  | nil => simp [Sparse.ins]
  | cons a r ih =>
    simp only [Sparse.ins]
    split
    · simp only [List.mem_cons]
    · simp only [List.mem_cons, ih]; exact or_left_comm

theorem Sparse.sorted_ins (v : α) {k : Nat} {m : SparseMap α} (hf : Sparse.fresh k m) (h : Sparse.sorted m = true) :
    Sparse.sorted (Sparse.ins k v m) = true := by
  rw [Sparse.sorted_iff] at h ⊢
  induction m with
  | nil => simp [Sparse.ins]
  | cons a r ih =>
    obtain ⟨ha, hr⟩ := List.pairwise_cons.mp h
    simp only [Sparse.ins]
    split
    · rename_i hk
      refine List.pairwise_cons.mpr ⟨fun x hx => ?_, h⟩
      rcases List.mem_cons.mp hx with rfl | hx
      · exact hk
      · exact Nat.lt_trans hk (ha x hx)
    · rename_i hk
      have hne : a.1 ≠ k := hf a (by simp)
      refine List.pairwise_cons.mpr ⟨fun x hx => ?_, ih (fun e he => hf e (by simp [he])) hr⟩
      rcases Sparse.mem_ins.mp hx with rfl | hx
      · simp only; omega
      · exact ha x hx

theorem Sparse.sorted_set (k : Nat) (v : α) {m : SparseMap α} (h : Sparse.sorted m = true) :
    Sparse.sorted (Sparse.ins k v (Sparse.del k m)) = true := Sparse.sorted_ins v (Sparse.fresh_del k m) (Sparse.sorted_del k h)

theorem Sparse.sorted_put [DecidableEq α] (d : α) (k : Nat) (v : α) {m : SparseMap α} (h : Sparse.sorted m = true) :
    Sparse.sorted (Sparse.put d k v m) = true := by
  simp only [Sparse.put]; split
  · exact Sparse.sorted_del k h
  · exact Sparse.sorted_set k v h

/-! ### Memory -/

theorem Memory.wf_put (a : Nat) (b : Byte) {m : List Host.Cell} (h : Memory.wf m = true) : Memory.wf (Sparse.put memDefault a b m) = true := by
  simp only [Memory.wf, Bool.and_eq_true, List.all_eq_true] at h ⊢
  refine ⟨Sparse.sorted_put _ a b h.1, fun e he => ?_⟩
  have hd : ∀ x ∈ Sparse.del a m, (x.2 != memDefault) = true := fun x hx => h.2 x ((List.mem_filter.mp (Sparse.del_eq_filter a m ▸ hx)).1)
  simp only [Sparse.put] at he
  split at he
  · exact hd e he
  · rcases Sparse.mem_ins.mp he with rfl | he
    · simpa using ‹¬b = memDefault›
    · exact hd e he

theorem Memory.wf_filter (p : Host.Cell → Bool) {m : List Host.Cell} (h : Memory.wf m = true) : Memory.wf (m.filter p) = true := by
  simp only [Memory.wf, Bool.and_eq_true, List.all_eq_true] at h ⊢
  exact ⟨Sparse.sorted_filter p h.1, fun e he => h.2 e ((List.mem_filter.mp he).1)⟩

variable {s : State}

@[simp] theorem State.ldByte_stByte_same (a v : Nat) : (s.stByte a v).ldByte a = v % 256 := by
  simp [State.ldByte, State.stByte, BitVec.toNat_ofNat]

theorem State.ldByte_stByte_ne {a b : Nat} (h : b ≠ a) (v : Nat) : (s.stByte a v).ldByte b = s.ldByte b := by
  simp [State.ldByte, State.stByte, Sparse.get_put_ne _ _ h]

theorem State.ldByte_stBytes_out (l : List Nat) (a b : Nat) (s : State) (h : b < a ∨ a + l.length ≤ b) :
    (s.stBytes a l).ldByte b = s.ldByte b := by
  induction l generalizing a s with
  | nil => rfl
  | cons x r ih =>
    have h' : b < a ∨ a + (r.length + 1) ≤ b := by simpa using h
    rw [State.stBytes, ih (a + 1) (s.stByte a x) (by omega), State.ldByte_stByte_ne (by omega)]

theorem State.wf_stByte (a v : Nat) (h : Memory.wf s.mem = true) : Memory.wf (s.stByte a v).mem = true := Memory.wf_put a _ h

theorem State.wf_stBytes (l : List Nat) (a : Nat) (s : State) (h : Memory.wf s.mem = true) : Memory.wf (s.stBytes a l).mem = true := by
  induction l generalizing a s with
  | nil => exact h
  | cons x r ih => exact ih (a + 1) _ (State.wf_stByte a x h)

theorem State.wf_st (a n v : Nat) (h : Memory.wf s.mem = true) : Memory.wf (s.st a n v).mem = true := State.wf_stBytes _ a s h

theorem State.wf_clearMem (a n : Nat) (h : Memory.wf s.mem = true) : Memory.wf (s.clearMem a n).mem = true := Memory.wf_filter _ h

/-! ### The register file and the staging copies -/

theorem State.sorted_wr (f : Fld) (v : Nat) (h : Sparse.sorted s.regs = true) : Sparse.sorted (s.wr f v).regs = true :=
  Sparse.sorted_put _ _ _ h

theorem State.sorted_stgWr (f : Fld) (v : Nat) (h : Sparse.sorted s.stg = true) : Sparse.sorted (s.stgWr f v).stg = true :=
  Sparse.sorted_set _ _ h

theorem Sparse.sorted_setAll (l m : SparseMap α) (h : Sparse.sorted m = true) :
    Sparse.sorted (l.foldl (fun (r : SparseMap α) (e : Nat × α) => Sparse.ins e.1 e.2 (Sparse.del e.1 r)) m) = true := by
  induction l generalizing m with
  | nil => exact h
  | cons e r ih => exact ih _ (Sparse.sorted_set e.1 e.2 h)

theorem State.canon_stByte (a v : Nat) (h : s.canon = true) : (s.stByte a v).canon = true := by
  simp only [State.canon, Bool.and_eq_true] at h ⊢
  exact ⟨⟨⟨State.wf_stByte a v h.1.1.1, h.1.1.2⟩, h.1.2⟩, h.2⟩

theorem State.canon_wr (f : Fld) (v : Nat) (h : s.canon = true) : (s.wr f v).canon = true := by
  simp only [State.canon, Bool.and_eq_true] at h ⊢
  exact ⟨⟨⟨h.1.1.1, State.sorted_wr f v h.1.1.2⟩, h.1.2⟩, h.2⟩

theorem State.canon_stgWr (f : Fld) (v : Nat) (h : s.canon = true) : (s.stgWr f v).canon = true := by
  simp only [State.canon, Bool.and_eq_true] at h ⊢
  exact ⟨⟨⟨h.1.1.1, h.1.1.2⟩, State.sorted_stgWr f v h.1.2⟩, h.2⟩

theorem State.reset_wf : Memory.wf State.reset.mem = true := by decide

end Sys2Proof.Machine
end

