-- ==== Sys2Proof/WellFormed.lean ====
section
/-!
DEFINITION. Well-formed commands: every operand fits the field or bus that carries it.  The meanings are total without it.
-/
namespace Sys2Proof

/-- Each value fits its width in bits. -/
def fits (l : List (Nat × Nat)) : Bool := l.all fun x => decide (x.1 < 2 ^ x.2)

/-- Each element of a list fits a width. -/
def listFits (w : Nat) (l : List Nat) : Bool := l.all fun x => decide (x < 2 ^ w)

/-- The 32-bit fields of an SQ entry's header (Table 10.4). -/
def MsgHdr.fits (h : MsgHdr) : Bool := Sys2Proof.fits [(h.seq, 32), (h.epoch, 32), (h.job, 32)]

def wellFormed (i : Instr) : Bool :=
  match i with
  | .rstNRelease _ _ _ => true
  | .rstNAssert => true
  | .internalPowerOnReset _ _ _ => true
  | .warmStart => true
  | .bootDone => true
  | .fillDone => true
  | .dramFillDone _ _ gib => fits [(gib, 8)]
  | .registerWrite _ page off value size => fits [(page, 8), (off, 20), (value, 32), (size, 4)]
  | .commit _ page => fits [(page, 8)]
  | .lock _ page => fits [(page, 8)]
  | .isolate _ page => fits [(page, 8)]
  | .isolateRestore _ page => fits [(page, 8)]
  | .ownerChange _ page _ => fits [(page, 8)]
  | .pageAbort _ page => fits [(page, 8)]
  | .pgEvtClear _ page mask => fits [(page, 8), (mask, 32)]
  | .pgFltClear _ page mask => fits [(page, 8), (mask, 32)]
  | .statusFlagClear _ page _ _ => fits [(page, 8)]
  | .runStart => true
  | .announceInstant => true
  | .feedGate => true
  | .ptSkip _ n => fits [(n, 8)]
  | .anchorWindowEnd _ => true
  | .commitGate _ => true
  | .divertDeadline _ => true
  | .exitWindowEnd _ => true
  | .headUnderrun _ => true
  | .bdEdge _ t px => fits [(t, 72), (px, 72)]
  | .bdWindowEnd _ => true
  | .bdMissing _ => true
  | .indexEdge _ => true
  | .idxMissing _ => true
  | .frefIncWrite _ _ value => fits [(value, 32)]
  | .resistanceTestStart _ => true
  | .testEmitter _ => true
  | .testResult _ _ _ v1 v2 => fits [(v1, 16), (v2, 16)]
  | .testTimeout _ => true
  | .testWindowEnd _ => true
  | .ilTestNow _ _ value => fits [(value, 32)]
  | .ilDeadWrite _ _ _ value => fits [(value, 32)]
  | .replan _ _ v4Max v4Min rpmMin rpmMax => fits [(v4Max, 16), (v4Min, 16), (rpmMin, 32), (rpmMax, 32)]
  | .htempSample _ code => fits [(code, 12)]
  | .headCut _ => true
  | .markEdge _ stamp => fits [(stamp, 72)]
  | .markWindowOpen => true
  | .markWindowClose => true
  | .registrationCorrection => true
  | .linkTraining _ => true
  | .retrain _ _ value => fits [(value, 32)]
  | .statusLaneTimeout _ => true
  | .trainingTimeout _ => true
  | .quenchRepeat _ => true
  | .alignSend _ => true
  | .cmdAckTimeout _ => true
  | .status _ flags lock scan rxerr => fits [(flags, 16), (lock, 16), (scan, 32), (rxerr, 16)]
  | .ack _ tag => fits [(tag, 8)]
  | .scanErr _ scanNo lanes => fits [(scanNo, 32), (lanes, 8)]
  | .statusTimeout _ => true
  | .replySlot _ => true
  | .headMemoryRead _ bytes => listFits 8 bytes
  | .separationWritten pageId _ _ => fits [(pageId, 32)]
  | .firstHeaderFetch pageId _ _ => fits [(pageId, 32)]
  | .decodeBlockStart _ => true
  | .decodeBlockDone _ => true
  | .zeroFillLine _ => true
  | .go _ _ value => fits [(value, 32)]
  | .encodeJobDone _ data => listFits 8 data
  | .encodeJobFail _ _ => true
  | .encodeAbort _ _ _ => true
  | .bankRead _ addr _ flight => fits [(addr, 48), (flight, 80)]
  | .bankWrite _ addr data enables flight => fits [(addr, 48), (data, 64), (enables, 8), (flight, 80)]
  | .dramRead _ addr wrong0 wrong1 flight rebuilt _ _ => fits [(addr, 48), (wrong0, 80), (wrong1, 80), (flight, 80), (rebuilt, 48)]
  | .dramWrite _ addr words enables flight _ _ => fits [(addr, 48), (enables, 8), (flight, 80)] && listFits 64 words
  | .dramRetrain _ chans => fits [(chans, 2)]
  | .rebuildDone _ => true
  | .sealGo _ page count => fits [(page, 14), (count, 12)]
  | .sealDone => true
  | .scrubRead addr _ wrong0 wrong1 _ => fits [(addr, 48), (wrong0, 80), (wrong1, 80)]
  | .scrubLate _ => true
  | .doorbell _ _ => true
  | .descriptorFetch _ host _ => listFits 8 host
  | .dmaBurstGrant requests => fits [(requests, 32)]
  | .dmaBurstDone _ data _ _ => listFits 8 data
  | .pause _ _ => true
  | .resume _ _ => true
  | .clear _ _ => true
  | .dmaAbort _ _ => true
  | .pauseDrained _ => true
  | .dcHeadWrite _ _ _ value => fits [(value, 32)]
  | .windowRevoke _ _ _ value => fits [(value, 32)]
  | .partnerTimeout _ => true
  | .functionReset _ => true
  | .bar2Write off _ _ => fits [(off, 21)]
  | .bar2Read off len => fits [(off, 21), (len, 13)]
  | .msixSend _ => true
  | .irqHoldoffExpiry => true
  | .ringsEnable _ _ => true
  | .sqTailWrite _ tail => fits [(tail, 12)]
  | .cqHeadWrite _ head => fits [(head, 12)]
  | .badCrc => true
  | .badType hdr type => fits [(type, 8)] && hdr.fits
  | .sessionOpen hdr hostTag version => fits [(hostTag, 32), (version, 16)] && hdr.fits
  | .sessionResume hdr lastAck lastDseq hostTag => fits [(lastAck, 32), (lastDseq, 32), (hostTag, 32)] && hdr.fits
  | .sessionClose hdr => hdr.fits
  | .keepalive hdr => hdr.fits
  | .windowSet hdr window _ _ _ base size => fits [(window, 8), (base, 64), (size, 32)] && hdr.fits
  | .jobOpen hdr stations _ _ => fits [(stations, 8)] && hdr.fits
  | .jobClose hdr => hdr.fits
  | .jobAbort hdr => hdr.fits
  | .jobDone job => fits [(job, 32)]
  | .pageDefine hdr pageId sheetLen width height fmt => fits [(pageId, 32), (sheetLen, 32), (width, 32), (height, 32), (fmt, 8)] && hdr.fits
  | .sepSubmit hdr pageId station _ _ effort _ window offset partOffs length streamLen stride => fits [(pageId, 32), (station, 8), (effort, 8), (window, 8), (offset, 64), (partOffs, 32), (length, 32), (streamLen, 32), (stride, 32)] && hdr.fits
  | .sepWritten hdr pageId station _ mbOffs partOffs length streamLen => fits [(pageId, 32), (station, 8), (mbOffs, 32), (partOffs, 32), (length, 32), (streamLen, 32)] && hdr.fits
  | .pageRelease hdr pageId => fits [(pageId, 32)] && hdr.fits
  | .pageRetire hdr pageId => fits [(pageId, 32)] && hdr.fits
  | .pageQuery hdr pageId => fits [(pageId, 32)] && hdr.fits
  | .partDone pageId _ partOffs result status data => fits [(pageId, 32), (partOffs, 32), (result, 8), (status, 8)] && listFits 8 data
  | .hostSilent => true
  | .edkarCycle _ => true
  | .moduleWindowClose _ _ => true
  | .moduleStatus _ _ tid flags events tag => fits [(tid, 8), (flags, 16), (events, 16)] && listFits 8 tag
  | .identity _ _ tid vendor model serial version cls caps => fits [(tid, 8), (vendor, 16), (model, 16), (serial, 64), (version, 16), (cls, 8), (caps, 16)]
  | .authResponse _ _ tid response => fits [(tid, 8)] && listFits 8 response
  | .sheetReply _ _ tid sheet decision tag => fits [(tid, 8), (sheet, 32), (decision, 8)] && listFits 8 tag
  | .moduleAck _ _ tid tag => fits [(tid, 8)] && listFits 8 tag
  | .moduleEvent _ _ eseq code sheet time tag => fits [(eseq, 16), (code, 8), (sheet, 32), (time, 64)] && listFits 8 tag
  | .malformedFrame _ _ => true
  | .budgetViolation _ _ => true
  | .outOfWindowActivity _ => true
  | .throttleExpiry _ _ => true
  | .announceDeadline sheet => fits [(sheet, 32)]
  | .feedDeadline sheet => fits [(sheet, 32)]
  | .authPeriodExpiry _ _ => true
  | .portStop _ _ => true
  | .portStart _ _ => true
  | .moduleClear _ _ _ => true
  | .sheetSensorEdge _ _ stamp => fits [(stamp, 64)]
  | .lockoutEnd _ => true
  | .trackWindowEnd _ _ _ => true
  | .declare _ zone => fits [(zone, 4)]
  | .pathClear => true
  | .stepperSample _ => true
  | .estop _ _ => true
  | .home _ _ => true
  | .coarseStep _ _ => true
  | .encoderCount _ _ _ => true
  | .encoderIndex _ => true
  | .encoderSpeed _ => true
  | .resync _ _ => true
  | .commutationEdge _ _ => true
  | .sectorTimeout _ => true
  | .motorSample _ => true
  | .stall _ => true
  | .start _ _ => true
  | .stop _ _ => true
  | .coast _ _ => true
  | .keProbe _ _ => true
  | .startAdmit _ => true
  | .listenDone _ => true
  | .alignDone _ => true
  | .busSample _ => true
  | .test _ _ => true
  | .resetTrip _ _ => true
  | .slotSample _ _ delay => fits [(delay, 32)]
  | .fixedLatencyApply _ _ => true
  | .slModeWrite _ _ _ value => fits [(value, 32)]
  | .slotMove _ _ _ _ _ => true
  | .adcFrame _ => true
  | .adcResult _ _ code => fits [(code, 12)]
  | .pwmPeriodStart _ => true
  | .sequenceEntryStart _ => true
  | .itemAdmit _ => true
  | .railPgEdge _ _ => true
  | .railQualified _ => true
  | .railLost _ => true
  | .railTimeout _ => true
  | .railFallTimeout _ => true
  | .railOff _ => true
  | .domainRampDone _ => true
  | .down _ => true
  | .retry _ => true
  | .avsRetry _ => true
  | .cascadeWaitTimeout => true
  | .seqUiFall => true
  | .seqUiRise => true
  | .pfw => true
  | .pfwHoldEnd => true
  | .pfwRecover => true
  | .pfwAutoUp => true
  | .sequenceDone => true
  | .slackEnter => true
  | .slackExit => true
  | .avsEvaluate utils _ => listFits 8 utils
  | .avsReadbackCheck _ => true
  | .refLoss => true
  | .refLossLong => true
  | .refReturn => true
  | .adpllLock _ => true
  | .adpllUnlock _ => true
  | .adpllAcquireTimeout _ => true
  | .ckPllWrite _ _ value => fits [(value, 32)]
  | .ckFracWrite _ _ frac => fits [(frac, 32)]
  | .pxTakeover => true
  | .dllLock _ => true
  | .dllUnlock _ => true
  | .relock _ => true
  | .baseSynthLock => true
  | .faultDispatch => true
  | .mergeWindowExpiry _ => true
  | .firstClr _ => true
  | .unackClear _ _ mask => fits [(mask, 32)]
  | .stickyClear _ _ mask => fits [(mask, 32)]
  | .assayGo _ src => fits [(src, 8)]
  | .assayStart _ => true
  | .assayDone _ _ _ => true
  | .lockstep _ _ => true
  | .roleMove => true
  | .beat _ => true
  | .hbMiss => true
  | .supPromoted _ _ => true
  | .hmWaitTimeout => true
  | .hmSilent => true
  | .harbourmasterResync _ => true
  | .hmVote _ _ _ => true
  | .tempWarn tj => fits [(tj, 16)]
  | .tempCrit tj => fits [(tj, 16)]
  | .stage _ => true
  | .stageDone _ => true
  | .tryBoot _ => true
  | .update _ => true
  | .updateRoleMoved _ => true
  | .accept _ => true
  | .abort _ => true
  | .write _ => true
  | .select _ => true
  | .keyWrite _ => true
  | .keyLock _ => true
  | .keyErase _ => true
  | .legacyRead addr => fits [(addr, 10)]
  | .legacyWrite addr value => fits [(addr, 10), (value, 16)]
  | .legacyWriteApply => true
  | .legacyProtocolError => true
  | .imageRefresh => true
  | .zerrRead => true
  | .countLoRead _ => true
  | .zintClear mask => fits [(mask, 16)]
  | .softRst => true
  | .submit _ tag => fits [(tag, 8)]
  | .zpageAbort => true
  | .rasterEnable _ _ burst => fits [(burst, 8)]
  | .rasterWord => true
  | .dackTransfer word => fits [(word, 16)]
  | .zpolyStart => true
  | .zpolyStop => true
  | .polyLockInput _ _ => true
  | .zmigKey value => fits [(value, 16)]
  | .windowRead _ => true
  | .windowWrite _ value => fits [(value, 16)]
  | .tbAlarmWrite _ tick => fits [(tick, 64)]
  | .arm _ _ => true
  | .alarm => true
  | .cascadeWaitDone _ => true
  | .domainSwitchTimeout _ => true
  | .blockLockLost _ => true
  | .pcieLinkUp speed width => fits [(speed, 4), (width, 6)]
  | .configurationWrite _ _ aerMask => fits [(aerMask, 32)]
  | .tempWarnEnd tj => fits [(tj, 16)]

end Sys2Proof
end

