-- ==== Sys2Proof/Tests/Slice0.lean ====
section
/-!
SUPPORT. Tests: a well-formed and an ill-formed term of every check, the spec's worked examples, and for every statement with
hypotheses states and operands that meet them, clause by clause.
-/

def Sys2Proof.Machine.State.at_ (t : Nat) (s : State) : State := { s with time := t }
def Sys2Proof.Machine.State.fcm (f : Collector → Collector) (s : State) : State := { s with fc := f s.fc }
def Sys2Proof.Machine.State.brm (f : Berths → Berths) (s : State) : State := { s with berths := f s.berths }
def Sys2Proof.Machine.State.dmm (f : Dma → Dma) (s : State) : State := { s with dma := f s.dma }
def Sys2Proof.Machine.State.mom (f : Motion → Motion) (s : State) : State := { s with mo := f s.mo }

namespace Sys2Proof.Tests

open Sys2Proof Sys2Proof.Machine

set_option Elab.async false
set_option maxRecDepth 4000
set_option linter.unusedVariables false

/-! ### States to test in -/

def fs (l : List (Fld × Nat)) : State := l.foldl (fun s x => s.wr x.1 x.2) (State.reset.wr (H.STATE 0x008) 0)
def sl0 : Slot := ⟨1, 1, 0, 0, 0, 0, 0, 0, 0, [], 0, 0, 0, none, false, false, [], 0, 0, [], 0, false⟩
def h0 : MsgHdr := ⟨1, 1, 0, false, true⟩
def pg : Page := ⟨1, 1, 1, 1, 1, 0, .defined, false, none, 0, 0, 0, false, false, false, false, [], 0, none, none⟩
def pt : Part := ⟨0, 0, [], false⟩
def sp : Machine.Sep := ⟨0, [pt], some 0, false, []⟩
def jb : Job := ⟨1, 1, false, false, false, false, 0, 0⟩
def pit : Pitch := ⟨0, .sheet, 1, 1, false, false, .accept, false⟩
def tr0 : EdTrans := ⟨4, 0, 0, [], 0, false, false⟩
def hc0 : HeadCmd := ⟨0x20, 0, 0, 0, 0, 0⟩
def fd : Feed := ⟨0, 1, 0, 0, 1, 1, 0, 1, 0, 0, false⟩
def mp : MarkPage := ⟨0, 1, 0, 1, [0], 0, false⟩
def an0 : EdAnnounce := ⟨0, [], 0, some [], [], false, none⟩
def qs (l : List (Fld × Nat)) : State :=
  (fs ([(F.QY_STAT_RINGS, 1), (H.STATE 0, stReady), (F.BR_ROLE_ROLE 1, 1), (H.STATE 9, 0), (H.STATE 0x0D0, 1), (F.QY_EPOCH_EPOCH, 1)] ++ l)).modQuay
    (fun y => { y with sqTail := 1 })
def h1 : MsgHdr := { h0 with job := 1 }
/-- The domains of the banks are ON and DRAM channel 0 is READY with 1 GiB. -/
def ms (l : List (Fld × Nat)) : State :=
  fs ([(F.PD_CFG_STATE 1, 2), (F.PD_CFG_STATE 2, 2), (F.PD_CFG_STATE 4, 2), (F.PD_CFG_STATE 6, 2), (chState 0, chReady), (chCap 0, 1)] ++ l)
/-- A page of one line of 8 pixels whose separation of station A is a stream in extent 0. -/
def strm : List Nat := encodeStream ⟨false, 4, 1⟩ false 0 65536 [1, 2, 3, 4]
def spS : Machine.Sep := ⟨0, [⟨0, strm.length, [], true⟩], some strm.length, false, [(0, 0)]⟩
def pgS : Page := { pg with width := 4, fmt := 128, seps := [spS] }
def spT : Machine.Sep := { spS with stored := true }
def pgT : Page := { pgS with st := .fed, seps := [spT] }
def ds (p : Page) (l : List (Fld × Nat)) : State :=
  ((ms l).memPuts 0x1000000000 8 strm).modTl fun y => { y with pages := [p], jobs := [jb] }
/-- A profile slot of version 1 with the default sequence tables and no record (R466). -/
def slotMem : List Host.Cell :=
  [(0, 0x49), (1, 0x52), (2, 0x50), (3, 0x46), (4, 1), (8, 0x48), (9, 5), (0xFC, 142), (0xFD, 213), (0xFE, 84), (0xFF, 146),
    (960, 11), (964, 1), (968, 7), (972, 8), (976, 10), (980, 2), (984, 3), (988, 6), (992, 9), (996, 4), (1000, 5), (1004, 63),
    (1152, 5), (1156, 4), (1160, 9), (1164, 6), (1168, 3), (1172, 2), (1176, 10), (1180, 8), (1184, 7), (1188, 1), (1192, 11),
    (1196, 63), (1344, 2)].map fun c => (0x05000000 + c.1, BitVec.ofNat 8 c.2)
theorem someGetD {o : Option (List Nat)} (h : o.isSome = true) : o = some (o.getD []) := by cases o <;> simp_all
/-- A head memory of one emitter with valid checks. -/
def hmA : List Nat := ([0x48, 0x4D, 1] ++ List.replicate 15 0 ++ [1, 1, 1, 0, 0, 0, 0, 0, 1] ++ List.replicate 0x40 0).take 0x3C
def hmem : List Nat :=
  hmA ++ leBytes (crc32c hmA) 4 ++ List.replicate 0xC0 0 ++ List.replicate 0x200 0 ++ leBytes (crc32c (List.replicate 0x200 0)) 4
def hs0 (l : List (Fld × Nat)) : State :=
  (fs ([(F.IL_GEOM_NEMIT 0, 1), (F.IL_GEOM_A 0, 1), (F.BT_STROBE_HEAD_LAT 0, 0)] ++ l)).modClk fun c =>
    { c with setDiv := c.setDiv.set 0 1 |>.set 1 1, setN := c.setN.set 0 0 |>.set 1 0 }
def bm (f : Beam → Beam) (l : List (Fld × Nat)) : State := (fs l).modBeam 0 fun y => f { y with begun := true, times := [0, 0] }
/-- Module 1 of port E0 with its window open, not authenticated. -/
def em (f : EdModule → EdModule) (l : List (Fld × Nat)) : State :=
  (fs ([(H.STATE 0x0D8, 2), (F.ED_MOD_STATE 0 1, 2)] ++ l)).modMod 0 1 fun y => f { y with window := true }
def lnk (f : Link → Link) (l : List (Fld × Nat)) : State := (fs l).modLink 0 f
def ilc (f : Ilace → Ilace) (l : List (Fld × Nat)) : State := (fs l).modIlace 0 f
def lr0 : LoopRegs := ⟨0, 0, 0, 0, 0, 0, 0, 0, 0, 0, 1, 0, 0, false, false⟩
def nc0 : NotchCoef := ⟨0, 0, 0, 0, 0⟩
def grp (f : BusGroup → BusGroup) (l : List (Fld × Nat)) : State := (fs l).modGroup 0 f
def stp0 (f : Stepper → Stepper) (l : List (Fld × Nat)) : State := (fs l).modStp 0 f
def enc0 (f : Encoder → Encoder) (l : List (Fld × Nat)) : State := (fs l).modEnc 0 f
def adc0 (f : AdcConv → AdcConv) (l : List (Fld × Nat)) : State := (fs l).modAdc 0 f
/-- The emulation runs: the ZE-40 personality in READY with a holder of role 0x1. -/
def zs (f : Legacy → Legacy) (l : List (Fld × Nat)) : State :=
  (fs ([(F.DV_INFO_ZE40, 1), (H.STATE 0, stReady), (F.BR_ROLE_ROLE 1, 1)] ++ l)).modLg f

theorem ld_congr {s t : State} (h : s.mem = t.mem) : ∀ (n a : Nat), s.ldBytes a n = t.ldBytes a n
  | 0, _ => rfl
  | n + 1, a => by rw [State.ldBytes, State.ldBytes, ld_congr h n (a + 1), State.ldByte, State.ldByte, h]
theorem records_congr {s t : State} (h : s.mem = t.mem) (e : Nat) : ∀ (n a : Nat), s.recordsOk e n a = t.recordsOk e n a
  | 0, _ => rfl
  | n + 1, a => by
    have hl : s.ld = t.ld := by funext x y; simp only [State.ld, ld_congr h]
    have hr : s.recordsOk e n = t.recordsOk e n := funext (records_congr h e n)
    unfold State.recordsOk; rw [hl, hr]
theorem slot_congr {s t : State} (h : s.mem = t.mem) (hb : s.boot.minus4S = t.boot.minus4S) (p : Nat) :
    s.slotValid p = t.slotValid p := by
  have hl : s.ld = t.ld := by funext x y; simp only [State.ld, ld_congr h]
  have hB : s.ldBytes = t.ldBytes := by funext x y; rw [ld_congr h]
  have hb1 : s.ldByte = t.ldByte := by funext x; rw [State.ldByte, State.ldByte, h]
  have hr : s.recordsOk = t.recordsOk := by funext x y z; exact records_congr h x y z
  unfold State.slotValid State.slotForm State.slotNames State.slotTables; rw [hl, hB, hb1, hr, hb]
theorem slot_base : ({ State.reset with mem := slotMem } : State).slotValid 0 = true := by decide +kernel
theorem slot_valid {s : State} {p : Nat} (h : s.mem = slotMem) (hb : s.boot.minus4S = false ∧ p = 0) : s.slotValid p = true := by
  rw [hb.2, slot_congr (t := { State.reset with mem := slotMem }) h hb.1 0]; exact slot_base
/-- Words of a bank in which nothing is written and nothing has flipped. -/
theorem readByte_clean {s : State} (hm : s.mem = []) (hu : s.mu.upsets = []) (x : Nat) : s.readByte x = .clean 0 := by
  have h1 : s.ldByte x = 0 := by rw [State.ldByte, hm]; rfl
  have h2 : s.upset x = 0 := by rw [State.upset, hu]; rfl
  rw [State.readByte, h1, h2]; decide
theorem bankWord_clean {s : State} (hm : s.mem = []) (hu : s.mu.upsets = []) (a : Nat) (m : Master) : s.bankWord a m = (some 0, s) := by
  have h : (fun i => s.readByte (a + i)) = fun _ => .clean 0 := funext fun i => readByte_clean hm hu _
  unfold State.bankWord; rw [h]; rfl
theorem memWords_clean {s : State} (hm : s.mem = []) (hu : s.mu.upsets = []) (m : Master) : ∀ (n a : Nat),
    (∀ i < n, s.inBank (a + 8 * i) 8 = true) → s.memWords a m n = (some (List.replicate (8 * n) 0), s)
  | 0, _, _ => rfl
  | n + 1, a, h => by
    have h0 : s.inBank a 8 = true := h 0 (by omega)
    rw [State.memWords, State.memWord, if_pos h0, bankWord_clean hm hu]
    simp only []
    rw [memWords_clean hm hu m n (a + 8) fun i hi => by have := h (i + 1) (by omega); rwa [show a + 8 + 8 * i = a + 8 * (i + 1) by omega]]
    show (some ([0, 0, 0, 0, 0, 0, 0, 0] ++ _), s) = _
    rw [show 8 * (n + 1) = 8 + 8 * n by omega, ← List.replicate_append_replicate]; rfl
theorem memBytes_clean {s : State} {a n : Nat} {m : Master} (hm : s.mem = [] ∧ s.mu.upsets = [])
    (h : a % 8 = 0 ∧ ∀ i < (n + 7) / 8, s.inBank (a + 8 * i) 8 = true) : s.memBytes a n m = (some (List.replicate n 0), s) := by
  obtain ⟨h1, h3⟩ := h
  rw [State.memBytes, show a / 8 * 8 = a by omega, show (a % 8 + n + 7) / 8 = (n + 7) / 8 by omega,
    memWords_clean hm.1 hm.2 m ((n + 7) / 8) a h3]
  simp only [h1, List.drop_zero]
  rw [List.take_replicate, show min n (8 * ((n + 7) / 8)) = n by omega]
/-- Slot 0 of engine 0 in AUTO, free of the motors. -/
def lp4 : State := ms ([(F.SL_STAT_STATE 0 0, 2), (F.SL_MODE_MODE 0 0, 2)] ++ (List.range 12).map fun n => (F.CM_LOOP_SLOT n, 31))
def lp4t : State :=
  (((lp4.modLoop 0 0 fun q => { q with sampled := 1 }).wr (F.LE_STAT_DUE_MAX 0)
    (max (lp4.rd (F.LE_STAT_DUE_MAX 0)) (min 31 (lp4.dueBelow 0 32)))).modLoop 0 0 fun q => { q with busyTo := 0 }).wr
      (F.LE_STAT_DELAY_MAX 0) (max 0 (lp4.rd (F.LE_STAT_DELAY_MAX 0)))
def lp11 : State := ms [(H.ISOLATED 0x0C0, 1), (F.BR_ROLE_ROLE 4, 4), (H.STATE 0x00C, 0)]

/-! ### An operand that does not fit is refused -/

theorem wf_refuses_1 : ([.dramFillDone 0 false (2 ^ 8),
    .registerWrite .host (2 ^ 8) 0 0 0,
    .commit .host (2 ^ 8),
    .lock .host (2 ^ 8),
    .isolate .host (2 ^ 8),
    .isolateRestore .host (2 ^ 8),
    .ownerChange .host (2 ^ 8) false,
    .pageAbort .host (2 ^ 8),
    .pgEvtClear .host (2 ^ 8) 0,
    .pgFltClear .host (2 ^ 8) 0,
    .statusFlagClear .host (2 ^ 8) false false,
    .ptSkip .host (2 ^ 8),
    .bdEdge 0 (2 ^ 72) 0,
    .frefIncWrite .host 0 (2 ^ 32),
    .testResult 0 0 false (2 ^ 16) 0,
    .ilTestNow .host 0 (2 ^ 32),
    .ilDeadWrite .host 0 false (2 ^ 32),
    .replan 0 false (2 ^ 16) 0 0 0,
    .htempSample 0 (2 ^ 12),
    .markEdge 0 (2 ^ 72),
    .retrain .host 0 (2 ^ 32),
    .status 0 (2 ^ 16) 0 0 0,
    .ack 0 (2 ^ 8),
    .scanErr 0 (2 ^ 32) 0] : List Instr).all (fun i => wellFormed i == false) = true := by decide +kernel

theorem wf_refuses_2 : ([.headMemoryRead 0 [2 ^ 64],
    .separationWritten (2 ^ 32) 0 0,
    .firstHeaderFetch (2 ^ 32) 0 0,
    .go .host 0 (2 ^ 32),
    .encodeJobDone 0 [2 ^ 64],
    .bankRead .scrub (2 ^ 48) [] 0,
    .bankWrite .scrub (2 ^ 48) 0 0 0,
    .dramRead .scrub (2 ^ 48) 0 0 0 0 false false,
    .dramWrite .scrub (2 ^ 48) [] 0 0 false false,
    .dramRetrain .host (2 ^ 2),
    .sealGo .host (2 ^ 14) 0,
    .scrubRead (2 ^ 48) [] 0 0 false,
    .descriptorFetch 0 [2 ^ 64] false,
    .dmaBurstGrant (2 ^ 32),
    .dmaBurstDone 0 [2 ^ 64] none [],
    .dcHeadWrite .host 0 false (2 ^ 32),
    .windowRevoke .host 0 0 (2 ^ 32),
    .bar2Write (2 ^ 21) [] false,
    .bar2Read (2 ^ 21) 0,
    .sqTailWrite .host (2 ^ 12),
    .cqHeadWrite .host (2 ^ 12),
    .badType ⟨2 ^ 32, 0, 0, false, true⟩ 0,
    .sessionOpen ⟨2 ^ 32, 0, 0, false, true⟩ 0 0,
    .sessionResume ⟨2 ^ 32, 0, 0, false, true⟩ 0 0 0] : List Instr).all (fun i => wellFormed i == false) = true := by decide +kernel

theorem wf_refuses_3 : ([.sessionClose ⟨2 ^ 32, 0, 0, false, true⟩,
    .keepalive ⟨2 ^ 32, 0, 0, false, true⟩,
    .windowSet ⟨2 ^ 32, 0, 0, false, true⟩ 0 false false false 0 0,
    .jobOpen ⟨2 ^ 32, 0, 0, false, true⟩ 0 false false,
    .jobClose ⟨2 ^ 32, 0, 0, false, true⟩,
    .jobAbort ⟨2 ^ 32, 0, 0, false, true⟩,
    .jobDone (2 ^ 32),
    .pageDefine ⟨2 ^ 32, 0, 0, false, true⟩ 0 0 0 0 0,
    .sepSubmit ⟨2 ^ 32, 0, 0, false, true⟩ 0 0 false false 0 false 0 0 0 0 0 0,
    .sepWritten ⟨2 ^ 32, 0, 0, false, true⟩ 0 0 false 0 0 0 0,
    .pageRelease ⟨2 ^ 32, 0, 0, false, true⟩ 0,
    .pageRetire ⟨2 ^ 32, 0, 0, false, true⟩ 0,
    .pageQuery ⟨2 ^ 32, 0, 0, false, true⟩ 0,
    .partDone (2 ^ 32) 0 0 0 0 [],
    .moduleStatus 0 0 (2 ^ 8) 0 0 [],
    .identity 0 0 (2 ^ 8) 0 0 0 0 0 0,
    .authResponse 0 0 (2 ^ 8) [],
    .sheetReply 0 0 (2 ^ 8) 0 0 [],
    .moduleAck 0 0 (2 ^ 8) [],
    .moduleEvent 0 0 (2 ^ 16) 0 0 0 [],
    .announceDeadline (2 ^ 32),
    .feedDeadline (2 ^ 32),
    .sheetSensorEdge 0 false (2 ^ 64),
    .declare .host (2 ^ 4)] : List Instr).all (fun i => wellFormed i == false) = true := by decide +kernel

theorem wf_refuses_4 : ([.slotSample 0 0 (2 ^ 32),
    .slModeWrite .host 0 0 (2 ^ 32),
    .adcResult 0 0 (2 ^ 12),
    .avsEvaluate [2 ^ 64] false,
    .ckPllWrite .host 0 (2 ^ 32),
    .ckFracWrite .host 0 (2 ^ 32),
    .unackClear .host 0 (2 ^ 32),
    .stickyClear .host 0 (2 ^ 32),
    .assayGo .host (2 ^ 8),
    .tempWarn (2 ^ 16),
    .tempCrit (2 ^ 16),
    .legacyRead (2 ^ 10),
    .legacyWrite (2 ^ 10) 0,
    .zintClear (2 ^ 16),
    .submit 0 (2 ^ 8),
    .rasterEnable 0 false (2 ^ 8),
    .dackTransfer (2 ^ 16),
    .zmigKey (2 ^ 16),
    .windowWrite 0 (2 ^ 16),
    .tbAlarmWrite .host (2 ^ 64),
    .pcieLinkUp (2 ^ 4) 0,
    .configurationWrite false false (2 ^ 32),
    .tempWarnEnd (2 ^ 16)] : List Instr).all (fun i => wellFormed i == false) = true := by decide +kernel

/-! ### The same terms with operands that fit -/

theorem wf_accepts_1 : ([.dramFillDone 0 false 0,
    .registerWrite .host 0 0 0 0,
    .commit .host 0,
    .lock .host 0,
    .isolate .host 0,
    .isolateRestore .host 0,
    .ownerChange .host 0 false,
    .pageAbort .host 0,
    .pgEvtClear .host 0 0,
    .pgFltClear .host 0 0,
    .statusFlagClear .host 0 false false,
    .ptSkip .host 0,
    .bdEdge 0 0 0,
    .frefIncWrite .host 0 0,
    .testResult 0 0 false 0 0,
    .ilTestNow .host 0 0,
    .ilDeadWrite .host 0 false 0,
    .replan 0 false 0 0 0 0,
    .htempSample 0 0,
    .markEdge 0 0,
    .retrain .host 0 0,
    .status 0 0 0 0 0,
    .ack 0 0,
    .scanErr 0 0 0] : List Instr).all (fun i => wellFormed i == true) = true := by decide +kernel

theorem wf_accepts_2 : ([.headMemoryRead 0 [0],
    .separationWritten 0 0 0,
    .firstHeaderFetch 0 0 0,
    .go .host 0 0,
    .encodeJobDone 0 [0],
    .bankRead .scrub 0 [] 0,
    .bankWrite .scrub 0 0 0 0,
    .dramRead .scrub 0 0 0 0 0 false false,
    .dramWrite .scrub 0 [] 0 0 false false,
    .dramRetrain .host 0,
    .sealGo .host 0 0,
    .scrubRead 0 [] 0 0 false,
    .descriptorFetch 0 [0] false,
    .dmaBurstGrant 0,
    .dmaBurstDone 0 [0] none [],
    .dcHeadWrite .host 0 false 0,
    .windowRevoke .host 0 0 0,
    .bar2Write 0 [] false,
    .bar2Read 0 0,
    .sqTailWrite .host 0,
    .cqHeadWrite .host 0,
    .badType ⟨0, 0, 0, false, true⟩ 0,
    .sessionOpen ⟨0, 0, 0, false, true⟩ 0 0,
    .sessionResume ⟨0, 0, 0, false, true⟩ 0 0 0] : List Instr).all (fun i => wellFormed i == true) = true := by decide +kernel

theorem wf_accepts_3 : ([.sessionClose ⟨0, 0, 0, false, true⟩,
    .keepalive ⟨0, 0, 0, false, true⟩,
    .windowSet ⟨0, 0, 0, false, true⟩ 0 false false false 0 0,
    .jobOpen ⟨0, 0, 0, false, true⟩ 0 false false,
    .jobClose ⟨0, 0, 0, false, true⟩,
    .jobAbort ⟨0, 0, 0, false, true⟩,
    .jobDone 0,
    .pageDefine ⟨0, 0, 0, false, true⟩ 0 0 0 0 0,
    .sepSubmit ⟨0, 0, 0, false, true⟩ 0 0 false false 0 false 0 0 0 0 0 0,
    .sepWritten ⟨0, 0, 0, false, true⟩ 0 0 false 0 0 0 0,
    .pageRelease ⟨0, 0, 0, false, true⟩ 0,
    .pageRetire ⟨0, 0, 0, false, true⟩ 0,
    .pageQuery ⟨0, 0, 0, false, true⟩ 0,
    .partDone 0 0 0 0 0 [],
    .moduleStatus 0 0 0 0 0 [],
    .identity 0 0 0 0 0 0 0 0 0,
    .authResponse 0 0 0 [],
    .sheetReply 0 0 0 0 0 [],
    .moduleAck 0 0 0 [],
    .moduleEvent 0 0 0 0 0 0 [],
    .announceDeadline 0,
    .feedDeadline 0,
    .sheetSensorEdge 0 false 0,
    .declare .host 0] : List Instr).all (fun i => wellFormed i == true) = true := by decide +kernel

theorem wf_accepts_4 : ([.slotSample 0 0 0,
    .slModeWrite .host 0 0 0,
    .adcResult 0 0 0,
    .avsEvaluate [0] false,
    .ckPllWrite .host 0 0,
    .ckFracWrite .host 0 0,
    .unackClear .host 0 0,
    .stickyClear .host 0 0,
    .assayGo .host 0,
    .tempWarn 0,
    .tempCrit 0,
    .legacyRead 0,
    .legacyWrite 0 0,
    .zintClear 0,
    .submit 0 0,
    .rasterEnable 0 false 0,
    .dackTransfer 0,
    .zmigKey 0,
    .windowWrite 0 0,
    .tbAlarmWrite .host 0,
    .pcieLinkUp 0 0,
    .configurationWrite false false 0,
    .tempWarnEnd 0] : List Instr).all (fun i => wellFormed i == true) = true := by decide +kernel

/-! ### The spec's worked examples -/

/-- Zones 0 and 63 of station C at +200 ppm (after R75). -/
theorem test_zone_place : zonePlace 31200 488 200 12 0 = -185 ∧ zonePlace 31200 488 200 (-5) 63 = 192 := by decide +kernel

/-- Emitters 3, 17 and 10 of an H40 with RNOM = 1,120, and the drift from 1,050 (after R98). -/
theorem test_resistance : [rdynOf 0 1092, rdynOf 0 2310, rdynOf 0 3300] = [1165, 2464, 3520] ∧
    [testClass false 0 1092 1120, testClass false 0 2310 1120, testClass false 0 3300 1120] = [1, 2, 3] ∧ drifted 1050 1165 = true := by
  decide +kernel

/-- The neighbour of a lost line (after R100). -/
theorem test_fill : fillCode (fun _ => 35) 32 1 0x145 30 = 0x234 := by decide +kernel

/-- Output pixel 100 of station C (after R122). -/
theorem test_screen : toneGain 2190 0x4148 = 2234 ∧ rampCode (44 * 16) 1 = 0x2C4 := by decide +kernel

/-- Output pixel 98 of station C, shifted by 57/64 pixel (after R124). -/
theorem test_place : placeCode 0x2C4 0x2C4 57 = 0x2C8 := by decide +kernel

/-- The worked encoding of five 10-bit samples (Table 7.6): the block's header and body. -/
theorem test_encode : ((encodeStream ⟨true, 10, 1⟩ false 0 65536 [0, 2, 0, 2, 0, 2, 0, 2, 1, 2]).drop 16).take 15 =
    [0xA9, 0x02, 0x09, 0x00, 0x07, 0x00, 0x00, 0x21, 0x00, 0x1A, 0x20, 0x80, 0x02, 0x14, 0x40] := by decide +kernel

/-- And back. -/
theorem test_decode :
    ((parseBlock [0xA9, 0x02, 0x09, 0x00, 0x07, 0x00, 0x00, 0x21]).map fun h =>
      decodeBlock true h [0x00, 0x1A, 0x20, 0x80, 0x02, 0x14, 0x40] matches .inr [0, 2, 0, 2, 0, 2, 0, 2, 1, 2]) = some true := by
  decide +kernel

/-- The byte 0xA5 survives a flip of any of its thirteen stored bits (after R193). -/
theorem test_byte_code : ((List.range 13).all fun i => byteDec (byteEnc 0xA5 ^^^ 2 ^ i) matches .corrected 0xA5) = true := by decide +kernel

/-- The write-back of the descriptor at 0x03A0_1000 (after R244). -/
theorem test_write_back :
    ((((fs [(F.DC_CUR_LO 0, 0x03A01000), (F.PD_CFG_STATE 1, 2)]).modChan 0 fun y => { y with ctrl := 0x2A03 }).writeBack 0 1 0x100000).ld 0x03A01000 8) =
      0x0010000000002A12 := by decide +kernel

def fuser : LoopRegs := ⟨0, 0x10000, 0x140000, 0x8000, 0, 0, 0, 0, 20000, 0, 65535, 0, 0, false, false⟩

/-- The two fuser samples of Table 14.2. -/
theorem test_fuser :
    (let o := loopCompute fuser { LoopSlot.reset with i := 40000 } nc0 nc0 2 false 17850 18000 0; (o.out, o.i)) = (63075, 40075) ∧
    (let o := loopCompute fuser { LoopSlot.reset with i := 40075 } nc0 nc0 2 false 17000 18000 0; (o.out, o.i)) = (65535, 40075) := by
  decide +kernel

/-- The setting for 148.6 MHz is inside the band (after R412). -/
theorem test_pll : pllOk 95 16 1744830 = true := by decide +kernel

/-- One ZE-40 line of 40 pixels (after R486). -/
theorem test_raster :
    zPixels 0x8005 40 ++ zPixels 0x5555 35 ++ zPixels 0xC00A 20 ++ zPixels 0x8000 10 =
      List.replicate 5 false ++ [true, false, true, false, true, false, true, false, true, false, true, false, true, false, true] ++
        List.replicate 10 true ++ List.replicate 10 false := by decide +kernel

/-- PG_ID of the head-link page of station C (after R501). -/
theorem test_page_id : (State.regRead 0x03A 0 (fs [])).1 = 0x02302001 := by decide +kernel

/-- The registration set of Table 5.7. -/
def regSet : State := fs
  [(F.BT_LINE_LINE_PX 2, 31200), (F.BT_LINE_ZONE_W 2, 488), (F.REG_CFG_GAIN, 8), (F.REG_CFG_DEADBAND, 0), (F.REG_STAT_VALID, 15),
    (F.BT_TLINE_TICKS 0, 69358934), (F.FREF_INC_INC 0, 32464841),
    (F.REG_X_X 0, 1950), (F.REG_X_X 1, 11050), (F.REG_X_X 2, 20150), (F.REG_X_X 3, 29250),
    (F.REG_RES_P 2 0, 2 ^ 32 - 583424), (F.REG_RES_P 2 1, 259558), (F.REG_RES_P 2 2, 733696), (F.REG_RES_P 2 3, 838989),
    (F.REG_RES_X 2 0, 2 ^ 16 - 70), (F.REG_RES_X 2 1, 2 ^ 16 - 30), (F.REG_RES_X 2 2, 22), (F.REG_RES_X 2 3, 58)]

/-- Its trim, phase, delay, magnification, and D[0], D[31] and D[63]. -/
theorem test_registration :
    (let c := regSet.corrections 2; (c.1, c.2.take 4, c.2.getD 34 9, c.2.getD 66 9)) = (-1060, [-3, 3, -37, 2], 0, -1) := by decide +kernel

/-! ### One step -/

/-- A command at the front of the queue is run with the queue's rest. -/
theorem test_step : (match step { fs [] with pending := [.ptSkip .host 3, .bootDone], time := 7 } with
    | .next t => t.pending == [.bootDone] && t.time == 7
    | _ => false) = true := by decide +kernel

/-- An empty queue is one tick of TIME, four while the keeper carries it (R21). -/
theorem test_tick : (match step { fs [(F.CK_STAT_KEEPER, 0)] with rstN := false, time := 2 ^ 64 - 1 },
      step { fs [(F.CK_STAT_KEEPER, 1)] with rstN := false, time := 8 } with
    | .next t, .next u => t.time == 0 && u.time == 12
    | _, _ => false) = true := by decide +kernel

/-- PG_EVT is write one to clear. -/
theorem test_event_clear : (match exec (.pgEvtClear (.berth 0) 9 5) (fs [(H.EVT 9, 7)]) with
    | .next t => t.rd (H.EVT 9) == 2
    | _ => false) = true := by decide +kernel

/-- A write by an agent that does not own the page changes nothing but WRITE_DENIED's count (R10). -/
theorem test_denied : (match exec (.lock .host 0x08) (fs []) with
    | .next t => t.rd (H.LOCK 8) == 0
    | _ => false) = true := by decide +kernel

/-! ### The statements' hypotheses can be met -/

theorem hyps_StepRunsFront : ∃ (c : Instr) (r : List Instr) (s : State), s.pending = c :: r :=
  ⟨.bootDone, [], { (fs []) with pending := [.bootDone] }, by decide +kernel⟩

theorem hyps_EmptyQueueTick :
    (∃ (s : State), s.pending = []) ∧
    (∃ (s : State), s.pending = [] ∧ s.rstN = true) ∧
    (∃ (s : State), s.pending = [] ∧ s.rstN = false) :=
  ⟨⟨(fs []), by decide +kernel⟩,
   ⟨State.reset, by decide +kernel⟩,
   ⟨{ State.reset with rstN := false }, by decide +kernel⟩⟩

theorem hyps_RegisterBusCommands :
    (∃ (a : Agent) (p off v : Nat) (s : State), (0x008 ≤ p ∧ p ≤ 0x013 ∨ p = 0x0E0) ∧ 0x040 ≤ off ∧ off < 0x1000 ∧ off % 4 = 0 ∧ writable s a p off) ∧
    (∃ (a : Agent) (p v : Nat) (s : State), p < 0x1000 ∧ writable s a p 0x010) ∧
    (∃ (a : Agent) (p v : Nat) (s : State), p < 0x1000 ∧ writable s a p 0x018) ∧
    (∃ (a : Agent) (p : Nat) (s : State), writable s a p 0x004 ∧ hasStaged p = true ∧ s.on (H.PEND p) = false ∧ s.commitRefused p = false ∧ (p < 0x020 ∨ 0x040 ≤ p) ∧ (p < 0x0B0 ∨ 0x0BB < p) ∧ s.commitNow p = false) ∧
    (∃ (a : Agent) (p : Nat) (s : State), writable s a p 0x004 ∧ s.on (H.PEND p) = true) ∧
    (∃ (a : Agent) (p : Nat) (s : State), writable s a p 0x004 ∧ hasStaged p = true ∧ s.on (H.PEND p) = false ∧ s.commitRefused p = true ∧ (p < 0x0B0 ∨ 0x0BB < p)) ∧
    (∃ (a : Agent) (p : Nat) (s : State), writable s a p 0x004) ∧
    (∃ (a : Agent) (p : Nat) (s : State), writable s a p 0x004 ∧ (p < 0x051 ∨ 0x052 < p) ∧ (p < 0x061 ∨ 0x080 < p)) ∧
    (∃ (a : Agent) (j : Fin 2) (s : State), writable s a (0x051 + j) 0x004 ∧ s.rd (H.STATE (0x051 + j)) ≠ 0) ∧
    (∃ (a : Agent) (n : Fin 32) (s : State), writable s a (0x061 + n) 0x004) ∧
    (∃ (a : Agent) (p : Nat) (s : State), writable s a p 0x008 ∧ s.isFresh p 56 = false ∧ s.isFresh p 57 = false) ∧
    (∃ (a : Agent) (p : Nat) (s : State), writable s a p 0x008 ∧ s.isFresh p 56 = true ∧ s.isFresh p 57 = true) :=
  ⟨⟨(.berth 0), 0x008, 0x040, 0, (fs [(H.OWNER 0x008, 0)]), by decide +kernel⟩,
   ⟨(.berth 0), 0, 0, (fs [(H.OWNER 0, 0)]), by decide +kernel⟩,
   ⟨(.berth 0), 0, 0, (fs [(H.OWNER 0, 0)]), by decide +kernel⟩,
   ⟨(.berth 0), 0x0A8, (fs [(H.STATE 0x041, 1)]), by decide +kernel⟩,
   ⟨(.berth 0), 0, (fs [(H.OWNER 0, 0), (H.PEND 0, 1)]), by decide +kernel⟩,
   ⟨(.berth 0), 0x030, (fs [(F.IM_CFG_FMT 0, 3)]), by decide +kernel⟩,
   ⟨(.berth 0), 0, (fs [(H.OWNER 0, 0)]), by decide +kernel⟩,
   ⟨(.berth 0), 0, (fs [(H.OWNER 0, 0)]), by decide +kernel⟩,
   ⟨(.berth 0), 0, (fs [(H.OWNER (0x051 + 0), 0), (H.STATE (0x051 + 0), 1)]), by decide +kernel⟩,
   ⟨(.berth 0), 0, (fs [(H.OWNER (0x061 + 0), 0)]), by decide +kernel⟩,
   ⟨(.berth 0), 0, (fs [(H.OWNER 0, 0)]), by decide +kernel⟩,
   ⟨(.berth 0), 0, { (fs [(H.OWNER 0, 0)]) with fresh := (0, [(0, 56), (0, 57)]) }, by decide +kernel⟩⟩

theorem hyps_HeaderClears :
    (∃ (a : Agent) (p mask : Nat) (s : State), s.absentPage p = false ∧ s.mayWrite a p 0x00C = true ∧ (a = .host → s.dev ≠ stSlack)) ∧
    (∃ (a : Agent) (p mask : Nat) (s : State), s.absentPage p = false ∧ s.mayWrite a p 0x014 = true ∧ (a = .host → s.dev ≠ stSlack) ∧ (p < 0x028 ∨ 0x02D < p) ∧ p ≠ 0x0BC) ∧
    (∃ (p m : Nat) (s : State), (s.rd (H.FLT p) &&& (2 ^ 24 - 1 - m % 2 ^ 24)) = 0) ∧
    (∃ (p m : Nat) (s : State), (s.rd (H.FLT p) &&& (2 ^ 24 - 1 - m % 2 ^ 24)) ≠ 0) :=
  ⟨⟨(.berth 0), 0, 0, (fs []), by decide +kernel⟩,
   ⟨(.berth 0), 0, 0, (fs []), by decide +kernel⟩,
   ⟨0, 0, (fs []), by decide +kernel⟩,
   ⟨0, 0, (fs [(H.FLT 0, 1)]), by decide +kernel⟩⟩

theorem hyps_OwnerChanges :
    (∃ (a : Agent) (p : Nat) (host : Bool) (s : State), s.absentPage p = false ∧ s.isSafe = false ∧ s.on (H.LOCK p) = false ∧ s.supervisor a = true ∧ (p < 0x061 ∨ 0x080 < p)) ∧
    (∃ (a : Agent) (p : Nat) (host : Bool) (s : State), s.absentPage p = false ∧ s.isSafe = false ∧ s.on (H.LOCK p) = false ∧ s.supervisor a = true ∧ 0x061 ≤ p ∧ p ≤ 0x080 ∧ (s.rd (H.STATE p) = dcIdle ∨ s.rd (H.STATE p) = dcHalted)) ∧
    (∃ (a : Agent) (p : Nat) (host : Bool) (s : State), s.absentPage p = false ∧ s.isSafe = false ∧ s.on (H.LOCK p) = false ∧ s.supervisor a = true ∧ 0x061 ≤ p ∧ p ≤ 0x080 ∧ s.rd (H.STATE p) ≠ dcIdle ∧ s.rd (H.STATE p) ≠ dcHalted) ∧
    (∃ (a : Agent) (p : Nat) (host : Bool) (s : State), s.absentPage p = false ∧ s.supervisor a = false ∧ (a = .host → s.dev ≠ stSlack)) :=
  ⟨⟨(.berth 0), 0, false, (fs [(F.FC_STATE_SAFE, 0), (H.LOCK 0, 0)]), by decide +kernel⟩,
   ⟨(.berth 0), 0x061, false, (fs [(F.FC_STATE_SAFE, 0), (H.LOCK 0x061, 0), (H.STATE 0x061, dcIdle)]), by decide +kernel⟩,
   ⟨(.berth 0), 0x061, false, (fs [(F.FC_STATE_SAFE, 0), (H.LOCK 0x061, 0), (H.STATE 0x061, dcHalted + 1)]), by decide +kernel⟩,
   ⟨.host, 0, false, (fs []), by decide +kernel⟩⟩

theorem hyps_Isolation :
    (∃ (a : Agent) (p : Nat) (s : State), writable s a p 0x004 ∧ s.on (H.ISOLATED p) = false ∧ s.fc.hw = [] ∧ (p < 0x020 ∨ p = 0x040 ∨ p = 0x05A ∨ p = 0x060 ∨ p = 0x0BC ∨ p = 0x0C5 ∨ p = 0x0E0)) ∧
    (∃ (a : Agent) (p : Nat) (s : State), writable s a p 0x004 ∧ s.on (H.ISOLATED p) = true ∧ s.fc.hw = []) ∧
    (∃ (a : Agent) (p : Nat) (s : State), writable s a p 0x004 ∧ s.on (H.ISOLATED p) = true ∧ s.pageActive p = true) ∧
    (∃ (a : Agent) (p : Nat) (s : State), writable s a p 0x004 ∧ s.on (H.ISOLATED p) = true ∧ s.pageActive p = false ∧ (p < 0x020 ∨ p = 0x040 ∨ p = 0x05A ∨ p = 0x060 ∨ p = 0x0BC ∨ p = 0x0C5 ∨ p = 0x0E0)) :=
  ⟨⟨(.berth 0), 0, (fs [(H.OWNER 0, 0), (H.ISOLATED 0, 0)]), by decide +kernel⟩,
   ⟨(.berth 0), 0, (fs [(H.OWNER 0, 0), (H.ISOLATED 0, 1)]), by decide +kernel⟩,
   ⟨(.berth 0), 0, ((fs [(H.OWNER 0, 0), (H.ISOLATED 0, 1)])).fcm (fun y => { y with tempWarn := true }), by decide +kernel⟩,
   ⟨(.berth 0), 0, (fs [(H.OWNER 0, 0), (H.ISOLATED 0, 1)]), by decide +kernel⟩⟩

theorem hyps_DeniedWrites :
    (∃ (a : Agent) (p off v : Nat) (s : State), (0x008 ≤ p ∧ p ≤ 0x013 ∨ p = 0x0E0) ∧ 0x040 ≤ off ∧ off < 0x1000 ∧ off % 4 = 0 ∧ deniedWrite s a p off) ∧
    (∃ (a : Agent) (p : Nat) (s : State), deniedWrite s a p 0x004) ∧
    (∃ (a : Agent) (p : Nat) (s : State), deniedWrite s a p 0x004) ∧
    (∃ (a : Agent) (p : Nat) (s : State), deniedWrite s a p 0x004) :=
  ⟨⟨.host, 8, 0x40, 0, (fs []), by decide +kernel⟩,
   ⟨.host, 0, (fs []), by decide +kernel⟩,
   ⟨.host, 0, (fs []), by decide +kernel⟩,
   ⟨.host, 0, (fs []), by decide +kernel⟩⟩

theorem hyps_StagedSetApplies : ∃ (p : Nat) (s : State), s.on (H.PEND p) = true ∧ s.on (H.ISOLATED p) = false ∧ s.isFresh p 58 = false ∧ p < 2 ^ 12 :=
  ⟨0, (fs [(H.PEND 0, 1), (H.ISOLATED 0, 0)]), by decide +kernel⟩

theorem hyps_CollectorCommands :
    (∃ (a : Agent) (s : State), writable s a 0x001 0x044) ∧
    (∃ (a : Agent) (w : Fin 8) (mask : Nat) (s : State), writable s a 0x001 (0x080 + 4 * w.val)) ∧
    (∃ (w : Fin 8) (b : Fin 32) (s : State), bit (s.rd (F.FC_UNACK w)) b = true) ∧
    (∃ (a : Agent) (w : Fin 8) (mask : Nat) (s : State), writable s a 0x001 (0x0A0 + 4 * w.val)) ∧
    (∃ (c : Fin 16) (w : MergeWin) (s : State), s.fc.merges[c] = some w ∧ w.opened + s.rd F.FC_CFG_MERGE_MAX * 100000 ≤ s.time) ∧
    (∃ (c : Fin 16) (w : MergeWin) (s : State), s.fc.merges[c] = some w ∧ s.time < w.opened + s.rd F.FC_CFG_MERGE_MAX * 100000) ∧
    (∃ (r : Raise) (l : List Raise) (n : Nat) (s : State), s.fc.hw = [] ∧ s.fc.dispatch = r :: l ∧ s.holder 0 = some n ∧ (∀ x ∈ l, x.src ≠ r.src)) ∧
    (∃ (s : State), s.fc.hw = [] ∧ s.holder 0 = none) :=
  ⟨⟨(.berth 0), (fs [(H.OWNER 0x001, 0)]), by decide +kernel⟩,
   ⟨(.berth 0), 0, 0, (fs [(H.OWNER 0x001, 0)]), by decide +kernel⟩,
   ⟨0, 0, (fs [(F.FC_UNACK 0, 1)]), by decide +kernel⟩,
   ⟨(.berth 0), 0, 0, (fs [(H.OWNER 0x001, 0)]), by decide +kernel⟩,
   ⟨0, ⟨0, 0, 0, 0, false⟩, (((fs []).at_ (10 ^ 15))).fcm (fun y => { y with merges := y.merges.set 0 (some ⟨0, 0, 0, 0, false⟩) }), by decide +kernel⟩,
   ⟨0, ⟨0, 0, 0, 1, false⟩, ((fs [])).fcm (fun y => { y with merges := y.merges.set 0 (some ⟨0, 0, 0, 1, false⟩) }) |>.wr F.FC_CFG_MERGE_MAX 1, by decide +kernel⟩,
   ⟨⟨0, 0, 0, none, 0, false⟩, [], 0, ((fs []).fcm (fun y => { y with dispatch := ⟨0, 0, 0, none, 0, false⟩ :: [] })), by decide +kernel⟩,
   ⟨((List.range 12).foldl (fun s n => s.wr (H.STATE (8 + n)) 1) State.reset), by decide +kernel⟩⟩

theorem hyps_AssayCommands :
    (∃ (a : Agent) (src : Nat) (k : AssayKind) (u : Nat) (s : State), writable s a 0x001 0x054 ∧ src < 256 ∧ (s.fc.lastUnit.find? (·.1 == src) = some (src, some (k, u))) ∧ (s.fc.assays.any fun x => x.kind == k && x.unit == u) = false) ∧
    (∃ (a : Agent) (src : Nat) (s : State), writable s a 0x001 0x054 ∧ src < 256 ∧ s.fc.lastUnit.find? (·.1 == src) = none) ∧
    (∃ (src : Fin 256) (a : Assay) (s : State), s.fc.assays.find? (fun x => x.src == src.val && !x.running) = some a ∧ s.assayFits a = false) ∧
    (∃ (src : Fin 256) (a : Assay) (s : State), s.fc.assays.find? (fun x => x.src == src.val && !x.running) = some a ∧ s.assayFits a = true ∧ a.kind ≠ .signature ∧ a.kind ≠ .relock ∧ a.byGo = true) ∧
    (∃ (src : Fin 256) (soft : Bool) (a : Assay) (s : State), s.fc.assays.find? (fun x => x.src == src.val && x.running) = some a ∧ a.kind ≠ .signature ∧ a.kind ≠ .refconv ∧ s.fc.merges[src.val / 16 % 16]'(by omega) = none ∧ s.on (H.OWNER 0x001) = false) ∧
    (∃ (src : Fin 256) (soft : Bool) (a : Assay) (s : State), s.fc.assays.find? (fun x => x.src == src.val && x.running) = some a ∧ a.kind = .prbs ∧ s.fc.merges[src.val / 16 % 16]'(by omega) = none) :=
  ⟨⟨(.berth 0), 0, .codec, 0, ((fs [(H.OWNER 0x001, 0)])).fcm (fun y => { y with lastUnit := [(0, some (.codec, 0))] }), by decide +kernel⟩,
   ⟨(.berth 0), 0, (fs [(H.OWNER 0x001, 0)]), by decide +kernel⟩,
   ⟨0, ⟨0, .codec, 0, false, 0, true⟩, (fs [(H.STATE 0x049, 1)]).fcm (fun y => { y with assays := [⟨0, .codec, 0, false, 0, true⟩] }), by decide +kernel⟩,
   ⟨0, ⟨0, .codec, 0, false, 0, true⟩, (fs []).fcm (fun y => { y with assays := [⟨0, .codec, 0, false, 0, true⟩] }), by decide +kernel⟩,
   ⟨0, false, ⟨0, .codec, 0, true, 0, true⟩, ((fs [(H.OWNER 0x001, 0)])).fcm (fun y => { y with assays := [⟨0, .codec, 0, true, 0, true⟩] }), by decide +kernel⟩,
   ⟨0, false, ⟨0, .prbs, 0, true, 0, true⟩, ((fs [])).fcm (fun y => { y with assays := [⟨0, .prbs, 0, true, 0, true⟩] }), by decide +kernel⟩⟩

theorem hyps_BerthCommands :
    (∃ (n : Fin 12) (trap : Bool) (s : State), (s.rd (H.STATE (0x008 + n)) = 0 ∨ s.rd (H.STATE (0x008 + n)) = 3 ∨ s.rd (H.STATE (0x008 + n)) = 6) ∧ (s.role n = 0xE ∨ s.role n = 0xF)) ∧
    (∃ (n : Fin 12) (trap : Bool) (s : State), (s.rd (H.STATE (0x008 + n)) = 0 ∨ s.rd (H.STATE (0x008 + n)) = 3 ∨ s.rd (H.STATE (0x008 + n)) = 6) ∧ s.role n < 0xE) ∧
    (∃ (n : Fin 12) (trap : Bool) (s : State), s.rd (H.STATE (0x008 + n)) ≠ 0 ∧ s.rd (H.STATE (0x008 + n)) ≠ 3 ∧ s.rd (H.STATE (0x008 + n)) ≠ 6) ∧
    (∃ (n : Fin 12) (s : State), s.role n ≠ 0 ∧ s.role n ≠ 0xE ∧ s.role n ≠ 0xF) ∧
    (∃ (m : RoleMove) (n h : Nat) (s : State), s.nextMove = some m ∧ s.holder 0 = some h ∧ ((({ s with berths := { s.berths with moves := s.berths.moves.filter (· != m) } } : State).wr (F.BR_ROLE_ROLE m.source) 0xE).closeRecovery (16 + m.source)).spare = some n) ∧
    (∃ (s : State), (s.nextMove = none ∨ s.holder 0 = none)) :=
  ⟨⟨0, false, (fs [(F.BR_ROLE_ROLE 0, 14)]), by decide +kernel⟩,
   ⟨0, false, (fs [(H.STATE (0x008 + 0), 0)]), by decide +kernel⟩,
   ⟨0, false, (fs [(H.STATE (0x008 + 0), 7)]), by decide +kernel⟩,
   ⟨0, (fs [(F.BR_ROLE_ROLE 0, 1)]), by decide +kernel⟩,
   ⟨⟨3, 5, 0⟩, 10, 0, (fs [(F.BR_ROLE_ROLE 10, 14), (H.STATE 0x012, 3)]).brm (fun y => { y with moves := [⟨3, 5, 0⟩] }), by decide +kernel⟩,
   ⟨(fs []), by decide +kernel⟩⟩

theorem hyps_HarbourmasterCommands :
    (∃ (n : Fin 12) (s : State), writable s (.berth n) 0x002 0x04C ∧ s.role n = 0 ∧ s.rd F.HM_STAT_STATE = 0) ∧
    (∃ (n : Fin 12) (s : State), writable s (.berth n) 0x002 0x04C ∧ s.role n = 0 ∧ s.rd F.HM_STAT_STATE = 1) ∧
    (∃ (s : State), s.rd F.HM_STAT_STATE = 1 ∧ s.berths.lastBeat / 100000 + 3 ≤ s.time / 100000) ∧
    (∃ (s : State), s.rd F.HM_STAT_STATE = 1 ∧ s.time / 100000 < s.berths.lastBeat / 100000 + 3) ∧
    (∃ (digestOk imageOk : Bool) (n : Nat) (s : State), s.rd F.HM_STAT_STATE = 2 ∧ s.berths.promoting = none ∧ s.spare = some n ∧ (digestOk || imageOk) = true ∧ s.role s.berths.supBerth = 0) ∧
    (∃ (n : Nat) (s : State), s.rd F.HM_STAT_STATE = 2 ∧ s.berths.promoting = none ∧ s.spare = some n) ∧
    (∃ (s : State), s.rd F.HM_STAT_STATE = 0 ∧ s.berths.waitSince + 120000000 ≤ s.time ∧ s.holder 0 = none) ∧
    (∃ (n : Nat) (s : State), s.holder 0 = some n) ∧
    (∃ (a : Agent) (s : State), writable s a 0x002 0x04C) ∧
    (∃ (s : State), s.on F.HM_STAT_DUAL = false ∧ ((s.berths.outvotes[0].filter fun t => s.time < t + 100000000).length < 2)) ∧
    (∃ (s : State), s.on F.HM_STAT_DUAL = false ∧ 2 ≤ (s.berths.outvotes[1].filter fun t => s.time < t + 100000000).length) ∧
    (∃ (s : State), s.on F.HM_STAT_DUAL = false) ∧
    (∃ (s : State), s.on F.HM_STAT_DUAL = true ∧ s.rd F.HM_STAT_EXCLUDED = 2) ∧
    (∃ (s : State), s.on F.HM_STAT_DUAL = true ∧ s.rd F.HM_STAT_EXCLUDED = 2) :=
  ⟨⟨0, (fs [(H.OWNER 0x002, 0), (F.BR_ROLE_ROLE 0, 0), (F.HM_STAT_STATE, 0)]), by decide +kernel⟩,
   ⟨0, (fs [(H.OWNER 0x002, 0), (F.BR_ROLE_ROLE 0, 0), (F.HM_STAT_STATE, 1)]), by decide +kernel⟩,
   ⟨((fs [(F.HM_STAT_STATE, 1)]).at_ (10 ^ 15)), by decide +kernel⟩,
   ⟨(fs [(F.HM_STAT_STATE, 1)]), by decide +kernel⟩,
   ⟨true, false, 10, (((fs [(F.HM_STAT_STATE, 2)]).brm (fun y => { y with promoting := none }))).wr (F.BR_ROLE_ROLE 10) 14 |>.wr (H.STATE 0x012) 3, by decide +kernel⟩,
   ⟨10, (((fs [(F.HM_STAT_STATE, 2)]).brm (fun y => { y with promoting := none }))).wr (F.BR_ROLE_ROLE 10) 14 |>.wr (H.STATE 0x012) 3, by decide +kernel⟩,
   ⟨(fs [(H.STATE 8, 5), (H.STATE 9, 5), (H.STATE 10, 5), (H.STATE 11, 5), (H.STATE 12, 5), (H.STATE 13, 5), (H.STATE 14, 5), (H.STATE 15, 5), (H.STATE 16, 5), (H.STATE 17, 5), (H.STATE 18, 5), (H.STATE 19, 5)]).at_ (10 ^ 15), by decide +kernel⟩,
   ⟨0, (fs []), by decide +kernel⟩,
   ⟨(.berth 0), (fs [(H.OWNER 0x002, 0)]), by decide +kernel⟩,
   ⟨(fs [(F.HM_STAT_DUAL, 0)]), by decide +kernel⟩,
   ⟨((fs [(F.HM_STAT_DUAL, 0)])).brm (fun y => { y with outvotes := y.outvotes.set 1 [0, 0] }), by decide +kernel⟩,
   ⟨(fs [(F.HM_STAT_DUAL, 0)]), by decide +kernel⟩,
   ⟨(fs [(F.HM_STAT_DUAL, 1), (F.HM_STAT_EXCLUDED, 2)]), by decide +kernel⟩,
   ⟨(fs [(F.HM_STAT_DUAL, 1), (F.HM_STAT_EXCLUDED, 2)]), by decide +kernel⟩⟩

theorem hyps_TemperatureAndAlarm :
    (∃ (tj : Nat) (s : State), tj < 2 ^ 16 ∧ s.warnAt ≤ toSigned 16 tj ∧ s.fc.tempWarn = false) ∧
    (∃ (tj : Nat) (s : State), tj < 2 ^ 16 ∧ toSigned 16 tj < s.warnAt) ∧
    (∃ (tj : Nat) (s : State), tj < 2 ^ 16 ∧ s.warnAt + 240 ≤ toSigned 16 tj) ∧
    (∃ (tj : Nat) (s : State), tj < 2 ^ 16 ∧ toSigned 16 tj < s.warnAt + 240) ∧
    (∃ (tj : Nat) (s : State), tj < 2 ^ 16 ∧ toSigned 16 tj ≤ s.warnAt - 32) ∧
    (∃ (tj : Nat) (s : State), tj < 2 ^ 16 ∧ toSigned 16 (s.rd F.DV_TEMP_TJ_MAX) < toSigned 16 tj) ∧
    (∃ (tj : Nat) (s : State), tj < 2 ^ 16 ∧ toSigned 16 tj ≤ toSigned 16 (s.rd F.DV_TEMP_TJ_MAX)) ∧
    (∃ (a : Agent) (tick : Nat) (s : State), writable s a 0x005 0x04C) ∧
    (∃ (a : Agent) (s : State), writable s a 0x005 0x050 ∧ s.on F.TB_ALARM_CTL_ARM = false) ∧
    (∃ (a : Agent) (s : State), writable s a 0x005 0x050 ∧ s.on F.TB_ALARM_CTL_ARM = true) ∧
    (∃ (a : Agent) (s : State), writable s a 0x005 0x050) ∧
    (∃ (s : State), s.on F.TB_ALARM_CTL_ARM = true ∧ s.clocks.alarm ≤ s.time ∧ s.clocks.alarmAt ≤ s.time) ∧
    (∃ (s : State), (s.on F.TB_ALARM_CTL_ARM = false ∨ s.time < s.clocks.alarm ∨ s.time < s.clocks.alarmAt)) :=
  ⟨⟨1600, ((fs []).fcm (fun y => { y with tempWarn := false })), by decide +kernel⟩,
   ⟨0, (fs []), by decide +kernel⟩,
   ⟨1840, (fs []), by decide +kernel⟩,
   ⟨0, (fs []), by decide +kernel⟩,
   ⟨0, (fs []), by decide +kernel⟩,
   ⟨1, (fs []), by decide +kernel⟩,
   ⟨0, (fs []), by decide +kernel⟩,
   ⟨(.berth 0), 0, (fs [(H.OWNER 0x005, 0)]), by decide +kernel⟩,
   ⟨(.berth 0), (fs [(H.OWNER 0x005, 0), (F.TB_ALARM_CTL_ARM, 0)]), by decide +kernel⟩,
   ⟨(.berth 0), (fs [(H.OWNER 0x005, 0), (F.TB_ALARM_CTL_ARM, 1)]), by decide +kernel⟩,
   ⟨(.berth 0), (fs [(H.OWNER 0x005, 0)]), by decide +kernel⟩,
   ⟨((fs [(F.TB_ALARM_CTL_ARM, 1)]).at_ (10 ^ 15)), by decide +kernel⟩,
   ⟨(fs [(F.TB_ALARM_CTL_ARM, 0)]), by decide +kernel⟩⟩

theorem hyps_ResetCommands :
    (∃ (a b : ImageInfo) (prof : Fin 4) (s : State), s.rstN = true) ∧
    (∃ (a b : ImageInfo) (prof : Fin 4) (s : State), s.rstN = false) ∧
    (∃ (a b : ImageInfo) (prof : Fin 4) (s : State), s.rstN = true) ∧
    (∃ (a b : ImageInfo) (prof : Fin 4) (s : State), s.rstN = false) ∧
    (∃ (s : State), s.boot.warm = true ∧ s.dev = stOff) ∧
    (∃ (s : State), (s.boot.warm = false ∨ s.dev ≠ stOff)) :=
  ⟨⟨blankImage, blankImage, 0, ({ (fs []) with rstN := true } : State), by decide +kernel⟩,
   ⟨blankImage, blankImage, 0, ({ (fs []) with rstN := false } : State), by decide +kernel⟩,
   ⟨blankImage, blankImage, 0, ({ (fs []) with rstN := true } : State), by decide +kernel⟩,
   ⟨blankImage, blankImage, 0, ({ (fs []) with rstN := false } : State), by decide +kernel⟩,
   ⟨((fs [(H.STATE 0, stOff)]).modBoot (fun y => { y with warm := true })), by decide +kernel⟩,
   ⟨((fs []).modBoot (fun y => { y with warm := false })), by decide +kernel⟩⟩

theorem hyps_BootStates :
    (∃ (s : State), s.dev = stBoot ∧ s.boot.verified = true ∧ s.domainsOn = true) ∧
    (∃ (s : State), (s.dev ≠ stBoot ∨ s.boot.verified = false ∨ s.domainsOn = false)) ∧
    (∃ (s : State), s.dev = stFill ∧ s.fillOver = true ∧ s.boot.banksFilled = true ∧ s.slotValid (s.rd F.PF_STAT_ACTIVE) = true ∧ s.ldByte (slotBase (s.rd F.PF_STAT_ACTIVE) + 6) ≠ 1) ∧
    (∃ (s : State), (s.dev ≠ stFill ∨ s.fillOver = false ∨ s.boot.banksFilled = false)) ∧
    (∃ (s : State) (n : Fin 12), s.boot.slotOk = false ∧ s.boot.minus4S = false) :=
  ⟨⟨((fs [(H.STATE 0, stBoot)]).modBoot (fun y => { y with verified := true })), by decide +kernel⟩,
   ⟨(fs [(H.STATE 0, stReady)]), by decide +kernel⟩,
   ⟨{ (((fs [(H.STATE 0, stFill)]).modBoot (fun y => { y with banksFilled := true }))) with mem := slotMem } |>.modBoot (fun y => { y with banksFilled := true }), ⟨by decide +kernel, by decide +kernel, by decide +kernel, slot_valid rfl (by decide +kernel), by decide +kernel⟩⟩,
   ⟨(fs [(H.STATE 0, stReady)]), by decide +kernel⟩,
   ⟨(((fs []).modBoot (fun y => { y with slotOk := false })).modBoot (fun y => { y with minus4S := false })), 0, by decide +kernel⟩⟩

theorem hyps_FirmwareCommands :
    (∃ (a : Agent) (w : Fin 16) (off : Nat) (s : State), writable s a 0x0F0 0x05C ∧ s.rd F.FW_STAT_STATUS ≠ 1 ∧ s.boot.updating = false ∧ (hostWindow (s.rd F.FW_SRC_HI * 2 ^ 32 + s.rd F.FW_SRC_LO) = some (w, off)) ∧ s.winOk w off (s.rd F.FW_LEN_BYTES) false = true ∧ (s.rd F.FW_SRC_HI * 2 ^ 32 + s.rd F.FW_SRC_LO) % 8 = 0 ∧ s.rd F.FW_LEN_BYTES ≤ 25165824) ∧
    (∃ (im : ImageInfo) (s : State), s.rd F.FW_STAT_STATUS = 1 ∧ im.ok = false) ∧
    (∃ (im : ImageInfo) (s : State), s.rd F.FW_STAT_STATUS ≠ 1) ∧
    (∃ (a : Agent) (s : State), writable s a 0x0F0 0x05C ∧ s.rd F.FW_STAT_STATUS = 2) ∧
    (∃ (a : Agent) (s : State), writable s a 0x0F0 0x05C ∧ s.rd F.FW_STAT_STATUS = 2 ∧ (∃ n < 12, s.role n = 0xE) ∧ (s.imageOf s.boot.stagedBank).liveOk = true ∧ (s.imageOf s.boot.stagedBank).recordVer = (s.imageOf (s.rd F.FW_STAT_BANK)).recordVer) ∧
    (∃ (ok : Bool) (s : State), s.boot.updating = false) ∧
    (∃ (n v q : Nat) (s : State), s.boot.updating = true ∧ s.berths.moves = [] ∧ s.rd F.FW_STAT_UPD_ROLE ≠ 0 ∧ s.roleFree (s.rd F.FW_STAT_UPD_ROLE) = true ∧ s.spare = some n ∧ s.holder (s.rd F.FW_STAT_UPD_ROLE) = some v) ∧
    (∃ (a : Agent) (s : State), writable s a 0x0F0 0x05C ∧ s.boot.updating = false ∧ (s.dev = stReady ∨ s.dev = stRun)) ∧
    (∃ (a : Agent) (s : State), writable s a 0x0F0 0x05C ∧ s.boot.updating = true) ∧
    (∃ (a : Agent) (s : State), writable s a 0x0F0 0x05C ∧ s.boot.updating = false) ∧
    (∃ (a : Agent) (s : State), writable s a 0x0F0 0x05C) ∧
    (∃ (a : Agent) (l : List Nat) (u s : State), writable s a 0x0F0 0x064 ∧ s.rd F.PF_LEN_BYTES ≤ 262144 ∧ (s.upload (s.rd F.PF_LEN_BYTES) = (some l, u))) ∧
    (∃ (a : Agent) (s : State), writable s a 0x0F0 0x064 ∧ 262144 < s.rd F.PF_LEN_BYTES) ∧
    (∃ (a : Agent) (s : State), writable s a 0x0F0 0x064 ∧ s.dev = stReady ∧ s.tl.jobs = [] ∧ s.slotValid (s.rd F.PF_CMD_SLOT) = true) ∧
    (∃ (a : Agent) (s : State), writable s a 0x0F0 0x064 ∧ (s.dev ≠ stReady ∨ s.tl.jobs ≠ [])) ∧
    (∃ (a : Agent) (l : List Nat) (u s : State), writable s a 0x0F0 0x064 ∧ s.keyLocked = false ∧ (s.upload 16 = (some l, u))) ∧
    (∃ (a : Agent) (s : State), writable s a 0x0F0 0x064 ∧ s.keyLocked = true) ∧
    (∃ (a : Agent) (s : State), writable s a 0x0F0 0x064) ∧
    (∃ (a : Agent) (s : State), writable s a 0x0F0 0x064) ∧
    (∃ (a : Agent) (s : State), writable s a 0x0F0 0x064) ∧
    (∃ (n v q : Nat) (s : State), s.boot.updating = true ∧ s.berths.moves = [] ∧ s.rd F.FW_STAT_UPD_ROLE ≠ 0 ∧ s.roleFree (s.rd F.FW_STAT_UPD_ROLE) = true ∧ s.spare = some n ∧ s.holder (s.rd F.FW_STAT_UPD_ROLE) = some v ∧ ((((s.wr (F.BR_ROLE_ROLE v) 0xE).wr (H.STATE (0x008 + v)) 3).takeRole n (s.rd F.FW_STAT_UPD_ROLE) s.time).modBoot fun b => { b with updMoved := (s.rd F.FW_STAT_UPD_ROLE, v) :: b.updMoved }).nextUpdRole (s.rd F.FW_STAT_UPD_ROLE) = some q) :=
  ⟨⟨(.berth 0), 0, 0, (((fs [(H.OWNER 0x0F0, 0), (F.FW_STAT_STATUS, 2)]).modBoot (fun y => { y with updating := false }))).wr F.FW_SRC_HI 0x8000 |>.wr (F.DG_WIN_VALID 0) 1 |>.wr (F.DG_WIN_RD 0) 1, by decide +kernel⟩,
   ⟨blankImage, (fs [(F.FW_STAT_STATUS, 1)]), by decide +kernel⟩,
   ⟨blankImage, (fs [(F.FW_STAT_STATUS, 2)]), by decide +kernel⟩,
   ⟨(.berth 0), (fs [(H.OWNER 0x0F0, 0), (F.FW_STAT_STATUS, 2)]), by decide +kernel⟩,
   ⟨(.berth 0), ((fs [(H.OWNER 0x0F0, 0), (F.FW_STAT_STATUS, 2)])).wr (F.BR_ROLE_ROLE 10) 14 |>.modBoot (fun y => { y with bankA := { blankImage with liveOk := true }, stagedBank := 0 }), ⟨by decide +kernel, by decide +kernel, ⟨10, by decide, by decide +kernel⟩, by decide +kernel, by decide +kernel⟩⟩,
   ⟨false, ((fs []).modBoot (fun y => { y with updating := false })), by decide +kernel⟩,
   ⟨10, 1, 0, (fs [(F.FW_STAT_UPD_ROLE, 1), (F.BR_ROLE_ROLE 10, 14), (H.STATE 0x012, 3), (F.BR_ROLE_ROLE 1, 1), (H.STATE 9, 0)]).modBoot (fun y => { y with updating := true }), by decide +kernel⟩,
   ⟨(.berth 0), ((fs [(H.OWNER 0x0F0, 0), (H.STATE 0, stReady)]).modBoot (fun y => { y with updating := false })), by decide +kernel⟩,
   ⟨(.berth 0), ((fs [(H.OWNER 0x0F0, 0)]).modBoot (fun y => { y with updating := true })), by decide +kernel⟩,
   ⟨(.berth 0), ((fs [(H.OWNER 0x0F0, 0)]).modBoot (fun y => { y with updating := false })), by decide +kernel⟩,
   ⟨(.berth 0), (fs [(H.OWNER 0x0F0, 0)]), by decide +kernel⟩,
   ⟨(.berth 0), [], (fs [(H.OWNER 0x0F0, 0)]), (fs [(H.OWNER 0x0F0, 0)]), ⟨by decide +kernel, by decide +kernel, Prod.ext (by decide +kernel) rfl⟩⟩,
   ⟨(.berth 0), ((fs [(H.OWNER 0x0F0, 0)])).wr F.PF_LEN_BYTES 262145, by decide +kernel⟩,
   ⟨(.berth 0), { ((fs [(H.OWNER 0x0F0, 0), (H.STATE 0, stReady)])) with mem := slotMem }, ⟨by decide +kernel, by decide +kernel, by decide +kernel, slot_valid rfl (by decide +kernel)⟩⟩,
   ⟨(.berth 0), (fs [(H.OWNER 0x0F0, 0), (H.STATE 0, stRun)]), by decide +kernel⟩,
   ⟨(.berth 0), ((((fs [(H.OWNER 0x0F0, 0), (F.PF_SRC_OFFS, 0x100000), (F.BR_ROLE_ROLE 9, 9), (H.STATE 0x011, 0)]).wr (F.PD_CFG_STATE 1) 2).upload 16).1.getD []), (((fs [(H.OWNER 0x0F0, 0), (F.PF_SRC_OFFS, 0x100000), (F.BR_ROLE_ROLE 9, 9), (H.STATE 0x011, 0)]).wr (F.PD_CFG_STATE 1) 2).upload 16).2, ((fs [(H.OWNER 0x0F0, 0), (F.PF_SRC_OFFS, 0x100000), (F.BR_ROLE_ROLE 9, 9), (H.STATE 0x011, 0)]).wr (F.PD_CFG_STATE 1) 2), ⟨by decide +kernel, by decide +kernel, Prod.ext (someGetD (by decide +kernel)) rfl⟩⟩,
   ⟨(.berth 0), ((fs [(H.OWNER 0x0F0, 0)])).st 0x05310220 4 1, by decide +kernel⟩,
   ⟨(.berth 0), (fs [(H.OWNER 0x0F0, 0)]), by decide +kernel⟩,
   ⟨(.berth 0), (fs [(H.OWNER 0x0F0, 0)]), by decide +kernel⟩,
   ⟨(.berth 0), (fs [(H.OWNER 0x0F0, 0)]), by decide +kernel⟩,
   ⟨10, 1, 0, (fs [(F.FW_STAT_UPD_ROLE, 1), (F.BR_ROLE_ROLE 0, 0), (H.STATE 8, 0), (F.BR_ROLE_ROLE 10, 14), (H.STATE 0x012, 3), (F.BR_ROLE_ROLE 1, 1), (H.STATE 9, 0)]).modBoot (fun y => { y with updating := true }), by decide +kernel⟩⟩

theorem hyps_SequenceEntries :
    (∃ (j : Fin 48) (s : State), s.entryReady j = false) ∧
    (∃ (j : Fin 48) (s : State), s.entryReady j = true ∧ seItem (s.seq.table.getD j itEnd) = itCascOut ∧ s.seq.dir = .up) ∧
    (∃ (j : Fin 48) (s : State), s.entryReady j = true ∧ isRail (seItem (s.seq.table.getD j itEnd)) = true ∧ s.seq.dir = .up) ∧
    (∃ (j : Fin 48) (s : State), s.entryReady j = true ∧ isRail (seItem (s.seq.table.getD j itEnd)) = true ∧ s.seq.dir = .down) ∧
    (∃ (i : Nat) (s : State), isRail i = true ∧ s.railState (i - 16) ≠ 2 ∧ isDomain i = false) ∧
    (∃ (g : Fin 4) (i since : Nat), ∃ (r : List (Nat × Nat)), ∃ (s : State), (s.seq.queues[g] = (i, since) :: r) ∧ isDomain i = true ∧ s.inWindow g + s.itemWeight i ≤ s.psRd (F.PS_SUP_BUDGET g)) ∧
    (∃ (g : Fin 4) (i since : Nat), ∃ (r : List (Nat × Nat)), ∃ (s : State), (s.seq.queues[g] = (i, since) :: r) ∧ isDomain i = false ∧ s.inWindow g + s.itemWeight i ≤ s.psRd (F.PS_SUP_BUDGET g)) ∧
    (∃ (g : Fin 4) (i since : Nat), ∃ (r : List (Nat × Nat)), ∃ (s : State), (s.seq.queues[g] = (i, since) :: r) ∧ s.psRd (F.PS_SUP_BUDGET g) < s.inWindow g + s.itemWeight i ∧ s.inWindow g ≠ 0) :=
  ⟨⟨0, (fs []), by decide +kernel⟩,
   ⟨0, (((fs []).modSeq (fun y => { y with dir := .up }))).modSeq (fun y => { y with table := [itCascOut] }), by decide +kernel⟩,
   ⟨0, (((fs []).modSeq (fun y => { y with dir := .up }))).modSeq (fun y => { y with table := [16] }), by decide +kernel⟩,
   ⟨0, (((fs []).modSeq (fun y => { y with dir := .down }))).modSeq (fun y => { y with table := [16] }), by decide +kernel⟩,
   ⟨16, (fs []), by decide +kernel⟩,
   ⟨0, 1, 0, [], ((fs [])).modSeq (fun y => { y with queues := y.queues.set 0 [(1, 0)] }), by decide +kernel⟩,
   ⟨0, 16, 0, [], ((fs [])).modSeq (fun y => { y with queues := y.queues.set 0 [(16, 0)] }), by decide +kernel⟩,
   ⟨0, 16, 0, [], ((fs [])).modSeq (fun y => { y with queues := y.queues.set 0 [(16, 0)], ramping := [(17, 0)] }) |>.wr (F.RAIL_CFG_WEIGHT 1) 2 |>.wr (F.RAIL_CFG_WEIGHT 0) 200, by decide +kernel⟩⟩

theorem hyps_RailCommands :
    (∃ (n : Fin 24) (level : Bool) (s : State), s.rd (F.RAIL_CFG_STATE n) ≠ 1) ∧
    (∃ (n : Fin 24) (s : State), s.rd (F.RAIL_CFG_STATE n) = 1 ∧ s.seq.pgRaw[n] = true ∧ s.rd (F.RAIL_CFG_RESTARTS n) < 2) ∧
    (∃ (n : Fin 24) (s : State), s.seq.pgRaw[n] = true ∧ s.seq.pgSince[n] + s.psRd (F.RAIL_CFG_T_QUAL n) * 10000 ≤ s.time ∧ s.seq.railAt[n] + s.psRd (F.RAIL_CFG_T_QUAL n) * 10000 ≤ s.time ∧ (s.rd (F.RAIL_CFG_STATE n) = 1 ∨ s.rd (F.RAIL_CFG_STATE n) = 5)) ∧
    (∃ (n : Fin 24) (s : State), (s.seq.pgRaw[n] = false ∨ s.time < s.seq.pgSince[n] + s.psRd (F.RAIL_CFG_T_QUAL n) * 10000)) ∧
    (∃ (n : Fin 24) (s : State), s.rd (F.RAIL_CFG_STATE n) = 2 ∧ s.seq.pgRaw[n] = false ∧ s.seq.pgSince[n] + s.psRd (F.RAIL_CFG_T_QUAL n) * 10000 ≤ s.time) ∧
    (∃ (n : Fin 24) (s : State), s.rd (F.RAIL_CFG_STATE n) = 1 ∧ s.seq.railAt[n] + s.psRd (F.RAIL_CFG_TIMEOUT n) * 100000 ≤ s.time) ∧
    (∃ (n : Fin 24) (s : State), s.rd (F.RAIL_CFG_STATE n) = 3 ∧ s.seq.railAt[n] + s.psRd (F.RAIL_CFG_T_FALL n) * 10000 ≤ s.time) ∧
    (∃ (n : Fin 24) (s : State), s.rd (F.RAIL_CFG_STATE n) = 4 ∧ s.seq.railAt[n] + s.psRd (F.RAIL_CFG_T_FALL n) * 10000 ≤ s.time) ∧
    (∃ (n : Fin 24) (s : State), s.railOff n = true ∧ (s.rd (F.RAIL_CFG_STATE n) = 3 ∨ s.rd (F.RAIL_CFG_STATE n) = 4)) ∧
    (∃ (n : Fin 24) (s : State), s.railOff n = false) :=
  ⟨⟨0, false, (fs [(F.RAIL_CFG_STATE 0, 2)]), by decide +kernel⟩,
   ⟨0, ((fs [(F.RAIL_CFG_STATE 0, 1)])).modSeq (fun y => { y with pgRaw := y.pgRaw.set 0 true }), by decide +kernel⟩,
   ⟨0, (((fs [(F.RAIL_CFG_STATE 0, 1)]).at_ (10 ^ 15))).modSeq (fun y => { y with pgRaw := y.pgRaw.set 0 true }), by decide +kernel⟩,
   ⟨0, (fs []), by decide +kernel⟩,
   ⟨0, ((fs [(F.RAIL_CFG_STATE 0, 2)]).at_ (10 ^ 15)), by decide +kernel⟩,
   ⟨0, ((fs [(F.RAIL_CFG_STATE 0, 1)]).at_ (10 ^ 15)), by decide +kernel⟩,
   ⟨0, ((fs [(F.RAIL_CFG_STATE 0, 3)]).at_ (10 ^ 15)), by decide +kernel⟩,
   ⟨0, ((fs [(F.RAIL_CFG_STATE 0, 4)]).at_ (10 ^ 15)), by decide +kernel⟩,
   ⟨0, (fs [(F.RAIL_CFG_STATE 0, 3)]), by decide +kernel⟩,
   ⟨0, ((fs [])).modSeq (fun y => { y with pgRaw := y.pgRaw.set 0 true }), by decide +kernel⟩⟩

theorem hyps_SequenceEnds :
    (∃ (d : Fin 12) (t : Nat) (s : State), s.rampSince d = some t ∧ s.rd (F.PD_CFG_STATE d) = 1 ∧ t + s.psRd (F.PD_CFG_RAMP d) * 100 ≤ s.time) ∧
    (∃ (d : Fin 12) (s : State), s.rampSince d = none) ∧
    (∃ (d : Fin 12) (t : Nat) (s : State), s.rampSince d = some t ∧ s.rd (F.PD_CFG_STATE d) = 1 ∧ t + s.psRd (F.PD_CFG_RAMP d) * 1000 ≤ s.time) ∧
    (∃ (t : Nat) (s : State), s.seq.dir = .up ∧ s.seq.doneBefore s.seq.count = some t) ∧
    (∃ (t : Nat) (s : State), s.seq.dir = .down ∧ s.seq.doneBefore s.seq.count = some t) ∧
    (∃ (s : State), s.seq.doneBefore s.seq.count = none) ∧
    (∃ (a : Agent) (s : State), writable s a 0x003 0x044) ∧
    (∃ (a : Agent) (s : State), writable s a 0x003 0x044 ∧ s.rd (H.STATE 0x003) = 5 ∧ s.boot.offAfterSafe = false ∧ (∀ n < 24, s.rd (F.RAIL_CFG_STATE n) ≠ 6)) ∧
    (∃ (a : Agent) (s : State), writable s a 0x003 0x044 ∧ s.rd (H.STATE 0x003) ≠ 5) ∧
    (∃ (a : Agent) (s : State), writable s a 0x003 0x044) ∧
    (∃ (auto : Nat) (s : State), s.seq.dir = .down) ∧
    (∃ (s : State), s.seq.dir = .up) ∧
    (∃ (s : State), s.seq.dir = .down) ∧
    (∃ (s : State), s.seq.dir = .idle) ∧
    (∃ (s : State), s.seq.dir ≠ .down) ∧
    (∃ (j : Fin 48) (t : Nat) (s : State), seItem (s.seq.table.getD j itEnd) = itCascWait ∧ s.seq.done[j] = none ∧ s.seq.started[j] = some t ∧ t + s.rd F.PS_CASC_TO * 100000 ≤ s.time ∧ s.seq.dir = .up) ∧
    (∃ (j : Fin 48) (t : Nat) (s : State), seItem (s.seq.table.getD j itEnd) = itCascWait ∧ s.seq.done[j] = none ∧ s.seq.started[j] = some t ∧ t + s.rd F.PS_CASC_TO * 100000 ≤ s.time ∧ s.seq.dir ≠ .up) ∧
    (∃ (s : State), (s.dev ≠ stOff ∨ s.seq.dir ≠ .idle)) ∧
    (∃ (s : State), s.dev = stOff ∧ s.seq.dir = .idle) ∧
    (∃ (s : State), s.on F.PS_CFG_AUTO_UP = true ∧ s.seq.autoKind = 1 ∧ s.seq.dir = .idle) ∧
    (∃ (s : State), s.on F.PS_CFG_AUTO_UP = false) :=
  ⟨⟨0, 0, (((fs [(F.PD_CFG_STATE 0, 1)]).at_ (10 ^ 15))).modSeq (fun y => { y with ramping := [(0, 0)] }), by decide +kernel⟩,
   ⟨0, (fs []), by decide +kernel⟩,
   ⟨0, 0, (((fs [(F.PD_CFG_STATE 0, 1)]).at_ (10 ^ 15))).modSeq (fun y => { y with ramping := [(0, 0)] }), by decide +kernel⟩,
   ⟨0, ((fs []).modSeq (fun y => { y with dir := .up })), by decide +kernel⟩,
   ⟨0, ((fs []).modSeq (fun y => { y with dir := .down })), by decide +kernel⟩,
   ⟨(fs []).modSeq (fun y => { y with table := [16] }), by decide +kernel⟩,
   ⟨(.berth 0), (fs [(H.OWNER 0x003, 0)]), by decide +kernel⟩,
   ⟨(.berth 0), ((fs [(H.OWNER 0x003, 0), (H.STATE 0x003, 5)]).modBoot (fun y => { y with offAfterSafe := false })), by decide +kernel⟩,
   ⟨(.berth 0), (fs [(H.OWNER 0x003, 0), (H.STATE 0x003, 6)]), by decide +kernel⟩,
   ⟨(.berth 0), (fs [(H.OWNER 0x003, 0)]), by decide +kernel⟩,
   ⟨0, ((fs []).modSeq (fun y => { y with dir := .down })), by decide +kernel⟩,
   ⟨((fs []).modSeq (fun y => { y with dir := .up })), by decide +kernel⟩,
   ⟨((fs []).modSeq (fun y => { y with dir := .down })), by decide +kernel⟩,
   ⟨((fs []).modSeq (fun y => { y with dir := .idle })), by decide +kernel⟩,
   ⟨(fs []), by decide +kernel⟩,
   ⟨0, 0, ((((fs []).modSeq (fun y => { y with dir := .up })).at_ (10 ^ 15))).modSeq (fun y => { y with table := [itCascWait], started := y.started.set 0 (some 0) }), by decide +kernel⟩,
   ⟨0, 0, ((((fs []).modSeq (fun y => { y with dir := .up })).at_ (10 ^ 15))).modSeq (fun y => { y with dir := .down, table := [itCascWait], started := y.started.set 0 (some 0) }), by decide +kernel⟩,
   ⟨(fs [(H.STATE 0, stReady)]), by decide +kernel⟩,
   ⟨((fs [(H.STATE 0, stOff)]).modSeq (fun y => { y with dir := .idle })), by decide +kernel⟩,
   ⟨(((fs [(F.PS_CFG_AUTO_UP, 1)]).modSeq (fun y => { y with autoKind := 1 })).modSeq (fun y => { y with dir := .idle })), by decide +kernel⟩,
   ⟨(fs [(F.PS_CFG_AUTO_UP, 0)]), by decide +kernel⟩⟩

theorem hyps_PowerFailAndSlack :
    (∃ (s : State), s.seq.pfwSince = none) ∧
    (∃ (t : Nat) (s : State), s.seq.pfwSince = some t) ∧
    (∃ (t : Nat) (s : State), s.seq.pfwSince = some t ∧ t + s.psRd F.PS_PFW_HOLD * 1000 ≤ s.time ∧ s.dev ≠ stOff) ∧
    (∃ (t : Nat) (s : State), s.seq.pfwSince = some t ∧ s.time < t + s.psRd F.PS_PFW_HOLD * 1000) ∧
    (∃ (t : Nat) (s : State), s.seq.vinOkAt = some t ∧ s.on F.PS_CFG_AUTO_UP = true ∧ s.seq.autoKind = 2 ∧ s.seq.dir = .idle ∧ t + 10000000 ≤ s.time) ∧
    (∃ (s : State), s.seq.vinOkAt = none) ∧
    (∃ (s : State), s.rd F.PS_SLACK_IDLE_S ≠ 0 ∧ s.slackReady = true ∧ s.seq.idleSince + s.rd F.PS_SLACK_IDLE_S * 100000000 ≤ s.time) ∧
    (∃ (s : State), (s.rd F.PS_SLACK_IDLE_S = 0 ∨ s.slackReady = false)) ∧
    (∃ (s : State), s.dev = stSlack ∧ s.seq.slackExit = true ∧ s.seq.dir = .idle) ∧
    (∃ (s : State), s.dev ≠ stSlack) :=
  ⟨⟨((fs []).modSeq (fun y => { y with pfwSince := none })), by decide +kernel⟩,
   ⟨0, ((fs []).modSeq (fun y => { y with pfwSince := some 0 })), by decide +kernel⟩,
   ⟨0, (((fs [(H.STATE 0, stReady)]).modSeq (fun y => { y with pfwSince := some 0 })).at_ (10 ^ 15)), by decide +kernel⟩,
   ⟨0, (((fs []).modSeq (fun y => { y with pfwSince := some 0 }))).wr F.PS_PFW_HOLD 1, by decide +kernel⟩,
   ⟨0, (((((fs [(F.PS_CFG_AUTO_UP, 1)]).modSeq (fun y => { y with vinOkAt := some 0 })).modSeq (fun y => { y with autoKind := 2 })).modSeq (fun y => { y with dir := .idle })).at_ (10 ^ 15)), by decide +kernel⟩,
   ⟨((fs []).modSeq (fun y => { y with vinOkAt := none })), by decide +kernel⟩,
   ⟨(((fs [(F.PS_SLACK_IDLE_S, 1)]).at_ (10 ^ 15))).wr (H.STATE 0) stReady, by decide +kernel⟩,
   ⟨(fs [(F.PS_SLACK_IDLE_S, 0)]), by decide +kernel⟩,
   ⟨(((fs [(H.STATE 0, stSlack)]).modSeq (fun y => { y with slackExit := true })).modSeq (fun y => { y with dir := .idle })), by decide +kernel⟩,
   ⟨(fs []), by decide +kernel⟩⟩

theorem hyps_VcoreCommands :
    (∃ (us : List Nat) (low : Bool) (s : State), s.rd F.PS_AVS2_DN_TH < s.rd F.PS_AVS2_UP_TH) ∧
    (∃ (v : Nat) (s : State), v ≤ s.rd F.PS_VCORE_VSET + 20 ∧ s.rd F.PS_VCORE_VSET ≤ v + 20) ∧
    (∃ (v : Nat) (s : State), (s.rd F.PS_VCORE_VSET + 20 < v ∨ v + 20 < s.rd F.PS_VCORE_VSET) ∧ s.seq.avsAt + 200000 ≤ s.time) ∧
    (∃ (s : State), s.seq.avsBad ≠ 2) ∧
    (∃ (s : State), s.seq.avsBad = 2) ∧
    (∃ (us : List Nat) (low : Bool) (s : State), s.rd F.PS_AVS2_DN_TH < s.rd F.PS_AVS2_UP_TH ∧ ((s.wr F.PS_UTIL_UMAX (us.foldl max 0)).modSeq fun q => { q with pairUp := s.rd F.PS_AVS2_UP_TH, pairDn := s.rd F.PS_AVS2_DN_TH, lowRun := if us.foldl max 0 < s.rd F.PS_AVS2_DN_TH then s.seq.lowRun + 1 else 0 }).avsFree = false) ∧
    (∃ (us : List Nat) (low : Bool) (s : State), s.rd F.PS_AVS2_DN_TH < s.rd F.PS_AVS2_UP_TH ∧ ((s.wr F.PS_UTIL_UMAX (us.foldl max 0)).modSeq fun q => { q with pairUp := s.rd F.PS_AVS2_UP_TH, pairDn := s.rd F.PS_AVS2_DN_TH, lowRun := if us.foldl max 0 < s.rd F.PS_AVS2_DN_TH then s.seq.lowRun + 1 else 0 }).avsFree = true ∧ ((s.wr F.PS_UTIL_UMAX (us.foldl max 0)).modSeq fun q => { q with pairUp := s.rd F.PS_AVS2_UP_TH, pairDn := s.rd F.PS_AVS2_DN_TH, lowRun := if us.foldl max 0 < s.rd F.PS_AVS2_DN_TH then s.seq.lowRun + 1 else 0 }).avsTarget (us.foldl max 0) low ≠ ((s.wr F.PS_UTIL_UMAX (us.foldl max 0)).modSeq fun q => { q with pairUp := s.rd F.PS_AVS2_UP_TH, pairDn := s.rd F.PS_AVS2_DN_TH, lowRun := if us.foldl max 0 < s.rd F.PS_AVS2_DN_TH then s.seq.lowRun + 1 else 0 }).rd F.PS_VCORE_VSET) :=
  ⟨⟨[], false, (fs []), by decide +kernel⟩,
   ⟨800, (fs []), by decide +kernel⟩,
   ⟨0, ((fs []).at_ (10 ^ 15)), by decide +kernel⟩,
   ⟨((fs []).modSeq (fun y => { y with avsBad := (2 + 1) })), by decide +kernel⟩,
   ⟨((fs []).modSeq (fun y => { y with avsBad := 2 })), by decide +kernel⟩,
   ⟨[], false, fs [], by decide +kernel⟩,
   ⟨[900], false, fs [(H.STATE 0, stReady), (F.PS_VCORE_VSET, 600)], by decide +kernel⟩⟩

theorem hyps_ClockCommands :
    (∃ (s : State), s.rd F.CK_STAT_P2 = 1) ∧
    (∃ (p : Fin 3) (s : State), p ≠ 2 ∧ s.pll p = 1 ∧ s.clocks.groups = true) ∧
    (∃ (p : Fin 3) (s : State), s.pll p ≠ 1) ∧
    (∃ (s : State), s.rd F.CK_STAT_P2 = 2) ∧
    (∃ (p : Fin 3) (s : State), s.pll p ≠ 2) ∧
    (∃ (p : Fin 3) (s : State), s.pll p = 1 ∧ s.clocks.acqAt[p] + 4000 ≤ s.time ∧ s.clocks.groups = true) ∧
    (∃ (p : Fin 3) (s : State), s.time < s.clocks.acqAt[p] + 4000) ∧
    (∃ (s : State), s.clocks.groups = false ∧ s.rd F.CK_ROLE_PXA_SRC = 0 ∧ s.clocks.refLost = none ∧ s.rd F.CK_STAT_P0 = 1 ∧ s.on F.CK_ROLE_STANDBY = true) ∧
    (∃ (s : State), s.clocks.groups = true) ∧
    (∃ (a : Agent) (s : State), writable s a 0x004 0x06C ∧ s.rd F.CK_STAT_P0 = 4 ∧ s.rd F.CK_STAT_P1 ≠ 4 ∧ s.rd F.CK_STAT_P2 ≠ 4) ∧
    (∃ (a : Agent) (p : Fin 3) (v : Nat) (s : State), writable s a 0x004 (0x040 + 8 * p.val) ∧ p ≠ 2 ∧ s.pllBusy p = false ∧ bit v 16 = false) ∧
    (∃ (a : Agent) (p : Fin 3) (v : Nat) (s : State), writable s a 0x004 (0x040 + 8 * p.val) ∧ p ≠ 2 ∧ s.pllBusy p = true) ∧
    (∃ (a : Agent) (p : Fin 3) (v : Nat) (s : State), writable s a 0x004 (0x044 + 8 * p.val) ∧ p ≠ 2 ∧ s.pllBusy p = false ∧ v < 2 ^ 24 ∧ pllOk (s.rd (F.CK_PLL_N p)) (s.rd (F.CK_PLL_POSTDIV p)) v = false) ∧
    (∃ (a : Agent) (p : Fin 3) (v : Nat) (s : State), writable s a 0x004 (0x044 + 8 * p.val) ∧ p ≠ 2 ∧ s.pllBusy p = false ∧ v < 2 ^ 24 ∧ pllOk (s.rd (F.CK_PLL_N p)) (s.rd (F.CK_PLL_POSTDIV p)) v = true ∧ s.on (F.CK_PLL_EN p) = true) ∧
    (∃ (t : Nat) (s : State), s.clocks.refLost = some t) ∧
    (∃ (s : State), s.clocks.refLost = none ∧ s.rd F.CK_STAT_P0 = 2 ∧ s.rd F.CK_STAT_P1 = 2 ∧ s.rd F.CK_STAT_P2 = 2) ∧
    (∃ (t : Nat) (s : State), s.clocks.refLost = some t ∧ t + 100000 ≤ s.time ∧ s.clocks.refLong = false) ∧
    (∃ (s : State), s.clocks.refLost = none) ∧
    (∃ (t : Nat) (s : State), s.clocks.refLost = some t ∧ s.rd F.CK_STAT_P0 ≠ 3 ∧ s.rd F.CK_STAT_P1 ≠ 3 ∧ s.rd F.CK_STAT_P2 ≠ 3) ∧
    (∃ (s : State), s.clocks.refLost = none) ∧
    (∃ (k : Fin 6) (s : State), s.pll (s.pllOf k) = 2) ∧
    (∃ (k : Fin 6) (s : State), s.pll (s.pllOf k) ≠ 2) ∧
    (∃ (k : Fin 6) (s : State), bit (s.rd F.CK_STAT_DLL) k = true) ∧
    (∃ (s : State), s.domState 11 = 2 ∧ s.rd F.CK_STAT_P2 = 0) ∧
    (∃ (s : State), s.domState 11 ≠ 2) :=
  ⟨⟨(fs [(F.CK_STAT_P2, 1)]), by decide +kernel⟩,
   ⟨0, ((fs [(ckState 0, 1)]).modClk (fun y => { y with groups := true })), by decide +kernel⟩,
   ⟨0, (fs [(ckState 0, (1 + 1) % 8)]), by decide +kernel⟩,
   ⟨(fs [(F.CK_STAT_P2, 2)]), by decide +kernel⟩,
   ⟨0, (fs [(ckState 0, (2 + 1) % 8)]), by decide +kernel⟩,
   ⟨0, (((fs [(ckState 0, 1)]).modClk (fun y => { y with groups := true })).at_ (10 ^ 15)), by decide +kernel⟩,
   ⟨0, (fs []), by decide +kernel⟩,
   ⟨(((fs [(F.CK_ROLE_PXA_SRC, 0), (F.CK_STAT_P0, 1), (F.CK_ROLE_STANDBY, 1)]).modClk (fun y => { y with groups := false })).modClk (fun y => { y with refLost := none })), by decide +kernel⟩,
   ⟨((fs []).modClk (fun y => { y with groups := true })), by decide +kernel⟩,
   ⟨(.berth 0), (fs [(H.OWNER 0x004, 0), (F.CK_STAT_P0, 4), (F.CK_STAT_P1, 5), (F.CK_STAT_P2, 5)]), by decide +kernel⟩,
   ⟨(.berth 0), 0, 0, (fs [(H.OWNER 0x004, 0)]), by decide +kernel⟩,
   ⟨(.berth 0), 0, 0, ((fs [(H.OWNER 0x004, 0)])).wr (F.PT_SLOT_STATE 0) 2 |>.modTl (fun y => { y with slots := y.slots.set 0 (some { sl0 with stations := 1, begun := 1, anchor := some 0, starts := [0] }) }), by decide +kernel⟩,
   ⟨(.berth 0), 0, 0, (fs [(H.OWNER 0x004, 0)]), by decide +kernel⟩,
   ⟨(.berth 0), 0, 0, ((fs [(H.OWNER 0x004, 0), (F.CK_PLL_EN 0, 1)])).wr (F.CK_PLL_N 0) 128 |>.wr (F.CK_PLL_POSTDIV 0) 32, by decide +kernel⟩,
   ⟨0, ((fs []).modClk (fun y => { y with refLost := some 0 })), by decide +kernel⟩,
   ⟨((fs [(F.CK_STAT_P0, 2), (F.CK_STAT_P1, 2), (F.CK_STAT_P2, 2)]).modClk (fun y => { y with refLost := none })), by decide +kernel⟩,
   ⟨0, ((((fs []).modClk (fun y => { y with refLost := some 0 })).modClk (fun y => { y with refLong := false })).at_ (10 ^ 15)), by decide +kernel⟩,
   ⟨((fs []).modClk (fun y => { y with refLost := none })), by decide +kernel⟩,
   ⟨0, ((fs [(F.CK_STAT_P0, 4), (F.CK_STAT_P1, 4), (F.CK_STAT_P2, 4)]).modClk (fun y => { y with refLost := some 0 })), by decide +kernel⟩,
   ⟨((fs []).modClk (fun y => { y with refLost := none })), by decide +kernel⟩,
   ⟨0, (fs [(F.CK_STAT_P0, 2), (F.CK_STAT_P1, 2)]), by decide +kernel⟩,
   ⟨0, (fs []), by decide +kernel⟩,
   ⟨0, (fs [(F.CK_STAT_DLL, 1)]), by decide +kernel⟩,
   ⟨(fs [(F.PD_CFG_STATE 11, 2), (F.CK_STAT_P2, 0)]), by decide +kernel⟩,
   ⟨(fs [(F.PD_CFG_STATE 11, (2 + 1) % 8)]), by decide +kernel⟩⟩

theorem hyps_RunsAndAnnounces :
    (∃ (s : State), s.mayRun = true) ∧
    (∃ (s : State), s.mayRun = false) ∧
    (∃ (s : State), s.rd (H.STATE 0x041) = 1 ∧ s.tl.nextExp ≤ s.time + s.rd F.PT_FEED_LEAD_TICKS + s.rd F.PT_ANN_LEAD_TICKS ∧ s.tl.emptyRun = 4) ∧
    (∃ (s : State), s.rd (H.STATE 0x041) = 1 ∧ s.tl.nextExp ≤ s.time + s.rd F.PT_FEED_LEAD_TICKS + s.rd F.PT_ANN_LEAD_TICKS ∧ s.tl.emptyRun ≠ 4 ∧ s.on F.PT_CFG_FEED_EN = false ∧ s.tl.fedCount ≠ 0) ∧
    (∃ (s : State), s.rd (H.STATE 0x041) = 1 ∧ s.tl.nextExp ≤ s.time + s.rd F.PT_FEED_LEAD_TICKS + s.rd F.PT_ANN_LEAD_TICKS ∧ s.tl.emptyRun ≠ 4 ∧ s.on F.PT_CFG_FEED_EN = true ∧ s.rd F.PT_SKIP_REMAIN ≠ 0) ∧
    (∃ (p : Page) (s : State), s.rd (H.STATE 0x041) = 1 ∧ s.tl.nextExp ≤ s.time + s.rd F.PT_FEED_LEAD_TICKS + s.rd F.PT_ANN_LEAD_TICKS ∧ s.tl.emptyRun ≠ 4 ∧ s.on F.PT_CFG_FEED_EN = true ∧ s.rd F.PT_SKIP_REMAIN = 0 ∧ s.headPage.bind s.page? = some p ∧ p.st = .released ∧ p.storedAt ≠ some s.time) ∧
    (∃ (s : State), s.rd (H.STATE 0x041) ≠ 1) ∧
    (∃ (a : Agent) (n : Nat) (s : State), writable s a 0x041 0x09C ∧ n < 256) :=
  ⟨⟨(fs [(H.STATE 0, stRun), (F.PT_CFG_FEED_EN, 1)]).modTl (fun y => { y with released := [1] }), by decide +kernel⟩,
   ⟨(fs []), by decide +kernel⟩,
   ⟨((fs [(H.STATE 0x041, 1)]).modTl (fun y => { y with emptyRun := 4 })), by decide +kernel⟩,
   ⟨(((fs [(H.STATE 0x041, 1), (F.PT_CFG_FEED_EN, 0)]).modTl (fun y => { y with emptyRun := (4 + 1) })).modTl (fun y => { y with fedCount := (0 + 1) })), by decide +kernel⟩,
   ⟨((fs [(H.STATE 0x041, 1), (F.PT_CFG_FEED_EN, 1), (F.PT_SKIP_REMAIN, 1)]).modTl (fun y => { y with emptyRun := (4 + 1) })), by decide +kernel⟩,
   ⟨{ pg with st := .released }, (((fs [(H.STATE 0x041, 1), (F.PT_CFG_FEED_EN, 1), (F.PT_SKIP_REMAIN, 0)]).modTl (fun y => { y with emptyRun := (4 + 1) }))).modTl (fun y => { y with emptyRun := 0, released := [1], pages := [{ pg with st := .released }] }), by decide +kernel⟩,
   ⟨(fs [(H.STATE 0x041, 2)]), by decide +kernel⟩,
   ⟨(.berth 0), 0, (fs [(H.OWNER 0x041, 0)]), by decide +kernel⟩⟩

theorem hyps_FeedGate :
    (∃ (s : State), s.tl.pitches = []) ∧
    (∃ (q : Pitch) (r : List Pitch) (s : State), s.tl.pitches = q :: r ∧ s.time + s.rd F.PT_FEED_LEAD_TICKS < q.texp) ∧
    (∃ (q : Pitch) (r : List Pitch) (s : State), s.tl.pitches = q :: r ∧ q.texp ≤ s.time + s.rd F.PT_FEED_LEAD_TICKS) ∧
    (∃ (q : Pitch) (reasons : Nat) (s : State), q.kind ≠ .sheet ∧ s.on (H.OWNER 0x041) = false) ∧
    (∃ (q : Pitch) (r : List Pitch) (s : State), s.tl.pitches = q :: r ∧ q.texp ≤ s.time + s.rd F.PT_FEED_LEAD_TICKS ∧ q.kind = .empty) ∧
    (∃ (q : Pitch) (r : List Pitch) (p : Page) (i : Fin 16) (s : State), s.tl.pitches = q :: r ∧ q.texp ≤ s.time + s.rd F.PT_FEED_LEAD_TICKS ∧ q.kind ≠ .empty ∧ (((s.ptBoundary.boundary 0x0A8).modTl fun t => { t with pitches := r, pitchNo := t.pitchNo + 1 }).rePitch q).pathReport.page? q.page = some p ∧ (((s.ptBoundary.boundary 0x0A8).modTl fun t => { t with pitches := r, pitchNo := t.pitchNo + 1 }).rePitch q).pathReport.freeSlotIndex = some i ∧ (((s.ptBoundary.boundary 0x0A8).modTl fun t => { t with pitches := r, pitchNo := t.pitchNo + 1 }).rePitch q).pathReport.feedReasons q = 0) ∧
    (∃ (q : Pitch) (r : List Pitch) (s : State), s.tl.pitches = q :: r ∧ q.texp ≤ s.time + s.rd F.PT_FEED_LEAD_TICKS ∧ q.kind ≠ .empty ∧ (((s.ptBoundary.boundary 0x0A8).modTl fun t => { t with pitches := r, pitchNo := t.pitchNo + 1 }).rePitch q).pathReport.feedReasons q ≠ 0) :=
  ⟨⟨(fs []), by decide +kernel⟩,
   ⟨{ pit with texp := 10 ^ 9 }, [], (fs []).modTl (fun y => { y with pitches := [{ pit with texp := 10 ^ 9 }] }), by decide +kernel⟩,
   ⟨pit, [], ((fs []).modTl (fun y => { y with pitches := pit :: [] })), by decide +kernel⟩,
   ⟨{ pit with kind := .empty }, 0, (fs [(H.OWNER 0x041, 0)]), by decide +kernel⟩,
   ⟨{ pit with kind := .empty }, [], (fs []).modTl (fun y => { y with pitches := [{ pit with kind := .empty }], pages := [] }), by decide +kernel⟩,
   ⟨{ pit with feedOn := true }, [], { pg with st := .released, released := true }, 0, (fs [(H.STATE 0x041, 1), (F.PT_SPEED_SPEED, 65536)]).modTl (fun y => { y with pitches := [{ pit with feedOn := true }], pages := [{ pg with st := .released, released := true }], pathReady := true }), by decide +kernel⟩,
   ⟨pit, [], (fs []).modTl (fun y => { y with pitches := [pit], pages := [] }), by decide +kernel⟩⟩

theorem hyps_PageInstants :
    (∃ (i : Fin 16) (sl : Slot) (p : Page) (s : State), s.tl.slots[i] = some sl ∧ sl.anchor = none ∧ sl.missed = false ∧ sl.blank = false ∧ sl.texp + sl.win + s.filt (s.rd F.PT_CFG_ANCHOR_SRC) < s.time ∧ s.page? sl.page = some p ∧ p.st ≠ .retired) ∧
    (∃ (i : Fin 16) (s : State), s.tl.slots[i] = none) ∧
    (∃ (i : Fin 16) (sl : Slot) (a : Nat) (p : Page) (s : State), s.tl.slots[i] = some sl ∧ sl.anchor = some a ∧ s.rd (F.PT_SLOT_STATE i) = 1 ∧ sl.blank = false ∧ s.commitAt sl a ≤ s.time ∧ s.feedFirst.page? sl.page = some p ∧ s.feedFirst.commitReasons sl ≠ 0) ∧
    (∃ (i : Fin 16) (sl : Slot) (a : Nat) (p : Page) (s : State), s.tl.slots[i] = some sl ∧ sl.anchor = some a ∧ s.rd (F.PT_SLOT_STATE i) = 1 ∧ sl.blank = false ∧ s.commitAt sl a ≤ s.time ∧ s.feedFirst.page? sl.page = some p ∧ s.feedFirst.commitReasons sl = 0) ∧
    (∃ (i : Fin 16) (s : State), s.tl.slots[i] = none) ∧
    (∃ (i : Fin 16) (sl : Slot) (s : State), s.tl.slots[i] = some sl ∧ sl.anchor.getD sl.texp + sl.divert ≤ s.time ∧ (s.rd (F.PT_SLOT_STATE i) = 4 ∧ s.rd (F.PT_SLOT_CAUSE i) ≠ lcJam) ∨ sl.blank = true) ∧
    (∃ (i : Fin 16) (sl : Slot) (s : State), s.tl.slots[i] = some sl ∧ s.time < sl.anchor.getD sl.texp + sl.divert) ∧
    (∃ (i : Fin 16) (sl : Slot) (s : State), s.tl.slots[i] = some sl ∧ sl.exitAt + sl.win + s.filt (s.rd F.PT_CFG_EXIT_SRC) < s.time ∧ s.rd (F.PT_SLOT_STATE i) ≠ 2) ∧
    (∃ (i : Fin 16) (sl : Slot) (s : State), s.tl.slots[i] = some sl ∧ sl.exitAt + sl.win + s.filt (s.rd F.PT_CFG_EXIT_SRC) < s.time ∧ s.rd (F.PT_SLOT_STATE i) = 2) ∧
    (∃ (i : Fin 16) (s : State), s.tl.slots[i] = none) :=
  ⟨⟨0, sl0, pg, ((((fs []).modTl (fun y => { y with slots := y.slots.set 0 (some sl0) }))).modTl (fun y => { y with pages := [pg] })).at_ (10 ^ 12), by decide +kernel⟩,
   ⟨0, (fs []), by decide +kernel⟩,
   ⟨0, { sl0 with anchor := some 0 }, 0, pg, ((((fs [(F.PT_SLOT_STATE 0, 1)]).modTl (fun y => { y with slots := y.slots.set 0 (some sl0) })).at_ (10 ^ 15))).modTl (fun y => { y with pages := [pg], slots := y.slots.set 0 (some { sl0 with anchor := some 0 }) }), by decide +kernel⟩,
   ⟨0, { sl0 with anchor := some 0 }, 0, pg, ((((fs [(F.PT_SLOT_STATE 0, 1)]).modTl (fun y => { y with slots := y.slots.set 0 (some sl0) })).at_ (10 ^ 15))).modTl (fun y => { y with jobs := [jb], pages := [pg], slots := y.slots.set 0 (some { sl0 with anchor := some 0 }) }), by decide +kernel⟩,
   ⟨0, (fs []), by decide +kernel⟩,
   ⟨0, sl0, (((fs [(F.PT_SLOT_STATE 0, 4 )]).modTl (fun y => { y with slots := y.slots.set 0 (some sl0) })).at_ (10 ^ 15)), by decide +kernel⟩,
   ⟨0, { sl0 with divert := 9 }, (((fs []).modTl (fun y => { y with slots := y.slots.set 0 (some sl0) }))).modTl (fun y => { y with pages := [pg], slots := y.slots.set 0 (some { sl0 with divert := 9 }) }), by decide +kernel⟩,
   ⟨0, { sl0 with speed := 1 }, (fs [(F.PT_SLOT_STATE 0, 3)]).modTl (fun y => { y with slots := y.slots.set 0 (some { sl0 with speed := 1 }) }) |>.at_ (10 ^ 15), by decide +kernel⟩,
   ⟨0, { sl0 with speed := 1 }, (fs [(F.PT_SLOT_STATE 0, 2)]).modTl (fun y => { y with slots := y.slots.set 0 (some { sl0 with speed := 1 }) }) |>.at_ (10 ^ 15), by decide +kernel⟩,
   ⟨0, (fs []), by decide +kernel⟩⟩

theorem hyps_SensorsAndLoss :
    (∃ (i : Fin 64) (high : Bool) (stamp : Nat) (s : State), (s.mo.sensors[i].high = high ∨ s.time < stamp + s.rd (F.SS_IN_CFG_FILT i) * 100 ∨ s.on (H.ISOLATED 0x0A8) = true)) ∧
    (∃ (i : Fin 64) (high : Bool) (stamp : Nat) (s : State), s.mo.sensors[i].high ≠ high ∧ stamp + s.rd (F.SS_IN_CFG_FILT i) * 100 ≤ s.time ∧ s.on (H.ISOLATED 0x0A8) = false ∧ s.mo.sensors[i].last = none ∧ s.inPath i = false) ∧
    (∃ (i : Fin 64) (t : Nat) (lead : Bool) (s : State), (s.mo.sensors[i].last = some (t, lead)) ∧ t + s.lockout i ≤ s.time ∧ s.on (H.ISOLATED 0x0A8) = false) ∧
    (∃ (i : Fin 64) (s : State), s.mo.sensors[i].last = none) ∧
    (∃ (i : Fin 64) (t : Nat) (lead : Bool) (s : State), (s.mo.sensors[i].last = some (t, lead)) ∧ s.on (F.SS_IN_STAT_LEVEL i) = lead) ∧
    (∃ (a : Agent) (zone : Nat) (s : State), writable s a 0x0A8 0x0D8 ∧ zone < 16) ∧
    (∃ (i t : Fin 16) (trail : Bool) (sl : Slot) (q : Track) (w : Int × Int) (s : State), s.tracked.contains i = true ∧ s.on (H.ISOLATED 0x0A8) = false ∧ s.tl.slots[i] = some sl ∧ sl.tracks.find? (fun x => x.point == t.val && !(if trail then x.trail else x.lead)) = some q ∧ sl.window q trail = some w ∧ w.2 + s.filt q.sensor < (s.time : Int)) ∧
    (∃ (i t : Fin 16) (trail : Bool) (s : State), s.tracked.contains i = false) ∧
    (∃ (t : Nat) (s : State), s.mo.clearAt = some t ∧ t + s.rd F.SS_CLEAR_T * 100000 ≤ s.time ∧ s.pathEmpty = true ∧ s.on F.SS_STAT_PATH_CLEAR = false ∧ s.on (H.ISOLATED 0x0A8) = false) ∧
    (∃ (s : State), s.mo.clearAt = none) ∧
    (∃ (i : Fin 16) (cause : Nat) (sl : Slot) (s : State), s.tl.slots[i] = some sl ∧ s.rd (F.PT_SLOT_STATE i) = 4 ∧ sl.lostAt ≠ s.time) ∧
    (∃ (i : Fin 16) (cause : Nat) (s : State), s.tl.slots[i] = none) ∧
    (∃ (i : Fin 16) (cause : Nat) (sl : Slot) (s : State), s.tl.slots[i] = some sl ∧ s.rd (F.PT_SLOT_STATE i) ≠ 2 ∧ s.rd (F.PT_SLOT_STATE i) ≠ 4) ∧
    (∃ (i : Fin 16) (cause : Nat) (sl : Slot) (p : Page) (s : State), s.tl.slots[i] = some sl ∧ s.rd (F.PT_SLOT_STATE i) = 2 ∧ s.page? sl.page = some p ∧ s.reprintOrder = false ∧ cause ≠ lcOrder) ∧
    (∃ (job : Nat) (j : Job) (s : State), s.job? job = some j ∧ s.jobOver j = false) ∧
    (∃ (job : Nat) (j : Job) (s : State), s.job? job = some j ∧ s.jobOver j = true) ∧
    (∃ (job : Nat) (s : State), s.job? job = none) :=
  ⟨⟨0, false, 0, (fs []), by decide +kernel⟩,
   ⟨0, true, 0, ((fs [(H.ISOLATED 0x0A8, 0)]).at_ (10 ^ 15)), by decide +kernel⟩,
   ⟨0, 0, false, (((fs [(H.ISOLATED 0x0A8, 0)]).at_ (10 ^ 15))).mom (fun y => { y with sensors := y.sensors.set 0 ⟨false, some (0, false), (0, 0)⟩ }), by decide +kernel⟩,
   ⟨0, (fs []), by decide +kernel⟩,
   ⟨0, 0, false, ((fs [])).mom (fun y => { y with sensors := y.sensors.set 0 ⟨false, some (0, false), (0, 0)⟩ }), by decide +kernel⟩,
   ⟨(.berth 0), 0, (fs [(H.OWNER 0x0A8, 0)]), by decide +kernel⟩,
   ⟨0, 0, false, { sl0 with tracks := [⟨0, 0, 0, 0, 0, false, false⟩], anchor := some 0 }, ⟨0, 0, 0, 0, 0, false, false⟩, (0, 0), (((fs [(H.ISOLATED 0x0A8, 0)]).modTl (fun y => { y with slots := y.slots.set 0 (some sl0) }))).modTl (fun y => { y with pages := [pg], slots := y.slots.set 0 (some { sl0 with tracks := [⟨0, 0, 0, 0, 0, false, false⟩], anchor := some 0 }) }) |>.wr (F.PT_SLOT_STATE 0) 1 |>.at_ (10 ^ 12), by decide +kernel⟩,
   ⟨0, 0, false, (fs []), by decide +kernel⟩,
   ⟨0, (((fs [(F.SS_STAT_PATH_CLEAR, 0), (H.ISOLATED 0x0A8, 0)]).mom (fun y => { y with clearAt := some 0 })).at_ (10 ^ 15)), by decide +kernel⟩,
   ⟨((fs []).mom (fun y => { y with clearAt := none })), by decide +kernel⟩,
   ⟨0, 0, sl0, (((fs [(F.PT_SLOT_STATE 0, 4)]).modTl (fun y => { y with slots := y.slots.set 0 (some sl0) }))).at_ 9, by decide +kernel⟩,
   ⟨0, 0, (fs []), by decide +kernel⟩,
   ⟨0, 0, sl0, ((fs [(F.PT_SLOT_STATE 0, 5)]).modTl (fun y => { y with slots := y.slots.set 0 (some sl0) })), by decide +kernel⟩,
   ⟨0, 0, sl0, pg, (((fs [(F.PT_SLOT_STATE 0, 2)]).modTl (fun y => { y with slots := y.slots.set 0 (some sl0) }))).modTl (fun y => { y with pages := [pg] }), by decide +kernel⟩,
   ⟨1, jb, ((fs [])).modTl (fun y => { y with jobs := [jb] }), by decide +kernel⟩,
   ⟨1, { jb with closed := true }, ((fs [])).modTl (fun y => { y with jobs := [{ jb with closed := true }] }), by decide +kernel⟩,
   ⟨0, (fs []), by decide +kernel⟩⟩

theorem hyps_DecodeCommands :
    (∃ (id : Nat) (k : Fin 6) (lane : Fin 8) (p : Page) (q : Sep) (b : List Nat) (h : StreamHeader) (s t : State), (s.sepAt id k = some (p, q)) ∧ p.st = .defined ∧ q.stored = false ∧ q.complete = true ∧ (s.streamBytes q 0 24 (.lane (Fin.ofNat 10 lane.val)) = (some b, t)) ∧ parseStream (b.take 16) = some h ∧ (parseBlock (b.drop 16)).isSome = true ∧ t.streamOk p h = true ∧ q.covers 0 24 = true) ∧
    (∃ (id : Nat) (k : Fin 6) (lane : Fin 8) (s : State), s.sepAt id k = none) ∧
    (∃ (id : Nat) (k : Fin 6) (lane : Fin 8) (p : Page) (q : Sep) (x : Fin 24) (b : List Nat) (s t : State), (s.sepAt id k = some (p, q)) ∧ (List.finRange 24).find? (fun (x : Fin 24) => !s.on (F.CTX_OPEN x)) = some x ∧ p.st = .fed ∧ q.stored = true ∧ s.laneOpen lane = true ∧ (s.ctxsOf k).length < 4 ∧ ((s.ctxsOf k).any fun y => s.rd (F.CTX_PAGE_ID y) == id) = false ∧ (s.wr (F.IM_WINDOW_NEED k.val) (s.needLines k s.time)).ringBig k s.time = true ∧ (s.wr (F.IM_WINDOW_NEED k.val) (s.needLines k s.time)).streamBytes q 16 8 (.lane (Fin.ofNat 10 lane.val)) = (some b, t)) ∧
    (∃ (id : Nat) (k : Fin 6) (lane : Fin 8) (s : State), s.laneOpen lane = false) ∧
    (∃ (lane : Fin 8) (s : State), s.laneOpen lane = false) ∧
    (∃ (lane : Fin 8) (s : State), s.laneOpen lane = true ∧ s.nextCtx = none) ∧
    (∃ (lane : Fin 8) (x : Fin 24) (p : Page) (q : Sep) (s : State), s.laneOpen lane = true ∧ s.nextCtx = some x ∧ (s.sepAt (s.rd (F.CTX_PAGE_ID x)) (s.ctxStation x) = some (p, q)) ∧ (s.ctx x).started = true ∧ (s.ctx x).again = false) ∧
    (∃ (lane : Fin 8) (x : Fin 24) (p : Page) (q : Sep) (b : List Nat) (h : BlockHeader) (body out : List Nat) (s t u : State), s.rd (F.DL_STAT_CTX lane) = x.val ∧ (s.sepAt (s.rd (F.CTX_PAGE_ID x)) (s.ctxStation x) = some (p, q)) ∧ q.covers (s.ctx x).off 8 = true ∧ (s.streamBytes q (s.ctx x).off 8 (.lane (Fin.ofNat 10 lane.val)) = (some b, t)) ∧ parseBlock b = some h ∧ headError p.alpha h (t.ctx x).done (p.lineBytes * p.lines) = 0 ∧ q.covers ((s.ctx x).off + 8) h.bodyLen = true ∧ (t.streamBytes q ((s.ctx x).off + 8) h.bodyLen (.lane (Fin.ofNat 10 lane.val)) = (some body, u)) ∧ decodeBlock p.alpha h body = .inr out) ∧
    (∃ (lane : Fin 8) (x : Fin 24) (p : Page) (q : Sep) (b : List Nat) (s t : State), s.rd (F.DL_STAT_CTX lane) = x.val ∧ (s.sepAt (s.rd (F.CTX_PAGE_ID x)) (s.ctxStation x) = some (p, q)) ∧ q.covers (s.ctx x).off 8 = true ∧ (s.streamBytes q (s.ctx x).off 8 (.lane (Fin.ofNat 10 lane.val)) = (some b, t)) ∧ parseBlock b = none) ∧
    (∃ (lane : Fin 8) (s : State), 24 ≤ s.rd (F.DL_STAT_CTX lane)) ∧
    (∃ (x : Fin 24) (s : State), (s.on (F.CTX_OPEN x) = false ∨ (s.ctx x).zero = false)) ∧
    (∃ (x : Fin 24) (p : Page) (s : State), s.on (F.CTX_OPEN x) = true ∧ (s.ctx x).zero = true ∧ (s.ctx x).started = true ∧ s.page? (s.rd (F.CTX_PAGE_ID x)) = some p ∧ (s.ring (s.ctxStation x)).page = some (s.rd (F.CTX_PAGE_ID x)) ∧ (s.ring (s.ctxStation x)).pub < (s.ring (s.ctxStation x)).lines ∧ s.ringRoom x 1 = true) :=
  ⟨⟨1, 0, 0, pgS, spS, (((ds pgS [(F.CDC_LIMIT_OUT_LIMIT, 100)]).streamBytes spS 0 24 (.lane 0)).1.getD []), ⟨false, 4, 1⟩, (ds pgS [(F.CDC_LIMIT_OUT_LIMIT, 100)]), ((ds pgS [(F.CDC_LIMIT_OUT_LIMIT, 100)]).streamBytes spS 0 24 (.lane 0)).2, ⟨by decide +kernel, by decide +kernel, by decide +kernel, by decide +kernel, Prod.ext (someGetD (by decide +kernel)) rfl, by decide +kernel, by decide +kernel, by decide +kernel, by decide +kernel⟩⟩,
   ⟨0, 0, 0, (fs []), by decide +kernel⟩,
   ⟨1, 0, 0, pgT, spT, 0, ((((ds pgT [(F.IM_RING_LINES 0, 1000)]).wr (F.IM_WINDOW_NEED 0) ((ds pgT [(F.IM_RING_LINES 0, 1000)]).needLines 0 0)).streamBytes spT 16 8 (.lane 0)).1.getD []), (ds pgT [(F.IM_RING_LINES 0, 1000)]), (((ds pgT [(F.IM_RING_LINES 0, 1000)]).wr (F.IM_WINDOW_NEED 0) ((ds pgT [(F.IM_RING_LINES 0, 1000)]).needLines 0 0)).streamBytes spT 16 8 (.lane 0)).2, ⟨by decide +kernel, by decide +kernel, by decide +kernel, by decide +kernel, by decide +kernel, by decide +kernel, by decide +kernel, by decide +kernel, Prod.ext (someGetD (by decide +kernel)) rfl⟩⟩,
   ⟨0, 0, 0, (fs [(H.ISOLATED 0x049, 1)]), by decide +kernel⟩,
   ⟨0, (fs [(H.ISOLATED 0x049, 1)]), by decide +kernel⟩,
   ⟨0, (fs []), by decide +kernel⟩,
   ⟨0, 0, pgT, spT, (ds pgT [(F.IM_RING_LINES 0, 1000), (F.CTX_PAGE_ID 0, 1), (F.CTX_STATION 0, 0), (F.CTX_OPEN 0, 1), (F.CTX_LANE 0, 15), (F.DL_STAT_CTX 0, 31)]).modCtx 0 (fun y => { y with order := some 0, started := true, off := 16, zero := false }) |>.modRing 0 (fun _ => ⟨some 1, 1, 0, 0, 64⟩), by decide +kernel⟩,
   ⟨0, 0, pgT, spT, ((((ds pgT [(F.IM_RING_LINES 0, 1000), (F.CTX_PAGE_ID 0, 1), (F.CTX_STATION 0, 0), (F.CTX_OPEN 0, 1), (F.CTX_LANE 0, 15), (F.DL_STAT_CTX 0, 0)]).modCtx 0 (fun y => { y with order := some 0, started := true, off := 16, zero := false }) |>.modRing 0 (fun _ => ⟨some 1, 1, 0, 0, 64⟩)).streamBytes spT 16 8 (.lane 0)).1.getD []), ⟨true, true, false, 4, 4⟩, (((((ds pgT [(F.IM_RING_LINES 0, 1000), (F.CTX_PAGE_ID 0, 1), (F.CTX_STATION 0, 0), (F.CTX_OPEN 0, 1), (F.CTX_LANE 0, 15), (F.DL_STAT_CTX 0, 0)]).modCtx 0 (fun y => { y with order := some 0, started := true, off := 16, zero := false }) |>.modRing 0 (fun _ => ⟨some 1, 1, 0, 0, 64⟩)).streamBytes spT 16 8 (.lane 0)).2.streamBytes spT 24 4 (.lane 0)).1.getD []), [1, 2, 3, 4], ((ds pgT [(F.IM_RING_LINES 0, 1000), (F.CTX_PAGE_ID 0, 1), (F.CTX_STATION 0, 0), (F.CTX_OPEN 0, 1), (F.CTX_LANE 0, 15), (F.DL_STAT_CTX 0, 0)]).modCtx 0 (fun y => { y with order := some 0, started := true, off := 16, zero := false }) |>.modRing 0 (fun _ => ⟨some 1, 1, 0, 0, 64⟩)), (((ds pgT [(F.IM_RING_LINES 0, 1000), (F.CTX_PAGE_ID 0, 1), (F.CTX_STATION 0, 0), (F.CTX_OPEN 0, 1), (F.CTX_LANE 0, 15), (F.DL_STAT_CTX 0, 0)]).modCtx 0 (fun y => { y with order := some 0, started := true, off := 16, zero := false }) |>.modRing 0 (fun _ => ⟨some 1, 1, 0, 0, 64⟩)).streamBytes spT 16 8 (.lane 0)).2, ((((ds pgT [(F.IM_RING_LINES 0, 1000), (F.CTX_PAGE_ID 0, 1), (F.CTX_STATION 0, 0), (F.CTX_OPEN 0, 1), (F.CTX_LANE 0, 15), (F.DL_STAT_CTX 0, 0)]).modCtx 0 (fun y => { y with order := some 0, started := true, off := 16, zero := false }) |>.modRing 0 (fun _ => ⟨some 1, 1, 0, 0, 64⟩)).streamBytes spT 16 8 (.lane 0)).2.streamBytes spT 24 4 (.lane 0)).2, by (decide +kernel)⟩,
   ⟨0, 0, pgT, spT, ((((ds pgT [(F.IM_RING_LINES 0, 1000), (F.CTX_PAGE_ID 0, 1), (F.CTX_STATION 0, 0), (F.CTX_OPEN 0, 1), (F.CTX_LANE 0, 15), (F.DL_STAT_CTX 0, 0)]).modCtx 0 (fun y => { y with order := some 0, started := true, off := 0, zero := false }) |>.modRing 0 (fun _ => ⟨some 1, 1, 0, 0, 64⟩)).streamBytes spT 0 8 (.lane 0)).1.getD []), ((ds pgT [(F.IM_RING_LINES 0, 1000), (F.CTX_PAGE_ID 0, 1), (F.CTX_STATION 0, 0), (F.CTX_OPEN 0, 1), (F.CTX_LANE 0, 15), (F.DL_STAT_CTX 0, 0)]).modCtx 0 (fun y => { y with order := some 0, started := true, off := 0, zero := false }) |>.modRing 0 (fun _ => ⟨some 1, 1, 0, 0, 64⟩)), (((ds pgT [(F.IM_RING_LINES 0, 1000), (F.CTX_PAGE_ID 0, 1), (F.CTX_STATION 0, 0), (F.CTX_OPEN 0, 1), (F.CTX_LANE 0, 15), (F.DL_STAT_CTX 0, 0)]).modCtx 0 (fun y => { y with order := some 0, started := true, off := 0, zero := false }) |>.modRing 0 (fun _ => ⟨some 1, 1, 0, 0, 64⟩)).streamBytes spT 0 8 (.lane 0)).2, ⟨by decide +kernel, by decide +kernel, by decide +kernel, Prod.ext (someGetD (by decide +kernel)) rfl, by decide +kernel⟩⟩,
   ⟨0, (fs []), by decide +kernel⟩,
   ⟨0, (fs [(F.CTX_OPEN 0, 0)]), by decide +kernel⟩,
   ⟨0, pgT, (ds pgT [(F.IM_RING_LINES 0, 1000), (F.CTX_PAGE_ID 0, 1), (F.CTX_STATION 0, 0), (F.CTX_OPEN 0, 1), (F.CTX_LANE 0, 15), (F.DL_STAT_CTX 0, 0)]).modCtx 0 (fun y => { y with order := some 0, started := true, off := 16, zero := true }) |>.modRing 0 (fun _ => ⟨some 1, 1, 0, 0, 64⟩), by decide +kernel⟩⟩

theorem hyps_EncodeCommands :
    (∃ (a : Agent) (j : Fin 2) (v : Nat) (s : State), writable s a (0x051 + j) 0x060 ∧ s.rd (H.STATE (0x051 + j)) ≠ 0) ∧
    (∃ (a : Agent) (j : Fin 2) (v : Nat) (s : State), writable s a (0x051 + j) 0x060 ∧ s.rd (H.STATE (0x051 + j)) = 0) ∧
    (∃ (j : Fin 2) (data l : List Nat) (s t : State), s.rd (H.STATE (0x051 + j)) ≠ 0 ∧ (s.ejLines j data (s.rd (F.EJ_LINES_LINES j)) 0 = (.bytes l, t))) ∧
    (∃ (j : Fin 2) (data : List Nat) (s : State), s.rd (H.STATE (0x051 + j)) = 0) ∧
    (∃ (j : Fin 2) (st : Fin 3) (s : State), s.rd (H.STATE (0x051 + j)) ≠ 0) ∧
    (∃ (j : Fin 2) (st : Fin 3) (s : State), s.rd (H.STATE (0x051 + j)) = 0) ∧
    (∃ (a : Agent) (j : Fin 2) (s : State), writable s a (0x051 + j) 0x004 ∧ s.rd (H.STATE (0x051 + j)) ≠ 0) ∧
    (∃ (a : Agent) (j : Fin 2) (s : State), writable s a (0x051 + j) 0x004) ∧
    (∃ (a : Agent) (j : Fin 2) (v : Nat) (s : State), writable s a (0x051 + j) 0x060 ∧ s.rd (H.STATE (0x051 + j)) = 0 ∧ ((((s.wr (F.EJ_CTL_ALPHA j) v).wr (F.EJ_CTL_MODE j) (v / 2)).wr (F.EJ_CTL_EFFORT j) (v / 4)).wr (F.EJ_CTL_BLOCK_IN j) (v / 256)).on (H.ISOLATED (0x051 + j)) = true) ∧
    (∃ (a : Agent) (j : Fin 2) (v : Nat) (s : State), writable s a (0x051 + j) 0x060 ∧ s.rd (H.STATE (0x051 + j)) = 0 ∧ ((((s.wr (F.EJ_CTL_ALPHA j) v).wr (F.EJ_CTL_MODE j) (v / 2)).wr (F.EJ_CTL_EFFORT j) (v / 4)).wr (F.EJ_CTL_BLOCK_IN j) (v / 256)).on (H.ISOLATED (0x051 + j)) = false ∧ ((((s.wr (F.EJ_CTL_ALPHA j) v).wr (F.EJ_CTL_MODE j) (v / 2)).wr (F.EJ_CTL_EFFORT j) (v / 4)).wr (F.EJ_CTL_BLOCK_IN j) (v / 256)).ejParams j = false) ∧
    (∃ (a : Agent) (j : Fin 2) (v : Nat) (s : State), writable s a (0x051 + j) 0x060 ∧ s.rd (H.STATE (0x051 + j)) = 0 ∧ ((((s.wr (F.EJ_CTL_ALPHA j) v).wr (F.EJ_CTL_MODE j) (v / 2)).wr (F.EJ_CTL_EFFORT j) (v / 4)).wr (F.EJ_CTL_BLOCK_IN j) (v / 256)).on (H.ISOLATED (0x051 + j)) = false ∧ ((((s.wr (F.EJ_CTL_ALPHA j) v).wr (F.EJ_CTL_MODE j) (v / 2)).wr (F.EJ_CTL_EFFORT j) (v / 4)).wr (F.EJ_CTL_BLOCK_IN j) (v / 256)).ejParams j = true) ∧
    (∃ (j : Fin 2) (data l : List Nat) (s t : State), s.rd (H.STATE (0x051 + j)) ≠ 0 ∧ s.ejLines j data (s.rd (F.EJ_LINES_LINES j)) 0 = (.bytes l, t) ∧ (8 * (((encodeStream ⟨t.on (F.EJ_CTL_ALPHA j), t.rd (F.EJ_LINE_BYTES_BYTES j), t.rd (F.EJ_LINES_LINES j)⟩ (t.on (F.EJ_CTL_MODE j)) (t.rd (F.EJ_CTL_EFFORT j)) (t.rd (F.EJ_CTL_BLOCK_IN j) + 1) l).length + 7) / 8)) ≤ t.rd (F.EJ_DST_SIZE_BYTES j) ∧ t.inMemory (t.ejDst j) (8 * (((encodeStream ⟨t.on (F.EJ_CTL_ALPHA j), t.rd (F.EJ_LINE_BYTES_BYTES j), t.rd (F.EJ_LINES_LINES j)⟩ (t.on (F.EJ_CTL_MODE j)) (t.rd (F.EJ_CTL_EFFORT j)) (t.rd (F.EJ_CTL_BLOCK_IN j) + 1) l).length + 7) / 8)) = true) ∧
    (∃ (j : Fin 2) (data l : List Nat) (s t : State), s.rd (H.STATE (0x051 + j)) ≠ 0 ∧ s.ejLines j data (s.rd (F.EJ_LINES_LINES j)) 0 = (.bytes l, t) ∧ t.rd (F.EJ_DST_SIZE_BYTES j) < (8 * (((encodeStream ⟨t.on (F.EJ_CTL_ALPHA j), t.rd (F.EJ_LINE_BYTES_BYTES j), t.rd (F.EJ_LINES_LINES j)⟩ (t.on (F.EJ_CTL_MODE j)) (t.rd (F.EJ_CTL_EFFORT j)) (t.rd (F.EJ_CTL_BLOCK_IN j) + 1) l).length + 7) / 8))) :=
  ⟨⟨(.berth 0), 0, 0, (fs [(H.OWNER (0x051 + 0), 0), (H.STATE (0x051 + 0), 1)]), by decide +kernel⟩,
   ⟨(.berth 0), 0, 0, (fs [(H.OWNER (0x051 + 0), 0), (H.STATE (0x051 + 0), 0)]), by decide +kernel⟩,
   ⟨0, [], [], (fs [(H.STATE 0x051, 1)]), (fs [(H.STATE 0x051, 1)]), ⟨by decide +kernel, rfl⟩⟩,
   ⟨0, [], (fs [(H.STATE (0x051 + 0), 0)]), by decide +kernel⟩,
   ⟨0, 0, (fs [(H.STATE (0x051 + 0), 1)]), by decide +kernel⟩,
   ⟨0, 0, (fs [(H.STATE (0x051 + 0), 0)]), by decide +kernel⟩,
   ⟨(.berth 0), 0, (fs [(H.OWNER (0x051 + 0), 0), (H.STATE (0x051 + 0), 1)]), by decide +kernel⟩,
   ⟨(.berth 0), 0, (fs [(H.OWNER (0x051 + 0), 0)]), by decide +kernel⟩,
   ⟨.berth 0, 0, 0, fs [(H.OWNER 0x051, 0), (H.ISOLATED 0x051, 1)], by decide +kernel⟩,
   ⟨.berth 0, 0, 1, fs [(H.OWNER 0x051, 0)], by decide +kernel⟩,
   ⟨.berth 0, 0, 0x10000, fs [(H.OWNER 0x051, 0), (F.EJ_LINES_LINES 0, 1), (F.EJ_LINE_BYTES_BYTES 0, 8), (F.EJ_DST_SIZE_BYTES 0, 64)], by decide +kernel⟩,
   ⟨0, [], [], (ms [(H.STATE 0x051, 1), (F.EJ_DST_SIZE_BYTES 0, 0x1000), (F.EJ_DST_HI 0, 0x10)]), (ms [(H.STATE 0x051, 1), (F.EJ_DST_SIZE_BYTES 0, 0x1000), (F.EJ_DST_HI 0, 0x10)]), ⟨by decide +kernel, rfl, by decide +kernel⟩⟩,
   ⟨0, [], [], (ms [(H.STATE 0x051, 1), (F.EJ_DST_SIZE_BYTES 0, 0), (F.EJ_DST_HI 0, 0x10)]), (ms [(H.STATE 0x051, 1), (F.EJ_DST_SIZE_BYTES 0, 0), (F.EJ_DST_HI 0, 0x10)]), ⟨by decide +kernel, rfl, by decide +kernel⟩⟩⟩

theorem hyps_MemoryAccess :
    (∃ (m : Master) (addr : Nat) (s : State), (if s.inBank (addr / 8 * 8) 8 then (bankOf (addr / 8 * 8)).bind (s.port m) else none) = none) ∧
    (∃ (m : Master) (addr : Nat) (prim : Bool) (s : State), (if s.inBank (addr / 8 * 8) 8 then (bankOf (addr / 8 * 8)).bind (s.port m) else none) = some prim ∧ s.mu.upsets = [] ∧ s.mu.tick.1 ≠ s.time) ∧
    (∃ (m : Master) (addr : Nat) (prim : Bool) (data en : Nat) (s : State), s.inBank (addr / 8 * 8) 8 = true ∧ bankOf (addr / 8 * 8) ≠ some 21 ∧ (bankOf (addr / 8 * 8)).bind (s.port m) = some prim ∧ s.mu.tick.1 ≠ s.time) ∧
    (∃ (m : Master) (addr data en flight : Nat) (s : State), (bankOf (addr / 8 * 8)).bind (s.port m) = none) ∧
    (∃ (m : Master) (addr : Nat) (slot : Fin 2) (off : Nat) (s : State), (slotAddr (addr / 8 * 8) = some (slot, off)) ∧ s.inDram (addr / 8 * 8) 8 = true ∧ m ≠ .harbourmaster ∧ s.mu.wrong = [] ∧ s.mu.poison = [] ∧ s.ch 0 ≠ chRebuilding ∧ s.ch 1 ≠ chRebuilding) ∧
    (∃ (m : Master) (addr w0 w1 fl rb : Nat) (s : State), slotAddr (addr / 8 * 8) = none ∧ s.ch 0 ≠ chRebuilding ∧ s.ch 1 ≠ chRebuilding) ∧
    (∃ (m : Master) (addr : Nat) (words : List Nat) (s : State), addr % 8 = 0 ∧ words ≠ [] ∧ addr % 64 + 8 * words.length ≤ 64 ∧ s.inDram addr (8 * words.length) = true ∧ m ≠ .harbourmaster) ∧
    (∃ (m : Master) (addr : Nat) (words : List Nat) (en flight : Nat) (s : State), en ≠ 0xFF) :=
  ⟨⟨(.lane 0), 0, (fs []), by decide +kernel⟩,
   ⟨(.berth 0 false), 0x03400000, true, (ms []).at_ 1, by decide +kernel⟩,
   ⟨(.berth 0 false), 0x03400000, true, 0, 0, (ms []).at_ 1, by decide +kernel⟩,
   ⟨.harbourmaster, 0, 0, 0, 0, (fs []), by decide +kernel⟩,
   ⟨(.lane 0), 0x1000000000, 0, 0, (ms []), by decide +kernel⟩,
   ⟨(.lane 0), 0, 0, 0, 0, 0, (fs [(chState 0, (chRebuilding + 1) % 8), (chState 1, (chRebuilding + 1) % 8)]), by decide +kernel⟩,
   ⟨(.lane 0), 0x1000000000, [0], (ms []), by decide +kernel⟩,
   ⟨(.lane 0), 0, [], 0, 0, (fs []), by decide +kernel⟩⟩

theorem hyps_MemoryServices :
    (∃ (c : Fin 2) (gib : Nat) (s : State), s.ch c = chTraining ∧ s.dev = stFill ∧ gib = 0 ∧ (s.wr (chCap c) 0 |>.wr (chState c) chOff).fillOver = false) ∧
    (∃ (c : Fin 2) (gib : Nat) (s : State), s.ch c = chTraining ∧ s.dev ≠ stFill ∧ s.dev ≠ stBoot ∧ s.mirrored = false) ∧
    (∃ (c : Fin 2) (gib : Nat) (s : State), s.ch c = chTraining ∧ s.dev ≠ stFill ∧ s.dev ≠ stBoot ∧ s.mirrored = true ∧ s.ch (other c) = chReady) ∧
    (∃ (c : Fin 2) (ok : Bool) (gib : Nat) (s : State), s.ch c ≠ chTraining ∧ s.ch c ≠ chFilling) ∧
    (∃ (a : Agent) (s : State), writable s a 0x058 0x040 ∧ s.ch 0 = chFailed ∧ s.ch 1 = chFailed) ∧
    (∃ (a : Agent) (chans : Nat) (s : State), writable s a 0x058 0x040 ∧ s.ch 0 ≠ chFailed ∧ s.ch 1 ≠ chFailed) ∧
    (∃ (c : Fin 2) (s : State), s.ch c = chRebuilding) ∧
    (∃ (c : Fin 2) (s : State), s.ch c ≠ chRebuilding) ∧
    (∃ (a : Agent) (page count : Nat) (s : State), writable s a 0x05A 0x044 ∧ s.rd F.CS_SEAL_STAT_STATUS = 1) ∧
    (∃ (a : Agent) (page count : Nat) (s : State), writable s a 0x05A 0x044 ∧ s.rd F.CS_SEAL_STAT_STATUS ≠ 1) ∧
    (∃ (s : State), s.rd F.CS_SEAL_STAT_STATUS = 1) ∧
    (∃ (s : State), s.rd F.CS_SEAL_STAT_STATUS ≠ 1) ∧
    (∃ (addr : Nat), ∃ (st : List (Nat × Nat)), ∃ (w0 : Nat), ∃ (w1 : Nat), ∃ (last : Bool), ∃ (s : State), (s.on F.CS_CFG_SCRUB_EN = false ∨ s.dev = stSlack)) ∧
    (∃ (addr : Nat) (s : State), s.on F.CS_CFG_SCRUB_EN = true ∧ s.dev ≠ stSlack ∧ s.inBank (addr / 8 * 8) 8 = true ∧ s.mu.upsets = [] ∧ s.isSealed (addr / 8 * 8 / 4096) = false) ∧
    (∃ (s : State), s.on F.CS_CFG_SCRUB_EN = true ∧ s.dev ≠ stSlack ∧ s.mu.passAt[0] + s.rd F.CS_CFG_ONCHIP_S * 100000000 ≤ s.time) ∧
    (∃ (s : State), s.on F.CS_CFG_SCRUB_EN = true ∧ s.dev ≠ stSlack ∧ s.mu.passAt[1] + s.rd F.CS_CFG_DRAM_MIN * 6000000000 ≤ s.time) ∧
    (∃ (b : Bool) (s : State), s.on F.CS_CFG_SCRUB_EN = false) :=
  ⟨⟨0, (0), ((fs [(chState 0, chTraining), (H.STATE 0, stFill)])).wr (chState 1) chTraining, by decide +kernel⟩,
   ⟨0, 0, (fs [(chState 0, chTraining), (H.STATE 0, stReady), (F.DP_CFG_MIRROR, 0)]), by decide +kernel⟩,
   ⟨0, 0, (fs [(chState 0, chTraining), (H.STATE 0, stReady), (F.DP_CFG_MIRROR, 1), (chState (other 0), chReady)]), by decide +kernel⟩,
   ⟨0, false, 0, (fs [(chState 0, (chFilling + 1) % 8)]), by decide +kernel⟩,
   ⟨(.berth 0), (fs [(H.OWNER 0x058, 0), (chState 0, chFailed), (chState 1, chFailed)]), by decide +kernel⟩,
   ⟨(.berth 0), 0, (fs [(H.OWNER 0x058, 0), (chState 0, (chFailed + 1) % 8), (chState 1, (chFailed + 1) % 8)]), by decide +kernel⟩,
   ⟨0, (fs [(chState 0, chRebuilding)]), by decide +kernel⟩,
   ⟨0, (fs [(chState 0, (chRebuilding + 1) % 8)]), by decide +kernel⟩,
   ⟨(.berth 0), 0, 0, (fs [(H.OWNER 0x05A, 0), (F.CS_SEAL_STAT_STATUS, 1)]), by decide +kernel⟩,
   ⟨(.berth 0), 0, 0, (fs [(H.OWNER 0x05A, 0), (F.CS_SEAL_STAT_STATUS, 2)]), by decide +kernel⟩,
   ⟨(fs [(F.CS_SEAL_STAT_STATUS, 1)]), by decide +kernel⟩,
   ⟨(fs [(F.CS_SEAL_STAT_STATUS, 2)]), by decide +kernel⟩,
   ⟨0, [], 0, 0, false, (fs [(F.CS_CFG_SCRUB_EN, 0)]), by decide +kernel⟩,
   ⟨0x03400000, (ms [(F.CS_CFG_SCRUB_EN, 1)]), by decide +kernel⟩,
   ⟨((fs [(F.CS_CFG_SCRUB_EN, 1)]).at_ (10 ^ 15)), by decide +kernel⟩,
   ⟨((fs [(F.CS_CFG_SCRUB_EN, 1)]).at_ (10 ^ 15)), by decide +kernel⟩,
   ⟨false, (fs [(F.CS_CFG_SCRUB_EN, 0)]), by decide +kernel⟩⟩

theorem hyps_DmaOwnerCommands :
    (∃ (a : Agent) (n : Fin 32) (s : State), writable s a (0x061 + n) 0x058 ∧ s.dcState n = dcIdle ∧ s.on (H.ISOLATED (0x061 + n)) = false) ∧
    (∃ (a : Agent) (n : Fin 32) (s : State), writable s a (0x061 + n) 0x058 ∧ s.dcState n ≠ dcIdle) ∧
    (∃ (a : Agent) (n : Fin 32) (s : State), writable s a (0x061 + n) 0x05C ∧ s.dcState n = dcActive) ∧
    (∃ (a : Agent) (n : Fin 32) (s : State), writable s a (0x061 + n) 0x05C ∧ s.dcState n = dcFetch) ∧
    (∃ (a : Agent) (n : Fin 32) (s : State), writable s a (0x061 + n) 0x05C ∧ s.dcState n = dcIdle) ∧
    (∃ (a : Agent) (n : Fin 32) (s : State), writable s a (0x061 + n) 0x05C ∧ (s.dcState n = dcPausing ∨ s.dcState n = dcPaused ∨ s.dcState n = dcHalted)) ∧
    (∃ (a : Agent) (n : Fin 32) (s : State), writable s a (0x061 + n) 0x05C ∧ s.dcState n = dcPaused ∧ (s.chan n).toIdle = false ∧ (s.chan n).toFetch = false ∧ (s.chan n).revoked = false) ∧
    (∃ (a : Agent) (n : Fin 32) (s : State), writable s a (0x061 + n) 0x05C ∧ s.dcState n = dcPaused ∧ (s.chan n).toIdle = false ∧ (s.chan n).toFetch = true) ∧
    (∃ (a : Agent) (n : Fin 32) (s : State), writable s a (0x061 + n) 0x05C ∧ s.dcState n ≠ dcPaused) ∧
    (∃ (a : Agent) (n : Fin 32) (s : State), writable s a (0x061 + n) 0x05C ∧ s.dcState n = dcHalted ∧ s.on (F.DC_STAT_WB_FAIL n) = false ∧ (s.chan n).stay = false ∧ s.on (F.DC_STAT_DB_PEND n) = false) ∧
    (∃ (a : Agent) (n : Fin 32) (s : State), writable s a (0x061 + n) 0x05C ∧ s.dcState n ≠ dcHalted) ∧
    (∃ (a : Agent) (n : Fin 32) (s : State), writable s a (0x061 + n) 0x004 ∧ s.dcState n = dcActive ∧ s.fc.hw = []) ∧
    (∃ (a : Agent) (n : Fin 32) (s : State), writable s a (0x061 + n) 0x004 ∧ (s.dcState n = dcIdle ∨ s.dcState n = dcFetch ∨ s.dcState n = dcHalted) ∧ s.fc.hw = []) ∧
    (∃ (a : Agent) (n : Fin 32) (v : Nat) (s : State), writable s a (0x061 + n) 0x048 ∧ s.dcState n = dcIdle) ∧
    (∃ (a : Agent) (n : Fin 32) (v : Nat) (s : State), writable s a (0x061 + n) 0x04C ∧ s.dcState n ≠ dcIdle ∧ s.dcState n ≠ dcHalted) ∧
    (∃ (a : Agent) (w : Fin 16) (v : Nat) (s : State), writable s a 0x060 (0x080 + 16 * w) ∧ s.on (F.DG_WIN_VALID w) = false ∧ s.fc.hw = []) ∧
    (∃ (a : Agent) (w : Fin 16) (v : Nat) (s : State), writable s a 0x060 (0x084 + 16 * w) ∧ s.on (F.DG_WIN_VALID w) = false ∧ s.fc.hw = []) ∧
    (∃ (a : Agent) (w : Fin 16) (v : Nat) (s : State), writable s a 0x060 (0x088 + 16 * w) ∧ s.on (F.DG_WIN_VALID w) = false ∧ s.fc.hw = []) ∧
    (∃ (a : Agent) (w : Fin 16) (v : Nat) (s : State), writable s a 0x060 (0x08C + 16 * w) ∧ s.on (F.DG_WIN_VALID w) = false ∧ s.fc.hw = []) ∧
    (∃ (a : Agent) (w : Fin 16) (v : Nat) (s : State), writable s a 0x060 (0x08C + 16 * w) ∧ s.on (F.DG_WIN_VALID w) = true ∧ v % 2 = 0) :=
  ⟨⟨(.berth 0), 0, (fs [(H.OWNER (0x061 + 0), 0), (H.STATE (dcPage 0), dcIdle), (H.ISOLATED (0x061 + 0), 0)]), by decide +kernel⟩,
   ⟨(.berth 0), 0, (fs [(H.OWNER (0x061 + 0), 0), (H.STATE (dcPage 0), (dcIdle + 1) % 8)]), by decide +kernel⟩,
   ⟨(.berth 0), 0, (fs [(H.OWNER (0x061 + 0), 0), (H.STATE (dcPage 0), dcActive)]), by decide +kernel⟩,
   ⟨(.berth 0), 0, (fs [(H.OWNER (0x061 + 0), 0), (H.STATE (dcPage 0), dcFetch)]), by decide +kernel⟩,
   ⟨(.berth 0), 0, (fs [(H.OWNER (0x061 + 0), 0), (H.STATE (dcPage 0), dcIdle)]), by decide +kernel⟩,
   ⟨(.berth 0), 0, (fs [(H.OWNER (0x061 + 0), 0), (H.STATE (dcPage 0), dcPausing)]), by decide +kernel⟩,
   ⟨(.berth 0), 0, ((((fs [(H.OWNER (0x061 + 0), 0), (H.STATE (dcPage 0), dcPaused)]).modChan 0 (fun y => { y with toIdle := false })).modChan 0 (fun y => { y with toFetch := false })).modChan 0 (fun y => { y with revoked := false })), by decide +kernel⟩,
   ⟨(.berth 0), 0, (((fs [(H.OWNER (0x061 + 0), 0), (H.STATE (dcPage 0), dcPaused)]).modChan 0 (fun y => { y with toIdle := false })).modChan 0 (fun y => { y with toFetch := true })), by decide +kernel⟩,
   ⟨(.berth 0), 0, (fs [(H.OWNER (0x061 + 0), 0), (H.STATE (dcPage 0), (dcPaused + 1) % 8)]), by decide +kernel⟩,
   ⟨(.berth 0), 0, ((fs [(H.OWNER (0x061 + 0), 0), (H.STATE (dcPage 0), dcHalted), (F.DC_STAT_WB_FAIL 0, 0), (F.DC_STAT_DB_PEND 0, 0)]).modChan 0 (fun y => { y with stay := false })), by decide +kernel⟩,
   ⟨(.berth 0), 0, (fs [(H.OWNER (0x061 + 0), 0), (H.STATE (dcPage 0), (dcHalted + 1) % 8)]), by decide +kernel⟩,
   ⟨(.berth 0), 0, (fs [(H.OWNER (0x061 + 0), 0), (H.STATE (dcPage 0), dcActive)]), by decide +kernel⟩,
   ⟨(.berth 0), 0, (fs [(H.OWNER (0x061 + 0), 0), (H.STATE (dcPage 0), dcIdle)]), by decide +kernel⟩,
   ⟨(.berth 0), 0, 0, (fs [(H.OWNER (0x061 + 0), 0), (H.STATE (dcPage 0), dcIdle)]), by decide +kernel⟩,
   ⟨(.berth 0), 0, 0, (fs [(H.OWNER (0x061 + 0), 0), (H.STATE (dcPage 0), (dcHalted + 1) % 8)]), by decide +kernel⟩,
   ⟨(.berth 0), 0, 0, (fs [(H.OWNER 0x060, 0), (F.DG_WIN_VALID 0, 0)]), by decide +kernel⟩,
   ⟨(.berth 0), 0, 0, (fs [(H.OWNER 0x060, 0), (F.DG_WIN_VALID 0, 0)]), by decide +kernel⟩,
   ⟨(.berth 0), 0, 0, (fs [(H.OWNER 0x060, 0), (F.DG_WIN_VALID 0, 0)]), by decide +kernel⟩,
   ⟨(.berth 0), 0, 0, (fs [(H.OWNER 0x060, 0), (F.DG_WIN_VALID 0, 0)]), by decide +kernel⟩,
   ⟨(.berth 0), 0, 0, (fs [(H.OWNER 0x060, 0), (F.DG_WIN_VALID 0, 1)]), by decide +kernel⟩⟩

theorem hyps_DmaEngineCommands :
    (∃ (n : Fin 32) (host : List Nat) (ok : Bool) (s : State), s.dcState n ≠ dcFetch ∧ s.dcState n ≠ dcPausing) ∧
    (∃ (n : Fin 32) (host : List Nat) (ok : Bool) (st : Nat) (s t : State), s.dcState n = dcFetch ∧ s.on (H.ISOLATED (0x061 + n)) = false ∧ s.quay.d3hot = false ∧ (s.dcRead n host ok = (.inl st, t))) ∧
    (∃ (n : Fin 32) (host : List Nat) (ok : Bool) (l : List Nat) (s t : State), s.dcState n = dcFetch ∧ s.on (H.ISOLATED (0x061 + n)) = false ∧ s.quay.d3hot = false ∧ (s.dcRead n host ok = (.inr l, t))) ∧
    (∃ (req : Nat) (s : State), s.dcPick req = none) ∧
    (∃ (req : Nat) (n : Fin 32) (s : State), s.dcPick req = some n) ∧
    (∃ (req : Nat) (n : Fin 32) (s : State), s.dcPick req = some n) ∧
    (∃ (n : Fin 32) (data : List Nat) (hb : Option Nat), ∃ (fl : List (Nat × Nat)), ∃ (s : State), (s.chan n).grant = none) ∧
    (∃ (n : Fin 32) (b : Nat) (data : List Nat), ∃ (fl : List (Nat × Nat)), ∃ (out : List Nat), ∃ (e : Nat), ∃ (s : State), ∃ (t : State), (s.chan n).grant = some b ∧ s.dcState n = dcActive ∧ s.rd (F.DC_CFG_REQ n) = 0 ∧ (s.chan n).revoked = false ∧ (s.burst n (s.chan n) (s.rd (F.DC_PROG_BYTES n)) data (s.memSides n) fl b (b / 8) 0 [] = (out, ⟨e, none⟩, t))) ∧
    (∃ (n : Fin 32) (s : State), s.dcState n = dcPausing ∧ (s.chan n).grant = none ∧ (s.chan n).fetching = false ∧ (s.chan n).aborting = false) ∧
    (∃ (n : Fin 32) (s : State), s.dcState n = dcPausing ∧ (s.chan n).grant = none ∧ (s.chan n).fetching = false ∧ (s.chan n).aborting = true) ∧
    (∃ (n : Fin 32) (s : State), s.dcState n ≠ dcPausing) ∧
    (∃ (n : Fin 32) (host : List Nat) (ok : Bool) (l : List Nat) (s t : State), s.dcState n = dcFetch ∧ s.on (H.ISOLATED (0x061 + n)) = false ∧ s.quay.d3hot = false ∧ s.dcRead n host ok = (.inr l, t) ∧ (∃ c : Chan, c = { t.chan n with ctrl := leNat (l.take 4), len := leNat ((l.drop 4).take 4), src := leNat ((l.drop 8).take 8), dst := leNat ((l.drop 16).take 8), next := leNat ((l.drop 24).take 8) } ∧ bit c.ctrl 0 = true ∧ (t.modChan n fun _ => { c with held := true }).dcCheck n c = none)) ∧
    (∃ (n : Fin 32) (host : List Nat) (ok : Bool) (l : List Nat) (s t : State), s.dcState n = dcFetch ∧ s.on (H.ISOLATED (0x061 + n)) = false ∧ s.quay.d3hot = false ∧ s.dcRead n host ok = (.inr l, t) ∧ (∃ c : Chan, c = { t.chan n with ctrl := leNat (l.take 4), len := leNat ((l.drop 4).take 4), src := leNat ((l.drop 8).take 8), dst := leNat ((l.drop 16).take 8), next := leNat ((l.drop 24).take 8) } ∧ bit c.ctrl 0 = true ∧ ∃ st a, (t.modChan n fun _ => { c with held := true }).dcCheck n c = some (st, a))) ∧
    (∃ (n : Fin 32) (host : List Nat) (ok : Bool) (l : List Nat) (s t : State), s.dcState n = dcFetch ∧ s.on (H.ISOLATED (0x061 + n)) = false ∧ s.quay.d3hot = false ∧ s.dcRead n host ok = (.inr l, t) ∧ bit (leNat (l.take 4)) 0 = false ∧ t.on (F.DC_STAT_DB_PEND n) = true) ∧
    (∃ (n : Fin 32) (host : List Nat) (ok : Bool) (l : List Nat) (s t : State), s.dcState n = dcFetch ∧ s.on (H.ISOLATED (0x061 + n)) = false ∧ s.quay.d3hot = false ∧ s.dcRead n host ok = (.inr l, t) ∧ bit (leNat (l.take 4)) 0 = false ∧ t.on (F.DC_STAT_DB_PEND n) = false ∧ (t.chan n).fetching = false) ∧
    (∃ (n : Fin 32) (b : Nat) (data : List Nat) (fl : List (Nat × Nat)) (out : List Nat) (e : Nat) (s t : State), (s.chan n).grant = some b ∧ s.dcState n = dcActive ∧ s.rd (F.DC_CFG_REQ n) = 0 ∧ (s.chan n).revoked = false ∧ s.burst n (s.chan n) (s.rd (F.DC_PROG_BYTES n)) data (s.memSides n) fl b (b / 8) 0 [] = (out, ⟨e, none⟩, t) ∧ s.rd (F.DC_PROG_BYTES n) + b = (s.chan n).len) ∧
    (∃ (n : Fin 32) (b : Nat) (data : List Nat) (fl : List (Nat × Nat)) (out : List Nat) (e : Nat) (s t : State), (s.chan n).grant = some b ∧ s.dcState n = dcActive ∧ s.rd (F.DC_CFG_REQ n) = 0 ∧ (s.chan n).revoked = false ∧ s.burst n (s.chan n) (s.rd (F.DC_PROG_BYTES n)) data (s.memSides n) fl b (b / 8) 0 [] = (out, ⟨e, none⟩, t) ∧ s.rd (F.DC_PROG_BYTES n) + b ≠ (s.chan n).len) :=
  ⟨⟨0, [], false, (fs [(H.STATE (dcPage 0), (dcPausing + 1) % 8)]), by decide +kernel⟩,
   ⟨0, [], false, dsAccess, (fs [(H.STATE 0x061, dcFetch)]), (fs [(H.STATE 0x061, dcFetch)]), ⟨by decide +kernel, by decide +kernel, by decide +kernel, Prod.ext (by decide +kernel) rfl⟩⟩,
   ⟨0, [], false, List.replicate 32 0, (ms [(H.STATE 0x061, dcFetch), (F.DC_CUR_HI 0, 0x10)]), (ms [(H.STATE 0x061, dcFetch), (F.DC_CUR_HI 0, 0x10)]), ⟨by decide +kernel, by decide +kernel, by decide +kernel, Prod.ext (by decide +kernel) rfl⟩⟩,
   ⟨0, (fs []), by decide +kernel⟩,
   ⟨0, 0, (ms [(H.STATE 0x061, dcActive)]), by decide +kernel⟩,
   ⟨0, 0, (ms [(H.STATE 0x061, dcActive)]), by decide +kernel⟩,
   ⟨0, [], none, [], ((fs []).modChan 0 (fun y => { y with grant := none })), by decide +kernel⟩,
   ⟨0, 0, [], [], [], 0, (((fs [(H.STATE (dcPage 0), dcActive), (F.DC_CFG_REQ 0, 0)]).modChan 0 (fun y => { y with grant := some 0 })).modChan 0 (fun y => { y with revoked := false })), (((fs [(H.STATE (dcPage 0), dcActive), (F.DC_CFG_REQ 0, 0)]).modChan 0 (fun y => { y with grant := some 0 })).modChan 0 (fun y => { y with revoked := false })), ⟨by decide +kernel, by decide +kernel, by decide +kernel, by decide +kernel, Prod.ext (by decide +kernel) rfl⟩⟩,
   ⟨0, ((((fs [(H.STATE (dcPage 0), dcPausing)]).modChan 0 (fun y => { y with grant := none })).modChan 0 (fun y => { y with fetching := false })).modChan 0 (fun y => { y with aborting := false })), by decide +kernel⟩,
   ⟨0, ((((fs [(H.STATE (dcPage 0), dcPausing)]).modChan 0 (fun y => { y with grant := none })).modChan 0 (fun y => { y with fetching := false })).modChan 0 (fun y => { y with aborting := true })), by decide +kernel⟩,
   ⟨0, (fs [(H.STATE (dcPage 0), (dcPausing + 1) % 8)]), by decide +kernel⟩,
   ⟨0, [], false, (leBytes 1 4 ++ leBytes 8 4 ++ leBytes 0x1000000100 8 ++ leBytes 0x1000000200 8 ++ leBytes 0 8), ((ms [(H.STATE 0x061, dcFetch), (F.DC_CUR_HI 0, 0x10)]).memPuts 0x1000000000 4 ((leBytes 1 4 ++ leBytes 8 4 ++ leBytes 0x1000000100 8 ++ leBytes 0x1000000200 8 ++ leBytes 0 8))), ((ms [(H.STATE 0x061, dcFetch), (F.DC_CUR_HI 0, 0x10)]).memPuts 0x1000000000 4 ((leBytes 1 4 ++ leBytes 8 4 ++ leBytes 0x1000000100 8 ++ leBytes 0x1000000200 8 ++ leBytes 0 8))), ⟨by decide +kernel, by decide +kernel, by decide +kernel, by decide +kernel, _, rfl, by decide +kernel⟩⟩,
   ⟨0, [], false, (leBytes 1 4 ++ List.replicate 28 0), ((ms [(H.STATE 0x061, dcFetch), (F.DC_CUR_HI 0, 0x10)]).memPuts 0x1000000000 4 ((leBytes 1 4 ++ List.replicate 28 0))), ((ms [(H.STATE 0x061, dcFetch), (F.DC_CUR_HI 0, 0x10)]).memPuts 0x1000000000 4 ((leBytes 1 4 ++ List.replicate 28 0))), ⟨by decide +kernel, by decide +kernel, by decide +kernel, by decide +kernel, _, rfl, by decide +kernel, _, _, by rfl⟩⟩,
   ⟨0, [], false, List.replicate 32 0, (ms ([(H.STATE 0x061, dcFetch), (F.DC_CUR_HI 0, 0x10)] ++ [(F.DC_STAT_DB_PEND 0, 1)])), (ms ([(H.STATE 0x061, dcFetch), (F.DC_CUR_HI 0, 0x10)] ++ [(F.DC_STAT_DB_PEND 0, 1)])), by decide +kernel⟩,
   ⟨0, [], false, List.replicate 32 0, (ms ([(H.STATE 0x061, dcFetch), (F.DC_CUR_HI 0, 0x10)] ++ [])), (ms ([(H.STATE 0x061, dcFetch), (F.DC_CUR_HI 0, 0x10)] ++ [])), by decide +kernel⟩,
   ⟨0, 0, [], [], [], 0, (((fs [(H.STATE (dcPage 0), dcActive)]).modChan 0 (fun y => { y with grant := some 0, len := 0 }))), (((fs [(H.STATE (dcPage 0), dcActive)]).modChan 0 (fun y => { y with grant := some 0, len := 0 }))), by decide +kernel⟩,
   ⟨0, 0, [], [], [], 0, (((fs [(H.STATE (dcPage 0), dcActive)]).modChan 0 (fun y => { y with grant := some 0, len := 8 }))), (((fs [(H.STATE (dcPage 0), dcActive)]).modChan 0 (fun y => { y with grant := some 0, len := 8 }))), by decide +kernel⟩⟩

theorem hyps_MessageOrder :
    (∃ (h : MsgHdr) (nj : Bool) (k : State → State) (s : State), s.sqReady = false) ∧
    (∃ (h : MsgHdr) (nj : Bool) (k : State → State) (s : State), s.sqReady = true ∧ s.session = false) ∧
    (∃ (h : MsgHdr) (nj : Bool) (k : State → State) (s : State), s.sqReady = true ∧ s.session = true ∧ h.epoch ≠ 0 ∧ h.epoch < s.rd F.QY_EPOCH_EPOCH) ∧
    (∃ (h : MsgHdr) (nj : Bool) (k : State → State) (s : State), s.sqReady = true ∧ s.session = true ∧ (h.epoch = 0 ∨ s.rd F.QY_EPOCH_EPOCH < h.epoch) ∧ h.epoch ≠ s.rd F.QY_EPOCH_EPOCH) ∧
    (∃ (h : MsgHdr) (nj : Bool) (k : State → State) (s : State), messageOk s h nj) ∧
    (∃ (h : MsgHdr) (nj : Bool) (k : State → State) (s : State), s.sqReady = true ∧ s.session = true ∧ h.epoch = s.rd F.QY_EPOCH_EPOCH ∧ h.seq ≠ 0 ∧ h.seq = seqNext (s.rd F.QY_ACK_SEQ) ∧ h.clean = false) ∧
    (∃ (h : MsgHdr) (nj : Bool) (k : State → State) (s : State), s.sqReady = true ∧ s.session = true ∧ h.epoch = s.rd F.QY_EPOCH_EPOCH ∧ h.seq ≠ 0 ∧ h.seq ≠ seqNext (s.rd F.QY_ACK_SEQ) ∧ seqBehind (s.rd F.QY_ACK_SEQ) h.seq = true) ∧
    (∃ (h : MsgHdr) (nj : Bool) (k : State → State) (s : State), s.sqReady = true ∧ s.session = true ∧ h.epoch = s.rd F.QY_EPOCH_EPOCH ∧ h.seq ≠ 0 ∧ h.seq ≠ seqNext (s.rd F.QY_ACK_SEQ) ∧ seqBehind (s.rd F.QY_ACK_SEQ) h.seq = false) ∧
    (∃ (s : State), s.session = true) :=
  ⟨⟨h0, false, id, (fs []), by decide +kernel⟩,
   ⟨h0, false, id, (qs [(H.STATE 0x0D0, 0)]), by decide +kernel⟩,
   ⟨h0, false, id, (qs [(F.QY_EPOCH_EPOCH, 2)]), by decide +kernel⟩,
   ⟨{ h0 with epoch := 0 }, false, id, (qs []), by decide +kernel⟩,
   ⟨h0, false, id, (qs []), by decide +kernel⟩,
   ⟨{ h0 with clean := false }, false, id, (qs []), by decide +kernel⟩,
   ⟨h0, false, id, (qs [(F.QY_ACK_SEQ, 9)]), by decide +kernel⟩,
   ⟨{ h0 with seq := 5 }, false, id, (qs []), by decide +kernel⟩,
   ⟨(fs [(H.STATE 0x0D0, 1)]), by decide +kernel⟩⟩

theorem hyps_EndpointCommands :
    (∃ (sp w : Nat) (s : State), s.rd F.QY_LINK_SPEED = 0) ∧
    (∃ (sp w : Nat) (s : State), s.rd F.QY_LINK_SPEED ≠ 0) ∧
    (∃ (off : Nat) (bytes : List Byte) (s : State), 0x100000 ≤ off ∧ off + bytes.length ≤ 0x200000) ∧
    (∃ (off : Nat) (bytes : List Byte) (s : State), off < 0x100000 ∧ off + bytes.length ≤ 0x100000) ∧
    (∃ (off len : Nat) (l : List Nat) (t s : State), 0x100000 ≤ off ∧ off + len ≤ 0x200000 ∧ (s.memBytes (0x03A00000 + off) len .endpoint = (some l, t))) ∧
    (∃ (off len : Nat) (s : State), off + len ≤ 0x100000) ∧
    (∃ (v : Fin 64) (s : State), bit (s.rd (F.MSIX_PBA (v / 32))) (v % 32) = true ∧ s.on (F.MSIX_CTRL_MASK v) = false ∧ s.quay.fnMask = false) ∧
    (∃ (v : Fin 64) (s : State), bit (s.rd (F.MSIX_PBA (v / 32))) (v % 32) = false) ∧
    (∃ (s : State), s.irqDue = true ∧ s.on (F.MSIX_CTRL_MASK 0) = false ∧ s.quay.fnMask = false) ∧
    (∃ (s : State), s.irqDue = false) ∧
    (∃ (a : Agent) (s : State), s.absentPage 0x0D0 = false ∧ s.mayWrite a 0x0D0 0x004 = true ∧ s.on (H.LOCK 0x0D0) = false ∧ (a = .host → s.dev ≠ stSlack)) ∧
    (∃ (a : Agent) (tail : Nat) (s : State), s.absentPage 0x0D0 = false ∧ s.mayWrite a 0x0D0 0x04C = true ∧ s.on (H.LOCK 0x0D0) = false ∧ (a = .host → s.dev ≠ stSlack) ∧ tail < 4096 ∧ tail < s.sqSize) ∧
    (∃ (a : Agent) (tail : Nat) (s : State), s.absentPage 0x0D0 = false ∧ s.mayWrite a 0x0D0 0x04C = true ∧ s.on (H.LOCK 0x0D0) = false ∧ (a = .host → s.dev ≠ stSlack) ∧ tail < 4096 ∧ s.sqSize ≤ tail) ∧
    (∃ (a : Agent) (head : Nat) (s : State), s.absentPage 0x0D0 = false ∧ s.mayWrite a 0x0D0 0x050 = true ∧ s.on (H.LOCK 0x0D0) = false ∧ (a = .host → s.dev ≠ stSlack)) :=
  ⟨⟨0, 0, (fs [(F.QY_LINK_SPEED, 0)]), by decide +kernel⟩,
   ⟨0, 0, (fs [(F.QY_LINK_SPEED, 1)]), by decide +kernel⟩,
   ⟨0x100000, [], (fs []), by decide +kernel⟩,
   ⟨0, [], (fs []), by decide +kernel⟩,
   ⟨0x100000, 0, [], (fs []), (fs []), ⟨by decide +kernel, by decide +kernel, Prod.ext (by decide +kernel) rfl⟩⟩,
   ⟨0, 0, (fs []), by decide +kernel⟩,
   ⟨0, (((fs [(F.MSIX_CTRL_MASK 0, 0)]).modQuay (fun y => { y with fnMask := false }))).wr (F.MSIX_PBA 0) 1, by decide +kernel⟩,
   ⟨0, (fs []), by decide +kernel⟩,
   ⟨(fs [(F.MSIX_CTRL_MASK 0, 0)]).modQuay (fun y => { y with irqWait := 1 }) |>.at_ (10 ^ 12), by decide +kernel⟩,
   ⟨(fs []), by decide +kernel⟩,
   ⟨.host, (fs [(H.LOCK 0x0D0, 0)]), by decide +kernel⟩,
   ⟨.host, 0, (fs [(H.LOCK 0x0D0, 0)]), by decide +kernel⟩,
   ⟨.host, 4095, (fs [(H.LOCK 0x0D0, 0)]), by decide +kernel⟩,
   ⟨.host, 0, (fs [(H.LOCK 0x0D0, 0)]), by decide +kernel⟩⟩

theorem hyps_SessionCommands :
    (∃ (s : State), s.sqReady = true) ∧
    (∃ (s : State), s.sqReady = false) ∧
    (∃ (h : MsgHdr) (ty : Nat) (s : State), messageOk s h true) ∧
    (∃ (h : MsgHdr) (s : State), messageOk s h false) ∧
    (∃ (h : MsgHdr) (tag : Nat) (s : State), s.sqReady = true ∧ h.epoch = 0 ∧ h.seq = 0 ∧ h.job = 0 ∧ h.clean = true ∧ s.session = false) ∧
    (∃ (h : MsgHdr) (tag : Nat) (s : State), s.sqReady = true ∧ h.epoch = 0 ∧ h.seq = 0 ∧ h.job = 0 ∧ h.clean = true ∧ h.force = false ∧ s.session = true) ∧
    (∃ (h : MsgHdr) (tag ver : Nat) (s : State), s.sqReady = true ∧ (h.clean = false ∨ ver ≠ 0x00010000)) ∧
    (∃ (h : MsgHdr) (la ld tag : Nat) (s : State), s.sqReady = true ∧ s.session = false) ∧
    (∃ (h : MsgHdr) (la ld tag : Nat) (s : State), s.sqReady = true ∧ s.session = true ∧ h.epoch = s.rd F.QY_EPOCH_EPOCH ∧ h.epoch ≠ 0 ∧ h.seq = 0 ∧ h.job = 0 ∧ h.clean = true ∧ seqBehind (s.rd F.QY_ACK_SEQ) la = true ∧ s.takeEntry.replayFrom ld = [] ∧ s.rd F.QY_DSEQ_LAST = ld ∧ ld + 1 < 2 ^ 32) ∧
    (∃ (h : MsgHdr) (s : State), messageOk s h false ∧ (s.accepted h).tl.jobs ≠ [] ∧ h.force = false) ∧
    (∃ (h : MsgHdr) (s : State), messageOk s h false ∧ (s.accepted h).tl.jobs = []) ∧
    (∃ (s : State), s.session = true ∧ s.rd F.QY_TIMER_HB_TO ≠ 0 ∧ s.on F.QY_STAT_SILENT = false ∧ s.quay.lastMsg + s.rd F.QY_TIMER_HB_TO * 100000000 ≤ s.time ∧ s.on F.QY_TIMER_SILENT_STOP = true) ∧
    (∃ (s : State), (s.session = false ∨ s.rd F.QY_TIMER_HB_TO = 0)) ∧
    (∃ (h : MsgHdr) (w : Nat) (v rd wr : Bool) (base size : Nat) (s : State), messageOk s h false ∧ (w = 0 ∨ 15 < w ∨ base % 4096 ≠ 0)) ∧
    (∃ (h : MsgHdr) (w : Fin 16) (v rd wr : Bool) (base size : Nat) (s : State), messageOk s h false ∧ w ≠ 0 ∧ base % 4096 = 0) :=
  ⟨⟨(qs []), by decide +kernel⟩,
   ⟨(fs []), by decide +kernel⟩,
   ⟨h0, 0, (qs []), by decide +kernel⟩,
   ⟨h0, (qs []), by decide +kernel⟩,
   ⟨⟨0, 0, 0, false, true⟩, 0, (qs [(H.STATE 0x0D0, 0)]), by decide +kernel⟩,
   ⟨⟨0, 0, 0, false, true⟩, 0, (qs []), by decide +kernel⟩,
   ⟨h0, 0, 0, (qs []), by decide +kernel⟩,
   ⟨h0, 0, 0, 0, (qs [(H.STATE 0x0D0, 0)]), by decide +kernel⟩,
   ⟨{ h0 with seq := 0 }, 0, 0, 0, (qs []), by decide +kernel⟩,
   ⟨h0, (qs []).modTl (fun y => { y with jobs := [jb] }), by decide +kernel⟩,
   ⟨h0, (qs []), by decide +kernel⟩,
   ⟨((fs [(H.STATE 0x0D0, 1), (F.QY_TIMER_HB_TO, 1), (F.QY_STAT_SILENT, 0), (F.QY_TIMER_SILENT_STOP, 1)]).at_ (10 ^ 15)), by decide +kernel⟩,
   ⟨(fs [(H.STATE 0x0D0, 0)]), by decide +kernel⟩,
   ⟨h0, (0), false, false, false, 0, 0, (qs []), by decide +kernel⟩,
   ⟨h0, 1, false, false, false, 0, 0, (qs []), by decide +kernel⟩⟩

theorem hyps_JobAndPageCommands :
    (∃ (h : MsgHdr) (st : Nat) (rp sk : Bool) (s : State), messageOk s h true ∧ h.job ≠ 0) ∧
    (∃ (h : MsgHdr) (st : Nat) (rp sk : Bool) (s : State), messageOk s h true ∧ (s.accepted h).isSafe = true) ∧
    (∃ (h : MsgHdr) (j : Job) (s : State), messageOk s h true ∧ (s.accepted h).isSafe = false ∧ (s.accepted h).job? h.job = some j) ∧
    (∃ (h : MsgHdr) (s : State), messageOk s h true ∧ (s.accepted h).isSafe = false ∧ (s.accepted h).job? h.job = none) ∧
    (∃ (h : MsgHdr) (j : Job) (s : State), messageOk s h true ∧ (s.accepted h).isSafe = false ∧ (s.accepted h).job? h.job = some j) ∧
    (∃ (h : MsgHdr) (id len w ht fmt : Nat) (j : Job) (s : State), messageOk s h true) ∧
    (∃ (h : MsgHdr) (id : Nat) (j : Job) (p : Page) (s : State), messageOk s h true) ∧
    (∃ (h : MsgHdr) (id : Nat) (j : Job) (p : Page) (s : State), messageOk s h true) ∧
    (∃ (h : MsgHdr) (id : Nat) (j : Job) (p : Page) (s : State), messageOk s h true) ∧
    (∃ (h : MsgHdr) (id : Nat) (j : Job) (p : Page) (s : State), messageOk s h true ∧ (s.accepted h).job? h.job = some j ∧ (s.accepted h).page? id = some p ∧ p.job = j.id ∧ p.st ≠ .retired) ∧
    (∃ (h : MsgHdr) (id : Nat) (j : Job) (s : State), messageOk s h true ∧ (s.accepted h).job? h.job = some j ∧ (s.accepted h).page? id = none) ∧
    (∃ (h : MsgHdr) (st : Nat) (s : State), messageOk s h true ∧ h.job ≠ 0 ∧ (s.accepted h).isSafe = false ∧ (s.accepted h).boot.noProfile = false ∧ st ≠ 0 ∧ st < 64 ∧ st &&& (s.accepted h).boot.stations = st ∧ ((List.range 6).any fun k => bit st k && !(s.accepted h).hasStation k) = false ∧ (s.accepted h).job? h.job = none ∧ (s.accepted h).tl.jobs.length < 16) ∧
    (∃ (h : MsgHdr) (id len w ht fmt : Nat) (j : Job) (s : State), messageOk s h true ∧ (s.accepted h).isSafe = false ∧ (s.accepted h).job? h.job = some j ∧ id ≠ 0 ∧ len ≠ 0 ∧ w ≠ 0 ∧ w ≤ 31200 ∧ ht ≠ 0 ∧ ht ≤ 131071 ∧ fmt % 4 ≠ 3 ∧ (s.accepted h).page? id = none ∧ j.closed = false ∧ j.aborted = false ∧ ((s.accepted h).tl.pages.filter fun p => p.st ≠ .retired).length < 8192) ∧
    (∃ (h : MsgHdr) (id : Nat) (j : Job) (p : Page) (s : State), messageOk s h true ∧ (s.accepted h).isSafe = false ∧ (s.accepted h).job? h.job = some j ∧ (s.accepted h).page? id = some p ∧ p.job = j.id ∧ p.st = .resident ∧ p.released = false) ∧
    (∃ (h : MsgHdr) (id : Nat) (j : Job) (p : Page) (s : State), messageOk s h true ∧ (s.accepted h).isSafe = false ∧ (s.accepted h).job? h.job = some j ∧ (s.accepted h).page? id = some p ∧ p.job = j.id ∧ p.st ≠ .retired ∧ p.released = true) ∧
    (∃ (h : MsgHdr) (id : Nat) (j : Job) (p : Page) (s : State), messageOk s h true ∧ (s.accepted h).isSafe = false ∧ (s.accepted h).job? h.job = some j ∧ (s.accepted h).page? id = some p ∧ p.job = j.id ∧ p.st ≠ .retired) :=
  ⟨⟨h1, 1, false, false, (qs []), by decide +kernel⟩,
   ⟨h0, 0, false, false, (qs [(F.FC_STATE_SAFE, 1)]), by decide +kernel⟩,
   ⟨h1, jb, (qs []).modTl (fun y => { y with jobs := [jb] }), by decide +kernel⟩,
   ⟨h1, (qs []), by decide +kernel⟩,
   ⟨h1, jb, (qs []).modTl (fun y => { y with jobs := [jb] }), by decide +kernel⟩,
   ⟨h1, 0, 0, 0, 0, 0, jb, (qs []).modTl (fun y => { y with jobs := [jb] }), by decide +kernel⟩,
   ⟨h1, 0, jb, pg, (qs []).modTl (fun y => { y with jobs := [jb], pages := [pg] }), by decide +kernel⟩,
   ⟨h1, 0, jb, pg, (qs []).modTl (fun y => { y with jobs := [jb], pages := [pg] }), by decide +kernel⟩,
   ⟨h1, 0, jb, pg, (qs []).modTl (fun y => { y with jobs := [jb], pages := [pg] }), by decide +kernel⟩,
   ⟨h1, 1, jb, pg, (qs []).modTl (fun y => { y with jobs := [jb], pages := [pg] }), by decide +kernel⟩,
   ⟨h1, 1, jb, (qs []).modTl (fun y => { y with jobs := [jb] }), by decide +kernel⟩,
   ⟨h1, 63, (qs []).modBoot (fun b => { b with stations := 63 }), by decide +kernel⟩,
   ⟨h1, 7, 1, 31200, 131071, 0, jb, (qs []).modTl (fun y => { y with jobs := [jb] }), by decide +kernel⟩,
   ⟨h1, 1, jb, { pg with st := .resident }, (qs []).modTl (fun y => { y with jobs := [jb], pages := [{ pg with st := .resident }] }), by decide +kernel⟩,
   ⟨h1, 1, jb, { pg with released := true }, (qs []).modTl (fun y => { y with jobs := [jb], pages := [{ pg with released := true }] }), by decide +kernel⟩,
   ⟨h1, 1, jb, pg, (qs []).modTl (fun y => { y with jobs := [jb], pages := [pg] }), by decide +kernel⟩⟩

theorem hyps_SeparationCommands :
    (∃ (h : MsgHdr) (id k : Nat) (last grow : Bool) (eff w off po len sl stride : Nat) (j : Job) (p : Page) (s : State), messageOk s h true) ∧
    (∃ (h : MsgHdr) (id k : Nat) (last : Bool) (mb po len sl : Nat) (j : Job) (p : Page) (s : State), messageOk s h true) ∧
    (∃ (h : MsgHdr) (p : Page) (j : Job) (k po len : Nat) (last : Bool) (sl : Nat) (body : List Nat) (s : State), p.sep? k = none ∧ bit j.stations k = true ∧ k < 6 ∧ p.st = .defined ∧ badPart none po len last false sl = false ∧ s.queuedParts < 256) ∧
    (∃ (h : MsgHdr) (p : Page) (j : Job) (k po len : Nat) (last : Bool) (sl : Nat) (bad : Bool) (body : List Nat) (q : Sep) (r : Part) (s : State), p.sep? k = some q ∧ q.parts.find? (fun r => r.offs = po && r.len = len) = some r ∧ r.body = body) ∧
    (∃ (id : Nat) (k : Fin 6) (po st : Nat) (data : List Nat) (s : State), s.page? id = none) ∧
    (∃ (id : Nat) (k : Fin 6) (po res st : Nat) (data : List Nat) (p : Page) (q : Sep) (r : Part) (s : State), s.page? id = some p ∧ p.sep? k = some q ∧ q.parts.find? (fun r => r.offs = po && !r.stored) = some r ∧ p.st ≠ .retired ∧ res ≠ 0) ∧
    (∃ (id : Nat) (k : Fin 6) (po st : Nat) (data : List Nat) (p : Page) (q : Sep) (r : Part) (bytes : List Nat) (t s : State), s.page? id = some p ∧ p.sep? k = some q ∧ q.parts.find? (fun r => r.offs = po && !r.stored) = some r ∧ p.st ≠ .retired ∧ r.body.getD 0 0 = 1 ∧ r.body.getD 2 0 = 0 ∧ (s.partBytes r data = (some bytes, t))) ∧
    (∃ (h : MsgHdr) (id w off eff : Nat) (j : Job) (p : Page) (s : State), messageOk s h true ∧ (s.accepted h).isSafe = false ∧ (s.accepted h).job? h.job = some j ∧ (s.accepted h).page? id = some p ∧ p.job = j.id ∧ p.st ≠ .retired ∧ w ≠ 0 ∧ w < 16 ∧ off % 8 = 0 ∧ eff < 8) ∧
    (∃ (h : MsgHdr) (id mb len : Nat) (j : Job) (p : Page) (s : State), messageOk s h true ∧ (s.accepted h).isSafe = false ∧ (s.accepted h).job? h.job = some j ∧ (s.accepted h).page? id = some p ∧ p.job = j.id ∧ p.st ≠ .retired ∧ mb % 8 = 0 ∧ 0x100000 ≤ mb ∧ mb + len ≤ 0x200000) :=
  ⟨⟨h1, 0, 0, false, false, 0, 0, 0, 0, 0, 0, 0, jb, pg, (qs []).modTl (fun y => { y with jobs := [jb], pages := [pg] }), by decide +kernel⟩,
   ⟨h1, 0, 0, false, 0, 0, 0, 0, jb, pg, (qs []).modTl (fun y => { y with jobs := [jb], pages := [pg] }), by decide +kernel⟩,
   ⟨h0, pg, jb, 0, 0, 8, false, 0, [], (fs []), by decide +kernel⟩,
   ⟨h0, { pg with seps := [sp] }, jb, 0, 0, 0, false, 0, false, [], sp, pt, (fs []), by decide +kernel⟩,
   ⟨0, 0, 0, 0, [], (fs []), by decide +kernel⟩,
   ⟨1, 0, 0, 1, 0, [], { pg with seps := [sp] }, sp, pt, (qs []).modTl (fun y => { y with jobs := [jb], pages := [{ pg with seps := [sp] }] }), by decide +kernel⟩,
   ⟨1, 0, 0, 0, [], { pg with seps := [{ sp with parts := [{ pt with body := [1] }] }] }, { sp with parts := [{ pt with body := [1] }] }, { pt with body := [1] }, [], (qs []).modTl (fun y => { y with jobs := [jb], pages := [{ pg with seps := [{ sp with parts := [{ pt with body := [1] }] }] }] }), (qs []).modTl (fun y => { y with jobs := [jb], pages := [{ pg with seps := [{ sp with parts := [{ pt with body := [1] }] }] }] }), ⟨by decide +kernel, by decide +kernel, by decide +kernel, by decide +kernel, by decide +kernel, by decide +kernel, Prod.ext (by decide +kernel) rfl⟩⟩,
   ⟨h1, 1, 15, 8, 7, jb, pg, (qs []).modTl (fun y => { y with jobs := [jb], pages := [pg] }), by decide +kernel⟩,
   ⟨h1, 1, 0x1FFFF8, 8, jb, pg, (qs []).modTl (fun y => { y with jobs := [jb], pages := [pg] }), by decide +kernel⟩⟩

theorem hyps_BeamDetectCommands :
    (∃ (k : Fin 6) (t px : Nat) (s : State), s.hasStation k = true ∧ s.on (H.ISOLATED (btPage k)) = false ∧ s.btState k = btStopped) ∧
    (∃ (k : Fin 6) (t px : Nat) (s : State), s.hasStation k = true ∧ s.on (H.ISOLATED (btPage k)) = false ∧ s.hasPeriod k = true ∧ (s.expected k).px - s.bdWin k ≤ px ∧ (px : Int) ≤ (s.expected k).px + s.bdWin k) ∧
    (∃ (k : Fin 6) (t px : Nat) (s : State), s.hasStation k = true ∧ s.on (H.ISOLATED (btPage k)) = false ∧ s.btState k ≠ btStopped ∧ s.hasPeriod k = true ∧ ((px : Int) < (s.expected k).px - s.bdWin k ∨ (s.expected k).px + s.bdWin k < px)) ∧
    (∃ (k : Fin 6) (t px : Nat) (s : State), s.on (H.ISOLATED (btPage k)) = true) ∧
    (∃ (k : Fin 6) (err : Int) (s : State), s.btState k = btSpeed ∧ (s.beam k).accRun < 15) ∧
    (∃ (k : Fin 6) (err : Int) (s : State), s.btState k = btSpeed ∧ 15 ≤ (s.beam k).accRun ∧ s.hasIndex k = true) ∧
    (∃ (k : Fin 6) (s : State), s.hasStation k = true ∧ s.btState k ≠ btStopped ∧ s.hasPeriod k = true ∧ s.on (H.ISOLATED (btPage k)) = false ∧ s.bdClose k < (256 * s.time : Int) ∧ s.btState k = btLocked ∧ s.rd (F.BT_STAT_MISS_RUN k) < 2) ∧
    (∃ (k : Fin 6) (s : State), s.hasStation k = true ∧ s.btState k ≠ btStopped ∧ s.hasPeriod k = true ∧ s.on (H.ISOLATED (btPage k)) = false ∧ s.bdClose k < (256 * s.time : Int) ∧ s.btState k = btLocked ∧ s.rd (F.BT_STAT_MISS_RUN k) = 2) ∧
    (∃ (k : Fin 6) (s : State), (256 * s.time : Int) ≤ s.bdClose k) ∧
    (∃ (k : Fin 6) (s : State), s.hasStation k = true ∧ s.btState k ≠ btStopped ∧ s.hasPeriod k = true ∧ (s.beam k).missed = false ∧ 2 * (s.beam k).times.headD 0 + 3 * s.rd (F.BT_PERIOD_TICKS k) < 512 * s.time) ∧
    (∃ (k : Fin 6) (s : State), (s.beam k).missed = true ∨ 512 * s.time ≤ 2 * (s.beam k).times.headD 0 + 3 * s.rd (F.BT_PERIOD_TICKS k)) ∧
    (∃ (k : Fin 6) (s : State), s.hasStation k = true ∧ s.hasIndex k = true ∧ s.btState k = btIndex ∧ s.on (H.ISOLATED (btPage k)) = false ∧ (s.beam k).idxCount = none) ∧
    (∃ (k : Fin 6) (c : Nat) (s : State), s.hasStation k = true ∧ s.hasIndex k = true ∧ s.btState k = btLocked ∧ s.on (H.ISOLATED (btPage k)) = false ∧ (s.beam k).idxCount = some c ∧ c ≠ s.facets k) ∧
    (∃ (k : Fin 6) (s : State), s.btState k = btStopped) ∧
    (∃ (k : Fin 6) (s : State), s.hasStation k = true ∧ s.hasIndex k = true ∧ s.btState k ≠ btStopped ∧ 2 * s.facets k ≤ (s.beam k).idxScans) ∧
    (∃ (k : Fin 6) (s : State), (s.beam k).idxScans < 2 * s.facets k) ∧
    (∃ (a : Agent) (g : Fin 2) (v : Nat) (s : State), writable s a 0x020 (0x200 + 4 * g.val) ∧ s.groupExposes g = false) ∧
    (∃ (a : Agent) (g : Fin 2) (v : Nat) (s : State), writable s a 0x020 (0x200 + 4 * g.val) ∧ s.groupExposes g = true) ∧
    (∃ (k : Fin 6) (s : State), s.exposing k = true) ∧
    (∃ (k : Fin 6) (s : State), s.exposing k = false) :=
  ⟨⟨0, 0, 0, (fs [(H.ISOLATED (btPage 0), 0), (H.STATE (btPage 0), btStopped)]), by decide +kernel⟩,
   ⟨0, 0, 0, (bm id []) |>.modClk (fun c => { c with setN := Vector.replicate 3 1, setDiv := Vector.replicate 3 1 }), by decide +kernel⟩,
   ⟨0, 0, (10 ^ 9), (bm id [(H.STATE 0x020, btSpeed)]) |>.modClk (fun c => { c with setN := Vector.replicate 3 1, setDiv := Vector.replicate 3 1 }), by decide +kernel⟩,
   ⟨0, 0, 0, (fs [(H.ISOLATED (btPage 0), 1)]), by decide +kernel⟩,
   ⟨0, 0, (fs [(H.STATE (btPage 0), btSpeed)]), by decide +kernel⟩,
   ⟨0, 0, ((fs [(H.STATE (btPage 0), btSpeed)])).wr (F.BT_CFG_IDX_KIND 0) 1 |>.modBeam 0 (fun y => { y with accRun := 15 }), by decide +kernel⟩,
   ⟨0, (bm id [(H.STATE 0x020, btLocked), (F.BT_PERIOD_TICKS 0, 1), (F.FREF_INC_INC 0, 1)]).at_ (10 ^ 18) |>.modClk (fun c => { c with setN := Vector.replicate 3 1, setDiv := Vector.replicate 3 1 }), by decide +kernel⟩,
   ⟨0, (bm id [(H.STATE 0x020, btLocked), (F.BT_STAT_MISS_RUN 0, 2), (F.FREF_INC_INC 0, 1)]).at_ (10 ^ 18) |>.modClk (fun c => { c with setN := Vector.replicate 3 1, setDiv := Vector.replicate 3 1 }), by decide +kernel⟩,
   ⟨0, (fs []), by decide +kernel⟩,
   ⟨0, (bm id [(H.STATE 0x020, btLocked)]).at_ (10 ^ 15), by decide +kernel⟩,
   ⟨0, ((fs []).modBeam 0 (fun y => { y with missed := true })), by decide +kernel⟩,
   ⟨0, (((fs [(H.STATE (btPage 0), btIndex), (H.ISOLATED (btPage 0), 0)]).modBeam 0 (fun y => { y with idxCount := none }))).wr (F.BT_CFG_IDX_KIND 0) 1, by decide +kernel⟩,
   ⟨0, 0, (((fs [(H.STATE (btPage 0), btLocked), (H.ISOLATED (btPage 0), 0)]).modBeam 0 (fun y => { y with idxCount := some 0 }))).wr (F.BT_CFG_IDX_KIND 0) 1, by decide +kernel⟩,
   ⟨0, (fs [(H.STATE (btPage 0), btStopped)]), by decide +kernel⟩,
   ⟨0, ((fs [(H.STATE (btPage 0), (btStopped + 1) % 8)])).wr (F.BT_CFG_IDX_KIND 0) 1 |>.modBeam 0 (fun y => { y with idxScans := 16 }), by decide +kernel⟩,
   ⟨0, (fs []), by decide +kernel⟩,
   ⟨(.berth 0), 0, 0, (fs [(H.OWNER 0x020, 0)]), by decide +kernel⟩,
   ⟨(.berth 0), 0, 0, ((fs [(H.OWNER 0x020, 0)])).wr (F.PT_SLOT_STATE 0) 2 |>.modTl (fun y => { y with slots := y.slots.set 0 (some { sl0 with stations := 1, begun := 1, anchor := some 0, starts := [0] }) }), by decide +kernel⟩,
   ⟨0, ((fs [])).wr (F.PT_SLOT_STATE 0) 2 |>.modTl (fun y => { y with slots := y.slots.set 0 (some { sl0 with stations := 1, begun := 1, anchor := some 0, starts := [0] }) }), by decide +kernel⟩,
   ⟨0, (fs []), by decide +kernel⟩⟩

theorem hyps_RegistrationCommands :
    (∃ (j : Fin 4) (st : Nat) (s : State), s.on F.REG_STAT_OPEN = true) ∧
    (∃ (j : Fin 4) (st : Nat) (s : State), s.on F.REG_STAT_OPEN = false) ∧
    (∃ (m : MarkPage) (r : List MarkPage) (s : State), s.sta.reg.pages = m :: r ∧ s.on F.REG_STAT_OPEN = false ∧ s.markOpenAt m ≤ 65536 * s.time) ∧
    (∃ (m : MarkPage) (r : List MarkPage) (s : State), s.sta.reg.pages = m :: r ∧ 65536 * s.time < s.markOpenAt m) ∧
    (∃ (m : MarkPage) (r : List MarkPage) (s : State), s.sta.reg.pages = m :: r ∧ s.on F.REG_STAT_OPEN = true ∧ s.markCloseAt m ≤ 65536 * s.time) ∧
    (∃ (s : State), s.on F.REG_STAT_OPEN = false) ∧
    (∃ (r : Nat) (s : State), s.holder 5 = some r ∧ s.sta.reg.phase = 0 ∧ s.rd F.REG_CFG_GAIN ≠ 0 ∧ s.rd F.REG_STAT_SETS ≠ s.sta.reg.used ∧ s.staged 0x041 = false) ∧
    (∃ (r : Nat) (s : State), s.holder 5 = some r ∧ s.sta.reg.phase = 1 ∧ s.rd (H.SEQ 0x041) ≠ s.sta.reg.seq ∧ s.sta.reg.todo.any (fun x => s.staged (btPage x.1) || s.staged (imPage x.1)) = false) ∧
    (∃ (s : State), s.sta.reg.phase = 0 ∧ s.rd F.REG_CFG_GAIN = 0) ∧
    (∃ (s : State), s.sta.reg.phase = 2 ∧ s.sta.reg.printed = false) ∧
    (∃ (s : State), s.holder 5 = none) :=
  ⟨⟨0, 0, (fs [(F.REG_STAT_OPEN, 1)]), by decide +kernel⟩,
   ⟨0, 0, (fs [(F.REG_STAT_OPEN, 0)]), by decide +kernel⟩,
   ⟨mp, [], (((fs [(F.REG_STAT_OPEN, 0)]).at_ (10 ^ 15))).modReg (fun y => { y with pages := [mp] }), by decide +kernel⟩,
   ⟨{ mp with anchor := 9 }, [], ((fs [])).modReg (fun y => { y with pages := [{ mp with anchor := 9 }] }), by decide +kernel⟩,
   ⟨mp, [], (((fs [(F.REG_STAT_OPEN, 1)]).at_ (10 ^ 15))).modReg (fun y => { y with pages := [mp] }), by decide +kernel⟩,
   ⟨(fs [(F.REG_STAT_OPEN, 0)]), by decide +kernel⟩,
   ⟨5, (fs [(F.REG_CFG_GAIN, 1), (F.REG_STAT_SETS, 1), (F.BR_ROLE_ROLE 5, 5), (H.STATE 0x00D, 0)]), by decide +kernel⟩,
   ⟨5, (fs [(H.SEQ 0x041, 1), (F.BR_ROLE_ROLE 5, 5), (H.STATE 0x00D, 0)]).modReg (fun y => { y with phase := 1 }), by decide +kernel⟩,
   ⟨(fs [(F.REG_CFG_GAIN, 0)]), by decide +kernel⟩,
   ⟨(fs []).modReg (fun y => { y with phase := 2 }), by decide +kernel⟩,
   ⟨(fs []), by decide +kernel⟩⟩

theorem hyps_ResistanceTestCommands :
    (∃ (k : Fin 6) (s : State), s.hasStation k = true ∧ s.on (H.ISOLATED (ilPage k)) = false ∧ s.on (F.IL_TEST_STAT_RUNNING k) = false ∧ s.testDue k = true ∧ (s.testWaits k = true ∨ s.gapFits k (s.testWindow k) = false)) ∧
    (∃ (k : Fin 6) (s : State), s.hasStation k = true ∧ s.on (H.ISOLATED (ilPage k)) = false ∧ s.on (F.IL_TEST_STAT_RUNNING k) = false ∧ s.testDue k = true ∧ s.testWaits k = false ∧ s.gapFits k (s.testWindow k) = true ∧ s.rd (H.STATE (ilPage k)) ≠ 3) ∧
    (∃ (k : Fin 6) (s : State), s.testDue k = false) ∧
    (∃ (k : Fin 6) (s : State), s.on (F.IL_TEST_STAT_RUNNING k) = true ∧ (s.ilace k).emitter < s.rd (F.IL_GEOM_NEMIT k) ∧ (s.ilace k).answered = true ∧ 8 * (s.ilace k).testAt + 162500 * (s.ilace k).emitter ≤ 8 * s.time) ∧
    (∃ (k : Fin 6) (s : State), 8 * s.time < 8 * (s.ilace k).testAt + 162500 * (s.ilace k).emitter) ∧
    (∃ (k : Fin 6) (e : Fin 64) (v1 v2 : Nat) (s : State), s.on (F.IL_TEST_STAT_RUNNING k) = true ∧ (s.ilace k).answered = false ∧ (s.ilace k).emitter = e + 1 ∧ v1 < 65536 ∧ v2 < 65536 ∧ 0 ≤ rdynOf v1 v2 ∧ rdynOf v1 v2 < 65536 ∧ testClass false v1 v2 (s.rd (F.IL_RES_RNOM k e)) = 1 ∧ drifted (s.rd (F.IL_RES_RDYN k e)) (rdynOf v1 v2) = false) ∧
    (∃ (k : Fin 6) (e : Fin 64) (v1 v2 : Nat) (s : State), s.on (F.IL_TEST_STAT_RUNNING k) = true ∧ (s.ilace k).answered = false ∧ (s.ilace k).emitter = e + 1 ∧ v1 < 65536 ∧ v2 < 65536 ∧ 0 ≤ rdynOf v1 v2 ∧ rdynOf v1 v2 < 65536 ∧ drifted (s.rd (F.IL_RES_RDYN k e)) (rdynOf v1 v2) = false) ∧
    (∃ (k : Fin 6) (e : Fin 64) (o : Bool) (v1 v2 : Nat) (s : State), ((s.ilace k).answered = true ∨ (s.ilace k).emitter ≠ e + 1)) ∧
    (∃ (k : Fin 6) (s : State), s.on (F.IL_TEST_STAT_RUNNING k) = true ∧ (s.ilace k).answered = false ∧ 8 * (s.ilace k).testAt + 162500 * (s.ilace k).emitter ≤ 8 * s.time) ∧
    (∃ (k : Fin 6) (s : State), (s.ilace k).answered = true) ∧
    (∃ (k : Fin 6) (s : State), s.on (F.IL_TEST_STAT_RUNNING k) = true ∧ (s.ilace k).testEnd ≤ s.time ∧ (s.ilace k).answered = true) ∧
    (∃ (k : Fin 6) (s : State), s.time < (s.ilace k).testEnd) ∧
    (∃ (a : Agent) (k : Fin 6) (v : Nat) (s : State), writable s a (ilPage k) 0x058 ∧ bit v 31 = true) ∧
    (∃ (a : Agent) (k : Fin 6) (v : Nat) (s : State), writable s a (ilPage k) 0x058 ∧ bit v 31 = false) ∧
    (∃ (v1 v2 rnom : Nat), (3 * rnom : Int) < rdynOf v1 v2) ∧
    (∃ (v1 v2 rnom : Nat), v2 ≤ v1) ∧
    (∃ (v1 v2 rnom : Nat), v1 < v2 ∧ 10 * rdynOf v1 v2 < 3 * rnom) ∧
    (∃ (v1 v2 rnom : Nat), v1 < v2 ∧ (3 * rnom : Int) ≤ 10 * rdynOf v1 v2 ∧ rdynOf v1 v2 ≤ 3 * rnom ∧ (8 * rnom : Int) ≤ 10 * rdynOf v1 v2 ∧ 10 * rdynOf v1 v2 ≤ 12 * rnom) ∧
    (∃ (v1 v2 rnom : Nat), v1 < v2 ∧ (3 * rnom : Int) ≤ 10 * rdynOf v1 v2 ∧ rdynOf v1 v2 ≤ 3 * rnom ∧ (10 * rdynOf v1 v2 < (8 * rnom : Int) ∨ 12 * rnom < 10 * rdynOf v1 v2)) :=
  ⟨⟨0, ((fs [(H.ISOLATED (ilPage 0), 0), (F.IL_TEST_STAT_RUNNING 0, 0)])).wr (F.IL_TEST_STAT_PENDING 0) 1 |>.modSta (fun y => { y with plans := y.plans.set 0 (some ⟨4, [], 0⟩) }), by decide +kernel⟩,
   ⟨0, ((fs [(H.ISOLATED (ilPage 0), 0), (F.IL_TEST_STAT_RUNNING 0, 0), (H.STATE (ilPage 0), 4)])).wr (F.IL_TEST_STAT_PENDING 0) 1, by decide +kernel⟩,
   ⟨0, (fs []), by decide +kernel⟩,
   ⟨0, ((((fs [(F.IL_TEST_STAT_RUNNING 0, 1)]).modIlace 0 (fun y => { y with answered := true })).at_ (10 ^ 15))).wr (F.IL_GEOM_NEMIT 0) 1, by decide +kernel⟩,
   ⟨0, (ilc (fun y => { y with testAt := 1 }) []), by decide +kernel⟩,
   ⟨0, 0, 0, 94, ((((fs [(F.IL_TEST_STAT_RUNNING 0, 1)]).modIlace 0 (fun y => { y with answered := false })).modIlace 0 (fun y => { y with emitter := 0 + 1 }))).wr (F.IL_RES_RNOM 0 0) 100, by decide +kernel⟩,
   ⟨0, 0, 0, 0, (((fs [(F.IL_TEST_STAT_RUNNING 0, 1)]).modIlace 0 (fun y => { y with answered := false })).modIlace 0 (fun y => { y with emitter := 0 + 1 })), by decide +kernel⟩,
   ⟨0, 0, false, 0, 0, ((fs []).modIlace 0 (fun y => { y with answered := true })), by decide +kernel⟩,
   ⟨0, (((fs [(F.IL_TEST_STAT_RUNNING 0, 1)]).modIlace 0 (fun y => { y with answered := false })).at_ (10 ^ 15)), by decide +kernel⟩,
   ⟨0, ((fs []).modIlace 0 (fun y => { y with answered := true })), by decide +kernel⟩,
   ⟨0, (((fs [(F.IL_TEST_STAT_RUNNING 0, 1)]).modIlace 0 (fun y => { y with answered := true })).at_ (10 ^ 15)), by decide +kernel⟩,
   ⟨0, (ilc (fun y => { y with testEnd := 1 }) []), by decide +kernel⟩,
   ⟨(.berth 0), 0, (2 ^ 31), (fs [(H.OWNER (ilPage 0), 0)]), by decide +kernel⟩,
   ⟨(.berth 0), 0, 0, (fs [(H.OWNER (ilPage 0), 0)]), by decide +kernel⟩,
   ⟨0, 94, 0, by decide +kernel⟩,
   ⟨0, 0, 0, by decide +kernel⟩,
   ⟨0, 94, 1000, by decide +kernel⟩,
   ⟨0, 94, 100, by decide +kernel⟩,
   ⟨0, 94, 50, by decide +kernel⟩⟩

theorem hyps_SparingCommands :
    (∃ (a : Agent) (k : Fin 6) (v : Nat) (s : State), writable s a (ilPage k) 0x04C ∧ (∀ i < 64, bit (s.ilDead k) i = true → bit ((s.wr (F.IL_DEAD_LO_MASK k) v).ilDead k) i = true)) ∧
    (∃ (a : Agent) (k : Fin 6) (v : Nat) (s : State), writable s a (ilPage k) 0x050 ∧ (∀ i < 64, bit (s.ilDead k) i = true → bit ((s.wr (F.IL_DEAD_HI_MASK k) v).ilDead k) i = true)) ∧
    (∃ (a : Agent) (k : Fin 6) (v : Nat) (s : State), writable s a (ilPage k) 0x04C ∧ (s.ilace k).isolated = [] ∧ (∃ i < 64, bit (s.ilDead k) i = true ∧ bit ((s.wr (F.IL_DEAD_LO_MASK k) v).ilDead k) i = false)) ∧
    (∃ (k : Fin 6) (a b c d : Nat) (s : State), s.sta.plans[s.btGroup k] = none ∧ s.on (F.IL_REPLAN_REQ k) = true ∧ (s.holder 5).isSome = true ∧ (planGroup ⟨a, b, c, d⟩ (s.rd F.PT_SPEED_SPEED) ((s.groupStations (s.btGroup k)).map fun j => (j.val, s.headOf j.val)) = none)) ∧
    (∃ (k : Fin 6) (a b c d v4 : Nat), ∃ (sets : List (Nat × List Nat)), ∃ (s : State), s.sta.plans[s.btGroup k] = none ∧ s.on (F.IL_REPLAN_REQ k) = true ∧ (s.holder 5).isSome = true ∧ (planGroup ⟨a, b, c, d⟩ (s.rd F.PT_SPEED_SPEED) ((s.groupStations (s.btGroup k)).map fun j => (j.val, s.headOf j.val)) = some (v4, sets)) ∧ (∀ j ∈ s.groupStations (s.btGroup k), s.staged (ilPage j) = false ∧ s.v4Now j = v4) ∧ (s.rd (F.IL_REPLAN_REASON k) ≠ 2 ∨ s.jobBoundary = true)) ∧
    (∃ (k : Fin 6) (a b c d : Nat) (s : State), s.sta.plans[s.btGroup k] = none ∧ s.on (F.IL_REPLAN_REQ k) = false) ∧
    (∃ (k : Fin 6) (code : Nat) (s : State), code < 1024 ∧ s.hasStation k = true ∧ s.thermGood k = true ∧ s.on (F.IL_THERM_STAT_CAP k) = false ∧ s.reached k code (s.rd (F.IL_THERM_WARN k)) = false ∧ (s.ilace k).cut = false) ∧
    (∃ (k : Fin 6) (code : Nat) (s : State), code < 1024 ∧ s.hasStation k = true ∧ s.thermGood k = true ∧ s.on (F.IL_THERM_STAT_CAP k) = false ∧ s.reached k code (s.rd (F.IL_THERM_WARN k)) = true ∧ s.reached k code (s.rd (F.IL_THERM_CUT k)) = false) ∧
    (∃ (k : Fin 6) (s : State), s.hasStation k = true ∧ s.thermGood k = true) ∧
    (∃ (k : Fin 6) (s : State), (s.ilace k).cut = true) ∧
    (∃ (k : Fin 6) (s : State), (s.ilace k).cut = false) :=
  ⟨⟨(.berth 0), 0, 0, (fs [(H.OWNER (ilPage 0), 0)]), by decide +kernel⟩,
   ⟨(.berth 0), 0, 0, (fs [(H.OWNER (ilPage 0), 0)]), by decide +kernel⟩,
   ⟨(.berth 0), 0, 0, (fs [(H.OWNER (ilPage 0), 0), (F.IL_DEAD_LO_MASK 0, 1)]), by decide +kernel, by decide +kernel, 0, by decide, by decide +kernel, by decide +kernel⟩,
   ⟨0, 0, 1, 0, 0, ((fs [(F.IL_REPLAN_REQ 0, 1)])).wr (F.BR_ROLE_ROLE 5) 5, by decide +kernel⟩,
   ⟨0, 4, 4, 0, 60000, 4, [(0, [0])], (hs0 [(F.IL_REPLAN_REQ 0, 1), (F.IL_REPLAN_REASON 0, 3), (F.BR_ROLE_ROLE 5, 5), (F.BT_CFG_GROUP 0, 1), (F.PT_SPEED_SPEED, 1), (F.IL_CYCLE_K 0, 1), (F.IL_CYCLE_ADV 0, 1)]), by decide +kernel⟩,
   ⟨0, 0, 0, 0, 0, (fs [(F.IL_REPLAN_REQ 0, 0)]), by decide +kernel⟩,
   ⟨0, 0, (((fs [(F.IL_THERM_STAT_CAP 0, 0)]).modIlace 0 (fun y => { y with cut := false }))).wr (F.IL_THERM_CUT 0) 2 |>.wr (F.IL_THERM_WARN 0) 1, by decide +kernel⟩,
   ⟨0, 1, ((fs [(F.IL_THERM_STAT_CAP 0, 0)])).wr (F.IL_THERM_CUT 0) 2 |>.wr (F.IL_THERM_WARN 0) 1, by decide +kernel⟩,
   ⟨0, ((fs [])).wr (F.IL_THERM_CUT 0) 2, by decide +kernel⟩,
   ⟨0, ((fs []).modIlace 0 (fun y => { y with cut := true })), by decide +kernel⟩,
   ⟨0, ((fs []).modIlace 0 (fun y => { y with cut := false })), by decide +kernel⟩⟩

theorem hyps_TrainingCommands :
    (∃ (k : Fin 6) (s : State), s.hasStation k = true ∧ s.on (H.ISOLATED (hlPage k)) = false ∧ s.hlState k = 0) ∧
    (∃ (k : Fin 6) (s : State), s.hasStation k = true ∧ s.on (H.ISOLATED (hlPage k)) = false ∧ s.hlState k = 1 ∧ (s.link k).turnAt = none ∧ (s.link k).laneAt + 20000 ≤ s.time) ∧
    (∃ (k : Fin 6) (t : Nat) (s : State), s.hasStation k = true ∧ s.on (H.ISOLATED (hlPage k)) = false ∧ s.hlState k = 1 ∧ (s.link k).turnAt = some t ∧ (s.link k).seen = true ∧ (s.link k).map = none ∧ t + 20000 ≤ s.time) ∧
    (∃ (k : Fin 6) (s : State), s.hlState k = 2) ∧
    (∃ (a : Agent) (k : Fin 6) (v : Nat) (s : State), writable s a (hlPage k) 0x040 ∧ bit v 8 = true) ∧
    (∃ (a : Agent) (k : Fin 6) (v : Nat) (s : State), writable s a (hlPage k) 0x040 ∧ bit v 8 = false) ∧
    (∃ (k : Fin 6) (t : Nat) (s : State), (s.link k).turnAt = some t ∧ s.hlState k = 1 ∧ (s.link k).seen = false ∧ t + 40000 ≤ s.time ∧ 0 < (s.link k).lane) ∧
    (∃ (k : Fin 6) (s : State), (s.link k).turnAt = none) ∧
    (∃ (k : Fin 6) (s : State), s.hlState k = 1 ∧ (s.link k).began + 500000 ≤ s.time ∧ (s.link k).tries < 2) ∧
    (∃ (k : Fin 6) (s : State), s.hlState k = 1 ∧ (s.link k).began + 500000 ≤ s.time ∧ 2 ≤ (s.link k).tries) ∧
    (∃ (k : Fin 6) (s : State), s.time < (s.link k).began + 500000) ∧
    (∃ (k : Fin 6) (tag : Nat) (c : HeadCmd) (m : LaneMap) (s : State), (s.link k).cmds.find? (·.tag == tag % 256) = some c ∧ c.cmd = 0x02 ∧ (s.link k).map = some m ∧ mapWord m.lanes = c.arg) ∧
    (∃ (k : Fin 6) (tag : Nat) (c : HeadCmd) (s : State), (s.link k).cmds.find? (·.tag == tag % 256) = some c ∧ c.cmd = 0x20) ∧
    (∃ (k : Fin 6) (tag : Nat) (s : State), (∀ c ∈ (s.link k).cmds, c.tag ≠ tag % 256)) ∧
    (∃ (k : Fin 6) (c : HeadCmd) (r : List HeadCmd) (s : State), (s.link k).cmds = c :: r ∧ s.on (F.HL_STAT_SLOT_MODE k) = false ∧ c.sent + 5000 ≤ s.time ∧ c.tries < 2) ∧
    (∃ (k : Fin 6) (c : HeadCmd) (r : List HeadCmd) (s : State), (s.link k).cmds = c :: r ∧ s.on (F.HL_STAT_SLOT_MODE k) = true ∧ 2 ≤ c.slots ∧ 2 ≤ c.tries) ∧
    (∃ (k : Fin 6) (s : State), (s.link k).cmds = []) :=
  ⟨⟨0, (fs [(H.ISOLATED (hlPage 0), 0), (H.STATE (hlPage 0), 0)]), by decide +kernel⟩,
   ⟨0, (((fs [(H.ISOLATED (hlPage 0), 0), (H.STATE (hlPage 0), 1)]).modLink 0 (fun y => { y with turnAt := none })).at_ (10 ^ 15)), by decide +kernel⟩,
   ⟨0, 0, (((((fs [(H.ISOLATED (hlPage 0), 0), (H.STATE (hlPage 0), 1)]).modLink 0 (fun y => { y with turnAt := some 0 })).modLink 0 (fun y => { y with seen := true })).modLink 0 (fun y => { y with map := none })).at_ (10 ^ 15)), by decide +kernel⟩,
   ⟨0, (fs [(H.STATE (hlPage 0), 2)]), by decide +kernel⟩,
   ⟨(.berth 0), 0, 256, (fs [(H.OWNER (hlPage 0), 0)]), by decide +kernel⟩,
   ⟨(.berth 0), 0, 0, (fs [(H.OWNER (hlPage 0), 0)]), by decide +kernel⟩,
   ⟨0, 0, ((((fs [(H.STATE (hlPage 0), 1)]).modLink 0 (fun y => { y with turnAt := some 0 })).modLink 0 (fun y => { y with seen := false })).at_ (10 ^ 15)), by decide +kernel⟩,
   ⟨0, ((fs []).modLink 0 (fun y => { y with turnAt := none })), by decide +kernel⟩,
   ⟨0, ((fs [(H.STATE (hlPage 0), 1)]).at_ (10 ^ 15)), by decide +kernel⟩,
   ⟨0, (lnk (fun y => { y with tries := 2 }) [(H.STATE 0x038, 1)]).at_ (10 ^ 15), by decide +kernel⟩,
   ⟨0, (fs []), by decide +kernel⟩,
   ⟨0, 0, { hc0 with cmd := 2 }, ⟨[0, 0, 0, 0, 0, 0, 0, 0], 8, false⟩, (lnk (fun y => { y with map := some ⟨[0, 0, 0, 0, 0, 0, 0, 0], 8, false⟩, cmds := [{ hc0 with cmd := 2 }] }) []), by decide +kernel⟩,
   ⟨0, 0, hc0, (lnk (fun y => { y with cmds := [hc0] }) []), by decide +kernel⟩,
   ⟨0, 0, (fs []), by decide +kernel⟩,
   ⟨0, hc0, [], (((fs [(F.HL_STAT_SLOT_MODE 0, 0)]).modLink 0 (fun y => { y with cmds := hc0 :: [] })).at_ (10 ^ 15)), by decide +kernel⟩,
   ⟨0, { hc0 with slots := 2, tries := 2 }, [], (lnk (fun y => { y with cmds := [{ hc0 with slots := 2, tries := 2 }] }) [(F.HL_STAT_SLOT_MODE 0, 1)]), by decide +kernel⟩,
   ⟨0, ((fs []).modLink 0 (fun y => { y with cmds := [] })), by decide +kernel⟩⟩

theorem hyps_HeadLinkCommands :
    (∃ (k : Fin 6) (n : Nat) (s : State), bit (s.rd (F.HL_STAT_HEALTHY k)) n = false) ∧
    (∃ (k : Fin 6) (f l sc rx : Nat) (s : State), s.hasStation k = true ∧ s.hlState k = 1 ∧ (s.link k).turnAt.isSome = true ∧ bit f 2 = true) ∧
    (∃ (k : Fin 6) (f l sc rx : Nat) (s : State), s.hasStation k = true ∧ s.hlState k = 2 ∧ (∀ n < 9, bit (s.rd (F.HL_STAT_HEALTHY k)) n = true → bit l n = true) ∧ bit f 2 = false) ∧
    (∃ (k : Fin 6) (f l sc rx : Nat) (s : State), (s.hlState k = 0 ∨ s.hlState k = 4)) ∧
    (∃ (k : Fin 6) (sc : Nat) (s : State), s.spanOf k (sc % 2 ^ 24) = none) ∧
    (∃ (k : Fin 6) (s : State), (s.hlState k = 2 ∨ s.hlState k = 3) ∧ (s.link k).heard + 1000 * s.rd (F.HL_TIMING_STAT_TO k) ≤ s.time) ∧
    (∃ (k : Fin 6) (s : State), s.time < (s.link k).heard + 1000 * s.rd (F.HL_TIMING_STAT_TO k)) ∧
    (∃ (k : Fin 6) (s : State), s.on (F.HL_STAT_QUENCH k) = true ∧ (s.link k).quenchAt + 22 ≤ s.time) ∧
    (∃ (k : Fin 6) (s : State), s.on (F.HL_STAT_QUENCH k) = false) ∧
    (∃ (k : Fin 6) (s : State), s.hlState k = 2 ∧ (s.link k).alignAt + 1408 ≤ s.time) ∧
    (∃ (k : Fin 6) (s : State), s.time < (s.link k).alignAt + 22) ∧
    (∃ (k : Fin 6) (s : State), s.hlState k = 2 ∧ s.on (F.HL_STAT_SLOT_MODE k) = true ∧ (s.link k).slotAt + 10000 ≤ s.time) ∧
    (∃ (k : Fin 6) (s : State), s.on (F.HL_STAT_SLOT_MODE k) = false) ∧
    (∃ (k : Fin 6) (m : List Nat) (s : State), s.hasStation k = true ∧ headBad (m.map (· % 256)) = false ∧ s.headDiffers k (m.map (· % 256)) = false) ∧
    (∃ (k : Fin 6) (m : List Nat) (s : State), s.hasStation k = true ∧ headBad (m.map (· % 256)) = true) ∧
    (∃ (k : Fin 6) (m : List Nat) (s : State), s.hasStation k = true ∧ headBad (m.map (· % 256)) = false ∧ s.headDiffers k (m.map (· % 256)) = true) :=
  ⟨⟨0, 0, (fs []), by decide +kernel⟩,
   ⟨0, 4, 0, 0, 0, (lnk (fun y => { y with turnAt := some 0 }) [(H.STATE 0x038, 1)]), by decide +kernel⟩,
   ⟨0, 0, 0, 0, 0, (fs [(H.STATE (hlPage 0), 2)]), by decide +kernel⟩,
   ⟨0, 0, 0, 0, 0, (fs [(H.STATE (hlPage 0), 0)]), by decide +kernel⟩,
   ⟨0, 0, (fs []), by decide +kernel⟩,
   ⟨0, ((fs [(H.STATE (hlPage 0), 2)]).at_ (10 ^ 15)), by decide +kernel⟩,
   ⟨0, (fs []), by decide +kernel⟩,
   ⟨0, ((fs [(F.HL_STAT_QUENCH 0, 1)]).at_ (10 ^ 15)), by decide +kernel⟩,
   ⟨0, (fs [(F.HL_STAT_QUENCH 0, 0)]), by decide +kernel⟩,
   ⟨0, ((fs [(H.STATE (hlPage 0), 2)]).at_ (10 ^ 15)), by decide +kernel⟩,
   ⟨0, (fs []), by decide +kernel⟩,
   ⟨0, ((fs [(H.STATE (hlPage 0), 2), (F.HL_STAT_SLOT_MODE 0, 1)]).at_ (10 ^ 15)), by decide +kernel⟩,
   ⟨0, (fs [(F.HL_STAT_SLOT_MODE 0, 0)]), by decide +kernel⟩,
   ⟨0, hmem, (hs0 []), by decide +kernel⟩,
   ⟨0, [], (fs []), by decide +kernel⟩,
   ⟨0, hmem, (hs0 [(F.IL_GEOM_NEMIT 0, 2)]), by decide +kernel⟩⟩

theorem hyps_EdkarPortCommands :
    (∃ (p : Fin 2) (s : State), s.portState p = 0) ∧
    (∃ (p : Fin 2) (s : State), s.time / 100000 * 100000 < s.ed[p].cycleAt) ∧
    (∃ (p : Fin 2) (s : State), s.portState p = 2 ∧ s.ed[p].cycleAt ≤ s.time / 100000 * 100000 ∧ ((s.boundary (edPage p)).edJudge p).portState p ≠ 1) ∧
    (∃ (p : Fin 2) (s : State), s.portState p ≠ 0 ∧ s.ed[p].badNow = false ∧ s.ed[p].badRun < 2) ∧
    (∃ (s : State), s.portState 0 = 2 ∧ s.ed[0].badNow = false ∧ 2 ≤ s.ed[0].badRun) ∧
    (∃ (p : Fin 2) (s : State), (s.portState p = 0 ∨ s.ed[p].badNow = true)) ∧
    (∃ (p : Fin 2) (m : Fin 16) (s : State), s.portState p ≠ 0 ∧ m ≠ 0 ∧ (s.edMod p m).window = true ∧ s.modState p m ≠ edThrottled) ∧
    (∃ (p : Fin 2) (m : Fin 16) (s : State), s.portState p ≠ 0 ∧ m ≠ 0 ∧ (s.edMod p m).window = false) ∧
    (∃ (p : Fin 2) (m : Fin 16) (s : State), s.portState p ≠ 0 ∧ (s.edMod p m).window = true ∧ (s.edMod p m).trans = none ∧ (s.edMod p m).active = true ∧ (s.edMod p m).valid = true) ∧
    (∃ (p : Fin 2) (m : Fin 16) (s : State), s.portState p ≠ 0 ∧ (s.edMod p m).window = true ∧ (s.edMod p m).trans = none ∧ (s.edMod p m).active = false ∧ s.modPresent p m = true ∧ 2 ≤ (s.edMod p m).silentRun) ∧
    (∃ (p : Fin 2) (m : Fin 16) (s : State), (s.edMod p m).window = false) ∧
    (∃ (p : Fin 2) (m : Fin 16) (s : State), s.portState p ≠ 0 ∧ m ≠ 0 ∧ (s.edMod p m).violated = false ∧ s.modState p m = 2) ∧
    (∃ (p : Fin 2) (m : Fin 16) (s : State), s.portState p ≠ 0 ∧ m ≠ 0 ∧ (s.edMod p m).violated = false ∧ s.modState p m = 3 ∧ s.rd (F.ED_LIMIT_QUAR_CNT p) ≤ ((s.edMod p m).violTimes.filter fun t => decide (s.time < t + 100000000)).length + 1) ∧
    (∃ (p : Fin 2) (m : Fin 16) (s : State), (s.edMod p m).violated = true) ∧
    (∃ (p : Fin 2) (m : Fin 16) (s : State), s.modState p m = 3 ∧ (∀ t ∈ (s.edMod p m).violTimes, t + 100000000 ≤ s.time)) ∧
    (∃ (p : Fin 2) (m : Fin 16) (s : State), s.modState p m ≠ 3) ∧
    (∃ (p : Fin 2) (m : Fin 16) (s : State), s.rd (F.ED_AUTH_PERIOD p) ≠ 0 ∧ s.on (F.ED_CFG_AUTH_EN p) = true ∧ s.modPresent p m = true ∧ (s.edMod p m).authSup = true ∧ (s.edKey p m).isSome = true ∧ (s.edMod p m).authAt + s.rd (F.ED_AUTH_PERIOD p) * 100000000 ≤ s.time) ∧
    (∃ (p : Fin 2) (m : Fin 16) (s : State), s.rd (F.ED_AUTH_PERIOD p) = 0) ∧
    (∃ (a : Agent) (p : Fin 2) (s : State), writable s a (edPage p) 0x040 ∧ s.portState p ≠ 0) ∧
    (∃ (a : Agent) (p : Fin 2) (s : State), writable s a (edPage p) 0x040 ∧ s.portState p = 0) ∧
    (∃ (a : Agent) (p : Fin 2) (s : State), writable s a (edPage p) 0x040 ∧ s.portState p = 0) ∧
    (∃ (a : Agent) (p : Fin 2) (s : State), writable s a (edPage p) 0x040 ∧ s.portState p ≠ 0) ∧
    (∃ (a : Agent) (p : Fin 2) (m : Fin 16) (s : State), writable s a (edPage p) (0x084 + 8 * m.val) ∧ m ≠ 0 ∧ (s.modState p m = 4 ∨ s.modState p m = 5)) ∧
    (∃ (a : Agent) (p : Fin 2) (m : Fin 16) (s : State), writable s a (edPage p) (0x084 + 8 * m.val) ∧ s.modState p m ≠ 4 ∧ s.modState p m ≠ 5) :=
  ⟨⟨0, (fs [(H.STATE (edPage 0), 0)]), by decide +kernel⟩,
   ⟨0, (fs []).modPort 0 (fun y => { y with cycleAt := 1 }), by decide +kernel⟩,
   ⟨0, (fs [(H.STATE (edPage 0), 2)]), by decide +kernel⟩,
   ⟨0, ((fs [(H.STATE (edPage 0), (0 + 1) % 8)]).modPort 0 (fun y => { y with badNow := false })), by decide +kernel⟩,
   ⟨(((fs [(H.STATE (edPage 0), 2)]).modPort 0 (fun y => { y with badNow := false }))).modPort 0 (fun y => { y with badRun := 2 }), by decide +kernel⟩,
   ⟨0, (fs [(H.STATE (edPage 0), 0)]), by decide +kernel⟩,
   ⟨0, 1, ((fs [(H.STATE (edPage 0), (0 + 1) % 8), (F.ED_MOD_STATE 0 1, (edThrottled + 1) % 8)]).modMod 0 1 (fun y => { y with window := true })), by decide +kernel⟩,
   ⟨0, 1, ((fs [(H.STATE (edPage 0), (0 + 1) % 8)]).modMod 0 1 (fun y => { y with window := false })), by decide +kernel⟩,
   ⟨0, 0, (((((fs [(H.STATE (edPage 0), (0 + 1) % 8)]).modMod 0 0 (fun y => { y with window := true })).modMod 0 0 (fun y => { y with trans := none })).modMod 0 0 (fun y => { y with active := true })).modMod 0 0 (fun y => { y with valid := true })), by decide +kernel⟩,
   ⟨0, 1, (em (fun y => { y with silentRun := 2 }) []), by decide +kernel⟩,
   ⟨0, 0, ((fs []).modMod 0 0 (fun y => { y with window := false })), by decide +kernel⟩,
   ⟨0, 1, ((fs [(H.STATE (edPage 0), (0 + 1) % 8), (F.ED_MOD_STATE 0 1, 2)]).modMod 0 1 (fun y => { y with violated := false })), by decide +kernel⟩,
   ⟨0, 1, (((fs [(H.STATE (edPage 0), (0 + 1) % 8), (F.ED_MOD_STATE 0 1, 3)]).modMod 0 1 (fun y => { y with violated := false }))).wr (F.ED_LIMIT_QUAR_CNT 0) 1, by decide +kernel⟩,
   ⟨0, 0, ((fs []).modMod 0 0 (fun y => { y with violated := true })), by decide +kernel⟩,
   ⟨0, 0, ((fs [(F.ED_MOD_STATE 0 0, 3)]).at_ (10 ^ 15)), by decide +kernel⟩,
   ⟨0, 0, (fs [(F.ED_MOD_STATE 0 0, (3 + 1) % 8)]), by decide +kernel⟩,
   ⟨0, 1, (em (fun y => { y with authSup := true }) [(F.ED_AUTH_PERIOD 0, 1), (F.ED_CFG_AUTH_EN 0, 1)]).st 0x05310010 4 1 |>.at_ (10 ^ 15), by decide +kernel⟩,
   ⟨0, 0, (fs [(F.ED_AUTH_PERIOD 0, 0)]), by decide +kernel⟩,
   ⟨(.berth 0), 0, (fs [(H.OWNER (edPage 0), 0), (H.STATE (edPage 0), (0 + 1) % 8)]), by decide +kernel⟩,
   ⟨(.berth 0), 0, (fs [(H.OWNER (edPage 0), 0), (H.STATE (edPage 0), 0)]), by decide +kernel⟩,
   ⟨(.berth 0), 0, (fs [(H.OWNER (edPage 0), 0), (H.STATE (edPage 0), 0)]), by decide +kernel⟩,
   ⟨(.berth 0), 0, (fs [(H.OWNER (edPage 0), 0), (H.STATE (edPage 0), (0 + 1) % 8)]), by decide +kernel⟩,
   ⟨(.berth 0), 0, 1, (fs [(H.OWNER (edPage 0), 0), (F.ED_MOD_STATE 0 1, 4)]), by decide +kernel⟩,
   ⟨(.berth 0), 0, 0, (fs [(H.OWNER (edPage 0), 0), (F.ED_MOD_STATE 0 0, (5 + 1) % 8)]), by decide +kernel⟩⟩

theorem hyps_EdkarFrameCommands :
    (∃ (p : Fin 2) (m : Fin 16) (tid fl ev : Nat) (tag : List Nat) (s : State), (frameOk s p m 0x41 tid [fl, ev] tag)) ∧
    (∃ (p : Fin 2) (m : Fin 16) (tid v mo ser ver cls caps : Nat) (s : State), s.portState p ≠ 0 ∧ m ≠ 0 ∧ (s.edMod p m).window = true ∧ s.modState p m = 0) ∧
    (∃ (p : Fin 2) (m : Fin 16) (tid v mo ser ver cls caps x : Nat) (s : State), s.portState p ≠ 0 ∧ m ≠ 0 ∧ (s.edMod p m).window = true ∧ s.modState p m = 2 ∧ (s.edMod p m).serial = some x ∧ x ≠ ser) ∧
    (∃ (p : Fin 2) (m : Fin 16) (tid : Nat) (r : List Nat) (tr : EdTrans) (s : State), s.portState p ≠ 0 ∧ m ≠ 0 ∧ (s.edMod p m).window = true ∧ s.modState p m ≠ edThrottled ∧ (s.edMod p m).trans = some tr ∧ tr.type = 0x04 ∧ tr.tid = tid ∧ tr.answered = false ∧ s.edKey p m = none) ∧
    (∃ (p : Fin 2) (m : Fin 16) (tid : Nat) (tr : EdTrans) (k : List Nat) (s : State), s.portState p ≠ 0 ∧ m ≠ 0 ∧ (s.edMod p m).window = true ∧ s.modState p m = 1 ∧ (s.edMod p m).trans = some tr ∧ tr.type = 0x04 ∧ tr.tid = tid ∧ tr.answered = false ∧ s.edKey p m = some k) ∧
    (∃ (p : Fin 2) (m : Fin 16) (tid sh d : Nat) (tag : List Nat) (s : State), frameOk s p m 0x44 tid (leBytes sh 4 ++ [d]) tag ∧ 4 ≤ d) ∧
    (∃ (p : Fin 2) (m : Fin 16) (tid sh d : Nat) (tag : List Nat) (tr : EdTrans) (s : State), frameOk s p m 0x44 tid (leBytes sh 4 ++ [d]) tag ∧ 1 ≤ d ∧ d < 4 ∧ (s.edMod p m).trans = some tr ∧ tr.type = 0x05 ∧ tr.tid = tid ∧ tr.answered = false ∧ leNat (tr.payload.take 4) = sh) ∧
    (∃ (p : Fin 2) (m : Fin 16) (tid sh d : Nat) (tag : List Nat) (tr : EdTrans) (s : State), frameOk s p m 0x44 tid (leBytes sh 4 ++ [d]) tag ∧ 1 ≤ d ∧ d < 4 ∧ (s.edMod p m).trans = some tr ∧ tr.type = 0x07 ∧ tr.tid = tid ∧ tr.answered = false ∧ leNat (tr.payload.take 4) = sh) ∧
    (∃ (p : Fin 2) (m : Fin 16) (tid : Nat) (tag : List Nat) (s : State), frameOk s p m 0x45 tid [] tag) ∧
    (∃ (p : Fin 2) (m : Fin 16) (es code sh ti : Nat) (tag : List Nat) (s : State), (frameOk s p m 0x46 0 ([es, code] ++ leBytes sh 4 ++ leBytes ti 8) tag) ∧ es ≠ (s.edMod p m).eack % 255 + 1) ∧
    (∃ (p : Fin 2) (m : Fin 16) (es sh ti : Nat) (tag : List Nat) (s : State), (frameOk s p m 0x46 0 ([es, 2] ++ leBytes sh 4 ++ leBytes ti 8) tag) ∧ es = (s.edMod p m).eack % 255 + 1) ∧
    (∃ (p : Fin 2) (m : Fin 16) (es sh ti : Nat) (tag : List Nat) (s : State), (frameOk s p m 0x46 0 ([es, 1] ++ leBytes sh 4 ++ leBytes ti 8) tag) ∧ es = (s.edMod p m).eack % 255 + 1) ∧
    (∃ (sh : Nat) (a : EdAnnounce) (s : State), s.ed[1].announces.find? (fun a => a.sheet == sh && !a.closed) = some a ∧ a.deadline ≤ s.time ∧ a.route = some []) ∧
    (∃ (sh : Nat) (a : EdAnnounce) (m : Nat) (r : List Nat) (s : State), s.ed[1].announces.find? (fun a => a.sheet == sh && !a.closed) = some a ∧ a.deadline ≤ s.time ∧ a.route = some (m :: r) ∧ a.answers = []) ∧
    (∃ (sh : Nat) (a : EdAnnounce) (s : State), s.ed[1].announces.find? (fun a => a.sheet == sh && !a.closed) = some a ∧ s.time < a.deadline) ∧
    (∃ (sh : Nat) (f : EdFeed) (s : State), s.ed[0].feeds.find? (fun f => f.sheet == sh && !f.done) = some f ∧ f.texp ≤ s.time + 200000) ∧
    (∃ (sh : Nat) (s : State), s.ed[0].feeds.find? (fun f => f.sheet == sh && !f.done) = none) :=
  ⟨⟨0, 1, 0, 0, 0, [], (em id []), by decide +kernel⟩,
   ⟨0, 1, 0, 0, 0, 0, 0, 0, 0, ((fs [(H.STATE (edPage 0), (0 + 1) % 8), (F.ED_MOD_STATE 0 1, 0)]).modMod 0 1 (fun y => { y with window := true })), by decide +kernel⟩,
   ⟨0, 1, 0, 0, 0, 0, 0, 0, 0, 1, (em (fun y => { y with serial := some 1 }) []), by decide +kernel⟩,
   ⟨0, 1, 0, [], tr0, (((fs [(H.STATE (edPage 0), (0 + 1) % 8), (F.ED_MOD_STATE 0 1, (edThrottled + 1) % 8)]).modMod 0 1 (fun y => { y with window := true })).modMod 0 1 (fun y => { y with trans := some tr0 })), by decide +kernel⟩,
   ⟨0, 1, 0, tr0, [1, 0, 0, 0, 0, 0, 0, 0, 0, 0, 0, 0, 0, 0, 0, 0], ((((fs [(H.STATE (edPage 0), (0 + 1) % 8), (F.ED_MOD_STATE 0 1, 1)]).modMod 0 1 (fun y => { y with window := true })).modMod 0 1 (fun y => { y with trans := some tr0 }))).st 0x05310010 4 1, by decide +kernel⟩,
   ⟨0, 1, 0, 0, 4, [], (em id []), by decide +kernel⟩,
   ⟨0, 1, 0, 0, 1, [], { tr0 with type := 5, payload := [0, 0, 0, 0] }, (em (fun y => { y with trans := some { tr0 with type := 5, payload := [0, 0, 0, 0] } }) []), by decide +kernel⟩,
   ⟨0, 1, 0, 0, 1, [], { tr0 with type := 7, payload := [0, 0, 0, 0] }, (em (fun y => { y with trans := some { tr0 with type := 7, payload := [0, 0, 0, 0] } }) []), by decide +kernel⟩,
   ⟨0, 1, 0, [], (em id []), by decide +kernel⟩,
   ⟨0, 1, 5, 0, 0, 0, [], (em id []), by decide +kernel⟩,
   ⟨0, 1, 1, 0, 0, [], (em id []), by decide +kernel⟩,
   ⟨0, 1, 1, 0, 0, [], (em id []), by decide +kernel⟩,
   ⟨0, an0, (fs []).modPort 1 (fun y => { y with announces := [an0] }) |>.at_ (10 ^ 12), by decide +kernel⟩,
   ⟨0, { an0 with route := some [1] }, 1, [], (fs []).modPort 1 (fun y => { y with announces := [{ an0 with route := some [1] }] }) |>.at_ (10 ^ 12), by decide +kernel⟩,
   ⟨0, { an0 with deadline := 1 }, (fs []).modPort 1 (fun y => { y with announces := [{ an0 with deadline := 1 }] }), by decide +kernel⟩,
   ⟨0, ⟨0, 0, false⟩, (fs []).modPort 0 (fun y => { y with feeds := [⟨0, 0, false⟩] }), by decide +kernel⟩,
   ⟨0, (fs []), by decide +kernel⟩⟩

theorem hyps_MotionCommands :
    (∃ (n : Fin 16) (s : State), sampleOf s.time < (s.stp n).sampled) ∧
    (∃ (n : Fin 16) (s : State), (s.stp n).sampled ≤ sampleOf s.time ∧ s.on (F.STP_CFG_SRC n) = true) ∧
    (∃ (n : Fin 16) (s : State), (s.stp n).sampled ≤ sampleOf s.time ∧ s.on (F.STP_CFG_SRC n) = false) ∧
    (∃ (n : Fin 16) (s : State), s.due (stpPage n) = false ∧ s.homing n = false ∧ s.inputActive (s.rd (F.STP_SW_LIMP_SRC n)) = false ∧ s.inputActive (s.rd (F.STP_SW_LIMN_SRC n)) = false ∧ (s.stp n).estop = false ∧ (s.stp n).brake = false) ∧
    (∃ (a : Agent) (n : Fin 16) (s : State), writable s a (stpPage n) 0x070) ∧
    (∃ (a : Agent) (n : Fin 16) (s : State), writable s a (stpPage n) 0x070 ∧ s.on (F.STP_CFG_SRC n) = false ∧ s.homing n = false ∧ s.inputActive (s.rd (F.STP_SW_HOME_SRC n)) = true) ∧
    (∃ (a : Agent) (n : Fin 16) (s : State), writable s a (stpPage n) 0x070 ∧ s.on (F.STP_CFG_SRC n) = false ∧ s.homing n = false ∧ s.inputActive (s.rd (F.STP_SW_HOME_SRC n)) = false) ∧
    (∃ (a : Agent) (n : Fin 16) (s : State), writable s a (stpPage n) 0x070 ∧ (s.on (F.STP_CFG_SRC n) = true ∨ s.homing n = true)) ∧
    (∃ (n : Fin 16) (d : Bool) (s : State), s.on (F.STP_CFG_SRC n) = false) ∧
    (∃ (n : Fin 16) (s : State), s.on (F.STP_CFG_SRC n) = true ∧ (s.stp n).estop = true ∧ (s.rd (F.STP_INTERP_IMIN n) : Int) ≤ s.time - ((s.stp n).follow s.time).stepAt) ∧
    (∃ (e : Fin 8) (a b : Bool) (s : State), s.on (H.ISOLATED (encPage e)) = true) ∧
    (∃ (e : Fin 8) (a : Bool) (s : State), s.on (H.ISOLATED (encPage e)) = false) ∧
    (∃ (e : Fin 8) (s : State), s.on (H.ISOLATED (encPage e)) = false ∧ s.on (F.ENC_CFG_NEG e) = false ∧ s.mo.encoders[e].hi = s.rd (F.ENC_RAW_COUNT e)) ∧
    (∃ (e : Fin 8) (s : State), s.on (F.ENC_CFG_IDX_EN e) = false) ∧
    (∃ (e : Fin 8) (s : State), s.on (F.ENC_CFG_IDX_EN e) = true ∧ s.on (H.ISOLATED (encPage e)) = false ∧ (s.rd (F.ENC_CPR_CPR e) = 0 ∨ s.mo.encoders[e].indexed = false)) ∧
    (∃ (e : Fin 8) (s : State), s.on (F.ENC_CFG_IDX_EN e) = true ∧ s.on (H.ISOLATED (encPage e)) = false ∧ s.rd (F.ENC_CPR_CPR e) ≠ 0 ∧ s.mo.encoders[e].indexed = true ∧ (diff32 (s.rd (F.ENC_RAW_COUNT e)) (s.rd (F.ENC_IDX_RAW e))).natAbs ≠ s.rd (F.ENC_CPR_CPR e)) ∧
    (∃ (e : Fin 8) (s : State), s.mo.encoders[e].evalAt + s.rd (F.ENC_SPD_PER e) ≤ s.time ∧ s.on (H.ISOLATED (encPage e)) = false ∧ s.mo.encoders[e].counted = true ∧ s.mo.encoders[e].t1 ≠ s.mo.encoders[e].t0) ∧
    (∃ (e : Fin 8) (s : State), s.time < s.mo.encoders[e].evalAt + s.rd (F.ENC_SPD_PER e)) ∧
    (∃ (a : Agent) (e : Fin 8) (s : State), writable s a (encPage e) 0x064) :=
  ⟨⟨0, (stp0 (fun y => { y with sampled := 1 }) []), by decide +kernel⟩,
   ⟨0, (fs [(F.STP_CFG_SRC 0, 1)]), by decide +kernel⟩,
   ⟨0, (fs [(F.STP_CFG_SRC 0, 0)]), by decide +kernel⟩,
   ⟨0, (((fs []).modStp 0 (fun y => { y with estop := false })).modStp 0 (fun y => { y with brake := false })), by decide +kernel⟩,
   ⟨(.berth 0), 0, (fs [(H.OWNER (stpPage 0), 0)]), by decide +kernel⟩,
   ⟨(.berth 0), 0, ((fs [(H.OWNER (stpPage 0), 0), (F.STP_CFG_SRC 0, 0)])).wr (F.STP_SW_HOME_SRC 0) 1 |>.wr (F.SS_IN_STAT_LEVEL 1) 1, by decide +kernel⟩,
   ⟨(.berth 0), 0, (fs [(H.OWNER (stpPage 0), 0), (F.STP_CFG_SRC 0, 0)]), by decide +kernel⟩,
   ⟨(.berth 0), 0, (fs [(H.OWNER (stpPage 0), 0), (F.STP_CFG_SRC 0, 1)]), by decide +kernel⟩,
   ⟨0, false, (fs [(F.STP_CFG_SRC 0, 0)]), by decide +kernel⟩,
   ⟨0, (((fs [(F.STP_CFG_SRC 0, 1)]).modStp 0 (fun y => { y with estop := true }))).at_ (10 ^ 12), by decide +kernel⟩,
   ⟨0, false, false, (fs [(H.ISOLATED (encPage 0), 1)]), by decide +kernel⟩,
   ⟨0, false, (fs [(H.ISOLATED (encPage 0), 0)]), by decide +kernel⟩,
   ⟨0, (fs [(H.ISOLATED (encPage 0), 0), (F.ENC_CFG_NEG 0, 0)]), by decide +kernel⟩,
   ⟨0, (fs [(F.ENC_CFG_IDX_EN 0, 0)]), by decide +kernel⟩,
   ⟨0, (fs [(F.ENC_CFG_IDX_EN 0, 1), (H.ISOLATED (encPage 0), 0), (F.ENC_CPR_CPR 0, 0)]), by decide +kernel⟩,
   ⟨0, ((fs [(F.ENC_CFG_IDX_EN 0, 1), (H.ISOLATED (encPage 0), 0), (F.ENC_CPR_CPR 0, 1)])).modEnc 0 (fun y => { y with indexed := true }), by decide +kernel⟩,
   ⟨0, (((fs [(H.ISOLATED (encPage 0), 0)]).at_ (10 ^ 15))).modEnc 0 (fun y => { y with counted := true, t1 := 1 }), by decide +kernel⟩,
   ⟨0, (fs []), by decide +kernel⟩,
   ⟨(.berth 0), 0, (fs [(H.OWNER (encPage 0), 0)]), by decide +kernel⟩⟩

theorem hyps_MotorStartCommands :
    (∃ (a : Agent) (n : Fin 12) (s : State), writable s a (cmPage n) 0x074 ∧ s.on (H.ISOLATED (cmPage n)) = false ∧ s.cmState n = 0) ∧
    (∃ (a : Agent) (n : Fin 12) (s : State), writable s a (cmPage n) 0x074 ∧ s.on (H.ISOLATED (cmPage n)) = false ∧ s.cmState n = 7) ∧
    (∃ (a : Agent) (n : Fin 12) (s : State), writable s a (cmPage n) 0x074 ∧ s.on (H.ISOLATED (cmPage n)) = false ∧ s.cmState n = 8 ∧ s.on (F.MB_STAT_TRIPPED (s.cmGroup n)) = true) ∧
    (∃ (a : Agent) (n : Fin 12) (s : State), writable s a (cmPage n) 0x074 ∧ s.cmState n = 6) ∧
    (∃ (a : Agent) (n : Fin 12) (s : State), writable s a (cmPage n) 0x074 ∧ s.cmState n = 1) ∧
    (∃ (a : Agent) (n : Fin 12) (s : State), writable s a (cmPage n) 0x074 ∧ s.cmState n = 6) ∧
    (∃ (a : Agent) (n : Fin 12) (s : State), writable s a (cmPage n) 0x074 ∧ s.cmState n ≠ 1 ∧ s.cmState n ≠ 6) ∧
    (∃ (a : Agent) (n : Fin 12) (s : State), writable s a (cmPage n) 0x074 ∧ s.cmState n ≠ 0) ∧
    (∃ (a : Agent) (n : Fin 12) (s : State), writable s a (cmPage n) 0x074 ∧ s.cmState n = 0) ∧
    (∃ (a : Agent) (n : Fin 12) (s : State), writable s a (cmPage n) 0x074 ∧ s.cmState n = 6 ∧ s.on (F.CM_STAT_IN_BAND n) = true ∧ (s.motor n).probe = none ∧ s.cmExposing n = false) ∧
    (∃ (a : Agent) (n : Fin 12) (s : State), writable s a (cmPage n) 0x074 ∧ s.cmState n = 6 ∧ s.on (F.CM_STAT_IN_BAND n) = true ∧ (s.motor n).probe = none ∧ s.cmExposing n = true) ∧
    (∃ (n : Fin 12) (s : State), s.rd (F.CM_KE_KE_PER n) = 0) ∧
    (∃ (g : Fin 2) (s : State), s.ct.groups[g].queue = []) ∧
    (∃ (g : Fin 2) (n : Fin 12), ∃ (r : List (Nat × Nat)), ∃ (s : State), (s.ct.groups[g].queue = (n.val, s.time) :: r) ∧ s.on (F.MB_STAT_UV g) = false ∧ s.on (F.MB_STAT_TRIPPED g) = false ∧ s.on (H.ISOLATED mbPage) = false ∧ s.startWeight g n + s.rd (F.CM_START_WEIGHT n) ≤ s.rd (F.MB_BUDGET_BUDGET g)) ∧
    (∃ (g : Fin 2) (n : Fin 12) (t : Nat), ∃ (r : List (Nat × Nat)), ∃ (s : State), (s.ct.groups[g].queue = (n.val, t) :: r) ∧ s.rd (F.CM_START_WEIGHT n) ≤ s.rd (F.MB_BUDGET_BUDGET g) ∧ s.rd (F.MB_BUDGET_BUDGET g) < s.startWeight g n + s.rd (F.CM_START_WEIGHT n)) ∧
    (∃ (n : Fin 12) (s : State), s.cmState n = 2 ∧ (s.motor n).agree < 3 ∧ (s.motor n).since + s.rd (F.CM_START_LISTEN_T n) * 100000 ≤ s.time) ∧
    (∃ (n : Fin 12) (s : State), s.cmState n = 2 ∧ 3 ≤ (s.motor n).agree ∧ (s.rdS (F.CM_SPEED_SPEED n)).natAbs < s.rd (F.CM_REV_RATED n) * 100 ∧ 0 < s.rdS (F.CM_SPEED_SPEED n) * s.forward n) ∧
    (∃ (n : Fin 12) (s : State), s.cmState n ≠ 2) ∧
    (∃ (n : Fin 12) (s : State), s.cmState n = 4 ∧ (s.motor n).since + s.rd (F.CM_OPEN_ALIGN_T n) * 100000 ≤ s.time) ∧
    (∃ (n : Fin 12) (s : State), s.cmState n ≠ 4) :=
  ⟨⟨(.berth 0), 0, (fs [(H.OWNER (cmPage 0), 0), (H.ISOLATED (cmPage 0), 0), (H.STATE (cmPage 0), 0)]), by decide +kernel⟩,
   ⟨(.berth 0), 0, (fs [(H.OWNER (cmPage 0), 0), (H.ISOLATED (cmPage 0), 0), (H.STATE (cmPage 0), 7)]), by decide +kernel⟩,
   ⟨(.berth 0), 0, (fs [(H.STATE 0x0B0, 8), (F.MB_STAT_TRIPPED 0, 1), (F.MB_STAT_TRIPPED 1, 1)]), by decide +kernel⟩,
   ⟨(.berth 0), 0, (fs [(H.OWNER (cmPage 0), 0), (H.STATE (cmPage 0), 6)]), by decide +kernel⟩,
   ⟨(.berth 0), 0, (fs [(H.OWNER (cmPage 0), 0), (H.STATE (cmPage 0), 1)]), by decide +kernel⟩,
   ⟨(.berth 0), 0, (fs [(H.OWNER (cmPage 0), 0), (H.STATE (cmPage 0), 6)]), by decide +kernel⟩,
   ⟨(.berth 0), 0, (fs [(H.OWNER (cmPage 0), 0), (H.STATE (cmPage 0), (6 + 1) % 8)]), by decide +kernel⟩,
   ⟨(.berth 0), 0, (fs [(H.OWNER (cmPage 0), 0), (H.STATE (cmPage 0), (0 + 1) % 8)]), by decide +kernel⟩,
   ⟨(.berth 0), 0, (fs [(H.OWNER (cmPage 0), 0), (H.STATE (cmPage 0), 0)]), by decide +kernel⟩,
   ⟨(.berth 0), 0, ((fs [(H.OWNER (cmPage 0), 0), (H.STATE (cmPage 0), 6), (F.CM_STAT_IN_BAND 0, 1)]).modMotor 0 (fun y => { y with probe := none })), by decide +kernel⟩,
   ⟨(.berth 0), 0, (((((fs [(H.OWNER (cmPage 0), 0), (H.STATE (cmPage 0), 6), (F.CM_STAT_IN_BAND 0, 1)]).modMotor 0 (fun y => { y with probe := none }))).wr (F.CM_CFG_IMG_MASK 0) 1).wr (F.PT_SLOT_STATE 0) 2 |>.modTl (fun y => { y with slots := y.slots.set 0 (some { sl0 with stations := 1, begun := 1, anchor := some 0, starts := [0] }) })), by decide +kernel⟩,
   ⟨0, (fs [(F.CM_KE_KE_PER 0, 0)]), by decide +kernel⟩,
   ⟨0, (fs []), by decide +kernel⟩,
   ⟨0, 0, [], (grp (fun y => { y with queue := [(0, 0)] }) []), by decide +kernel⟩,
   ⟨0, 0, 0, [], (grp (fun y => { y with queue := [(0, 0)] }) [(F.CM_START_WEIGHT 0, 1), (F.MB_BUDGET_BUDGET 0, 1), (F.CM_START_WEIGHT 1, 1), (H.STATE 0x0B1, 2)]).modMotor 1 (fun y => { y with winEnd := 10 ^ 9 }), by decide +kernel⟩,
   ⟨0, ((fs [(H.STATE (cmPage 0), 2)]).at_ (10 ^ 15)), by decide +kernel⟩,
   ⟨0, ((fs [(H.STATE (cmPage 0), 2)])).modMotor 0 (fun y => { y with agree := 3 }) |>.wr (F.CM_SPEED_SPEED 0) 1 |>.wr (F.CM_REV_RATED 0) 1, by decide +kernel⟩,
   ⟨0, (fs [(H.STATE (cmPage 0), (2 + 1) % 8)]), by decide +kernel⟩,
   ⟨0, ((fs [(H.STATE (cmPage 0), 4)]).at_ (10 ^ 15)), by decide +kernel⟩,
   ⟨0, (fs [(H.STATE (cmPage 0), (4 + 1) % 8)]), by decide +kernel⟩⟩

theorem hyps_CommutationCommands :
    (∃ (n : Fin 12) (c : Fin 8) (s : State), (s.motor n).due = none ∧ s.rd (F.CM_CFG_SENSE n) = 0) ∧
    (∃ (n : Fin 12) (c : Fin 8) (s : State), (s.motor n).due = none ∧ s.rd (F.CM_CFG_SENSE n) ≠ 0 ∧ s.cmState n = 6 ∧ (s.motor n).probe = none) ∧
    (∃ (n : Fin 12) (s : State), (s.motor n).due = none ∧ s.rd (F.CM_CFG_SENSE n) = 0) ∧
    (∃ (n : Fin 12) (s : State), (s.motor n).due = none ∧ s.rd (F.CM_CFG_SENSE n) ≠ 0 ∧ s.cmState n = 6 ∧ (s.motor n).probe = none ∧ (s.motor n).crossed = false ∧ (s.motor n).prevSector ≠ 0 ∧ 2 * (s.motor n).lastEdge + 3 * (s.motor n).prevSector ≤ 2 * s.time ∧ (s.motor n).missed ≠ 5) ∧
    (∃ (n : Fin 12) (s : State), s.time / 100000 < (s.motor n).sampled) ∧
    (∃ (n : Fin 12) (s : State), (s.motor n).sampled ≤ s.time / 100000 ∧ s.due (cmPage n) = false ∧ (s.motor n).due = none ∧ s.cmState n = 0 ∧ s.on (F.CM_STAT_IN_BAND n) = false) ∧
    (∃ (n : Fin 12) (s : State), (s.motor n).sampled ≤ s.time / 100000 ∧ s.due (cmPage n) = false ∧ (s.motor n).due = none ∧ s.cmState n = 6 ∧ (s.motor n).probe = none ∧ (s.motor n).keDue = false ∧ s.revThresh n ≤ (s.rdS (F.CM_TARGET_SPEED n)).natAbs) ∧
    (∃ (n : Fin 12) (s : State), (s.motor n).due = none ∧ s.cmState n = 6 ∧ (s.motor n).duty ≠ 0 ∧ max (s.motor n).lastEdge (s.motor n).since + s.rd (F.CM_STALL_T n) * 100000 ≤ s.time) ∧
    (∃ (n : Fin 12) (s : State), (s.motor n).due = none ∧ s.cmState n ≠ 6) ∧
    (∃ (n : Fin 12) (code offs row : Nat) (s : State), hallRow code = some row ∧ (s.motor n).seen = false) ∧
    (∃ (n : Fin 12) (code offs : Nat) (s : State), hallRow code = none) ∧
    (∃ (g : Fin 2) (s : State), sampleOf s.time < s.ct.groups[g].sampled) ∧
    (∃ (g : Fin 2) (s : State), s.ct.groups[g].sampled ≤ sampleOf s.time) ∧
    (∃ (a : Agent) (g : Fin 2) (s : State), writable s a mbPage (0x05C + 0x20 * g.val) ∧ s.ct.groups[g].pairOff ≤ s.rd (F.MB_STAT_VBUS g) ∧ s.ct.groups[g].gateAt = none) ∧
    (∃ (a : Agent) (g : Fin 2) (s : State), writable s a mbPage (0x05C + 0x20 * g.val) ∧ s.rd (F.MB_STAT_VBUS g) < s.ct.groups[g].pairOff) ∧
    (∃ (a : Agent) (g : Fin 2) (s : State), writable s a mbPage (0x05C + 0x20 * g.val) ∧ s.ct.groups[g].pairOff < s.rd (F.MB_STAT_VBUS g)) ∧
    (∃ (a : Agent) (g : Fin 2) (s : State), writable s a mbPage (0x05C + 0x20 * g.val) ∧ s.rd (F.MB_STAT_VBUS g) ≤ s.ct.groups[g].pairOff ∧ s.on (F.MB_STAT_TRIPPED g) = true) ∧
    (∃ (a : Agent) (g : Fin 2) (s : State), writable s a mbPage (0x05C + 0x20 * g.val) ∧ s.rd (F.MB_STAT_VBUS g) ≤ s.ct.groups[g].pairOff ∧ s.on (F.MB_STAT_TRIPPED g) = false) :=
  ⟨⟨0, 0, ((fs [(F.CM_CFG_SENSE 0, 0)]).modMotor 0 (fun y => { y with due := none })), by decide +kernel⟩,
   ⟨0, 0, (((fs [(F.CM_CFG_SENSE 0, 1), (H.STATE (cmPage 0), 6)]).modMotor 0 (fun y => { y with due := none })).modMotor 0 (fun y => { y with probe := none })), by decide +kernel⟩,
   ⟨0, ((fs [(F.CM_CFG_SENSE 0, 0)]).modMotor 0 (fun y => { y with due := none })), by decide +kernel⟩,
   ⟨0, (fs [(F.CM_CFG_SENSE 0, 1), (H.STATE 0x0B0, 6)]).modMotor 0 (fun y => { y with times := [1, 0] }) |>.at_ (10 ^ 9), by decide +kernel⟩,
   ⟨0, (fs []).modMotor 0 (fun y => { y with sampled := 1 }), by decide +kernel⟩,
   ⟨0, (((fs [(H.STATE (cmPage 0), 0), (F.CM_STAT_IN_BAND 0, 0)]).modMotor 0 (fun y => { y with due := none })).at_ (10 ^ 15)), by decide +kernel⟩,
   ⟨0, (((((fs [(H.STATE (cmPage 0), 6)]).modMotor 0 (fun y => { y with due := none })).modMotor 0 (fun y => { y with probe := none })).modMotor 0 (fun y => { y with keDue := false })).at_ (10 ^ 15)), by decide +kernel⟩,
   ⟨0, ((((fs [(H.STATE (cmPage 0), 6)]).modMotor 0 (fun y => { y with due := none })).modMotor 0 (fun y => { y with duty := 0 + 1 })).at_ (10 ^ 15)), by decide +kernel⟩,
   ⟨0, ((fs [(H.STATE (cmPage 0), (6 + 1) % 8)]).modMotor 0 (fun y => { y with due := none })), by decide +kernel⟩,
   ⟨0, 1, 0, 0, ((fs []).modMotor 0 (fun y => { y with seen := false })), by decide +kernel⟩,
   ⟨0, 0, 0, (fs []), by decide +kernel⟩,
   ⟨0, (grp (fun y => { y with sampled := 1 }) []), by decide +kernel⟩,
   ⟨0, (fs []), by decide +kernel⟩,
   ⟨(.berth 0), 0, (fs [(H.OWNER mbPage, 0)]), by decide +kernel⟩,
   ⟨(.berth 0), 0, (grp (fun y => { y with pairOff := 1 }) []), by decide +kernel⟩,
   ⟨(.berth 0), 0, (grp id [(F.MB_STAT_VBUS 0, 1)]), by decide +kernel⟩,
   ⟨(.berth 0), 0, (fs [(H.OWNER mbPage, 0), (F.MB_STAT_TRIPPED 0, 1)]), by decide +kernel⟩,
   ⟨(.berth 0), 0, (fs [(H.OWNER mbPage, 0), (F.MB_STAT_TRIPPED 0, 0)]), by decide +kernel⟩⟩

theorem hyps_LoopCommands :
    (∃ (e : Fin 4) (i : Fin 32) (d : Nat) (s : State), (s.slotDue e i = false ∨ s.time < (s.slot e i).sampled)) ∧
    (∃ (e : Fin 4) (i : Fin 32) (d : Nat) (s : State), s.slotDue e i = true ∧ (s.slot e i).sampled ≤ s.time ∧ s.on (H.ISOLATED (lePage e)) = false ∧ s.isSafe = false ∧ s.slState e i ≠ 0 ∧ s.time < (s.slot e i).busyTo) ∧
    (∃ (e : Fin 4) (i : Fin 32) (d : Nat) (s : State), s.slotDue e i = true ∧ (s.slot e i).sampled ≤ s.time ∧ s.on (H.ISOLATED (lePage e)) = false ∧ s.isSafe = false ∧ s.slState e i = 0 ∧ s.rd (F.SL_MODE_MODE e i) = 0 ∧ s.rd (F.SL_IN_KIND e i) ≠ 1) ∧
    (∃ (e : Fin 4) (i : Fin 32) (d : Nat) (l : List Nat) (t s : State), s.slotDue e i = true ∧ (s.slot e i).sampled ≤ s.time ∧ (s.slot e i).busyTo ≤ s.time ∧ s.on (H.ISOLATED (lePage e)) = false ∧ s.isSafe = false ∧ s.slState e i = 2 ∧ s.rd (F.SL_MODE_MODE e i) = 2 ∧ s.forcedBy e i = none ∧ s.rd (F.SL_IN_KIND e i) ≠ 1 ∧ d ≤ 20 ∧ ((((s.modLoop e i fun q => { q with sampled := s.time + 1 }).wr (F.LE_STAT_DUE_MAX e) (max (s.rd (F.LE_STAT_DUE_MAX e)) (min 31 (s.dueBelow e 32)))).modLoop e i fun q => { q with busyTo := s.time + d }).wr (F.LE_STAT_DELAY_MAX e) (max d (s.rd (F.LE_STAT_DELAY_MAX e)))).memBytes (slotRecord e i) 0x144 (.loopEngine e) = (some l, t) ∧ bit (t.slot e i).causes 2 = false) ∧
    (∃ (e : Fin 4) (i : Fin 32) (v : Int) (t : Nat), ∃ (r : List (Int × Nat)), ∃ (s : State), (s.slot e i).heldOut = (v, t) :: r ∧ t ≤ s.time) ∧
    (∃ (e : Fin 4) (i : Fin 32) (v : Int) (t : Nat), ∃ (r : List (Int × Nat)), ∃ (s : State), (s.slot e i).heldOut = (v, t) :: r ∧ s.time < t) ∧
    (∃ (e : Fin 4) (i : Fin 32) (s : State), (s.slot e i).heldOut = []) ∧
    (∃ (a : Agent) (e : Fin 4) (i : Fin 32) (v : Nat) (s : State), writable s a (lePage e) (0x114 + 0x60 * i.val) ∧ s.slState e i = 0 ∧ v % 4 < 3) ∧
    (∃ (a : Agent) (e : Fin 4) (i : Fin 32) (v : Nat) (s : State), writable s a (lePage e) (0x114 + 0x60 * i.val) ∧ s.slState e i = 2 ∧ v % 4 = 1 ∧ bits v 2 1 = s.rd (F.SL_MODE_FIXLAT e i)) ∧
    (∃ (a : Agent) (e e2 : Fin 4) (i i2 : Fin 32) (s : State), writable s a (lePage e2) (0x108 + 0x60 * i2.val) ∧ (s.on (H.ISOLATED (lePage e)) = false ∨ s.on (H.ISOLATED (lePage e2)) = true ∨ s.slState e2 i2 ≠ 0 ∨ s.tickFull e2 (max 100 (s.rd (F.SL_PER_PERIOD e i))) (s.rd (F.SL_PHASE_PHASE e i)) = true)) ∧
    (∃ (e e2 : Fin 4) (i i2 : Fin 32) (b : Fin 12) (l : List Nat) (t s : State), writable s (.berth b) (lePage e2) (0x108 + 0x60 * i2.val) ∧ s.on (H.ISOLATED (lePage e)) = true ∧ s.on (H.ISOLATED (lePage e2)) = false ∧ s.slState e2 i2 = 0 ∧ s.tickFull e2 (max 100 (s.rd (F.SL_PER_PERIOD e i))) (s.rd (F.SL_PHASE_PHASE e i)) = false ∧ s.rd (F.SL_OUT_DST e i) = 0 ∧ (s.copyFields (slotFields e i) (slotFields e2 i2)).memBytes (slotRecord e i) 0x200 (.berth b false) = (some l, t)) ∧
    (∃ (c : Fin 4) (s : State), bit (s.rd F.ADC_CFG_EN) c = true ∧ s.on (H.ISOLATED adcPage) = false ∧ s.ct.adc[c].isolated = false ∧ s.ct.adc[c].frameAt < s.time / 1000 * 1000) ∧
    (∃ (c : Fin 4) (s : State), bit (s.rd F.ADC_CFG_EN) c = false) ∧
    (∃ (c : Fin 4) (k : Fin 20) (ch div code : Nat) (s : State), k.val ∈ s.ct.adc[c].open_ ∧ s.ct.adc[c].frameAt + 50 * (k.val + 1) ≤ s.time ∧ k ≠ 19 ∧ code < 4096 ∧ (s.ct.adc[c].table[k.val]? = some (ch, div, false))) ∧
    (∃ (c : Fin 4) (k : Fin 20) (ch div code : Nat) (s : State), k.val ∈ s.ct.adc[c].open_ ∧ s.ct.adc[c].frameAt + 50 * (k.val + 1) ≤ s.time ∧ k ≠ 19 ∧ code < 4096 ∧ (s.ct.adc[c].table[k.val]? = some (ch, div, true))) ∧
    (∃ (c : Fin 4) (code : Nat) (s : State), 19 ∈ s.ct.adc[c].open_ ∧ s.ct.adc[c].frameAt + 1000 ≤ s.time ∧ code < 4096) ∧
    (∃ (c : Fin 4) (k : Fin 20) (code : Nat) (s : State), k.val ∉ s.ct.adc[c].open_) ∧
    (∃ (n : Fin 96) (s : State), n.val < 88 ∧ s.on (F.PWM_CFG_EN n) = true ∧ s.time % max 2 (s.rd (F.PWM_PER_PER n)) = s.rd (F.PWM_PHASE_PHASE n) % max 2 (s.rd (F.PWM_PER_PER n))) ∧
    (∃ (n : Fin 96) (s : State), n.val < 88 ∧ s.on (F.PWM_CFG_EN n) = false) :=
  ⟨⟨0, 0, 0, (fs [(F.SL_PHASE_PHASE 0 0, 1)]), by decide +kernel⟩,
   ⟨0, 0, 0, (fs [(F.SL_STAT_STATE 0 0, 2)]).modLoop 0 0 (fun y => { y with busyTo := 1 }), by decide +kernel⟩,
   ⟨0, 0, 0, ((fs [(H.ISOLATED (lePage 0), 0), (F.FC_STATE_SAFE, 0), (F.SL_STAT_STATE 0 0, 0), (F.SL_MODE_MODE 0 0, 0), (F.SL_IN_KIND 0 0, 2)]).at_ (10 ^ 15)), by decide +kernel⟩,
   ⟨0, 0, 0, (List.replicate 0x144 0), lp4t, lp4, ⟨by decide +kernel, by decide +kernel, by decide +kernel, by decide +kernel, by decide +kernel, by decide +kernel, by decide +kernel, by decide +kernel, by decide +kernel, by decide +kernel, memBytes_clean (by decide +kernel) (by decide +kernel), by decide +kernel⟩⟩,
   ⟨0, 0, 0, 0, [], (((fs []).modLoop 0 0 (fun y => { y with heldOut := (0, 0) :: [] })).at_ (10 ^ 15)), by decide +kernel⟩,
   ⟨0, 0, 0, 1, [], (fs []).modLoop 0 0 (fun y => { y with heldOut := [(0, 1)] }), by decide +kernel⟩,
   ⟨0, 0, ((fs []).modLoop 0 0 (fun y => { y with heldOut := [] })), by decide +kernel⟩,
   ⟨(.berth 0), 0, 0, 0, (fs [(H.OWNER (lePage 0), 0), (F.SL_STAT_STATE 0 0, 0)]), by decide +kernel⟩,
   ⟨(.berth 0), 0, 0, 1, (fs [(H.OWNER (lePage 0), 0), (F.SL_STAT_STATE 0 0, 2)]), by decide +kernel⟩,
   ⟨(.berth 0), 0, 0, 0, 0, (fs [(H.OWNER (lePage 0), 0), (H.ISOLATED (lePage 0), 0)]), by decide +kernel⟩,
   ⟨0, 1, 0, 0, 4, (List.replicate 0x200 0), (lp11.copyFields (slotFields 0 0) (slotFields 1 0)), lp11, ⟨by decide +kernel, by decide +kernel, by decide +kernel, by decide +kernel, by decide +kernel, by decide +kernel, memBytes_clean (by decide +kernel) (by decide +kernel)⟩⟩,
   ⟨0, (fs [(F.ADC_CFG_EN, 1)]).at_ (10 ^ 9), by decide +kernel⟩,
   ⟨0, (fs []), by decide +kernel⟩,
   ⟨0, 0, 0, 0, 0, (adc0 (fun y => { y with open_ := [0, 19], table := [(0, 0, false)] }) []).at_ (10 ^ 9), by decide +kernel⟩,
   ⟨0, 0, 0, 0, 0, (adc0 (fun y => { y with open_ := [0, 19], table := [(0, 0, true)] }) []).at_ (10 ^ 9), by decide +kernel⟩,
   ⟨0, 0, (adc0 (fun y => { y with open_ := [0, 19], table := [(0, 0, false)] }) []).at_ (10 ^ 9), by decide +kernel⟩,
   ⟨0, 0, 0, (fs []), by decide +kernel⟩,
   ⟨0, (fs [(F.PWM_CFG_EN 0, 1)]), by decide +kernel⟩,
   ⟨0, (fs [(F.PWM_CFG_EN 0, 0)]), by decide +kernel⟩⟩

theorem hyps_LegacyBusCommands :
    (∃ (ad : Nat) (s : State), s.ze40 = false) ∧
    (∃ (ad v : Nat) (s : State), s.ze40 = false) ∧
    (∃ (ad : Nat) (s : State), s.ze40 = true ∧ ad < 0x060 ∧ ad ≠ 0x005 ∧ ad ≠ 0x008 ∧ ad ≠ 0x04C) ∧
    (∃ (ad : Nat) (s : State), s.ze40 = true ∧ 0x060 ≤ ad ∧ ad < 0x200) ∧
    (∃ (s : State), s.ze40 = true) ∧
    (∃ (s : State), s.ze40 = true) ∧
    (∃ (s : State), s.ze40 = true) ∧
    (∃ (ad v : Nat) (s : State), s.ze40 = true ∧ ad < 0x05E ∧ ad ≠ 0x04B ∧ v < 65536 ∧ s.dev ≠ stSlack ∧ s.lg.wfifo.length < 64) ∧
    (∃ (v : Nat) (s : State), s.ze40 = true ∧ v < 65536 ∧ s.dev ≠ stSlack ∧ s.lg.raster.length < 512) ∧
    (∃ (v : Nat) (s : State), s.ze40 = true ∧ v < 65536 ∧ s.dev ≠ stSlack ∧ s.lg.open_ = true) ∧
    (∃ (v : Nat) (s : State), s.ze40 = true ∧ v < 65536 ∧ s.dev ≠ stSlack ∧ v = 0x6904 ∧ s.lg.keyed = true) ∧
    (∃ (v : Nat) (s : State), s.ze40 = true ∧ s.dev ≠ stSlack ∧ v = 0x9640) ∧
    (∃ (s : State), s.ze40 = true ∧ s.dev ≠ stSlack) ∧
    (∃ (b : Bool) (s : State), s.lg.open_ = b) ∧
    (∃ (x : Fin 512) (p o v : Nat) (t s : State), s.ze40 = true ∧ s.lg.open_ = true ∧ s.rd F.ZMIG_CTRL_PAGE = p ∧ s.rd F.ZMIG_CTRL_QTR * 1024 + 2 * x.val = o ∧ o % 4 = 0 ∧ (s.regRead p o = (v, t))) ∧
    (∃ (x : Fin 512) (s : State), s.ze40 = true ∧ s.lg.open_ = false) ∧
    (∃ (x : Fin 512) (v p o : Nat) (s : State), s.ze40 = true ∧ s.lg.open_ = true ∧ s.dev ≠ stSlack ∧ s.rd F.ZMIG_CTRL_PAGE = p ∧ s.rd F.ZMIG_CTRL_QTR * 1024 + 2 * x.val = o ∧ o % 4 = 0 ∧ v < 65536) ∧
    (∃ (x : Fin 512) (v p o : Nat) (s : State), s.ze40 = true ∧ s.lg.open_ = true ∧ s.dev ≠ stSlack ∧ s.rd F.ZMIG_CTRL_PAGE = p ∧ s.rd F.ZMIG_CTRL_QTR * 1024 + 2 * x.val = o ∧ o % 4 = 2 ∧ (s.lg.heldWrite = some (p, o - 2)) ∧ v < 65536) ∧
    (∃ (x : Fin 512) (v : Nat) (s : State), s.lg.open_ = false) ∧
    (∃ (s : State), s.ze40 = true) ∧
    (∃ (k : Fin 4) (b : Bool) (s : State), s.ze40 = false) ∧
    (∃ (k : Fin 4) (s : State), s.ze40 = true) ∧
    (∃ (k : Fin 4) (s : State), s.ze40 = true ∧ s.extPoly k = false) :=
  ⟨⟨0, (fs [(F.DV_INFO_ZE40, 0)]), by decide +kernel⟩,
   ⟨0, 0, (fs [(F.DV_INFO_ZE40, 0)]), by decide +kernel⟩,
   ⟨0, (fs [(F.DV_INFO_ZE40, 1)]), by decide +kernel⟩,
   ⟨0x060, (fs [(F.DV_INFO_ZE40, 1)]), by decide +kernel⟩,
   ⟨(fs [(F.DV_INFO_ZE40, 1)]), by decide +kernel⟩,
   ⟨(fs [(F.DV_INFO_ZE40, 1)]), by decide +kernel⟩,
   ⟨(fs [(F.DV_INFO_ZE40, 1)]), by decide +kernel⟩,
   ⟨0, 0, (fs [(F.DV_INFO_ZE40, 1)]), by decide +kernel⟩,
   ⟨0, (fs [(F.DV_INFO_ZE40, 1)]), by decide +kernel⟩,
   ⟨0, ((fs [(F.DV_INFO_ZE40, 1)]).modLg (fun y => { y with open_ := true })), by decide +kernel⟩,
   ⟨(0x6904), ((fs [(F.DV_INFO_ZE40, 1)]).modLg (fun y => { y with keyed := true })), by decide +kernel⟩,
   ⟨(0x9640), (fs [(F.DV_INFO_ZE40, 1)]), by decide +kernel⟩,
   ⟨(fs [(F.DV_INFO_ZE40, 1)]), by decide +kernel⟩,
   ⟨false, ((fs []).modLg (fun y => { y with open_ := false })), by decide +kernel⟩,
   ⟨0, 0, 0, ((zs (fun y => { y with open_ := true }) []).regRead 0 0).1, ((zs (fun y => { y with open_ := true }) []).regRead 0 0).2, (zs (fun y => { y with open_ := true }) []), ⟨by decide +kernel, by decide +kernel, by decide +kernel, by decide +kernel, by decide +kernel, Prod.ext (by decide +kernel) rfl⟩⟩,
   ⟨0, ((fs [(F.DV_INFO_ZE40, 1)]).modLg (fun y => { y with open_ := false })), by decide +kernel⟩,
   ⟨0, 0, 0, 0, ((fs [(F.DV_INFO_ZE40, 1), (F.ZMIG_CTRL_PAGE, 0)]).modLg (fun y => { y with open_ := true })), by decide +kernel⟩,
   ⟨1, 0, 0, 2, (zs (fun y => { y with open_ := true, heldWrite := some (0, 0) }) []), by decide +kernel⟩,
   ⟨0, 0, ((fs []).modLg (fun y => { y with open_ := false })), by decide +kernel⟩,
   ⟨(fs [(F.DV_INFO_ZE40, 1)]), by decide +kernel⟩,
   ⟨0, false, (fs [(F.DV_INFO_ZE40, 0)]), by decide +kernel⟩,
   ⟨0, (fs [(F.DV_INFO_ZE40, 1)]), by decide +kernel⟩,
   ⟨0, (fs [(F.DV_INFO_ZE40, 1)]), by decide +kernel⟩⟩

theorem hyps_LegacyEmulationCommands :
    (∃ (ad v : Nat), ∃ (r : List (Nat × Nat)), ∃ (s : State), s.zRuns = true ∧ (s.lg.wfifo = (ad, v) :: r)) ∧
    (∃ (s : State), (s.zRuns = false ∨ s.lg.wfifo = [])) ∧
    (∃ (s : State), s.zRuns = true) ∧
    (∃ (s : State), s.zRuns = false) ∧
    (∃ (m : Nat) (s : State), s.ze40 = true) ∧
    (∃ (s : State), s.ze40 = true ∧ s.zWord 0x001 ||| 4 < 65536) ∧
    (∃ (m : Fin 16) (tag : Nat) (s : State), s.ze40 = true ∧ tag < 256) ∧
    (∃ (s : State), s.ze40 = true) ∧
    (∃ (sep : Fin 4) (dma : Bool) (b : Nat) (s : State), s.ze40 = true ∧ b < 128) ∧
    (∃ (s : State), s.ze40 = true) ∧
    (∃ (s : State), s.ze40 = false) ∧
    (∃ (s : State), s.zRuns = true ∧ s.lg.wfifo = []) ∧
    (∃ (m tag : Nat) (s : State), m < 16 ∧ tag < 256) ∧
    (∃ (m tag : Nat) (s : State), s.lg.defs = []) ∧
    (∃ (m tag : Nat) (d : ZDef) (r : List ZDef) (s : State), s.lg.defs = d :: r ∧ d.done &&& m = m ∧ 4 ≤ s.lg.subs.length) ∧
    (∃ (s : State), s.zRuns = true ∧ s.lg.wfifo = []) ∧
    (∃ (w : Nat) (d : ZDef) (r : List Nat) (r' : List ZDef) (s : State), s.lg.raster = w :: r ∧ s.on (zNow F.ZRAS_CTRL_EN) = true ∧ s.lg.defs = r' ++ [d]) ∧
    (∃ (w : Nat) (s : State), s.ze40 = false) ∧
    (∃ (w : Nat) (s : State), s.ze40 = true ∧ s.zChannel = none ∧ s.on (zNow F.ZRAS_CTRL_DMA) = true ∧ s.lg.raster.length < 512 ∧ s.lg.burst ≠ 0) ∧
    (∃ (w : Nat) (s : State), s.ze40 = true ∧ s.zChannel = none ∧ s.on (zNow F.ZRAS_CTRL_DMA) = false) ∧
    (∃ (s : State), s.ze40 = true ∧ s.lg.burst ≠ 0 ∧ s.on (zNow F.ZRAS_CTRL_EN) = true ∧ s.lg.dackAt + 6400 ≤ s.time) ∧
    (∃ (ch : Fin 32) (b : Nat) (s : State), s.ze40 = true ∧ ch ≠ 31 ∧ (s.chan ch).grant = some b ∧ s.rd (F.DC_CFG_REQ ch) = 1 ∧ s.dcState ch = dcActive ∧ (s.chan ch).partner.length < b ∧ (s.chan ch).dackAt + 6400 ≤ s.time) ∧
    (∃ (ch : Fin 32) (s : State), (s.ze40 = false ∨ (ch ≠ 31 ∧ (s.chan ch).grant = none))) ∧
    (∃ (n left : Nat), 0 < n ∧ n < 0x4000) ∧
    (∃ (w left : Nat), w < 0x8000) :=
  ⟨⟨0, 0, [], (zs (fun y => { y with wfifo := [(0, 0)] }) []), by decide +kernel⟩,
   ⟨(fs []), by decide +kernel⟩,
   ⟨(zs id []), by decide +kernel⟩,
   ⟨(fs []), by decide +kernel⟩,
   ⟨0, (fs [(F.DV_INFO_ZE40, 1)]), by decide +kernel⟩,
   ⟨(fs [(F.DV_INFO_ZE40, 1)]), by decide +kernel⟩,
   ⟨0, 0, (fs [(F.DV_INFO_ZE40, 1)]), by decide +kernel⟩,
   ⟨(fs [(F.DV_INFO_ZE40, 1)]), by decide +kernel⟩,
   ⟨0, false, 0, (fs [(F.DV_INFO_ZE40, 1)]), by decide +kernel⟩,
   ⟨(fs [(F.DV_INFO_ZE40, 1)]), by decide +kernel⟩,
   ⟨(fs [(F.DV_INFO_ZE40, 0)]), by decide +kernel⟩,
   ⟨(zs id []), by decide +kernel⟩,
   ⟨0, 0, (fs []), by decide +kernel⟩,
   ⟨0, 0, (fs []), by decide +kernel⟩,
   ⟨0, 0, ⟨1, 0, 0, 0⟩, [], (((fs []).modLg (fun y => { y with defs := ⟨1, 0, 0, 0⟩ :: [] }))).modLg (fun y => { y with subs := List.replicate 4 ⟨0, 0, [], [], []⟩ }), by decide +kernel⟩,
   ⟨(zs id []), by decide +kernel⟩,
   ⟨0, ⟨1, 0, 0, 0⟩, [], [], (((fs [(zNow F.ZRAS_CTRL_EN, 1)]).modLg (fun y => { y with raster := 0 :: [] })).modLg (fun y => { y with defs := [] ++ [⟨1, 0, 0, 0⟩] })), by decide +kernel⟩,
   ⟨0, (fs [(F.DV_INFO_ZE40, 0)]), by decide +kernel⟩,
   ⟨0, ((fs [(F.DV_INFO_ZE40, 1), (zNow F.ZRAS_CTRL_DMA, 1)]).modLg (fun y => { y with burst := (0 + 1) })), by decide +kernel⟩,
   ⟨0, (fs [(F.DV_INFO_ZE40, 1), (zNow F.ZRAS_CTRL_DMA, 0)]), by decide +kernel⟩,
   ⟨(((fs [(F.DV_INFO_ZE40, 1), (zNow F.ZRAS_CTRL_EN, 1)]).modLg (fun y => { y with burst := (0 + 1) })).at_ (10 ^ 15)), by decide +kernel⟩,
   ⟨0, 1, (zs id [(F.DC_CFG_REQ 0, 1), (H.STATE 0x061, dcActive)]).modChan 0 (fun y => { y with grant := some 1 }) |>.at_ (10 ^ 9), by decide +kernel⟩,
   ⟨0, (fs [(F.DV_INFO_ZE40, 0)]), by decide +kernel⟩,
   ⟨1, 0, by decide +kernel⟩,
   ⟨0, 0, by decide +kernel⟩⟩

theorem hyps_FirstFaultLatch :
    (∃ (src page fbit floor : Nat), ∃ (assay : Option (AssayKind × Nat)), ∃ (s : State), src < 256 ∧ floor ≤ 3 ∧ s.sevOf src ≤ 3 ∧ s.on F.FC_FIRST_VALID = false) ∧
    (∃ (src page fbit floor : Nat), ∃ (assay : Option (AssayKind × Nat)), ∃ (s : State), s.on F.FC_FIRST_VALID = true ∧ src < 256 ∧ s.rd F.FC_FIRST_T_HI * 2 ^ 32 + s.rd F.FC_FIRST_T_LO = s.time ∧ src < s.rd F.FC_FIRST_SRC) ∧
    (∃ (src page fbit floor : Nat), ∃ (assay : Option (AssayKind × Nat)), ∃ (s : State), s.on F.FC_FIRST_VALID = true ∧ (s.rd F.FC_FIRST_T_HI * 2 ^ 32 + s.rd F.FC_FIRST_T_LO ≠ s.time ∨ s.rd F.FC_FIRST_SRC ≤ src)) ∧
    (∃ (a : Agent) (s : State), writable s a 0x001 0x044) :=
  ⟨⟨0, 0, 0, 0, none, (fs [(F.FC_FIRST_VALID, 0)]), by decide +kernel⟩,
   ⟨0, 0, 0, 0, none, (fs [(F.FC_FIRST_VALID, 1), (F.FC_FIRST_SRC, 1)]), by decide +kernel⟩,
   ⟨0, 0, 0, 0, none, (fs [(F.FC_FIRST_VALID, 1)]), by decide +kernel⟩,
   ⟨(.berth 0), (fs [(H.OWNER 0x001, 0)]), by decide +kernel⟩⟩

theorem hyps_EncoderResync : ∃ (a : Agent) (e : Fin 8) (s : State), writable s a (encPage e) 0x064 ∧ s.on (H.ISOLATED (encPage e)) = false ∧ s.rd (F.ENC_RAW_COUNT e) < 2 ^ 32 :=
  ⟨(.berth 0), 0, (fs [(H.OWNER (encPage 0), 0), (H.ISOLATED (encPage 0), 0)]), by decide +kernel⟩

theorem hyps_ClosedAddresses : ∃ (ad v : Nat) (s : State), s.ze40 = true ∧ 0x060 ≤ ad ∧ ad ≤ 0x3FF ∧ (ad < 0x200 ∨ s.lg.open_ = false) :=
  ⟨0x060, 0, (fs [(F.DV_INFO_ZE40, 1)]), by decide +kernel⟩

theorem hyps_WordCodes : ∃ (i : Fin 125), 80 ≤ i.val :=
  ⟨80, by decide +kernel⟩

theorem hyps_ControlBounds :
    (∃ (r : LoopRegs) (q : LoopSlot) (c1 c2 : NotchCoef) (x sp out : Int) (fresh : Bool), r.omin ≤ r.omax ∧ r.slew = 0) ∧
    (∃ (r : LoopRegs) (q : LoopSlot) (c1 c2 : NotchCoef) (st : Nat) (x sp out : Int) (fresh : Bool), st ≠ 3 ∧ r.slew ≠ 0) :=
  ⟨⟨lr0, LoopSlot.reset, nc0, nc0, 0, 0, 0, false, by decide +kernel⟩,
   ⟨{ lr0 with slew := 1 }, LoopSlot.reset, nc0, nc0, 0, 0, 0, 0, false, by decide +kernel⟩⟩

theorem hyps_StepKeepsCanonical : ∃ (s t : State), s.canon = true ∧ step s = .next t :=
  ⟨State.reset, State.reset, by decide +kernel, rfl⟩

end Sys2Proof.Tests
end

