-- ==== Sys2Proof/Proofs/EncoderResync.lean ====
section
/-!
PROOFS. RESYNC of an encoder and the forward count that follows it (R321, R322).
-/
namespace Sys2Proof.Machine

variable (s : State)

/-! ### Fields and counts of an encoder -/

/-- Two fields of one page at different bits are different fields. -/
theorem Fld.key_ne {f g : Fld} (hp : g.page = f.page) (h : g.off * 32 + g.lsb ≠ f.off * 32 + f.lsb) : g.key ≠ f.key := by
  simp only [Fld.key, hp]
  omega

@[simp] theorem State.modEnc_encoder (e : Fin 8) (f : Encoder → Encoder) :
    (s.modEnc e f).mo.encoders[e.val] = f s.mo.encoders[e.val] := by
  simp [State.modEnc]

@[simp] theorem diff32_self (r : Nat) : diff32 r r = 0 := by
  have h : (r + 2 ^ 32 - r % 2 ^ 32) % 2 ^ 32 = 0 := by omega
  simp only [diff32, toSigned, h]
  rfl

/-- The count after a count is ahead of it by one, across the wrap of the raw count too. -/
theorem diff32_succ (r : Nat) : diff32 ((r + 1) % 2 ^ 32) r = 1 := by
  have h : ((r + 1) % 2 ^ 32 + 2 ^ 32 - r % 2 ^ 32) % 2 ^ 32 = 1 := by omega
  simp only [diff32, toSigned, h]
  rfl

/-! ### RESYNC (R322) -/

/-- The state after RESYNC of an encoder. -/
def State.resynced (e : Fin 8) (s : State) : State :=
  ((s.wr (F.ENC_BACK_BACKLOG e) 0).wr (F.ENC_BACK_REV e) 0).modEnc e fun q => { q with hi := s.rd (F.ENC_RAW_COUNT e) }

/-- RESYNC writes nothing of its page but the two fields of the word ENC_BACK. -/
theorem State.rd_resynced_ne {e : Fin 8} {f : Fld} (hp : f.page = encPage e) (hb : f.off * 32 + f.lsb ≠ 0x58 * 32)
    (hr : f.off * 32 + f.lsb ≠ 0x58 * 32 + 16) : (s.resynced e).rd f = s.rd f := by
  rw [State.resynced, State.rd_modEnc, State.rd_wr_ne _ (Fld.key_ne hp hr), State.rd_wr_ne _ (Fld.key_ne hp hb)]

@[simp] theorem State.rd_resynced_backlog (e : Fin 8) : (s.resynced e).rd (F.ENC_BACK_BACKLOG e) = 0 := by
  have h : (F.ENC_BACK_BACKLOG e).key ≠ (F.ENC_BACK_REV e).key := Fld.key_ne rfl (by simp [F.ENC_BACK_BACKLOG, F.ENC_BACK_REV])
  simp [State.resynced, State.rd_wr_ne _ h]

@[simp] theorem State.rd_resynced_rev (e : Fin 8) : (s.resynced e).rd (F.ENC_BACK_REV e) = 0 := by
  simp [State.resynced]

@[simp] theorem State.rd_resynced_raw (e : Fin 8) : (s.resynced e).rd (F.ENC_RAW_COUNT e) = s.rd (F.ENC_RAW_COUNT e) :=
  s.rd_resynced_ne rfl (by simp [F.ENC_RAW_COUNT]) (by simp [F.ENC_RAW_COUNT])

@[simp] theorem State.rd_resynced_monoLo (e : Fin 8) : (s.resynced e).rd (F.ENC_MONO_LO e) = s.rd (F.ENC_MONO_LO e) :=
  s.rd_resynced_ne rfl (by simp [F.ENC_MONO_LO]) (by simp [F.ENC_MONO_LO])

@[simp] theorem State.rd_resynced_monoHi (e : Fin 8) : (s.resynced e).rd (F.ENC_MONO_HI e) = s.rd (F.ENC_MONO_HI e) :=
  s.rd_resynced_ne rfl (by simp [F.ENC_MONO_HI]) (by simp [F.ENC_MONO_HI])

@[simp] theorem State.on_resynced_neg (e : Fin 8) : (s.resynced e).on (F.ENC_CFG_NEG e) = s.on (F.ENC_CFG_NEG e) := by
  rw [State.on, s.rd_resynced_ne rfl (by simp [F.ENC_CFG_NEG]) (by simp [F.ENC_CFG_NEG]), State.on]

@[simp] theorem State.on_resynced_isolated (e : Fin 8) :
    (s.resynced e).on (H.ISOLATED (encPage e)) = s.on (H.ISOLATED (encPage e)) := by
  rw [State.on, s.rd_resynced_ne rfl (by simp [H.ISOLATED]) (by simp [H.ISOLATED]), State.on]

@[simp] theorem State.resynced_hi (e : Fin 8) : (s.resynced e).mo.encoders[e.val].hi = s.rd (F.ENC_RAW_COUNT e) := by
  simp [State.resynced]

theorem State.exec_resync {a : Agent} {e : Fin 8} (h : writable s a (encPage e) 0x064) : exec (.resync a e) s = .next (s.resynced e) :=
  congrArg Host.Outcome.next (s.write_ok h _)

/-! ### A forward count with no backlog (R321) -/

/-- The state after a forward count that is a new maximum by one: the raw count and MONO step by one, REV and the backlog are 0. -/
def State.advanced (e : Fin 8) (s : State) : State :=
  let raw := (s.rd (F.ENC_RAW_COUNT e) + 1) % 2 ^ 32
  let mono := (s.rd (F.ENC_MONO_HI e) * 2 ^ 32 + s.rd (F.ENC_MONO_LO e) + 1) % 2 ^ 64
  ((((((s.wr (F.ENC_RAW_COUNT e) raw).modEnc e fun q => { q with r1 := raw, t1 := s.time, counted := true }).wr (F.ENC_MONO_LO e) mono).wr
    (F.ENC_MONO_HI e) (mono / 2 ^ 32)).wr (F.ENC_BACK_REV e) 0).modEnc e fun q =>
      { q with hi := raw, track := (s.time, mono) :: recentCounts s.time q.track }).wr (F.ENC_BACK_BACKLOG e) 0

theorem State.encCount_advanced {e : Fin 8} (h : s.mo.encoders[e].hi = s.rd (F.ENC_RAW_COUNT e)) : s.encCount e true = s.advanced e := by
  have hup : diff32 ((s.rd (F.ENC_RAW_COUNT e) + 1) % 2 ^ 32) s.mo.encoders[e.val].hi = 1 := h ▸ diff32_succ _
  simp only [State.encCount, State.advanced, if_true, Fin.getElem_fin, hup, Int.zero_lt_one, Int.toNat_one, State.modEnc_encoder,
    diff32_self, Int.toNat_zero, Nat.zero_min]

theorem State.exec_encoderCount {e : Fin 8} (h : s.on (H.ISOLATED (encPage e)) = false) (aLeads : Bool) :
    exec (.encoderCount e aLeads false) s = .next (s.encCount e (aLeads != s.on (F.ENC_CFG_NEG e))) := by
  change execEncoderCount e aLeads false s = _
  simp [execEncoderCount, h]

theorem State.exec_encoderCount_forward {e : Fin 8} (hi : s.on (H.ISOLATED (encPage e)) = false)
    (h : s.mo.encoders[e].hi = s.rd (F.ENC_RAW_COUNT e)) :
    exec (.encoderCount e (!s.on (F.ENC_CFG_NEG e)) false) s = .next (s.advanced e) := by
  rw [s.exec_encoderCount hi, Bool.not_bne_self, s.encCount_advanced h]

/-- After MONO's low word a forward count writes its high word and ENC_BACK, which lie elsewhere on the page. -/
theorem State.rd_advanced_monoLo (e : Fin 8) : (s.advanced e).rd (F.ENC_MONO_LO e) =
    (s.rd (F.ENC_MONO_HI e) * 2 ^ 32 + s.rd (F.ENC_MONO_LO e) + 1) % 2 ^ 64 % 2 ^ 32 := by
  have hb : (F.ENC_MONO_LO e).key ≠ (F.ENC_BACK_BACKLOG e).key := Fld.key_ne rfl (by simp [F.ENC_MONO_LO, F.ENC_BACK_BACKLOG])
  have hr : (F.ENC_MONO_LO e).key ≠ (F.ENC_BACK_REV e).key := Fld.key_ne rfl (by simp [F.ENC_MONO_LO, F.ENC_BACK_REV])
  have hh : (F.ENC_MONO_LO e).key ≠ (F.ENC_MONO_HI e).key := Fld.key_ne rfl (by simp [F.ENC_MONO_LO, F.ENC_MONO_HI])
  rw [State.advanced, State.rd_wr_ne _ hb, State.rd_modEnc, State.rd_wr_ne _ hr, State.rd_wr_ne _ hh, State.rd_wr]
  rfl

theorem State.rd_advanced_monoHi (e : Fin 8) : (s.advanced e).rd (F.ENC_MONO_HI e) =
    (s.rd (F.ENC_MONO_HI e) * 2 ^ 32 + s.rd (F.ENC_MONO_LO e) + 1) % 2 ^ 64 / 2 ^ 32 % 2 ^ 32 := by
  have hb : (F.ENC_MONO_HI e).key ≠ (F.ENC_BACK_BACKLOG e).key := Fld.key_ne rfl (by simp [F.ENC_MONO_HI, F.ENC_BACK_BACKLOG])
  have hr : (F.ENC_MONO_HI e).key ≠ (F.ENC_BACK_REV e).key := Fld.key_ne rfl (by simp [F.ENC_MONO_HI, F.ENC_BACK_REV])
  rw [State.advanced, State.rd_wr_ne _ hb, State.rd_modEnc, State.rd_wr_ne _ hr, State.rd_wr]
  rfl

/-- Settles O53: RESYNC makes the raw count the highest one, so the next forward count is a new maximum by one and MONO advances by it. -/
theorem encoderResync : Obligations.EncoderResync := by
  intro a e s hw hiso _
  refine ⟨s.resynced e, s.exec_resync hw, s.resynced_hi e, s.rd_resynced_raw e, s.rd_resynced_backlog e, s.rd_resynced_rev e,
    s.rd_resynced_monoLo e, s.rd_resynced_monoHi e, (s.resynced e).advanced e, ?_, ?_, ?_⟩
  · rw [← s.on_resynced_neg e]
    exact (s.resynced e).exec_encoderCount_forward (by rw [s.on_resynced_isolated, hiso]) (by simp)
  · rw [State.rd_advanced_monoLo, s.rd_resynced_monoLo, s.rd_resynced_monoHi]
  · rw [State.rd_advanced_monoHi, s.rd_resynced_monoLo, s.rd_resynced_monoHi]

end Sys2Proof.Machine
end

