-- ==== Sys2Proof/Proofs/FirstFaultLatch.lean ====
section
/-!
PROOFS. The first-fault latch (R429), with the order of two raises of one tick (Table 17.9 of R448).  A raise does much else, but
writes the words FC_FIRST and FC_FIRST_T nowhere but in `State.firstLatch`.
-/
namespace Sys2Proof.Machine

variable (s : State)

/-! ### The words of the first fault -/

/-- A field of FC_FIRST, FC_FIRST_T_LO or FC_FIRST_T_HI: bits 0 to 31 of the words 0x044 to 0x04C of page 0x001. -/
abbrev inFirst (f : Fld) : Prop := 0x1044 * 32 ≤ f.key ∧ f.key < 0x1050 * 32

/-- The header of a page ends below its own registers. -/
theorem not_inFirst_of_header {g : Fld} (ho : g.off < 0x40) (hl : g.lsb < 32) : ¬ inFirst g := by
  simp only [inFirst, Fld.key]
  omega

/-- The words of the fault collector from FC_STATE on. -/
theorem not_inFirst_of_collector {g : Fld} (hp : g.page = 0x001) (ho : 0x50 ≤ g.off) : ¬ inFirst g := by
  simp only [inFirst, Fld.key, hp]
  omega

theorem key_ne_of_inFirst {f g : Fld} (hf : inFirst f) (hg : ¬ inFirst g) : f.key ≠ g.key := fun h => hg (by
  rwa [inFirst, ← h])

theorem notPba_of_inFirst {f : Fld} (hf : inFirst f) : notPba f := fun w => key_ne_of_inFirst hf (by
  simp only [inFirst, Fld.key, F.MSIX_PBA]
  omega)

/-! ### Updates that leave a field of the first fault alone -/

section
variable {f : Fld} (hf : inFirst f)
include hf

theorem State.rdFirst_wr {g : Fld} (hg : ¬ inFirst g) (v : Nat) : (s.wr g v).rd f = s.rd f := s.rd_wr_ne (key_ne_of_inFirst hf hg) v

theorem State.rdFirst_sat {g : Fld} (hg : ¬ inFirst g) : (s.sat g).rd f = s.rd f := s.rdFirst_wr hf hg _

theorem State.rdFirst_inc {g : Fld} (hg : ¬ inFirst g) : (s.inc g).rd f = s.rd f := s.rdFirst_wr hf hg _

theorem State.rdFirst_srcSet {g : Nat → Fld} (hg : ∀ w, ¬ inFirst (g w)) (src : Nat) : (s.srcSet g src).rd f = s.rd f :=
  s.rdFirst_wr hf (hg _) _

theorem State.rdFirst_event (p i : Nat) : (s.event p i).rd f = s.rd f :=
  s.rd_event (notPba_of_inFirst hf) (key_ne_of_inFirst hf (not_inFirst_of_header (by simp [H.EVT]) (by simp [H.EVT]))) i

theorem State.rdFirst_fltBit (p i : Nat) : (s.fltBit p i).rd f = s.rd f :=
  s.rd_fltBit (notPba_of_inFirst hf) (key_ne_of_inFirst hf (not_inFirst_of_header (by simp [H.FLT]) (by simp [H.FLT])))
    (key_ne_of_inFirst hf (not_inFirst_of_header (by simp [H.FIRST]) (by simp [H.FIRST]))) i

/-- The sticky and unacknowledged bits, the two counts and the page's fault bit (R428). -/
theorem State.rdFirst_latchBits (src page fbit : Nat) (assay : Option (AssayKind × Nat)) :
    (s.latchBits src page fbit assay).rd f = s.rd f := by
  have hs : ∀ w, ¬ inFirst (F.FC_STICKY w) := fun w => not_inFirst_of_collector rfl (by simp only [F.FC_STICKY]; omega)
  have hu : ∀ w, ¬ inFirst (F.FC_UNACK w) := fun w => not_inFirst_of_collector rfl (by simp only [F.FC_UNACK]; omega)
  have hr : ¬ inFirst (F.FC_SRC_RAISES src) := not_inFirst_of_collector rfl (by simp only [F.FC_SRC_RAISES]; omega)
  calc (s.latchBits src page fbit assay).rd f
      = (((((s.srcSet F.FC_STICKY src).srcSet F.FC_UNACK src).sat (F.FC_SRC_RAISES src)).inc F.FC_CNT_RAISES).fltBit page fbit).rd f := rfl
    _ = s.rd f := by
      rw [State.rdFirst_fltBit _ hf, State.rdFirst_inc _ hf (by decide), State.rdFirst_sat _ hf hr, State.rdFirst_srcSet _ hf hu,
        State.rdFirst_srcSet _ hf hs]

theorem State.rdFirst_countMerged (src : Nat) : ((s.sat (F.FC_STATS_MERGED src)).event 0x001 2).rd f = s.rd f := by
  rw [State.rdFirst_event _ hf,
    s.rdFirst_sat hf (not_inFirst_of_collector rfl (by simp only [F.FC_STATS_MERGED]; omega))]

theorem State.rdFirst_countEscalated : ((s.sat F.FC_CNT_ESCALATED).event 0x001 1).rd f = s.rd f := by
  rw [State.rdFirst_event _ hf, s.rdFirst_sat hf (by decide)]

theorem State.rdFirst_feedStop (src : Nat) : (s.feedStop src).rd f = s.rd f := by
  unfold State.feedStop State.ifDo
  split
  · exact s.rdFirst_wr hf (by decide) 0
  · rfl

end

/-! ### Merge windows and escalation -/

theorem State.rd_assayWindow (src sev page : Nat) (assay : Option (AssayKind × Nat)) (f : Fld) :
    (s.assayWindow src sev page assay).rd f = s.rd f := by
  unfold State.assayWindow State.ifDo
  repeat' split
  all_goals rfl

theorem State.rd_mergeInto (c : Fin 16) (sev : Nat) (f : Fld) : (s.mergeInto c sev).rd f = s.rd f := by
  unfold State.mergeInto
  repeat' split
  all_goals rfl

/-- A field that no update of a list changes. -/
theorem State.rd_each {α : Type} {f : Fld} {g : α → State → State} (h : ∀ a t, (g a t).rd f = t.rd f) (l : List α) :
    (s.each l g).rd f = s.rd f := by
  induction l generalizing s with
  | nil => rfl
  | cons a r ih => exact (ih (g a s)).trans (h a s)

theorem State.rd_ifDo {f : Fld} {g : State → State} (h : (g s).rd f = s.rd f) (c : Bool) : (s.ifDo c g).rd f = s.rd f := by
  cases c
  · rfl
  · exact h

theorem State.rdFirst_escalateHigher {f : Fld} (hf : inFirst f) (src page : Nat) : (s.escalateHigher src page).rd f = s.rd f := by
  unfold State.escalateHigher
  split
  · rfl
  · refine s.rd_each (fun r t => ?_) _
    dsimp only
    exact (State.rd_ifDo _ (State.rd_assayWindow ..) _).trans (t.rdFirst_countEscalated hf)

/-! ### What the latch does -/

@[simp] theorem State.latchBits_time (src page fbit : Nat) (assay : Option (AssayKind × Nat)) :
    (s.latchBits src page fbit assay).time = s.time := by
  simp [State.latchBits, State.srcSet]

/-- The severity a raise is latched with: the one it is handled at, or in a merge window its programmed one with the floor. -/
def State.latchedSev (src page floor : Nat) (assay : Option (AssayKind × Nat)) (s : State) : Nat :=
  if s.merges (classOf src) src assay then max (s.sevOf src) floor else s.handled src page floor

/-- Programmed severities and floors are at most 3, and escalation adds one level. -/
theorem State.latchedSev_lt {src floor : Nat} (hsev : s.sevOf src ≤ 3) (hfloor : floor ≤ 3) (page : Nat)
    (assay : Option (AssayKind × Nat)) : s.latchedSev src page floor assay < 2 ^ 3 := by
  have hb : b2n (s.escalated src page) ≤ 1 := by cases s.escalated src page <;> decide
  unfold State.latchedSev State.handled
  repeat' split
  all_goals omega

/-- Counts, events, FEEDSTOP, windows and escalation follow the latch and leave its words as it wrote them. -/
theorem State.rd_latch {f : Fld} (hf : inFirst f) (src page fbit floor : Nat) (assay : Option (AssayKind × Nat)) :
    (s.latch src page fbit floor assay).rd f =
      ((s.latchBits src page fbit assay).firstLatch src (s.latchedSev src page floor assay)).rd f := by
  unfold State.latch State.latchedSev
  dsimp only
  split
  · exact (State.rd_mergeInto ..).trans (State.rdFirst_countMerged _ hf src)
  · exact (State.rdFirst_escalateHigher _ hf src page).trans <| (State.rd_assayWindow ..).trans <|
      (State.rdFirst_feedStop _ hf src).trans (State.rd_ifDo _ (State.rdFirst_countEscalated _ hf) _)

theorem State.firstLatch_of_invalid {src sev : Nat} (h : s.on F.FC_FIRST_VALID = false) : s.firstLatch src sev =
    (((((s.wr F.FC_FIRST_SRC src).wr F.FC_FIRST_SEV sev).wr F.FC_FIRST_T_LO s.time).wr F.FC_FIRST_T_HI
      (s.time / 2 ^ 32)).wr F.FC_FIRST_VALID 1).event 0x001 0 := by
  simp [State.firstLatch, h]

theorem State.firstLatch_of_lower {src sev : Nat} (h : s.on F.FC_FIRST_VALID = true)
    (ht : s.rd F.FC_FIRST_T_HI * 2 ^ 32 + s.rd F.FC_FIRST_T_LO = s.time) (hl : src < s.rd F.FC_FIRST_SRC) :
    s.firstLatch src sev = ((s.wr F.FC_FIRST_OVF 1).wr F.FC_FIRST_SRC src).wr F.FC_FIRST_SEV sev := by
  simp only [State.firstLatch, h, ht, hl, and_self, if_true]

theorem State.firstLatch_of_later {src sev : Nat} (h : s.on F.FC_FIRST_VALID = true)
    (hk : s.rd F.FC_FIRST_T_HI * 2 ^ 32 + s.rd F.FC_FIRST_T_LO ≠ s.time ∨ s.rd F.FC_FIRST_SRC ≤ src) :
    s.firstLatch src sev = s.wr F.FC_FIRST_OVF 1 := by
  have hn : ¬ (s.rd F.FC_FIRST_T_HI * 2 ^ 32 + s.rd F.FC_FIRST_T_LO = s.time ∧ src < s.rd F.FC_FIRST_SRC) := by omega
  simp only [State.firstLatch, h, hn, if_true, if_false]

/-! ### A raise and the latch (R429, Table 17.9) -/

section
variable (src page fbit floor : Nat) (assay : Option (AssayKind × Nat))

theorem State.on_latchBits_valid : (s.latchBits src page fbit assay).on F.FC_FIRST_VALID = s.on F.FC_FIRST_VALID := by
  rw [State.on, s.rdFirst_latchBits (by decide), State.on]

/-- With VALID 0 a raise is latched, and OVF stays. -/
theorem State.latch_of_invalid (h : s.on F.FC_FIRST_VALID = false) :
    (s.latch src page fbit floor assay).rd F.FC_FIRST_SRC = src % 2 ^ 8 ∧
    (s.latch src page fbit floor assay).rd F.FC_FIRST_SEV = s.latchedSev src page floor assay % 2 ^ 3 ∧
    (s.latch src page fbit floor assay).rd F.FC_FIRST_T_LO = s.time % 2 ^ 32 ∧
    (s.latch src page fbit floor assay).rd F.FC_FIRST_T_HI = s.time / 2 ^ 32 % 2 ^ 32 ∧
    (s.latch src page fbit floor assay).rd F.FC_FIRST_VALID = 1 ∧
    (s.latch src page fbit floor assay).rd F.FC_FIRST_OVF = s.rd F.FC_FIRST_OVF := by
  have hv := (s.on_latchBits_valid src page fbit assay).trans h
  simp (disch := decide) only [State.rd_latch, State.firstLatch_of_invalid _ hv, State.rdFirst_event, State.latchBits_time,
    State.rd_wr_ne, State.rd_wr, State.rdFirst_latchBits, and_true]
  exact ⟨rfl, rfl, rfl, rfl, rfl⟩

/-- Of two raises of one tick the lower source is latched. -/
theorem State.latch_of_lower (h : s.on F.FC_FIRST_VALID = true)
    (ht : s.rd F.FC_FIRST_T_HI * 2 ^ 32 + s.rd F.FC_FIRST_T_LO = s.time) (hl : src < s.rd F.FC_FIRST_SRC) :
    (s.latch src page fbit floor assay).rd F.FC_FIRST_OVF = 1 ∧
    (s.latch src page fbit floor assay).rd F.FC_FIRST_SRC = src % 2 ^ 8 := by
  have hlatch : ∀ sev, (s.latchBits src page fbit assay).firstLatch src sev = _ := fun sev =>
    State.firstLatch_of_lower _ ((s.on_latchBits_valid src page fbit assay).trans h)
      (by simpa (disch := decide) only [State.rdFirst_latchBits, State.latchBits_time] using ht)
      (by simpa (disch := decide) only [State.rdFirst_latchBits] using hl)
  simp (disch := decide) only [State.rd_latch, hlatch, State.rd_wr_ne, State.rd_wr]
  exact ⟨rfl, rfl⟩

/-- A raise of a later tick, or of a source that is not lower, sets OVF and changes no other field of the first fault. -/
theorem State.rd_latch_of_later (h : s.on F.FC_FIRST_VALID = true)
    (hk : s.rd F.FC_FIRST_T_HI * 2 ^ 32 + s.rd F.FC_FIRST_T_LO ≠ s.time ∨ s.rd F.FC_FIRST_SRC ≤ src) {f : Fld} (hf : inFirst f) :
    (s.latch src page fbit floor assay).rd f = ((s.latchBits src page fbit assay).wr F.FC_FIRST_OVF 1).rd f := by
  rw [s.rd_latch hf, State.firstLatch_of_later _ ((s.on_latchBits_valid src page fbit assay).trans h)
    (by simpa (disch := decide) only [State.rdFirst_latchBits, State.latchBits_time] using hk)]

end

/-- CLR clears VALID and OVF. -/
theorem State.exec_firstClr {a : Agent} (h : writable s a 0x001 0x044) :
    exec (.firstClr a) s = .next ((s.wr F.FC_FIRST_VALID 0).wr F.FC_FIRST_OVF 0) :=
  congrArg Host.Outcome.next (s.write_ok h _)

/-- Settles O52: a raise writes the words of the first fault in the latch alone, and the latch has one case for VALID 0, one for a
lower source of the latched tick and one for every other raise. -/
theorem firstFaultLatch : Obligations.FirstFaultLatch := by
  refine ⟨?_, ?_, ?_, fun a s h => s.exec_firstClr h⟩
  · intro src page fbit floor assay s hsrc hfloor hsev hv
    obtain ⟨hSrc, hSev, hrest⟩ := s.latch_of_invalid src page fbit floor assay hv
    exact ⟨hSrc.trans (Nat.mod_eq_of_lt hsrc), hSev.trans (Nat.mod_eq_of_lt (s.latchedSev_lt hsev hfloor page assay)), hrest⟩
  · intro src page fbit floor assay s hv hsrc ht hl
    obtain ⟨hOvf, hSrc⟩ := s.latch_of_lower src page fbit floor assay hv ht hl
    exact ⟨hOvf, hSrc.trans (Nat.mod_eq_of_lt hsrc)⟩
  · intro src page fbit floor assay s hv hk
    simp (disch := decide) only [s.rd_latch_of_later src page fbit floor assay hv hk, State.rd_wr, State.rd_wr_ne,
      State.rdFirst_latchBits, and_true]
    rfl

end Sys2Proof.Machine
end

