-- ==== Sys2Proof/Proofs/ClosedAddresses.lean ====
section
/-!
PROOFS. The closed word addresses of the ZE-40 host bus (R483): above the registers, and outside an open migration window.
-/
namespace Sys2Proof.Machine

variable (s : State)

/-- The bus's test for the migration window fails below 0x200, and everywhere while the window is closed (R494). -/
theorem State.windowTest_false {a : Nat} (hc : a < 0x200 ∨ s.lg.open_ = false) :
    (s.lg.open_ && decide (0x200 ≤ a) && decide (a < 0x400)) = false := by
  obtain hlow | hclosed := hc
  · simp [Nat.not_le.mpr hlow]
  · simp [hclosed]

theorem State.zRead_of_closed {a : Nat} (hz : s.ze40 = true) (ha : 0x060 ≤ a) (hc : a < 0x200 ∨ s.lg.open_ = false) :
    s.zRead a = s.emit (.legacyData 0xFFFF) := by
  simp [State.zRead, hz, Nat.not_lt.mpr ha, s.windowTest_false hc]

theorem State.zWrite_of_closed {a : Nat} (v : Nat) (hz : s.ze40 = true) (ha : 0x060 ≤ a) (hc : a < 0x200 ∨ s.lg.open_ = false) :
    s.zWrite a v = s := by
  simp [State.zWrite, hz, Nat.not_lt.mpr ha, s.windowTest_false hc]

/-- The bus has ten address lines, so a word address up to 0x3FF is read as it stands. -/
theorem State.exec_legacyRead {a : Nat} (h : a ≤ 0x3FF) : exec (.legacyRead a) s = .next (s.zRead a) := by
  change execLegacyRead a s = _
  rw [execLegacyRead, Nat.mod_eq_of_lt (Nat.lt_succ_of_le h)]

theorem State.exec_legacyWrite {a : Nat} (h : a ≤ 0x3FF) (v : Nat) :
    exec (.legacyWrite a v) s = .next (s.zWrite a (v % 65536)) := by
  change execLegacyWrite a v s = _
  rw [execLegacyWrite, Nat.mod_eq_of_lt (Nat.lt_succ_of_le h)]

/-- Settles O54: a closed address is no register and misses the window, so the bus answers 0xFFFF and drops a write. -/
theorem closedAddresses : Obligations.ClosedAddresses := by
  intro ad v s hz hlo hhi hc
  constructor
  · rw [s.exec_legacyRead hhi, s.zRead_of_closed hz hlo hc]
  · rw [s.exec_legacyWrite hhi, s.zWrite_of_closed _ hz hlo hc]

end Sys2Proof.Machine
end

