-- ==== Sys2Proof/Proofs/OwnerChanges.lean ====
section
/-!
PROOFS. PG_CTRL.OWNER: who may write it, when a DMA channel takes the write, and whom the page answers to afterwards (R502, R503).
-/
namespace Sys2Proof.Machine

variable (s : State)

/-! ### The guard of a write that is open whatever the page's owner -/

/-- The owner of the page does not stop such a write: an unlocked page with a block takes it outside SAFE. -/
theorem State.guarded_freeOwner {a : Agent} {p off : Nat} (hpage : s.absentPage p = false) (hsafe : s.isSafe = false)
    (hlock : s.on (H.LOCK p) = false) (hwake : a = .host → s.dev ≠ stSlack) (k : State → State) :
    s.guarded a p off true false false k = k s := by
  simp [State.guarded, s.wake_eq hwake, hpage, hsafe, hlock]

/-- A write that would only be counted is counted by the guard too, so SAFE and LOCK make no difference to it. -/
theorem State.guarded_countDenied {a : Agent} {p off : Nat} (hpage : s.absentPage p = false) (hwake : a = .host → s.dev ≠ stSlack)
    (freeOwner inLock inSafe : Bool) {k : State → State} (hk : k s = s.countDenied a p off) :
    s.guarded a p off freeOwner inLock inSafe k = s.countDenied a p off := by
  simp only [State.guarded, s.wake_eq hwake, hpage, hk, Bool.false_eq_true, if_false, ite_self]

/-! ### The holder of role 0x0 -/

theorem State.supervisor_berth (n : Fin 12) :
    s.supervisor (.berth n) = true ↔ s.role n = 0 ∧ berthRuns (s.rd (H.STATE (0x008 + n.val))) = true := by
  simp [State.supervisor]

/-- Only a berth holds a role. -/
theorem State.ne_host_of_supervisor {a : Agent} (h : s.supervisor a = true) : a ≠ .host := by
  rintro rfl
  exact Bool.false_ne_true h

/-! ### The write of OWNER (R503) -/

theorem State.ownerWrite_of_notDma {p : Nat} (hp : p < 0x061 ∨ 0x080 < p) (host : Bool) :
    s.ownerWrite p host = s.wr (H.OWNER p) (b2n host) :=
  if_neg fun ⟨hlo, hhi, _⟩ => by omega

theorem State.ownerWrite_of_resting {p : Nat} (h : s.rd (H.STATE p) = dcIdle ∨ s.rd (H.STATE p) = dcHalted) (host : Bool) :
    s.ownerWrite p host = s.wr (H.OWNER p) (b2n host) :=
  if_neg fun ⟨_, _, hidle, hhalted⟩ => h.elim hidle hhalted

theorem State.ownerWrite_of_running {p : Nat} (hlo : 0x061 ≤ p) (hhi : p ≤ 0x080) (hidle : s.rd (H.STATE p) ≠ dcIdle)
    (hhalted : s.rd (H.STATE p) ≠ dcHalted) (host : Bool) : s.ownerWrite p host = (s.mark p 57).wr (H.ACCESS_BUSY p) 1 :=
  if_pos ⟨hlo, hhi, hidle, hhalted⟩

theorem State.exec_ownerChange_supervisor {a : Agent} {p : Nat} (hpage : s.absentPage p = false) (hsafe : s.isSafe = false)
    (hlock : s.on (H.LOCK p) = false) (hsup : s.supervisor a = true) (host : Bool) :
    exec (.ownerChange a p host) s = .next (s.ownerWrite p host) :=
  congrArg Host.Outcome.next <|
    (s.guarded_freeOwner hpage hsafe hlock (fun ha => absurd ha (s.ne_host_of_supervisor hsup)) _).trans (if_pos hsup)

theorem State.exec_ownerChange_other {a : Agent} {p : Nat} (hpage : s.absentPage p = false) (hsup : s.supervisor a = false)
    (hwake : a = .host → s.dev ≠ stSlack) (host : Bool) : exec (.ownerChange a p host) s = .next (s.countDenied a p 0x004) :=
  congrArg Host.Outcome.next <| s.guarded_countDenied hpage hwake _ _ _ (if_neg (Bool.eq_false_iff.mp hsup))

/-! ### The owner and who may write the page (R502) -/

@[simp] theorem State.on_wr_owner (p : Nat) (host : Bool) : (s.wr (H.OWNER p) (b2n host)).on (H.OWNER p) = host := by
  cases host <;> simp [State.on, H.OWNER, b2n]

theorem State.mayWrite_berth_of_hostOwned {p : Nat} (h : s.on (H.OWNER p) = true) (n : Fin 12) (off : Nat) :
    s.mayWrite (.berth n) p off = false := by
  simp [State.mayWrite, h]

theorem State.mayWrite_host (p off : Nat) : s.mayWrite .host p off = s.on (H.OWNER p) := rfl

/-- Settles O5: the guard lets the holder of role 0x0 past every owner, so what a write does is `State.ownerWrite`'s three cases; any
other agent is counted; and the right to write reads the bit that was written. -/
theorem ownerChanges : Obligations.OwnerChanges := by
  refine ⟨?notDma, ?resting, ?running, ?other, fun n s => s.supervisor_berth n, ?newOwner⟩
  case notDma =>
    intro a p host s hpage hsafe hlock hsup hp
    rw [s.exec_ownerChange_supervisor hpage hsafe hlock hsup, s.ownerWrite_of_notDma hp]
  case resting =>
    intro a p host s hpage hsafe hlock hsup _ _ hstate
    rw [s.exec_ownerChange_supervisor hpage hsafe hlock hsup, s.ownerWrite_of_resting hstate]
  case running =>
    intro a p host s hpage hsafe hlock hsup hlo hhi hidle hhalted
    rw [s.exec_ownerChange_supervisor hpage hsafe hlock hsup, s.ownerWrite_of_running hlo hhi hidle hhalted]
  case other =>
    intro a p host s hpage hsup hwake
    exact s.exec_ownerChange_other hpage hsup hwake host
  case newOwner =>
    intro p off n s
    have hhost := s.on_wr_owner p true
    have hfirmware := s.on_wr_owner p false
    exact ⟨State.mayWrite_berth_of_hostOwned _ hhost n off, (State.mayWrite_host _ p off).trans hhost,
      (State.mayWrite_host _ p off).trans hfirmware⟩

end Sys2Proof.Machine
end

