-- ==== Sys2Proof/Proofs/CanonicalBase.lean ====
section
/-!
PROOFS. Every operation of the state, the register pages and the blocks keeps the canonical form.
-/
namespace Sys2Proof.Machine

variable {s : State}

/-- The canonical form of a state, as the four facts `State.canon` tests. -/
structure State.Canonical (s : State) : Prop where
  mem : Memory.wf s.mem = true
  regs : Sparse.sorted s.regs = true
  stg : Sparse.sorted s.stg = true
  hold : Sparse.sorted s.hold = true

/-- A meaning ends in a next state, which is canonical where `s` is. -/
def Ends (s : State) (r : Result) : Prop := ∃ t, r = .next t ∧ (s.Canonical → t.Canonical)

variable {t : State}

theorem Ends.next (h : s.Canonical → t.Canonical) : Ends s (.next t) := ⟨t, rfl, h⟩

theorem State.Canonical.ite {c : Prop} [Decidable c] (hs : s.Canonical) (ht : t.Canonical) :
    (if c then s else t).Canonical := by
  split <;> assumption

theorem State.Canonical.set_time {v} (h : s.Canonical) : ({ s with time := v } : State).Canonical := { h with }

theorem State.Canonical.set_free {v} (h : s.Canonical) : ({ s with free := v } : State).Canonical := { h with }

theorem State.Canonical.set_fresh {v} (h : s.Canonical) : ({ s with fresh := v } : State).Canonical := { h with }

theorem State.Canonical.set_mu {v} (h : s.Canonical) : ({ s with mu := v } : State).Canonical := { h with }

theorem State.Canonical.set_out {v} (h : s.Canonical) : ({ s with out := v } : State).Canonical := { h with }

theorem State.Canonical.set_faultN {v} (h : s.Canonical) : ({ s with faultN := v } : State).Canonical := { h with }

theorem State.Canonical.set_rstN {v} (h : s.Canonical) : ({ s with rstN := v } : State).Canonical := { h with }

theorem State.Canonical.set_pfwN {v} (h : s.Canonical) : ({ s with pfwN := v } : State).Canonical := { h with }

theorem State.Canonical.set_fc {v} (h : s.Canonical) : ({ s with fc := v } : State).Canonical := { h with }

theorem State.Canonical.set_berths {v} (h : s.Canonical) : ({ s with berths := v } : State).Canonical := { h with }

theorem State.Canonical.set_boot {v} (h : s.Canonical) : ({ s with boot := v } : State).Canonical := { h with }

theorem State.Canonical.set_seq {v} (h : s.Canonical) : ({ s with seq := v } : State).Canonical := { h with }

theorem State.Canonical.set_clocks {v} (h : s.Canonical) : ({ s with clocks := v } : State).Canonical := { h with }

theorem State.Canonical.set_tl {v} (h : s.Canonical) : ({ s with tl := v } : State).Canonical := { h with }

theorem State.Canonical.set_quay {v} (h : s.Canonical) : ({ s with quay := v } : State).Canonical := { h with }

theorem State.Canonical.set_ed {v} (h : s.Canonical) : ({ s with ed := v } : State).Canonical := { h with }

theorem State.Canonical.set_dma {v} (h : s.Canonical) : ({ s with dma := v } : State).Canonical := { h with }

theorem State.Canonical.set_mo {v} (h : s.Canonical) : ({ s with mo := v } : State).Canonical := { h with }

theorem State.Canonical.set_ct {v} (h : s.Canonical) : ({ s with ct := v } : State).Canonical := { h with }

theorem State.Canonical.set_sta {v} (h : s.Canonical) : ({ s with sta := v } : State).Canonical := { h with }

theorem State.Canonical.set_lg {v} (h : s.Canonical) : ({ s with lg := v } : State).Canonical := { h with }

theorem State.Canonical.set_pending {v} (h : s.Canonical) : ({ s with pending := v } : State).Canonical := { h with }

theorem State.Canonical.of_eq {α : Type} {x : α × State} {a : α} (h : x.2.Canonical) (e : x = (a, t)) : t.Canonical :=
  by
  rwa [e] at h

theorem State.Canonical.of_eq₂ {α β : Type} {x : α × β × State} {a : α} {b : β} (h : x.2.2.Canonical)
    (e : x = (a, b, t)) : t.Canonical := by
  rwa [e] at h

/-! ### What Machine/Ops.lean defines -/

theorem State.Canonical.wr {f v} (h : s.Canonical) : (s.wr f v).Canonical :=
  { h with regs := State.sorted_wr f v h.regs }

theorem State.Canonical.wrS {f v} (h : s.Canonical) : (s.wrS f v).Canonical := h.wr

theorem State.Canonical.flag {f b} (h : s.Canonical) : (s.flag f b).Canonical := h.wr

theorem State.Canonical.satAdd {f n} (h : s.Canonical) : (s.satAdd f n).Canonical := h.wr

theorem State.Canonical.sat {f} (h : s.Canonical) : (s.sat f).Canonical := h.satAdd

theorem State.Canonical.inc {f} (h : s.Canonical) : (s.inc f).Canonical := h.wr

theorem State.Canonical.stgWr {f v} (h : s.Canonical) : (s.stgWr f v).Canonical :=
  { h with stg := State.sorted_stgWr f v h.stg }

theorem State.Canonical.each {α : Type} {l : List α} {f : α → State → State} (h : s.Canonical)
    (hf : ∀ a t, t.Canonical → (f a t).Canonical) : (s.each l f).Canonical := by
  induction l generalizing s with
  | nil => exact h
  | cons a r ih => exact ih (hf a s h)

theorem State.Canonical.ifDo {c f} (h : s.Canonical) (hf : ∀ t, t.Canonical → (f t).Canonical) :
    (s.ifDo c f).Canonical :=
  .ite (hf _ h) h

theorem State.Canonical.emit {o} (h : s.Canonical) : (s.emit o).Canonical := { h with }

theorem State.Canonical.freeNext (h : s.Canonical) : s.freeNext.Canonical := { h with }

theorem State.Canonical.msix {v} (h : s.Canonical) : (s.msix v).Canonical := .ite h.wr h.emit

theorem State.Canonical.notify {p evt} (h : s.Canonical) : (s.notify p evt).Canonical :=
  .ite (.ite h.msix (.ite h.msix h)) h.emit

theorem State.Canonical.mark {p b} (h : s.Canonical) : (s.mark p b).Canonical := { h with }

theorem State.Canonical.event {p i} (h : s.Canonical) : (s.event p i).Canonical :=
  .ifDo h.mark.wr (fun _ ht => ht.notify)

theorem State.Canonical.fltFirst {p i} (h : s.Canonical) : (s.fltFirst p i).Canonical := .ite h.mark.wr (.ite h.wr h)

theorem State.Canonical.fltBit {p i} (h : s.Canonical) : (s.fltBit p i).Canonical :=
  .ifDo h.mark.fltFirst.wr (fun _ ht => ht.notify)

theorem State.Canonical.fltClear {p mask} (h : s.Canonical) : (s.fltClear p mask).Canonical := .ite h.wr.wr h.wr

theorem State.Canonical.mismatch {p} (h : s.Canonical) : (s.mismatch p).Canonical := h.mark.wr

theorem State.Canonical.accessBusy {p} (h : s.Canonical) : (s.accessBusy p).Canonical := h.mark.wr

theorem State.Canonical.applyStaged {p} (h : s.Canonical) : (s.applyStaged p).Canonical :=
  .wr (.inc ⟨h.mem, Sparse.sorted_setAll _ _ h.regs, Sparse.sorted_filter _ h.stg, h.hold⟩)

theorem State.Canonical.boundary {p} (h : s.Canonical) : (s.boundary p).Canonical :=
  .ifDo h (fun _ ht => ht.applyStaged)

theorem State.Canonical.stByte {a v} (h : s.Canonical) : (s.stByte a v).Canonical :=
  { h with mem := State.wf_stByte a v h.mem }

theorem State.Canonical.stBytes {a l} (h : s.Canonical) : (s.stBytes a l).Canonical := by
  induction l generalizing a s with
  | nil => exact h
  | cons b r ih => exact ih h.stByte

theorem State.Canonical.st {a n v} (h : s.Canonical) : (s.st a n v).Canonical := h.stBytes

theorem State.Canonical.clearMem {a n} (h : s.Canonical) : (s.clearMem a n).Canonical :=
  { h with mem := State.wf_clearMem a n h.mem }

theorem State.Canonical.countDenied {a p off} (h : s.Canonical) : (s.countDenied a p off).Canonical := h.sat.wr.wr.wr

theorem State.Canonical.wake {a} (h : s.Canonical) : (s.wake a).Canonical := by
  unfold State.wake
  split
  · exact .ite { h with } h
  · exact h

theorem State.Canonical.guarded {a p off freeOwner inLock inSafe k} (h : s.Canonical)
    (hk : ∀ t, t.Canonical → (k t).Canonical) : (s.guarded a p off freeOwner inLock inSafe k).Canonical :=
  .ite h.wake (.ite h.wake.countDenied (hk _ h.wake))

theorem State.Canonical.write {a p off k} (h : s.Canonical) (hk : ∀ t, t.Canonical → (k t).Canonical) :
    (s.write a p off k).Canonical :=
  .guarded h (fun _ ht => hk _ ht)

/-! ### What Machine/FaultBase.lean defines -/

theorem State.Canonical.srcSet {f src} (h : s.Canonical) : (s.srcSet f src).Canonical := h.wr

theorem State.Canonical.firstLatch {src sev} (h : s.Canonical) : (s.firstLatch src sev).Canonical :=
  .ite (.ite h.wr.wr.wr h.wr) h.wr.wr.wr.wr.wr.event

theorem State.Canonical.latchBits {src page fbit assay} (h : s.Canonical) :
    (s.latchBits src page fbit assay).Canonical :=
  .set_fc h.srcSet.srcSet.sat.inc.fltBit

theorem State.Canonical.openWindow {src sev page} (h : s.Canonical) : (s.openWindow src sev page).Canonical :=
  { h with }

theorem State.Canonical.closeWindow {c} (h : s.Canonical) : (s.closeWindow c).Canonical := { h with }

theorem State.Canonical.openRecovery {src page} (h : s.Canonical) : (s.openRecovery src page).Canonical :=
  .ite h { h with }

theorem State.Canonical.closeRecovery {src} (h : s.Canonical) : (s.closeRecovery src).Canonical := by
  unfold State.closeRecovery
  split
  · exact .ifDo h (fun _ ht => ht.closeWindow)
  · exact h

theorem State.Canonical.feedStop {src} (h : s.Canonical) : (s.feedStop src).Canonical := .ifDo h (fun _ ht => ht.wr)

theorem State.Canonical.noteTick {r} (h : s.Canonical) : (s.noteTick r).Canonical := { h with }

theorem State.Canonical.assayWindow {src sev page assay} (h : s.Canonical) :
    (s.assayWindow src sev page assay).Canonical := by
  unfold State.assayWindow
  split
  · exact .ifDo h (fun _ ht => ht.openWindow)
  · exact h

theorem State.Canonical.escalateHigher {src page} (h : s.Canonical) : (s.escalateHigher src page).Canonical :=
  .ite h (.each h (fun _ _ ht => .ifDo (.set_fc ht.sat.event) (fun _ hu => hu.assayWindow)))

theorem State.Canonical.mergeInto {c sev} (h : s.Canonical) : (s.mergeInto c sev).Canonical := by
  unfold State.mergeInto
  split
  · exact .ite { h with } h
  · exact h

theorem State.Canonical.latch {src page fbit floor assay} (h : s.Canonical) :
    (s.latch src page fbit floor assay).Canonical := by
  unfold State.latch
  extract_lets c own
  exact .ite (.set_fc h.latchBits.firstLatch.sat.event.mergeInto.noteTick)
      (.noteTick (.escalateHigher (.assayWindow (.set_fc (.feedStop
      (.ifDo h.latchBits.firstLatch (fun _ ht => ht.sat.event)))))))

/-! ### What Machine/QuayBase.lean defines -/

theorem State.Canonical.irqSend (h : s.Canonical) : s.irqSend.Canonical := .ite (.set_quay h.msix) h

theorem State.Canonical.cqPlace {e replay} (h : s.Canonical) : (s.cqPlace e replay).Canonical :=
  .irqSend (.set_quay h.emit)

theorem State.Canonical.cqDrain {n} (h : s.Canonical) : (s.cqDrain n).Canonical := by
  induction n generalizing s with
  | zero => exact h
  | succ n ih =>
    unfold State.cqDrain
    split
    · exact h
    · exact .ite (ih (.cqPlace h.set_quay)) h

theorem State.Canonical.heldRegs (h : s.Canonical) : s.heldRegs.Canonical :=
  .wr (.flag (.ifDo h (fun _ ht => ht.event)))

theorem State.Canonical.drain (h : s.Canonical) : s.drain.Canonical := .ite h.heldRegs h.cqDrain.heldRegs

theorem State.Canonical.cqDrop (h : s.Canonical) : s.cqDrop.Canonical := .ite h.sat (.latch (.set_quay h.sat))

theorem State.Canonical.cqSubmit {e} (h : s.Canonical) : (s.cqSubmit e).Canonical :=
  .ite h.cqDrop (.ite h.cqPlace (.heldRegs { h with }))

theorem State.Canonical.cqIssue {e} (h : s.Canonical) : (s.cqIssue e).Canonical :=
  .ite h.cqDrop (.cqSubmit (.set_quay h.wr))

theorem State.Canonical.postEvent {code job payload} (h : s.Canonical) : (s.postEvent code job payload).Canonical :=
  .ite h (.ite h.cqIssue (.ite (.heldRegs { h with }) h.cqDrop))

theorem State.Canonical.postCompletion {seq job code payload flags} (h : s.Canonical) :
    (s.postCompletion seq job code payload flags).Canonical :=
  h.cqIssue

theorem State.Canonical.postState (h : s.Canonical) : s.postState.Canonical := h.postEvent

/-! ### What Machine/MemMap.lean defines -/

theorem State.Canonical.modMu {f} (h : s.Canonical) : (s.modMu f).Canonical := { h with }

theorem State.Canonical.putUpset {k v} (h : s.Canonical) : (s.putUpset k v).Canonical := h.modMu

theorem State.Canonical.openPage {page} (h : s.Canonical) : (s.openPage page).Canonical := h.modMu

theorem State.Canonical.cancelSeal {page} (h : s.Canonical) : (s.cancelSeal page).Canonical := .ite h.modMu.wr.event h

theorem State.Canonical.bankPut {a v} (h : s.Canonical) : (s.bankPut a v).Canonical :=
  .stByte (.putUpset (.cancelSeal (.ite h.openPage h)))

theorem State.Canonical.bankPuts {a l} (h : s.Canonical) : (s.bankPuts a l).Canonical := by
  induction l generalizing a s with
  | nil => exact h
  | cons b r ih => exact ih h.bankPut

theorem State.Canonical.dramMend {c off} (h : s.Canonical) : (s.dramMend c off).Canonical := h.modMu

theorem State.Canonical.dramPut {a v} (h : s.Canonical) : (s.dramPut a v).Canonical := by
  unfold State.dramPut
  split
  · exact h
  · exact .ite (.ifDo (.ifDo h.st (fun _ ht => ht.dramMend)) (fun _ ht => ht.dramMend)) h.st.dramMend

theorem State.Canonical.memPut {a v} (h : s.Canonical) : (s.memPut a v).Canonical := .ite h.bankPuts h.dramPut

theorem State.Canonical.memPuts {a n l} (h : s.Canonical) : (s.memPuts a n l).Canonical := by
  induction n generalizing a l s with
  | zero => exact h
  | succ n ih => exact ih h.memPut

theorem State.Canonical.storeRegs (h : s.Canonical) : s.storeRegs.Canonical :=
  .ifDo h.modMu.wr.wr (fun _ ht => ht.event.postEvent)

/-! ### What Machine/DmaBase.lean defines -/

theorem State.Canonical.modChan {n f} (h : s.Canonical) : (s.modChan n f).Canonical := { h with }

theorem State.Canonical.dmaRegs (h : s.Canonical) : s.dmaRegs.Canonical := .ite (.set_seq h.wr.wr) h.wr.wr

theorem State.Canonical.dcTo {n v} (h : s.Canonical) : (s.dcTo n v).Canonical := h.wr.dmaRegs

theorem State.Canonical.setCur {n a} (h : s.Canonical) : (s.setCur n a).Canonical := h.wr.wr

theorem State.Canonical.writeBack {n status count} (h : s.Canonical) : (s.writeBack n status count).Canonical := by
  unfold State.writeBack
  extract_lets c ctrl word s1 s2
  have hs1 : s1.Canonical := by
    dsimp only [s1]
    split
    · exact h.emit
    · exact h.memPut
  exact .ifDo hs1.modChan fun _ ht => ht.event

theorem State.Canonical.dcEnd {n status} (h : s.Canonical) : (s.dcEnd n status).Canonical := h.wr.wr

theorem State.Canonical.dcHalt {n} (h : s.Canonical) : (s.dcHalt n).Canonical := h.modChan.dcTo.sat.event.latch

theorem State.Canonical.dcHaltBare {n} (h : s.Canonical) : (s.dcHaltBare n).Canonical := h.wr.dcHalt.modChan

theorem State.Canonical.dcError {n status count addr} (h : s.Canonical) : (s.dcError n status count addr).Canonical :=
  .dcHalt (.ite (.writeBack (.ifDo h.dcEnd.wr.wr (fun _ ht => ht.sat)))
      (.wr (.ifDo h.dcEnd.wr.wr (fun _ ht => ht.sat))))

theorem State.Canonical.dcFetchError {n status} (h : s.Canonical) : (s.dcFetchError n status).Canonical :=
  .dcHalt (.modChan (.wr (.ifDo h.wr.wr.wr (fun _ ht => ht.sat))))

theorem State.Canonical.dcStart {n} (h : s.Canonical) : (s.dcStart n).Canonical := h.modChan.wr.dcTo

theorem State.Canonical.dcDone {n} (h : s.Canonical) : (s.dcDone n).Canonical := by
  unfold State.dcDone
  extract_lets c hold s1 s2 s3
  have hs1 : s1.Canonical := h.dcEnd
  have hs2 : s2.Canonical := .ite hs1.writeBack hs1.wr
  have hs3 : s3.Canonical := hs2.inc.setCur
  exact .ite hs3.dcHaltBare (.ite hs3.modChan.flag.dcTo.event hs3.modChan.dcStart)

theorem State.Canonical.dcAborted {n} (h : s.Canonical) : (s.dcAborted n).Canonical := .ite h.dcError h.dcHaltBare

theorem State.Canonical.dmaAbort {n} (h : s.Canonical) : (s.dmaAbort n).Canonical :=
  .ite h.modChan.dcTo (.ite h.dcAborted h)

theorem State.Canonical.dmaAbortAll (h : s.Canonical) : s.dmaAbortAll.Canonical :=
  .each h (fun _ _ ht => .ite ht.dcAborted ht)

theorem State.Canonical.revoke {w rd wr} (h : s.Canonical) : (s.revoke w rd wr).Canonical :=
  .each h.sat (fun _ _ ht => .ite (.ite ht.modChan ht.dcError) ht)

theorem State.Canonical.winPut {w word value} (h : s.Canonical) : (s.winPut w word value).Canonical := by
  unfold State.winPut
  split
  · exact h.wr
  · exact h.wr
  · exact h.wr
  · exact h.wr.wr.wr

theorem State.Canonical.winAfter {w} {u : State} (h : s.Canonical) : (u.winAfter w s).Canonical :=
  .ifDo h fun _ ht => ht.revoke

theorem State.Canonical.winWrite {w word value} (h : s.Canonical) : (s.winWrite w word value).Canonical :=
  h.winPut.winAfter

theorem State.Canonical.winSet {w base size attr} (h : s.Canonical) : (s.winSet w base size attr).Canonical :=
  h.winPut.winPut.winPut.winPut.winAfter

theorem State.Canonical.winClose {w} (h : s.Canonical) : (s.winClose w).Canonical := .ite h.winWrite h

/-! ### What Machine/CodecBase.lean defines -/

theorem State.Canonical.modSta {f} (h : s.Canonical) : (s.modSta f).Canonical := { h with }

theorem State.Canonical.modCtx {x0 f} (h : s.Canonical) : (s.modCtx x0 f).Canonical := h.modSta

theorem State.Canonical.laneFree {n} (h : s.Canonical) : (s.laneFree n).Canonical := h.wr.wr

theorem State.Canonical.ctxIdle {x0} (h : s.Canonical) : (s.ctxIdle x0).Canonical :=
  .ifDo h.wr (fun _ ht => ht.laneFree)

theorem State.Canonical.ctxClose {x0} (h : s.Canonical) : (s.ctxClose x0).Canonical := h.ctxIdle.wr.modCtx

theorem State.Canonical.imStates (h : s.Canonical) : s.imStates.Canonical := .each h (fun _ _ ht => ht.wr)

theorem State.Canonical.codecRegs (h : s.Canonical) : s.codecRegs.Canonical := h.wr.wr.imStates

theorem State.Canonical.codecDrop {id} (h : s.Canonical) : (s.codecDrop id).Canonical :=
  .codecRegs (.each h (fun _ _ ht => ht.ctxClose))

theorem State.Canonical.codecLost {id} (h : s.Canonical) : (s.codecLost id).Canonical :=
  .codecRegs (.each h (fun _ _ ht => ht.ctxIdle.modCtx))

theorem State.Canonical.freeSeps {id} (h : s.Canonical) : (s.freeSeps id).Canonical := .set_tl h.wr

/-! ### What Machine/EdkarBase.lean defines -/

theorem State.Canonical.setModState {p m v} (h : s.Canonical) : (s.setModState p m v).Canonical := h.wr.wr

theorem State.Canonical.setAuthed {p m b} (h : s.Canonical) : (s.setAuthed p m b).Canonical := h.wr

theorem State.Canonical.modPort {p f} (h : s.Canonical) : (s.modPort p f).Canonical := { h with }

theorem State.Canonical.modMod {p m f} (h : s.Canonical) : (s.modMod p m f).Canonical := h.modPort

theorem State.Canonical.notice {sheet code} (h : s.Canonical) : (s.notice sheet code).Canonical :=
  .each h.modPort (fun _ _ ht => .ifDo ht (fun _ hu => hu.modMod))

theorem State.Canonical.decide_ {sheet d} (h : s.Canonical) : (s.decide_ sheet d).Canonical := { h with }

theorem State.Canonical.closeAnnounce {sheet d} (h : s.Canonical) : (s.closeAnnounce sheet d).Canonical :=
  .ite h.modPort.decide_ h.modPort.decide_.event.notice

theorem State.Canonical.refuseOpen (h : s.Canonical) : s.refuseOpen.Canonical :=
  .each h (fun _ _ ht => ht.closeAnnounce)

theorem State.Canonical.transFail {p m} (h : s.Canonical) : (s.transFail p m).Canonical := by
  unfold State.transFail
  split
  · exact h
  · exact .ifDo h.modMod (fun _ ht => ht.latch)

theorem State.Canonical.leaveBus {p m} (h : s.Canonical) : (s.leaveBus p m).Canonical :=
  .ifDo h.transFail.modMod.setAuthed (fun _ ht => ht.modPort)

theorem State.Canonical.portDrop {p} (h : s.Canonical) : (s.portDrop p).Canonical :=
  .each h (fun _ _ ht => .ifDo ht.leaveBus (fun _ hu => hu.setModState))

theorem State.Canonical.portStop {p} (h : s.Canonical) : (s.portStop p).Canonical :=
  .wr (.modPort (.portDrop (.ifDo h (fun _ ht => ht.refuseOpen))))

/-! ### What Machine/Log.lean defines -/

theorem State.Canonical.logRecord {kind body} (h : s.Canonical) : (s.logRecord kind body).Canonical := h.stBytes.wr.wr

theorem State.Canonical.logFault {src sev} (h : s.Canonical) : (s.logFault src sev).Canonical := h.logRecord

theorem State.Canonical.logState {st} (h : s.Canonical) : (s.logState st).Canonical := h.logRecord

/-! ### What Machine/TimelineBase.lean defines -/

theorem State.Canonical.modTl {f} (h : s.Canonical) : (s.modTl f).Canonical := { h with }

theorem State.Canonical.modPage {id f} (h : s.Canonical) : (s.modPage id f).Canonical := h.modTl

theorem State.Canonical.modJob {id f} (h : s.Canonical) : (s.modJob id f).Canonical := h.modTl

theorem State.Canonical.pageTo {id st} (h : s.Canonical) : (s.pageTo id st).Canonical := h.modPage

theorem State.Canonical.modSlot {i f} (h : s.Canonical) : (s.modSlot i f).Canonical := h.modTl

theorem State.Canonical.freeSlot {i} (h : s.Canonical) : (s.freeSlot i).Canonical := .ifDo h.modTl (fun _ ht => ht.wr)

theorem State.Canonical.queueRegs (h : s.Canonical) : s.queueRegs.Canonical := h.wr.wr

theorem State.Canonical.toReprint {id} (h : s.Canonical) : (s.toReprint id).Canonical := h.modPage.modTl.queueRegs

theorem State.Canonical.dequeue {id} (h : s.Canonical) : (s.dequeue id).Canonical := h.modTl.queueRegs

theorem State.Canonical.retire {id} (h : s.Canonical) : (s.retire id).Canonical := h.freeSeps.dequeue.pageTo

theorem State.Canonical.purgeNotice {sheet} (h : s.Canonical) : (s.purgeNotice sheet).Canonical := h.notice

theorem State.Canonical.runBlank {i reasons} (h : s.Canonical) : (s.runBlank i reasons).Canonical := by
  unfold State.runBlank
  split
  · exact h
  · exact h.modSlot.purgeNotice.wr.sat.event.postEvent

theorem State.Canonical.failCommit {i reasons} (h : s.Canonical) : (s.failCommit i reasons).Canonical := by
  unfold State.failCommit
  split
  · exact h
  · extract_lets s1
    have hs1 : s1.Canonical := h.runBlank.codecDrop
    split
    · exact .ite hs1.pageTo.toReprint hs1
    · exact hs1

theorem State.Canonical.lostSheet {sl cause} (h : s.Canonical) : (s.lostSheet sl cause).Canonical :=
  .ite h.notice (.ite h.purgeNotice h.notice)

theorem State.Canonical.marksLost {sl} (h : s.Canonical) : (s.marksLost sl).Canonical :=
  .ite (.ifDo h.modSta.wr (fun _ ht => ht.wr)) h

theorem State.Canonical.loseCommitted {i cause} (h : s.Canonical) : (s.loseCommitted i cause).Canonical := by
  unfold State.loseCommitted
  split
  · exact h
  · split
    · exact h
    · extract_lets p s1 s1 s2 s3 again s4
      have hs1 : s1.Canonical := h.modPage.codecLost.modSlot.marksLost
      have hs1 : s1.Canonical := h.modPage.codecLost.modSlot.marksLost
      have hs2 : s2.Canonical := hs1.wr.wr.sat
      have hs3 : s3.Canonical := hs2.event.lostSheet
      have hs4 : s4.Canonical := hs3.postEvent
      exact .ite hs4.pageTo.modPage.toReprint (.ifDo (.ifDo hs4.pageTo.modPage.modJob (fun _ ht => ht.event))
          (fun _ ht => ht.retire))

theorem State.Canonical.ptBoundary (h : s.Canonical) : s.ptBoundary.Canonical :=
  .ite (.ite h.modTl.applyStaged.wr h.modTl.applyStaged) h

theorem State.Canonical.keepOrder {sheet} (h : s.Canonical) : (s.keepOrder sheet).Canonical :=
  .ite (.each (.each h (fun _ _ ht => ht.loseCommitted)) (fun _ _ ht => ht.failCommit)) h

theorem State.Canonical.pageLost {i cause} (h : s.Canonical) : (s.pageLost i cause).Canonical := by
  unfold State.pageLost
  split
  · exact h
  · exact .ite (.ite h.sat.wr.modPage h.sat) (.ite h.loseCommitted.keepOrder h)

theorem State.Canonical.pagesLost {l cause} (h : s.Canonical) : (s.pagesLost l cause).Canonical :=
  .ite (.each (.each h (fun _ _ ht => .ite ht.loseCommitted ht.pageLost)) (fun _ _ ht => ht.keepOrder))
      (.each h (fun _ _ ht => ht.pageLost))

theorem State.Canonical.pathReport (h : s.Canonical) : s.pathReport.Canonical := .ifDo h (fun _ ht => ht.modTl)

theorem State.Canonical.loseExposing {k cause} (h : s.Canonical) : (s.loseExposing k cause).Canonical := h.pagesLost

theorem State.Canonical.loseExposingOf {l cause} (h : s.Canonical) : (s.loseExposingOf l cause).Canonical :=
  h.pagesLost

theorem State.Canonical.loseStation {k cause} (h : s.Canonical) : (s.loseStation k cause).Canonical := h.pagesLost

theorem State.Canonical.fedLost {i sheet} (h : s.Canonical) : (s.fedLost i sheet).Canonical :=
  h.modSlot.sat.wr.wr.purgeNotice

theorem State.Canonical.sepLost {id} (h : s.Canonical) : (s.sepLost id).Canonical := by
  unfold State.sepLost
  split
  · exact h
  · extract_lets s1 slot s1' s2 s3 s4
    have hs1 : s1.Canonical := h.modPage
    have hs2 : s2.Canonical := by
      dsimp only [s2]
      cases slot with
      | none => exact hs1.codecDrop
      | some i => exact hs1.codecDrop.fedLost
    have hs3 : s3.Canonical := hs2.dequeue.pageTo.modPage
    have hs4 : s4.Canonical := hs3.sat.event.event.modJob
    clear_value s1
    split
    · split
      · exact hs1.pageLost
      · exact hs1
    · exact .ite (.ifDo hs4.postEvent fun _ ht => ht.keepOrder) hs1

theorem State.Canonical.devTo {st} (h : s.Canonical) : (s.devTo st).Canonical := h.wr.event.logState.postState

theorem State.Canonical.runReady (h : s.Canonical) : s.runReady.Canonical := .ite h.devTo (.ite h.devTo h)

theorem State.Canonical.endRun (h : s.Canonical) : s.endRun.Canonical := h.modTl.wr.runReady

theorem State.Canonical.jamSlots {behind} (h : s.Canonical) : (s.jamSlots behind).Canonical :=
  .event (.modTl (.wr (.wr (.each h.pagesLost (fun _ _ ht => ht.failCommit)))))

theorem State.Canonical.timelineSafe (h : s.Canonical) : s.timelineSafe.Canonical :=
  .endRun (.each (.each h.wr (fun _ _ ht => ht.loseCommitted)) (fun _ _ ht => ht.keepOrder))

/-! ### What Machine/MotionBase.lean defines -/

theorem State.Canonical.modStp {n f} (h : s.Canonical) : (s.modStp n f).Canonical := { h with }

theorem State.Canonical.modSensor {i f} (h : s.Canonical) : (s.modSensor i f).Canonical := { h with }

theorem State.Canonical.stpState {n} (h : s.Canonical) : (s.stpState n).Canonical := h.wr

theorem State.Canonical.modeZero {n} (h : s.Canonical) : (s.modeZero n).Canonical := .ifDo h.wr (fun _ ht => ht.stgWr)

theorem State.Canonical.homeAbandon {n} (h : s.Canonical) : (s.homeAbandon n).Canonical := .ite h.wr.wr h

theorem State.Canonical.stpStop {n} (h : s.Canonical) : (s.stpStop n).Canonical :=
  h.modeZero.homeAbandon.sat.modStp.stpState

theorem State.Canonical.stopZones {z} (h : s.Canonical) : (s.stopZones z).Canonical :=
  .each h (fun _ _ ht => ht.stpStop)

theorem State.Canonical.pathLevel (h : s.Canonical) : s.pathLevel.Canonical := by
  unfold State.pathLevel
  split
  · split
    · exact h
    · exact { h with }
  · exact .wr { h with }

theorem State.Canonical.levelReg {i} (h : s.Canonical) : (s.levelReg i).Canonical := h.flag

theorem State.Canonical.trackState (h : s.Canonical) : s.trackState.Canonical := .ifDo h (fun _ ht => ht.wr)

/-! ### What Machine/LegacyBase.lean defines -/

theorem State.Canonical.modLg {f} (h : s.Canonical) : (s.modLg f).Canonical := { h with }

theorem State.Canonical.zLine (h : s.Canonical) : s.zLine.Canonical := .ite h h.modLg.emit

theorem State.Canonical.zint {i} (h : s.Canonical) : (s.zint i).Canonical :=
  .ite h.mark (.zLine (.ifDo h.mark.wr (fun _ ht => ht.emit)))

theorem State.Canonical.zerr {code} (h : s.Canonical) : (s.zerr code).Canonical := h.wr.sat

theorem State.Canonical.zFault {src sev} (h : s.Canonical) : (s.zFault src sev).Canonical := h.wr.wr.zint

/-! ### What Machine/BeamBase.lean defines -/

theorem State.Canonical.modBeam {k f} (h : s.Canonical) : (s.modBeam k f).Canonical := h.modSta

theorem State.Canonical.btToSpeed {k} (h : s.Canonical) : (s.btToSpeed k).Canonical := h.modBeam.wr

theorem State.Canonical.btStop {k} (h : s.Canonical) : (s.btStop k).Canonical :=
  .wr (.modBeam (.ifDo h (fun _ ht => ht.loseExposing)))

theorem State.Canonical.modPoly {k f} (h : s.Canonical) : (s.modPoly k f).Canonical := { h with }

theorem State.Canonical.zRefStep {k} (h : s.Canonical) : (s.zRefStep k).Canonical :=
  .ite (.ite (.set_ct h.modPoly) h.modPoly) h

theorem State.Canonical.polyBand {n inBand} (h : s.Canonical) : (s.polyBand n inBand).Canonical :=
  .each h (fun _ _ ht => .ite (.ite ht.btToSpeed ht) (.ite ht ht.btStop))

/-! ### What Machine/MotorBase.lean defines -/

theorem State.Canonical.modMotor {n f} (h : s.Canonical) : (s.modMotor n f).Canonical := { h with }

theorem State.Canonical.modGroup {g f} (h : s.Canonical) : (s.modGroup g f).Canonical := { h with }

theorem State.Canonical.cmTo {n v} (h : s.Canonical) : (s.cmTo n v).Canonical := h.modMotor.wr.runReady

theorem State.Canonical.gatesOff {n} (h : s.Canonical) : (s.gatesOff n).Canonical := h.modMotor.wr

theorem State.Canonical.bandEnter {n} (h : s.Canonical) : (s.bandEnter n).Canonical := h.wr.event.polyBand.pathReport

theorem State.Canonical.bandLeave {n} (h : s.Canonical) : (s.bandLeave n).Canonical :=
  .ite (.pathReport (.polyBand (.ifDo h.wr.event (fun _ ht => .latch (.each ht (fun _ _ hu => hu.loseExposing)))))) h

theorem State.Canonical.cmLeave {n} (h : s.Canonical) : (s.cmLeave n).Canonical := h.gatesOff.modMotor.wr.bandLeave

theorem State.Canonical.cmToOff {n} (h : s.Canonical) : (s.cmToOff n).Canonical := h.modGroup.modMotor.cmLeave.cmTo

theorem State.Canonical.torque {n v} (h : s.Canonical) : (s.torque n v).Canonical := .ite h.gatesOff h.modMotor.wrS

theorem State.Canonical.motorsSafe (h : s.Canonical) : s.motorsSafe.Canonical := .each h (fun _ _ ht => ht.cmToOff)

/-! ### What Machine/LoopBase.lean defines -/

theorem State.Canonical.modLoop {e i f} (h : s.Canonical) : (s.modLoop e i f).Canonical := { h with }

theorem State.Canonical.slotApply {e i v} (h : s.Canonical) : (s.slotApply e i v).Canonical := by
  unfold State.slotApply
  extract_lets num
  split
  · exact .ite { h with } h
  · exact .ite h.torque h
  · exact h

theorem State.Canonical.leRegs {e} (h : s.Canonical) : (s.leRegs e).Canonical := h.wr.wr

theorem State.Canonical.slTo {e i v} (h : s.Canonical) : (s.slTo e i v).Canonical := h.wr.leRegs

theorem State.Canonical.slotBandLeave {e i} (h : s.Canonical) : (s.slotBandLeave e i).Canonical := by
  unfold State.slotBandLeave
  split
  · extract_lets s1
    have hs1 : s1.Canonical := h.wr.event.modLoop
    split
    · exact .latch (.each hs1 (fun _ _ ht => ht.loseExposing))
    · exact hs1.latch
    · exact hs1
  · exact h.modLoop

theorem State.Canonical.causeReg {e i} (h : s.Canonical) : (s.causeReg e i).Canonical := h.wr

theorem State.Canonical.slotFail {e i} (h : s.Canonical) : (s.slotFail e i).Canonical := h.modLoop.wrS.slotApply

theorem State.Canonical.failDriven {e i} (h : s.Canonical) : (s.failDriven e i).Canonical :=
  .ifDo h (fun _ ht => ht.slotFail)

theorem State.Canonical.slotHold {e i cause} (h : s.Canonical) : (s.slotHold e i cause).Canonical :=
  .ite h (.ite h.modLoop.causeReg h.modLoop.slotBandLeave.slTo.slotFail.event.causeReg)

theorem State.Canonical.slotFree {e i cause} (h : s.Canonical) : (s.slotFree e i cause).Canonical :=
  h.modLoop.causeReg

theorem State.Canonical.slotOff {e i} (h : s.Canonical) : (s.slotOff e i).Canonical :=
  h.slotBandLeave.modLoop.slTo.slotFail.causeReg

theorem State.Canonical.loopsSafe (h : s.Canonical) : s.loopsSafe.Canonical := .each h (fun _ _ ht => ht.slotHold)

theorem State.Canonical.loopIsolate {e} (h : s.Canonical) : (s.loopIsolate e).Canonical :=
  .each h (fun _ _ ht => ht.slotHold)

theorem State.Canonical.loopRestore {e} (h : s.Canonical) : (s.loopRestore e).Canonical :=
  .each h (fun _ _ ht => .ite ht.wr.modLoop.slTo.wrS.causeReg ht.slotFree)

/-! ### What Machine/StationBase.lean defines -/

theorem State.Canonical.modLink {k f} (h : s.Canonical) : (s.modLink k f).Canonical := h.modSta

theorem State.Canonical.modIlace {k f} (h : s.Canonical) : (s.modIlace k f).Canonical := h.modSta

theorem State.Canonical.modRing {k f} (h : s.Canonical) : (s.modRing k f).Canonical := h.modSta

theorem State.Canonical.modFeeds {k f} (h : s.Canonical) : (s.modFeeds k f).Canonical := h.modSta

theorem State.Canonical.headSend {k cmd arg} (h : s.Canonical) : (s.headSend k cmd arg).Canonical :=
  .ite h h.modLink.emit

theorem State.Canonical.quenchOn {k} (h : s.Canonical) : (s.quenchOn k).Canonical :=
  .ite h h.wr.modLink.modBeam.emit.event

theorem State.Canonical.quenchOff {k} (h : s.Canonical) : (s.quenchOff k).Canonical := .ite h.wr.headSend h

theorem State.Canonical.headsSafe (h : s.Canonical) : s.headsSafe.Canonical := .each h (fun _ _ ht => ht.quenchOn)

theorem State.Canonical.trainStart {k} (h : s.Canonical) : (s.trainStart k).Canonical :=
  .emit (.modLink (.wr (.wr (.ifDo h.loseExposing (fun _ ht => ht.event)))))

theorem State.Canonical.train {k} (h : s.Canonical) : (s.train k).Canonical := h.modLink.sat.trainStart

theorem State.Canonical.cutEnd {k} (h : s.Canonical) : (s.cutEnd k).Canonical := h.modIlace.wr.wr.event.quenchOff

theorem State.Canonical.quenchTry {k} (h : s.Canonical) : (s.quenchTry k).Canonical :=
  .ite (.ite h.cutEnd h.modIlace) h.modIlace

theorem State.Canonical.stationClear {k} (h : s.Canonical) : (s.stationClear k).Canonical :=
  .codecRegs (.each (.ifDo h.modFeeds.modRing.modBeam.modSta.modLink (fun _ ht => ht.wr)) (fun _ _ ht => ht.ctxClose))

theorem State.Canonical.ejFail {j status} (h : s.Canonical) : (s.ejFail j status).Canonical :=
  .event (.wr (.wr (.wr (.wr (.ifDo h (fun _ ht => ht.memPut))))))

theorem State.Canonical.laneIsolate {n} (h : s.Canonical) : (s.laneIsolate n).Canonical := by
  unfold State.laneIsolate
  split
  · exact h.ctxIdle.modCtx.codecRegs
  · exact h

/-! ### What Machine/BlockSafe.lean defines -/

theorem State.Canonical.motionSafe (h : s.Canonical) : s.motionSafe.Canonical := .each h (fun _ _ ht => ht.stpStop)

theorem State.Canonical.dmaSafe (h : s.Canonical) : s.dmaSafe.Canonical := h.dmaAbortAll

theorem State.Canonical.loseAll (h : s.Canonical) : s.loseAll.Canonical := h.pagesLost

theorem State.Canonical.loseDecoding (h : s.Canonical) : s.loseDecoding.Canonical := by
  unfold State.loseDecoding
  extract_lets pages
  exact h.pagesLost

theorem State.Canonical.loseMask {mask} (h : s.Canonical) : (s.loseMask mask).Canonical :=
  .each h (fun _ _ ht => ht.loseStation)

theorem State.Canonical.blockIsolate {p} (h : s.Canonical) : (s.blockIsolate p).Canonical := by
  have hseparations : (if p = 0x0C4 then
      { s with ct := { s.ct with adc := s.ct.adc.map fun q => { q with table := [], open_ := [] } } }
      else if p = 0x0D8 then s.portStop 0
      else if p = 0x0D9 then s.portStop 1 else s).Canonical :=
    .ite { h with } (.ite h.portStop (.ite h.portStop h))
  exact .ite h.btStop.stationClear <| .ite h.stationClear <| .ite h.stationClear <| .ite h.quenchOn.stationClear <|
    .ite h.loseAll.endRun <| .ite h.loseDecoding <| .ite h.laneIsolate <| .ite (.ifDo h fun _ ht => ht.ejFail) <|
    .ite h.dmaAbort <| .ite (.stpStop (.ifDo h fun _ ht => ht.loseAll)) <| .ite h.loseAll <|
    .ite (.cmToOff (.each h.loseMask fun _ _ ht => ht.loseStation)) <| .ite h.loseMask.loopIsolate hseparations

theorem State.Canonical.blockRestore {p} (h : s.Canonical) : (s.blockRestore p).Canonical :=
  .ite (.ifDo h (fun _ ht => ht.btToSpeed)) (.ite h.wr.train.quenchOff (.ite h.loopRestore (.ite { h with } h)))

/-! ### What Machine/Raise.lean defines -/

theorem State.Canonical.vcoreMax (h : s.Canonical) : s.vcoreMax.Canonical := .ite h h.wr.emit.event

theorem State.Canonical.assayAbandon {p} (h : s.Canonical) : (s.assayAbandon p).Canonical := by
  unfold State.assayAbandon
  extract_lets gone s1
  have hs1 : s1.Canonical := by
    dsimp only [s1]
    refine .each h (fun _ _ ht => ?_)
    split
    · exact .ifDo ht (fun _ ht => ht.closeWindow)
    · exact ht
  exact { hs1 with }

theorem State.Canonical.isolate {p} (h : s.Canonical) : (s.isolate p).Canonical := by
  unfold State.isolate
  extract_lets s1 s2
  have hs1 : s1.Canonical := h.wr.wr
  have hs2 : s2.Canonical := by
    dsimp only [s2]
    split
    · exact hs1.loseStation
    · exact hs1
  exact .ite h.wr hs2.assayAbandon.blockIsolate

theorem State.Canonical.haltBerths (h : s.Canonical) : s.haltBerths.Canonical := .each h (fun _ _ ht => ht.wr)

theorem State.Canonical.enterSafe (h : s.Canonical) : s.enterSafe.Canonical := by
  unfold State.enterSafe
  refine .ite h ?_
  extract_lets s1 s2 s3 s4 s5 src s6
  have hs1 : s1.Canonical := { h with }
  have hs2 : s2.Canonical := hs1.wr.wr.headsSafe
  have hs3 : s3.Canonical := hs2.timelineSafe.motorsSafe.motionSafe.loopsSafe
  have hs4 : s4.Canonical := hs3.portStop.portStop.dmaSafe.vcoreMax
  have hs6 : s6.Canonical := .set_berths hs4.wr.wr.haltBerths
  exact hs6.event.logRecord.devTo

theorem State.Canonical.hwRounds {n} (h : s.Canonical) : (s.hwRounds n).Canonical := by
  induction n generalizing s with
  | zero => exact h
  | succ n ih => exact .ite h (ih (.each h.set_fc fun _ _ ht => .ite ht.enterSafe ht.isolate))

theorem State.Canonical.hwReact (h : s.Canonical) : s.hwReact.Canonical := h.hwRounds

theorem State.Canonical.raiseWith {src page fbit floor assay} (h : s.Canonical) :
    (s.raiseWith src page fbit floor assay).Canonical :=
  h.latch.hwReact

theorem State.Canonical.raise {src page fbit} (h : s.Canonical) : (s.raise src page fbit).Canonical := h.raiseWith

end Sys2Proof.Machine
end

