-- ==== Sys2Proof/Proofs/CanonicalServices.lean ====
section
/-!
PROOFS. Faults, memory services, clocks, the page timeline and the host protocol keep the canonical form.
-/
namespace Sys2Proof.Machine

variable {s : State}

/-! ### What Machine/Faults.lean defines -/

theorem State.Canonical.requestAssay {src byGo k u} (h : s.Canonical) : (s.requestAssay src byGo k u).Canonical :=
  .ite h { h with }

theorem State.Canonical.ackSource {src} (h : s.Canonical) : (s.ackSource src).Canonical := .set_fc h.wr

theorem State.Canonical.asked {r : Raise} (h : s.Canonical) :
    (match r.assay with
      | some (k, u) => s.requestAssay r.src false k u
      | none => s).Canonical := by
  split
  · exact h.requestAssay
  · exact h

theorem State.Canonical.react {r} (h : s.Canonical) : (s.react r).Canonical := by
  unfold State.react
  extract_lets asked s1 first
  have hs1 : s1.Canonical := .ifDo h.logFault fun _ ht => ht.zFault
  exact .ite h (.ite h.asked hs1.postEvent.asked)

theorem execFaultDispatch_ends : Ends s (execFaultDispatch s) := by
  unfold execFaultDispatch
  extract_lets u
  have hu : s.Canonical → u.Canonical := fun h => h.hwReact
  split
  · extract_lets s1
    have hs1 : s.Canonical → s1.Canonical := fun h => .react { (hu h) with }
    exact .next fun h => .ite (hs1 h) (hs1 h).ackSource
  · exact .next fun h => (hu h)

theorem execMergeWindowExpiry_ends {cls} : Ends s (execMergeWindowExpiry cls s) := by
  unfold execMergeWindowExpiry
  split
  · exact .next fun h => .ite h.closeWindow h
  · exact .next fun h => h

theorem execFirstClr_ends {agent} : Ends s (execFirstClr agent s) := by
  unfold execFirstClr
  exact .next fun h => .write h (fun _ ht => ht.wr.wr)

theorem execUnackClear_ends {agent w mask} : Ends s (execUnackClear agent w mask s) := by
  unfold execUnackClear
  exact .next fun h => .write h (fun _ ht => .each ht (fun _ _ hu => hu.ackSource))

theorem execStickyClear_ends {agent w mask} : Ends s (execStickyClear agent w mask s) := by
  unfold execStickyClear
  exact .next fun h => .write h (fun _ ht => ht.wr)

theorem execAssayGo_ends {agent src} : Ends s (execAssayGo agent src s) := by
  unfold execAssayGo
  refine .next fun h => ?_
  refine .write h (fun _ ht => ?_)
  extract_lets 
  split
  · exact ht.wr.requestAssay.wr
  · exact ht.wr.wr

theorem State.Canonical.takeRole {n r since} (h : s.Canonical) : (s.takeRole n r since).Canonical :=
  h.wr.wr.wr.event.emit

theorem State.Canonical.setDigest {d} (h : s.Canonical) : (s.setDigest d).Canonical := h.stBytes

theorem State.Canonical.updateAbort (h : s.Canonical) : s.updateAbort.Canonical := by
  unfold State.updateAbort
  split
  · exact h
  · extract_lets s1 s2
    have hs1 : s1.Canonical := by
      dsimp only [s1]
      refine .each h (fun _ _ ht => ?_)
      extract_lets 
      split
      · exact ht.wr.wr.takeRole
      · exact ht
    exact .raise (.wr (.wr (.setDigest { hs1 with })))

theorem State.Canonical.haltBerth {n} (h : s.Canonical) : (s.haltBerth n).Canonical :=
  .ite (.ifDo h.wr (fun _ ht => ht.updateAbort)) (.ite h.wr (.ite (.ite (.wr (.wr (.set_berths h.wr))) h.wr)
      (.set_berths h.wr)))

theorem execLockstep_ends {n trap} : Ends s (execLockstep n trap s) := by
  unfold execLockstep
  split
  · extract_lets s1 s2
    have hs1 : s.Canonical → s1.Canonical := fun h => h.haltBerth.sat
    have hs2 : s.Canonical → s2.Canonical := fun h => (hs1 h).raiseWith
    exact .next fun h => .ifDo (hs2 h) (fun _ ht => ht.openRecovery)
  · exact .next fun h => h

theorem execRoleMove_ends : Ends s (execRoleMove s) := by
  unfold execRoleMove
  split
  · exact .next fun h => h
  · exact .next fun h => h
  · extract_lets s1 s2
    have hs2 : s.Canonical → s2.Canonical := fun h => { h with }
    split
    · exact .next fun h => (hs2 h).wr.closeRecovery.takeRole
    · split
      · exact .next fun h => .ite (hs2 h).wr.closeRecovery.emit (hs2 h).wr.closeRecovery.takeRole
      · exact .next fun h => (hs2 h).wr.closeRecovery.raiseWith

theorem State.Canonical.hmTo {v} (h : s.Canonical) : (s.hmTo v).Canonical := h.wr.wr

theorem execBeat_ends {agent} : Ends s (execBeat agent s) := by
  unfold execBeat
  refine .next fun h => ?_
  refine .write h (fun _ ht => ?_)
  split
  · split
    · exact ht.countDenied
    · extract_lets missed u
      split
      · exact .wr (.hmTo (.set_berths (.satAdd { ht with })))
      · exact .ite (.raise (.event (.sat (.closeRecovery (.wr (.hmTo (.set_berths (.satAdd { ht with }))))))))
            (.satAdd { ht with })
  · exact ht

theorem execHbMiss_ends : Ends s (execHbMiss s) := by
  unfold execHbMiss
  split
  · extract_lets n s1
    have hs1 : s.Canonical → s1.Canonical := fun h => h.satAdd.haltBerth
    exact .next fun h => (hs1 h).hmTo.raiseWith.openRecovery
  · exact .next fun h => h

theorem execSupPromoted_ends {digestOk imageOk} : Ends s (execSupPromoted digestOk imageOk s) := by
  unfold execSupPromoted
  extract_lets _ pick s1 s2
  clear_value pick
  split
  · split
    · split
      · exact .next fun h => .set_berths (.takeRole (.ifDo h fun _ ht => ht.wr))
      · exact .next fun h => h.hmTo.raiseWith
    · exact .next fun h => h.hmTo.raiseWith
  · exact .next fun h => h

theorem execHmWaitTimeout_ends : Ends s (execHmWaitTimeout s) := by
  unfold execHmWaitTimeout
  split
  · extract_lets n s1
    split
    · exact .next fun h => .hmTo { h with }
    · exact .next fun h => .raiseWith (.hmTo (.haltBerth { h with }))
  · exact .next fun h => h

theorem execHmSilent_ends : Ends s (execHmSilent s) := by
  unfold execHmSilent
  split
  · exact .next fun h => h.raise.event
  · exact .next fun h => h

theorem execHarbourmasterResync_ends {agent} : Ends s (execHarbourmasterResync agent s) := by
  unfold execHarbourmasterResync
  exact .next fun h => .write h (fun _ ht => ht.event)

theorem execHmVote_ends {d0 d1 d2} : Ends s (execHmVote d0 d1 d2 s) := by
  unfold execHmVote
  extract_lets dual ex d live
  clear_value live
  split
  · exact .next fun h => h
  · split
    · exact .next fun h => h.hmTo.raise
    · exact .next fun h => .raise (.ite (.wr (.wr (.set_berths h.sat))) (.set_berths h.sat))

theorem State.Canonical.tempSample {tj} (h : s.Canonical) : (s.tempSample tj).Canonical := .ite h.wr.wr h.wr

theorem execTempWarn_ends {tj} : Ends s (execTempWarn tj s) := by
  unfold execTempWarn
  extract_lets s1
  have hs1 : s.Canonical → s1.Canonical := fun h => h.tempSample
  split
  · exact .next fun h => .raise (.event { (hs1 h) with })
  · exact .next fun h => (hs1 h)

theorem execTempCrit_ends {tj} : Ends s (execTempCrit tj s) := by
  unfold execTempCrit
  extract_lets s1
  have hs1 : s.Canonical → s1.Canonical := fun h => h.tempSample
  exact .next fun h => .ite (hs1 h).raise (hs1 h)

theorem execTempWarnEnd_ends {tj} : Ends s (execTempWarnEnd tj s) := by
  unfold execTempWarnEnd
  extract_lets s1
  have hs1 : s.Canonical → s1.Canonical := fun h => h.tempSample
  exact .next fun h => .ite { (hs1 h) with } (hs1 h)

/-! ### What Machine/MemBase.lean defines -/

theorem State.Canonical.logMem {kind addr m} (h : s.Canonical) : (s.logMem kind addr m).Canonical :=
  .ite h h.wr.wr.wr.wr.wr.wr.inc.inc.event

theorem State.Canonical.fabric {a flight m} (h : s.Canonical) : (s.fabric a flight m).2.Canonical := by
  have hdeliver {r : Nat} {t : State} (ht : t.Canonical) : (if r.testBit 79 then
      ((none : Option Nat), (t.logMem 8 a m).raiseWith 118 0x05A 22 0 (s.fabricUnit a)) else
          (some r, t)).2.Canonical := by
    split
    · exact ht.logMem.raiseWith
    · exact ht
  unfold State.fabric
  split
  · exact hdeliver h
  · exact hdeliver h.sat.logMem
  · exact h.sat.logMem.raiseWith
  · exact h.sat.logMem.raiseWith

theorem State.Canonical.strike {page l} (h : s.Canonical) : (s.strike page l).Canonical :=
  .each h (fun _ _ ht => ht.putUpset)

theorem State.Canonical.mendCodeword {page j} (h : s.Canonical) : (s.mendCodeword page j).Canonical := h.modMu

theorem State.Canonical.bankUe {kind a m} (h : s.Canonical) : (s.bankUe kind a m).Canonical := h.sat.logMem.raiseWith

theorem State.Canonical.bankWord {a m} (h : s.Canonical) : (s.bankWord a m).2.Canonical := by
  unfold State.bankWord
  extract_lets rs ce s1 bad s2
  have hs1 : s1.Canonical := .ifDo h fun _ ht => ht.satAdd.logMem
  have hs2 : s2.Canonical := .satAdd (.each hs1 fun _ _ ht => ht.mendCodeword)
  split
  · exact hs1
  · split
    · split
      · exact hs2.logMem
      · exact hs1.satAdd.bankUe
    · exact hs1.bankUe

theorem State.Canonical.dramStrike {c off mask} (h : s.Canonical) : (s.dramStrike c off mask).Canonical := h.modMu

theorem State.Canonical.slotLost {slot} (h : s.Canonical) : (s.slotLost slot).Canonical :=
  .each h.storeRegs.postEvent (fun _ _ ht => ht.sepLost)

theorem State.Canonical.chanFail {c} (h : s.Canonical) : (s.chanFail c).Canonical :=
  .ite h (.ite (.ite h.wr.raise.wr.raise h.wr.raise.wr.raise.slotLost) h.wr.raise.slotLost)

theorem State.Canonical.chanUe {c off raise_} (h : s.Canonical) : (s.chanUe c off raise_).Canonical :=
  .ite (.chanFail (.ite h.sat.modMu.raiseWith h.sat.modMu)) (.ite h.sat.modMu.raiseWith h.sat.modMu)

theorem State.Canonical.chanBad {c off a kind m} (h : s.Canonical) : (s.chanBad c off a kind m).Canonical :=
  .ite h.logMem.chanUe (.chanUe (.raiseWith (.ifDo h.logMem (fun _ ht => ht.sat))))

theorem State.Canonical.chanCe {c a ce m} (h : s.Canonical) : (s.chanCe c a ce m).Canonical :=
  .ifDo h (fun _ ht => ht.satAdd.logMem)

theorem State.Canonical.chanRead {c off a m} (h : s.Canonical) : (s.chanRead c off a m).2.Canonical := by
  unfold State.chanRead
  split
  · exact h.chanCe
  · split
    · split
      · extract_lets r s1 s2
        have hs1 : s1.Canonical := h.chanUe
        have hs2 : s2.Canonical := .each hs1 fun _ _ ht => ht.dramMend
        exact hs2.sat.logMem.event
      · extract_lets s1 s2 s3 mine
        have hs1 : s1.Canonical := h.logMem.sat
        have hs2 : s2.Canonical := hs1.raiseWith.chanUe
        clear_value s2
        have hs3 : s3.Canonical := .ite hs2 hs2.chanUe
        clear_value s3
        exact .each hs3 fun _ _ ht => ht.sepLost
    · exact h.chanBad

theorem State.Canonical.dramWord {a m} (h : s.Canonical) : (s.dramWord a m).2.Canonical := by
  unfold State.dramWord
  split
  · exact h
  · exact h.chanRead

theorem State.Canonical.rebuiltTo {n} (h : s.Canonical) : (s.rebuiltTo n).Canonical :=
  .ifDo h (fun _ ht => ht.modMu.wr)

theorem State.Canonical.memWord {a m} (h : s.Canonical) : (s.memWord a m).2.Canonical := by
  unfold State.memWord
  split
  · exact h.bankWord
  · exact h.dramWord

theorem State.Canonical.memWords {a m n} (h : s.Canonical) : (s.memWords a m n).2.Canonical := by
  induction n generalizing a s with
  | zero => exact h
  | succ n ih =>
    unfold State.memWords
    split
    · rename_i e
      exact h.memWord.of_eq e
    · rename_i e
      have ht := h.memWord.of_eq e
      split
      all_goals
        rename_i e
        exact (ih ht).of_eq e

theorem State.Canonical.memBytes {a n m} (h : s.Canonical) : (s.memBytes a n m).2.Canonical := by
  unfold State.memBytes
  split
  all_goals
    rename_i e
    exact h.memWords.of_eq e

/-! ### What Machine/Memory.lean defines -/

theorem State.Canonical.fillChannel {c} (h : s.Canonical) : (s.fillChannel c).Canonical := by
  unfold State.fillChannel
  extract_lets s1
  have hs1 : s1.Canonical := h.clearMem
  exact hs1.modMu

theorem execDramFillDone_ends {c ok gib} : Ends s (execDramFillDone c ok gib s) := by
  unfold execDramFillDone
  split
  · split
    · extract_lets s1 s2
      have hs1 : s.Canonical → s1.Canonical := fun h => h.wr
      have hs2 : s.Canonical → s2.Canonical := fun h => .ite (hs1 h).wr
          (.ite (hs1 h).fillChannel.wr.storeRegs (hs1 h).wr.raise)
      exact .next fun h => .ite (hs2 h).wr.event (hs2 h)
    · split
      · exact .next fun h => h.wr.chanFail
      · split
        · exact .next fun h => h.modMu.wr.wr
        · exact .next fun h => h.fillChannel.wr.storeRegs
  · exact .next fun h => h

theorem execDramRetrain_ends {agent chans} : Ends s (execDramRetrain agent chans s) := by
  unfold execDramRetrain
  exact .next fun h => .write h (fun _ ht => .each ht (fun _ _ hu => .ifDo hu (fun _ hv2 => hv2.wr)))

theorem execRebuildDone_ends {c} : Ends s (execRebuildDone c s) := by
  unfold execRebuildDone
  split
  · exact .next fun h => h.rebuiltTo.wr.wr.event
  · exact .next fun h => h

theorem State.Canonical.stuck {s0 s1} (h : s.Canonical) : (s.stuck s0 s1).Canonical :=
  .ifDo (.ifDo h (fun _ ht => ht.chanFail)) (fun _ ht => ht.chanFail)

theorem State.Canonical.busError {m addr} (h : s.Canonical) : (s.busError m addr).Canonical := by
  unfold State.busError
  extract_lets s1
  have hs1 : s1.Canonical := h.sat
  split
  · exact hs1.emit.raise
  · exact .ite hs1.dcError.hwReact hs1
  · exact hs1.emit

theorem State.Canonical.dramPuts {a l} (h : s.Canonical) : (s.dramPuts a l).Canonical := by
  induction l generalizing a s with
  | nil => exact h
  | cons v r ih => exact ih h.dramPut

theorem State.Canonical.dramTaint {a flight} (h : s.Canonical) : (s.dramTaint a flight).Canonical := by
  unfold State.dramTaint
  split
  · exact .ite h.dramStrike.dramStrike h.dramStrike
  · exact h

theorem execDramWrite_ends {m addr words enables flight stuck0 stuck1} : Ends s
    (execDramWrite m addr words enables flight stuck0 stuck1 s) := by
  unfold execDramWrite
  extract_lets u
  have hu : s.Canonical → u.Canonical := fun h => h.stuck
  split
  · exact .next fun h => (hu h).busError
  · exact .next fun h => .ite (hu h).dramPuts (hu h).dramPuts.dramTaint

theorem execSealGo_ends {agent page count} : Ends s (execSealGo agent page count s) := by
  unfold execSealGo
  exact .next fun h => .write h (fun _ ht => .ite ht.accessBusy ht.wr.wr.modMu.wr.wr)

theorem State.Canonical.sealPage {p} (h : s.Canonical) : (s.sealPage p).Canonical := by
  unfold State.sealPage
  extract_lets hd
  exact h.modMu

theorem execSealDone_ends : Ends s (execSealDone s) := by
  unfold execSealDone
  split
  · extract_lets n s1
    have hs1 : s.Canonical → s1.Canonical := fun h => .modMu (.each h (fun _ _ ht => ht.sealPage))
    exact .next fun h => (hs1 h).wr.wr.event
  · exact .next fun h => h

theorem State.Canonical.passEnd {i} (h : s.Canonical) : (s.passEnd i).Canonical := h.inc.modMu.event

theorem State.Canonical.scrubBytes {a} (h : s.Canonical) : (s.scrubBytes a).Canonical := by
  unfold State.scrubBytes
  refine .each h (fun _ _ ht => ?_)
  split
  · exact ht.putUpset.stByte
  · exact ht

theorem State.Canonical.scrubPage {a} (h : s.Canonical) : (s.scrubPage a).Canonical :=
  .each h (fun _ _ ht => .ite ht (.ite ht.mendCodeword.sat ht.sat.bankUe.openPage))

theorem State.Canonical.scrubChan {c off a} (h : s.Canonical) : (s.scrubChan c off a).Canonical := by
  unfold State.scrubChan
  split
  · rename_i t e
    have ht := h.chanRead.of_eq e
    split
    · exact .ifDo ht.modMu (fun _ ht => ht.st)
    · exact ht
  · rename_i t e
    have ht := h.chanRead.of_eq e
    exact .ite ht ht.modMu

theorem execScrubRead_ends {addr strikes wrong0 wrong1 last} : Ends s
    (execScrubRead addr strikes wrong0 wrong1 last s) := by
  unfold execScrubRead
  extract_lets a
  split
  · exact .next fun h => h
  · split
    · exact .next fun h => .ifDo (.scrubBytes (.bankWord (.ite h.strike.scrubPage h.strike))) (fun _ ht => ht.passEnd)
    · split
      · split
        · exact .next fun h => h
        · extract_lets s1 s3
          have hs1 : s.Canonical → s1.Canonical := fun h => .ite h.dramStrike.dramStrike h.dramStrike
          have hs3 : s.Canonical → s3.Canonical := fun h => .ite
              (.each (hs1 h) (fun _ _ ht => .ifDo ht (fun _ hu => hu.scrubChan))) (hs1 h).scrubChan
          exact .next fun h => .ifDo (hs3 h) (fun _ ht => ht.passEnd)
      · exact .next fun h => h

theorem execScrubLate_ends {onChip} : Ends s (execScrubLate onChip s) := by
  unfold execScrubLate
  extract_lets i period
  split
  · exact .next fun h => h.modMu.raise
  · exact .next fun h => h

/-! ### What Machine/PowerBase.lean defines -/

theorem State.Canonical.modSeq {f} (h : s.Canonical) : (s.modSeq f).Canonical := { h with }

theorem State.Canonical.seqRegs (h : s.Canonical) : s.seqRegs.Canonical := h.wr.wr

theorem State.Canonical.cascRegs (h : s.Canonical) : s.cascRegs.Canonical := h.wr

theorem State.Canonical.startUp (h : s.Canonical) : s.startUp.Canonical := .ite h.modSeq.wr.seqRegs.cascRegs h.raise

theorem State.Canonical.startDown {failed auto_} (h : s.Canonical) : (s.startDown failed auto_).Canonical :=
  .ite h (.ite h.raise h.headsSafe.wr.vcoreMax.modSeq.wr.seqRegs.cascRegs)

theorem State.Canonical.stepFail {item reason} (h : s.Canonical) : (s.stepFail item reason).Canonical :=
  h.wr.wr.raise.startDown

theorem State.Canonical.seqRecord {item reason} (h : s.Canonical) : (s.seqRecord item reason).Canonical :=
  h.wr.wr.logRecord

theorem State.Canonical.fillRange {a n} (h : s.Canonical) : (s.fillRange a n).Canonical := .set_mu h.clearMem

theorem State.Canonical.clearDomain {d} (h : s.Canonical) : (s.clearDomain d).Canonical :=
  .each h (fun _ _ ht => ht.fillRange)

/-! ### What Machine/RegOps.lean defines -/

theorem State.Canonical.rawWord {p off v} (h : s.Canonical) : (s.rawWord p off v).Canonical := by
  unfold State.rawWord
  extract_lets s1
  have hs1 : s1.Canonical := .each h (fun _ _ ht => ht.wr)
  split
  · exact hs1.wr.wr
  · exact hs1.wr
  · exact hs1.wr
  · exact hs1

/-! ### What Machine/Clocks.lean defines -/

theorem State.Canonical.modClk {f} (h : s.Canonical) : (s.modClk f).Canonical := { h with }

theorem State.Canonical.acquire {p} (h : s.Canonical) : (s.acquire p).Canonical := h.wr.modClk

theorem State.Canonical.keeper {on_} (h : s.Canonical) : (s.keeper on_).Canonical := h.flag.wr

theorem execRefLoss_ends : Ends s (execRefLoss s) := by
  unfold execRefLoss
  split
  · exact .next fun h => h
  · extract_lets s1 s2
    have hs1 : s.Canonical → s1.Canonical := fun h => h.wr.modClk
    have hs2 : s.Canonical → s2.Canonical := fun h => .each (hs1 h)
        (fun _ _ ht => .ifDo ht (fun _ hu => .ite hu.wr hu))
    exact .next fun h => (hs2 h).wr.raise

theorem execRefLossLong_ends : Ends s (execRefLossLong s) := by
  unfold execRefLossLong
  split
  · split
    · extract_lets s1
      have hs1 : s.Canonical → s1.Canonical := fun h => h.modClk
      exact .next fun h => (hs1 h).loseExposingOf.wr
    · exact .next fun h => h
  · exact .next fun h => h

theorem execRefReturn_ends : Ends s (execRefReturn s) := by
  unfold execRefReturn
  split
  · exact .next fun h => h
  · extract_lets s1
    have hs1 : s.Canonical → s1.Canonical := fun h => h.wr.modClk
    exact .next fun h => .each (hs1 h) (fun _ _ ht => .ifDo ht (fun _ hu => hu.acquire))

theorem execAdpllLock_ends {p} : Ends s (execAdpllLock p s) := by
  unfold execAdpllLock
  split
  · extract_lets s1
    have hs1 : s.Canonical → s1.Canonical := fun h => h.wr.event
    split
    · exact .next fun h => (hs1 h).keeper.event
    · split
      · exact .next fun h => (hs1 h).wr.event
      · exact .next fun h => (hs1 h)
  · exact .next fun h => h

theorem State.Canonical.groupLost {p} (h : s.Canonical) : (s.groupLost p).Canonical := h.loseExposingOf.raiseWith

theorem State.Canonical.takeover {p} (h : s.Canonical) : (s.takeover p).Canonical := h.wr.wr.sat.event.raiseWith

theorem State.Canonical.pxLoss {p} (h : s.Canonical) : (s.pxLoss p).Canonical := .ite h (.ite h.takeover h.groupLost)

theorem execAdpllUnlock_ends {p} : Ends s (execAdpllUnlock p s) := by
  unfold execAdpllUnlock
  split
  · extract_lets s1
    have hs1 : s.Canonical → s1.Canonical := fun h => h.sat.acquire
    split
    · exact .next fun h => (hs1 h).keeper.raiseWith
    · split
      · exact .next fun h => (hs1 h).groupLost
      · split
        · exact .next fun h => (hs1 h).pxLoss
        · exact .next fun h => (hs1 h).wr
  · exact .next fun h => h

theorem State.Canonical.pllFail {p} (h : s.Canonical) : (s.pllFail p).Canonical := .ite h.wr.wr.raise h.wr

theorem execAdpllAcquireTimeout_ends {p} : Ends s (execAdpllAcquireTimeout p s) := by
  unfold execAdpllAcquireTimeout
  exact .next fun h => .ite h.pllFail h

theorem execPxTakeover_ends : Ends s (execPxTakeover s) := by
  unfold execPxTakeover
  split
  · exact .next fun h => h
  · extract_lets p
    split
    · exact .next fun h => h
    · exact .next fun h => .pxLoss (.ifDo h (fun _ ht => ht.sat.acquire))

theorem execCkPllWrite_ends {agent p value} : Ends s (execCkPllWrite agent p value s) := by
  unfold execCkPllWrite
  exact .next fun h => .write h (fun _ ht => .ite ht (.ite ht.accessBusy
      (.ite ht.wr.wr.flag.acquire (.ite ht.wr.wr.flag.wr.wr ht.wr.wr.flag))))

theorem execCkFracWrite_ends {agent p frac} : Ends s (execCkFracWrite agent p frac s) := by
  unfold execCkFracWrite
  exact .next fun h => .write h (fun _ ht => .ite ht (.ite ht.accessBusy
      (.ite (.ifDo ht.wr.modClk (fun _ hu => hu.acquire.wr)) ht.mismatch)))

theorem execRelock_ends {agent} : Ends s (execRelock agent s) := by
  unfold execRelock
  exact .next fun h => .write h (fun _ ht => .each ht (fun _ _ hu => .ifDo hu (fun _ hv2 => hv2.acquire)))

theorem execDllLock_ends {k} : Ends s (execDllLock k s) := by
  unfold execDllLock
  split
  · exact .next fun h => h.wr
  · exact .next fun h => h

theorem execDllUnlock_ends {k} : Ends s (execDllUnlock k s) := by
  unfold execDllUnlock
  extract_lets w s1
  have hs1 : s.Canonical → s1.Canonical := fun h => h.wr.loseExposing
  exact .next fun h => (hs1 h).raiseWith

theorem execBaseSynthLock_ends : Ends s (execBaseSynthLock s) := by
  unfold execBaseSynthLock
  exact .next fun h => .ite (.ifDo h.modClk (fun _ ht => ht.acquire)) h

/-! ### What Machine/Timeline.lean defines -/

theorem State.Canonical.ptCommit (h : s.Canonical) : s.ptCommit.Canonical := .ite h.wr.mark h.wr.ptBoundary

theorem State.Canonical.nextAnchor {t} (h : s.Canonical) : (s.nextAnchor t).Canonical := h.modTl.wr.wr

theorem execRunStart_ends : Ends s (execRunStart s) := by
  unfold execRunStart
  split
  · extract_lets first s1
    have hs1 : s.Canonical → s1.Canonical := fun h => h.wr.nextAnchor
    exact .next fun h => (hs1 h).modTl
  · exact .next fun h => h

theorem State.Canonical.announce {sheet len arrival again} (h : s.Canonical) :
    (s.announce sheet len arrival again).Canonical :=
  .ite h.decide_ h.modPort

theorem State.Canonical.addPitch {q len} (h : s.Canonical) : (s.addPitch q len).Canonical := h.modTl.nextAnchor

theorem State.Canonical.plainPitch {k page} (h : s.Canonical) : (s.plainPitch k page).Canonical :=
  .ifDo h.addPitch (fun _ ht => ht.freeNext)

theorem State.Canonical.sheetPitch {p} (h : s.Canonical) : (s.sheetPitch p).Canonical :=
  .ite h.addPitch.announce h.addPitch.decide_

theorem execAnnounceInstant_ends : Ends s (execAnnounceInstant s) := by
  unfold execAnnounceInstant
  split
  · split
    · exact .next fun h => h.endRun.event
    · split
      · exact .next fun h => h.plainPitch
      · split
        · exact .next fun h => h.wr.plainPitch
        · split
          · exact .next fun h => h.plainPitch
          · exact .next fun h => .ite h.sheetPitch h.plainPitch
  · exact .next fun h => h

theorem execPtSkip_ends {agent n} : Ends s (execPtSkip agent n s) := by
  unfold execPtSkip
  exact .next fun h => .write h (fun _ ht => ht.wr)

theorem State.Canonical.sendFeed {sheet len texp} (h : s.Canonical) : (s.sendFeed sheet len texp).Canonical :=
  .ite h h.modPort.modMod

theorem State.Canonical.feedPass {q p i} (h : s.Canonical) : (s.feedPass q p i).Canonical :=
  .sendFeed (.emit (.queueRegs (.wr (.wr (.wr (.wr (.wr (.wr
      (.wr (.ifDo h.modTl.modPage.pageTo.dequeue (fun _ ht => ht.sat)))))))))))

theorem State.Canonical.feedFail {q reasons} (h : s.Canonical) : (s.feedFail q reasons).Canonical :=
  .ite (.ite h.wr.sat.event.notice h.wr.sat.event.notice.modTl) h.wr.sat.event

theorem State.Canonical.rePitch {q} (h : s.Canonical) : (s.rePitch q).Canonical := by
  unfold State.rePitch
  split
  · exact h.nextAnchor
  · exact h.nextAnchor
  · exact h

theorem execFeedGate_ends : Ends s (execFeedGate s) := by
  unfold execFeedGate
  split
  · exact .next fun h => h
  · split
    · extract_lets s1
      have hs1 : s.Canonical → s1.Canonical := fun h => h.ptBoundary.boundary.pathLevel.modTl.rePitch
      split
      · exact .next fun h => (hs1 h)
      · split
        · exact .next fun h => .ite (hs1 h).pathReport.feedPass (hs1 h).pathReport.feedFail
        · exact .next fun h => (hs1 h).pathReport.feedFail
    · exact .next fun h => h

theorem execAnchorWindowEnd_ends {slot} : Ends s (execAnchorWindowEnd slot s) := by
  unfold execAnchorWindowEnd
  split
  · split
    · extract_lets s1 retired
      have hs1 : s.Canonical → s1.Canonical := fun h => h.modSlot.emit
      exact .next fun h => .ite (hs1 h) (hs1 h).failCommit
    · exact .next fun h => h
  · exact .next fun h => h

theorem State.Canonical.anchorEdge {stamp} (h : s.Canonical) : (s.anchorEdge stamp).Canonical := by
  unfold State.anchorEdge
  extract_lets waiting
  split
  · exact h.modSlot.wr
  · exact .ifDo h (fun _ ht => ht.event)

theorem State.Canonical.deliver {i stamp} (h : s.Canonical) : (s.deliver i stamp).Canonical := by
  unfold State.deliver
  split
  · exact h
  · split
    · exact h
    · exact .ifDo h.wr.freeSlot.pageTo.queueRegs.modJob.postEvent (fun _ ht => ht.retire)

theorem State.Canonical.exitEdge {stamp} (h : s.Canonical) : (s.exitEdge stamp).Canonical := by
  unfold State.exitEdge
  split
  · exact h.deliver
  · exact h

theorem State.Canonical.exitJam {i sl} (h : s.Canonical) : (s.exitJam i sl).Canonical := .ite h.jamSlots.modTl h

theorem execExitWindowEnd_ends {slot} : Ends s (execExitWindowEnd slot s) := by
  unfold execExitWindowEnd
  split
  · split
    · exact .next fun h => h.exitJam.freeSlot.queueRegs
    · exact .next fun h => h
  · exact .next fun h => h

theorem execDivertDeadline_ends {slot} : Ends s (execDivertDeadline slot s) := by
  unfold execDivertDeadline
  split
  · extract_lets lost
    split
    · exact .next fun h => h.emit
    · exact .next fun h => h
  · exact .next fun h => h

theorem State.Canonical.retirePage {p} (h : s.Canonical) : (s.retirePage p).Canonical :=
  .ite h.modPage h.codecDrop.retire

theorem State.Canonical.jobAbort {id} (h : s.Canonical) : (s.jobAbort id).Canonical :=
  .each h.modJob (fun _ _ ht => .ite ht.retirePage ht)

theorem State.Canonical.jobRegs (h : s.Canonical) : s.jobRegs.Canonical := h.wr

theorem State.Canonical.endJob {j} (h : s.Canonical) : (s.endJob j).Canonical :=
  .runReady (.jobRegs (.postEvent (.modTl (.each h (fun _ _ ht => ht.retire)))))

theorem execJobDone_ends {job} : Ends s (execJobDone job s) := by
  unfold execJobDone
  split
  · exact .next fun h => .ite h.endJob h
  · exact .next fun h => h

/-! ### What Machine/QuayOps.lean defines -/

theorem State.Canonical.modQuay {f} (h : s.Canonical) : (s.modQuay f).Canonical := { h with }

theorem State.Canonical.aer {row e} (h : s.Canonical) : (s.aer row e).Canonical :=
  .ite (.ite h.emit.raiseWith h.emit) h

theorem State.Canonical.ringsStop (h : s.Canonical) : s.ringsStop.Canonical :=
  .ite h.wr.wr.modQuay.winClose.event h.wr

theorem State.Canonical.ringsStart (h : s.Canonical) : s.ringsStart.Canonical := .ite h.wr h.winSet.wr.wr.modQuay.wr

theorem State.Canonical.functionReset (h : s.Canonical) : s.functionReset.Canonical := by
  unfold State.functionReset
  extract_lets s1 s2 s3 s4
  have hs1 : s1.Canonical := .each h.ringsStop fun _ _ ht => ht.winClose
  have hs2 : s2.Canonical := hs1.wr.wr.wr
  have hs4 : s4.Canonical := .each hs2.wr.wr fun _ _ ht => ht.wr.wr.wr.wr
  exact hs4.wr.wr.modQuay

theorem State.Canonical.takeEntry (h : s.Canonical) : s.takeEntry.Canonical := h.wr

theorem State.Canonical.heard (h : s.Canonical) : s.heard.Canonical := h.modQuay.wr

theorem State.Canonical.reply {hd code} (h : s.Canonical) : (s.reply hd code).Canonical := h.postCompletion

theorem State.Canonical.duplicate {hd} (h : s.Canonical) : (s.duplicate hd).Canonical := by
  unfold State.duplicate
  extract_lets s1
  have hs1 : s1.Canonical := h.sat
  split
  · exact hs1.cqSubmit
  · exact hs1.reply

theorem State.Canonical.gap {hd} (h : s.Canonical) : (s.gap hd).Canonical := .ite h.sat h.sat.modQuay.reply

theorem State.Canonical.message {hd namesJob k} (h : s.Canonical) (hk : ∀ t, t.Canonical → (k t).Canonical) :
    (s.message hd namesJob k).Canonical := by
  unfold State.message
  split
  · exact h
  · extract_lets u
    have hu : u.Canonical := h.takeEntry
    exact .ite hu.reply (.ite (.ite hu.sat.reply.raise hu.sat.reply)
        (.ite hu.heard.reply (.ite (.ite hu.heard.wr.modQuay.drain.reply (hk _ hu.heard.wr.modQuay.drain))
        (.ite hu.heard.duplicate hu.heard.gap))))

theorem State.Canonical.jobMessage {hd k} (h : s.Canonical) (hk : ∀ a0 t, t.Canonical → (k a0 t).Canonical) :
    (s.jobMessage hd k).Canonical := by
  unfold State.jobMessage
  split
  · exact h.reply
  · split
    · exact hk _ _ h
    · exact h.reply

theorem State.Canonical.pageMessage {hd id k} (h : s.Canonical)
    (hk : ∀ a0 a1 t, t.Canonical → (k a0 a1 t).Canonical) : (s.pageMessage hd id k).Canonical := by
  unfold State.pageMessage
  refine .jobMessage h (fun _ _ ht => ?_)
  split
  · exact .ite (hk _ _ _ ht) ht.reply
  · exact ht.reply

theorem State.Canonical.closeWindows (h : s.Canonical) : s.closeWindows.Canonical :=
  .each h (fun _ _ ht => ht.winClose)

theorem State.Canonical.abortJobs (h : s.Canonical) : s.abortJobs.Canonical := .each h (fun _ _ ht => ht.jobAbort)

theorem State.Canonical.endSession (h : s.Canonical) : s.endSession.Canonical := h.wr.wr.modQuay.closeWindows

theorem State.Canonical.nextEpoch (h : s.Canonical) : s.nextEpoch.Canonical := h.st.wr

theorem State.Canonical.issueOrphans (h : s.Canonical) : s.issueOrphans.Canonical :=
  .heldRegs (.each h.modQuay (fun _ _ ht => ht.cqIssue))

/-! ### What Machine/Quay.lean defines -/

theorem execPcieLinkUp_ends {speed width} : Ends s (execPcieLinkUp speed width s) := by
  unfold execPcieLinkUp
  extract_lets up s1
  have hs1 : s.Canonical → s1.Canonical := fun h => h.wr.wr.modQuay
  exact .next fun h => .ite (hs1 h).sat (hs1 h).event

theorem execConfigurationWrite_ends {d3hot fnMask aerMask} : Ends s (execConfigurationWrite d3hot fnMask aerMask s) :=
  by
  unfold execConfigurationWrite
  exact .next fun h => h.modQuay

theorem execFunctionReset_ends {perst} : Ends s (execFunctionReset perst s) := by
  unfold execFunctionReset
  extract_lets s1 s2
  have hs1 : s.Canonical → s1.Canonical := fun h => h.functionReset
  have hs2 : s.Canonical → s2.Canonical := fun h => .ite (hs1 h).wr.wr.modQuay (hs1 h)
  exact .next fun h => (hs2 h).raise

theorem execBar2Write_ends {off bytes poisoned} : Ends s (execBar2Write off bytes poisoned s) := by
  unfold execBar2Write
  split
  · exact .next fun h => h.aer
  · split
    · exact .next fun h => h.sat.aer
    · extract_lets n
      exact .next fun h => .bankPuts (.ifDo h (fun _ ht => ht.sat))

theorem execBar2Read_ends {off len} : Ends s (execBar2Read off len s) := by
  unfold execBar2Read
  split
  · exact .next fun h => h.emit.aer
  · split
    · exact .next fun h => h.emit
    · extract_lets n
      split
      · rename_i t e
        have ht := fun h : State.Canonical s => h.memBytes.of_eq e
        exact .next fun h => (ht h).emit
      · rename_i t e
        have ht := fun h : State.Canonical s => h.memBytes.of_eq e
        exact .next fun h => (ht h).emit.aer

theorem execMsixSend_ends {vector} : Ends s (execMsixSend vector s) := by
  unfold execMsixSend
  extract_lets w
  split
  · exact .next fun h => h.wr.emit
  · exact .next fun h => h

theorem execIrqHoldoffExpiry_ends : Ends s (execIrqHoldoffExpiry s) := by
  unfold execIrqHoldoffExpiry
  exact .next fun h => h.irqSend

theorem execRingsEnable_ends {agent on} : Ends s (execRingsEnable agent on s) := by
  unfold execRingsEnable
  exact .next fun h => .guarded h (fun _ ht => .ite ht.ringsStart ht.ringsStop.hwReact)

theorem execSqTailWrite_ends {agent tail} : Ends s (execSqTailWrite agent tail s) := by
  unfold execSqTailWrite
  exact .next fun h => .guarded h (fun _ ht => .ite ht.modQuay ht.sat)

theorem execCqHeadWrite_ends {agent head} : Ends s (execCqHeadWrite agent head s) := by
  unfold execCqHeadWrite
  exact .next fun h => .guarded h (fun _ ht => ht.modQuay.drain)

theorem execBadCrc_ends : Ends s (execBadCrc s) := by
  unfold execBadCrc
  split
  · extract_lets s1
    have hs1 : s.Canonical → s1.Canonical := fun h => h.takeEntry.sat
    exact .next fun h => (hs1 h).postCompletion.raise
  · exact .next fun h => h

theorem execBadType_ends {hdr _type} : Ends s (execBadType hdr _type s) := by
  unfold execBadType
  exact .next fun h => .message h (fun _ ht => ht.reply)

theorem execSessionOpen_ends {hdr hostTag version} : Ends s (execSessionOpen hdr hostTag version s) := by
  unfold execSessionOpen
  split
  · exact .next fun h => h
  · extract_lets u
    have hu : s.Canonical → u.Canonical := fun h => h.takeEntry
    split
    · exact .next fun h => (hu h).reply
    · split
      · exact .next fun h => (hu h).reply
      · exact .next fun h => .event (.issueOrphans (.postCompletion
            (.modQuay (.heard (.wr (.wr (.wr (.nextEpoch (.ite (hu h).endSession.abortJobs.hwReact (hu h))))))))))

theorem execSessionResume_ends {hdr lastAck lastDseq hostTag} : Ends s
    (execSessionResume hdr lastAck lastDseq hostTag s) := by
  unfold execSessionResume
  split
  · exact .next fun h => h
  · extract_lets u cur
    have hu : s.Canonical → u.Canonical := fun h => h.takeEntry
    split
    · exact .next fun h => (hu h).reply
    · split
      · exact .next fun h => (hu h).reply
      · exact .next fun h => .event (.heldRegs (.each (hu h).nextEpoch.modQuay.drain.heard.postCompletion
            (fun _ _ ht => ht.cqSubmit)))

theorem execSessionClose_ends {hdr} : Ends s (execSessionClose hdr s) := by
  unfold execSessionClose
  exact .next fun h => .message h (fun _ ht => .ite ht.reply ht.abortJobs.reply.endSession.event.hwReact)

theorem execKeepalive_ends {hdr} : Ends s (execKeepalive hdr s) := by
  unfold execKeepalive
  exact .next fun h => .message h (fun _ ht => ht.reply)

theorem execHostSilent_ends : Ends s (execHostSilent s) := by
  unfold execHostSilent
  extract_lets n
  split
  · exact .next fun h => .raise (.ifDo h.wr (fun _ ht => ht.wr))
  · exact .next fun h => h

theorem execWindowSet_ends {hdr window valid rd wr base size} : Ends s
    (execWindowSet hdr window valid rd wr base size s) := by
  unfold execWindowSet
  exact .next fun h => .message h (fun _ ht => .ite ht.winSet.reply.hwReact ht.reply)

theorem execJobOpen_ends {hdr stations reprint skipOk} : Ends s (execJobOpen hdr stations reprint skipOk s) := by
  unfold execJobOpen
  refine .next fun h => ?_
  refine .message h (fun _ ht => .ite ht.reply (.ite ht.reply ?_))
  split
  · exact ht.reply
  · exact .ite ht.reply ht.modTl.jobRegs.reply.runReady

theorem execJobClose_ends {hdr} : Ends s (execJobClose hdr s) := by
  unfold execJobClose
  exact .next fun h => .message h (fun _ ht => .jobMessage ht (fun _ _ hu => hu.modJob.reply))

theorem execJobAbort_ends {hdr} : Ends s (execJobAbort hdr s) := by
  unfold execJobAbort
  exact .next fun h => .message h (fun _ ht => .jobMessage ht (fun _ _ hu => hu.jobAbort.reply))

theorem execPageDefine_ends {hdr pageId sheetLen width height fmt} : Ends s
    (execPageDefine hdr pageId sheetLen width height fmt s) := by
  unfold execPageDefine
  refine .next fun h => ?_
  refine .message h (fun _ ht => .jobMessage ht (fun _ _ hu => .ite hu.reply ?_))
  split
  · exact hu.reply
  · exact .ite hu.reply (.ite hu.reply hu.modTl.reply)

theorem execPageRelease_ends {hdr pageId} : Ends s (execPageRelease hdr pageId s) := by
  unfold execPageRelease
  refine .next fun h => ?_
  refine .message h (fun _ ht => .pageMessage ht (fun _ _ _ hu => .ite hu.reply
      (.reply (.queueRegs (.ite hu.modPage.modTl.pageTo hu.modPage.modTl)))))

theorem execPageRetire_ends {hdr pageId} : Ends s (execPageRetire hdr pageId s) := by
  unfold execPageRetire
  refine .next fun h => ?_
  refine .message h (fun _ ht => .jobMessage ht (fun _ _ hu => ?_))
  split
  · exact .ite hu.reply (.ite hu.reply hu.retirePage.reply)
  · exact hu.reply

theorem execPageQuery_ends {hdr pageId} : Ends s (execPageQuery hdr pageId s) := by
  unfold execPageQuery
  refine .next fun h => ?_
  refine .message h (fun _ ht => ?_)
  split
  · exact ht.reply
  · exact .ite ht.postCompletion ht.reply
  · exact ht.reply

theorem State.Canonical.modSep {id k f} (h : s.Canonical) : (s.modSep id k f).Canonical := h.modPage

theorem State.Canonical.sepPart {hd p j k offs len last encode streamLen bad body} (h : s.Canonical) :
    (s.sepPart hd p j k offs len last encode streamLen bad body).Canonical := by
  unfold State.sepPart
  extract_lets old part s1
  clear_value old
  have hs1 : s1.Canonical := by
    dsimp only [s1]
    split
    · exact h.modSep
    · exact h.modPage
  split
  · exact h.reply
  · exact .ite h.reply (.ite h.reply (.ite h.reply (.ite h.reply hs1.reply)))

theorem State.Canonical.refuseSep {id k reason status scope offs} (h : s.Canonical) :
    (s.refuseSep id k reason status scope offs).Canonical :=
  .storeRegs (.postEvent (.ite h.modPage h.modSep))

theorem State.Canonical.postPart {id job k result offs} (h : s.Canonical) :
    (s.postPart id job k result offs).Canonical := h.postEvent

theorem execSepSubmit_ends {hdr pageId station last encode effort grow window offset partOffs length streamLen
    stride} : Ends s (execSepSubmit hdr pageId station last encode effort grow window offset partOffs length
    streamLen stride s) := by
  unfold execSepSubmit
  exact .next fun h => .message h (fun _ ht => .pageMessage ht
      (fun _ _ _ hu => .ite hu.sepPart.postPart.refuseSep hu.sepPart))

theorem execSepWritten_ends {hdr pageId station last mbOffs partOffs length streamLen} : Ends s
    (execSepWritten hdr pageId station last mbOffs partOffs length streamLen s) := by
  unfold execSepWritten
  exact .next fun h => .message h (fun _ ht => .pageMessage ht (fun _ _ _ hu => hu.sepPart))

theorem State.Canonical.storeStream {q o n l} (h : s.Canonical) : (s.storeStream q o n l).Canonical := by
  induction n generalizing o l s with
  | zero => exact h
  | succ n ih => exact ih h.memPut

theorem State.Canonical.partBytes {r data} (h : s.Canonical) : (s.partBytes r data).2.Canonical := by
  unfold State.partBytes
  split
  · exact h.memBytes
  · exact h

theorem State.Canonical.partFail {p k r reason status} (h : s.Canonical) :
    (s.partFail p k r reason status).Canonical :=
  h.postPart.refuseSep

theorem State.Canonical.partStore {p q r stream} (h : s.Canonical) : (s.partStore p q r stream).Canonical := by
  unfold State.partStore
  extract_lets encoded n
  split
  · exact h.partFail
  · exact .ite h.modSep.storeStream.storeRegs.postPart h.partFail

theorem execPartDone_ends {pageId station partOffs result status data} : Ends s
    (execPartDone pageId station partOffs result status data s) := by
  unfold execPartDone
  split
  · exact .next fun h => h
  · split
    · exact .next fun h => h
    · split
      · exact .next fun h => h
      · split
        · exact .next fun h => h.modSep.postPart
        · extract_lets w submit
          split
          · exact .next fun h => h.partFail
          · split
            · exact .next fun h => h.partFail
            · split
              · exact .next fun h => h.partFail
              · split
                · rename_i u e
                  have hu := fun h : State.Canonical s => h.partBytes.of_eq e
                  exact .next fun h => (hu h).partFail
                · rename_i u e
                  have hu := fun h : State.Canonical s => h.partBytes.of_eq e
                  exact .next fun h => (hu h).partStore

end Sys2Proof.Machine
end

