-- ==== Sys2Proof/Proofs/CanonicalImaging.lean ====
section
/-!
PROOFS. The imaging pipeline, the codecs, beam timing and the loop engines keep the canonical form.
-/
namespace Sys2Proof.Machine

variable {s : State}

/-! ### What Machine/Scan.lean defines -/

theorem State.Canonical.needRegs {k} (h : s.Canonical) : (s.needRegs k).Canonical := h.wr.wr

theorem State.Canonical.linkCheck {k} (h : s.Canonical) : (s.linkCheck k).Canonical :=
  .ite (.ite (.ifDo h.needRegs.wr (fun _ ht => ht.event)) (.ifDo h.needRegs.wr (fun _ ht => ht.event))) h

theorem State.Canonical.modBind {k i f} (h : s.Canonical) : (s.modBind k i f).Canonical := h.modSta

theorem State.Canonical.zonePlaces {k} (h : s.Canonical) : (s.zonePlaces k).Canonical :=
  .each h (fun _ _ ht => .ifDo ht.wrS (fun _ hu => hu.event))

theorem State.Canonical.bindApply {k i} (h : s.Canonical) : (s.bindApply k i).Canonical := by
  unfold State.bindApply
  extract_lets p
  split
  · split
    · exact h.applyStaged.modBind.zonePlaces.event
    · exact h.applyStaged.modBind.event.wr.wr.linkCheck
    · exact h.applyStaged.modBind.event.modLink
  · exact h

theorem State.Canonical.activateSets {k first} (h : s.Canonical) : (s.activateSets k first).Canonical :=
  .each h (fun _ _ ht => .ifDo ht (fun _ hu => hu.bindApply))

theorem State.Canonical.modFeedSlot {f g} (h : s.Canonical) : (s.modFeedSlot f g).Canonical := h.modSlot

theorem State.Canonical.ringRegs {k} (h : s.Canonical) : (s.ringRegs k).Canonical := h.wr.wr

theorem State.Canonical.feedStart {k f} (h : s.Canonical) : (s.feedStart k f).Canonical := by
  unfold State.feedStart
  extract_lets s1 s2 s3 s4 s5
  have hs1 : s1.Canonical := h.modFeeds.modFeedSlot
  have hs2 : s2.Canonical := hs1.wr.wr.flag
  have hs3 : s3.Canonical := .ifDo hs2.codecRegs (fun _ ht => ht.wr)
  have hs4 : s4.Canonical := .ifDo hs3 (fun _ ht => ht.wr.modIlace)
  have hs5 : s5.Canonical := hs4.modLink
  exact .ifDo hs5 (fun _ ht => ht.event)

theorem State.Canonical.feedDone {k f} (h : s.Canonical) : (s.feedDone k f).Canonical :=
  .codecRegs (.ifDo h.modFeeds.modFeedSlot.modLink.modIlace (fun _ ht => ht.wr))

theorem State.Canonical.scanEnd {k f n} (h : s.Canonical) : (s.scanEnd k f n).Canonical :=
  .ifDo (.ifDo h (fun _ ht => ht.modRing.ringRegs)) (fun _ ht => ht.feedDone)

theorem State.Canonical.scanReads {k f n} (h : s.Canonical) : (s.scanReads k f n).Canonical := by
  unfold State.scanReads
  extract_lets words lines len tables ringBad tableBad s1 s2 s3 s4
  have hs1 : s1.Canonical := .each h (fun _ _ ht => ht.memWord)
  have hs2 : s2.Canonical := hs1.satAdd
  have hs3 : s3.Canonical := .ifDo hs2 (fun _ ht => ht.event.raiseWith)
  have hs4 : s4.Canonical := .ifDo hs3 (fun _ ht => ht.event.raiseWith.modLink)
  exact .ifDo hs4 (fun _ ht => ht.pageLost)

theorem State.Canonical.packet {k f n} (h : s.Canonical) : (s.packet k f n).Canonical := .ite h h.emit.wr

theorem State.Canonical.scanSend {k f n} (h : s.Canonical) : (s.scanSend k f n).Canonical :=
  .ifDo h.modLink.scanReads (fun _ ht => ht.packet)

theorem State.Canonical.scanIssue {k f n} (h : s.Canonical) : (s.scanIssue k f n).Canonical :=
  .ite h.scanSend.scanEnd h.sat.event.modLink

theorem State.Canonical.scanResume {k} (h : s.Canonical) : (s.scanResume k).Canonical := by
  unfold State.scanResume
  split
  · exact .ite h.scanSend.scanEnd h
  · exact h

theorem State.Canonical.trimSlew {k exposing} (h : s.Canonical) : (s.trimSlew k exposing).Canonical := h.wrS.flag

theorem State.Canonical.scanStep {k} (h : s.Canonical) : (s.scanStep k).Canonical := by
  unfold State.scanStep
  extract_lets s0 s0' feed first s1 s2 live tls strobe room s3 s4 s5
  clear_value feed
  have hs0 : s0.Canonical := by
    dsimp only [s0]
    split
    · exact h.modLink.scanEnd
    · exact h
  have hs1 : s1.Canonical := .activateSets (.inc (.ifDo hs0 fun _ ht => ht.cutEnd))
  have hs2 : s2.Canonical := by
    dsimp only [s2]
    split
    · exact .ite hs1 hs1.feedStart
    · exact hs1
  have hs4 : s4.Canonical := .ifDo hs2.modBeam.modIlace fun _ ht => ht.event.raise
  have hs5 : s5.Canonical := by
    dsimp only [s5]
    split
    · exact .ite hs4.scanIssue hs4.scanEnd
    · exact hs4
  exact hs5.trimSlew

/-! ### What Machine/Codec.lean defines -/

theorem State.Canonical.streamWords {q o m n} (h : s.Canonical) : (s.streamWords q o m n).2.Canonical := by
  induction n generalizing o s with
  | zero => exact h
  | succ n ih =>
    unfold State.streamWords
    split
    · rename_i e
      exact h.memWord.of_eq e
    · rename_i e
      have ht := h.memWord.of_eq e
      split
      all_goals
        rename_i e
        exact (ih ht).of_eq e

theorem State.Canonical.streamBytes {q o n m} (h : s.Canonical) : (s.streamBytes q o n m).2.Canonical := by
  unfold State.streamBytes
  split
  all_goals
    rename_i e
    exact h.streamWords.of_eq e

theorem State.Canonical.becomeResident {id} (h : s.Canonical) : (s.becomeResident id).Canonical := by
  unfold State.becomeResident
  split
  · exact .ite h.pageTo.modPage.postEvent h
  · exact h

theorem State.Canonical.sepStored {p q} (h : s.Canonical) : (s.sepStored p q).Canonical :=
  h.modPage.inc.postEvent.becomeResident

theorem execSeparationWritten_ends {pageId station lane} : Ends s (execSeparationWritten pageId station lane s) := by
  unfold execSeparationWritten
  split
  · exact .next fun h => h
  · split
    · exact .next fun h => h
    · extract_lets m
      split
      · rename_i u e
        have hu := fun h : State.Canonical s => h.streamBytes.of_eq e
        exact .next fun h => (hu h).refuseSep
      · rename_i u e
        have hu := fun h : State.Canonical s => h.streamBytes.of_eq e
        extract_lets good
        exact .next fun h => .ite (hu h).sepStored (hu h).sat.event.raise.refuseSep

theorem execFirstHeaderFetch_ends {pageId station lane} : Ends s (execFirstHeaderFetch pageId station lane s) := by
  unfold execFirstHeaderFetch
  split
  · extract_lets mine
    split
    · exact .next fun h => h
    · split
      · exact .next fun h => h.wr.event.raiseWith
      · split
        · rename_i u e
          have hu := fun h : State.Canonical s => h.wr.streamBytes.of_eq e
          exact .next fun h => .ite (hu h).sepLost (hu h)
        · rename_i u e
          have hu := fun h : State.Canonical s => h.wr.streamBytes.of_eq e
          extract_lets t1
          have ht1 : s.Canonical → t1.Canonical := fun h => (hu h).wr.wr.wr.wr.wr
          exact .next fun h => (ht1 h).modCtx.codecRegs
  · exact .next fun h => h

theorem State.Canonical.ringBegin {x0 id lines lineBytes} (h : s.Canonical) :
    (s.ringBegin x0 id lines lineBytes).Canonical :=
  h.modRing.modCtx.ringRegs

theorem State.Canonical.jobFail {lane x code offs gone} (h : s.Canonical) :
    (s.jobFail lane x code offs gone).Canonical := by
  unfold State.jobFail
  extract_lets id n s1 s2 s3 s4 s5
  have hs2 : s2.Canonical := h.wr.wr.sat.ctxIdle.event
  have hs3 : s3.Canonical := by
    dsimp only [s3]
    split
    · exact hs2.pageLost
    · exact hs2
  have hs4 : s4.Canonical := .ifDo hs3 fun _ ht => ht.modCtx
  exact .codecRegs (.ifDo hs4.raiseWith fun _ ht => ht.sepLost)

theorem execDecodeBlockStart_ends {lane} : Ends s (execDecodeBlockStart lane s) := by
  unfold execDecodeBlockStart
  split
  · exact .next fun h => h
  · split
    · exact .next fun h => h
    · extract_lets id
      split
      · exact .next fun h => h
      · split
        · exact .next fun h => .codecRegs (.ifDo h.wr.wr.wr (fun _ ht => ht.sat.event.modCtx))
        · extract_lets s3
          have hs3 : s.Canonical → s3.Canonical := fun h => .ringBegin
              (.codecRegs (.ifDo h.wr.wr.wr (fun _ ht => ht.sat.event.modCtx)))
          split
          · rename_i u e
            have hu := fun h : State.Canonical s => (hs3 h).streamBytes.of_eq e
            exact .next fun h => (hu h).jobFail
          · rename_i u e
            have hu := fun h : State.Canonical s => (hs3 h).streamBytes.of_eq e
            refine .next fun h => ?_
            split
            · exact .ite (hu h) (hu h).jobFail
            · exact (hu h).jobFail

theorem State.Canonical.ringSeal {k a b} (h : s.Canonical) : (s.ringSeal k a b).Canonical :=
  .ifDo h (fun _ ht => .each ht (fun _ _ hu => hu.sealPage))

theorem State.Canonical.ringWrite {k lb n pos l} (h : s.Canonical) : (s.ringWrite k lb n pos l).Canonical := by
  induction n generalizing pos l s with
  | zero => exact h
  | succ n ih => exact .ite h (ih h.bankPuts)

theorem State.Canonical.publish {k b} (h : s.Canonical) : (s.publish k b).Canonical :=
  h.ringSeal.modRing.ringRegs.scanResume

theorem State.Canonical.blockDone {lane x1 q lb hd out} (h : s.Canonical) :
    (s.blockDone lane x1 q lb hd out).Canonical := by
  unfold State.blockDone
  extract_lets k c n offs s1 s2 s3
  have hs1 : s1.Canonical := h.ringWrite.modCtx
  have hs2 : s2.Canonical := hs1.inc.inc.sat
  have hs3 : s3.Canonical := hs2.ctxIdle.publish.codecRegs
  split
  · split
    · exact hs3.jobFail
    · split
      · rename_i u e
        have hu := hs3.streamBytes.of_eq e
        exact hu.jobFail
      · rename_i u e
        have hu := hs3.streamBytes.of_eq e
        exact .ite hu.ctxClose.codecRegs.event hu.jobFail
  · exact hs3

theorem execDecodeBlockDone_ends {lane} : Ends s (execDecodeBlockDone lane s) := by
  unfold execDecodeBlockDone
  extract_lets n c
  split
  · extract_lets x
    split
    · exact .next fun h => h
    · split
      · exact .next fun h => h.jobFail
      · split
        · rename_i u e
          have hu := fun h : State.Canonical s => h.streamBytes.of_eq e
          exact .next fun h => (hu h).jobFail
        · rename_i u e
          have hu := fun h : State.Canonical s => h.streamBytes.of_eq e
          split
          · exact .next fun h => (hu h).jobFail
          · extract_lets e
            split
            · exact .next fun h => (hu h).jobFail
            · split
              · exact .next fun h => (hu h).jobFail
              · split
                · rename_i u e
                  have hu := fun h : State.Canonical s => (hu h).streamBytes.of_eq e
                  exact .next fun h => (hu h).jobFail
                · rename_i u e
                  have hu := fun h : State.Canonical s => (hu h).streamBytes.of_eq e
                  split
                  · exact .next fun h => (hu h).jobFail
                  · exact .next fun h => (hu h).blockDone
  · exact .next fun h => h

theorem State.Canonical.ctxEnd {x0} (h : s.Canonical) : (s.ctxEnd x0).Canonical := h.ctxClose.codecRegs

theorem execZeroFillLine_ends {ctx} : Ends s (execZeroFillLine ctx s) := by
  unfold execZeroFillLine
  extract_lets x k id shape
  clear_value shape
  split
  · exact .next fun h => h
  · split
    · exact .next fun h => h.ctxEnd
    · extract_lets s1 r s2
      have hs1 : s.Canonical → s1.Canonical := fun h => .ifDo h fun _ ht => ht.ringBegin
      have hs2 : s.Canonical → s2.Canonical := fun h => (hs1 h).bankPuts.publish
      split
      · exact .next fun h => h.ctxEnd
      · split
        · exact .next fun h => h
        · split
          · exact .next fun h => (hs1 h).ctxEnd
          · split
            · exact .next hs1
            · exact .next fun h => .ite (hs2 h).ctxEnd (hs2 h)

theorem execGo_ends {agent lane value} : Ends s (execGo agent lane value s) := by
  unfold execGo
  exact .next fun h => .write h (fun _ ht => .ite ht.accessBusy
      (.ite ht.wr.wr.wr.wr.ejFail (.ite ht.wr.wr.wr.wr.ejFail ht.wr.wr.wr.wr.wr.wr.wr.wr)))

theorem State.Canonical.ejLine {t : State} {j n data r} (h : s.Canonical) (e : s.ejLine j n data = (r, t)) :
    t.Canonical := by
  generalize hread : @State.ejLine = read at e
  delta State.ejLine at hread
  generalize hostWindow = window, @State.ejSrc = src at hread
  subst hread
  dsimp -zeta only at e
  extract_lets +onlyGivenNames stride len a at e
  split at e
  · split at e <;> cases e <;> exact h
  · split at e
    · split at e
      all_goals
        rename_i e'
        cases e
        exact h.memBytes.of_eq e'
    · cases e
      exact h

/-- The lines an encode job reads, by whatever reads one line. -/
def readLines (read : Nat → State → SrcLine × State) : Nat → Nat → State → SrcLine × State
  | 0, _, s => (.bytes [], s)
  | n + 1, i, s =>
    match read i s with
    | (.bytes l, t) =>
      match readLines read n (i + 1) t with
      | (.bytes r, u) => (.bytes (l ++ r), u)
      | e => e
    | e => e

theorem State.ejLines_eq {j data} : State.ejLines j data = readLines (fun i s => s.ejLine j i data) := by
  generalize hlines : @State.ejLines = lines
  delta State.ejLines at hlines
  generalize hbody : @State.ejLines._f = body at hlines
  delta State.ejLines._f at hbody
  generalize @State.ejLine = read at hbody
  subst hlines hbody
  revert read
  refine id fun read => ?_
  funext n i s
  induction n generalizing i s with
  | zero => rfl
  | succ n ih =>
    unfold readLines
    simp only [← ih] <;> rfl

theorem State.Canonical.readLines {t : State} {read n i r} (h : s.Canonical)
    (hread : ∀ {s t : State} {i r}, s.Canonical → read i s = (r, t) → t.Canonical)
    (e : readLines read n i s = (r, t)) : t.Canonical := by
  induction n generalizing i s r with
  | zero => cases e; exact h
  | succ n ih =>
    unfold readLines at e
    split at e
    · rename_i u hu
      split at e
      · rename_i hr
        cases e
        exact ih (hread h hu) hr
      · exact ih (hread h hu) e
    · exact hread h e

theorem State.Canonical.ejLines {t : State} {j data n i r} (h : s.Canonical) (e : s.ejLines j data n i = (r, t)) :
    t.Canonical := by
  rw [State.ejLines_eq] at e
  exact h.readLines .ejLine e

theorem execEncodeJobDone_ends {lane data} : Ends s (execEncodeJobDone lane data s) := by
  unfold execEncodeJobDone
  extract_lets j
  split
  · exact .next fun h => h
  · split
    · rename_i t e
      exact .next fun h => (h.ejLines e).ejFail
    · rename_i t e
      exact .next fun h => (h.ejLines e).ejFail
    · rename_i t e
      have ht := fun h : State.Canonical s => h.ejLines e
      extract_lets hd out words
      split
      · exact .next fun h => (ht h).ejFail
      · split
        · exact .next fun h => (ht h).ejFail.freeNext
        · exact .next fun h => (ht h).memPuts.wr.wr.wr.wr.event

theorem execEncodeJobFail_ends {lane status} : Ends s (execEncodeJobFail lane status s) := by
  unfold execEncodeJobFail
  exact .next fun h => .ite h h.ejFail

theorem execEncodeAbort_ends {agent lane header} : Ends s (execEncodeAbort agent lane header s) := by
  unfold execEncodeAbort
  exact .next fun h => .write h (fun _ ht => .ite ht ht.ejFail)

/-! ### What Machine/Access.lean defines -/

theorem State.Canonical.berthUe {n fetch} (h : s.Canonical) : (s.berthUe n fetch).Canonical :=
  .ite (.sat { h with }) (.ite h (.ifDo (.raiseWith (.set_berths h.haltBerth.sat)) (fun _ ht => ht.openRecovery)))

theorem State.Canonical.pipelineUe {k addr} (h : s.Canonical) : (s.pipelineUe k addr).Canonical :=
  .loseExposing (.ite h.satAdd.event.raiseWith h.satAdd.event.raiseWith.modLink)

theorem State.Canonical.masterUe {m addr} (h : s.Canonical) : (s.masterUe m addr).Canonical := by
  unfold State.masterUe
  split
  · exact h.berthUe
  · exact .ite h.dcError h
  · split
    · split
      · exact h.jobFail
      · exact h
    · exact .ite h h.ejFail
  · exact h.pipelineUe
  · exact .ite h h.slotHold.latch
  · exact h.emit.aer
  · exact h

theorem State.Canonical.masterOk {m} (h : s.Canonical) : (s.masterOk m).Canonical := by
  unfold State.masterOk
  split
  · exact { h with }
  · exact h

theorem State.Canonical.readEnd {m addr} {x : Option Nat × State} (h : x.2.Canonical) :
    (State.readEnd m addr x).Canonical := by
  obtain ⟨_ | v, t⟩ := x
  · exact h.masterUe.hwReact
  · exact h.masterOk.emit

theorem State.Canonical.portPut {primary a v} (h : s.Canonical) : (s.portPut primary a v).Canonical := by
  unfold State.portPut
  split
  · exact .ite h h.bankPut.modMu
  · exact h.bankPut.modMu

theorem execBankRead_ends {m addr strikes flight} : Ends s (execBankRead m addr strikes flight s) := by
  unfold execBankRead
  extract_lets a
  split
  · exact .next fun h => h.busError
  · split
    · rename_i e
      exact .next fun h => .readEnd (h.strike.bankWord.of_eq e)
    · rename_i e
      have ht := fun h : State.Canonical s => h.strike.bankWord.of_eq e
      split
      all_goals
        rename_i e
        exact .next fun h => .readEnd ((ht h).fabric.of_eq e)

theorem execBankWrite_ends {m addr data enables flight} : Ends s (execBankWrite m addr data enables flight s) := by
  unfold execBankWrite
  extract_lets a
  split
  · exact .next fun h => h.busError
  · split
    · rename_i t e
      have ht := fun h : State.Canonical s => h.fabric.of_eq e
      split
      · rename_i e
        have ht := fun h : State.Canonical s => h.fabric.of_eq e
        exact .next fun h => .ite (ht h).dcError.hwReact (ht h)
      · exact .next fun h => (ht h).busError
    · rename_i t e
      have ht := fun h : State.Canonical s => h.fabric.of_eq e
      extract_lets w
      exact .next fun h => .each (ht h) (fun _ _ ht => ht.portPut)

theorem execDramRead_ends {m addr wrong0 wrong1 flight rebuilt stuck0 stuck1} :
    Ends s (execDramRead m addr wrong0 wrong1 flight rebuilt stuck0 stuck1 s) := by
  unfold execDramRead
  extract_lets a u
  have hu : s.Canonical → u.Canonical := fun h => h.stuck.rebuiltTo
  split
  · exact .next fun h => (hu h).busError
  · split
    · exact .next fun h => (hu h).busError
    · extract_lets s1
      have hs1 : s.Canonical → s1.Canonical := fun h => .ite (hu h).dramStrike.dramStrike (hu h).dramStrike
      split
      · rename_i e
        exact .next fun h => .readEnd ((hs1 h).dramWord.of_eq e)
      · rename_i e
        have ht := fun h => (hs1 h).dramWord.of_eq e
        split
        all_goals
          rename_i e
          exact .next fun h => .readEnd ((ht h).fabric.of_eq e)

/-! ### What Machine/Beam.lean defines -/

theorem State.Canonical.facetStep {k accepted} (h : s.Canonical) : (s.facetStep k accepted).Canonical :=
  .ite h.modBeam.modBeam.wr (.ite h.modBeam.wr h.modBeam)

theorem State.Canonical.unlock {k} (h : s.Canonical) : (s.unlock k).Canonical := h.modBeam.wr.sat.event

theorem State.Canonical.phaseUpdate {k err} (h : s.Canonical) : (s.phaseUpdate k err).Canonical := by
  unfold State.phaseUpdate
  extract_lets r n s0 s1
  have hs0 : s0.Canonical := by
    dsimp only [s0]
    split
    · exact .ifDo h (fun _ ht => ht.zRefStep)
    · exact h
  have hs1 : s1.Canonical := hs0.modBeam
  exact .ite hs1.modMotor hs1

theorem State.Canonical.lockStep {k err} (h : s.Canonical) : (s.lockStep k err).Canonical := by
  unfold State.lockStep
  extract_lets st win
  exact .ite (.ite h.modBeam.modBeam.wr h.modBeam) (.ite h.phaseUpdate
      (.ite (.ite h.phaseUpdate.modBeam.modBeam.wr.event h.phaseUpdate.modBeam)
      (.ite (.ite h.phaseUpdate.modBeam.loseExposing.unlock.raise h.phaseUpdate.modBeam) h)))

theorem State.Canonical.bdAccept {k st} (h : s.Canonical) : (s.bdAccept k st).Canonical :=
  .ite h.modBeam.wr.wr.wr.wr.wr.wrS.facetStep.inc.activateSets
      h.modBeam.wr.wr.wr.wr.wr.wrS.facetStep.lockStep.scanStep

theorem execBdEdge_ends {station t px} : Ends s (execBdEdge station t px s) := by
  unfold execBdEdge
  extract_lets p
  split
  · exact .next fun h => h
  · split
    · exact .next fun h => h.bdAccept
    · exact .next fun h => h.sat.event

theorem execBdWindowEnd_ends {station} : Ends s (execBdWindowEnd station s) := by
  unfold execBdWindowEnd
  extract_lets k e
  split
  · exact .next fun h => h
  · split
    · exact .next fun h => h.sat.wr.modBeam.event.facetStep.scanStep
    · refine .next fun h => ?_
      split
      · exact .scanEnd (.modLink (.ite h.sat.wr.modBeam.loseExposing.btToSpeed.event.raise h.sat.wr.modBeam))
      · exact .ite h.sat.wr.modBeam.loseExposing.btToSpeed.event.raise h.sat.wr.modBeam

theorem execBdMissing_ends {station} : Ends s (execBdMissing station s) := by
  unfold execBdMissing
  extract_lets b
  split
  · exact .next fun h => h.modBeam.raise
  · exact .next fun h => h

theorem execIndexEdge_ends {station} : Ends s (execIndexEdge station s) := by
  unfold execIndexEdge
  extract_lets k
  split
  · exact .next fun h => h
  · exact .next fun h => .ifDo (.ifDo h.modBeam (fun _ ht => ht.modBeam.wr)) (fun _ ht => ht.sat.event.raise)

theorem execIdxMissing_ends {station} : Ends s (execIdxMissing station s) := by
  unfold execIdxMissing
  extract_lets k
  split
  · exact .next fun h => h.modBeam.event.raise
  · exact .next fun h => h

theorem State.Canonical.setFref {g v} (h : s.Canonical) : (s.setFref g v).Canonical :=
  .each h.modSta.wr (fun _ _ ht => .ifDo ht (fun _ hu => hu.unlock))

theorem execFrefIncWrite_ends {agent g value} : Ends s (execFrefIncWrite agent g value s) := by
  unfold execFrefIncWrite
  exact .next fun h => .write h (fun _ ht => .ite ht.accessBusy ht.setFref)

theorem execHeadUnderrun_ends {station} : Ends s (execHeadUnderrun station s) := by
  unfold execHeadUnderrun
  extract_lets k
  split
  · exact .next fun h => h.modBeam.modLink.sat.loseExposing.raiseWith
  · exact .next fun h => h

/-! ### What Machine/Loops.lean defines -/

theorem State.Canonical.slotMode {e i} (h : s.Canonical) : (s.slotMode e i).Canonical := by
  unfold State.slotMode
  extract_lets mode st
  split
  · exact .ite h h.slotOff
  · split
    · exact .ite (.ite (.ite h.modLoop.wr.slTo.causeReg h) (.ite (.ite h.wr.slTo h.modLoop.slTo)
          (.ite (.ite h h.slTo) (.ite h h.slotBandLeave.slTo))))
          (.wrS (.ite (.slTo (.modLoop (.slotBandLeave (.ite (.ite h.modLoop.wr.slTo.causeReg h)
          (.ite (.ite h.wr.slTo h.modLoop.slTo) (.ite (.ite h h.slTo) (.ite h h.slotBandLeave.slTo)))))))
          (.ite (.ite h.modLoop.wr.slTo.causeReg h) (.ite (.ite h.wr.slTo h.modLoop.slTo)
          (.ite (.ite h h.slTo) (.ite h h.slotBandLeave.slTo))))))
    · exact .ite (.ite h.modLoop.wr.slTo.causeReg h) (.ite (.ite h.wr.slTo h.modLoop.slTo)
          (.ite (.ite h h.slTo) (.ite h h.slotBandLeave.slTo)))

theorem State.Canonical.slotRange {e i raw} (h : s.Canonical) : (s.slotRange e i raw).Canonical :=
  .ite h (.ite h.modLoop.slotHold.latch (.ite h.modLoop.slotFree h.modLoop))

theorem State.Canonical.slotRef {e i} (h : s.Canonical) : (s.slotRef e i).Canonical := .ite h.slotHold h

theorem State.Canonical.slotBand {e i dev} (h : s.Canonical) : (s.slotBand e i dev).Canonical :=
  .ite h (.ite (.ite h.modLoop.slotBandLeave h.modLoop) (.ite h.modLoop.wr.event h.modLoop))

theorem State.Canonical.slotOut {e i v delay} (h : s.Canonical) : (s.slotOut e i v delay).Canonical :=
  .ite (.ite h.modLoop h.modLoop.sat.sat.event) h.slotApply

theorem State.Canonical.slotCompute {e i rec_ delay} (h : s.Canonical) : (s.slotCompute e i rec_ delay).Canonical :=
  h.freeNext.slotRange.modLoop.wrS.flag.inc.slotOut.slotBand

theorem execSlotSample_ends {e i delay} : Ends s (execSlotSample e i delay s) := by
  unfold execSlotSample
  extract_lets q
  split
  · exact .next fun h => h
  · split
    · exact .next fun h => h.modLoop.wr.sat.latch.hwReact
    · split
      · exact .next fun h => h.modLoop.wr.slotMode.slotRef.hwReact
      · split
        · rename_i t e
          have ht := fun h : State.Canonical s => h.modLoop.wr.slotMode.slotRef.modLoop.wr.memBytes.of_eq e
          exact .next fun h => .hwReact (.slotCompute (.ite (ht h).slotFree (ht h)))
        · rename_i t e
          have ht := fun h : State.Canonical s => h.modLoop.wr.slotMode.slotRef.modLoop.wr.memBytes.of_eq e
          exact .next fun h => .hwReact (.ite (ht h) (ht h).slotHold.latch)

theorem execFixedLatencyApply_ends {e i} : Ends s (execFixedLatencyApply e i s) := by
  unfold execFixedLatencyApply
  split
  · exact .next fun h => .ite h.modLoop.slotApply h
  · exact .next fun h => h

theorem State.Canonical.modeWrite {e i mode} (h : s.Canonical) : (s.modeWrite e i mode).Canonical :=
  .ite h.accessBusy (.ite h.wr.modLoop (.ite h.wr.wr h.wr))

theorem execSlModeWrite_ends {agent e i value} : Ends s (execSlModeWrite agent e i value s) := by
  unfold execSlModeWrite
  exact .next fun h => .write h (fun _ ht => .ite ht.modeWrite.wr.wr.wr
      (.ite ht.modeWrite.wr.wr ht.modeWrite.wr.wr.accessBusy))

theorem State.Canonical.copyFields {l r} (h : s.Canonical) : (s.copyFields l r).Canonical := by
  induction l generalizing r s with
  | nil => exact h
  | cons a l ih =>
    cases r with
    | nil => exact h
    | cons b r => exact ih h.wr

theorem State.Canonical.renameSources {e i e2 i2} (h : s.Canonical) : (s.renameSources e i e2 i2).Canonical :=
  .each h (fun _ _ ht => .ite ht (.ite ht.accessBusy (.ifDo (.ifDo ht (fun _ hu => hu.wr)) (fun _ hu => hu.wr))))

theorem execSlotMove_ends {agent e i e2 i2} : Ends s (execSlotMove agent e i e2 i2 s) := by
  refine .next fun h => .write h fun t ht => ?_
  extract_lets per dst num t1 t2 t3 t4
  have ht1 : t1.Canonical := ht.copyFields
  have ht2 : t2.Canonical := by
    dsimp only [t2]
    split
    all_goals
      rename_i e
      have hu := ht1.memBytes.of_eq e
    · exact hu.bankPuts
    · exact hu
  have ht3 : t3.Canonical := .ite ht2.mismatch ht2.copyFields.failDriven
  have ht4 : t4.Canonical := .ite ht3.wr.wr ht3
  exact .ite ht ht4.renameSources.modeWrite.hwReact

theorem State.Canonical.modAdc {c f} (h : s.Canonical) : (s.modAdc c f).Canonical := { h with }

theorem execAdcFrame_ends {c} : Ends s (execAdcFrame c s) := by
  unfold execAdcFrame
  extract_lets at_ q
  split
  · exact .next fun h => h
  · exact .next fun h => h.modAdc

theorem State.Canonical.adcRef {c code} (h : s.Canonical) : (s.adcRef c code).Canonical := by
  unfold State.adcRef
  extract_lets s1 stale
  have hs1 : s1.Canonical := h.wr
  exact .ite (.ite (.each (.each hs1.modAdc.modAdc (fun _ _ ht => ht.wr)) (fun _ _ ht => ht.slotFree)) hs1.modAdc)
      (.ite (.latch (.each (.each hs1.modAdc.modAdc (fun _ _ ht => ht.wr))
      (fun _ _ ht => .ifDo ht (fun _ hu => hu.slotHold)))) hs1.modAdc)

theorem State.Canonical.adcPush {c word} (h : s.Canonical) : (s.adcPush c word).Canonical :=
  .ite h.sat.latch (.ifDo h.modAdc.wr (fun _ ht => ht.event))

theorem State.Canonical.kePeak {ch code} (h : s.Canonical) : (s.kePeak ch code).Canonical :=
  .each h (fun _ _ ht => .ifDo ht (fun _ hu => hu.modMotor))

theorem execAdcResult_ends {c k code} : Ends s (execAdcResult c k code s) := by
  unfold execAdcResult
  extract_lets q code
  split
  · exact .next fun h => h
  · split
    · exact .next fun h => h.modAdc.adcRef.hwReact
    · split
      · extract_lets s2 word
        have hs2 : s.Canonical → s2.Canonical := fun h => h.modAdc.wr.inc.kePeak
        exact .next fun h => .hwReact (.ite (hs2 h).adcPush (hs2 h))
      · exact .next fun h => h.modAdc

theorem execPwmPeriodStart_ends {n} : Ends s (execPwmPeriodStart n s) := by
  unfold execPwmPeriodStart
  split
  · exact .next fun h => h.zRefStep
  · extract_lets per
    split
    · exact .next fun h => .wr { h with }
    · exact .next fun h => h

/-! ### What Machine/Commit.lean defines -/

theorem State.Canonical.trailerDecide {passes sl i anchor} (h : s.Canonical) :
    (s.trailerDecide passes sl i anchor).2.Canonical := by
  unfold State.trailerDecide
  extract_lets every s1 due h' last tline
  have hs1 : s1.Canonical := h.modSta
  split
  · exact hs1.flag
  · split
    · exact hs1.modSta.wr.modSlot.event
    · exact hs1.wr.sat.event.raise

theorem State.Canonical.stationCommit {i sl p anchor marks k} (h : s.Canonical) :
    (s.stationCommit i sl p anchor marks k).Canonical :=
  .ifDo (.each (.each h.modFeeds (fun _ _ ht => .ifDo ht (fun _ hu => hu.modBind))) (fun _ _ ht => ht.modCtx))
      (fun _ ht => ht.modIlace)

theorem State.Canonical.commitPass {i sl p anchor marks} (h : s.Canonical) :
    (s.commitPass i sl p anchor marks).Canonical :=
  .codecRegs (.each h.modSlot.wr.modPage.pageTo.modSta (fun _ _ ht => ht.stationCommit))

theorem State.Canonical.feedFirst (h : s.Canonical) : s.feedFirst.Canonical := by
  unfold State.feedFirst
  split
  · exact .ite h.ptBoundary h
  · exact h

theorem execCommitGate_ends {slot} : Ends s (execCommitGate slot s) := by
  unfold execCommitGate
  split
  · exact .next fun h => h
  · split
    · exact .next fun h => h
    · split
      · exact .next fun h => h
      · extract_lets u reasons d
        have hu : s.Canonical → u.Canonical := fun h => h.feedFirst
        split
        · exact .next fun h => .ite (hu h).boundary.trailerDecide.commitPass (hu h).boundary.trailerDecide.failCommit
        · exact .next fun h => (hu h).boundary.trailerDecide.failCommit

end Sys2Proof.Machine
end

