-- ==== Sys2Proof/Proofs/CanonicalDevices.lean ====
section
/-!
PROOFS. The Edkar link, sheets, motion, sparing, power, boot and DMA keep the canonical form.
-/
namespace Sys2Proof.Machine

variable {s : State}

/-! ### What Machine/Edkar.lean defines -/

theorem State.Canonical.edSilence {p m st} (h : s.Canonical) : (s.edSilence p m st).Canonical :=
  h.leaveBus.setModState.modMod

theorem State.Canonical.authFail {p m} (h : s.Canonical) : (s.authFail p m).Canonical := h.edSilence.pathReport.raise

theorem State.Canonical.edSend {p m t} (h : s.Canonical) : (s.edSend p m t).Canonical :=
  .emit (.ifDo h.modMod (fun _ ht => ht.sat))

theorem State.Canonical.edNew {p m type payload} (h : s.Canonical) : (s.edNew p m type payload).Canonical :=
  h.modMod.edSend

theorem State.Canonical.edChallenge {p m} (h : s.Canonical) : (s.edChallenge p m).Canonical := h.freeNext.modMod.edNew

theorem State.Canonical.edItem {p m} (h : s.Canonical) : (s.edItem p m).Canonical := by
  unfold State.edItem
  extract_lets q firm
  split
  · exact h.edSend
  · split
    · exact h.edNew
    · split
      · exact h.modMod.edNew
      · exact h.modMod.edNew
      · exact h.modMod.edNew
      · exact .ite h.edChallenge h.edNew

theorem State.Canonical.edPoll {p m probe} (h : s.Canonical) : (s.edPoll p m probe).Canonical :=
  .ite h.modMod.edNew h.modMod.edItem

theorem State.Canonical.edBegin (h : s.Canonical) : s.edBegin.Canonical :=
  .each h (fun _ _ ht => .each ht.modPort.wr (fun _ _ hu => hu.modMod))

theorem State.Canonical.edJudge {p} (h : s.Canonical) : (s.edJudge p).Canonical :=
  .ite h.modPort.portDrop.wr.pathReport h.modPort

theorem execEdkarCycle_ends {port} : Ends s (execEdkarCycle port s) := by
  unfold execEdkarCycle
  extract_lets b
  split
  · exact .next fun h => h
  · exact .next fun h => .hwReact (.each (.emit (.modPort (.ifDo
        (.modPort (.wr (.ite h.boundary.edJudge.wr h.boundary.edJudge))) (fun _ ht => ht.edBegin))))
        (fun _ _ ht => ht.edPoll))

theorem State.Canonical.edActivity {p} (h : s.Canonical) : (s.edActivity p).Canonical :=
  .ite h (.ite (.raise (.pathReport (.ifDo h.modPort.sat.wr (fun _ ht => ht.refuseOpen)))) h.modPort.sat)

theorem execOutOfWindowActivity_ends {port} : Ends s (execOutOfWindowActivity port s) := by
  unfold execOutOfWindowActivity
  exact .next fun h => h.edActivity

theorem State.Canonical.edMalformed {p m} (h : s.Canonical) : (s.edMalformed p m).Canonical := h.sat.sat

theorem State.Canonical.edTake {p m k} (h : s.Canonical) (hk : ∀ t, t.Canonical → (k t).Canonical) :
    (s.edTake p m k).Canonical :=
  .ite h (.ite h.edActivity (.ite h.modMod.sat (hk _ h.modMod)))

theorem State.Canonical.edFrame {p m type tid payload tag k} (h : s.Canonical)
    (hk : ∀ t, t.Canonical → (k t).Canonical) : (s.edFrame p m type tid payload tag k).Canonical := by
  unfold State.edFrame
  refine .edTake h (fun _ ht => .ite (.ite ht.edMalformed (.ite (hk _ ht.modMod)
      (.ite ht.edMalformed.modMod.authFail ht.edMalformed.modMod)))
      (.ite ht.edMalformed (.ite ht.modMod.sat (hk _ ht.modMod))))

theorem State.Canonical.edReply {p m wants tid k} (h : s.Canonical)
    (hk : ∀ a0 t, t.Canonical → (k a0 t).Canonical) : (s.edReply p m wants tid k).Canonical := by
  unfold State.edReply
  split
  · exact .ite (hk _ _ h.modMod) h
  · exact h

theorem execMalformedFrame_ends {port m} : Ends s (execMalformedFrame port m s) := by
  unfold execMalformedFrame
  exact .next fun h => .edTake h (fun _ ht => ht.edMalformed)

theorem execModuleStatus_ends {port m tid flags events tag} : Ends s
    (execModuleStatus port m tid flags events tag s) := by
  unfold execModuleStatus
  exact .next fun h => .edFrame h (fun _ ht => .edReply ht.modMod.pathReport (fun _ _ hu => hu))

theorem State.Canonical.edIdentify {p m vendor model serial caps} (h : s.Canonical) :
    (s.edIdentify p m vendor model serial caps).Canonical :=
  .event (.ifDo (.ifDo h.modMod.wr.wr.setModState (fun _ ht => ht.modMod)) (fun _ ht => ht.event))

/-! ### What Machine/EdkarBase.lean defines -/

theorem State.Canonical.edConflict {p m} (h : s.Canonical) : (s.edConflict p m).Canonical :=
  h.edSilence.pathReport.raise

/-! ### What Machine/Edkar.lean defines -/

theorem execIdentity_ends {port m tid vendor model serial _version _cls caps} : Ends s
    (execIdentity port m tid vendor model serial _version _cls caps s) := by
  unfold execIdentity
  exact .next fun h => .edTake h (fun _ ht => .ite (.ite ht.modMod ht.modMod.edConflict)
      (.ite (.edReply ht.modMod (fun _ _ hu => hu.edIdentify)) ht.modMod))

theorem execAuthResponse_ends {port m tid response} : Ends s (execAuthResponse port m tid response s) := by
  unfold execAuthResponse
  refine .next fun h => ?_
  refine .edTake h (fun _ ht => .edReply ht.modMod (fun _ _ hu => ?_))
  split
  · exact hu
  · exact .ite (.ifDo hu.modMod.setAuthed (fun _ ht => ht.setModState)) (.ite hu.modMod.authFail hu.modMod)

theorem State.Canonical.announceReply {m sheet decision} (h : s.Canonical) :
    (s.announceReply m sheet decision).Canonical := by
  unfold State.announceReply
  split
  · exact h
  · extract_lets late s1
    have hs1 : s1.Canonical := .ite h h.modPort
    split
    · exact hs1
    · split <;> exact hs1.modMod

theorem State.Canonical.feedReply {sheet decision} (h : s.Canonical) : (s.feedReply sheet decision).Canonical :=
  .ite h.modPort.raise h.modPort

theorem execSheetReply_ends {port m tid sheet decision tag} : Ends s
    (execSheetReply port m tid sheet decision tag s) := by
  unfold execSheetReply
  exact .next fun h => .edFrame h (fun _ ht => .ite ht (.edReply ht
      (fun _ _ hu => .ite hu.modMod (.ite hu.modMod (.ite hu.announceReply hu.feedReply)))))

theorem execModuleAck_ends {port m tid tag} : Ends s (execModuleAck port m tid tag s) := by
  unfold execModuleAck
  exact .next fun h => .edFrame h (fun _ ht => .edReply ht (fun _ _ hu => hu.modMod))

theorem execModuleEvent_ends {port m eseq code sheet time tag} : Ends s
    (execModuleEvent port m eseq code sheet time tag s) := by
  unfold execModuleEvent
  refine .next fun h => ?_
  refine .edFrame h (fun _ ht => .ite ht ?_)
  extract_lets 
  split
  · exact ht.modMod.modMod
  · exact ht.modMod.emit
  · exact ht.modMod.emit
  · exact ht.modMod.modMod.pathReport
  · exact ht.modMod.modMod.pathReport
  · exact ht.modMod.modMod
  · exact ht.modMod

theorem State.Canonical.edUnanswered {p m} (h : s.Canonical) : (s.edUnanswered p m).Canonical := by
  unfold State.edUnanswered
  split
  · exact .ite h (.ite h.modMod (.ite h.transFail h.modMod))
  · exact h

theorem execModuleWindowClose_ends {port m} : Ends s (execModuleWindowClose port m s) := by
  unfold execModuleWindowClose
  extract_lets q
  split
  · exact .next fun h => h
  · split
    · exact .next fun h => h.edUnanswered.modMod.hwReact
    · split
      · exact .next fun h => h.edUnanswered.modMod.leaveBus.setModState.pathReport.raise
      · split
        · exact .next fun h => h.edUnanswered.modMod.edConflict
        · exact .next fun h => h.edUnanswered.modMod.hwReact

theorem execBudgetViolation_ends {port m} : Ends s (execBudgetViolation port m s) := by
  unfold execBudgetViolation
  split
  · exact .next fun h => h
  · extract_lets s1 st
    have hs1 : s.Canonical → s1.Canonical := fun h => h.sat.modMod
    split
    · exact .next fun h => (hs1 h).setModState
    · split
      · exact .next fun h => (hs1 h).edSilence.pathReport.raise
      · exact .next fun h => (hs1 h)

theorem execThrottleExpiry_ends {port m} : Ends s (execThrottleExpiry port m s) := by
  unfold execThrottleExpiry
  split
  · exact .next fun h => h.setModState
  · exact .next fun h => h

theorem State.Canonical.edCancel {p type sheet} (h : s.Canonical) : (s.edCancel p type sheet).Canonical := h.modPort

theorem execAnnounceDeadline_ends {sheet} : Ends s (execAnnounceDeadline sheet s) := by
  unfold execAnnounceDeadline
  split
  · exact .next fun h => h
  · split
    · exact .next fun h => h
    · extract_lets route answer lost dead refuse divert s1
      have hs1 : s.Canonical → s1.Canonical := fun h => h.satAdd
      exact .next fun h => (hs1 h).edCancel.closeAnnounce

theorem execFeedDeadline_ends {sheet} : Ends s (execFeedDeadline sheet s) := by
  unfold execFeedDeadline
  split
  · exact .next fun h => .ite h.edCancel.feedReply h
  · exact .next fun h => h

theorem execAuthPeriodExpiry_ends {port m} : Ends s (execAuthPeriodExpiry port m s) := by
  unfold execAuthPeriodExpiry
  extract_lets q n
  split
  · exact .next fun h => h.modMod
  · exact .next fun h => h

theorem execPortStop_ends {agent port} : Ends s (execPortStop agent port s) := by
  unfold execPortStop
  exact .next fun h => .write h (fun _ ht => .hwReact (.pathReport (.ifDo ht.wr (fun _ hu => hu.portStop))))

theorem State.Canonical.portStart {p} (h : s.Canonical) : (s.portStart p).Canonical := .ite h h.modPort.wr

theorem execPortStart_ends {agent port} : Ends s (execPortStart agent port s) := by
  unfold execPortStart
  exact .next fun h => .write h (fun _ ht => ht.wr.portStart)

theorem execModuleClear_ends {agent port m} : Ends s (execModuleClear agent port m s) := by
  unfold execModuleClear
  exact .next fun h => .write h (fun _ ht => .ite ht.modMod.setModState ht)

/-! ### What Machine/Sheets.lean defines -/

theorem State.Canonical.jamRecord {track zone decl named} (h : s.Canonical) :
    (s.jamRecord track zone decl named).Canonical :=
  .ite h h.wr.wr.flag.flag.wr

theorem State.Canonical.jam {track zone decl named} (h : s.Canonical) : (s.jam track zone decl named).Canonical :=
  .raise (.pathReport (.stopZones (.jamSlots (.set_mo h.jamRecord.wr.wr.event))))

theorem execDeclare_ends {agent zone} : Ends s (execDeclare agent zone s) := by
  unfold execDeclare
  exact .next fun h => .write h (fun _ ht => ht.jam)

theorem execPathClear_ends : Ends s (execPathClear s) := by
  unfold execPathClear
  split
  · split
    · extract_lets s1 s2
      have hs1 : s.Canonical → s1.Canonical := fun h => h.wr.event
      have hs2 : s.Canonical → s2.Canonical := fun h => .trackState (.ifDo (hs1 h) (fun _ ht => ht.wr))
      exact .next fun h => .pathReport (.ifDo (hs2 h) (fun _ ht => ht.modTl))
    · exact .next fun h => h
  · exact .next fun h => h

theorem State.Canonical.trackEdge {i lead stamp} (h : s.Canonical) : (s.trackEdge i lead stamp).Canonical := by
  unfold State.trackEdge
  extract_lets holds
  split
  · exact h.modSlot
  · exact .ifDo h (fun _ ht => ht.sat.event)

theorem execTrackWindowEnd_ends {slot t trail} : Ends s (execTrackWindowEnd slot t trail s) := by
  unfold execTrackWindowEnd
  split
  · split
    · exact .next fun h => h
    · split
      · exact .next fun h => h
      · split
        · exact .next fun h => .ite h.jam h
        · exact .next fun h => h
  · exact .next fun h => h

theorem State.Canonical.stray {i} (h : s.Canonical) : (s.stray i).Canonical := by
  unfold State.stray
  extract_lets s1
  have hs1 : s1.Canonical := h.sat.raise
  split
  · exact hs1.jam
  · exact hs1

theorem State.Canonical.homeTo {n hd} (h : s.Canonical) : (s.homeTo n hd).Canonical := h.wr.modStp

theorem State.Canonical.homeFail {n} (h : s.Canonical) : (s.homeFail n).Canonical := h.wr.modeZero.modStp.raise

theorem State.Canonical.homeLatch {n pos} (h : s.Canonical) : (s.homeLatch n pos).Canonical := by
  unfold State.homeLatch
  extract_lets s1
  have hs1 : s1.Canonical := h.wrS.homeTo
  exact hs1.modStp

theorem State.Canonical.limitEdge {n pos} (h : s.Canonical) : (s.limitEdge n pos).Canonical :=
  .ite h.homeTo.modStp.event (.ite h.homeFail (.ite (.ifDo h (fun _ ht => ht.modStp.event))
      (.ite h.stpStop.raise h.event)))

theorem State.Canonical.switchEdge {i lead stamp} (h : s.Canonical) : (s.switchEdge i lead stamp).Canonical := by
  unfold State.switchEdge
  refine .each h (fun _ _ ht => .ite ht (.stpState (.ifDo (.ifDo
      (.ite ht (.ite (.ite ht.homeTo ht) (.ite ht.homeLatch ht))) (fun _ hu => hu.limitEdge))
      (fun _ hu => hu.limitEdge))))

theorem State.Canonical.latchEdge {i lead stamp pos} (h : s.Canonical) : (s.latchEdge i lead stamp pos).Canonical :=
  by
  unfold State.latchEdge
  extract_lets s1
  have hs1 : s1.Canonical := h.modSensor
  exact .ite (.switchEdge (.ifDo (.trackEdge (.ifDo hs1.wr.wr.wr.inc (fun _ ht => ht.anchorEdge)))
      (fun _ ht => ht.stray))) (.switchEdge (.ifDo hs1.wr.wr.wr.inc.trackEdge (fun _ ht => ht.exitEdge)))

theorem State.Canonical.levelCheck {i} (h : s.Canonical) : (s.levelCheck i).Canonical := by
  unfold State.levelCheck
  extract_lets q
  split
  · exact .ite h h.latchEdge
  · exact h

theorem execSheetSensorEdge_ends {i high stamp} : Ends s (execSheetSensorEdge i high stamp s) := by
  unfold execSheetSensorEdge
  extract_lets q s1 active pos s2 s3
  split
  · exact .next fun h => h
  · refine .next fun h => .trackState ?_
    have hs1 : s1.Canonical := .ifDo h.modSensor.levelReg fun _ ht => ht.pathLevel
    clear_value s1
    have hs2 : s2.Canonical := hs1.sat.event.modSensor
    clear_value q
    dsimp only [s3]
    split
    · exact .ite (.ifDo hs2 fun _ ht => ht.levelCheck) hs1.latchEdge
    · exact hs1.latchEdge

theorem execLockoutEnd_ends {i} : Ends s (execLockoutEnd i s) := by
  unfold execLockoutEnd
  split
  · exact .next fun h => .ite h.levelCheck.trackState h
  · exact .next fun h => h

/-! ### What Machine/Motion.lean defines -/

theorem State.Canonical.stpRegs {n} (h : s.Canonical) : (s.stpRegs n).Canonical := h.wrS.wrS.modStp.stpState

theorem State.Canonical.currents {n} (h : s.Canonical) : (s.currents n).Canonical := by
  unfold State.currents
  extract_lets q hold cur p pos th ca sa
  exact h.flag.modStp

theorem State.Canonical.homeDone {n} (h : s.Canonical) : (s.homeDone n).Canonical := h.modStp.wr.wr.event

theorem State.Canonical.stpArrive {n} (h : s.Canonical) : (s.stpArrive n).Canonical := by
  unfold State.stpArrive
  extract_lets q hd s1 s2
  have hs1 : s1.Canonical := .ite h.modStp.event h
  have hs2 : s2.Canonical := .ifDo hs1 (fun _ ht => ht.modStp)
  exact .ite (.ifDo hs2 (fun _ ht => ht.homeFail)) (.ite (.ifDo hs2 (fun _ ht => ht.homeDone))
      (.ite (.ifDo hs2.modStp (fun _ ht => ht.wr.event)) hs2))

theorem State.Canonical.stpSet {n} (h : s.Canonical) : (s.stpSet n).Canonical :=
  .ite (.ifDo h.homeAbandon.applyStaged.wr (fun _ ht => ht.modStp)) h

theorem State.Canonical.coarseSample {n} (h : s.Canonical) : (s.coarseSample n).Canonical :=
  .ifDo h.modStp.modStp (fun _ ht => ht.modStp.event)

theorem State.Canonical.moveSample {n} (h : s.Canonical) : (s.moveSample n).Canonical :=
  h.stpSet.flag.modStp.stpArrive

theorem execStepperSample_ends {n} : Ends s (execStepperSample n s) := by
  unfold execStepperSample
  split
  · exact .next fun h => h
  · extract_lets s1 s2
    have hs1 : s.Canonical → s1.Canonical := fun h => h.modStp
    have hs2 : s.Canonical → s2.Canonical := fun h => .ite (hs1 h).coarseSample (hs1 h).moveSample
    exact .next fun h => (hs2 h).currents.stpRegs

theorem execEstop_ends {agent n} : Ends s (execEstop agent n s) := by
  unfold execEstop
  exact .next fun h => .write h (fun _ ht => ht.stpStop)

theorem execHome_ends {agent n} : Ends s (execHome agent n s) := by
  unfold execHome
  exact .next fun h => .write h (fun _ ht => .ite ht ht.homeTo.wr.stpState)

theorem execCoarseStep_ends {n dir} : Ends s (execCoarseStep n dir s) := by
  unfold execCoarseStep
  split
  · exact .next fun h => h
  · extract_lets q c p imin imax gap d num v v' s1
    have hs1 : s.Canonical → s1.Canonical := fun h => .ifDo h.wrS (fun _ ht => ht.sat)
    exact .next fun h => (hs1 h).modStp

theorem State.Canonical.modEnc {e f} (h : s.Canonical) : (s.modEnc e f).Canonical := { h with }

theorem State.Canonical.encCount {e fwd} (h : s.Canonical) : (s.encCount e fwd).Canonical :=
  .wr (.ite h.wr.modEnc.wr.wr.wr.modEnc (.ite h.wr.modEnc.wr.sat.event h.wr.modEnc))

theorem execEncoderCount_ends {e aLeads both} : Ends s (execEncoderCount e aLeads both s) := by
  unfold execEncoderCount
  split
  · exact .next fun h => h
  · split
    · exact .next fun h => h.sat.raise
    · exact .next fun h => h.encCount

theorem execEncoderIndex_ends {e} : Ends s (execEncoderIndex e s) := by
  unfold execEncoderIndex
  split
  · exact .next fun h => h
  · extract_lets raw cpr bad s1
    have hs1 : s.Canonical → s1.Canonical := fun h => h.wr.modEnc.event
    exact .next fun h => .ifDo (hs1 h) (fun _ ht => ht.sat.raise)

theorem execEncoderSpeed_ends {e} : Ends s (execEncoderSpeed e s) := by
  unfold execEncoderSpeed
  extract_lets q
  split
  · exact .next fun h => h
  · exact .next fun h => h.wrS.modEnc

theorem execResync_ends {agent e} : Ends s (execResync agent e s) := by
  unfold execResync
  exact .next fun h => .write h (fun _ ht => ht.wr.wr.modEnc)

/-! ### What Machine/RegWrite.lean defines -/

theorem State.Canonical.fieldsWrite {p off v} (h : s.Canonical) : (s.fieldsWrite p off v).Canonical :=
  .each h (fun _ _ ht => .ite (.ifDo ht (fun _ hu => hu.accessBusy)) (.ite ht.stgWr ht.wr))

theorem State.Canonical.follow {p off} (h : s.Canonical) : (s.follow p off).Canonical := by
  unfold State.follow
  split
  · exact h.wr
  · split
    · exact { h with }
    · exact .ite h.levelReg.pathLevel (.ite (.ifDo h (fun _ ht => ht.portStart))
          (.ite h.stpState (.ite h.failDriven (.ite h.pathLevel.trackState (.ite h.flag h)))))

/-! ### What Machine/Planner.lean defines -/

theorem State.Canonical.stageTables {k v4 set_} (h : s.Canonical) : (s.stageTables k v4 set_).Canonical :=
  .each h.stgWr.stgWr (fun _ _ ht => ht.stgWr.stgWr.stgWr)

theorem State.Canonical.commitBound {k i} (h : s.Canonical) : (s.commitBound k i).Canonical := h.wr.modBind

/-! ### What Machine/Interlace.lean defines -/

theorem State.Canonical.isoRewrite {k} (h : s.Canonical) : (s.isoRewrite k).Canonical := h.modLink.emit

theorem State.Canonical.replanReq {k reason} (h : s.Canonical) : (s.replanReq k reason).Canonical :=
  .ite h.wr h.wr.wr.event

theorem execResistanceTestStart_ends {station} : Ends s (execResistanceTestStart station s) := by
  unfold execResistanceTestStart
  extract_lets k
  split
  · exact .next fun h => h
  · split
    · exact .next fun h => h.wr
    · exact .next fun h => .modIlace (.wr (.wr (.wr (.wr (.ifDo h.wr.wr (fun _ ht => ht.wr))))))

theorem State.Canonical.testOver {k} (h : s.Canonical) : (s.testOver k).Canonical :=
  .each (.event (.sat (.ifDo h.wr (fun _ ht => ht.wr)))) (fun _ _ ht => .ifDo ht (fun _ hu => hu.replanReq))

theorem State.Canonical.testLate {k} (h : s.Canonical) : (s.testLate k).Canonical :=
  .ifDo h.modIlace.sat.raise (fun _ ht => ht.testOver)

theorem execTestEmitter_ends {station} : Ends s (execTestEmitter station s) := by
  unfold execTestEmitter
  extract_lets k q
  split
  · exact .next fun h => h
  · split
    · exact .next fun h => .modIlace (.headSend (.ifDo h (fun _ ht => ht.testLate)))
    · exact .next fun h => .ifDo h (fun _ ht => ht.testLate)

theorem State.Canonical.emitterDead {k i short} (h : s.Canonical) : (s.emitterDead k i short).Canonical := by
  unfold State.emitterDead
  extract_lets active old s1 s2 s3 s4
  have hs1 : s1.Canonical := .ite h.wr h.wr
  have hs2 : s2.Canonical := .ifDo hs1 (fun _ ht => ht.headSend.modIlace)
  have hs3 : s3.Canonical := .ifDo hs2 (fun _ ht => ht.isoRewrite)
  have hs4 : s4.Canonical := .ifDo hs3 (fun _ ht => ht.replanReq)
  exact hs4.event.raise

theorem execTestResult_ends {station emitter openDrive v1 v2} : Ends s
    (execTestResult station emitter openDrive v1 v2 s) := by
  unfold execTestResult
  extract_lets k i q
  split
  · exact .next fun h => h
  · exact .next fun h => .ifDo (.ifDo (.ifDo (.ifDo (.inc (.flag
        (.wr (.ite h.modIlace.sat.wr h.modIlace.sat.wr.freeNext)))) (fun _ ht => ht.event))
        (fun _ ht => ht.replanReq)) (fun _ ht => ht.inc.event.raise)) (fun _ ht => ht.emitterDead)

theorem execTestTimeout_ends {station} : Ends s (execTestTimeout station s) := by
  unfold execTestTimeout
  extract_lets q
  split
  · exact .next fun h => h.testLate
  · exact .next fun h => h

theorem execTestWindowEnd_ends {station} : Ends s (execTestWindowEnd station s) := by
  unfold execTestWindowEnd
  extract_lets k
  split
  · exact .next fun h => .ifDo (.ifDo h (fun _ ht => ht.testLate)) (fun _ ht => ht.testOver)
  · exact .next fun h => h

theorem execIlTestNow_ends {agent station value} : Ends s (execIlTestNow agent station value s) := by
  unfold execIlTestNow
  exact .next fun h => .write h (fun _ ht => .ifDo ht.fieldsWrite (fun _ hu => hu.wr))

theorem execIlDeadWrite_ends {agent station hi value} : Ends s (execIlDeadWrite agent station hi value s) := by
  unfold execIlDeadWrite
  extract_lets k
  exact .next fun h => .write h (fun _ ht => .ifDo (.each ht.wr (fun _ _ hu => hu.headSend.modIlace))
      (fun _ hu => hu.isoRewrite))

theorem State.Canonical.planCommit {v4 sets} (h : s.Canonical) : (s.planCommit v4 sets).Canonical :=
  .each h (fun _ _ ht => .ite ht.stageTables.mismatch ht.stageTables.commitBound)

theorem State.Canonical.planApply {g p} (h : s.Canonical) : (s.planApply g p).Canonical := by
  unfold State.planApply
  extract_lets speed s1 s2
  have hs1 : s1.Canonical := .each h (fun _ _ ht => .ite (.ifDo ht.stgWr.wr (fun _ hu => hu.modIlace))
      (.wr (.ifDo ht.stgWr.wr (fun _ hu => hu.modIlace))))
  have hs2 : s2.Canonical := hs1.planCommit.setFref
  exact hs2.modSta

theorem execReplan_ends {station requested v4Max v4Min rpmMin rpmMax} : Ends s
    (execReplan station requested v4Max v4Min rpmMin rpmMax s) := by
  unfold execReplan
  extract_lets k g u
  have hu : s.Canonical → u.Canonical := fun h => .ifDo h (fun _ ht => ht.replanReq)
  split
  · exact .next fun h => .ite (hu h).planApply (hu h)
  · split
    · exact .next fun h => (hu h)
    · split
      · exact .next fun h => (hu h).wr.event.raise
      · split
        · exact .next fun h => (hu h)
        · split
          · split
            · exact .next fun h => (hu h)
            · exact .next fun h => (hu h).planCommit
          · split
            · extract_lets n s1 s2
              have hs1 : s.Canonical → s1.Canonical := fun h => (hu h).modSta
              have hs2 : s.Canonical → s2.Canonical := fun h => .each (hs1 h) (fun _ _ ht => ht.replanReq)
              exact .next fun h => .ifDo (hs2 h) (fun _ ht => ht.wr)
            · exact .next fun h => (hu h)

theorem State.Canonical.thermPair {k} (h : s.Canonical) : (s.thermPair k).Canonical := .ite h.modIlace h.mismatch

theorem execHtempSample_ends {station code} : Ends s (execHtempSample station code s) := by
  unfold execHtempSample
  extract_lets k code
  split
  · exact .next fun h => h
  · exact .next fun h => .quenchTry (.ite h.thermPair.wr.wr.modIlace.event.raise
        (.ifDo h.thermPair.wr (fun _ ht => ht.modIlace)))

theorem State.Canonical.headCutNow {k} (h : s.Canonical) : (s.headCutNow k).Canonical :=
  .ite h h.modIlace.quenchOn.wr.wr.event.loseExposing.raise

theorem execHeadCut_ends {station} : Ends s (execHeadCut station s) := by
  unfold execHeadCut
  exact .next fun h => .ite h.thermPair.headCutNow h

/-! ### What Machine/Assay.lean defines -/

theorem State.Canonical.assayBegin {a} (h : s.Canonical) : (s.assayBegin a).Canonical := by
  unfold State.assayBegin
  split
  · exact .ifDo h (fun _ ht => ht.wr)
  · exact .ifDo h (fun _ ht => ht.acquire)
  · exact h

theorem State.Canonical.startWindow {a} (h : s.Canonical) : (s.startWindow a).Canonical := by
  unfold State.startWindow
  split
  · exact .ifDo h (fun _ ht => { ht with })
  · exact h.openWindow

theorem execAssayStart_ends {src} : Ends s (execAssayStart src s) := by
  unfold execAssayStart
  split
  · exact .next fun h => h
  · split
    · extract_lets s1 s2
      have hs2 : s.Canonical → s2.Canonical := fun h => { h with }
      exact .next fun h => .ite (hs2 h).assayBegin.wr (hs2 h).assayBegin.wr.startWindow
    · exact .next fun h => h.wr

theorem State.Canonical.copyThrough {a n} (h : s.Canonical) : (s.copyThrough a n).Canonical :=
  .each h (fun _ _ ht => ht.scrubBytes)

theorem State.Canonical.rowLasting {row} (h : s.Canonical) : (s.rowLasting row).Canonical := by
  unfold State.rowLasting
  extract_lets a
  split
  · exact h
  · exact .ite h.copyThrough.modMu.inc.event (.ite (.event (.inc
        (.modMu (.copyThrough (.ifDo h (fun _ ht => ht.scrubPage)))))) h.modMu.raise)

theorem State.Canonical.rowWord {c off} (h : s.Canonical) : (s.rowWord c off).Canonical := by
  unfold State.rowWord
  split
  · exact .ifDo h.modMu (fun _ ht => ht.st)
  · exact .ifDo h (fun _ ht => ht.dramMend)

theorem State.Canonical.dramLasting {unit refused} (h : s.Canonical) : (s.dramLasting unit refused).Canonical := by
  unfold State.dramLasting
  extract_lets c off keys s1 mine s2 s3
  have hs1 : s1.Canonical := .each h (fun _ _ ht => ht.rowWord)
  have hs2 : s2.Canonical := .ifDo hs1 (fun _ ht => ht.modMu)
  have hs3 : s3.Canonical := hs2.inc.event
  exact .ite hs3.modMu.storeRegs hs3

theorem State.Canonical.stationIsolate {k} (h : s.Canonical) : (s.stationIsolate k).Canonical :=
  .each h (fun _ _ ht => ht.isolate)

theorem State.Canonical.assayLasting {a refused} (h : s.Canonical) : (s.assayLasting a refused).Canonical := by
  unfold State.assayLasting
  split
  · exact h.rowLasting
  · exact h.dramLasting
  · exact h.wr.wr
  · exact h.modLink
  · exact h.stationIsolate
  · exact h.isolate
  · exact h.isolate
  · exact { h with }
  · exact .ite (.ifDo h (fun _ ht => ht.pllFail)) h.stationIsolate

theorem State.Canonical.assayPassed {a} (h : s.Canonical) : (s.assayPassed a).Canonical := by
  unfold State.assayPassed
  split
  · exact .ifDo (.ifDo h (fun _ ht => ht.wr.wr)) (fun _ ht => .hmTo { ht with })
  · exact { h with }
  · exact h

theorem execAssayDone_ends {src pass softRefused} : Ends s (execAssayDone src pass softRefused s) := by
  unfold execAssayDone
  split
  · exact .next fun h => h
  · rename_i a _
    refine .next fun h => ?_
    have hs1 : ({ s with fc := { s.fc with assays := s.fc.assays.filter (· != a) } } : State).Canonical := { h with }
    have hs4 : (if pass then (((State.sat (if pass then F.FC_STATS_TRANS src else F.FC_STATS_LASTING src)
        { s with fc := { s.fc with assays := s.fc.assays.filter (· != a) } }).wr F.FC_ASSAY_STATUS
        (if pass then 3 else 4)).event 0x001 3).assayPassed a
      else (((State.sat (if pass then F.FC_STATS_TRANS src else F.FC_STATS_LASTING src)
        { s with fc := { s.fc with assays := s.fc.assays.filter (· != a) } }).wr F.FC_ASSAY_STATUS
        (if pass then 3 else 4)).event 0x001 3).assayLasting a softRefused).Canonical :=
      .ite hs1.sat.wr.event.assayPassed hs1.sat.wr.event.assayLasting
    dsimp only
    split
    · exact .ite hs4.closeWindow hs4
    · exact hs4

/-! ### What Machine/Power.lean defines -/

theorem State.Canonical.setRailAt {n} (h : s.Canonical) : (s.setRailAt n).Canonical := h.modSeq

theorem State.Canonical.supRegs (h : s.Canonical) : s.supRegs.Canonical := .each h (fun _ _ ht => ht.wr)

theorem State.Canonical.closeRamp {i} (h : s.Canonical) : (s.closeRamp i).Canonical := h.modSeq.supRegs

theorem State.Canonical.entryDone {i} (h : s.Canonical) : (s.entryDone i).Canonical :=
  .each h (fun _ _ ht => .ifDo ht (fun _ hu => hu.modSeq))

theorem State.Canonical.railToOff {n} (h : s.Canonical) : (s.railToOff n).Canonical := h.wr.wr.entryDone

theorem State.Canonical.upItem {i} (h : s.Canonical) : (s.upItem i).Canonical := .ite h.entryDone h.modSeq

theorem State.Canonical.controlLose (h : s.Canonical) : s.controlLose.Canonical := by
  have hs1 : ({ s with regs := s.regs.filter fun e => !pd9Status e.1, mo := Motion.reset, ct := Control.reset } :
      State).Canonical :=
    { h with regs := Sparse.sorted_filter _ h.regs }
  exact .each (.each hs1 fun _ _ ht => ht.wr) fun _ _ ht => ht.stpState

theorem State.Canonical.linksLose {k} (h : s.Canonical) : (s.linksLose k).Canonical :=
  .each h (fun _ _ ht => ht.wr.wr)

theorem State.Canonical.clocksLose (h : s.Canonical) : s.clocksLose.Canonical := by
  unfold State.clocksLose
  extract_lets s1
  have hs1 : s1.Canonical := .wr (.each h (fun _ _ ht => ht.wr))
  exact hs1.wr.keeper.modClk

theorem State.Canonical.domainLose {d} (h : s.Canonical) : (s.domainLose d).Canonical := by
  unfold State.domainLose
  split
  · exact h.linksLose
  · exact h.linksLose
  · exact h.controlLose
  · exact h.portStop.portStop
  · exact h.clocksLose
  · exact h

theorem State.Canonical.linksWake {k} (h : s.Canonical) : (s.linksWake k).Canonical :=
  .each h (fun _ _ ht => .ifDo ht (fun _ hu => hu.train.quenchOff))

theorem State.Canonical.domainWake {d} (h : s.Canonical) : (s.domainWake d).Canonical := by
  unfold State.domainWake
  split
  · exact h.linksWake
  · exact h.linksWake
  · exact h.wr.pathLevel
  · exact .each h (fun _ _ ht => .ifDo ht (fun _ hu => hu.portStart))
  · exact .each h (fun _ _ ht => .ifDo ht (fun _ hu => hu.acquire))
  · exact h

theorem State.Canonical.downItem {i} (h : s.Canonical) : (s.downItem i).Canonical := by
  unfold State.downItem
  split
  · exact .entryDone (.wr (.ifDo h.closeRamp (fun _ ht => ht.domainLose)))
  · exact .ite h.entryDone (.ite h.closeRamp.railToOff.seqRecord.raise h.closeRamp.wr.wr.setRailAt)

theorem execSequenceEntryStart_ends {j} : Ends s (execSequenceEntryStart j s) := by
  unfold execSequenceEntryStart
  split
  · extract_lets s1 i
    have hs1 : s.Canonical → s1.Canonical := fun h => h.modSeq.seqRegs
    split
    · exact .next fun h => (hs1 h).modSeq.cascRegs.entryDone
    · split
      · exact .next fun h => .ifDo (hs1 h) (fun _ ht => ht.entryDone)
      · exact .next fun h => .ite (hs1 h).upItem (hs1 h).downItem
  · exact .next fun h => h

theorem execItemAdmit_ends {supply} : Ends s (execItemAdmit supply s) := by
  unfold execItemAdmit
  split
  · exact .next fun h => h
  · extract_lets w inW b
    split
    · exact .next fun h => .supRegs (.ite h.modSeq.wr.wr h.modSeq.wr.wr.wr.wr.setRailAt)
    · exact .next fun h => h

theorem execRailPgEdge_ends {n level} : Ends s (execRailPgEdge n level s) := by
  unfold execRailPgEdge
  extract_lets was s1 s2
  have hs1 : s.Canonical → s1.Canonical := fun h => h.modSeq
  have hs2 : s.Canonical → s2.Canonical := fun h => (hs1 h).flag
  split
  · exact .next fun h => .ite (hs2 h).wr.closeRamp.wr.stepFail (hs2 h).wr
  · exact .next fun h => (hs2 h)

theorem execRailQualified_ends {n} : Ends s (execRailQualified n s) := by
  unfold execRailQualified
  extract_lets since
  split
  · exact .next fun h => h.wr.closeRamp.entryDone
  · exact .next fun h => h

theorem execRailLost_ends {n} : Ends s (execRailLost n s) := by
  unfold execRailLost
  split
  · extract_lets s1
    have hs1 : s.Canonical → s1.Canonical := fun h => h.wr.raise
    exact .next fun h => .ite (hs1 h).stepFail (hs1 h)
  · exact .next fun h => h

theorem execRailTimeout_ends {n} : Ends s (execRailTimeout n s) := by
  unfold execRailTimeout
  split
  · exact .next fun h => h.closeRamp.wr.stepFail
  · exact .next fun h => h

theorem execRailFallTimeout_ends {n} : Ends s (execRailFallTimeout n s) := by
  unfold execRailFallTimeout
  split
  · split
    · exact .next fun h => h.wr.setRailAt
    · split
      · exact .next fun h => h.railToOff.seqRecord.raise
      · exact .next fun h => h
  · exact .next fun h => h

theorem execRailOff_ends {n} : Ends s (execRailOff n s) := by
  unfold execRailOff
  exact .next fun h => .ite h.railToOff h

theorem execDomainRampDone_ends {d} : Ends s (execDomainRampDone d s) := by
  unfold execDomainRampDone
  split
  · split
    · exact .next fun h => h.clearDomain.wr.closeRamp.entryDone
    · exact .next fun h => h
  · exact .next fun h => h

theorem execDomainSwitchTimeout_ends {d} : Ends s (execDomainSwitchTimeout d s) := by
  unfold execDomainSwitchTimeout
  split
  · split
    · exact .next fun h => h.closeRamp.wr.stepFail
    · exact .next fun h => h
  · exact .next fun h => h

theorem execDown_ends {agent} : Ends s (execDown agent s) := by
  unfold execDown
  exact .next fun h => .write h (fun _ ht => ht.startDown)

theorem State.Canonical.warmUp (h : s.Canonical) : s.warmUp.Canonical := .ite h (.startUp { h with })

theorem execRetry_ends {agent} : Ends s (execRetry agent s) := by
  unfold execRetry
  exact .next fun h => .write h (fun _ ht => .ite (.warmUp (.each ht
      (fun _ _ hu => .ifDo hu (fun _ hv2 => hv2.wr.wr)))) ht)

theorem execAvsRetry_ends {agent} : Ends s (execAvsRetry agent s) := by
  unfold execAvsRetry
  exact .next fun h => .write h (fun _ ht => ht.modSeq)

theorem execCascadeWaitTimeout_ends : Ends s (execCascadeWaitTimeout s) := by
  unfold execCascadeWaitTimeout
  extract_lets waiting
  clear_value waiting
  split
  · exact .next fun h => h
  · split
    · exact .next fun h => h.stepFail
    · exact .next fun h => h.entryDone.seqRecord.raise

theorem execCascadeWaitDone_ends {level} : Ends s (execCascadeWaitDone level s) := by
  unfold execCascadeWaitDone
  extract_lets s1
  have hs1 : s.Canonical → s1.Canonical := fun h => h.modSeq.cascRegs
  exact .next fun h => .ifDo (hs1 h) (fun _ ht => ht.entryDone)

theorem execSeqUiFall_ends : Ends s (execSeqUiFall s) := by
  unfold execSeqUiFall
  extract_lets s1
  have hs1 : s.Canonical → s1.Canonical := fun h => h.modSeq.cascRegs
  exact .next fun h => .ite (hs1 h) (hs1 h).startDown

theorem execSeqUiRise_ends : Ends s (execSeqUiRise s) := by
  unfold execSeqUiRise
  extract_lets s1
  have hs1 : s.Canonical → s1.Canonical := fun h => h.modSeq.cascRegs
  exact .next fun h => .ite (hs1 h).warmUp (hs1 h)

theorem State.Canonical.logSheets (h : s.Canonical) : s.logSheets.Canonical := .ifDo h (fun _ ht => ht.logRecord)

theorem execPfw_ends : Ends s (execPfw s) := by
  unfold execPfw
  split
  · exact .next fun h => h
  · extract_lets s1 s2
    have hs2 : s.Canonical → s2.Canonical := fun h => { h with }
    exact .next fun h => (hs2 h).wr.wr.logRecord.raise

theorem execPfwHoldEnd_ends : Ends s (execPfwHoldEnd s) := by
  unfold execPfwHoldEnd
  split
  · exact .next fun h => .ite h.startDown h
  · exact .next fun h => h

theorem execPfwRecover_ends : Ends s (execPfwRecover s) := by
  unfold execPfwRecover
  exact .next fun h => .wr { h with }

theorem execPfwAutoUp_ends : Ends s (execPfwAutoUp s) := by
  unfold execPfwAutoUp
  split
  · exact .next fun h => .ite h.warmUp h
  · exact .next fun h => h

theorem execSequenceDone_ends : Ends s (execSequenceDone s) := by
  unfold execSequenceDone
  split
  · exact .next fun h => h.modSeq.wr.event
  · extract_lets s1 s2 s3
    have hs1 : s.Canonical → s1.Canonical := fun h => h.modSeq
    have hs2 : s.Canonical → s2.Canonical := fun h => (hs1 h).wr.cascRegs
    exact .next fun h => .devTo (.event (.each (.logSheets { (hs2 h) with }) (fun _ _ ht => ht.wr)))
  · exact .next fun h => h

theorem State.Canonical.slackDomains (h : s.Canonical) : s.slackDomains.Canonical :=
  .each h (fun _ _ ht => .wr (.ifDo ht (fun _ hu => hu.domainLose)))

theorem execSlackEnter_ends : Ends s (execSlackEnter s) := by
  unfold execSlackEnter
  extract_lets n
  split
  · exact .next fun h => h.modSeq.slackDomains.wr.event.devTo
  · exact .next fun h => h

theorem execSlackExit_ends : Ends s (execSlackExit s) := by
  unfold execSlackExit
  split
  · extract_lets all s0 s1 s2
    have hs0 : s.Canonical → s0.Canonical := fun h => .each h (fun _ _ ht => ht.clearDomain)
    have hs1 : s.Canonical → s1.Canonical := fun h => .each (.each (hs0 h) (fun _ _ ht => ht.domainWake))
        (fun _ _ ht => ht.wr)
    have hs2 : s.Canonical → s2.Canonical := fun h => (hs1 h).modSeq
    exact .next fun h => (hs2 h).wr.event.devTo
  · exact .next fun h => h

theorem State.Canonical.avsPair (h : s.Canonical) : s.avsPair.Canonical := .ite h.modSeq h.mismatch

theorem execAvsEvaluate_ends {utils fifoLow} : Ends s (execAvsEvaluate utils fifoLow s) := by
  unfold execAvsEvaluate
  extract_lets umax s0 s1
  have hs0 : s.Canonical → s0.Canonical := fun h => h.wr.avsPair
  have hs1 : s.Canonical → s1.Canonical := fun h => (hs0 h).modSeq
  split
  · split
    · exact .next fun h => (hs1 h)
    · exact .next fun h => (hs1 h).wr.emit.event.modSeq
  · exact .next fun h => (hs1 h)

theorem execAvsReadbackCheck_ends {reading} : Ends s (execAvsReadbackCheck reading s) := by
  unfold execAvsReadbackCheck
  split
  · extract_lets s1 w
    have hs1 : s.Canonical → s1.Canonical := fun h => h.wr.modSeq
    exact .next fun h => .ite (hs1 h).raise (hs1 h)
  · extract_lets s1
    have hs1 : s.Canonical → s1.Canonical := fun h => h.modSeq
    split
    · exact .next fun h => (hs1 h).wr.modSeq.raise
    · exact .next fun h => (hs1 h)

/-! ### What Machine/Boot.lean defines -/

theorem State.Canonical.modBoot {f} (h : s.Canonical) : (s.modBoot f).Canonical := { h with }

theorem State.Canonical.setBootRecord {active try_ tries} (h : s.Canonical) :
    (s.setBootRecord active try_ tries).Canonical := h.st

theorem State.Canonical.setRollback {v} (h : s.Canonical) : (s.setRollback v).Canonical := h.st.st.st

theorem State.Canonical.fwRegs (h : s.Canonical) : s.fwRegs.Canonical := h.wr.wr.wr.wr.flag

theorem State.Canonical.bootSelect (h : s.Canonical) : s.bootSelect.Canonical := by
  unfold State.bootSelect
  split
  extract_lets sel s1 pick
  have hs1 : s1.Canonical := .ifDo h fun _ ht => ht.setBootRecord
  clear_value pick s1
  cases pick with
  | none => exact .set_faultN hs1.modBoot.wr
  | some b =>
    exact .logRecord (.fwRegs (.flag (.wr (.ifDo (.modBoot (.ifDo hs1 fun _ ht => ht.setBootRecord))
      fun _ ht => ht.setDigest))))

theorem State.Canonical.validRegs (h : s.Canonical) : s.validRegs.Canonical := h.wr

theorem State.Canonical.rawWords {p off a n} (h : s.Canonical) : (s.rawWords p off a n).Canonical := by
  induction n generalizing off a s with
  | zero => exact h
  | succ n ih => exact ih h.rawWord.follow

theorem State.Canonical.applyRecords {e n a} (h : s.Canonical) : (s.applyRecords e n a).Canonical := by
  induction n generalizing a s with
  | zero => exact h
  | succ n ih =>
    unfold State.applyRecords
    split
    · exact h
    · extract_lets hd
      split
      · exact ih (.ite h h.rawWords)
      · exact ih (.ite (.each h.bankPuts fun _ _ ht => ht.sealPage) h)
      · exact h

theorem State.Canonical.clearProf (h : s.Canonical) : s.clearProf.Canonical :=
  { h with regs := Sparse.sorted_filter _ h.regs }

theorem State.Canonical.clockProfile (h : s.Canonical) : s.clockProfile.Canonical :=
  .each h (fun _ _ ht => .ite (.ifDo ht.modClk (fun _ hu => hu.acquire)) ht)

theorem State.Canonical.slotRecords {p} (h : s.Canonical) : (s.slotRecords p).Canonical :=
  h.clearProf.applyRecords.clockProfile.storeRegs

theorem State.Canonical.powerWord {slot i} (h : s.Canonical) : (s.powerWord slot i).Canonical :=
  .each h (fun _ _ ht => ht.wr)

theorem State.Canonical.slotPower {slot} (h : s.Canonical) : (s.slotPower slot).Canonical :=
  .each h (fun _ _ ht => ht.powerWord)

theorem State.Canonical.takeRoles (h : s.Canonical) : s.takeRoles.Canonical := .each h (fun _ _ ht => ht.wr.wr)

theorem State.Canonical.assertReset (h : s.Canonical) : s.assertReset.Canonical :=
  ⟨Memory.wf_filter _ h.mem, Sparse.sorted_filter _ h.regs, rfl, rfl⟩

theorem State.Canonical.releaseReset {bankA bankB prof} (h : s.Canonical) :
    (s.releaseReset bankA bankB prof).Canonical := by
  unfold State.releaseReset
  extract_lets _ s1 s2 ok _ _ s3 s4 s5
  have hs1 : s1.Canonical := { h with }
  have hs2 : s2.Canonical := .each hs1.wr.flag.flag.wr fun _ _ ht => ht.wr
  clear_value s2
  have hs3 : s3.Canonical := { hs2 with }
  clear_value s3
  have hs4 : s4.Canonical := .devTo (.wr (.wr (.keeper hs3.validRegs)))
  clear_value s4
  have hs5 : s5.Canonical := .ite hs4 hs4.raise
  exact hs5.pathLevel.bootSelect.startUp

theorem execRstNRelease_ends {bankA bankB prof} : Ends s (execRstNRelease bankA bankB prof s) := by
  unfold execRstNRelease
  exact .next fun h => .ite h.releaseReset h

theorem execRstNAssert_ends : Ends s (execRstNAssert s) := by
  unfold execRstNAssert
  exact .next fun h => h.assertReset

theorem execInternalPowerOnReset_ends {bankA bankB prof} : Ends s (execInternalPowerOnReset bankA bankB prof s) := by
  unfold execInternalPowerOnReset
  extract_lets low s1
  have hs1 : s.Canonical → s1.Canonical := fun h => h.assertReset
  exact .next fun h => .ite (hs1 h) (hs1 h).releaseReset

theorem execWarmStart_ends : Ends s (execWarmStart s) := by
  unfold execWarmStart
  split
  · exact .next fun h => h
  · refine .next fun h => .bootSelect (.pathLevel (.devTo (.wr
        (.flag (.keeper (.hmTo (.each ?_ fun _ _ ht => ht.wr)))))))
    exact ⟨Memory.wf_filter _ h.mem, Sparse.sorted_filter _ h.regs, Sparse.sorted_filter _ h.stg, rfl⟩

theorem execBootDone_ends : Ends s (execBootDone s) := by
  unfold execBootDone
  split
  · extract_lets s1 s2 s3
    have hs1 : s.Canonical → s1.Canonical := fun h => .fillRange (.each h (fun _ _ ht => ht.clearDomain))
    have hs2 : s.Canonical → s2.Canonical := fun h => (hs1 h).wr.wr.wr
    have hs3 : s.Canonical → s3.Canonical := fun h => .each (hs2 h) (fun _ _ ht => ht.wr)
    exact .next fun h => (hs3 h).modBoot.devTo
  · exact .next fun h => h

theorem State.Canonical.rowRegs (h : s.Canonical) : s.rowRegs.Canonical :=
  .each (.each h (fun _ _ ht => ht.wr.wr)) (fun _ _ ht => ht.wr)

theorem State.Canonical.coarseSteppers (h : s.Canonical) : s.coarseSteppers.Canonical :=
  .each h (fun _ _ ht => ht.wr.stpState)

theorem execFillDone_ends : Ends s (execFillDone s) := by
  unfold execFillDone
  split
  · extract_lets p ok s1 s2 s3 s4 s5
    have hs2 : s.Canonical → s2.Canonical := fun h => { h with }
    have hs4 : s.Canonical → s4.Canonical := fun h => (hs2 h).slotPower.slotRecords.flag.flag
    have hs5 : s.Canonical → s5.Canonical := fun h => (hs2 h).clearProf.wr.wr
    exact .next fun h => .ifDo (.ite (.raise (.modBoot (.devTo
        (.storeRegs (.wr (.rowRegs (.takeRoles (.set_seq (.ite
        (.modClk (.ifDo (hs4 h) (fun _ ht => ht.coarseSteppers)))
        (.raise (.ifDo (hs5 h) (fun _ ht => ht.raise))))))))))))
        (.devTo (.storeRegs (.wr (.rowRegs (.takeRoles (.set_seq
        (.ite (.modClk (.ifDo (hs4 h) (fun _ ht => ht.coarseSteppers)))
        (.raise (.ifDo (hs5 h) (fun _ ht => ht.raise))))))))))) (fun _ ht => ht.event)
  · exact .next fun h => h

theorem fwPage_ends {k : State → State} {agent} (hk : ∀ t, t.Canonical → (k t).Canonical) : Ends s
    (fwPage k agent s) :=
  .next fun h => h.write hk

theorem execStage_ends {agent} : Ends s (execStage agent s) :=
  fwPage_ends fun t ht => by
    split
    · exact ht.accessBusy
    · extract_lets +onlyGivenNames src len
      generalize hostWindow src = w
      cases w with
      | none => exact ht
      | some w => exact .ite ht.modBoot.wr.fwRegs ht

theorem execStageDone_ends {image} : Ends s (execStageDone image s) := by
  unfold execStageDone
  split
  · extract_lets b s1 st
    have hs1 : s.Canonical → s1.Canonical := fun h => h.modBoot
    exact .next fun h => .ifDo (hs1 h).wr.fwRegs (fun _ ht => ht.event)
  · exact .next fun h => h

theorem State.Canonical.tryStaged (h : s.Canonical) : s.tryStaged.Canonical := h.setBootRecord

theorem execTryBoot_ends {agent} : Ends s (execTryBoot agent s) :=
  fwPage_ends fun _ ht => .ite ht.tryStaged ht

theorem execUpdate_ends {agent} : Ends s (execUpdate agent s) :=
  fwPage_ends fun _ ht => .ite ht (.ite ht.wr (.ite ht.wr ht.modBoot.wr.wr))

theorem State.Canonical.updateOver (h : s.Canonical) : s.updateOver.Canonical :=
  h.modBoot.tryStaged.wr.wr.wr.wr.fwRegs.logRecord.event

theorem execUpdateRoleMoved_ends {ok} : Ends s (execUpdateRoleMoved ok s) := by
  unfold execUpdateRoleMoved
  split
  · exact .next fun h => h
  · extract_lets r
    split
    · exact .next fun h => h
    · split
      · extract_lets s2 s3
        have hs2 : s.Canonical → s2.Canonical := fun h => .takeRole (.wr (.wr (.ifDo h (fun _ ht => ht.setDigest))))
        have hs3 : s.Canonical → s3.Canonical := fun h => .ifDo (hs2 h).modBoot (fun _ ht => .wr { ht with })
        split
        · exact .next fun h => (hs3 h).wr
        · exact .next fun h => (hs3 h).updateOver
      · exact .next fun h => h.updateAbort

theorem execAccept_ends {agent} : Ends s (execAccept agent s) :=
  fwPage_ends fun _ ht => .ite ht.accessBusy (.ite ht.setBootRecord.setRollback.wr.fwRegs ht)

theorem execAbort_ends {agent} : Ends s (execAbort agent s) :=
  fwPage_ends fun _ ht => ht.updateAbort

theorem pfCmd_ends {k : State → State} {agent} (hk : ∀ t, t.Canonical → (k t).Canonical) : Ends s (pfCmd k agent s) :=
  .next fun h => h.write hk

theorem State.Canonical.upload {n} (h : s.Canonical) : (s.upload n).2.Canonical := by
  unfold State.upload
  extract_lets o
  split
  · exact h
  · exact h.memBytes

theorem execWrite_ends {agent} : Ends s (execWrite agent s) :=
  pfCmd_ends fun t ht => by
    extract_lets n p
    have hu : (if n ≤ 262144 then t.upload n else (none, t)).2.Canonical := by
      split
      · exact ht.upload
      · exact ht
    split
    · rename_i e
      exact (hu.of_eq e).wr
    · rename_i e
      exact (hu.of_eq e).stBytes.validRegs.wr.logRecord

theorem execSelect_ends {agent} : Ends s (execSelect agent s) :=
  pfCmd_ends fun _ ht => .ite ht.accessBusy
    (.ite ht.slotRecords.wr.storeRegs.modBoot.wr.wr.logRecord.event (.ite ht.wr.raise ht.wr.raise))

theorem execKeyWrite_ends {agent} : Ends s (execKeyWrite agent s) :=
  pfCmd_ends fun t ht => by
    refine .ite ht.wr ?_
    split
    · rename_i e
      exact (ht.upload.of_eq e).wr
    · rename_i e
      exact (ht.upload.of_eq e).stBytes.bankPuts.wr.event

theorem execKeyLock_ends {agent} : Ends s (execKeyLock agent s) :=
  pfCmd_ends fun _ ht => ht.st.wr.fwRegs

theorem execKeyErase_ends {agent} : Ends s (execKeyErase agent s) :=
  pfCmd_ends fun _ ht => ht.stBytes.st.wr.fwRegs.event

theorem execTbAlarmWrite_ends {agent tick} : Ends s (execTbAlarmWrite agent tick s) := by
  unfold execTbAlarmWrite
  exact .next fun h => .write h (fun _ ht => ht.wr.wr.modClk)

theorem execArm_ends {agent on} : Ends s (execArm agent on s) := by
  unfold execArm
  exact .next fun h => .write h (fun _ ht => .ifDo ht.flag (fun _ hu => hu.modClk))

theorem execAlarm_ends : Ends s (execAlarm s) := by
  unfold execAlarm
  exact .next fun h => .ite h.event.wr h

/-! ### What Machine/Dma.lean defines -/

theorem execDoorbell_ends {agent ch} : Ends s (execDoorbell agent ch s) := by
  unfold execDoorbell
  exact .next fun h => .write h (fun _ ht => .ite ht.wr.dcStart ht.wr)

theorem State.Canonical.dcRead {n host hostOk} (h : s.Canonical) : (s.dcRead n host hostOk).2.Canonical := by
  unfold State.dcRead
  extract_lets a
  split
  · exact h
  · split
    · split
      · exact h
      · split <;> exact h
    · split
      · split
        all_goals
          rename_i e
          exact h.memBytes.of_eq e
      · exact h

theorem State.Canonical.dcActivate {n} (h : s.Canonical) : (s.dcActivate n).Canonical :=
  .ite h.wr.dcAborted.hwReact (.ite h.wr.modChan.dcTo.event h.wr.dcTo)

theorem execDescriptorFetch_ends {ch host hostOk} : Ends s (execDescriptorFetch ch host hostOk s) := by
  unfold execDescriptorFetch
  split
  · split
    · rename_i t e
      have ht := fun h : State.Canonical s => h.dcRead.of_eq e
      exact .next fun h => (ht h).dcFetchError.hwReact
    · rename_i t e
      have ht := fun h : State.Canonical s => h.dcRead.of_eq e
      extract_lets w c
      split
      · split
        · exact .next fun h => (ht h).modChan.dcError.hwReact
        · exact .next fun h => (ht h).modChan.dcActivate
      · split
        · exact .next fun h => (ht h).modChan.wr.sat
        · split
          · exact .next fun h => (ht h).dcHaltBare.hwReact
          · split
            · exact .next fun h => (ht h).modChan.dcTo.event
            · exact .next fun h => (ht h).dcTo.event
  · exact .next fun h => h

theorem execDmaBurstGrant_ends {requests} : Ends s (execDmaBurstGrant requests s) := by
  unfold execDmaBurstGrant
  split
  · exact .next fun h => h
  · extract_lets c left b s1
    have hs1 : s.Canonical → s1.Canonical := fun h => h.modChan
    exact .next fun h => { (hs1 h) with }

theorem State.Canonical.burst {n c base data sides flight stop k i acc}
    (h : s.Canonical) : (s.burst n c base data sides flight stop k i acc).2.2.Canonical := by
  induction k generalizing i acc s with
  | zero => exact h
  | succ k ih =>
    unfold State.burst
    extract_lets sa da
    split
    · exact h
    · have hread : (if sides.1 && (hostWindow c.src).isNone then
          if s.dmaMemory sa 8 then (let r := s.memWord sa (.dma n); (.inl r.1, r.2)) else (.inr (), s)
        else (.inl (some (leNat ((data.drop (8 * i)).take 8))), s) : (Option Nat ⊕ Unit) × State).2.Canonical := by
        split
        · split
          · exact h.memWord
          · exact h
        · exact h
      split
      rename_i v s1 e
      have hs1 := hread.of_eq e
      split
      · exact hs1
      · exact hs1
      · split
        rename_i r s2 e2
        have hs2 := hs1.fabric.of_eq e2
        split
        · exact hs2
        · split
          · split
            · exact ih hs2.memPut
            · exact hs2
          · exact ih hs2

theorem State.Canonical.burstOut {n base out} (h : s.Canonical) : (s.burstOut n base out).Canonical := by
  unfold State.burstOut
  split
  · exact .ifDo h (fun _ ht => ht.emit)
  · exact h

theorem State.Canonical.fifoPop {c n} (h : s.Canonical) : (s.fifoPop c n).2.Canonical := .wr { h with }

theorem State.Canonical.burstData {n b data} (h : s.Canonical) : (s.burstData n b data).2.Canonical := by
  unfold State.burstData
  extract_lets r
  split
  · exact h
  · split
    · exact h.fifoPop
    · exact h

theorem execDmaBurstDone_ends {ch data hostBad flight} : Ends s (execDmaBurstDone ch data hostBad flight s) := by
  unfold execDmaBurstDone
  extract_lets c
  split
  · exact .next fun h => h
  · split
    · split
      rename_i s0 e
      have hs0 := fun h : State.Canonical s => h.burstData.of_eq e
      split
      rename_i s1 e
      have hs1 := fun h : State.Canonical s => (hs0 h).burst.of_eq₂ e
      extract_lets s2
      have hs2 : s.Canonical → s2.Canonical := fun h => (hs1 h).burstOut.wr.modChan
      split
      · exact .next fun h => (hs2 h).dcError.hwReact
      · split
        · exact .next fun h => (hs2 h).dcError.hwReact
        · split
          · exact .next fun h => (hs2 h).dcDone.hwReact
          · exact .next fun h => (hs2 h)
    · exact .next fun h => h

theorem execPause_ends {agent ch} : Ends s (execPause agent ch s) := by
  unfold execPause
  exact .next fun h => .write h (fun _ ht => .ite ht.dcTo (.ite ht.modChan.dcTo (.ite ht.modChan.dcTo.event ht)))

theorem execPauseDrained_ends {ch} : Ends s (execPauseDrained ch s) := by
  unfold execPauseDrained
  extract_lets c
  split
  · split
    · exact .next fun h => h.dcAborted.hwReact
    · exact .next fun h => h.dcTo.event
  · exact .next fun h => h

theorem execResume_ends {agent ch} : Ends s (execResume agent ch s) := by
  unfold execResume
  refine .next fun h => ?_
  refine .write h (fun _ ht => .ite (.ite (.ite ht.modChan.wr.dcStart ht.modChan.wr.dcTo)
      (.ite ht.modChan.wr.dcStart (.ite ht.modChan.wr.dcError.hwReact ht.modChan.wr.dcTo))) ht)

theorem execClear_ends {agent ch} : Ends s (execClear agent ch s) := by
  unfold execClear
  exact .next fun h => .write h (fun _ ht => .ite (.ite (.dcStart (.ite ht.wr (.ite ht ht.setCur)))
      (.dcTo (.ite ht.wr (.ite ht ht.setCur)))) ht)

theorem execDmaAbort_ends {agent ch} : Ends s (execDmaAbort agent ch s) := by
  unfold execDmaAbort
  exact .next fun h => .write h (fun _ ht => ht.dmaAbort.hwReact)

theorem execDcHeadWrite_ends {agent ch hi value} : Ends s (execDcHeadWrite agent ch hi value s) := by
  unfold execDcHeadWrite
  exact .next fun h => .write h (fun _ ht => .ite (.ifDo (.setCur (.ite ht.wr ht.wr)) (fun _ hu => hu.wr.modChan))
      ht.accessBusy)

theorem execWindowRevoke_ends {agent n word value} : Ends s (execWindowRevoke agent n word value s) := by
  unfold execWindowRevoke
  exact .next fun h => .write h (fun _ ht => ht.winWrite.hwReact)

end Sys2Proof.Machine
end

