-- ==== Sys2Proof/Proofs/CanonicalMotors.lean ====
section
/-!
PROOFS. Head links, motors, registration and the register bus keep the canonical form.
-/
namespace Sys2Proof.Machine

variable {s : State}

/-! ### What Machine/HeadLink.lean defines -/

theorem State.Canonical.notReady {k} (h : s.Canonical) : (s.notReady k).Canonical := .ite h h.wr.event

theorem State.Canonical.remap {k} (h : s.Canonical) : (s.remap k).Canonical := by
  unfold State.remap
  split
  · exact h.notReady
  · exact .modLink (.headSend (.ifDo h (fun _ ht => ht.headSend)))

theorem State.Canonical.mapApply {k m} (h : s.Canonical) : (s.mapApply k m).Canonical := by
  unfold State.mapApply
  extract_lets training s1 s2 s3 s4 s5 s6
  have hs1 : s1.Canonical := h.wr.wr
  have hs2 : s2.Canonical := hs1.wr.flag.modLink
  have hs3 : s3.Canonical := hs2.event
  have hs4 : s4.Canonical := .ifDo hs3 (fun _ ht => ht.emit.event.modLink)
  have hs5 : s5.Canonical := .ifDo hs4.wr (fun _ ht => ht.event)
  have hs6 : s6.Canonical := .ifDo hs5 (fun _ ht => .each ht (fun _ _ hu => hu.headSend))
  exact hs6.closeRecovery.linkCheck

theorem State.Canonical.sendTurn {k} (h : s.Canonical) : (s.sendTurn k).Canonical :=
  .each h.modLink (fun _ _ ht => ht.emit)

theorem execLinkTraining_ends {station} : Ends s (execLinkTraining station s) := by
  unfold execLinkTraining
  extract_lets k q
  split
  · exact .next fun h => h
  · split
    · exact .next fun h => h.train
    · split
      · split
        · exact .next fun h => .ite h.sendTurn h
        · exact .next fun h => .ite h.remap h
      · exact .next fun h => h

theorem execRetrain_ends {agent station value} : Ends s (execRetrain agent station value s) := by
  unfold execRetrain
  exact .next fun h => .write h (fun _ ht => .ifDo ht.fieldsWrite (fun _ hu => hu.train))

theorem execStatusLaneTimeout_ends {station} : Ends s (execStatusLaneTimeout station s) := by
  unfold execStatusLaneTimeout
  extract_lets k q
  split
  · split
    · exact .next fun h => h.modLink.sendTurn
    · exact .next fun h => h
  · exact .next fun h => h

theorem execTrainingTimeout_ends {station} : Ends s (execTrainingTimeout station s) := by
  unfold execTrainingTimeout
  extract_lets k
  split
  · split
    · exact .next fun h => h.modLink.wr.modLink.raise
    · exact .next fun h => h.modLink.trainStart
  · exact .next fun h => h

theorem State.Canonical.laneFail {k n} (h : s.Canonical) : (s.laneFail k n).Canonical :=
  .ite (.ite h.wr.sat.modLink.raiseWith.openRecovery.remap h.wr.sat.modLink.raiseWith.notReady) h

theorem execBlockLockLost_ends {station} : Ends s (execBlockLockLost station s) := by
  unfold execBlockLockLost
  exact .next fun h => h.laneFail

theorem execStatus_ends {station flags lock scan rxerr} : Ends s (execStatus station flags lock scan rxerr s) := by
  unfold execStatus
  extract_lets k st
  split
  · exact .next fun h => h
  · exact .next fun h => .ite (.headCutNow (.ite h.modLink.satAdd.wr.flag.flag.wr
        (.each h.modLink.satAdd.wr.flag.flag.modLink (fun _ _ ht => ht.laneFail))))
        (.quenchTry (.ite h.modLink.satAdd.wr.flag.flag.wr (.each h.modLink.satAdd.wr.flag.flag.modLink
        (fun _ _ ht => ht.laneFail))))

theorem execAck_ends {station tag} : Ends s (execAck station tag s) := by
  unfold execAck
  extract_lets k
  split
  · exact .next fun h => h
  · split
    · split
      · exact .next fun h => .ite h.modLink.mapApply h.modLink
      · exact .next fun h => h.modLink
    · split
      · exact .next fun h => h.modLink.event
      · exact .next fun h => h.modLink

theorem execCmdAckTimeout_ends {station} : Ends s (execCmdAckTimeout station s) := by
  unfold execCmdAckTimeout
  extract_lets k
  split
  · exact .next fun h => h
  · extract_lets late
    split
    · split
      · exact .next fun h => h.modLink.emit
      · exact .next fun h => h.raise.train
    · exact .next fun h => h

theorem execScanErr_ends {station scanNo lanes} : Ends s (execScanErr station scanNo lanes s) := by
  unfold execScanErr
  extract_lets k n named s1 s2 s3 win s4 s5 noisy
  refine .next fun h => ?_
  have hs1 : s1.Canonical := by
    dsimp only [s1]
    split
    · split
      · exact .ite h.pageLost h
      · exact h
    · exact h
  have hs3 : s3.Canonical := .each hs1.sat fun _ _ ht => ht.sat
  exact .each hs3.modLink.event.raise fun _ _ ht => ht.modLink.laneFail

theorem execStatusTimeout_ends {station} : Ends s (execStatusTimeout station s) := by
  unfold execStatusTimeout
  extract_lets k
  split
  · exact .next fun h => h.train
  · exact .next fun h => h

theorem execQuenchRepeat_ends {station} : Ends s (execQuenchRepeat station s) := by
  unfold execQuenchRepeat
  extract_lets k
  split
  · exact .next fun h => h.modLink.emit
  · exact .next fun h => h

theorem execAlignSend_ends {station} : Ends s (execAlignSend station s) := by
  unfold execAlignSend
  extract_lets k q due
  split
  · exact .next fun h => h.modLink.emit.freeNext
  · exact .next fun h => h

theorem execReplySlot_ends {station} : Ends s (execReplySlot station s) := by
  unfold execReplySlot
  extract_lets k q up
  split
  · exact .next fun h => h.modLink.emit
  · exact .next fun h => h

theorem State.Canonical.headChanged {k} (h : s.Canonical) : (s.headChanged k).Canonical := by
  unfold State.headChanged
  extract_lets s1 s2 testing s3
  have hs1 : s1.Canonical := .each h (fun _ _ ht => ht.wr.wr.wr.wr)
  have hs2 : s2.Canonical := hs1.wr.wr.modIlace
  have hs3 : s3.Canonical := .ifDo hs2 (fun _ ht => .ifDo ht.wr.wr (fun _ hu => hu.wr))
  exact hs3.modLink.event.replanReq

theorem State.Canonical.headAccept {k m} (h : s.Canonical) : (s.headAccept k m).Canonical := by
  unfold State.headAccept
  extract_lets serial changed s1 s2 s3 hot s4 isoOk iso s5
  have hs1 : s1.Canonical := .ifDo h (fun _ ht => ht.headChanged)
  have hs2 : s2.Canonical := hs1.wr.wr.wr
  have hs3 : s3.Canonical := .each hs2 (fun _ _ ht => ht.wr)
  have hs4 : s4.Canonical := hs3.wr.wr.wr
  have hs5 : s5.Canonical := .ifDo hs4.modLink (fun _ ht => .each ht.wr.wr (fun _ _ hu => hu.headSend.modIlace))
  exact .ifDo hs5 (fun _ ht => ht.train)

theorem execHeadMemoryRead_ends {station bytes} : Ends s (execHeadMemoryRead station bytes s) := by
  unfold execHeadMemoryRead
  extract_lets k m
  split
  · exact .next fun h => h
  · split
    · exact .next fun h => h.wr.raise
    · split
      · exact .next fun h => h.wr.raise
      · exact .next fun h => h.headAccept

/-! ### What Machine/Motors.lean defines -/

theorem State.Canonical.commutate {n sec dir t} (h : s.Canonical) : (s.commutate n sec dir t).Canonical := by
  unfold State.commutate
  extract_lets m prev s1 s2
  have hs1 : s1.Canonical := h.modMotor
  have hs2 : s2.Canonical := hs1.wr
  split
  · exact hs2.wrS
  · split
    · exact hs2.wrS
    · exact hs2

theorem State.Canonical.settle {n} (h : s.Canonical) : (s.settle n).Canonical := by
  unfold State.settle
  split
  · exact .ite h.commutate h
  · exact h

theorem State.Canonical.sensorError {n} (h : s.Canonical) : (s.sensorError n).Canonical := h.sat.latch

theorem State.Canonical.keEstimate {n} (h : s.Canonical) : (s.keEstimate n).Canonical :=
  .ifDo (.ifDo h.wr.modMotor.event (fun _ ht => ht.latch)) (fun _ ht => ht.latch)

theorem State.Canonical.enterRun {n ramp} (h : s.Canonical) : (s.enterRun n ramp).Canonical :=
  h.gatesOff.modMotor.cmTo.event

theorem State.Canonical.fromRest {n} (h : s.Canonical) : (s.fromRest n).Canonical :=
  .ite h.enterRun h.gatesOff.modMotor.wr.cmTo

theorem State.Canonical.keStart {n} (h : s.Canonical) : (s.keStart n).Canonical := h.gatesOff.modMotor

theorem State.Canonical.keEnd {n} (h : s.Canonical) : (s.keEnd n).Canonical := by
  unfold State.keEnd
  split
  · exact .ite h.modMotor.keEstimate h
  · exact h

theorem State.Canonical.hallEdge {n code offs} (h : s.Canonical) : (s.hallEdge n code offs).Canonical := by
  unfold State.hallEdge
  split
  · exact h.sensorError
  · exact .ite h.modMotor.wr (.ite h.modMotor (.commutate (.ifDo h.modMotor (fun _ ht => ht.sensorError))))

theorem State.Canonical.bemfEdge {n old code} (h : s.Canonical) : (s.bemfEdge n old code).Canonical :=
  .ite h (.ite (.ite h.modMotor.enterRun h.modMotor) h.modMotor)

theorem execCommutationEdge_ends {n code} : Ends s (execCommutationEdge n code s) := by
  unfold execCommutationEdge
  extract_lets s0 old s1 st
  have hs0 : s.Canonical → s0.Canonical := fun h => h.settle
  have hs1 : s.Canonical → s1.Canonical := fun h => (hs0 h).modMotor
  split
  · exact .next fun h => (hs1 h).hallEdge.keEnd.hwReact
  · split
    · exact .next fun h => (hs1 h).bemfEdge.hwReact
    · exact .next fun h => (hs1 h).hallEdge.keEnd.hwReact

theorem execSectorTimeout_ends {n} : Ends s (execSectorTimeout n s) := by
  unfold execSectorTimeout
  extract_lets u m st
  have hu : s.Canonical → u.Canonical := fun h => h.settle
  split
  · exact .next fun h => .hwReact (.ifDo (hu h).modMotor.sat.commutate (fun _ ht => ht.latch))
  · exact .next fun h => (hu h)

theorem State.Canonical.speedDecay {n} (h : s.Canonical) : (s.speedDecay n).Canonical := .ite h.wrS (.ite h.wrS h)

theorem State.Canonical.cmStop {n} (h : s.Canonical) : (s.cmStop n).Canonical := h.cmLeave.cmTo

theorem State.Canonical.bandSample {n} (h : s.Canonical) : (s.bandSample n).Canonical :=
  .ite (.ite h.modMotor h.modMotor.bandEnter) (.ite (.ite h.modMotor.modMotor.bandLeave h.modMotor) h)

theorem State.Canonical.openLoop {n} (h : s.Canonical) : (s.openLoop n).Canonical :=
  .ite (.latch (.cmToOff (.each h.modMotor (fun _ _ ht => ht.modMotor.commutate))))
      (.each h.modMotor (fun _ _ ht => ht.modMotor.commutate))

theorem execMotorSample_ends {n} : Ends s (execMotorSample n s) := by
  unfold execMotorSample
  split
  · exact .next fun h => h
  · extract_lets s1 target low s2 goal s3 s4 slow s5 s6
    have hs1 : s.Canonical → s1.Canonical := fun h => h.modMotor.boundary.settle.speedDecay
    have hs2 : s.Canonical → s2.Canonical := fun h => .ite (hs1 h).cmStop (hs1 h)
    have hs3 : s.Canonical → s3.Canonical := fun h => .ite (hs2 h).modMotor (hs2 h)
    have hs4 : s.Canonical → s4.Canonical := fun h => (hs3 h).wrS
    have hs5 : s.Canonical → s5.Canonical := fun h => .ite (hs4 h).cmToOff
        (.ite (hs4 h).fromRest (.ite (hs4 h).openLoop (hs4 h)))
    have hs6 : s.Canonical → s6.Canonical := fun h => (hs5 h).bandSample
    exact .next fun h => .hwReact (.ifDo (hs6 h) (fun _ ht => ht.keStart))

theorem execStall_ends {n} : Ends s (execStall n s) := by
  unfold execStall
  extract_lets u m
  have hu : s.Canonical → u.Canonical := fun h => h.settle
  split
  · exact .next fun h => (hu h).cmToOff.latch.hwReact
  · exact .next fun h => (hu h)

theorem State.Canonical.cmQueue {n} (h : s.Canonical) : (s.cmQueue n).Canonical := h.modGroup.modMotor.cmTo

theorem State.Canonical.cmStartCmd {n} (h : s.Canonical) : (s.cmStartCmd n).Canonical :=
  .ite h (.ite h.cmQueue (.ite h.enterRun (.ite (.ite h.accessBusy h.cmQueue) h)))

theorem State.Canonical.cmStopCmd {n} (h : s.Canonical) : (s.cmStopCmd n).Canonical :=
  .ite h.cmToOff (.ite h.cmStop.hwReact h)

theorem execStart_ends {agent n} : Ends s (execStart agent n s) := by
  unfold execStart
  exact .next fun h => .write h (fun _ ht => ht.cmStartCmd)

theorem execStop_ends {agent n} : Ends s (execStop agent n s) := by
  unfold execStop
  exact .next fun h => .write h (fun _ ht => ht.cmStopCmd)

theorem execCoast_ends {agent n} : Ends s (execCoast agent n s) := by
  unfold execCoast
  exact .next fun h => .write h (fun _ ht => .ite ht ht.cmToOff.hwReact)

theorem execKeProbe_ends {agent n} : Ends s (execKeProbe agent n s) := by
  unfold execKeProbe
  extract_lets run
  split
  · exact .next fun h => .write h (fun _ ht => .ite (.ite ht.modMotor ht.keStart) ht)
  · exact .next fun h => .ite (.ite (.ite h.modMotor h.keStart) h) h

theorem execStartAdmit_ends {g} : Ends s (execStartAdmit g s) := by
  unfold execStartAdmit
  split
  · exact .next fun h => h
  · extract_lets n w used budget
    split
    · exact .next fun h => .cmTo (.modMotor (.ifDo h.modGroup.sat.wr (fun _ ht => ht.event)))
    · exact .next fun h => h

theorem execListenDone_ends {n} : Ends s (execListenDone n s) := by
  unfold execListenDone
  extract_lets m
  split
  · exact .next fun h => h
  · split
    · split
      · exact .next fun h => .hwReact (.inc (.event (.enterRun (.ifDo h (fun _ ht => ht.keEstimate)))))
      · split
        · exact .next fun h => .hwReact (.cmTo (.modMotor (.ifDo h (fun _ ht => ht.keEstimate))))
        · exact .next fun h => .hwReact (.fromRest (.ifDo h (fun _ ht => ht.keEstimate)))
    · split
      · exact .next fun h => h.fromRest
      · exact .next fun h => h

theorem execAlignDone_ends {n} : Ends s (execAlignDone n s) := by
  unfold execAlignDone
  split
  · exact .next fun h => h.modMotor.cmTo
  · exact .next fun h => h

theorem State.Canonical.chopPair {g} (h : s.Canonical) : (s.chopPair g).Canonical := .ite h.modGroup h.mismatch

theorem State.Canonical.chopGate {g v} (h : s.Canonical) : (s.chopGate g v).Canonical := by
  unfold State.chopGate
  extract_lets q on_
  split
  · exact h.modGroup.wr
  · exact .ifDo h.modGroup.wr (fun _ ht => ht.wr)
  · exact .ite h.modGroup h

theorem State.Canonical.chopFault {g} (h : s.Canonical) : (s.chopFault g).Canonical :=
  .ite h.modGroup (.each h.modGroup.wr.sat.latch (fun _ _ ht => ht.wr.wr))

theorem State.Canonical.chopCheck {g v cur} (h : s.Canonical) : (s.chopCheck g v cur).Canonical := by
  unfold State.chopCheck
  split
  · exact h
  · exact .ifDo h.modGroup (fun _ ht => ht.chopFault)

theorem State.Canonical.busTrip {g} (h : s.Canonical) : (s.busTrip g).Canonical :=
  .each h.wr.sat.latch (fun _ _ ht => .ite ht.modMotor.cmLeave.cmTo ht)

theorem execBusSample_ends {g} : Ends s (execBusSample g s) := by
  unfold execBusSample
  split
  · exact .next fun h => h
  · extract_lets v cur s1 s2 uv s3
    have hs1 : s.Canonical → s1.Canonical := fun h => h.modGroup.wr.chopPair
    have hs2 : s.Canonical → s2.Canonical := fun h => (hs1 h).chopGate.chopCheck
    have hs3 : s.Canonical → s3.Canonical := fun h => .ifDo (hs2 h).flag (fun _ ht => ht.latch)
    exact .next fun h => .hwReact (.ifDo (hs3 h) (fun _ ht => ht.busTrip))

theorem execTest_ends {agent g} : Ends s (execTest agent g s) := by
  unfold execTest
  exact .next fun h => .write h (fun _ ht => .ite ht.modGroup.wr ht)

theorem execResetTrip_ends {agent g} : Ends s (execResetTrip agent g s) := by
  unfold execResetTrip
  exact .next fun h => .write h (fun _ ht => .ite (.ite (.each ht.wr.event (fun _ _ hu => hu.cmQueue)) ht)
      ht.accessBusy)

/-! ### What Machine/Registration.lean defines -/

theorem State.Canonical.wrFit {f v} (h : s.Canonical) : (s.wrFit f v).Canonical := .ite h.wrS h.wr.freeNext

theorem State.Canonical.modReg {f} (h : s.Canonical) : (s.modReg f).Canonical := h.modSta

theorem execMarkEdge_ends {j stamp} : Ends s (execMarkEdge j stamp s) := by
  unfold execMarkEdge
  exact .next fun h => .ifDo h (fun _ ht => ht.modReg)

theorem execMarkWindowOpen_ends : Ends s (execMarkWindowOpen s) := by
  unfold execMarkWindowOpen
  split
  · split
    · exact .next fun h => h.modReg.wr
    · exact .next fun h => h
  · exact .next fun h => h

theorem State.Canonical.markResult {m valid idx k j} (h : s.Canonical) : (s.markResult m valid idx k j).Canonical :=
  by
  unfold State.markResult
  extract_lets t
  refine .wrFit ?_
  dsimp only [t]
  split
  · exact h.wrFit
  · exact h.wr.freeNext

theorem execMarkWindowClose_ends : Ends s (execMarkWindowClose s) := by
  unfold execMarkWindowClose
  split
  · split
    · extract_lets valid s1 s2 s3
      have hs1 : s.Canonical → s1.Canonical := fun h => .each h (fun _ _ ht => .each ht (fun _ _ hu => hu.markResult))
      have hs2 : s.Canonical → s2.Canonical := fun h => (hs1 h).wr.inc.wr.event
      have hs3 : s.Canonical → s3.Canonical := fun h => (hs2 h).modReg
      exact .next fun h => .each (hs3 h) (fun _ _ ht => ht.sat.event.raise)
    · exact .next fun h => h
  · exact .next fun h => h

theorem State.Canonical.addClamp {f signed staged d} (h : s.Canonical) : (s.addClamp f signed staged d).Canonical :=
  .ifDo (.ite h.stgWr h.wr) (fun _ ht => ht.raise)

theorem State.Canonical.correctStation {x0} (h : s.Canonical) : (s.correctStation x0).Canonical :=
  .commitBound (.commitBound (.each h.addClamp.addClamp.addClamp (fun _ _ ht => ht.addClamp)))

theorem execRegistrationCorrection_ends : Ends s (execRegistrationCorrection s) := by
  unfold execRegistrationCorrection
  extract_lets r
  split
  · exact .next fun h => h
  · split
    · split
      · exact .next fun h => h
      · exact .next fun h => .modReg (.each h (fun _ _ ht => ht.correctStation))
    · split
      · exact .next fun h => h
      · exact .next fun h => .modReg (.ptCommit (.each h (fun _ _ ht => ht.addClamp)))

theorem Ends.after {r} (hr : Ends s r) (h : s.Canonical) : (Machine.after r s).Canonical := by
  obtain ⟨t, rfl, ht⟩ := hr
  exact ht h

/-! ### What Machine/RegBus.lean defines -/

/-- Every entry of a list has a property, as a conjunction of one part for each entry. -/
def AllOf {α : Type} (p : α → Prop) : List α → Prop
  | [] => True
  | [x] => p x
  | x :: y :: l => p x ∧ AllOf p (y :: l)

theorem AllOf.of_mem {α : Type} {p : α → Prop} : ∀ {l : List α}, AllOf p l → ∀ x ∈ l, p x
  | [], _, x, hx => absurd hx List.not_mem_nil
  | [_], h, _, hx => List.mem_singleton.mp hx ▸ h
  | _ :: _ :: _, h, x, hx => (List.mem_cons.mp hx).elim (fun heq => heq ▸ h.1) fun hrest => AllOf.of_mem h.2 x hrest

theorem State.Canonical.cmdBits {v l} (hl : AllOf (fun x => ∀ t, Ends t (x.2 t)) l) (h : s.Canonical) :
    (s.cmdBits v l).Canonical := by
  have hall {l : List (Nat × (State → Result))} (hl : ∀ x ∈ l, ∀ t, Ends t (x.2 t)) {s : State} (h : s.Canonical) :
      (s.each l fun x t => Machine.after (x.2 t) t).Canonical := by
    induction l generalizing s with
    | nil => exact h
    | cons x l ih =>
      exact ih (fun y hy => hl y (List.mem_cons_of_mem x hy)) ((hl x List.mem_cons_self s).after h)
  exact hall (fun x hx => hl.of_mem x (List.mem_filter.mp hx).1) h

theorem State.Canonical.applyNow {p} (h : s.Canonical) : (s.applyNow p).Canonical :=
  .ite h.ptBoundary h.boundary.follow

theorem State.Canonical.commitPend {p} (h : s.Canonical) : (s.commitPend p).Canonical := by
  unfold State.commitPend
  split
  · exact h.commitBound
  · exact h.commitBound
  · exact h.commitBound
  · exact .ite h.wr.applyNow h.wr.mark

theorem State.Canonical.commit {p} (h : s.Canonical) : (s.commit p).Canonical :=
  .ite h (.ite (.ifDo (.mismatch (.ifDo h (fun _ ht => ht.flag))) (fun _ ht => ht.event))
      (.commitPend (.ifDo h (fun _ ht => ht.flag))))

theorem State.Canonical.pageAbort {a p} (h : s.Canonical) : (s.pageAbort a p).Canonical :=
  .ite (execEncodeAbort_ends.after h) (.ite (execDmaAbort_ends.after h) h)

theorem State.Canonical.isolateWrite {p} (h : s.Canonical) : (s.isolateWrite p).Canonical := h.isolate.hwReact

theorem State.Canonical.restart {p} (h : s.Canonical) : (s.restart p).Canonical :=
  .ifDo (.ite (.ifDo h.blockRestore (fun _ ht => ht.portStart)) h.blockRestore) (fun _ ht => ht.applyNow)

theorem State.Canonical.isolateEnd {p} (h : s.Canonical) : (s.isolateEnd p).Canonical :=
  .ite h.wr (.ite h h.wr.wr.restart)

theorem State.Canonical.ownerWrite {p host} (h : s.Canonical) : (s.ownerWrite p host).Canonical :=
  .ite h.accessBusy h.flag

theorem State.Canonical.enableWrite {a p on} (h : s.Canonical) : (s.enableWrite a p on).Canonical :=
  .ite (.ite h (execRingsEnable_ends.after h)) h.flag

theorem State.Canonical.ctrlBits {a p v} (h : s.Canonical) : (s.ctrlBits a p v).Canonical := by
  unfold State.ctrlBits
  extract_lets s1 s2 s3 s4
  have hs1 : s1.Canonical := .ifDo h.enableWrite (fun _ ht => ht.commit)
  have hs2 : s2.Canonical := .ifDo hs1 (fun _ ht => ht.pageAbort)
  have hs3 : s3.Canonical := .ite hs2 (.ite hs2.isolateWrite hs2.isolateEnd)
  have hs4 : s4.Canonical := .ite hs3 (.ite hs3.ownerWrite hs3.countDenied)
  exact .ifDo hs4 (fun _ ht => ht.wr)

theorem State.Canonical.ctrlWrite {a p v} (h : s.Canonical) : (s.ctrlWrite a p v).Canonical := by
  unfold State.ctrlWrite
  extract_lets u
  have hu : u.Canonical := h.wake
  exact .ite hu (.ite hu.countDenied (.ite (.ite hu.enableWrite hu.countDenied)
      (.ite hu.ctrlBits (.ite hu.ownerWrite hu.countDenied))))

theorem State.Canonical.evtClear {p mask} (h : s.Canonical) : (s.evtClear p mask).Canonical := h.wr

theorem State.Canonical.faultClear {p mask} (h : s.Canonical) : (s.faultClear p mask).Canonical :=
  .ite (.ifDo h.fltClear (fun _ ht => ht.quenchTry)) (.ite (.each h.fltClear
      (fun _ _ ht => .each ht (fun _ _ hu => hu.wr.wr))) h.fltClear)

theorem State.Canonical.statClear {p mismatch busy} (h : s.Canonical) : (s.statClear p mismatch busy).Canonical :=
  .ifDo (.ifDo h (fun _ ht => ht.wr)) (fun _ ht => ht.wr)

theorem State.Canonical.headerWrite {a p off v} (h : s.Canonical) : (s.headerWrite a p off v).Canonical := by
  unfold State.headerWrite
  split
  · exact h.ctrlWrite
  · exact .write h (fun _ ht => ht.statClear)
  · exact .guarded h (fun _ ht => ht.evtClear)
  · exact .write h (fun _ ht => ht.wr)
  · exact .guarded h (fun _ ht => ht.faultClear)
  · exact .write h (fun _ ht => ht.wr)
  · exact .write h (fun _ ht => ht)

theorem State.Canonical.plain {p off v} (h : s.Canonical) : (s.plain p off v).Canonical :=
  .ite h.fieldsWrite h.fieldsWrite.follow

theorem State.Canonical.writeDevice {a p off v} (h : s.Canonical) : (s.writeDevice a p off v).Canonical := by
  unfold State.writeDevice
  extract_lets cmds
  split
  · exact .write h fun _ ht => ht.cmdBits fun _ => execFirstClr_ends
  · exact .ite (execAssayGo_ends.after h) (.write h fun _ ht => ht.plain)
  · exact .write h fun _ ht => ht.cmdBits ⟨fun _ => execBeat_ends, fun _ => execHarbourmasterResync_ends⟩
  · exact .write h fun _ ht => ht.cmdBits ⟨fun _ => execDown_ends, fun _ => execRetry_ends, fun _ =>
        execAvsRetry_ends⟩
  · exact .write h fun _ ht => ht.cmdBits fun _ => execRelock_ends
  · exact execTbAlarmWrite_ends.after h
  · exact execArm_ends.after h
  · exact .ite (execUnackClear_ends.after h) (.ite (execStickyClear_ends.after h)
      (.ite (.ite (execCkPllWrite_ends.after h) (execCkFracWrite_ends.after h)) (.write h fun _ ht => ht.plain)))

theorem State.Canonical.writeImaging {a p off v} (h : s.Canonical) : (s.writeImaging a p off v).Canonical := by
  unfold State.writeImaging
  extract_lets k rest
  have hrest : rest.Canonical := .write h fun _ ht => ht.plain
  have htimeline : (if p = ptPage ∧ off = 0x040 ∧ s.on (H.OWNER p) = false ∧ a ≠ .host ∧ a ≠ .window then rest
      else if p = ptPage ∧ off = 0x040 ∧ s.on (H.OWNER p) = false then
        s.guarded a p off true false false (·.wr F.PT_CFG_FEED_EN v)
      else rest).Canonical :=
    .ite hrest (.ite (.guarded h fun _ ht => ht.wr) hrest)
  exact .ite (execFrefIncWrite_ends.after h) <|
    .ite (.ite (execIlDeadWrite_ends.after h) (.ite (execIlTestNow_ends.after h) hrest)) <|
    .ite (execRetrain_ends.after h) <| .ite (execGo_ends.after h) <|
    .ite (.write h fun _ ht => .ifDo ht.plain fun _ hu => execDramRetrain_ends.after hu) <|
    .ite (execSealGo_ends.after h) <| .ite (execPtSkip_ends.after h) htimeline

theorem State.Canonical.writeDma {a p off v} (h : s.Canonical) : (s.writeDma a p off v).Canonical := by
  unfold State.writeDma
  extract_lets ch
  split
  · exact execWindowRevoke_ends.after h
  · split
    · exact .ite (.write h fun _ ht => ht) (execDcHeadWrite_ends.after h)
    · exact .ite (.write h fun _ ht => ht) (execDcHeadWrite_ends.after h)
    · exact .write h fun _ ht => ht.cmdBits fun _ => execDoorbell_ends
    · exact .write h fun _ ht => ht.cmdBits ⟨fun _ => execPause_ends, fun _ => execResume_ends, fun _ =>
          execClear_ends⟩
    · exact .write h fun _ ht => ht.plain

theorem State.Canonical.writeMotion {a p off v} (h : s.Canonical) : (s.writeMotion a p off v).Canonical := by
  unfold State.writeMotion
  extract_lets cmds
  exact .ite (.write h fun _ ht => ht.cmdBits ⟨fun _ => execHome_ends, fun _ => execEstop_ends⟩) <|
    .ite (.write h fun _ ht => ht.cmdBits fun _ => execResync_ends) <|
    .ite (.write h fun _ ht => ht.cmdBits fun _ => execDeclare_ends) <|
    .ite (.write h fun _ ht => ht.cmdBits
      ⟨fun _ => execStart_ends, fun _ => execStop_ends, fun _ => execCoast_ends, fun _ => execKeProbe_ends
          (agent := some a)⟩) <|
    .ite (.write h fun _ ht => .ite ht.wr.wr ht.plain) <|
    .ite (.write h fun _ ht => ht.cmdBits ⟨fun _ => execTest_ends, fun _ => execResetTrip_ends⟩) <|
    .write h fun _ ht => ht.plain

theorem State.Canonical.writeLoops {a p off v} (h : s.Canonical) : (s.writeLoops a p off v).Canonical := by
  unfold State.writeLoops
  extract_lets rest
  have hrest : rest.Canonical := .write h (fun _ ht => ht.plain)
  split
  · split
    · exact execSlModeWrite_ends.after h
    · exact .write h (fun _ ht => .ite ht.mismatch ht.plain)
    · exact hrest
  · exact .ite (.write h (fun _ ht => ht)) (.ite (.write h (fun _ ht => .ite ht.accessBusy { ht with })) hrest)

theorem State.Canonical.writeHost {a p off v} (h : s.Canonical) : (s.writeHost a p off v).Canonical := by
  unfold State.writeHost
  extract_lets cmds rest
  have hrest : rest.Canonical := .write h fun _ ht => ht.plain
  split
  · exact .ite (execSqTailWrite_ends.after h) (.ite (execCqHeadWrite_ends.after h)
      (.ite (.guarded h fun _ ht => ht.plain) hrest))
  · split
    · exact .ite (.write h fun _ ht => .ifDo ht.plain fun _ hu => execPortStop_ends.after hu)
        (.ite (.write h fun _ ht => ht.cmdBits fun _ => execModuleClear_ends) hrest)
    · exact .ite (.write h fun _ ht => ht.cmdBits ⟨fun _ => execStage_ends, fun _ => execUpdate_ends,
          fun _ => execAccept_ends, fun _ => execAbort_ends, fun _ => execTryBoot_ends⟩)
        (.ite (.write h fun _ ht => ht.plain.cmdBits ⟨fun _ => execWrite_ends, fun _ => execSelect_ends,
          fun _ => execKeyWrite_ends, fun _ => execKeyLock_ends, fun _ => execKeyErase_ends⟩) hrest)

theorem State.Canonical.busWrite {a p off v} (h : s.Canonical) : (s.busWrite a p off v).Canonical :=
  .ite h.headerWrite (.ite h.writeDevice (.ite h.writeImaging
      (.ite h.writeDma (.ite h.writeMotion (.ite h.writeLoops
      (.ite h.writeHost (.write h (fun _ ht => ht.plain))))))))

theorem State.Canonical.accessError {a p off} (h : s.Canonical) : (s.accessError a p off).Canonical := by
  unfold State.accessError
  split
  · exact h.busError
  · exact h.sat.aer

theorem execRegisterWrite_ends {agent page off value size} : Ends s (execRegisterWrite agent page off value size s) :=
  by
  unfold execRegisterWrite
  extract_lets p o
  split
  · exact .next fun h => h.accessError
  · exact .next fun h => h.busWrite

theorem execCommit_ends {agent page} : Ends s (execCommit agent page s) := by
  unfold execCommit
  exact .next fun h => .write h (fun _ ht => ht.commit)

theorem execLock_ends {agent page} : Ends s (execLock agent page s) := by
  unfold execLock
  exact .next fun h => .write h (fun _ ht => ht.wr)

theorem execIsolate_ends {agent page} : Ends s (execIsolate agent page s) := by
  unfold execIsolate
  exact .next fun h => .write h (fun _ ht => ht.isolateWrite)

theorem execIsolateRestore_ends {agent page} : Ends s (execIsolateRestore agent page s) := by
  unfold execIsolateRestore
  exact .next fun h => .write h (fun _ ht => ht.isolateEnd)

theorem execOwnerChange_ends {agent page host} : Ends s (execOwnerChange agent page host s) := by
  unfold execOwnerChange
  exact .next fun h => .guarded h (fun _ ht => .ite ht.ownerWrite ht.countDenied)

theorem execPageAbort_ends {agent page} : Ends s (execPageAbort agent page s) := by
  unfold execPageAbort
  exact .next fun h => .write h (fun _ ht => ht.pageAbort)

theorem execPgEvtClear_ends {agent page mask} : Ends s (execPgEvtClear agent page mask s) := by
  unfold execPgEvtClear
  exact .next fun h => h.headerWrite

theorem execPgFltClear_ends {agent page mask} : Ends s (execPgFltClear agent page mask s) := by
  unfold execPgFltClear
  exact .next fun h => h.headerWrite

theorem execStatusFlagClear_ends {agent page mismatch accessBusy} : Ends s
    (execStatusFlagClear agent page mismatch accessBusy s) := by
  unfold execStatusFlagClear
  exact .next fun h => .write h (fun _ ht => ht.statClear)

/-! ### What Machine/RegRead.lean defines -/

theorem State.Canonical.regRead {p off} (h : s.Canonical) : (s.regRead p off).2.Canonical := by
  unfold State.regRead
  extract_lets key
  split
  · exact h.freeNext
  · split
    · exact h.freeNext
    · split
      · exact { h with hold := Sparse.sorted_set _ _ h.hold }
      · exact h

end Sys2Proof.Machine
end

