-- ==== Sys2Proof/Proofs/CanonicalSteps.lean ====
section
/-!
PROOFS. The ZE-40 personality and the step function keep the canonical form, and every step ends in a next state (O58, O59).
-/
namespace Sys2Proof.Machine

variable {s : State}

/-! ### What Machine/LegacyMap.lean defines -/

theorem State.Canonical.zImage {a v} (h : s.Canonical) : (s.zImage a v).Canonical := .each h (fun _ _ ht => ht.wr)

theorem State.Canonical.zFields {a v} (h : s.Canonical) : (s.zFields a v).Canonical :=
  .ifDo (.each h (fun _ _ ht => .ite ht.wr (.ite ht.wr.modLg ht.wr))) (fun _ ht => ht.sat)

theorem State.Canonical.zCommit {p} (h : s.Canonical) : (s.zCommit p).Canonical := .ite h (.ite h.ptCommit h.commit)

theorem State.Canonical.zLive {f v} (h : s.Canonical) : (s.zLive f v).Canonical := .ite h h.wr

theorem State.Canonical.zStage {f v} (h : s.Canonical) : (s.zStage f v).Canonical := .ite h h.stgWr

theorem State.Canonical.slotAuto {g on} (h : s.Canonical) : (s.slotAuto g on).Canonical :=
  .each h (fun _ _ ht => .ite ht.modeWrite ht.modeWrite.wr)

theorem State.Canonical.zMotor {n on} (h : s.Canonical) : (s.zMotor n on).Canonical :=
  .ite h (.ite h.cmStartCmd h.cmStopCmd)

theorem State.Canonical.zTarget {n mrpm} (h : s.Canonical) : (s.zTarget n mrpm).Canonical := h.zStage.zCommit

theorem State.Canonical.zPolygon {k} (h : s.Canonical) : (s.zPolygon k).Canonical := .ite (.ite h h.setFref) h.zTarget

theorem State.Canonical.zPolysStep (h : s.Canonical) : s.zPolysStep.Canonical := .each h (fun _ _ ht => ht.zRefStep)

theorem State.Canonical.zDrives (h : s.Canonical) : s.zDrives.Canonical := .each h (fun _ _ ht => ht.zMotor)

theorem State.Canonical.zOffsets {ks} (h : s.Canonical) : (s.zOffsets ks).Canonical :=
  .zCommit (.each h (fun _ _ ht => ht.zStage))

theorem State.Canonical.zPlan {k} (h : s.Canonical) : (s.zPlan k).Canonical :=
  .ite h (.ite h.stageTables (.ite h.stageTables.mismatch h.stageTables.commitBound))

theorem State.Canonical.zPtField {x0} (h : s.Canonical) : (s.zPtField x0).Canonical := .ite h.zStage h.zStage

theorem State.Canonical.zBtField {x0} (h : s.Canonical) : (s.zBtField x0).Canonical := .ite h.zStage.zCommit h.zLive

theorem State.Canonical.modSub {id f} (h : s.Canonical) : (s.modSub id f).Canonical := h.modLg

theorem State.Canonical.zBind (h : s.Canonical) : s.zBind.Canonical := by
  unfold State.zBind
  extract_lets pt bt s1
  have hs1 : s1.Canonical := by
    dsimp only [s1]
    cases pt with
    | none => exact h
    | some q => exact .ite h (.modSub (.zCommit (.each h fun _ _ ht => ht.zPtField)))
  clear_value bt
  cases bt with
  | none => exact hs1
  | some q => exact .ite hs1 (.modSub (.each hs1 fun _ _ ht => ht.zBtField))

theorem State.Canonical.zControl {a} (h : s.Canonical) : (s.zControl a).Canonical := by
  unfold State.zControl
  extract_lets k
  split
  · exact h.zDrives.slotAuto.zLive.zLine
  · split
    · exact h.zLine
    · split
      · exact h.zStage.zOffsets
      · split
        · exact h.zStage.zCommit
        · split
          · split
            · exact h.zPlan
            · exact h.zLive
            · exact h.zLive
            · exact h
          · exact h

theorem State.Canonical.zMachine {a} (h : s.Canonical) : (s.zMachine a).Canonical := by
  unfold State.zMachine
  split
  · exact h.zPolygon
  · split
    · exact .each h (fun _ _ ht => ht.zPolygon)
    · exact .ite h.zLive.zLive.zLive.zLive.zLive (.ite (.each h (fun _ _ ht => ht.zLive))
          (.ite h.slotAuto (.ite h.zDrives (.ite h.zTarget h))))

/-! ### What Machine/Legacy.lean defines -/

theorem State.Canonical.zShow {n} (h : s.Canonical) : (s.zShow n).Canonical := by
  induction n generalizing s with
  | zero => exact h
  | succ n ih =>
    unfold State.zShow
    split
    · exact .ite (ih h.wr.wr.wr.modLg) h.wr.wr.wr.modLg.zint
    · exact h

theorem State.Canonical.zPost {r} (h : s.Canonical) : (s.zPost r).Canonical := h.modLg.zShow

theorem State.Canonical.zQueue (h : s.Canonical) : s.zQueue.Canonical := .ifDo h.wr.flag.modLg (fun _ ht => ht.zint)

theorem State.Canonical.zLeave {z} (h : s.Canonical) : (s.zLeave z).Canonical := by
  unfold State.zLeave
  extract_lets s1
  have hs1 : s1.Canonical := h.modLg
  split
  · exact hs1.endJob
  · exact hs1

theorem State.Canonical.zCollect (h : s.Canonical) : s.zCollect.Canonical := by
  unfold State.zCollect
  extract_lets s1
  have hs1 : s1.Canonical := by
    dsimp only [s1]
    refine .each h (fun _ _ ht => ?_)
    split
    · exact ht.zLeave.zPost
    · exact ht
  exact .zQueue (.each hs1 (fun _ _ ht => ht.zLeave))

theorem State.Canonical.zDefine (h : s.Canonical) : s.zDefine.Canonical := by
  unfold State.zDefine
  extract_lets id w hd page
  exact h.modTl.modLg

theorem State.Canonical.zGrant (h : s.Canonical) : s.zGrant.Canonical := .ite h.modLg h

theorem State.Canonical.zStop (h : s.Canonical) : s.zStop.Canonical := h.wr.wr.modLg

theorem State.Canonical.zEnable {before} (h : s.Canonical) : (s.zEnable before).Canonical := by
  unfold State.zEnable
  split
  · exact .zGrant (.ifDo h.wr (fun _ ht => ht.dcTo))
  · split
    · exact h
    · extract_lets k s1 s2
      have hs1 : s1.Canonical := by
        dsimp only [s1]
        split
        · exact .ite h.zDefine h
        · exact h.zDefine
      have hs2 : s2.Canonical := hs1.wr.wr.wr
      exact hs2.wr.modLg.zGrant

theorem State.Canonical.zRasCtrl {before} (h : s.Canonical) : (s.zRasCtrl before).Canonical := .ite h.zEnable h.modLg

theorem State.Canonical.zStore {k d} (h : s.Canonical) : (s.zStore k d).Canonical := by
  unfold State.zStore
  extract_lets stream n
  split
  · exact .ite h.modPage.storeStream.inc.storeRegs.modLg h
  · exact h

theorem State.Canonical.zComplete {k d} (h : s.Canonical) : (s.zComplete k d).Canonical :=
  h.zStore.wr.wr.zStop.modLg.zint

theorem State.Canonical.zDecode {w d} (h : s.Canonical) : (s.zDecode w d).Canonical :=
  .ifDo h.modLg.wr (fun _ ht => ht.zComplete)

theorem State.Canonical.zFormat (h : s.Canonical) : s.zFormat.Canonical := h.wr.sat.zerr.raise

theorem State.Canonical.zWordIn (h : s.Canonical) : s.zWordIn.Canonical := by
  unfold State.zWordIn
  split
  · exact h
  · extract_lets t
    have ht : t.Canonical := h.modLg
    split
    · split
      · exact ht.zDecode.zGrant
      · exact h
    · exact .ite ht.zFormat.zGrant h

theorem State.Canonical.zPush {w} (h : s.Canonical) : (s.zPush w).Canonical := h.modLg

theorem State.Canonical.zTake (h : s.Canonical) : s.zTake.2.2.2.Canonical := by
  unfold State.zTake
  extract_lets val mine s1
  have hs1 : s1.Canonical := .each h fun _ _ ht => .each ht fun _ _ hu => hu.wr
  exact { hs1 with }

theorem State.Canonical.zSubmit {mask tag} (h : s.Canonical) : (s.zSubmit mask tag).Canonical := by
  unfold State.zSubmit
  split
  · exact h.zerr.zPost
  · split
    · exact h.zerr.zPost
    · split
      · exact h.zerr.zPost
      · split
        rename_i s1 e
        have hs1 : s1.Canonical := by simpa only [e] using h.zTake
        exact hs1.modLg.modTl.modPage.pageTo.jobRegs.queueRegs.runReady.zBind.zQueue

theorem State.Canonical.zAbort (h : s.Canonical) : s.zAbort.Canonical :=
  .zQueue (.each h (fun _ _ ht => .ite ht (.ite ht.jobAbort ht.jobAbort.zLeave.zPost)))

theorem State.Canonical.zWindow {on} (h : s.Canonical) : (s.zWindow on).Canonical := .ite h h.modLg.flag.flag.event

theorem State.Canonical.zKey {v} (h : s.Canonical) : (s.zKey v).Canonical :=
  .ite h.modLg.zWindow (.ite h.modLg.zWindow h.modLg)

theorem State.Canonical.zClear (h : s.Canonical) : s.zClear.Canonical :=
  { h with regs := Sparse.sorted_filter _ h.regs }

theorem State.Canonical.zSoft (h : s.Canonical) : s.zSoft.Canonical :=
  .event (.zLine (.each (.modLg (.storeRegs (.zClear (.each h.zAbort.zWindow (fun _ _ ht => ht.retire.modTl)))))
      (fun _ _ ht => ht.zImage)))

theorem State.Canonical.zPolys {on} (h : s.Canonical) : (s.zPolys on).Canonical :=
  .each h (fun _ _ ht => .ite ht.zRefStep.modPoly ht.zMotor)

theorem State.Canonical.zLocked {k} (h : s.Canonical) : (s.zLocked k).Canonical := .ite h.btToSpeed h

theorem State.Canonical.zIntClear {mask} (h : s.Canonical) : (s.zIntClear mask).Canonical := by
  unfold State.zIntClear
  extract_lets gone s1
  have hs1 : s1.Canonical := h.wr.zLine
  split
  · exact .ite hs1.modLg.zShow hs1
  · exact hs1

theorem State.Canonical.zApply {a v} (h : s.Canonical) : (s.zApply a v).Canonical := by
  unfold State.zApply
  split
  · exact h.zIntClear
  · split
    · exact h.zSoft
    · split
      · exact .ifDo (.ifDo h (fun _ ht => ht.zSubmit)) (fun _ ht => ht.zAbort)
      · split
        · exact .ifDo (.ifDo h (fun _ ht => ht.zPolys)) (fun _ ht => ht.zPolys)
        · extract_lets before alone s1
          have hs1 : s1.Canonical := .zFields (.ifDo h (fun _ ht => ht.zPolysStep))
          exact .ite hs1 (.ite hs1.zRasCtrl (.ite hs1.zControl hs1.zMachine))

theorem State.Canonical.zNextWrite (h : s.Canonical) : s.zNextWrite.Canonical := by
  unfold State.zNextWrite
  split
  · exact h.modLg.zApply
  · exact h

theorem State.Canonical.zDrain (h : s.Canonical) : s.zDrain.Canonical :=
  .ite (.each h (fun _ _ ht => ht.zNextWrite)) h

theorem State.Canonical.zProto (h : s.Canonical) : s.zProto.Canonical := h.sat.zerr.raise

theorem State.Canonical.zWake (h : s.Canonical) : s.zWake.Canonical := .ifDo h (fun _ ht => { ht with })

theorem State.Canonical.zWinRead {a} (h : s.Canonical) : (s.zWinRead a).Canonical := by
  unfold State.zWinRead
  split
  split
  · split
    rename_i t e
    have ht := h.regRead.of_eq e
    exact ht.modLg.emit
  · split
    · exact h.modLg.emit
    · split
      rename_i t e
      have ht := h.regRead.of_eq e
      exact ht.modLg.emit

theorem State.Canonical.zWinWrite {a v} (h : s.Canonical) : (s.zWinWrite a v).Canonical := by
  unfold State.zWinWrite
  split
  exact .ite h.modLg.zWake.modLg (.ite h.modLg.zWake.modLg.busWrite h.modLg.zWake.modLg.zProto)

theorem State.Canonical.zRegRead {a} (h : s.Canonical) : (s.zRegRead a).Canonical :=
  .ite h.emit.wr.wr (.ite h.emit.wr (.ite h.emit.wr h.emit))

theorem State.Canonical.zRead {a} (h : s.Canonical) : (s.zRead a).Canonical :=
  .ite h (.ite h.zRegRead (.ite h.zWinRead h.emit))

theorem State.Canonical.zData {v} (h : s.Canonical) : (s.zData v).Canonical :=
  .ite (.ite h.zWordIn h) (.zPush (.ite h.zWordIn h))

theorem State.Canonical.zPostWrite {a v} (h : s.Canonical) : (s.zPostWrite a v).Canonical :=
  .ite (.ite h.zNextWrite h) (.modLg (.zImage (.ite h.zNextWrite h)))

theorem State.Canonical.zWrite {a v} (h : s.Canonical) : (s.zWrite a v).Canonical := by
  unfold State.zWrite
  split
  · exact h
  · split
    · exact .ite h.zWake.zKey (.ite h.zWake.modLg.zData (.ite (.ifDo h.zWake.modLg (fun _ ht => ht.wr.wr))
          h.zWake.modLg.zPostWrite))
    · exact .ite h.zWinWrite h

theorem State.Canonical.zStations (h : s.Canonical) : s.zStations.Canonical :=
  .flag (.wr (.wr (.wr (.each h (fun _ _ ht => ht.flag.flag.flag.flag)))))

theorem State.Canonical.zSensors (h : s.Canonical) : s.zSensors.Canonical := by
  unfold State.zSensors
  extract_lets lvl i t10 now edge s1 s2 s3 s4 s5 ms
  have hs2 : s2.Canonical := h.wr.wr.modLg.wr.wr
  have hs3 : s3.Canonical := .ifDo hs2.wr.wr fun _ ht => ht.zint
  have hs4 : s4.Canonical := .each hs3 fun _ _ ht => ht.wr.wr
  have hs5 : s5.Canonical := by
    dsimp only [s5]
    split
    · exact hs4.flag.wr
    · exact hs4
  exact hs5.wr.wr.modLg

theorem State.Canonical.zJam (h : s.Canonical) : s.zJam.Canonical := .ifDo h.flag.modLg (fun _ ht => ht.zint)

theorem State.Canonical.zRefresh (h : s.Canonical) : s.zRefresh.Canonical :=
  .zLine (.wr (.zJam (.zSensors (.zStations (.zBind (.zCollect (.each h (fun _ _ ht => ht.zLocked))))))))

theorem State.Canonical.zDack {w} (h : s.Canonical) : (s.zDack w).Canonical := by
  unfold State.zDack
  split
  · exact .ite h.modChan.emit h.modChan
  · exact .ite h (.ite h.zPush.modLg h.zPush.modLg.zGrant)

theorem State.Canonical.zTimedOut (h : s.Canonical) : s.zTimedOut.Canonical := h.zStop.wr.sat.zerr.zint.raise

theorem State.Canonical.partnerEnd {n} (h : s.Canonical) : (s.partnerEnd n).Canonical := by
  unfold State.partnerEnd
  extract_lets c base got data s1
  have hs1 : s1.Canonical := .ite h h.burst.burstOut
  exact hs1.wr.dcError

theorem execLegacyRead_ends {addr} : Ends s (execLegacyRead addr s) := by
  unfold execLegacyRead
  exact .next fun h => h.zRead

theorem execLegacyWrite_ends {addr value} : Ends s (execLegacyWrite addr value s) := by
  unfold execLegacyWrite
  exact .next fun h => h.zWrite

theorem execLegacyWriteApply_ends : Ends s (execLegacyWriteApply s) := by
  unfold execLegacyWriteApply
  exact .next fun h => .ite h.zNextWrite h

theorem execLegacyProtocolError_ends : Ends s (execLegacyProtocolError s) := by
  unfold execLegacyProtocolError
  exact .next fun h => .ite h.zProto h

theorem execImageRefresh_ends : Ends s (execImageRefresh s) := by
  unfold execImageRefresh
  exact .next fun h => .ite h.zRefresh h

theorem execZerrRead_ends : Ends s (execZerrRead s) := by
  unfold execZerrRead
  exact .next fun h => h.zRead

theorem execCountLoRead_ends {dma} : Ends s (execCountLoRead dma s) := by
  unfold execCountLoRead
  exact .next fun h => h.zRead

theorem State.Canonical.zDirect {a v} (h : s.Canonical) : (s.zDirect a v).Canonical := .ite h.zWrite.zDrain h

theorem execZintClear_ends {mask} : Ends s (execZintClear mask s) := by
  unfold execZintClear
  exact .next fun h => h.zDirect

theorem execSoftRst_ends : Ends s (execSoftRst s) := by
  unfold execSoftRst
  exact .next fun h => h.zDirect

theorem execSubmit_ends {mask tag} : Ends s (execSubmit mask tag s) := by
  unfold execSubmit
  exact .next fun h => h.zDirect

theorem execZpageAbort_ends : Ends s (execZpageAbort s) := by
  unfold execZpageAbort
  exact .next fun h => h.zDirect

theorem execRasterEnable_ends {sep dma burst} : Ends s (execRasterEnable sep dma burst s) := by
  unfold execRasterEnable
  exact .next fun h => h.zDirect

theorem execRasterWord_ends : Ends s (execRasterWord s) := by
  unfold execRasterWord
  exact .next fun h => .ite h.zDrain.zWordIn h

theorem execDackTransfer_ends {word} : Ends s (execDackTransfer word s) := by
  unfold execDackTransfer
  exact .next fun h => .ite h.zDack h

theorem execZpolyStart_ends : Ends s (execZpolyStart s) := by
  unfold execZpolyStart
  exact .next fun h => h.zDirect

theorem execZpolyStop_ends : Ends s (execZpolyStop s) := by
  unfold execZpolyStop
  exact .next fun h => h.zDirect

theorem execPolyLockInput_ends {k active} : Ends s (execPolyLockInput k active s) := by
  unfold execPolyLockInput
  split
  · exact .next fun h => h
  · extract_lets k6 p s1
    have hs1 : s.Canonical → s1.Canonical := fun h => h.modPoly
    split
    · exact .next fun h => (hs1 h).zLocked
    · split
      · exact .next fun h => .ite (hs1 h).btStop.zerr.raise (hs1 h).btStop
      · exact .next fun h => (hs1 h)

theorem execZmigKey_ends {value} : Ends s (execZmigKey value s) := by
  unfold execZmigKey
  exact .next fun h => h.zWrite

theorem execWindowRead_ends {addr} : Ends s (execWindowRead addr s) := by
  unfold execWindowRead
  exact .next fun h => h.zRead

theorem execWindowWrite_ends {addr value} : Ends s (execWindowWrite addr value s) := by
  unfold execWindowWrite
  exact .next fun h => h.zWrite

theorem execPartnerTimeout_ends {ch} : Ends s (execPartnerTimeout ch s) := by
  unfold execPartnerTimeout
  split
  · exact .next fun h => h
  · split
    · exact .next fun h => .ite h.dcEnd.dcHalt.hwReact.zTimedOut h
    · extract_lets c
      refine .next fun h => ?_
      split
      · exact .ite h.partnerEnd.hwReact.zTimedOut h
      · exact h

/-! ### What Machine/Dispatch.lean defines -/

theorem exec_ends : (i : Instr) → Ends s (exec i s)
  | .rstNRelease _ _ _ => execRstNRelease_ends
  | .rstNAssert => execRstNAssert_ends
  | .internalPowerOnReset _ _ _ => execInternalPowerOnReset_ends
  | .warmStart => execWarmStart_ends
  | .bootDone => execBootDone_ends
  | .fillDone => execFillDone_ends
  | .dramFillDone _ _ _ => execDramFillDone_ends
  | .registerWrite _ _ _ _ _ => execRegisterWrite_ends
  | .commit _ _ => execCommit_ends
  | .lock _ _ => execLock_ends
  | .isolate _ _ => execIsolate_ends
  | .isolateRestore _ _ => execIsolateRestore_ends
  | .ownerChange _ _ _ => execOwnerChange_ends
  | .pageAbort _ _ => execPageAbort_ends
  | .pgEvtClear _ _ _ => execPgEvtClear_ends
  | .pgFltClear _ _ _ => execPgFltClear_ends
  | .statusFlagClear _ _ _ _ => execStatusFlagClear_ends
  | .runStart => execRunStart_ends
  | .announceInstant => execAnnounceInstant_ends
  | .feedGate => execFeedGate_ends
  | .ptSkip _ _ => execPtSkip_ends
  | .anchorWindowEnd _ => execAnchorWindowEnd_ends
  | .commitGate _ => execCommitGate_ends
  | .divertDeadline _ => execDivertDeadline_ends
  | .exitWindowEnd _ => execExitWindowEnd_ends
  | .headUnderrun _ => execHeadUnderrun_ends
  | .bdEdge _ _ _ => execBdEdge_ends
  | .bdWindowEnd _ => execBdWindowEnd_ends
  | .bdMissing _ => execBdMissing_ends
  | .indexEdge _ => execIndexEdge_ends
  | .idxMissing _ => execIdxMissing_ends
  | .frefIncWrite _ _ _ => execFrefIncWrite_ends
  | .resistanceTestStart _ => execResistanceTestStart_ends
  | .testEmitter _ => execTestEmitter_ends
  | .testResult _ _ _ _ _ => execTestResult_ends
  | .testTimeout _ => execTestTimeout_ends
  | .testWindowEnd _ => execTestWindowEnd_ends
  | .ilTestNow _ _ _ => execIlTestNow_ends
  | .ilDeadWrite _ _ _ _ => execIlDeadWrite_ends
  | .replan _ _ _ _ _ _ => execReplan_ends
  | .htempSample _ _ => execHtempSample_ends
  | .headCut _ => execHeadCut_ends
  | .markEdge _ _ => execMarkEdge_ends
  | .markWindowOpen => execMarkWindowOpen_ends
  | .markWindowClose => execMarkWindowClose_ends
  | .registrationCorrection => execRegistrationCorrection_ends
  | .linkTraining _ => execLinkTraining_ends
  | .retrain _ _ _ => execRetrain_ends
  | .statusLaneTimeout _ => execStatusLaneTimeout_ends
  | .trainingTimeout _ => execTrainingTimeout_ends
  | .quenchRepeat _ => execQuenchRepeat_ends
  | .alignSend _ => execAlignSend_ends
  | .cmdAckTimeout _ => execCmdAckTimeout_ends
  | .status _ _ _ _ _ => execStatus_ends
  | .ack _ _ => execAck_ends
  | .scanErr _ _ _ => execScanErr_ends
  | .statusTimeout _ => execStatusTimeout_ends
  | .replySlot _ => execReplySlot_ends
  | .headMemoryRead _ _ => execHeadMemoryRead_ends
  | .separationWritten _ _ _ => execSeparationWritten_ends
  | .firstHeaderFetch _ _ _ => execFirstHeaderFetch_ends
  | .decodeBlockStart _ => execDecodeBlockStart_ends
  | .decodeBlockDone _ => execDecodeBlockDone_ends
  | .zeroFillLine _ => execZeroFillLine_ends
  | .go _ _ _ => execGo_ends
  | .encodeJobDone _ _ => execEncodeJobDone_ends
  | .encodeJobFail _ _ => execEncodeJobFail_ends
  | .encodeAbort _ _ _ => execEncodeAbort_ends
  | .bankRead _ _ _ _ => execBankRead_ends
  | .bankWrite _ _ _ _ _ => execBankWrite_ends
  | .dramRead _ _ _ _ _ _ _ _ => execDramRead_ends
  | .dramWrite _ _ _ _ _ _ _ => execDramWrite_ends
  | .dramRetrain _ _ => execDramRetrain_ends
  | .rebuildDone _ => execRebuildDone_ends
  | .sealGo _ _ _ => execSealGo_ends
  | .sealDone => execSealDone_ends
  | .scrubRead _ _ _ _ _ => execScrubRead_ends
  | .scrubLate _ => execScrubLate_ends
  | .doorbell _ _ => execDoorbell_ends
  | .descriptorFetch _ _ _ => execDescriptorFetch_ends
  | .dmaBurstGrant _ => execDmaBurstGrant_ends
  | .dmaBurstDone _ _ _ _ => execDmaBurstDone_ends
  | .pause _ _ => execPause_ends
  | .resume _ _ => execResume_ends
  | .clear _ _ => execClear_ends
  | .dmaAbort _ _ => execDmaAbort_ends
  | .pauseDrained _ => execPauseDrained_ends
  | .dcHeadWrite _ _ _ _ => execDcHeadWrite_ends
  | .windowRevoke _ _ _ _ => execWindowRevoke_ends
  | .partnerTimeout _ => execPartnerTimeout_ends
  | .functionReset _ => execFunctionReset_ends
  | .bar2Write _ _ _ => execBar2Write_ends
  | .bar2Read _ _ => execBar2Read_ends
  | .msixSend _ => execMsixSend_ends
  | .irqHoldoffExpiry => execIrqHoldoffExpiry_ends
  | .ringsEnable _ _ => execRingsEnable_ends
  | .sqTailWrite _ _ => execSqTailWrite_ends
  | .cqHeadWrite _ _ => execCqHeadWrite_ends
  | .badCrc => execBadCrc_ends
  | .badType _ type => execBadType_ends (_type := type)
  | .sessionOpen _ _ _ => execSessionOpen_ends
  | .sessionResume _ _ _ _ => execSessionResume_ends
  | .sessionClose _ => execSessionClose_ends
  | .keepalive _ => execKeepalive_ends
  | .windowSet _ _ _ _ _ _ _ => execWindowSet_ends
  | .jobOpen _ _ _ _ => execJobOpen_ends
  | .jobClose _ => execJobClose_ends
  | .jobAbort _ => execJobAbort_ends
  | .jobDone _ => execJobDone_ends
  | .pageDefine _ _ _ _ _ _ => execPageDefine_ends
  | .sepSubmit _ _ _ _ _ _ _ _ _ _ _ _ _ => execSepSubmit_ends
  | .sepWritten _ _ _ _ _ _ _ _ => execSepWritten_ends
  | .pageRelease _ _ => execPageRelease_ends
  | .pageRetire _ _ => execPageRetire_ends
  | .pageQuery _ _ => execPageQuery_ends
  | .partDone _ _ _ _ _ _ => execPartDone_ends
  | .hostSilent => execHostSilent_ends
  | .edkarCycle _ => execEdkarCycle_ends
  | .moduleWindowClose _ _ => execModuleWindowClose_ends
  | .moduleStatus _ _ _ _ _ _ => execModuleStatus_ends
  | .identity _ _ _ _ _ _ version cls _ => execIdentity_ends (_version := version) (_cls := cls)
  | .authResponse _ _ _ _ => execAuthResponse_ends
  | .sheetReply _ _ _ _ _ _ => execSheetReply_ends
  | .moduleAck _ _ _ _ => execModuleAck_ends
  | .moduleEvent _ _ _ _ _ _ _ => execModuleEvent_ends
  | .malformedFrame _ _ => execMalformedFrame_ends
  | .budgetViolation _ _ => execBudgetViolation_ends
  | .outOfWindowActivity _ => execOutOfWindowActivity_ends
  | .throttleExpiry _ _ => execThrottleExpiry_ends
  | .announceDeadline _ => execAnnounceDeadline_ends
  | .feedDeadline _ => execFeedDeadline_ends
  | .authPeriodExpiry _ _ => execAuthPeriodExpiry_ends
  | .portStop _ _ => execPortStop_ends
  | .portStart _ _ => execPortStart_ends
  | .moduleClear _ _ _ => execModuleClear_ends
  | .sheetSensorEdge _ _ _ => execSheetSensorEdge_ends
  | .lockoutEnd _ => execLockoutEnd_ends
  | .trackWindowEnd _ _ _ => execTrackWindowEnd_ends
  | .declare _ _ => execDeclare_ends
  | .pathClear => execPathClear_ends
  | .stepperSample _ => execStepperSample_ends
  | .estop _ _ => execEstop_ends
  | .home _ _ => execHome_ends
  | .coarseStep _ _ => execCoarseStep_ends
  | .encoderCount _ _ _ => execEncoderCount_ends
  | .encoderIndex _ => execEncoderIndex_ends
  | .encoderSpeed _ => execEncoderSpeed_ends
  | .resync _ _ => execResync_ends
  | .commutationEdge _ _ => execCommutationEdge_ends
  | .sectorTimeout _ => execSectorTimeout_ends
  | .motorSample _ => execMotorSample_ends
  | .stall _ => execStall_ends
  | .start _ _ => execStart_ends
  | .stop _ _ => execStop_ends
  | .coast _ _ => execCoast_ends
  | .keProbe _ _ => execKeProbe_ends
  | .startAdmit _ => execStartAdmit_ends
  | .listenDone _ => execListenDone_ends
  | .alignDone _ => execAlignDone_ends
  | .busSample _ => execBusSample_ends
  | .test _ _ => execTest_ends
  | .resetTrip _ _ => execResetTrip_ends
  | .slotSample _ _ _ => execSlotSample_ends
  | .fixedLatencyApply _ _ => execFixedLatencyApply_ends
  | .slModeWrite _ _ _ _ => execSlModeWrite_ends
  | .slotMove _ _ _ _ _ => execSlotMove_ends
  | .adcFrame _ => execAdcFrame_ends
  | .adcResult _ _ _ => execAdcResult_ends
  | .pwmPeriodStart _ => execPwmPeriodStart_ends
  | .sequenceEntryStart _ => execSequenceEntryStart_ends
  | .itemAdmit _ => execItemAdmit_ends
  | .railPgEdge _ _ => execRailPgEdge_ends
  | .railQualified _ => execRailQualified_ends
  | .railLost _ => execRailLost_ends
  | .railTimeout _ => execRailTimeout_ends
  | .railFallTimeout _ => execRailFallTimeout_ends
  | .railOff _ => execRailOff_ends
  | .domainRampDone _ => execDomainRampDone_ends
  | .down _ => execDown_ends
  | .retry _ => execRetry_ends
  | .avsRetry _ => execAvsRetry_ends
  | .cascadeWaitTimeout => execCascadeWaitTimeout_ends
  | .seqUiFall => execSeqUiFall_ends
  | .seqUiRise => execSeqUiRise_ends
  | .pfw => execPfw_ends
  | .pfwHoldEnd => execPfwHoldEnd_ends
  | .pfwRecover => execPfwRecover_ends
  | .pfwAutoUp => execPfwAutoUp_ends
  | .sequenceDone => execSequenceDone_ends
  | .slackEnter => execSlackEnter_ends
  | .slackExit => execSlackExit_ends
  | .avsEvaluate _ _ => execAvsEvaluate_ends
  | .avsReadbackCheck _ => execAvsReadbackCheck_ends
  | .refLoss => execRefLoss_ends
  | .refLossLong => execRefLossLong_ends
  | .refReturn => execRefReturn_ends
  | .adpllLock _ => execAdpllLock_ends
  | .adpllUnlock _ => execAdpllUnlock_ends
  | .adpllAcquireTimeout _ => execAdpllAcquireTimeout_ends
  | .ckPllWrite _ _ _ => execCkPllWrite_ends
  | .ckFracWrite _ _ _ => execCkFracWrite_ends
  | .pxTakeover => execPxTakeover_ends
  | .dllLock _ => execDllLock_ends
  | .dllUnlock _ => execDllUnlock_ends
  | .relock _ => execRelock_ends
  | .baseSynthLock => execBaseSynthLock_ends
  | .faultDispatch => execFaultDispatch_ends
  | .mergeWindowExpiry _ => execMergeWindowExpiry_ends
  | .firstClr _ => execFirstClr_ends
  | .unackClear _ _ _ => execUnackClear_ends
  | .stickyClear _ _ _ => execStickyClear_ends
  | .assayGo _ _ => execAssayGo_ends
  | .assayStart _ => execAssayStart_ends
  | .assayDone _ _ _ => execAssayDone_ends
  | .lockstep _ _ => execLockstep_ends
  | .roleMove => execRoleMove_ends
  | .beat _ => execBeat_ends
  | .hbMiss => execHbMiss_ends
  | .supPromoted _ _ => execSupPromoted_ends
  | .hmWaitTimeout => execHmWaitTimeout_ends
  | .hmSilent => execHmSilent_ends
  | .harbourmasterResync _ => execHarbourmasterResync_ends
  | .hmVote _ _ _ => execHmVote_ends
  | .tempWarn _ => execTempWarn_ends
  | .tempCrit _ => execTempCrit_ends
  | .stage _ => execStage_ends
  | .stageDone _ => execStageDone_ends
  | .tryBoot _ => execTryBoot_ends
  | .update _ => execUpdate_ends
  | .updateRoleMoved _ => execUpdateRoleMoved_ends
  | .accept _ => execAccept_ends
  | .abort _ => execAbort_ends
  | .write _ => execWrite_ends
  | .select _ => execSelect_ends
  | .keyWrite _ => execKeyWrite_ends
  | .keyLock _ => execKeyLock_ends
  | .keyErase _ => execKeyErase_ends
  | .legacyRead _ => execLegacyRead_ends
  | .legacyWrite _ _ => execLegacyWrite_ends
  | .legacyWriteApply => execLegacyWriteApply_ends
  | .legacyProtocolError => execLegacyProtocolError_ends
  | .imageRefresh => execImageRefresh_ends
  | .zerrRead => execZerrRead_ends
  | .countLoRead _ => execCountLoRead_ends
  | .zintClear _ => execZintClear_ends
  | .softRst => execSoftRst_ends
  | .submit _ _ => execSubmit_ends
  | .zpageAbort => execZpageAbort_ends
  | .rasterEnable _ _ _ => execRasterEnable_ends
  | .rasterWord => execRasterWord_ends
  | .dackTransfer _ => execDackTransfer_ends
  | .zpolyStart => execZpolyStart_ends
  | .zpolyStop => execZpolyStop_ends
  | .polyLockInput _ _ => execPolyLockInput_ends
  | .zmigKey _ => execZmigKey_ends
  | .windowRead _ => execWindowRead_ends
  | .windowWrite _ _ => execWindowWrite_ends
  | .tbAlarmWrite _ _ => execTbAlarmWrite_ends
  | .arm _ _ => execArm_ends
  | .alarm => execAlarm_ends
  | .cascadeWaitDone _ => execCascadeWaitDone_ends
  | .domainSwitchTimeout _ => execDomainSwitchTimeout_ends
  | .blockLockLost _ => execBlockLockLost_ends
  | .pcieLinkUp _ _ => execPcieLinkUp_ends
  | .configurationWrite _ _ _ => execConfigurationWrite_ends
  | .tempWarnEnd _ => execTempWarnEnd_ends

/-! ### What Machine/Step.lean defines -/

theorem State.Canonical.tick (h : s.Canonical) : s.tick.Canonical := .ite h { h with }

theorem State.Canonical.queueTail (h : s.Canonical) : s.queueTail.Canonical := { h with }

theorem Ends.trans {t : State} {r} (hr : Ends t r) (ht : s.Canonical → t.Canonical) : Ends s r := by
  obtain ⟨u, hu, hcanon⟩ := hr
  exact ⟨u, hu, fun h => hcanon (ht h)⟩

theorem step_ends : Ends s (step s) := by
  unfold step
  cases s.pending with
  | nil => exact .next fun h => h.tick
  | cons c r => exact (exec_ends c).trans fun h => h.queueTail

theorem State.canonical_iff : s.Canonical ↔ s.canon = true := by
  simp only [State.canon, Bool.and_eq_true]
  exact ⟨fun ⟨h1, h2, h3, h4⟩ => ⟨⟨⟨h1, h2⟩, h3⟩, h4⟩, fun ⟨⟨⟨h1, h2⟩, h3⟩, h4⟩ => ⟨h1, h2, h3, h4⟩⟩

/-- Settles O58: whatever command a step runs keeps the canonical form. -/
theorem stepKeepsCanonical : Obligations.StepKeepsCanonical := by
  intro s t hs hstep
  obtain ⟨u, hu, hcanon⟩ := step_ends (s := s)
  obtain rfl : u = t := Host.Outcome.next.inj (hu.symm.trans hstep)
  exact State.canonical_iff.mp (hcanon (State.canonical_iff.mpr hs))

/-- Settles O59: every command of the model ends in a next state. -/
theorem stepCompletes : Obligations.StepCompletes := by
  intro s
  obtain ⟨t, ht, _⟩ := step_ends (s := s)
  exact ⟨t, ht⟩

end Sys2Proof.Machine
end

