-- ==== Sys2Proof/Proofs/WordCodes.lean ====
section
/-!
PROOFS. The codes of chapter 08: the word code is linear (R200–R202), and both decoders find a single error (R193, R201).
-/
namespace Sys2Proof.Machine

theorem mul_two_pow_xor {n x y : Nat} (hy : y < 2 ^ n) : x * 2 ^ n ^^^ y = x * 2 ^ n + y := by
  apply Nat.eq_of_testBit_eq
  intro j
  rw [Nat.mul_comm, Nat.testBit_xor, Nat.testBit_two_pow_mul_add x hy, Nat.testBit_two_pow_mul]
  split
  · rename_i hj
    simp [Nat.not_le.mpr hj]
  · rename_i hj
    have hlow : y.testBit j = false :=
      Nat.testBit_lt_two_pow (Nat.lt_of_lt_of_le hy (Nat.pow_le_pow_right (by decide) (Nat.not_lt.mp hj)))
    simp [hlow, Nat.not_lt.mp hj]

theorem xor_swap (a b c : Nat) : a ^^^ (b ^^^ c) = b ^^^ (a ^^^ c) := by
  rw [← Nat.xor_assoc, Nat.xor_comm a b, Nat.xor_assoc]

theorem polyMod_xor (n v w : Nat) : polyMod n (v ^^^ w) = polyMod n v ^^^ polyMod n w := by
  induction n generalizing v w with
  | zero => rfl
  | succ n ih =>
    simp only [polyMod, Nat.testBit_xor]
    cases v.testBit (n + 15) <;> cases w.testBit (n + 15) <;> simp [← ih, Nat.xor_comm, xor_swap]

theorem wordBody_high (addr : Nat) : wordBody 0 false addr = addr / 8 % 2 ^ 45 * 2 ^ 80 := by
  have hpsn : b2n false = 0 := rfl
  simp only [wordBody, hpsn, Nat.zero_mod, Nat.zero_mul, Nat.zero_add]

theorem add_of_zero (x : Nat) {y : Nat} (h : y = 0) : x + y = x := by rw [h, Nat.add_zero]

theorem wordBody_low (data : Nat) (psn : Bool) : wordBody data psn 0 = data % 2 ^ 64 * 2 ^ 15 + b2n psn * 2 ^ 79 := by
  have haddr : 0 / 8 % 2 ^ 45 * 2 ^ 80 = 0 := by decide
  rw [wordBody]
  exact add_of_zero _ haddr

theorem wordBody_low_lt (data : Nat) (psn : Bool) : wordBody data psn 0 < 2 ^ 80 := by
  have hdata : data % 2 ^ 64 < 2 ^ 64 := Nat.mod_lt _ (by decide)
  have hpsn : b2n psn ≤ 1 := by cases psn <;> decide
  rw [wordBody_low]
  generalize data % 2 ^ 64 = x at hdata ⊢
  omega

/-- The bits of data and PSN of a word, and those of its address. -/
theorem wordBody_split (data : Nat) (psn : Bool) (addr : Nat) :
    wordBody data psn addr = wordBody 0 false addr ^^^ wordBody data psn 0 := by
  rw [wordBody_high, mul_two_pow_xor (wordBody_low_lt data psn), wordBody_low, Nat.add_comm]
  exact rfl

theorem wordChk_split (data : Nat) (psn : Bool) (addr : Nat) :
    wordChk data psn addr = addrChk addr ^^^ wordChk data psn 0 := by
  unfold addrChk wordChk
  rw [wordBody_split, polyMod_xor]

theorem reAddress_wordChk (data : Nat) (psn : Bool) (src dst : Nat) :
    reAddress (wordChk data psn src) src dst = wordChk data psn dst := by
  rw [wordChk_split data psn src, wordChk_split data psn dst, reAddress]
  rw [Nat.xor_comm (addrChk src), Nat.xor_assoc (wordChk data psn 0), Nat.xor_self, Nat.xor_zero, Nat.xor_comm]

theorem bits_one (v i : Nat) : bits v i 1 = (v.testBit i).toNat := by
  rw [Nat.toNat_testBit]; rfl

theorem parityOf_xor (v w : Nat) (l : List Nat) : parityOf (v ^^^ w) l = (parityOf v l + parityOf w l) % 2 := by
  have hfold (l : List Nat) (a b : Nat) :
      l.foldl (fun c i => (c + bits (v ^^^ w) i 1) % 2) ((a + b) % 2) =
        (l.foldl (fun c i => (c + bits v i 1) % 2) a + l.foldl (fun c i => (c + bits w i 1) % 2) b) % 2 := by
    induction l generalizing a b with
    | nil => rfl
    | cons i l ih =>
      have hbit : bits (v ^^^ w) i 1 = (bits v i 1 + bits w i 1) % 2 := by
        simp only [bits_one, Nat.testBit_xor]
        cases v.testBit i <;> cases w.testBit i <;> rfl
      rw [List.foldl_cons, List.foldl_cons, List.foldl_cons, ← ih, hbit]
      congr 1
      omega
  exact hfold l 0 0

theorem parityOf_lt (v : Nat) (l : List Nat) : parityOf v l < 2 := by
  have hfold (a : Nat) (ha : a < 2) : l.foldl (fun c i => (c + bits v i 1) % 2) a < 2 := by
    induction l generalizing a with
    | nil => exact ha
    | cons i l ih => exact ih _ (Nat.mod_lt _ (by decide))
  exact hfold 0 (by decide)

/-- A parity as an element of the field of two. -/
def parityBit (v : Nat) (l : List Nat) : Fin 2 := ⟨parityOf v l, parityOf_lt v l⟩

theorem nibble_xor : ∀ a b c d a' b' c' d' : Fin 2,
    (a.val + a') % 2 + 2 * ((b.val + b') % 2) + 4 * ((c.val + c') % 2) + 8 * ((d.val + d') % 2) =
      (a.val + 2 * b + 4 * c + 8 * d) ^^^ (a'.val + 2 * b' + 4 * c' + 8 * d') := by
  decide

theorem byteCheck_xor (v w : Nat) : byteCheck (v ^^^ w) = byteCheck v ^^^ byteCheck w := by
  simp only [byteCheck, parityOf_xor]
  exact nibble_xor (parityBit v [0, 1, 3, 4, 6]) (parityBit v [0, 2, 3, 5, 6]) (parityBit v [1, 2, 3, 7])
    (parityBit v [4, 5, 6, 7]) (parityBit w [0, 1, 3, 4, 6]) (parityBit w [0, 2, 3, 5, 6]) (parityBit w [1, 2, 3, 7])
    (parityBit w [4, 5, 6, 7])

/-- The parts of a byte as stored: the byte, its check and even parity. -/
theorem byteEnc_parts : ∀ d : Fin 256, byteEnc d.val % 256 = d.val ∧ bits (byteEnc d.val) 8 4 = byteCheck d.val ∧
    parityOf (byteEnc d.val) (List.range 13) = 0 := by
  decide +kernel

/-- The syndrome of an error among the 13 bits of a stored byte. -/
def byteSyndrome (e : Nat) : Nat := bits e 8 4 ^^^ byteCheck (e % 256)

theorem bits_xor (v w i n : Nat) : bits (v ^^^ w) i n = bits v i n ^^^ bits w i n := by
  simp only [bits, Nat.xor_div_two_pow, Nat.xor_mod_two_pow]

/-- The decoder sees the error alone, whatever the byte. -/
theorem byteDec_error (d : Fin 256) (e : Nat) :
    byteDec (byteEnc d.val ^^^ e) =
      if byteSyndrome e = 0 then
        (if parityOf e (List.range 13) = 0 then .clean (d.val ^^^ e % 256) else .corrected (d.val ^^^ e % 256))
      else if parityOf e (List.range 13) = 1 ∧ byteSyndrome e ≤ 12 then
        .corrected ((byteEnc d.val ^^^ e ^^^ 2 ^ bytePos (byteSyndrome e)) % 256)
      else .uncorrectable (d.val ^^^ e % 256) := by
  obtain ⟨hdata, hcheck, hparity⟩ := byteEnc_parts d
  have hlow : (byteEnc d.val ^^^ e) % 256 = d.val ^^^ e % 256 := by
    have hmod : (byteEnc d.val ^^^ e) % 2 ^ 8 = byteEnc d.val % 2 ^ 8 ^^^ e % 2 ^ 8 := Nat.xor_mod_two_pow
    exact hmod.trans (congrArg (· ^^^ e % 256) hdata)
  have hsyn : bits (byteEnc d.val ^^^ e) 8 4 ^^^ byteCheck (d.val ^^^ e % 256) = byteSyndrome e := by
    rw [bits_xor, hcheck, byteCheck_xor, byteSyndrome, Nat.xor_comm (byteCheck d.val), Nat.xor_assoc,
      ← Nat.xor_assoc (byteCheck d.val), Nat.xor_self, Nat.zero_xor]
  have hpar : parityOf (byteEnc d.val ^^^ e) (List.range 13) = parityOf e (List.range 13) := by
    rw [parityOf_xor, hparity, Nat.zero_add, Nat.mod_eq_of_lt (parityOf_lt e _)]
  simp only [byteDec, hlow, hsyn, hpar]

/-- A single error has a syndrome of its own that names its bit, but for the parity bit's. -/
theorem byteSyndrome_single : ∀ i : Fin 13,
    (byteSyndrome (2 ^ i.val) = 0 ∧ 2 ^ i.val % 256 = 0) ∨
    (byteSyndrome (2 ^ i.val) ≠ 0 ∧ parityOf (2 ^ i.val) (List.range 13) = 1 ∧ byteSyndrome (2 ^ i.val) ≤ 12 ∧
      bytePos (byteSyndrome (2 ^ i.val)) = i.val) := by
  decide

theorem byteDec_single_error (d : Fin 256) (i : Fin 13) : (byteDec (byteEnc d.val ^^^ 2 ^ i.val)).value = d.val := by
  rw [byteDec_error]
  obtain ⟨hsyn, hlow⟩ | ⟨hsyn, hpar, hle, hpos⟩ := byteSyndrome_single i
  · rw [if_pos hsyn, hlow, Nat.xor_zero]
    split <;> rfl
  · rw [if_neg hsyn, if_pos ⟨hpar, hle⟩, hpos, Nat.xor_assoc, Nat.xor_self, Nat.xor_zero]
    exact (byteEnc_parts d).1

/-! ### Single errors of the word code -/

theorem foldl_none {α : Type} (g : α → Nat → α) (i : Nat) (l : List (Nat × Nat)) (a : α) (h : ∀ e ∈ l, e.1 ≠ i) :
    l.foldl (fun s e => if (2 ^ i).testBit e.1 then g s e.2 else s) a = a := by
  induction l with
  | nil => rfl
  | cons e l ih =>
    have he : (2 ^ i).testBit e.1 = false := by
      rw [Nat.testBit_two_pow]
      exact decide_eq_false fun hi => h e List.mem_cons_self hi.symm
    rw [List.foldl_cons, he]
    exact ih fun x hx => h x (List.mem_cons_of_mem e hx)

/-- Of a single set bit only the entry of that position counts. -/
theorem foldl_single {α : Type} (g : α → Nat → α) {i b : Nat} {l : List (Nat × Nat)} (a : α)
    (hl : (l.map Prod.fst).Nodup) (hb : (i, b) ∈ l) :
    l.foldl (fun s e => if (2 ^ i).testBit e.1 then g s e.2 else s) a = g a b := by
  induction l with
  | nil => cases hb
  | cons e l ih =>
    obtain ⟨hnot, hnodup⟩ := List.nodup_cons.mp hl
    rcases List.mem_cons.mp hb with rfl | hmem
    · have hbit : (2 ^ i).testBit i = true := by simp
      rw [List.foldl_cons]
      simp only [hbit, if_true]
      exact foldl_none g i l _ fun x hx hi => hnot (List.mem_map.mpr ⟨x, hx, hi⟩)
    · have hne : e.1 ≠ i := fun hi => hnot (List.mem_map.mpr ⟨_, hmem, hi.symm⟩)
      have hbit : (2 ^ i).testBit e.1 = false := by
        rw [Nat.testBit_two_pow]
        exact decide_eq_false hne.symm
      rw [List.foldl_cons]
      simp only [hbit]
      exact ih hnodup hmem

theorem betaPows_length : betaPows.length = 127 := by decide +kernel

/-- The powers of β name the positions. -/
theorem betaPows_findIdx : ∀ i : Fin 125, betaPows.getD i.val 0 ≠ 0 ∧
    betaPows.findIdx (· == betaPows.getD i.val 0) = i.val := by
  decide +kernel

theorem wordSyn_single (i : Fin 125) :
    wordSyn (2 ^ i.val) = (1, betaPows.getD i.val 0,
      betaMul (betaPows.getD i.val 0) (betaMul (betaPows.getD i.val 0) (betaPows.getD i.val 0))) := by
  have hpos : ((List.zip (List.range 125) betaPows).map Prod.fst).Nodup := by
    rw [List.map_fst_zip (by simp [betaPows_length])]
    exact List.nodup_range
  have hmem : (i.val, betaPows.getD i.val 0) ∈ List.zip (List.range 125) betaPows := by
    have hlt : i.val < betaPows.length := by rw [betaPows_length]; omega
    refine List.mem_iff_getElem.mpr ⟨i.val, by simp [betaPows_length], ?_⟩
    simp [List.getD_eq_getElem?_getD, List.getElem?_eq_getElem hlt]
  refine (foldl_single (fun s b => ((s.1 + 1) % 2, s.2.1 ^^^ b, s.2.2 ^^^ betaMul b (betaMul b b))) (0, 0, 0)
    hpos hmem).trans ?_
  simp only [Nat.zero_xor]

theorem wordDec_single (i : Fin 125) : wordDec (2 ^ i.val) = wordLocated [i.val] := by
  obtain ⟨hne, hidx⟩ := betaPows_findIdx i
  simp only [wordDec, wordSyn_single, hidx]
  exact (if_neg (by decide)).trans (if_pos ⟨hne, trivial⟩)

/-- Settles O55: the word code is linear, so a move changes the address's part alone; the byte and the word decoder see a
single error as itself. -/
theorem wordCodes : Obligations.WordCodes := by
  refine ⟨reAddress_wordChk, byteDec_single_error, fun i => ?_, fun i hi => ?_, by decide +kernel⟩
  · have hdec := wordDec_single ⟨i.val, by omega⟩
    have hlow : ¬ 125 ≤ i.val ∧ ¬ 80 ≤ i.val := by omega
    simpa [wordLocated, hlow.1, hlow.2] using hdec
  · have hlow : ¬ 125 ≤ i.val := by omega
    simpa [wordLocated, hlow, hi] using wordDec_single i

end Sys2Proof.Machine
end

