-- ==== Sys2Proof/Proofs/ControlBounds.lean ====
section
/-!
PROOFS. The bounds of the control computations (R79, R313, R362).
-/
namespace Sys2Proof.Machine

theorem clampInt_bounds {lo hi : Int} (v : Int) (h : lo ≤ hi) : lo ≤ clampInt lo hi v ∧ clampInt lo hi v ≤ hi := by
  unfold clampInt
  split
  · exact ⟨Int.le_refl lo, h⟩
  · split <;> omega

theorem ite_eq_or_int (c : Prop) [Decidable c] (a b : Int) : (if c then a else b) = a ∨ (if c then a else b) = b := by
  by_cases h : c
  · exact .inl (if_pos h)
  · exact .inr (if_neg h)

/-- AUTO without a slew limit: the output ends in a clamp, and the integral in one or where it stood. -/
theorem loopCompute_auto (r : LoopRegs) (q : LoopSlot) (c1 c2 : NotchCoef) (x sp out : Int) (fresh : Bool)
    (hslew : r.slew = 0) :
    (∃ u, (loopCompute r q c1 c2 2 fresh x sp out).out = clampInt r.omin r.omax u) ∧
      ((loopCompute r q c1 c2 2 fresh x sp out).i = q.i ∨
        ∃ i, (loopCompute r q c1 c2 2 fresh x sp out).i = clampInt r.omin r.omax i) := by
  cases fresh with
  | true =>
    simp only [loopCompute, hslew, if_true, ne_eq, not_true_eq_false, false_and, if_false, and_false, or_false,
      Nat.reduceEqDiff]
    exact ⟨⟨_, rfl⟩, .inr ⟨_, rfl⟩⟩
  | false =>
    simp only [loopCompute, hslew, if_true, ne_eq, not_true_eq_false, false_and, if_false, and_false, or_false,
      Nat.reduceEqDiff, Bool.false_eq_true]
    exact ⟨⟨_, rfl⟩, (ite_eq_or_int _ _ _).imp id fun h => ⟨_, h⟩⟩

theorem loopCompute_slew (r : LoopRegs) (q : LoopSlot) (c1 c2 : NotchCoef) (st : Nat) (x sp out : Int) (fresh : Bool)
    (hst : st ≠ 3) (hslew : r.slew ≠ 0) :
    ∃ u, (loopCompute r q c1 c2 st fresh x sp out).out = clampInt (out - r.slew) (out + r.slew) u := by
  unfold loopCompute
  simp only [hst, hslew, ne_eq, not_false_eq_true, and_self, if_true]
  exact ⟨_, rfl⟩

theorem phaseLoop_trim (kp ki lim : Nat) (acc err : Int) :
    -(100 * lim : Int) ≤ (phaseLoop kp ki lim acc err).2 ∧ (phaseLoop kp ki lim acc err).2 ≤ 100 * lim :=
  clampInt_bounds _ (by omega)

/-- Toward a target of the same direction and greater size the speed grows by no more than A. -/
theorem nextSpeed_away {v vt : Int} {acc dec : Nat} (h : 0 ≤ v * vt ∧ v.natAbs < vt.natAbs) :
    min v vt ≤ nextSpeed v vt acc dec ∧ nextSpeed v vt acc dec ≤ max v vt ∧ (nextSpeed v vt acc dec - v).natAbs ≤ acc := by
  rw [nextSpeed, if_pos h]
  obtain ⟨hsign, hlt⟩ := h
  rcases Int.lt_trichotomy vt 0 with hvt | rfl | hvt
  · have hv : v ≤ 0 := Int.not_lt.mp fun hpos => absurd hsign (Int.not_le.mpr (Int.mul_neg_of_pos_of_neg hpos hvt))
    rw [Int.sign_eq_neg_one_of_neg hvt]
    omega
  · omega
  · have hv : 0 ≤ v := Int.not_lt.mp fun hneg => absurd hsign (Int.not_le.mpr (Int.mul_neg_of_neg_of_pos hneg hvt))
    rw [Int.sign_eq_one_of_pos hvt]
    omega

theorem towards_bounds (v vt : Int) (d : Nat) :
    min v vt ≤ towards v vt d ∧ towards v vt d ≤ max v vt ∧ (towards v vt d - v).natAbs ≤ d := by
  unfold towards
  split <;> omega

theorem nextSpeed_bounds (v vt : Int) (acc dec : Nat) : min v vt ≤ nextSpeed v vt acc dec ∧
    nextSpeed v vt acc dec ≤ max v vt ∧
    ((nextSpeed v vt acc dec - v).natAbs ≤ acc ∨ (nextSpeed v vt acc dec - v).natAbs ≤ dec) := by
  by_cases h : 0 ≤ v * vt ∧ v.natAbs < vt.natAbs
  · obtain ⟨hmin, hmax, hacc⟩ := nextSpeed_away (acc := acc) (dec := dec) h
    exact ⟨hmin, hmax, .inl hacc⟩
  · rw [nextSpeed, if_neg h]
    obtain ⟨hmin, hmax, hdec⟩ := towards_bounds v vt dec
    exact ⟨hmin, hmax, .inr hdec⟩

/-- Settles O56: each of the computations ends in a clamp, or moves toward its target by a bounded step. -/
theorem controlBounds : Obligations.ControlBounds := by
  refine ⟨fun r q c1 c2 x sp out fresh hlim hslew => ?_, fun r q c1 c2 st x sp out fresh hst hslew => ?_,
    phaseLoop_trim, nextSpeed_bounds⟩
  · obtain ⟨⟨u, hout⟩, hi⟩ := loopCompute_auto r q c1 c2 x sp out fresh hslew
    rw [hout]
    refine ⟨(clampInt_bounds u hlim).1, (clampInt_bounds u hlim).2, fun hmin hmax => ?_⟩
    rcases hi with hi | ⟨i, hi⟩
    · rw [hi]
      exact ⟨hmin, hmax⟩
    · rw [hi]
      exact clampInt_bounds i hlim
  · obtain ⟨u, hout⟩ := loopCompute_slew r q c1 c2 st x sp out fresh hst hslew
    rw [hout]
    exact clampInt_bounds u (by omega)

end Sys2Proof.Machine
end

