-- ==== Sys2Proof/Proofs/StepAndReset.lean ====
section
/-!
PROOFS. One step of the machine, and the state after reset (chapter 01, log 2, log 4).
-/
namespace Sys2Proof.Machine

variable (s : State)

theorem step_of_cons {c : Instr} {r : List Instr} (h : s.pending = c :: r) : step s = exec c { s with pending := r } := by
  simp only [step, State.queueTail, h, List.tail_cons]

theorem step_of_nil (h : s.pending = []) : step s = .next s.tick := by
  simp only [step, h]

/-- Settles O1: by the definition of step. -/
theorem stepRunsFront : Obligations.StepRunsFront :=
  fun _ _ s h => step_of_cons s h

/-- Settles O2: a tick is all that is left to a step without a command. -/
theorem emptyQueueTick : Obligations.EmptyQueueTick := by
  intro s h
  rw [step_of_nil s h, State.tick]
  exact ⟨fun hreset => by rw [if_pos hreset], fun hrun => by rw [if_neg (by simp [hrun])]⟩

theorem ldByte_reset (a : Nat) : State.reset.ldByte a = 0 := rfl

/-- Settles O57: the reset state lists no register and no byte, so every field and byte reads its default. -/
theorem resetState : Obligations.ResetState := by
  refine ⟨fun f => ⟨rfl, rfl⟩, ldByte_reset, rfl, rfl, rfl, rfl, rfl, ?_, ?_, ?_, rfl, ?_⟩
  all_goals decide

end Sys2Proof.Machine
end

