-- ==== Sys2Proof/Proofs/RegisterBus.lean ====
section
/-!
PROOFS. The register bus: ordinary writes, COMMIT, LOCK, ABORT, the write-1-to-clear words of the header, isolation, and writes that are turned away (R8–R14, R435, R436, R502–R507).
-/
namespace Sys2Proof.Machine

variable {s : State}

/-! ### The bus -/

theorem State.exec_registerWrite {p off : Nat} (hp : p < 0x1000) (ho : off < 0x1000) (ha : off % 4 = 0) (a : Agent) (v : Nat) :
    exec (.registerWrite a p off v 4) s = .next (s.busWrite a p off (v % 2 ^ 32)) := by
  change execRegisterWrite a p off v 4 s = _
  have hpage : p + off / 0x1000 = p := by omega
  have hoff : off % 0x1000 = off := by omega
  simp only [execRegisterWrite, hpage, hoff]
  rw [if_neg (by omega)]

/-- Pages of the berths and of the legacy port have no command of their own behind a register. -/
theorem State.busWrite_plain {p off : Nat} (hp : 0x008 ≤ p ∧ p ≤ 0x013 ∨ p = 0x0E0) (ho : 0x040 ≤ off) (a : Agent) (v : Nat) :
    s.busWrite a p off v = s.write a p off (·.plain p off v) := by
  rcases hp with hp | rfl
  · unfold State.busWrite
    rw [if_neg (by omega), if_neg (by omega), if_neg (by omega), if_neg (by omega), if_neg (by omega), if_neg (by omega),
      if_neg (by omega)]
  · unfold State.busWrite
    rw [if_neg (by omega), if_neg (by decide), if_neg (by decide), if_neg (by decide), if_neg (by decide),
      if_neg (by decide), if_pos (by decide)]
    rfl

theorem State.busWrite_header {off : Nat} (ho : off < 0x040) (a : Agent) (p v : Nat) :
    s.busWrite a p off v = s.headerWrite a p off v := if_pos ho

/-! ### COMMIT -/

theorem State.commitNow_wr_pend (p v : Nat) : (s.wr (H.PEND p) v).commitNow p = s.commitNow p := by
  have hkey : (H.STATE ptPage).key ≠ (H.PEND p).key := by
    simp only [Fld.key, H.STATE, H.PEND]
    omega
  rw [State.commitNow, s.rd_wr_ne hkey, State.commitNow]

theorem ite_ne {α : Type} {c : Prop} [Decidable c] {a b x : α} (ha : c → a ≠ x) (hb : b ≠ x) : (if c then a else b) ≠ x := by
  split
  · exact ha ‹c›
  · exact hb

theorem blockOf_ne_beam {p : Nat} (h : p < 0x020 ∨ 0x025 < p) : blockOf p ≠ some .beam := by
  unfold blockOf
  repeat refine ite_ne (fun _ => by decide) ?_
  refine ite_ne (fun _ => by omega) ?_
  repeat refine ite_ne (fun _ => by decide) ?_
  decide

theorem blockOf_ne_interlace {p : Nat} (h : p < 0x028 ∨ 0x02D < p) : blockOf p ≠ some .interlace := by
  unfold blockOf
  repeat refine ite_ne (fun _ => by decide) ?_
  refine ite_ne (fun _ => by omega) ?_
  repeat refine ite_ne (fun _ => by decide) ?_
  decide

theorem blockOf_ne_imaging {p : Nat} (h : p < 0x030 ∨ 0x035 < p) : blockOf p ≠ some .imaging := by
  unfold blockOf
  repeat refine ite_ne (fun _ => by decide) ?_
  refine ite_ne (fun _ => by omega) ?_
  repeat refine ite_ne (fun _ => by decide) ?_
  decide

/-- Outside the pages of the stations a set waits for the boundary of its own page. -/
theorem State.commitPend_of_unbound {p : Nat} (hp : p < 0x020 ∨ 0x040 ≤ p) (hnow : s.commitNow p = false) :
    s.commitPend p = (s.wr (H.PEND p) 1).mark p 58 := by
  unfold State.commitPend
  split
  case h_1 h => exact absurd h (blockOf_ne_beam (by omega))
  case h_2 h => exact absurd h (blockOf_ne_interlace (by omega))
  case h_3 h => exact absurd h (blockOf_ne_imaging (by omega))
  case h_4 => exact if_neg (by simp [State.commitNow_wr_pend, hnow])

theorem State.commit_of_pending {p : Nat} (h : s.on (H.PEND p) = true) : s.commit p = s :=
  if_pos (by simp [State.staged, h])

theorem State.commit_of_refused {p : Nat} (hset : hasStaged p = true) (hpend : s.on (H.PEND p) = false)
    (href : s.commitRefused p = true) (hmotor : p < 0x0B0 ∨ 0x0BB < p) : s.commit p = s.mismatch p := by
  have hm : (decide (0x0B0 ≤ p) && decide (p ≤ 0x0BB)) = false := by
    rw [← Bool.decide_and]; exact decide_eq_false (by omega)
  simp [State.commit, hset, State.staged, hpend, hm, State.ifDo, href]

theorem State.commit_of_admitted {p : Nat} (hset : hasStaged p = true) (hpend : s.on (H.PEND p) = false)
    (href : s.commitRefused p = false) (hmotor : p < 0x0B0 ∨ 0x0BB < p) : s.commit p = s.commitPend p := by
  have hm : (decide (0x0B0 ≤ p) && decide (p ≤ 0x0BB)) = false := by
    rw [← Bool.decide_and]; exact decide_eq_false (by omega)
  simp [State.commit, hset, State.staged, hpend, hm, State.ifDo, href]

theorem State.exec_commit {a : Agent} {p : Nat} (h : writable s a p 0x004) : exec (.commit a p) s = .next (s.commit p) :=
  congrArg Host.Outcome.next (s.write_ok h _)

/-! ### ABORT and PG_STAT -/

theorem State.exec_pageAbort {a : Agent} {p : Nat} (h : writable s a p 0x004) :
    exec (.pageAbort a p) s = .next (s.pageAbort a p) :=
  congrArg Host.Outcome.next (s.write_ok h _)

theorem State.pageAbort_other {p : Nat} (hencode : p < 0x051 ∨ 0x052 < p) (hdma : p < 0x061 ∨ 0x080 < p) (a : Agent) :
    s.pageAbort a p = s := by
  rw [State.pageAbort, if_neg (by omega), if_neg (by omega)]

theorem State.pageAbort_encode {a : Agent} {j : Fin 2} (h : writable s a (0x051 + j) 0x004)
    (hrun : s.rd (H.STATE (0x051 + j)) ≠ 0) : s.pageAbort a (0x051 + j) = s.ejFail j 6 := by
  have hlane : Fin.ofNat 2 (0x051 + j.val - 0x051) = j := Fin.ext (by change (0x051 + j.val - 0x051) % 2 = j.val; omega)
  rw [State.pageAbort, if_pos (by omega), hlane]
  refine (s.write_ok h _).trans (if_neg ?_)
  rw [Bool.or_false, decide_eq_true_iff]
  exact hrun

theorem State.pageAbort_dma (a : Agent) (n : Fin 32) (s : State) :
    Host.Outcome.next (s.pageAbort a (0x061 + n)) = exec (.dmaAbort a n) s := by
  have hchan : Fin.ofNat 32 (0x061 + n.val - 0x061) = n := Fin.ext (by simp [Fin.ofNat])
  rw [State.pageAbort, if_neg (by omega), if_pos (by omega), hchan]
  rfl

theorem State.exec_statusFlagClear {a : Agent} {p : Nat} (h : writable s a p 0x008) (mismatch busy : Bool) :
    exec (.statusFlagClear a p mismatch busy) s = .next (s.statClear p mismatch busy) :=
  congrArg Host.Outcome.next (s.write_ok h _)

/-- Settles O3: register writes, COMMIT, LOCK, ABORT and the clears of PG_STAT. -/
theorem registerBusCommands : Obligations.RegisterBusCommands := by
  refine ⟨?plain, ?evtEn, ?fltEn, ?commit, ?pending, ?refused, ?lock, ?abort, ?encode, ?dma, ?clear, ?fresh⟩
  case plain =>
    intro a p off v s hp hlo hhi hal h
    rw [State.exec_registerWrite (by omega) hhi hal, State.busWrite_plain hp hlo, s.write_ok h]
  case evtEn =>
    intro a p v s hp h
    rw [State.exec_registerWrite hp (by decide) rfl, State.busWrite_header (by decide)]
    exact congrArg Host.Outcome.next (s.write_ok h _)
  case fltEn =>
    intro a p v s hp h
    rw [State.exec_registerWrite hp (by decide) rfl, State.busWrite_header (by decide)]
    exact congrArg Host.Outcome.next (s.write_ok h _)
  case commit =>
    intro a p s h hset hpend href hbound hmotor hnow
    rw [State.exec_commit h, State.commit_of_admitted hset hpend href hmotor, State.commitPend_of_unbound hbound hnow]
  case pending =>
    intro a p s h hpend
    rw [State.exec_commit h, State.commit_of_pending hpend]
  case refused =>
    intro a p s h hset hpend href hmotor
    rw [State.exec_commit h, State.commit_of_refused hset hpend href hmotor, State.mismatch]
  case lock =>
    intro a p s h
    exact congrArg Host.Outcome.next (s.write_ok h _)
  case abort =>
    intro a p s h hencode hdma
    rw [State.exec_pageAbort h, State.pageAbort_other hencode hdma]
  case encode =>
    intro a j s h hrun
    rw [State.exec_pageAbort h, State.pageAbort_encode h hrun]
  case dma =>
    intro a n s h
    rw [State.exec_pageAbort h, State.pageAbort_dma]
  case clear =>
    intro a p s h hm hb
    simp [State.exec_statusFlagClear h, State.statClear, hm, hb, State.ifDo]
  case fresh =>
    intro a p s h hm hb
    simp [State.exec_statusFlagClear h, State.statClear, hm, hb, State.ifDo]

/-! ### Writes that change fields alone -/

theorem onlyFields_self (l : List Fld) (s : State) : onlyFields l s s := ⟨rfl, fun _ _ => rfl⟩

theorem onlyFields_wr {l : List Fld} {s t : State} (h : onlyFields l s t) {f : Fld} (hf : f ∈ l) (v : Nat) :
    onlyFields l s (t.wr f v) := by
  obtain ⟨hst, hkeep⟩ := h
  refine ⟨?_, fun g hg => (t.rd_wr_ne (hg f hf).symm v).trans (hkeep g hg)⟩
  rw [hst]
  rfl

/-! ### Writes that are turned away -/

/-- Settles O7: a denied write goes to its count and its log alone. -/
theorem deniedWrites : Obligations.DeniedWrites := by
  refine ⟨?plain, ?commit, ?lock, ?isolate, ?count⟩
  case plain =>
    intro a p off v s hp hlo hhi hal h
    rw [State.exec_registerWrite (by omega) hhi hal, State.busWrite_plain hp hlo, s.write_denied h]
  case commit => exact fun a p s h => congrArg Host.Outcome.next (s.write_denied h _)
  case lock => exact fun a p s h => congrArg Host.Outcome.next (s.write_denied h _)
  case isolate => exact fun a p s h => congrArg Host.Outcome.next (s.write_denied h _)
  case count =>
    intro a p off s
    unfold State.countDenied State.sat State.satAdd
    refine ⟨onlyFields_wr (onlyFields_wr (onlyFields_wr (onlyFields_wr (onlyFields_self _ s) (by simp) _) (by simp) _) (by simp) _)
      (by simp) _, ?_, ?_, ?_, State.rd_wr ..⟩
    · rw [State.rd_wr_ne _ (by decide), State.rd_wr_ne _ (by decide), State.rd_wr_ne _ (by decide), State.rd_wr]
    · rw [State.rd_wr_ne _ (by decide), State.rd_wr_ne _ (by decide), State.rd_wr]
    · rw [State.rd_wr_ne _ (by decide), State.rd_wr]

/-! ### Masks -/

theorem testBit_foldl_add (c : Nat → Bool) (n j : Nat) :
    ((List.range n).foldl (fun w i => if c i then w + 2 ^ i else w) 0).testBit j = (decide (j < n) && c j) ∧
    (List.range n).foldl (fun w i => if c i then w + 2 ^ i else w) 0 < 2 ^ n := by
  induction n with
  | zero => simp
  | succ n ih =>
    obtain ⟨hbit, hlt⟩ := ih
    rw [List.range_succ, List.foldl_append]
    generalize (List.range n).foldl (fun w i => if c i then w + 2 ^ i else w) 0 = w at hbit hlt ⊢
    simp only [List.foldl_cons, List.foldl_nil]
    cases hc : c n with
    | false =>
      simp only [Bool.false_eq_true, if_false]
      refine ⟨?_, Nat.lt_trans hlt (Nat.pow_lt_pow_right (by decide) n.lt_succ_self)⟩
      rw [hbit]
      rcases Nat.lt_trichotomy j n with h | rfl | h
      · simp [h, Nat.lt_succ_of_lt h]
      · simp [hc]
      · simp [Nat.not_lt.mpr (Nat.le_of_lt h), Nat.not_lt.mpr h]
    | true =>
      simp only [if_true]
      refine ⟨?_, by rw [Nat.pow_succ]; omega⟩
      have hsum : w + 2 ^ n = 2 ^ n * 1 + w := by omega
      rw [hsum, Nat.testBit_two_pow_mul_add 1 hlt, hbit]
      rcases Nat.lt_trichotomy j n with h | rfl | h
      · simp [h, Nat.lt_succ_of_lt h]
      · simp [hc]
      · have hone : Nat.testBit 1 (j - n) = false := Nat.testBit_lt_two_pow (Nat.one_lt_two_pow (by omega))
        have hlate : ¬ j < n + 1 := by omega
        simp [Nat.not_lt.mpr (Nat.le_of_lt h), hone, hlate]

theorem testBit_and_sub {v g n i : Nat} (hg : g < 2 ^ n) (hi : i < n) :
    (v &&& (2 ^ n - 1 - g)).testBit i = (v.testBit i && !g.testBit i) := by
  have hsub : 2 ^ n - 1 - g = 2 ^ n - (g + 1) := by omega
  rw [Nat.testBit_and, hsub, Nat.testBit_two_pow_sub_succ hg]
  simp [hi]

/-! ### PG_EVT and PG_FLT -/

/-- The event bits a write of 1 takes away. -/
def State.evtGone (s : State) (p mask : Nat) : Nat :=
  (List.range 32).foldl (fun w i =>
    if bit mask i && !s.isFresh p i && !(p == 0 && i == 1 && s.fc.tempWarn) then w + 2 ^ i else w) 0

theorem State.evtClear_eq (p mask : Nat) (s : State) :
    s.evtClear p mask = s.wr (H.EVT p) (s.rd (H.EVT p) &&& (2 ^ 32 - 1 - s.evtGone p mask)) := rfl

theorem State.guarded_header {a : Agent} {p off : Nat} (hpage : s.absentPage p = false) (hright : s.mayWrite a p off = true)
    (hwake : a = .host → s.dev ≠ stSlack) (k : State → State) : s.guarded a p off false true true k = k s := by
  simp [State.guarded, s.wake_eq hwake, hpage, hright]

theorem State.bit_evtClear {p mask i : Nat} (hi : i < 32) (hset : bit (s.rd (H.EVT p)) i = true) :
    bit ((s.evtClear p mask).rd (H.EVT p)) i =
      (!bit mask i || s.isFresh p i || (p == 0 && i == 1 && s.fc.tempWarn)) := by
  obtain ⟨hgone, hlt⟩ := testBit_foldl_add
    (fun i => bit mask i && !s.isFresh p i && !(p == 0 && i == 1 && s.fc.tempWarn)) 32 i
  rw [State.evtClear_eq, State.rd_wr, bit, show (H.EVT p).width = 32 from rfl, Nat.testBit_mod_two_pow,
    State.evtGone, testBit_and_sub hlt hi, hgone]
  rw [bit] at hset
  simp [hi, hset, Bool.or_assoc, Bool.and_assoc]

/-- Outside the pages whose faults stop a cut or a chopper a clear of PG_FLT clears the bits alone. -/
theorem State.faultClear_plain {p : Nat} (hcut : p < 0x028 ∨ 0x02D < p) (hbus : p ≠ 0x0BC) (mask : Nat) :
    s.faultClear p mask = s.fltClear p (s.clearable p mask) := by
  unfold State.faultClear
  rw [if_neg (by omega), if_neg hbus]

/-- Settles O4: the clears of PG_EVT and PG_FLT. -/
theorem headerClears : Obligations.HeaderClears := by
  refine ⟨?evt, ?flt, ?last, ?left⟩
  case evt =>
    intro a p mask s hpage hright hwake
    refine ⟨s.evtClear p mask, congrArg Host.Outcome.next (s.guarded_header hpage hright hwake _), ?_,
      fun i hi hset _ => s.bit_evtClear hi hset⟩
    exact onlyFields_wr (onlyFields_self _ s) (by simp) _
  case flt =>
    intro a p mask s hpage hright hwake hcut hbus
    refine congrArg Host.Outcome.next ((s.guarded_header hpage hright hwake _).trans ?_)
    exact s.faultClear_plain hcut hbus mask
  case last =>
    intro p m s h
    simp only [State.fltClear, h, if_true]
  case left =>
    intro p m s h
    simp only [State.fltClear, h, if_false]

/-! ### Isolation -/

/-- Pages whose block serves no station, no page of paper and no output (log 17). -/
abbrev quietPage (p : Nat) : Prop :=
  p < 0x020 ∨ p = 0x040 ∨ p = 0x05A ∨ p = 0x060 ∨ p = 0x0BC ∨ p = 0x0C5 ∨ p = 0x0E0

theorem State.blockIsolate_quiet {p : Nat} (h : quietPage p) : s.blockIsolate p = s := by
  unfold State.blockIsolate
  rcases h with h | rfl | rfl | rfl | rfl | rfl | rfl
  · have htimeline : p ≠ ptPage := by rw [ptPage]; omega
    simp only [htimeline, if_false]
    iterate 15 rw [if_neg (by omega)]
  all_goals rfl

theorem State.blockRestore_quiet {p : Nat} (h : quietPage p) : s.blockRestore p = s := by
  unfold State.blockRestore
  rw [if_neg (by omega), if_neg (by omega), if_neg (by omega), if_neg (by omega)]

theorem State.each_fc_hw {α : Type} {l : List α} {f : α → State → State} (hf : ∀ a t, (f a t).fc.hw = t.fc.hw) (s : State) :
    (s.each l f).fc.hw = s.fc.hw := by
  induction l generalizing s with
  | nil => rfl
  | cons a l ih => exact (ih (f a s)).trans (hf a s)

theorem State.assayAbandon_hw (p : Nat) (s : State) : (s.assayAbandon p).fc.hw = s.fc.hw := by
  refine State.each_fc_hw (fun a t => ?_) s
  split
  · rw [State.ifDo]
    split <;> rfl
  · rfl

theorem State.hwReact_of_none (h : s.fc.hw = []) : s.hwReact = s := by
  simp [State.hwReact, State.hwRounds, h]

theorem State.isolate_quiet {p : Nat} (h : quietPage p) (hiso : s.on (H.ISOLATED p) = false) :
    s.isolate p = ((s.wr (H.ISOLATE p) 1).wr (H.ISOLATED p) 1).assayAbandon p := by
  have hstation : stationOfPage p = none := if_neg (by omega)
  rw [State.isolate, hiso, if_neg Bool.false_ne_true, hstation]
  exact State.blockIsolate_quiet h

theorem State.isolate_of_isolated {p : Nat} (hiso : s.on (H.ISOLATED p) = true) : s.isolate p = s.wr (H.ISOLATE p) 1 :=
  if_pos hiso

theorem State.restart_quiet {p : Nat} (h : quietPage p) : s.restart p = s := by
  have hnow (s : State) : s.commitNow p = false := by
    have h1 : (p == ptPage) = false := by simp only [beq_eq_false_iff_ne, ptPage]; omega
    have h2 : (p == 0x0A8) = false := by simp only [beq_eq_false_iff_ne]; omega
    simp [State.commitNow, h1, h2]
  simp only [State.restart, State.blockRestore_quiet h]
  rw [if_neg (by omega), hnow, Bool.and_false]
  rfl

theorem State.exec_isolate {a : Agent} {p : Nat} (h : writable s a p 0x004) :
    exec (.isolate a p) s = .next (s.isolate p).hwReact :=
  congrArg Host.Outcome.next (s.write_ok h _)

theorem State.exec_isolateRestore {a : Agent} {p : Nat} (h : writable s a p 0x004) :
    exec (.isolateRestore a p) s = .next (s.isolateEnd p) :=
  congrArg Host.Outcome.next (s.write_ok h _)

/-- Settles O6: the isolation of a page and its restore. -/
theorem isolation : Obligations.Isolation := by
  refine ⟨?isolate, ?again, ?refused, ?restore⟩
  case isolate =>
    intro a p s h hiso hhw hquiet
    rw [State.exec_isolate h, State.isolate_quiet hquiet hiso, State.hwReact_of_none]
    exact (State.assayAbandon_hw _ _).trans hhw
  case again =>
    intro a p s h hiso hhw
    rw [State.exec_isolate h, State.isolate_of_isolated hiso]
    exact congrArg Host.Outcome.next (State.hwReact_of_none hhw)
  case refused =>
    intro a p s h hiso hactive
    simp [State.exec_isolateRestore h, State.isolateEnd, hiso, hactive]
  case restore =>
    intro a p s h hiso hactive hquiet
    simp [State.exec_isolateRestore h, State.isolateEnd, hiso, hactive, State.restart_quiet hquiet]

end Sys2Proof.Machine
end

