-- ==== Sys2Proof/Proofs/Collector.lean ====
section
/-!
PROOFS. The fault collector's write-1-to-clear words, its merge windows and dispatch, and Assays (R429–R433, R439, R440).
-/
namespace Sys2Proof.Machine

variable {s : State}

/-! ### The collector's write-1-to-clear words -/

theorem State.ackSource_of_bit {w : Fin 8} {b : Fin 32} (h : bit (s.rd (F.FC_UNACK w)) b = true) :
    s.ackSource (32 * w.val + b) = { s.wr (F.FC_UNACK w) (s.rd (F.FC_UNACK w) - 2 ^ b.val) with
      fc := { s.fc with acked := (s.time, if s.fc.acked.1 = s.time then (32 * w.val + b) :: s.fc.acked.2 else [32 * w.val + b]) } } := by
  have hword : (32 * w.val + b.val) / 32 = w.val := by omega
  have hbit : (32 * w.val + b.val) % 32 = b.val := by omega
  simp only [State.ackSource, hword, hbit, h, if_true]
  rfl

/-- The sticky bits a write leaves. -/
def State.stickyLeft (s : State) (w : Fin 8) (mask : Nat) : Nat :=
  (List.range 32).foldl (fun v b =>
    if bit (s.rd (F.FC_STICKY w)) b && (!bit mask b || s.srcActive (32 * w.val + b)) then v + 2 ^ b else v) 0

theorem State.exec_stickyClear {a : Agent} {w : Fin 8} (h : writable s a 0x001 (0x0A0 + 4 * w.val)) (mask : Nat) :
    exec (.stickyClear a w mask) s = .next (s.wr (F.FC_STICKY w) (s.stickyLeft w mask)) :=
  congrArg Host.Outcome.next (s.write_ok h _)

theorem State.bit_stickyLeft (w : Fin 8) (mask : Nat) (b : Fin 32) :
    bit ((s.wr (F.FC_STICKY w) (s.stickyLeft w mask)).rd (F.FC_STICKY w)) b =
      (bit (s.rd (F.FC_STICKY w)) b && (!bit mask b || s.srcActive (32 * w.val + b))) := by
  obtain ⟨hbit, _⟩ := testBit_foldl_add
    (fun b => bit (s.rd (F.FC_STICKY w)) b && (!bit mask b || s.srcActive (32 * w.val + b))) 32 b.val
  have hwidth : (F.FC_STICKY w).width = 32 := rfl
  rw [State.rd_wr, hwidth, bit, Nat.testBit_mod_two_pow, State.stickyLeft, hbit]
  simp [b.isLt]

/-! ### Merge windows and the dispatch -/

theorem State.exec_mergeWindowExpiry {c : Fin 16} {w : MergeWin} (h : s.fc.merges[c] = some w) :
    exec (.mergeWindowExpiry c) s =
      .next (if w.opened + s.rd F.FC_CFG_MERGE_MAX * 100000 ≤ s.time then s.closeWindow c else s) := by
  change execMergeWindowExpiry c s = _
  rw [execMergeWindowExpiry, h]

theorem State.exec_faultDispatch_nobody (hhw : s.fc.hw = []) (h : s.holder 0 = none) : exec .faultDispatch s = .next s := by
  change execFaultDispatch s = _
  simp only [execFaultDispatch, State.hwReact_of_none hhw, h]
  cases s.fc.dispatch <;> rfl

theorem State.exec_faultDispatch {r : Raise} {l : List Raise} {n : Nat} (hhw : s.fc.hw = []) (hd : s.fc.dispatch = r :: l)
    (h : s.holder 0 = some n) (hlast : ∀ x ∈ l, x.src ≠ r.src) :
    exec .faultDispatch s = .next ((({ s with fc := { s.fc with dispatch := l } } : State).react r).ackSource r.src) := by
  change execFaultDispatch s = _
  have hany : l.any (·.src == r.src) = false := by simpa using hlast
  simp only [execFaultDispatch, State.hwReact_of_none hhw, h, hd, hany]
  rfl

/-- Settles O9: the collector's clears, its windows and its dispatch. -/
theorem collectorCommands : Obligations.CollectorCommands := by
  refine ⟨?first, ?unack, ?ack, ?sticky, ?closed, ?open_, ?dispatch, ?nobody⟩
  case first => exact fun a s h => congrArg Host.Outcome.next (s.write_ok h _)
  case unack => exact fun a w mask s h => congrArg Host.Outcome.next (s.write_ok h _)
  case ack => exact fun w b s h => State.ackSource_of_bit h
  case sticky =>
    intro a w mask s h
    exact ⟨_, State.exec_stickyClear h mask, onlyFields_wr (onlyFields_self _ s) (by simp) _, State.bit_stickyLeft w mask⟩
  case closed =>
    intro c w s h hover
    rw [State.exec_mergeWindowExpiry h, if_pos hover, State.closeWindow]
  case open_ =>
    intro c w s h hearly
    rw [State.exec_mergeWindowExpiry h, if_neg (Nat.not_le.mpr hearly)]
  case dispatch => exact fun r l n s hhw hd h hlast => State.exec_faultDispatch hhw hd h hlast
  case nobody => exact fun s hhw h => State.exec_faultDispatch_nobody hhw h

/-! ### Assays -/

theorem State.exec_assayGo {a : Agent} {src : Nat} (h : writable s a 0x001 0x054) (hsrc : src < 256) {k : AssayKind} {u : Nat}
    (hunit : s.fc.lastUnit.find? (·.1 == src) = some (src, some (k, u)))
    (hnew : (s.fc.assays.any fun x => x.kind == k && x.unit == u) = false) :
    exec (.assayGo a src) s = .next ((({ s.wr F.FC_ASSAY_SRC src with
      fc := { s.fc with assays := s.fc.assays ++ [⟨src, k, u, false, 0, true⟩] } } : State)).wr F.FC_ASSAY_STATUS 1) := by
  refine congrArg Host.Outcome.next ((s.write_ok h _).trans ?_)
  simp only [Nat.mod_eq_of_lt hsrc, State.wr_fc, hunit, Option.bind_some, State.requestAssay, hnew]
  rfl

theorem State.exec_assayGo_none {a : Agent} {src : Nat} (h : writable s a 0x001 0x054) (hsrc : src < 256)
    (hunit : s.fc.lastUnit.find? (·.1 == src) = none) :
    exec (.assayGo a src) s = .next ((s.wr F.FC_ASSAY_SRC src).wr F.FC_ASSAY_STATUS 5) := by
  refine congrArg Host.Outcome.next ((s.write_ok h _).trans ?_)
  simp only [Nat.mod_eq_of_lt hsrc, State.wr_fc, hunit, Option.bind_none]

theorem State.exec_assayStart_waits {src : Fin 256} {a : Assay}
    (h : s.fc.assays.find? (fun x => x.src == src.val && !x.running) = some a) (hfit : s.assayFits a = false) :
    exec (.assayStart src) s = .next (s.wr F.FC_ASSAY_STATUS 1) := by
  change execAssayStart src s = _
  simp only [execAssayStart, h, hfit, Bool.false_eq_true, if_false]

theorem State.assayBegin_plain {a : Assay} (hsig : a.kind ≠ .signature) (hlock : a.kind ≠ .relock) : s.assayBegin a = s := by
  unfold State.assayBegin
  split
  · exact absurd ‹_› hsig
  · exact absurd ‹_› hlock
  · rfl

theorem State.exec_assayStart {src : Fin 256} {a : Assay}
    (h : s.fc.assays.find? (fun x => x.src == src.val && !x.running) = some a) (hfit : s.assayFits a = true)
    (hsig : a.kind ≠ .signature) (hlock : a.kind ≠ .relock) (hgo : a.byGo = true) :
    exec (.assayStart src) s = .next (({ s with fc := { s.fc with
      assays := s.fc.assays.map fun b => if b = a then { b with running := true, started := s.time } else b } } : State).wr
        F.FC_ASSAY_STATUS 2) := by
  change execAssayStart src s = _
  simp only [execAssayStart, h, hfit, hgo, if_true, State.assayBegin_plain hsig hlock]

/-- The end of an Assay up to what its result means for its unit. -/
def State.assayCounted (a : Assay) (src : Fin 256) (pass : Bool) (s : State) : State :=
  (((({ s with fc := { s.fc with assays := s.fc.assays.filter (· != a) } } : State).sat
    (if pass then F.FC_STATS_TRANS src else F.FC_STATS_LASTING src)).wr F.FC_ASSAY_STATUS (if pass then 3 else 4)).event 0x001 3)

theorem State.exec_assayDone {src : Fin 256} {a : Assay}
    (h : s.fc.assays.find? (fun x => x.src == src.val && x.running) = some a) (pass soft : Bool) {t : State}
    (ht : (if pass then (s.assayCounted a src pass).assayPassed a else (s.assayCounted a src pass).assayLasting a soft) = t)
    (hwin : t.fc.merges[src.val / 16 % 16]'(by omega) = none) : exec (.assayDone src pass soft) s = .next t := by
  change execAssayDone src pass soft s = _
  subst ht
  simp only [State.assayCounted] at hwin ⊢
  simp only [execAssayDone, h, Fin.getElem_fin, hwin]

theorem State.assayPassed_plain {a : Assay} (hsig : a.kind ≠ .signature) (href : a.kind ≠ .refconv) : s.assayPassed a = s := by
  unfold State.assayPassed
  split
  · exact absurd ‹_› hsig
  · exact absurd ‹_› href
  · rfl

theorem State.assayLasting_prbs {a : Assay} (h : a.kind = .prbs) (soft : Bool) : s.assayLasting a soft =
    s.modLink (Fin.ofNat 6 (a.unit / 16)) fun q => { q with lasting := q.lasting ||| 2 ^ (a.unit % 16) } := by
  rw [State.assayLasting, h]

/-- Settles O10: GO, start and result of an Assay. -/
theorem assayCommands : Obligations.AssayCommands := by
  refine ⟨?go, ?none, ?waits, ?starts, ?passed, ?lasting⟩
  case go => exact fun a src k u s h hsrc hunit hnew => State.exec_assayGo h hsrc hunit hnew
  case none => exact fun a src s h hsrc hunit => State.exec_assayGo_none h hsrc hunit
  case waits => exact fun src a s h hfit => State.exec_assayStart_waits h hfit
  case starts => exact fun src a s h hfit hsig hlock hgo => State.exec_assayStart h hfit hsig hlock hgo
  case passed =>
    intro src soft a s h hsig href hwin _
    refine State.exec_assayDone h true soft (State.assayPassed_plain hsig href) ?_
    simpa using hwin
  case lasting =>
    intro src soft a s h hkind hwin
    refine State.exec_assayDone h false soft (State.assayLasting_prbs hkind soft) ?_
    simpa using hwin

end Sys2Proof.Machine
end

