-- ==== Sys2Proof/Proofs/Supervision.lean ====
section
/-!
PROOFS. Berths, the Harbourmaster, junction temperature and the alarm of TIME (R441–R446, R508, R509).
-/
namespace Sys2Proof.Machine

variable {s : State}

/-! ### Berths -/

theorem State.exec_lockstep {n : Fin 12} (h : s.rd (H.STATE (0x008 + n)) = 0 ∨ s.rd (H.STATE (0x008 + n)) = 3 ∨
    s.rd (H.STATE (0x008 + n)) = 6) (trap : Bool) :
    exec (.lockstep n trap) s = .next ((((s.haltBerth n).sat (if trap then F.BR_CNT_TRAP_UE n else F.BR_CNT_MISMATCH n)).raiseWith
      (16 + n) (0x008 + n) (b2n trap) 0 (some (.signature, n))).ifDo (decide (s.role n < 0xE)) (·.openRecovery (16 + n) (0x008 + n))) :=
  if_pos h

theorem State.exec_lockstep_halted {n : Fin 12} (h : ¬ (s.rd (H.STATE (0x008 + n)) = 0 ∨ s.rd (H.STATE (0x008 + n)) = 3 ∨
    s.rd (H.STATE (0x008 + n)) = 6)) (trap : Bool) : exec (.lockstep n trap) s = .next s :=
  if_neg h

theorem State.haltBerth_plain {n : Nat} (hsup : s.role n ≠ 0) (hspare : s.role n ≠ 0xE) (hidle : s.role n ≠ 0xF) :
    s.haltBerth n = { s.wr (H.STATE (0x008 + n)) 1 with
      berths := { s.berths with moves := s.berths.moves ++ [⟨s.role n, n, s.time⟩] } } := by
  simp only [State.haltBerth, hsup, hspare, hidle, if_false]
  rfl

/-- Settles O11: lockstep errors and the moves of roles. -/
theorem berthCommands : Obligations.BerthCommands := by
  refine ⟨?spare, ?working, ?halted, ?waits, ?moves, ?role, ?nobody⟩
  case spare =>
    intro n trap s hrun hrole
    rw [State.exec_lockstep hrun, decide_eq_false (by omega)]
    rfl
  case working =>
    intro n trap s hrun hrole
    rw [State.exec_lockstep hrun, decide_eq_true hrole]
    rfl
  case halted => exact fun n trap s h0 h3 h6 => State.exec_lockstep_halted (by simp [h0, h3, h6]) trap
  case waits => exact fun n s hsup hspare hidle => State.haltBerth_plain hsup hspare hidle
  case moves =>
    intro m n h s hmove hhold hspare
    change execRoleMove s = _
    simp only [execRoleMove, hmove, hhold, hspare]
  case role => exact fun n r since s => rfl
  case nobody =>
    intro s h
    change execRoleMove s = _
    rcases h with h | h
    · simp only [execRoleMove, h]
    · simp only [execRoleMove, h]
      cases s.nextMove <;> rfl

/-! ### The Harbourmaster -/

theorem State.exec_beat {n : Fin 12} (h : writable s (.berth n) 0x002 0x04C) (hrole : s.role n = 0)
    (hstate : s.rd F.HM_STAT_STATE = 0) :
    exec (.beat (.berth n)) s = .next ((((({ s with berths := { s.berths with lastBeat := s.time, supBerth := n.val } } : State).satAdd
      F.HM_CNT_MISSES 0).wr F.HM_STAT_STATE 1).wr (H.STATE 0x002) 1).wr F.HM_STAT_SUP_BERTH n.val) := by
  refine congrArg Host.Outcome.next ((s.write_ok h _).trans ?_)
  have hkeep (m : Nat) : (({ s with berths := { s.berths with lastBeat := s.time } } : State).satAdd F.HM_CNT_MISSES m).rd
      F.HM_STAT_STATE = 0 := (State.rd_wr_ne _ (by decide) _).trans hstate
  have hfirst : ¬ s.rd F.HM_STAT_STATE = 1 := by omega
  simp only [hrole, ne_eq, not_true_eq_false, if_false, hfirst, hkeep, if_true]
  rfl

theorem State.exec_beat_again {n : Fin 12} (h : writable s (.berth n) 0x002 0x04C) (hrole : s.role n = 0)
    (hstate : s.rd F.HM_STAT_STATE = 1) :
    exec (.beat (.berth n)) s = .next (({ s with berths := { s.berths with lastBeat := s.time } } : State).satAdd F.HM_CNT_MISSES
      (s.time / 100000 - s.berths.lastBeat / 100000 - 1)) := by
  refine congrArg Host.Outcome.next ((s.write_ok h _).trans ?_)
  have hkeep (m : Nat) : (({ s with berths := { s.berths with lastBeat := s.time } } : State).satAdd F.HM_CNT_MISSES m).rd
      F.HM_STAT_STATE = 1 := (State.rd_wr_ne _ (by decide) _).trans hstate
  simp only [hrole, ne_eq, not_true_eq_false, if_false, hstate, if_true, hkeep, Nat.reduceEqDiff, false_and]

theorem State.exec_supPromoted {n : Nat} (hstate : s.rd F.HM_STAT_STATE = 2) (hnone : s.berths.promoting = none)
    (hspare : s.spare = some n) {digestOk imageOk : Bool} (hok : (digestOk || imageOk) = true) (hrole : s.role s.berths.supBerth = 0) :
    exec (.supPromoted digestOk imageOk) s = .next
      (let t := (s.wr (F.BR_ROLE_ROLE s.berths.supBerth) 0xE).takeRole n 0 s.berths.lastBeat
       { t with berths := { t.berths with promoting := some n } }) := by
  change execSupPromoted digestOk imageOk s = _
  simp only [execSupPromoted, hstate, hnone, hspare, hok, hrole, and_self, if_true, beq_self_eq_true, State.ifDo]
  rfl

theorem State.exec_supPromoted_fails {n : Nat} (hstate : s.rd F.HM_STAT_STATE = 2) (hnone : s.berths.promoting = none)
    (hspare : s.spare = some n) :
    exec (.supPromoted false false) s = .next ((s.hmTo 3).raiseWith (16 + s.berths.supBerth) (0x008 + s.berths.supBerth) 2 3 none) := by
  change execSupPromoted false false s = _
  simp only [execSupPromoted, hstate, hnone, hspare, and_self, if_true]
  rfl

theorem State.exec_hmWaitTimeout_nobody (hstate : s.rd F.HM_STAT_STATE = 0) (htime : s.berths.waitSince + 120000000 ≤ s.time)
    (hnone : s.holder 0 = none) :
    exec .hmWaitTimeout s = .next ((({ s with berths := { s.berths with supBerth := 0, promoting := none } } : State).wr
      F.HM_STAT_STATE 2).wr (H.STATE 0x002) 2) := by
  change execHmWaitTimeout s = _
  simp only [execHmWaitTimeout, hstate, htime, hnone, and_self, if_true]
  rfl

/-! ### The copies' votes -/

/-- What an outvoted copy leaves: its counter and the times of its votes of the last second. -/
def State.outvoted (s : State) (f : Fld) (i : Fin 3) : State :=
  { s.sat f with berths := { s.berths with
    outvotes := s.berths.outvotes.set i (s.time :: s.berths.outvotes[i].filter fun t => s.time < t + 100000000) } }

/-- Copy `i` is outvoted: the third time within a second it is excluded. -/
def State.outvote (s : State) (f : Fld) (i : Fin 3) : State :=
  (if 3 ≤ (s.time :: s.berths.outvotes[i].filter fun t => s.time < t + 100000000).length then
    ((s.outvoted f i).wr F.HM_STAT_DUAL 1).wr F.HM_STAT_EXCLUDED i.val
  else s.outvoted f i).raise 248 0x002 0

theorem State.exec_hmVote_zero (hdual : s.on F.HM_STAT_DUAL = false) :
    exec (.hmVote true false false) s = .next (s.outvote F.HM_VOTE_DIS0 0) := by
  change execHmVote true false false s = _
  simp only [execHmVote, hdual]
  rfl

theorem State.exec_hmVote_one (hdual : s.on F.HM_STAT_DUAL = false) :
    exec (.hmVote false true false) s = .next (s.outvote F.HM_VOTE_DIS1 1) := by
  change execHmVote false true false s = _
  simp only [execHmVote, hdual]
  rfl

/-- Settles O12: BEAT, the missed heartbeats, the promotion and the votes. -/
theorem harbourmasterCommands : Obligations.HarbourmasterCommands := by
  refine ⟨fun n s h hrole hst => State.exec_beat h hrole hst, fun n s h hrole hst => State.exec_beat_again h hrole hst, ?miss, ?soon,
    fun d i n s hst hnone hspare hok hrole => State.exec_supPromoted hst hnone hspare hok hrole,
    fun n s hst hnone hspare => State.exec_supPromoted_fails hst hnone hspare,
    fun s hst htime hnone => State.exec_hmWaitTimeout_nobody hst htime hnone, ?silent, ?resync, ?agree, ?once, ?third, ?two, ?dual, ?excluded⟩
  case miss => exact fun s hst htime => if_pos ⟨hst, htime⟩
  case soon => exact fun s hst htime => if_neg fun h => Nat.not_le.mpr htime h.2
  case silent =>
    intro n s h
    change execHmSilent s = _
    rw [execHmSilent, h]
  case resync => exact fun a s h => congrArg Host.Outcome.next (s.write_ok h _)
  case agree => exact fun s => rfl
  case once =>
    intro s hdual hfew
    rw [State.exec_hmVote_zero hdual, State.outvote, if_neg (by
      rw [List.length_cons]
      exact Nat.not_le.mpr (Nat.succ_lt_succ hfew))]
    rfl
  case third =>
    intro s hdual hmany
    rw [State.exec_hmVote_one hdual, State.outvote, if_pos (by
      rw [List.length_cons]
      exact Nat.succ_le_succ hmany)]
    rfl
  case two =>
    intro s hdual
    change execHmVote true true false s = _
    simp only [execHmVote, hdual]
    rfl
  case dual =>
    intro s hdual hex
    change execHmVote true false true s = _
    simp only [execHmVote, hdual, hex]
    rfl
  case excluded =>
    intro s hdual hex
    change execHmVote false false true s = _
    simp only [execHmVote, hdual, hex]
    rfl

/-! ### Junction temperature -/

@[simp] theorem State.tempSample_warnAt (tj : Nat) (s : State) : (s.tempSample tj).warnAt = s.warnAt := by
  rw [State.tempSample]
  split <;> rfl

@[simp] theorem State.tempSample_fc (tj : Nat) (s : State) : (s.tempSample tj).fc = s.fc := by
  rw [State.tempSample]
  split <;> rfl

theorem State.exec_tempWarn (tj : Nat) (s : State) : exec (.tempWarn tj) s =
    if s.warnAt ≤ toSigned 16 tj ∧ s.fc.tempWarn = false then
      .next ((({ s.tempSample tj with fc := { s.fc with tempWarn := true } } : State).event 0x000 1).raise 0 0x000 0)
    else .next (s.tempSample tj) := by
  change execTempWarn tj s = _
  simp only [execTempWarn, State.tempSample_warnAt, State.tempSample_fc]

theorem State.exec_tempCrit (tj : Nat) (s : State) : exec (.tempCrit tj) s =
    .next (if s.warnAt + 240 ≤ toSigned 16 tj then (s.tempSample tj).raise 1 0x000 1 else s.tempSample tj) := by
  change execTempCrit tj s = _
  simp only [execTempCrit, State.tempSample_warnAt]

theorem State.exec_tempWarnEnd (tj : Nat) (s : State) : exec (.tempWarnEnd tj) s =
    .next (if toSigned 16 tj ≤ s.warnAt - 32 then { s.tempSample tj with fc := { s.fc with tempWarn := false } }
      else s.tempSample tj) := by
  change execTempWarnEnd tj s = _
  simp only [execTempWarnEnd, State.tempSample_warnAt, State.tempSample_fc]

/-! ### The alarm of TIME -/

theorem State.exec_arm {a : Agent} (h : writable s a 0x005 0x050) (on : Bool) : exec (.arm a on) s =
    .next ((s.flag F.TB_ALARM_CTL_ARM on).ifDo (on && !s.on F.TB_ALARM_CTL_ARM)
      (·.modClk fun c => { c with alarmAt := s.time + 1 })) :=
  congrArg Host.Outcome.next (s.write_ok h _)

/-- Settles O13: the temperature thresholds and the alarm of TIME. -/
theorem temperatureAndAlarm : Obligations.TemperatureAndAlarm := by
  refine ⟨?warn, ?below, ?crit, ?cool, ?ended, ?top, ?kept, ?write, ?arm, ?armed, ?disarm, ?alarm, ?quiet⟩
  case warn => exact fun tj s _ hat hwarn => (s.exec_tempWarn tj).trans (if_pos ⟨hat, hwarn⟩)
  case below => exact fun tj s _ hlow => (s.exec_tempWarn tj).trans (if_neg fun h => Int.not_le.mpr hlow h.1)
  case crit => exact fun tj s _ hat => (s.exec_tempCrit tj).trans (congrArg _ (if_pos hat))
  case cool => exact fun tj s _ hlow => (s.exec_tempCrit tj).trans (congrArg _ (if_neg (Int.not_le.mpr hlow)))
  case ended => exact fun tj s _ hlow => (s.exec_tempWarnEnd tj).trans (congrArg _ (if_pos hlow))
  case top => exact fun tj s _ hmax => if_pos hmax
  case kept => exact fun tj s _ hmax => if_neg (Int.not_lt.mpr hmax)
  case write => exact fun a tick s h => congrArg Host.Outcome.next (s.write_ok h _)
  case arm =>
    intro a s h harm
    rw [State.exec_arm h, harm]
    rfl
  case armed =>
    intro a s h harm
    rw [State.exec_arm h, harm]
    rfl
  case disarm => exact fun a s h => State.exec_arm h false
  case alarm => exact fun s harm hdue hlive => congrArg Host.Outcome.next (if_pos ⟨harm, hdue, hlive⟩)
  case quiet =>
    intro s h
    refine congrArg Host.Outcome.next (if_neg fun hdue => ?_)
    obtain ⟨harm, hat, hlive⟩ := hdue
    rcases h with h | h | h
    · rw [h] at harm
      cases harm
    · omega
    · omega

end Sys2Proof.Machine
end

