-- ==== Sys2Proof/Proofs/Resets.lean ====
section
/-!
PROOFS. RST_N, the internal power-on reset and the warm start, and what a report leaves alone (R2, R411, R451–R454).
-/
namespace Sys2Proof.Machine

variable {s : State}

/-! ### Assertion and release of RST_N -/

theorem Sparse.get_filter_key {α : Type} (p : Nat → Bool) (d : α) (k : Nat) (m : SparseMap α) :
    Sparse.get d k (m.filter fun e => p e.1) = if p k then Sparse.get d k m else d := by
  induction m with
  | nil => cases p k <;> rfl
  | cons e m ih =>
    obtain ⟨j, v⟩ := e
    rw [List.filter_cons]
    by_cases hj : j = k
    · subst hj
      cases hp : p j with
      | true => simp [Sparse.get]
      | false => simpa [hp] using ih
    · cases hp : p j with
      | true => simpa [Sparse.get, hj] using ih
      | false => simpa [Sparse.get, hj] using ih

theorem State.rd_assertReset (f : Fld) :
    s.assertReset.rd f = if f.key == F.LG_STAT_HEAD.key || f.key == F.LG_SEQ_LAST.key then s.rd f else f.reset :=
  Sparse.get_filter_key (fun k => k == F.LG_STAT_HEAD.key || k == F.LG_SEQ_LAST.key) f.reset f.key s.regs

theorem State.ldByte_assertReset (a : Nat) : s.assertReset.ldByte a = if inMram a then s.ldByte a else 0 :=
  (congrArg BitVec.toNat (Sparse.get_filter_key inMram memDefault a s.mem)).trans (by split <;> rfl)

/-! ### What a report leaves alone

Events, completions, log records and raises reach registers, memory, the outputs, the collector and the completion ring; the rest
of the state is `State.apart`. -/

/-- The state but for what reports and the boot ROM's choice of a bank change. -/
def State.apart (s : State) : State :=
  { s with
    regs := [], mem := [], fresh := (0, []), out := [], quay := Quay.reset, fc := Collector.reset, faultN := false, mo := Motion.reset
    boot := { s.boot with verified := false, imageBad := false } }

/-- A state that differs from `u` by reports alone. -/
def State.Reports (u s : State) : Prop := s.apart = u.apart

variable {u : State}

theorem State.Reports.ite {c : Prop} [Decidable c] {t : State} (hs : u.Reports s) (ht : u.Reports t) : u.Reports (if c then s else t) := by
  split <;> assumption

theorem State.Reports.ifDo {c : Bool} {f : State → State} (h : u.Reports s) (hf : ∀ t, u.Reports t → u.Reports (f t)) :
    u.Reports (s.ifDo c f) := .ite (hf s h) h

theorem State.Reports.each {α : Type} {l : List α} {f : α → State → State} (h : u.Reports s)
    (hf : ∀ a t, u.Reports t → u.Reports (f a t)) : u.Reports (s.each l f) := by
  induction l generalizing s with
  | nil => exact h
  | cons a l ih => exact ih (hf a s h)

theorem State.Reports.wr {f v} (h : u.Reports s) : u.Reports (s.wr f v) := h
theorem State.Reports.flag {f b} (h : u.Reports s) : u.Reports (s.flag f b) := h
theorem State.Reports.emit {o} (h : u.Reports s) : u.Reports (s.emit o) := h
theorem State.Reports.mark {p b} (h : u.Reports s) : u.Reports (s.mark p b) := h
theorem State.Reports.set_fc {v} (h : u.Reports s) : u.Reports { s with fc := v } := h
theorem State.Reports.set_quay {v} (h : u.Reports s) : u.Reports { s with quay := v } := h
theorem State.Reports.set_mo {v} (h : u.Reports s) : u.Reports { s with mo := v } := h
theorem State.Reports.set_faultN {v} (h : u.Reports s) : u.Reports { s with faultN := v } := h

theorem State.Reports.msix {v} (h : u.Reports s) : u.Reports (s.msix v) := .ite h.wr h.emit

theorem State.Reports.notify {p e} (h : u.Reports s) : u.Reports (s.notify p e) :=
  .ite (.ite h.msix (.ite h.msix h)) h.emit

theorem State.Reports.event {p i} (h : u.Reports s) : u.Reports (s.event p i) := .ifDo h.mark.wr fun _ ht => ht.notify

theorem State.Reports.fltBit {p i} (h : u.Reports s) : u.Reports (s.fltBit p i) := by
  have hfirst {s : State} (h : u.Reports s) : u.Reports (s.fltFirst p i) := .ite h.mark.wr (.ite h.wr h)
  exact .ifDo (.wr (hfirst h.mark)) fun _ ht => ht.notify

theorem State.Reports.stBytes {a l} (h : u.Reports s) : u.Reports (s.stBytes a l) := by
  induction l generalizing a s with
  | nil => exact h
  | cons b l ih => exact ih (s := s.stByte a b) h

theorem State.Reports.logRecord {kind body} (h : u.Reports s) : u.Reports (s.logRecord kind body) := h.stBytes.wr.wr

/-! ### Raises -/

theorem State.Reports.firstLatch {src sev} (h : u.Reports s) : u.Reports (s.firstLatch src sev) :=
  .ite (.ite h.wr.wr.wr h.wr) h.wr.wr.wr.wr.wr.event

theorem State.Reports.latchBits {src page fbit assay} (h : u.Reports s) : u.Reports (s.latchBits src page fbit assay) :=
  .set_fc (.fltBit (.wr (.wr (.wr (.wr h)))))

theorem State.Reports.mergeInto {c sev} (h : u.Reports s) : u.Reports (s.mergeInto c sev) := by
  unfold State.mergeInto
  split
  · exact .ite h.set_fc h
  · exact h

theorem State.Reports.assayWindow {src sev page assay} (h : u.Reports s) : u.Reports (s.assayWindow src sev page assay) := by
  unfold State.assayWindow
  split
  · exact .ifDo h fun _ ht => ht.set_fc
  · exact h

theorem State.Reports.escalateHigher {src page} (h : u.Reports s) : u.Reports (s.escalateHigher src page) :=
  .ite h (.each h fun _ _ ht => .ifDo (.set_fc (.event ht)) fun _ hv => hv.assayWindow)

theorem State.Reports.latch {src page fbit floor assay} (h : u.Reports s) : u.Reports (s.latch src page fbit floor assay) := by
  unfold State.latch
  extract_lets c own
  exact .ite (.set_fc (.set_fc h.latchBits.firstLatch.wr.event.mergeInto))
    (.set_fc (.escalateHigher (.assayWindow (.set_fc (.ifDo (.ifDo h.latchBits.firstLatch fun _ ht => ht.wr.event)
      fun _ ht => ht.wr)))))

/-! ### Completions -/

theorem State.Reports.irqSend (h : u.Reports s) : u.Reports s.irqSend := .ite (.set_quay h.msix) h

theorem State.Reports.cqPlace {e replay} (h : u.Reports s) : u.Reports (s.cqPlace e replay) := .irqSend (.set_quay h.emit)

theorem State.Reports.cqDrop (h : u.Reports s) : u.Reports s.cqDrop := .ite h.wr (.latch (.set_quay h.wr))

theorem State.Reports.heldRegs (h : u.Reports s) : u.Reports s.heldRegs := .wr (.wr (.ifDo h fun _ ht => ht.event))

theorem State.Reports.cqSubmit {e} (h : u.Reports s) : u.Reports (s.cqSubmit e) :=
  .ite h.cqDrop (.ite h.cqPlace (.heldRegs h.set_quay))

theorem State.Reports.cqIssue {e} (h : u.Reports s) : u.Reports (s.cqIssue e) := .ite h.cqDrop (.cqSubmit (.set_quay h.wr))

theorem State.Reports.postEvent {code job payload} (h : u.Reports s) : u.Reports (s.postEvent code job payload) :=
  .ite h (.ite h.cqIssue (.ite (.heldRegs h.set_quay) h.cqDrop))

theorem State.Reports.devTo {st} (h : u.Reports s) : u.Reports (s.devTo st) := h.wr.event.logRecord.postEvent

/-! ### The boot ROM -/

theorem State.Reports.pathLevel (h : u.Reports s) : u.Reports s.pathLevel := by
  unfold State.pathLevel
  split
  · split
    · exact h
    · exact h.set_mo
  · exact .wr h.set_mo

theorem State.apart_choose (v bad : Bool) (s : State) :
    (s.modBoot fun q => { q with verified := v, imageBad := bad }).apart = s.apart := rfl

theorem State.Reports.choose {v bad : Bool} (h : u.Reports s) :
    u.Reports (s.modBoot fun q => { q with verified := v, imageBad := bad }) := (s.apart_choose v bad).trans h

theorem State.Reports.fwRegs (h : u.Reports s) : u.Reports s.fwRegs := h.wr.wr.wr.wr.flag

theorem State.Reports.bootSelect (h : u.Reports s) : u.Reports s.bootSelect := by
  unfold State.bootSelect
  split
  extract_lets sel s1 pick
  have hs1 : u.Reports s1 := .ifDo h fun _ ht => ht.stBytes
  clear_value pick s1
  cases pick with
  | none => exact .set_faultN (.wr hs1.choose)
  | some b =>
    exact .logRecord (.fwRegs (.flag (.wr (.ifDo (.choose (.ifDo hs1 fun _ ht => ht.stBytes)) fun _ ht => ht.stBytes))))

/-! ### The warm start -/

/-- What a warm start keeps, before the boot ROM runs. -/
def State.warmed (s : State) : State :=
  { s with
    regs := s.regs.filter fun e => pd0Page (pageOfKey e.1)
    stg := s.stg.filter fun e => pd0Page (pageOfKey e.1)
    hold := []
    mem := s.mem.filter fun c => inMram c.1
    mu := { MemUnit.reset with rowMap := s.mu.rowMap, dramRows := s.mu.dramRows }
    tl := Timeline.reset
    quay := { Quay.reset with perst := s.quay.perst }
    ed := Vector.replicate 2 EdPort.reset
    dma := Dma.reset
    mo := Motion.reset
    ct := Control.reset
    sta := Stations.reset
    lg := { Legacy.reset with polys := s.lg.polys.map fun (q : ZPoly) => { q with run := false, acc := 0 } }
    clocks := { Clocks.reset with refLost := s.clocks.refLost, refLong := s.clocks.refLong, alarm := s.clocks.alarm, alarmAt := s.clocks.alarmAt }
    berths := { s.berths with moves := [], waitSince := s.time, promoting := none, traps := Vector.replicate 12 0 }
    boot := { s.boot with warm := false, banksFilled := false, updating := false, updMoved := [] } }

theorem State.exec_warmStart (hwarm : s.boot.warm = true) (hoff : s.dev = stOff) :
    ∃ t, exec .warmStart s = .next t ∧ s.warmed.Reports t := by
  refine ⟨_, if_neg (by simp [hwarm, hoff]), .bootSelect (.pathLevel (.devTo (.wr (.wr (.wr (.wr (.wr (.wr ?_))))))))⟩
  exact .each rfl fun _ _ ht => ht.wr

/-- Settles O14: RST_N, the internal power-on reset and the warm start. -/
theorem resetCommands : Obligations.ResetCommands := by
  refine ⟨?assert, ?release, ?released, ?low, ?high, ?warm, ?cold⟩
  case assert =>
    intro s
    refine ⟨s.assertReset, rfl, rfl, rfl, rfl, fun f hhead hlast => ?_, ?_, ?_, fun a ha => ?_, fun a ha => ?_,
      rfl, rfl, rfl, rfl, rfl, rfl, rfl, rfl, rfl, rfl⟩
    · simp [State.rd_assertReset, hhead, hlast]
    · simp [State.rd_assertReset]
    · simp [State.rd_assertReset]
    · simp [State.ldByte_assertReset, ha]
    · simp [State.ldByte_assertReset, ha]
  case release => exact fun a b prof s h => congrArg Host.Outcome.next (if_pos h)
  case released => exact fun a b prof s h => congrArg Host.Outcome.next (if_neg (by simp [h]))
  case low => exact fun a b prof s h => congrArg Host.Outcome.next (if_pos h)
  case high => exact fun a b prof s h => congrArg Host.Outcome.next (if_neg (by simp [h]))
  case warm =>
    intro s hwarm hoff
    obtain ⟨t, ht, hrep⟩ := State.exec_warmStart hwarm hoff
    have hap : t.apart = s.warmed.apart := hrep
    exact ⟨t, ht, (congrArg State.time hap :), (congrArg (fun s => s.boot.warm) hap :), (congrArg State.stg hap :),
      (congrArg State.hold hap :), (congrArg State.tl hap :), (congrArg State.dma hap :), (congrArg State.ct hap :),
      (congrArg State.sta hap :), (congrArg (fun s => s.berths.waitSince) hap :)⟩
  case cold => exact fun s h => if_pos h

end Sys2Proof.Machine
end

