-- ==== Sys2Proof/Proofs/BootAndFirmware.lean ====
section
/-!
PROOFS. O15 and O16: BOOT and FILL, and the commands of FW_CMD and PF_CMD.
-/
namespace Sys2Proof.Machine

variable {s : State}

/-! ### BOOT and FILL -/

theorem State.exec_fillDone (hfill : s.dev = stFill) (hover : s.fillOver = true) (hbanks : s.boot.banksFilled = true)
    (hslot : s.slotValid (s.rd F.PF_STAT_ACTIVE) = true) (hnot : s.ldByte (slotBase (s.rd F.PF_STAT_ACTIVE) + 6) ≠ 1) :
    exec .fillDone s = .next
      (let p := s.rd F.PF_STAT_ACTIVE
       let t1 := ({ s with boot := { s.boot with slotOk := true, noProfile := false, stations := s.ldByte (slotBase p + 7) } } : State)
       let t2 := (((t1.slotPower p).slotRecords p).flag F.DV_INFO_ZE40 false).flag F.PF_STAT_ZE40 false
       let t3 := t2.modClk fun c => { c with groups := t2.on F.CK_ROLE_GROUPS }
       let t4 := ({ t3 with seq := { t3.seq with early := false, idleSince := t3.time } } : State).takeRoles.rowRegs
       let t5 := (t4.wr (H.STATE 0x001) 0).storeRegs.devTo stReady
       (if t5.boot.imageBad then (t5.modBoot fun b => { b with imageBad := false }).raise 28 0x0F0 0 else t5).event 0x0F0 2) := by
  have hz (v : Boot) : (({ s with boot := v } : State).ldByte (slotBase (s.rd F.PF_STAT_ACTIVE) + 6) == 1) = false :=
    beq_eq_false_iff_ne.mpr hnot
  change execFillDone s = _
  rw [execFillDone, if_pos ⟨hfill, hover, hbanks⟩]
  simp only [hslot, hz, if_true, Bool.not_true, State.ifDo, Bool.false_eq_true, if_false, mrPage]

/-- The role a berth takes at the end of FILL, and the state it then shows. -/
def State.roleStep (n : Nat) (s : State) : State :=
  (s.wr (F.BR_ROLE_ROLE n) (defaultRole n)).wr (H.STATE (brPage n))
    (if defaultRole n = 0xE then 3 else if defaultRole n = 0xF then 4 else 0)

theorem State.takeRoles_default (hslot : s.boot.slotOk = false) (hgrade : s.boot.minus4S = false) :
    s.takeRoles = s.each (List.range 12) State.roleStep := by
  have hsteps (l : List Nat) (s : State) (hslot : s.boot.slotOk = false) (hgrade : s.boot.minus4S = false) :
      (s.each l fun n t =>
        let r := if t.boot.slotOk then t.ldByte (slotBase (t.rd F.PF_STAT_ACTIVE) + 0x14 + n) % 16 else defaultRole n
        let r := if t.boot.minus4S && r == 8 then 0xE else r
        (t.wr (F.BR_ROLE_ROLE n) r).wr (H.STATE (brPage n)) (if r = 0xE then 3 else if r = 0xF then 4 else 0)) =
      s.each l State.roleStep := by
    induction l generalizing s with
    | nil => rfl
    | cons n l ih =>
      simp only [State.each, List.foldl_cons, hslot, hgrade] at ih ⊢
      exact ih (s.roleStep n) hslot hgrade
  exact hsteps _ s hslot hgrade

theorem defaultRole_lt (n : Nat) : defaultRole n < 16 := by
  rw [defaultRole]
  split <;> omega

theorem role_key_ne_state (n m : Nat) : (F.BR_ROLE_ROLE n).key ≠ (H.STATE (brPage m)).key := by
  simp only [Fld.key, F.BR_ROLE_ROLE, H.STATE, brPage]
  omega

theorem role_key_ne {n m : Nat} (h : n ≠ m) : (F.BR_ROLE_ROLE n).key ≠ (F.BR_ROLE_ROLE m).key := by
  simp only [Fld.key, F.BR_ROLE_ROLE]
  omega

theorem state_key_ne {n m : Nat} (h : n ≠ m) : (H.STATE (brPage n)).key ≠ (H.STATE (brPage m)).key := by
  simp only [Fld.key, H.STATE, brPage]
  omega

theorem State.rd_roleSteps (k n : Nat) (hn : n < k) (s : State) :
    (s.each (List.range k) State.roleStep).rd (F.BR_ROLE_ROLE n) = defaultRole n ∧
    (s.each (List.range k) State.roleStep).rd (H.STATE (brPage n)) = if n < 10 then 0 else 3 := by
  induction k with
  | zero => omega
  | succ k ih =>
    have hsucc : s.each (List.range (k + 1)) State.roleStep = (s.each (List.range k) State.roleStep).roleStep k := by
      simp [State.each, List.range_succ]
    rw [hsucc]
    generalize s.each (List.range k) State.roleStep = t at ih ⊢
    have hrole (m : Nat) (h : m ≠ k) : (t.roleStep k).rd (F.BR_ROLE_ROLE m) = t.rd (F.BR_ROLE_ROLE m) := by
      rw [State.roleStep, State.rd_wr_ne _ (role_key_ne_state m k), State.rd_wr_ne _ (role_key_ne h)]
    have hstate (m : Nat) (h : m ≠ k) : (t.roleStep k).rd (H.STATE (brPage m)) = t.rd (H.STATE (brPage m)) := by
      rw [State.roleStep, State.rd_wr_ne _ (state_key_ne h), State.rd_wr_ne _ (role_key_ne_state k m).symm]
    rcases Nat.lt_succ_iff_lt_or_eq.mp hn with hlt | rfl
    · rw [hrole n (Nat.ne_of_lt hlt), hstate n (Nat.ne_of_lt hlt)]
      exact ih hlt
    · constructor
      · rw [State.roleStep, State.rd_wr_ne _ (role_key_ne_state n n), State.rd_wr]
        exact Nat.mod_eq_of_lt (defaultRole_lt n)
      · rw [State.roleStep, State.rd_wr]
        by_cases hten : n < 10
        · have hne : n ≠ 0xE ∧ n ≠ 0xF := by omega
          simp [defaultRole, hten, hne]
        · simp [defaultRole, hten, H.STATE]

/-- Settles O15: the two commands, and the default roles. -/
theorem bootStates : Obligations.BootStates := by
  refine ⟨?boot, ?waits, ?fill, ?filling, ?roles, ?dev⟩
  case boot => exact fun s hboot himage hon => if_pos ⟨hboot, himage, hon⟩
  case waits =>
    intro s h
    refine if_neg fun ⟨hboot, himage, hon⟩ => ?_
    simp [hboot, himage, hon] at h
  case fill => exact fun s hfill hover hbanks hslot hnot => State.exec_fillDone hfill hover hbanks hslot hnot
  case filling =>
    intro s h
    refine if_neg fun ⟨hfill, hover, hbanks⟩ => ?_
    simp [hfill, hover, hbanks] at h
  case roles =>
    intro s n hslot hgrade
    rw [State.takeRoles_default hslot hgrade]
    exact State.rd_roleSteps 12 n n.isLt s
  case dev => exact fun st s => rfl

/-! ### FW_CMD -/

theorem fwPage_ok {a : Agent} (h : writable s a 0x0F0 0x05C) (k : State → State) : fwPage k a s = .next (k s) :=
  congrArg Host.Outcome.next (s.write_ok h k)

theorem pfCmd_ok {a : Agent} (h : writable s a 0x0F0 0x064) (k : State → State) : pfCmd k a s = .next (k s) :=
  congrArg Host.Outcome.next (s.write_ok h k)

/-- STAGE once it is admitted. -/
def State.staging (s : State) : State :=
  let b := 1 - s.rd F.FW_STAT_BANK
  ((s.modBoot fun q => { q with
    stagedBank := b, bankA := if b = 0 then blankImage else q.bankA, bankB := if b = 0 then q.bankB else blankImage }).wr
    F.FW_STAT_STATUS 1).fwRegs

theorem State.exec_stage {a : Agent} {w : Fin 16} {off : Nat} (h : writable s a 0x0F0 0x05C) (hst : s.rd F.FW_STAT_STATUS ≠ 1)
    (hupd : s.boot.updating = false) (hsrc : hostWindow (s.rd F.FW_SRC_HI * 2 ^ 32 + s.rd F.FW_SRC_LO) = some (w, off))
    (hwin : s.winOk w off (s.rd F.FW_LEN_BYTES) false = true) (hal : (s.rd F.FW_SRC_HI * 2 ^ 32 + s.rd F.FW_SRC_LO) % 8 = 0)
    (hlen : s.rd F.FW_LEN_BYTES ≤ 25165824) : exec (.stage a) s = .next s.staging := by
  refine (fwPage_ok h _).trans (congrArg Host.Outcome.next ?_)
  have hadmit : ¬ (s.rd F.FW_STAT_STATUS = 1 ∨ s.boot.updating = true) := by simp [hst, hupd]
  rw [if_neg hadmit]
  simp only [hsrc, hwin, hal, hlen, decide_true, Bool.and_self, if_true, State.staging]

theorem onlyFields_fwRegs_keeps {l : List Fld} {u : State} (hl : [F.FW_VER_VERSION, F.FW_SVN_RUN, F.FW_SVN_COUNTER, F.FW_ALT_VERSION,
    F.PF_STAT_KEY_LOCK] ⊆ l) (h : keepsFields l u s) : keepsFields l u s.fwRegs := by
  intro g hg
  have hne (f : Fld) (hf : f ∈ [F.FW_VER_VERSION, F.FW_SVN_RUN, F.FW_SVN_COUNTER, F.FW_ALT_VERSION, F.PF_STAT_KEY_LOCK]) :
      g.key ≠ f.key := (hg f (hl hf)).symm
  unfold State.fwRegs State.flag
  rw [State.rd_wr_ne _ (hne _ (by simp)), State.rd_wr_ne _ (hne _ (by simp)), State.rd_wr_ne _ (hne _ (by simp)),
    State.rd_wr_ne _ (hne _ (by simp)), State.rd_wr_ne _ (hne _ (by simp))]
  exact h g hg

/-- The version registers follow; no other field does. -/
theorem State.rd_fwRegs {g : Fld} (hg : ∀ f ∈ [F.FW_VER_VERSION, F.FW_SVN_RUN, F.FW_SVN_COUNTER, F.FW_ALT_VERSION, F.PF_STAT_KEY_LOCK],
    f.key ≠ g.key) : s.fwRegs.rd g = s.rd g :=
  onlyFields_fwRegs_keeps (fun _ h => h) (fun _ _ => rfl) g hg

theorem State.exec_stageDone_bad {im : ImageInfo} (hst : s.rd F.FW_STAT_STATUS = 1) (him : im.ok = false) :
    exec (.stageDone im) s = .next (((s.modBoot fun q => { q with
      bankA := if s.boot.stagedBank = 0 then im else q.bankA, bankB := if s.boot.stagedBank = 0 then q.bankB else im }).wr
        F.FW_STAT_STATUS 6).fwRegs) := by
  change execStageDone im s = _
  rw [execStageDone, if_pos hst]
  simp only [him, Bool.not_false, if_true, State.ifDo]
  rfl

theorem State.updateAbort_of_idle (h : s.boot.updating = false) : s.updateAbort = s := if_pos (by simp [h])

theorem State.exec_update {a : Agent} (h : writable s a 0x0F0 0x05C) (hst : s.rd F.FW_STAT_STATUS = 2) (hspare : ∃ n < 12, s.role n = 0xE)
    (hlive : (s.imageOf s.boot.stagedBank).liveOk = true)
    (hver : (s.imageOf s.boot.stagedBank).recordVer = (s.imageOf (s.rd F.FW_STAT_BANK)).recordVer) :
    exec (.update a) s = .next ((((s.modBoot fun q => { q with updating := true, updMoved := [] }).wr F.FW_STAT_STATUS 3).wr
      F.FW_STAT_UPD_ROLE ((s.nextUpdRole 10).getD 0xF))) := by
  refine (fwPage_ok h _).trans (congrArg Host.Outcome.next ?_)
  have hany : ((List.range 12).any fun n => s.role n == 0xE) = true := by simpa using hspare
  have hst' : ¬ s.rd F.FW_STAT_STATUS ≠ 2 := fun hne => hne hst
  rw [if_neg hst']
  simp only [hany, hlive, hver, Bool.not_true, Bool.false_eq_true, if_false, bne_self_eq_false, Bool.or_self]

theorem State.exec_updateRoleMoved {n v q : Nat} (hupd : s.boot.updating = true) (hmoves : s.berths.moves = [])
    (hrole : s.rd F.FW_STAT_UPD_ROLE ≠ 0) (hfree : s.roleFree (s.rd F.FW_STAT_UPD_ROLE) = true) (hspare : s.spare = some n)
    (hhold : s.holder (s.rd F.FW_STAT_UPD_ROLE) = some v)
    (hnext : ((((s.wr (F.BR_ROLE_ROLE v) 0xE).wr (H.STATE (0x008 + v)) 3).takeRole n (s.rd F.FW_STAT_UPD_ROLE) s.time).modBoot
        fun b => { b with updMoved := (s.rd F.FW_STAT_UPD_ROLE, v) :: b.updMoved }).nextUpdRole (s.rd F.FW_STAT_UPD_ROLE) = some q) :
    exec (.updateRoleMoved true) s = .next (((((s.wr (F.BR_ROLE_ROLE v) 0xE).wr (H.STATE (0x008 + v)) 3).takeRole n
      (s.rd F.FW_STAT_UPD_ROLE) s.time).modBoot
        fun b => { b with updMoved := (s.rd F.FW_STAT_UPD_ROLE, v) :: b.updMoved }).wr F.FW_STAT_UPD_ROLE q) := by
  change execUpdateRoleMoved true s = _
  have hidle : ¬ (s.boot.updating = false ∨ s.berths.moves ≠ []) := by simp [hupd, hmoves]
  have hzero : (s.rd F.FW_STAT_UPD_ROLE == 0) = false := by simpa using hrole
  rw [execUpdateRoleMoved, if_neg hidle]
  simp only [brPage, hfree, Bool.not_true, Bool.false_eq_true, if_false, if_true, hspare, hhold, hzero, State.ifDo, hnext]

/-! ### The key store -/

theorem State.ldByte_of_mem {t : State} (h : t.mem = s.mem) (a : Nat) : t.ldByte a = s.ldByte a := by
  simp only [State.ldByte, h]

theorem State.event_mem_other (p i : Nat) (s : State) : (s.event p i).mem = s.mem := by simp

theorem State.fwRegs_mem (s : State) : s.fwRegs.mem = s.mem := rfl

/-- A run of zero bytes reads as zero everywhere in it. -/
theorem State.ldByte_stBytes_zero (n a b : Nat) (s : State) (h : a ≤ b ∧ b < a + n) :
    (s.stBytes a (List.replicate n 0)).ldByte b = 0 := by
  induction n generalizing a s with
  | zero => omega
  | succ n ih =>
    change ((s.stByte a 0).stBytes (a + 1) (List.replicate n 0)).ldByte b = 0
    by_cases hb : b = a
    · rw [State.ldByte_stBytes_out _ _ _ _ (by omega), hb, State.ldByte_stByte_same]
    · exact ih (a + 1) (s.stByte a 0) (by omega)

theorem State.ldByte_stBytes_zero_out (n a b : Nat) (s : State) (h : b < a ∨ a + n ≤ b) :
    (s.stBytes a (List.replicate n 0)).ldByte b = s.ldByte b :=
  State.ldByte_stBytes_out _ _ _ _ (by rwa [List.length_replicate])

theorem State.fwRegs_eq (s : State) : s.fwRegs = { s with regs := s.fwRegs.regs } := rfl

theorem leBytes_zero (n : Nat) : leBytes 0 n = List.replicate n 0 := by
  induction n with
  | zero => rfl
  | succ n ih => simp [leBytes, ih, List.replicate_succ]

/-- KEY_ERASE once it is admitted. -/
def State.keysErased (s : State) : State :=
  ((((s.stBytes 0x05310000 (List.replicate 512 0)).st 0x05310220 4 0).wr F.PF_STAT_STATUS 2).fwRegs).event 0x0F0 3

theorem State.ldByte_keysErased (b : Nat) (s : State) : s.keysErased.ldByte b =
    ((s.stBytes 0x05310000 (List.replicate 512 0)).stBytes 0x05310220 (List.replicate 4 0)).ldByte b :=
  State.ldByte_of_mem (by rw [State.keysErased, State.event_mem_other, State.fwRegs_mem, State.wr_mem, State.st, leBytes_zero]) b

theorem State.keysErased_keys {b : Nat} (h : 0x05310000 ≤ b ∧ b < 0x05310200) : s.keysErased.ldByte b = 0 := by
  rw [State.ldByte_keysErased, State.ldByte_stBytes_zero_out _ _ _ _ (by omega)]
  exact State.ldByte_stBytes_zero 512 _ _ s (by omega)

theorem State.keysErased_other {b : Nat} (h : b < 0x05310000 ∨ 0x05310224 ≤ b ∨ (0x05310200 ≤ b ∧ b < 0x05310220)) :
    s.keysErased.ldByte b = s.ldByte b := by
  rw [State.ldByte_keysErased, State.ldByte_stBytes_zero_out _ _ _ _ (by omega), State.ldByte_stBytes_zero_out _ _ _ _ (by omega)]

theorem State.keysErased_unlocked (s : State) : s.keysErased.keyLocked = false := by
  have hzero (b : Nat) (h : 0x05310220 ≤ b ∧ b < 0x05310224) : s.keysErased.ldByte b = 0 := by
    rw [State.ldByte_keysErased]
    exact State.ldByte_stBytes_zero 4 _ _ _ (by omega)
  simp [State.keyLocked, State.ld, State.ldBytes, leNat, hzero]

theorem State.exec_keyErase {a : Agent} (h : writable s a 0x0F0 0x064) : exec (.keyErase a) s = .next s.keysErased :=
  pfCmd_ok h _

/-! ### O16 -/

theorem State.staging_fields (s : State) : s.staging.rd F.FW_STAT_STATUS = 1 := by
  rw [State.staging, State.rd_fwRegs (by decide), State.rd_wr]
  rfl

theorem State.staging_boot (s : State) : s.staging.boot.stagedBank = 1 - s.rd F.FW_STAT_BANK := by
  rw [State.staging, State.fwRegs_eq]
  rfl

theorem State.staging_eq (s : State) : s.staging = { s with regs := s.staging.regs, boot := s.staging.boot } := by
  unfold State.staging
  rw [State.fwRegs_eq]
  rfl

theorem State.staging_keeps (s : State) : keepsFields [F.FW_STAT_STATUS, F.FW_VER_VERSION, F.FW_SVN_RUN, F.FW_SVN_COUNTER, F.FW_ALT_VERSION,
    F.PF_STAT_KEY_LOCK] s s.staging :=
  onlyFields_fwRegs_keeps (by simp) fun _ hg => by
    rw [State.rd_wr_ne _ (hg F.FW_STAT_STATUS (by simp)).symm]
    rfl

/-- Settles O16: each command in turn. -/
theorem firmwareCommands : Obligations.FirmwareCommands := by
  refine ⟨?stage, ?bad, ?notBusy, ?try_, ?update, ?idle, ?moved, ?accept, ?acceptBusy, ?abortIdle, ?abort, ?write, ?long, ?select, ?selectBusy,
    ?keyWrite, ?keyRefused, ?keyLock, ?keyErase, ?erased⟩
  case stage =>
    intro a w off s h hst hupd hsrc hwin hal hlen
    refine ⟨_, State.exec_stage h hst hupd hsrc hwin hal hlen, s.staging_fields, s.staging_boot, s.staging_eq, s.staging_keeps⟩
  case bad =>
    intro im s hst him
    refine ⟨_, State.exec_stageDone_bad hst him, ?_, ?_⟩
    · rw [State.rd_fwRegs (by decide), State.rd_wr]
      rfl
    · rw [State.fwRegs_eq]
      rfl
  case notBusy => exact fun im s hst => if_neg hst
  case try_ => exact fun a s h hst => (fwPage_ok h _).trans (congrArg Host.Outcome.next (if_pos hst))
  case update => exact fun a s h hst hspare hlive hver => State.exec_update h hst hspare hlive hver
  case idle => exact fun ok s hupd => if_pos (Or.inl hupd)
  case moved => exact fun n v q s hupd hmoves hrole hfree hspare hhold hnext => State.exec_updateRoleMoved hupd hmoves hrole hfree hspare hhold hnext
  case accept =>
    intro a s h hupd hdev
    refine (fwPage_ok h _).trans (congrArg Host.Outcome.next ?_)
    rw [if_neg (by simp [hupd]), if_pos hdev]
  case acceptBusy => exact fun a s h hupd => (fwPage_ok h _).trans (congrArg Host.Outcome.next (if_pos hupd))
  case abortIdle => exact fun a s h hupd => (fwPage_ok h _).trans (congrArg Host.Outcome.next (State.updateAbort_of_idle hupd))
  case abort => exact fun a s h => fwPage_ok h _
  case write =>
    intro a l u s h hlen hup
    refine (pfCmd_ok h _).trans (congrArg Host.Outcome.next ?_)
    simp only [if_pos hlen, hup]
  case long =>
    intro a s h hlen
    refine (pfCmd_ok h _).trans (congrArg Host.Outcome.next ?_)
    simp only [if_neg (Nat.not_le.mpr hlen)]
  case select =>
    intro a s h hdev hjobs hslot
    refine (pfCmd_ok h _).trans (congrArg Host.Outcome.next ?_)
    have hfree : ¬ (s.dev ≠ stReady ∨ s.tl.jobs ≠ []) := by simp [hdev, hjobs]
    simp only [if_neg hfree, hslot, if_true, mrPage]
  case selectBusy => exact fun a s h hdev => (pfCmd_ok h _).trans (congrArg Host.Outcome.next (if_pos hdev))
  case keyWrite =>
    intro a l u s h hkey hup
    refine (pfCmd_ok h _).trans (congrArg Host.Outcome.next ?_)
    simp only [hkey, Bool.false_eq_true, if_false, hup, mrPage]
  case keyRefused => exact fun a s h hkey => (pfCmd_ok h _).trans (congrArg Host.Outcome.next (if_pos hkey))
  case keyLock => exact fun a s h => pfCmd_ok h _
  case keyErase => exact fun a s h => State.exec_keyErase h
  case erased =>
    exact fun a s h => ⟨_, State.exec_keyErase h, fun b hlo hhi => State.keysErased_keys ⟨hlo, hhi⟩, s.keysErased_unlocked,
      fun b hb => State.keysErased_other hb⟩

end Sys2Proof.Machine
end

