-- ==== Sys2Proof/Proofs/Sequencer.lean ====
section
/-!
PROOFS. O17 to O19: the entries of a sequence, the rails, and the time-out of a cascade pin.
-/
namespace Sys2Proof.Machine

variable {s : State}

/-! ### Entries of a sequence and the queues of the supplies -/

theorem itemOf_rail {i : Nat} (h : isRail i = true) : i ≠ itCascOut ∧ i ≠ itCascWait := by
  simp [isRail, itCascOut, itCascWait] at h ⊢
  omega

/-- An entry of a rail, started. -/
theorem State.exec_sequenceEntryStart_rail {j : Fin 48} (hready : s.entryReady j = true)
    (hrail : isRail (seItem (s.seq.table.getD j itEnd)) = true) :
    exec (.sequenceEntryStart j) s = .next
      (if s.seq.dir = .up then
        ((s.modSeq fun q => { q with started := q.started.set j (some s.time) }).seqRegs).upItem (seItem (s.seq.table.getD j itEnd))
      else ((s.modSeq fun q => { q with started := q.started.set j (some s.time) }).seqRegs).downItem (seItem (s.seq.table.getD j itEnd))) := by
  obtain ⟨hout, hwait⟩ := itemOf_rail hrail
  change execSequenceEntryStart j s = _
  rw [execSequenceEntryStart, if_pos hready]
  simp only [if_neg hout, if_neg hwait]

theorem State.modSeq_congr {f g : Sequencer → Sequencer} (h : f s.seq = g s.seq) : s.modSeq f = s.modSeq g := by
  rw [State.modSeq, h, State.modSeq]

/-- Going up, the entry of the cascade output drives SEQ_UO. -/
theorem State.modSeq_cascOut (h : s.seq.dir = .up) :
    (s.modSeq fun q => if q.dir = .up then { q with uoLevel := true } else { q with doLevel := true }) =
      s.modSeq fun q => { q with uoLevel := true } :=
  State.modSeq_congr (if_pos h)

theorem State.exec_sequenceEntryStart_cascade {j : Fin 48} (hready : s.entryReady j = true)
    (hout : seItem (s.seq.table.getD j itEnd) = itCascOut) (hdir : s.seq.dir = .up) :
    exec (.sequenceEntryStart j) s = .next
      (((((s.modSeq fun q => { q with started := q.started.set j (some s.time) }).seqRegs).modSeq fun q => { q with uoLevel := true }).cascRegs).entryDone
        itCascOut) := by
  change execSequenceEntryStart j s = _
  rw [execSequenceEntryStart, if_pos hready]
  have hup : ((s.modSeq fun q => { q with started := q.started.set j (some s.time) }).seqRegs).seq.dir = .up := hdir
  simp only [hout, if_true, State.modSeq_cascOut hup]

theorem State.upItem_queued {i : Nat} (hrail : isRail i = true) (hoff : s.railState (i - 16) ≠ 2) (hdom : isDomain i = false) :
    s.upItem i = s.modSeq fun q =>
      { q with queues := q.queues.set (Fin.ofNat 4 (s.itemSup i)) (q.queues[Fin.ofNat 4 (s.itemSup i)] ++ [(i, s.time)]) } := by
  have hnot : (isDomain i && s.domState i == 2 || isRail i && s.railState (i - 16) == 2) = false := by simp [hdom, hrail, hoff]
  rw [State.upItem, hnot]
  rfl

theorem State.exec_itemAdmit {g : Fin 4} {i since : Nat} {r : List (Nat × Nat)} (hq : s.seq.queues[g] = (i, since) :: r)
    (hfit : s.inWindow g + s.itemWeight i ≤ s.psRd (F.PS_SUP_BUDGET g)) :
    exec (.itemAdmit g) s = .next
      (let t := (s.modSeq fun q => { q with queues := q.queues.set g r, ramping := q.ramping ++ [(i, s.time)] }).wr
         (F.PS_SUP_WAIT_MAX g) (max (s.rd (F.PS_SUP_WAIT_MAX g)) (min ((s.time - since) / 1000) 0xFFFF))
       (if isDomain i then t.wr (F.PD_CFG_STATE i) 1
        else (((t.wr (F.RAIL_CFG_STATE (Fin.ofNat 24 (i - 16))) 1).wr (F.RAIL_CFG_EN (Fin.ofNat 24 (i - 16))) 1).wr
          (F.RAIL_CFG_RESTARTS (Fin.ofNat 24 (i - 16))) 0).setRailAt (Fin.ofNat 24 (i - 16))).supRegs) := by
  change execItemAdmit g s = _
  rw [execItemAdmit]
  simp only [hq]
  rw [if_pos (Or.inl hfit)]
  rfl

theorem State.exec_itemAdmit_waits {g : Fin 4} {i since : Nat} {r : List (Nat × Nat)} (hq : s.seq.queues[g] = (i, since) :: r)
    (hover : s.psRd (F.PS_SUP_BUDGET g) < s.inWindow g + s.itemWeight i) (hbusy : s.inWindow g ≠ 0) :
    exec (.itemAdmit g) s = .next s := by
  change execItemAdmit g s = _
  rw [execItemAdmit]
  simp only [hq]
  exact if_neg (by omega)

/-- Settles O17: an entry by its item, an item by its kind, and the head of a queue by its supply's budget. -/
theorem sequenceEntries : Obligations.SequenceEntries := by
  refine ⟨?waits, ?cascade, ?up, ?down, ?queued, ?domain, ?rail, ?full⟩
  case waits => exact fun j s h => if_neg (by simp [h])
  case cascade => exact fun j s hready hout hdir => State.exec_sequenceEntryStart_cascade hready hout hdir
  case up => exact fun j s hready hrail hdir => (State.exec_sequenceEntryStart_rail hready hrail).trans (by rw [if_pos hdir])
  case down => exact fun j s hready hrail hdir => (State.exec_sequenceEntryStart_rail hready hrail).trans (by rw [if_neg (by simp [hdir])])
  case queued => exact fun i s hrail hoff hdom => State.upItem_queued hrail hoff hdom
  case domain => exact fun g i since r s hq hdom hfit => (State.exec_itemAdmit hq hfit).trans (by simp only [hdom, if_true])
  case rail =>
    exact fun g i since r s hq hdom hfit => (State.exec_itemAdmit hq hfit).trans (by simp only [hdom, Bool.false_eq_true, if_false])
  case full => exact fun g i since r s hq hover hbusy => State.exec_itemAdmit_waits hq hover hbusy

/-! ### Rails -/

theorem State.exec_railPgEdge_shown {n : Fin 24} (level : Bool) (h : s.rd (F.RAIL_CFG_STATE n) ≠ 1) :
    exec (.railPgEdge n level) s = .next
      ((s.modSeq fun q => { q with pgRaw := q.pgRaw.set n level, pgSince := q.pgSince.set n s.time }).flag (F.RAIL_CFG_PG n) level) :=
  if_neg fun hc => h hc.1

theorem State.exec_railPgEdge_restarts {n : Fin 24} (hst : s.rd (F.RAIL_CFG_STATE n) = 1) (hwas : s.seq.pgRaw[n] = true)
    (hfew : s.rd (F.RAIL_CFG_RESTARTS n) < 2) :
    exec (.railPgEdge n false) s = .next (((s.modSeq fun q => { q with pgRaw := q.pgRaw.set n false, pgSince := q.pgSince.set n s.time }).wr
      (F.RAIL_CFG_PG n) 0).wr (F.RAIL_CFG_RESTARTS n) (s.rd (F.RAIL_CFG_RESTARTS n) + 1)) := by
  change execRailPgEdge n false s = _
  rw [execRailPgEdge]
  have hthree : ¬ 3 ≤ s.rd (F.RAIL_CFG_RESTARTS n) + 1 := by omega
  rw [if_pos ⟨hst, hwas, rfl⟩]
  simp only [if_neg hthree]
  rfl

theorem State.exec_railQualified {n : Fin 24} (hpg : s.seq.pgRaw[n] = true)
    (hsince : s.seq.pgSince[n] + s.psRd (F.RAIL_CFG_T_QUAL n) * 10000 ≤ s.time)
    (hat : s.seq.railAt[n] + s.psRd (F.RAIL_CFG_T_QUAL n) * 10000 ≤ s.time)
    (hst : s.rd (F.RAIL_CFG_STATE n) = 1 ∨ s.rd (F.RAIL_CFG_STATE n) = 5) :
    exec (.railQualified n) s = .next (((s.wr (F.RAIL_CFG_STATE n) 2).closeRamp (16 + n.val)).entryDone (16 + n.val)) := by
  refine if_pos ⟨hpg, ?_, hst⟩
  unfold State.qualTicks
  split <;> omega

theorem State.exec_railQualified_waits {n : Fin 24}
    (h : s.seq.pgRaw[n] = false ∨ s.time < s.seq.pgSince[n] + s.psRd (F.RAIL_CFG_T_QUAL n) * 10000) :
    exec (.railQualified n) s = .next s := by
  refine if_neg fun ⟨hpg, htime, _⟩ => ?_
  rcases h with h | h
  · simp [h] at hpg
  · have hmax := Nat.le_max_left s.seq.pgSince[n] s.seq.railAt[n]
    unfold State.qualTicks at htime
    split at htime <;> omega

/-- Settles O18: each command at its condition. -/
theorem railCommands : Obligations.RailCommands := by
  refine ⟨?shown, ?restarts, ?qualified, ?waits, ?lost, ?timeout, ?fallOne, ?fallTwo, ?off, ?on⟩
  case shown => exact fun n level s h => State.exec_railPgEdge_shown level h
  case restarts => exact fun n s hst hwas hfew => State.exec_railPgEdge_restarts hst hwas hfew
  case qualified => exact fun n s hpg hsince hat hst => State.exec_railQualified hpg hsince hat hst
  case waits => exact fun n s h => State.exec_railQualified_waits h
  case lost => exact fun n s hst hpg htime => ⟨_, rfl, if_pos ⟨hst, hpg, htime⟩⟩
  case timeout => exact fun n s hst htime => if_pos ⟨hst, htime⟩
  case fallOne => exact fun n s hst htime => (if_pos htime).trans (if_pos hst)
  case fallTwo => exact fun n s hst htime => ((if_pos htime).trans (if_neg (by simp [State.railState, hst]))).trans (if_pos hst)
  case off => exact fun n s hoff hst => congrArg Host.Outcome.next (if_pos ⟨hoff, hst⟩)
  case on => exact fun n s hoff => congrArg Host.Outcome.next (if_neg (by simp [hoff]))

/-! ### The time-out of a cascade pin

Before FILL the sequencer reads its power block from the slot in MRAM (R27, R390). The statement of O19 reads PS_CASC_TO from the register. -/

/-- An up-sequence under way before FILL: its one entry has waited for SEQ_UI for 100 ms, the reset value of PS_CASC_TO, and the slot in MRAM asks for
6.5535 s. -/
def earlyCascadeWait : State :=
  { State.reset with
    time := 100000000
    mem := [(0x05000118, 0xFF), (0x05000119, 0xFF)]
    seq := { Sequencer.reset with dir := .up, table := [itCascWait], early := true, started := Sequencer.reset.started.set 0 (some 0) } }

theorem exec_cascadeWaitTimeout_early : exec .cascadeWaitTimeout earlyCascadeWait = .next earlyCascadeWait := by
  change execCascadeWaitTimeout earlyCascadeWait = _
  unfold execCascadeWaitTimeout
  generalize hfound : List.find? _ _ = waiting
  have hnone : waiting = none := hfound.symm.trans (by decide +kernel)
  rw [hnone]

/-- Refutes O19: before FILL the time-out of a cascade pin comes from the slot in MRAM, not from the register PS_CASC_TO. -/
theorem not_sequenceEnds : ¬ Obligations.SequenceEnds := by
  rintro ⟨-, -, -, -, -, -, -, -, -, -, -, -, -, -, -, htimeout, -⟩
  have hstep : exec .cascadeWaitTimeout earlyCascadeWait = .next (earlyCascadeWait.stepFail itCascWait 3) :=
    htimeout 0 0 earlyCascadeWait (by decide +kernel) (by decide +kernel) (by decide +kernel) (by decide +kernel) rfl
  have hsame : earlyCascadeWait = earlyCascadeWait.stepFail itCascWait 3 :=
    Host.Outcome.next.inj (exec_cascadeWaitTimeout_early.symm.trans hstep)
  have hitem : (earlyCascadeWait.stepFail itCascWait 3).rd F.PS_FAIL_ITEM ≠ earlyCascadeWait.rd F.PS_FAIL_ITEM := by decide +kernel
  exact hitem (congrArg (State.rd · F.PS_FAIL_ITEM) hsame.symm)

end Sys2Proof.Machine
end

