-- ==== Sys2Proof/Proofs/Power.lean ====
section
/-!
PROOFS. O20 and O21: power fail, SLACK and the core voltage.
-/
namespace Sys2Proof.Machine

variable {s : State}

/-! ### Power fail -/

theorem State.exec_pfw (h : s.seq.pfwSince = none) : exec .pfw s = .next
    (let t := ((({ s with pfwN := true, seq := { s.seq with pfwSince := some s.time, vinOkAt := none } } : State).wr F.PT_CFG_FEED_EN 0).wr F.PS_STAT_PFW 1)
     (t.logRecord 0x03 (s.inFlight.flatMap fun n => leBytes n 4)).raise 7 0x003 4) := by
  change execPfw s = _
  rw [execPfw, if_neg (by simp [h])]
  rfl

theorem State.exec_pfwHoldEnd {t : Nat} (h : s.seq.pfwSince = some t) : exec .pfwHoldEnd s =
    .next (if t + s.psRd F.PS_PFW_HOLD * 1000 ≤ s.time ∧ ¬ (s.dev = stOff ∧ s.seq.dir = .idle) then s.startDown false 2 else s) := by
  change execPfwHoldEnd s = _
  simp only [execPfwHoldEnd, h]

/-! ### SLACK -/

theorem list_snoc_induction {α : Type} {motive : List α → Prop} (nil : motive []) (snoc : ∀ l a, motive l → motive (l ++ [a])) (l : List α) :
    motive l := by
  have hreverse (r : List α) : motive r.reverse := by
    induction r with
    | nil => exact nil
    | cons a r ih => exact List.reverse_cons ▸ snoc _ a ih
  exact List.reverse_reverse l ▸ hreverse l.reverse

/-- The state written by SLACK_EXIT for the domains, as one list of writes. -/
theorem State.rd_each_wr (l : List Nat) (v : Nat) (hv : v % 4 = v) (s : State) (d : Nat) (hd : d ∈ l) :
    (s.each l fun d t => t.wr (F.PD_CFG_STATE d) v).rd (F.PD_CFG_STATE d) = v := by
  induction l using list_snoc_induction with
  | nil => simp at hd
  | snoc l e ih =>
    have hsnoc : (s.each (l ++ [e]) fun d t => t.wr (F.PD_CFG_STATE d) v) =
        (s.each l fun d t => t.wr (F.PD_CFG_STATE d) v).wr (F.PD_CFG_STATE e) v := by simp [State.each]
    rw [hsnoc]
    by_cases he : d = e
    · rw [he, State.rd_wr]
      exact hv
    · rw [State.rd_wr_ne _ (by simp only [Fld.key, F.PD_CFG_STATE]; omega)]
      exact ih (by simpa [he] using hd)

theorem State.modSeq_rd (f : Sequencer → Sequencer) (g : Fld) : (s.modSeq f).rd g = s.rd g := rfl

/-- Every domain ON, and the idle time restarted. -/
def State.slackLeft (now : Nat) (s : State) : State :=
  (s.each ((List.range 11).map (· + 1)) fun d t => t.wr (F.PD_CFG_STATE d) 2).modSeq fun q => { q with slackExit := false, idleSince := now }

theorem State.rd_slackLeft {d now : Nat} (hlo : 1 ≤ d) (hhi : d ≤ 11) : (s.slackLeft now).rd (F.PD_CFG_STATE d) = 2 := by
  rw [State.slackLeft, State.modSeq_rd]
  exact State.rd_each_wr _ 2 rfl s d (List.mem_map.mpr ⟨d - 1, List.mem_range.mpr (by omega), by omega⟩)

theorem State.exec_slackExit (hdev : s.dev = stSlack) (hexit : s.seq.slackExit = true) (hdir : s.seq.dir = .idle) :
    ∃ v : State, exec .slackExit s = .next ((((v.slackLeft s.time).wr (H.STATE 0x003) 2).event 0x003 3).devTo stReady) := by
  have hstep : execSlackExit s = _ := if_pos ⟨hdev, hexit, hdir⟩
  exact ⟨_, hstep⟩

/-- Settles O20: each command at its condition; SLACK is left with every domain written ON. -/
theorem powerFailAndSlack : Obligations.PowerFailAndSlack := by
  refine ⟨?pfw, ?again, ?hold, ?before, ?recover, ?autoUp, ?noVin, ?enter, ?stays, ?exit_, ?outside⟩
  case pfw => exact fun s h => State.exec_pfw h
  case again => exact fun t s h => if_pos (by simp [h])
  case hold => exact fun t s h htime hdev => (State.exec_pfwHoldEnd h).trans (congrArg Host.Outcome.next (if_pos ⟨htime, fun hoff => hdev hoff.1⟩))
  case before => exact fun t s h htime => (State.exec_pfwHoldEnd h).trans (congrArg Host.Outcome.next (if_neg fun hc => absurd hc.1 (by omega)))
  case recover => exact fun s => rfl
  case autoUp =>
    intro t s h hauto hkind hdir htime
    change execPfwAutoUp s = _
    simp only [execPfwAutoUp, h, hauto, hkind, hdir, htime, and_self, if_true]
  case noVin =>
    intro s h
    change execPfwAutoUp s = _
    simp only [execPfwAutoUp, h]
  case enter => exact fun s hidle hready htime => if_pos ⟨hidle, hready, htime⟩
  case stays =>
    intro s h
    refine if_neg fun ⟨hidle, hready, _⟩ => ?_
    simp [hidle, hready] at h
  case exit_ =>
    intro s hdev hexit hdir
    obtain ⟨v, hstep⟩ := State.exec_slackExit hdev hexit hdir
    exact ⟨_, hstep, v.slackLeft s.time, rfl, rfl, rfl, fun d hlo hhi => State.rd_slackLeft hlo hhi⟩
  case outside => exact fun s h => if_neg fun hc => h hc.1

/-! ### The core voltage -/

theorem State.avsPair_of_lt (h : s.rd F.PS_AVS2_DN_TH < s.rd F.PS_AVS2_UP_TH) : s.avsPair =
    s.modSeq fun q => { q with pairUp := s.rd F.PS_AVS2_UP_TH, pairDn := s.rd F.PS_AVS2_DN_TH } := if_pos h

/-- AVS_EVALUATE up to its decision. -/
def State.avsSampled (us : List Nat) (s : State) : State :=
  (s.wr F.PS_UTIL_UMAX (us.foldl max 0)).modSeq fun q =>
    { q with pairUp := s.rd F.PS_AVS2_UP_TH, pairDn := s.rd F.PS_AVS2_DN_TH,
             lowRun := if us.foldl max 0 < s.rd F.PS_AVS2_DN_TH then s.seq.lowRun + 1 else 0 }

theorem State.exec_avsEvaluate (us : List Nat) (low : Bool) (h : s.rd F.PS_AVS2_DN_TH < s.rd F.PS_AVS2_UP_TH) :
    exec (.avsEvaluate us low) s =
      if (s.avsSampled us).avsFree then
        if (s.avsSampled us).avsTarget (us.foldl max 0) low = (s.avsSampled us).rd F.PS_VCORE_VSET then .next (s.avsSampled us)
        else .next ((((((s.avsSampled us).wr F.PS_VCORE_VSET ((s.avsSampled us).avsTarget (us.foldl max 0) low)).emit
          (.avs ((s.avsSampled us).avsTarget (us.foldl max 0) low))).event 0x003 4)).modSeq fun q => { q with avsAt := s.time, lowRun := 0 })
      else .next (s.avsSampled us) := by
  have hup : (s.wr F.PS_UTIL_UMAX (us.foldl max 0)).rd F.PS_AVS2_UP_TH = s.rd F.PS_AVS2_UP_TH := s.rd_wr_ne (by decide) _
  have hdn : (s.wr F.PS_UTIL_UMAX (us.foldl max 0)).rd F.PS_AVS2_DN_TH = s.rd F.PS_AVS2_DN_TH := s.rd_wr_ne (by decide) _
  have hsampled : ((s.wr F.PS_UTIL_UMAX (us.foldl max 0)).avsPair.modSeq fun q =>
      { q with lowRun := if us.foldl max 0 < q.pairDn then q.lowRun + 1 else 0 }) = s.avsSampled us := by
    rw [State.avsPair_of_lt (by rwa [hup, hdn]), hup, hdn]
    rfl
  change execAvsEvaluate us low s = _
  simp only [execAvsEvaluate, hsampled, psPage, State.event_time, State.emit_time, State.wr_time]
  rfl

theorem State.exec_avsReadback_some (v : Nat) : exec (.avsReadbackCheck (some v)) s =
    .next (if s.seq.avsAt + 200000 ≤ s.time ∧ (s.rd F.PS_VCORE_VSET + 20 < v ∨ v + 20 < s.rd F.PS_VCORE_VSET)
      then ((s.wr F.PS_VCORE_VREAD v).modSeq fun q => { q with avsBad := 0 }).raise 8 0x003 6
      else (s.wr F.PS_VCORE_VREAD v).modSeq fun q => { q with avsBad := 0 }) := by
  have hset : ((s.wr F.PS_VCORE_VREAD v).modSeq fun q => { q with avsBad := 0 }).rd F.PS_VCORE_VSET = s.rd F.PS_VCORE_VSET :=
    (s.rd_wr_ne (by decide) v : (s.wr F.PS_VCORE_VREAD v).rd F.PS_VCORE_VSET = _)
  change execAvsReadbackCheck (some v) s = _
  simp only [execAvsReadbackCheck, hset, psPage]
  rfl

theorem State.exec_avsReadback_third (h : s.seq.avsBad = 2) : exec (.avsReadbackCheck none) s = .next
    (((s.modSeq fun q => { q with avsBad := 3, avsStop := true }).wr F.PS_VCORE_VSET 800).raise 8 0x003 5) := by
  refine (if_pos (congrArg (· + 1) h)).trans ?_
  have hbad : (s.modSeq fun q => { q with avsBad := q.avsBad + 1 }) = s.modSeq fun q => { q with avsBad := 3 } := by
    simp only [State.modSeq, h]
  rw [hbad]
  rfl

/-- Settles O21: the sample, the read-back and the target. -/
theorem vcoreCommands : Obligations.VcoreCommands := by
  refine ⟨?evaluate, ?near, ?far, ?bad, ?third, ?target⟩
  case evaluate =>
    intro us low s hpair
    refine ⟨fun h => ?_, fun hfree hne => ?_⟩
    · rw [State.exec_avsEvaluate us low hpair]
      rcases h with hheld | hsame
      · exact if_neg (by rw [State.avsSampled, hheld]; simp)
      · split
        · exact if_pos hsame
        · rfl
    · rw [State.exec_avsEvaluate us low hpair]
      exact (if_pos hfree).trans (if_neg hne)
  case near => exact fun v s hhi hlo => (State.exec_avsReadback_some v).trans (congrArg Host.Outcome.next (if_neg (by omega)))
  case far => exact fun v s hoff htime => (State.exec_avsReadback_some v).trans (congrArg Host.Outcome.next (if_pos ⟨htime, hoff⟩))
  case bad => exact fun s h => if_neg fun hc => h (Nat.succ.inj hc)
  case third => exact fun s h => State.exec_avsReadback_third h
  case target =>
    intro m low s
    simp only [State.avsTarget, Bool.and_eq_true, decide_eq_true_eq, Bool.not_eq_true']

end Sys2Proof.Machine
end

