-- ==== Sys2Proof/Proofs/PageTimeline.lean ====
section
/-!
PROOFS. O23 to O25: runs and announce instants, the feed gate, and the instants of a fed page.
-/
namespace Sys2Proof.Machine

variable {s : State}

/-! ### Runs and announce instants -/

/-- An announce instant is due. -/
def State.announceDue (s : State) : Prop :=
  s.rd (H.STATE 0x041) = 1 ∧ s.tl.nextExp ≤ s.time + s.rd F.PT_FEED_LEAD_TICKS + s.rd F.PT_ANN_LEAD_TICKS

theorem State.exec_announceInstant (hdue : s.announceDue) (hrun : s.tl.emptyRun ≠ 4) : exec .announceInstant s =
    if !s.on F.PT_CFG_FEED_EN then .next (s.plainPitch .empty 0)
    else if s.rd F.PT_SKIP_REMAIN ≠ 0 then
      .next ((s.wr F.PT_SKIP_REMAIN (s.rd F.PT_SKIP_REMAIN - 1)).plainPitch .requested 0)
    else
      match s.headPage.bind s.page? with
      | none => .next (s.plainPitch .empty 0)
      | some p => .next (if p.st = .released ∧ p.storedAt ≠ some s.time then s.sheetPitch p else s.plainPitch .notResident p.id) :=
  (if_pos hdue).trans (if_neg hrun)

theorem State.plainPitch_empty (hfeed : s.on F.PT_CFG_FEED_EN = false) (hfed : s.tl.fedCount ≠ 0) : s.plainPitch .empty 0 =
    (s.modTl fun t => { t with
      pitches := t.pitches ++ [⟨t.nextExp, .empty, 0, 0, false, false, .pending, false⟩], emptyRun := t.emptyRun + 1 }).nextAnchor
        (s.tl.nextExp + s.tl.lastPitch) := by
  have hcount : (s.tl.fedCount == 0) = false := by simpa using hfed
  have hlast : s.lastPitch = s.tl.lastPitch := if_neg hfed
  simp only [State.plainPitch, hfeed, hcount, hlast, Bool.false_and, State.ifDo, Bool.false_eq_true, if_false]
  rfl

/-- Settles O23: the start of a run, each kind of announce instant, and PT_SKIP. -/
theorem runsAndAnnounces : Obligations.RunsAndAnnounces := by
  refine ⟨?start, ?stays, ?ends, ?empty, ?skip, ?sheet, ?idle, ?ptSkip⟩
  case start => exact fun s h => if_pos h
  case stays => exact fun s h => if_neg (by simp [h])
  case ends => exact fun s hst hdue hrun => (if_pos ⟨hst, hdue⟩).trans (if_pos hrun)
  case empty =>
    intro s hst hdue hrun hfeed hfed
    rw [State.exec_announceInstant ⟨hst, hdue⟩ hrun, if_pos (by simp [hfeed]), State.plainPitch_empty hfeed hfed]
  case skip =>
    intro s hst hdue hrun hfeed hskip
    rw [State.exec_announceInstant ⟨hst, hdue⟩ hrun, if_neg (by simp [hfeed]), if_pos hskip]
  case sheet =>
    intro p s hst hdue hrun hfeed hskip hpage hrel hstored
    rw [State.exec_announceInstant ⟨hst, hdue⟩ hrun, if_neg (by simp [hfeed]), if_neg (by simp [hskip])]
    simp only [hpage]
    rw [if_pos ⟨hrel, hstored⟩]
  case idle => exact fun s h => if_neg fun hc => h hc.1
  case ptSkip =>
    intro a n s h hn
    refine (congrArg Host.Outcome.next (s.write_ok h _)).trans ?_
    rw [Nat.mod_eq_of_lt hn]

/-! ### The feed gate -/

/-- The state in which a pitch meets its gate: the sets of its boundary applied, the pitch taken from the list. -/
def State.atGate (q : Pitch) (r : List Pitch) (s : State) : State :=
  ((s.ptBoundary.boundary 0x0A8).pathLevel.modTl fun t => { t with pitches := r, pitchNo := t.pitchNo + 1 }).rePitch q

theorem State.exec_feedGate {q : Pitch} {r : List Pitch} (hq : s.tl.pitches = q :: r) (hdue : q.texp ≤ s.time + s.rd F.PT_FEED_LEAD_TICKS) :
    exec .feedGate s =
      if q.kind = .empty then .next (s.atGate q r)
      else match (s.atGate q r).pathReport.page? q.page, (s.atGate q r).pathReport.freeSlotIndex with
        | some p, some i => .next (if (s.atGate q r).pathReport.feedReasons q = 0 then (s.atGate q r).pathReport.feedPass q p i
            else (s.atGate q r).pathReport.feedFail q ((s.atGate q r).pathReport.feedReasons q))
        | _, _ => .next ((s.atGate q r).pathReport.feedFail q ((s.atGate q r).pathReport.feedReasons q)) := by
  change execFeedGate s = _
  simp only [execFeedGate, hq]
  exact if_pos hdue

theorem State.sendFeed_slots (sheet len texp : Nat) (s : State) : (s.sendFeed sheet len texp).tl.slots = s.tl.slots := by
  unfold State.sendFeed
  dsimp only
  split <;> rfl

theorem State.dequeue_slots (id : Nat) (s : State) : (s.dequeue id).tl.slots = s.tl.slots := rfl

theorem State.ifDo_sat_tl (b : Bool) (f : Fld) (s : State) : (s.ifDo b (·.sat f)).tl = s.tl := by
  cases b <;> rfl

/-- A page that passes takes the slot it is given. -/
theorem State.feedPass_slots (q : Pitch) (p : Page) (i : Fin 16) (s : State) : ∃ sl : Slot,
    (s.feedPass q p i).tl.slots = s.tl.slots.set i (some sl) ∧ sl.page = p.id ∧ sl.sheet = q.sheet ∧ sl.texp = q.texp ∧
    sl.anchor = none ∧ sl.speed = s.rd F.PT_SPEED_SPEED ∧ sl.sheetLen = p.sheetLen ∧ sl.stations = s.jobStations p.job := by
  apply Exists.intro
  constructor
  · unfold State.feedPass
    rw [State.sendFeed_slots]
    simp only [State.queueRegs, State.emit_tl, State.wr_tl, State.ifDo_sat_tl]
    rfl
  · exact ⟨rfl, rfl, rfl, rfl, rfl, rfl, rfl⟩

/-- Settles O24: the gate by the pitch it meets. -/
theorem feedGate : Obligations.FeedGate := by
  refine ⟨?none_, ?early, ?gate, ?slot, ?fail⟩
  case none_ =>
    intro s h
    change execFeedGate s = _
    simp only [execFeedGate, h]
  case early =>
    intro q r s hq hearly
    change execFeedGate s = _
    simp only [execFeedGate, hq]
    exact if_neg (by omega)
  case gate =>
    intro q r s hq hdue
    refine ⟨fun hkind => ?_, fun p i hkind hpage hfree hpass => ?_, fun hkind hfail => ?_⟩
    · rw [State.exec_feedGate hq hdue, if_pos hkind]
      rfl
    · have hpage' : (s.atGate q r).pathReport.page? q.page = some p := hpage
      have hfree' : (s.atGate q r).pathReport.freeSlotIndex = some i := hfree
      have hpass' : (s.atGate q r).pathReport.feedReasons q = 0 := hpass
      rw [State.exec_feedGate hq hdue, if_neg hkind]
      simp only [hpage', hfree']
      exact congrArg Host.Outcome.next (if_pos hpass')
    · have hfail' : (s.atGate q r).pathReport.feedReasons q ≠ 0 := hfail
      rw [State.exec_feedGate hq hdue, if_neg hkind]
      simp only [if_neg hfail']
      split <;> rfl
  case slot =>
    intro q p i s
    obtain ⟨sl, hslots, hfields⟩ := s.feedPass_slots q p i
    exact ⟨sl, by rw [hslots]; simp, hfields⟩
  case fail => exact fun q reasons s hkind _ => if_neg hkind

/-! ### Anchor, commit, divert and exit -/

theorem State.exec_anchorWindowEnd {i : Fin 16} {sl : Slot} {p : Page} (hslot : s.tl.slots[i] = some sl) (hanchor : sl.anchor = none)
    (hmissed : sl.missed = false) (hblank : sl.blank = false) (hend : sl.texp + sl.win + s.filt (s.rd F.PT_CFG_ANCHOR_SRC) < s.time)
    (hpage : s.page? sl.page = some p) (hkept : p.st ≠ .retired) :
    exec (.anchorWindowEnd i) s =
      .next (((s.modSlot i fun x => { x with missed := true }).emit (.toRole 3 3 sl.sheet)).failCommit i 0x20) := by
  have hpage' : ((s.modSlot i fun x => { x with missed := true }).emit (.toRole 3 3 sl.sheet)).page? sl.page = some p := hpage
  have hret : (p.st == PgState.retired) = false := by simpa using hkept
  change execAnchorWindowEnd i s = _
  simp only [execAnchorWindowEnd, hslot]
  rw [if_pos ⟨hanchor, hmissed, hend⟩]
  simp only [hblank, Bool.false_eq_true, if_false, hpage', Option.map_some, Option.getD_some, hret]

/-- The commit gate of a page that meets it. -/
theorem State.exec_commitGate {i : Fin 16} {sl : Slot} {a : Nat} {p : Page} (hslot : s.tl.slots[i] = some sl) (hanchor : sl.anchor = some a)
    (hst : s.rd (F.PT_SLOT_STATE i) = 1) (hblank : sl.blank = false) (hdue : s.commitAt sl a ≤ s.time) (hpage : s.feedFirst.page? sl.page = some p) :
    exec (.commitGate i) s = .next
      (let reasons := s.feedFirst.commitReasons sl
       let d := (s.feedFirst.boundary 0x040).trailerDecide (reasons == 0) sl i a
       if reasons = 0 then d.2.commitPass i sl p a d.1 else d.2.failCommit i reasons) := by
  have hmeets : ¬ (s.rd (F.PT_SLOT_STATE i) ≠ 1 ∨ sl.blank = true ∨ (s.time : Int) < s.commitAt sl a) := by
    simp [hst, hblank, hdue]
  change execCommitGate i s = _
  simp only [execCommitGate, hslot, hanchor]
  rw [if_neg hmeets]
  simp only [hpage]

theorem State.exec_divertDeadline {i : Fin 16} {sl : Slot} (hslot : s.tl.slots[i] = some sl) : exec (.divertDeadline i) s =
    if sl.anchor.getD sl.texp + sl.divert ≤ s.time ∧ ((s.rd (F.PT_SLOT_STATE i) = 4 ∧ s.rd (F.PT_SLOT_CAUSE i) ≠ lcJam) ∨ sl.blank = true) then
      .next (s.emit (.toRole 3 2 sl.sheet)) else .next s := by
  change execDivertDeadline i s = _
  simp only [execDivertDeadline, hslot]

theorem State.exec_exitWindowEnd {i : Fin 16} {sl : Slot} (hslot : s.tl.slots[i] = some sl)
    (hend : sl.exitAt + sl.win + s.filt (s.rd F.PT_CFG_EXIT_SRC) < s.time) :
    exec (.exitWindowEnd i) s = .next (((s.exitJam i sl).freeSlot i).queueRegs) := by
  change execExitWindowEnd i s = _
  simp only [execExitWindowEnd, hslot]
  exact if_pos hend

/-- Settles O25: each instant of a fed page. -/
theorem pageInstants : Obligations.PageInstants := by
  refine ⟨?anchor, ?noAnchor, ?commitFails, ?commits, ?noCommit, ?diverts, ?before, ?exits, ?jams, ?noExit⟩
  case anchor =>
    exact fun i sl p s hslot hanchor hmissed hblank hend hpage hkept =>
      State.exec_anchorWindowEnd hslot hanchor hmissed hblank hend hpage hkept
  case noAnchor =>
    intro i s h
    change execAnchorWindowEnd i s = _
    simp only [execAnchorWindowEnd, h]
  case commitFails =>
    intro i sl a p s hslot hanchor hst hblank hdue hpage hfails
    have hzero : (s.feedFirst.commitReasons sl == 0) = false := by simpa using hfails
    rw [State.exec_commitGate hslot hanchor hst hblank hdue hpage]
    simp only [hzero, if_neg hfails]
  case commits =>
    intro i sl a p s hslot hanchor hst hblank hdue hpage hpass
    rw [State.exec_commitGate hslot hanchor hst hblank hdue hpage]
    simp only [hpass, if_true, beq_self_eq_true]
  case noCommit =>
    intro i s h
    change execCommitGate i s = _
    simp only [execCommitGate, h]
  case diverts => exact fun i sl s hslot hdue hlost => (State.exec_divertDeadline hslot).trans (if_pos ⟨hdue, hlost⟩)
  case before => exact fun i sl s hslot hearly => (State.exec_divertDeadline hslot).trans (if_neg fun hc => absurd hc.1 (by omega))
  case exits =>
    intro i sl s hslot hend hst
    rw [State.exec_exitWindowEnd hslot hend, State.exitJam, if_neg hst]
  case jams => exact fun i sl s hslot hend _ => State.exec_exitWindowEnd hslot hend
  case noExit =>
    intro i s h
    change execExitWindowEnd i s = _
    simp only [execExitWindowEnd, h]

end Sys2Proof.Machine
end

