-- ==== Sys2Proof/Proofs/Codec.lean ====
section
/-!
PROOFS. O27 and O28: the decode of separations and the encode jobs.
-/
namespace Sys2Proof.Machine

variable {s : State}

/-! ### The decode of separations -/

theorem State.exec_separationWritten {id : Nat} {k : Fin 6} {lane : Fin 8} {p : Page} {q : Sep} {b : List Nat} {h : StreamHeader} {t : State}
    (hsep : s.sepAt id k = some (p, q)) (hst : p.st = .defined) (hstored : q.stored = false) (hcomplete : q.complete = true)
    (hbytes : s.streamBytes q 0 24 (.lane (Fin.ofNat 10 lane.val)) = (some b, t)) (hstream : parseStream (b.take 16) = some h)
    (hblock : (parseBlock (b.drop 16)).isSome = true) (hok : t.streamOk p h = true) (hcovers : q.covers 0 24 = true) :
    exec (.separationWritten id k lane) s = .next (t.sepStored p q) := by
  obtain ⟨g, hg⟩ := Option.isSome_iff_exists.mp hblock
  have hwritten : ¬ (p.st ≠ .defined ∨ q.stored = true ∨ q.complete = false) := by simp [hst, hstored, hcomplete]
  change execSeparationWritten id k lane s = _
  simp only [execSeparationWritten, hsep]
  rw [if_neg hwritten]
  simp only [hbytes, hstream, hg, hok, hcovers, Bool.and_self, if_true]

theorem State.exec_firstHeaderFetch {id : Nat} {k : Fin 6} {lane : Fin 8} {p : Page} {q : Sep} {x : Fin 24} {b : List Nat} {t : State}
    (hsep : s.sepAt id k = some (p, q)) (hctx : (List.finRange 24).find? (fun (x : Fin 24) => !s.on (F.CTX_OPEN x)) = some x)
    (hst : p.st = .fed) (hstored : q.stored = true) (hlane : s.laneOpen lane = true) (hfew : (s.ctxsOf k).length < 4)
    (hnew : ((s.ctxsOf k).any fun y => s.rd (F.CTX_PAGE_ID y) == id) = false)
    (hring : (s.wr (F.IM_WINDOW_NEED k.val) (s.needLines k s.time)).ringBig k s.time = true)
    (hbytes : (s.wr (F.IM_WINDOW_NEED k.val) (s.needLines k s.time)).streamBytes q 16 8 (.lane (Fin.ofNat 10 lane.val)) = (some b, t)) :
    exec (.firstHeaderFetch id k lane) s = .next ((((((t.wr (F.CTX_PAGE_ID x) id).wr (F.CTX_STATION x) k.val).wr (F.CTX_OPEN x) 1).wr (F.CTX_LANE x) 0xF).wr
      (F.CTX_BLOCKS x) 0).modCtx x fun _ => { Ctx.reset with off := 16 }).codecRegs := by
  have hmay : ¬ (p.st ≠ .fed ∨ q.stored = false ∨ s.laneOpen lane = false ∨ 4 ≤ (s.ctxsOf k).length ∨
      ((s.ctxsOf k).any fun y => s.rd (F.CTX_PAGE_ID y) == id) = true) := by
    simp only [hst, hstored, hlane, hnew, ne_eq, not_true_eq_false, Bool.true_eq_false, Bool.false_eq_true, false_or, or_false]
    omega
  change execFirstHeaderFetch id k lane s = _
  simp only [execFirstHeaderFetch, hsep, hctx]
  rw [if_neg hmay]
  simp only [hring, hbytes, Bool.not_true, Bool.false_eq_true, if_false]

theorem State.exec_decodeBlockStart {lane : Fin 8} {x : Fin 24} {p : Page} {q : Sep} (hlane : s.laneOpen lane = true) (hnext : s.nextCtx = some x)
    (hsep : s.sepAt (s.rd (F.CTX_PAGE_ID x)) (s.ctxStation x) = some (p, q)) (hstarted : (s.ctx x).started = true)
    (hagain : (s.ctx x).again = false) :
    exec (.decodeBlockStart lane) s = .next
      ((((s.wr (F.CTX_LANE x) lane).wr (F.DL_STAT_CTX lane) x.val).wr (H.STATE (0x049 + lane)) 1).codecRegs) := by
  have hagain' : ((((s.wr (F.CTX_LANE x) lane).wr (F.DL_STAT_CTX lane) x.val).wr (H.STATE (lanePage lane)) 1).ctx x).again = false := hagain
  change execDecodeBlockStart lane s = _
  rw [execDecodeBlockStart, if_neg (by simp [hlane])]
  simp only [hnext, hsep, hagain', hstarted, State.ifDo, Bool.false_eq_true, if_false, if_true]
  rfl

/-- The block a lane works on, once the context and its separation are known. -/
theorem State.exec_decodeBlockDone {lane : Fin 8} {x : Fin 24} {p : Page} {q : Sep} {b : List Nat} {t : State}
    (hx : s.rd (F.DL_STAT_CTX lane) = x.val) (hsep : s.sepAt (s.rd (F.CTX_PAGE_ID x)) (s.ctxStation x) = some (p, q))
    (hcovers : q.covers (s.ctx x).off 8 = true)
    (hbytes : s.streamBytes q (s.ctx x).off 8 (.lane (Fin.ofNat 10 lane.val)) = (some b, t)) :
    exec (.decodeBlockDone lane) s =
      match parseBlock b with
      | none => .next (t.jobFail lane x 1 (s.ctx x).off false)
      | some h =>
        let e := headError p.alpha h (t.ctx x).done (p.lineBytes * p.lines)
        if e ≠ 0 then .next (t.jobFail lane x e (s.ctx x).off false)
        else if !q.covers ((s.ctx x).off + 8) h.bodyLen then .next (t.jobFail lane x 3 (s.ctx x).off false)
        else
          match t.streamBytes q ((s.ctx x).off + 8) h.bodyLen (.lane (Fin.ofNat 10 lane.val)) with
          | (none, u) => .next (u.jobFail lane x 8 (s.ctx x).off (t.poisoned q ((s.ctx x).off + 8) h.bodyLen))
          | (some body, u) =>
            match decodeBlock p.alpha h body with
            | .inl code => .next (u.jobFail lane x code (s.ctx x).off false)
            | .inr out => .next (u.blockDone lane x q p.lineBytes h out) := by
  have hlt : s.rd (F.DL_STAT_CTX lane) < 24 := hx ▸ x.isLt
  change execDecodeBlockDone lane s = _
  rw [execDecodeBlockDone, dif_pos hlt]
  simp only [hx, hsep, hcovers, hbytes, Bool.not_true, Bool.false_eq_true, if_false] <;> rfl

theorem State.exec_zeroFillLine {x : Fin 24} {p : Page} (hopen : s.on (F.CTX_OPEN x) = true) (hzero : (s.ctx x).zero = true)
    (hstarted : (s.ctx x).started = true) (hpage : s.page? (s.rd (F.CTX_PAGE_ID x)) = some p)
    (hring : (s.ring (s.ctxStation x)).page = some (s.rd (F.CTX_PAGE_ID x)))
    (hleft : (s.ring (s.ctxStation x)).pub < (s.ring (s.ctxStation x)).lines) (hroom : s.ringRoom x 1 = true) :
    exec (.zeroFillLine x) s = .next
      (let t := (s.bankPuts (s.ringAddr (s.ctxStation x) (s.ring (s.ctxStation x)).pub) (List.replicate p.lineBytes 0)).publish (s.ctxStation x)
         ((s.ring (s.ctxStation x)).pub + 1)
       if (t.ring (s.ctxStation x)).lines ≤ (t.ring (s.ctxStation x)).pub then t.ctxEnd x else t) := by
  change execZeroFillLine x s = _
  simp only [execZeroFillLine, hopen, hzero, hstarted, hpage, hring, bne_self_eq_false, Bool.not_true, Bool.or_self, Bool.and_false,
    Bool.false_and, State.ifDo, Bool.false_eq_true, if_false]
  rw [if_neg (by omega)]
  simp only [hroom, Bool.not_true, Bool.false_eq_true, if_false]

/-- Settles O27: each command on its way through. -/
theorem decodeCommands : Obligations.DecodeCommands := by
  refine ⟨?written, ?noSep, ?fetch, ?fetchClosed, ?startClosed, ?startNone, ?start, ?done, ?unparsed, ?noBlock, ?noZero, ?zero⟩
  case written =>
    exact fun id k lane p q b h s t hsep hst hstored hcomplete hbytes hstream hblock hok hcovers =>
      State.exec_separationWritten hsep hst hstored hcomplete hbytes hstream hblock hok hcovers
  case noSep =>
    intro id k lane s h
    change execSeparationWritten id k lane s = _
    simp only [execSeparationWritten, h]
  case fetch =>
    exact fun id k lane p q x b s t hsep hctx hst hstored hlane hfew hnew hring hbytes =>
      State.exec_firstHeaderFetch hsep hctx hst hstored hlane hfew hnew hring hbytes
  case fetchClosed =>
    intro id k lane s h
    change execFirstHeaderFetch id k lane s = _
    unfold execFirstHeaderFetch
    split
    · exact if_pos (.inr (.inr (.inl h)))
    · rfl
  case startClosed => exact fun lane s h => if_pos h
  case startNone =>
    intro lane s hlane hnext
    refine (if_neg (by simp [hlane])).trans ?_
    simp only [hnext]
  case start =>
    exact fun lane x p q s hlane hnext hsep hstarted hagain => State.exec_decodeBlockStart hlane hnext hsep hstarted hagain
  case done =>
    intro lane x p q b h body out s t u hx hsep hcovers hbytes hblock hhead hbody hread hdecode
    rw [State.exec_decodeBlockDone hx hsep hcovers hbytes]
    simp only [hblock, hhead, hbody, hread, hdecode, ne_eq, not_true_eq_false, Bool.not_true, Bool.false_eq_true, if_false]
  case unparsed =>
    intro lane x p q b s t hx hsep hcovers hbytes hblock
    rw [State.exec_decodeBlockDone hx hsep hcovers hbytes]
    simp only [hblock]
  case noBlock => exact fun lane s h => dif_neg (Nat.not_lt.mpr h)
  case noZero =>
    intro x s h
    refine if_pos ?_
    rcases h with h | h <;> simp [h]
  case zero =>
    exact fun x p s hopen hzero hstarted hpage hring hleft hroom => State.exec_zeroFillLine hopen hzero hstarted hpage hring hleft hroom

/-! ### Encode jobs -/

/-- GO once it is admitted and no job runs: its options are taken. -/
def State.ejOptions (j : Fin 2) (v : Nat) (s : State) : State :=
  (((s.wr (F.EJ_CTL_ALPHA j) v).wr (F.EJ_CTL_MODE j) (v / 2)).wr (F.EJ_CTL_EFFORT j) (v / 4)).wr (F.EJ_CTL_BLOCK_IN j) (v / 256)

theorem State.exec_go {a : Agent} {j : Fin 2} {v : Nat} (h : writable s a (0x051 + j) 0x060) (hidle : s.rd (H.STATE (0x051 + j)) = 0) :
    exec (.go a j v) s = .next
      (if (s.ejOptions j v).on (H.ISOLATED (ejPage j)) then (s.ejOptions j v).ejFail j 8
      else if !(s.ejOptions j v).ejParams j then (s.ejOptions j v).ejFail j 7
      else
        let u := (((s.ejOptions j v).wr (H.STATE (ejPage j)) 1).wr (F.EJ_STAT_STATUS j) 1).wr (F.EJ_RESULT_LEN j) 0
        u.wr F.CDC_STAT_ENC_BUSY (u.rd F.CDC_STAT_ENC_BUSY ||| 2 ^ j.val)) :=
  (congrArg Host.Outcome.next (s.write_ok h _)).trans (congrArg Host.Outcome.next (if_neg fun hc => hc hidle))

theorem State.exec_encodeJobDone {j : Fin 2} {data l : List Nat} {t : State} (hrun : s.rd (H.STATE (0x051 + j)) ≠ 0)
    (hlines : s.ejLines j data (s.rd (F.EJ_LINES_LINES j)) 0 = (.bytes l, t)) :
    exec (.encodeJobDone j data) s =
      (let out := encodeStream ⟨t.on (F.EJ_CTL_ALPHA j), t.rd (F.EJ_LINE_BYTES_BYTES j), t.rd (F.EJ_LINES_LINES j)⟩ (t.on (F.EJ_CTL_MODE j))
         (t.rd (F.EJ_CTL_EFFORT j)) (t.rd (F.EJ_CTL_BLOCK_IN j) + 1) l
       let words := (out.length + 7) / 8
       if t.rd (F.EJ_DST_SIZE_BYTES j) < 8 * words then .next (t.ejFail j 3)
       else if !t.inMemory (t.ejDst j) (8 * words) then .next ((t.ejFail j (t.freeVal 16)).freeNext)
       else
         let u := ((t.memPuts (t.ejDst j) words out).wr (F.EJ_RESULT_LEN j) out.length).wr (F.EJ_STAT_STATUS j) 2
         let v := u.wr F.CDC_STAT_ENC_BUSY (u.rd F.CDC_STAT_ENC_BUSY &&& (3 - 2 ^ j.val))
         .next ((v.wr (H.STATE (ejPage j)) 0).event (ejPage j) 0)) := by
  refine (if_neg hrun).trans ?_
  simp only [hlines]

/-- Settles O28: GO, the end of a job and ABORT. -/
theorem encodeCommands : Obligations.EncodeCommands := by
  refine ⟨?busy, ?go, ?done, ?idle, ?fail, ?failIdle, ?abort, ?header⟩
  case busy => exact fun a j v s h hrun => (congrArg Host.Outcome.next (s.write_ok h _)).trans (congrArg Host.Outcome.next (if_pos hrun))
  case go =>
    intro a j v s h hidle
    refine ⟨fun hiso => ?_, fun hiso hparams => ?_, fun hiso hparams => ?_⟩
    · exact (State.exec_go h hidle).trans (congrArg Host.Outcome.next (if_pos hiso))
    · have hiso' : (s.ejOptions j v).on (H.ISOLATED (ejPage j)) = false := hiso
      have hparams' : (s.ejOptions j v).ejParams j = false := hparams
      rw [State.exec_go h hidle]
      simp only [hiso', hparams', Bool.not_false, Bool.false_eq_true, if_false, if_true]
      rfl
    · have hiso' : (s.ejOptions j v).on (H.ISOLATED (ejPage j)) = false := hiso
      have hparams' : (s.ejOptions j v).ejParams j = true := hparams
      rw [State.exec_go h hidle]
      simp only [hiso', hparams', Bool.not_true, Bool.false_eq_true, if_false]
      rfl
  case done =>
    intro j data l s t hrun hlines
    refine ⟨fun hsize hmem => ?_, fun hsize => ?_⟩
    · rw [State.exec_encodeJobDone hrun hlines]
      simp only [if_neg (Nat.not_lt.mpr hsize), hmem, Bool.not_true, Bool.false_eq_true, if_false]
      rfl
    · exact (State.exec_encodeJobDone hrun hlines).trans (if_pos hsize)
  case idle => exact fun j data s h => if_pos h
  case fail => exact fun j st s h => congrArg Host.Outcome.next (if_neg h)
  case failIdle => exact fun j st s h => congrArg Host.Outcome.next (if_pos h)
  case abort =>
    exact fun a j s h hrun => (congrArg Host.Outcome.next (s.write_ok h _)).trans
      (congrArg Host.Outcome.next (if_neg (by simp [ejPage, hrun])))
  case header =>
    exact fun a j s h => (congrArg Host.Outcome.next (s.write_ok h _)).trans (congrArg Host.Outcome.next (if_pos (by simp)))

end Sys2Proof.Machine
end

