-- ==== Sys2Proof/Proofs/Memory.lean ====
section
/-!
PROOFS. O29 and O30: bank and DRAM words, the channels of the DRAM, seals and scrubbing.
-/
namespace Sys2Proof.Machine

variable {s : State}

/-! ### Bytes in memory -/

theorem State.ldByte_congr {t : State} (h : t.mem = s.mem) (b : Nat) : t.ldByte b = s.ldByte b := by
  simp only [State.ldByte, h]

theorem State.ldByte_lt (s : State) (a : Nat) : s.ldByte a < 256 := (Sparse.get memDefault a s.mem).isLt

theorem leBytes_length (v n : Nat) : (leBytes v n).length = n := by
  induction n generalizing v with
  | zero => rfl
  | succ n ih => simp [leBytes, ih]

/-- A stored word, byte by byte. -/
theorem State.ldByte_st (a n v b : Nat) (s : State) :
    (s.st a n v).ldByte b = if a ≤ b ∧ b < a + n then v / 256 ^ (b - a) % 256 else s.ldByte b := by
  induction n generalizing a v s with
  | zero => rw [if_neg (by omega)]; rfl
  | succ n ih =>
    change ((s.stByte a (v % 256)).st (a + 1) n (v / 256)).ldByte b = _
    rw [ih]
    by_cases hb : b = a
    · rw [if_neg (by omega), if_pos (by omega), hb, State.ldByte_stByte_same, Nat.mod_mod, Nat.sub_self, Nat.pow_zero, Nat.div_one]
    · rw [State.ldByte_stByte_ne hb]
      by_cases hin : a + 1 ≤ b ∧ b < a + 1 + n
      · have hexp : b - a = (b - (a + 1)) + 1 := by omega
        rw [if_pos hin, if_pos (by omega), hexp, Nat.pow_succ', Nat.div_div_eq_div_mul]
      · rw [if_neg hin, if_neg (by omega)]

theorem State.ld_eq_leNat (a n : Nat) : s.ld a n = leNat ((List.range n).map fun i => s.ldByte (a + i)) := by
  have hbytes : ∀ (n a : Nat), s.ldBytes a n = (List.range n).map fun i => s.ldByte (a + i) := by
    intro n
    induction n with
    | zero => exact fun a => rfl
    | succ n ih =>
      intro a
      rw [State.ldBytes, ih, List.range_succ_eq_map, List.map_cons, List.map_map]
      congr 2
      funext i
      exact congrArg s.ldByte (by omega)
  rw [State.ld, hbytes]

/-- The bytes of a number read from bytes are those bytes. -/
theorem leNat_div_pow (l : List Nat) (i : Nat) : leNat l / 256 ^ i % 256 = l.getD i 0 % 256 := by
  induction l generalizing i with
  | nil => simp [leNat]
  | cons x r ih =>
    cases i with
    | zero => simp [leNat]
    | succ i =>
      have hdiv : (x % 256 + 256 * leNat r) / 256 = leNat r := by omega
      rw [leNat, Nat.pow_succ', ← Nat.div_div_eq_div_mul, hdiv, ih]
      simp

/-! ### A word without wrong bits -/

theorem wordDec_clean : wordDec 0 = .clean := by decide +kernel

theorem byteDec_clean (d : Nat) (h : d < 256) : byteDec (byteEnc d) = .clean d := by
  have hall : ∀ d : Fin 256, byteDec (byteEnc d.val) = .clean d.val := by decide +kernel
  exact hall ⟨d, h⟩

theorem State.readByte_clean (h : s.mu.upsets = []) (a : Nat) : s.readByte a = .clean (s.ldByte a) := by
  have hupset : s.upset a = 0 := by rw [State.upset, h]; rfl
  rw [State.readByte, hupset, Nat.xor_zero, byteDec_clean _ (s.ldByte_lt a)]

theorem State.bankWord_clean (h : s.mu.upsets = []) (a : Nat) (m : Master) : s.bankWord a m = (some (s.ld a 8), s) := by
  rw [State.ld_eq_leNat]
  simp [State.bankWord, State.readByte_clean h, State.ifDo, List.range_succ, ByteRead.value]

theorem State.fabric_clean (a : Nat) (m : Master) : s.fabric a 0 m = (some 0, s) := by
  simp only [State.fabric, wordDec_clean, Nat.zero_testBit, Bool.false_eq_true, if_false]

theorem State.tickWrites_other (h : s.mu.tick.1 ≠ s.time) : s.tickWrites = [] := if_neg h

/-- No byte of the word was written in this tick: the value read is the value stored. -/
theorem State.beforeTick_other (h : s.mu.tick.1 ≠ s.time) (a : Nat) : s.beforeTick a (s.ld a 8) = s.ld a 8 := by
  have hbyte (i : Nat) (hi : i < 8) : s.ld a 8 / 256 ^ i % 256 = s.ldByte (a + i) := by
    rw [State.ld_eq_leNat, leNat_div_pow]
    simp [List.getD_eq_getElem?_getD, hi, Nat.mod_eq_of_lt (s.ldByte_lt _)]
  conv => rhs; rw [State.ld_eq_leNat]
  simp only [State.beforeTick, s.tickWrites_other h, List.find?_nil]
  exact congrArg leNat (List.map_congr_left fun i hi => hbyte i (List.mem_range.mp hi))

theorem State.exec_bankRead_clean {m : Master} {addr : Nat} {prim : Bool}
    (hport : (if s.inBank (addr / 8 * 8) 8 then (bankOf (addr / 8 * 8)).bind (s.port m) else none) = some prim)
    (hclean : s.mu.upsets = []) (htick : s.mu.tick.1 ≠ s.time) :
    exec (.bankRead m addr [] 0) s = .next ((s.masterOk m).emit (.readData (s.ld (addr / 8 * 8) 8))) := by
  have hstrike (p : Nat) : s.strike p [] = s := rfl
  have hzero : dataBits 0 = 0 := rfl
  change execBankRead m addr [] 0 s = _
  simp only [execBankRead, hport, hstrike, State.bankWord_clean hclean, State.fabric_clean, s.beforeTick_other htick, hzero, Nat.xor_zero,
    State.readEnd]

/-! ### Writes of banks -/

theorem State.openPage_mem (p : Nat) (s : State) : (s.openPage p).mem = s.mem := rfl

theorem State.cancelSeal_keeps (p : Nat) (s : State) : (s.cancelSeal p).mem = s.mem ∧ (s.cancelSeal p).time = s.time ∧
    (s.cancelSeal p).mu.tick = s.mu.tick := by
  unfold State.cancelSeal
  split
  · refine ⟨?_, ?_, ?_⟩ <;> simp [State.modMu]
  · exact ⟨rfl, rfl, rfl⟩

theorem State.bankPut_keeps (a v : Nat) (s : State) : (s.bankPut a v).mem = (s.stByte a v).mem ∧ (s.bankPut a v).time = s.time := by
  let u := if s.isSealed (a / 4096) then s.openPage (a / 4096) else s
  have hu : u.mem = s.mem ∧ u.time = s.time := by
    simp only [u]
    split <;> exact ⟨rfl, rfl⟩
  obtain ⟨humem, hutime⟩ := hu
  obtain ⟨hmem, htime, -⟩ := u.cancelSeal_keeps (a / 4096)
  exact ⟨congrArg (Sparse.put memDefault a (BitVec.ofNat 8 v)) (hmem.trans humem), htime.trans hutime⟩

/-- Every write of this tick came by a port of this kind. -/
def State.tickBy (prim : Bool) (s : State) : Prop := ∀ e ∈ s.tickWrites, e.2.2 = prim

theorem State.portPut_tickBy {prim : Bool} (h : s.tickBy prim) (a v : Nat) :
    (s.portPut prim a v).mem = (s.stByte a v).mem ∧ (s.portPut prim a v).tickBy prim := by
  obtain ⟨hmem, htime⟩ := s.bankPut_keeps a v
  have htick (l : List (Nat × Nat × Bool)) (hl : ∀ e ∈ l, e.2.2 = prim) :
      ((s.bankPut a v).modMu fun u => { u with tick := (s.time, l) }).tickBy prim := by
    intro e he
    have hlist : ((s.bankPut a v).modMu fun u => { u with tick := (s.time, l) }).tickWrites = l := if_pos htime.symm
    exact hl e (hlist ▸ he)
  unfold State.portPut
  split
  next e old p hfound =>
    have hp : p = prim := h _ (List.mem_of_find?_eq_some hfound)
    rw [hp, Bool.and_not_self, if_neg Bool.false_ne_true]
    refine ⟨hmem, htick _ fun x hx => ?_⟩
    rcases List.mem_cons.mp hx with rfl | hx
    · rfl
    · exact h x (List.mem_filter.mp hx).1
  next hnone =>
    refine ⟨hmem, htick _ fun x hx => ?_⟩
    rcases List.mem_cons.mp hx with rfl | hx
    · rfl
    · exact h x hx

theorem State.ldByte_portPuts {prim : Bool} (a : Nat) (f : Nat → Nat) (l : List Nat) (h : s.tickBy prim) :
    (s.each l fun i u => u.portPut prim (a + i) (f i)).tickBy prim ∧
    ∀ b, (s.each l fun i u => u.portPut prim (a + i) (f i)).ldByte b = if a ≤ b ∧ b - a ∈ l then f (b - a) % 256 else s.ldByte b := by
  induction l using list_snoc_induction with
  | nil => exact ⟨h, fun b => by simp [State.each]⟩
  | snoc l i ih =>
    obtain ⟨hby, hbytes⟩ := ih
    have hsnoc : (s.each (l ++ [i]) fun i u => u.portPut prim (a + i) (f i)) =
        (s.each l fun i u => u.portPut prim (a + i) (f i)).portPut prim (a + i) (f i) := by simp [State.each]
    obtain ⟨hmem, hby'⟩ := State.portPut_tickBy hby (a + i) (f i)
    rw [hsnoc]
    refine ⟨hby', fun b => ?_⟩
    rw [State.ldByte_congr hmem]
    by_cases hb : b = a + i
    · have hsub : b - a = i := by omega
      rw [if_pos ⟨by omega, by simp [hsub]⟩, hsub, hb, State.ldByte_stByte_same]
    · rw [State.ldByte_stByte_ne hb, hbytes b]
      have hiff : (a ≤ b ∧ b - a ∈ l ++ [i]) ↔ (a ≤ b ∧ b - a ∈ l) := by
        simp only [List.mem_append, List.mem_singleton]
        constructor
        · rintro ⟨hab, hl | hi⟩
          · exact ⟨hab, hl⟩
          · omega
        · exact fun ⟨hab, hl⟩ => ⟨hab, .inl hl⟩
      simp only [hiff]

theorem State.exec_bankWrite {m : Master} {addr data en : Nat} {prim : Bool} (hbank : s.inBank (addr / 8 * 8) 8 = true)
    (hother : bankOf (addr / 8 * 8) ≠ some 21) (hport : (bankOf (addr / 8 * 8)).bind (s.port m) = some prim) :
    exec (.bankWrite m addr data en 0) s = .next
      (s.each ((List.range 8).filter fun i => bit en i) fun i u => u.portPut prim (addr / 8 * 8 + i) (data / 256 ^ i % 256)) := by
  have hmay : s.inBank (addr / 8 * 8) 8 = true ∧ (!decide (bankOf (addr / 8 * 8) = some 21 ∧ m ≠ .harbourmaster)) = true :=
    ⟨hbank, by simp [hother]⟩
  have hzero : dataBits 0 = 0 := rfl
  change execBankWrite m addr data en 0 s = _
  rw [execBankWrite, if_pos hmay]
  simp only [hport, State.fabric_clean, hzero, Nat.xor_zero]

/-! ### The DRAM -/

theorem State.rebuiltTo_of_still (n : Nat) (h0 : s.ch 0 ≠ chRebuilding) (h1 : s.ch 1 ≠ chRebuilding) : s.rebuiltTo n = s := by
  have hstill : (s.ch 1 == chRebuilding) = false := by simpa using h1
  simp only [State.rebuiltTo, if_neg h0, hstill, State.ifDo, Bool.false_eq_true, if_false]

theorem State.dramStrike_clean (h : s.mu.wrong = []) (c : Fin 2) (off : Nat) : s.dramStrike c off 0 = s := by
  have hput : Sparse.put 0 (dramKey c off) (s.wrongAt c off ^^^ 0 % 2 ^ 80) s.mu.wrong = s.mu.wrong := by
    simp [State.wrongAt, h, Sparse.get, Sparse.put, Sparse.del]
  rw [State.dramStrike, State.modMu, hput]

theorem State.chanWord_clean (hwrong : s.mu.wrong = []) (hpoison : s.mu.poison = []) (c : Fin 2) (off : Nat) :
    s.chanWord c off = .good 0 false := by
  have hzero : s.wrongAt c off = 0 := by rw [State.wrongAt, hwrong]; rfl
  simp only [State.chanWord, hzero, wordDec_clean, hpoison]
  rfl

theorem State.dramWord_clean {a : Nat} {slot : Fin 2} {off : Nat} (haddr : slotAddr a = some (slot, off)) (hwrong : s.mu.wrong = [])
    (hpoison : s.mu.poison = []) (m : Master) : s.dramWord a m = (some (s.ld a 8), s) := by
  have hread (c : Fin 2) : s.chanRead c off a m = (some (s.ld a 8), s) := by
    simp only [State.chanRead, State.chanWord_clean hwrong hpoison, Nat.xor_zero, State.chanCe, State.ifDo, Bool.false_eq_true, if_false]
  simp only [State.dramWord, haddr, hread]

theorem State.exec_dramRead_clean {m : Master} {addr off : Nat} {slot : Fin 2} (haddr : slotAddr (addr / 8 * 8) = some (slot, off))
    (hdram : s.inDram (addr / 8 * 8) 8 = true) (hm : m ≠ .harbourmaster) (hwrong : s.mu.wrong = []) (hpoison : s.mu.poison = [])
    (h0 : s.ch 0 ≠ chRebuilding) (h1 : s.ch 1 ≠ chRebuilding) :
    exec (.dramRead m addr 0 0 0 0 false false) s = .next ((s.masterOk m).emit (.readData (s.ld (addr / 8 * 8) 8))) := by
  have hstuck : s.stuck false false = s := rfl
  have hzero : dataBits 0 = 0 := rfl
  have hmay : ¬ ((!s.inDram (addr / 8 * 8) 8) = true ∨ m = .harbourmaster) := by simp [hdram, hm]
  change execDramRead m addr 0 0 0 0 false false s = _
  simp only [execDramRead, hstuck, State.rebuiltTo_of_still 0 h0 h1, haddr]
  rw [if_neg hmay]
  simp only [State.dramStrike_clean hwrong, ite_self, State.dramWord_clean haddr hwrong hpoison, State.fabric_clean, hzero, Nat.xor_zero,
    State.readEnd]

theorem State.dramMend_mem (c : Fin 2) (off : Nat) (s : State) : (s.dramMend c off).mem = s.mem := rfl

theorem State.dramPut_mem {a v : Nat} {slot : Fin 2} {off : Nat} (h : slotAddr a = some (slot, off)) :
    (s.dramPut a v).mem = (s.st a 8 v).mem := by
  have hifDo (b : Bool) (c : Fin 2) (t : State) : (t.ifDo b (·.dramMend c off)).mem = t.mem := by cases b <;> rfl
  simp only [State.dramPut, h]
  split
  · rw [hifDo, hifDo]
  · rfl

theorem State.ldByte_dramPut (a v b : Nat) (s : State) : (s.dramPut a v).ldByte b =
    if (slotAddr a).isSome ∧ a ≤ b ∧ b < a + 8 then v / 256 ^ (b - a) % 256 else s.ldByte b := by
  cases haddr : slotAddr a with
  | none => simp [State.dramPut, haddr]
  | some slotOff =>
    obtain ⟨slot, off⟩ := slotOff
    rw [State.ldByte_congr (State.dramPut_mem haddr), State.ldByte_st]
    simp

/-- Settles O29: banks and DRAM, read and written. -/
theorem memoryAccess : Obligations.MemoryAccess := by
  refine ⟨?noPort, ?read, ?write, ?writeNoPort, ?dram, ?noSlot, ?dramWrite, ?part, ?byte⟩
  case noPort =>
    intro m addr s h strikes flight
    change execBankRead m addr strikes flight s = _
    simp only [execBankRead, h]
  case read => exact fun m addr prim s hport hclean htick => State.exec_bankRead_clean hport hclean htick
  case write =>
    intro m addr prim data en s hbank hother hport htick
    have hby : s.tickBy prim := by simp [State.tickBy, s.tickWrites_other htick]
    obtain ⟨-, hbytes⟩ := State.ldByte_portPuts (addr / 8 * 8) (fun i => data / 256 ^ i % 256) ((List.range 8).filter fun i => bit en i) hby
    refine ⟨_, State.exec_bankWrite hbank hother hport, fun i hi => ?_, fun b hb => ?_⟩
    · rw [hbytes]
      simp [hi]
    · rw [hbytes]
      refine if_neg fun hc => ?_
      have hlt := List.mem_range.mp (List.mem_filter.mp hc.2).1
      omega
  case writeNoPort =>
    intro m addr data en flight s h
    change execBankWrite m addr data en flight s = _
    simp only [execBankWrite, h, ite_self]
  case dram => exact fun m addr slot off s haddr hdram hm hwrong hpoison h0 h1 => State.exec_dramRead_clean haddr hdram hm hwrong hpoison h0 h1
  case noSlot =>
    intro m addr w0 w1 fl rb s h h0 h1
    have hstuck : s.stuck false false = s := rfl
    change execDramRead m addr w0 w1 fl rb false false s = _
    simp only [execDramRead, hstuck, State.rebuiltTo_of_still rb h0 h1, h]
  case dramWrite =>
    intro m addr words s hal hwords hlen hdram hm
    have hstuck : s.stuck false false = s := rfl
    have hmay : ¬ (0xFF ≠ 0xFF ∨ addr % 8 ≠ 0 ∨ words = [] ∨ 64 < addr % 64 + 8 * words.length ∨
        (!s.inDram addr (8 * words.length)) = true ∨ m = .harbourmaster) := by simp [hal, hwords, hdram, hm]; omega
    change execDramWrite m addr words 0xFF 0 false false s = _
    simp only [execDramWrite, hstuck]
    rw [if_neg hmay]
    rfl
  case part => exact fun m addr words en flight s h => if_pos (.inl h)
  case byte => exact fun a v b s => s.ldByte_dramPut a v b

/-! ### Channels, seals and scrubbing -/

theorem chCap_ne_chState (c d : Fin 2) : (chCap c).key ≠ (chState d).key := by
  revert c d
  decide

theorem State.exec_dramFillDone_none {c : Fin 2} (hst : s.ch c = chTraining) (hfill : s.dev = stFill)
    (hover : ((s.wr (chCap c) 0).wr (chState c) chOff).fillOver = false) :
    exec (.dramFillDone c true 0) s = .next ((s.wr (chCap c) 0).wr (chState c) chOff) := by
  change execDramFillDone c true 0 s = _
  rw [execDramFillDone, if_pos (.inl hst), if_pos (.inl hfill)]
  simp only [Nat.zero_min, if_true, hover, Bool.false_eq_true, if_false]

theorem State.exec_dramFillDone_late {c : Fin 2} (gib : Nat) (hst : s.ch c = chTraining) (hfill : s.dev ≠ stFill) (hboot : s.dev ≠ stBoot) :
    exec (.dramFillDone c true gib) s = .next
      (if s.mirrored && s.ch (other c) == chReady then
        ((s.modMu fun u => { u with rebuilt := 0 }).wr (chState c) chRebuilding).wr F.DP_REBUILD_DONE 0
      else ((s.fillChannel c).wr (chState c) chReady).storeRegs) := by
  change execDramFillDone c true gib s = _
  rw [execDramFillDone, if_pos (.inl hst), if_neg (by simp [hfill, hboot]), if_neg (by simp)]
  split <;> rfl

/-- What DRAM_RETRAIN does to one channel. -/
def State.retrainChan (c : Fin 2) (s : State) : State := s.ifDo (s.ch c == chFailed) (·.wr (chState c) chTraining)

theorem State.exec_dramRetrain {a : Agent} {chans : Nat} (h : writable s a 0x058 0x040) :
    exec (.dramRetrain a chans) s = .next (s.each ((List.finRange 2).filter fun c => bit chans c.val) State.retrainChan) :=
  congrArg Host.Outcome.next (s.write_ok h _)

theorem State.retrainChan_of_failed {c : Fin 2} (h : s.ch c = chFailed) : s.retrainChan c = s.wr (chState c) chTraining := by
  rw [State.retrainChan, h]
  rfl

theorem State.retrainChan_of_up {c : Fin 2} (h : s.ch c ≠ chFailed) : s.retrainChan c = s := by
  have hup : (s.ch c == chFailed) = false := by simpa using h
  rw [State.retrainChan, hup]
  rfl

theorem State.each_retrain_up (l : List (Fin 2)) (h : ∀ c, s.ch c ≠ chFailed) : s.each l State.retrainChan = s := by
  induction l with
  | nil => rfl
  | cons c l ih =>
    change (s.retrainChan c).each l State.retrainChan = s
    rw [State.retrainChan_of_up (h c), ih]

theorem State.each_retrain_both (h0 : s.ch 0 = chFailed) (h1 : s.ch 1 = chFailed) :
    s.each ((List.finRange 2).filter fun c => bit 3 c.val) State.retrainChan = (s.wr F.DP_STAT_CH0 chTraining).wr F.DP_STAT_CH1 chTraining := by
  have hlist : ((List.finRange 2).filter fun c => bit 3 c.val) = [0, 1] := by decide
  have hkeep : (s.wr (chState 0) chTraining).ch 1 = chFailed := (s.rd_wr_ne (by decide) _).trans h1
  rw [hlist]
  change (s.retrainChan 0).retrainChan 1 = _
  rw [State.retrainChan_of_failed h0, State.retrainChan_of_failed hkeep]
  rfl

theorem Sparse.get?_isSome {α : Type} (k : Nat) (m : SparseMap α) : (Sparse.get? k m).isSome = true ↔ ∃ e ∈ m, e.1 = k := by
  induction m with
  | nil => simp [Sparse.get?]
  | cons e r ih =>
    obtain ⟨a, v⟩ := e
    by_cases h : a = k <;> simp [Sparse.get?, h, ih]

theorem State.isSealed_sealPage (p q : Nat) (s : State) : (s.sealPage p).isSealed q = true ↔ q = p ∨ s.isSealed q = true := by
  simp only [State.isSealed, State.sealPage, State.modMu, Sparse.get?_isSome, Sparse.mem_ins, Sparse.del_eq_filter, List.mem_filter, bne_iff_ne]
  constructor
  · rintro ⟨e, rfl | ⟨he, -⟩, rfl⟩
    · exact .inl rfl
    · exact .inr ⟨e, he, rfl⟩
  · rintro (rfl | ⟨e, he, rfl⟩)
    · exact ⟨_, .inl rfl, rfl⟩
    · by_cases hp : e.1 = p
      · exact ⟨_, .inl rfl, hp.symm⟩
      · exact ⟨e, .inr ⟨he, hp⟩, rfl⟩

/-- Sealing a list of pages seals those and leaves registers and bytes. -/
theorem State.each_sealPage (l : List Nat) (s : State) :
    (s.each l State.sealPage).regs = s.regs ∧ (s.each l State.sealPage).mem = s.mem ∧
    ∀ q, (s.each l State.sealPage).isSealed q = true ↔ q ∈ l ∨ s.isSealed q = true := by
  induction l generalizing s with
  | nil => exact ⟨rfl, rfl, fun q => by simp [State.each]⟩
  | cons p l ih =>
    obtain ⟨hregs, hmem, hseal⟩ := ih (s.sealPage p)
    refine ⟨hregs, hmem, fun q => ?_⟩
    change ((s.sealPage p).each l State.sealPage).isSealed q = true ↔ _
    rw [hseal, State.isSealed_sealPage, List.mem_cons, or_left_comm, or_assoc]

/-- SEAL_DONE: the pages on the list, sealed. -/
def State.sealsMade (s : State) : State := (s.each s.mu.sealing State.sealPage).modMu fun u => { u with sealing := [] }

theorem State.sealsMade_isSealed (q : Nat) (s : State) : s.sealsMade.isSealed q = true ↔ q ∈ s.mu.sealing ∨ s.isSealed q = true :=
  (s.each_sealPage s.mu.sealing).2.2 q

theorem State.exec_sealDone (h : s.rd F.CS_SEAL_STAT_STATUS = 1) : exec .sealDone s = .next
    (((s.sealsMade.wr F.CS_SEAL_STAT_STATUS 2).wr F.CS_SEAL_STAT_DONE s.mu.sealing.length).event 0x05A 0) := if_pos h

/-- SEAL GO once it is admitted: `n` pages from `page`. -/
def State.sealBegun (page n : Nat) (s : State) : State :=
  let t := (s.wr F.CS_SEAL_PAGE page).wr F.CS_SEAL_COUNT n
  let pages := ((List.range n).map (t.rd F.CS_SEAL_PAGE + ·)).filter fun p => s.inBank (p * 4096) 4096 && !s.mu.noSeal.contains p
  ((t.modMu fun u => { u with sealing := pages }).wr F.CS_SEAL_STAT_STATUS 1).wr F.CS_SEAL_STAT_DONE 0

theorem State.exec_sealGo {a : Agent} {page count : Nat} (h : writable s a 0x05A 0x044) (hidle : s.rd F.CS_SEAL_STAT_STATUS ≠ 1) :
    exec (.sealGo a page count) s = .next (s.sealBegun page (if count % 4096 = 0 then 1 else count % 4096)) :=
  (congrArg Host.Outcome.next (s.write_ok h _)).trans (congrArg Host.Outcome.next (if_neg hidle))

theorem State.modMu_rd (f : MemUnit → MemUnit) (g : Fld) : (s.modMu f).rd g = s.rd g := rfl

theorem State.sealBegun_page (page n : Nat) (s : State) : (s.sealBegun page n).rd F.CS_SEAL_PAGE = page % 2 ^ F.CS_SEAL_PAGE.width := by
  rw [State.sealBegun, State.rd_wr_ne _ (by decide), State.rd_wr_ne _ (by decide), State.modMu_rd, State.rd_wr_ne _ (by decide), State.rd_wr]

theorem State.sealBegun_status (page n : Nat) (s : State) :
    (s.sealBegun page n).rd F.CS_SEAL_STAT_STATUS = 1 ∧ (s.sealBegun page n).rd F.CS_SEAL_STAT_DONE = 0 := by
  constructor
  · rw [State.sealBegun, State.rd_wr_ne _ (by decide), State.rd_wr]
    rfl
  · rw [State.sealBegun, State.rd_wr]
    rfl

theorem State.sealBegun_keeps (page n : Nat) (s : State) :
    keepsFields [F.CS_SEAL_PAGE, F.CS_SEAL_COUNT, F.CS_SEAL_STAT_STATUS, F.CS_SEAL_STAT_DONE] s (s.sealBegun page n) := by
  intro g hg
  rw [State.sealBegun, State.rd_wr_ne _ (hg F.CS_SEAL_STAT_DONE (by simp)).symm, State.rd_wr_ne _ (hg F.CS_SEAL_STAT_STATUS (by simp)).symm,
    State.modMu_rd, State.rd_wr_ne _ (hg F.CS_SEAL_COUNT (by simp)).symm, State.rd_wr_ne _ (hg F.CS_SEAL_PAGE (by simp)).symm]

theorem State.scrubBytes_clean (h : s.mu.upsets = []) (a : Nat) : s.scrubBytes a = s := by
  have hall (l : List Nat) : (s.each l fun i t => match t.readByte (a + i) with
      | .corrected v => (t.putUpset (a + i) 0).stByte (a + i) v
      | _ => t) = s := by
    induction l with
    | nil => rfl
    | cons i l ih =>
      simp only [State.each, List.foldl_cons, State.readByte_clean h] at ih ⊢
      exact ih
  exact hall (List.range 8)

theorem State.exec_scrubRead_clean {addr : Nat} (last : Bool) (hscrub : s.on F.CS_CFG_SCRUB_EN = true) (hdev : s.dev ≠ stSlack)
    (hbank : s.inBank (addr / 8 * 8) 8 = true) (hclean : s.mu.upsets = []) (hopen : s.isSealed (addr / 8 * 8 / 4096) = false) :
    exec (.scrubRead addr [] 0 0 last) s = .next (s.ifDo last (·.passEnd 0)) := by
  have hstrike (p : Nat) : s.strike p [] = s := rfl
  change execScrubRead addr [] 0 0 last s = _
  rw [execScrubRead, if_neg (by simp [hscrub, hdev]), if_pos hbank]
  simp only [hstrike, hopen, Bool.false_eq_true, if_false, State.bankWord_clean hclean, State.scrubBytes_clean hclean]

/-- Settles O30: the channels of the DRAM, the seals, and the scrub passes. -/
theorem memoryServices : Obligations.MemoryServices := by
  refine ⟨?noMemory, ?late, ?rebuild, ?notTraining, ?retrain, ?retrainUp, ?rebuilt, ?notRebuilding, ?sealBusy, ?begun, ?sealed, ?notSealing,
    ?noScrub, ?scrub, ?lateChip, ?lateDram, ?noLate⟩
  case noMemory => exact fun c gib s hst hfill hgib hover => hgib ▸ State.exec_dramFillDone_none hst hfill hover
  case late =>
    intro c gib s hst hfill hboot hmir
    rw [State.exec_dramFillDone_late gib hst hfill hboot, if_neg (by simp [hmir])]
  case rebuild =>
    intro c gib s hst hfill hboot hmir hother
    rw [State.exec_dramFillDone_late gib hst hfill hboot, if_pos (by simp [hmir, hother])]
  case notTraining => exact fun c ok gib s htr hfi => if_neg (by simp [htr, hfi])
  case retrain => exact fun a s h h0 h1 => (State.exec_dramRetrain h).trans (congrArg Host.Outcome.next (State.each_retrain_both h0 h1))
  case retrainUp =>
    exact fun a chans s h h0 h1 => (State.exec_dramRetrain h).trans
      (congrArg Host.Outcome.next (State.each_retrain_up _ (Fin.forall_fin_two.mpr ⟨h0, h1⟩)))
  case rebuilt => exact fun c s h => if_pos h
  case notRebuilding => exact fun c s h => if_neg h
  case sealBusy => exact fun a page count s h hbusy => (congrArg Host.Outcome.next (s.write_ok h _)).trans (congrArg Host.Outcome.next (if_pos hbusy))
  case begun =>
    intro a page count s h hidle
    obtain ⟨hstatus, hdone⟩ := s.sealBegun_status page (if count % 4096 = 0 then 1 else count % 4096)
    exact ⟨_, State.exec_sealGo h hidle, rfl, hstatus, hdone, s.sealBegun_page page _, rfl, rfl, s.sealBegun_keeps page _⟩
  case sealed =>
    intro s h
    obtain ⟨hregs, hmem, -⟩ := s.each_sealPage s.mu.sealing
    refine ⟨_, s.sealsMade, State.exec_sealDone h, rfl, hregs, hmem, rfl, fun p hp => (s.sealsMade_isSealed p).mpr (.inl hp), fun p hp => ?_⟩
    rw [Bool.eq_iff_iff, State.sealsMade_isSealed]
    exact or_iff_right hp
  case notSealing => exact fun s h => if_neg h
  case noScrub => exact fun addr st w0 w1 last s h => if_pos (h.imp_left (by simp [·]))
  case scrub =>
    exact fun addr s hscrub hdev hbank hclean hopen =>
      ⟨State.exec_scrubRead_clean false hscrub hdev hbank hclean hopen, State.exec_scrubRead_clean true hscrub hdev hbank hclean hopen⟩
  case lateChip => exact fun s hscrub hdev hlate => if_pos ⟨hscrub, hdev, hlate⟩
  case lateDram => exact fun s hscrub hdev hlate => if_pos ⟨hscrub, hdev, hlate⟩
  case noLate => exact fun b s h => if_neg fun hc => by simp [h] at hc

end Sys2Proof.Machine
end

