-- ==== Sys2Proof/Proofs/Dma.lean ====
section
/-!
PROOFS. O31 and O32: the commands of a DMA channel's owner, host windows, and the channel's engine.
-/
namespace Sys2Proof.Machine

variable {s : State}

/-! ### The owner's commands -/

/-- The fetch's right to read, by the window its address falls in. -/
def readAt (window : Option (Fin 16 × Nat)) (ok : Fin 16 → Nat → Bool) : Bool :=
  match window with
  | some (w, o) => ok w o
  | none => true

/-- The window is taken as a whole: unfolding `hostWindow` at the channel's address would have the kernel multiply by 2^32 in unary. -/
theorem State.dcMayRead_eq (s : State) (n : Fin 32) : s.dcMayRead n = readAt (hostWindow (s.dcCur n)) fun w o => s.winOk w o 32 false := by
  have hdef := @Eq.refl _ @State.dcMayRead
  conv at hdef => rhs; delta State.dcMayRead
  refine (congrFun (congrFun hdef s) n).trans ?_
  generalize hostWindow _ = window
  cases window <;> rfl

/-- A write of the pending doorbell leaves what a fetch is checked against. -/
theorem State.dcMayRead_dbPend (n : Fin 32) (v : Nat) : (s.wr (F.DC_STAT_DB_PEND n) v).dcMayRead n = s.dcMayRead n := by
  have hlo : (s.wr (F.DC_STAT_DB_PEND n) v).rd (F.DC_CUR_LO n) = s.rd (F.DC_CUR_LO n) :=
    s.rd_wr_ne (by simp only [Fld.key, F.DC_CUR_LO, F.DC_STAT_DB_PEND]; omega) v
  have hhi : (s.wr (F.DC_STAT_DB_PEND n) v).rd (F.DC_CUR_HI n) = s.rd (F.DC_CUR_HI n) :=
    s.rd_wr_ne (by simp only [Fld.key, F.DC_CUR_HI, F.DC_STAT_DB_PEND]; omega) v
  have hwin (w : Fin 16) (o : Nat) : (s.wr (F.DC_STAT_DB_PEND n) v).winOk w o 32 false = s.winOk w o 32 false := by
    simp only [State.winOk, State.on, Bool.false_eq_true, if_false]
    rw [s.rd_wr_ne (by simp only [Fld.key, F.DG_WIN_VALID, F.DC_STAT_DB_PEND]; omega) v,
      s.rd_wr_ne (by simp only [Fld.key, F.DG_WIN_RD, F.DC_STAT_DB_PEND]; omega) v,
      s.rd_wr_ne (by simp only [Fld.key, F.DG_WIN_SIZE, F.DC_STAT_DB_PEND]; omega) v]
  have hcur : (s.wr (F.DC_STAT_DB_PEND n) v).dcCur n = s.dcCur n := by rw [State.dcCur, State.dcCur, hlo, hhi]
  rw [State.dcMayRead_eq, State.dcMayRead_eq, hcur]
  exact congrArg (readAt (hostWindow (s.dcCur n))) (funext fun w => funext (hwin w))

theorem State.exec_doorbell {a : Agent} {n : Fin 32} (h : writable s a (0x061 + n) 0x058) : exec (.doorbell a n) s = .next
    (if s.dcState n = dcIdle ∧ s.dcLive n then (s.wr (F.DC_STAT_DB_PEND n) 1).dcStart n else s.wr (F.DC_STAT_DB_PEND n) 1) :=
  congrArg Host.Outcome.next (s.write_ok h _)

theorem State.exec_pause {a : Agent} {n : Fin 32} (h : writable s a (0x061 + n) 0x05C) : exec (.pause a n) s = .next
    (if s.dcState n = dcActive then s.dcTo n dcPausing
    else if s.dcState n = dcFetch then (s.modChan n fun c => { c with fetching := true }).dcTo n dcPausing
    else if s.dcState n = dcIdle then ((s.modChan n fun c => { c with toIdle := true }).dcTo n dcPaused).event (dcPage n) 2
    else s) :=
  congrArg Host.Outcome.next (s.write_ok h _)

/-- RESUME in PAUSED, once it is admitted: where the channel goes. -/
def State.dcResumed (n : Fin 32) (s : State) : State :=
  (s.modChan n fun c => { c with toFetch := false, toIdle := false }).wr (F.DC_STAT_HOLD_STOP n) 0

theorem State.exec_resume {a : Agent} {n : Fin 32} (h : writable s a (0x061 + n) 0x05C) : exec (.resume a n) s = .next
    (if s.dcState n = dcPaused then
      if (s.chan n).toIdle then (if (s.dcResumed n).on (F.DC_STAT_DB_PEND n) then (s.dcResumed n).dcStart n else (s.dcResumed n).dcTo n dcIdle)
      else if (s.chan n).toFetch then (s.dcResumed n).dcStart n
      else if (s.chan n).revoked then
        ((s.dcResumed n).dcError n dsWindow ((s.dcResumed n).rd (F.DC_PROG_BYTES n)) ((s.dcResumed n).dcErrAddr n)).hwReact
      else (s.dcResumed n).dcTo n dcActive
    else s) :=
  congrArg Host.Outcome.next (s.write_ok h _)

theorem State.setCur_dbPend (n : Fin 32) (a : Nat) : (s.setCur n a).on (F.DC_STAT_DB_PEND n) = s.on (F.DC_STAT_DB_PEND n) := by
  rw [State.on, State.setCur, State.rd_wr_ne _ (by simp only [Fld.key, F.DC_CUR_HI, F.DC_STAT_DB_PEND]; omega),
    State.rd_wr_ne _ (by simp only [Fld.key, F.DC_CUR_LO, F.DC_STAT_DB_PEND]; omega), State.on]

theorem State.exec_clear {a : Agent} {n : Fin 32} (h : writable s a (0x061 + n) 0x05C) (hst : s.dcState n = dcHalted)
    (hfail : s.on (F.DC_STAT_WB_FAIL n) = false) (hstay : (s.chan n).stay = false) (hpend : s.on (F.DC_STAT_DB_PEND n) = false) :
    exec (.clear a n) s = .next ((s.setCur n (s.dcNext n)).dcTo n dcIdle) := by
  refine (congrArg Host.Outcome.next (s.write_ok h _)).trans (congrArg Host.Outcome.next ?_)
  rw [if_pos hst]
  simp only [hfail, hstay, State.setCur_dbPend, hpend, Bool.false_and, Bool.false_eq_true, if_false]

theorem State.dmaRegs_hw (s : State) : s.dmaRegs.fc.hw = s.fc.hw := by
  unfold State.dmaRegs
  dsimp only
  split <;> rfl

theorem State.exec_dmaAbort {a : Agent} {n : Fin 32} (h : writable s a (0x061 + n) 0x004) :
    exec (.dmaAbort a n) s = .next (s.dmaAbort n).hwReact :=
  congrArg Host.Outcome.next (s.write_ok h _)

theorem State.dmaAbort_active {n : Fin 32} (hst : s.dcState n = dcActive) (hhw : s.fc.hw = []) :
    (s.dmaAbort n).hwReact = (s.modChan n fun c => { c with aborting := true }).dcTo n dcPausing := by
  rw [State.dmaAbort, if_pos (.inl hst)]
  exact State.hwReact_of_none ((State.dmaRegs_hw _).trans hhw)

theorem State.dmaAbort_other {n : Fin 32} (hst : s.dcState n = dcIdle ∨ s.dcState n = dcFetch ∨ s.dcState n = dcHalted) (hhw : s.fc.hw = []) :
    (s.dmaAbort n).hwReact = s := by
  have hactive : ¬ (s.dcState n = dcActive ∨ s.dcState n = dcPausing) := by rcases hst with h | h | h <;> rw [h] <;> decide
  have hpaused : s.dcState n ≠ dcPaused := by rcases hst with h | h | h <;> rw [h] <;> decide
  rw [State.dmaAbort, if_neg hactive, if_neg hpaused, State.hwReact_of_none hhw]

/-- DC_HEAD written low in IDLE, once it is admitted. -/
def State.headSet (n : Fin 32) (v : Nat) (s : State) : State :=
  let u := s.wr (F.DC_HEAD_LO_PTR n) (v / 32)
  u.setCur n (u.rd (F.DC_HEAD_HI_PTR n) * 2 ^ 32 + u.rd (F.DC_HEAD_LO_PTR n) * 32)

theorem State.exec_dcHeadWrite_idle {a : Agent} {n : Fin 32} {v : Nat} (h : writable s a (0x061 + n) 0x048) (hst : s.dcState n = dcIdle) :
    exec (.dcHeadWrite a n false v) s = .next (s.headSet n v) := by
  have hhalted : (dcIdle == dcHalted) = false := by decide
  refine (congrArg Host.Outcome.next (s.write_ok h _)).trans (congrArg Host.Outcome.next ?_)
  rw [if_pos (.inl hst)]
  simp only [hst, hhalted, Bool.false_eq_true, if_false, State.ifDo, State.headSet]

theorem State.headSet_only (n : Fin 32) (v : Nat) (s : State) :
    onlyFields [F.DC_HEAD_LO_PTR n, F.DC_CUR_LO n, F.DC_CUR_HI n] s (s.headSet n v) :=
  onlyFields_wr (onlyFields_wr (onlyFields_wr (onlyFields_self _ s) (by simp) _) (by simp) _) (by simp) _

theorem State.headSet_ptr (n : Fin 32) (v : Nat) (s : State) :
    (s.headSet n v).rd (F.DC_HEAD_LO_PTR n) = v / 32 % 2 ^ (F.DC_HEAD_LO_PTR n).width := by
  rw [State.headSet, State.setCur, State.rd_wr_ne _ (by simp only [Fld.key, F.DC_CUR_HI, F.DC_HEAD_LO_PTR]; omega),
    State.rd_wr_ne _ (by simp only [Fld.key, F.DC_CUR_LO, F.DC_HEAD_LO_PTR]; omega), State.rd_wr]

/-! ### Host windows -/

theorem State.winPut_hw (w : Fin 16) (word : Fin 4) (v : Nat) (s : State) : (s.winPut w word v).fc.hw = s.fc.hw := by
  unfold State.winPut
  split <;> rfl

theorem State.exec_windowRevoke {a : Agent} {w : Fin 16} {word : Fin 4} {v : Nat} (h : writable s a 0x060 (0x080 + 16 * w.val + 4 * word.val)) :
    exec (.windowRevoke a w word v) s = .next (s.winAfter w (s.winPut w word v)).hwReact :=
  congrArg Host.Outcome.next (s.write_ok h _)

/-- A window that is not declared: the word alone. -/
theorem State.exec_windowRevoke_undeclared {a : Agent} {w : Fin 16} {word : Fin 4} {v : Nat}
    (h : writable s a 0x060 (0x080 + 16 * w.val + 4 * word.val)) (hvalid : s.on (F.DG_WIN_VALID w) = false) (hhw : s.fc.hw = []) :
    exec (.windowRevoke a w word v) s = .next (s.winPut w word v) := by
  have hafter : s.winAfter w (s.winPut w word v) = s.winPut w word v := by
    simp only [State.winAfter, hvalid, Bool.false_and, State.ifDo, Bool.false_eq_true, if_false]
  rw [State.exec_windowRevoke h, hafter, State.hwReact_of_none ((s.winPut_hw w word v).trans hhw)]

/-- A window withdrawn: every channel that uses it stops. -/
theorem State.exec_windowRevoke_withdrawn {a : Agent} {w : Fin 16} {v : Nat} (h : writable s a 0x060 (0x080 + 16 * w.val + 4 * (3 : Fin 4).val))
    (hvalid : s.on (F.DG_WIN_VALID w) = true) (hoff : v % 2 = 0) :
    exec (.windowRevoke a w 3 v) s = .next ((s.winPut w 3 v).revoke w true true).hwReact := by
  have hgone : (s.winPut w 3 v).on (F.DG_WIN_VALID w) = false := by
    change ((((s.wr (F.DG_WIN_VALID w) v).wr (F.DG_WIN_RD w) (v / 2)).wr (F.DG_WIN_WR w) (v / 4)).rd (F.DG_WIN_VALID w) != 0) = false
    rw [State.rd_wr_ne _ (by simp only [Fld.key, F.DG_WIN_VALID, F.DG_WIN_WR]; omega),
      State.rd_wr_ne _ (by simp only [Fld.key, F.DG_WIN_VALID, F.DG_WIN_RD]; omega), State.rd_wr]
    exact bne_eq_false_iff_eq.mpr hoff
  have hafter : s.winAfter w (s.winPut w 3 v) = (s.winPut w 3 v).revoke w true true := by
    simp only [State.winAfter, hvalid, hgone, Bool.not_false, Bool.or_true, Bool.true_or, Bool.true_and, State.ifDo, if_true]
  rw [State.exec_windowRevoke h, hafter]

theorem windowWord {a : Agent} {off k w : Nat} (h : writable s a 0x060 (off + 16 * w)) (hoff : off = 0x080 + 4 * k) :
    writable s a 0x060 (0x080 + 16 * w + 4 * k) := by
  have hsame : 0x080 + 16 * w + 4 * k = off + 16 * w := by omega
  rwa [hsame]

/-- Settles O31: each command by the state of its channel, each word of a window. -/
theorem dmaOwnerCommands : Obligations.DmaOwnerCommands := by
  refine ⟨?ring, ?ringBusy, ?pauseActive, ?pauseFetch, ?pauseIdle, ?pauseOther, ?resume, ?resumeFetch, ?resumeOther, ?clear, ?clearOther,
    ?abort, ?abortOther, ?head, ?headBusy, ?baseLo, ?baseHi, ?size, ?valid, ?withdrawn, ?winOk⟩
  case ring =>
    intro a n s h hst hiso
    have hlive : s.dcLive n = true := by simp only [State.dcLive, dcPage, hiso, Bool.not_false]
    rw [State.exec_doorbell h, if_pos ⟨hst, hlive⟩, State.dcStart, State.dcMayRead_dbPend]
    rfl
  case ringBusy => exact fun a n s h hst => (State.exec_doorbell h).trans (congrArg Host.Outcome.next (if_neg fun hc => hst hc.1))
  case pauseActive => exact fun a n s h hst => (State.exec_pause h).trans (congrArg Host.Outcome.next (if_pos hst))
  case pauseFetch =>
    intro a n s h hst
    rw [State.exec_pause h, if_neg (by rw [hst]; decide), if_pos hst]
    rfl
  case pauseIdle =>
    intro a n s h hst
    rw [State.exec_pause h, if_neg (by rw [hst]; decide), if_neg (by rw [hst]; decide), if_pos hst]
    rfl
  case pauseOther =>
    intro a n s h hst
    have hother : s.dcState n ≠ dcActive ∧ s.dcState n ≠ dcFetch ∧ s.dcState n ≠ dcIdle := by
      rcases hst with h | h | h <;> rw [h] <;> decide
    rw [State.exec_pause h, if_neg hother.1, if_neg hother.2.1, if_neg hother.2.2]
  case resume =>
    intro a n s h hst hidle hfetch hrev
    rw [State.exec_resume h, if_pos hst, if_neg (by simp [hidle]), if_neg (by simp [hfetch]), if_neg (by simp [hrev])]
    rfl
  case resumeFetch =>
    intro a n s h hst hidle hfetch
    rw [State.exec_resume h, if_pos hst, if_neg (by simp [hidle]), if_pos hfetch]
    rfl
  case resumeOther => exact fun a n s h hst => (State.exec_resume h).trans (congrArg Host.Outcome.next (if_neg hst))
  case clear => exact fun a n s h hst hfail hstay hpend => ⟨_, State.exec_clear h hst hfail hstay hpend, rfl⟩
  case clearOther => exact fun a n s h hst => (congrArg Host.Outcome.next (s.write_ok h _)).trans (congrArg Host.Outcome.next (if_neg hst))
  case abort => exact fun a n s h hst hhw => (State.exec_dmaAbort h).trans (congrArg Host.Outcome.next (State.dmaAbort_active hst hhw))
  case abortOther => exact fun a n s h hst hhw => (State.exec_dmaAbort h).trans (congrArg Host.Outcome.next (State.dmaAbort_other hst hhw))
  case head => exact fun a n v s h hst => ⟨_, State.exec_dcHeadWrite_idle h hst, s.headSet_only n v, s.headSet_ptr n v⟩
  case headBusy =>
    exact fun a n v s h hidle hhalted => (congrArg Host.Outcome.next (s.write_ok h _)).trans
      (congrArg Host.Outcome.next (if_neg (not_or.mpr ⟨hidle, hhalted⟩)))
  case baseLo => exact fun a w v s h hvalid hhw => State.exec_windowRevoke_undeclared (word := 0) (windowWord h rfl) hvalid hhw
  case baseHi => exact fun a w v s h hvalid hhw => State.exec_windowRevoke_undeclared (word := 1) (windowWord h rfl) hvalid hhw
  case size => exact fun a w v s h hvalid hhw => State.exec_windowRevoke_undeclared (word := 2) (windowWord h rfl) hvalid hhw
  case valid => exact fun a w v s h hvalid hhw => State.exec_windowRevoke_undeclared (word := 3) (windowWord h rfl) hvalid hhw
  case withdrawn => exact fun a w v s h hvalid hoff => State.exec_windowRevoke_withdrawn (windowWord h rfl) hvalid hoff
  case winOk =>
    intro w off n wr s
    simp only [State.winOk, Bool.and_eq_true, decide_eq_true_iff, and_assoc]

/-! ### The engine -/

/-- A fetch that may begin. -/
theorem State.mayFetch {n : Fin 32} (hst : s.dcState n = dcFetch) (hiso : s.on (H.ISOLATED (0x061 + n)) = false) (hd3 : s.quay.d3hot = false) :
    (s.dcState n = dcFetch ∨ (s.dcState n = dcPausing ∧ (s.chan n).fetching = true)) ∧ s.dcLive n = true ∧
      (!s.quay.d3hot || (hostWindow (s.dcCur n)).isNone) = true :=
  ⟨.inl hst, by simp only [State.dcLive, dcPage, hiso, Bool.not_false], by rw [hd3, Bool.not_false, Bool.true_or]⟩

/-- The greatest of a list of numbers, from 0 on. -/
theorem foldl_max_spec {α : Type} (f : α → Nat) (l : List α) (b : Nat) :
    b ≤ l.foldl (fun m n => max m (f n)) b ∧ ∀ n ∈ l, f n ≤ l.foldl (fun m n => max m (f n)) b := by
  induction l generalizing b with
  | nil => simp
  | cons x l ih =>
    obtain ⟨hb, hl⟩ := ih (max b (f x))
    simp only [List.foldl_cons]
    refine ⟨Nat.le_trans (Nat.le_max_left _ _) hb, fun n hn => ?_⟩
    rcases List.mem_cons.mp hn with rfl | hn
    · exact Nat.le_trans (Nat.le_max_right _ _) hb
    · exact hl n hn

/-- Every channel stands in the list the arbiter goes through. -/
theorem mem_roundRobin (last : Nat) (m : Fin 32) : m ∈ (List.range 32).map fun i => Fin.ofNat 32 (last + 1 + i) := by
  refine List.mem_map.mpr ⟨(m.val + 32 - (last + 1) % 32) % 32, List.mem_range.mpr (by omega), Fin.ext ?_⟩
  simp only [Fin.ofNat]
  omega

/-- The first of a list whose priority is the greatest in it. -/
theorem find?_max {α : Type} (f : α → Nat) (l : List α) {n : α}
    (h : l.find? (fun x => f x == l.foldl (fun m x => max m (f x)) 0) = some n) : n ∈ l ∧ ∀ m ∈ l, f m ≤ f n := by
  have htop : f n = l.foldl (fun m x => max m (f x)) 0 := by simpa using List.find?_some h
  exact ⟨List.mem_of_find?_eq_some h, fun m hm => htop ▸ (foldl_max_spec f l 0).2 m hm⟩

theorem State.dcPick_ready {req : Nat} {n : Fin 32} (h : s.dcPick req = some n) :
    s.dcReady n req = true ∧ ∀ m, s.dcReady m req = true → s.rd (F.DC_CFG_PRIO m) ≤ s.rd (F.DC_CFG_PRIO n) := by
  obtain ⟨hn, htop⟩ := find?_max (fun n : Fin 32 => s.rd (F.DC_CFG_PRIO n)) _ h
  exact ⟨(List.mem_filter.mp hn).2, fun m hm => htop m (List.mem_filter.mpr ⟨mem_roundRobin _ m, hm⟩)⟩

/-- A burst of the engine itself (REQ = 0) whose words have all been moved. -/
theorem State.exec_dmaBurstDone {n : Fin 32} {b e : Nat} {data out : List Nat} {fl : List (Nat × Nat)} {t : State}
    (hgrant : (s.chan n).grant = some b) (hst : s.dcState n = dcActive) (hreq : s.rd (F.DC_CFG_REQ n) = 0) (hrev : (s.chan n).revoked = false)
    (hburst : s.burst n (s.chan n) (s.rd (F.DC_PROG_BYTES n)) data (s.memSides n) fl b (b / 8) 0 [] = (out, ⟨e, none⟩, t)) :
    exec (.dmaBurstDone n data none fl) s = .next
      (let u := ((t.burstOut n (s.rd (F.DC_PROG_BYTES n)) out).wr (F.DC_PROG_BYTES n) (s.rd (F.DC_PROG_BYTES n) + e)).modChan n fun c =>
         { c with grant := none, partner := [] }
       if s.rd (F.DC_PROG_BYTES n) + b = (s.chan n).len then (u.dcDone n).hwReact else u) := by
  have hdata : s.burstData n b data = (data, s) := by simp [State.burstData, hreq]
  have hmay : (s.dcState n = dcActive ∨ s.dcState n = dcPausing) ∧ (s.rd (F.DC_CFG_REQ n) ≠ 1 ∨ b ≤ (s.chan n).partner.length) :=
    ⟨.inl hst, .inl (by rw [hreq]; decide)⟩
  change execDmaBurstDone n data none fl s = _
  simp only [execDmaBurstDone, hgrant]
  rw [if_pos hmay]
  simp only [hdata, Option.getD_none, hburst, hrev, Bool.false_eq_true, if_false]
  split <;> rfl

theorem State.exec_pauseDrained {n : Fin 32} (hst : s.dcState n = dcPausing) (hgrant : (s.chan n).grant = none) (hfetch : (s.chan n).fetching = false) :
    exec (.pauseDrained n) s = if (s.chan n).aborting then .next (s.dcAborted n).hwReact else .next ((s.dcTo n dcPaused).event (dcPage n) 2) :=
  if_pos ⟨hst, hgrant, hfetch⟩

/-- Settles O32: the fetch, the arbiter, a burst and a drained pause. -/
theorem dmaEngineCommands : Obligations.DmaEngineCommands := by
  refine ⟨?still, ?fails, ?fetched, ?noGrant, ?grant, ?pick, ?noBurst, ?burst, ?paused, ?aborted, ?notPausing⟩
  case still =>
    intro n host ok s hfetch hpausing
    refine if_neg fun ⟨hst, _⟩ => ?_
    rcases hst with hst | ⟨hst, -⟩
    · exact hfetch hst
    · exact hpausing hst
  case fails =>
    intro n host ok st s t hst hiso hd3 hread
    refine (if_pos (State.mayFetch hst hiso hd3)).trans ?_
    simp only [hread]
  case fetched =>
    intro n host ok l s t hst hiso hd3 hread
    dsimp only
    refine ⟨fun hvalid hcheck => ?_, fun st a hvalid hcheck => ?_, fun hvalid hpend => ?_, fun hvalid hpend hfetch habort => ?_⟩ <;>
      refine (if_pos (State.mayFetch hst hiso hd3)).trans ?_
    · simp only [hread, List.drop_zero, hvalid, if_true, hcheck]
    · simp only [hread, List.drop_zero, hvalid, if_true, hcheck]
    · simp only [hread, List.drop_zero, hvalid, hpend, Bool.false_eq_true, if_false, if_true]
    · simp only [hread, List.drop_zero, hvalid, hpend, hfetch, habort, Bool.false_eq_true, if_false]
      rfl
  case noGrant =>
    intro req s h
    change execDmaBurstGrant req s = _
    simp only [execDmaBurstGrant, h]
  case grant =>
    intro req n s h
    change execDmaBurstGrant req s = _
    simp only [execDmaBurstGrant, h]
  case pick => exact fun req n s h => State.dcPick_ready h
  case noBurst =>
    intro n data hb fl s h
    change execDmaBurstDone n data hb fl s = _
    simp only [execDmaBurstDone, h]
  case burst =>
    intro n b data fl out e s t hgrant hst hreq hrev hburst
    refine ⟨fun hlast => ?_, fun hmore => ?_⟩
    · exact (State.exec_dmaBurstDone hgrant hst hreq hrev hburst).trans (congrArg Host.Outcome.next (if_pos hlast))
    · exact (State.exec_dmaBurstDone hgrant hst hreq hrev hburst).trans (congrArg Host.Outcome.next (if_neg hmore))
  case paused =>
    intro n s hst hgrant hfetch habort
    rw [State.exec_pauseDrained hst hgrant hfetch, if_neg (by simp [habort])]
    rfl
  case aborted => exact fun n s hst hgrant hfetch habort => (State.exec_pauseDrained hst hgrant hfetch).trans (if_pos habort)
  case notPausing => exact fun n s h => if_neg fun hc => h hc.1

end Sys2Proof.Machine
end

