-- ==== Sys2Proof/Proofs/HostProtocol.lean ====
section
/-!
PROOFS. O33 to O35: the order of messages, the endpoint, and sessions.
-/
namespace Sys2Proof.Machine

variable {s : State}

/-! ### The order of messages -/

theorem State.rd_takeEntry {g : Fld} (hg : g.key ≠ F.QY_SQ_HEAD_HEAD.key) : s.takeEntry.rd g = s.rd g := s.rd_wr_ne hg _

theorem State.session_takeEntry : s.takeEntry.session = s.session := by
  rw [State.session, State.on, State.rd_takeEntry (by decide)]
  rfl

theorem State.rd_heard {g : Fld} (hg : g.key ≠ F.QY_STAT_SILENT.key) : s.heard.rd g = s.rd g := State.rd_wr_ne _ hg _

/-- A message of the open session, taken from the ring: what its sequence number decides. -/
def State.inOrder (h : MsgHdr) (namesJob : Bool) (k : State → State) (s : State) : State :=
  if h.seq = 0 then s.takeEntry.heard.reply h csBadField
  else if h.seq = seqNext (s.rd F.QY_ACK_SEQ) then
    if !h.clean || (!namesJob && h.job != 0) then (s.accepted h).reply h csBadField else k (s.accepted h)
  else if seqBehind (s.rd F.QY_ACK_SEQ) h.seq then s.takeEntry.heard.duplicate h
  else s.takeEntry.heard.gap h

theorem State.message_of_session {h : MsgHdr} {nj : Bool} {k : State → State} (hready : s.sqReady = true) (hsession : s.session = true)
    (hepoch : h.epoch = s.rd F.QY_EPOCH_EPOCH) : s.message h nj k = s.inOrder h nj k := by
  have hack : s.takeEntry.heard.rd F.QY_ACK_SEQ = s.rd F.QY_ACK_SEQ := (State.rd_heard (by decide)).trans (State.rd_takeEntry (by decide))
  have hepoch' : ¬ h.epoch ≠ s.takeEntry.rd F.QY_EPOCH_EPOCH := by
    rw [State.rd_takeEntry (by decide)]
    exact fun hne => hne hepoch
  unfold State.message
  simp only [hready, State.session_takeEntry, hsession, Bool.not_true, Bool.false_eq_true, if_false]
  rw [if_neg hepoch']
  simp only [hack]
  rfl

theorem State.message_stale {h : MsgHdr} {nj : Bool} {k : State → State} (hready : s.sqReady = true) (hsession : s.session = true)
    (hepoch : h.epoch ≠ s.rd F.QY_EPOCH_EPOCH) : s.message h nj k =
      if h.epoch ≠ 0 ∧ h.epoch < s.rd F.QY_EPOCH_EPOCH then ((s.takeEntry.sat F.QY_CNT_B_STALE).reply h csStaleEpoch).raise 209 0x0D0 2
      else (s.takeEntry.sat F.QY_CNT_B_STALE).reply h csBadEpoch := by
  unfold State.message
  simp only [hready, State.session_takeEntry, hsession, Bool.not_true, Bool.false_eq_true, if_false]
  rw [State.rd_takeEntry (by decide), if_pos hepoch]
  rfl

/-- A message in order has its effect. -/
theorem State.message_ok {h : MsgHdr} {nj : Bool} (hok : messageOk s h nj) (k : State → State) : s.message h nj k = k (s.accepted h) := by
  obtain ⟨hready, hsession, hepoch, hzero, hnext, hclean, hjob⟩ := hok
  have hgood : (!h.clean || (!nj && h.job != 0)) = false := by
    cases nj with
    | false => simp [hclean, hjob rfl]
    | true => simp [hclean]
  rw [State.message_of_session hready hsession hepoch, State.inOrder, if_neg hzero, if_pos hnext, hgood, if_neg Bool.false_ne_true]

/-- Settles O33: the session, the epoch, then the sequence number. -/
theorem messageOrder : Obligations.MessageOrder := by
  refine ⟨?still, ?noSession, ?stale, ?bad, ?ok, ?unclean, ?dup, ?gap, ?taken⟩
  case still => exact fun h nj k s hstill => if_pos (by simp [hstill])
  case noSession =>
    intro h nj k s hready hsession
    unfold State.message
    simp only [hready, State.session_takeEntry, hsession, Bool.not_true, Bool.not_false, Bool.false_eq_true, if_false, if_true]
  case stale =>
    intro h nj k s hready hsession hne hlt
    exact (State.message_stale hready hsession (Nat.ne_of_lt hlt)).trans (if_pos ⟨hne, hlt⟩)
  case bad =>
    intro h nj k s hready hsession hout hne
    refine (State.message_stale hready hsession hne).trans (if_neg fun hc => ?_)
    rcases hout with hzero | hlt
    · exact hc.1 hzero
    · omega
  case ok => exact fun h nj k s hok => State.message_ok hok k
  case unclean =>
    intro h nj k s hready hsession hepoch hzero hnext hclean
    rw [State.message_of_session hready hsession hepoch, State.inOrder, if_neg hzero, if_pos hnext, if_pos (by simp [hclean])]
  case dup =>
    intro h nj k s hready hsession hepoch hzero hnext hbehind
    rw [State.message_of_session hready hsession hepoch, State.inOrder, if_neg hzero, if_neg hnext, if_pos hbehind]
  case gap =>
    intro h nj k s hready hsession hepoch hzero hnext hbehind
    rw [State.message_of_session hready hsession hepoch, State.inOrder, if_neg hzero, if_neg hnext, if_neg (by simp [hbehind])]
  case taken => exact fun s hsession => ⟨State.session_takeEntry.trans hsession, State.rd_wr _ _ _⟩

/-! ### The endpoint -/

/-- A write in SAFE too, by an agent with the right to it. -/
theorem State.guarded_inSafe {a : Agent} {p off : Nat} (hpage : s.absentPage p = false) (hright : s.mayWrite a p off = true)
    (hlock : s.on (H.LOCK p) = false) (hslack : a = .host → s.dev ≠ stSlack) (k : State → State) :
    s.guarded a p off false false true k = k s := by
  have hwake : s.wake a = s := by
    cases a with
    | host => exact if_neg (hslack rfl)
    | _ => rfl
  simp only [State.guarded, hwake, hpage, hright, hlock, Bool.not_true, Bool.and_false, Bool.false_and, Bool.or_true, Bool.or_self,
    Bool.false_eq_true, if_false]

theorem State.bankPuts_nil (a : Nat) (s : State) : s.bankPuts a [] = s := rfl

/-- Only the upper megabyte of BAR2 is written. -/
theorem State.exec_bar2Write {off : Nat} {bytes : List Byte} (h : off + bytes.length ≤ 0x200000) : exec (.bar2Write off bytes false) s = .next
    ((s.ifDo (decide (off < 0x100000)) (·.sat F.QY_CNT_C_BAR2_DROP)).bankPuts (mbBase + off + (0x100000 - off))
      ((bytes.drop (0x100000 - off)).map (·.toNat))) := by
  change execBar2Write off bytes false s = _
  rw [execBar2Write, if_neg (Nat.not_lt.mpr h), if_neg Bool.false_ne_true]

theorem State.exec_bar2Read_lower {off len : Nat} (h : off + len ≤ 0x100000) : exec (.bar2Read off len) s = .next (s.emit (.readData 0)) := by
  change execBar2Read off len s = _
  rw [execBar2Read, if_neg (by omega), if_pos h]

theorem State.memBytes_none {a : Nat} (m : Master) (h : a % 8 = 0) : s.memBytes a 0 m = (some [], s) := by
  have hwords : (a % 8 + 0 + 7) / 8 = 0 := by omega
  rw [State.memBytes, hwords]
  rfl

theorem State.exec_bar2Read_upper {off len : Nat} {l : List Nat} {t : State} (hlo : 0x100000 ≤ off) (hhi : off + len ≤ 0x200000)
    (hread : s.memBytes (0x03A00000 + off) len .endpoint = (some l, t)) : exec (.bar2Read off len) s = .next (t.emit (.readData (leNat l))) := by
  by_cases hnone : off + len ≤ 0x100000
  · have hoff : off = 0x100000 := by omega
    have hlen : len = 0 := by omega
    rw [hoff, hlen, State.memBytes_none _ (by decide)] at hread
    obtain ⟨hl, ht⟩ := Prod.mk.inj hread
    rw [State.exec_bar2Read_lower hnone, ← Option.some.inj hl, ← ht]
    rfl
  · have hn : 0x100000 - off = 0 := by omega
    change execBar2Read off len s = _
    rw [execBar2Read, if_neg (by omega), if_neg hnone]
    simp only [hn, Nat.add_zero, Nat.sub_zero, mbBase, hread, List.replicate_zero, List.nil_append]

theorem State.msix_unmasked {v : Nat} (hmask : s.on (F.MSIX_CTRL_MASK v) = false) (hfn : s.quay.fnMask = false) : s.msix v = s.emit (.msix v) :=
  if_neg (by simp [hmask, hfn])

/-- Settles O34: each command of the endpoint. -/
theorem endpointCommands : Obligations.EndpointCommands := by
  refine ⟨?up, ?again, ?config, ?reset, ?perst, ?write, ?drop, ?read, ?readLower, ?msix, ?msixNone, ?irq, ?irqNone, ?rings, ?tail, ?tailBad, ?head⟩
  case up =>
    intro sp w s h
    have hdown : (s.rd F.QY_LINK_SPEED != 0) = false := by simp [h]
    change execPcieLinkUp sp w s = _
    simp only [execPcieLinkUp, hdown, Bool.false_eq_true, if_false, qyPage]
  case again =>
    intro sp w s h
    have hup : (s.rd F.QY_LINK_SPEED != 0) = true := by simpa using h
    change execPcieLinkUp sp w s = _
    simp only [execPcieLinkUp, hup, if_true]
  case config => exact fun d f m s => rfl
  case reset => exact fun s => rfl
  case perst => exact fun s => rfl
  case write =>
    intro off bytes s hlo hhi
    have hupper : decide (off < 0x100000) = false := by simpa using hlo
    have hn : 0x100000 - off = 0 := by omega
    rw [State.exec_bar2Write hhi, hupper, hn]
    rfl
  case drop =>
    intro off bytes s hlo hhi
    rw [State.exec_bar2Write (by omega), decide_eq_true hlo, List.drop_eq_nil_of_le (by omega)]
    rfl
  case read => exact fun off len l t s hlo hhi hread => State.exec_bar2Read_upper hlo hhi hread
  case readLower => exact fun off len s h => State.exec_bar2Read_lower h
  case msix => exact fun v s hpend hmask hfn => if_pos ⟨hpend, by simp [hmask], by simp [hfn]⟩
  case msixNone => exact fun v s h => if_neg fun hc => by simp [h] at hc
  case irq =>
    intro s hdue hmask hfn
    refine congrArg Host.Outcome.next ((if_pos hdue).trans ?_)
    rw [State.msix_unmasked hmask hfn]
    rfl
  case irqNone => exact fun s h => congrArg Host.Outcome.next (if_neg (by simp [h]))
  case rings =>
    exact fun a s hpage hright hlock hslack =>
      ⟨congrArg Host.Outcome.next (State.guarded_inSafe hpage hright hlock hslack _),
        congrArg Host.Outcome.next (State.guarded_inSafe hpage hright hlock hslack _)⟩
  case tail =>
    intro a tail s hpage hright hlock hslack hlt hsize
    refine (congrArg Host.Outcome.next (State.guarded_inSafe hpage hright hlock hslack _)).trans ?_
    simp only [Nat.mod_eq_of_lt hlt, if_pos hsize]
  case tailBad =>
    intro a tail s hpage hright hlock hslack hlt hsize
    refine (congrArg Host.Outcome.next (State.guarded_inSafe hpage hright hlock hslack _)).trans ?_
    simp only [Nat.mod_eq_of_lt hlt, if_neg (Nat.not_lt.mpr hsize)]
  case head => exact fun a head s hpage hright hlock hslack => congrArg Host.Outcome.next (State.guarded_inSafe hpage hright hlock hslack _)

/-! ### Sessions -/

theorem State.exec_sessionOpen {h : MsgHdr} (tag : Nat) (hready : s.sqReady = true) (hepoch : h.epoch = 0) (hseq : h.seq = 0) (hjob : h.job = 0)
    (hclean : h.clean = true) (hsession : s.session = false) :
    exec (.sessionOpen h tag 0x00010000) s = .next
      (let t := ((((s.takeEntry.nextEpoch.wr F.QY_ACK_SEQ 0).wr F.QY_DSEQ_LAST 0).wr (H.STATE 0x0D0) 1).heard).modQuay
         fun q => { q with prevEpoch := 0, issued := [], completions := [], resendAt := none, waitResume := false }
       (t.postCompletion 0 0 csOk [(28, leBytes (t.rd F.QY_EPOCH_EPOCH) 4), (32, leBytes tag 4)] 0).issueOrphans.event 0x0D0 0) := by
  change execSessionOpen h tag 0x00010000 s = _
  simp only [execSessionOpen, hready, State.session_takeEntry, hepoch, hseq, hjob, hclean, hsession, ne_eq, not_true_eq_false, Bool.not_true,
    Bool.false_eq_true, or_self, false_and, if_false, qyPage]

theorem State.exec_sessionResume {h : MsgHdr} {la ld tag : Nat} (hready : s.sqReady = true) (hsession : s.session = true)
    (hepoch : h.epoch = s.rd F.QY_EPOCH_EPOCH) (hzero : h.epoch ≠ 0) (hseq : h.seq = 0) (hjob : h.job = 0) (hclean : h.clean = true)
    (hack : seqBehind (s.rd F.QY_ACK_SEQ) la = true) (hreplay : s.takeEntry.replayFrom ld = []) (hlast : s.rd F.QY_DSEQ_LAST = ld)
    (hld : ld + 1 < 2 ^ 32) :
    exec (.sessionResume h la ld tag) s = .next
      (let t := (s.takeEntry.nextEpoch.modQuay fun q =>
         { q with prevEpoch := s.rd F.QY_EPOCH_EPOCH, held := s.heldBefore, resendAt := none, waitResume := false }).drain
       ((t.heard.postCompletion 0 0 csOk [(28, leBytes (t.rd F.QY_EPOCH_EPOCH) 4), (32, leBytes (ld + 1) 4), (36, leBytes tag 4)] 0).heldRegs).event
         0x0D0 1) := by
  have hepochs : s.takeEntry.rd F.QY_EPOCH_EPOCH = s.rd F.QY_EPOCH_EPOCH := State.rd_takeEntry (by decide)
  have hacks : s.takeEntry.rd F.QY_ACK_SEQ = s.rd F.QY_ACK_SEQ := State.rd_takeEntry (by decide)
  have hlasts : s.takeEntry.rd F.QY_DSEQ_LAST = s.rd F.QY_DSEQ_LAST := State.rd_takeEntry (by decide)
  have hheld : s.takeEntry.heldBefore = s.heldBefore := rfl
  have hmine : ¬ ((!true) = true ∨ s.rd F.QY_EPOCH_EPOCH = 0 ∨ (s.rd F.QY_EPOCH_EPOCH ≠ s.rd F.QY_EPOCH_EPOCH ∧
      s.rd F.QY_EPOCH_EPOCH ≠ s.takeEntry.quay.prevEpoch)) := by simp [← hepoch, hzero]
  change execSessionResume h la ld tag s = _
  simp only [execSessionResume, hready, State.session_takeEntry, hsession, hepochs, hacks, hlasts, hepoch, hseq, hjob, hclean, hack, hreplay, hlast,
    hheld, Bool.not_true, Bool.false_eq_true, if_false]
  rw [if_neg (by simpa using hmine), if_neg (by simp)]
  simp only [List.isEmpty_nil, List.head?_nil, Option.map_none, Option.getD_none, Nat.mod_eq_of_lt hld, bne_self_eq_false, Bool.and_false,
    Bool.or_self, Bool.false_eq_true, if_false, State.each, List.foldl_nil, qyPage]

/-- Settles O35: each message of a session, and a silent host. -/
theorem sessionCommands : Obligations.SessionCommands := by
  refine ⟨?crc, ?crcStill, ?badType, ?keepalive, ?open_, ?exists_, ?unsound, ?noSession, ?resume, ?closeJobs, ?close, ?silent, ?heard, ?badWindow,
    ?window⟩
  case crc => exact fun s h => if_pos h
  case crcStill => exact fun s h => if_neg (by simp [h])
  case badType =>
    intro h ty s hok
    have hclean : h.clean = true := hok.2.2.2.2.2.1
    have hsame : { h with clean := true } = h := by rw [← hclean]
    exact congrArg Host.Outcome.next ((congrArg (fun g => s.message g true fun t => t.reply h csBadType) hsame).trans (State.message_ok hok _))
  case keepalive => exact fun h s hok => congrArg Host.Outcome.next (State.message_ok hok _)
  case open_ => exact fun h tag s hready hepoch hseq hjob hclean hsession => State.exec_sessionOpen tag hready hepoch hseq hjob hclean hsession
  case exists_ =>
    intro h tag s hready hepoch hseq hjob hclean hforce hsession
    change execSessionOpen h tag 0x00010000 s = _
    simp only [execSessionOpen, hready, State.session_takeEntry, hepoch, hseq, hjob, hclean, hforce, hsession, ne_eq, not_true_eq_false, Bool.not_true,
      Bool.not_false, Bool.false_eq_true, or_self, and_self, if_false, if_true]
  case unsound =>
    intro h tag ver s hready hbad
    have hrefused : h.epoch ≠ 0 ∨ h.seq ≠ 0 ∨ h.job ≠ 0 ∨ (!h.clean) = true ∨ ver ≠ 0x00010000 := by
      rcases hbad with hbad | hbad
      · simp [hbad]
      · simp [hbad]
    change execSessionOpen h tag ver s = _
    rw [execSessionOpen, if_neg (by simp [hready])]
    exact if_pos hrefused
  case noSession =>
    intro h la ld tag s hready hsession
    change execSessionResume h la ld tag s = _
    rw [execSessionResume, if_neg (by simp [hready])]
    exact if_pos (.inl (by rw [State.session_takeEntry, hsession]; rfl))
  case resume =>
    exact fun h la ld tag s hready hsession hepoch hzero hseq hjob hclean hack hreplay hlast hld =>
      State.exec_sessionResume hready hsession hepoch hzero hseq hjob hclean hack hreplay hlast hld
  case closeJobs =>
    intro h s hok hjobs hforce
    refine congrArg Host.Outcome.next ((State.message_ok hok _).trans (if_pos ?_))
    simp [hforce, hjobs]
  case close =>
    intro h s hok hjobs
    refine congrArg Host.Outcome.next ((State.message_ok hok _).trans ((if_neg (by simp [hjobs])).trans ?_))
    rw [State.abortJobs, hjobs]
    rfl
  case silent =>
    intro s hsession hto hsilent hlast hstop
    have hstop' : (s.wr F.QY_STAT_SILENT 1).on F.QY_TIMER_SILENT_STOP = true := by
      rw [State.on, s.rd_wr_ne (by decide), ← State.on, hstop]
    refine (if_pos ⟨hsession, hto, by simp [hsilent], hlast⟩).trans ?_
    rw [hstop']
    rfl
  case heard =>
    intro s h
    refine if_neg fun ⟨hsession, hto, _⟩ => ?_
    rcases h with h | h
    · simp [h] at hsession
    · exact hto h
  case badWindow =>
    intro h w v rd wr base size s hok hbad
    exact congrArg Host.Outcome.next ((State.message_ok hok _).trans (if_neg (by omega)))
  case window =>
    intro h w v rd wr base size s hok hw hbase
    have hin : 1 ≤ w.val ∧ w.val ≤ 15 ∧ base % 4096 = 0 := ⟨Nat.one_le_iff_ne_zero.mpr (Fin.val_ne_of_ne hw), by omega, hbase⟩
    have hwin : Fin.ofNat 16 w.val = w := Fin.ext (Nat.mod_eq_of_lt w.isLt)
    refine congrArg Host.Outcome.next ((State.message_ok hok _).trans ((if_pos hin).trans ?_))
    rw [hwin]

end Sys2Proof.Machine
end

