-- ==== Sys2Proof/Proofs/PageRelease.lean ====
section
/-!
PROOFS. O36: the tick in which a page is released.
-/
namespace Sys2Proof.Machine

variable {s : State}

/-! ### The tick in which a page is released

PAGE_RELEASE of a resident page marks it with the tick in which it entered its queue, so that it is not announced in that tick (Table 2.5). The
statement of O36 leaves that mark as it was. -/

/-- A resident page, never queued. -/
def residentPage : Page where
  id := 1
  job := 1
  sheetLen := 1
  width := 1
  height := 1
  fmt := 0
  st := .resident
  released := false
  sheet := none
  commits := 0
  reprints := 0
  cause := 0
  final := false
  retireDue := false
  sepLost := false
  again := false
  seps := []
  changed := 0

/-- A device in READY with an open session of epoch 1, one message in the ring, berth 1 in role 1, and one job with a resident page. -/
def readyWithPage : State :=
  { (((((State.reset.wr (H.STATE 0) stReady).wr F.QY_STAT_RINGS 1).wr (H.STATE 0x0D0) 1).wr F.QY_EPOCH_EPOCH 1).wr (F.BR_ROLE_ROLE 1) 1).wr
      (H.STATE 0x009) 0 with
    quay := { Quay.reset with sqTail := 1 }
    tl := { Timeline.reset with jobs := [⟨1, 1, false, false, false, false, 0, 0⟩], pages := [residentPage] } }

/-- The first message of the session, for job 1. -/
def firstMessage : MsgHdr := ⟨1, 1, 1, false, true⟩

/-- The tick in which page 1 entered its queue, in the state a step leads to. -/
def queuedTick : Result → Option Nat
  | .next t => (t.page? 1).bind (·.queuedAt)
  | _ => none

theorem messageOk_firstMessage : messageOk readyWithPage firstMessage true := by
  refine ⟨?_, ?_, ?_, ?_, ?_, rfl, fun h => absurd h (by decide)⟩ <;> decide +kernel

/-- Refutes O36: a released page carries the tick of its release. -/
theorem not_jobAndPageCommands : ¬ Obligations.JobAndPageCommands := by
  rintro ⟨-, -, -, -, -, -, hrelease, -⟩
  have hstep := hrelease firstMessage 1 ⟨1, 1, false, false, false, false, 0, 0⟩ residentPage readyWithPage messageOk_firstMessage
    (by decide +kernel) (by decide +kernel) (by decide +kernel) rfl rfl rfl
  have hmarked : queuedTick (exec (.pageRelease firstMessage 1) readyWithPage) = some 0 := by decide +kernel
  rw [hstep] at hmarked
  exact absurd hmarked (by decide +kernel)

end Sys2Proof.Machine
end

