-- ==== Sys2Proof/Proofs/Separations.lean ====
section
/-!
PROOFS. O37: a part submitted, repeated, and its transfer ended.
-/
namespace Sys2Proof.Machine

variable {s : State}

/-! ### Messages of a job and of a page -/

theorem State.pageMessage_ok {h : MsgHdr} {id : Nat} {j : Job} {p : Page} (hsafe : s.isSafe = false) (hjob : s.job? h.job = some j)
    (hpage : s.page? id = some p) (hmine : p.job = j.id) (hkept : p.st ≠ .retired) (k : Job → Page → State → State) :
    s.pageMessage h id k = k j p s := by
  simp only [State.pageMessage, State.jobMessage, hsafe, Bool.false_eq_true, if_false, hjob, hpage]
  exact if_pos ⟨hmine, hkept⟩

/-- What a part of a separation meets, once no part of that place and length is known. -/
theorem State.sepPart_first {h : MsgHdr} {p : Page} {j : Job} {k po len sl : Nat} {last : Bool} {body : List Nat} (hnew : p.sep? k = none)
    (hstation : bit j.stations k = true) (hk : k < 6) (hst : p.st = .defined) (hpart : badPart none po len last false sl = false)
    (hroom : s.queuedParts < 256) :
    s.sepPart h p j k po len last false sl false body =
      ((s.modPage p.id fun q => { q with seps := q.seps ++
        [(⟨k, [⟨po, len, body, false⟩], if last && !false then some sl else none, false, []⟩ : Machine.Sep)] }).reply h csOk) := by
  have hfits : (false || !bit j.stations k || decide (6 ≤ k)) = false := by simp [hstation, hk]
  have hdefined : ¬ p.st ≠ .defined := fun hne => hne hst
  simp only [State.sepPart, hnew, Option.map_none, Option.getD_none, List.find?_nil, hfits, hpart, Bool.false_eq_true, if_false, if_neg hdefined,
    if_neg (Nat.not_le.mpr hroom)]

theorem State.sepPart_again {h : MsgHdr} {p : Page} {j : Job} {k po len sl : Nat} {last bad : Bool} {body : List Nat} {q : Machine.Sep} {r : Part}
    (hsep : p.sep? k = some q) (hpart : q.parts.find? (fun r => r.offs = po && r.len = len) = some r) (hbody : r.body = body) :
    s.sepPart h p j k po len last false sl bad body = s.reply h csOk := by
  simp only [State.sepPart, hsep, Option.map_some, Option.getD_some, hpart, if_pos hbody]

/-- A transfer that ends, of a part of a page not retired. -/
theorem State.exec_partDone {id : Nat} {k : Fin 6} {po res st : Nat} {data : List Nat} {p : Page} {q : Machine.Sep} {r : Part}
    (hpage : s.page? id = some p) (hsep : p.sep? k = some q) (hpart : q.parts.find? (fun r => r.offs = po && !r.stored) = some r)
    (hkept : p.st ≠ .retired) :
    exec (.partDone id k po res st data) s =
      if res ≠ 0 then .next (s.partFail p k r res st)
      else if r.body.getD 0 0 = 0 ∧ (!s.winOk (Fin.ofNat 16 (r.body.getD 5 0)) (r.body.getD 6 0) r.len false) = true then .next (s.partFail p k r 2 0)
      else if r.body.getD 2 0 = 1 ∧ (r.body.getD 8 0 % 8 ≠ 0 ∨ (p.alpha = true ∧ p.lineBytes % 2 = 1)) then .next (s.partFail p k r 6 3)
      else
        match s.partBytes r data with
        | (none, t) => .next (t.partFail p k r 4 0)
        | (some bytes, t) => .next (t.partStore p q r (partStream p r bytes)) := by
  change execPartDone id k po res st data s = _
  simp only [execPartDone, hpage, hsep, hpart, if_neg hkept] <;> rfl

/-- Settles O37: a part submitted, repeated, and its transfer ended. -/
theorem separationCommands : Obligations.SeparationCommands := by
  refine ⟨?submit, ?written, ?first, ?again, ?noPage, ?failed, ?stored⟩
  case submit =>
    intro h id k last grow eff w off po len sl stride j p s hok t hsafe hjob hpage hmine hkept hzero hw hoff heff
    have hbad : decide (w = 0 ∨ 16 ≤ w ∨ off % 8 ≠ 0 ∨ 8 ≤ eff) = false := decide_eq_false (by omega)
    refine congrArg Host.Outcome.next ((State.message_ok hok _).trans ((State.pageMessage_ok hsafe hjob hpage hmine hkept _).trans ?_))
    simp only [hbad, Bool.and_false, Bool.false_and, Bool.false_eq_true, if_false]
    rfl
  case written =>
    intro h id k last mb po len sl j p s hok t hsafe hjob hpage hmine hkept hal hlo hhi
    have hbad : decide (mb % 8 ≠ 0 ∨ mb < 0x100000 ∨ 0x200000 < mb + len) = false := decide_eq_false (by omega)
    refine congrArg Host.Outcome.next ((State.message_ok hok _).trans ((State.pageMessage_ok hsafe hjob hpage hmine hkept _).trans ?_))
    simp only [hbad]
  case first => exact fun h p j k po len last sl body s hnew hstation hk hst hpart hroom => State.sepPart_first hnew hstation hk hst hpart hroom
  case again => exact fun h p j k po len last sl bad body q r s hsep hpart hbody => State.sepPart_again hsep hpart hbody
  case noPage =>
    intro id k po st data s h
    change execPartDone id k po 0 st data s = _
    simp only [execPartDone, h]
  case failed =>
    exact fun id k po res st data p q r s hpage hsep hpart hkept hres => (State.exec_partDone hpage hsep hpart hkept).trans (if_pos hres)
  case stored =>
    intro id k po st data p q r bytes t s hpage hsep hpart hkept hmailbox hplain hread
    have hstream : partStream p r bytes = bytes := if_neg (by rw [hplain]; decide)
    have hsubmit : ¬ (r.body.getD 0 0 = 0 ∧ (!s.winOk (Fin.ofNat 16 (r.body.getD 5 0)) (r.body.getD 6 0) r.len false) = true) :=
      fun hc => by rw [hmailbox] at hc; exact absurd hc.1 (by decide)
    have hencode : ¬ (r.body.getD 2 0 = 1 ∧ (r.body.getD 8 0 % 8 ≠ 0 ∨ (p.alpha = true ∧ p.lineBytes % 2 = 1))) :=
      fun hc => by rw [hplain] at hc; exact absurd hc.1 (by decide)
    rw [State.exec_partDone hpage hsep hpart hkept, if_neg (by decide), if_neg hsubmit, if_neg hencode]
    simp only [hread, hstream]

end Sys2Proof.Machine
end

