-- ==== Sys2Proof/Proofs/BeamAndRegistration.lean ====
section
/-!
PROOFS. O38 and O39: the beam detects and the registration service.
-/
namespace Sys2Proof.Machine

variable {s : State}

/-! ### Beam detects -/

theorem State.beam_modBeam (k : Fin 6) (f : Beam → Beam) : (s.modBeam k f).beam k = f (s.beam k) := by
  simp [State.beam, State.modBeam, State.modSta]

/-- An edge of a station that is there. -/
theorem State.exec_bdEdge {k : Fin 6} (t px : Nat) (hstation : s.hasStation k = true) (hiso : s.on (H.ISOLATED (btPage k)) = false) :
    exec (.bdEdge k t px) s =
      if s.btState k = btStopped ∨ s.hasPeriod k = false ∨ ((s.expected k).px - s.bdWin k ≤ px ∧ (px : Int) ≤ (s.expected k).px + s.bdWin k) then
        .next (s.bdAccept k ⟨t, px⟩)
      else .next ((s.sat (F.BT_CNT_A_STRAY k)).event (btPage k) 4) :=
  if_neg (by simp [hstation, hiso])

theorem State.lockStep_speed {k : Fin 6} {err : Int} (hst : s.btState k = btSpeed) : s.lockStep k err =
    if 16 ≤ (s.beam k).accRun + 1 then
      ((s.modBeam k fun b => { b with accRun := b.accRun + 1 }).modBeam k fun b => { b with acc := 0, lockRun := 0, awayRun := 0 }).wr
        (H.STATE (btPage k)) (if s.hasIndex k then btIndex else btPull)
    else s.modBeam k fun b => { b with accRun := b.accRun + 1 } := by
  refine (if_pos hst).trans ?_
  rw [State.beam_modBeam]
  rfl

/-- A window that ends in the LOCKED state without its edge. -/
theorem State.mayMiss {k : Fin 6} (hstation : s.hasStation k = true) (hst : s.btState k ≠ btStopped) (hperiod : s.hasPeriod k = true)
    (hiso : s.on (H.ISOLATED (btPage k)) = false) (hend : s.bdClose k < (256 * s.time : Int)) :
    ¬ (!s.hasStation k || s.btState k == btStopped || !s.hasPeriod k || s.on (H.ISOLATED (btPage k)) ||
      decide ((256 * s.time : Int) ≤ s.bdClose k)) = true := by
  simp [hstation, hst, hperiod, hiso, hend]

/-- The count of missing pulses leaves the pixel clock. -/
theorem State.toPx_missing (k : Fin 6) (n : Nat) (j : Fin 6) (d : Int) :
    ((s.sat (F.BT_CNT_A_MISSING k)).wr (F.BT_STAT_MISS_RUN k) n).toPx j d = s.toPx j d := by
  have hrd (g : Fld) (hrun : g.key ≠ (F.BT_STAT_MISS_RUN k).key) (hcnt : g.key ≠ (F.BT_CNT_A_MISSING k).key) :
      ((s.sat (F.BT_CNT_A_MISSING k)).wr (F.BT_STAT_MISS_RUN k) n).rd g = s.rd g := by
    rw [State.rd_wr_ne _ hrun, State.sat, State.satAdd, State.rd_wr_ne _ hcnt]
  have hgroup := hrd (F.BT_CFG_GROUP j) (by simp only [Fld.key, F.BT_STAT_MISS_RUN, F.BT_CFG_GROUP]; omega)
    (by simp only [Fld.key, F.BT_CNT_A_MISSING, F.BT_CFG_GROUP]; omega)
  have hsource := hrd F.CK_ROLE_PXA_SRC (by simp only [Fld.key, F.BT_STAT_MISS_RUN, F.CK_ROLE_PXA_SRC]; omega)
    (by simp only [Fld.key, F.BT_CNT_A_MISSING, F.CK_ROLE_PXA_SRC]; omega)
  have hpll : ((s.sat (F.BT_CNT_A_MISSING k)).wr (F.BT_STAT_MISS_RUN k) n).pllOf j = s.pllOf j := by
    simp only [State.pllOf, State.on, hgroup, hsource]
    rfl
  simp only [State.toPx, hpll]
  rfl

theorem State.exec_bdWindowEnd_synth {k : Fin 6} (hstation : s.hasStation k = true) (hst : s.btState k ≠ btStopped)
    (hperiod : s.hasPeriod k = true) (hiso : s.on (H.ISOLATED (btPage k)) = false) (hend : s.bdClose k < (256 * s.time : Int))
    (hlocked : s.btState k = btLocked) (hrun : s.rd (F.BT_STAT_MISS_RUN k) < 2) :
    exec (.bdWindowEnd k) s = .next
      (let s1 := (s.sat (F.BT_CNT_A_MISSING k)).wr (F.BT_STAT_MISS_RUN k) (s.rd (F.BT_STAT_MISS_RUN k) + 1)
       let d := meanDev (s.beam k).devs
       ((((s1.modBeam k fun b => { b with
          lastT := ((s.expected k).t + d).toNat, lastPx := (s.expected k).px + s1.toPx k d, scan := (s.beam k).scan + 1, accRun := 0, lockRun := 0, awayRun := 0 }).event
          (btPage k) 2).facetStep k false).scanStep k)) := by
  have hmin : min 3 (s.rd (F.BT_STAT_MISS_RUN k) + 1) = s.rd (F.BT_STAT_MISS_RUN k) + 1 := by omega
  change execBdWindowEnd k s = _
  rw [execBdWindowEnd, if_neg (State.mayMiss hstation hst hperiod hiso hend)]
  simp only [if_pos hlocked, if_pos hrun, hmin, State.toPx_missing]
  rfl

/-- A third window without an edge. -/
theorem State.exec_bdWindowEnd_third {k : Fin 6} (hstation : s.hasStation k = true) (hst : s.btState k ≠ btStopped)
    (hperiod : s.hasPeriod k = true) (hiso : s.on (H.ISOLATED (btPage k)) = false) (hend : s.bdClose k < (256 * s.time : Int))
    (hlocked : s.btState k = btLocked) (hrun : s.rd (F.BT_STAT_MISS_RUN k) = 2) :
    exec (.bdWindowEnd k) s = .next
      (let u := ((((((s.sat (F.BT_CNT_A_MISSING k)).wr (F.BT_STAT_MISS_RUN k) 3).modBeam k fun b => { b with
         lastT := (s.expected k).t.toNat, lastPx := (s.expected k).px, scan := (s.beam k).scan + 1, lineT := none, linePx := 0, strobe := false }).loseExposing k
         lcBeamMissing).btToSpeed k).event (btPage k) 3).raise (41 + 2 * k.val) (btPage k) 4
       match u.feedNow k with
       | some f => (u.modLink k fun q => { q with waiting := none }).scanEnd k f ((s.beam k).scan + 1 - f.s0)
       | none => u) := by
  have hscan : (((s.beam k).scan : Int) + 1).toNat = (s.beam k).scan + 1 := by omega
  change execBdWindowEnd k s = _
  rw [execBdWindowEnd, if_neg (State.mayMiss hstation hst hperiod hiso hend)]
  simp only [hlocked, hrun, if_true, if_neg (Nat.lt_irrefl 2), hscan] <;> rfl

/-- An index edge that counts. -/
theorem State.exec_indexEdge {k : Fin 6} (hstation : s.hasStation k = true) (hindex : s.hasIndex k = true) (hst : s.btState k ≠ btStopped)
    (hiso : s.on (H.ISOLATED (btPage k)) = false) (bad : Bool)
    (hbad : (match (s.beam k).idxCount with | some c => c != s.facets k.val | none => false) = bad) :
    exec (.indexEdge k) s = .next
      (((s.modBeam k fun b => { b with idxPend := true, idxCount := some 0, idxScans := 0 }).ifDo (s.btState k == btIndex) fun t =>
        (t.modBeam k fun b => { b with lockRun := 0, awayRun := 0 }).wr (H.STATE (btPage k)) btPull).ifDo bad fun t =>
          ((t.sat (F.BT_CNT_B_FACET_SYNC k.val)).event (btPage k) 5).raise (40 + 2 * k.val) (btPage k) 1) := by
  have hcounts : ¬ (!s.hasStation k || !s.hasIndex k.val || s.btState k == btStopped || s.on (H.ISOLATED (btPage k))) = true := by
    simp [hstation, hindex, hst, hiso]
  rw [← hbad]
  exact if_neg hcounts

/-- Settles O38: edges, windows without one, index edges, FREF and underruns. -/
theorem beamDetectCommands : Obligations.BeamDetectCommands := by
  refine ⟨?stopped, ?window, ?stray, ?isolated, ?locking, ?locked, ?synth, ?third, ?before, ?missing, ?notMissing, ?index, ?facet, ?indexStopped,
    ?idxMissing, ?idxSeen, ?fref, ?frefBusy, ?underrun, ?noUnderrun⟩
  case stopped => exact fun k t px s hstation hiso hst => (State.exec_bdEdge t px hstation hiso).trans (if_pos (.inl hst))
  case window => exact fun k t px s hstation hiso _ hlo hhi => (State.exec_bdEdge t px hstation hiso).trans (if_pos (.inr (.inr ⟨hlo, hhi⟩)))
  case stray =>
    intro k t px s hstation hiso hst hperiod hout
    refine (State.exec_bdEdge t px hstation hiso).trans (if_neg ?_)
    rintro (h | h | ⟨hlo, hhi⟩)
    · exact hst h
    · simp [hperiod] at h
    · omega
  case isolated => exact fun k t px s hiso => if_pos (by simp [hiso])
  case locking => exact fun k err s hst hrun => (State.lockStep_speed hst).trans (if_neg (by omega))
  case locked =>
    intro k err s hst hrun hindex
    rw [State.lockStep_speed hst, if_pos (by omega), if_pos hindex]
  case synth => exact fun k s hstation hst hperiod hiso hend hlocked hrun => State.exec_bdWindowEnd_synth hstation hst hperiod hiso hend hlocked hrun
  case third => exact fun k s hstation hst hperiod hiso hend hlocked hrun => State.exec_bdWindowEnd_third hstation hst hperiod hiso hend hlocked hrun
  case before => exact fun k s h => if_pos (by simp [h])
  case missing => exact fun k s hstation hst hperiod hmissed hlate => if_pos (by simpa [hstation, hst, hperiod, hmissed] using hlate)
  case notMissing =>
    intro k s h
    refine if_neg fun hc => ?_
    simp only [Bool.and_eq_true, decide_eq_true_iff, Bool.not_eq_true'] at hc
    obtain ⟨⟨_, hmissed⟩, hlate⟩ := hc
    rcases h with h | h
    · simp [h] at hmissed
    · omega
  case index =>
    intro k s hstation hindex hst hiso hcount
    rw [State.exec_indexEdge hstation hindex (by rw [hst]; decide) hiso false (by rw [hcount]), hst]
    rfl
  case facet =>
    intro k c s hstation hindex hst hiso hcount hne
    rw [State.exec_indexEdge hstation hindex (by rw [hst]; decide) hiso true (by simpa [hcount] using hne), hst]
    rfl
  case indexStopped => exact fun k s h => if_pos (by simp [h])
  case idxMissing => exact fun k s hstation hindex hst hscans => if_pos (by simp [hstation, hindex, hst, hscans])
  case idxSeen => exact fun k s h => if_neg (by simp [h])
  case fref => exact fun a g v s h hfree => (congrArg Host.Outcome.next (s.write_ok h _)).trans (congrArg Host.Outcome.next (if_neg (by simp [hfree])))
  case frefBusy => exact fun a g v s h hbusy => (congrArg Host.Outcome.next (s.write_ok h _)).trans (congrArg Host.Outcome.next (if_pos hbusy))
  case underrun => exact fun k s h => if_pos h
  case noUnderrun => exact fun k s h => if_neg (by simp [h])

/-! ### The registration service -/

/-- A correction that is due, from the results of the sets. -/
theorem State.exec_registrationCorrection_trims {r : Nat} (hrole : s.holder 5 = some r) (hphase : s.sta.reg.phase = 0)
    (hgain : s.rd F.REG_CFG_GAIN ≠ 0) (hnew : s.rd F.REG_STAT_SETS ≠ s.sta.reg.used) (hfree : s.staged 0x041 = false) :
    exec .registrationCorrection s = .next
      (let all := s.sta.reg.set_.map fun k => (k, s.corrections k)
       (s.each all fun x t => t.addClamp (F.PT_STN_TRIM_TICKS x.1) true true x.2.1).ptCommit.modReg fun q => { q with
         phase := 1, used := s.rd F.REG_STAT_SETS, seq := s.rd (H.SEQ 0x041), todo := all.map fun x => (x.1, x.2.2) }) := by
  have hdue : ¬ (s.rd F.REG_CFG_GAIN = 0 ∨ s.rd F.REG_STAT_SETS = s.sta.reg.used ∨
      (s.sta.reg.phase = 2 ∧ s.sta.reg.printed = false) ∨ s.staged ptPage = true) := by
    have hpage : s.staged ptPage = false := hfree
    simp [hgain, hnew, hphase, hpage]
  change execRegistrationCorrection s = _
  rw [execRegistrationCorrection, if_neg (by simp [hrole]), if_neg (by simp [hphase]), if_neg hdue]
  rfl

/-- Nothing is due: no gain, no new set, or the last correction not yet printed. -/
theorem State.exec_registrationCorrection_none (hphase : s.sta.reg.phase ≠ 1)
    (h : s.rd F.REG_CFG_GAIN = 0 ∨ (s.sta.reg.phase = 2 ∧ s.sta.reg.printed = false)) : exec .registrationCorrection s = .next s := by
  change execRegistrationCorrection s = _
  rw [execRegistrationCorrection]
  by_cases hrole : (s.holder 5).isNone = true
  · exact if_pos hrole
  · rw [if_neg hrole, if_neg hphase]
    exact if_pos (h.imp_right fun hprinted => .inr (.inl hprinted))

/-- Settles O39: the marks, the window's close, and the two steps of a correction. -/
theorem registrationCommands : Obligations.RegistrationCommands := by
  refine ⟨?edge, ?shut, ?opens, ?early, ?closes, ?notOpen, ?valid, ?trims, ?rest, ?noGain, ?notPrinted, ?noRole⟩
  case edge => exact fun j st s h => congrArg Host.Outcome.next (if_pos h)
  case shut => exact fun j st s h => congrArg Host.Outcome.next (if_neg (by simp [h]))
  case opens =>
    intro m r s hpages hshut htime
    change execMarkWindowOpen s = _
    simp only [execMarkWindowOpen, hpages]
    exact if_pos ⟨hshut, htime⟩
  case early =>
    intro m r s hpages hearly
    change execMarkWindowOpen s = _
    simp only [execMarkWindowOpen, hpages]
    exact if_neg fun hc => absurd hc.2 (by omega)
  case closes =>
    intro m r s hpages hopen htime
    change execMarkWindowClose s = _
    simp only [execMarkWindowClose, hpages]
    exact if_pos ⟨hopen, htime⟩
  case notOpen =>
    intro s h
    change execMarkWindowClose s = _
    rw [execMarkWindowClose]
    split
    · exact if_neg (by simp [h])
    · rfl
  case valid =>
    intro m s j
    simp [State.validSensors]
  case trims => exact fun r s hrole hphase hgain hnew hfree => State.exec_registrationCorrection_trims hrole hphase hgain hnew hfree
  case rest =>
    intro r s hrole hphase hseq hfree
    change execRegistrationCorrection s = _
    rw [execRegistrationCorrection, if_neg (by simp [hrole]), if_pos hphase]
    refine if_neg ?_
    simp only [hfree, Bool.or_false, decide_eq_true_iff]
    exact hseq
  case noGain => exact fun s hphase hgain => State.exec_registrationCorrection_none (by rw [hphase]; decide) (.inl hgain)
  case notPrinted => exact fun s hphase hprinted => State.exec_registrationCorrection_none (by rw [hphase]; decide) (.inr ⟨hphase, hprinted⟩)
  case noRole => exact fun s h => if_pos (by simp [h])

end Sys2Proof.Machine
end

