-- ==== Sys2Proof/Proofs/Sparing.lean ====
section
/-!
PROOFS. O40 and O41: the resistance test, the withheld emitters, the planner and the head temperature.
-/
namespace Sys2Proof.Machine

variable {s : State}

/-! ### The resistance test -/

theorem State.ilace_modIlace (k : Fin 6) (f : Ilace → Ilace) : (s.modIlace k f).ilace k = f (s.ilace k) := by
  simp [State.ilace, State.modIlace, State.modSta]

/-- A test that is due and may start or must wait. -/
theorem State.mayTest {k : Fin 6} (hstation : s.hasStation k = true) (hiso : s.on (H.ISOLATED (ilPage k)) = false)
    (hrun : s.on (F.IL_TEST_STAT_RUNNING k) = false) (hdue : s.testDue k = true) :
    ¬ (!s.hasStation k || s.on (H.ISOLATED (ilPage k)) || s.on (F.IL_TEST_STAT_RUNNING k.val) || !s.testDue k) = true := by
  simp [hstation, hiso, hrun, hdue]

theorem State.exec_resistanceTestStart {k : Fin 6} (hstation : s.hasStation k = true) (hiso : s.on (H.ISOLATED (ilPage k)) = false)
    (hrun : s.on (F.IL_TEST_STAT_RUNNING k) = false) (hdue : s.testDue k = true) (hwaits : s.testWaits k = false)
    (hfits : s.gapFits k (s.testWindow k) = true) (hst : s.rd (H.STATE (ilPage k)) ≠ 3) :
    exec (.resistanceTestStart k) s = .next
      (let t := ((((((s.wr (F.IL_TEST_STAT_RUNNING k) 1).wr (F.IL_TEST_STAT_PENDING k) 0).wr (H.STATE (ilPage k)) 2).wr (F.IL_TEST_STAT_GOOD k) 0).wr
         (F.IL_TEST_STAT_MARGINAL k) 0).wr (F.IL_TEST_STAT_FAILED k) 0).wr (F.IL_TEST_CNT_DEGRADED k) 0
       t.modIlace k fun q => { q with
         lastTest := s.tl.pitchNo, testAt := s.time, testEnd := s.time + s.testWindow k, emitter := 0, answered := true, timeouts := 0 }) := by
  have hopen : (s.rd (H.STATE (ilPage k)) != ilQuenched) = true := by simpa [ilQuenched] using hst
  change execResistanceTestStart k s = _
  rw [execResistanceTestStart, if_neg (State.mayTest hstation hiso hrun hdue)]
  simp only [hwaits, hfits, hopen, Bool.not_true, Bool.or_self, Bool.false_eq_true, if_false, State.ifDo, if_true]
  rfl

theorem State.exec_testEmitter {k : Fin 6} (hrun : s.on (F.IL_TEST_STAT_RUNNING k) = true) (hmore : (s.ilace k).emitter < s.rd (F.IL_GEOM_NEMIT k))
    (hanswered : (s.ilace k).answered = true) (hdue : 8 * (s.ilace k).testAt + 162500 * (s.ilace k).emitter ≤ 8 * s.time) :
    exec (.testEmitter k) s = .next
      ((s.headSend k 0x10 (s.ilace k).emitter).modIlace k fun q => { q with emitter := q.emitter + 1, answered := false }) := by
  have hnext : ¬ (!s.on (F.IL_TEST_STAT_RUNNING k.val) || decide (s.rd (F.IL_GEOM_NEMIT k.val) ≤ (s.ilace k).emitter) ||
      decide (8 * s.time < 8 * (s.ilace k).testAt + stepAt8 (s.ilace k).emitter)) = true := by
    have hleft : ¬ s.rd (F.IL_GEOM_NEMIT k.val) ≤ (s.ilace k).emitter := Nat.not_le.mpr hmore
    have htime : ¬ 8 * s.time < 8 * (s.ilace k).testAt + stepAt8 (s.ilace k).emitter := by rw [stepAt8]; omega
    simp [hrun, hleft, htime]
  change execTestEmitter k s = _
  rw [execTestEmitter, if_neg hnext]
  simp only [hanswered, Bool.not_true, State.ifDo, Bool.false_eq_true, if_false, hrun, if_true]
  rfl

/-- An answer that is awaited, of class `cls`, its dynamic resistance in range and not drifted. -/
theorem State.exec_testResult {k : Fin 6} {e : Fin 64} {o : Bool} {v1 v2 : Nat} (hrun : s.on (F.IL_TEST_STAT_RUNNING k) = true)
    (hopen : (s.ilace k).answered = false) (hemitter : (s.ilace k).emitter = e + 1) (hv1 : v1 < 65536) (hv2 : v2 < 65536)
    (hlo : 0 ≤ rdynOf v1 v2) (hhi : rdynOf v1 v2 < 65536) {cls : Nat} (hclass : testClass o v1 v2 (s.rd (F.IL_RES_RNOM k e)) = cls)
    (hdrift : drifted (s.rd (F.IL_RES_RDYN k e)) (rdynOf v1 v2) = false) (hsound : cls ≠ 2) :
    exec (.testResult k e o v1 v2) s = .next
      (((((((s.modIlace k fun q => { q with answered := true, timeouts := 0 }).sat (F.IL_RES_TESTS k e)).wr (F.IL_RES_RDYN k e) (rdynOf v1 v2).toNat).wr
        (F.IL_RES_CLASS k e) cls).wr (F.IL_RES_DEGR k e) 0).inc (if cls = 1 then F.IL_TEST_STAT_GOOD k else F.IL_TEST_STAT_FAILED k)).ifDo
          (decide (3 ≤ cls)) (·.emitterDead k e (cls == 4))) := by
  have hawaited : ¬ (!s.on (F.IL_TEST_STAT_RUNNING k.val) || (s.ilace k).answered || (s.ilace k).emitter != e.val + 1) = true := by
    simp [hrun, hopen, hemitter]
  have hmarginal : (cls == 2) = false := by simpa using hsound
  change execTestResult k e o v1 v2 s = _
  rw [execTestResult, if_neg hawaited]
  simp only [Nat.mod_eq_of_lt hv1, Nat.mod_eq_of_lt hv2, hclass, hdrift, hlo, hhi, and_self, if_true, hmarginal, if_neg hsound, Bool.or_self,
    Bool.false_and, State.ifDo, Bool.false_eq_true, if_false]
  rfl

theorem State.exec_testWindowEnd {k : Fin 6} (hrun : s.on (F.IL_TEST_STAT_RUNNING k) = true) (hend : (s.ilace k).testEnd ≤ s.time)
    (hanswered : (s.ilace k).answered = true) : exec (.testWindowEnd k) s = .next (s.testOver k) := by
  change execTestWindowEnd k s = _
  rw [execTestWindowEnd, if_pos (by simp [hrun, hend])]
  simp only [hanswered, Bool.not_true, State.ifDo, Bool.false_eq_true, if_false, hrun, if_true]

theorem State.exec_ilTestNow {a : Agent} {k : Fin 6} {v : Nat} (h : writable s a (ilPage k) 0x058) :
    exec (.ilTestNow a k v) s = .next ((s.fieldsWrite (ilPage k) 0x058 v).ifDo (bit v 31) (·.wr (F.IL_TEST_STAT_PENDING k) 1)) :=
  congrArg Host.Outcome.next (s.write_ok h _)

theorem testClass_open (v1 v2 rnom : Nat) : testClass true v1 v2 rnom = 3 := by
  simp only [testClass, Bool.true_or, if_true]

/-- A drive not open is classed by where its dynamic resistance lies against RNOM. -/
theorem testClass_closed (v1 v2 rnom : Nat) : testClass false v1 v2 rnom =
    if (3 * rnom : Int) < rdynOf v1 v2 then 3
    else if v2 ≤ v1 ∨ 10 * rdynOf v1 v2 < 3 * rnom then 4
    else if (8 * rnom : Int) ≤ 10 * rdynOf v1 v2 ∧ 10 * rdynOf v1 v2 ≤ 12 * rnom then 1
    else 2 := by
  simp only [testClass, Bool.false_or, decide_eq_true_iff]

/-- Without a rise the dynamic resistance is not positive. -/
theorem rdynOf_nonpos {v1 v2 : Nat} (h : v2 ≤ v1) : rdynOf v1 v2 ≤ 0 := by
  rw [rdynOf, tdiv]
  rcases Nat.lt_or_eq_of_le h with hlt | rfl
  · have hneg := Int.tdiv_nonneg (a := -(32 * ((v2 : Int) - v1) + 15)) (b := 30) (by omega) (by decide)
    rw [Int.neg_tdiv] at hneg
    omega
  · simp

/-- Settles O40: the steps of a test, and the four classes. -/
theorem resistanceTestCommands : Obligations.ResistanceTestCommands := by
  refine ⟨?waits, ?starts, ?notDue, ?emitter, ?early, ?good, ?open_, ?notAwaited, ?late, ?answered, ?ends, ?running, ?testNow, ?noTest,
    ?classOpen, ?classHigh, ?classFlat, ?classLow, ?classGood, ?classMarginal⟩
  case waits =>
    intro k s hstation hiso hrun hdue hwaits
    refine (if_neg (State.mayTest hstation hiso hrun hdue)).trans (if_pos ?_)
    rcases hwaits with h | h <;> simp [h]
  case starts => exact fun k s hstation hiso hrun hdue hwaits hfits hst => State.exec_resistanceTestStart hstation hiso hrun hdue hwaits hfits hst
  case notDue => exact fun k s h => if_pos (by simp [h])
  case emitter => exact fun k s hrun hmore hanswered hdue => State.exec_testEmitter hrun hmore hanswered hdue
  case early =>
    intro k s h
    refine if_pos ?_
    have hlt : 8 * s.time < 8 * (s.ilace k).testAt + stepAt8 (s.ilace k).emitter := by rw [stepAt8]; omega
    simp [hlt]
  case good =>
    intro k e v1 v2 s hrun hopen hemitter hv1 hv2 hlo hhi hclass hdrift
    exact State.exec_testResult hrun hopen hemitter hv1 hv2 hlo hhi hclass hdrift (by decide)
  case open_ =>
    intro k e v1 v2 s hrun hopen hemitter hv1 hv2 hlo hhi hdrift
    exact State.exec_testResult hrun hopen hemitter hv1 hv2 hlo hhi (testClass_open v1 v2 _) hdrift (by decide)
  case notAwaited =>
    intro k e o v1 v2 s h
    refine if_pos ?_
    rcases h with h | h <;> simp [h]
  case late =>
    intro k s hrun hopen htime
    refine if_pos ?_
    have hle : 8 * (s.ilace k).testAt + stepAt8 (s.ilace k).emitter ≤ 8 * s.time := by rw [stepAt8]; omega
    simp [hrun, hopen, hle]
  case answered => exact fun k s h => if_neg (by simp [h])
  case ends => exact fun k s hrun hend hanswered => State.exec_testWindowEnd hrun hend hanswered
  case running => exact fun k s h => if_neg (by simp [h])
  case testNow => exact fun a k v s h hbit => (State.exec_ilTestNow h).trans (by rw [hbit]; rfl)
  case noTest => exact fun a k v s h hbit => (State.exec_ilTestNow h).trans (by rw [hbit]; rfl)
  case classOpen => exact testClass_open
  case classHigh => exact fun v1 v2 rnom h => (testClass_closed v1 v2 rnom).trans (if_pos h)
  case classFlat =>
    intro v1 v2 rnom h
    have hnonpos := rdynOf_nonpos h
    rw [testClass_closed, if_neg (by omega), if_pos (.inl h)]
  case classLow =>
    intro v1 v2 rnom _ hlow
    rw [testClass_closed, if_neg (by omega), if_pos (.inr hlow)]
  case classGood =>
    intro v1 v2 rnom hrise hlow hhigh hlo hhi
    rw [testClass_closed, if_neg (by omega), if_neg (by omega), if_pos ⟨hlo, hhi⟩]
  case classMarginal =>
    intro v1 v2 rnom hrise hlow hhigh hout
    rw [testClass_closed, if_neg (by omega), if_neg (by omega), if_neg (by omega)]

/-! ### Withheld emitters -/

/-- A write of IL_DEAD, with no emitter held isolated or none returned. -/
theorem State.exec_ilDeadWrite {a : Agent} {k : Fin 6} {hi : Bool} {v : Nat} {f : Fld} (h : writable s a (ilPage k) (if hi then 0x050 else 0x04C))
    (hf : (if hi then F.IL_DEAD_HI_MASK k.val else F.IL_DEAD_LO_MASK k.val) = f) {cleared : List Nat}
    (hcleared : ((emitters (s.ilDead k)).filter fun i => !bit ((s.wr f v).ilDead k) i) = cleared)
    (hquiet : cleared = [] ∨ (s.ilace k).isolated = []) :
    exec (.ilDeadWrite a k hi v) s = .next ((s.wr f v).ifDo (!cleared.isEmpty) (·.isoRewrite k)) := by
  have hnone : cleared.filter ((s.wr f v).ilace k).isolated.contains = [] := by
    have hsame : (s.wr f v).ilace k = s.ilace k := rfl
    rcases hquiet with h | h
    · rw [h]; rfl
    · simp [hsame, h]
  refine (congrArg Host.Outcome.next (s.write_ok h _)).trans ?_
  simp only [hf, hcleared, hnone]
  rfl

theorem mem_emitters {m i : Nat} : i ∈ emitters m ↔ i < 64 ∧ bit m i = true := by simp [emitters]

theorem returned_none {old new : Nat} (h : ∀ i < 64, bit old i = true → bit new i = true) : ((emitters old).filter fun i => !bit new i) = [] := by
  refine List.filter_eq_nil_iff.mpr fun i hi => ?_
  obtain ⟨hlt, hold⟩ := mem_emitters.mp hi
  simp [h i hlt hold]

theorem returned_some {old new : Nat} (h : ∃ i < 64, bit old i = true ∧ bit new i = false) :
    ((emitters old).filter fun i => !bit new i).isEmpty = false := by
  obtain ⟨i, hlt, hold, hnew⟩ := h
  refine List.isEmpty_eq_false_iff.mpr (List.ne_nil_of_mem (a := i) (List.mem_filter.mpr ⟨mem_emitters.mpr ⟨hlt, hold⟩, by simp [hnew]⟩))

/-! ### The planner -/

/-- A replan that is asked for, with no plan open for its group. -/
theorem State.exec_replan {k : Fin 6} {a b c d : Nat} (hopen : s.sta.plans[s.btGroup k] = none) (hreq : s.on (F.IL_REPLAN_REQ k) = true)
    (hrole : (s.holder 5).isSome = true) {plan : Option (Nat × List (Nat × List Nat))}
    (hplan : planGroup ⟨a, b, c, d⟩ (s.rd F.PT_SPEED_SPEED) ((s.groupStations (s.btGroup k)).map fun j => (j.val, s.headOf j.val)) = plan) :
    (plan = none → exec (.replan k false a b c d) s =
      .next (((s.wr (F.IL_REPLAN_REQ k) 0).event (ilPage k) 7).raise (52 + k.val) (ilPage k) 3)) ∧
    (∀ v4 sets, plan = some (v4, sets) → (∀ j ∈ s.groupStations (s.btGroup k), s.staged (ilPage j) = false ∧ s.v4Now j = v4) →
      (s.rd (F.IL_REPLAN_REASON k) ≠ 2 ∨ s.jobBoundary = true) → exec (.replan k false a b c d) s = .next (s.planCommit v4 sets)) := by
  have hsome : (s.holder 5).isNone = false := by simpa using hrole
  have hstep : exec (.replan k false a b c d) s = execReplan k false a b c d s := rfl
  refine ⟨fun hnone => ?_, fun v4 sets hsets hready hreason => ?_⟩
  · rw [hstep]
    simp only [execReplan, State.ifDo, Bool.false_eq_true, if_false, hopen, hreq, hsome, Bool.not_true, Bool.or_self, hplan, hnone]
  · have hstaged : ((s.groupStations (s.btGroup k)).any fun j => s.staged (ilPage j)) = false :=
      List.any_eq_false.mpr fun j hj => by simp [(hready j hj).1]
    have hspeed : ((s.groupStations (s.btGroup k)).all fun j => s.v4Now j.val == v4) = true :=
      List.all_eq_true.mpr fun j hj => by simp [(hready j hj).2]
    have hnow : ¬ (s.rd (F.IL_REPLAN_REASON k) = 2 ∧ s.jobBoundary = false) := by
      rintro ⟨htwo, hbound⟩
      rcases hreason with h | h
      · exact h htwo
      · simp [hbound] at h
    rw [hstep]
    simp only [execReplan, State.ifDo, Bool.false_eq_true, if_false, hopen, hreq, hsome, Bool.not_true, Bool.or_self, hplan, hsets, hstaged, hspeed,
      if_true, if_neg hnow]

/-! ### The head temperature -/

/-- The state a sample is judged in. -/
def State.thermSampled (k : Fin 6) (code : Nat) (s : State) : State :=
  (s.modIlace k fun q => { q with pairWarn := s.rd (F.IL_THERM_WARN k), pairCut := s.rd (F.IL_THERM_CUT k) }).wr (F.IL_THERM_STAT_TEMP k) code

theorem State.reached_thermSampled (k : Fin 6) (code th : Nat) : (s.thermSampled k code).reached k code th = s.reached k code th := by
  have hpol : (s.thermSampled k code).on (F.IL_THERM2_POL k) = s.on (F.IL_THERM2_POL k) := by
    rw [State.on, State.thermSampled, State.rd_wr_ne _ (by simp only [Fld.key, F.IL_THERM2_POL, F.IL_THERM_STAT_TEMP]; omega)]
    rfl
  rw [State.reached, State.reached, hpol]

theorem State.cap_thermSampled (k : Fin 6) (code : Nat) : (s.thermSampled k code).on (F.IL_THERM_STAT_CAP k) = s.on (F.IL_THERM_STAT_CAP k) := by
  rw [State.on, State.thermSampled, State.rd_wr_ne _ (by simp only [Fld.key, F.IL_THERM_STAT_CAP, F.IL_THERM_STAT_TEMP]; omega)]
  rfl

theorem State.ilace_thermSampled (k : Fin 6) (code : Nat) : (s.thermSampled k code).ilace k =
    { s.ilace k with pairWarn := s.rd (F.IL_THERM_WARN k), pairCut := s.rd (F.IL_THERM_CUT k) } :=
  s.ilace_modIlace k fun q => { q with pairWarn := s.rd (F.IL_THERM_WARN k), pairCut := s.rd (F.IL_THERM_CUT k) }

/-- A sample of a head without a cap. -/
theorem State.exec_htempSample {k : Fin 6} {code : Nat} (hcode : code < 1024) (hstation : s.hasStation k = true) (hgood : s.thermGood k = true)
    (hcap : s.on (F.IL_THERM_STAT_CAP k) = false) : exec (.htempSample k code) s = .next
      ((if s.reached k code (s.rd (F.IL_THERM_WARN k)) && !s.reached k code (s.rd (F.IL_THERM_CUT k)) then
        ((((s.thermSampled k code).wr (F.IL_THERM_STAT_CAP k) 1).modIlace k fun q => { q with capNext := true, cool := false, coolPage := none }).event
          (ilPage k) 8).raise (52 + k.val) (ilPage k) 4
      else s.thermSampled k code).quenchTry k) := by
  have hsampled : (s.thermPair k).wr (F.IL_THERM_STAT_TEMP k) code = s.thermSampled k code := by rw [State.thermPair, if_pos hgood]; rfl
  change execHtempSample k code s = _
  rw [execHtempSample, if_neg (by simp [hstation])]
  simp only [Nat.mod_eq_of_lt hcode, hsampled, State.ilace_thermSampled, State.reached_thermSampled, State.cap_thermSampled, hcap, Bool.not_false,
    Bool.and_true, Bool.false_and, State.ifDo, Bool.false_eq_true, if_false]

theorem State.quenchTry_uncut {k : Fin 6} (h : (s.ilace k).cut = false) : s.quenchTry k = s.modIlace k fun q => { q with release := false } :=
  if_neg (by simp [State.cutOver, h])

/-- Settles O41: the masks, the planner, the samples and the cut. -/
theorem sparingCommands : Obligations.SparingCommands := by
  refine ⟨?deadLo, ?deadHi, ?returned, ?noPlan, ?plan, ?notAsked, ?cool, ?warm, ?headCut, ?cutAlready, ?cut⟩
  case deadLo =>
    intro a k v s h hkept
    exact (State.exec_ilDeadWrite (hi := false) h rfl (returned_none hkept) (.inl rfl)).trans rfl
  case deadHi =>
    intro a k v s h hkept
    exact (State.exec_ilDeadWrite (hi := true) h rfl (returned_none hkept) (.inl rfl)).trans rfl
  case returned =>
    intro a k v s h hiso hback
    rw [State.exec_ilDeadWrite (hi := false) h rfl rfl (.inr hiso)]
    simp only [returned_some hback, Bool.not_false, State.ifDo, if_true, Bool.false_eq_true, if_false]
  case noPlan => exact fun k a b c d s hopen hreq hrole hplan => (State.exec_replan hopen hreq hrole hplan).1 rfl
  case plan =>
    exact fun k a b c d v4 sets s hopen hreq hrole hplan hready hreason => (State.exec_replan hopen hreq hrole hplan).2 v4 sets rfl hready hreason
  case notAsked =>
    intro k a b c d s hopen hreq
    change execReplan k false a b c d s = _
    simp only [execReplan, State.ifDo, Bool.false_eq_true, if_false, hopen, hreq, Bool.not_false, Bool.true_or, if_true]
  case cool =>
    intro k code s hcode hstation hgood hcap hwarn hcut
    have hcut' : ((s.thermSampled k code).ilace k).cut = false := by rw [State.ilace_thermSampled]; exact hcut
    rw [State.exec_htempSample hcode hstation hgood hcap, hwarn]
    simp only [Bool.false_and, Bool.false_eq_true, if_false, State.quenchTry_uncut hcut']
    rfl
  case warm =>
    intro k code s hcode hstation hgood hcap hwarn hcut
    rw [State.exec_htempSample hcode hstation hgood hcap, hwarn, hcut]
    rfl
  case headCut =>
    intro k s hstation hgood
    refine congrArg Host.Outcome.next ((if_pos hstation).trans ?_)
    rw [State.thermPair, if_pos hgood]
  case cutAlready => exact fun k s h => if_pos h
  case cut => exact fun k s h => if_neg (by simp [h])

end Sys2Proof.Machine
end

