-- ==== Sys2Proof/Proofs/HeadLink.lean ====
section
/-!
PROOFS. O42 and O43: the training of a head link, its commands and reports, and the head's memory.
-/
namespace Sys2Proof.Machine

variable {s : State}

/-! ### Training of a head link -/

theorem State.link_modLink (k : Fin 6) (f : Link → Link) : (s.modLink k f).link k = f (s.link k) := by
  simp [State.link, State.modLink, State.modSta]

/-- A link that has a station and is not isolated. -/
theorem State.mayTrain {k : Fin 6} (hstation : s.hasStation k = true) (hiso : s.on (H.ISOLATED (hlPage k)) = false) :
    ¬ (!s.hasStation k || s.on (H.ISOLATED (hlPage k))) = true := by
  simp [hstation, hiso]

theorem State.exec_linkTraining_of_down {k : Fin 6} (hstation : s.hasStation k = true) (hiso : s.on (H.ISOLATED (hlPage k)) = false)
    (hdown : s.hlState k = 0) : exec (.linkTraining k) s = .next (s.train k) :=
  (if_neg (State.mayTrain hstation hiso)).trans (if_pos hdown)

/-- A training link waits for its turn to be sent, then for a status and a map. -/
theorem State.exec_linkTraining_of_training {k : Fin 6} (hstation : s.hasStation k = true) (hiso : s.on (H.ISOLATED (hlPage k)) = false)
    (htraining : s.hlState k = 1) :
    ((s.link k).turnAt = none → (s.link k).laneAt + 20000 ≤ s.time → exec (.linkTraining k) s = .next (s.sendTurn k)) ∧
    (∀ t, (s.link k).turnAt = some t → (s.link k).seen = true → (s.link k).map = none → t + 20000 ≤ s.time →
      exec (.linkTraining k) s = .next (s.remap k)) := by
  have hdown : ¬ s.hlState k = hlDown := by rw [htraining]; decide
  have hstep : exec (.linkTraining k) s = execLinkTraining k s := rfl
  have htrains : s.hlState k = hlTraining := htraining
  rw [hstep, execLinkTraining, if_neg (State.mayTrain hstation hiso), if_neg hdown, if_pos htrains]
  refine ⟨fun hturn hlane => ?_, fun t hturn hseen hmap ht => ?_⟩
  · simp only [hturn, hlane, if_true]
  · simp only [hturn, hseen, hmap, ht, Option.isNone_none, decide_true, Bool.and_self, if_true]

theorem State.exec_linkTraining_of_up {k : Fin 6} (hup : s.hlState k = 2) : exec (.linkTraining k) s = .next s := by
  have hdown : ¬ s.hlState k = hlDown := by rw [hup]; decide
  have htraining : ¬ s.hlState k = hlTraining := by rw [hup]; decide
  change execLinkTraining k s = _
  rw [execLinkTraining, if_neg hdown, if_neg htraining, ite_self]

theorem State.exec_retrain {a : Agent} {k : Fin 6} {v : Nat} (h : writable s a (hlPage k) 0x040) :
    exec (.retrain a k v) s = .next ((s.fieldsWrite (hlPage k) 0x040 v).ifDo (bit v 8) (·.train k)) :=
  congrArg Host.Outcome.next (s.write_ok h _)

theorem State.exec_trainingTimeout {k : Fin 6} (htraining : s.hlState k = 1) (htime : (s.link k).began + 500000 ≤ s.time) :
    exec (.trainingTimeout k) s = (let s1 := s.modLink k fun q => { q with tries := q.tries + 1 }
      if 2 ≤ (s.link k).tries then .next (((s1.wr (H.STATE (hlPage k)) 4).modLink k fun q => { q with turnAt := none, cmds := [], map := none }).raise
        (41 + 2 * k.val) (hlPage k) 1)
      else .next (s1.trainStart k)) := by
  have htries : ((s.modLink k fun q => { q with tries := q.tries + 1 }).link k).tries = (s.link k).tries + 1 := by rw [State.link_modLink]
  refine (if_pos ⟨htraining, htime⟩).trans ?_
  simp only [htries, Nat.reduceLeDiff]
  rfl

/-- A command with its tag is taken out of the list, and then acts by what it is. -/
theorem State.exec_ack {k : Fin 6} {tag : Nat} {c : HeadCmd} (hfind : (s.link k).cmds.find? (·.tag == tag % 256) = some c) :
    (∀ m, c.cmd = 0x02 → (s.link k).map = some m → mapWord m.lanes = c.arg → exec (.ack k tag) s =
      .next ((s.modLink k fun q => { q with cmds := q.cmds.filter (·.tag != tag % 256) }).mapApply k m)) ∧
    (c.cmd = 0x20 → exec (.ack k tag) s =
      .next ((s.modLink k fun q => { q with cmds := q.cmds.filter (·.tag != tag % 256) }).event (hlPage k) 6)) := by
  have hstep : exec (.ack k tag) s = execAck k tag s := rfl
  have hmap : ((s.modLink k fun q => { q with cmds := q.cmds.filter (·.tag != tag % 256) }).link k).map = (s.link k).map := by rw [State.link_modLink]
  refine ⟨fun m hcmd hm harg => ?_, fun hcmd => ?_⟩
  · rw [hstep, execAck]
    simp only [hfind, hcmd, hcLaneMap, if_true, hmap, hm, harg]
  · rw [hstep, execAck]
    simp only [hfind, hcmd, hcLaneMap, hcQuenchOff, Nat.reduceEqDiff, if_false, if_true]

theorem State.exec_ack_unknown {k : Fin 6} {tag : Nat} (h : ∀ c ∈ (s.link k).cmds, c.tag ≠ tag % 256) : exec (.ack k tag) s = .next s := by
  have hfind : (s.link k).cmds.find? (·.tag == tag % 256) = none := List.find?_eq_none.mpr fun c hc => by simpa using h c hc
  change execAck k tag s = _
  simp only [execAck, hfind]

/-- The first command of the list is late: it is sent again, or the link trains. -/
theorem State.exec_cmdAckTimeout {k : Fin 6} {c : HeadCmd} {r : List HeadCmd} (hcmds : (s.link k).cmds = c :: r)
    (hlate : (if s.on (F.HL_STAT_SLOT_MODE k.val) then decide (2 ≤ c.slots) else decide (c.sent + 5000 ≤ s.time)) = true) :
    exec (.cmdAckTimeout k) s = if c.tries < 2 then
      .next ((s.modLink k fun q => { q with cmds := { c with tries := c.tries + 1, sent := s.time, slots := 0 } :: r }).emit (.headCmd k c.cmd c.tag c.arg))
    else .next ((s.raise (40 + 2 * k.val) (hlPage k) 6).train k) := by
  change execCmdAckTimeout k s = _
  simp only [execCmdAckTimeout, hcmds, hlate, if_true]

/-- Settles O42: the states of training, and the commands waiting for their ACK. -/
theorem trainingCommands : Obligations.TrainingCommands := by
  refine ⟨?down, ?turn, ?remap, ?up, ?train, ?retrain, ?noRetrain, ?nextLane, ?noTurn, ?again, ?failed, ?early, ?mapped, ?released, ?unknown,
    ?repeated, ?unanswered, ?noCmd⟩
  case down => exact fun k s hstation hiso hdown => State.exec_linkTraining_of_down hstation hiso hdown
  case turn => exact fun k s hstation hiso htraining => (State.exec_linkTraining_of_training hstation hiso htraining).1
  case remap =>
    exact fun k t s hstation hiso htraining hturn hseen hmap ht =>
      (State.exec_linkTraining_of_training hstation hiso htraining).2 t hturn hseen hmap ht
  case up => exact fun k s hup => State.exec_linkTraining_of_up hup
  case train => exact fun k s => rfl
  case retrain => exact fun a k v s h hbit => (State.exec_retrain h).trans (by rw [hbit]; rfl)
  case noRetrain => exact fun a k v s h hbit => (State.exec_retrain h).trans (by rw [hbit]; rfl)
  case nextLane =>
    intro k t s hturn htraining hseen ht hlane
    change execStatusLaneTimeout k s = _
    simp only [execStatusLaneTimeout, hturn]
    exact if_pos ⟨htraining, hseen, ht, hlane⟩
  case noTurn =>
    intro k s hturn
    change execStatusLaneTimeout k s = _
    simp only [execStatusLaneTimeout, hturn]
  case again => exact fun k s htraining htime htries => (State.exec_trainingTimeout htraining htime).trans (if_neg (by omega))
  case failed => exact fun k s htraining htime htries => (State.exec_trainingTimeout htraining htime).trans (if_pos htries)
  case early => exact fun k s htime => if_neg (by omega)
  case mapped => exact fun k tag c m s hfind hcmd hm harg => (State.exec_ack hfind).1 m hcmd hm harg
  case released => exact fun k tag c s hfind hcmd => (State.exec_ack hfind).2 hcmd
  case unknown => exact fun k tag s h => State.exec_ack_unknown h
  case repeated =>
    exact fun k c r s hcmds hslot hlate htries => (State.exec_cmdAckTimeout hcmds (by simp [hslot, hlate])).trans (if_pos htries)
  case unanswered =>
    exact fun k c r s hcmds hslot hlate htries => (State.exec_cmdAckTimeout hcmds (by simp [hslot, hlate])).trans (if_neg (by omega))
  case noCmd =>
    intro k s hcmds
    change execCmdAckTimeout k s = _
    simp only [execCmdAckTimeout, hcmds]

/-! ### What the head reports -/

theorem State.link_wr (k : Fin 6) (f : Fld) (v : Nat) : (s.wr f v).link k = s.link k := rfl

/-- The state after the heartbeat, the error count, the scan count and the two flags of a status. -/
def State.statusTaken (k : Fin 6) (lane f sc rx : Nat) (s : State) : State :=
  ((((s.modLink k fun q => { q with heard := s.time, seen := true }).satAdd (F.HL_LANE_RXERR k lane) rx).wr (F.HL_HSCAN_EMITTED k) sc).flag
    (F.HL_STAT_HEAD_READY k) (bit f 0)).flag (F.HL_STAT_OWN_CUT k) (bit f 2)

theorem State.healthy_statusTaken (k : Fin 6) (lane f sc rx : Nat) :
    (s.statusTaken k lane f sc rx).rd (F.HL_STAT_HEALTHY k) = s.rd (F.HL_STAT_HEALTHY k) := by
  rw [State.statusTaken, State.flag, State.flag, State.satAdd, State.rd_wr_ne _ (by simp only [Fld.key, F.HL_STAT_HEALTHY, F.HL_STAT_OWN_CUT]; omega),
    State.rd_wr_ne _ (by simp only [Fld.key, F.HL_STAT_HEALTHY, F.HL_STAT_HEAD_READY]; omega),
    State.rd_wr_ne _ (by simp only [Fld.key, F.HL_STAT_HEALTHY, F.HL_HSCAN_EMITTED]; omega),
    State.rd_wr_ne _ (by simp only [Fld.key, F.HL_STAT_HEALTHY, F.HL_LANE_RXERR]; omega)]
  rfl

theorem State.lasting_statusTaken (k : Fin 6) (lane f sc rx : Nat) : ((s.statusTaken k lane f sc rx).link k).lasting = (s.link k).lasting := by
  have hheard := congrArg Link.lasting (s.link_modLink k fun q => { q with heard := s.time, seen := true })
  exact hheard

theorem State.statusHeard {k : Fin 6} (hstation : s.hasStation k = true) (hup : s.hlState k = 1 ∨ s.hlState k = 2)
    (hturn : s.hlState k = 1 → (s.link k).turnAt.isSome = true) :
    ¬ (!s.hasStation k || s.hlState k == hlDown || s.hlState k == hlFailed || (s.hlState k == hlTraining && (s.link k).turnAt.isNone)) = true := by
  rcases hup with h | h
  · have hnone : (s.link k).turnAt.isNone = false := by simpa using hturn h
    simp [hstation, h, hnone, hlDown, hlFailed]
  · simp [hstation, h, hlDown, hlFailed, hlTraining]

/-- A status that turns the link in training names the healthy lanes. -/
theorem State.exec_status_of_training {k : Fin 6} {f l sc rx : Nat} (hstation : s.hasStation k = true) (htraining : s.hlState k = 1)
    (hturn : (s.link k).turnAt.isSome = true) : exec (.status k f l sc rx) s = .next
      (let t := s.statusTaken k (s.link k).lane f sc rx
       let u := t.wr (F.HL_STAT_HEALTHY k) ((l % 512 ||| 2 ^ (s.link k).lane) &&& (511 - (t.link k).lasting % 512))
       if bit f 2 then u.headCutNow k else u.quenchTry k) := by
  have htrains : s.hlState k = hlTraining := htraining
  change execStatus k f l sc rx s = _
  rw [execStatus, if_neg (State.statusHeard hstation (.inl htraining) fun _ => hturn)]
  simp only [if_pos htrains]
  rfl

/-- The lanes a status of an up link finds without lock, once more than before. -/
def State.unlockRuns (k : Fin 6) (lane l : Nat) (s : State) : Vector Nat 9 :=
  Vector.ofFn fun (n : Fin 9) =>
    if ((bit (s.rd (F.HL_STAT_HEALTHY k)) n && (n != lane || s.on (F.HL_STAT_SLOT_MODE k))) && !bit l n) = true then (s.link k).unlocked[n] + 1 else 0

theorem State.unlockRuns_of_locked {k : Fin 6} {lane l : Nat} (h : ∀ n < 9, bit (s.rd (F.HL_STAT_HEALTHY k)) n = true → bit l n = true) :
    s.unlockRuns k lane l = Vector.replicate 9 0 := by
  refine Vector.ext fun i hi => ?_
  have hlocked : ((bit (s.rd (F.HL_STAT_HEALTHY k)) i && (i != lane || s.on (F.HL_STAT_SLOT_MODE k))) && !bit l i) = false := by
    cases hhealthy : bit (s.rd (F.HL_STAT_HEALTHY k)) i with
    | false => rfl
    | true => simp [h i hi hhealthy]
  rw [State.unlockRuns, Vector.getElem_ofFn, Vector.getElem_replicate]
  exact if_neg (by simp [hlocked])

theorem unlocked_none : ((List.finRange 9).filter fun n : Fin 9 => 4 ≤ (Vector.replicate 9 0 : Vector Nat 9)[n]) = [] := by decide

/-- The lanes without lock are counted, and one at its fourth time fails. -/
def State.lanesJudged (k : Fin 6) (lane l : Nat) (s : State) : State :=
  let t := s.modLink k fun q => { q with unlocked := s.unlockRuns k lane l }
  t.each ((List.finRange 9).filter fun n => 4 ≤ (t.link k).unlocked[n]) fun n u => u.laneFail k n

theorem State.lanesJudged_of_locked {k : Fin 6} {lane l : Nat} (h : ∀ n < 9, bit (s.rd (F.HL_STAT_HEALTHY k)) n = true → bit l n = true) :
    s.lanesJudged k lane l = s.modLink k fun q => { q with unlocked := Vector.replicate 9 0 } := by
  simp only [State.lanesJudged, State.unlockRuns_of_locked h, State.link_modLink, unlocked_none]
  rfl

/-- A status of an up link whose carrying lanes are all locked. -/
theorem State.exec_status_of_up {k : Fin 6} {f l sc rx : Nat} (hstation : s.hasStation k = true) (hup : s.hlState k = 2)
    (hlocked : ∀ n < 9, bit (s.rd (F.HL_STAT_HEALTHY k)) n = true → bit l n = true) (hcut : bit f 2 = false) :
    exec (.status k f l sc rx) s = .next
      (((s.statusTaken k (s.rd (F.HL_STAT_SLANE k)) f sc rx).modLink k fun q => { q with unlocked := Vector.replicate 9 0 }).quenchTry k) := by
  have htraining : ¬ s.hlState k = hlTraining := by rw [hup]; decide
  have hjudged := State.lanesJudged_of_locked (s := s.statusTaken k (s.rd (F.HL_STAT_SLANE k)) f sc rx) (k := k) (lane := s.rd (F.HL_STAT_SLANE k)) (l := l)
    fun n hn => by rw [State.healthy_statusTaken]; exact hlocked n hn
  change execStatus k f l sc rx s = _
  rw [execStatus, if_neg (State.statusHeard hstation (.inr hup) fun h => by omega)]
  simp only [if_neg htraining]
  exact congrArg Host.Outcome.next ((if_neg (by simp [hcut])).trans (congrArg (State.quenchTry k) hjudged))

/-- A scan error of no page's scans that names no lane. -/
theorem State.exec_scanErr_of_none {k : Fin 6} {sc : Nat} (hspan : s.spanOf k (sc % 2 ^ 24) = none) : exec (.scanErr k sc 0) s = .next
    ((((s.sat (F.HL_CNT_A_SCAN_ERR k)).modLink k fun q => { q with
      errors := q.errors.filter fun e => (sc % 2 ^ 24 + 2 ^ 24 - e.2) % 2 ^ 24 < (s.sat (F.HL_CNT_A_SCAN_ERR k)).rd (F.HL_SPARE_WIN k) }).event (hlPage k) 3).raise
        (40 + 2 * k.val) (hlPage k) 3) := by
  have hnamed : ((List.finRange 9).filter fun l : Fin 9 => bit 0 l) = [] := by decide
  change execScanErr k sc 0 s = _
  simp only [execScanErr, hspan, hnamed, List.filter_nil, List.map_nil, List.nil_append]
  rfl

/-- Settles O43: what the head reports, what the link repeats, and the head's memory. -/
theorem headLinkCommands : Obligations.HeadLinkCommands := by
  refine ⟨?lockLost, ?notHealthy, ?turned, ?up, ?noStatus, ?scanErr, ?silent, ?heard, ?quench, ?noQuench, ?align, ?noAlign, ?slot, ?noSlot,
    ?accepted, ?bad, ?differs⟩
  case lockLost => exact fun k s => rfl
  case notHealthy =>
    intro k n s h
    rw [State.laneFail]
    exact if_neg (by simp [h])
  case turned =>
    intro k f l sc rx s hstation htraining hturn hbit
    rw [State.exec_status_of_training hstation htraining hturn]
    simp only [State.lasting_statusTaken, hbit, if_true]
    rw [State.statusTaken, hbit]
  case up =>
    intro k f l sc rx s hstation hup hlocked hcut
    rw [State.exec_status_of_up hstation hup hlocked hcut, State.statusTaken, hcut]
  case noStatus =>
    intro k f l sc rx s h
    refine if_pos ?_
    rcases h with h | h <;> simp [h, hlDown, hlFailed]
  case scanErr => exact fun k sc s hspan => State.exec_scanErr_of_none hspan
  case silent => exact fun k s hstate htime => if_pos ⟨hstate, htime⟩
  case heard => exact fun k s htime => if_neg (by omega)
  case quench => exact fun k s hon htime => if_pos (by simp [hon, htime])
  case noQuench => exact fun k s hoff => if_neg (by simp [hoff])
  case align =>
    intro k s hup htime
    refine ⟨s.freeVal 65536, if_pos ?_⟩
    have htraining : ¬ s.hlState k = hlTraining := by rw [hup]; decide
    rw [if_neg htraining]
    simpa using ⟨hup, htime⟩
  case noAlign =>
    intro k s htime
    refine if_neg ?_
    split <;> simp only [decide_eq_true_iff] <;> omega
  case slot => exact fun k s hup hslot htime => if_pos ⟨.inl hup, hslot, .inr htime⟩
  case noSlot => exact fun k s hoff => if_neg (by simp [hoff])
  case accepted =>
    intro k m s hstation hgood hsame
    change execHeadMemoryRead k m s = _
    simp only [execHeadMemoryRead, hstation, hgood, hsame, Bool.not_true, Bool.false_eq_true, if_false]
  case bad =>
    intro k m s hstation hbad
    change execHeadMemoryRead k m s = _
    simp only [execHeadMemoryRead, hstation, hbad, Bool.not_true, Bool.false_eq_true, if_false, if_true]
  case differs =>
    intro k m s hstation hgood hdiffers
    change execHeadMemoryRead k m s = _
    simp only [execHeadMemoryRead, hstation, hgood, hdiffers, Bool.not_true, Bool.false_eq_true, if_false, if_true]

end Sys2Proof.Machine
end

