-- ==== Sys2Proof/Proofs/EdkarPort.lean ====
section
/-!
PROOFS. O44 and O45: the cycle, windows and commands of an Edkar port, and the frames of its modules.
-/
namespace Sys2Proof.Machine

variable {s : State}

/-! ### The state of a port and its modules -/

theorem State.ed_modPort (p : Fin 2) (f : EdPort → EdPort) : (s.modPort p f).ed[p] = f s.ed[p] := by
  simp [State.modPort]

theorem State.edMod_modMod (p : Fin 2) (m : Fin 16) (f : EdModule → EdModule) : (s.modMod p m f).edMod p m = f (s.edMod p m) := by
  simp [State.edMod, State.modMod, State.modPort]

theorem State.modMod_congr {p : Fin 2} {m : Fin 16} {f g : EdModule → EdModule} (h : f (s.edMod p m) = g (s.edMod p m)) :
    s.modMod p m f = s.modMod p m g := by
  simp only [State.modMod, State.modPort]
  rw [show f s.ed[p].mods[m] = g s.ed[p].mods[m] from h]

theorem State.portState_modPort (p : Fin 2) (f : EdPort → EdPort) (p' : Fin 2) : (s.modPort p f).portState p' = s.portState p' := rfl

theorem State.portState_enable (p : Fin 2) (v : Nat) : (s.wr (F.ED_CFG_PORT_EN p) v).portState p = s.portState p := by
  rw [State.portState, State.portState, State.rd_wr_ne _ (by simp only [Fld.key, H.STATE, F.ED_CFG_PORT_EN, edPage]; omega)]

theorem State.portState_badCycle (p : Fin 2) (v : Nat) : (s.wr (F.ED_CNT_A_BAD_CYCLES p) v).portState p = s.portState p := by
  rw [State.portState, State.portState, State.rd_wr_ne _ (by simp only [Fld.key, H.STATE, F.ED_CNT_A_BAD_CYCLES, edPage]; omega)]

/-! ### The cycle and its windows -/

theorem State.exec_edkarCycle {p : Fin 2} (hrun : s.portState p = 2) (hcycle : s.ed[p].cycleAt ≤ s.time / 100000 * 100000)
    (henum : ((s.boundary (edPage p)).edJudge p).portState p ≠ 1) : exec (.edkarCycle p) s = .next (
      let b := s.time / 100000 * 100000
      let t0 := ((((s.boundary (edPage p)).edJudge p).wr (F.ED_CYCLE_N p) (b / 100000)).modPort p fun q => { q with cycleAt := b + 1, enumLeft := q.enumLeft - 1 }).ifDo
        (p == 1) (·.edBegin)
      let probe := t0.edProbe p
      let polled := modules.filter fun (m : Fin 16) => t0.modPresent p m || (t0.edMod p m).quarantine || some m == probe
      ((((t0.modPort p fun q => { q with rotate := (probe.map (·.val)).getD q.rotate }).emit
        (.frame p 0 0x01 0 0 (leBytes (b / 100000) 4 ++ leBytes b 8))).each polled fun m u => u.edPoll p m (some m == probe))).hwReact) := by
  have hdue : ¬ (s.portState p = 0 ∨ s.time / 100000 * 100000 < s.ed[p].cycleAt) := by omega
  refine (if_neg hdue).trans ?_
  rw [if_neg fun h => henum h.1]

/-- The state after an activity outside every window has been counted. -/
def State.badCycle (p : Fin 2) (s : State) : State :=
  (s.modPort p fun q => { q with badNow := true, badRun := q.badRun + 1, goodRun := 0 }).sat (F.ED_CNT_A_BAD_CYCLES p)

theorem State.badRun_badCycle (p : Fin 2) : (s.badCycle p).ed[p].badRun = s.ed[p].badRun + 1 :=
  congrArg EdPort.badRun (s.ed_modPort p fun q => { q with badNow := true, badRun := q.badRun + 1, goodRun := 0 })

theorem State.edActivity_counted {p : Fin 2} (hrun : s.portState p ≠ 0) (hfirst : s.ed[p].badNow = false) :
    s.edActivity p = if 3 ≤ s.ed[p].badRun + 1 ∧ s.portState p ≠ 3 then
      ((((s.badCycle p).wr (H.STATE (edPage p)) 3).ifDo (p == 1) (·.refuseOpen)).pathReport).raise (224 + 2 * p.val) (edPage p) 1
    else s.badCycle p := by
  have hstate : (s.badCycle p).portState p = s.portState p := State.portState_badCycle p _
  have hcounts : ¬ (s.portState p = 0 ∨ s.ed[p].badNow = true) := fun h => h.elim hrun fun hbad => Bool.noConfusion (hfirst.symm.trans hbad)
  refine (if_neg hcounts).trans ?_
  change (if 3 ≤ (s.badCycle p).ed[p].badRun ∧ (s.badCycle p).portState p ≠ 3 then _ else _) = _
  rw [State.badRun_badCycle, hstate]
  rfl

/-- A frame in an open window is counted, unless its module is throttled and has had its frames. -/
theorem State.edTake_ok {p : Fin 2} {m : Fin 16} {f : State → State} (hrun : s.portState p ≠ 0) (hm : m ≠ 0) (hwindow : (s.edMod p m).window = true)
    (hthrottle : s.modState p m = edThrottled → (s.edMod p m).frames < max 1 (s.rd (F.ED_LIMIT_THR_FRAMES p))) :
    s.edTake p m f = f (s.modMod p m fun q => { q with frames := q.frames + 1, active := true }) := by
  have hdropped : ¬ (s.modState p m = edThrottled ∧ max 1 (s.rd (F.ED_LIMIT_THR_FRAMES p)) < (s.edMod p m).frames + 1) := by
    rintro ⟨hst, hlt⟩
    have := hthrottle hst
    omega
  have hopen : ¬ ((!(s.edMod p m).window) = true) := by simp [hwindow]
  exact (if_neg (by simp [hrun, hm])).trans ((if_neg hopen).trans (if_neg hdropped))

theorem State.edTake_closed {p : Fin 2} {m : Fin 16} {f : State → State} (hrun : s.portState p ≠ 0) (hm : m ≠ 0)
    (hwindow : (s.edMod p m).window = false) : s.edTake p m f = s.edActivity p :=
  (if_neg (by simp [hrun, hm])).trans (if_pos (by simp [hwindow]))

/-- The state after the window of a module without a transaction has closed. -/
def State.windowClosed (p : Fin 2) (m : Fin 16) (s : State) : State :=
  s.modMod p m fun q => { q with
    window := false, silentRun := if q.active then 0 else q.silentRun + 1, malfRun := if q.active && !q.valid then q.malfRun + 1 else 0 }

theorem State.exec_moduleWindowClose {p : Fin 2} {m : Fin 16} (hrun : s.portState p ≠ 0) (hwindow : (s.edMod p m).window = true)
    (htrans : (s.edMod p m).trans = none) : exec (.moduleWindowClose p m) s =
      if !(s.windowClosed p m).modPresent p m then .next (s.windowClosed p m).hwReact
      else if 3 ≤ ((s.windowClosed p m).edMod p m).silentRun then
        .next (((((s.windowClosed p m).leaveBus p m).setModState p m 0).pathReport).raise (224 + 2 * p.val) (edPage p) 0)
      else if 8 ≤ ((s.windowClosed p m).edMod p m).malfRun then .next ((s.windowClosed p m).edConflict p m)
      else .next (s.windowClosed p m).hwReact := by
  have hopen : ¬ (s.portState p = 0 ∨ (!(s.edMod p m).window) = true) := by simp [hrun, hwindow]
  have hunanswered : s.edUnanswered p m = s := by simp only [State.edUnanswered, htrans]
  refine (if_neg hopen).trans ?_
  rw [hunanswered]
  rfl

/-! ### Budgets -/

/-- The state after a violation has been counted. -/
def State.violationCounted (p : Fin 2) (m : Fin 16) (s : State) : State :=
  (s.sat (F.ED_MOD_VIOL p m)).modMod p m fun q =>
    { q with violated := true, violTimes := s.time :: q.violTimes.filter fun t => decide (s.time < t + 100000000) }

theorem State.violTimes_violationCounted (p : Fin 2) (m : Fin 16) : ((s.violationCounted p m).edMod p m).violTimes.length =
    ((s.edMod p m).violTimes.filter fun t => decide (s.time < t + 100000000)).length + 1 := by
  rw [State.violationCounted, State.edMod_modMod]
  rfl

theorem State.exec_budgetViolation {p : Fin 2} {m : Fin 16} (hrun : s.portState p ≠ 0) (hm : m ≠ 0) (hfirst : (s.edMod p m).violated = false) :
    exec (.budgetViolation p m) s = if s.modState p m = edActive then .next ((s.violationCounted p m).setModState p m edThrottled)
      else if s.modState p m = edThrottled ∧ s.rd (F.ED_LIMIT_QUAR_CNT p) ≤ ((s.violationCounted p m).edMod p m).violTimes.length then
        .next ((((s.violationCounted p m).edSilence p m edQuarantined).pathReport).raise (225 + 2 * p.val) (edPage p) 3)
      else .next (s.violationCounted p m) :=
  if_neg (by simp [hrun, hm, hfirst])

/-! ### PORT_EN and CLEAR -/

theorem State.exec_portStop {a : Agent} {p : Fin 2} (h : writable s a (edPage p) 0x040) : exec (.portStop a p) s =
    .next ((((s.wr (F.ED_CFG_PORT_EN p) 0).ifDo (s.portState p != 0) (·.portStop p)).pathReport).hwReact) :=
  congrArg Host.Outcome.next (s.write_ok h _)

theorem State.exec_portStart {a : Agent} {p : Fin 2} (h : writable s a (edPage p) 0x040) :
    exec (.portStart a p) s = .next (if s.portState p ≠ 0 then s.wr (F.ED_CFG_PORT_EN p) 1
      else ((s.wr (F.ED_CFG_PORT_EN p) 1).modPort p fun q =>
        { q with rotate := 0, enumLeft := 15, badRun := 0, goodRun := 0, badNow := false, cycleAt := 0 }).wr (H.STATE (edPage p)) 1) := by
  refine (congrArg Host.Outcome.next (s.write_ok h _)).trans ?_
  rw [State.portStart, State.portState_enable]

/-- Settles O44: the cycle, the windows, the budgets, and the commands of a port. -/
theorem edkarPortCommands : Obligations.EdkarPortCommands := by
  refine ⟨?stopped, ?notDue, ?cycle, ?bad, ?degraded, ?noActivity, ?malformed, ?outside, ?closed, ?silent, ?noWindow, ?throttled, ?quarantined,
    ?violated, ?expired, ?notThrottled, ?authDue, ?noAuth, ?stop, ?stopAgain, ?start, ?startAgain, ?clear, ?noClear⟩
  case stopped => exact fun p s h => if_pos (.inl h)
  case notDue => exact fun p s h => if_pos (.inr h)
  case cycle => exact fun p s hrun hcycle henum => State.exec_edkarCycle hrun hcycle henum
  case bad =>
    intro p s hrun hfirst hfew
    exact congrArg Host.Outcome.next ((State.edActivity_counted hrun hfirst).trans (if_neg (by omega)))
  case degraded =>
    intro s hrun hfirst hmany
    exact congrArg Host.Outcome.next ((State.edActivity_counted (by omega) hfirst).trans (if_pos ⟨Nat.succ_le_succ hmany, by omega⟩))
  case noActivity =>
    intro p s h
    exact congrArg Host.Outcome.next (if_pos h)
  case malformed =>
    intro p m s hrun hm hwindow hst
    exact congrArg Host.Outcome.next (State.edTake_ok hrun hm hwindow fun h => absurd h hst)
  case outside => exact fun p m s hrun hm hwindow => congrArg Host.Outcome.next (State.edTake_closed hrun hm hwindow)
  case closed =>
    intro p m s hrun hwindow htrans hactive hvalid
    have hclosed : s.windowClosed p m = s.modMod p m fun q => { q with window := false, silentRun := 0, malfRun := 0 } :=
      State.modMod_congr (by simp [hactive, hvalid])
    rw [State.exec_moduleWindowClose hrun hwindow htrans, hclosed, State.edMod_modMod]
    split <;> rfl
  case silent =>
    intro p m s hrun hwindow htrans hactive hpresent hrun3
    have hclosed : s.windowClosed p m = s.modMod p m fun q => { q with window := false, silentRun := q.silentRun + 1, malfRun := 0 } :=
      State.modMod_congr (by simp [hactive])
    have hstill : ¬ ((!(s.windowClosed p m).modPresent p m) = true) := by
      rw [show (s.windowClosed p m).modPresent p m = s.modPresent p m from rfl]
      simp [hpresent]
    rw [State.exec_moduleWindowClose hrun hwindow htrans, if_neg hstill, hclosed, State.edMod_modMod]
    exact if_pos (Nat.succ_le_succ hrun3)
  case noWindow => exact fun p m s h => if_pos (by simp [h])
  case throttled => exact fun p m s hrun hm hfirst hst => (State.exec_budgetViolation hrun hm hfirst).trans (if_pos hst)
  case quarantined =>
    intro p m s hrun hm hfirst hst hmany
    have hactive : ¬ s.modState p m = edActive := by rw [hst]; decide
    rw [State.exec_budgetViolation hrun hm hfirst, if_neg hactive, if_pos ⟨hst, by rw [State.violTimes_violationCounted]; exact hmany⟩]
    rfl
  case violated => exact fun p m s h => if_pos (by simp [h])
  case expired =>
    intro p m s hst hold
    exact if_pos ⟨hst, List.all_eq_true.mpr fun t ht => by simpa using hold t ht⟩
  case notThrottled => exact fun p m s h => if_neg fun hst => h hst.1
  case authDue =>
    intro p m s hperiod hen hpresent hsup hkey hdue
    exact if_pos ⟨hperiod, hen, hpresent, hsup, hkey, hdue⟩
  case noAuth => exact fun p m s h => if_neg fun hdue => hdue.1 h
  case stop =>
    intro a p s h hrun
    rw [State.exec_portStop h, show (s.portState p != 0) = true by simpa using hrun]
    rfl
  case stopAgain =>
    intro a p s h hstopped
    rw [State.exec_portStop h, hstopped]
    rfl
  case start => exact fun a p s h hstopped => (State.exec_portStart h).trans (congrArg Host.Outcome.next (if_neg (by simpa using hstopped)))
  case startAgain => exact fun a p s h hrun => (State.exec_portStart h).trans (congrArg Host.Outcome.next (if_pos hrun))
  case clear =>
    intro a p m s h hm hst
    exact (congrArg Host.Outcome.next (s.write_ok h _)).trans (congrArg Host.Outcome.next (if_pos ⟨hm, hst⟩))
  case noClear =>
    intro a p m s h hquar hconf
    refine (congrArg Host.Outcome.next (s.write_ok h _)).trans (congrArg Host.Outcome.next (if_neg ?_))
    rintro ⟨-, hst | hst⟩
    · exact hquar hst
    · exact hconf hst

/-! ### The frames of the modules -/

theorem State.edMod_frameTaken (p : Fin 2) (m : Fin 16) : ((s.frameTaken p m).edMod p m).eack = (s.edMod p m).eack ∧
    ((s.frameTaken p m).edMod p m).trans = (s.edMod p m).trans := by
  rw [State.frameTaken]
  split <;> simp [State.edMod_modMod]

/-- A frame that its port takes has its effect in the state that marks it. -/
theorem State.edFrame_ok {p : Fin 2} {m : Fin 16} {type tid : Nat} {payload tag : List Nat} (f : State → State)
    (h : frameOk s p m type tid payload tag) : s.edFrame p m type tid payload tag f = f (s.frameTaken p m) := by
  obtain ⟨hrun, hm, hwindow, hthrottle, hauth⟩ := h
  have htag (t : State) (ht : t = s.modMod p m fun q => { q with frames := q.frames + 1, active := true }) :
      t.edTag p m type tid payload = s.edTag p m type tid payload := by
    subst ht
    simp only [State.edTag, State.edMod_modMod]
    rfl
  have hauthed (g : EdModule → EdModule) : (s.modMod p m g).edAuthed p m = s.edAuthed p m := rfl
  rw [State.edFrame, State.edTake_ok hrun hm hwindow hthrottle]
  simp only [hauthed, State.frameTaken]
  rcases hauth with ⟨hyes, hlen, htags⟩ | ⟨hno, hempty, hheard⟩
  · rw [if_pos hyes, if_pos hyes, if_neg (by simp [hlen]), if_pos (by rw [htag _ rfl]; exact htags)]
  · have hadmitted : ¬ (s.on (F.ED_CFG_AUTH_EN p) = true ∧ (!s.modHeard p m) = true) := by
      rintro ⟨hen, hnot⟩
      rcases hheard with hoff | hon
      · simp [hoff] at hen
      · simp [hon] at hnot
    have hoff : ¬ s.edAuthed p m = true := by simp [hno]
    rw [if_neg hoff, if_neg hoff, if_neg (by simp [hempty])]
    exact if_neg hadmitted

/-- The reply that the open transaction of a module waits for ends it. -/
theorem State.edReply_ok {p : Fin 2} {m : Fin 16} {wants : List Nat} {tid : Nat} {tr : EdTrans} (f : EdTrans → State → State)
    (htrans : (s.edMod p m).trans = some tr) (hwanted : wants.contains tr.type = true) (htid : tr.tid = tid) (hopen : tr.answered = false) :
    s.edReply p m wants tid f = f tr (s.modMod p m fun q => { q with trans := none }) := by
  simp only [State.edReply, htrans, hwanted, htid, hopen, beq_self_eq_true, Bool.not_false, Bool.and_self, if_true]

theorem State.exec_identity {p : Fin 2} {m : Fin 16} {tid v mo ser ver cls caps : Nat} (hrun : s.portState p ≠ 0) (hm : m ≠ 0)
    (hwindow : (s.edMod p m).window = true) (hst : s.modState p m ≠ edThrottled) : exec (.identity p m tid v mo ser ver cls caps) s = .next
      (let t := (s.modMod p m fun q => { q with frames := q.frames + 1, active := true }).modMod p m fun q => { q with valid := true }
       if s.modPresent p m then if (t.edMod p m).serial = some ser then t else t.edConflict p m
       else if s.modState p m = edAbsent then t.edReply p m [0x03] tid fun _ u => u.edIdentify p m v mo ser caps
       else t) :=
  congrArg Host.Outcome.next (State.edTake_ok hrun hm hwindow fun h => absurd h hst)

theorem State.modState_setAuthed (p m m' : Nat) (b : Bool) : (s.setAuthed p m b).modState p m' = s.modState p m' := by
  rw [State.setAuthed, State.modState, State.modState, State.rd_wr_ne _ (by simp only [Fld.key, F.ED_MOD_STATE, F.ED_PRESENT_AUTHED]; omega)]

/-- The state in which the response of a module is judged. -/
def State.responseTaken (p : Fin 2) (m : Fin 16) (s : State) : State :=
  (((s.modMod p m fun q => { q with frames := q.frames + 1, active := true }).modMod p m fun q => { q with valid := true }).modMod p m
    fun q => { q with trans := none })

theorem State.edKey_modMod (p p' : Fin 2) (m m' : Fin 16) (f : EdModule → EdModule) : (s.modMod p m f).edKey p' m' = s.edKey p' m' := rfl

theorem State.modState_modMod (p : Fin 2) (m : Fin 16) (f : EdModule → EdModule) (p' m' : Nat) : (s.modMod p m f).modState p' m' = s.modState p' m' := rfl

/-- A response to the challenge that waits for one. -/
theorem State.exec_authResponse {p : Fin 2} {m : Fin 16} {tid : Nat} {r : List Nat} {tr : EdTrans} (hrun : s.portState p ≠ 0) (hm : m ≠ 0)
    (hwindow : (s.edMod p m).window = true) (hst : s.modState p m ≠ edThrottled) (htrans : (s.edMod p m).trans = some tr) (htype : tr.type = 0x04)
    (htid : tr.tid = tid) (hopen : tr.answered = false) :
    (s.edKey p m = none → exec (.authResponse p m tid r) s = .next (s.responseTaken p m)) ∧
    (∀ k, s.edKey p m = some k → s.modState p m = 1 → r = Config.cmac k (0x02 :: ((s.edMod p m).chal ++ leBytes ((s.edMod p m).serial.getD 0) 8)) →
      exec (.authResponse p m tid r) s = .next ((((s.responseTaken p m).modMod p m fun q => { q with
        key := Config.cmac k (0x01 :: ((s.edMod p m).chal ++ leBytes ((s.edMod p m).serial.getD 0) 8)), authFails := 0, tagFails := 0 }).setAuthed p m
          true).setModState p m 2)) := by
  have htaken (f : State → State) : s.edTake p m f = _ := State.edTake_ok hrun hm hwindow fun h => absurd h hst
  have htrans' : ((State.modMod p m (fun q => { q with valid := true }) (s.modMod p m fun q => { q with frames := q.frames + 1, active := true })).edMod
      p m).trans = some tr := by rw [State.edMod_modMod, State.edMod_modMod]; exact htrans
  have hstep : exec (.authResponse p m tid r) s = execAuthResponse p m tid r s := rfl
  rw [hstep, execAuthResponse, htaken, State.edReply_ok _ htrans' (by simp [htype]) htid hopen]
  refine ⟨fun hkey => ?_, fun k hkey hident hr => ?_⟩
  · simp only [State.edKey_modMod, hkey]
    rfl
  · simp only [State.edKey_modMod, hkey, State.edMod_modMod, hr, if_true, State.modState_setAuthed, State.modState_modMod, hident]
    rfl

/-- A reply for the sheet of the transaction that waits for it. -/
theorem State.exec_sheetReply {p : Fin 2} {m : Fin 16} {tid sh d : Nat} {tag : List Nat} {tr : EdTrans} (h : frameOk s p m 0x44 tid (leBytes sh 4 ++ [d]) tag)
    (hlow : 1 ≤ d) (hhigh : d < 4) (htrans : (s.edMod p m).trans = some tr) (htype : tr.type = 0x05 ∨ tr.type = 0x07) (htid : tr.tid = tid)
    (hopen : tr.answered = false) (hsheet : leNat (tr.payload.take 4) = sh) : exec (.sheetReply p m tid sh d tag) s = .next
      (let u := (s.frameTaken p m).modMod p m fun q => { q with trans := none }
       if tr.type = 0x05 then u.announceReply m sh d else u.feedReply sh d) := by
  refine (congrArg Host.Outcome.next (State.edFrame_ok _ h)).trans ?_
  have htrans' := (State.edMod_frameTaken (s := s) p m).2.trans htrans
  rw [if_neg (by omega), State.edReply_ok _ htrans' (by rcases htype with h | h <;> simp [h]) htid hopen, if_neg (by simp [hsheet]), if_neg (by omega)]

/-- The next event of a module. -/
theorem State.exec_moduleEvent {p : Fin 2} {m : Fin 16} {es code sh ti : Nat} {tag : List Nat}
    (h : frameOk s p m 0x46 0 ([es, code] ++ leBytes sh 4 ++ leBytes ti 8) tag) :
    (es ≠ (s.edMod p m).eack % 255 + 1 → exec (.moduleEvent p m es code sh ti tag) s = .next (s.frameTaken p m)) ∧
    (es = (s.edMod p m).eack % 255 + 1 →
      (code = 1 → exec (.moduleEvent p m es code sh ti tag) s = .next
        (((s.frameTaken p m).modMod p m fun q => { q with eack := es }).modMod p m fun q => { q with received := sh :: q.received })) ∧
      (code = 2 → exec (.moduleEvent p m es code sh ti tag) s = .next
        (((s.frameTaken p m).modMod p m fun q => { q with eack := es }).emit (.toRole 3 (4 + 2 * p.val) sh)))) := by
  have hstep : exec (.moduleEvent p m es code sh ti tag) s = execModuleEvent p m es code sh ti tag s := rfl
  rw [hstep, execModuleEvent, State.edFrame_ok _ h]
  simp only [(State.edMod_frameTaken (s := s) p m).1]
  refine ⟨fun hother => by rw [if_pos hother], fun hnext => ?_⟩
  rw [if_neg (by simp [hnext])]
  exact ⟨fun hcode => by subst hcode; rfl, fun hcode => by subst hcode; rfl⟩

/-! ### The deadlines of announces and feeds -/

/-- An announce past its deadline, with no answer of the modules on its route. -/
theorem State.exec_announceDeadline {sh : Nat} {a : EdAnnounce} (hfind : s.ed[1].announces.find? (fun a => a.sheet == sh && !a.closed) = some a)
    (hlate : a.deadline ≤ s.time) :
    (a.route = some [] → exec (.announceDeadline sh) s = .next (((s.satAdd (F.ED_CNT_B_ANN_TIMEOUT 1) 0).edCancel 1 0x05 sh).closeAnnounce sh .accept)) ∧
    (∀ m r, a.route = some (m :: r) → a.answers = [] → exec (.announceDeadline sh) s = .next
      (((s.satAdd (F.ED_CNT_B_ANN_TIMEOUT 1) (r.length + 1)).edCancel 1 0x05 sh).closeAnnounce sh .refuse)) := by
  have hnow : ¬ s.time < a.deadline := by omega
  have hstep : exec (.announceDeadline sh) s = execAnnounceDeadline sh s := rfl
  rw [hstep]
  refine ⟨fun hroute => ?_, fun m r hroute hanswers => ?_⟩
  · simp only [execAnnounceDeadline, hfind, if_neg hnow, hroute]
    rfl
  · have hall : r.filter (fun _ => true) = r := List.filter_eq_self.mpr fun _ _ => rfl
    simp [execAnnounceDeadline, hfind, if_neg hnow, hroute, hanswers, hall]

/-- Settles O45: the frames that are in order, and the two deadlines. -/
theorem edkarFrameCommands : Obligations.EdkarFrameCommands := by
  refine ⟨?status, ?identified, ?conflict, ?noKey, ?authed, ?reserved, ?announceReply, ?feedReply, ?ack, ?otherEvent, ?delivered, ?received,
    ?noRoute, ?unanswered, ?early, ?feedLate, ?noFeed⟩
  case status => exact fun p m tid fl ev tag s h => congrArg Host.Outcome.next (State.edFrame_ok _ h)
  case identified =>
    intro p m tid v mo ser ver cls caps s hrun hm hwindow hst
    have habsent : s.modState p m = edAbsent := hst
    have hpresent : ¬ s.modPresent p m = true := by simp [State.modPresent, hst, edIdent, edActive, edThrottled]
    refine (State.exec_identity hrun hm hwindow (by rw [hst]; decide)).trans ?_
    simp only [if_neg hpresent, if_pos habsent]
  case conflict =>
    intro p m tid v mo ser ver cls caps x s hrun hm hwindow hst hserial hother
    have hpresent : s.modPresent p m = true := by simp [State.modPresent, hst, edIdent, edActive, edThrottled]
    refine (State.exec_identity hrun hm hwindow (by rw [hst]; decide)).trans ?_
    simp only [if_pos hpresent, State.edMod_modMod, hserial, Option.some.injEq, if_neg hother]
    rfl
  case noKey =>
    exact fun p m tid r tr s hrun hm hwindow hst htrans htype htid hopen hkey =>
      (State.exec_authResponse hrun hm hwindow hst htrans htype htid hopen).1 hkey
  case authed =>
    exact fun p m tid tr k s hrun hm hwindow hst htrans htype htid hopen hkey =>
      (State.exec_authResponse hrun hm hwindow (by rw [hst]; decide) htrans htype htid hopen).2 k hkey hst rfl
  case reserved => exact fun p m tid sh d tag s h hd => (congrArg Host.Outcome.next (State.edFrame_ok _ h)).trans (congrArg Host.Outcome.next (if_pos hd))
  case announceReply =>
    exact fun p m tid sh d tag tr s h hlow hhigh htrans htype htid hopen hsheet =>
      (State.exec_sheetReply h hlow hhigh htrans (.inl htype) htid hopen hsheet).trans (congrArg Host.Outcome.next (if_pos htype))
  case feedReply =>
    exact fun p m tid sh d tag tr s h hlow hhigh htrans htype htid hopen hsheet =>
      (State.exec_sheetReply h hlow hhigh htrans (.inr htype) htid hopen hsheet).trans (congrArg Host.Outcome.next (if_neg (by omega)))
  case ack => exact fun p m tid tag s h => congrArg Host.Outcome.next (State.edFrame_ok _ h)
  case otherEvent => exact fun p m es code sh ti tag s h => (State.exec_moduleEvent h).1
  case delivered => exact fun p m es sh ti tag s h hnext => ((State.exec_moduleEvent h).2 hnext).2 rfl
  case received => exact fun p m es sh ti tag s h hnext => ((State.exec_moduleEvent h).2 hnext).1 rfl
  case noRoute => exact fun sh a s hfind hlate => (State.exec_announceDeadline hfind hlate).1
  case unanswered => exact fun sh a m r s hfind hlate => (State.exec_announceDeadline hfind hlate).2 m r
  case early =>
    intro sh a s hfind hearly
    change execAnnounceDeadline sh s = _
    simp only [execAnnounceDeadline, hfind, if_pos hearly]
  case feedLate =>
    intro sh f s hfind hlate
    change execFeedDeadline sh s = _
    simp only [execFeedDeadline, hfind, if_pos hlate]
  case noFeed =>
    intro sh s hfind
    change execFeedDeadline sh s = _
    simp only [execFeedDeadline, hfind]

end Sys2Proof.Machine
end

