-- ==== Sys2Proof/Proofs/Motion.lean ====
section
/-!
PROOFS. O46: the samples and commands of the steppers, and the counts of the encoders.
-/
namespace Sys2Proof.Machine

variable {s : State}

/-! ### Stepper channels -/

/-- A stepper sample that is due follows the coarse inputs or the move. -/
theorem State.exec_stepperSample {n : Fin 16} (hdue : (s.stp n).sampled ≤ sampleOf s.time) : exec (.stepperSample n) s = .next
    (let t := s.modStp n fun q => { q with sampled := sampleOf s.time + 1 }
     ((if s.on (F.STP_CFG_SRC n) then t.coarseSample n else t.moveSample n).currents n).stpRegs n) :=
  if_neg (by omega)

/-- A sample of a channel that is not homing, with its limits inactive and no stop in force. -/
theorem State.moveSample_free {n : Fin 16} (hset : s.due (stpPage n) = false) (hlimp : s.inputActive (s.rd (F.STP_SW_LIMP_SRC n)) = false)
    (hlimn : s.inputActive (s.rd (F.STP_SW_LIMN_SRC n)) = false) (hestop : (s.stp n).estop = false) (hbrake : (s.stp n).brake = false) :
    s.moveSample n =
      (let v := nextSpeed (s.stp n).vel ((s.wr (F.STP_STAT_LIM_BLOCK n) 0).targetSpeed n) (s.rd (F.STP_ACC_A n)) (s.rd (F.STP_DEC_D n))
       (((s.wr (F.STP_STAT_LIM_BLOCK n) 0).modStp n fun q => { q with
         pos := q.pos + v * 1000, vel := v, restAt := if v = 0 ∧ q.vel ≠ 0 then s.time else q.restAt, movedAt := s.time }).stpArrive n)) := by
  have hkept : s.stpSet n = s := if_neg (by simp [hset])
  have hstp (v : Nat) : (s.wr (F.STP_STAT_LIM_BLOCK n) v).stp n = s.stp n := rfl
  have hacc (v : Nat) : (s.wr (F.STP_STAT_LIM_BLOCK n) v).rd (F.STP_ACC_A n) = s.rd (F.STP_ACC_A n) :=
    State.rd_wr_ne s (by simp only [Fld.key, F.STP_ACC_A, F.STP_STAT_LIM_BLOCK]; omega) v
  have hdec (v : Nat) : (s.wr (F.STP_STAT_LIM_BLOCK n) v).rd (F.STP_DEC_D n) = s.rd (F.STP_DEC_D n) :=
    State.rd_wr_ne s (by simp only [Fld.key, F.STP_DEC_D, F.STP_STAT_LIM_BLOCK]; omega) v
  simp only [State.moveSample, hkept, hlimp, hlimn, Bool.or_self, Bool.and_false, State.flag, hstp, hestop, hbrake, Bool.false_eq_true, if_false, hacc, hdec]
  rfl

theorem State.exec_home {a : Agent} {n : Fin 16} (h : writable s a (stpPage n) 0x070) : exec (.home a n) s = .next
    (if s.on (F.STP_CFG_SRC n) || s.homing n then s
     else ((s.homeTo n (if s.inputActive (s.rd (F.STP_SW_HOME_SRC n)) then hClear else hSearch)).wr (F.STP_STAT_AT_TGT n) 0).stpState n) :=
  congrArg Host.Outcome.next (s.write_ok h _)

theorem State.modStp_congr {n : Fin 16} {f g : Stepper → Stepper} (h : f (s.stp n) = g (s.stp n)) : s.modStp n f = s.modStp n g := by
  simp only [State.modStp]
  rw [show f s.mo.steppers[n] = g s.mo.steppers[n] from h]

/-- A forward coarse step that is not too fast, while an ESTOP is in force. -/
theorem State.exec_coarseStep_of_estop {n : Fin 16} (hsrc : s.on (F.STP_CFG_SRC n) = true) (hestop : (s.stp n).estop = true)
    (hslow : (s.rd (F.STP_INTERP_IMIN n) : Int) ≤ s.time - ((s.stp n).follow s.time).stepAt) : exec (.coarseStep n false) s = .next
      ((s.wrS (F.STP_CSTEP_COUNT n) (s.rdS (F.STP_CSTEP_COUNT n) + 1)).modStp n fun _ => { (s.stp n).follow s.time with
        goalP := (s.rdS (F.STP_CSTEP_COUNT n) + 1) * (2 ^ s.rd (F.STP_CFG_CRATIO n) : Nat), stepAt := s.time, vel := ((s.stp n).follow s.time).vel }) := by
  have hfast : decide ((s.time : Int) - ((s.stp n).follow s.time).stepAt < (s.rd (F.STP_INTERP_IMIN n) : Int)) = false := decide_eq_false (by omega)
  have hkept (v : Int) : (s.wrS (F.STP_CSTEP_COUNT n) v).stp n = s.stp n := rfl
  refine (if_neg (by simp [hsrc])).trans (congrArg Host.Outcome.next ?_)
  simp only [Bool.false_eq_true, if_false, hfast, State.ifDo]
  exact State.modStp_congr (by simp only [hkept, hestop, if_true])

/-! ### Encoders -/

theorem State.exec_encoderIndex {e : Fin 8} (hen : s.on (F.ENC_CFG_IDX_EN e) = true) (hiso : s.on (H.ISOLATED (encPage e)) = false) :
    exec (.encoderIndex e) s = .next
      ((((s.wr (F.ENC_IDX_RAW e) (s.rd (F.ENC_RAW_COUNT e))).modEnc e fun q => { q with indexed := true }).event (encPage e) 1).ifDo
        (s.rd (F.ENC_CPR_CPR e) != 0 && s.mo.encoders[e].indexed &&
          (diff32 (s.rd (F.ENC_RAW_COUNT e)) (s.rd (F.ENC_IDX_RAW e))).natAbs != s.rd (F.ENC_CPR_CPR e))
        fun t => (t.sat (F.ENC_CNT2_IDX_ERR e)).raise 164 (encPage e) 1) :=
  if_neg (by simp [hen, hiso])

/-- Settles O46: the samples and commands of the steppers, and the counts of the encoders. -/
theorem motionCommands : Obligations.MotionCommands := by
  refine ⟨?notDue, ?coarse, ?move, ?sample, ?estop, ?homeClear, ?homeSearch, ?noHome, ?noCoarse, ?coarseEstop, ?encIsolated, ?encBoth, ?encForward,
    ?noIndex, ?index, ?indexWrong, ?speed, ?noSpeed, ?resync⟩
  case notDue => exact fun n s h => if_pos h
  case coarse => exact fun n s hdue hsrc => (State.exec_stepperSample hdue).trans (by simp only [hsrc, if_true])
  case move => exact fun n s hdue hsrc => (State.exec_stepperSample hdue).trans (by simp only [hsrc, Bool.false_eq_true, if_false])
  case sample => exact fun n s hset _ hlimp hlimn hestop hbrake => State.moveSample_free hset hlimp hlimn hestop hbrake
  case estop => exact fun a n s h => congrArg Host.Outcome.next (s.write_ok h _)
  case homeClear =>
    intro a n s h hsrc hhoming hin
    rw [State.exec_home h, hsrc, hhoming, hin]
    rfl
  case homeSearch =>
    intro a n s h hsrc hhoming hin
    rw [State.exec_home h, hsrc, hhoming, hin]
    rfl
  case noHome =>
    intro a n s h hbusy
    exact (State.exec_home h).trans (congrArg Host.Outcome.next (if_pos (by simpa using hbusy)))
  case noCoarse => exact fun n d s hsrc => if_pos (by simp [hsrc])
  case coarseEstop => exact fun n s hsrc hestop hslow => State.exec_coarseStep_of_estop hsrc hestop hslow
  case encIsolated => exact fun e a b s h => if_pos h
  case encBoth => exact fun e a s hiso => (if_neg (by simp [hiso])).trans (if_pos rfl)
  case encForward =>
    intro e s hiso hneg hhead
    refine (if_neg (by simp [hiso])).trans ((if_neg Bool.false_ne_true).trans (congrArg Host.Outcome.next ?_))
    rw [hneg]
    exact s.encCount_advanced hhead
  case noIndex => exact fun e s hen => if_pos (by simp [hen])
  case index =>
    intro e s hen hiso hfirst
    rw [State.exec_encoderIndex hen hiso, State.ifDo, if_neg]
    rcases hfirst with h | h <;> simp only [h, Bool.and_false, Bool.false_and, bne_self_eq_false, Bool.false_eq_true, not_false_iff]
  case indexWrong =>
    intro e s hen hiso hcpr hindexed hwrong
    rw [State.exec_encoderIndex hen hiso, State.ifDo, if_pos]
    simp only [hindexed, Bool.and_true, Bool.and_eq_true, bne_iff_ne]
    exact ⟨hcpr, hwrong⟩
  case speed =>
    intro e s hdue hiso hcounted hmoved
    have hnow : ¬ (s.time < s.mo.encoders[e].evalAt + s.rd (F.ENC_SPD_PER e) ∨ s.on (H.ISOLATED (encPage e)) = true) := by
      rintro (h | h)
      · omega
      · simp [hiso] at h
    refine (if_neg hnow).trans ?_
    simp only [hcounted, if_true, if_neg hmoved]
  case noSpeed => exact fun e s h => if_pos (.inl h)
  case resync => exact fun a e s h => s.exec_resync h

end Sys2Proof.Machine
end

