-- ==== Sys2Proof/Proofs/MotorStart.lean ====
section
/-!
PROOFS. O47: starting and stopping a motor.
-/
namespace Sys2Proof.Machine

variable {s : State}

/-! ### The commands of a commutation channel -/

theorem State.exec_start {a : Agent} {n : Fin 12} (h : writable s a (cmPage n) 0x074) : exec (.start a n) s = .next (s.cmStartCmd n) :=
  congrArg Host.Outcome.next (s.write_ok h _)

theorem State.exec_stop {a : Agent} {n : Fin 12} (h : writable s a (cmPage n) 0x074) : exec (.stop a n) s = .next (s.cmStopCmd n) :=
  congrArg Host.Outcome.next (s.write_ok h _)

theorem State.exec_coast {a : Agent} {n : Fin 12} (h : writable s a (cmPage n) 0x074) :
    exec (.coast a n) s = .next (if s.cmState n = cmOff then s else (s.cmToOff n).hwReact) :=
  congrArg Host.Outcome.next (s.write_ok h _)

/-- START by the state of a channel that is not isolated. -/
theorem State.cmStartCmd_of_state {n : Fin 12} (hiso : s.on (H.ISOLATED (cmPage n)) = false) : s.cmStartCmd n =
    if s.cmState n = 0 then s.cmQueue n
    else if s.cmState n = 7 then s.enterRun n (s.motor n).ramp
    else if s.cmState n = 8 then (if s.on (F.MB_STAT_TRIPPED (s.cmGroup n)) then s.accessBusy (cmPage n) else s.cmQueue n)
    else s :=
  if_neg (by simp [hiso])

theorem State.cmStartCmd_of_run {n : Fin 12} (hst : s.cmState n = 6) : s.cmStartCmd n = s := by
  cases hiso : s.on (H.ISOLATED (cmPage n)) with
  | true => exact if_pos hiso
  | false => rw [State.cmStartCmd_of_state hiso, if_neg (by omega), if_neg (by omega), if_neg (by omega)]

theorem State.cmStopCmd_of_state {n : Fin 12} : s.cmStopCmd n =
    if s.cmState n = 1 then s.cmToOff n else if s.cmState n = 6 then ((s.cmLeave n).cmTo n 7).hwReact else s := rfl

/-- KE_PROBE on a channel that runs in its band. -/
theorem State.exec_keProbe {a : Agent} {n : Fin 12} (h : writable s a (cmPage n) 0x074) (hst : s.cmState n = 6) (hband : s.on (F.CM_STAT_IN_BAND n) = true)
    (hprobe : (s.motor n).probe = none) : exec (.keProbe (some a) n) s =
      .next (if s.cmExposing n then s.modMotor n fun m => { m with keDue := true } else s.keStart n) :=
  (congrArg Host.Outcome.next (s.write_ok h _)).trans (congrArg Host.Outcome.next (if_pos ⟨hst, hband, hprobe⟩))

/-! ### Admission -/

/-- The queue's head came in this tick and fits the budget. -/
theorem State.exec_startAdmit_of_fits {g : Fin 2} {n : Fin 12} {r : List (Nat × Nat)} (hqueue : s.ct.groups[g].queue = (n.val, s.time) :: r)
    (huv : s.on (F.MB_STAT_UV g) = false) (htrip : s.on (F.MB_STAT_TRIPPED g) = false) (hiso : s.on (H.ISOLATED mbPage) = false)
    (hfits : s.startWeight g n + s.rd (F.CM_START_WEIGHT n) ≤ s.rd (F.MB_BUDGET_BUDGET g)) : exec (.startAdmit g) s = .next
      ((((((s.modGroup g fun q => { q with queue := r }).sat (F.CM_CNT_STARTS n)).wr (F.MB_BUDGET_WAIT_MAX g) (max 0 (s.rd (F.MB_BUDGET_WAIT_MAX g))))).modMotor n
        fun m => { m with winEnd := s.time + s.rd (F.CM_START_WIN n) * 100000, agree := 0, times := [], peak := 0, drive := .off, duty := 0 }).cmTo n 2) := by
  have hn : Fin.ofNat 12 n.val = n := Fin.ofNat_val_eq_self n
  have hwait : min ((s.time - s.time) / 100000) 65535 = 0 := by simp
  change execStartAdmit g s = _
  simp only [execStartAdmit, hqueue, hn, huv, htrip, hiso, hfits, hwait, Bool.not_false, Bool.true_and, decide_true, Nat.lt_irrefl,
    decide_false, State.ifDo, Bool.false_eq_true, if_false]
  rfl

/-- The queue's head fits the budget alone, but not beside those that start. -/
theorem State.exec_startAdmit_of_full {g : Fin 2} {n : Fin 12} {t : Nat} {r : List (Nat × Nat)} (hqueue : s.ct.groups[g].queue = (n.val, t) :: r)
    (halone : s.rd (F.CM_START_WEIGHT n) ≤ s.rd (F.MB_BUDGET_BUDGET g))
    (hfull : s.rd (F.MB_BUDGET_BUDGET g) < s.startWeight g n + s.rd (F.CM_START_WEIGHT n)) : exec (.startAdmit g) s = .next s := by
  have hn : Fin.ofNat 12 n.val = n := Fin.ofNat_val_eq_self n
  change execStartAdmit g s = _
  simp only [execStartAdmit, hqueue, hn, Nat.not_le.mpr hfull, Nat.not_lt.mpr halone, decide_false, Bool.false_and, Bool.or_self,
    Bool.and_false, Bool.false_eq_true, if_false]

/-! ### The ends of LISTEN and ALIGN -/

theorem State.exec_listenDone {n : Fin 12} (hst : s.cmState n = 2) :
    ((s.motor n).agree < 3 → (s.motor n).since + s.rd (F.CM_START_LISTEN_T n) * 100000 ≤ s.time → exec (.listenDone n) s = .next (s.fromRest n)) ∧
    (3 ≤ (s.motor n).agree → (s.rdS (F.CM_SPEED_SPEED n)).natAbs < s.rd (F.CM_REV_RATED n) * 100 → 0 < s.rdS (F.CM_SPEED_SPEED n) * s.forward n →
      exec (.listenDone n) s = .next ((((s.enterRun n (s.rdS (F.CM_SPEED_SPEED n))).event (cmPage n) 4).inc (F.CM_CNT2_CATCH n)).hwReact)) := by
  have hlisten : ¬ s.cmState n ≠ cmListen := fun hother => hother hst
  have hstep : exec (.listenDone n) s = execListenDone n s := rfl
  rw [hstep, execListenDone]
  refine ⟨fun hfew htime => ?_, fun hmany hslow hforward => ?_⟩
  · rw [if_neg hlisten, if_neg (by omega), if_pos htime]
  · have hnoKe : decide (s.rd (F.CM_REV_RATED n) * 100 ≤ (s.rdS (F.CM_SPEED_SPEED n)).natAbs) = false := decide_eq_false (by omega)
    rw [if_neg hlisten, if_pos hmany]
    simp only [hnoKe, State.ifDo, Bool.false_eq_true, if_false, if_pos hforward]

/-- Settles O47: the commands of a channel, its admission, and the ends of LISTEN and ALIGN. -/
theorem motorStartCommands : Obligations.MotorStartCommands := by
  refine ⟨?queued, ?again, ?tripped, ?running, ?stopQueued, ?stopRun, ?noStop, ?coast, ?noCoast, ?probe, ?probeDue, ?noProbe, ?noQueue, ?admitted,
    ?waits, ?atRest, ?caught, ?noListen, ?aligned, ?noAlign⟩
  case queued =>
    intro a n s h hiso hst
    rw [State.exec_start h, State.cmStartCmd_of_state hiso, if_pos hst]
  case again =>
    intro a n s h hiso hst
    rw [State.exec_start h, State.cmStartCmd_of_state hiso, if_neg (by omega), if_pos hst]
  case tripped =>
    intro a n s h hiso hst htrip
    rw [State.exec_start h, State.cmStartCmd_of_state hiso, if_neg (by omega), if_neg (by omega), if_pos hst, if_pos htrip]
    rfl
  case running =>
    intro a n s h hst
    rw [State.exec_start h, State.cmStartCmd_of_run hst]
  case stopQueued =>
    intro a n s h hst
    rw [State.exec_stop h, State.cmStopCmd_of_state, if_pos hst]
  case stopRun =>
    intro a n s h hst
    rw [State.exec_stop h, State.cmStopCmd_of_state, if_neg (by omega), if_pos hst]
  case noStop =>
    intro a n s h hqueued hrun
    rw [State.exec_stop h, State.cmStopCmd_of_state, if_neg hqueued, if_neg hrun]
  case coast => exact fun a n s h hst => (State.exec_coast h).trans (congrArg Host.Outcome.next (if_neg hst))
  case noCoast => exact fun a n s h hst => (State.exec_coast h).trans (congrArg Host.Outcome.next (if_pos hst))
  case probe =>
    intro a n s h hst hband hprobe hexposing
    rw [State.exec_keProbe h hst hband hprobe, hexposing]
    rfl
  case probeDue =>
    intro a n s h hst hband hprobe hexposing
    rw [State.exec_keProbe h hst hband hprobe, hexposing]
    rfl
  case noProbe => exact fun n s hper => congrArg Host.Outcome.next (if_neg fun h => h.1 hper)
  case noQueue =>
    intro g s hqueue
    change execStartAdmit g s = _
    simp only [execStartAdmit, hqueue]
  case admitted => exact fun g n r s hqueue huv htrip hiso hfits => State.exec_startAdmit_of_fits hqueue huv htrip hiso hfits
  case waits => exact fun g n t r s hqueue halone hfull => State.exec_startAdmit_of_full hqueue halone hfull
  case atRest => exact fun n s hst => (State.exec_listenDone hst).1
  case caught => exact fun n s hst => (State.exec_listenDone hst).2
  case noListen => exact fun n s hst => if_pos hst
  case aligned => exact fun n s hst htime => if_pos ⟨hst, htime⟩
  case noAlign => exact fun n s hst => if_neg fun h => hst h.1

end Sys2Proof.Machine
end

