-- ==== Sys2Proof/Proofs/Commutation.lean ====
section
/-!
PROOFS. O48: commutation, the samples of motors and of the motor bus.
-/
namespace Sys2Proof.Machine

variable {s : State}

/-! ### Edges and sectors -/

theorem State.settle_of_none {n : Fin 12} (h : (s.motor n).due = none) : s.settle n = s := by
  simp only [State.settle, h]

theorem State.motor_modMotor (n : Fin 12) (f : Motor → Motor) : (s.modMotor n f).motor n = f (s.motor n) := by
  simp [State.motor, State.modMotor]

theorem State.exec_commutationEdge_of_hall {n : Fin 12} {c : Fin 8} (hdue : (s.motor n).due = none) (hsense : s.rd (F.CM_CFG_SENSE n) = 0) :
    exec (.commutationEdge n c) s = .next
      ((((s.modMotor n fun m => { m with code := c.val }).hallEdge n c.val (s.rd (F.CM_CFG_HALL_OFFS n))).keEnd n).hwReact) := by
  change execCommutationEdge n c s = _
  rw [execCommutationEdge, State.settle_of_none hdue]
  exact if_pos hsense

/-- An edge of a running channel that senses back-EMF and does not coast for a probe. -/
theorem State.exec_commutationEdge_of_bemf {n : Fin 12} {c : Fin 8} (hdue : (s.motor n).due = none) (hsense : s.rd (F.CM_CFG_SENSE n) ≠ 0)
    (hst : s.cmState n = 6) (hprobe : (s.motor n).probe = none) : exec (.commutationEdge n c) s = .next
      (((s.modMotor n fun m => { m with code := c.val }).bemfEdge n (s.motor n).code c.val).hwReact) := by
  have hprobe' : ((s.modMotor n fun m => { m with code := c.val }).motor n).probe = none := by rw [State.motor_modMotor]; exact hprobe
  change execCommutationEdge n c s = _
  rw [execCommutationEdge, State.settle_of_none hdue]
  exact (if_neg hsense).trans (if_pos ⟨.inl hst, hprobe'⟩)

/-- A sector of a running channel without its crossing, not the sixth in a row. -/
theorem State.exec_sectorTimeout {n : Fin 12} (hdue : (s.motor n).due = none) (hsense : s.rd (F.CM_CFG_SENSE n) ≠ 0) (hst : s.cmState n = 6)
    (hprobe : (s.motor n).probe = none) (hcrossed : (s.motor n).crossed = false) (hprev : (s.motor n).prevSector ≠ 0)
    (htime : 2 * (s.motor n).lastEdge + 3 * (s.motor n).prevSector ≤ 2 * s.time) (hmissed : (s.motor n).missed ≠ 5) : exec (.sectorTimeout n) s = .next
      (((((s.modMotor n fun m => { m with missed := m.missed + 1 }).sat (F.CM_CNT_SENSOR_ERR n)).commutate n
        (nextSector (s.rd (F.CM_STAT_SECTOR n)) (s.motor n).dir) (s.motor n).dir s.time)).hwReact) := by
  have hlast : ((s.motor n).missed + 1 == 6) = false := by simpa using hmissed
  change execSectorTimeout n s = _
  rw [execSectorTimeout, State.settle_of_none hdue]
  refine (if_pos ⟨hsense, .inl hst, hprobe, hcrossed, hprev, htime⟩).trans ?_
  simp only [hlast, State.ifDo, Bool.false_eq_true, if_false]

/-- The first legal Hall code of a motor sets its sector. -/
theorem State.hallEdge_first {n : Fin 12} {code offs row : Nat} (hrow : hallRow code = some row) (hseen : (s.motor n).seen = false) :
    s.hallEdge n code offs = (s.modMotor n fun m => { m with seen := true }).wr (F.CM_STAT_SECTOR n) ((row + offs) % 6) := by
  simp only [State.hallEdge, hrow, hseen, Bool.not_false, if_true]

theorem State.hallEdge_illegal {n : Fin 12} {code offs : Nat} (hrow : hallRow code = none) :
    s.hallEdge n code offs = (s.sat (F.CM_CNT_SENSOR_ERR n)).latch (168 + n) (cmPage n) 1 0 none := by
  simp only [State.hallEdge, hrow]
  rfl

/-! ### The 1 ms sample -/

/-- The state in which a sample without a commit or a commutation due is judged. -/
def State.motorTicked (n : Fin 12) (s : State) : State :=
  (s.modMotor n fun m => { m with sampled := s.time / 100000 + 1 }).speedDecay n

/-- The speed shown is all that decays. -/
theorem State.speedDecay_eq (n : Fin 12) : s.speedDecay n = s ∨ ∃ v, s.speedDecay n = s.wrS (F.CM_SPEED_SPEED n) v := by
  unfold State.speedDecay
  dsimp only
  split
  · exact .inr ⟨_, rfl⟩
  · split
    · exact .inr ⟨_, rfl⟩
    · exact .inl rfl

theorem State.rd_motorTicked {n : Fin 12} {f : Fld} (h : f.key ≠ (F.CM_SPEED_SPEED n).key) : (s.motorTicked n).rd f = s.rd f := by
  rcases State.speedDecay_eq (s := s.modMotor n fun m => { m with sampled := s.time / 100000 + 1 }) n with heq | ⟨v, heq⟩
  · rw [State.motorTicked, heq]
    rfl
  · rw [State.motorTicked, heq, State.wrS, State.rd_wr_ne _ h]
    rfl

theorem State.motor_motorTicked (n : Fin 12) : (s.motorTicked n).motor n = { s.motor n with sampled := s.time / 100000 + 1 } := by
  have hmotor := s.motor_modMotor n fun m => { m with sampled := s.time / 100000 + 1 }
  rcases State.speedDecay_eq (s := s.modMotor n fun m => { m with sampled := s.time / 100000 + 1 }) n with heq | ⟨v, heq⟩ <;>
    rw [State.motorTicked, heq] <;> exact hmotor

theorem State.cmState_motorTicked (n : Fin 12) : (s.motorTicked n).cmState n = s.cmState n :=
  State.rd_motorTicked (by simp only [Fld.key, H.STATE, cmPage, F.CM_SPEED_SPEED]; omega)

theorem State.cmState_wrS_ref (n : Fin 12) (v : Int) : (s.wrS (F.CM_REF_SPEED n) v).cmState n = s.cmState n :=
  s.rd_wr_ne (by simp only [Fld.key, H.STATE, cmPage, F.CM_REF_SPEED]; omega) _

theorem State.cmState_modMotor (n : Fin 12) (f : Motor → Motor) (m : Nat) : (s.modMotor n f).cmState m = s.cmState m := rfl

/-- The band is judged of a running channel alone. -/
theorem State.bandSample_of_outside {n : Fin 12} (hst : s.cmState n ≠ 6) (hband : s.on (F.CM_STAT_IN_BAND n) = false) : s.bandSample n = s := by
  have hrun : (s.cmState n == cmRun) = false := by simpa [cmRun] using hst
  simp only [State.bandSample, hrun, hband, Bool.false_and, Bool.false_eq_true, if_false]

/-- A sample that is due starts in the ticked state. -/
theorem State.motorTicked_eq {n : Fin 12} (hset : s.due (cmPage n) = false) (hdue : (s.motor n).due = none) :
    (((s.modMotor n fun m => { m with sampled := s.time / 100000 + 1 }).boundary (cmPage n)).settle n).speedDecay n = s.motorTicked n := by
  have hkept : (s.modMotor n fun m => { m with sampled := s.time / 100000 + 1 }).boundary (cmPage n) =
      s.modMotor n fun m => { m with sampled := s.time / 100000 + 1 } := by
    have hset' : (s.modMotor n fun m => { m with sampled := s.time / 100000 + 1 }).due (cmPage n) = false := hset
    rw [State.boundary, hset']
    rfl
  rw [hkept, State.settle_of_none (by rw [State.motor_modMotor]; exact hdue), State.motorTicked]

/-- The sample of a channel that is OFF. -/
theorem State.exec_motorSample_of_off {n : Fin 12} (htime : (s.motor n).sampled ≤ s.time / 100000) (hset : s.due (cmPage n) = false)
    (hdue : (s.motor n).due = none) (hst : s.cmState n = 0) (hband : s.on (F.CM_STAT_IN_BAND n) = false) :
    exec (.motorSample n) s = .next (((s.motorTicked n).wrS (F.CM_REF_SPEED n) 0).hwReact) := by
  have hticked : (s.motorTicked n).cmState n = 0 := (State.cmState_motorTicked n).trans hst
  have href : ((s.motorTicked n).wrS (F.CM_REF_SPEED n) 0).cmState n = 0 := (State.cmState_wrS_ref n 0).trans hticked
  have hband' : ((s.motorTicked n).wrS (F.CM_REF_SPEED n) 0).on (F.CM_STAT_IN_BAND n) = false := by
    rw [State.on, State.wrS, State.rd_wr_ne _ (by simp only [Fld.key, F.CM_STAT_IN_BAND, F.CM_REF_SPEED]; omega),
      State.rd_motorTicked (by simp only [Fld.key, F.CM_STAT_IN_BAND, F.CM_SPEED_SPEED]; omega)]
    exact hband
  have hsample := State.bandSample_of_outside (by rw [href]; decide) hband'
  change execMotorSample n s = _
  rw [execMotorSample, if_neg (by omega), State.motorTicked_eq hset hdue]
  simp [hticked, href, hsample, cmRun, cmStopping, cmWaitSlow, cmOpenLoop, State.ifDo]

/-- The sample of a channel that runs at its target, above the reversing threshold. -/
theorem State.exec_motorSample_of_run {n : Fin 12} (htime : (s.motor n).sampled ≤ s.time / 100000) (hset : s.due (cmPage n) = false)
    (hdue : (s.motor n).due = none) (hst : s.cmState n = 6) (hprobe : (s.motor n).probe = none)
    (hfast : s.revThresh n ≤ (s.rdS (F.CM_TARGET_SPEED n)).natAbs) : exec (.motorSample n) s = .next
      (let t := (s.motorTicked n).modMotor n fun m =>
         { m with ramp := rampStep m.ramp (s.rdS (F.CM_TARGET_SPEED n)) (s.rd (F.CM_RAMP_ACC n)) (s.decNow n) }
       let u := (t.wrS (F.CM_REF_SPEED n) (refOf (t.motor n).ramp (t.trimOf n))).bandSample n
       (u.ifDo ((u.motor n).keDue && u.cmState n == 6 && !u.cmExposing n) (·.keStart n)).hwReact) := by
  have hticked : (s.motorTicked n).cmState n = 6 := (State.cmState_motorTicked n).trans hst
  have htarget : (s.motorTicked n).rdS (F.CM_TARGET_SPEED n) = s.rdS (F.CM_TARGET_SPEED n) := by
    rw [State.rdS, State.rd_motorTicked (by simp only [Fld.key, F.CM_TARGET_SPEED, F.CM_SPEED_SPEED]; omega), State.rdS]
  have hthresh : (s.motorTicked n).revThresh n = s.revThresh n := by
    rw [State.revThresh, State.rd_motorTicked (by simp only [Fld.key, F.CM_REV_REV_THRESH, F.CM_SPEED_SPEED]; omega),
      State.rd_motorTicked (by simp only [Fld.key, F.CM_REV_RATED, F.CM_SPEED_SPEED]; omega), State.revThresh]
  have hlow : decide ((s.rdS (F.CM_TARGET_SPEED n)).natAbs < s.revThresh n) = false := decide_eq_false (by omega)
  have hprobe' : ((s.motorTicked n).motor n).probe = none := by rw [State.motor_motorTicked]; exact hprobe
  have hacc : (s.motorTicked n).rd (F.CM_RAMP_ACC n) = s.rd (F.CM_RAMP_ACC n) :=
    State.rd_motorTicked (by simp only [Fld.key, F.CM_RAMP_ACC, F.CM_SPEED_SPEED]; omega)
  have hdec : (s.motorTicked n).decNow n = s.decNow n := by
    rw [State.decNow, State.decNow, State.on, State.on,
      State.rd_motorTicked (f := F.CM_RAMP_DEC n) (by simp only [Fld.key, F.CM_RAMP_DEC, F.CM_SPEED_SPEED]; omega),
      State.rd_motorTicked (f := F.CM_STAT_STRETCH n) (by simp only [Fld.key, F.CM_STAT_STRETCH, F.CM_SPEED_SPEED]; omega)]
  change execMotorSample n s = _
  rw [execMotorSample, if_neg (by omega), State.motorTicked_eq hset hdue]
  simp only [htarget, hthresh, hlow, hticked, hprobe', hacc, hdec, State.cmState_wrS_ref, State.cmState_modMotor, cmRun, cmStopping, cmWaitSlow,
    cmOpenLoop, Bool.false_eq_true, and_false, and_self, true_or, Nat.reduceEqDiff, false_and, if_true, if_false]

/-! ### Stalls and the motor bus -/

theorem State.exec_stall {n : Fin 12} (hdue : (s.motor n).due = none) : exec (.stall n) s =
    if s.cmState n = cmRun ∧ (s.motor n).duty ≠ 0 ∧ max (s.motor n).lastEdge (s.motor n).since + s.rd (F.CM_STALL_T n) * 100000 ≤ s.time then
      .next ((s.cmToOff n).latch (168 + n) (cmPage n) 0 0 none).hwReact
    else .next s := by
  change execStall n s = _
  rw [execStall, State.settle_of_none hdue]

theorem State.exec_test {a : Agent} {g : Fin 2} (h : writable s a mbPage (0x05C + 0x20 * g.val)) : exec (.test a g) s = .next
    (if s.ct.groups[g].pairOff ≤ s.rd (F.MB_STAT_VBUS g) ∧ s.ct.groups[g].gateAt = none then
      (s.modGroup g fun q => { q with gateAt := some s.time, volts := [], lowRun := 0, failed := false, testEnd := s.time + 5000 }).wr (F.MB_STAT_GATE g) 1
    else s) :=
  congrArg Host.Outcome.next (s.write_ok h _)

theorem State.exec_resetTrip {a : Agent} {g : Fin 2} (h : writable s a mbPage (0x05C + 0x20 * g.val)) : exec (.resetTrip a g) s = .next
    (if s.rd (F.MB_STAT_VBUS g) ≤ s.ct.groups[g].pairOff then
      if s.on (F.MB_STAT_TRIPPED g) then
        ((s.wr (F.MB_STAT_TRIPPED g) 0).event mbPage (8 * g.val)).each
          ((s.groupOf g).filter fun (n : Fin 12) => s.cmState n == 8 && (s.motor n).restart) fun (n : Fin 12) u => u.cmQueue n
      else s
    else s.accessBusy mbPage) :=
  congrArg Host.Outcome.next (s.write_ok h _)

/-- Settles O48: the sense edges, the samples, the stalls, and the motor bus. -/
theorem commutationCommands : Obligations.CommutationCommands := by
  refine ⟨?hall, ?bemf, ?noSector, ?sector, ?sampled, ?off, ?run, ?stalled, ?noStall, ?first, ?illegal, ?busSampled, ?busSample, ?test, ?noTest,
    ?tripBusy, ?tripReset, ?noTrip⟩
  case hall => exact fun n c s hdue hsense => State.exec_commutationEdge_of_hall hdue hsense
  case bemf => exact fun n c s hdue hsense hst hprobe => State.exec_commutationEdge_of_bemf hdue hsense hst hprobe
  case noSector =>
    intro n s hdue hsense
    change execSectorTimeout n s = _
    rw [execSectorTimeout, State.settle_of_none hdue]
    exact if_neg fun h => h.1 hsense
  case sector =>
    exact fun n s hdue hsense hst hprobe hcrossed hprev htime hmissed => State.exec_sectorTimeout hdue hsense hst hprobe hcrossed hprev htime hmissed
  case sampled => exact fun n s h => if_pos h
  case off => exact fun n s htime hset hdue hst hband => State.exec_motorSample_of_off htime hset hdue hst hband
  case run => exact fun n s htime hset hdue hst hprobe _ hfast => State.exec_motorSample_of_run htime hset hdue hst hprobe hfast
  case stalled => exact fun n s hdue hst hduty htime => (State.exec_stall hdue).trans (if_pos ⟨hst, hduty, htime⟩)
  case noStall => exact fun n s hdue hst => (State.exec_stall hdue).trans (if_neg fun h => hst h.1)
  case first => exact fun n code offs row s hrow hseen => State.hallEdge_first hrow hseen
  case illegal => exact fun n code offs s hrow => State.hallEdge_illegal hrow
  case busSampled => exact fun g s h => if_pos h
  case busSample => exact fun g s h => if_neg (by omega)
  case test => exact fun a g s h hlevel hgate => (State.exec_test h).trans (congrArg Host.Outcome.next (if_pos ⟨hlevel, hgate⟩))
  case noTest => exact fun a g s h hlevel => (State.exec_test h).trans (congrArg Host.Outcome.next (if_neg fun hok => absurd hok.1 (by omega)))
  case tripBusy => exact fun a g s h hlevel => (State.exec_resetTrip h).trans (congrArg Host.Outcome.next (if_neg (by omega)))
  case tripReset =>
    exact fun a g s h hlevel htrip => (State.exec_resetTrip h).trans (congrArg Host.Outcome.next ((if_pos hlevel).trans (if_pos htrip)))
  case noTrip =>
    exact fun a g s h hlevel htrip => (State.exec_resetTrip h).trans (congrArg Host.Outcome.next ((if_pos hlevel).trans (if_neg (by simp [htrip]))))

end Sys2Proof.Machine
end

