-- ==== Sys2Proof/Proofs/Loop.lean ====
section
/-!
PROOFS. O49: loop slots, converters and pulse generators.
-/
namespace Sys2Proof.Machine

variable {s : State}

/-! ### The sample of a loop slot -/

/-- The state after a due sample has been noted. -/
def State.slotNoted (e : Fin 4) (i : Fin 32) (s : State) : State :=
  (s.modLoop e i fun q => { q with sampled := s.time + 1 }).wr (F.LE_STAT_DUE_MAX e) (max (s.rd (F.LE_STAT_DUE_MAX e)) (min 31 (s.dueBelow e 32)))

theorem State.rd_slotNoted {e : Fin 4} {i : Fin 32} {f : Fld} (h : f.key ≠ (F.LE_STAT_DUE_MAX e).key) : (s.slotNoted e i).rd f = s.rd f :=
  State.rd_wr_ne _ h _

theorem State.slState_slotNoted (e : Fin 4) (i : Fin 32) : (s.slotNoted e i).slState e i = s.slState e i :=
  State.rd_slotNoted (by simp only [Fld.key, F.SL_STAT_STATE, F.LE_STAT_DUE_MAX]; omega)

theorem State.mode_slotNoted (e : Fin 4) (i : Fin 32) : (s.slotNoted e i).rd (F.SL_MODE_MODE e i) = s.rd (F.SL_MODE_MODE e i) :=
  State.rd_slotNoted (by simp only [Fld.key, F.SL_MODE_MODE, F.LE_STAT_DUE_MAX]; omega)

theorem State.kind_slotNoted (e : Fin 4) (i : Fin 32) : (s.slotNoted e i).rd (F.SL_IN_KIND e i) = s.rd (F.SL_IN_KIND e i) :=
  State.rd_slotNoted (by simp only [Fld.key, F.SL_IN_KIND, F.LE_STAT_DUE_MAX]; omega)

theorem State.delay_slotNoted (e : Fin 4) (i : Fin 32) : (s.slotNoted e i).rd (F.LE_STAT_DELAY_MAX e) = s.rd (F.LE_STAT_DELAY_MAX e) :=
  State.rd_slotNoted (by simp only [Fld.key, F.LE_STAT_DELAY_MAX, F.LE_STAT_DUE_MAX]; omega)

/-- The motor that forces a slot is found in the fields of the motors. -/
theorem State.forcedBy_slotNoted (e : Fin 4) (i : Fin 32) : (s.slotNoted e i).forcedBy e i = s.forcedBy e i := by
  rw [State.forcedBy, State.forcedBy]
  refine congrArg (fun p => (List.finRange 12).find? p) (funext fun n => ?_)
  rw [State.rd_slotNoted (f := F.CM_LOOP_ENGINE n) (by simp only [Fld.key, F.CM_LOOP_ENGINE, F.LE_STAT_DUE_MAX]; omega),
    State.rd_slotNoted (f := F.CM_LOOP_SLOT n) (by simp only [Fld.key, F.CM_LOOP_SLOT, F.LE_STAT_DUE_MAX]; omega),
    show (s.slotNoted e i).cmState n = s.cmState n from
      State.rd_slotNoted (by simp only [Fld.key, H.STATE, cmPage, F.LE_STAT_DUE_MAX]; omega)]

/-- A slot that is due, on an engine in service. -/
theorem State.slotSampled {e : Fin 4} {i : Fin 32} (hdue : s.slotDue e i = true) (htime : (s.slot e i).sampled ≤ s.time)
    (hiso : s.on (H.ISOLATED (lePage e)) = false) (hsafe : s.isSafe = false) :
    ¬ (!s.slotDue e i || decide (s.time < (s.slot e i).sampled) || s.on (H.ISOLATED (lePage e)) || s.isSafe) = true := by
  simp [hdue, hiso, hsafe, Nat.not_lt.mpr htime]

/-- A slot whose input is no converter channel keeps its reference. -/
theorem State.slotRef_of_kind {e : Fin 4} {i : Fin 32} (h : s.rd (F.SL_IN_KIND e i) ≠ 1) : s.slotRef e i = s := by
  have hkind : (s.rd (F.SL_IN_KIND e i) == 1) = false := by simpa using h
  simp only [State.slotRef, hkind, Bool.false_and, Bool.false_eq_true, if_false]

theorem State.slotMode_of_off {e : Fin 4} {i : Fin 32} (hmode : s.rd (F.SL_MODE_MODE e i) = 0) (hst : s.slState e i = 0) : s.slotMode e i = s :=
  (if_pos hmode).trans (if_pos hst)

theorem State.slotMode_of_auto {e : Fin 4} {i : Fin 32} (hmode : s.rd (F.SL_MODE_MODE e i) = 2) (hst : s.slState e i = 2)
    (hforced : s.forcedBy e i = none) : s.slotMode e i = s := by
  simp only [State.slotMode, hmode, hst, slHeld, slOff, slAuto, Nat.reduceEqDiff, if_false, if_true, hforced]

theorem State.exec_slotSample_of_off {e : Fin 4} {i : Fin 32} {d : Nat} (hdue : s.slotDue e i = true) (htime : (s.slot e i).sampled ≤ s.time)
    (hiso : s.on (H.ISOLATED (lePage e)) = false) (hsafe : s.isSafe = false) (hst : s.slState e i = 0) (hmode : s.rd (F.SL_MODE_MODE e i) = 0)
    (hkind : s.rd (F.SL_IN_KIND e i) ≠ 1) : exec (.slotSample e i d) s = .next (s.slotNoted e i).hwReact := by
  have hoff : (s.slotNoted e i).slState e i = slOff := (State.slState_slotNoted e i).trans hst
  have hkept : ((s.slotNoted e i).slotMode e i).slotRef e i = s.slotNoted e i := by
    rw [State.slotMode_of_off ((State.mode_slotNoted e i).trans hmode) hoff, State.slotRef_of_kind (by rw [State.kind_slotNoted]; exact hkind)]
  have hfree : ¬ (s.slState e i ≠ slOff ∧ s.time < (s.slot e i).busyTo) := fun h => h.1 hst
  rw [State.slotNoted] at hkept hoff ⊢
  change execSlotSample e i d s = _
  rw [execSlotSample, if_neg (State.slotSampled hdue htime hiso hsafe)]
  simp only [if_neg hfree, hkept, if_pos hoff]

/-- The state in which the record of a slot in AUTO is read. -/
def State.slotReads (e : Fin 4) (i : Fin 32) (d : Nat) (s : State) : State :=
  ((s.slotNoted e i).modLoop e i fun q => { q with busyTo := s.time + d }).wr (F.LE_STAT_DELAY_MAX e) (max d (s.rd (F.LE_STAT_DELAY_MAX e)))

theorem State.exec_slotSample_of_auto {e : Fin 4} {i : Fin 32} {d : Nat} {l : List Nat} {t : State} (hdue : s.slotDue e i = true)
    (htime : (s.slot e i).sampled ≤ s.time) (hbusy : (s.slot e i).busyTo ≤ s.time) (hiso : s.on (H.ISOLATED (lePage e)) = false) (hsafe : s.isSafe = false)
    (hst : s.slState e i = 2) (hmode : s.rd (F.SL_MODE_MODE e i) = 2) (hforced : s.forcedBy e i = none) (hkind : s.rd (F.SL_IN_KIND e i) ≠ 1) (hd : d ≤ 20)
    (hread : (s.slotReads e i d).memBytes (slotRecord e i) 0x144 (.loopEngine e) = (some l, t)) (hcause : bit (t.slot e i).causes 2 = false) :
    exec (.slotSample e i d) s = .next ((t.slotCompute e i l d).hwReact) := by
  have hauto : (s.slotNoted e i).slState e i = 2 := (State.slState_slotNoted e i).trans hst
  have hkept : ((s.slotNoted e i).slotMode e i).slotRef e i = s.slotNoted e i := by
    rw [State.slotMode_of_auto ((State.mode_slotNoted e i).trans hmode) hauto ((State.forcedBy_slotNoted e i).trans hforced),
      State.slotRef_of_kind (by rw [State.kind_slotNoted]; exact hkind)]
  have hdelay : min d (20 + 20 * s.dueBelow e i.val) = d := by omega
  have hmax := State.delay_slotNoted (s := s) e i
  have hfree : ¬ (s.slState e i ≠ slOff ∧ s.time < (s.slot e i).busyTo) := by omega
  have hon : ¬ (s.slotNoted e i).slState e i = slOff := by rw [hauto]; decide
  have hsound : ¬ bit (t.slot e i).causes caUncorr = true := by rw [caUncorr, hcause]; decide
  rw [State.slotReads] at hread
  rw [State.slotNoted] at hkept hmax hon hread
  change execSlotSample e i d s = _
  rw [execSlotSample, if_neg (State.slotSampled hdue htime hiso hsafe)]
  simp only [if_neg hfree, hkept, if_neg hon, hdelay, hmax, hread, if_neg hsound]

/-! ### Modes and moves of slots -/

theorem State.exec_slModeWrite {a : Agent} {e : Fin 4} {i : Fin 32} {v : Nat} (h : writable s a (lePage e) (0x114 + 0x60 * i.val)) :
    exec (.slModeWrite a e i v) s = .next
      (let t := ((s.modeWrite e i (if v % 4 = 3 then 1 else v % 4)).wr (F.SL_MODE_N1_EN e i) (bits v 3 1)).wr (F.SL_MODE_N2_EN e i) (bits v 4 1)
       if s.slState e i = slOff then t.wr (F.SL_MODE_FIXLAT e i) (bits v 2 1)
       else if bits v 2 1 = s.rd (F.SL_MODE_FIXLAT e i) then t else t.accessBusy (lePage e)) :=
  congrArg Host.Outcome.next (s.write_ok h _)

theorem State.modeWrite_of_off {e : Fin 4} {i : Fin 32} (hst : s.slState e i = 0) (mode : Nat) : s.modeWrite e i mode = s.wr (F.SL_MODE_MODE e i) mode := by
  simp only [State.modeWrite, hst, slHeld, slAuto, Nat.reduceEqDiff, false_and, if_false]

/-- A slot in AUTO goes to MANUAL with its output. -/
theorem State.modeWrite_of_auto {e : Fin 4} {i : Fin 32} (hst : s.slState e i = 2) :
    s.modeWrite e i 1 = (s.wr (F.SL_MODE_MODE e i) 1).wr (F.SL_MAN e i) (s.rd (F.SL_OUTV e i)) := by
  simp only [State.modeWrite, hst, slHeld, slAuto, Nat.reduceEqDiff, false_and, if_false, and_self, if_true]

/-- An output of no kind is driven by no slot. -/
theorem State.drivenElsewhere_none (e : Fin 4) (i : Fin 32) (num : Nat) : s.drivenElsewhere e i 0 num = false := rfl

/-- A slot of an isolated engine without an output moves to a free slot of another. -/
theorem State.exec_slotMove {e e2 : Fin 4} {i i2 : Fin 32} {b : Fin 12} {l : List Nat} {t : State}
    (h : writable s (.berth b) (lePage e2) (0x108 + 0x60 * i2.val)) (hiso : s.on (H.ISOLATED (lePage e)) = true)
    (hiso2 : s.on (H.ISOLATED (lePage e2)) = false) (hst : s.slState e2 i2 = 0)
    (hroom : s.tickFull e2 (max 100 (s.rd (F.SL_PER_PERIOD e i))) (s.rd (F.SL_PHASE_PHASE e i)) = false) (hdst : s.rd (F.SL_OUT_DST e i) = 0)
    (hread : (s.copyFields (slotFields e i) (slotFields e2 i2)).memBytes (slotRecord e i) 0x200 (.berth b false) = (some l, t)) :
    exec (.slotMove (.berth b) e i e2 i2) s = .next
      (((((t.bankPuts (slotRecord e2 i2) l).copyFields (slotOutFields e i) (slotOutFields e2 i2)).failDriven e2 i2).renameSources e i e2 i2).modeWrite e2 i2 1).hwReact := by
  have hfree : (s.slState e2 i2 != slOff) = false := by rw [hst]; rfl
  refine (congrArg Host.Outcome.next (s.write_ok h _)).trans ?_
  simp only [hiso, hiso2, hfree, hroom, hdst, hread, State.drivenElsewhere_none, Bool.not_true, Bool.or_self, Bool.false_eq_true, if_false,
    Nat.reduceEqDiff, false_and]

/-! ### Converters -/

/-- A conversion result that has come, of a channel of the frame's table. -/
theorem State.exec_adcResult {c : Fin 4} {k : Fin 20} {ch div code : Nat} {push : Bool} (hopen : k.val ∈ s.ct.adc[c].open_)
    (htime : s.ct.adc[c].frameAt + 50 * (k.val + 1) ≤ s.time) (hk : k ≠ 19) (hcode : code < 4096)
    (htable : s.ct.adc[c].table[k.val]? = some (ch, div, push)) : exec (.adcResult c k code) s = .next
      (let t := (((s.modAdc c fun q => { q with open_ := q.open_.filter (· != k.val) }).wr (F.ADC_RES_CODE ch) code).inc (F.ADC_RES_SEQ ch)).kePeak ch code
       (if push then t.adcPush c (code + ch * 2 ^ 12 + (s.ct.adc[c].frameAt + 50 * k.val) % 2 ^ 32 * 2 ^ 32) else t).hwReact) := by
  have hopened : ¬ (!s.ct.adc[c].open_.contains k.val || decide (s.time < s.ct.adc[c].frameAt + 50 * (k.val + 1))) = true := by
    simp only [List.contains_iff_mem.mpr hopen, Nat.not_lt.mpr htime, decide_false, Bool.not_true, Bool.or_self, Bool.false_eq_true, not_false_iff]
  have hlast : ¬ k.val = 19 := fun h => hk (Fin.ext h)
  change execAdcResult c k code s = _
  rw [execAdcResult, if_neg hopened]
  simp only [if_neg hlast, Nat.mod_eq_of_lt hcode, htable]

theorem State.exec_adcResult_reference {c : Fin 4} {code : Nat} (hopen : 19 ∈ s.ct.adc[c].open_) (htime : s.ct.adc[c].frameAt + 1000 ≤ s.time)
    (hcode : code < 4096) : exec (.adcResult c 19 code) s =
      .next (((s.modAdc c fun q => { q with open_ := q.open_.filter (· != 19) }).adcRef c code).hwReact) := by
  have hopened : ¬ (!s.ct.adc[c].open_.contains (19 : Fin 20).val || decide (s.time < s.ct.adc[c].frameAt + 50 * ((19 : Fin 20).val + 1))) = true := by
    have hcame : s.ct.adc[c].frameAt + 50 * ((19 : Fin 20).val + 1) ≤ s.time := htime
    have hwaits : (19 : Fin 20).val ∈ s.ct.adc[c].open_ := hopen
    simp only [List.contains_iff_mem.mpr hwaits, Nat.not_lt.mpr hcame, decide_false, Bool.not_true, Bool.or_self, Bool.false_eq_true, not_false_iff]
  change execAdcResult c 19 code s = _
  rw [execAdcResult, if_neg hopened, Nat.mod_eq_of_lt hcode]
  exact if_pos rfl

/-- Settles O49: the samples, modes and moves of loop slots, the converters, and the generators. -/
theorem loopCommands : Obligations.LoopCommands := by
  refine ⟨?notDue, ?overload, ?off, ?auto, ?heldOut, ?heldEarly, ?nothingHeld, ?modeOff, ?modeAuto, ?noMove, ?move, ?frame, ?noFrame, ?result, ?pushed,
    ?reference, ?noResult, ?period, ?noPeriod⟩
  case notDue =>
    intro e i d s h
    refine if_pos ?_
    rcases h with h | h <;> simp [h]
  case overload =>
    intro e i d s hdue htime hiso hsafe hst hbusy
    exact (if_neg (State.slotSampled hdue htime hiso hsafe)).trans (if_pos ⟨hst, hbusy⟩)
  case off => exact fun e i d s hdue htime hiso hsafe hst hmode hkind => State.exec_slotSample_of_off hdue htime hiso hsafe hst hmode hkind
  case auto =>
    exact fun e i d l t s hdue htime hbusy hiso hsafe hst hmode hforced hkind hd hread hcause =>
      State.exec_slotSample_of_auto hdue htime hbusy hiso hsafe hst hmode hforced hkind hd hread hcause
  case heldOut =>
    intro e i v t r s hheld htime
    change execFixedLatencyApply e i s = _
    simp only [execFixedLatencyApply, hheld, if_pos htime]
  case heldEarly =>
    intro e i v t r s hheld htime
    change execFixedLatencyApply e i s = _
    simp only [execFixedLatencyApply, hheld, if_neg (Nat.not_le.mpr htime)]
  case nothingHeld =>
    intro e i s hheld
    change execFixedLatencyApply e i s = _
    simp only [execFixedLatencyApply, hheld]
  case modeOff =>
    intro a e i v s h hst hmode
    have hoff : s.slState e i = slOff := hst
    rw [State.exec_slModeWrite h]
    simp only [if_pos hoff, if_neg (show ¬ v % 4 = 3 by omega), State.modeWrite_of_off hst]
  case modeAuto =>
    intro a e i v s h hst hmode hfix
    have hon : ¬ s.slState e i = slOff := by rw [hst]; decide
    have hmanual : (if v % 4 = 3 then 1 else v % 4) = 1 := by rw [if_neg (by omega), hmode]
    rw [State.exec_slModeWrite h]
    simp only [if_neg hon, if_pos hfix, hmanual, State.modeWrite_of_auto hst]
  case noMove =>
    intro a e e2 i i2 s h hno
    refine (congrArg Host.Outcome.next (s.write_ok h _)).trans (congrArg Host.Outcome.next (if_pos ?_))
    rcases hno with h | h | h | h <;> simp [h, slOff]
  case move => exact fun e e2 i i2 b l t s h hiso hiso2 hst hroom hdst hread => State.exec_slotMove h hiso hiso2 hst hroom hdst hread
  case frame =>
    intro c s hen hiso hunit htime
    refine if_neg ?_
    simp only [hen, hiso, hunit, Nat.not_le.mpr htime, decide_false, Bool.false_and, Bool.not_true, Bool.or_self, Bool.false_eq_true, not_false_iff]
  case noFrame => exact fun c s hen => if_pos (by simp [hen])
  case result =>
    exact fun c k ch div code s hopen htime hk hcode htable =>
      (State.exec_adcResult hopen htime hk hcode htable).trans (by simp only [Bool.false_eq_true, if_false])
  case pushed =>
    exact fun c k ch div code s hopen htime hk hcode htable => (State.exec_adcResult hopen htime hk hcode htable).trans (by simp only [if_true])
  case reference => exact fun c code s hopen htime hcode => State.exec_adcResult_reference hopen htime hcode
  case noResult =>
    intro c k code s h
    have hclosed : s.ct.adc[c].open_.contains k.val = false := Bool.eq_false_iff.mpr fun hopen => h (List.contains_iff_mem.mp hopen)
    exact if_pos (by simp only [hclosed, Bool.not_false, Bool.true_or])
  case period =>
    intro n s hn hen hphase
    refine (dif_neg (by omega)).trans (if_pos ?_)
    simp [hen, hphase]
  case noPeriod => exact fun n s hn hen => (dif_neg (by omega)).trans (if_neg (by simp [hen]))

end Sys2Proof.Machine
end

