-- ==== Sys2Proof/Proofs/LegacyBus.lean ====
section
/-!
PROOFS. O50: the ZE-40 host bus, its key and its migration window.
-/
namespace Sys2Proof.Machine

variable {s : State}

/-! ### The words of the ZE-40 host bus -/

theorem State.zRead_of_reg {a : Nat} (hz : s.ze40 = true) (ha : a < 0x060) : s.zRead a = s.zRegRead a := by
  simp only [State.zRead, hz, ha, Bool.not_true, Bool.false_eq_true, if_false, if_true]

theorem State.zRegRead_zerr : s.zRegRead 0x005 = ((s.emit (.legacyData (s.zWord 0x005))).wr F.ZERR_CODE 0).wr F.ZERR_COUNT 0 := by
  simp only [State.zRegRead, if_true]

theorem State.zRegRead_countMs : s.zRegRead 0x008 = (s.emit (.legacyData (s.zWord 0x008))).wr F.ZMS_HI_MS s.lg.msHi := by
  simp only [State.zRegRead, Nat.reduceEqDiff, if_false, if_true]

theorem State.zRegRead_countDma : s.zRegRead 0x04C = (s.emit (.legacyData (s.zWord 0x04C))).wr F.ZDMA_CNT_HI_CNT s.lg.cntHi := by
  simp only [State.zRegRead, Nat.reduceEqDiff, if_false, if_true]

theorem State.zWake_of_awake (h : s.dev ≠ stSlack) : s.zWake = s := if_neg (by simpa using h)

/-- A write of a register while the device is awake. -/
theorem State.zWrite_of_reg {a v : Nat} (hz : s.ze40 = true) (ha : a < 0x060) (hdev : s.dev ≠ stSlack) : s.zWrite a v =
    if a = 0x05E then s.zKey v
    else
      let u := s.modLg fun g => { g with keyed := false }
      if a = 0x04B then u.zData v
      else if a = 0x05F then u.ifDo s.lg.open_ fun w => (w.wr F.ZMIG_CTRL_PAGE v).wr F.ZMIG_CTRL_QTR (bits v 8 2)
      else u.zPostWrite a v := by
  simp only [State.zWrite, hz, ha, State.zWake_of_awake hdev, Bool.not_true, Bool.false_eq_true, if_false, if_true]

theorem State.zData_of_room {v : Nat} (h : s.lg.raster.length < 512) : s.zData v = s.zPush v := by
  simp only [State.zData, Nat.not_le.mpr h, if_false]

theorem State.zPostWrite_of_room {a v : Nat} (h : s.lg.wfifo.length < 64) (hv : v < 65536) :
    s.zPostWrite a v = (s.zImage a v).modLg fun g => { g with wfifo := g.wfifo ++ [(a, v)] } := by
  simp only [State.zPostWrite, Nat.not_le.mpr h, false_and, if_false, Nat.mod_eq_of_lt hv]

/-- A post to the queue while there is room. -/
theorem State.exec_legacyWrite_post {a v : Nat} (hz : s.ze40 = true) (ha : a < 0x05E) (hdata : a ≠ 0x04B) (hv : v < 65536) (hdev : s.dev ≠ stSlack)
    (hroom : s.lg.wfifo.length < 64) : exec (.legacyWrite a v) s = .next
      (((s.modLg fun g => { g with keyed := false }).zImage a v).modLg fun g => { g with wfifo := g.wfifo ++ [(a, v)] }) := by
  have hpost := State.zPostWrite_of_room (s := s.modLg fun g => { g with keyed := false }) (a := a) hroom hv
  rw [s.exec_legacyWrite (by omega), Nat.mod_eq_of_lt hv, State.zWrite_of_reg hz (by omega) hdev, if_neg (by omega)]
  simp only [if_neg hdata, if_neg (show ¬ a = 0x05F by omega), hpost]

theorem State.exec_legacyWrite_data {v : Nat} (hz : s.ze40 = true) (hv : v < 65536) (hdev : s.dev ≠ stSlack) (hroom : s.lg.raster.length < 512) :
    exec (.legacyWrite 0x04B v) s = .next ((s.modLg fun g => { g with keyed := false }).zPush v) := by
  rw [s.exec_legacyWrite (by decide), Nat.mod_eq_of_lt hv, State.zWrite_of_reg hz (by decide) hdev, if_neg (by decide)]
  exact congrArg Host.Outcome.next ((if_pos rfl).trans (State.zData_of_room hroom))

theorem State.exec_legacyWrite_control {v : Nat} (hz : s.ze40 = true) (hv : v < 65536) (hdev : s.dev ≠ stSlack) (hopen : s.lg.open_ = true) :
    exec (.legacyWrite 0x05F v) s = .next
      (((s.modLg fun g => { g with keyed := false }).wr F.ZMIG_CTRL_PAGE v).wr F.ZMIG_CTRL_QTR (bits v 8 2)) := by
  rw [s.exec_legacyWrite (by decide), Nat.mod_eq_of_lt hv, State.zWrite_of_reg hz (by decide) hdev, if_neg (by decide)]
  exact congrArg Host.Outcome.next ((if_neg (by decide)).trans ((if_pos rfl).trans (if_pos hopen)))

/-! ### The key and the migration window -/

theorem State.exec_zmigKey {v : Nat} (hz : s.ze40 = true) (hv : v < 65536) (hdev : s.dev ≠ stSlack) : exec (.zmigKey v) s = .next (s.zKey v) := by
  change execZmigKey v s = _
  rw [execZmigKey, Nat.mod_eq_of_lt hv, State.zWrite_of_reg hz (by decide) hdev, if_pos rfl]

/-- A word of the open window. -/
theorem State.windowTest_true (x : Fin 512) (hopen : s.lg.open_ = true) :
    (s.lg.open_ && decide (0x200 ≤ 0x200 + x.val) && decide (0x200 + x.val < 0x400)) = true := by
  have hx := x.isLt
  simp only [hopen, Nat.le_add_right, decide_true, Bool.and_self, Bool.true_and, decide_eq_true_iff]
  omega

theorem State.zTarget2_window {x : Fin 512} {p o : Nat} (hp : s.rd F.ZMIG_CTRL_PAGE = p) (ho : s.rd F.ZMIG_CTRL_QTR * 1024 + 2 * x.val = o) :
    s.zTarget2 (0x200 + x.val) = (p, o) := by
  rw [State.zTarget2, hp, Nat.add_sub_cancel_left, ho]

theorem State.exec_windowRead_open {x : Fin 512} {p o v : Nat} {t : State} (hz : s.ze40 = true) (hopen : s.lg.open_ = true)
    (hp : s.rd F.ZMIG_CTRL_PAGE = p) (ho : s.rd F.ZMIG_CTRL_QTR * 1024 + 2 * x.val = o) (hlow : o % 4 = 0) (hread : s.regRead p o = (v, t)) :
    exec (.windowRead x) s = .next
      ((t.modLg fun g => { g with heldRead := some (p, o), readHi := v / 65536 % 65536 }).emit (.legacyData (v % 65536))) := by
  have hreg : ¬ 0x200 + x.val < 0x060 := by omega
  change execWindowRead x s = _
  simp only [execWindowRead, State.zRead, hz, if_neg hreg, s.windowTest_true x hopen, State.zWinRead, State.zTarget2_window hp ho, hlow, hread,
    Bool.not_true, Bool.false_eq_true, if_false, if_true]

/-- A write of the open window is a low half, or the high half of the word held. -/
theorem State.exec_windowWrite_open {x : Fin 512} {v p o : Nat} (hz : s.ze40 = true) (hopen : s.lg.open_ = true) (hdev : s.dev ≠ stSlack)
    (hp : s.rd F.ZMIG_CTRL_PAGE = p) (ho : s.rd F.ZMIG_CTRL_QTR * 1024 + 2 * x.val = o) (hv : v < 65536) :
    (o % 4 = 0 → exec (.windowWrite x v) s = .next
      ((s.modLg fun g => { g with keyed := false }).modLg fun g => { g with heldWrite := some (p, o), writeLo := v })) ∧
    (o % 4 = 2 → s.lg.heldWrite = some (p, o - 2) → exec (.windowWrite x v) s = .next
      (((s.modLg fun g => { g with keyed := false }).modLg fun g => { g with heldWrite := none }).busWrite .window p (o - 2) (v * 65536 + s.lg.writeLo))) := by
  have hreg : ¬ 0x200 + x.val < 0x060 := by omega
  have hwake : (s.modLg fun g => { g with keyed := false }).zWake = s.modLg fun g => { g with keyed := false } := State.zWake_of_awake hdev
  have hstep : exec (.windowWrite x v) s = .next (s.zWinWrite (0x200 + x.val) v) := by
    change execWindowWrite x v s = _
    simp only [execWindowWrite, State.zWrite, hz, if_neg hreg, s.windowTest_true x hopen, Nat.mod_eq_of_lt hv, Bool.not_true, Bool.false_eq_true,
      if_false, if_true]
  rw [hstep]
  refine ⟨fun hlow => ?_, fun hhigh hheld => ?_⟩
  · simp only [State.zWinWrite, State.zTarget2_window hp ho, hwake, hlow, if_true, Nat.mod_eq_of_lt hv]
  · simp only [State.zWinWrite, State.zTarget2_window hp ho, hwake, if_neg (show ¬ o % 4 = 0 by omega), hheld, if_true, Nat.mod_eq_of_lt hv]

/-! ### The lock inputs of the polygons -/

theorem State.exec_polyLockInput {k : Fin 4} (hz : s.ze40 = true) :
    exec (.polyLockInput k true) s = .next
      ((s.modPoly k fun q => { q with lock := true, since := if s.lg.polys[k].lock = true then s.lg.polys[k].since else s.time }).zLocked k) ∧
    (s.extPoly k = false → exec (.polyLockInput k false) s = .next
      (s.modPoly k fun q => { q with lock := false, since := if s.lg.polys[k].lock = false then s.lg.polys[k].since else s.time })) := by
  have hon : ¬ (!s.ze40) = true := by simp [hz]
  refine ⟨(if_neg hon).trans (if_pos rfl), fun hext => (if_neg hon).trans ((if_neg Bool.false_ne_true).trans (if_neg ?_))⟩
  simp [hext]

/-- Settles O50: the reads and writes of the bus, the key, the window, and the lock inputs. -/
theorem legacyBusCommands : Obligations.LegacyBusCommands := by
  refine ⟨?noRead, ?noWrite, ?reg, ?beyond, ?zerr, ?countMs, ?countDma, ?post, ?data, ?control, ?key, ?firstKey, ?noKey, ?same, ?winRead, ?winClosed,
    ?winLow, ?winHigh, ?winDropped, ?proto, ?noPoly, ?poly, ?polyOff⟩
  case noRead => exact fun ad s hz => congrArg Host.Outcome.next (if_pos (by simp [hz]))
  case noWrite =>
    intro ad v s hz
    have hoff : (!s.ze40) = true := by simp [hz]
    exact ⟨congrArg Host.Outcome.next (if_pos hoff), congrArg Host.Outcome.next (if_neg (by simp [hz])), congrArg Host.Outcome.next (if_pos hoff),
      congrArg Host.Outcome.next (if_pos hoff)⟩
  case reg =>
    intro ad s hz had herr hms hdma
    rw [s.exec_legacyRead (by omega), State.zRead_of_reg hz had]
    simp only [State.zRegRead, if_neg herr, if_neg hms, if_neg hdma]
  case beyond => exact fun ad s hz hlo hhi => by rw [s.exec_legacyRead (by omega), s.zRead_of_closed hz hlo (.inl hhi)]
  case zerr => exact fun s hz => congrArg Host.Outcome.next ((State.zRead_of_reg hz (by decide)).trans State.zRegRead_zerr)
  case countMs => exact fun s hz => congrArg Host.Outcome.next ((State.zRead_of_reg hz (by decide)).trans State.zRegRead_countMs)
  case countDma => exact fun s hz => congrArg Host.Outcome.next ((State.zRead_of_reg hz (by decide)).trans State.zRegRead_countDma)
  case post => exact fun ad v s hz had hdata hv hdev hroom => State.exec_legacyWrite_post hz had hdata hv hdev hroom
  case data => exact fun v s hz hv hdev hroom => State.exec_legacyWrite_data hz hv hdev hroom
  case control => exact fun v s hz hv hdev hopen => State.exec_legacyWrite_control hz hv hdev hopen
  case key =>
    intro v s hz hv hdev hkey hkeyed
    subst hkey
    rw [State.exec_zmigKey hz hv hdev, State.zKey, hkeyed]
    rfl
  case firstKey =>
    intro v s hz hdev hkey
    subst hkey
    rw [State.exec_zmigKey hz (by decide) hdev, State.zKey]
    simp
  case noKey => exact fun s hz hdev => (State.exec_zmigKey hz (by decide) hdev).trans rfl
  case same => exact fun b s h => if_pos h.symm
  case winRead => exact fun x p o v t s hz hopen hp ho hlow hread => State.exec_windowRead_open hz hopen hp ho hlow hread
  case winClosed => exact fun x s hz hclosed => congrArg Host.Outcome.next (s.zRead_of_closed hz (by omega) (.inr hclosed))
  case winLow => exact fun x v p o s hz hopen hdev hp ho hlow hv => (State.exec_windowWrite_open hz hopen hdev hp ho hv).1 hlow
  case winHigh => exact fun x v p o s hz hopen hdev hp ho hhigh hheld hv => (State.exec_windowWrite_open hz hopen hdev hp ho hv).2 hhigh hheld
  case winDropped =>
    intro x v s hclosed
    refine congrArg Host.Outcome.next ?_
    cases hz : s.ze40 with
    | false => exact if_pos (by simp [hz])
    | true => exact s.zWrite_of_closed _ hz (by omega) (.inr hclosed)
  case proto => exact fun s hz => congrArg Host.Outcome.next (if_pos hz)
  case noPoly => exact fun k b s hz => if_pos (by simp [hz])
  case poly => exact fun k s hz => (State.exec_polyLockInput hz).1
  case polyOff => exact fun k s hz => (State.exec_polyLockInput hz).2

end Sys2Proof.Machine
end

