-- ==== Sys2Proof/Proofs/LegacyEmulation.lean ====
section
/-!
PROOFS. O51: the ZE-40 emulation.
-/
namespace Sys2Proof.Machine

variable {s : State}

/-! ### Posted writes -/

theorem State.zDrain_of_empty (h : s.lg.wfifo = []) : s.zDrain = s := by
  rw [State.zDrain, h]
  exact ite_self s

theorem State.zDirect_on {a v : Nat} (hz : s.ze40 = true) (hv : v < 65536) : s.zDirect a v = (s.zWrite a v).zDrain := by
  rw [State.zDirect, if_pos hz, Nat.mod_eq_of_lt hv]

theorem State.zDirect_off {a v : Nat} (hz : s.ze40 = false) : s.zDirect a v = s := if_neg (by simp [hz])

theorem State.exec_submit {m : Fin 16} {tag : Nat} (hz : s.ze40 = true) (htag : tag < 256) :
    exec (.submit m tag) s = .next (s.zWrite 0x00A (1 + 16 * m.val + 256 * tag)).zDrain := by
  change execSubmit m tag s = _
  rw [execSubmit, Nat.mod_eq_of_lt htag, State.zDirect_on hz (by omega)]

theorem State.exec_rasterEnable {sep : Fin 4} {dma : Bool} {b : Nat} (hz : s.ze40 = true) (hb : b < 128) :
    exec (.rasterEnable sep dma b) s = .next (s.zWrite 0x048 (1 + 2 * sep.val + 8 * b2n dma + 256 * b)).zDrain := by
  have hdma : b2n dma ≤ 1 := by cases dma <;> decide
  change execRasterEnable sep dma b s = _
  rw [execRasterEnable, Nat.mod_eq_of_lt (show b < 256 by omega), State.zDirect_on hz (by omega)]

/-! ### The commands of the image's words -/

theorem bit_eq (v i : Nat) : bit v i = decide (v / 2 ^ i % 2 = 1) := Nat.testBit_eq_decide_div_mod_eq

theorem State.zApply_zpage (v : Nat) : s.zApply 0x00A v = (s.ifDo (bit v 0) (·.zSubmit (bits v 4 4) (bits v 8 8))).ifDo (bit v 1) (·.zAbort) := by
  simp only [State.zApply, Nat.reduceEqDiff, false_and, if_false, if_true]

theorem State.zApply_zpoly (v : Nat) : s.zApply 0x037 v = (s.ifDo (bit v 0) (·.zPolys true)).ifDo (bit v 1) (·.zPolys false) := by
  simp only [State.zApply, Nat.reduceEqDiff, false_and, if_false, if_true]

/-- SUBMIT names the planes and the tag in its word. -/
theorem State.zApply_submit {m tag : Nat} (hm : m < 16) (htag : tag < 256) : s.zApply 0x00A (1 + 16 * m + 256 * tag) = s.zSubmit m tag := by
  have hgo : bit (1 + 16 * m + 256 * tag) 0 = true := by rw [bit_eq, decide_eq_true_iff]; omega
  have hstay : bit (1 + 16 * m + 256 * tag) 1 = false := by rw [bit_eq, decide_eq_false_iff_not]; omega
  have hmask : bits (1 + 16 * m + 256 * tag) 4 4 = m := by rw [bits]; omega
  have htags : bits (1 + 16 * m + 256 * tag) 8 8 = tag := by rw [bits]; omega
  rw [State.zApply_zpage, hgo, hstay, hmask, htags]
  rfl

theorem State.zSubmit_none {m tag : Nat} (h : s.lg.defs = []) : s.zSubmit m tag = (s.zerr 4).zPost ⟨tag, 3, 0⟩ := by
  simp only [State.zSubmit, h]

/-- A complete page is refused while four submissions are open. -/
theorem State.zSubmit_full {m tag : Nat} {d : ZDef} {r : List ZDef} (h : s.lg.defs = d :: r) (hdone : d.done &&& m = m) (hfull : 4 ≤ s.lg.subs.length) :
    s.zSubmit m tag = (s.zerr 5).zPost ⟨tag, 3, 0⟩ := by
  simp only [State.zSubmit, h, hdone, ne_eq, not_true_eq_false, if_false, if_pos hfull]

/-! ### The raster intake -/

theorem State.zWordIn_decodes {w : Nat} {d : ZDef} {r : List Nat} {r' : List ZDef} (hraster : s.lg.raster = w :: r)
    (hen : s.on (zNow F.ZRAS_CTRL_EN) = true) (hdefs : s.lg.defs = r' ++ [d]) :
    s.zWordIn = ((s.modLg fun g => { g with raster := r }).zDecode w d).zGrant := by
  have hlast : s.zDef = some d := by rw [State.zDef, hdefs, List.getLast?_concat]
  simp only [State.zWordIn, hraster, if_pos hen, hlast]

theorem zPixels_endOfLine {w : Nat} (left : Nat) (hrun : w % 0x8000 % 0x4000 = 0) (htop : bit w 15 = true) :
    zPixels w left = List.replicate left false := if_pos ⟨hrun, htop⟩

theorem zPixels_run {w : Nat} (left : Nat) (hrun : w % 0x8000 % 0x4000 ≠ 0) (htop : bit w 15 = true) :
    zPixels w left = List.replicate (w % 0x4000) (bit w 14) := (if_neg fun h => hrun h.1).trans (if_pos htop)

theorem zPixels_literal {w : Nat} (left : Nat) (htop : bit w 15 = false) :
    zPixels w left = (List.range (min 15 left)).map fun i => bit w (14 - i) := by
  rw [zPixels, if_neg (by simp [htop]), if_neg (by simp [htop])]

/-- Both run words of `n` pixels. -/
theorem zPixels_runs {n : Nat} (left : Nat) (hpos : 0 < n) (hn : n < 0x4000) :
    zPixels (0x8000 + n) left = List.replicate n false ∧ zPixels (0xC000 + n) left = List.replicate n true := by
  have htop : bit (0x8000 + n) 15 = true ∧ bit (0xC000 + n) 15 = true := by
    constructor <;> (rw [bit_eq, decide_eq_true_iff]; omega)
  have hwhite : bit (0x8000 + n) 14 = false := by rw [bit_eq, decide_eq_false_iff_not]; omega
  have hblack : bit (0xC000 + n) 14 = true := by rw [bit_eq, decide_eq_true_iff]; omega
  constructor
  · rw [zPixels_run left (by omega) htop.1, hwhite, show (0x8000 + n) % 0x4000 = n by omega]
  · rw [zPixels_run left (by omega) htop.2, hblack, show (0xC000 + n) % 0x4000 = n by omega]

/-! ### The partner's DMA -/

/-- A word for the raster port, while its DMA runs or stands. -/
theorem State.zDack_raster {w : Nat} (hchan : s.zChannel = none) :
    (s.on (zNow F.ZRAS_CTRL_DMA) = false → s.zDack w = s) ∧
    (s.on (zNow F.ZRAS_CTRL_DMA) = true → s.lg.raster.length < 512 → s.lg.burst ≠ 0 →
      s.zDack w = ((s.zPush w).modLg fun g => { g with burst := g.burst - 1, dackAt := s.time }).zGrant) := by
  refine ⟨fun hoff => ?_, fun hon hroom hburst => ?_⟩
  · simp only [State.zDack, hchan, hoff, Bool.not_false, Bool.true_or, if_true]
  · simp only [State.zDack, hchan, hon, Bool.not_true, Bool.false_or, decide_eq_true_iff, Nat.not_le.mpr hroom, if_false, if_neg hburst]

/-- A partner burst of a channel that waits too long for its words. -/
theorem State.exec_partnerTimeout {ch : Fin 32} {b : Nat} (hz : s.ze40 = true) (hch : ch ≠ 31) (hgrant : (s.chan ch).grant = some b)
    (hreq : s.rd (F.DC_CFG_REQ ch) = 1) (hst : s.dcState ch = dcActive) (hwords : (s.chan ch).partner.length < b)
    (htime : (s.chan ch).dackAt + 6400 ≤ s.time) : exec (.partnerTimeout ch) s = .next ((s.partnerEnd ch).hwReact.zTimedOut) := by
  have hport : ¬ ch.val = 31 := fun h => hch (Fin.ext h)
  have hlate : s.rd (F.DC_CFG_REQ ch.val) = 1 ∧ (s.dcState ch = dcActive ∨ s.dcState ch = dcPausing) ∧ (s.chan ch).partner.length < b ∧
      (s.chan ch).dackAt + 6400 ≤ s.time := ⟨hreq, .inl hst, hwords, htime⟩
  change execPartnerTimeout ch s = _
  simp only [execPartnerTimeout, hz, Bool.not_true, Bool.false_eq_true, if_false, if_neg hport, hgrant, if_pos hlate]

theorem State.exec_partnerTimeout_none {ch : Fin 32} (h : s.ze40 = false ∨ (ch ≠ 31 ∧ (s.chan ch).grant = none)) :
    exec (.partnerTimeout ch) s = .next s := by
  rcases h with hz | ⟨hch, hgrant⟩
  · exact if_pos (by simp [hz])
  · have hport : ¬ ch.val = 31 := fun h => hch (Fin.ext h)
    change execPartnerTimeout ch s = _
    simp only [execPartnerTimeout, if_neg hport, hgrant, ite_self]

/-- Settles O51: the posted writes, the raster intake, and the partner's DMA. -/
theorem legacyEmulationCommands : Obligations.LegacyEmulationCommands := by
  refine ⟨?apply, ?noApply, ?refresh, ?stopped, ?zint, ?soft, ?submit, ?abort, ?raster, ?poly, ?off, ?drained, ?applyZint, ?applySubmit, ?applyWords, ?noDef,
    ?full, ?word, ?decodes, ?noDack, ?dack, ?dackOff, ?portLate, ?channelLate, ?notLate, ?endOfLine, ?runs, ?literal⟩
  case apply =>
    intro ad v r s hruns hfifo
    refine congrArg Host.Outcome.next ((if_pos hruns).trans ?_)
    simp only [State.zNextWrite, hfifo]
  case noApply =>
    intro s h
    refine congrArg Host.Outcome.next ?_
    rcases h with hruns | hfifo
    · exact if_neg (by simp [hruns])
    · simp only [State.zNextWrite, hfifo, ite_self]
  case refresh => exact fun s hruns => congrArg Host.Outcome.next (if_pos hruns)
  case stopped =>
    intro s hruns
    have hoff : ¬ s.zRuns = true := by simp [hruns]
    exact ⟨congrArg Host.Outcome.next (if_neg hoff), congrArg Host.Outcome.next (if_neg hoff)⟩
  case zint => exact fun m s hz => congrArg Host.Outcome.next (if_pos hz)
  case soft => exact fun s hz hword => congrArg Host.Outcome.next (State.zDirect_on hz hword)
  case submit => exact fun m tag s hz htag => State.exec_submit hz htag
  case abort => exact fun s hz => congrArg Host.Outcome.next (State.zDirect_on hz (by decide))
  case raster => exact fun sep dma b s hz hb => State.exec_rasterEnable hz hb
  case poly =>
    exact fun s hz => ⟨congrArg Host.Outcome.next (State.zDirect_on hz (by decide)), congrArg Host.Outcome.next (State.zDirect_on hz (by decide))⟩
  case off =>
    intro s hz
    have hkept (a v : Nat) : (.next (s.zDirect a v) : Result) = .next s := congrArg Host.Outcome.next (State.zDirect_off hz)
    exact ⟨hkept _ _, hkept _ _, hkept _ _, hkept _ _, hkept _ _⟩
  case drained => exact fun s _ hfifo => State.zDrain_of_empty hfifo
  case applyZint => exact fun m s => if_pos rfl
  case applySubmit => exact fun m tag s hm htag => State.zApply_submit hm htag
  case applyWords => exact fun s => ⟨(State.zApply_zpage 2).trans rfl, (State.zApply_zpoly 1).trans rfl, (State.zApply_zpoly 2).trans rfl⟩
  case noDef => exact fun m tag s h => State.zSubmit_none h
  case full => exact fun m tag d r s h hdone hfull => State.zSubmit_full h hdone hfull
  case word =>
    intro s hruns hfifo
    refine congrArg Host.Outcome.next ((if_pos hruns).trans ?_)
    rw [State.zDrain_of_empty hfifo]
  case decodes => exact fun w d r r' s hraster hen hdefs => State.zWordIn_decodes hraster hen hdefs
  case noDack => exact fun w s hz => congrArg Host.Outcome.next (if_neg (by simp [hz]))
  case dack =>
    exact fun w s hz hchan hon hroom hburst => congrArg Host.Outcome.next ((if_pos hz).trans ((State.zDack_raster hchan).2 hon hroom hburst))
  case dackOff => exact fun w s hz hchan hoff => congrArg Host.Outcome.next ((if_pos hz).trans ((State.zDack_raster hchan).1 hoff))
  case portLate =>
    intro s hz hburst hen htime
    exact (if_neg (by simp [hz])).trans ((if_pos rfl).trans (congrArg Host.Outcome.next (if_pos ⟨hburst, hen, htime⟩)))
  case channelLate =>
    exact fun ch b s hz hch hgrant hreq hst hwords htime => State.exec_partnerTimeout hz hch hgrant hreq hst hwords htime
  case notLate => exact fun ch s h => State.exec_partnerTimeout_none h
  case endOfLine => exact fun left => ⟨zPixels_endOfLine left (by decide) (by decide), zPixels_endOfLine left (by decide) (by decide)⟩
  case runs => exact fun n left hpos hn => zPixels_runs left hpos hn
  case literal =>
    intro w left hw
    have htop : bit w 15 = false := by rw [bit_eq, decide_eq_false_iff_not]; omega
    rw [zPixels_literal left htop]
    refine ⟨by rw [List.length_map, List.length_range], fun i hi => ?_⟩
    rw [List.getElem?_map, List.getElem?_range hi]
    rfl

end Sys2Proof.Machine
end
